-- ==== Sys2Proof/Word.lean ====
section
/-! DEFINITION. The machine's word types (R124, R239) and nothing that a later repair could have to mend. -/

namespace Sys2Proof

/-- A byte of memory. -/
abbrev Byte := BitVec 8
/-- A scalar register, a program counter, a control register (R124, R125). -/
abbrev Word := BitVec 64
/-- An instruction word or a 32-bit datum (R239). -/
abbrev HWord := BitVec 32
/-- A vector register v0-v31 (R124). -/
abbrev VWordReg := BitVec 512
/-- A 128-byte line (R123), or a sweep or darn line. -/
abbrev Line := BitVec 1024
/-- A segment register image of 16 bytes, word 1 in the upper half (R152). -/
abbrev SegImage := BitVec 128

/-- The number of a scalar or vector register, `rd`, `ra`, `vd` and so on (R241). -/
abbrev RegNo := BitVec 5
/-- The number of a predicate register p0-p7 (R241). -/
abbrev PNo := BitVec 3
/-- The number of a segment register s0-s7 (R241). -/
abbrev SegNo := BitVec 3
/-- The number of an accumulator tile m0-m63 (R241). -/
abbrev TileNo := BitVec 6
/-- A lookahead count (R29, R241). -/
abbrev La := BitVec 4

end Sys2Proof
end

