-- ==== Sys2Proof/Syntax.lean ====
section
/-! DEFINITION. The instruction set and the device's other steps: one constructor of `Instr` for each of the 288 rows of
spec/opcode_table.json. The 203 rows with an encoding are the instructions of a thread (R239-R251); the other 85 are the steps of
the host, of Flojo and of the device's engines, which the schedule of a state names (spec/95_what_each_step_holds.md). -/

namespace Sys2Proof

/-- The lane types of a vector instruction, by the ty field (R241, R293). -/
inductive VTy where
  | f64 | f32 | f16 | bf16 | i64 | i32 | i16 | i8
  deriving DecidableEq, Repr

/-- The ORD sub-field of oc (R243). -/
inductive MemOrd where
  | none | acq | rel | ar
  deriving DecidableEq, Repr

/-- The SCOPE sub-field of oc (R243): .qd, .die and .pkg are one code (R192). -/
inductive MemScope where
  | cr | pkg | pod | sys
  deriving DecidableEq, Repr

/-- The element types of `macc` and `mscl`, by the sa field (R316). -/
inductive MTy where
  | f32 | i32 | f64
  deriving DecidableEq, Repr

/-- The operations of the AMO family (R276). -/
inductive AmoOp where
  | swap | add | and | or | xor | min | max | minu | maxu | cas
  deriving DecidableEq, Repr

/-- What a request that another module sends asks of this module's memory (R41, R42). -/
inductive RemoteOp where
  | load (size : Nat)
  | store (size : Nat) (v : Word)
  | amo (op : AmoOp) (w64 : Bool) (b c : Word)
  deriving DecidableEq, Repr

/-- A request from another module: its sender and tag (R275), the partition it acts for, the byte of the export aperture
PA[34:0] and the operation (R41). -/
structure RemoteReq where
  srcModule : Nat
  srcCore : Nat
  seq : Nat
  part : Nat
  pa : Nat
  op : RemoteOp
  deriving DecidableEq, Repr

/-- What holds the word that patrol scrub looked at (R53): a line of memory or of a cache by its PA, a core's local store or tile memory by
its local address, or a TLB or a queue, whose entries have no address. -/
inductive ScrubUnit where
  | line
  | localMem (rank : Nat)
  | other
  deriving DecidableEq, Repr

/-- What patrol scrub found (R53, R54, R59): the structure, its die code (R58), the partition it can be attributed to, the
address, the reporting agent, whether it could be corrected, and the syndrome. -/
structure ScrubFind where
  dram : Bool
  unit : ScrubUnit
  die : Nat
  part : Option Nat
  addr : Nat
  agent : Nat
  correctable : Bool
  info : HWord
  deriving DecidableEq, Repr

/-- One constructor for each row of spec/opcode_table.json: first the instruction words, with their operands, then the steps of the
host and of the device. What such a step acts on (which queue, command, core, line) is not part of an instruction: it is the
`StepArgs` of the turn that names the step, held in State. -/
inductive Instr where
  /-- ADD, R256: Adds two scalar registers. -/
  | add (rd ra rb : RegNo)
  /-- SUB, R256: Subtracts two scalar registers. -/
  | sub (rd ra rb : RegNo)
  /-- AND, R256: Bitwise AND of two registers. -/
  | and (rd ra rb : RegNo)
  /-- OR, R256: Bitwise OR of two registers. -/
  | or (rd ra rb : RegNo)
  /-- XOR, R256: Bitwise XOR of two registers. -/
  | xor (rd ra rb : RegNo)
  /-- SLL, R256: Shift left logical by a register amount. -/
  | sll (rd ra rb : RegNo)
  /-- SRL, R256: Shift right logical by a register amount. -/
  | srl (rd ra rb : RegNo)
  /-- SRA, R256: Shift right arithmetic by a register amount. -/
  | sra (rd ra rb : RegNo)
  /-- SLT, R256: Sets 1 when ra is less than rb, signed. -/
  | slt (rd ra rb : RegNo)
  /-- SLTU, R256: Sets 1 when ra is less than rb, unsigned. -/
  | sltu (rd ra rb : RegNo)
  /-- MUL, R256: Low 64 bits of the product. -/
  | mul (rd ra rb : RegNo)
  /-- MULH, R256: High 64 bits of the signed product. -/
  | mulh (rd ra rb : RegNo)
  /-- MULHU, R256: High 64 bits of the unsigned product. -/
  | mulhu (rd ra rb : RegNo)
  /-- DIV, R257: Long-latency signed division, truncating toward zero. -/
  | div (rd ra rb : RegNo) (la : La)
  /-- DIVU, R257: Long-latency unsigned division. -/
  | divu (rd ra rb : RegNo) (la : La)
  /-- REM, R257: Long-latency signed remainder. -/
  | rem (rd ra rb : RegNo) (la : La)
  /-- REMU, R257: Long-latency unsigned remainder. -/
  | remu (rd ra rb : RegNo) (la : La)
  /-- MIN, R256: Signed minimum. -/
  | min (rd ra rb : RegNo)
  /-- MAX, R256: Signed maximum. -/
  | max (rd ra rb : RegNo)
  /-- MINU, R256: Unsigned minimum. -/
  | minu (rd ra rb : RegNo)
  /-- MAXU, R256: Unsigned maximum. -/
  | maxu (rd ra rb : RegNo)
  /-- CLZ, R256: Counts leading zero bits. -/
  | clz (rd ra : RegNo)
  /-- CTZ, R256: Counts trailing zero bits. -/
  | ctz (rd ra : RegNo)
  /-- POPC, R256: Counts one bits. -/
  | popc (rd ra : RegNo)
  /-- ADDI, R258: Adds a sign-extended immediate. -/
  | addi (rd ra : RegNo) (imm : BitVec 16)
  /-- ANDI, R258: ANDs a zero-extended immediate. -/
  | andi (rd ra : RegNo) (imm : BitVec 16)
  /-- ORI, R258: ORs a zero-extended immediate. -/
  | ori (rd ra : RegNo) (imm : BitVec 16)
  /-- XORI, R258: XORs a zero-extended immediate. -/
  | xori (rd ra : RegNo) (imm : BitVec 16)
  /-- SLTI, R258: Signed compare with an immediate. -/
  | slti (rd ra : RegNo) (imm : BitVec 16)
  /-- SLTIU, R258: Unsigned compare with a sign-extended immediate. -/
  | sltiu (rd ra : RegNo) (imm : BitVec 16)
  /-- SLLI, R259: Shift left by an immediate amount. -/
  | slli (rd ra : RegNo) (n : BitVec 6)
  /-- SRLI, R259: Shift right logical by an immediate amount. -/
  | srli (rd ra : RegNo) (n : BitVec 6)
  /-- SRAI, R259: Shift right arithmetic by an immediate amount. -/
  | srai (rd ra : RegNo) (n : BitVec 6)
  /-- LUI, R260: Loads an immediate shifted left by 16. -/
  | lui (rd : RegNo) (imm : BitVec 21)
  /-- AUIPC, R260: Adds an immediate shifted left by 16 to the PC. -/
  | auipc (rd : RegNo) (imm : BitVec 21)
  /-- CRR, R265: Reads a control register. -/
  | crr (rd : RegNo) (n : BitVec 6)
  /-- CRW, R265: Writes a control register and returns its old value. -/
  | crw (rd ra : RegNo) (n : BitVec 6)
  /-- CRS, R265: Sets bits of a control register and returns its old value. -/
  | crs (rd ra : RegNo) (n : BitVec 6)
  /-- CRC, R265: Clears bits of a control register and returns its old value. -/
  | crc (rd ra : RegNo) (n : BitVec 6)
  /-- BEQ, R262: Branches when equal. -/
  | beq (ra rb : RegNo) (off : BitVec 16)
  /-- BNE, R262: Branches when not equal. -/
  | bne (ra rb : RegNo) (off : BitVec 16)
  /-- BLT, R262: Branches when less, signed. -/
  | blt (ra rb : RegNo) (off : BitVec 16)
  /-- BGE, R262: Branches when greater or equal, signed. -/
  | bge (ra rb : RegNo) (off : BitVec 16)
  /-- BLTU, R262: Branches when less, unsigned. -/
  | bltu (ra rb : RegNo) (off : BitVec 16)
  /-- BGEU, R262: Branches when greater or equal, unsigned. -/
  | bgeu (ra rb : RegNo) (off : BitVec 16)
  /-- JAL, R263: Jumps to a PC-relative target and writes the link. -/
  | jal (rd : RegNo) (off : BitVec 21)
  /-- JALR, R264: Jumps through a register and writes the link. -/
  | jalr (rd ra : RegNo) (imm : BitVec 16)
  /-- LB, R267: Loads a sign-extended byte. -/
  | lb (rt ra : RegNo) (sg : SegNo) (la : La) (off : BitVec 9)
  /-- LBU, R267: Loads a zero-extended byte. -/
  | lbu (rt ra : RegNo) (sg : SegNo) (la : La) (off : BitVec 9)
  /-- LH, R267: Loads a sign-extended halfword. -/
  | lh (rt ra : RegNo) (sg : SegNo) (la : La) (off : BitVec 9)
  /-- LHU, R267: Loads a zero-extended halfword. -/
  | lhu (rt ra : RegNo) (sg : SegNo) (la : La) (off : BitVec 9)
  /-- LW, R267: Loads a sign-extended word. -/
  | lw (rt ra : RegNo) (sg : SegNo) (la : La) (off : BitVec 9)
  /-- LWU, R267: Loads a zero-extended word. -/
  | lwu (rt ra : RegNo) (sg : SegNo) (la : La) (off : BitVec 9)
  /-- LD, R267: Loads a doubleword. -/
  | ld (rt ra : RegNo) (sg : SegNo) (la : La) (off : BitVec 9)
  /-- SB, R267: Stores a byte. -/
  | sb (rt ra : RegNo) (sg : SegNo) (off : BitVec 9)
  /-- SH, R267: Stores a halfword. -/
  | sh (rt ra : RegNo) (sg : SegNo) (off : BitVec 9)
  /-- SW, R267: Stores a word. -/
  | sw (rt ra : RegNo) (sg : SegNo) (off : BitVec 9)
  /-- SD, R267: Stores a doubleword. -/
  | sd (rt ra : RegNo) (sg : SegNo) (off : BitVec 9)
  /-- LACQ, R270: Acquire load of the named scope. -/
  | lacq (rd ra : RegNo) (w : Bool) (sc : MemScope) (sg : SegNo) (la : La)
  /-- SREL, R270: Release store of the named scope. -/
  | srel (rd ra : RegNo) (w : Bool) (sc : MemScope) (sg : SegNo)
  /-- FENCE_ACQ, R271: Acquire fence of the named scope. -/
  | fenceAcq (sc : MemScope)
  /-- FENCE_REL, R271: Release fence of the named scope. -/
  | fenceRel (sc : MemScope)
  /-- FENCE_AR, R271: Acquire and release fence of the named scope. -/
  | fenceAr (sc : MemScope)
  /-- SMAP, R272: Maps a stash entry to a global line. -/
  | smap (rd ra : RegNo) (sg : SegNo)
  /-- SUNMAP, R273: Writes back, deregisters and unmaps a stash entry. -/
  | sunmap (rd : RegNo)
  /-- SFLUSH, R273: Writes back a dirty stash entry. -/
  | sflush (rd : RegNo)
  /-- AMOSWAP, R276: Atomic swap at the home slice. -/
  | amoswap (rd ra : RegNo) (w : Bool) (ord : MemOrd) (sc : MemScope) (sg : SegNo) (la : La)
  /-- AMOADD, R276: Atomic add at the home slice. -/
  | amoadd (rd ra : RegNo) (w : Bool) (ord : MemOrd) (sc : MemScope) (sg : SegNo) (la : La)
  /-- AMOAND, R276: Atomic AND at the home slice. -/
  | amoand (rd ra : RegNo) (w : Bool) (ord : MemOrd) (sc : MemScope) (sg : SegNo) (la : La)
  /-- AMOOR, R276: Atomic OR at the home slice. -/
  | amoor (rd ra : RegNo) (w : Bool) (ord : MemOrd) (sc : MemScope) (sg : SegNo) (la : La)
  /-- AMOXOR, R276: Atomic XOR at the home slice. -/
  | amoxor (rd ra : RegNo) (w : Bool) (ord : MemOrd) (sc : MemScope) (sg : SegNo) (la : La)
  /-- AMOMIN, R276: Atomic signed minimum. -/
  | amomin (rd ra : RegNo) (w : Bool) (ord : MemOrd) (sc : MemScope) (sg : SegNo) (la : La)
  /-- AMOMAX, R276: Atomic signed maximum. -/
  | amomax (rd ra : RegNo) (w : Bool) (ord : MemOrd) (sc : MemScope) (sg : SegNo) (la : La)
  /-- AMOMINU, R276: Atomic unsigned minimum. -/
  | amominu (rd ra : RegNo) (w : Bool) (ord : MemOrd) (sc : MemScope) (sg : SegNo) (la : La)
  /-- AMOMAXU, R276: Atomic unsigned maximum. -/
  | amomaxu (rd ra : RegNo) (w : Bool) (ord : MemOrd) (sc : MemScope) (sg : SegNo) (la : La)
  /-- AMOCAS, R276: Atomic compare and swap with a register pair. -/
  | amocas (rd ra : RegNo) (w : Bool) (ord : MemOrd) (sc : MemScope) (sg : SegNo) (la : La)
  /-- REDADD, R277: Adds a delta into an update-only copy. -/
  | redadd (w : Bool) (ra rb : RegNo) (sg : SegNo)
  /-- REDAND, R277: ANDs a delta into an update-only copy. -/
  | redand (w : Bool) (ra rb : RegNo) (sg : SegNo)
  /-- REDOR, R277: ORs a delta into an update-only copy. -/
  | redor (w : Bool) (ra rb : RegNo) (sg : SegNo)
  /-- REDXOR, R277: XORs a delta into an update-only copy. -/
  | redxor (w : Bool) (ra rb : RegNo) (sg : SegNo)
  /-- REDMIN, R277: Signed minimum reduction into an update-only copy. -/
  | redmin (w : Bool) (ra rb : RegNo) (sg : SegNo)
  /-- REDMAX, R277: Signed maximum reduction into an update-only copy. -/
  | redmax (w : Bool) (ra rb : RegNo) (sg : SegNo)
  /-- REDFADD, R277: Floating-point add reduction into an update-only copy. -/
  | redfadd (w : Bool) (ra rb : RegNo) (sg : SegNo)
  /-- SVER_NEXT, R283: Creates the next version of a versioned word. -/
  | sverNext (ra rb : RegNo) (sg : SegNo)
  /-- SVER_NUMBERED, R283: Creates the version numbered in rd. -/
  | sverNumbered (rd ra rb : RegNo) (sg : SegNo)
  /-- LVER, R283: Loads version k, waiting while it is future. -/
  | lver (rd ra rb : RegNo) (sg : SegNo) (la : La)
  /-- PVER, R283: Polls version k without waiting. -/
  | pver (rd ra rb : RegNo) (sg : SegNo) (la : La)
  /-- RVER, R283: Retires versions up to k. -/
  | rver (ra rb : RegNo) (sg : SegNo)
  /-- LEASE, R279: Requests a lease on a line and parks until the grant. -/
  | lease (rd ra rb : RegNo) (sg : SegNo)
  /-- UNLEASE, R279: Ends a lease, writing its buffered stores if it is still held. -/
  | unlease (rd ra : RegNo) (sg : SegNo)
  /-- BAR_CR, R284: Barrier of core scope. -/
  | barCr (ra rb : RegNo)
  /-- BAR_QD, R284: Barrier of quad scope. -/
  | barQd (ra rb : RegNo)
  /-- BAR_DIE, R284: Barrier of die-quadrant scope. -/
  | barDie (ra rb : RegNo)
  /-- BAR_PKG, R284: Barrier of module scope. -/
  | barPkg (ra rb : RegNo)
  /-- BAR_POD, R284: Barrier of pod-group scope. -/
  | barPod (ra rb : RegNo)
  /-- MBXADD, R285: Posts an increment to a mailbox counter with a release. -/
  | mbxadd (rd ra rb : RegNo)
  /-- MBXWAIT, R285: Parks until a mailbox counter reaches a target, then acquires. -/
  | mbxwait (ra rb : RegNo)
  /-- MBXRD, R285: Reads a mailbox counter with no ordering. -/
  | mbxrd (rd ra : RegNo)
  /-- SPAWN, R287: Launches a task group from device code. -/
  | spawn (rd ra rb : RegNo)
  /-- EXIT, R288: Ends the thread, and the task or starts its successor. -/
  | exit (rd ra : RegNo)
  /-- YIELD, R289: Makes the thread ineligible for 16 cycles. -/
  | yield
  /-- MIGRATE, R290: Moves the thread to the quad beside an address. -/
  | migrate (rd ra : RegNo)
  /-- UPRET, R291: Returns from an upcall to UEPC. -/
  | upret
  /-- VFADD, R295: Vector floating-point add. -/
  | vfadd (ty : VTy) (vd va vb : RegNo) (pm : PNo)
  /-- VFSUB, R295: Vector floating-point subtract. -/
  | vfsub (ty : VTy) (vd va vb : RegNo) (pm : PNo)
  /-- VFMUL, R295: Vector floating-point multiply. -/
  | vfmul (ty : VTy) (vd va vb : RegNo) (pm : PNo)
  /-- VFMA, R295: Vector fused multiply-add. -/
  | vfma (ty : VTy) (vd va vb : RegNo) (pm : PNo)
  /-- VFNMA, R295: Vector fused negated multiply-add. -/
  | vfnma (ty : VTy) (vd va vb : RegNo) (pm : PNo)
  /-- VFMIN, R296: Vector floating-point minimum. -/
  | vfmin (ty : VTy) (vd va vb : RegNo) (pm : PNo)
  /-- VFMAX, R296: Vector floating-point maximum. -/
  | vfmax (ty : VTy) (vd va vb : RegNo) (pm : PNo)
  /-- VFDIV, R297: Vector floating-point divide, parking the slot. -/
  | vfdiv (ty : VTy) (vd va vb : RegNo) (pm : PNo)
  /-- VFSQRT, R297: Vector floating-point square root, parking the slot. -/
  | vfsqrt (ty : VTy) (vd va : RegNo) (pm : PNo)
  /-- VFRCP, R295: Vector reciprocal. -/
  | vfrcp (ty : VTy) (vd va : RegNo) (pm : PNo)
  /-- VFEXP2, R295: Vector power of two. -/
  | vfexp2 (ty : VTy) (vd va : RegNo) (pm : PNo)
  /-- VIADD, R298: Vector integer add. -/
  | viadd (ty : VTy) (vd va vb : RegNo) (pm : PNo)
  /-- VISUB, R298: Vector integer subtract. -/
  | visub (ty : VTy) (vd va vb : RegNo) (pm : PNo)
  /-- VIMUL, R298: Vector integer multiply, low bits. -/
  | vimul (ty : VTy) (vd va vb : RegNo) (pm : PNo)
  /-- VIMIN, R298: Vector signed minimum. -/
  | vimin (ty : VTy) (vd va vb : RegNo) (pm : PNo)
  /-- VIMAX, R298: Vector signed maximum. -/
  | vimax (ty : VTy) (vd va vb : RegNo) (pm : PNo)
  /-- VAND, R298: Vector bitwise AND. -/
  | vand (ty : VTy) (vd va vb : RegNo) (pm : PNo)
  /-- VOR, R298: Vector bitwise OR. -/
  | vor (ty : VTy) (vd va vb : RegNo) (pm : PNo)
  /-- VXOR, R298: Vector bitwise XOR. -/
  | vxor (ty : VTy) (vd va vb : RegNo) (pm : PNo)
  /-- VSLL, R298: Vector shift left. -/
  | vsll (ty : VTy) (vd va vb : RegNo) (pm : PNo)
  /-- VSRL, R298: Vector shift right logical. -/
  | vsrl (ty : VTy) (vd va vb : RegNo) (pm : PNo)
  /-- VSRA, R298: Vector shift right arithmetic. -/
  | vsra (ty : VTy) (vd va vb : RegNo) (pm : PNo)
  /-- VCMPEQ, R299: Vector compare equal into a predicate. -/
  | vcmpeq (ty : VTy) (pd : PNo) (va vb : RegNo) (pm : PNo)
  /-- VCMPLT, R299: Vector compare less than into a predicate. -/
  | vcmplt (ty : VTy) (pd : PNo) (va vb : RegNo) (pm : PNo)
  /-- VCMPLE, R299: Vector compare less or equal into a predicate. -/
  | vcmple (ty : VTy) (pd : PNo) (va vb : RegNo) (pm : PNo)
  /-- VSEL, R299: Selects lanes by predicate. -/
  | vsel (ty : VTy) (vd va vb : RegNo) (pm : PNo)
  /-- PAND, R300: Predicate AND. -/
  | pand (pd pa pb : PNo)
  /-- POR, R300: Predicate OR. -/
  | por (pd pa pb : PNo)
  /-- PXOR, R300: Predicate XOR. -/
  | pxor (pd pa pb : PNo)
  /-- PNOT, R300: Predicate NOT. -/
  | pnot (pd pa : PNo)
  /-- PPOP, R300: Counts the set bits of a predicate into a scalar register. -/
  | ppop (rd : RegNo) (pa : PNo)
  /-- VBCAST, R301: Broadcasts a scalar to the active lanes. -/
  | vbcast (ty : VTy) (vd xa : RegNo) (pm : PNo)
  /-- VEXT, R301: Extracts one lane into a scalar register. -/
  | vext (ty : VTy) (rd va xb : RegNo)
  /-- VPERM, R301: Permutes lanes by index. -/
  | vperm (ty : VTy) (vd va vb : RegNo) (pm : PNo)
  /-- VSLIDE, R301: Slides lanes by a scalar amount. -/
  | vslide (ty : VTy) (vd va xb : RegNo) (pm : PNo)
  /-- VCVT, R302: Converts lanes between types. -/
  | vcvt (dst src : VTy) (vd va : RegNo) (pm : PNo)
  /-- VCVT_F32_E4M3, R303: Converts E4M3 bytes to FP32. -/
  | vcvtF32E4m3 (vd va : RegNo) (pm : PNo)
  /-- VCVT_F32_E5M2, R303: Converts E5M2 bytes to FP32. -/
  | vcvtF32E5m2 (vd va : RegNo) (pm : PNo)
  /-- VCVT_E4M3_F32, R303: Converts FP32 to E4M3 bytes under FRM.SAT. -/
  | vcvtE4m3F32 (vd va : RegNo) (pm : PNo)
  /-- VCVT_E5M2_F32, R303: Converts FP32 to E5M2 bytes. -/
  | vcvtE5m2F32 (vd va : RegNo) (pm : PNo)
  /-- VREDSUM, R304: Sums the lanes in a fixed pairwise tree. -/
  | vredsum (ty : VTy) (vd va : RegNo) (pm : PNo)
  /-- VREDMAX, R304: Maximum of the active lanes. -/
  | vredmax (ty : VTy) (vd va : RegNo) (pm : PNo)
  /-- VREDMIN, R304: Minimum of the active lanes. -/
  | vredmin (ty : VTy) (vd va : RegNo) (pm : PNo)
  /-- VLD, R306: Contiguous vector load. -/
  | vld (ty : VTy) (vd ra : RegNo) (sg : SegNo) (la : La)
  /-- VST, R306: Contiguous vector store. -/
  | vst (ty : VTy) (vd ra : RegNo) (sg : SegNo)
  /-- VLDS_32, R306: Strided load of 32-bit lanes. -/
  | vlds32 (vd ra xb : RegNo) (sg : SegNo) (la : La)
  /-- VLDS_64, R306: Strided load of 64-bit lanes. -/
  | vlds64 (vd ra xb : RegNo) (sg : SegNo) (la : La)
  /-- VSTS_32, R306: Strided store of 32-bit lanes. -/
  | vsts32 (vd ra xb : RegNo) (sg : SegNo)
  /-- VSTS_64, R306: Strided store of 64-bit lanes. -/
  | vsts64 (vd ra xb : RegNo) (sg : SegNo)
  /-- VSTM, R306: Byte-masked vector store. -/
  | vstm (vd ra : RegNo) (pb : PNo) (sg : SegNo)
  /-- VGATH_32, R306: Gathers 32-bit lanes by offset. -/
  | vgath32 (vd ra : RegNo) (pm : PNo) (sg : SegNo) (la : La)
  /-- VGATH_64, R306: Gathers 64-bit lanes by offset. -/
  | vgath64 (vd ra : RegNo) (pm : PNo) (sg : SegNo) (la : La)
  /-- VSCAT_32, R306: Scatters 32-bit lanes by offset. -/
  | vscat32 (vd ra : RegNo) (pm : PNo) (sg : SegNo)
  /-- VSCAT_64, R306: Scatters 64-bit lanes by offset. -/
  | vscat64 (vd ra : RegNo) (pm : PNo) (sg : SegNo)
  /-- VTOPK, R309: Merges candidates into a sorted top-8 list. -/
  | vtopk (vd va vb : RegNo) (pm : PNo)
  /-- VPLANE, R310: Converts packed 4-bit elements to bit-plane layout. -/
  | vplane (vd va : RegNo)
  /-- VUNPLANE, R310: Converts bit-plane layout to packed 4-bit elements. -/
  | vunplane (vd va : RegNo)
  /-- VTREE, R311: Masks keys by draft ancestry into a predicate. -/
  | vtree (pd : PNo) (va xb : RegNo) (pm : PNo)
  /-- VQ4XD, R312: Expands a Q4X group into bytes and an outlier predicate. -/
  | vq4xd (vd : RegNo) (pb : PNo) (va : RegNo)
  /-- MMA, R320: Enqueues a matrix multiply-accumulate into a tile. -/
  | mma (md : TileNo) (ra rb : RegNo) (sa sb : SegNo)
  /-- MZERO, R321: Enqueues the clearing of a tile. -/
  | mzero (md : TileNo)
  /-- MLD, R321: Enqueues a tile load. -/
  | mld (md : TileNo) (ra : RegNo) (sa : SegNo)
  /-- MST, R321: Enqueues a tile store to the local store. -/
  | mst (md : TileNo) (ra : RegNo) (sa : SegNo)
  /-- MSTG, R321: Enqueues a tile store to the back copy of a twin region. -/
  | mstg (md : TileNo) (ra : RegNo) (sa : SegNo)
  /-- MACC, R322: Enqueues the addition of a source tile into md. -/
  | macc (ty : MTy) (md : TileNo) (ra : RegNo)
  /-- MSCL, R322: Enqueues the scaling of md by a register value. -/
  | mscl (ty : MTy) (md : TileNo) (ra : RegNo)
  /-- MFENCE, R323: Waits for the thread's matrix commands and reports failures. -/
  | mfence
  /-- MQSTAT, R324: Reads the matrix queue state. -/
  | mqstat (rd : RegNo)
  /-- LCFG, R328: Binds, rebinds or unbinds a ladder. -/
  | lcfg (lx : BitVec 3) (xo : RegNo)
  /-- LADD_OUTER, R331: Enqueues a ladder push of an outer product. -/
  | laddOuter (lx : BitVec 3) (va vb : RegNo)
  /-- LADD_TILE, R331: Enqueues a ladder push of a tile. -/
  | laddTile (lx : BitVec 3) (ma : TileNo)
  /-- LREAD, R333: Computes the blended read of a ladder. -/
  | lread (lx : BitVec 3) (vd vq : RegNo)
  /-- LLD_TILE, R335: Enqueues a copy of a rung into tiles. -/
  | lldTile (lx : BitVec 3) (ma : TileNo) (xl : RegNo)
  /-- LLD_LOCAL, R335: Enqueues a copy of a rung into the local store. -/
  | lldLocal (lx : BitVec 3) (xo xl : RegNo)
  /-- LST_TILE, R335: Enqueues a copy of tiles into a rung. -/
  | lstTile (lx : BitVec 3) (ma : TileNo) (xl : RegNo)
  /-- LST_LOCAL, R335: Enqueues a copy of local bytes into a rung. -/
  | lstLocal (lx : BitVec 3) (xo xl : RegNo)
  /-- LCLR, R336: Enqueues a reset of a ladder. -/
  | lclr (lx : BitVec 3)
  /-- CPQ, R340: Queues a copy request, parking while the FIFO is full. -/
  | cpq (rd vb : RegNo)
  /-- CPQN, R340: Queues a copy request, or returns BUSY when the FIFO is full. -/
  | cpqn (rd vb : RegNo)
  /-- CPCANCEL, R344: Cancels the task's requests on a copy channel. -/
  | cpcancel (rd ra : RegNo)
  /-- SWEEP, R349: Starts a tile sweep from a stash descriptor. -/
  | sweep (rd ra : RegNo)
  /-- TWAIT, R351: Claims a delivered tile, or returns all ones when the sweep has ended. -/
  | twait (rd : RegNo) (la : La)
  /-- TDONE, R351: Commits the claimed tile with a release. -/
  | tdone (rd : RegNo)
  /-- SWSTAT, R353: Reads the state of a sweep. -/
  | swstat (rd ra : RegNo)
  /-- SWCANCEL, R353: Cancels a live sweep. -/
  | swcancel (rd ra : RegNo)
  /-- KVLOOK, R356: Translates a token position through a KV sequence table. -/
  | kvlook (rd ra rb : RegNo) (la : La)
  /-- KVGATH, R357: Queues a gather of KV pages into the local store. -/
  | kvgath (rd ra vb : RegNo)
  /-- SATOM, R370: Invokes a darn routine on a line. -/
  | satom (rd ra vb : RegNo) (id : BitVec 6) (la : La)
  /-- SRSYNC, R372: Refreshes a routine-table entry in every slice and core. -/
  | srsync (id : BitVec 6)
  /-- TRAP, R375: Raises SYSCALL. -/
  | trap
  /-- SRET, R375: Returns from a trap to user mode at SEPC. -/
  | sret
  /-- WFI, R376: Parks until a mailbox increment, a copy interrupt or a cycle limit. -/
  | wfi (ra : RegNo)
  /-- SEGW, R377: Writes a segment register. -/
  | segw (sn : SegNo) (ra rb : RegNo)
  /-- SEGR, R377: Reads one word of a segment register. -/
  | segr (rd : RegNo) (sn : SegNo) (k : BitVec 1)
  /-- TLBINV, R378: Shoots down translations across the module. -/
  | tlbinv (ra rb : RegNo)
  /-- FLTRD, R379: Reads a word of a hamper entry. -/
  | fltrd (rd ra : RegNo)
  /-- FLTREPLAY, R379: Frees the partition's hamper entries in a quad and wakes its faulters. -/
  | fltreplay (ra : RegNo)
  /-- CINVAL, R380: Invalidates the cached copies of a range without write-back. -/
  | cinval (sn : SegNo) (ra rb : RegNo)
  /-- CFLUSH, R380: Writes dirty cached data of a range to DRAM. -/
  | cflush (sn : SegNo) (ra rb : RegNo)
  /-- PUBLISH, R381: Toggles the front copy of a twin region and shoots it down. -/
  | publish (sn : SegNo) (ra : RegNo)
  /-- SQTAIL, R66: A host write of the SQ tail doorbell of a queue advances the tail, or is ignored with DBERR when the value is too large, and lets the device fetch the new commands. -/
  | sqtail
  /-- CQHEAD, R67: A host write of the CQ head doorbell frees completion-queue entries, and held completion records are then written into them in order. -/
  | cqhead
  /-- QCFG, R65: A write of QCFG enables or disables the SQ and CQ, resetting heads, tails and phase on enable, and sets QERR for ignored size or base changes. -/
  | qcfg
  /-- VFCTL, R83: A write of VFCTL.EN enables or disables command fetch for the VF and applies a pending VFBIND at the next enable. -/
  | vfctl
  /-- REGISTER_WRITE, R8: A write to any device register without a row of its own takes effect in its RW and W1C fields by the access codes, and writes to RO or reserved fields are ignored. -/
  | registerWrite
  /-- LAUNCH, R71: A host command hands a task group descriptor to the die dispatcher for validation and placement, and completes at acceptance or at the end of the group. -/
  | launch
  /-- COPYH, R71: A host command copies bytes between host memory and partition memory through the partition's page tables, stopping with DEVICE_ADDRESS at the first faulting page. -/
  | copyh
  /-- FILL, R71: A host command writes a 64-bit pattern to every 8-byte word of a partition memory range. -/
  | fill
  /-- SIGNAL, R71: A host command posts an increment to a mailbox counter as a release at .sys of the function's earlier completed commands. -/
  | signal
  /-- WAIT, R71: A host command completes once a mailbox counter reaches its target, acting as an acquire at .sys. -/
  | wait
  /-- WAIT_TIMEOUT, R71: The TIMEOUT of a WAIT elapses, the counter is evaluated once more, and the WAIT completes with SUCCESS or TIMEOUT. -/
  | waitTimeout
  /-- ROUTINE, R71: A supervisor queue command writes a routine-table entry and refreshes it as srsync does. -/
  | routine
  /-- MAP, R71: A supervisor queue command writes or unmaps consecutive leaf entries, and completes after their shootdown. -/
  | map
  /-- PARTCFG, R77: A PF command defines a partition from a 256-byte record after checking it, or changes HBASE, SLOTWT and LPTHRESH of a descheduled partition. -/
  | partcfg
  /-- PARTSTART, R78: A PF command starts a stopped partition, which becomes resident when Flojo schedules it. -/
  | partstart
  /-- PARTSTOP, R78: A PF command stops a partition, discards its tasks and contexts, ends its sweeps and aborts its in-execution commands. -/
  | partstop
  /-- VFBIND, R83: A PF command binds or unbinds a VF to a partition and sets its supervisor right. -/
  | vfbind
  /-- VFPAUSE, R83: A PF command pauses a VF, so that none of its commands are fetched and its events are held. -/
  | vfpause
  /-- VFRESUME, R83: A PF command resumes a paused VF, which writes its held events and resumes fetching. -/
  | vfresume
  /-- VFRESET, R85: A PF command resets a VF: it increments GEN, discards held events, clears VFCTL and QCFG, and aborts in-execution commands without records. -/
  | vfreset
  /-- FUNCTION_LEVEL_RESET, R85: A PCIe Function Level Reset of a VF has the effect of VFRESET. -/
  | functionLevelReset
  /-- MASKSET, R86: A PF command writes one of the eight HBM hash mask sets after checking its masks. -/
  | maskset
  /-- LOADIMG, R50: A management command reads and verifies a first stage or device image from host memory, and stores it or restarts boot in recovery. -/
  | loadimg
  /-- ATTEST, R50: A management command reads a nonce and writes a signed attestation report to host memory. -/
  | attest
  /-- RAISEVER, R50: A management command raises the fused minimum security version of a stage to the running version. -/
  | raisever
  /-- MSIX_DEFERRED_SEND, R67: The 1,250-cycle interval since the last vector send of a queue expires, and one further send covers the records written since. -/
  | msixDeferredSend
  /-- MODULE_RESET, R44: At reset the boot ROM reads and verifies the first stage against the fused key and starts the boot stages. -/
  | moduleReset
  /-- DHCPV6_TIMEOUT, R45: No DHCPv6 server answers within 2 s, and stage 1 uses stateless address autoconfiguration instead. -/
  | dhcpv6Timeout
  /-- FETCH_ATTEMPT, R45: A fetch of the device image over HTTP and TLS ends, and the next attempt or stage 2 follows. -/
  | fetchAttempt
  /-- MEMORY_TRAINING, R44: Stage 4 trains HBM and the LP tier and tests and maps the dies, replacing a failing compute die by the spare. -/
  | memoryTraining
  /-- ATTEST_POST, R48: An HTTP POST to /attest on a front-end port, carrying a nonce, is answered with a signed attestation report. -/
  | attestPost
  /-- DIE_SPARING, R35: Flojo evacuates a compute die that crosses a threshold and restores its contexts onto the spare die. -/
  | dieSparing
  /-- COMPUTE_DIE_LOST, R39: A compute die fails hard: its contexts and tasks are lost, join mailboxes are incremented, records are written, and the spare is brought up if free. -/
  | computeDieLost
  /-- FLIT_REPLAY, R40: A Kemir flit that fails its CRC is replayed from the sender's replay buffer. -/
  | flitReplay
  /-- LINK_PORT_DOWN, R40: After 8 consecutive failed replays, a Kemir port goes down. -/
  | linkPortDown
  /-- REMOTE_REQUEST, R41: A request that arrives from another module is checked against the export table and executed at its home slice, or answered DATAERR. -/
  | remoteRequest
  /-- DROOP_TRIP, R51: A quad's droop sensor trips, and the quad's cores and slice are stretched to 0.9375 GHz. -/
  | droopTrip
  /-- DROOP_CLEAR, R51: The droop sensor has stayed clear for 200 ns, and the quad returns to 1.25 GHz. -/
  | droopClear
  /-- THERMAL_SHUTDOWN, R52: A die reaches its hard thermal limit, and Flojo shuts the module down with a record of kind 0x0C. -/
  | thermalShutdown
  /-- PATROL_SCRUB, R53: Patrol scrub finds an error in SRAM or DRAM and corrects it, or poisons the line. -/
  | patrolScrub
  /-- POISON_RESTORE, R55: Flojo rewrites a poisoned line of a read-only page from a clean backing copy and clears the poison. -/
  | poisonRestore
  /-- ERROR_LOG_TAIL_UPDATE, R56: A store to the error log TAIL reaches its home slice, and the log writer takes the new TAIL. -/
  | errorLogTailUpdate
  /-- LLC_REBALANCE, R81: At the end of each rebalance interval, LLC ways are reallocated from the summed shadow-tag counts and the counts are cleared. -/
  | llcRebalance
  /-- TASK_PLACEMENT, R96: The dispatcher places the task at the head of a placement queue on a core where it fits, by PLACE. -/
  | taskPlacement
  /-- GANG_RESERVATION, R100: A gang waits past the gang-wait limit and puts the dispatcher into reservation of a run of cores. -/
  | gangReservation
  /-- LAUNCH_MESSAGE_ARRIVAL, R101: A launch message reaches a core's inbox, its overflow ring, or its parked context. -/
  | launchMessageArrival
  /-- INBOX_TAKE, R101: The core takes the first message of its inbox when room frees, starting the task or accepting the frame. -/
  | inboxTake
  /-- ARBITER_PASS, R111: Every 1,024 rotations, the core's arbiter reassigns QOWN of the slots by stream weights. -/
  | arbiterPass
  /-- CORE_SAVE, R115: At the end of a time slice, Flojo interrupts a core, which drains and saves its context block. -/
  | coreSave
  /-- SAVE_COMMIT_TIMEOUT, R115: A matrix command whose commit has not begun within 2,500 cycles of the save interrupt is abandoned and saved unstarted. -/
  | saveCommitTimeout
  /-- CORE_RESUME, R118: A core restores its context block, applies parked messages, increments counter 63 and releases its slots. -/
  | coreResume
  /-- IFETCH_FILL, R122: A missing fetch line arrives in the L1 instruction cache, and the parked slot continues. -/
  | ifetchFill
  /-- STASH_FILL, R131: The line of a MAPPED stash entry arrives from its home with registration, and the entry becomes CLEAN. -/
  | stashFill
  /-- STASH_RECALL, R133: The home recalls a registered stash entry: the core writes it back, deregisters it and sets it to MAPPED. -/
  | stashRecall
  /-- FORWARDED_ACCESS, R132: A load or store of a registered line, forwarded by the home, is performed on the stash entry and answered. -/
  | forwardedAccess
  /-- MATRIX_COMMAND_EXECUTE, R317: The sequencer executes the command at the head of the matrix queue and commits its writes and flags at completion, or fails it. -/
  | matrixCommandExecute
  /-- LADDER_COMMAND_EXECUTE, R331: The sequencer executes a queued ladder command, carrying rungs and committing n together. -/
  | ladderCommandExecute
  /-- COPY_STEP, R341: A copy channel reads and writes one 128-byte step of its current request and advances CPWPn. -/
  | copyStep
  /-- COPY_INTERRUPT_ENTRY, R141: At an eligible instruction boundary, the thread enters the COPY upcall handler with UEPC, UCAUSE and UIXID set. -/
  | copyInterruptEntry
  /-- COPY_FAULT_TRAP, R343: The issuing thread takes the cause of a failed copy request as a trap at its next eligible boundary. -/
  | copyFaultTrap
  /-- MAILBOX_INCREMENT, R142: A posted increment is applied atomically to a mailbox counter, and waiters are re-evaluated. -/
  | mailboxIncrement
  /-- RESULT_ARRIVAL, R248: A long-latency result arrives and writes its pending destinations, ending the hold of the lookahead window. -/
  | resultArrival
  /-- DEFERRED_TRAP, R250: A result that arrives with an error is taken as a trap at the thread's next instruction boundary. -/
  | deferredTrap
  /-- PAGE_WALK, R160: A quad walker completes a page walk, installing a translation, setting ACC and DIRTY, or recording a fault. -/
  | pageWalk
  /-- MIGRATION_FRAME_ARRIVAL, R148: A migration frame reaches its target core's inbox, guest slot, spill area or parked context. -/
  | migrationFrameArrival
  /-- SPILL_DRAIN, R150: A target with a free inbox entry takes its spilled frame with the lowest SEQ. -/
  | spillDrain
  /-- HOME_QUEUE_SERVE, R175: When a line becomes servable, its home serves the waiting request of the highest class, oldest first. -/
  | homeQueueServe
  /-- UPDATE_COPY_RETURN, R278: A returned update-only copy is combined word by word into the home value, once per tag. -/
  | updateCopyReturn
  /-- LEASE_GRANT, R279: The home grants a lease on a line and starts its length. -/
  | leaseGrant
  /-- LEASE_EXPIRY, R279: A lease reaches its length at the home and ends, leaving the holder's record ended. -/
  | leaseExpiry
  /-- TAG_RESEND, R275: A tagged request without an answer after its resend interval is resent with the same tag. -/
  | tagResend
  /-- RESEND_EXHAUSTED, R275: The last resend goes unanswered, and the source writes a record and delivers DATAERR. -/
  | resendExhausted
  /-- TILE_DELIVERY, R350: A mangle delivers a pending tile into a free buffer of the nearest worker task and marks it delivered. -/
  | tileDelivery
  /-- SWEEP_SPLIT, R350: A merged subscriber passed by more than 64 tiles without a free buffer is split off to run alone. -/
  | sweepSplit
  /-- KVGATH_EXECUTE, R357: The quad walker turns each valid lane of a kvgath request into a global-to-local copy on its channel. -/
  | kvgathExecute
  /-- DARN_INVOCATION, R366: The darner runs a routine against a held line and payload and answers with y0 and flags. -/
  | darnInvocation
  /-- ORD_REFUSAL_RESEND, R368: A refused ordered invocation is resent by its core after 64 cycles with the same tag. -/
  | ordRefusalResend
  /-- LP_FRAME_FILL, R178: An LLC fill from an LP-tier frame increments its counter and may write a tier notification. -/
  | lpFrameFill
  /-- NOTIFY_QUEUE_HEAD_UPDATE, R180: A store to the notification queue HEAD reaches its home, and the slices write entries for pending frames. -/
  | notifyQueueHeadUpdate
  /-- YIELD_EXPIRY, R289: The 16 cycles of a yield pass, and the thread becomes eligible again. -/
  | yieldExpiry
  /-- WFI_TIMEOUT, R376: The cycle limit of a wfi passes, and the thread continues. -/
  | wfiTimeout
  /-- REMOTE_ACCESS_TIMEOUT, R43: A remote load or store that has not completed within 1,250,000 cycles returns DATAERR with a record of kind 0x08. -/
  | remoteAccessTimeout
  /-- POD_BARRIER_ARRIVAL, R284: An arrival at a .pod barrier from another module of the pod group is counted, and may complete the phase and wake local waiters. -/
  | podBarrierArrival
  /-- PARTITION_SCHEDULE, R78: Flojo schedules a started partition, which becomes RESIDENT, so that its VFs become active and its cores begin to issue. -/
  | partitionSchedule
  /-- PCIE_ERROR, R53: A PCIe flit fails its CRC and is replayed, or a PCIe error is logged with a record of kind 0x09. -/
  | pcieError
  deriving DecidableEq, Repr

end Sys2Proof
end

