-- ==== Sys2Proof/WellFormed.lean ====
section
/-! DEFINITION. Well-formedness of an instruction: the operand values that its encoding admits (R243, R251, R276, R282, R303, R305,
R316, R329). The fields' widths already bound everything else. -/

namespace Sys2Proof

/-- ty 0-3 are the floating-point lane types (R293). -/
def isFloatTy : VTy → Bool
  | .f64 | .f32 | .f16 | .bf16 => true
  | .i64 | .i32 | .i16 | .i8 => false

/-- A register that names an even pair (R276, R282, R329). -/
def evenReg (r : RegNo) : Bool := r.extractLsb' 0 1 == 0

/-- Without an order suffix an AMO has no scope: SCOPE is 0 (R243). -/
def ordScopeOk (o : MemOrd) (s : MemScope) : Bool := o != .none || s == .cr

/-- What the encoding of each instruction demands beyond the widths of its fields. Steps of the device have no encoding. -/
def Instr.wf : Instr → Bool
  | .add _ _ _ => true
  | .sub _ _ _ => true
  | .and _ _ _ => true
  | .or _ _ _ => true
  | .xor _ _ _ => true
  | .sll _ _ _ => true
  | .srl _ _ _ => true
  | .sra _ _ _ => true
  | .slt _ _ _ => true
  | .sltu _ _ _ => true
  | .mul _ _ _ => true
  | .mulh _ _ _ => true
  | .mulhu _ _ _ => true
  | .div _ _ _ _ => true
  | .divu _ _ _ _ => true
  | .rem _ _ _ _ => true
  | .remu _ _ _ _ => true
  | .min _ _ _ => true
  | .max _ _ _ => true
  | .minu _ _ _ => true
  | .maxu _ _ _ => true
  | .clz _ _ => true
  | .ctz _ _ => true
  | .popc _ _ => true
  | .addi _ _ _ => true
  | .andi _ _ _ => true
  | .ori _ _ _ => true
  | .xori _ _ _ => true
  | .slti _ _ _ => true
  | .sltiu _ _ _ => true
  | .slli _ _ _ => true
  | .srli _ _ _ => true
  | .srai _ _ _ => true
  | .lui _ _ => true
  | .auipc _ _ => true
  | .crr _ _ => true
  | .crw _ _ _ => true
  | .crs _ _ _ => true
  | .crc _ _ _ => true
  | .beq _ _ _ => true
  | .bne _ _ _ => true
  | .blt _ _ _ => true
  | .bge _ _ _ => true
  | .bltu _ _ _ => true
  | .bgeu _ _ _ => true
  | .jal _ _ => true
  | .jalr _ _ _ => true
  | .lb _ _ _ _ _ => true
  | .lbu _ _ _ _ _ => true
  | .lh _ _ _ _ _ => true
  | .lhu _ _ _ _ _ => true
  | .lw _ _ _ _ _ => true
  | .lwu _ _ _ _ _ => true
  | .ld _ _ _ _ _ => true
  | .sb _ _ _ _ => true
  | .sh _ _ _ _ => true
  | .sw _ _ _ _ => true
  | .sd _ _ _ _ => true
  | .lacq _ _ _ _ _ _ => true
  | .srel _ _ _ _ _ => true
  | .fenceAcq _ => true
  | .fenceRel _ => true
  | .fenceAr _ => true
  | .smap _ _ _ => true
  | .sunmap _ => true
  | .sflush _ => true
  | .amoswap _ _ _ o sc _ _ => ordScopeOk o sc
  | .amoadd _ _ _ o sc _ _ => ordScopeOk o sc
  | .amoand _ _ _ o sc _ _ => ordScopeOk o sc
  | .amoor _ _ _ o sc _ _ => ordScopeOk o sc
  | .amoxor _ _ _ o sc _ _ => ordScopeOk o sc
  | .amomin _ _ _ o sc _ _ => ordScopeOk o sc
  | .amomax _ _ _ o sc _ _ => ordScopeOk o sc
  | .amominu _ _ _ o sc _ _ => ordScopeOk o sc
  | .amomaxu _ _ _ o sc _ _ => ordScopeOk o sc
  | .amocas rd _ _ o sc _ _ => evenReg rd && ordScopeOk o sc
  | .redadd _ _ _ _ => true
  | .redand _ _ _ _ => true
  | .redor _ _ _ _ => true
  | .redxor _ _ _ _ => true
  | .redmin _ _ _ _ => true
  | .redmax _ _ _ _ => true
  | .redfadd _ _ _ _ => true
  | .sverNext _ _ _ => true
  | .sverNumbered _ _ _ _ => true
  | .lver rd _ _ _ _ => evenReg rd
  | .pver rd _ _ _ _ => evenReg rd
  | .rver _ _ _ => true
  | .lease _ _ _ _ => true
  | .unlease _ _ _ => true
  | .barCr _ _ => true
  | .barQd _ _ => true
  | .barDie _ _ => true
  | .barPkg _ _ => true
  | .barPod _ _ => true
  | .mbxadd _ _ _ => true
  | .mbxwait _ _ => true
  | .mbxrd _ _ => true
  | .spawn _ _ _ => true
  | .exit _ _ => true
  | .yield => true
  | .migrate _ _ => true
  | .upret => true
  | .vfadd ty _ _ _ _ => isFloatTy ty
  | .vfsub ty _ _ _ _ => isFloatTy ty
  | .vfmul ty _ _ _ _ => isFloatTy ty
  | .vfma ty _ _ _ _ => isFloatTy ty
  | .vfnma ty _ _ _ _ => isFloatTy ty
  | .vfmin ty _ _ _ _ => isFloatTy ty
  | .vfmax ty _ _ _ _ => isFloatTy ty
  | .vfdiv ty _ _ _ _ => isFloatTy ty
  | .vfsqrt ty _ _ _ => isFloatTy ty
  | .vfrcp ty _ _ _ => isFloatTy ty
  | .vfexp2 ty _ _ _ => isFloatTy ty
  | .viadd ty _ _ _ _ => !isFloatTy ty
  | .visub ty _ _ _ _ => !isFloatTy ty
  | .vimul ty _ _ _ _ => !isFloatTy ty
  | .vimin ty _ _ _ _ => !isFloatTy ty
  | .vimax ty _ _ _ _ => !isFloatTy ty
  | .vand ty _ _ _ _ => !isFloatTy ty
  | .vor ty _ _ _ _ => !isFloatTy ty
  | .vxor ty _ _ _ _ => !isFloatTy ty
  | .vsll ty _ _ _ _ => !isFloatTy ty
  | .vsrl ty _ _ _ _ => !isFloatTy ty
  | .vsra ty _ _ _ _ => !isFloatTy ty
  | .vcmpeq _ _ _ _ _ => true
  | .vcmplt _ _ _ _ _ => true
  | .vcmple _ _ _ _ _ => true
  | .vsel _ _ _ _ _ => true
  | .pand _ _ _ => true
  | .por _ _ _ => true
  | .pxor _ _ _ => true
  | .pnot _ _ => true
  | .ppop _ _ => true
  | .vbcast _ _ _ _ => true
  | .vext _ _ _ _ => true
  | .vperm _ _ _ _ _ => true
  | .vslide _ _ _ _ _ => true
  | .vcvt dst src _ _ _ => dst != src
  | .vcvtF32E4m3 _ _ _ => true
  | .vcvtF32E5m2 _ _ _ => true
  | .vcvtE4m3F32 _ _ _ => true
  | .vcvtE5m2F32 _ _ _ => true
  | .vredsum _ _ _ _ => true
  | .vredmax _ _ _ _ => true
  | .vredmin _ _ _ _ => true
  | .vld _ _ _ _ _ => true
  | .vst _ _ _ _ => true
  | .vlds32 _ _ _ _ _ => true
  | .vlds64 _ _ _ _ _ => true
  | .vsts32 _ _ _ _ => true
  | .vsts64 _ _ _ _ => true
  | .vstm _ _ _ _ => true
  | .vgath32 vd _ _ _ _ => vd != 31
  | .vgath64 vd _ _ _ _ => vd != 31
  | .vscat32 vd _ _ _ => vd != 31
  | .vscat64 vd _ _ _ => vd != 31
  | .vtopk _ _ _ _ => true
  | .vplane _ _ => true
  | .vunplane _ _ => true
  | .vtree _ _ _ _ => true
  | .vq4xd _ _ _ => true
  | .mma _ _ _ _ _ => true
  | .mzero _ => true
  | .mld _ _ _ => true
  | .mst _ _ _ => true
  | .mstg _ _ _ => true
  | .macc _ _ _ => true
  | .mscl ty _ _ => ty != .i32
  | .mfence => true
  | .mqstat _ => true
  | .lcfg _ _ => true
  | .laddOuter _ va vb => evenReg va && evenReg vb
  | .laddTile _ _ => true
  | .lread _ _ _ => true
  | .lldTile _ _ _ => true
  | .lldLocal _ xo _ => xo != 0
  | .lstTile _ _ _ => true
  | .lstLocal _ xo _ => xo != 0
  | .lclr _ => true
  | .cpq _ _ => true
  | .cpqn _ _ => true
  | .cpcancel _ _ => true
  | .sweep _ _ => true
  | .twait _ _ => true
  | .tdone _ => true
  | .swstat _ _ => true
  | .swcancel _ _ => true
  | .kvlook _ _ _ _ => true
  | .kvgath _ _ _ => true
  | .satom _ _ _ _ _ => true
  | .srsync _ => true
  | .trap => true
  | .sret => true
  | .wfi _ => true
  | .segw _ _ _ => true
  | .segr _ _ _ => true
  | .tlbinv _ _ => true
  | .fltrd _ _ => true
  | .fltreplay _ => true
  | .cinval _ _ _ => true
  | .cflush _ _ _ => true
  | .publish _ _ => true
  | .sqtail => true
  | .cqhead => true
  | .qcfg => true
  | .vfctl => true
  | .registerWrite => true
  | .launch => true
  | .copyh => true
  | .fill => true
  | .signal => true
  | .wait => true
  | .waitTimeout => true
  | .routine => true
  | .map => true
  | .partcfg => true
  | .partstart => true
  | .partstop => true
  | .vfbind => true
  | .vfpause => true
  | .vfresume => true
  | .vfreset => true
  | .functionLevelReset => true
  | .maskset => true
  | .loadimg => true
  | .attest => true
  | .raisever => true
  | .msixDeferredSend => true
  | .moduleReset => true
  | .dhcpv6Timeout => true
  | .fetchAttempt => true
  | .memoryTraining => true
  | .attestPost => true
  | .dieSparing => true
  | .computeDieLost => true
  | .flitReplay => true
  | .linkPortDown => true
  | .remoteRequest => true
  | .droopTrip => true
  | .droopClear => true
  | .thermalShutdown => true
  | .patrolScrub => true
  | .poisonRestore => true
  | .errorLogTailUpdate => true
  | .llcRebalance => true
  | .taskPlacement => true
  | .gangReservation => true
  | .launchMessageArrival => true
  | .inboxTake => true
  | .arbiterPass => true
  | .coreSave => true
  | .saveCommitTimeout => true
  | .coreResume => true
  | .ifetchFill => true
  | .stashFill => true
  | .stashRecall => true
  | .forwardedAccess => true
  | .matrixCommandExecute => true
  | .ladderCommandExecute => true
  | .copyStep => true
  | .copyInterruptEntry => true
  | .copyFaultTrap => true
  | .mailboxIncrement => true
  | .resultArrival => true
  | .deferredTrap => true
  | .pageWalk => true
  | .migrationFrameArrival => true
  | .spillDrain => true
  | .homeQueueServe => true
  | .updateCopyReturn => true
  | .leaseGrant => true
  | .leaseExpiry => true
  | .tagResend => true
  | .resendExhausted => true
  | .tileDelivery => true
  | .sweepSplit => true
  | .kvgathExecute => true
  | .darnInvocation => true
  | .ordRefusalResend => true
  | .lpFrameFill => true
  | .notifyQueueHeadUpdate => true
  | .yieldExpiry => true
  | .wfiTimeout => true
  | .remoteAccessTimeout => true
  | .podBarrierArrival => true
  | .partitionSchedule => true
  | .pcieError => true

end Sys2Proof
end

