-- ==== Sys2Proof/Decode.lean ====
section
/-! DEFINITION. Decoding of a 32-bit instruction word, total, each rejection by name, and after it the encoder, both written from
the formats and the opcode map of R239-R252 and the field tables of chapters 10 to 15. -/

namespace Sys2Proof

/-- Why a word is no instruction. Each of these raises ILLEGAL, cause 0x01 (R9, R242, R247, R251). -/
inductive DecodeError where
  /-- major 0x00 or 0x34 to 0x3F (R251) -/
  | reservedMajor
  /-- an fn value that the major does not list (R251) -/
  | reservedFn
  /-- a ty value that the fn does not accept (R251) -/
  | reservedTy
  /-- a non-zero bit in a field that the form does not use (R242) -/
  | reservedField
  /-- a non-zero la where R247 allows none -/
  | lookahead
  /-- an oc value that the instruction does not accept (R243) -/
  | badOrder
  /-- an odd register where a pair is named (R276, R282, R329) or v31 in `vgath` and `vscat` (R305) -/
  | badRegister
  /-- a conversion pair of R303 that is ILLEGAL -/
  | badConversion
  /-- a combination of LX fields that R329 does not list -/
  | badLadderForm
  deriving DecidableEq, Repr

/-! ### Fields of a word (R240) -/

def fOp (w : HWord) : BitVec 6 := w.extractLsb' 26 6
def fD (w : HWord) : RegNo := w.extractLsb' 21 5
def fA (w : HWord) : RegNo := w.extractLsb' 16 5
def fB (w : HWord) : RegNo := w.extractLsb' 11 5
def fRfn (w : HWord) : BitVec 7 := w.extractLsb' 4 7
def fLa (w : HWord) : La := w.extractLsb' 0 4
def fImm16 (w : HWord) : BitVec 16 := w.extractLsb' 0 16
def fImm21 (w : HWord) : BitVec 21 := w.extractLsb' 0 21
def fSgM (w : HWord) : SegNo := w.extractLsb' 13 3
def fLaM (w : HWord) : La := w.extractLsb' 9 4
def fOff9 (w : HWord) : BitVec 9 := w.extractLsb' 0 9
def fSgA (w : HWord) : SegNo := w.extractLsb' 8 3
def fAfn (w : HWord) : BitVec 4 := w.extractLsb' 4 4
def fTy (w : HWord) : BitVec 3 := w.extractLsb' 5 3
def fVfn (w : HWord) : BitVec 5 := w.extractLsb' 0 5
def fMd (w : HWord) : TileNo := w.extractLsb' 20 6
def fMa (w : HWord) : RegNo := w.extractLsb' 15 5
def fMb (w : HWord) : RegNo := w.extractLsb' 10 5
def fSa (w : HWord) : SegNo := w.extractLsb' 7 3
def fSb (w : HWord) : SegNo := w.extractLsb' 4 3
def fLx (w : HWord) : BitVec 3 := w.extractLsb' 23 3
def fLfn (w : HWord) : BitVec 3 := w.extractLsb' 20 3
def fFa (w : HWord) : TileNo := w.extractLsb' 14 6
def fFb (w : HWord) : RegNo := w.extractLsb' 9 5
def fFc (w : HWord) : RegNo := w.extractLsb' 4 5
def fId (w : HWord) : BitVec 6 := w.extractLsb' 5 6
def fSaFn (w : HWord) : BitVec 1 := w.extractLsb' 4 1

/-- The lane type that a ty code names (R241). -/
def tyOf (t : BitVec 3) : VTy :=
  match t.toNat with
  | 0 => .f64 | 1 => .f32 | 2 => .f16 | 3 => .bf16 | 4 => .i64 | 5 => .i32 | 6 => .i16 | _ => .i8
/-- The ty code of a lane type (R241). -/
def tyCode : VTy → BitVec 3
  | .f64 => 0 | .f32 => 1 | .f16 => 2 | .bf16 => 3 | .i64 => 4 | .i32 => 5 | .i16 => 6 | .i8 => 7
/-- SCOPE of oc (R243). -/
def scopeOf (c : BitVec 2) : MemScope :=
  match c.toNat with
  | 0 => .cr | 1 => .pkg | 2 => .pod | _ => .sys
def scopeCode : MemScope → BitVec 2
  | .cr => 0 | .pkg => 1 | .pod => 2 | .sys => 3
/-- ORD of oc (R243). -/
def ordOf (c : BitVec 2) : MemOrd :=
  match c.toNat with
  | 0 => .none | 1 => .acq | 2 => .rel | _ => .ar
def ordCode : MemOrd → BitVec 2
  | .none => 0 | .acq => 1 | .rel => 2 | .ar => 3
def wOf (b : BitVec 1) : Bool := b == 1
def wCode (b : Bool) : BitVec 1 := if b then 1 else 0
/-- W, ORD and SCOPE of an oc field (R243). -/
def ocW (oc : BitVec 5) : Bool := wOf (oc.extractLsb' 4 1)
def ocOrd (oc : BitVec 5) : MemOrd := ordOf (oc.extractLsb' 2 2)
def ocScope (oc : BitVec 5) : MemScope := scopeOf (oc.extractLsb' 0 2)
def packOc (w : Bool) (o : MemOrd) (s : MemScope) : BitVec 5 := wCode w ++ ordCode o ++ scopeCode s
/-- The low three bits of a register field that names a p register (R241). -/
def pLow (r : RegNo) : PNo := r.extractLsb' 0 3
def pHigh (r : RegNo) : BitVec 2 := r.extractLsb' 3 2
/-- A p register in a 5-bit field (R241). -/
def pField (p : PNo) : RegNo := (0 : BitVec 2) ++ p
/-- A type code of xb[13:11] in a vector memory word, or a source type of `vcvt` (R302, R305). -/
def tyField (t : VTy) : RegNo := (0 : BitVec 2) ++ tyCode t
/-- The type that sa selects in `macc` and `mscl` (R316). -/
def mtyCode : MTy → SegNo
  | .f32 => 0 | .i32 => 1 | .f64 => 2

abbrev Decoded := Except DecodeError Instr

/-- `i` when the condition holds, else the named rejection. -/
def need (c : Bool) (e : DecodeError) (r : Decoded) : Decoded := if c then r else .error e

/-! ### One decoder for each major or group of majors (R251) -/

/-- Major 0x01 (R256). -/
def decodeAlu (w : HWord) : Decoded :=
  match (fRfn w).toNat with
  | 0 => need (fLa w == 0) .lookahead (.ok (.add (fD w) (fA w) (fB w)))
  | 1 => need (fLa w == 0) .lookahead (.ok (.sub (fD w) (fA w) (fB w)))
  | 2 => need (fLa w == 0) .lookahead (.ok (.and (fD w) (fA w) (fB w)))
  | 3 => need (fLa w == 0) .lookahead (.ok (.or (fD w) (fA w) (fB w)))
  | 4 => need (fLa w == 0) .lookahead (.ok (.xor (fD w) (fA w) (fB w)))
  | 5 => need (fLa w == 0) .lookahead (.ok (.sll (fD w) (fA w) (fB w)))
  | 6 => need (fLa w == 0) .lookahead (.ok (.srl (fD w) (fA w) (fB w)))
  | 7 => need (fLa w == 0) .lookahead (.ok (.sra (fD w) (fA w) (fB w)))
  | 8 => need (fLa w == 0) .lookahead (.ok (.slt (fD w) (fA w) (fB w)))
  | 9 => need (fLa w == 0) .lookahead (.ok (.sltu (fD w) (fA w) (fB w)))
  | 10 => need (fLa w == 0) .lookahead (.ok (.mul (fD w) (fA w) (fB w)))
  | 11 => need (fLa w == 0) .lookahead (.ok (.mulh (fD w) (fA w) (fB w)))
  | 12 => need (fLa w == 0) .lookahead (.ok (.mulhu (fD w) (fA w) (fB w)))
  | 13 => .ok (.div (fD w) (fA w) (fB w) (fLa w))
  | 14 => .ok (.divu (fD w) (fA w) (fB w) (fLa w))
  | 15 => .ok (.rem (fD w) (fA w) (fB w) (fLa w))
  | 16 => .ok (.remu (fD w) (fA w) (fB w) (fLa w))
  | 17 => need (fLa w == 0) .lookahead (.ok (.min (fD w) (fA w) (fB w)))
  | 18 => need (fLa w == 0) .lookahead (.ok (.max (fD w) (fA w) (fB w)))
  | 19 => need (fLa w == 0) .lookahead (.ok (.minu (fD w) (fA w) (fB w)))
  | 20 => need (fLa w == 0) .lookahead (.ok (.maxu (fD w) (fA w) (fB w)))
  | 21 => need (fB w == 0) .reservedField (need (fLa w == 0) .lookahead (.ok (.clz (fD w) (fA w))))
  | 22 => need (fB w == 0) .reservedField (need (fLa w == 0) .lookahead (.ok (.ctz (fD w) (fA w))))
  | 23 => need (fB w == 0) .reservedField (need (fLa w == 0) .lookahead (.ok (.popc (fD w) (fA w))))
  | _ => .error .reservedFn

/-- Major 0x08 (R259): imm16[15:14] selects the shift, imm16[13:6] is reserved. -/
def decodeShiftImm (w : HWord) : Decoded :=
  need (w.extractLsb' 6 8 == 0) .reservedField <|
  match (w.extractLsb' 14 2).toNat with
  | 0 => .ok (.slli (fD w) (fA w) (w.extractLsb' 0 6))
  | 1 => .ok (.srli (fD w) (fA w) (w.extractLsb' 0 6))
  | 2 => .ok (.srai (fD w) (fA w) (w.extractLsb' 0 6))
  | _ => .error .reservedFn

/-- Major 0x0B (R265). -/
def decodeCr (w : HWord) : Decoded :=
  need (w.extractLsb' 6 8 == 0) .reservedField <|
  match (w.extractLsb' 14 2).toNat with
  | 0 => need (fA w == 0) .reservedField (.ok (.crr (fD w) (w.extractLsb' 0 6)))
  | 1 => .ok (.crw (fD w) (fA w) (w.extractLsb' 0 6))
  | 2 => .ok (.crs (fD w) (fA w) (w.extractLsb' 0 6))
  | _ => .ok (.crc (fD w) (fA w) (w.extractLsb' 0 6))

/-- A scalar load: M format, any la (R267). -/
def decodeLoad (w : HWord) (k : RegNo → RegNo → SegNo → La → BitVec 9 → Instr) : Decoded :=
  .ok (k (fD w) (fA w) (fSgM w) (fLaM w) (fOff9 w))
/-- A scalar store: M format, la must be 0 (R247, R267). -/
def decodeStore (w : HWord) (k : RegNo → RegNo → SegNo → BitVec 9 → Instr) : Decoded :=
  need (fLaM w == 0) .lookahead (.ok (k (fD w) (fA w) (fSgM w) (fOff9 w)))

/-- Major 0x1F (R270-R273). -/
def decodeOrdered (w : HWord) : Decoded :=
  match (fAfn w).toNat with
  | 0 => need (ocOrd (fB w) == .none) .badOrder
      (.ok (.lacq (fD w) (fA w) (ocW (fB w)) (ocScope (fB w)) (fSgA w) (fLa w)))
  | 1 => need (ocOrd (fB w) == .none) .badOrder (need (fLa w == 0) .lookahead
      (.ok (.srel (fD w) (fA w) (ocW (fB w)) (ocScope (fB w)) (fSgA w))))
  | 2 => need (fD w == 0 && fA w == 0 && fSgA w == 0) .reservedField <| need (fLa w == 0) .lookahead <|
      need (!ocW (fB w)) .badOrder <|
      match ocOrd (fB w) with
      | .none => .error .badOrder
      | .acq => .ok (.fenceAcq (ocScope (fB w)))
      | .rel => .ok (.fenceRel (ocScope (fB w)))
      | .ar => .ok (.fenceAr (ocScope (fB w)))
  | 3 => need (fB w == 0) .badOrder (need (fLa w == 0) .lookahead (.ok (.smap (fD w) (fA w) (fSgA w))))
  | 4 => need (fB w == 0 && fA w == 0 && fSgA w == 0) .reservedField
      (need (fLa w == 0) .lookahead (.ok (.sunmap (fD w))))
  | 5 => need (fB w == 0 && fA w == 0 && fSgA w == 0) .reservedField
      (need (fLa w == 0) .lookahead (.ok (.sflush (fD w))))
  | _ => .error .reservedFn

/-- An AMO: with ORD none, SCOPE must be 0 (R243, R276). -/
def decodeAmoOp (w : HWord) (k : RegNo → RegNo → Bool → MemOrd → MemScope → SegNo → La → Instr) : Decoded :=
  need (ocOrd (fB w) != .none || ocScope (fB w) == .cr) .badOrder
    (.ok (k (fD w) (fA w) (ocW (fB w)) (ocOrd (fB w)) (ocScope (fB w)) (fSgA w) (fLa w)))

/-- Major 0x20 (R276). -/
def decodeAmo (w : HWord) : Decoded :=
  match (fAfn w).toNat with
  | 0 => decodeAmoOp w .amoswap
  | 1 => decodeAmoOp w .amoadd
  | 2 => decodeAmoOp w .amoand
  | 3 => decodeAmoOp w .amoor
  | 4 => decodeAmoOp w .amoxor
  | 5 => decodeAmoOp w .amomin
  | 6 => decodeAmoOp w .amomax
  | 7 => decodeAmoOp w .amominu
  | 8 => decodeAmoOp w .amomaxu
  | 9 => need ((fD w).extractLsb' 0 1 == 0) .badRegister (decodeAmoOp w .amocas)
  | _ => .error .reservedFn

/-- A RED: bits [25:21] hold oc with ORD and SCOPE 0 (R277). -/
def decodeRedOp (w : HWord) (k : Bool → RegNo → RegNo → SegNo → Instr) : Decoded :=
  need ((fD w).extractLsb' 0 4 == 0) .badOrder (need (fLa w == 0) .lookahead
    (.ok (k (wOf ((fD w).extractLsb' 4 1)) (fA w) (fB w) (fSgA w))))

/-- Major 0x21 (R277). -/
def decodeRed (w : HWord) : Decoded :=
  match (fAfn w).toNat with
  | 0 => decodeRedOp w .redadd
  | 1 => decodeRedOp w .redand
  | 2 => decodeRedOp w .redor
  | 3 => decodeRedOp w .redxor
  | 4 => decodeRedOp w .redmin
  | 5 => decodeRedOp w .redmax
  | 6 => decodeRedOp w .redfadd
  | _ => .error .reservedFn

/-- Major 0x22 (R282). -/
def decodeVersion (w : HWord) : Decoded :=
  match (fAfn w).toNat with
  | 0 => need (fD w == 0) .reservedField (need (fLa w == 0) .lookahead (.ok (.sverNext (fA w) (fB w) (fSgA w))))
  | 1 => need (fLa w == 0) .lookahead (.ok (.sverNumbered (fD w) (fA w) (fB w) (fSgA w)))
  | 2 => need ((fD w).extractLsb' 0 1 == 0) .badRegister (.ok (.lver (fD w) (fA w) (fB w) (fSgA w) (fLa w)))
  | 3 => need ((fD w).extractLsb' 0 1 == 0) .badRegister (.ok (.pver (fD w) (fA w) (fB w) (fSgA w) (fLa w)))
  | 4 => need (fD w == 0) .reservedField (need (fLa w == 0) .lookahead (.ok (.rver (fA w) (fB w) (fSgA w))))
  | _ => .error .reservedFn

/-- Major 0x23 (R279). -/
def decodeLease (w : HWord) : Decoded :=
  need (fLa w == 0) .lookahead <|
  match (fAfn w).toNat with
  | 0 => .ok (.lease (fD w) (fA w) (fB w) (fSgA w))
  | 1 => need (fB w == 0) .reservedField (.ok (.unlease (fD w) (fA w) (fSgA w)))
  | _ => .error .reservedFn

/-- Major 0x24 (R284, R285). -/
def decodeSync (w : HWord) : Decoded :=
  need (fLa w == 0) .lookahead <|
  match (fRfn w).toNat with
  | 0 => need (fD w == 0) .reservedField (.ok (.barCr (fA w) (fB w)))
  | 1 => need (fD w == 0) .reservedField (.ok (.barQd (fA w) (fB w)))
  | 2 => need (fD w == 0) .reservedField (.ok (.barDie (fA w) (fB w)))
  | 3 => need (fD w == 0) .reservedField (.ok (.barPkg (fA w) (fB w)))
  | 4 => need (fD w == 0) .reservedField (.ok (.barPod (fA w) (fB w)))
  | 8 => .ok (.mbxadd (fD w) (fA w) (fB w))
  | 9 => need (fD w == 0) .reservedField (.ok (.mbxwait (fA w) (fB w)))
  | 10 => need (fB w == 0) .reservedField (.ok (.mbxrd (fD w) (fA w)))
  | _ => .error .reservedFn

/-- Major 0x25 (R286). -/
def decodeTask (w : HWord) : Decoded :=
  need (fLa w == 0) .lookahead <|
  match (fRfn w).toNat with
  | 0 => .ok (.spawn (fD w) (fA w) (fB w))
  | 1 => need (fB w == 0) .reservedField (.ok (.exit (fD w) (fA w)))
  | 2 => need (fD w == 0 && fA w == 0 && fB w == 0) .reservedField (.ok .yield)
  | 3 => need (fB w == 0) .reservedField (.ok (.migrate (fD w) (fA w)))
  | 4 => need (fD w == 0 && fA w == 0 && fB w == 0) .reservedField (.ok .upret)
  | _ => .error .reservedFn

/-- A V-format instruction of three registers and a predicate. -/
def decodeV3 (w : HWord) (k : VTy → RegNo → RegNo → RegNo → PNo → Instr) : Decoded :=
  .ok (k (tyOf (fTy w)) (fD w) (fA w) (fB w) (fSgA w))
/-- A V-format instruction whose vb is reserved. -/
def decodeV2 (w : HWord) (k : VTy → RegNo → RegNo → PNo → Instr) : Decoded :=
  need (fB w == 0) .reservedField (.ok (k (tyOf (fTy w)) (fD w) (fA w) (fSgA w)))

/-- Major 0x26, ty 0-3 (R295). -/
def decodeVFloat (w : HWord) : Decoded :=
  need (isFloatTy (tyOf (fTy w))) .reservedTy <|
  match (fVfn w).toNat with
  | 0 => decodeV3 w .vfadd
  | 1 => decodeV3 w .vfsub
  | 2 => decodeV3 w .vfmul
  | 3 => decodeV3 w .vfma
  | 4 => decodeV3 w .vfnma
  | 5 => decodeV3 w .vfmin
  | 6 => decodeV3 w .vfmax
  | 7 => decodeV3 w .vfdiv
  | 8 => decodeV2 w .vfsqrt
  | 9 => decodeV2 w .vfrcp
  | 10 => decodeV2 w .vfexp2
  | _ => .error .reservedFn

/-- Major 0x27, ty 4-7 (R298). -/
def decodeVInt (w : HWord) : Decoded :=
  need (!isFloatTy (tyOf (fTy w))) .reservedTy <|
  match (fVfn w).toNat with
  | 0 => decodeV3 w .viadd
  | 1 => decodeV3 w .visub
  | 2 => decodeV3 w .vimul
  | 3 => decodeV3 w .vimin
  | 4 => decodeV3 w .vimax
  | 5 => decodeV3 w .vand
  | 6 => decodeV3 w .vor
  | 7 => decodeV3 w .vxor
  | 8 => decodeV3 w .vsll
  | 9 => decodeV3 w .vsrl
  | 10 => decodeV3 w .vsra
  | _ => .error .reservedFn

/-- A compare: vd names a p register (R299). -/
def decodeCmp (w : HWord) (k : VTy → PNo → RegNo → RegNo → PNo → Instr) : Decoded :=
  need (pHigh (fD w) == 0) .reservedField (.ok (k (tyOf (fTy w)) (pLow (fD w)) (fA w) (fB w) (fSgA w)))
/-- A predicate operation of two sources (R300). -/
def decodeP3 (w : HWord) (k : PNo → PNo → PNo → Instr) : Decoded :=
  need (fTy w == 0) .reservedTy <| need (fSgA w == 0) .reservedField <|
  need (pHigh (fD w) == 0 && pHigh (fA w) == 0 && pHigh (fB w) == 0) .reservedField
    (.ok (k (pLow (fD w)) (pLow (fA w)) (pLow (fB w))))

/-- Major 0x28 (R299, R300). -/
def decodeVCmp (w : HWord) : Decoded :=
  match (fVfn w).toNat with
  | 0 => decodeCmp w .vcmpeq
  | 1 => decodeCmp w .vcmplt
  | 2 => decodeCmp w .vcmple
  | 3 => decodeV3 w .vsel
  | 8 => decodeP3 w .pand
  | 9 => decodeP3 w .por
  | 10 => decodeP3 w .pxor
  | 11 => need (fTy w == 0) .reservedTy <| need (fSgA w == 0 && fB w == 0) .reservedField <|
      need (pHigh (fD w) == 0 && pHigh (fA w) == 0) .reservedField (.ok (.pnot (pLow (fD w)) (pLow (fA w))))
  | 12 => need (fTy w == 0) .reservedTy <| need (fSgA w == 0 && fB w == 0) .reservedField <|
      need (pHigh (fA w) == 0) .reservedField (.ok (.ppop (fD w) (pLow (fA w))))
  | _ => .error .reservedFn

/-- `vcvt` and the FP8 forms of equal codes (R302, R303). -/
def decodeVcvt (w : HWord) : Decoded :=
  need (pHigh (fB w) == 0) .reservedField <|
  if fTy w == pLow (fB w) then
    match (fTy w).toNat with
    | 1 => .ok (.vcvtF32E4m3 (fD w) (fA w) (fSgA w))
    | 2 => .ok (.vcvtF32E5m2 (fD w) (fA w) (fSgA w))
    | 5 => .ok (.vcvtE4m3F32 (fD w) (fA w) (fSgA w))
    | 6 => .ok (.vcvtE5m2F32 (fD w) (fA w) (fSgA w))
    | _ => .error .badConversion
  else .ok (.vcvt (tyOf (fTy w)) (tyOf (pLow (fB w))) (fD w) (fA w) (fSgA w))

/-- Major 0x29 (R301-R303). -/
def decodeVMove (w : HWord) : Decoded :=
  match (fVfn w).toNat with
  | 0 => decodeV2 w .vbcast
  | 1 => need (fSgA w == 0) .reservedField (.ok (.vext (tyOf (fTy w)) (fD w) (fA w) (fB w)))
  | 2 => decodeV3 w .vperm
  | 3 => decodeV3 w .vslide
  | 4 => decodeVcvt w
  | _ => .error .reservedFn

/-- Major 0x2A (R304). -/
def decodeVRed (w : HWord) : Decoded :=
  match (fVfn w).toNat with
  | 0 => decodeV2 w .vredsum
  | 1 => decodeV2 w .vredmax
  | 2 => decodeV2 w .vredmin
  | _ => .error .reservedFn

/-- Major 0x2B (R305). -/
def decodeVMem (w : HWord) : Decoded :=
  match (fAfn w).toNat with
  | 0 => need (pHigh (fB w) == 0) .reservedField (.ok (.vld (tyOf (pLow (fB w))) (fD w) (fA w) (fSgA w) (fLa w)))
  | 1 => need (pHigh (fB w) == 0) .reservedField (need (fLa w == 0) .lookahead
      (.ok (.vst (tyOf (pLow (fB w))) (fD w) (fA w) (fSgA w))))
  | 2 => .ok (.vlds32 (fD w) (fA w) (fB w) (fSgA w) (fLa w))
  | 3 => .ok (.vlds64 (fD w) (fA w) (fB w) (fSgA w) (fLa w))
  | 4 => need (fLa w == 0) .lookahead (.ok (.vsts32 (fD w) (fA w) (fB w) (fSgA w)))
  | 5 => need (fLa w == 0) .lookahead (.ok (.vsts64 (fD w) (fA w) (fB w) (fSgA w)))
  | 6 => need (pHigh (fB w) == 0) .reservedField (need (fLa w == 0) .lookahead
      (.ok (.vstm (fD w) (fA w) (pLow (fB w)) (fSgA w))))
  | 7 => need (pHigh (fB w) == 0) .reservedField (need (fD w != 31) .badRegister
      (.ok (.vgath32 (fD w) (fA w) (pLow (fB w)) (fSgA w) (fLa w))))
  | 8 => need (pHigh (fB w) == 0) .reservedField (need (fD w != 31) .badRegister
      (.ok (.vgath64 (fD w) (fA w) (pLow (fB w)) (fSgA w) (fLa w))))
  | 9 => need (pHigh (fB w) == 0) .reservedField (need (fD w != 31) .badRegister (need (fLa w == 0) .lookahead
      (.ok (.vscat32 (fD w) (fA w) (pLow (fB w)) (fSgA w)))))
  | 10 => need (pHigh (fB w) == 0) .reservedField (need (fD w != 31) .badRegister (need (fLa w == 0) .lookahead
      (.ok (.vscat64 (fD w) (fA w) (pLow (fB w)) (fSgA w)))))
  | _ => .error .reservedFn

/-- Major 0x2C, ty 0 (R309-R312). -/
def decodeVSpecial (w : HWord) : Decoded :=
  need (fTy w == 0) .reservedTy <|
  match (fVfn w).toNat with
  | 0 => .ok (.vtopk (fD w) (fA w) (fB w) (fSgA w))
  | 1 => need (fB w == 0 && fSgA w == 0) .reservedField (.ok (.vplane (fD w) (fA w)))
  | 2 => need (fB w == 0 && fSgA w == 0) .reservedField (.ok (.vunplane (fD w) (fA w)))
  | 3 => need (pHigh (fD w) == 0) .reservedField (.ok (.vtree (pLow (fD w)) (fA w) (fB w) (fSgA w)))
  | 4 => need (pHigh (fB w) == 0 && fSgA w == 0) .reservedField (.ok (.vq4xd (fD w) (pLow (fB w)) (fA w)))
  | _ => .error .reservedFn

/-- Major 0x2D (R316). -/
def decodeMatrix (w : HWord) : Decoded :=
  match (w.extractLsb' 0 4).toNat with
  | 0 => .ok (.mma (fMd w) (fMa w) (fMb w) (fSa w) (fSb w))
  | 1 => need (fMa w == 0 && fMb w == 0 && fSa w == 0 && fSb w == 0) .reservedField (.ok (.mzero (fMd w)))
  | 2 => need (fMb w == 0 && fSb w == 0) .reservedField (.ok (.mld (fMd w) (fMa w) (fSa w)))
  | 3 => need (fMb w == 0 && fSb w == 0) .reservedField (.ok (.mst (fMd w) (fMa w) (fSa w)))
  | 4 => need (fMb w == 0 && fSb w == 0) .reservedField (.ok (.mstg (fMd w) (fMa w) (fSa w)))
  | 5 => need (fMb w == 0 && fSb w == 0) .reservedField <|
      match (fSa w).toNat with
      | 0 => .ok (.macc .f32 (fMd w) (fMa w))
      | 1 => .ok (.macc .i32 (fMd w) (fMa w))
      | 2 => .ok (.macc .f64 (fMd w) (fMa w))
      | _ => .error .reservedTy
  | 6 => need (fMb w == 0 && fSb w == 0) .reservedField <|
      match (fSa w).toNat with
      | 0 => .ok (.mscl .f32 (fMd w) (fMa w))
      | 2 => .ok (.mscl .f64 (fMd w) (fMa w))
      | _ => .error .reservedTy
  | 7 => need (fMd w == 0 && fMa w == 0 && fMb w == 0 && fSa w == 0 && fSb w == 0) .reservedField (.ok .mfence)
  | 8 => need ((fMd w).extractLsb' 5 1 == 0 && fMa w == 0 && fMb w == 0 && fSa w == 0 && fSb w == 0) .reservedField
      (.ok (.mqstat ((fMd w).extractLsb' 0 5)))
  | _ => .error .reservedFn

/-- The two forms of `lld` and `lst` (R329). -/
def decodeRung (w : HWord) (tile : BitVec 3 → TileNo → RegNo → Instr) (loc : BitVec 3 → RegNo → RegNo → Instr) :
    Decoded :=
  if fFc w == 0 then .ok (tile (fLx w) (fFa w) (fFb w))
  else need (fFa w == 0) .badLadderForm (.ok (loc (fLx w) (fFc w) (fFb w)))

/-- Major 0x2E (R328, R329). -/
def decodeLadder (w : HWord) : Decoded :=
  need (fLa w == 0) .lookahead <|
  match (fLfn w).toNat with
  | 0 => need (fFa w == 0 && fFc w == 0) .reservedField (.ok (.lcfg (fLx w) (fFb w)))
  | 1 => if fFb w == 31 && fFc w == 31 then .ok (.laddTile (fLx w) (fFa w))
      else need (fFa w == 0 && (fFb w).extractLsb' 0 1 == 0 && (fFc w).extractLsb' 0 1 == 0) .badLadderForm
        (.ok (.laddOuter (fLx w) (fFb w) (fFc w)))
  | 2 => need (fFa w == 0) .reservedField (.ok (.lread (fLx w) (fFb w) (fFc w)))
  | 3 => decodeRung w .lldTile .lldLocal
  | 4 => decodeRung w .lstTile .lstLocal
  | 5 => need (fFa w == 0 && fFb w == 0 && fFc w == 0) .reservedField (.ok (.lclr (fLx w)))
  | _ => .error .reservedFn

/-- Major 0x2F (R340). -/
def decodeCopy (w : HWord) : Decoded :=
  need (fLa w == 0) .lookahead <|
  match (fRfn w).toNat with
  | 0 => need (fA w == 0) .reservedField (.ok (.cpq (fD w) (fB w)))
  | 1 => need (fA w == 0) .reservedField (.ok (.cpqn (fD w) (fB w)))
  | 2 => need (fB w == 0) .reservedField (.ok (.cpcancel (fD w) (fA w)))
  | _ => .error .reservedFn

/-- Major 0x30 (R347): only `twait` takes a non-zero la. -/
def decodeSweep (w : HWord) : Decoded :=
  match (fRfn w).toNat with
  | 0 => need (fB w == 0) .reservedField (need (fLa w == 0) .lookahead (.ok (.sweep (fD w) (fA w))))
  | 1 => need (fA w == 0 && fB w == 0) .reservedField (.ok (.twait (fD w) (fLa w)))
  | 2 => need (fA w == 0 && fB w == 0) .reservedField (need (fLa w == 0) .lookahead (.ok (.tdone (fD w))))
  | 3 => need (fB w == 0) .reservedField (need (fLa w == 0) .lookahead (.ok (.swstat (fD w) (fA w))))
  | 4 => need (fB w == 0) .reservedField (need (fLa w == 0) .lookahead (.ok (.swcancel (fD w) (fA w))))
  | _ => .error .reservedFn

/-- Major 0x31 (R355). -/
def decodeKv (w : HWord) : Decoded :=
  match (fRfn w).toNat with
  | 0 => .ok (.kvlook (fD w) (fA w) (fB w) (fLa w))
  | 1 => need (fLa w == 0) .lookahead (.ok (.kvgath (fD w) (fA w) (fB w)))
  | _ => .error .reservedFn

/-- Major 0x32 (R370, R372). -/
def decodeDarn (w : HWord) : Decoded :=
  if fSaFn w == 0 then .ok (.satom (fD w) (fA w) (fB w) (fId w) (fLa w))
  else need (fD w == 0 && fA w == 0 && fB w == 0) .reservedField (need (fLa w == 0) .lookahead (.ok (.srsync (fId w))))

/-- Major 0x33 (R374). A segment number above 7 or a k above 1 is ILLEGAL. -/
def decodeSystem (w : HWord) : Decoded :=
  need (fLa w == 0) .lookahead <|
  match (fRfn w).toNat with
  | 0 => need (fD w == 0 && fA w == 0 && fB w == 0) .reservedField (.ok .trap)
  | 1 => need (fD w == 0 && fA w == 0 && fB w == 0) .reservedField (.ok .sret)
  | 2 => need (fD w == 0 && fB w == 0) .reservedField (.ok (.wfi (fA w)))
  | 3 => need (pHigh (fD w) == 0) .reservedField (.ok (.segw (pLow (fD w)) (fA w) (fB w)))
  | 4 => need (pHigh (fA w) == 0 && (fB w).extractLsb' 1 4 == 0) .reservedField
      (.ok (.segr (fD w) (pLow (fA w)) ((fB w).extractLsb' 0 1)))
  | 5 => need (fD w == 0) .reservedField (.ok (.tlbinv (fA w) (fB w)))
  | 6 => need (fB w == 0) .reservedField (.ok (.fltrd (fD w) (fA w)))
  | 7 => need (fD w == 0 && fB w == 0) .reservedField (.ok (.fltreplay (fA w)))
  | 8 => need (pHigh (fD w) == 0) .reservedField (.ok (.cinval (pLow (fD w)) (fA w) (fB w)))
  | 9 => need (pHigh (fD w) == 0) .reservedField (.ok (.cflush (pLow (fD w)) (fA w) (fB w)))
  | 10 => need (pHigh (fD w) == 0 && fB w == 0) .reservedField (.ok (.publish (pLow (fD w)) (fA w)))
  | _ => .error .reservedFn

/-- The instruction of a word, or why there is none (R251). -/
def decode (w : HWord) : Decoded :=
  match (fOp w).toNat with
  | 0x01 => decodeAlu w
  | 0x02 => .ok (.addi (fD w) (fA w) (fImm16 w))
  | 0x03 => .ok (.andi (fD w) (fA w) (fImm16 w))
  | 0x04 => .ok (.ori (fD w) (fA w) (fImm16 w))
  | 0x05 => .ok (.xori (fD w) (fA w) (fImm16 w))
  | 0x06 => .ok (.slti (fD w) (fA w) (fImm16 w))
  | 0x07 => .ok (.sltiu (fD w) (fA w) (fImm16 w))
  | 0x08 => decodeShiftImm w
  | 0x09 => .ok (.lui (fD w) (fImm21 w))
  | 0x0A => .ok (.auipc (fD w) (fImm21 w))
  | 0x0B => decodeCr w
  | 0x0C => .ok (.beq (fD w) (fA w) (fImm16 w))
  | 0x0D => .ok (.bne (fD w) (fA w) (fImm16 w))
  | 0x0E => .ok (.blt (fD w) (fA w) (fImm16 w))
  | 0x0F => .ok (.bge (fD w) (fA w) (fImm16 w))
  | 0x10 => .ok (.bltu (fD w) (fA w) (fImm16 w))
  | 0x11 => .ok (.bgeu (fD w) (fA w) (fImm16 w))
  | 0x12 => .ok (.jal (fD w) (fImm21 w))
  | 0x13 => .ok (.jalr (fD w) (fA w) (fImm16 w))
  | 0x14 => decodeLoad w .lb
  | 0x15 => decodeLoad w .lbu
  | 0x16 => decodeLoad w .lh
  | 0x17 => decodeLoad w .lhu
  | 0x18 => decodeLoad w .lw
  | 0x19 => decodeLoad w .lwu
  | 0x1A => decodeLoad w .ld
  | 0x1B => decodeStore w .sb
  | 0x1C => decodeStore w .sh
  | 0x1D => decodeStore w .sw
  | 0x1E => decodeStore w .sd
  | 0x1F => decodeOrdered w
  | 0x20 => decodeAmo w
  | 0x21 => decodeRed w
  | 0x22 => decodeVersion w
  | 0x23 => decodeLease w
  | 0x24 => decodeSync w
  | 0x25 => decodeTask w
  | 0x26 => decodeVFloat w
  | 0x27 => decodeVInt w
  | 0x28 => decodeVCmp w
  | 0x29 => decodeVMove w
  | 0x2A => decodeVRed w
  | 0x2B => decodeVMem w
  | 0x2C => decodeVSpecial w
  | 0x2D => decodeMatrix w
  | 0x2E => decodeLadder w
  | 0x2F => decodeCopy w
  | 0x30 => decodeSweep w
  | 0x31 => decodeKv w
  | 0x32 => decodeDarn w
  | 0x33 => decodeSystem w
  | _ => .error .reservedMajor

/-- The decoder on an opcode-table row's bits, bit 0 the least significant bit of the first word. Every instruction is one
32-bit word (R239), stored little-endian; a row of fewer bits has its upper bits 0. -/
def decodeTableWord (_nbits w : Nat) : Option Instr := (decode (BitVec.ofNat 32 w)).toOption

/-! ### The encoder (R240) -/

def packR (op : BitVec 6) (d a b : RegNo) (fn : BitVec 7) (la : La) : HWord := op ++ d ++ a ++ b ++ fn ++ la
def packI (op : BitVec 6) (d a : RegNo) (imm : BitVec 16) : HWord := op ++ d ++ a ++ imm
def packU (op : BitVec 6) (d : RegNo) (imm : BitVec 21) : HWord := op ++ d ++ imm
def packM (op : BitVec 6) (t a : RegNo) (sg : SegNo) (la : La) (off : BitVec 9) : HWord := op ++ t ++ a ++ sg ++ la ++ off
def packA (op : BitVec 6) (d a b : RegNo) (sg : SegNo) (fn : BitVec 4) (la : La) : HWord :=
  op ++ d ++ a ++ b ++ sg ++ fn ++ la
def packV (op : BitVec 6) (d a b : RegNo) (pm : PNo) (ty : BitVec 3) (fn : BitVec 5) : HWord :=
  op ++ d ++ a ++ b ++ pm ++ ty ++ fn
def packMX (md : TileNo) (a b : RegNo) (sa sb : SegNo) (fn : BitVec 4) : HWord :=
  (0x2D : BitVec 6) ++ md ++ a ++ b ++ sa ++ sb ++ fn
def packLX (lx fn : BitVec 3) (fa : TileNo) (fb fc : RegNo) : HWord :=
  (0x2E : BitVec 6) ++ lx ++ fn ++ fa ++ fb ++ fc ++ (0 : La)
def packSA (d a b : RegNo) (id : BitVec 6) (fn : BitVec 1) (la : La) : HWord :=
  (0x32 : BitVec 6) ++ d ++ a ++ b ++ id ++ fn ++ la
def packSh (op : BitVec 6) (d a : RegNo) (sel : BitVec 2) (n : BitVec 6) : HWord :=
  op ++ d ++ a ++ sel ++ (0 : BitVec 8) ++ n

/-- The word of an instruction; none for a row that is a step of the device. -/
def encode : Instr → Option HWord
  | .add rd ra rb => some (packR 0x01 rd ra rb 0 0)
  | .sub rd ra rb => some (packR 0x01 rd ra rb 1 0)
  | .and rd ra rb => some (packR 0x01 rd ra rb 2 0)
  | .or rd ra rb => some (packR 0x01 rd ra rb 3 0)
  | .xor rd ra rb => some (packR 0x01 rd ra rb 4 0)
  | .sll rd ra rb => some (packR 0x01 rd ra rb 5 0)
  | .srl rd ra rb => some (packR 0x01 rd ra rb 6 0)
  | .sra rd ra rb => some (packR 0x01 rd ra rb 7 0)
  | .slt rd ra rb => some (packR 0x01 rd ra rb 8 0)
  | .sltu rd ra rb => some (packR 0x01 rd ra rb 9 0)
  | .mul rd ra rb => some (packR 0x01 rd ra rb 10 0)
  | .mulh rd ra rb => some (packR 0x01 rd ra rb 11 0)
  | .mulhu rd ra rb => some (packR 0x01 rd ra rb 12 0)
  | .div rd ra rb la => some (packR 0x01 rd ra rb 13 la)
  | .divu rd ra rb la => some (packR 0x01 rd ra rb 14 la)
  | .rem rd ra rb la => some (packR 0x01 rd ra rb 15 la)
  | .remu rd ra rb la => some (packR 0x01 rd ra rb 16 la)
  | .min rd ra rb => some (packR 0x01 rd ra rb 17 0)
  | .max rd ra rb => some (packR 0x01 rd ra rb 18 0)
  | .minu rd ra rb => some (packR 0x01 rd ra rb 19 0)
  | .maxu rd ra rb => some (packR 0x01 rd ra rb 20 0)
  | .clz rd ra => some (packR 0x01 rd ra 0 21 0)
  | .ctz rd ra => some (packR 0x01 rd ra 0 22 0)
  | .popc rd ra => some (packR 0x01 rd ra 0 23 0)
  | .addi rd ra imm => some (packI 2 rd ra imm)
  | .andi rd ra imm => some (packI 3 rd ra imm)
  | .ori rd ra imm => some (packI 4 rd ra imm)
  | .xori rd ra imm => some (packI 5 rd ra imm)
  | .slti rd ra imm => some (packI 6 rd ra imm)
  | .sltiu rd ra imm => some (packI 7 rd ra imm)
  | .slli rd ra n => some (packSh 0x08 rd ra 0 n)
  | .srli rd ra n => some (packSh 0x08 rd ra 1 n)
  | .srai rd ra n => some (packSh 0x08 rd ra 2 n)
  | .lui rd imm => some (packU 0x09 rd imm)
  | .auipc rd imm => some (packU 0x0A rd imm)
  | .crr rd n => some (packSh 0x0B rd 0 0 n)
  | .crw rd ra n => some (packSh 0x0B rd ra 1 n)
  | .crs rd ra n => some (packSh 0x0B rd ra 2 n)
  | .crc rd ra n => some (packSh 0x0B rd ra 3 n)
  | .beq ra rb off => some (packI 12 ra rb off)
  | .bne ra rb off => some (packI 13 ra rb off)
  | .blt ra rb off => some (packI 14 ra rb off)
  | .bge ra rb off => some (packI 15 ra rb off)
  | .bltu ra rb off => some (packI 16 ra rb off)
  | .bgeu ra rb off => some (packI 17 ra rb off)
  | .jal rd off => some (packU 0x12 rd off)
  | .jalr rd ra imm => some (packI 0x13 rd ra imm)
  | .lb rt ra sg la off => some (packM 20 rt ra sg la off)
  | .lbu rt ra sg la off => some (packM 21 rt ra sg la off)
  | .lh rt ra sg la off => some (packM 22 rt ra sg la off)
  | .lhu rt ra sg la off => some (packM 23 rt ra sg la off)
  | .lw rt ra sg la off => some (packM 24 rt ra sg la off)
  | .lwu rt ra sg la off => some (packM 25 rt ra sg la off)
  | .ld rt ra sg la off => some (packM 26 rt ra sg la off)
  | .sb rt ra sg off => some (packM 27 rt ra sg 0 off)
  | .sh rt ra sg off => some (packM 28 rt ra sg 0 off)
  | .sw rt ra sg off => some (packM 29 rt ra sg 0 off)
  | .sd rt ra sg off => some (packM 30 rt ra sg 0 off)
  | .lacq rd ra w sc sg la => some (packA 0x1F rd ra (packOc w .none sc) sg 0 la)
  | .srel rd ra w sc sg => some (packA 0x1F rd ra (packOc w .none sc) sg 1 0)
  | .fenceAcq sc => some (packA 0x1F 0 0 (packOc false .acq sc) 0 2 0)
  | .fenceRel sc => some (packA 0x1F 0 0 (packOc false .rel sc) 0 2 0)
  | .fenceAr sc => some (packA 0x1F 0 0 (packOc false .ar sc) 0 2 0)
  | .smap rd ra sg => some (packA 0x1F rd ra 0 sg 3 0)
  | .sunmap rd => some (packA 0x1F rd 0 0 0 4 0)
  | .sflush rd => some (packA 0x1F rd 0 0 0 5 0)
  | .amoswap rd ra w o sc sg la => some (packA 0x20 rd ra (packOc w o sc) sg 0 la)
  | .amoadd rd ra w o sc sg la => some (packA 0x20 rd ra (packOc w o sc) sg 1 la)
  | .amoand rd ra w o sc sg la => some (packA 0x20 rd ra (packOc w o sc) sg 2 la)
  | .amoor rd ra w o sc sg la => some (packA 0x20 rd ra (packOc w o sc) sg 3 la)
  | .amoxor rd ra w o sc sg la => some (packA 0x20 rd ra (packOc w o sc) sg 4 la)
  | .amomin rd ra w o sc sg la => some (packA 0x20 rd ra (packOc w o sc) sg 5 la)
  | .amomax rd ra w o sc sg la => some (packA 0x20 rd ra (packOc w o sc) sg 6 la)
  | .amominu rd ra w o sc sg la => some (packA 0x20 rd ra (packOc w o sc) sg 7 la)
  | .amomaxu rd ra w o sc sg la => some (packA 0x20 rd ra (packOc w o sc) sg 8 la)
  | .amocas rd ra w o sc sg la => some (packA 0x20 rd ra (packOc w o sc) sg 9 la)
  | .redadd w ra rb sg => some (packA 0x21 (packOc w .none .cr) ra rb sg 0 0)
  | .redand w ra rb sg => some (packA 0x21 (packOc w .none .cr) ra rb sg 1 0)
  | .redor w ra rb sg => some (packA 0x21 (packOc w .none .cr) ra rb sg 2 0)
  | .redxor w ra rb sg => some (packA 0x21 (packOc w .none .cr) ra rb sg 3 0)
  | .redmin w ra rb sg => some (packA 0x21 (packOc w .none .cr) ra rb sg 4 0)
  | .redmax w ra rb sg => some (packA 0x21 (packOc w .none .cr) ra rb sg 5 0)
  | .redfadd w ra rb sg => some (packA 0x21 (packOc w .none .cr) ra rb sg 6 0)
  | .sverNext ra rb sg => some (packA 0x22 0 ra rb sg 0 0)
  | .sverNumbered rd ra rb sg => some (packA 0x22 rd ra rb sg 1 0)
  | .lver rd ra rb sg la => some (packA 0x22 rd ra rb sg 2 la)
  | .pver rd ra rb sg la => some (packA 0x22 rd ra rb sg 3 la)
  | .rver ra rb sg => some (packA 0x22 0 ra rb sg 4 0)
  | .lease rd ra rb sg => some (packA 0x23 rd ra rb sg 0 0)
  | .unlease rd ra sg => some (packA 0x23 rd ra 0 sg 1 0)
  | .barCr ra rb => some (packR 0x24 0 ra rb 0 0)
  | .barQd ra rb => some (packR 0x24 0 ra rb 1 0)
  | .barDie ra rb => some (packR 0x24 0 ra rb 2 0)
  | .barPkg ra rb => some (packR 0x24 0 ra rb 3 0)
  | .barPod ra rb => some (packR 0x24 0 ra rb 4 0)
  | .mbxadd rd ra rb => some (packR 0x24 rd ra rb 8 0)
  | .mbxwait ra rb => some (packR 0x24 0 ra rb 9 0)
  | .mbxrd rd ra => some (packR 0x24 rd ra 0 10 0)
  | .spawn rd ra rb => some (packR 0x25 rd ra rb 0 0)
  | .exit rd ra => some (packR 0x25 rd ra 0 1 0)
  | .yield => some (packR 0x25 0 0 0 2 0)
  | .migrate rd ra => some (packR 0x25 rd ra 0 3 0)
  | .upret => some (packR 0x25 0 0 0 4 0)
  | .vfadd ty vd va vb pm => some (packV 0x26 vd va vb pm (tyCode ty) 0)
  | .vfsub ty vd va vb pm => some (packV 0x26 vd va vb pm (tyCode ty) 1)
  | .vfmul ty vd va vb pm => some (packV 0x26 vd va vb pm (tyCode ty) 2)
  | .vfma ty vd va vb pm => some (packV 0x26 vd va vb pm (tyCode ty) 3)
  | .vfnma ty vd va vb pm => some (packV 0x26 vd va vb pm (tyCode ty) 4)
  | .vfmin ty vd va vb pm => some (packV 0x26 vd va vb pm (tyCode ty) 5)
  | .vfmax ty vd va vb pm => some (packV 0x26 vd va vb pm (tyCode ty) 6)
  | .vfdiv ty vd va vb pm => some (packV 0x26 vd va vb pm (tyCode ty) 7)
  | .vfsqrt ty vd va pm => some (packV 0x26 vd va 0 pm (tyCode ty) 8)
  | .vfrcp ty vd va pm => some (packV 0x26 vd va 0 pm (tyCode ty) 9)
  | .vfexp2 ty vd va pm => some (packV 0x26 vd va 0 pm (tyCode ty) 10)
  | .viadd ty vd va vb pm => some (packV 0x27 vd va vb pm (tyCode ty) 0)
  | .visub ty vd va vb pm => some (packV 0x27 vd va vb pm (tyCode ty) 1)
  | .vimul ty vd va vb pm => some (packV 0x27 vd va vb pm (tyCode ty) 2)
  | .vimin ty vd va vb pm => some (packV 0x27 vd va vb pm (tyCode ty) 3)
  | .vimax ty vd va vb pm => some (packV 0x27 vd va vb pm (tyCode ty) 4)
  | .vand ty vd va vb pm => some (packV 0x27 vd va vb pm (tyCode ty) 5)
  | .vor ty vd va vb pm => some (packV 0x27 vd va vb pm (tyCode ty) 6)
  | .vxor ty vd va vb pm => some (packV 0x27 vd va vb pm (tyCode ty) 7)
  | .vsll ty vd va vb pm => some (packV 0x27 vd va vb pm (tyCode ty) 8)
  | .vsrl ty vd va vb pm => some (packV 0x27 vd va vb pm (tyCode ty) 9)
  | .vsra ty vd va vb pm => some (packV 0x27 vd va vb pm (tyCode ty) 10)
  | .vcmpeq ty pd va vb pm => some (packV 0x28 (pField pd) va vb pm (tyCode ty) 0)
  | .vcmplt ty pd va vb pm => some (packV 0x28 (pField pd) va vb pm (tyCode ty) 1)
  | .vcmple ty pd va vb pm => some (packV 0x28 (pField pd) va vb pm (tyCode ty) 2)
  | .vsel ty vd va vb pm => some (packV 0x28 vd va vb pm (tyCode ty) 3)
  | .pand pd pa pb => some (packV 0x28 (pField pd) (pField pa) (pField pb) 0 0 8)
  | .por pd pa pb => some (packV 0x28 (pField pd) (pField pa) (pField pb) 0 0 9)
  | .pxor pd pa pb => some (packV 0x28 (pField pd) (pField pa) (pField pb) 0 0 10)
  | .pnot pd pa => some (packV 0x28 (pField pd) (pField pa) 0 0 0 11)
  | .ppop rd pa => some (packV 0x28 rd (pField pa) 0 0 0 12)
  | .vbcast ty vd xa pm => some (packV 0x29 vd xa 0 pm (tyCode ty) 0)
  | .vext ty rd va xb => some (packV 0x29 rd va xb 0 (tyCode ty) 1)
  | .vperm ty vd va vb pm => some (packV 0x29 vd va vb pm (tyCode ty) 2)
  | .vslide ty vd va xb pm => some (packV 0x29 vd va xb pm (tyCode ty) 3)
  | .vcvt dst src vd va pm => some (packV 0x29 vd va (tyField src) pm (tyCode dst) 4)
  | .vcvtF32E4m3 vd va pm => some (packV 0x29 vd va 1 pm 1 4)
  | .vcvtF32E5m2 vd va pm => some (packV 0x29 vd va 2 pm 2 4)
  | .vcvtE4m3F32 vd va pm => some (packV 0x29 vd va 5 pm 5 4)
  | .vcvtE5m2F32 vd va pm => some (packV 0x29 vd va 6 pm 6 4)
  | .vredsum ty vd va pm => some (packV 0x2A vd va 0 pm (tyCode ty) 0)
  | .vredmax ty vd va pm => some (packV 0x2A vd va 0 pm (tyCode ty) 1)
  | .vredmin ty vd va pm => some (packV 0x2A vd va 0 pm (tyCode ty) 2)
  | .vld ty vd ra sg la => some (packA 0x2B vd ra (tyField ty) sg 0 la)
  | .vst ty vd ra sg => some (packA 0x2B vd ra (tyField ty) sg 1 0)
  | .vlds32 vd ra xb sg la => some (packA 0x2B vd ra xb sg 2 la)
  | .vlds64 vd ra xb sg la => some (packA 0x2B vd ra xb sg 3 la)
  | .vsts32 vd ra xb sg => some (packA 0x2B vd ra xb sg 4 0)
  | .vsts64 vd ra xb sg => some (packA 0x2B vd ra xb sg 5 0)
  | .vstm vd ra pb sg => some (packA 0x2B vd ra (pField pb) sg 6 0)
  | .vgath32 vd ra pm sg la => some (packA 0x2B vd ra (pField pm) sg 7 la)
  | .vgath64 vd ra pm sg la => some (packA 0x2B vd ra (pField pm) sg 8 la)
  | .vscat32 vd ra pm sg => some (packA 0x2B vd ra (pField pm) sg 9 0)
  | .vscat64 vd ra pm sg => some (packA 0x2B vd ra (pField pm) sg 10 0)
  | .vtopk vd va vb pm => some (packV 0x2C vd va vb pm 0 0)
  | .vplane vd va => some (packV 0x2C vd va 0 0 0 1)
  | .vunplane vd va => some (packV 0x2C vd va 0 0 0 2)
  | .vtree pd va xb pm => some (packV 0x2C (pField pd) va xb pm 0 3)
  | .vq4xd vd pb va => some (packV 0x2C vd va (pField pb) 0 0 4)
  | .mma md ra rb sa sb => some (packMX md ra rb sa sb 0)
  | .mzero md => some (packMX md 0 0 0 0 1)
  | .mld md ra sa => some (packMX md ra 0 sa 0 2)
  | .mst md ra sa => some (packMX md ra 0 sa 0 3)
  | .mstg md ra sa => some (packMX md ra 0 sa 0 4)
  | .macc ty md ra => some (packMX md ra 0 (mtyCode ty) 0 5)
  | .mscl ty md ra => some (packMX md ra 0 (mtyCode ty) 0 6)
  | .mfence => some (packMX 0 0 0 0 0 7)
  | .mqstat rd => some (packMX ((0 : BitVec 1) ++ rd) 0 0 0 0 8)
  | .lcfg lx xo => some (packLX lx 0 0 xo 0)
  | .laddOuter lx va vb => some (packLX lx 1 0 va vb)
  | .laddTile lx ma => some (packLX lx 1 ma 31 31)
  | .lread lx vd vq => some (packLX lx 2 0 vd vq)
  | .lldTile lx ma xl => some (packLX lx 3 ma xl 0)
  | .lldLocal lx xo xl => some (packLX lx 3 0 xl xo)
  | .lstTile lx ma xl => some (packLX lx 4 ma xl 0)
  | .lstLocal lx xo xl => some (packLX lx 4 0 xl xo)
  | .lclr lx => some (packLX lx 5 0 0 0)
  | .cpq rd vb => some (packR 0x2F rd 0 vb 0 0)
  | .cpqn rd vb => some (packR 0x2F rd 0 vb 1 0)
  | .cpcancel rd ra => some (packR 0x2F rd ra 0 2 0)
  | .sweep rd ra => some (packR 0x30 rd ra 0 0 0)
  | .twait rd la => some (packR 0x30 rd 0 0 1 la)
  | .tdone rd => some (packR 0x30 rd 0 0 2 0)
  | .swstat rd ra => some (packR 0x30 rd ra 0 3 0)
  | .swcancel rd ra => some (packR 0x30 rd ra 0 4 0)
  | .kvlook rd ra rb la => some (packR 0x31 rd ra rb 0 la)
  | .kvgath rd ra vb => some (packR 0x31 rd ra vb 1 0)
  | .satom rd ra vb id la => some (packSA rd ra vb id 0 la)
  | .srsync id => some (packSA 0 0 0 id 1 0)
  | .trap => some (packR 0x33 0 0 0 0 0)
  | .sret => some (packR 0x33 0 0 0 1 0)
  | .wfi ra => some (packR 0x33 0 ra 0 2 0)
  | .segw sn ra rb => some (packR 0x33 (pField sn) ra rb 3 0)
  | .segr rd sn k => some (packR 0x33 rd (pField sn) ((0 : BitVec 4) ++ k) 4 0)
  | .tlbinv ra rb => some (packR 0x33 0 ra rb 5 0)
  | .fltrd rd ra => some (packR 0x33 rd ra 0 6 0)
  | .fltreplay ra => some (packR 0x33 0 ra 0 7 0)
  | .cinval sn ra rb => some (packR 0x33 (pField sn) ra rb 8 0)
  | .cflush sn ra rb => some (packR 0x33 (pField sn) ra rb 9 0)
  | .publish sn ra => some (packR 0x33 (pField sn) ra 0 10 0)
  | .sqtail => none
  | .cqhead => none
  | .qcfg => none
  | .vfctl => none
  | .registerWrite => none
  | .launch => none
  | .copyh => none
  | .fill => none
  | .signal => none
  | .wait => none
  | .waitTimeout => none
  | .routine => none
  | .map => none
  | .partcfg => none
  | .partstart => none
  | .partstop => none
  | .vfbind => none
  | .vfpause => none
  | .vfresume => none
  | .vfreset => none
  | .functionLevelReset => none
  | .maskset => none
  | .loadimg => none
  | .attest => none
  | .raisever => none
  | .msixDeferredSend => none
  | .moduleReset => none
  | .dhcpv6Timeout => none
  | .fetchAttempt => none
  | .memoryTraining => none
  | .attestPost => none
  | .dieSparing => none
  | .computeDieLost => none
  | .flitReplay => none
  | .linkPortDown => none
  | .remoteRequest => none
  | .droopTrip => none
  | .droopClear => none
  | .thermalShutdown => none
  | .patrolScrub => none
  | .poisonRestore => none
  | .errorLogTailUpdate => none
  | .llcRebalance => none
  | .taskPlacement => none
  | .gangReservation => none
  | .launchMessageArrival => none
  | .inboxTake => none
  | .arbiterPass => none
  | .coreSave => none
  | .saveCommitTimeout => none
  | .coreResume => none
  | .ifetchFill => none
  | .stashFill => none
  | .stashRecall => none
  | .forwardedAccess => none
  | .matrixCommandExecute => none
  | .ladderCommandExecute => none
  | .copyStep => none
  | .copyInterruptEntry => none
  | .copyFaultTrap => none
  | .mailboxIncrement => none
  | .resultArrival => none
  | .deferredTrap => none
  | .pageWalk => none
  | .migrationFrameArrival => none
  | .spillDrain => none
  | .homeQueueServe => none
  | .updateCopyReturn => none
  | .leaseGrant => none
  | .leaseExpiry => none
  | .tagResend => none
  | .resendExhausted => none
  | .tileDelivery => none
  | .sweepSplit => none
  | .kvgathExecute => none
  | .darnInvocation => none
  | .ordRefusalResend => none
  | .lpFrameFill => none
  | .notifyQueueHeadUpdate => none
  | .yieldExpiry => none
  | .wfiTimeout => none
  | .remoteAccessTimeout => none
  | .podBarrierArrival => none
  | .partitionSchedule => none
  | .pcieError => none

end Sys2Proof
end

