-- ==== Sys2Proof/Machine/Flags.lean ====
section
/-! DEFINITION. Number formats, exact values, the one rounding of every result and the flags it sets (chapter 8). A finite value is held
exactly as (-1)^s × m × 2^e; every operation forms its exact result and rounds it once (R225). -/

namespace Sys2Proof.Machine

/-- FFLAGS: SAT NV DZ OF UF NX, NX in bit 0 (R126, R228). -/
abbrev FFlags := BitVec 6
def fNX : FFlags := 1
def fUF : FFlags := 2
def fOF : FFlags := 4
def fDZ : FFlags := 8
def fNV : FFlags := 16
def fSAT : FFlags := 32

/-- Rounding modes by FRM.RM (R225). -/
inductive RMode where
  | rne | rtz | rdn | rup
  deriving DecidableEq, Repr

def rmOf (frm : BitVec 3) : RMode :=
  match (frm.extractLsb' 0 2).toNat with
  | 0 => .rne | 1 => .rtz | 2 => .rdn | _ => .rup

/-- A floating-point format (R216): widths of the exponent and the mantissa, the bias, and whether it has infinities (E4M3 has
none, R217). -/
structure Fmt where
  ebits : Nat
  mbits : Nat
  bias : Nat
  hasInf : Bool
  deriving DecidableEq, Repr

def fp64 : Fmt := ⟨11, 52, 1023, true⟩
def fp32 : Fmt := ⟨8, 23, 127, true⟩
def bf16 : Fmt := ⟨8, 7, 127, true⟩
def fp16 : Fmt := ⟨5, 10, 15, true⟩
def e4m3 : Fmt := ⟨4, 3, 7, false⟩
def e5m2 : Fmt := ⟨5, 2, 15, true⟩

/-- The canonical NaN (R216). -/
def Fmt.nan (f : Fmt) : Nat :=
  if f.hasInf then (2 ^ f.ebits - 1) * 2 ^ f.mbits + 2 ^ (f.mbits - 1) else 2 ^ (f.ebits + f.mbits) - 1
/-- +∞, and the largest finite code. -/
def Fmt.inf (f : Fmt) : Nat := (2 ^ f.ebits - 1) * 2 ^ f.mbits
def Fmt.maxFin (f : Fmt) : Nat := if f.hasInf then f.inf - 1 else f.nan - 1
def Fmt.signBit (f : Fmt) : Nat := 2 ^ (f.ebits + f.mbits)
/-- The exponent of the format's finest spacing, that of its subnormals. -/
def Fmt.qmin (f : Fmt) : Int := 1 - (f.bias : Int) - (f.mbits : Int)

/-- A value: a NaN, an infinity, or the finite number (-1)^neg × m × 2^e; a zero keeps its sign. -/
inductive FVal where
  | nan
  | inf (neg : Bool)
  | fin (neg : Bool) (m : Nat) (e : Int)
  deriving DecidableEq, Repr

/-- Read a code (R216, R217). -/
def Fmt.read (f : Fmt) (c : Nat) : FVal :=
  let neg := c / f.signBit % 2 == 1
  let e := c / 2 ^ f.mbits % 2 ^ f.ebits
  let m := c % 2 ^ f.mbits
  if e = 2 ^ f.ebits - 1 && f.hasInf then (if m = 0 then .inf neg else .nan)
  else if e = 2 ^ f.ebits - 1 && m = 2 ^ f.mbits - 1 then .nan
  else if e = 0 then .fin neg m f.qmin
  else .fin neg (2 ^ f.mbits + m) (f.qmin + (e - 1 : Int))

/-- Whether the quotient `q` with remainder `rem` of `2^s` is rounded away from zero (R225). -/
def roundUp (mode : RMode) (neg : Bool) (q rem s : Nat) : Bool :=
  if rem = 0 then false
  else match mode with
    | .rne => decide (2 ^ s < 2 * rem) || (decide (2 ^ s = 2 * rem) && q % 2 == 1)
    | .rtz => false
    | .rdn => neg
    | .rup => !neg

/-- `m × 2^e` cut at the spacing 2^q and rounded: the multiple of 2^q, and whether it is inexact. -/
def cutAt (mode : RMode) (neg : Bool) (m : Nat) (e q : Int) : Nat × Bool :=
  if q ≤ e then (m * 2 ^ (e - q).toNat, false)
  else
    let s := (q - e).toNat
    let k := m / 2 ^ s
    let r := m % 2 ^ s
    (if roundUp mode neg k r s then k + 1 else k, decide (r ≠ 0))

/-- The overflow value of R226. -/
def Fmt.overflow (f : Fmt) (mode : RMode) (neg : Bool) : Nat :=
  let s := if neg then f.signBit else 0
  match mode, neg with
  | .rtz, _ | .rdn, false | .rup, true => s + f.maxFin
  | _, _ => s + (if f.hasInf then f.inf else f.nan)

/-- A non-zero finite value rounded with an unbounded exponent range but no finer than the subnormals' spacing (R225 step 3): the
code if it does not overflow, whether it is inexact, and whether UF is set (R228). -/
def Fmt.roundCore (f : Fmt) (mode : RMode) (neg : Bool) (m : Nat) (e : Int) : Option Nat × Bool × Bool :=
  let lead : Int := e + (Nat.log2 m : Int)
  let q : Int := max (lead - f.mbits) f.qmin
  let (k, inexact) := cutAt mode neg m e q
  let (ku, _) := cutAt mode neg m e (lead - f.mbits)
  -- below the smallest normal 2^(qmin + mbits) after rounding with an unbounded exponent range
  let tiny := decide (lead + 1 < f.qmin + f.mbits) || (decide (lead + 1 = f.qmin + f.mbits) && decide (ku < 2 ^ (f.mbits + 1)))
  let code : Nat := (q - f.qmin).toNat * 2 ^ f.mbits + k
  (if code ≤ f.maxFin then some code else none, inexact, tiny && inexact)

/-- `round` of a finite non-zero value, with its flags (R225, R226, R228). -/
def Fmt.roundFin (f : Fmt) (mode : RMode) (neg : Bool) (m : Nat) (e : Int) : Nat × FFlags :=
  let s := if neg then f.signBit else 0
  match f.roundCore mode neg m e with
  | (some c, inexact, uf) => (s + c, (if inexact then fNX else 0) ||| (if uf then fUF else 0))
  | (none, _, _) => (f.overflow mode neg, fOF ||| fNX)

/-- `round(fmt, v, mode)` (R225): the code and the flags. -/
def Fmt.round (f : Fmt) (mode : RMode) : FVal → Nat × FFlags
  | .nan => (f.nan, 0)
  | .inf neg => ((if neg then f.signBit else 0) + (if f.hasInf then f.inf else f.nan), 0)
  | .fin neg m e => if m = 0 then (if neg then f.signBit else 0, 0) else f.roundFin mode neg m e

/-! ### Exact sums and products -/

/-- A product: exact, and NV for a zero times an infinity (R224, R227, R228). A NaN factor sets no flag. -/
def FVal.mul : FVal → FVal → FVal × FFlags
  | .nan, _ | _, .nan => (.nan, 0)
  | .inf a, .inf b => (.inf (a != b), 0)
  | .inf a, .fin b m _ | .fin b m _, .inf a => if m = 0 then (.nan, fNV) else (.inf (a != b), 0)
  | .fin a m e, .fin b n g => (.fin (a != b) (m * n) (e + g), 0)

def FVal.isNan : FVal → Bool
  | .nan => true
  | .inf _ | .fin _ _ _ => false
def FVal.isInf (neg : Bool) : FVal → Bool
  | .inf s => s == neg
  | .nan | .fin _ _ _ => false
def FVal.isZero : FVal → Bool
  | .fin _ m _ => m == 0
  | .nan | .inf _ => false
def FVal.neg : FVal → Bool
  | .nan => false
  | .inf s => s
  | .fin s _ _ => s
def FVal.negate : FVal → FVal
  | .nan => .nan
  | .inf s => .inf !s
  | .fin s m e => .fin (!s) m e

/-- The least exponent of the finite terms. -/
def minExp : List FVal → Int → Int
  | [], e => e
  | .fin _ m g :: t, e => minExp t (if m = 0 then e else min g e)
  | .nan :: t, e | .inf _ :: t, e => minExp t e

/-- The exact sum of the finite terms in units of 2^q, where q is no larger than any exponent. -/
def sumAt (q : Int) : List FVal → Int
  | [] => 0
  | .fin s m e :: t => (if s then -((m * 2 ^ (e - q).toNat : Nat) : Int) else ((m * 2 ^ (e - q).toNat : Nat) : Int)) + sumAt q t
  | .nan :: t | .inf _ :: t => sumAt q t

/-- The exponent that the units of an exact sum start from: no format reaches below it. -/
def sumExp : List FVal → Int
  | [] => 0
  | .fin _ m g :: t => if m = 0 then sumExp t else minExp t g
  | .nan :: t | .inf _ :: t => sumExp t

/-- The exact sum of terms: NaN when a term is NaN, or with NV when the terms hold both infinities; an infinity when one is; otherwise
the exact real sum, whose zero sign R227 gives (R234). -/
def exactSum (mode : RMode) (ts : List FVal) : FVal × FFlags :=
  if ts.any FVal.isNan then (.nan, if ts.any (FVal.isInf false) && ts.any (FVal.isInf true) then fNV else 0)
  else if ts.any (FVal.isInf false) && ts.any (FVal.isInf true) then (.nan, fNV)
  else if ts.any (FVal.isInf false) then (.inf false, 0)
  else if ts.any (FVal.isInf true) then (.inf true, 0)
  else
    let q := sumExp ts
    let v := sumAt q (ts.filter fun t => !t.isZero)
    if v = 0 then
      let allNeg := ts.all fun t => t.isZero && t.neg
      let cancels := ts.any (fun t => !t.isZero) || (ts.any (fun t => t.neg) && ts.any (fun t => !t.neg))
      (.fin (allNeg || (cancels && mode == .rdn)) 0 0, 0)
    else (.fin (decide (v < 0)) v.natAbs q, 0)

/-! ### Operations: code operands, code result and flags -/

def Fmt.add (f : Fmt) (mode : RMode) (a b : Nat) : Nat × FFlags :=
  let (v, g) := exactSum mode [f.read a, f.read b]
  let (c, h) := f.round mode v
  (c, g ||| h)

def Fmt.sub (f : Fmt) (mode : RMode) (a b : Nat) : Nat × FFlags :=
  let (v, g) := exactSum mode [f.read a, (f.read b).negate]
  let (c, h) := f.round mode v
  (c, g ||| h)

def Fmt.mul (f : Fmt) (mode : RMode) (a b : Nat) : Nat × FFlags :=
  let (v, g) := (f.read a).mul (f.read b)
  let (c, h) := f.round mode v
  (c, g ||| h)

/-- a × b + c with one rounding; the product negated when `n` holds. -/
def Fmt.fma (f : Fmt) (mode : RMode) (n : Bool) (a b c : Nat) : Nat × FFlags :=
  let (p, g) := (f.read a).mul (f.read b)
  let (v, h) := exactSum mode [if n then p.negate else p, f.read c]
  let (r, k) := f.round mode v
  (r, g ||| h ||| k)

/-- Division (R228): 0/0 and ∞/∞ are invalid, and a finite non-zero value by zero sets DZ. The quotient is taken to 160 bits below
its leading bit and made odd when it is not exact, which no rounding can tell from the exact quotient. -/
def Fmt.div (f : Fmt) (mode : RMode) (a b : Nat) : Nat × FFlags :=
  match f.read a, f.read b with
  | .nan, _ | _, .nan => (f.nan, 0)
  | .inf _, .inf _ => (f.nan, fNV)
  | .inf s, .fin t _ _ => f.round mode (.inf (s != t))
  | .fin s _ _, .inf t => f.round mode (.fin (s != t) 0 0)
  | .fin s m e, .fin t n g =>
    if n = 0 then (if m = 0 then (f.nan, fNV) else ((f.round mode (.inf (s != t))).1, fDZ))
    else if m = 0 then f.round mode (.fin (s != t) 0 0)
    else
      let k := m * 2 ^ 160
      let q := 2 * (k / n) + (if k % n = 0 then 0 else 1)
      f.round mode (.fin (s != t) q (e - g - 161))

/-- The reciprocal; DZ for zero (R228). -/
def Fmt.rcp (f : Fmt) (mode : RMode) (a : Nat) : Nat × FFlags := f.div mode (f.bias * 2 ^ f.mbits) a

/-- Integer square root by bits, from bit `n - 1` down: the largest r with r² ≤ x that extends `acc`. -/
def isqrtFrom (x acc : Nat) : Nat → Nat
  | 0 => acc
  | n + 1 =>
    let t := acc + 2 ^ n
    isqrtFrom x (if t * t ≤ x then t else acc) n

def isqrt (x : Nat) : Nat := isqrtFrom x 0 (Nat.log2 x / 2 + 1)

/-- Square root; a number below -0 is invalid (R228). -/
def Fmt.sqrt (f : Fmt) (mode : RMode) (a : Nat) : Nat × FFlags :=
  match f.read a with
  | .nan => (f.nan, 0)
  | .inf s => if s then (f.nan, fNV) else f.round mode (.inf false)
  | .fin s m e =>
    if m = 0 then f.round mode (.fin s 0 0)
    else if s then (f.nan, fNV)
    else
      let (m, e) := if e % 2 = 0 then (m, e) else (2 * m, e - 1)
      let k := m * 2 ^ 320
      let r := isqrt k
      f.round mode (.fin false (2 * r + (if r * r = k then 0 else 1)) ((e - 320) / 2 - 1))

/-- 2^f in units of 2^-240 for the fraction bits `fs` (bit of weight 1/2 first): the product of the roots 2^(2^-i). -/
def exp2Frac (root acc : Nat) : List Bool → Nat
  | [] => acc
  | b :: t =>
    let r := isqrt (root * 2 ^ 240)
    exp2Frac r (if b then acc * r / 2 ^ 240 else acc) t

/-- The `n` bits of a fraction `m / 2^k`, weight 1/2 first. -/
def fracBits (m k : Nat) : Nat → List Bool
  | 0 => []
  | n + 1 => (m / 2 ^ (k - 1) % 2 == 1) :: fracBits (m % 2 ^ (k - 1)) (k - 1) n

/-- 2^x for a finite x = (-1)^s × m × 2^e: exact when x is an integer; otherwise 2^x is irrational, and 240 bits decide any rounding.
A value below 2^-64 in magnitude gives 1 with a small error on its side; one beyond ±2^17 lies far beyond every format. -/
def exp2Fin (s : Bool) (m : Nat) (e : Int) : FVal :=
  if m = 0 then .fin false 1 0
  else if 0 ≤ e then
    let n := min (m * 2 ^ (min e.toNat 20)) (2 ^ 17)
    .fin false 1 (if s then -(n : Int) else n)
  else
    let k := (-e).toNat
    if e + (Nat.log2 m : Int) < -64 then .fin false (if s then 2 ^ 240 - 1 else 2 ^ 240 + 1) (-240)
    else
      -- floor and fraction of the signed value
      let whole := m / 2 ^ k
      let frac := m % 2 ^ k
      if frac = 0 then
        let n := min whole (2 ^ 17)
        .fin false 1 (if s then -(n : Int) else n)
      else
        let n : Int := if s then -(min whole (2 ^ 17) : Nat) - 1 else (min whole (2 ^ 17) : Nat)
        let fr := if s then 2 ^ k - frac else frac
        .fin false (2 * exp2Frac (2 * 2 ^ 240) (2 ^ 240) (fracBits fr k k) + 1) (n - 241)

/-- 2^x, correctly rounded (R225, R295). -/
def Fmt.exp2 (f : Fmt) (mode : RMode) (a : Nat) : Nat × FFlags :=
  match f.read a with
  | .nan => (f.nan, 0)
  | .inf s => if s then f.round mode (.fin false 0 0) else f.round mode (.inf false)
  | .fin s m e => f.round mode (exp2Fin s m e)

/-! ### Order and conversions -/

/-- Exact order of two finite or infinite values: -1, 0 or 1; +0 and -0 are equal. -/
def FVal.cmp : FVal → FVal → Int
  | .inf a, .inf b => if a = b then 0 else if a then -1 else 1
  | .inf a, .fin _ _ _ => if a then -1 else 1
  | .fin _ _ _, .inf b => if b then 1 else -1
  | .fin s m e, .fin t n g =>
    let q := min e g
    let v := sumAt q [.fin s m e, .fin (!t) n g]
    if v < 0 then -1 else if v = 0 then 0 else 1
  | .nan, _ | _, .nan => 0

/-- A value rounded to an integer, and whether that changed it (R230). -/
def FVal.toInt (mode : RMode) : FVal → Int × Bool
  | .fin s m e =>
    let (k, x) := cutAt mode s m e 0
    (if s then -(k : Int) else k, x)
  | .nan | .inf _ => (0, false)

/-- An integer as an exact value. -/
def FVal.ofInt (v : Int) : FVal := .fin (decide (v < 0)) v.natAbs 0

/-- A conversion to FP8 (R232): FRM.SAT decides what happens beyond the range. -/
def Fmt.toFp8 (dst : Fmt) (mode : RMode) (sat : Bool) (v : FVal) : Nat × FFlags :=
  match v with
  | .nan => (dst.nan, 0)
  | .inf s =>
    let sb := if s then dst.signBit else 0
    if dst.hasInf then (sb + dst.inf, 0)
    else if sat then (sb + dst.maxFin, fOF) else (dst.nan, fNV)
  | .fin s m e =>
    let sb := if s then dst.signBit else 0
    if m = 0 then (sb, 0)
    else match dst.roundCore mode s m e with
      | (some _, _, _) => dst.roundFin mode s m e
      | (none, _, _) =>
        if sat then (sb + dst.maxFin, fOF ||| fNX)
        else if dst.hasInf then (dst.overflow mode s, fOF ||| fNX)
        else (dst.nan, fOF ||| fNX)

/-- Clamp to the range of an n-bit two's complement integer: the value, and whether it was clamped. -/
def clampInt (n : Nat) (v : Int) : Int × Bool :=
  let lo : Int := -(2 ^ (n - 1) : Nat)
  let hi : Int := (2 ^ (n - 1) : Nat) - 1
  if v < lo then (lo, true) else if hi < v then (hi, true) else (v, false)

/-- The n-bit pattern of an integer, mod 2^n. -/
def patOf (n : Nat) (v : Int) : Nat := (v % (2 ^ n : Nat)).toNat
/-- The two's complement value of an n-bit pattern. -/
def svOf (n : Nat) (c : Nat) : Int := if c % 2 ^ n < 2 ^ (n - 1) then (c % 2 ^ n : Nat) else (c % 2 ^ n : Nat) - (2 ^ n : Nat)

/-- A conversion from floating point to an n-bit integer (R230). -/
def FVal.toIntSat (mode : RMode) (n : Nat) : FVal → Nat × FFlags
  | .nan => (0, fNV)
  | .inf s => (patOf n (if s then -(2 ^ (n - 1) : Nat) else (2 ^ (n - 1) : Nat) - 1), fNV)
  | .fin s m e =>
    -- a value far beyond every integer range is cut down first
    if 128 < e + (Nat.log2 m : Int) && m ≠ 0 then (patOf n (if s then -(2 ^ (n - 1) : Nat) else (2 ^ (n - 1) : Nat) - 1), fNV)
    else
      let (v, x) := FVal.toInt mode (.fin s m e)
      let (c, cl) := clampInt n v
      (patOf n c, if cl then fNV else if x then fNX else 0)

/-- Signed minimum and maximum of floating-point codes are in the vector file; a maximum of integers as codes: -/
def sMin (n : Nat) (a b : Nat) : Nat := if svOf n a ≤ svOf n b then a % 2 ^ n else b % 2 ^ n
def sMax (n : Nat) (a b : Nat) : Nat := if svOf n a ≤ svOf n b then b % 2 ^ n else a % 2 ^ n

end Sys2Proof.Machine
end

