-- ==== Sys2Proof/Config.lean ====
section
/-! DEFINITION. What the spec leaves open: free values, which nothing in Lean can evaluate (log entries 5, 6, 8 and 16). A statement about
one of them holds whatever it is. -/

namespace Sys2Proof

/-- A value that the spec does not state, drawn with the model's own counter `freeCtr` (log entry 5). -/
opaque Config.freeWord : Nat → Word

/-- Whether an ML-DSA-87 signature over a stage's SHA3-512 digest verifies against the fused key (R44); the format of an image and the
fused key are not given (log entry 6). -/
opaque Config.signatureOk : List Byte → Bool

/-- The security version that a signed stage carries (R46); its place in the stage is not given (log entry 6). -/
opaque Config.stageVersion : List Byte → Word

/-- The module's ML-DSA-87 signature of a byte string under its identity key (R48), log entry 6. -/
opaque Config.sign : List Byte → List Byte

/-- The set of its home slice that holds a line, modulo the 1,024 sets of a slice (R1, R80, R81): the spec gives sets no index (log
entry 8). -/
opaque Config.llcSet : Nat → Nat

/-- The set of a core's L1 data cache that holds a line (R123): the spec gives its sets no index (log entry 8). -/
opaque Config.l1dSet : Nat → Nat

/-- Whether a copy request reads a source through a REMOTE page, as R42 says, or ends there with PERM, as R343 says: the two rules disagree
(log entry 16). -/
opaque Config.copyRemote : Bool

end Sys2Proof
end

