-- ==== Sys2Proof/Machine/Types.lean ====
section
/-! DEFINITION. The pieces that the machine's state is made of: plain data, one structure for each unit of the spec that holds state
(slots and cores of chapter 5, home slices, quads and pages of chapters 6 and 7, tasks of chapter 4, functions and partitions of
chapter 3, boot and reliability of chapter 2). The operations on them stand in the other files of this folder. -/

namespace Sys2Proof.Machine

/-- A sparse table with natural-number keys, in rising key order. -/
abbrev AMap (α : Type) := List (Nat × α)

/-- Bytes by address: rising addresses, and no entry that holds what an unlisted address reads as, which is 0 (log entry 2). -/
abbrev Mem := List Host.Cell

/-! ### Traps -/

/-- The trap causes of R253. -/
inductive Cause where
  | illegal | target | lahead | segv | segperm | misalign | perm | dataerr | priv | detviol | slice | vers | lease | kvfault
  | sweep | syscall | migrate | ladder
  deriving DecidableEq, Repr

/-- A trap that is due: its cause and the value for SADDR (R253). -/
structure TrapInfo where
  cause : Cause
  saddr : Word
  deriving DecidableEq, Repr

/-! ### Lookahead (R247-R250) -/

/-- A register that a long-latency result will write: its pending destinations (R248). -/
inductive Dest where
  | x (r : RegNo)
  | v (r : RegNo)
  | cr (n : BitVec 6)
  deriving DecidableEq, Repr

/-- What the bytes of a long-latency result become when it arrives (R248): each form names its destination registers. -/
inductive Post where
  /-- one scalar of `size` bytes, sign-extended (R267, R270, R276) -/
  | sext (rd : RegNo) (size : Nat)
  /-- one scalar of `size` bytes, zero-extended -/
  | zext (rd : RegNo) (size : Nat)
  /-- two 64-bit words into rd and rd + 1 (R282) -/
  | pair (rd : RegNo)
  /-- vector elements of `size` bytes: the lanes of vd in the list take the elements of the raw bytes in order; the other lanes are
  kept (R305, R306) -/
  | vec (vd : RegNo) (size : Nat) (lanes : List Nat)
  /-- `twait`: X[rd], SWBUF and SWLIN (R351) -/
  | twait (rd : RegNo) (buf lin : Nat)
  /-- `satom`: y0 and the floating-point flags (R364, R370) -/
  | satom (rd : RegNo) (flags : BitVec 6)
  deriving DecidableEq, Repr

/-- One outstanding result of a thread (R248). `raw` gathers its bytes; `need` counts the parts that no agent has answered yet; a
part that fails leaves `err`. `prog` numbers results in program order. -/
structure Pending where
  id : Nat
  post : Post
  raw : List Byte
  need : Nat
  err : Option TrapInfo
  deriving DecidableEq, Repr

/-- The window of a long-latency instruction: its result, its pending destinations, and how many instructions it still covers. -/
structure Window where
  pid : Nat
  dests : List Dest
  left : Nat
  deriving DecidableEq, Repr

/-! ### Releases (R194) -/

/-- What must be performed before a message leaves (R194, R200): the accesses of a slot stamped before `mark`, for a release of
`scope`, or only its stores to the stash entries of core `stashOf`. -/
structure Gate where
  rank : Nat
  part : Nat                     -- the thread's partition, and the partition rank of its core: the `satom` of a saved thread waits
  prank : Nat                    -- on while another partition's thread holds its slot (R371)
  slot : Nat
  mark : Nat
  scope : MemScope
  stashOf : Option Nat
  deriving DecidableEq, Repr

/-! ### Waiting -/

/-- A barrier of R284: partition, tag, scope (0 `.cr` to 4 `.pod`) and instance. -/
structure BarKey where
  part : Nat
  tag : Nat
  scope : Nat
  inst : Nat
  deriving DecidableEq, Repr

/-- Why a slot is parked, or skipped, and does not issue (R109, R116, R166). The PC still names the waiting instruction, except for
`bar`, whose arrival has been counted. -/
inductive Wait where
  | none
  /-- the fetch line (a PA divided by 128) has not arrived in the instruction cache (R122) -/
  | fetch (line : Nat)
  /-- the translation of the byte at `gva` misses in the TLBs and a walk is asked for, by a write or by a fetch (R163, R166) -/
  | walk (gva : Nat) (write exec_ : Bool)
  /-- a page-fault park on the byte at `gva` (R170) -/
  | fault (gva : Nat)
  /-- `mbxwait` on a counter (R143) -/
  | mbx (idx : Nat) (target : HWord)
  /-- 256 tagged requests are outstanding (R274) -/
  | tags
  /-- the write buffer has not that many free entries (R123) -/
  | wb (need : Nat)
  /-- a release of the thread is not complete: its own, or one that came before (R194, R196) -/
  | release (g : Gate)
  /-- earlier loads of the thread are not performed (R196), or an earlier acquiring read is not (R194) -/
  | acquire
  /-- full matrix queue (R134) -/
  | matrixQueue
  /-- `lcfg`, or the start of a successor that drops a ladder: the matrix queue empties (R328) -/
  | queueEmpty
  /-- `mfence`: a matrix command of the thread has not completed (R206) -/
  | mfence
  /-- full copy FIFO (R138) -/
  | copyFifo
  /-- a locked tile (R135); the slot is skipped -/
  | tile (k : Nat)
  /-- first touch of a MAPPED stash entry (R131) -/
  | stash (entry : Nat)
  /-- the answer of a home slice to `lease`, `unlease`, `sver`, `rver` or `lver` (R279, R282, R283) -/
  | home
  /-- `twait` with no tile to claim (R351) -/
  | twait
  /-- the barrier's phase (R284) -/
  | bar (key : BarKey) (phase : Nat)
  /-- a barrier that would be the 65th open one (R284) -/
  | barOpen (key : BarKey)
  /-- `migrate` whose frame no core has accepted yet (R149) -/
  | migrate
  /-- every pending result of the thread must arrive first: `exit` (R288), `migrate` (R290) -/
  | pending
  /-- `exit` of a guest whose home core is saved (log entry 23) -/
  | homeCore
  /-- a trap that waits for the thread's pending results (R249, R250, R254) -/
  | trapDue (t : TrapInfo)
  /-- an upcall that waits for the thread's pending results (R250): UCAUSE 0x20, UADDR -/
  | upcallDue (gva : Word)
  /-- `wfi` (R376) -/
  | wfi (until_ : Nat)
  /-- a shootdown of a kind at a GVA: accesses stamped before `mark` under the old translations must be performed; for a `publish` the writes
  through the old back copy, entry `pub` of its pairs, too (R167, R208, R378, R381) -/
  | shootdown (mark kind gva : Nat) (pub : Option Nat)
  /-- `lread` on a locked ladder (R333) -/
  | ladder (lx : Nat)
  /-- `fence.acq`: earlier loads of the thread; with a gate `fence.ar`, its earlier stores too (R196) -/
  | fence (g : Option Gate)
  /-- a line is held (R175, R205), or earlier accesses of the thread to these bytes of it are not performed (R189) -/
  | line (l : Nat) (mask : BitVec 128)
  /-- a read made at once (R333, R356) stands in the home queue of a held line (R175) -/
  | peek (l : Nat) (mask : BitVec 128)
  /-- `cflush` or `cinval`: its release, or the hold of a line (R380) -/
  | cache (line : Option Nat) (g : Option Gate)
  deriving DecidableEq, Repr

/-- The lease record of a slot (R279). `rels` holds the releases of the `srel` whose stores stand in its buffer, each by its mark and scope: the
buffer is not written before they are complete (R194). -/
structure LeaseRec where
  line : Nat
  held : Bool
  snap : Line
  buf : Line
  mask : BitVec 128
  rels : List (Nat × MemScope)
  deriving DecidableEq, Repr

/-- A latched matrix error (R114, R317). -/
structure MxErr where
  cause : Cause
  gva : Word
  deriving DecidableEq, Repr

/-- The control registers that a thread has from its task (R125), and STREAM of its STATUS (R126). -/
structure TaskRegs where
  tidx : Word
  lscfg : Word
  tilemask : Word
  grpid : Word
  stream : Nat
  deriving DecidableEq, Repr

/-! ### A thread slot (R124-R127) -/

structure Slot where
  occ : Bool                     -- R114 OCC
  away : Bool                    -- R114 AWAY
  part : Nat                     -- the partition whose task holds the slot
  isGuestSlot : Bool             -- held as an empty or occupied guest slot (R145)
  x : Vector Word 32
  v : Vector VWordReg 32
  p : Vector Word 8
  s : Vector SegImage 8
  pc : Word
  arrive : Option Word           -- R245: the arrival mark, with the address of the transfer that arrived (0 otherwise)
  mode : Bool                    -- STATUS.MODE: true in supervisor mode
  uact : Bool
  guest : Bool
  npend : Bool
  hrank : Nat                    -- partition rank of the home core
  hslot : Nat
  fflags : BitVec 6
  frm : BitVec 3
  mfmt : Word
  msca : Word
  mscb : Word
  mosh : Word
  swbuf : Word
  swlin : Word
  uixid : Word
  uvec : Word
  uepc : Word
  ucause : Word
  uaddr : Word
  unote : Word
  sepc : Word
  scause : Word
  saddr : Word
  sscratch : Word
  mxerr : Option MxErr
  windows : List Window
  pend : List Pending
  nextPid : Nat
  deferred : List (Nat × TrapInfo)   -- R250: failed results by their number, earliest in program order first
  trapPid : Nat                  -- results numbered below it were issued before the last trap: they wait while MODE = 1 (R250)
  wait : Wait
  lease : Option LeaseRec
  acqPid : List Nat              -- acquiring reads that must be performed before a later access (R194)
  relMark : Option (Nat × MemScope)  -- the mark of an earlier `fence.rel` and its scope (R196)
  opMark : Option Nat            -- the mark that a waiting instruction took when it first executed (R194, R167)
  turns : List Nat               -- lines whose homes have served the reads that its instruction makes at once (R175)
  own : Option TaskRegs          -- TIDX, LSCFG, TILEMASK, GRPID and STREAM as its saved image gave them (R113)
  fresh : Option (Nat × Bool × Bool)   -- the page just walked for an access of the slot, and whether it writes or fetches (R164)
  word : HWord                   -- the instruction word that the slot fetched last
  yieldUntil : Nat               -- core cycle before which `yield` keeps the slot ineligible (R289)
  lastIssue : Option Nat         -- core cycle of the last issue (R109)
  badX : List Nat                -- x, v and p registers whose parity is bad (R54)
  badV : List Nat
  badP : List Nat
  badS : List Nat                -- segment registers, and control registers by number, 64 for the PC (R124)
  badC : List Nat
  claimed : Option (Nat × Nat × Nat)   -- the tile that `twait` claimed: sweep id, linear index, buffer (R351)
  heldBuf : Option Nat           -- a buffer kept back after a save returned the tile (R352)
  copyFaults : List TrapInfo     -- failed copy requests not yet taken as traps (R343)
  copyHold : Bool                -- the failed copy requests wait for `sret`: one was due together with a deferred trap (R250)
  copyIrqs : List (Word × Word)  -- copy interrupts waiting: handler address, transfer identifier (R141)
  deriving DecidableEq, Repr

/-! ### Tasks (R87-R106) -/

/-- The fields of a task group descriptor (R87). -/
structure Desc where
  succ : Nat
  jen : Bool
  jidx : Nat
  jrank : Nat
  tilemask : Word
  queue : Nat
  detl : Bool
  place : Nat
  guests : Nat
  stash : Nat
  scratch : Nat
  threads : Nat
  args : Word
  segtab : Nat
  tasks : Nat
  entry : Word
  deriving DecidableEq, Repr

/-- A buffer of a worker task (R351): the tile in it, who claimed it, and the order of its delivery. -/
structure SweepBuf where
  buf : Nat
  sid : Nat
  lin : Nat
  order : Nat
  claimedBy : Option Nat         -- the slot that claimed it, at home
  deriving DecidableEq, Repr

/-- A task on a core (R93, R103, R129). -/
structure Task where
  id : Nat
  part : Nat
  group : Nat
  index : Nat
  desc : Desc
  base : Nat                     -- first 32 KiB block of its window
  blocks : Nat                   -- SCRATCH + STASH + g
  slots : List Nat               -- home slots that its live threads hold
  freed : List Nat               -- home slots that earlier threads freed (R105)
  guestSlots : List Nat
  gates : List Gate              -- the releases of its ended threads (R106)
  startedAt : Nat                -- for the long-lived occupants of R100
  ended : Bool                   -- ended, but its window or tiles are not free yet (R103)
  bufs : List SweepBuf
  heldBufs : List Nat            -- buffers out of use after a save (R352)
  deriving DecidableEq, Repr

/-- A live group (R92, R287): its segment record and what is left of it. -/
structure Group where
  id : Nat
  desc : Desc
  segs : Vector SegImage 8
  localImg : Option (Nat × Nat)  -- GVA and length of the `.local` image
  next : Nat                     -- index of the next task to start
  live : Nat                     -- tasks started and not ended, messages on the way included
  lastRank : Option Nat          -- for PLACE spread (R97)
  cmd : Option Nat               -- the LAUNCH command that waits for its end (R71)
  lost : Nat                     -- tasks of it that were lost with a die (R39)
  disp : Option Nat              -- the dispatcher that holds its segment record, for a group of `spawn` (R287)
  gates : List Gate              -- the releases that its end waits for (R106)
  sweep : Nat                    -- worker group state of R351: 0 none, 1 live, 2 ended
  sweepId : Nat                  -- its last sweep
  deriving DecidableEq, Repr

/-- A group that a LAUNCH waits for and that has ended (R71, R39): the command, the group, the tasks lost, and the releases that its end
waits for. -/
structure EndedGroup where
  cmd : Nat
  group : Nat
  lost : Nat
  gates : List Gate
  deriving DecidableEq, Repr

/-! ### Core engines -/

/-- A memory operand of an engine: bytes of the core's own local memory by physical local address, or global bytes by GVA. -/
inductive Loc where
  | loc (a : Nat)
  | glob (gva : Nat)
  deriving DecidableEq, Repr

/-- A queued matrix or ladder command with everything it sampled at enqueue (R128, R317, R331). -/
structure MxCmd where
  instr : Instr
  slot : Nat                     -- the issuing slot; 16 once its thread has ended
  task : Nat                     -- the task's id on this core
  part : Nat
  mfmt : Word
  msca : Word
  mscb : Word
  mosh : Word
  frm : BitVec 3
  a : Loc
  b : Loc
  xval : Word                    -- X[ra] of `macc` and `mscl`, X[xl] of `lld` and `lst`
  vals : List Word               -- FP32 elements of the vectors of the outer-product `ladd`
  scaleA : Nat                   -- physical local address of the scale array of A, of B
  scaleB : Nat
  dests : List Nat               -- the tiles it locks (R135)
  lx : Option Nat                -- the ladder it locks (R331)
  pins : List Nat                -- lines that the tile fetch unit pins for it (R136)
  faultPage : Option Nat         -- waits under R173
  deriving DecidableEq, Repr

/-- The binding of a ladder (R326-R328, R337). -/
structure Ladder where
  task : Nat
  off : Nat                      -- tile-memory address of the descriptor
  owned : List Nat
  failed : Option MxErr
  deriving DecidableEq, Repr

/-- A copy or `kvgath` request (R338, R357). -/
structure CopyReq where
  slot : Nat                     -- the issuing slot; 16 once its thread has ended
  task : Nat
  part : Nat
  ch : Nat
  src : Loc
  dst : Loc
  len : Nat
  cmode : Nat
  param : Word
  xid : HWord
  lanes : List (Nat × Nat)       -- `kvgath`: source GVA and local destination of each valid lane still to run; [] for a copy
  kv : Bool
  lane : Nat                     -- bytes of a lane of `kvgath`
  deriving DecidableEq, Repr

/-- The page through which an access was translated: GVA[47:16] of its byte, and whether it is a 2 MiB page. -/
structure PageId where
  num : Nat
  large : Bool
  deriving DecidableEq, Repr

/-- The back copy that an engine request chose when it first wrote a twin page (R162): the page by its first 64 KiB, the entry of the pair, 0 or 1,
and the stamp of the choice. -/
structure BackChoice where
  page : PageId
  entry : Nat
  seq : Nat
  deriving DecidableEq, Repr

/-- The request that a channel runs: bytes moved, the back copies it chose, and what another module has answered for its next step: PA, length and
value (R42). -/
structure CopyRun where
  req : CopyReq
  done : Nat
  backs : List BackChoice
  got : List (Nat × Nat × Nat)
  faultPage : Option Nat
  deriving DecidableEq, Repr

inductive StashState where
  | mapped | clean | dirty
  deriving DecidableEq, Repr

/-- A stash entry that is not PLAIN (R131, R272), by its physical local line. -/
structure StashEntry where
  st : StashState
  gva : Nat
  line : Nat                     -- PA of the line divided by 128
  ro : Bool
  part : Nat
  large : Bool                   -- of a 2 MiB page
  cls : Nat                      -- class of the page (R79)
  home : Nat                     -- home slice of the line (R174)
  deriving DecidableEq, Repr

/-- One line entry of a write buffer (R123). `seq` is the stamp of its first store; `srel` is set for the store of a `srel`, which other
threads do not see before its release is complete (R194). Bit i of `glue` says that bytes i - 1 and i belong to one naturally aligned store, which
is single-copy atomic (R190). -/
structure WbEntry where
  line : Nat
  data : Line
  mask : BitVec 128
  glue : BitVec 128
  seq : Nat
  pg : PageId                    -- the page under which it was translated (R167)
  part : Nat
  home : Nat
  srel : Option (Nat × MemScope) -- the storing slot and the scope
  slots : List Nat               -- the slots whose stores it merges
  sent : Bool
  wback : Bool                   -- the write-back of a stash entry (R131, R273)
  cls : Nat                      -- class of the page (R79)
  bad : Bool                     -- a write-back of poisoned bytes (R54)
  deriving DecidableEq, Repr

/-- An update-only copy (R203, R277): the line, the operation, the width and its words. -/
structure Uoc where
  line : Nat
  fn : Nat
  w64 : Bool
  data : Line
  home : Nat
  part : Nat                     -- the partition, class and page of the RED that created it
  cls : Nat
  pg : PageId
  deriving DecidableEq, Repr

/-- A translation held in a TLB (R163): its first page, a 2 MiB page or not, the leaf entry that loads use, and in a twin region the
entry of the back copy. -/
structure TlbEntry where
  part : Nat
  page : Nat
  large : Bool
  twin : Bool
  leaf : Word
  back : Word
  front : Bool                   -- FRONT when it was read: the front copy is the second entry of the pair
  deriving DecidableEq, Repr

/-! ### Messages -/

/-- A migration frame (R147), with the way back of its thread. -/
structure Frame where
  x : List Word                  -- x1-x15
  p : List Word                  -- p1-p3
  s : Vector SegImage 8
  pc : Word
  status : Word
  v : List VWordReg              -- v0-v11
  srcRank : Nat                  -- partition rank and slot that the thread leaves
  srcSlot : Nat
  home : Bool                    -- goes to its home slot
  bad : Bool                     -- its spill record was poisoned (R54)
  deriving DecidableEq, Repr

/-- A launch message in the launch overflow ring of a context block (R101): its group, its entry of the 512, and the number of the first of the 8
free values that stand for its bytes there, whose layout the spec does not give (log entry 9). -/
structure RingMsg where
  group : Nat
  entry : Nat
  fill : Nat
  deriving DecidableEq, Repr

inductive InboxMsg where
  | launch (group : Nat)
  | frame (f : Frame)
  deriving DecidableEq, Repr

/-- A message in flight, to a partition rank (R101, R142, R148). -/
inductive Msg where
  | launch (part rank group : Nat)
  | frame (part rank : Nat) (f : Frame)
  | incr (part rank idx : Nat) (inc : HWord) (tag : Nat × Nat)
  deriving DecidableEq, Repr

/-- A message in flight, what it waits for, and for a launch the thread that sent it: partition, partition rank and slot. -/
structure NetMsg where
  msg : Msg
  gates : List Gate
  thread : Option (Nat × Nat × Nat)
  deriving DecidableEq, Repr

/-! ### Home slices -/

/-- What waits at a home for an agent of the device (R175, R187): the fill of a stash entry, of an instruction line, the next step of a copy
channel, of the matrix queue of a core; a read that a thread makes at once; a page walk; a delivery of a tile, or the next record code of a
sweep; the next piece of a command of the host; a request of another module; the log writer of a partition, or its look at TAIL; a counted fill
of an LP frame, or the look at HEAD of a notification queue. -/
inductive AgentStep where
  | fill (entry : Nat)
  | ifetch
  | copy (ch : Nat)
  | matrix
  | peek (slot : Nat)
  | walk (quad part page : Nat)
  | sweep (part sid tile : Nat)
  | sweepRec (part sid : Nat)
  | command (id : Nat)
  | request (q : RemoteReq)
  | log (part : Nat)
  | logTail (part : Nat)
  | lpFill (part frame page : Nat)
  | nqHead (part : Nat)
  deriving DecidableEq, Repr

/-- What a request asks of the home of its line (R175). `off` is a byte offset in the line. -/
inductive ReqKind where
  | load (pid off size dst : Nat) (acq : Bool)
  /-- the bytes of a write-buffer entry -/
  | store (mask : BitVec 128)
  | amo (pid off : Nat) (w64 : Bool) (op : AmoOp) (b c : Word) (acq : Option MemScope)
  | lease (rd : RegNo) (len : Nat)
  | unlease (rd : RegNo) (buf : Line) (mask : BitVec 128)
  | sverNext (off : Nat) (v : Word)
  | sverNum (off : Nat) (k : HWord) (v : Word)
  | lver (rd : RegNo) (off : Nat) (k : HWord) (la : La)
  | pver (pid off : Nat) (k : HWord)
  | rver (off : Nat) (k : HWord)
  | satom (pid entry : Nat) (payload : BitVec 512)
  /-- the return of an update-only copy (R278) -/
  | uocBack (u : Uoc)
  /-- a RED that could not be performed when it issued (R277) -/
  | red (fn : Nat) (w64 : Bool) (off : Nat) (delta : Word)
  /-- an engine or another agent of the device that found the line held, to read or to write it -/
  | agent (a : AgentStep) (write : Bool)
  deriving DecidableEq, Repr

/-- A request that waits in the home queue of its line (R175). `seq` is its stamp, in the order of issue. -/
structure HomeReq where
  rank : Nat
  slot : Nat
  part : Nat
  prank : Nat                    -- partition rank of the core, which a move of the partition does not change (R119)
  arr : Nat                      -- arrival at the home
  passed : Nat                   -- requests of higher classes that arrived later and were served first (R175)
  line : Nat
  home : Nat
  gva : Nat
  large : Bool                   -- translated by a 2 MiB page
  seq : Nat
  tag : Option Nat
  kind : ReqKind
  cls : Nat                      -- class of the page (R79)
  scope : MemScope
  srel : Bool                    -- a release stands before it (R194): it is served once the release is complete
  remote : Bool                  -- through a REMOTE mapping of the module itself: never cached (R41, R42)
  deriving DecidableEq, Repr

/-- What a receiver answered to a tagged request (R274): the receiver (a home slice, or for the core of a partition rank 1,024 + 4,096 times the
partition + the rank, since what is parked for a saved core follows its rank), the source, the sequence number, and the result with the flags
of a `satom`. -/
structure TagRec where
  recv : Nat
  rank : Nat
  seq : Nat
  result : Word
  flags : BitVec 6
  deriving DecidableEq, Repr

/-- A tagged request without an answer, at its source (R274, R275). -/
structure OutReq where
  req : Option HomeReq           -- a request to a home slice
  msg : Option Msg               -- or a message
  remote : Option Nat            -- or a request to another module (R43)
  thread : Option (Nat × Nat × Nat)   -- partition, partition rank and slot of the thread that sent the message, for `mbxadd`
  sends : Nat                    -- 0: it waits for one of its core's 256 tags
  refused : Bool                 -- refused by an ordered buffer (R368)
  deriving DecidableEq, Repr

/-- A line of the last-level cache (R79, R80): what DRAM holds of it when it is dirty, the partition and class that allocated it. -/
structure LlcLine where
  dram : Option Line
  part : Nat
  cls : Nat
  set : Nat                      -- 1,024 times the slice, plus the set in it
  way : Nat
  deriving DecidableEq, Repr

/-- The versions of a versioned word that has a live version (R281). -/
structure VWord where
  home : Nat
  n : HWord
  t : HWord
  entries : List (HWord × Word)
  deriving DecidableEq, Repr

/-- A granted lease at its home (R279). -/
structure LeaseHold where
  line : Nat
  part : Nat
  pg : PageId                    -- the page under which it was translated
  rank : Nat
  slot : Nat
  len : Nat
  deriving DecidableEq, Repr

/-- An LP frame's counter and bits (R178-R180), with the partition and the page that crossed the threshold, and the pages of each
partition whose leaf entries a walk has found to map it, and no shootdown has discarded since (R181). -/
structure LpFrame where
  count : Nat
  queued : Bool
  pendPage : Option (Nat × Nat)
  pages : List (Nat × PageId)
  deriving DecidableEq, Repr

/-- An invocation in an ordered buffer (R368); `inQ` says that its ticket has come and that it stands in the home queue of its line, in class
4. -/
structure OBuf where
  slice : Nat
  req : HomeReq
  ticket : HWord
  inQ : Bool
  deriving DecidableEq, Repr

/-- A validated routine that a slice caches (R359, R365). -/
structure RoutineC where
  slice : Nat
  part : Nat
  entry : Nat
  bad : Bool
  ro : Bool
  ord : Bool
  code : List HWord
  deriving DecidableEq, Repr

/-- A barrier that has seen an arrival (R284). -/
structure Barrier where
  key : BarKey
  phase : Nat
  count : Nat                    -- fixed by the first arrival of the phase
  arrived : Nat                  -- 0: not open
  deriving DecidableEq, Repr

/-- A hamper entry (R168, R169), with its number, 0 to 7. -/
structure HampEntry where
  idx : Nat
  part : Nat
  page : Nat
  write : Bool
  exec_ : Bool
  waiters : Nat
  deriving DecidableEq, Repr

/-- What an error record says, apart from SEQ and CYCLE (R58). -/
structure ErrRec where
  kind : Nat
  die : Nat
  atype : Nat
  addr : Nat
  sev : Nat
  agent : Nat
  slot : Nat
  info : Nat
  count : Nat
  deriving DecidableEq, Repr

/-- A record that has reached the log writer of a partition (R57): what it says, CYCLE at its detection, and whether it is a corrected
error whose merging interval of 1,250,000 cycles has not passed. -/
structure LogEnt where
  err : ErrRec
  cycle : Word
  merging : Bool
  deriving DecidableEq, Repr

/-- A corrected error that still merges (R57): its log, its kind and address, and in Flojo's own log the place of its record. -/
structure CorrRec where
  part : Option Nat
  kind : Nat
  addr : Nat
  at_ : Nat
  deriving DecidableEq, Repr

/-! ### Sweeps (R345-R353) -/

inductive SweepState where
  | live | complete | cancelled | failed
  deriving DecidableEq, Repr

/-- Where a tile of a sweep stands. A tile that is not listed is pending. -/
inductive TileState where
  | delivered (rank task buf : Nat)
  | claimed (rank slot : Nat)
  | done
  | excluded
  deriving DecidableEq, Repr

structure Sweep where
  id : Nat
  part : Nat
  group : Nat                    -- the worker group
  desc : BitVec 512
  issuer : Nat                   -- device rank of the core that issued the `sweep` (R173)
  order : Nat                    -- sweeps in the order of their start, for AGE
  st : SweepState
  tiles : AMap TileState
  ready : Bool                   -- its record has been initialised (R348)
  total : Nat                    -- tile count
  recQ : List (Nat × Nat)        -- record codes not written yet: tile and code
  fail : Option MxErr
  starts : List Nat              -- deliveries that each mangle had made at the start, for AGE
  solo : Bool                    -- split off (R350)
  passed : Nat                   -- tiles of the merged stream that passed it
  recWait : Bool                 -- a record page is not resident (R173)
  held : List Nat                -- tiles that wait for a page that is not resident
  deriving DecidableEq, Repr

end Sys2Proof.Machine
end

