-- ==== Sys2Proof/Machine/State.lean ====
section
/-! DEFINITION. The state of the machine: everything the spec gives the module, as plain data, with its value at reset. -/

namespace Sys2Proof.Machine

/-! ### A core -/

structure Core where
  cycle : Word                   -- CYCLE (R123)
  tvec : Word
  cpwp : Vector Word 4           -- CPWP0-CPWP3 (R139)
  counters : Vector HWord 64     -- mailbox counters (R142)
  lmem : Mem                     -- local store at 0..0x5FFFF, tile memory at 0x80000..0xBFFFF (R129)
  stash : AMap StashEntry        -- entries that are not PLAIN (R131)
  mxq : List MxCmd               -- matrix queue, oldest first (R134)
  tileFail : AMap MxErr          -- failed marks (R137, R317)
  badLmem : List Nat             -- poisoned 128-byte lines of lmem (R54)
  ladders : AMap Ladder          -- bindings (R326)
  fifo : List CopyReq            -- copy FIFO (R138)
  chan : AMap CopyRun            -- what channels 0-3 run
  inbox : List InboxMsg          -- R101
  overflow : List RingMsg        -- what stands in the launch overflow ring (R101), oldest first
  spilled : Nat                  -- spilled-frame count (R150)
  wb : List WbEntry              -- write buffer (R123), oldest first
  l1d : AMap Line                -- plain copies (R123)
  uoc : List Uoc                 -- update-only copies (R203)
  l1i : AMap Line                -- instruction lines (R122)
  tlb : List TlbEntry            -- L1 TLB (R163), newest first
  tagSeq : HWord                 -- next tag sequence number (R274)
  out : AMap OutReq              -- tagged requests without an answer, by tag (R274)
  rflags : Vector (BitVec 5) 64  -- VALID, BAD, COMM, RO, ORD of the routine entries (R359)
  tasks : List Task
  nextTask : Nat
  qown : Vector Nat 16           -- R110
  slots : Vector Slot 16
  part : Option Nat              -- the partition that runs on it now
  saving : Bool                  -- interrupted for a save (R115)
  commitWait : Bool              -- and the matrix command in execution has not completed
  lost : Bool                    -- its die failed hard (R39)
  deriving DecidableEq, Repr

/-- A saved core (R112, R117): what its context block keeps in layouts that the spec does not give (log entry 9), the number of the first
free value that stands for them there, and the messages parked since. -/
structure SavedCtx where
  core : Core
  fill : Nat
  parked : List Msg
  deriving DecidableEq, Repr

/-- A quad's memory port (R163, R168) and droop sensor (R51). -/
structure Quad where
  stretched : Bool
  hamper : List HampEntry        -- at most 8
  dropped : List Nat             -- partitions whose dropped flag is set
  coal : List (Nat × Nat)        -- live coalescing entries: partition, GVA[47:16]; at most 32
  tlb : List TlbEntry            -- L2 TLB, newest first
  deriving DecidableEq, Repr

/-! ### Partitions -/

/-- One valid physical range of a partition, in 64 KiB units (R76). -/
structure PRange where
  valid : Bool
  rdonly : Bool
  limit : Nat
  base : Nat
  deriving DecidableEq, Repr

/-- The fields of a partition record (R76). -/
structure PartRec where
  grlen : Nat
  grbase : Nat
  ranges : List PRange
  lpthresh : Nat
  nqbase : Nat
  ctxbase : Nat
  spilllen : Nat
  spillbase : Nat
  pmbxidx : Nat
  pmbxrank : Nat
  embxidx : Nat
  embxrank : Nat
  eloglog2 : Nat
  elogbase : Nat
  rtbase : Nat
  slotwt : List Nat
  leasemax : Nat
  maskset : Nat
  qo : Nat
  qk : Nat
  qa : Nat
  qw : Nat
  ceil : Nat
  floor : Nat
  det : Bool
  hlen : Nat
  hbase : Nat
  deriving DecidableEq, Repr

inductive PartState where
  | stopped | resident | descheduled
  deriving DecidableEq, Repr

/-- A gang's reservation of a run of cores (R100). -/
structure Reservation where
  stream : Nat
  base : Nat
  len : Nat
  deriving DecidableEq, Repr

structure Part where
  configured : Bool              -- a PARTCFG has been taken
  cfg : PartRec
  st : PartState
  started : Bool                 -- PARTSTART taken, and Flojo may schedule it (R78)
  groups : AMap Group
  queues : AMap (List Nat)       -- placement queue of each stream: groups in acceptance order (R96)
  det : AMap (List (Nat × Nat))  -- DET list of each rank: group and task index (R107)
  stream : Nat                   -- stream served last (R96)
  resv : Option Reservation
  ctx : AMap SavedCtx            -- saved cores, by partition rank
  sweeps : AMap Sweep
  spillSeq : AMap HWord          -- next SEQ of a spill record for each target rank (R150)
  elogSeq : HWord                -- next SEQ (R57)
  elogHead : Nat                 -- HEAD as the log writer keeps it
  elogTail : Nat                 -- TAIL as it last took it (R56)
  elogDrops : Nat
  elogQ : List LogEnt            -- records that the log writer has not written yet, oldest first (R57)
  nqTail : Nat                   -- notification queue TAIL and HEAD as the slices keep them (R179, R180)
  nqHead : Nat
  ways : List Nat                -- LLC ways it holds (R79)
  clsWays : List (List Nat)      -- which of them each class holds (R79, R82)
  deriving DecidableEq, Repr

/-- An export-table entry (R41): what a module may reach, which source partition, where the aperture lies, and write permission. The
spec does not give its layout (log entry 10). -/
structure Export where
  module : Nat
  part : Nat
  base : Nat
  len : Nat
  write : Bool
  deriving DecidableEq, Repr

/-- A remote access that no module has answered yet (R43). -/
structure RemoteOut where
  rank : Nat
  slot : Nat
  pid : Option Nat
  dst : Nat                      -- where the answer stands in the result's bytes
  size : Nat
  acq : Option MemScope
  part : Nat
  prank : Nat
  gva : Nat
  large : Bool
  seq : Nat
  tag : Option Nat               -- of an AMO (R274)
  chan : Option Nat              -- of a copy channel, whose read it is (R42)
  gate : Option Gate             -- the release that stands before it (R194)
  mask : Nat × Nat               -- PA and length of its bytes
  deriving DecidableEq, Repr

/-- Where the clean backing copy of a read-only page lies (R55): in the LP tier or in host memory. -/
inductive Backing where
  | lp (pa : Nat)
  | host (iova : Nat)
  deriving DecidableEq, Repr

/-! ### The device -/

structure Dev where
  modnum : Nat                   -- R41
  mem : Mem                      -- memory as its home slices read it
  llc : AMap LlcLine             -- resident lines
  lru : AMap (List Nat)          -- resident lines of each set, the most recently used first (R80)
  poison : List Nat              -- poisoned lines (R54)
  lostRegs : List Nat            -- lines registered to stash entries that were lost with a die (R39)
  masks : AMap (List Nat)        -- hash mask sets 0-7 as written, and under 8 + p the one that partition p uses (R86)
  lp : AMap LpFrame              -- LP frames by PA / 64 KiB
  lpFills : List (Nat × Nat × PageId)   -- LLC fills of LP frames not counted yet: partition, frame, page (R178)
  corr : List CorrRec            -- corrected errors whose merging interval has not passed, oldest first (R57)
  backing : AMap Backing         -- Flojo's list of read-only pages with a clean backing copy, by frame (R55)
  shadowHits : AMap (List Nat)   -- H_p[1..12] (R81)
  shadow : AMap (List Nat)       -- shadow LRU stacks, by set and partition
  homeQ : List HomeReq           -- waiting requests of all lines, oldest first (R175)
  regs : AMap (Nat × Nat)        -- stash registrations: line, then core and entry (R132)
  leases : List LeaseHold
  vwords : AMap VWord            -- by PA
  obuf : List OBuf
  rcache : List RoutineC
  tagWin : List TagRec           -- newest first
  net : AMap NetMsg
  netSeq : Nat
  bars : List Barrier
  mangles : List Nat             -- tiles that each of the 16 mangles has delivered (R350)
  parts : AMap Part
  flojoLog : List (BitVec 256)
  spareUsed : Option Nat         -- the quadrant that die 4 serves (R36, R38)
  deadDies : List Nat            -- physical compute dies that failed or were evacuated
  linksDown : List Nat           -- Kemir ports that are down (R40)
  linkFails : AMap Nat           -- consecutive failed replays of each port
  exports : List Export
  remote : AMap RemoteOut
  dieCycles : AMap Word          -- die-local cycle counts (R58)
  llcreb : Nat                   -- R81
  gangWait : Nat                 -- gang-wait limit in ms, from Flojo's configuration (R100)
  cores : AMap Core
  quads : AMap Quad
  accSeq : Nat                   -- stamp of the next access
  freeCtr : Nat                  -- the model's own counter of free values (log entry 5)
  time : Nat                     -- the model's own count of turns (log entry 3)
  homeNow : Option Nat           -- the line at whose home an agent is served in this turn (R175); none between turns
  cur : Nat × Nat                -- the core and slot whose instruction executes (log entry 3)
  ended : List EndedGroup        -- groups that a LAUNCH waits for and that have ended (R71, R39)
  deriving DecidableEq, Repr

/-! ### Host interface -/

structure Queue where
  sqbase : Word
  cqbase : Word
  log2size : Nat
  vec : Nat
  sqen : Bool
  cqen : Bool
  ien : Bool
  sqhead : Nat
  sqtail : Nat
  cqhead : Nat
  cqtail : Nat
  phase : Bool
  heldRecs : List (BitVec 128)   -- records that wait for room, without phase and SQHEAD (R67)
  unsent : Bool                  -- records written since the last vector send
  interval : Bool                -- fewer than 1,250 cycles have passed since the last send
  deriving DecidableEq, Repr

/-- An event held for a VF that is not active (R84). -/
structure HeldEvent where
  gen : Nat
  queue : Nat
  record : BitVec 128
  deriving DecidableEq, Repr

/-- A binding that waits for the VF's next enable (R83): none unbinds. -/
structure PendBind where
  part : Option Nat
  sup : Bool
  deriving DecidableEq, Repr

/-- A PCIe function: 0 the physical function, 1-512 the virtual functions. -/
structure Fn where
  en : Bool
  gen : Nat
  pendvec : Nat                  -- PENDVEC as a mask
  qerr : Bool
  dberr : Bool
  bound : Option Nat
  sup : Bool
  pendBind : Option PendBind
  paused : Bool
  queues : AMap Queue
  msix : AMap (BitVec 128)       -- MSI-X table (R61)
  pba : Nat
  held : List HeldEvent
  deriving DecidableEq, Repr

inductive CmdKind where
  | launch (group : Nat)
  | launchWait (desc : BitVec 512)           -- no group id was free (R91)
  /-- with the back copies chosen so far (R162) -/
  | copyh (dir : Bool) (iova gva len done : Nat) (backs : List BackChoice)
  | fill (gva len done : Nat) (pattern : Word) (backs : List BackChoice)
  | wait (rank idx : Nat) (target : HWord) (timed : Bool)
  | map (lo hi mark : Nat)                   -- MAP: the accesses stamped before the mark through pages lo to hi - 1 (R71)
  | held (routine : Bool) (cmd : BitVec 512) -- a ROUTINE or a MAP that waits for a held line (R205)
  deriving DecidableEq, Repr

/-- A command in execution (R68). -/
structure Cmd where
  fn : Nat
  queue : Nat
  gen : Nat
  part : Nat
  cid : Nat
  accept : Bool
  nocqe : Bool
  kind : CmdKind
  deriving DecidableEq, Repr

structure HostIf where
  hostMem : Mem                  -- host memory by IOVA
  iommuBad : List (Nat × Nat)    -- IOVA ranges that the host's IOMMU refuses: base, length
  funcs : AMap Fn
  cmds : AMap Cmd
  nextCmd : Nat
  pfRid : Nat                    -- routing ID of the physical function, as the host assigned its bus (R60)
  rrFn : AMap Nat                -- for each partition, the function whose command started last (R83)
  msis : List (Nat × Nat)        -- vectors sent: function, vector, newest first
  deriving DecidableEq, Repr

/-! ### Boot -/

structure Boot where
  begun : Bool                   -- the boot ROM has run since reset (R44)
  stage : Nat
  errcode : Nat
  feport : Bool
  tries : Nat
  recovery : Bool
  ready : Bool
  measure : Vector (BitVec 512) 8
  minFirst : Word                -- fused minimum versions (R46)
  minImage : Word
  runFirst : Word                -- versions of the stages now running
  runImage : Word
  flashStage : List Byte
  keptImage : Option (List Byte)
  fetched : Option (List Byte)
  slaac : Bool
  cfgModnum : Nat                -- Flojo's configuration: module number (R41)
  cfgGangWait : Nat              -- its gang-wait limit in ms (R100)
  cfgBytes : List Byte           -- its bytes, for measurement 2 (R47)
  cfgParts : List (Nat × BitVec 2048)   -- the stored partition configuration (R44)
  mgiova : Word
  mglen : Word
  mgResult : Nat
  mgDone : Bool
  mgBusy : Option (BitVec 16)    -- the command that runs (R50)
  report : List Byte             -- the report last answered on the front end (R48)
  off : Bool                     -- shut down (R52)
  deriving DecidableEq, Repr

/-! ### The schedule -/

/-- What a step of the host or of the device acts on: the operands of a row of the opcode table that is no instruction word. Which
fields a step reads is said where its meaning is defined. -/
structure StepArgs where
  a : Nat
  b : Nat
  c : Nat
  v : Word
  cmd : BitVec 512
  desc : BitVec 512
  ok : Bool
  ok2 : Bool
  list : List Nat
  img : Option (List Byte)
  remote : RemoteReq
  scrub : ScrubFind
  line : Line
  deriving DecidableEq, Repr

/-- One turn of the schedule (log entry 3). -/
inductive Turn where
  /-- one cycle of a core (R109) -/
  | core (rank : Nat)
  /-- a step of the host or of the device -/
  | ev (i : Instr) (args : StepArgs)
  /-- the device fetches and starts the next command of a queue (R68) -/
  | fetchCmd (fn queue : Nat)
  /-- a command in execution goes on: the next piece of a COPYH or FILL, a WAIT or LAUNCH looked at again -/
  | cmd (id : Nat)
  /-- bytes of a write-buffer entry are sent to the home slice of their line: chosen ones, with those of the aligned stores that hold them
  (R123, R188, R190) -/
  | drain (rank line : Nat) (bytes : BitVec 128)
  /-- the tile fetch unit of a core fetches a line of an operand of its `n`-th queued matrix command: the line of byte `off` of A, or of B
  (R136) -/
  | tileFetch (rank n : Nat) (b : Bool) (off : Nat)
  /-- a request in the queue of a line, by its place there, has been on its way until now: it arrives behind the others (R188) -/
  | transit (line k : Nat)
  /-- a plain copy or an update-only copy leaves an L1 -/
  | evictL1 (rank line : Nat)
  /-- a register's parity goes bad (R53): kind 0 x, 1 v, 2 p, 3 s, 4 a control register, or the PC as number 64 -/
  | upset (rank slot kind reg : Nat)
  /-- another module answers a remote access, or refuses it (R41, R213) -/
  | remoteAck (id : Nat) (ok : Bool)
  /-- the merging interval of the oldest corrected error passes (R57) -/
  | corrected
  /-- a die's cycle count advances (R58) -/
  | clock (die : Nat)
  /-- the host writes a byte of its own memory -/
  | hostWrite (iova : Nat) (b : Byte)
  /-- the host's IOMMU stops answering for a range, or answers again for everything -/
  | iommu (ranges : List (Nat × Nat))
  /-- Flojo writes its export table (R41) -/
  | exports (l : List Export)
  /-- Flojo notes which read-only pages have clean backing copies (R55) -/
  | backing (l : AMap Backing)
  /-- Flojo asks the root of trust to extend measurement register 4 to 7 with a digest (R47) -/
  | measure (reg : Nat) (digest : List Byte)
  /-- Flojo's stored configuration is replaced from outside: module number, gang-wait limit, its bytes, the partition records (R41, R44,
  R100) -/
  | configure (modnum gangWait : Nat) (bytes : List Byte) (parts : List (Nat × BitVec 2048))
  /-- the host assigns the bus of the physical function (R60) -/
  | assignBus (bus : Nat)
  /-- an operation of a thread's vector datapath fails its residue check once and is executed again (R53, R54) -/
  | vecResidue (rank slot : Nat)
  deriving DecidableEq, Repr

/-! ### The machine -/

structure State where
  boot : Boot
  host : HostIf
  dev : Dev
  args : StepArgs
  schedule : List Turn
  deriving DecidableEq, Repr

/-- Why a step stops. -/
inductive Fault where
  /-- Raised by `step` on a module that Flojo has shut down (R52): it does nothing further. Safe: the spec gives a shut-down module
  no step. -/
  | shutDown
  deriving DecidableEq, Repr

/-- Why an instruction has no meaning. -/
inductive Refusal where
  /-- Raised by `exec` for an instruction that this model does not give a meaning yet, with its mnemonic. Safe: nothing can be
  proved of what it does. -/
  | notModelled (mnemonic : String)
  deriving DecidableEq, Repr

/-! ### Values at reset -/

/-- A slot at reset: 0 but for FRM, which is 0b100 (R124-R127; log entry 1 for the registers without a reset value). -/
def Slot.reset : Slot where
  occ := false
  away := false
  part := 0
  isGuestSlot := false
  x := Vector.replicate 32 0
  v := Vector.replicate 32 0
  p := Vector.replicate 8 0
  s := Vector.replicate 8 0
  pc := 0
  arrive := none
  mode := false
  uact := false
  guest := false
  npend := false
  hrank := 0
  hslot := 0
  fflags := 0
  frm := 4
  mfmt := 0
  msca := 0
  mscb := 0
  mosh := 0
  swbuf := 0
  swlin := 0
  uixid := 0
  uvec := 0
  uepc := 0
  ucause := 0
  uaddr := 0
  unote := 0
  sepc := 0
  scause := 0
  saddr := 0
  sscratch := 0
  mxerr := none
  windows := []
  pend := []
  nextPid := 0
  deferred := []
  trapPid := 0
  wait := .none
  lease := none
  acqPid := []
  relMark := none
  opMark := none
  turns := []
  own := none
  fresh := none
  word := 0
  yieldUntil := 0
  lastIssue := none
  badX := []
  badV := []
  badP := []
  badS := []
  badC := []
  claimed := none
  heldBuf := none
  copyFaults := []
  copyHold := false
  copyIrqs := []

def Core.reset : Core where
  cycle := 0
  tvec := 0
  cpwp := Vector.replicate 4 0
  counters := Vector.replicate 64 0
  lmem := []
  stash := []
  mxq := []
  tileFail := []
  badLmem := []
  ladders := []
  fifo := []
  chan := []
  inbox := []
  overflow := []
  spilled := 0
  wb := []
  l1d := []
  uoc := []
  l1i := []
  tlb := []
  tagSeq := 0
  out := []
  rflags := Vector.replicate 64 0
  tasks := []
  nextTask := 0
  qown := Vector.replicate 16 0
  slots := Vector.replicate 16 Slot.reset
  part := none
  saving := false
  commitWait := false
  lost := false

def Quad.reset : Quad where
  stretched := false
  hamper := []
  dropped := []
  coal := []
  tlb := []

def PartRec.reset : PartRec where
  grlen := 0
  grbase := 0
  ranges := List.replicate 8 ⟨false, false, 0, 0⟩
  lpthresh := 0
  nqbase := 0
  ctxbase := 0
  spilllen := 0
  spillbase := 0
  pmbxidx := 0
  pmbxrank := 0
  embxidx := 0
  embxrank := 0
  eloglog2 := 0
  elogbase := 0
  rtbase := 0
  slotwt := [0, 0, 0, 0, 0, 0, 0, 0]
  leasemax := 0
  maskset := 0
  qo := 0
  qk := 0
  qa := 0
  qw := 0
  ceil := 0
  floor := 0
  det := false
  hlen := 0
  hbase := 0

/-- A partition at reset is STOPPED (R78). -/
def Part.reset : Part where
  configured := false
  cfg := PartRec.reset
  st := .stopped
  started := false
  groups := []
  queues := []
  det := []
  stream := 7
  resv := none
  ctx := []
  sweeps := []
  spillSeq := []
  elogSeq := 0
  elogHead := 0
  elogTail := 0
  elogDrops := 0
  elogQ := []
  nqTail := 0
  nqHead := 0
  ways := []
  clsWays := [[], [], [], []]

/-- A queue at reset (R64, R65). -/
def Queue.reset : Queue where
  sqbase := 0
  cqbase := 0
  log2size := 4
  vec := 0
  sqen := false
  cqen := false
  ien := false
  sqhead := 0
  sqtail := 0
  cqhead := 0
  cqtail := 0
  phase := true
  heldRecs := []
  unsent := false
  interval := false

/-- A function at reset (R62, R63). -/
def Fn.reset : Fn where
  en := false
  gen := 0
  pendvec := 0
  qerr := false
  dberr := false
  bound := none
  sup := false
  pendBind := none
  paused := false
  queues := []
  msix := []
  pba := 0
  held := []

/-- The default hash masks (R177). -/
def defaultMasks : List Nat :=
  [0x001111110000, 0x002222220000, 0x004444440000, 0x008888880000, 0x100, 0x200, 0x400, 0x800, 0x1000, 0x8000]

def Dev.reset : Dev where
  modnum := 0
  mem := []
  llc := []
  lru := []
  poison := []
  lostRegs := []
  masks := (List.range 8).map fun k => (k, defaultMasks)
  lp := []
  lpFills := []
  corr := []
  backing := []
  shadowHits := []
  shadow := []
  homeQ := []
  regs := []
  leases := []
  vwords := []
  obuf := []
  rcache := []
  tagWin := []
  net := []
  netSeq := 0
  bars := []
  mangles := List.replicate 16 0
  parts := []
  flojoLog := []
  spareUsed := none
  deadDies := []
  linksDown := []
  linkFails := []
  exports := []
  remote := []
  dieCycles := []
  llcreb := 10
  gangWait := 10
  cores := []
  quads := []
  accSeq := 0
  freeCtr := 0
  time := 0
  homeNow := none
  cur := (0, 0)
  ended := []

def HostIf.reset : HostIf where
  hostMem := []
  iommuBad := []
  funcs := []
  cmds := []
  nextCmd := 0
  pfRid := 0
  rrFn := []
  msis := []

/-- Boot at reset: BOOTSTAT, MGSTAT and the measurement registers read 0 (R47, R49, R50). -/
def Boot.reset : Boot where
  begun := false
  stage := 0
  errcode := 0
  feport := false
  tries := 0
  recovery := false
  ready := false
  measure := Vector.replicate 8 0
  minFirst := 0
  minImage := 0
  runFirst := 0
  runImage := 0
  flashStage := []
  keptImage := none
  fetched := none
  slaac := false
  cfgModnum := 0
  cfgGangWait := 10
  cfgBytes := []
  cfgParts := []
  mgiova := 0
  mglen := 0
  mgResult := 0
  mgDone := false
  mgBusy := none
  report := []
  off := false

def StepArgs.reset : StepArgs where
  a := 0
  b := 0
  c := 0
  v := 0
  cmd := 0
  desc := 0
  ok := false
  ok2 := false
  list := []
  img := none
  remote := ⟨0, 0, 0, 0, 0, .load 0⟩
  scrub := ⟨false, .line, 0, none, 0, 0, false, 0⟩
  line := 0

/-- The machine right after reset (R44 to R50, R62 to R65, R78, R123 to R127, R152, R177). -/
def State.reset : State where
  boot := Boot.reset
  host := HostIf.reset
  dev := Dev.reset
  args := StepArgs.reset
  schedule := []

end Sys2Proof.Machine
end

