-- ==== Sys2Proof/Machine/Ops.lean ====
section
/-! DEFINITION. The named operations that every meaning goes through: sparse tables, memory bytes, registers, the flow of the program
counter, taking a trap or an upcall and returning from one, and the frame of an instruction (checks, retirement, windows). -/

namespace Sys2Proof.Machine

/-! ### Sparse tables -/

/-- The entry with key `k`. -/
def aget? {α : Type} : AMap α → Nat → Option α
  | [], _ => none
  | (j, v) :: t, k => if j = k then some v else aget? t k

/-- Set the entry with key `k`, in key order. -/
def aset {α : Type} : AMap α → Nat → α → AMap α
  | [], k, v => [(k, v)]
  | (j, w) :: t, k, v => if j = k then (k, v) :: t else if k < j then (k, v) :: (j, w) :: t else (j, w) :: aset t k v

/-- Remove the entry with key `k`. -/
def adel {α : Type} : AMap α → Nat → AMap α
  | [], _ => []
  | (j, w) :: t, k => if j = k then adel t k else (j, w) :: adel t k

/-- The lowest key from 0 that is free below `n`, counting from `k` (structural on `n`). -/
def freeKey {α : Type} (m : AMap α) (k : Nat) : Nat → Option Nat
  | 0 => none
  | n + 1 => if (aget? m k).isNone then some k else freeKey m (k + 1) n

/-- Element `k` of a vector, or `d` beyond its end. -/
def vget {α : Type} {n : Nat} (v : Vector α n) (k : Nat) (d : α) : α := v.toList.getD k d

/-- The vector with element `k` set. -/
def vset {α : Type} {n : Nat} (v : Vector α n) (k : Nat) (x : α) : Vector α n := v.setIfInBounds k x

/-! ### Memory bytes -/

/-- What an address that memory does not list reads as (log entry 2). -/
def unlisted : Byte := 0

/-- The byte at an address. -/
def Mem.get : Mem → Nat → Byte
  | [], _ => unlisted
  | (a, b) :: t, x => if a = x then b else if x < a then unlisted else Mem.get t x

/-- The canonical form: rising addresses, and no byte that an unlisted address reads as. -/
def Mem.wf : Mem → Bool
  | [] => true
  | [(_, b)] => b != unlisted
  | (a, b) :: (c, e) :: t => b != unlisted && decide (a < c) && Mem.wf ((c, e) :: t)

/-- Set the byte at an address, keeping the canonical form. -/
def Mem.set : Mem → Nat → Byte → Mem
  | [], x, v => if v = unlisted then [] else [(x, v)]
  | (a, b) :: t, x, v =>
    if a = x then (if v = unlisted then t else (a, v) :: t)
    else if x < a then (if v = unlisted then (a, b) :: t else (x, v) :: (a, b) :: t)
    else (a, b) :: Mem.set t x v

/-- `n` bytes from address `a`, lowest first. -/
def Mem.bytes (m : Mem) (a : Nat) : Nat → List Byte
  | 0 => []
  | n + 1 => m.get a :: Mem.bytes m (a + 1) n

/-- Store bytes at consecutive addresses. -/
def Mem.setBytes (m : Mem) (a : Nat) : List Byte → Mem
  | [] => m
  | b :: t => Mem.setBytes (m.set a b) (a + 1) t

/-- The little-endian value of a byte string (R5). -/
def leNat : List Byte → Nat
  | [] => 0
  | b :: t => b.toNat + 256 * leNat t

/-- The `n` little-endian bytes of a value (R5). -/
def leBytes : Nat → Nat → List Byte
  | 0, _ => []
  | n + 1, x => BitVec.ofNat 8 x :: leBytes n (x / 256)

/-- The unsigned `n`-byte value at an address. -/
def Mem.nat (m : Mem) (a n : Nat) : Nat := leNat (m.bytes a n)
def Mem.setNat (m : Mem) (a n x : Nat) : Mem := m.setBytes a (leBytes n x)

/-- The 128-byte line with number `l`. -/
def Mem.line (m : Mem) (l : Nat) : Line := BitVec.ofNat 1024 (m.nat (128 * l) 128)

/-- Store the bytes of a line that a mask selects: byte `k` where mask bit `k` is set (structural on the number of bytes left). -/
def Mem.setMasked (m : Mem) (a : Nat) (data : Line) (mask : BitVec 128) : Nat → Mem
  | 0 => m
  | k + 1 =>
    let m' := Mem.setMasked m a data mask k
    if mask.getLsbD k then m'.set (a + k) (data.extractLsb' (8 * k) 8) else m'

def Mem.setLine (m : Mem) (l : Nat) (data : Line) : Mem := m.setNat (128 * l) 128 data.toNat

/-- Byte `k` of a line. -/
def lineByte (d : Line) (k : Nat) : Byte := d.extractLsb' (8 * k) 8
/-- `n` bytes of a line from byte `k`, little-endian. -/
def lineNat (d : Line) (k n : Nat) : Nat := d.toNat / 256 ^ k % 256 ^ n
/-- A line with `n` bytes from byte `k` replaced. -/
def lineSet (d : Line) (k n x : Nat) : Line :=
  BitVec.ofNat 1024 (d.toNat - lineNat d k n * 256 ^ k + x % 256 ^ n * 256 ^ k)
/-- The byte mask of `n` bytes from byte `k`. -/
def byteMask (k n : Nat) : BitVec 128 := BitVec.ofNat 128 ((2 ^ n - 1) * 2 ^ k)
/-- The bit mask that a byte mask stands for, structurally on the number of bytes. -/
def maskBits (mask : BitVec 128) : Nat → Nat
  | 0 => 0
  | k + 1 => maskBits mask k + (if mask.getLsbD k then 255 * 256 ^ k else 0)
/-- Overlay: the masked bytes of `new` over `old`. -/
def lineMerge (old new : Line) (mask : BitVec 128) : Line :=
  let m : Line := BitVec.ofNat 1024 (maskBits mask 128)
  (old &&& ~~~m) ||| (new &&& m)

/-! ### Units of the device -/

def Dev.core (d : Dev) (r : Nat) : Core := (aget? d.cores r).getD Core.reset
def Dev.setCore (d : Dev) (r : Nat) (c : Core) : Dev := { d with cores := aset d.cores r c }
def Dev.modCore (d : Dev) (r : Nat) (f : Core → Core) : Dev := d.setCore r (f (d.core r))
def Core.slot (c : Core) (k : Nat) : Slot := vget c.slots k Slot.reset
def Core.setSlot (c : Core) (k : Nat) (s : Slot) : Core := { c with slots := vset c.slots k s }
def Dev.slot (d : Dev) (r k : Nat) : Slot := (d.core r).slot k
def Dev.setSlot (d : Dev) (r k : Nat) (s : Slot) : Dev := d.modCore r fun c => c.setSlot k s
def Dev.modSlot (d : Dev) (r k : Nat) (f : Slot → Slot) : Dev := d.setSlot r k (f (d.slot r k))
def Dev.quad (d : Dev) (q : Nat) : Quad := (aget? d.quads q).getD Quad.reset
def Dev.setQuad (d : Dev) (q : Nat) (x : Quad) : Dev := { d with quads := aset d.quads q x }
def Dev.modQuad (d : Dev) (q : Nat) (f : Quad → Quad) : Dev := d.setQuad q (f (d.quad q))
def Dev.part (d : Dev) (p : Nat) : Part := (aget? d.parts p).getD Part.reset
def Dev.setPart (d : Dev) (p : Nat) (x : Part) : Dev := { d with parts := aset d.parts p x }
def Dev.modPart (d : Dev) (p : Nat) (f : Part → Part) : Dev := d.setPart p (f (d.part p))

/-- The thread whose instruction executes. -/
def Dev.rank (d : Dev) : Nat := d.cur.1
def Dev.th (d : Dev) : Slot := d.slot d.cur.1 d.cur.2
def Dev.modTh (d : Dev) (f : Slot → Slot) : Dev := d.modSlot d.cur.1 d.cur.2 f
def Dev.curCore (d : Dev) : Core := d.core d.cur.1
def Dev.modCur (d : Dev) (f : Core → Core) : Dev := d.modCore d.cur.1 f
/-- The partition of the thread. -/
def Dev.tpart (d : Dev) : Part := d.part d.th.part

/-- The device rank of a partition rank (R75). -/
def Part.devRank (p : Part) (r : Nat) : Nat := p.cfg.hbase + r

/-- A free value (log entry 5): the machine goes on with a value that nothing constrains. -/
def Dev.free (d : Dev) : Word × Dev := (Config.freeWord d.freeCtr, { d with freeCtr := d.freeCtr + 1 })

/-! ### Registers (R124) -/

/-- X[r]: x0 reads 0. -/
def Slot.xr (s : Slot) (r : RegNo) : Word := if r = 0 then 0 else vget s.x r.toNat 0
/-- Write X[r]: a write to x0 is discarded (R256). A write makes the register's parity good again. -/
def Slot.setX (s : Slot) (r : RegNo) (v : Word) : Slot :=
  if r = 0 then s else { s with x := vset s.x r.toNat v, badX := s.badX.filter (· != r.toNat) }
def Slot.vr (s : Slot) (r : RegNo) : VWordReg := vget s.v r.toNat 0
def Slot.setV (s : Slot) (r : RegNo) (v : VWordReg) : Slot :=
  { s with v := vset s.v r.toNat v, badV := s.badV.filter (· != r.toNat) }
/-- P[r]: p0 reads all ones. -/
def Slot.pr (s : Slot) (r : PNo) : Word := if r = 0 then BitVec.allOnes 64 else vget s.p r.toNat 0
def Slot.setP (s : Slot) (r : PNo) (v : Word) : Slot :=
  if r = 0 then s else { s with p := vset s.p r.toNat v, badP := s.badP.filter (· != r.toNat) }
def Slot.seg (s : Slot) (r : SegNo) : SegImage := vget s.s r.toNat 0
def Slot.setSeg (s : Slot) (r : SegNo) (v : SegImage) : Slot := { s with s := vset s.s r.toNat v, badS := s.badS.filter (· != r.toNat) }
/-- A write of control registers, or of the PC (64), makes their parity good again. -/
def Slot.goodCr (s : Slot) (ns : List Nat) : Slot := { s with badC := s.badC.filter fun n => !ns.contains n }

def Dev.x (d : Dev) (r : RegNo) : Word := d.th.xr r
def Dev.setX (d : Dev) (r : RegNo) (v : Word) : Dev := d.modTh fun s => s.setX r v
def Dev.v (d : Dev) (r : RegNo) : VWordReg := d.th.vr r
def Dev.setV (d : Dev) (r : RegNo) (v : VWordReg) : Dev := d.modTh fun s => s.setV r v
def Dev.p (d : Dev) (r : PNo) : Word := d.th.pr r
def Dev.setP (d : Dev) (r : PNo) (v : Word) : Dev := d.modTh fun s => s.setP r v

/-! ### Segment images (R152) -/

def segBase (s : SegImage) : Nat := (s.extractLsb' 0 48).toNat
def segLimit (s : SegImage) : Nat := (s.extractLsb' 64 48).toNat
def segR (s : SegImage) : Bool := s.getLsbD 112
def segW (s : SegImage) : Bool := s.getLsbD 113
def segX (s : SegImage) : Bool := s.getLsbD 114
def segL (s : SegImage) : Bool := s.getLsbD 115
def segV (s : SegImage) : Bool := s.getLsbD 116
def segP (s : SegImage) : Bool := s.getLsbD 117
/-- The reserved bits of an image: 0:[63:48] and 1:[63:54]. -/
def segReservedOk (s : SegImage) : Bool := s.extractLsb' 48 16 == 0 && s.extractLsb' 118 10 == 0
/-- An image as a segment register holds it: reserved bits read 0 (R9), whatever the block or the record held. -/
def segClean (s : SegImage) : SegImage := s &&& BitVec.ofNat 128 (2 ^ 118 - 2 ^ 64 + (2 ^ 48 - 1))

/-! ### Program flow (R22, R244, R246) -/

/-- The slot of its fetch line that an s7 offset names (R244; log entry 11). -/
def slotOf (pc : Word) : Nat := (pc.extractLsb' 2 5).toNat

/-- The next instruction in sequential flow: PC + 4, or slot 1 of the next line after slot 31 (R22, R244). -/
def link (pc : Word) : Word := if slotOf pc = 31 then pc + 8 else pc + 4

/-- A return target, or TVEC: bits [1:0] taken as 0, and slot 0 continues at slot 1 (R246). -/
def returnTarget (pc : Word) : Word :=
  let a := pc &&& ~~~(3 : Word)
  if slotOf a = 0 then a + 4 else a

/-! ### Traps and upcalls -/

def Cause.code : Cause → Word
  | .illegal => 0x01 | .target => 0x02 | .lahead => 0x03 | .segv => 0x04 | .segperm => 0x05 | .misalign => 0x06 | .perm => 0x07
  | .dataerr => 0x08 | .priv => 0x09 | .detviol => 0x0A | .slice => 0x0B | .vers => 0x0C | .lease => 0x0D | .kvfault => 0x0E
  | .sweep => 0x0F | .syscall => 0x10 | .migrate => 0x11 | .ladder => 0x12

/-- The windows that still cover instructions, once every pending result has arrived (R248). -/
def Slot.openWindows (s : Slot) : List Window := s.windows.filter fun w => decide (0 < w.left)

/-- Trap entry, once every pending result has arrived (R254): SEPC, SCAUSE and SADDR are set, MODE becomes 1, and the thread continues
at TVEC under R246 without an arrival mark. Windows go on over the handler's first instructions, since R248 counts what the thread executes (log
entry 12), and a wait is cancelled. The errors of results issued before it wait while MODE = 1 (R250). -/
def Slot.enterTrap (tvec : Word) (t : TrapInfo) (s : Slot) : Slot :=
  { s.goodCr [0x21, 0x22, 0x23, 64] with
    sepc := s.pc, scause := t.cause.code, saddr := t.saddr, mode := true, pc := returnTarget tvec, arrive := none,
    wait := .none, windows := s.openWindows, opMark := none, turns := [], fresh := none
    trapPid := s.nextPid + 1, nextPid := s.nextPid + 1 }

/-- Return from a trap (R254, R375): MODE becomes 0 and the thread continues at SEPC under R246. -/
def Slot.leaveTrap (s : Slot) : Slot := { s.goodCr [64] with mode := false, pc := returnTarget s.sepc, arrive := none, copyHold := false }

/-- Entry to the upcall handler for a page fault (R170): UVEC is reached as an arrival (R245), with its bits [1:0] taken as 0, so that the PC
stays a multiple of 4 (R239; log entry 33). -/
def Slot.enterPage (gva : Word) (s : Slot) : Slot :=
  { s.goodCr [0x13, 0x14, 0x15, 64] with
    uepc := s.pc, ucause := 0x20, uaddr := gva, uact := true, pc := s.uvec &&& ~~~(3 : Word), arrive := some 0,
    wait := .none, windows := s.openWindows, opMark := none, turns := [], fresh := none }

/-- Entry to a copy-interrupt handler (R141). -/
def Slot.enterCopy (handler xid : Word) (s : Slot) : Slot :=
  { s.goodCr [0x11, 0x13, 0x14, 0x15, 64] with
    uepc := s.pc, ucause := 0x21, uaddr := 0, uixid := xid, uact := true, pc := handler, arrive := some 0,
    wait := .none, windows := s.openWindows, opMark := none, turns := [], fresh := none }

/-- Return from an upcall (R291). -/
def Slot.leaveUpcall (s : Slot) : Slot := { s.goodCr [64] with pc := returnTarget s.uepc, uact := false, arrive := none }

/-- Why an instruction has no effect when it issues: it raises a trap, or it parks (R255). -/
inductive Stop where
  | trap (t : TrapInfo)
  | park (w : Wait)
  /-- a register that is read fails its parity (R54) -/
  | parity
  /-- poison of the core's own memory is consumed (R54): the local offset, and the GVA of a stash entry -/
  | poison (lo : Nat) (gva : Option Nat)
  /-- poison of memory is consumed by a read that is made at once (R54) -/
  | consumed (gva : Nat)
  deriving DecidableEq, Repr

abbrev Chk (α : Type) := Except Stop α

def raise {α : Type} (c : Cause) (a : Word) : Chk α := .error (.trap ⟨c, a⟩)
def park {α : Type} (w : Wait) : Chk α := .error (.park w)
/-- Go on when the condition holds, else raise. -/
def ensure (b : Bool) (c : Cause) (a : Word) : Chk Unit := if b then .ok () else raise c a

/-- A trap of slot `k` of core `r`: it is taken at once when no result is pending, and otherwise waits for the last one (R250). -/
def Dev.trap (d : Dev) (r k : Nat) (t : TrapInfo) : Dev :=
  d.modSlot r k fun s => if s.pend.isEmpty then s.enterTrap (d.core r).tvec t else { s with wait := .trapDue t }

/-- A miss in the translation of an access joins or opens a coalescing entry of its quad (R163). With 32 entries in use the miss waits
for one; the slot's wait record then asks again. -/
def Dev.askWalk (d : Dev) (q part page : Nat) : Dev :=
  d.modQuad q fun x =>
    if x.coal.contains (part, page) || decide (32 ≤ x.coal.length) then x else { x with coal := x.coal ++ [(part, page)] }

/-! ### Windows and retirement (R248, R249) -/

/-- One dynamically executed instruction passes: every window counts it, and a window that covers nothing more and whose result has
arrived is over. -/
def tickWindows (pend : List Pending) (ws : List Window) : List Window :=
  (ws.map fun w => { w with left := w.left - 1 }).filter fun w => decide (0 < w.left) || pend.any (·.id == w.pid)

/-- The thread's instruction is complete: its windows tick and the thread goes on at `pc`. -/
def Slot.retireTo (pc : Word) (s : Slot) : Slot :=
  { s with pc := pc, windows := tickWindows s.pend s.windows, wait := .none, opMark := none, turns := [], fresh := none }

def Dev.retireTo (d : Dev) (pc : Word) : Dev := d.modTh fun s => s.retireTo pc
/-- Sequential flow. -/
def Dev.retire (d : Dev) : Dev := d.modTh fun s => s.retireTo (link s.pc)

/-- The destinations of a result (R248); a pending destination of x0 is not pending. -/
def Post.dests : Post → List Dest
  | .sext rd _ | .zext rd _ => if rd = 0 then [] else [.x rd]
  | .pair rd => (if rd = 0 then [] else [.x rd]) ++ [.x (rd + 1)]
  | .vec vd _ _ => [.v vd]
  | .twait rd _ _ => (if rd = 0 then [] else [.x rd]) ++ [.cr 0x0B, .cr 0x0C]
  | .satom rd _ => if rd = 0 then [] else [.x rd]

/-- A long-latency instruction of slot `k` of core `r` leaves a result outstanding: `raw` is what is known of it and `need` how many
parts are still to come. Its window covers the next `la` instructions (R248). The instruction retires. -/
def Dev.retireLong (d : Dev) (r k : Nat) (post : Post) (raw : List Byte) (need : Nat) (la : La) : Dev :=
  d.modSlot r k fun s =>
    let s := s.retireTo (link s.pc)
    let w : List Window := if post.dests.isEmpty then [] else [⟨s.nextPid, post.dests, la.toNat⟩]
    { s with pend := s.pend ++ [⟨s.nextPid, post, raw, need, none⟩], windows := s.windows ++ w, nextPid := s.nextPid + 1 }

/-- The registers that an instruction reads and writes, for the checks of LAHEAD and of parity (R249, R54). -/
structure RegUse where
  rx : List RegNo := []
  wx : List RegNo := []
  rv : List RegNo := []
  wv : List RegNo := []
  rp : List PNo := []
  rs : List SegNo := []
  rcr : List (BitVec 6) := []
  deriving DecidableEq, Repr

/-- Whether an instruction inside a window touches a pending destination (R249). -/
def Slot.laheadHit (s : Slot) (u : RegUse) : Bool :=
  s.windows.any fun w => decide (0 < w.left) && w.dests.any fun
    | .x r => u.rx.contains r || u.wx.contains r
    | .v r => u.rv.contains r || u.wv.contains r
    | .cr n => u.rcr.contains n

/-- Whether a register that the instruction reads fails its parity (R54). x0 and p0 hold no bits. -/
def Slot.parityHit (s : Slot) (u : RegUse) : Bool :=
  u.rx.any (fun r => r != 0 && s.badX.contains r.toNat) || u.rv.any (fun r => s.badV.contains r.toNat)
    || u.rp.any (fun r => r != 0 && s.badP.contains r.toNat) || u.rs.any (fun r => s.badS.contains r.toNat)
    || u.rcr.any (fun n => s.badC.contains n.toNat)

end Sys2Proof.Machine
end

