-- ==== Sys2Proof/Machine/Darner.lean ====
section
/-! DEFINITION. The darner of a home slice: the word format, the operations and the validation of darn routines (R360-R366), as pure
functions of a line and a payload. -/

namespace Sys2Proof.Machine

/-- The fields of a routine word (R361). -/
structure SWord where
  sop : Nat
  e : Bool
  n : Bool
  fc : Nat
  w : Bool
  f : Bool
  src : Nat
  a : Nat
  b : Nat
  d : Nat
  res : Nat
  deriving DecidableEq, Repr

def sword (w : HWord) : SWord where
  sop := (w.extractLsb' 27 5).toNat
  e := w.getLsbD 26
  n := w.getLsbD 25
  fc := (w.extractLsb' 23 2).toNat
  w := w.getLsbD 22
  f := w.getLsbD 21
  src := (w.extractLsb' 18 3).toNat
  a := (w.extractLsb' 13 5).toNat
  b := (w.extractLsb' 8 5).toNat
  d := (w.extractLsb' 5 3).toNat
  res := (w.extractLsb' 0 5).toNat

/-- The darner's state (R360). -/
structure DState where
  l : Line
  y : List Word
  f : List Nat                   -- 32-bit lane masks
  flags : FFlags
  stop : Bool
  ran : Nat                      -- words executed (R366)
  deriving DecidableEq, Repr

def DState.start (l : Line) : DState := ⟨l, List.replicate 8 0, List.replicate 4 (2 ^ 32 - 1), 0, false, 0⟩

def SWord.lanes (w : SWord) : Nat := if w.w then 16 else 32
def SWord.width (w : SWord) : Nat := if w.w then 64 else 32
def SWord.bytes (w : SWord) : Nat := if w.w then 8 else 4

def lane (s : DState) (w : SWord) (l : Nat) : Nat := lineNat s.l (w.bytes * l) w.bytes
def payLane (p : BitVec 512) (w : SWord) (l : Nat) : Nat := p.toNat / 256 ^ (w.bytes * l) % 2 ^ w.width
def maskBit (s : DState) (f l : Nat) : Bool := s.f.getD f 0 / 2 ^ l % 2 == 1
def DState.yr (s : DState) (k : Nat) : Word := s.y.getD k 0

/-- V(l) (R362). -/
def opV (s : DState) (p : BitVec 512) (w : SWord) (l : Nat) : Nat :=
  match w.src with
  | 0 => payLane p w (l % (if w.w then 8 else 16))
  | 1 => (s.yr w.b).toNat % 2 ^ w.width
  | _ => payLane p w w.b

/-- c(l) (R362). -/
def cond (s : DState) (w : SWord) (l : Nat) : Bool := !w.e || (maskBit s w.fc l != w.n)

/-- A scalar operation acts when E = 0, or when some lane l < n has c(l) = 1 (R362). -/
def scalarActs (s : DState) (w : SWord) : Bool := !w.e || (List.range w.lanes).any (cond s w)

/-- Minimum and maximum of floating-point codes (R296): a NaN gives way to a number, two NaNs give the canonical NaN, and -0 is below
+0. No flag is set. -/
def Fmt.minMax (f : Fmt) (max : Bool) (a b : Nat) : Nat :=
  match f.read a, f.read b with
  | .nan, .nan => f.nan
  | .nan, _ => b
  | _, .nan => a
  | x, y =>
    let c := x.cmp y
    let aLow := decide (c < 0) || (c == 0 && x.neg)
    if aLow != max then a else b

/-- A lane operation's value of lane l, with its flags (R363, R364): old value L[l] and operand V(l). -/
def laneOp (s : DState) (w : SWord) (l x v : Nat) : Nat × FFlags :=
  let m := 2 ^ w.width
  match w.sop with
  | 0x01 => if w.f then fp32.add .rne x v else ((x + v) % m, 0)
  | 0x02 => if w.f then fp32.sub .rne x v else ((x + m - v) % m, 0)
  | 0x03 => (if w.f then fp32.minMax false x v else sMin w.width x v, 0)
  | 0x04 => (if w.f then fp32.minMax true x v else sMax w.width x v, 0)
  | 0x05 => (min x v, 0)
  | 0x06 => (max x v, 0)
  | 0x07 => (x &&& v, 0)
  | 0x08 => (x ||| v, 0)
  | 0x09 => (x ^^^ v, 0)
  | 0x0A => (v, 0)
  | 0x0B => (if maskBit s w.a l then v else (s.yr w.d).toNat % m, 0)
  | 0x18 => (if l = 0 then x else lane s w (l - 1), 0)
  | _ => (x, 0)

/-- A lane comparison (R363, R299): an unordered pair compares false. -/
def laneCmp (w : SWord) (x v : Nat) : Bool :=
  let fx := fp32.read x
  let fv := fp32.read v
  let ord := !fx.isNan && !fv.isNan
  match w.sop with
  | 0x0C => if w.f then ord && fx.cmp fv == 0 else x == v
  | 0x0D => if w.f then ord && decide (fx.cmp fv < 0) else decide (svOf w.width x < svOf w.width v)
  | 0x0E => if w.f then ord && decide (fx.cmp fv ≤ 0) else decide (svOf w.width x ≤ svOf w.width v)
  | _ => decide (x < v)

def setMask (s : DState) (k v : Nat) : DState := { s with f := s.f.set k v }
def setY (s : DState) (k : Nat) (v : Word) : DState := { s with y := s.y.set k v }

/-- A mask built lane by lane over `n` lanes: the old bit where `act` does not hold. -/
def buildMask (old : Nat) (act : Nat → Bool) (bit : Nat → Bool) : Nat → Nat
  | 0 => 0
  | n + 1 => buildMask old act bit n + (if (if act n then bit n else old / 2 ^ n % 2 == 1) then 2 ^ n else 0)

/-- Execute one routine word (R363). Lane operations read every source lane before they write any. -/
def execWord (p : BitVec 512) (w : SWord) (s : DState) : DState :=
  if s.stop then s
  else
    let s := { s with ran := s.ran + 1 }
    let n := w.lanes
    if w.sop = 0x1F then (if scalarActs s w then { s with stop := true } else s)
    else if w.sop = 0x14 then
      if scalarActs s w then setY s w.d (BitVec.ofNat 64 ((List.range n).countP fun l => maskBit s w.a l)) else s
    else if w.sop = 0x15 then (if scalarActs s w then setY s w.d (BitVec.ofNat 64 (lane s w w.a)) else s)
    else if w.sop = 0x16 then (if scalarActs s w then setY s w.d (BitVec.ofNat 64 (payLane p w w.a)) else s)
    else if w.sop = 0x17 then
      let v := (s.yr w.b).toNat % 2 ^ w.width
      let at_ : Option Nat := if w.e then (List.range n).find? (cond s w) else some w.a
      match at_ with
      | some l => { s with l := lineSet s.l (w.bytes * l) w.bytes v }
      | none => s
    else if w.sop = 0x10 then setMask s w.d (buildMask (s.f.getD w.d 0) (cond s w) (fun l => maskBit s w.a l && maskBit s w.b l) 32)
    else if w.sop = 0x11 then setMask s w.d (buildMask (s.f.getD w.d 0) (cond s w) (fun l => maskBit s w.a l && !maskBit s w.b l) 32)
    else if w.sop = 0x12 then setMask s w.d (buildMask (s.f.getD w.d 0) (cond s w) (fun l => maskBit s w.a l || maskBit s w.b l) 32)
    else if w.sop = 0x13 then
      setMask s w.d (buildMask (s.f.getD w.d 0) (cond s w) (fun l => decide (w.a ≤ l) && decide (l ≤ w.b)) 32)
    else if 0x0C ≤ w.sop ∧ w.sop ≤ 0x0F then
      -- with W = 1 bits 16-31 are written 0, unless the condition is clear in every lane (R366)
      if !(List.range n).any (cond s w) then s
      else setMask s w.d (buildMask (s.f.getD w.d 0) (cond s w) (fun l => laneCmp w (lane s w l) (opV s p w l)) n)
    else
      (List.range n).foldl (fun (acc : DState) l =>
        if cond s w l then
          let (v, g) := laneOp s w l (lane s w l) (opV s p w l)
          { acc with l := lineSet acc.l (w.bytes * l) w.bytes v, flags := acc.flags ||| g }
        else acc) s

/-- Run a routine on a line and a payload (R360, R366). -/
def runRoutine (code : List HWord) (l : Line) (p : BitVec 512) : DState :=
  code.foldl (fun s w => execWord p (sword w) s) (DState.start l)

/-! ### Validation (R365) -/

/-- Operations whose second operand is V. -/
def usesV (sop : Nat) : Bool := (1 ≤ sop && sop ≤ 0x0F)
/-- Operations that write L. -/
def writesL (sop : Nat) : Bool := (1 ≤ sop && sop ≤ 0x0B) || sop == 0x17 || sop == 0x18

/-- Whether a routine word is well formed (R365, code 0x04): a valid SOP; reserved and unused fields 0; F only where R363 allows it and
with W = 0; SRC at most 2; indexes in range. -/
def wordOk (w : SWord) : Bool :=
  let validSop := decide (1 ≤ w.sop ∧ w.sop ≤ 0x18) || w.sop == 0x1F
  let fOk := !w.f || (!w.w && [0x01, 0x02, 0x03, 0x04, 0x0C, 0x0D, 0x0E].contains w.sop)
  let pMax := if w.w then 8 else 16
  let vOk :=
    if usesV w.sop then
      match w.src with
      | 0 => w.b == 0
      | 1 => decide (w.b < 8)
      | 2 => decide (w.b < pMax)
      | _ => false
    else w.src == 0
  let cOk := w.e || (!w.n && w.fc == 0)
  let idx :=
    if w.sop = 0x0B then decide (w.a < 4)
    else if usesV w.sop then w.a == 0 && (if 0x0C ≤ w.sop then decide (w.d < 4) else w.d == 0)
    else if 0x10 ≤ w.sop ∧ w.sop ≤ 0x12 then decide (w.a < 4) && decide (w.b < 4) && decide (w.d < 4) && !w.w
    else if w.sop = 0x13 then decide (w.a ≤ w.b) && decide (w.d < 4) && !w.w
    else if w.sop = 0x14 then decide (w.a < 4) && w.b == 0
    else if w.sop = 0x15 then decide (w.a < w.lanes) && w.b == 0
    else if w.sop = 0x16 then decide (w.a < pMax) && w.b == 0
    else if w.sop = 0x17 then (if w.e then w.a == 0 else decide (w.a < w.lanes)) && decide (w.b < 8) && w.d == 0
    else if w.sop = 0x18 then w.a == 0 && w.b == 0 && w.d == 0
    else w.a == 0 && w.b == 0 && w.d == 0
  validSop && w.res == 0 && fOk && vOk && cOk && idx

/-- The first word from index `i` that fails a check, with its reason: 0x04 or 0x05 (R365), in word order of each check. -/
def badWord (chk : SWord → Bool) (i : Nat) : List HWord → Option Nat
  | [] => none
  | w :: t => if chk (sword w) then badWord chk (i + 1) t else some i

/-- The code checks 0x04 to 0x06 of R365: BADWHY and BADIDX. -/
def codeBad (ro : Bool) (code : List HWord) : Option (Nat × Nat) :=
  match badWord wordOk 0 code with
  | some i => some (4, i)
  | none =>
    match (if ro then badWord (fun w => !writesL w.sop) 0 code else none) with
    | some i => some (5, i)
    | none =>
      match code.getLast? with
      | some w => if (sword w).sop = 0x1F && !(sword w).e then none else some (6, code.length - 1)
      | none => some (6, 0)

end Sys2Proof.Machine
end

