-- ==== Sys2Proof/Machine/Home.lean ====
section
/-! DEFINITION. The home slice of a line (R174, R175): where a line lives, the last-level cache, update-only copies, stash registrations
and their recalls, and what an access finds at the home. -/

namespace Sys2Proof.Machine

/-! ### Where lines live -/

/-- Bits `[hi : lo]` of a number. -/
def bits (x hi lo : Nat) : Nat := x / 2 ^ lo % 2 ^ (hi + 1 - lo)

/-- The home slice of a line (R174): HSLICE of a page-homed leaf, otherwise the exclusive or of the address fields. -/
def homeSlice (leaf : Word) (pa : Nat) : Nat :=
  if leaf.getLsbD 56 then (leaf.extractLsb' 6 10).toNat
  else bits pa 16 7 ^^^ bits pa 26 17 ^^^ bits pa 36 27 ^^^ bits pa 45 37

/-- Parity of the bits that a mask selects (R176), over 46 bits. -/
def parityOf (x : Nat) : Nat → Bool
  | 0 => false
  | n + 1 => (x / 2 ^ n % 2 == 1) != parityOf x n

/-- The HBM stack of a PA under a mask set (R176). -/
def hbmStack (masks : List Nat) (pa : Nat) : Nat :=
  (List.range 4).foldl (fun acc i => if parityOf (pa &&& masks.getD i 0) 46 then acc + 2 ^ i else acc) 0

/-- The channel of a PA within its stack, and its pseudo-channel (R176). -/
def hbmChannel (masks : List Nat) (pa : Nat) : Nat :=
  (List.range 5).foldl (fun acc i => if parityOf (pa &&& masks.getD (4 + i) 0) 46 then acc + 2 ^ i else acc) 0
def hbmPseudo (masks : List Nat) (pa : Nat) : Nat := if parityOf (pa &&& masks.getD 9 0) 46 then 1 else 0

/-- PA[39:0] without the bits of a list of places, from `n` places down: the others move together (structural on `n`). -/
def dropBits (places : List Nat) (pa : Nat) : Nat → Nat
  | 0 => 0
  | n + 1 =>
    let low := (places.filter fun k => decide (k < n)).length
    dropBits places pa n + (if places.contains n then 0 else pa / 2 ^ n % 2 * 2 ^ (n - low))

/-- The address within the pseudo-channel: PA[39:0] with the highest set bit of each mask removed (R176). -/
def hbmOffset (masks : List Nat) (pa : Nat) : Nat := dropBits (masks.map Nat.log2) pa 40

def isLp (pa : Nat) : Bool := decide (0x10000000000 ≤ pa)
/-- Where the populated PAs end (R155). -/
def paEnd : Nat := 0x30000000000

/-- The physical compute die that serves a core rank (R34, R36). -/
def Dev.dieOf (d : Dev) (r : Nat) : Nat := if d.spareUsed = some (r / 1024) then 4 else r / 1024

/-! ### The last-level cache (R79-R81, R178) -/

/-- The set of a line's home slice that holds it (R1): a slice has 1,024 sets of 12 ways, which are 1.5 MiB; the sets of slice `home` are
numbered from 1,024 times it. -/
def llcSetOf (line home : Nat) : Nat := 1024 * home + Config.llcSet line % 1024

/-- Count an access in the shadow tags, which the sets of index 0 mod 32 of every slice keep (R81): `k` is the position found in the LRU
stack. -/
def Dev.countShadow (d : Dev) (line home part : Nat) : Dev :=
  let set := llcSetOf line home
  let key := 64 * set + part
  let hot := set % 32 == 0
  let stack := (aget? d.shadow key).getD []
  let pos := stack.findIdx (· == line)
  let hits := (aget? d.shadowHits part).getD (List.replicate 12 0)
  { d with
    shadow := if hot then aset d.shadow key ((line :: stack.filter (· != line)).take 12) else d.shadow
    shadowHits := if hot && stack.contains line then aset d.shadowHits part (hits.modify pos (· + 1)) else d.shadowHits }

/-- The ways among which a missing line allocates, and whether it goes to the least-recently-used position (R80): those of its class,
else those of its partition, else the whole set. -/
def Dev.allocWays (d : Dev) (part cls : Nat) : List Nat × Bool :=
  let p := d.part part
  let own := p.clsWays.getD cls []
  if !own.isEmpty then (own, false) else if !p.ways.isEmpty then (p.ways, false) else (List.range 12, true)

/-- Whether a tile fetch unit pins a line for a queued matrix command (R136). -/
def Dev.pinned (d : Dev) (line : Nat) : Bool := d.cores.any fun c => c.2.mxq.any fun m => m.pins.contains line

/-- The way that a missing line takes among `ways`, and the line that leaves it (R80): a way of the set that holds no line, or that of the
least recently used line that is not pinned (R136); none where every one is pinned, and then the line is not kept (log entry 62). `stack`
holds the set's lines, the most recently used first. -/
def llcPlace (llc : AMap LlcLine) (pinned : Nat → Bool) (stack ways : List Nat) : Option (Nat × Option Nat) :=
  let wayOf (l : Nat) : Nat := ((aget? llc l).map (·.way)).getD 12
  match ways.find? fun w => !stack.any fun l => wayOf l == w with
  | some w => some (w, none)
  | none => ((stack.filter fun l => ways.contains (wayOf l) && !pinned l).getLast?).map fun l => (wayOf l, some l)

/-- What the slices hold: the lines, and of every set its lines with the most recently used first. -/
abbrev Llc := AMap LlcLine × AMap (List Nat)

/-- A line that a slice holds is forgotten: by its set, and by the directory of lines. -/
def llcWithout (c : Llc) (line : Nat) : Llc :=
  match aget? c.1 line with
  | none => c
  | some e => (adel c.1 line, aset c.2 e.set (((aget? c.2 e.set).getD []).filter (· != line)))

/-- A line of set `e.set` is allocated there among `ways` (R80), at the least-recently-used position if `last` holds. -/
def llcWith (c : Llc) (pinned : Nat → Bool) (ways : List Nat) (last : Bool) (line : Nat) (e : LlcLine) : Llc :=
  let stack := (aget? c.2 e.set).getD []
  match llcPlace c.1 pinned stack ways with
  | none => c
  | some (way, out) =>
    let rest := stack.filter fun l => some l != out
    (aset (match out with
      | some l => adel c.1 l
      | none => c.1) line { e with way := way }, aset c.2 e.set (if last then rest ++ [line] else line :: rest))

/-- An access of partition `part` and class `cls` to a line at its home slice (R79, R80): a miss allocates it, and a fill from an LP frame is
to be counted (R178; a 2 MiB page counts on its first frame); a write makes the line dirty, so that what DRAM holds is kept for `cinval` (R380).
A line that another slice held before its page got a new home goes to the new one. It stands before the write. -/
def Dev.touch (d : Dev) (line home part cls : Nat) (pg : PageId) (write : Bool) : Dev :=
  let d := d.countShadow line home part
  let set := llcSetOf line home
  let found := aget? d.llc line
  let dram := (found.bind (·.dram)).orElse fun _ => if write then some (d.mem.line line) else none
  let c : Llc := match found.filter (·.set == set) with
    | some e => (aset d.llc line { e with dram := dram }, aset d.lru set (line :: ((aget? d.lru set).getD []).filter (· != line)))
    | none => llcWith (llcWithout (d.llc, d.lru) line) d.pinned (d.allocWays part cls).1 (d.allocWays part cls).2 line ⟨dram, part, cls, set, 0⟩
  let frame := if pg.large then line / 512 / 32 * 32 else line / 512
  let page : PageId := if pg.large then ⟨pg.num / 32 * 32, true⟩ else pg
  { d with llc := c.1, lru := c.2, lpFills := if found.isNone && isLp (128 * line) then d.lpFills ++ [(part, frame, page)] else d.lpFills }

def Dev.lpFrame (d : Dev) (f : Nat) : LpFrame := (aget? d.lp f).getD ⟨0, false, none, []⟩
def Dev.setLp (d : Dev) (f : Nat) (x : LpFrame) : Dev := { d with lp := aset d.lp f x }

/-- A page of a partition maps an LP frame (R181). -/
def Dev.noteFrame (d : Dev) (part : Nat) (page : PageId) (f : Nat) : Dev :=
  let x := d.lpFrame f
  if x.pages.contains (part, page) then d else d.setLp f { x with pages := x.pages ++ [(part, page)] }

/-! ### Update-only copies (R203, R277, R278) -/

/-- op(u, d) of a RED on words of `z` bytes (R277); floating-point addition rounds to nearest even and sets no flag. -/
def redOp (fn z u d : Nat) : Nat :=
  let n := 8 * z
  match fn with
  | 0 => (u + d) % 2 ^ n
  | 1 => u &&& d
  | 2 => u ||| d
  | 3 => u ^^^ d
  | 4 => sMin n u d
  | 5 => sMax n u d
  | _ => ((if z = 4 then fp32 else fp64).add .rne u d).1

/-- The identity of the operation (R277). -/
def redIdentity (fn z : Nat) : Nat :=
  let n := 8 * z
  match fn with
  | 0 | 2 | 3 => 0
  | 1 => 2 ^ n - 1
  | 4 => 2 ^ (n - 1) - 1
  | _ => 2 ^ (n - 1)

def Uoc.z (u : Uoc) : Nat := if u.w64 then 8 else 4

/-- Combine a copy word by word into a line (R278), `n` words; a word that holds the identity changes nothing. -/
def combineWords (u : Uoc) (home : Line) : Nat → Line
  | 0 => home
  | n + 1 =>
    let h := combineWords u home n
    let c := lineNat u.data (u.z * n) u.z
    if c = redIdentity u.fn u.z then h else lineSet h (u.z * n) u.z (redOp u.fn u.z (lineNat h (u.z * n) u.z) c)

/-- The tag that a request carries (R274): its source core and its sequence number there. Where a save or a move of its partition has taken
the request to another core, the key under which that core waits for it is made of both. -/
def HomeReq.tagId (q : HomeReq) : Nat × Nat :=
  let t := q.tag.getD 0
  if t < 2 ^ 32 then (q.rank, t) else (t / 2 ^ 32 - 1, t % 2 ^ 32)

/-- Whether a core may send one more tagged request: 256 may be outstanding (R274). -/
def Core.tagFree (c : Core) : Bool := decide ((c.out.filter fun o => decide (0 < o.2.sends)).length < 256)

/-- Record a tag as applied, in the window of 256 that its receiver keeps for each source (R274). -/
def Dev.recordTag (d : Dev) (recv rank seq : Nat) (result : Word) (flags : BitVec 6 := 0) : Dev :=
  let mine (t : TagRec) : Bool := t.recv == recv && t.rank == rank
  { d with tagWin := (⟨recv, rank, seq, result, flags⟩ :: d.tagWin.filter mine).take 256 ++ d.tagWin.filter fun t => !mine t }

/-- What a receiver has recorded for a tag. -/
def Dev.tagSeen (d : Dev) (recv rank seq : Nat) : Option TagRec := d.tagWin.find? fun t => t.recv == recv && t.rank == rank && t.seq == seq

/-- Whether a copy changes a word of its line, among the first `n`: one that does not hold the identity (R278). -/
def Uoc.changes (u : Uoc) : Nat → Bool
  | 0 => false
  | n + 1 => u.changes n || lineNat u.data (u.z * n) u.z != redIdentity u.fn u.z

def Dev.dieCycle (d : Dev) (die : Nat) : Word := (aget? d.dieCycles die).getD 0

/-- The DIE code of the base die that carries a home slice (R33, R58). -/
def baseDie (slice : Nat) : Nat := 5 + slice / 256

/-- A record joins those that the log writer of a partition has to write, with CYCLE at its detection (R57, R58). -/
def Dev.noteRecord (d : Dev) (p : Nat) (e : ErrRec) : Dev :=
  d.modPart p fun y => { y with elogQ := y.elogQ ++ [⟨e, d.dieCycle e.die, false⟩] }

/-- The home consumes the poison of a line into which it combines a copy of `u`'s partition (R54): a record of kind 0x07 that names the home
slice and no thread; no thread waits for the access, so none has a DATAERR (log entry 62). -/
def Dev.noteCombine (d : Dev) (u : Uoc) : Dev :=
  if u.changes (128 / u.z) && d.poison.contains u.line then
    d.noteRecord u.part ⟨0x07, baseDie u.home, 1, u.pg.num * 65536 + 128 * u.line % 65536, 2, 4096 + u.home, 15, 0, 1⟩
  else d

/-- Combine an update-only copy into the home value of its line (R278). A line that stays poisoned keeps its poison. -/
def Dev.combine (d : Dev) (u : Uoc) : Dev :=
  let d := (d.noteCombine u).touch u.line u.home u.part u.cls u.pg true
  { d with mem := d.mem.setLine u.line (combineWords u (d.mem.line u.line) (128 / u.z)) }

/-- The return of an update-only copy reaches the home: it is combined and its tag recorded, unless the tag was applied before; the
source has its answer. -/
def Dev.applyBack (d : Dev) (q : HomeReq) (u : Uoc) : Dev :=
  let t := q.tag.getD 0
  let d := { d with homeQ := d.homeQ.filter fun x => x != q }
  let d := d.modCore q.rank fun c => { c with out := adel c.out t }
  if (d.tagSeen q.home q.tagId.1 q.tagId.2).isSome then d else (d.combine u).recordTag q.home q.tagId.1 q.tagId.2 0

/-- The update-only copy of a line leaves core `r`, as a tagged request to the home (R274, R278). -/
def Dev.sendBack (d : Dev) (r line : Nat) : Dev :=
  match (d.core r).uoc.find? (·.line == line) with
  | none => d
  | some u =>
    let t := (d.core r).tagSeq
    let q : HomeReq := { rank := r, slot := 16, part := u.part, prank := r - (d.part u.part).cfg.hbase, arr := d.accSeq, passed := 0, line := line, home := u.home, gva := u.pg.num * 65536, large := u.pg.large, seq := d.accSeq, tag := some t.toNat, kind := .uocBack u, cls := u.cls, scope := .cr, srel := false, remote := false }
    let d := d.modCore r fun c => { c with
      uoc := c.uoc.filter (·.line != line), tagSeq := t + 1, out := aset c.out t.toNat ⟨some q, none, none, none, 1, false⟩ }
    { d with homeQ := d.homeQ ++ [q], accSeq := d.accSeq + 1 }

/-- The returns of a line that are on their way, oldest first. -/
def Dev.backsOf (d : Dev) (line : Nat) : List (HomeReq × Uoc) :=
  d.homeQ.filterMap fun q => match q.kind with
    | .uocBack u => if q.line = line then some (q, u) else none
    | _ => none

/-- Every return of the line that is on its way is combined. -/
def Dev.applyBacks (d : Dev) (line : Nat) : Dev := (d.backsOf line).foldl (fun d p => d.applyBack p.1 p.2) d

/-- The home recalls every update-only copy of the line, and each is combined (R203). The order is that of the ranks: any other order is a
schedule that returned copies earlier. -/
def Dev.recallUocs (d : Dev) (line : Nat) : Dev :=
  ((d.cores.filter fun p => p.2.uoc.any (·.line == line)).foldl (fun d p => d.sendBack p.1 line) d).applyBacks line

/-- The lines of the L1 data cache of a core (R123): plain copies and update-only copies share it. -/
def Core.l1Lines (c : Core) : List Nat := c.l1d.map (·.1) ++ c.uoc.map (·.line)

/-- Those in the set of a line: 8 ways in each of 64 sets. -/
def Core.l1Set (c : Core) (line : Nat) : List Nat := c.l1Lines.filter fun l => Config.l1dSet l % 64 == Config.l1dSet line % 64

/-- Those that may leave for it: an update-only copy returns with a tag of the core (R274). -/
def Core.l1Victims (c : Core) (line : Nat) : List Nat := (c.l1Set line).filter fun l => c.tagFree || !c.uoc.any (·.line == l)

/-- Whether a line has its place there. -/
def Core.l1Open (c : Core) (line : Nat) : Bool :=
  decide (c.l1Lines.length < 8) || (c.l1Set line).contains line || decide ((c.l1Set line).length < 8)

/-- Whether it can be given one. -/
def Core.l1Fits (c : Core) (line : Nat) : Bool := c.l1Open line || !(c.l1Victims line).isEmpty

/-- Room for a line in the L1 data cache of core `r` (R123). The line that leaves a full set is a free choice (log entry 8). -/
def Dev.l1Room (d : Dev) (r line : Nat) : Dev :=
  if (d.core r).l1Open line then d
  else
    let here := (d.core r).l1Victims line
    let (w, d) := d.free
    match here[w.toNat % here.length]? with
    | some v => (d.sendBack r v).modCore r fun c => { c with l1d := adel c.l1d v }
    | none => d

/-- Core `r` keeps a plain copy of a line (R123), unless every line of the set has to stay. -/
def Dev.l1Put (d : Dev) (r line : Nat) (l : Line) : Dev :=
  if (d.core r).l1Fits line then (d.l1Room r line).modCore r fun c => { c with l1d := aset c.l1d line l } else d

/-- Core `r` keeps an instruction line (R122): 256 lines; the one that leaves is a free choice (log entry 8). -/
def Dev.l1iPut (d : Dev) (r line : Nat) (l : Line) : Dev :=
  let c := d.core r
  if c.l1i.length < 256 || (aget? c.l1i line).isSome then d.setCore r { c with l1i := aset c.l1i line l }
  else
    let (w, d) := d.free
    d.setCore r { c with l1i := aset (c.l1i.eraseIdx (w.toNat % 256)) line l }

/-- The plain copies of a line are dropped in core `r`. -/
def Dev.l1Drop (d : Dev) (r line : Nat) : Dev := d.modCore r fun c => { c with l1d := adel c.l1d line }

/-- Whether every core that holds an update-only copy of a line has a tag for its return (R274). -/
def Dev.uocTags (d : Dev) (line : Nat) : Bool := d.cores.all fun c => !c.2.uoc.any (·.line == line) || c.2.tagFree

def Dev.hasUoc (d : Dev) (line : Nat) : Bool := d.cores.any (fun p => p.2.uoc.any (·.line == line)) || !(d.backsOf line).isEmpty

/-! ### Stash registration (R131-R133) -/

def Core.stashLine (c : Core) (e : Nat) : Line := c.lmem.line e

/-- Whether a write-buffer entry is the one whose bytes a store request carries. -/
def WbEntry.isFor (e : WbEntry) (q : HomeReq) : Bool := e.sent && e.line == q.line && e.seq == q.seq && q.kind == .store e.mask

/-- A pending write-back of the line from core `r` is written at the home, and the line is deregistered when its entry no longer maps
it (R273). -/
def Dev.settleBack (d : Dev) (r line : Nat) : Dev :=
  let c := d.core r
  let back := c.wb.filter fun e => e.wback && e.line == line
  if back.isEmpty then d
  else
    let d := back.foldl (fun d e =>
      let d := d.touch line e.home e.part e.cls e.pg true
      { d with
        mem := d.mem.setMasked (128 * line) e.data e.mask 128
        poison := if e.bad && !d.poison.contains line then d.poison ++ [line] else d.poison }) d
    let d := d.modCore r fun c => { c with wb := c.wb.filter fun e => !(e.wback && e.line == line) }
    let d := { d with homeQ := d.homeQ.filter fun q => !(q.rank == r && q.line == line && back.any fun e => e.isFor q) }
    match aget? d.regs line with
    | some (r', e) =>
      if r' = r && !((aget? (d.core r).stash e).any fun s => s.line == line && s.st != .mapped) then { d with regs := adel d.regs line }
      else d
    | none => d

/-- The home recalls the registration of a line (R133): a DIRTY entry is written back, the line deregistered, the entry MAPPED. -/
def Dev.recallStash (d : Dev) (line : Nat) : Dev :=
  match aget? d.regs line with
  | none => d
  | some (r, e) =>
    let d := d.settleBack r line
    let c := d.core r
    match aget? c.stash e with
    | some s =>
      if s.line = line && s.st != .mapped then
        let d := if s.st == .dirty then
            let d := d.touch line s.home s.part s.cls ⟨s.gva / 65536, s.large⟩ true
            { d with
              mem := d.mem.setLine line (c.stashLine e)
              poison := if c.badLmem.contains e && !d.poison.contains line then d.poison ++ [line] else d.poison }
          else d
        let d := { d with regs := adel d.regs line }
        d.modCore r fun c => { c with stash := aset c.stash e { s with st := .mapped } }
      else { d with regs := adel d.regs line }
    | none => { d with regs := adel d.regs line }

/-- What stands before an ordinary access at the home: pending write-backs of a line whose entry has gone, and update-only copies. -/
def Dev.prepare (d : Dev) (line : Nat) : Dev :=
  let d := match aget? d.regs line with
    | some (r, _) => d.settleBack r line
    | none => d
  if d.hasUoc line then (d.recallStash line).recallUocs line else d

/-- The value of a line as an ordinary access finds it: in the registered stash entry, or at the home (R132). -/
def Dev.lineNow (d : Dev) (line : Nat) : Line :=
  match aget? d.regs line with
  | some (r, e) => (d.core r).stashLine e
  | none => d.mem.line line

/-- Write masked bytes of a line as an ordinary store, performed at the home or at the registered entry, which becomes DIRTY (R132).
The storing agent's home slice, partition, class and page are for the cache. -/
def Dev.lineWrite (d : Dev) (line : Nat) (data : Line) (mask : BitVec 128) (home part cls : Nat) (page : PageId) : Dev :=
  match aget? d.regs line with
  | some (r, e) =>
    d.modCore r fun c =>
      let c := { c with lmem := c.lmem.setMasked (128 * e) data mask 128 }
      match aget? c.stash e with
      | some s => { c with stash := aset c.stash e { s with st := .dirty } }
      | none => c
  | none =>
    let d := d.touch line home part cls page true
    { d with mem := d.mem.setMasked (128 * line) data mask 128 }

def Dev.leased (d : Dev) (line : Nat) : Bool := d.leases.any (·.line == line)
/-- Whether a line's registered entry was lost with its die: every access gets DATAERR (R39). -/
def Dev.lostLine (d : Dev) (line : Nat) : Bool := d.lostRegs.contains line
/-- Whether an access that consumes a line gets DATAERR (R54, R39). -/
def Dev.poisoned (d : Dev) (line : Nat) : Bool := d.poison.contains line || d.lostLine line

/-- Pieces of a byte range by line: line, offset in the line, length, offset in the range (structural on the number of bytes). -/
def linePieces (pa n done : Nat) : Nat → List (Nat × Nat × Nat × Nat)
  | 0 => []
  | fuel + 1 =>
    if n ≤ done then []
    else
      let a := pa + done
      let k := min (128 - a % 128) (n - done)
      (a / 128, a % 128, k, done) :: linePieces pa n (done + k) fuel

def piecesOf (pa n : Nat) : List (Nat × Nat × Nat × Nat) := linePieces pa n 0 (n / 128 + 2)

/-- The page of an access of the device that names no GVA. -/
def noPage : PageId := ⟨0, false⟩

/-- The leaf entry that stands for an access of the device to memory that no leaf maps: interleaved homes (R174), and the class `other`, which the
spec gives no rule (R79; log entry 62). -/
def noLeaf : Word := 3 <<< 57

/-- CLASS of a leaf entry (R159). -/
def leafClass (e : Word) : Nat := (e.extractLsb' 57 2).toNat

/-- A read by an agent of the device of `n` bytes at a PA, as an ordinary access (R187): the value, and the device after the recalls
it needs. Whether it is held or poison fails it is asked before (`rangeHeld`, `rangePoisoned`). -/
def Dev.agentRead (d : Dev) (pa n part : Nat) (leaf : Word) (page : PageId) : Nat × Dev :=
  (piecesOf pa n).foldl (fun (acc : Nat × Dev) p =>
    let (line, off, k, at_) := p
    let d := (acc.2.prepare line).touch line (homeSlice leaf (128 * line)) part (leafClass leaf) page false
    (acc.1 + lineNat (d.lineNow line) off k * 256 ^ at_, d)) (0, d)

/-- A write by an agent of the device of the `n`-byte value `x`, as an ordinary store at each line's home; a lost line takes nothing (R39). -/
def Dev.agentWrite (d : Dev) (pa n x part : Nat) (leaf : Word) (page : PageId) : Dev :=
  (piecesOf pa n).foldl (fun d p =>
    let (line, off, k, at_) := p
    if d.lostLine line then d
    else (d.prepare line).lineWrite line (lineSet 0 off k (x / 256 ^ at_ % 256 ^ k)) (byteMask off k) (homeSlice leaf (128 * line)) part
      (leafClass leaf) page) d

/-- Whether some line of a range is poisoned, or lost. -/
def Dev.rangePoisoned (d : Dev) (pa n : Nat) : Bool := (piecesOf pa n).any fun p => d.poisoned p.1
def Dev.rangeLost (d : Dev) (pa n : Nat) : Bool := (piecesOf pa n).any fun p => d.lostLine p.1

end Sys2Proof.Machine
end

