-- ==== Sys2Proof/Machine/Order.lean ====
section
/-! DEFINITION. The order in which the home of a line serves what waits for it (R175, R189, R194), how an agent of the device waits for a
held line (R205), messages (R142, R274), the error log (R56-R59), and an instruction that stops. -/

namespace Sys2Proof.Machine

/-! ### Requests of a thread, wherever they stand -/

/-- The requests of a core that an ordered buffer refused (R368). -/
def Core.refusedReqs (c : Core) : List HomeReq := c.out.filterMap fun p => if p.2.refused then p.2.req else none

/-- The invocations that stand in no home queue: those that ordered buffers hold or have refused (R368), on cores and in saved contexts. -/
def Dev.sidelined (d : Dev) : List HomeReq :=
  d.obuf.map (·.req) ++ d.cores.flatMap (fun c => c.2.refusedReqs)
    ++ d.parts.flatMap fun p => p.2.ctx.flatMap fun c => c.2.core.refusedReqs

/-- The bytes of its line that a request concerns (R189). -/
def ReqKind.mask : ReqKind → BitVec 128
  | .load _ off size _ _ => byteMask off size
  | .store m => m
  | .amo _ off w64 _ _ _ _ | .red _ w64 off _ => byteMask off (if w64 then 8 else 4)
  | .sverNext off _ | .sverNum off _ _ | .lver _ off _ _ | .pver _ off _ | .rver off _ => byteMask off 8
  | .lease _ _ | .unlease _ _ _ | .satom _ _ _ | .uocBack _ | .agent _ _ => BitVec.allOnes 128

def ReqKind.isStore : ReqKind → Bool
  | .store _ => true
  | .load _ _ _ _ _ | .amo _ _ _ _ _ _ _ | .lease _ _ | .unlease _ _ _ | .sverNext _ _ | .sverNum _ _ _ | .lver _ _ _ _ | .pver _ _ _
  | .rver _ _ | .satom _ _ _ | .uocBack _ | .red _ _ _ _ | .agent _ _ => false

/-- Whether a request is an acquiring read (R194). -/
def ReqKind.acquires : ReqKind → Bool
  | .load _ _ _ _ acq => acq
  | .amo _ _ _ _ _ _ acq => acq.isSome
  | .pver _ _ _ => true
  | .store _ | .lease _ _ | .unlease _ _ _ | .sverNext _ _ | .sverNum _ _ _ | .lver _ _ _ _ | .rver _ _ | .satom _ _ _ | .uocBack _
  | .red _ _ _ _ | .agent _ _ => false

/-- Whether a request is one of the thread in a slot of a partition rank, for bytes of a line. -/
def HomeReq.touches (q : HomeReq) (r k line : Nat) (mask : BitVec 128) : Bool :=
  q.rank == r && q.slot == k && q.line == line && (q.kind.mask &&& mask) != 0

/-! ### Releases (R194) -/

/-- Whether a request is one of the thread that a gate names. -/
def Gate.names (g : Gate) (q : HomeReq) : Bool := q.slot == g.slot && q.part == g.part && q.prank == g.prank

/-- A gate for the accesses of slot `k` of core `r` stamped before `mark`. -/
def Dev.gateAt (d : Dev) (r k mark : Nat) (scope : MemScope) (stashOf : Option Nat) : Gate :=
  ⟨r, (d.slot r k).part, r - (d.part (d.slot r k).part).cfg.hbase, k, mark, scope, stashOf⟩

/-- Whether a store to a line is performed for the threads of its own core once it is in the write buffer (R188): the line is registered to
no stash entry. -/
def Dev.unregistered (d : Dev) (line : Nat) : Bool := (aget? d.regs line).isNone

/-- Whether the write buffer of the gate's core holds nothing that the release waits for. For a scope wider than the core that is every
entry stamped before the mark; for `.cr` the slot's own stores that themselves wait behind a release, or that go to a registered line. -/
def Dev.gateWb (d : Dev) (g : Gate) : Bool :=
  let own (e : WbEntry) : Bool := e.srel.any (·.1 == g.slot) || (e.slots.contains g.slot && !e.wback && !d.unregistered e.line)
  !((d.core g.rank).wb.any fun e => decide (e.seq < g.mark) && (match g.scope with
    | .cr => own e
    | .pkg | .pod | .sys => true))

/-- Whether everything that a gate names is performed (R194): the slot's requests at the homes and in ordered buffers, the stores of the
write buffer, and for `.pod` and `.sys` the slot's accesses to other modules (R213). For `.cr` a plain store that is on its way home is
performed already. -/
def Dev.gateOpen (d : Dev) (g : Gate) : Bool :=
  match g.stashOf with
  | some t =>
    !((d.core g.rank).wb.any fun e => decide (e.seq < g.mark) && e.slots.contains g.slot && (aget? d.regs e.line).any (·.1 == t))
  | none =>
    let waits (q : HomeReq) : Bool := g.names q && decide (q.seq < g.mark)
      && !(g.scope == .cr && q.kind.isStore && !q.srel && d.unregistered q.line)
    !d.homeQ.any waits && !d.sidelined.any waits && d.gateWb g
      && (match g.scope with
        | .cr | .pkg => true
        | .pod | .sys => !(d.remote.any fun p =>
            p.2.part == g.part && p.2.prank == g.prank && p.2.slot == g.slot && p.2.chan.isNone && decide (p.2.seq < g.mark)))

/-! ### Order at a home (R175, R189) -/

/-- The class of R175. -/
def Dev.reqClass (d : Dev) (q : HomeReq) : Nat :=
  match q.kind with
  | .load _ _ _ _ _ => if (aget? d.regs q.line).isSome then 1 else if d.hasUoc q.line then 3 else 5
  | .store _ => if (aget? d.regs q.line).isSome then 1 else 5
  | .lease _ _ => 2
  | .amo _ _ _ _ _ _ _ => if d.hasUoc q.line then 3 else 5
  | .satom _ _ _ => 4
  | .agent (.fill _) _ => if d.hasUoc q.line then 3 else 5
  | .agent _ write => if (aget? d.regs q.line).isSome then 1 else if !write && d.hasUoc q.line then 3 else 5
  | .unlease _ _ _ | .sverNext _ _ | .sverNum _ _ _ | .lver _ _ _ _ | .pver _ _ _ | .rver _ _ | .uocBack _ | .red _ _ _ _ => 5

/-- Whether slot `k` sees a write-buffer entry: not the store of another thread's `srel` before its release is complete (R194). -/
def WbEntry.seenBy (e : WbEntry) (k : Nat) : Bool := match e.srel with
  | some (o, _) => o == k
  | none => true

/-- The gate of the store of a `srel` in the write buffer of core `r`; none for a plain store. -/
def Dev.srelGate (d : Dev) (r : Nat) (e : WbEntry) : Option Gate :=
  e.srel.map fun p => ⟨r, e.part, r - (d.part e.part).cfg.hbase, p.1, e.seq, p.2, none⟩

/-- The bytes of a line that a naturally aligned store ties to those of `m` (R190), by at most `n` steps to a neighbour. -/
def glueGrow (glue m : BitVec 128) : Nat → BitVec 128
  | 0 => m
  | n + 1 =>
    let g := glueGrow glue m n
    g ||| ((g &&& glue) >>> 1) ||| ((g <<< 1) &&& glue)

/-- The bytes of a write-buffer entry that leave together when bytes `m` of its line are chosen: naturally aligned stores leave whole, and so do
the store of a `srel` and a write-back. -/
def WbEntry.leaving (e : WbEntry) (m : BitVec 128) : BitVec 128 :=
  if (e.mask &&& m) != 0 && (e.wback || e.srel.isSome) then e.mask else glueGrow e.glue (e.mask &&& m) 7 &&& e.mask

/-- The entries of a list, the newest first, that hold bytes of `need`, and the bytes that leave them: an older entry gives up what a newer
one overwrites. -/
def pickOwn : List WbEntry → BitVec 128 → List (WbEntry × BitVec 128)
  | [], _ => []
  | e :: t, need => if e.leaving need = 0 then pickOwn t need else (e, e.leaving need) :: pickOwn t (need ||| e.leaving need)

/-- The stores in its core's write buffer that come before a request which acts at the home itself, oldest first, with the bytes of each: the
stores to the request's bytes that its slot sees, and the older ones under them (R189). -/
def Dev.ownStores (d : Dev) (q : HomeReq) : List (WbEntry × BitVec 128) :=
  let l := (d.core q.rank).wb.reverse.filter fun e => e.line == q.line && !e.wback && decide (e.seq < q.seq)
  (pickOwn (l.dropWhile fun e => !e.seenBy q.slot || (e.mask &&& q.kind.mask) == 0) q.kind.mask).reverse

/-- Whether a store that comes before a request cannot be written yet: it is on its way to the home, it is that of a `srel` whose release is not
complete (R194), or an earlier read of its thread to its bytes is not performed (R189). -/
def Dev.storeHeld (d : Dev) (r : Nat) (p : WbEntry × BitVec 128) : Bool :=
  let reads (o : HomeReq) : Bool := o.rank == r && o.line == p.1.line && p.1.slots.contains o.slot && !o.kind.isStore && decide (o.seq < p.1.seq)
    && (o.kind.mask &&& p.2) != 0
  p.1.sent || ((d.srelGate r p.1).any fun g => !d.gateOpen g) || d.homeQ.any reads || d.sidelined.any reads

/-- A routine that a slice has validated, in its cache of 64 (R359). -/
def Dev.cachedRoutine (d : Dev) (slice part entry : Nat) : Option RoutineC :=
  d.rcache.find? fun c => c.slice == slice && c.part == part && c.entry == entry

/-- The ticket of an invocation of a routine that its slice knows as ordered (R367). -/
def Dev.ticketOf (d : Dev) (q : HomeReq) : Option HWord :=
  match q.kind with
  | .satom _ entry payload =>
    if (d.cachedRoutine q.home q.part entry).any fun c => !c.bad && c.ord then some (payload.extractLsb' 480 32) else none
  | .load _ _ _ _ _ | .store _ | .amo _ _ _ _ _ _ _ | .lease _ _ | .unlease _ _ _ | .sverNext _ _ | .sverNum _ _ _ | .lver _ _ _ _ | .pver _ _ _
  | .rver _ _ | .uocBack _ | .red _ _ _ _ | .agent _ _ => none

/-- Whether earlier accesses of the same thread to bytes of the request stand before it (R189): its requests, its invocations in ordered
buffers, and for a request that acts at the home itself the stores of its core's write buffer that come first and still wait. A store
request may carry stores of several threads of its core. Ordered invocations of a line run in the order of their tickets and no other
(R367). -/
def Dev.reqBlocked (d : Dev) (q : HomeReq) : Bool :=
  let ordered (o : HomeReq) : Bool := (d.ticketOf o).isSome
  let before (o : HomeReq) : Bool := o.rank == q.rank && o.line == q.line && decide (o.seq < q.seq) && (o.kind.mask &&& q.kind.mask) != 0
    && (o.slot == q.slot || (o.kind.isStore && q.kind.isStore))
  let held : Bool := match q.kind with
    | .amo _ _ _ _ _ _ _ | .lease _ _ | .unlease _ _ _ | .satom _ _ _ | .red _ _ _ _ => (d.ownStores q).any (d.storeHeld q.rank)
    | .load _ _ _ _ _ | .store _ | .sverNext _ _ | .sverNum _ _ _ | .lver _ _ _ _ | .pver _ _ _ | .rver _ _ | .uocBack _ | .agent _ _ => false
  (d.homeQ.any fun o => before o && !(ordered o && ordered q)) || (d.sidelined.any fun o => o.slot == q.slot && before o && !ordered q) || held

/-- newer(a, b) (R281). -/
def newer (a b : HWord) : Bool := let x := (a - b).toNat; decide (1 ≤ x) && decide (x < 2 ^ 31)

/-- The numbers of a versioned word whose home slice is `home` (R281): of its live versions, which follow the home that R174 gives, or N = T in
its memory bytes. -/
def Dev.vword (d : Dev) (pa home : Nat) : VWord :=
  match aget? d.vwords pa with
  | some v => { v with home := home }
  | none => let n := BitVec.ofNat 32 (d.mem.nat pa 4); ⟨home, n, n, []⟩

/-- The version store of a slice has a free entry (R281), with the versions of the word at `pa` counted there. -/
def Dev.vstoreRoom (d : Dev) (home pa : Nat) : Bool :=
  decide ((d.vwords.foldl (fun acc p => if p.2.home = home ∨ p.1 = pa then acc + p.2.entries.length else acc) 0) < 16384)

/-- Whether an acquiring read of the thread that came before a request is not performed (R194): a RED waits for it at the home, since its
thread never waits (R292). -/
def Dev.acqBefore (d : Dev) (q : HomeReq) : Bool :=
  (d.homeQ.any fun o => o.rank == q.rank && o.slot == q.slot && o.kind.acquires && decide (o.seq < q.seq))
    || d.remote.any fun p => p.2.part == q.part && p.2.prank == q.prank && p.2.slot == q.slot && p.2.acq.isSome && decide (p.2.seq < q.seq)

/-- Whether the home can apply an `sver` now (R283): version k is the next one and has room, or it exists already. -/
def Dev.sverRoom (d : Dev) (q : HomeReq) : Bool :=
  let room (pa : Nat) (v : VWord) : Bool := decide ((v.n - v.t).toNat < 8) && d.vstoreRoom q.home pa
  match q.kind with
  | .sverNext off _ => room (128 * q.line + off) (d.vword (128 * q.line + off) q.home)
  | .sverNum off k _ =>
    let v := d.vword (128 * q.line + off) q.home
    !newer k v.n || (k == v.n + 1 && room (128 * q.line + off) v)
  | .load _ _ _ _ _ | .store _ | .amo _ _ _ _ _ _ _ | .lease _ _ | .unlease _ _ _ | .lver _ _ _ _ | .pver _ _ _ | .rver _ _ | .satom _ _ _
  | .uocBack _ | .red _ _ _ _ | .agent _ _ => false

/-- Whether the core of a RED has room for its update-only copy, and a tag for the one that has to leave (R123, R274). -/
def Dev.redRoom (d : Dev) (q : HomeReq) (fn : Nat) (w64 : Bool) : Bool :=
  let c := d.core q.rank
  match c.uoc.find? (·.line == q.line) with
  | some u => (u.fn == fn && u.w64 == w64) || c.tagFree
  | none => c.l1Fits q.line

/-- What the receiver has recorded for a request that it has applied before (R274). -/
def Dev.replayed (d : Dev) (q : HomeReq) : Option TagRec := if q.tag.isNone then none else d.tagSeen q.home q.tagId.1 q.tagId.2

/-- Whether the home can serve a request now. One that it has applied before is answered at once (R274). -/
def Dev.servable (d : Dev) (q : HomeReq) : Bool :=
  let pa := 128 * q.line
  (d.replayed q).isSome || (!d.reqBlocked q
    && (!q.srel || d.gateOpen ⟨q.rank, q.part, q.prank, q.slot, q.seq, q.scope, none⟩)
    && (match q.kind with
      | .unlease _ _ _ | .uocBack _ => true
      | .load _ _ _ _ _ | .store _ | .amo _ _ _ _ _ _ _ | .lease _ _ | .satom _ _ _ | .agent _ _ => !d.leased q.line && d.uocTags q.line
      | .red fn w _ _ => !d.leased q.line && !d.acqBefore q && d.redRoom q fn w
      | .sverNext _ _ | .sverNum _ _ _ => d.sverRoom q
      | .lver _ off k _ => !newer k (d.vword (pa + off) q.home).n
      | .pver _ _ _ | .rver _ _ => true))

/-- The request that the home of a line serves next (R175): one that 4 later requests of higher classes have
passed; otherwise the highest class, oldest first. -/
def Dev.nextReq (d : Dev) (line : Nat) : Option HomeReq :=
  let ready := d.homeQ.filter fun q => q.line == line && d.servable q
  match ready.find? fun q => decide (4 ≤ q.passed) with
  | some q => some q
  | none => (List.range 5).findSome? fun c => ready.find? fun q => d.reqClass q == c + 1

/-- Requests of lower classes that arrived earlier count the one that passes them. -/
def Dev.countPassed (d : Dev) (q : HomeReq) : Dev :=
  let c := d.reqClass q
  { d with homeQ := d.homeQ.map fun o =>
      if o.line == q.line && decide (o.arr < q.arr) && decide (c < d.reqClass o) then { o with passed := o.passed + 1 } else o }

/-- Whether a line is held against an agent that arrives now (R175, R205): by a lease, by update-only copies that have no tag to return with, or
by a request that the home serves first, unless the home serves the agent in this very turn. -/
def Dev.lineHeld (d : Dev) (line : Nat) : Bool :=
  d.leased line || !d.uocTags line || (d.homeNow != some line && (d.nextReq line).isSome)

/-- The first held line of a range. -/
def Dev.rangeHeld (d : Dev) (pa n : Nat) : Option Nat := ((piecesOf pa n).find? fun p => d.lineHeld p.1).map (·.1)

/-- The place of an agent of the device that belongs to no core, among those of `HomeReq.rank`. -/
def noRank : Nat := 8192

/-- Whether a request is that of an agent, to read or to write. -/
def ReqKind.ofAgent (k : ReqKind) (a : AgentStep) : Bool := k == .agent a false || k == .agent a true

/-- An agent of core `r`, or of none, that reads or writes a line stands in the home queue of the line, once (R175). -/
def Dev.queueAgent (d : Dev) (r part line : Nat) (a : AgentStep) (write : Bool) : Dev :=
  if d.homeQ.any fun q => q.rank == r && q.line == line && q.kind == .agent a write then d
  else
    let q : HomeReq := { rank := r, slot := 16, part := part, prank := r - (d.part part).cfg.hbase, arr := d.accSeq, passed := 0, line := line, home := 0, gva := 0, large := false, seq := d.accSeq, tag := none, kind := .agent a write, cls := 3, scope := .cr, srel := false, remote := false }
    { d with homeQ := d.homeQ ++ [q], accSeq := d.accSeq + 1 }

/-- The same for the line that stopped an agent; a wait for something else than a line stands in no queue. -/
def Dev.queueHeld (d : Dev) (r part : Nat) (line : Option Nat) (a : AgentStep) (write : Bool) : Dev := match line with
  | some l => d.queueAgent r part l a write
  | none => d

/-! ### Accesses that may stop -/

/-- Why an access of an engine or of an agent of the device does not go on: a page that is not resident (R173), a held line
(R175, R205), for a read or a write, an error, a refusal by the export table (R41), or a read that another module has to answer (R42). -/
inductive EStop where
  | wait (gva : Nat) (write : Bool)
  | hold (line : Option Nat) (write : Bool)
  | fail (c : Cause) (gva : Nat)
  | poison (lo : Nat) (gva : Option Nat)   -- of the core's own memory (R54), with the GVA of a stash entry
  | refused (gva : Nat)
  | far (gva pa n : Nat) (large : Bool)
  deriving DecidableEq, Repr

/-- Such an access: with a stop the device is unchanged. -/
abbrev Eng (α : Type) := StateT Dev (Except EStop) α

def Eng.stop {α : Type} (e : EStop) : Eng α := fun _ => .error e
def Eng.upd (f : Dev → Dev) : Eng Unit := fun d => .ok ((), f d)

/-- A read by an agent of the device: it waits for a held line (R205), and poison is DATAERR (R54). The lines
it allocates are of class `other` (`noLeaf`). -/
def agRead (pa n part : Nat) : Eng Nat := fun d =>
  match d.rangeHeld pa n with
  | some l => .error (.hold (some l) false)
  | none => if d.rangePoisoned pa n then .error (.fail .dataerr 0) else .ok (d.agentRead pa n part noLeaf noPage)

/-- A write by an agent of the device: it waits for a held line, and a lost line is DATAERR (R39). -/
def agWrite (pa n x part : Nat) : Eng Unit := fun d =>
  match d.rangeHeld pa n with
  | some l => .error (.hold (some l) true)
  | none => if d.rangeLost pa n then .error (.fail .dataerr 0) else .ok ((), d.agentWrite pa n x part noLeaf noPage)

/-! ### Messages (R142, R274) -/

/-- Put a message in flight; it leaves once what its gates name is performed. -/
def Dev.send (d : Dev) (m : Msg) (gates : List Gate := []) (thread : Option (Nat × Nat × Nat) := none) : Dev :=
  { d with net := aset d.net d.netSeq ⟨m, gates, thread⟩, netSeq := d.netSeq + 1 }

/-- The sources of tags that are no cores (R198, R274; log entry 54): the hamper of a quad, the log writer of a partition, the host command
engine, the dispatcher that counts a lost task. Their numbers follow those of the cores, and `Dev.cores` holds their tags alone. -/
def srcHamper (q : Nat) : Nat := 4096 + q
def srcLog (p : Nat) : Nat := 5120 + p
def srcHost : Nat := 5184
def srcLoss : Nat := 5185

/-- A mailbox increment that the device makes itself (R198), tagged by its source (R274). `thread` names that of an `mbxadd`. With 256 requests
of its source outstanding it waits for one of their tags. -/
def Dev.post (d : Dev) (src part rank idx : Nat) (inc : HWord) (gates : List Gate := []) (thread : Option (Nat × Nat × Nat) := none) : Dev :=
  let seq := (d.core src).tagSeq
  let m := Msg.incr part rank idx inc (src, seq.toNat)
  (d.modCore src fun c => { c with
    tagSeq := seq + 1, out := aset c.out seq.toNat ⟨none, some m, none, thread, if c.tagFree then 1 else 0, false⟩ }).send m gates

/-- Whether a message may be on its way: it has no tag, or its source has sent it, or its source has a tag for it now (R274). -/
def Dev.tagged (d : Dev) : Msg → Bool
  | .incr _ _ _ _ tag => match aget? (d.core tag.1).out tag.2 with
    | some o => decide (0 < o.sends) || (d.core tag.1).tagFree
    | none => true
  | .launch _ _ _ | .frame _ _ _ => true

/-! ### Error log (R56-R59) -/

/-- A record's 256 bits (R58). -/
def ErrRec.bits (e : ErrRec) (seq : HWord) (cycle : Word) (part : Nat) : BitVec 256 :=
  seq ++ cycle ++ BitVec.ofNat 64 e.addr ++ BitVec.ofNat 8 e.kind ++ BitVec.ofNat 4 e.die ++ BitVec.ofNat 2 e.atype
    ++ BitVec.ofNat 4 e.sev ++ (0 : BitVec 1) ++ BitVec.ofNat 13 e.agent ++ BitVec.ofNat 4 e.slot ++ BitVec.ofNat 6 part
    ++ BitVec.ofNat 22 e.count ++ BitVec.ofNat 32 e.info

/-- Write one record at HEAD and advance it, then increment the error mailbox (R56). -/
def Dev.putRecord (d : Dev) (p : Nat) (e : ErrRec) (cycle : Word) : Dev :=
  let x := d.part p
  let n := 2 ^ x.cfg.eloglog2
  let d := d.agentWrite (x.cfg.elogbase + 64 + 32 * x.elogHead) 32 (e.bits x.elogSeq cycle p).toNat p noLeaf noPage
  let h := (x.elogHead + 1) % n
  let d := d.agentWrite x.cfg.elogbase 4 h p noLeaf noPage
  let d := d.modPart p fun y => { y with elogHead := h, elogSeq := y.elogSeq + 1 }
  d.post (srcLog p) p x.cfg.embxrank x.cfg.embxidx 1

def Part.elogFull (x : Part) : Bool := (x.elogHead + 1) % 2 ^ x.cfg.eloglog2 == x.elogTail

/-- The line that the log writer waits for: the header's or that of the next record, while it is held (R205). -/
def Dev.elogHeld (d : Dev) (p : Nat) : Option Nat :=
  let x := d.part p
  (d.rangeHeld x.cfg.elogbase 4).orElse fun _ => d.rangeHeld (x.cfg.elogbase + 64 + 32 * x.elogHead) 32

/-- The log writer of a partition writes its waiting records in order (R57), at most `n` steps: with no room a record is dropped and still
takes a SEQ, and the first record after space returns says how many were dropped. The spec gives that record of kind 0x0E no DIE, AGENT, SLOT,
SEV and CYCLE: it takes those of the record that waits, with SEV 0 (DESIGN CHOICE, log entry 56). A corrected error that still merges holds its
place. -/
def Dev.pumpLog (d : Dev) (p : Nat) : Nat → Dev
  | 0 => d
  | n + 1 => match (d.part p).elogQ with
    | [] => d
    | e :: rest =>
      let pop (d : Dev) : Dev := d.modPart p fun y => { y with elogQ := rest }
      if e.merging then d
      else if (d.part p).elogFull then
        ((pop d).modPart p fun y => { y with elogDrops := y.elogDrops + 1, elogSeq := y.elogSeq + 1 }).pumpLog p n
      else match d.elogHeld p with
      | some l => d.queueAgent noRank p l (.log p) true
      | none =>
        if (d.part p).elogDrops = 0 then ((pop d).putRecord p e.err e.cycle).pumpLog p n
        else
          let lost : ErrRec := { e.err with kind := 0x0E, atype := 0, addr := 0, count := (d.part p).elogDrops, info := 0, sev := 0 }
          ((d.putRecord p lost e.cycle).modPart p fun y => { y with elogDrops := 0 }).pumpLog p n

/-- As much of a partition's log as can be written now. -/
def Dev.writeLog (d : Dev) (p : Nat) : Dev := d.pumpLog p (2 * (d.part p).elogQ.length + 1)

/-- A record reaches the log writer of a partition, with CYCLE at its detection (R57, R58). -/
def Dev.logPart (d : Dev) (p : Nat) (e : ErrRec) : Dev :=
  (d.noteRecord p e).writeLog p

/-- A record for Flojo's own log, for errors of no partition (R56). The spec gives its PART and its SEQ no rule: PART is 0, and SEQ counts
from 0 (log entry 56). -/
def Dev.logFlojo (d : Dev) (e : ErrRec) : Dev :=
  { d with flojoLog := d.flojoLog ++ [e.bits (BitVec.ofNat 32 d.flojoLog.length) (d.dieCycle e.die) 0] }

def Dev.log (d : Dev) (p : Option Nat) (e : ErrRec) : Dev :=
  match p with
  | some p => d.logPart p e
  | none => d.logFlojo e

/-- A corrected error (R57): it takes its place among the records at its detection, or joins the record of its kind and address while the
merging interval lasts. Corrected errors of memories that no ADDR names (local store, TLB, queue) all have ADDR 0, and so merge whatever core
they come from: R57 compares kind and address alone (DESIGN CHOICE, log entry 56). -/
def Dev.logCorrected (d : Dev) (p : Option Nat) (e : ErrRec) : Dev :=
  let same (x : ErrRec) : Bool := x.kind == e.kind && x.addr == e.addr
  match d.corr.find? fun c => c.part == p && c.kind == e.kind && c.addr == e.addr, p with
  | some _, some p =>
    let join (l : LogEnt) : LogEnt := if l.merging && same l.err then { l with err := { l.err with count := l.err.count + 1 } } else l
    d.modPart p fun y => { y with elogQ := y.elogQ.map join }
  | some c, none => { d with flojoLog := d.flojoLog.modify c.at_ (· + BitVec.ofNat 256 (2 ^ 32)) }
  | none, some p =>
    let d' : Dev := { d with corr := d.corr ++ [⟨some p, e.kind, e.addr, 0⟩] }
    d'.modPart p fun y => { y with elogQ := y.elogQ ++ [⟨e, d.dieCycle e.die, true⟩] }
  | none, none =>
    let d' : Dev := { d with corr := d.corr ++ [⟨none, e.kind, e.addr, d.flojoLog.length⟩] }
    d'.logFlojo e

/-- The merging interval of the oldest corrected error passes: its record can be written. -/
def Dev.flushCorrected (d : Dev) : Dev :=
  match d.corr with
  | [] => d
  | c :: t => match c.part with
    | some p =>
      let close (l : LogEnt) : LogEnt :=
        if l.merging && l.err.kind == c.kind && l.err.addr == c.addr then { l with merging := false } else l
      ({ d with corr := t }.modPart p fun y => { y with elogQ := y.elogQ.map close }).writeLog p
    | none => { d with corr := t }

/-- Poison consumed by an access of a thread: a record of kind 0x07 with the partition's own address (R54). -/
def Dev.logPoison (d : Dev) (part rank slot gva : Nat) : Dev :=
  d.logPart part ⟨0x07, d.dieOf rank, 1, gva, 2, rank, slot, 0, 1⟩

/-- Poison consumed by an agent of the device at a home slice, on memory that no GVA names: a record with the PA (R54). -/
def Dev.logAgentPoison (d : Dev) (part slice pa : Nat) : Dev :=
  d.logPart part ⟨0x07, baseDie slice, 2, pa, 2, 4096 + slice, 15, 0, 1⟩

/-- Poison of a core's local store or tile memory consumed by a thread: the bytes of a stash entry have a GVA, and no address of R58 names any other
(log entry 57). -/
def Dev.logLocalPoison (d : Dev) (part rank slot : Nat) (gva : Option Nat) : Dev := match gva with
  | some g => d.logPoison part rank slot g
  | none => d.logPart part ⟨0x07, d.dieOf rank, 0, 0, 2, rank, slot, 0, 1⟩

/-- A register that fails its parity: a record of kind 0x02 (R54, R59). -/
def Dev.logParity (d : Dev) (part rank slot : Nat) : Dev :=
  d.logPart part ⟨0x02, d.dieOf rank, 0, 0, 1, rank, slot, 0, 1⟩

/-! ### An instruction that stops -/

/-- The instruction of slot `k` of core `r` stops without effect; an error is recorded (R54). A parked one keeps the mark of its first execution
(R194), and one that reads at once waits in the home queue of the line that is held (R175). -/
def Dev.stopAt (d : Dev) (r k : Nat) : Stop → Dev
  | .trap t => d.trap r k t
  | .parity => (d.logParity (d.slot r k).part r k).trap r k ⟨.dataerr, 0⟩
  | .poison lo g => (d.logLocalPoison (d.slot r k).part r k g).trap r k ⟨.dataerr, BitVec.ofNat 64 lo⟩
  | .consumed gva => (d.logPoison (d.slot r k).part r k gva).trap r k ⟨.dataerr, BitVec.ofNat 64 gva⟩
  | .park (.walk gva w e) =>
    (d.askWalk (r / 4) (d.slot r k).part (gva / 65536)).modSlot r k fun s => { s with wait := .walk gva w e, fresh := none }
  | .park (.peek l m) =>
    let d := d.queueAgent r (d.slot r k).part l (.peek k) false
    d.modSlot r k fun s =>
      { s with wait := .peek l m, opMark := some (s.opMark.getD d.accSeq), turns := s.turns.filter (· != l), fresh := none }
  | .park w => d.modSlot r k fun s => { s with wait := w, opMark := some (s.opMark.getD d.accSeq), fresh := none }

end Sys2Proof.Machine
end

