-- ==== Sys2Proof/Machine/Translate.lean ====
section
/-! DEFINITION. Segments (R152-R154), the page table and its walk (R156-R160), twin regions (R161), TLBs and coalescing (R163-R166),
and faults on non-resident pages with the hamper (R168-R173). -/

namespace Sys2Proof.Machine

/-! ### Segments -/

/-- The rights that an access requires of its segment (R154). -/
structure SegNeed where
  r : Bool := false
  w : Bool := false
  x : Bool := false
  v : Bool := false
  p : Bool := false
  l0 : Bool := false             -- the segment must have L = 0
  deriving DecidableEq, Repr

/-- `seg_check` (R153): SEGV, then SEGPERM; otherwise the GVA or local offset. SADDR is the offset that failed (R253). -/
def segCheck (s : SegImage) (off : Word) (size : Nat) (n : SegNeed) : Chk Nat := do
  ensure (decide (off.toNat + size ≤ segLimit s) && (segL s || decide (segBase s + off.toNat + size ≤ 2 ^ 48))) .segv off
  ensure (!(n.r && !segR s) && !(n.w && !segW s) && !(n.x && !segX s) && !(n.v && !segV s) && !(n.p && !segP s)
    && !(n.l0 && segL s)) .segperm off
  .ok (segBase s + off.toNat)

/-! ### Leaf entries (R159) -/

def leafValid (e : Word) : Bool := e.getLsbD 63
def leafRd (e : Word) : Bool := e.getLsbD 62
def leafWr (e : Word) : Bool := e.getLsbD 61
def leafEx (e : Word) : Bool := e.getLsbD 60
def leafUser (e : Word) : Bool := e.getLsbD 59
def leafHomed (e : Word) : Bool := e.getLsbD 56
def leafTier (e : Word) : Bool := e.getLsbD 55
def leafVers (e : Word) : Bool := e.getLsbD 54
def leafRemote (e : Word) : Bool := e.getLsbD 53
def leafAcc (e : Word) : Bool := e.getLsbD 52
def leafDirty (e : Word) : Bool := e.getLsbD 51
def leafPa (e : Word) : Nat := (e.extractLsb' 16 30).toNat * 65536

/-- A leaf entry that the walker takes as valid: VALID, no reserved bit, HSLICE reserved without HOMED, and PA[20:16] = 0 in a large
leaf (R156, R159). -/
def leafOk (large : Bool) (e : Word) : Bool :=
  leafValid e && e.extractLsb' 46 5 == 0 && e.extractLsb' 0 6 == 0 && (leafHomed e || e.extractLsb' 6 10 == 0)
    && (!large || e.extractLsb' 16 5 == 0)

/-! ### The walk (R156-R158) -/

/-- What a walk finds: the leaf entry that loads use and its PA, and in a twin region the entry of the back copy and its PA. -/
structure Walked where
  large : Bool
  twin : Bool
  leaf : Word
  leafAt : Nat
  back : Word
  backAt : Nat
  deriving DecidableEq, Repr

/-- The base of a partition's page-table region: the first 8 MiB of its physical range 0, which must be valid, writable and that
long (R156). -/
def PartRec.tableBase (c : PartRec) : Option Nat :=
  match c.ranges with
  | r :: _ => if r.valid && !r.rdonly && decide (r.base + 128 ≤ r.limit) then some (65536 * r.base) else none
  | [] => none

/-- A pointer to a table of `size` bytes that must lie inside the region. -/
def tableAt (base ptr size : Nat) : Option Nat :=
  let p := ptr / size * size
  if base ≤ p ∧ p + size ≤ base + 0x800000 then some p else none

/-- The table reads of a walk are reads of a device agent. -/
def pte (part a : Nat) : Eng Word := do pure (BitVec.ofNat 64 (← agRead a 8 part))

/-- The table below an entry of level A or B, when the entry is valid (R157). -/
def tableBelow (base : Nat) (e : Word) : Option Nat :=
  if e.getLsbD 63 && e.extractLsb' 46 17 == 0 && e.extractLsb' 0 11 == 0 then tableAt base ((e.extractLsb' 0 46).toNat) 2048 else none

/-- The address of the level-C directory entry of a GVA, when the levels above it are valid (R157). -/
def dirAt (part gva : Nat) : Eng (Option Nat) := do
  match ((← get).part part).cfg.tableBase with
  | none => pure none
  | some base =>
    match tableBelow base (← pte part (base + 8 * bits gva 47 39)) with
    | none => pure none
    | some tb =>
      match tableBelow base (← pte part (tb + 8 * bits gva 38 31)) with
      | none => pure none
      | some tc => pure (some (tc + 8 * bits gva 30 23))

/-- A directory entry that the walker takes as valid (R158): its SIZE, TWIN and FRONT bits and the PA of its leaf. -/
def dirLeaf (base : Nat) (c : Word) : Option (Bool × Bool × Bool × Nat) :=
  if c.getLsbD 63 && c.extractLsb' 46 14 == 0 && c.extractLsb' 0 5 == 0 then
    let large := c.getLsbD 62
    let twin := c.getLsbD 61
    let size := (if large then 32 else 1024) * (if twin then 2 else 1)
    (tableAt base ((c.extractLsb' 0 46).toNat) size).map fun p => (large, twin, c.getLsbD 60, p)
  else none

/-- `walk(partition, gva)` (R157, R160): none when an entry of any level is not valid. The validity of the leaf entries is checked by the
access that uses one. -/
def walk (part gva : Nat) : Eng (Option Walked) := do
  match ← dirAt part gva with
  | none => pure none
  | some a =>
    match dirLeaf (((← get).part part).cfg.tableBase.getD 0) (← pte part a) with
    | none => pure none
    | some (large, twin, front, p) =>
      let i := if large then bits gva 22 21 else bits gva 22 16
      if twin then
        let f := p + 8 * (2 * i + (if front then 1 else 0))
        let b := p + 8 * (2 * i + (if front then 0 else 1))
        pure (some ⟨large, true, ← pte part f, f, ← pte part b, b⟩)
      else pure (some ⟨large, false, ← pte part (p + 8 * i), p + 8 * i, 0, 0⟩)

/-! ### What an access asks of a page -/

/-- An access, for the checks of R160 and R161. -/
structure Access where
  read : Bool := false
  write : Bool := false
  exec_ : Bool := false
  user : Bool := true
  versioned : Bool := false
  lease : Bool := false
  twinOk : Bool := false         -- may use a twin region: loads, fetches, `smap` (front) and engine writes (back)
  twinOnly : Bool := false       -- an engine write: must use one, and takes its back copy (R161)
  remoteOk : Bool := false       -- allowed through a REMOTE mapping (R42)
  deriving DecidableEq, Repr

/-- The leaf entry under which an access through a REMOTE mapping of the module itself is made at its target: the home is computed there, and not
named by the source's entry (R41, R174). -/
def targetLeaf (leaf : Word) : Word := leaf &&& ~~~(BitVec.ofNat 64 (2 ^ 56 + 1023 * 2 ^ 6))

/-- A translation that passed every check. -/
structure Trans where
  pa : Nat
  leaf : Word
  remote : Bool
  twin : Bool
  gva : Nat
  large : Bool
  deriving DecidableEq, Repr

/-- The translation of the PA that the export table gives for an access (R41). -/
def Trans.at_ (t : Trans) (pa : Nat) : Trans := { t with pa := pa, leaf := targetLeaf t.leaf }

/-- The page of a translation. -/
def Trans.pg (t : Trans) : PageId := ⟨t.gva / 65536, t.large⟩

/-- The member of a twin pair that an access uses. -/
def TlbEntry.member (e : TlbEntry) (a : Access) : Word := if a.twinOnly then e.back else e.leaf

/-- The PA of a byte through a leaf entry (R160). -/
def leafAddr (large : Bool) (leaf : Word) (gva : Nat) : Nat :=
  if large then leafPa leaf / 2 ^ 21 * 2 ^ 21 + gva % 2 ^ 21 else leafPa leaf + gva % 65536

/-- Whether a leaf lacks a right that the access needs (R164). -/
def lacksRight (leaf : Word) (a : Access) : Bool :=
  (a.read && !leafRd leaf) || (a.write && !leafWr leaf) || (a.exec_ && !leafEx leaf) || (a.user && !leafUser leaf)

/-- The range of a partition that holds a PA. -/
def PartRec.rangeOf (c : PartRec) (pa : Nat) : Option PRange :=
  c.ranges.find? fun r => r.valid && decide (65536 * r.base ≤ pa) && decide (pa < 65536 * r.limit)

/-- The checks of R160 after validity, with R42 and R161, in order: none when the access may go on. -/
def pageCheck (c : PartRec) (leaf : Word) (large twin : Bool) (a : Access) (gva : Nat) : Option Cause :=
  let pa := leafAddr large leaf gva
  if leafRemote leaf then
    if !a.remoteOk || twin || leafVers leaf then some .perm
    else if lacksRight leaf a then some .perm else none
  else match c.rangeOf pa with
    | none => some .perm
    | some r =>
      if a.write && r.rdonly then some .perm
      else if leafTier leaf != isLp pa then some .perm
      else if lacksRight leaf a then some .perm
      else if twin && !a.twinOk then some .perm
      else if a.twinOnly && !twin then some .perm
      else if leafVers leaf && a.lease then some .lease
      else if leafVers leaf != a.versioned then some .vers
      else none

/-! ### TLBs -/

def TlbEntry.covers (e : TlbEntry) (part page : Nat) : Bool :=
  e.part == part && (if e.large then e.page / 32 == page / 32 else e.page == page)

/-- The translation that the core's or the quad's TLB holds of a page (R163). -/
def Dev.tlbFind (d : Dev) (r part page : Nat) : Option TlbEntry :=
  ((d.core r).tlb.find? (·.covers part page)).orElse fun _ => (d.quad (r / 4)).tlb.find? (·.covers part page)

/-- Whether a leaf entry that a TLB holds serves an access (R164, R165): valid, with every right that the access needs, ACC set when it was
installed, and DIRTY for a write. -/
def leafServes (large : Bool) (leaf : Word) (a : Access) : Bool :=
  leafOk large leaf && !lacksRight leaf a && leafAcc leaf && (!a.write || leafDirty leaf)

/-- A thread's translation of one byte (R160, R163-R166). A miss, a missing right, or a write through an entry installed while DIRTY
was clear asks for a walk; after that walk for this very access a right still missing raises PERM. -/
def Dev.translate (d : Dev) (a : Access) (gva : Nat) : Chk Trans :=
  let s := d.th
  let page := gva / 65536
  let fresh := s.fresh == some (page, a.write, a.exec_)
  match d.tlbFind d.cur.1 s.part page with
  | none => park (.walk gva a.write a.exec_)
  | some e =>
    let leaf := e.member a
    if !fresh && !leafServes e.large leaf a then park (.walk gva a.write a.exec_)
    else match pageCheck (d.part s.part).cfg leaf e.large e.twin a gva with
      | some c => raise c (BitVec.ofNat 64 gva)
      | none => .ok ⟨leafAddr e.large leaf gva, leaf, leafRemote leaf, e.twin, gva, e.large⟩

/-- The mode of the thread's accesses (R160): supervisor accesses ignore USER. -/
def Dev.user (d : Dev) : Bool := !d.th.mode

/-- Translate a range that may cover two pages, lower page first; the pieces with their offsets in the range (R268). -/
def Dev.translateRange (d : Dev) (a : Access) (gva n : Nat) : Chk (List (Trans × Nat × Nat)) := do
  let first := min n (65536 - gva % 65536)
  let t ← d.translate a gva
  if first < n then
    let u ← d.translate a (gva + first)
    .ok [(t, 0, first), (u, first, n - first)]
  else .ok [(t, 0, n)]

/-! ### Faults on non-resident pages -/

/-- Partitions present in a quad (R168): resident, with a rank of the quad in their interval. -/
def Dev.presentIn (d : Dev) (q : Nat) : List Nat :=
  (d.parts.filter fun p =>
    p.2.st == .resident && decide (p.2.cfg.hbase < 4 * q + 4) && decide (4 * q < p.2.cfg.hbase + p.2.cfg.hlen)).map (·.1)

/-- The pager notice of the hamper of quad `q`: +1 to the partition's pager mailbox (R171). -/
def Dev.pagerPost (d : Dev) (q part : Nat) : Dev :=
  let c := (d.part part).cfg
  d.post (srcHamper q) part c.pmbxrank c.pmbxidx 1

/-- A not-valid translation at the hamper of quad `q` (R168): it joins an entry, takes a free one, or sets the dropped flag. -/
def Dev.hamperFault (d : Dev) (q part page : Nat) (write exec_ : Bool) : Dev :=
  let x := d.quad q
  if x.hamper.any fun h => h.part == part && h.page == page then
    d.setQuad q { x with hamper := x.hamper.map fun h =>
      if h.part == part && h.page == page then
        { h with waiters := min (h.waiters + 1) 65535, write := h.write || write, exec_ := h.exec_ || exec_ }
      else h }
  else
    let free := 8 - x.hamper.length
    let lacking := ((d.presentIn q).filter fun p => !x.hamper.any (·.part == p)).length
    let mine := x.hamper.any (·.part == part)
    if 0 < free && (!mine || decide (lacking < free)) then
      let idx := ((List.range 8).find? fun i => !x.hamper.any (·.idx == i)).getD 0
      (d.setQuad q { x with hamper := x.hamper ++ [⟨idx, part, page, write, exec_, 1⟩] }).pagerPost q part
    else if x.dropped.contains part then d
    else (d.setQuad q { x with dropped := x.dropped ++ [part] }).pagerPost q part

/-- A user thread that met a not-valid page parks, or upcalls to UVEC (R170); a supervisor access raises PERM (R160). -/
def Dev.pageFault (d : Dev) (r k gva : Nat) (write exec_ : Bool) : Dev :=
  let s := d.slot r k
  if s.mode then d.trap r k ⟨.perm, BitVec.ofNat 64 gva⟩
  else
    let d := d.hamperFault (r / 4) s.part (gva / 65536) write exec_
    if s.uvec = 0 || s.uact then d.modSlot r k fun s => { s with wait := .fault gva }
    else
      let d := d.modSlot r k fun s => if s.unote.getLsbD 6 then { s with npend := true } else s
      d.modSlot r k fun s =>
        if s.pend.isEmpty then s.enterPage (BitVec.ofNat 64 gva) else { s with wait := .upcallDue (BitVec.ofNat 64 gva) }

/-- The walker sets ACC, and DIRTY for a write, with an atomic OR at the entry's home (R165). -/
def markLeaf (part at_ : Nat) (leaf : Word) (write : Bool) : Eng Word := do
  let leaf' := leaf ||| BitVec.ofNat 64 (2 ^ 52) ||| (if write then BitVec.ofNat 64 (2 ^ 51) else 0)
  if leaf' = leaf then pure leaf
  else
    agWrite at_ 8 leaf'.toNat part
    pure leaf'

/-- Whether a walk is under way for slot `k` of core `r`: its wait is no park of R116 (R166, R387). -/
def Dev.walking (d : Dev) (r k : Nat) : Bool :=
  let s := d.slot r k
  match s.wait with
  | .walk gva _ _ => (d.quad (r / 4)).coal.contains (s.part, gva / 65536)
  | _ => false

/-- The waiters of a walk: slots of the quad parked on the page, or on its 2 MiB page (R163). -/
def Dev.walkWaiters (d : Dev) (q part page : Nat) (large : Bool) : List (Nat × Nat × Nat × Bool × Bool) :=
  ((List.range 4).flatMap fun i => (List.range 16).map fun k => (4 * q + i, k)).filterMap fun (r, k) =>
    let s := d.slot r k
    match s.wait with
    | .walk gva w e =>
      let p := gva / 65536
      if s.part = part && (if large then p / 32 == page / 32 else p == page) then some (r, k, gva, w, e) else none
    | _ => none

/-- Install a translation in a TLB of `n` entries, in place of any older one of the page. -/
def tlbPut (n : Nat) (l : List TlbEntry) (e : TlbEntry) : List TlbEntry :=
  (e :: l.filter fun x => !(x.part == e.part && (if x.large || e.large then x.page / 32 == e.page / 32 else x.page == e.page))).take n

/-- The LP frames that the leaf entries of a walk map (R181): a 2 MiB page counts on its first frame (R178), and both members of a twin pair map
theirs. -/
def Dev.noteWalk (d : Dev) (part page : Nat) (w : Walked) : Dev :=
  let id : PageId := if w.large then ⟨page / 32 * 32, true⟩ else ⟨page, false⟩
  let frame (e : Word) : Nat := if w.large then leafPa e / 2 ^ 21 * 32 else leafPa e / 65536
  ((w.leaf :: if w.twin then [w.back] else []).filter fun e => leafOk w.large e && !leafRemote e && isLp (leafPa e)).foldl
    (fun d e => d.noteFrame part id (frame e)) d

/-- What a completed walk installs (R163-R165): the entry, with ACC set in the member that is used, and DIRTY when one of the writes that the walk
serves may go on; none for a leaf entry that is not valid. `writes large` holds their GVAs, for a page of that size. -/
def walkEntry (part page : Nat) (back : Bool) (writes : Bool → List Nat) : Eng (Option TlbEntry) := do
  match ← walk part (65536 * page) with
  | none => pure none
  | some w =>
    let back := back && w.twin
    let leaf := if back then w.back else w.leaf
    if !leafOk w.large leaf then pure none
    else
      let c := ((← get).part part).cfg
      let write := leafWr leaf && (writes w.large).any fun g => leafRemote leaf || !(c.rangeOf (leafAddr w.large leaf g)).any (·.rdonly)
      let leaf ← markLeaf part (if back then w.backAt else w.leafAt) leaf write
      Eng.upd fun d => d.noteWalk part page w
      pure (some ⟨part, if w.large then page / 32 * 32 else page, w.large, w.twin, if back then w.leaf else leaf, if back then leaf else w.back,
        decide (w.backAt < w.leafAt)⟩)

/-- The live coalescing entries of a quad without that of a completed walk. -/
def Dev.closeWalk (d : Dev) (q part page : Nat) (large : Bool) : Dev :=
  d.modQuad q fun x => { x with
    coal := x.coal.filter fun c => !(c.1 == part && (if large then c.2 / 32 == page / 32 else c.2 == page)) }

/-- A quad walker completes the walk of page `page` for partition `part` (R160, R163-R166): it installs the translation, sets ACC and
DIRTY and lets the waiters go on, or it records the fault of each waiter. Poison in the table is DATAERR for each of them (R54), and a held
table line makes the walk wait in its home queue (R175, R205). -/
def Dev.completeWalk (d : Dev) (q part page : Nat) : Dev :=
  let writes (large : Bool) : List Nat := ((d.walkWaiters q part page large).filter fun x => x.2.2.2.1).map fun x => x.2.2.1
  match walkEntry part page false writes d with
  | .error (.hold l w) => d.queueHeld noRank part l (.walk q part page) w
  | .error _ => ((d.walkWaiters q part page false).foldl (fun d x =>
      (d.logPoison part x.1 x.2.1 x.2.2.1).trap x.1 x.2.1 ⟨.dataerr, BitVec.ofNat 64 x.2.2.1⟩) d).closeWalk q part page false
  | .ok (none, d) =>
    (d.walkWaiters q part page false).foldl (fun d x => d.pageFault x.1 x.2.1 x.2.2.1 x.2.2.2.1 x.2.2.2.2) (d.closeWalk q part page false)
  | .ok (some e, d) =>
    let ws := d.walkWaiters q part page e.large
    let d := (d.closeWalk q part page e.large).modQuad q fun x => { x with tlb := tlbPut 2048 x.tlb e }
    ws.foldl (fun d x =>
      let (r, k, gva, w, ex) := x
      (d.modCore r fun c => { c with tlb := tlbPut 64 c.tlb e }).modSlot r k fun s =>
        { s with wait := .none, fresh := some (gva / 65536, w, ex) }) d

/-! ### Engine accesses (R161, R163, R173) -/

/-- The quad whose TLB and walkers serve an agent of the device that sits at no core (log entry 59): that of the partition's first rank. -/
def Dev.homeQuad (d : Dev) (part : Nat) : Nat := (d.part part).cfg.hbase / 4

/-- The translation that quad `q` holds or finds for an engine: a miss while the page is walked for, or while 32 walks are under way, waits
(R163); otherwise its own walk installs the entry. None for a page that is not resident. -/
def engEntry (q part : Nat) (a : Access) (gva : Nat) : Eng (Option TlbEntry) := do
  let page := gva / 65536
  let x := (← get).quad q
  match x.tlb.find? (·.covers part page) with
  | some e => if leafServes e.large (e.member a) a then return some e
  | none => pure ()
  if x.coal.contains (part, page) || 32 ≤ x.coal.length then Eng.stop (.hold none false)
  match ← walkEntry part page a.twinOnly (fun _ => if a.write then [gva] else []) with
  | some e =>
    Eng.upd fun d => d.modQuad q fun x => { x with tlb := tlbPut 2048 x.tlb e }
    return some e
  | none => return none

/-- An engine's translation through quad `q` (R160, R163): user rights unless `a.user` is false. A not-valid page is reported to the caller,
which joins the hamper of its quad when it waits (R173). -/
def engTrans (q part : Nat) (a : Access) (gva : Nat) : Eng Trans := do
  match ← engEntry q part a gva with
  | none => Eng.stop (.wait gva a.write)
  | some e =>
    let leaf := e.member a
    match pageCheck ((← get).part part).cfg leaf e.large e.twin a gva with
    | some c => Eng.stop (.fail c gva)
    | none => pure ⟨leafAddr e.large leaf gva, leaf, leafRemote leaf, e.twin, gva, e.large⟩

end Sys2Proof.Machine
end

