-- ==== Sys2Proof/Machine/Operands.lean ====
section
/-! DEFINITION. Every operand form that names memory: local offsets of a task or a guest (R129, R130, R146), stash entries (R131, R132),
tiles (R94, R135, R318, R326), global bytes through the write buffer, the L1 and the home (R123, R188, R189), leases (R279), and
release and acquire (R193-R196). -/

namespace Sys2Proof.Machine

def blockBytes : Nat := 32768
def tileBase : Nat := 0x80000
def tileEnd : Nat := 0xC0000

/-! ### Tasks and windows -/

/-- The task whose thread sits in home slot `k`. -/
def Core.taskOf (c : Core) (k : Nat) : Option Task := c.tasks.find? fun t => !t.ended && t.slots.contains k
/-- The task that declared guest slot `k`, and the guest slot's index in it. -/
def Core.hostTask (c : Core) (k : Nat) : Option (Task × Nat) :=
  (c.tasks.find? fun t => t.guestSlots.contains k).map fun t => (t, t.guestSlots.findIdx (· == k))

/-- The core state of a partition rank: its saved context, or the core that it runs on. -/
def Dev.rankCore (d : Dev) (part rank : Nat) : Core :=
  match aget? (d.part part).ctx rank with
  | some c => c.core
  | none => d.core ((d.part part).devRank rank)

/-- Change the core state of a partition rank, on its core or in its saved context. -/
def Dev.modRank (d : Dev) (part rank : Nat) (f : Core → Core) : Dev :=
  match aget? (d.part part).ctx rank with
  | some c => d.modPart part fun p => { p with ctx := aset p.ctx rank { c with core := f c.core } }
  | none => d.modCore ((d.part part).devRank rank) f

/-- Whether the home core of a thread is saved, while the thread runs as a guest. -/
def Dev.homeSaved (d : Dev) (r k : Nat) : Bool :=
  let s := d.slot r k
  s.guest && (aget? (d.part s.part).ctx s.hrank).isSome

/-- The home core and home slot of slot `k` of core `r` (R126 HRANK, HSLOT). -/
def Dev.homeOf (d : Dev) (r k : Nat) : Nat × Nat :=
  let s := d.slot r k
  if s.guest then ((d.part s.part).devRank s.hrank, s.hslot) else (r, k)

/-- A task as a thread sees it whose task registers came from its saved image (R113): the window that its LSCFG gives ends with the local store. -/
def Task.seenWith (t : Task) (o : TaskRegs) : Task :=
  let room := 12 - t.base
  let scratch := min (o.lscfg.extractLsb' 0 4).toNat room
  { t with
    index := o.tidx.toNat, group := o.grpid.toNat
    desc := { t.desc with
      tilemask := o.tilemask, queue := o.stream, scratch := scratch, stash := min (o.lscfg.extractLsb' 4 4).toNat (room - scratch) } }

/-- The thread's task, at its home core. -/
def Dev.task (d : Dev) (r k : Nat) : Option Task :=
  let h := d.homeOf r k
  let t := (if d.homeSaved r k then d.rankCore (d.slot r k).part (d.slot r k).hrank else d.core h.1).taskOf h.2
  match (d.slot r k).own with
  | some o => t.map fun t => t.seenWith o
  | none => t

def Task.s (t : Task) : Nat := t.desc.scratch * blockBytes
def Task.t (t : Task) : Nat := t.desc.stash * blockBytes
def Task.origin (t : Task) : Nat := t.base * blockBytes
def Task.hasTile (t : Task) (k : Nat) : Bool := t.desc.tilemask.getLsbD k

/-! ### Releases (R194) -/

/-- The gate of a release that the thread makes now. -/
def Dev.gateNow (d : Dev) (scope : MemScope) : Gate := d.gateAt d.cur.1 d.cur.2 d.accSeq scope none

/-- The gate of a waiting instruction: the mark that it took when it first executed, so that later stores of sibling threads do not
hold it. -/
def Dev.gateWaiting (d : Dev) (scope : MemScope) : Gate := d.gateAt d.cur.1 d.cur.2 (d.th.opMark.getD d.accSeq) scope none

/-- The instruction waits until a release is complete. -/
def Dev.behind (d : Dev) (g : Gate) : Chk Unit := if d.gateOpen g then .ok () else park (.release g)

/-- The gate of the thread's earlier `fence.rel`, if there is one. -/
def Dev.relGate (d : Dev) : List Gate := (d.th.relMark.map fun p => d.gateAt d.cur.1 d.cur.2 p.1 p.2 none).toList

/-- Stores, messages and engine requests of a thread stand behind its earlier `fence.rel` (R196). -/
def Dev.relHeld (d : Dev) : Chk Unit :=
  match d.th.relMark with
  | some (m, sc) => d.behind (d.gateAt d.cur.1 d.cur.2 m sc none)
  | none => .ok ()

/-- Memory accesses of a thread stand behind its earlier acquiring reads (R194). -/
def Dev.acqHeld (d : Dev) : Chk Unit := if d.th.acqPid.isEmpty then .ok () else park .acquire

/-- An acquire of a scope wider than the core drops the plain copies of the core's L1 (R194). -/
def Dev.acquireAt (d : Dev) (r : Nat) (scope : MemScope) : Dev :=
  match scope with
  | .cr => d
  | .pkg | .pod | .sys => d.modCore r fun c => { c with l1d := [] }
def Dev.acquire (d : Dev) (scope : MemScope) : Dev := d.acquireAt d.cur.1 scope

/-- The next stamp. -/
def Dev.stamp (d : Dev) : Dev := { d with accSeq := d.accSeq + 1 }

/-! ### Local bytes (R129-R131, R146) -/

/-- Where a thread's local bytes lie in its core's local memory: SEGV for a range that is neither wholly in scratch and stash nor wholly
in tile memory, or for a guest not wholly below 8,192 (R130, R146). -/
def Dev.localAt (d : Dev) (lo n : Nat) : Chk Nat :=
  let s := d.th
  let inTiles := decide (tileBase ≤ lo) && decide (lo + n ≤ tileEnd)
  if inTiles then .ok lo
  else if s.guest then
    if lo + n ≤ 8192 then
      match d.curCore.hostTask d.cur.2 with
      | some (t, i) => .ok (t.origin + t.s + t.t + 8192 * i + lo)
      | none => raise .segv (BitVec.ofNat 64 lo)
    else raise .segv (BitVec.ofNat 64 lo)
  else match d.task d.cur.1 d.cur.2 with
    | some t => if lo + n ≤ t.s + t.t then .ok (t.origin + lo) else raise .segv (BitVec.ofNat 64 lo)
    | none => raise .segv (BitVec.ofNat 64 lo)

/-- The tiles that a physical local range touches. -/
def tilesOf (a n : Nat) : List Nat :=
  if tileBase ≤ a && decide (0 < n) then
    let f := (a - tileBase) / 4096
    (List.range ((a + n - 1 - tileBase) / 4096 + 1 - f)).map (· + f)
  else []

def Core.tileLocked (c : Core) (k : Nat) : Bool := c.mxq.any (·.dests.contains k)
def Core.ladderLocked (c : Core) (lx : Nat) : Bool := c.mxq.any (·.lx == some lx)
/-- The ladder that owns a tile (R326). -/
def Core.tileOwner (c : Core) (k : Nat) : Option (Nat × Ladder) := c.ladders.find? fun p => p.2.owned.contains k

/-- Step 10 of R255 for tiles: PERM for a guest, or for a tile outside TILEMASK (R94, R146); SADDR is the local offset. -/
def Dev.tilePerm (d : Dev) (lo a n : Nat) : Chk Unit :=
  (tilesOf a n).forM fun k =>
    ensure (!d.th.guest && (d.task d.cur.1 d.cur.2).any (·.hasTile k)) .perm (BitVec.ofNat 64 lo)

/-- Tile locks and marks (R135, R318, R326): a locked tile, or for a load a tile of a locked ladder, makes the thread wait; a failed
tile raises its recorded cause; a store to a tile that a ladder owns raises LADDER. -/
def Dev.tileReady (d : Dev) (a n : Nat) (store : Bool) : Chk Unit :=
  (tilesOf a n).forM fun k => do
    match d.curCore.tileOwner k with
    | some (lx, _) =>
      if store then raise .ladder 0
      else if d.curCore.ladderLocked lx then park (.tile k) else pure ()
    | none => pure ()
    if d.curCore.tileLocked k then park (.tile k)
    match aget? d.curCore.tileFail k with
    | some e => raise e.cause e.gva
    | none => pure ()

/-- The stash entries that a physical local range touches, with their state; none for PLAIN bytes. -/
def Core.entriesOf (c : Core) (a n : Nat) : List (Nat × StashEntry) :=
  if tileBase ≤ a then []
  else (piecesOf a n).filterMap fun p => (aget? c.stash p.1).map fun e => (p.1, e)

/-- Whether an earlier access of the thread to bytes of a line, through a global segment, is still on its way (R189). -/
def Dev.lineBusy (d : Dev) (r k line : Nat) (mask : BitVec 128) : Bool :=
  d.homeQ.any (·.touches r k line mask) || d.sidelined.any (·.touches r k line mask)
    || (d.core r).wb.any fun e => e.line == line && !e.wback && e.slots.contains k && (e.mask &&& mask) != 0

/-- A store into a read-only stash entry raises PERM (R272), at step 10 of R255; SADDR is the local offset. -/
def Dev.stashPerm (d : Dev) (lo a n : Nat) (store : Bool) : Chk Unit :=
  (d.curCore.entriesOf a n).forM fun (_, e) => ensure (!(store && e.st != .mapped && e.ro)) .perm (BitVec.ofNat 64 lo)

/-- The MAPPED entries that a local access touches are translated for a load, at step 11 of R255; the fill decides again whether the entry is
read-only, and a store that finds it so raises PERM (R272). -/
def Dev.stashTrans (d : Dev) (lo a n : Nat) (store : Bool) : Chk Unit :=
  (d.curCore.entriesOf a n).forM fun (_, e) =>
    if e.st = .mapped then do
      let t ← d.translate { read := true, user := d.user, twinOk := true } e.gva
      ensure (!(store && (!leafWr t.leaf || t.twin))) .perm (BitVec.ofNat 64 lo)
    else .ok ()

/-- What a local access waits for at the stash entries it touches: the fill of a MAPPED one, on this first touch (R131); the thread's earlier
accesses to the bytes (R189); and the end of another thread's lease (R280). -/
def Dev.stashReady (d : Dev) (a n : Nat) : Chk Unit :=
  (d.curCore.entriesOf a n).forM fun (i, e) =>
    if e.st = .mapped then park (.stash i)
    else
      let from_ := max a (128 * i) - 128 * i
      let to_ := min (a + n) (128 * i + 128) - 128 * i
      let mask := byteMask from_ (to_ - from_)
      if d.lineBusy d.cur.1 d.cur.2 e.line mask || d.leased e.line then park (.line e.line mask) else .ok ()

/-- The first poisoned line of bytes of a core's own memory: none, or the GVA of its stash entry, which is none for PLAIN bytes and tiles. -/
def Core.localBad (c : Core) (a n : Nat) : Option (Option Nat) :=
  ((piecesOf a n).find? fun p => c.badLmem.contains p.1).map fun p => (aget? c.stash p.1).map (·.gva)

/-- Poison of the core's own memory is consumed by an instruction that has no result to wait for (R54); SADDR is the local offset. -/
def Dev.localGood (d : Dev) (lo a n : Nat) : Chk Unit := match d.curCore.localBad a n with
  | some g => .error (.poison lo g)
  | none => .ok ()

/-- Lines of the core's own memory that a write of `n` bytes covers whole are no longer poisoned (log entry 57). -/
def Core.cleanLmem (c : Core) (a n : Nat) : List Nat := c.badLmem.filter fun l => !(decide (a ≤ 128 * l) && decide (128 * l + 128 ≤ a + n))

/-- A store of bytes into local memory: a CLEAN entry becomes DIRTY (R131). -/
def Core.localWrite (c : Core) (a : Nat) (bs : List Byte) : Core :=
  let touched := c.entriesOf a bs.length
  { c with
    lmem := c.lmem.setBytes a bs
    badLmem := c.cleanLmem a bs.length
    stash := touched.foldl (fun m p => aset m p.1 { p.2 with st := .dirty }) c.stash }

/-! ### Global bytes: the core's side (R123, R188, R189) -/

/-- A part of a load that is single-copy atomic (R190): its GVA and translation, its size, and where it stands in the result. -/
structure LUnit where
  t : Trans
  size : Nat
  dst : Nat
  deriving DecidableEq, Repr

/-- The stores of a line in the write buffer that a slot sees, stamped before `before`: data and mask, oldest first. A write-back of a stash
entry is no store that a load looks up: the load goes on to the registered entry or to the home, behind the write-back (R132). -/
def Core.wbView (c : Core) (k line before : Nat) : Line × BitVec 128 :=
  (c.wb.filter fun e => e.line == line && !e.wback && e.seenBy k && decide (e.seq < before)).foldl
    (fun acc e => (lineMerge acc.1 e.data e.mask, acc.2 ||| e.mask)) (0, 0)

/-- The value of an atomic part from the core itself: bytes that the write buffer holds entirely, or the L1 copy under the buffer, when
no earlier read or atomic of the thread to the bytes is still on its way (R188, R189). A line with an update-only copy of the core goes home
(R203). -/
def Dev.coreHit (d : Dev) (r k line off size : Nat) : Option Nat :=
  let c := d.core r
  let (w, m) := c.wbView k line d.accSeq
  let want := byteMask off size
  if c.uoc.any (·.line == line) || d.homeQ.any (fun q => q.touches r k line want && !q.kind.isStore) || d.sidelined.any (·.touches r k line want)
  then none
  else if m &&& want = want then some (lineNat w off size)
  else (aget? c.l1d line).map fun l => lineNat (lineMerge l w m) off size

/-- The value of an atomic part that is fixed at issue: from the thread's leased line (R205), or from the core. -/
def Dev.immediate (d : Dev) (r k line off size : Nat) : Option Nat :=
  match (d.slot r k).lease with
  | some l => if l.line = line then some (lineNat (lineMerge l.snap l.buf l.mask) off size) else d.coreHit r k line off size
  | none => d.coreHit r k line off size

/-- A request of the current thread to the home of the line that a translation names. -/
def Dev.reqOf (d : Dev) (t : Trans) (seq : Nat) (tag : Option Nat) (kind : ReqKind) (scope : MemScope) (srel remote : Bool) : HomeReq :=
  { rank := d.cur.1, slot := d.cur.2, part := d.th.part, prank := d.cur.1 - d.tpart.cfg.hbase, arr := seq, passed := 0
    line := t.pa / 128, home := homeSlice t.leaf t.pa, gva := t.gva, large := t.large, seq := seq, tag := tag, kind := kind
    cls := leafClass t.leaf, scope := scope, srel := srel, remote := remote }

/-- A request reaches the home queue of its line. -/
def Dev.enqueue (d : Dev) (q : HomeReq) : Dev := { d with homeQ := d.homeQ ++ [q] }

/-- The requests that the parts of a load send to their homes, and what is known at once. -/
def putRaw (raw : List Byte) (dst size x : Nat) : List Byte :=
  raw.take dst ++ leBytes size x ++ raw.drop (dst + size)

/-- An access of the current thread to another module (R41, R43). -/
def Dev.remoteOf (d : Dev) (t : Trans) (pid : Option Nat) (dst size seq : Nat) (acq : Option MemScope) (tag : Option Nat) (gate : Option Gate) :
    RemoteOut :=
  { rank := d.cur.1, slot := d.cur.2, pid := pid, dst := dst, size := size, acq := acq, part := d.th.part, prank := d.cur.1 - d.tpart.cfg.hbase
    gva := t.gva, large := t.large, seq := seq, tag := tag, chan := none, gate := gate, mask := (t.pa, size) }

/-- The export table's answer for an access of a partition through a REMOTE leaf that names this module (R41): the PA it reaches. -/
def Dev.exportOf (d : Dev) (module part pa n : Nat) (write : Bool) : Option Nat :=
  (d.exports.find? fun e => e.module == module && e.part == part && decide (pa % 2 ^ 35 + n ≤ e.len) && (!write || e.write)).map
    fun e => e.base + pa % 2 ^ 35

def remoteModule (pa : Nat) : Nat := pa / 2 ^ 35 % 2048

/-- A deferred DATAERR for an access that has no result, at the thread's next boundary, in either mode (R250, R275; log entry 58). -/
def Slot.deferErr (t : TrapInfo) (s : Slot) : Slot := { s with deferred := s.deferred ++ [(s.nextPid, t)], nextPid := s.nextPid + 1 }

/-- A refused remote access: DATAERR, with a record of kind 0x0F (R41). An entry that names the module itself has one module as requester and
target, and one record is written (log entry 56). -/
def Dev.logRefused (d : Dev) (part rank slot gva : Nat) : Dev :=
  d.logPart part ⟨0x0F, d.dieOf rank, 1, gva, 1, rank, slot, 0, 1⟩

/-- Change a pending result of a slot. -/
def Slot.modPend (s : Slot) (pid : Nat) (f : Pending → Pending) : Slot :=
  { s with pend := s.pend.map fun p => if p.id == pid then f p else p }

/-- One part of a result is answered: its bytes, or an error (R250). -/
def Pending.answer (dst size x : Nat) (p : Pending) : Pending := { p with raw := putRaw p.raw dst size x, need := p.need - 1 }
def Pending.fail (t : TrapInfo) (p : Pending) : Pending := { p with need := p.need - 1, err := p.err.orElse fun _ => some t }

/-- Send one part of a load of the current thread to its home (R188), or to another module (R41, R43). -/
def Dev.sendLoad (d : Dev) (pid : Nat) (acq : Option MemScope) (u : LUnit) : Dev :=
  let (r, k) := d.cur
  let part := d.th.part
  let d := d.stamp
  let seq := d.accSeq - 1
  let ask (d : Dev) (t : Trans) (remote : Bool) : Dev :=
    d.enqueue (d.reqOf t seq none (.load pid (t.pa % 128) u.size u.dst acq.isSome) (acq.getD .cr) false remote)
  if !u.t.remote then ask d u.t false
  else if remoteModule u.t.pa = d.modnum then
    match d.exportOf d.modnum part u.t.pa u.size false with
    | some pa => ask d (u.t.at_ pa) true
    | none => (d.logRefused part r k u.t.gva).modSlot r k fun s =>
        s.modPend pid (Pending.fail ⟨.dataerr, BitVec.ofNat 64 u.t.gva⟩)
  else { d with remote := aset d.remote seq (d.remoteOf u.t (some pid) u.dst u.size seq acq none none) }

/-- Issue a load of the current thread: the parts whose value is fixed now are filled in, the others go to their homes; the result is
outstanding under the window of `la`. An acquiring load holds later accesses until it is performed (R194). -/
def Dev.issueLoad (d : Dev) (units : List LUnit) (post : Post) (len : Nat) (la : La) (acq : Option MemScope) : Dev :=
  let (r, k) := d.cur
  let pid := d.th.nextPid
  let now := units.map fun u => (u, if u.t.remote then none else d.immediate r k (u.t.pa / 128) (u.t.pa % 128) u.size)
  let raw := now.foldl (fun raw p => match p.2 with
    | some x => putRaw raw p.1.dst p.1.size x
    | none => raw) (List.replicate len 0)
  let asks := now.filterMap fun p => if p.2.isNone then some p.1 else none
  let d := d.retireLong r k post raw asks.length la
  let d := asks.foldl (fun d u => d.sendLoad pid acq u) d
  match acq with
  | none => d
  | some sc =>
    if asks.isEmpty then d.acquire sc
    else d.modTh fun s => { s with acqPid := s.acqPid ++ [pid] }

/-- Whether a store can join a write-buffer entry (R123): one of its line and page, not sent, of an ordinary store, and no request of the core
for the line is on its way, which a later store must not overtake (R189). -/
def Dev.wbJoins (d : Dev) (r line : Nat) (pg : PageId) (e : WbEntry) : Bool :=
  e.line == line && e.pg == pg && !e.sent && e.srel.isNone && !e.wback
    && !(d.homeQ.any fun q => q.rank == r && q.line == line) && !(d.sidelined.any fun q => q.rank == r && q.line == line)

/-- The newest write-buffer entry of a line of core `r`, when a store of a page can join it. -/
def Dev.wbNewest (d : Dev) (r line : Nat) (pg : PageId) : Option WbEntry :=
  (((d.core r).wb.filter (·.line == line)).getLast?).filter (d.wbJoins r line pg)

/-- The write buffer of core `r` with a store of masked bytes to a line (R123). -/
def Dev.wbAdd (d : Dev) (r : Nat) (n : WbEntry) : Dev :=
  let wb := (d.core r).wb
  let join := if n.srel.isNone && !n.wback then d.wbNewest r n.line n.pg else none
  let wb' := match join with
    | some o => wb.map fun e =>
      if e == o then { e with data := lineMerge e.data n.data n.mask, mask := e.mask ||| n.mask, glue := e.glue ||| n.glue, slots := e.slots ++ (n.slots.filter fun s => !e.slots.contains s) }
      else e
    | none => wb ++ [n]
  d.modCore r fun c => { c with wb := wb' }

/-- Part of a store: translation of its first byte, the bytes as a little-endian value, their number, and whether they are single-copy atomic
(R190); it lies in one line. -/
structure SUnit where
  t : Trans
  size : Nat
  val : Nat
  whole : Bool
  deriving DecidableEq, Repr

/-- The translation under which a part of a store enters the write buffer; none for one into the thread's leased line, to another module, or
refused by the export table. -/
def Dev.wbTarget (d : Dev) (u : SUnit) : Option Trans :=
  if u.t.remote then
    if remoteModule u.t.pa = d.modnum then (d.exportOf d.modnum d.th.part u.t.pa u.size true).map u.t.at_ else none
  else if d.th.lease.any (·.line == u.t.pa / 128) then none else some u.t

/-- The free entries of the write buffer that the parts of a store need (R123): one for each line that no entry can merge. -/
def Dev.wbNeed (d : Dev) (us : List SUnit) : Nat :=
  (((us.filterMap d.wbTarget).map fun t => (t.pa / 128, t.pg)).eraseDups.filter fun l => (d.wbNewest d.cur.1 l.1 l.2).isNone).length

/-- Whether the write buffer of core `r` has `n` free entries. -/
def Dev.wbFree (d : Dev) (r n : Nat) : Bool := decide ((d.core r).wb.length + n ≤ 32)

/-- Whether it has room for the parts of a store. -/
def Dev.wbRoom (d : Dev) (us : List SUnit) : Bool := d.wbFree d.cur.1 (d.wbNeed us)

/-- The write-buffer entry of one part of a store of the current thread. -/
def Dev.storeEntryOf (d : Dev) (srel : Option MemScope) (u : SUnit) (t : Trans) : WbEntry :=
  let off := t.pa % 128
  { line := t.pa / 128, data := lineSet 0 off u.size u.val, mask := byteMask off u.size
    glue := if u.whole then byteMask (off + 1) (u.size - 1) else 0
    seq := d.accSeq, pg := t.pg, part := d.th.part, home := homeSlice t.leaf t.pa, srel := srel.map fun sc => (d.cur.2, sc)
    slots := [d.cur.2], sent := false, wback := false, cls := leafClass t.leaf, bad := false }

/-- One part of a store of the current thread: into the buffer of the thread's lease (R279), where a `srel` leaves the mark of its release, to
another module, or into the core's write buffer. -/
def Dev.storeUnit (srel : Option MemScope) (d : Dev) (u : SUnit) : Dev :=
  let (r, k) := d.cur
  let part := d.th.part
  let put (d : Dev) (t : Trans) : Dev := d.stamp.wbAdd r (d.storeEntryOf srel u t)
  if u.t.remote then
    if remoteModule u.t.pa = d.modnum then
      match d.exportOf d.modnum part u.t.pa u.size true with
      | some pa => put d (u.t.at_ pa)
      | none => (d.logRefused part r k u.t.gva).modTh (Slot.deferErr ⟨.dataerr, BitVec.ofNat 64 u.t.gva⟩)
    else
      let d := d.stamp
      let seq := d.accSeq - 1
      { d with remote := aset d.remote seq (d.remoteOf u.t none 0 u.size seq none none (srel.map fun sc => d.gateAt r k seq sc none)) }
  else match d.th.lease with
    | some l =>
      if l.line = u.t.pa / 128 then
        d.stamp.modTh fun s => { s with lease := some { l with
          buf := lineSet l.buf (u.t.pa % 128) u.size u.val
          mask := l.mask ||| byteMask (u.t.pa % 128) u.size
          rels := l.rels ++ (srel.map fun sc => (d.accSeq, sc)).toList } }
      else put d u.t
    | none => put d u.t

/-! ### Loads and stores of a thread, whole -/

/-- The pieces of a range as atomic parts of a load: one part when it is naturally aligned, otherwise byte by byte (R190). -/
def loadUnits (ps : List (Trans × Nat × Nat)) (gva n base : Nat) : List LUnit :=
  match ps with
  | [(t, _, _)] => if gva % n = 0 && n ∣ 128 then [⟨t, n, base⟩] else bytesOf ps base
  | _ => bytesOf ps base
where
  /-- One part for each byte. -/
  bytesOf (ps : List (Trans × Nat × Nat)) (base : Nat) : List LUnit :=
    ps.flatMap fun (t, o, n) => (List.range n).map fun i => ⟨{ t with pa := t.pa + i, gva := t.gva + i }, 1, base + o + i⟩

/-- The pieces of a range of `len` bytes as parts of a store, cut at line boundaries; only a naturally aligned store is single-copy
atomic (R190, R268). -/
def storeUnits (ps : List (Trans × Nat × Nat)) (gva len x : Nat) : List SUnit :=
  ps.flatMap fun (t, o, n) => (piecesOf t.pa n).map fun (line, off, k, at_) =>
    ⟨{ t with pa := 128 * line + off, gva := t.gva + at_ }, k, x / 256 ^ (o + at_) % 256 ^ k, gva % len == 0⟩

/-- A checked operand: local bytes, or the pages of a global range. -/
inductive Operand where
  | loc (a : Nat)
  | glob (ps : List (Trans × Nat × Nat))
  deriving DecidableEq, Repr

/-- The checks of a memory operand of `n` bytes through segment `sg`, in the order of R255: the segment; the local range; MISALIGN for
an alignment `align`; PERM for tiles and read-only stash entries; then translation, page by page for a global operand; then what the tiles
and the stash entries hold. -/
def Dev.operand (d : Dev) (sg : SegNo) (off : Word) (n : Nat) (need : SegNeed) (acc : Access) (align : Nat) : Chk Operand := do
  let seg := d.th.seg sg
  let gva ← segCheck seg off n need
  if segL seg then
    let a ← d.localAt gva n
    ensure (gva % align == 0) .misalign (BitVec.ofNat 64 gva)
    d.tilePerm gva a n
    d.stashPerm gva a n acc.write
    d.stashTrans gva a n acc.write
    d.tileReady a n acc.write
    d.stashReady a n
    .ok (.loc a)
  else
    ensure (gva % align == 0) .misalign (BitVec.ofNat 64 gva)
    let ps ← d.translateRange acc gva n
    .ok (.glob ps)

/-- The result of a load from the core's own memory (R121): its parts, each by offset, place and length, are read now (R197). Poison in one is a
DATAERR of the result, which is a deferred trap (R250), with the offset of the first such part. -/
def Dev.localLoad (d : Dev) (parts : List (Nat × Nat × Nat)) (post : Post) (la : La) : Dev :=
  let (r, k) := d.cur
  let pid := d.th.nextPid
  let raw := parts.flatMap fun p => d.curCore.lmem.bytes p.2.1 p.2.2
  match parts.findSome? fun p => (d.curCore.localBad p.2.1 p.2.2).map fun g => (p.1, g) with
  | none => d.retireLong r k post raw 0 la
  | some (lo, g) => ((d.logLocalPoison d.th.part r k g).retireLong r k post raw 0 la).modTh fun s =>
      s.modPend pid (Pending.fail ⟨.dataerr, BitVec.ofNat 64 lo⟩)

/-- A load of `n` bytes (R267, R270): local bytes are read now (R197), global ones as the core and the homes give them. -/
def Dev.load (d : Dev) (sg : SegNo) (off : Word) (n align : Nat) (post : Post) (la : La) (acq : Option MemScope) : Chk Dev := do
  let gva := segBase (d.th.seg sg) + off.toNat
  let o ← d.operand sg off n { r := true } { read := true, user := d.user, twinOk := true, remoteOk := true } align
  d.acqHeld
  match o with
  | .loc a =>
    let d := d.localLoad [(gva, a, n)] post la
    .ok (match acq with
      | some sc => d.acquire sc
      | none => d)
  | .glob ps => .ok (d.issueLoad (loadUnits ps gva n 0) post n la acq)

/-- A store of the `n` low bytes of `x` (R267, R270). -/
def Dev.store (d : Dev) (sg : SegNo) (off : Word) (n align x : Nat) (srel : Option MemScope) : Chk Dev := do
  let gva := segBase (d.th.seg sg) + off.toNat
  let o ← d.operand sg off n { w := true } { write := true, user := d.user, remoteOk := true } align
  d.acqHeld
  d.relHeld
  match o with
  | .loc a =>
    match srel with
    | some sc =>
      d.behind (d.gateWaiting sc)
      .ok ((d.modCur fun c => c.localWrite a (leBytes n x)).retire)
    | none => .ok ((d.modCur fun c => c.localWrite a (leBytes n x)).retire)
  | .glob ps =>
    let us := storeUnits ps gva n x
    if d.wbRoom us then .ok ((us.foldl (Dev.storeUnit srel) d).retire) else park (.wb (d.wbNeed us))

end Sys2Proof.Machine
end

