-- ==== Sys2Proof/Machine/Serve.lean ====
section
/-! DEFINITION. What a home slice does with the requests that wait for a line (R175, R202, R203, R205, R209, R274, R278-R283,
R365-R369), and the arrival of results at a thread. -/

namespace Sys2Proof.Machine

def ReqKind.isSatom : ReqKind → Bool
  | .satom _ _ _ => true
  | .load _ _ _ _ _ | .store _ | .amo _ _ _ _ _ _ _ | .lease _ _ | .unlease _ _ _ | .sverNext _ _ | .sverNum _ _ _ | .lver _ _ _ _
  | .pver _ _ _ | .rver _ _ | .uocBack _ | .red _ _ _ _ | .agent _ _ => false

/-! ### The requesting slot, which a save or a move of its partition carries along (R119, R371) -/

/-- The slot image or slot of a requester: its saved context when its core is saved, else the core of its rank. -/
def Dev.reqSlot (d : Dev) (q : HomeReq) : Slot :=
  match aget? (d.part q.part).ctx q.prank with
  | some c => c.core.slot q.slot
  | none => d.slot ((d.part q.part).devRank q.prank) q.slot

def Dev.modReqCore (d : Dev) (q : HomeReq) (f : Core → Core) : Dev :=
  match aget? (d.part q.part).ctx q.prank with
  | some c => d.modPart q.part fun p => { p with ctx := aset p.ctx q.prank { c with core := f c.core } }
  | none => d.modCore ((d.part q.part).devRank q.prank) f

def Dev.modReq (d : Dev) (q : HomeReq) (f : Slot → Slot) : Dev := d.modReqCore q fun c => c.setSlot q.slot (f (c.slot q.slot))

/-- The page of a request. -/
def HomeReq.pg (q : HomeReq) : PageId := ⟨q.gva / 65536, q.large⟩

/-- Whether two requests carry one tag (R274). -/
def HomeReq.sameTag (p q : HomeReq) : Bool := p.tag.isSome && q.tag.isSome && p.tagId == q.tagId

/-- The home has answered: the request leaves the queue and its entry of an ordered buffer, its tag is no longer outstanding, and the home keeps
what it answered (R274, R368). -/
def Dev.served (d : Dev) (q : HomeReq) (result : Word) (flags : BitVec 6 := 0) : Dev :=
  let d := { d with homeQ := d.homeQ.filter fun x => x != q, obuf := d.obuf.filter fun o => !o.req.sameTag q }
  match q.tag with
  | some t => (d.modReqCore q fun c => { c with out := adel c.out t }).recordTag q.home q.tagId.1 q.tagId.2 result flags
  | none => d

/-- A part of a pending result is answered with a value; an acquiring read that is now performed lets later accesses go and drops the
plain copies of the core (R194). -/
def Dev.answerPend (d : Dev) (q : HomeReq) (pid dst size x : Nat) (acq : Option MemScope) : Dev :=
  let d := d.modReq q fun s => s.modPend pid (Pending.answer dst size x)
  match acq with
  | some sc =>
    if (d.reqSlot q).pend.any fun p => p.id == pid && p.need != 0 then d
    else (d.modReq q fun s => { s with acqPid := s.acqPid.filter (· != pid) }).acquireAt q.rank sc
  | none => d

/-- The place of a saved slot's pending record in its context block (R114). -/
def Dev.pendRecord (d : Dev) (q : HomeReq) : Nat := (d.part q.part).cfg.ctxbase + 0x100000 * q.prank + 0xA0000 + 0x1000 * q.slot + 0x4C8

/-- Whether the answer of a `satom` has to wait: its thread is saved, and its pending record is on a held line (R205). -/
def Dev.recordHeld (d : Dev) (q : HomeReq) : Bool :=
  q.kind.isSatom && (aget? (d.part q.part).ctx q.prank).isSome && (d.rangeHeld (d.pendRecord q) 24).isSome

/-- The answer of a `satom` whose thread is saved is parked in the pending record of its slot image (R371, R114): ANS with `how` (0, ERR
2^15 or BAD 2^14), y0 and the flags; the first pending `satom` of the slot has the record. -/
def Dev.parkAnswer (d : Dev) (q : HomeReq) (how y0 flags : Nat) : Dev :=
  match q.kind, aget? (d.part q.part).ctx q.prank with
  | .satom pid _ _, some _ =>
    let first := ((d.reqSlot q).pend.find? fun p => match p.post with
      | .satom _ _ => true
      | .sext _ _ | .zext _ _ | .pair _ | .vec _ _ _ | .twait _ _ _ => false).map (·.id)
    if first != some pid then d
    else
      let at_ := d.pendRecord q
      let (x, d) := d.agentRead at_ 8 q.part noLeaf noPage
      (d.agentWrite at_ 8 (x ||| (2 ^ 16 + how)) q.part noLeaf noPage).agentWrite (at_ + 8) 16 (y0 + 2 ^ 64 * flags) q.part noLeaf noPage
  | _, _ => d

/-- A part of a pending result is answered with an error (R250). -/
def Dev.failPend (d : Dev) (q : HomeReq) (pid : Nat) (c : Cause) : Dev :=
  let d := d.parkAnswer q (if c = .slice then 2 ^ 14 else 2 ^ 15) 0 0
  d.modReq q fun s =>
    { s.modPend pid (Pending.fail ⟨c, BitVec.ofNat 64 q.gva⟩) with acqPid := s.acqPid.filter (· != pid) }

/-- A thread parked for its home's answer goes on after its instruction. -/
def Dev.finish (d : Dev) (q : HomeReq) (f : Slot → Slot) : Dev :=
  d.modReq q fun s => let s := f s; s.retireTo (link s.pc)

/-! ### What stands before a request at the home -/

/-- The write-buffer entry that a store request carries. -/
def Dev.storeEntry (d : Dev) (q : HomeReq) : Option WbEntry := (d.core q.rank).wb.find? (·.isFor q)

/-- Store the numbers of a word: with no live version left, N goes into its memory bytes (R281). -/
def Dev.setVword (d : Dev) (pa : Nat) (v : VWord) (part : Nat) : Dev :=
  if v.entries.isEmpty then
    let d := d.touch (pa / 128) v.home part 3 noPage true
    { d with vwords := adel d.vwords pa, mem := d.mem.setNat pa 8 v.n.toNat }
  else { d with vwords := aset d.vwords pa v }

/-! ### Serving -/

/-- A write-buffer entry without bytes that have been written: none when no byte is left. -/
def WbEntry.less (e : WbEntry) (m : BitVec 128) : Option WbEntry := if e.mask &&& ~~~m = 0 then none else some { e with mask := e.mask &&& ~~~m }

/-- The stores in the core's write buffer that come before the request are written first (R189), in their order, and no others: pending
write-backs of stash entries are no stores of the thread, and the home settles them when it recalls the entry. -/
def Dev.flushOwn (d : Dev) (q : HomeReq) : Dev :=
  let mine := d.ownStores q
  if mine.isEmpty then d
  else
    let d := mine.foldl (fun d p => (d.prepare q.line).lineWrite q.line p.1.data p.2 p.1.home p.1.part p.1.cls p.1.pg) d
    let left (e : WbEntry) : Option WbEntry := match mine.find? (·.1 == e) with
      | some p => e.less p.2
      | none => some e
    (d.modCore q.rank fun c => { c with wb := c.wb.filterMap left }).l1Drop q.rank q.line

/-- f(old, b, c) of an AMO on words of `z` bytes (R276); none when `amocas` does not write. -/
def amoFn (op : AmoOp) (z old b c : Nat) : Option Nat :=
  let n := 8 * z
  match op with
  | .swap => some b
  | .add => some ((old + b) % 2 ^ n)
  | .and => some (old &&& b)
  | .or => some (old ||| b)
  | .xor => some (old ^^^ b)
  | .min => some (sMin n old b)
  | .max => some (sMax n old b)
  | .minu => some (min old b)
  | .maxu => some (max old b)
  | .cas => if old = b then some c else none

/-- The part of a load is read at the home or in the registered stash entry, under the core's earlier stores (R132, R188); the core
keeps a plain copy of a line that is neither registered nor remote (R123). An older plain copy goes when the line was read through a REMOTE
mapping, so that no later load reads behind it (R189). -/
def Dev.serveLoad (d : Dev) (q : HomeReq) (pid off size dst : Nat) (acq : Bool) : Dev :=
  let d := (d.prepare q.line).touch q.line q.home q.part q.cls q.pg false
  if d.poisoned q.line then ((d.logPoison q.part q.rank q.slot q.gva).failPend q pid .dataerr).served q 0
  else
    let now := d.lineNow q.line
    let (w, m) := (d.core q.rank).wbView q.slot q.line q.seq
    let x := lineNat (lineMerge now w m) off size
    let d := if (aget? d.regs q.line).isSome then d else if q.remote then d.l1Drop q.rank q.line else d.l1Put q.rank q.line now
    (d.answerPend q pid dst size x (if acq then some q.scope else none)).served q 0

/-- A store that drained from a write buffer is performed (R188, R132). -/
def Dev.serveStore (d : Dev) (q : HomeReq) : Dev :=
  match d.storeEntry q with
  | none => d.served q 0
  | some e =>
    if e.wback then (d.settleBack q.rank q.line).served q 0
    else if d.lostLine q.line then
      let d := d.modCore q.rank fun c => { c with wb := c.wb.filter fun x => x != e }
      let d := e.slots.foldl (fun d k => (d.logPoison q.part q.rank k q.gva).modSlot q.rank k
        (Slot.deferErr ⟨.dataerr, BitVec.ofNat 64 q.gva⟩)) d
      d.served q 0
    else
      let d := (d.prepare q.line).lineWrite q.line e.data e.mask e.home q.part e.cls e.pg
      let d := d.modCore q.rank fun c =>
        { c with
          wb := c.wb.filter fun x => x != e
          l1d := match aget? c.l1d q.line with
            | some l => aset c.l1d q.line (lineMerge l e.data e.mask)
            | none => c.l1d }
      d.served q 0

/-- An AMO: one indivisible read and write after the recalls (R133, R202, R276). -/
def Dev.serveAmo (d : Dev) (q : HomeReq) (pid off : Nat) (w64 : Bool) (op : AmoOp) (b c : Word) (acq : Option MemScope) : Dev :=
  let z := if w64 then 8 else 4
  let d := ((d.flushOwn q).recallStash q.line).recallUocs q.line
  if d.poisoned q.line then ((d.logPoison q.part q.rank q.slot q.gva).failPend q pid .dataerr).served q 0
  else
    let old := d.mem.nat (128 * q.line + off) z
    let d := match amoFn op z old (b.toNat % 256 ^ z) (c.toNat % 256 ^ z) with
      | some x =>
        let d := d.touch q.line q.home q.part q.cls q.pg true
        { d with mem := d.mem.setNat (128 * q.line + off) z x }
      | none => d.touch q.line q.home q.part q.cls q.pg false
    let d := d.l1Drop q.rank q.line
    (d.answerPend q pid 0 z old acq).served q (BitVec.ofNat 64 old)

/-- The home grants a lease (R205, R279): the record takes the line as it is, and X[rd] the length. An older plain copy of the line goes from
the core, so that no later load reads behind the snapshot (R189). -/
def Dev.serveLease (d : Dev) (q : HomeReq) (rd : RegNo) (len : Nat) : Dev :=
  let d := ((d.flushOwn q).recallStash q.line).recallUocs q.line
  if d.poisoned q.line then
    ((d.logPoison q.part q.rank q.slot q.gva).finish q (Slot.deferErr ⟨.dataerr, BitVec.ofNat 64 q.gva⟩)).served q 0
  else
    let d := (d.touch q.line q.home q.part q.cls q.pg false).l1Drop q.rank q.line
    let d := { d with leases := d.leases ++ [(⟨q.line, q.part, q.pg, q.rank, q.slot, len⟩ : LeaseHold)] }
    let snap := d.mem.line q.line
    let rec_ : LeaseRec := { line := q.line, held := true, snap := snap, buf := 0, mask := 0, rels := [] }
    (d.finish q fun s => { s.setX rd (BitVec.ofNat 64 len) with lease := some rec_ }).served q 0

/-- `unlease` at the home (R279): with the lease still held, the buffered stores are performed in one step. -/
def Dev.serveUnlease (d : Dev) (q : HomeReq) (rd : RegNo) (buf : Line) (mask : BitVec 128) : Dev :=
  let held := d.leases.any fun l => l.line == q.line && l.rank == q.rank && l.slot == q.slot
  let d := if held then
      let d := d.touch q.line q.home q.part q.cls q.pg (mask != 0)
      let d := { d with mem := d.mem.setMasked (128 * q.line) buf mask 128, leases := d.leases.filter fun l => l.line != q.line }
      d.l1Drop q.rank q.line
    else d
  (d.finish q fun s => { s.setX rd (if held then 1 else 0) with lease := none }).served q (if held then 1 else 0)

/-- A versioned word without a live version on a poisoned line has no numbers: DATAERR. -/
def Dev.vpoisoned (d : Dev) (q : HomeReq) (pa : Nat) : Bool := d.poisoned q.line && (aget? d.vwords pa).isNone

/-- The live versions of a word stand in the version store of the home that R174 gives its request (R281). -/
def Dev.rehome (d : Dev) (q : HomeReq) (pa : Nat) : Dev :=
  match aget? d.vwords pa with
  | some v => if v.home = q.home then d else { d with vwords := aset d.vwords pa { v with home := q.home } }
  | none => d

/-- `sver` (R283): version k is created with its value. -/
def Dev.serveSver (d : Dev) (q : HomeReq) (off : Nat) (k : Option HWord) (x : Word) : Dev :=
  let pa := 128 * q.line + off
  if d.vpoisoned q pa then
    ((d.logPoison q.part q.rank q.slot q.gva).finish q (Slot.deferErr ⟨.dataerr, BitVec.ofNat 64 q.gva⟩)).served q 0
  else
    let d := d.rehome q pa
    let v := d.vword pa q.home
    let d := match k with
      | none => d.setVword pa { v with n := v.n + 1, entries := v.entries ++ [(v.n + 1, x)] } q.part
      | some k => if newer k v.n then d.setVword pa { v with n := k, entries := v.entries ++ [(k, x)] } q.part else d
    (d.finish q id).served q 0

/-- What `lver` and `pver` return for version k (R283): the value pair, and whether it is a version. -/
def VWord.read (v : VWord) (k : HWord) : Word × Word × Bool :=
  if newer k v.n then (0, 1, false)
  else if newer k v.t then (((v.entries.find? fun e => e.1 == k).map (·.2)).getD 0, 0, true)
  else (0, 2, false)

/-- `lver` (R283): the thread waited for the version and goes on with the pair outstanding under its window, also where the pair arrives with an
error (R250); a returned version acquires (R211). -/
def Dev.serveLver (d : Dev) (q : HomeReq) (rd : RegNo) (off : Nat) (k : HWord) (la : La) : Dev :=
  let pa := 128 * q.line + off
  if d.vpoisoned q pa then
    let pid := (d.slot q.rank q.slot).nextPid
    (((d.logPoison q.part q.rank q.slot q.gva).retireLong q.rank q.slot (.pair rd) (List.replicate 16 0) 1 la).failPend q pid .dataerr).served q 0
  else
    let (a, b, ok) := ((d.rehome q pa).vword pa q.home).read k
    let d := (d.rehome q pa).retireLong q.rank q.slot (.pair rd) (leBytes 8 a.toNat ++ leBytes 8 b.toNat) 0 la
    let d := if ok then d.acquireAt q.rank .pkg else d
    d.served q 0

/-- `pver` (R283). -/
def Dev.servePver (d : Dev) (q : HomeReq) (pid off : Nat) (k : HWord) : Dev :=
  let pa := 128 * q.line + off
  if d.vpoisoned q pa then ((d.logPoison q.part q.rank q.slot q.gva).failPend q pid .dataerr).served q 0
  else
    let d := d.rehome q pa
    let (a, b, ok) := (d.vword pa q.home).read k
    let d := d.modReq q fun s => { s.modPend pid (Pending.answer 0 16 (a.toNat + b.toNat * 2 ^ 64)) with acqPid := s.acqPid.filter (· != pid) }
    let d := if ok then d.acquireAt q.rank .pkg else d
    d.served q 0

/-- `rver` (R283): versions up to k' are retired. -/
def Dev.serveRver (d : Dev) (q : HomeReq) (off : Nat) (k : HWord) : Dev :=
  let pa := 128 * q.line + off
  if d.vpoisoned q pa then
    ((d.logPoison q.part q.rank q.slot q.gva).finish q (Slot.deferErr ⟨.dataerr, BitVec.ofNat 64 q.gva⟩)).served q 0
  else
    let d := d.rehome q pa
    let v := d.vword pa q.home
    let k' := if newer k v.n then v.n else k
    let d := if newer k' v.t then
        d.setVword pa { v with t := k', entries := v.entries.filter fun e => newer e.1 k' } q.part
      else d
    (d.finish q id).served q 0

/-! ### Darn invocations (R359, R365-R369) -/

/-- A slice keeps a routine that it has validated, in its cache of 64 (R359). -/
def Dev.cacheRoutine (d : Dev) (c : RoutineC) : Dev :=
  let mine := d.rcache.filter fun x => x.slice == c.slice
  { d with rcache := (c :: mine).take 64 ++ d.rcache.filter fun x => x.slice != c.slice }

/-- How the validation of an entry ends (R365). -/
inductive Validated where
  | good (c : RoutineC)
  | bad                          -- answered SLICE, the entry marked
  | invalid                      -- answered SLICE, the entry not marked
  | dataerr
  deriving DecidableEq, Repr

/-- The address of entry `n` of a partition's routine table (R358). -/
def Dev.routineAt (d : Dev) (part n : Nat) : Nat := (d.part part).cfg.rtbase + 16 * n

/-- Write BAD, BADWHY and BADIDX into an entry that fails its validation, and keep the refusal. -/
def markBad (slice part n e : Nat) (ro ord : Bool) (why idx : Nat) : Eng Validated := do
  let w0 : Word := BitVec.ofNat 64 e ||| BitVec.ofNat 64 (2 ^ 62)
  agWrite ((← get).routineAt part n) 16 ((e / 2 ^ 80) * 2 ^ 80 + idx * 2 ^ 72 + why * 2 ^ 64 + w0.toNat) part
  Eng.upd fun d => d.cacheRoutine ⟨slice, part, n, true, ro, ord, []⟩
  pure .bad

/-- Validate entry `n` of the partition's table at a slice (R365). Its reserved bits, 0:[52:48] and 1:[63:16], are checked by nothing, and a
marked entry keeps them (log entry 55). A held line makes the invocation wait. -/
def validate (slice part n : Nat) : Eng Validated := do
  let e ← agRead ((← get).routineAt part n) 16 part
  let w0 := BitVec.ofNat 64 e
  let len := (w0.extractLsb' 53 6).toNat
  let code := (w0.extractLsb' 0 48).toNat
  let comm := w0.getLsbD 61
  let ro := w0.getLsbD 60
  let ord := w0.getLsbD 59
  if !w0.getLsbD 63 then return .invalid
  if w0.getLsbD 62 then
    Eng.upd fun d => d.cacheRoutine ⟨slice, part, n, true, ro, ord, []⟩
    return .bad
  let mark := markBad slice part n e ro ord
  let d ← get
  match engTrans (d.homeQuad part) part { read := true, user := false, twinOk := true } code d with
  | .error (.hold l w) => Eng.stop (.hold l w)
  | .error (.fail .dataerr _) => return .dataerr
  | .error _ => mark 1 0
  | .ok (t, d) =>
    set d
    if code % 128 ≠ 0 then mark 1 0
    else if len = 0 ∨ 32 < len then mark 2 0
    else if (comm && ord) || (ro && ord) then mark 3 0
    else if d.poisoned (t.pa / 128) then return .dataerr
    else
      let cv ← agRead t.pa (4 * len) part
      let words := (List.range len).map fun i => BitVec.ofNat 32 (cv / 2 ^ (32 * i))
      match codeBad ro words with
      | some (why, idx) => mark why idx
      | none =>
        let c : RoutineC := ⟨slice, part, n, false, ro, ord, words⟩
        Eng.upd fun d => d.cacheRoutine c
        return .good c

/-- Answer a darn invocation: y0 and flags, or an error (R364, R370). -/
def Dev.answerSatom (d : Dev) (q : HomeReq) (pid : Nat) (y0 : Word) (flags : FFlags) : Dev :=
  let put (p : Pending) : Pending :=
    let p := p.answer 0 8 y0.toNat
    { p with post := match p.post with
      | .satom rd _ => .satom rd flags
      | .sext rd n => .sext rd n
      | .zext rd n => .zext rd n
      | .pair rd => .pair rd
      | .vec vd n l => .vec vd n l
      | .twait rd b l => .twait rd b l }
  ((d.parkAnswer q 0 y0.toNat flags.toNat).modReq q fun s => s.modPend pid put).served q y0 flags

/-- Insert a request by its arrival. -/
def insertByArr (q : HomeReq) : List HomeReq → List HomeReq
  | [] => [q]
  | h :: t => if q.arr < h.arr then q :: h :: t else h :: insertByArr q t

/-- The ordered counter of a line: word 31 of its value (R367). -/
def Dev.ordCount (d : Dev) (line : Nat) : HWord := BitVec.ofNat 32 (lineNat (d.lineNow line) 124 4)

/-- The line's ordered counter may have changed: every buffered invocation whose ticket is no longer early enters the home queue, in class 4 with
its original arrival (R367); there the one that equals the counter runs, and a stale one is answered. Its entry is free after that. -/
def Dev.letIn (d : Dev) (line : Nat) : Dev :=
  let c := d.ordCount line
  let go := d.obuf.filter fun o => o.req.line == line && !o.inQ && !newer o.ticket c
  if go.isEmpty then d
  else { d with
    obuf := d.obuf.map fun o => if go.contains o then { o with inQ := true } else o
    homeQ := go.foldl (fun l o => insertByArr o.req l) d.homeQ }

def obufLines (obuf : List OBuf) : List Nat := (obuf.map (·.req.line)).eraseDups

/-- Whether a request is an invocation that the home has accepted (R368): the resend timer of R275 no longer applies to it. -/
def Dev.accepted (d : Dev) (q : HomeReq) : Bool := d.obuf.any fun o => o.req.sameTag q

/-- Whether the ordered buffer of a slice takes an invocation (R368): one whose ticket equals its line's counter takes any free entry; after an
early one the free entries still number at least the lines that have buffered invocations and no buffered invocation holding their
counter. -/
def Dev.obufTakes (d : Dev) (o : OBuf) : Bool :=
  let mine := o :: d.obuf.filter fun x => x.slice == o.slice
  let lacking := (obufLines mine).filter fun l => !mine.any fun x => x.req.line == l && x.ticket == d.ordCount l
  decide (mine.length ≤ 32) && (o.ticket == d.ordCount o.req.line || decide (lacking.length ≤ 32 - mine.length))

/-- A record of a home slice about a request: the die is the base die that carries the slice (R58). -/
def sliceErr (q : HomeReq) (kind sev info : Nat) : ErrRec := ⟨kind, baseDie q.home, 1, q.gva, sev, 4096 + q.home, q.slot, info, 1⟩

/-- One aborted invocation: deferred DATAERR and its record (R369). -/
def Dev.abortOne (d : Dev) (q : HomeReq) (pid : Nat) (e : ErrRec) : Dev := ((d.logPart q.part e).failPend q pid .dataerr).served q 0

/-- An invocation that a fault inside the held line aborts (R369): deferred DATAERR and a record, and the same for every buffered ordered
invocation of the line. -/
def Dev.abortSatom (d : Dev) (q : HomeReq) (pid : Nat) (kind sev info : Nat) : Dev :=
  let d := d.abortOne q pid (sliceErr q kind sev info)
  let waiting := d.obuf.filter fun o => o.req.line == q.line
  let d := { d with homeQ := d.homeQ.filter fun x => !waiting.any fun o => o.req.sameTag x }
  waiting.foldl (fun d o => match o.req.kind with
    | .satom pid _ _ => d.abortOne o.req pid (sliceErr o.req kind sev info)
    | _ => d) d

/-- What the darner meets while it runs (R366, R369): operations that fail their residue check once, whether one fails twice, and an
uncorrectable error that it detects at its read (0x04 or 0x06). -/
structure DarnLuck where
  fails : Nat
  twice : Bool
  found : Option Nat
  deriving DecidableEq, Repr

def DarnLuck.none : DarnLuck := ⟨0, false, Option.none⟩

/-- An invocation that cannot run at once is taken by its ordered buffer, or refused: then its core sends it again (R368). With `inQ` its ticket
has come, and it stays in the home queue of its line; one that has its entry keeps it. -/
def Dev.bufferSatom (d : Dev) (q : HomeReq) (ticket : HWord) (inQ : Bool) : Dev :=
  let o : OBuf := ⟨q.home, q, ticket, inQ⟩
  let gone := { d with homeQ := d.homeQ.filter fun x => x != q }
  let stay := if inQ then d else gone
  if d.accepted q then { stay with obuf := d.obuf.map fun x => if x.req.sameTag q then { x with inQ := inQ } else x }
  else if d.obufTakes o then { stay with obuf := d.obuf ++ [o] }
  else match q.tag with
    | some t => gone.modReqCore q fun k => { k with out := match aget? k.out t with
        | some o => aset k.out t { o with refused := true }
        | none => k.out }
    | none => gone

/-- Run a routine on the line that the invocation holds (R366, R367). The residue value of a record is a free value (log entry 5). -/
def Dev.runSatom (d : Dev) (q : HomeReq) (pid : Nat) (payload : BitVec 512) (c : RoutineC) (luck : DarnLuck) : Dev :=
  let l := d.mem.line q.line
  let s := runRoutine c.code l payload
  let hold := s.ran + luck.fails + (if c.ro then 4 else 8)
  let (w, d) := if luck.twice || 0 < luck.fails then d.free else (0, d)
  let info := w.toNat % 2 ^ 32
  if luck.twice || 48 < hold then d.abortSatom q pid 0x01 1 info
  else
    let d := if 0 < luck.fails then d.logCorrected (some q.part) (sliceErr q 0x01 0 info) else d
    let d := d.touch q.line q.home q.part q.cls q.pg (!c.ro)
    let count := BitVec.ofNat 32 (lineNat l 124 4)
    let d := if c.ro then d
      else { d with mem := d.mem.setLine q.line (if c.ord then lineSet s.l 124 4 (count + 1).toNat else s.l) }
    (d.l1Drop q.rank q.line).answerSatom q pid (s.yr 0) s.flags

/-- The routine of an invocation, from its slice's cache or validated now. -/
def Dev.routineOf (d : Dev) (q : HomeReq) (entry : Nat) : Except EStop (Validated × Dev) :=
  match d.cachedRoutine q.home q.part entry with
  | some c => .ok (if c.bad then .bad else .good c, d)
  | none => validate q.home q.part entry d

/-- An ordered invocation that the home of its line does not serve next takes an entry of the ordered buffer, is refused, or is answered as
stale (R367, R368), also while its line is held. One that carries a tag seen before, one on a poisoned line, and one behind other accesses of its
thread to the line (R189) waits to be served. -/
def Dev.admitOne (d : Dev) (q : HomeReq) : Dev :=
  match q.kind with
  | .satom pid entry payload =>
    if d.accepted q || (d.replayed q).isSome || d.poisoned q.line || d.recordHeld q then d
    else match d.routineOf q entry with
      | .ok (.good c, d') =>
        let ticket := payload.extractLsb' 480 32
        let count := d'.ordCount q.line
        if !c.ord || d'.reqBlocked q || !(d'.ownStores q).isEmpty then d'
        else if newer ticket count || ticket == count then d'.bufferSatom q ticket (ticket == count)
        else d'.answerSatom q pid 0 0
      | .ok (_, d') => d'
      | .error _ => d
  | .load _ _ _ _ _ | .store _ | .amo _ _ _ _ _ _ _ | .lease _ _ | .unlease _ _ _ | .sverNext _ _ | .sverNum _ _ _ | .lver _ _ _ _ | .pver _ _ _
  | .rver _ _ | .uocBack _ | .red _ _ _ _ | .agent _ _ => d

/-- Every invocation that waits for a line, but the one that its home serves next, is admitted. -/
def Dev.admitLine (d : Dev) (line : Nat) : Dev :=
  (d.homeQ.filter fun q => q.line == line && q.kind.isSatom && d.nextReq line != some q).foldl Dev.admitOne d

/-- Serve an invocation (R366-R369). -/
def Dev.serveSatom (d : Dev) (q : HomeReq) (pid entry : Nat) (payload : BitVec 512) (luck : DarnLuck) : Dev :=
  let d := ((d.flushOwn q).recallStash q.line).recallUocs q.line
  match d.routineOf q entry with
  | .error (.fail _ _) | .ok (.dataerr, _) => ((d.logPoison q.part q.rank q.slot q.gva).failPend q pid .dataerr).served q 0
  | .error _ => d
  | .ok (.bad, d) | .ok (.invalid, d) => (d.failPend q pid .slice).served q 0
  | .ok (.good c, d) =>
    let d : Dev := match luck.found with
      | some k => { d with poison := if d.poison.contains q.line then d.poison else d.poison ++ [q.line] }.logPart q.part (sliceErr q k 4 0)
      | none => d
    if d.poisoned q.line then d.abortSatom q pid 0x07 2 0
    else
      let ticket := payload.extractLsb' 480 32
      let count := d.ordCount q.line
      if c.ord && newer ticket count then d.bufferSatom q ticket false
      else if c.ord && ticket != count then d.answerSatom q pid 0 0
      else d.runSatom q pid payload c luck

/-! ### Reductions at the core (R203, R277) -/

/-- Every word of a new update-only copy holds the identity, `n` words. -/
def identityLine (fn z : Nat) : Nat → Line
  | 0 => 0
  | n + 1 => lineSet (identityLine fn z n) (z * n) z (redIdentity fn z)

/-- Apply a delta to the update-only copy of a line in core `r`'s L1, creating the copy when there is none with this operation and
width; one with another goes home first. -/
def Dev.redApply (d : Dev) (q : HomeReq) (fn : Nat) (w : Bool) (off : Nat) (delta : Word) : Dev :=
  let z := if w then 8 else 4
  let r := q.rank
  let d := if (d.core r).uoc.any (fun u => u.line == q.line && !(u.fn == fn && u.w64 == w)) then d.sendBack r q.line else d
  let d := if (d.core r).uoc.any (·.line == q.line) then d
    else
      let u : Uoc := ⟨q.line, fn, w, identityLine fn z (128 / z), q.home, q.part, q.cls, q.pg⟩
      (((d.recallStash q.line).l1Drop r q.line).l1Room r q.line).modCore r fun c => { c with uoc := c.uoc ++ [u] }
  d.modCore r fun c => { c with uoc := c.uoc.map fun u =>
    if u.line == q.line then { u with data := lineSet u.data off z (redOp fn z (lineNat u.data off z) (delta.toNat % 256 ^ z)) } else u }

/-- A RED that waited is performed: the thread's earlier stores to the bytes come first; on a lost line it is an error of its thread
(R39). -/
def Dev.serveRed (d : Dev) (q : HomeReq) (fn : Nat) (w : Bool) (off : Nat) (delta : Word) : Dev :=
  let d := d.flushOwn q
  if d.lostLine q.line then
    ((d.logPoison q.part q.rank q.slot q.gva).modReq q (Slot.deferErr ⟨.dataerr, BitVec.ofNat 64 q.gva⟩)).served q 0
  else (d.redApply q fn w off delta).served q 0

/-! ### The next request -/

/-- Whether the source still waits for the answer to a request's tag. -/
def Dev.outstanding (d : Dev) (q : HomeReq) : Bool :=
  let c := match aget? (d.part q.part).ctx q.prank with
    | some c => c.core
    | none => d.core ((d.part q.part).devRank q.prank)
  q.tag.any fun t => (aget? c.out t).isSome

/-- A request whose tag is in the receiver's window is answered with the recorded result and not applied again (R274); an answer that its
source no longer waits for says nothing. -/
def Dev.answerAgain (d : Dev) (q : HomeReq) (t : TagRec) : Dev :=
  let gone := { d with homeQ := d.homeQ.filter fun x => x != q }
  if !d.outstanding q then gone
  else match q.kind with
    | .amo pid _ w64 _ _ _ acq => (d.answerPend q pid 0 (if w64 then 8 else 4) t.result.toNat acq).served q t.result
    | .unlease rd _ _ => (d.finish q fun s => { s.setX rd t.result with lease := none }).served q t.result
    | .sverNext _ _ | .sverNum _ _ _ | .rver _ _ => (d.finish q id).served q t.result
    | .satom pid _ _ => d.answerSatom q pid t.result t.flags
    | .uocBack u => d.applyBack q u
    | .load _ _ _ _ _ | .store _ | .lease _ _ | .lver _ _ _ _ | .pver _ _ _ | .red _ _ _ _ | .agent _ _ => gone

/-- Apply one request at its home. -/
def Dev.applyReq (d : Dev) (q : HomeReq) (luck : DarnLuck) : Dev :=
  match q.kind with
  | .load pid off size dst acq => d.serveLoad q pid off size dst acq
  | .store _ => d.serveStore q
  | .amo pid off w64 op b c acq => d.serveAmo q pid off w64 op b c acq
  | .lease rd len => d.serveLease q rd len
  | .unlease rd buf mask => d.serveUnlease q rd buf mask
  | .sverNext off x => d.serveSver q off none x
  | .sverNum off k x => d.serveSver q off (some k) x
  | .lver rd off k la => d.serveLver q rd off k la
  | .pver pid off k => d.servePver q pid off k
  | .rver off k => d.serveRver q off k
  | .satom pid entry payload => d.serveSatom q pid entry payload luck
  | .uocBack u => d.applyBack q u
  | .red fn w off delta => d.serveRed q fn w off delta
  | .agent _ _ => { d with homeQ := d.homeQ.filter fun x => x != q }

/-- Whether a request is a second copy of an invocation that an ordered buffer holds (R274, R368). -/
def Dev.buffered (d : Dev) (q : HomeReq) : Bool := d.obuf.any fun o => o.req.sameTag q && o.req.arr != q.arr

/-- Serve one request; ordered invocations that its write has admitted go on (R367). -/
def Dev.serveReq (d : Dev) (q : HomeReq) (luck : DarnLuck) : Dev :=
  if d.recordHeld q then d
  else if d.buffered q then { d with homeQ := d.homeQ.filter fun x => x != q }
  else match d.replayed q with
    | some t => d.answerAgain q t
    | none => ((d.countPassed q).applyReq q luck).letIn q.line

/-- What a home does before it serves a line: ordered invocations that a write of another agent has admitted go on (R367), and those that cannot run
at once are admitted (R368). -/
def Dev.readyLine (d : Dev) (line : Nat) : Dev := (d.letIn line).admitLine line

/-! ### Results (R248, R250) -/

/-- Elements of `size` bytes of a result into lanes of a vector register, `(lane, element)` by position. -/
def vecPut (v : Nat) (size : Nat) (raw : List Byte) : List Nat → Nat → Nat
  | [], _ => v
  | l :: t, i =>
    let old := v / 256 ^ (size * l) % 256 ^ size
    let new := leNat ((raw.drop (size * i)).take size)
    vecPut (v - old * 256 ^ (size * l) + new * 256 ^ (size * l)) size raw t (i + 1)

/-- Sign extension of an `n`-byte value to 64 bits. -/
def sextBytes (n x : Nat) : Word := BitVec.ofInt 64 (svOf (8 * n) x)

/-- Write the pending destinations of a result (R248). -/
def Slot.writeResult (s : Slot) (p : Pending) : Slot :=
  match p.post with
  | .sext rd n => s.setX rd (sextBytes n (leNat (p.raw.take n)))
  | .zext rd n => s.setX rd (BitVec.ofNat 64 (leNat (p.raw.take n)))
  | .pair rd => (s.setX rd (BitVec.ofNat 64 (leNat (p.raw.take 8)))).setX (rd + 1) (BitVec.ofNat 64 (leNat (p.raw.drop 8)))
  | .vec vd n lanes => s.setV vd (BitVec.ofNat 512 (vecPut (s.vr vd).toNat n p.raw lanes 0))
  | .twait rd buf lin =>
    { s.setX rd (BitVec.ofNat 64 (leNat (p.raw.take 8))) with swbuf := BitVec.ofNat 64 buf, swlin := BitVec.ofNat 64 lin }
  | .satom rd flags => { s.setX rd (BitVec.ofNat 64 (leNat (p.raw.take 8))) with fflags := s.fflags ||| flags }

/-- Insert a deferred trap in program order. -/
def deferInsert (i : Nat) (t : TrapInfo) : List (Nat × TrapInfo) → List (Nat × TrapInfo)
  | [] => [(i, t)]
  | (j, u) :: r => if i < j then (i, t) :: (j, u) :: r else (j, u) :: deferInsert i t r

/-- A complete result arrives at its thread (R248, R250): it writes its destinations, and a window that covers nothing more is over. With an
error it becomes a deferred trap, and its destinations stay unwritten: its window holds the thread until the trap is taken. -/
def Slot.arriveResult (pid : Nat) (s : Slot) : Slot :=
  match s.pend.find? fun p => p.id == pid && p.need == 0 with
  | none => s
  | some p =>
    let pend := s.pend.filter fun x => x.id != pid
    match p.err with
    | some t => { s with deferred := deferInsert p.id t s.deferred, pend := pend }
    | none =>
      let s := s.writeResult p
      { s with pend := pend, windows := s.windows.filter fun w => decide (0 < w.left) || w.pid != pid }

/-- The deferred trap that a slot takes next (R250): the earliest in program order, and in supervisor mode only one of a result issued since
the trap was taken. -/
def Slot.nextDeferred (s : Slot) : Option (Nat × TrapInfo) := s.deferred.find? fun p => !s.mode || decide (s.trapPid ≤ p.1)

/-- The slot takes that trap at its boundary, once no result is pending; `failed` says that a failed copy request is due there too. -/
def Slot.takeDeferred (tvec : Word) (failed : Bool) (s : Slot) : Slot :=
  match s.nextDeferred with
  | some p =>
    if s.pend.isEmpty then { s.enterTrap tvec p.2 with deferred := s.deferred.erase p, copyHold := s.copyHold || failed } else s
  | none => s

end Sys2Proof.Machine
end

