-- ==== Sys2Proof/Machine/Thread.lean ====
section
/-! DEFINITION. The frame that every instruction of a thread shares: LAHEAD and register parity (R249, R54, steps 5 and 6 of R255), then
its own checks and effect; the supervisor check (R251 "S"); transfers (R245); and the control registers (R125-R128, R265, R266). -/

namespace Sys2Proof.Machine

/-! ### The frame of an instruction -/

/-- Run an instruction of the thread: in the window of a pending destination that it touches it raises LAHEAD; on a register whose parity
fails it raises DATAERR, with a record of kind 0x02; otherwise its body acts, or stops without effect. -/
def Dev.runThread (use : RegUse) (body : Dev → Chk Dev) (d : Dev) : Dev :=
  if d.th.laheadHit use then d.trap d.cur.1 d.cur.2 ⟨.lahead, 0⟩
  else if d.th.parityHit use then d.stopAt d.cur.1 d.cur.2 .parity
  else match body d with
    | .ok d' => d'
    | .error st => d.stopAt d.cur.1 d.cur.2 st

/-- The same for an instruction some of whose checks come before those of the frame (step 3 of R255, and the wait of R134). -/
def Dev.runThreadAfter (pre : Dev → Chk Unit) (use : RegUse) (body : Dev → Chk Dev) (d : Dev) : Dev :=
  match pre d with
  | .ok _ => d.runThread use body
  | .error st => d.stopAt d.cur.1 d.cur.2 st

/-- An instruction acts on the device part of the state alone. -/
def State.onDev (f : Dev → Dev) (s : State) : Host.Outcome State Fault Refusal := .next { s with dev := f s.dev }

/-- A thread's instruction as a step of the machine. -/
def State.thread (use : RegUse) (body : Dev → Chk Dev) (s : State) : Host.Outcome State Fault Refusal :=
  s.onDev (Dev.runThread use body)

def State.threadAfter (pre : Dev → Chk Unit) (use : RegUse) (body : Dev → Chk Dev) (s : State) : Host.Outcome State Fault Refusal :=
  s.onDev (Dev.runThreadAfter pre use body)

/-- The instruction word, for SADDR of ILLEGAL and PRIV (R253). -/
def Dev.word (d : Dev) : Word := d.th.word.setWidth 64

/-- A supervisor-only instruction: PRIV in user mode (step 4 of R255). -/
def Dev.runPriv (use : RegUse) (body : Dev → Chk Dev) (d : Dev) : Dev :=
  if d.th.mode then d.runThread use body else d.trap d.cur.1 d.cur.2 ⟨.priv, d.word⟩

def State.priv (use : RegUse) (body : Dev → Chk Dev) (s : State) : Host.Outcome State Fault Refusal :=
  s.onDev (Dev.runPriv use body)

/-- An instruction that raises ILLEGAL at step 3 of R255. -/
def State.illegal (s : State) : Host.Outcome State Fault Refusal :=
  s.onDev fun d => d.trap d.cur.1 d.cur.2 ⟨.illegal, d.word⟩

/-- The thread waits with its instruction, keeping what the instruction has done so far. -/
def Dev.waitFor (d : Dev) (w : Wait) : Dev := d.stopAt d.cur.1 d.cur.2 (.park w)

/-- A transfer: the thread arrives at `target` (R245). -/
def Dev.jump (d : Dev) (target : Word) : Dev :=
  d.modTh fun s => { s.retireTo target with arrive := some s.pc }

/-! ### Control registers -/

/-- STATUS of slot `k` of core `r` (R126). -/
def Dev.status (d : Dev) (r k : Nat) : Word :=
  let s := d.slot r k
  let t := d.task r k
  let index := (t.map (·.index)).getD 0
  let stream := (t.map (·.desc.queue)).getD 0
  let hrank := if s.guest then s.hrank else r - (d.part s.part).cfg.hbase
  let hslot := if s.guest then s.hslot else k
  BitVec.ofNat 20 index ++ BitVec.ofNat 12 hrank ++ BitVec.ofNat 4 hslot ++ BitVec.ofNat 3 stream ++ BitVec.ofBool s.npend
    ++ (0 : BitVec 21) ++ BitVec.ofBool s.uact ++ BitVec.ofBool s.guest ++ BitVec.ofBool s.mode

/-- LSCFG of a task: g, STASH and SCRATCH in blocks (R125). -/
def Desc.lscfg (x : Desc) : Word :=
  BitVec.ofNat 64 ((if 0 < x.guests then 256 else 0) + x.stash * 16 + x.scratch)

/-- The value of a control register of the thread (R125). The numbers without a register read 0 here; an access to them raises
ILLEGAL. CYCLE is the count when the access executes, in stage 3, two cycles after its issue (R266). -/
def Dev.crGet (d : Dev) (n : BitVec 6) : Word :=
  let s := d.th
  let t := d.task d.cur.1 d.cur.2
  match n.toNat with
  | 0x00 => d.status d.cur.1 d.cur.2
  | 0x01 => BitVec.ofNat 64 ((t.map (·.index)).getD 0)
  | 0x02 => BitVec.ofNat 64 (d.cur.1 - (d.part s.part).cfg.hbase)
  | 0x03 => BitVec.ofNat 64 d.modnum
  | 0x04 => d.curCore.cycle + 2
  | 0x05 => s.fflags.setWidth 64
  | 0x06 => s.frm.setWidth 64
  | 0x07 => s.mfmt
  | 0x08 => s.msca
  | 0x09 => s.mscb
  | 0x0A => s.mosh
  | 0x0B => s.swbuf
  | 0x0C => s.swlin
  | 0x0D => vget d.curCore.cpwp 0 0
  | 0x0E => vget d.curCore.cpwp 1 0
  | 0x0F => vget d.curCore.cpwp 2 0
  | 0x10 => vget d.curCore.cpwp 3 0
  | 0x11 => s.uixid
  | 0x12 => s.uvec
  | 0x13 => s.uepc
  | 0x14 => s.ucause
  | 0x15 => s.uaddr
  | 0x16 => s.unote
  | 0x17 => (s.own.map (·.lscfg)).getD ((t.map (·.desc.lscfg)).getD 0)
  | 0x18 => (t.map (·.desc.tilemask)).getD 0
  | 0x19 => BitVec.ofNat 64 ((t.map (·.group)).getD 0)
  | 0x20 => d.curCore.tvec
  | 0x21 => s.sepc
  | 0x22 => s.scause
  | 0x23 => s.saddr
  | 0x24 => s.sscratch
  | _ => 0

/-- The fields of MFMT, of MSCA and MSCB that can be written (R127). -/
def mfmtMask : Word := 0x700FF
def mscMask : Word := 0x800000000007FFFF

/-- Write a control register: its RW fields take the value and everything else is ignored (R125-R127); its parity is good again. The
supervisor's registers are reached only in supervisor mode. -/
def Dev.crSet (d : Dev) (n : BitVec 6) (v : Word) : Dev :=
  let d := d.modTh fun s => s.goodCr [n.toNat]
  match n.toNat with
  | 0x05 => d.modTh fun s => { s with fflags := v.setWidth 6 }
  | 0x06 => d.modTh fun s => { s with frm := v.setWidth 3 }
  | 0x07 => d.modTh fun s => { s with mfmt := v &&& mfmtMask }
  | 0x08 => d.modTh fun s => { s with msca := v &&& mscMask }
  | 0x09 => d.modTh fun s => { s with mscb := v &&& mscMask }
  | 0x0A => d.modTh fun s => { s with mosh := v &&& 0xF }
  | 0x12 => d.modTh fun s => { s with uvec := v }
  | 0x13 => d.modTh fun s => { s with uepc := v }
  | 0x14 => d.modTh fun s => { s with ucause := v &&& 0xFF }
  | 0x15 => d.modTh fun s => { s with uaddr := v }
  | 0x16 => d.modTh fun s => { s with unote := v &&& 0x7F }
  | 0x20 => d.modCur fun c => { c with tvec := v }
  | 0x21 => d.modTh fun s => { s with sepc := v }
  | 0x22 => d.modTh fun s => { s with scause := v &&& 0xFF }
  | 0x23 => d.modTh fun s => { s with saddr := v }
  | 0x24 => d.modTh fun s => { s with sscratch := v }
  | _ => d

/-- Numbers without a register (R265). -/
def crReserved (n : BitVec 6) : Bool := decide ((0x1A ≤ n.toNat ∧ n.toNat < 0x20) ∨ 0x25 ≤ n.toNat)
/-- The supervisor's registers. -/
def crPriv (n : BitVec 6) : Bool := decide (0x20 ≤ n.toNat ∧ n.toNat ≤ 0x24)

/-- A control register access (R265): `new` gives the value to write from the old one, none when nothing is written. -/
def State.crAccess (rd ra : RegNo) (n : BitVec 6) (new : Word → Word → Option Word) (s : State) : Host.Outcome State Fault Refusal :=
  if crReserved n then s.illegal
  else
    let use : RegUse := { rx := [ra], wx := [rd], rcr := [n] }
    let body (d : Dev) : Chk Dev :=
      let old := d.crGet n
      let d' := match new old (d.x ra) with
        | some v => d.crSet n v
        | none => d
      .ok ((d'.setX rd old).retire)
    if crPriv n then s.priv use body else s.thread use body

end Sys2Proof.Machine
end

