-- ==== Sys2Proof/Machine/Memory.lean ====
section
/-! DEFINITION. Scalar loads and stores, ordered accesses, fences and stash mapping (chapter 10 of the spec, R267-R273). -/

namespace Sys2Proof.Machine

/-! ### Loads and stores (R267-R269) -/

/-- The address operand X[ra] + sext(off9) × z (R267). -/
def scaledOff (base : Word) (off : BitVec 9) (z : Nat) : Word := base + off.signExtend 64 * BitVec.ofNat 64 z

/-- A scalar load of `z` bytes. -/
def State.scalarLoad (rt ra : RegNo) (sg : SegNo) (la : La) (off : BitVec 9) (z : Nat) (post : Post) (s : State) :
    Host.Outcome State Fault Refusal :=
  s.thread { rx := [ra], wx := [rt], rs := [sg] } fun d => d.load sg (scaledOff (d.x ra) off z) z 1 post la none

/-- A scalar store of the low `z` bytes of X[rt]. -/
def State.scalarStore (rt ra : RegNo) (sg : SegNo) (off : BitVec 9) (z : Nat) (s : State) : Host.Outcome State Fault Refusal :=
  s.thread { rx := [ra, rt], rs := [sg] } fun d => d.store sg (scaledOff (d.x ra) off z) z 1 ((d.x rt).toNat % 256 ^ z) none

/-- `lb` -/
def execLb (rt ra : RegNo) (sg : SegNo) (la : La) (off : BitVec 9) (s : State) := s.scalarLoad rt ra sg la off 1 (.sext rt 1)
/-- `lbu` -/
def execLbu (rt ra : RegNo) (sg : SegNo) (la : La) (off : BitVec 9) (s : State) := s.scalarLoad rt ra sg la off 1 (.zext rt 1)
/-- `lh` -/
def execLh (rt ra : RegNo) (sg : SegNo) (la : La) (off : BitVec 9) (s : State) := s.scalarLoad rt ra sg la off 2 (.sext rt 2)
/-- `lhu` -/
def execLhu (rt ra : RegNo) (sg : SegNo) (la : La) (off : BitVec 9) (s : State) := s.scalarLoad rt ra sg la off 2 (.zext rt 2)
/-- `lw` -/
def execLw (rt ra : RegNo) (sg : SegNo) (la : La) (off : BitVec 9) (s : State) := s.scalarLoad rt ra sg la off 4 (.sext rt 4)
/-- `lwu` -/
def execLwu (rt ra : RegNo) (sg : SegNo) (la : La) (off : BitVec 9) (s : State) := s.scalarLoad rt ra sg la off 4 (.zext rt 4)
/-- `ld` -/
def execLd (rt ra : RegNo) (sg : SegNo) (la : La) (off : BitVec 9) (s : State) := s.scalarLoad rt ra sg la off 8 (.zext rt 8)
/-- `sb` -/
def execSb (rt ra : RegNo) (sg : SegNo) (off : BitVec 9) (s : State) := s.scalarStore rt ra sg off 1
/-- `sh` -/
def execSh (rt ra : RegNo) (sg : SegNo) (off : BitVec 9) (s : State) := s.scalarStore rt ra sg off 2
/-- `sw` -/
def execSw (rt ra : RegNo) (sg : SegNo) (off : BitVec 9) (s : State) := s.scalarStore rt ra sg off 4
/-- `sd` -/
def execSd (rt ra : RegNo) (sg : SegNo) (off : BitVec 9) (s : State) := s.scalarStore rt ra sg off 8

/-! ### Reads made at once (R333, R356) -/

/-- What a read made at once finds: its value, and the first byte of a poisoned line. -/
structure Peeked where
  val : Nat
  bad : Option Nat
  deriving DecidableEq, Repr

/-- A plain load of a part of one line by the thread, performed now: from the thread's leased line (R279), or at the home under the core's own
stores (R188). A held line (R175), or an earlier read or atomic of the thread to the bytes that is on its way (R189), makes the thread wait; an
older plain copy goes from the core. The home serves the read of a held line in its turn (`Slot.turns`). -/
def Dev.peekLine (d : Dev) (t : Trans) (line off k : Nat) : Chk (Peeked × Dev) :=
  let (r, sl) := d.cur
  let mask := byteMask off k
  match d.th.lease.filter (·.line == line) with
  | some l => .ok (⟨lineNat (lineMerge l.snap l.buf l.mask) off k, none⟩, d)
  | none =>
    if d.homeQ.any (fun q => q.touches r sl line mask && !q.kind.isStore) || d.sidelined.any (·.touches r sl line mask) then
      park (.line line mask)
    else if if d.th.turns.contains line then d.leased line || !d.uocTags line else d.lineHeld line then park (.peek line mask)
    else if d.poisoned line then .ok (⟨0, some t.gva⟩, d)
    else
      let d := ((d.prepare line).touch line (homeSlice t.leaf t.pa) d.th.part (leafClass t.leaf) t.pg false).l1Drop r line
      let (w, m) := (d.core r).wbView sl line d.accSeq
      .ok (⟨lineNat (lineMerge (d.lineNow line) w m) off k, none⟩, d)

/-- The same for a translated piece. -/
def Dev.peekPiece (d : Dev) (t : Trans) (n : Nat) : Chk (Peeked × Dev) :=
  (piecesOf t.pa n).foldlM (fun (acc : Peeked × Dev) p => do
    let (x, d) ← acc.2.peekLine t p.1 p.2.1 p.2.2.1
    .ok (⟨acc.1.val + x.val * 256 ^ p.2.2.2, acc.1.bad.orElse fun _ => x.bad⟩, d)) (⟨0, none⟩, d)

/-- The pieces of a range, lowest first. -/
def Dev.peekPieces (d : Dev) (ps : List (Trans × Nat × Nat)) : Chk (Peeked × Dev) :=
  ps.foldlM (fun (acc : Peeked × Dev) p => do
    let (x, d) ← acc.2.peekPiece p.1 p.2.2
    .ok (⟨acc.1.val + x.val * 256 ^ p.2.1, acc.1.bad.orElse fun _ => x.bad⟩, d)) (⟨0, none⟩, d)

/-! ### Ordered accesses (R270) -/

/-- The width that oc.W selects. -/
def ocBytes (w : Bool) : Nat := if w then 8 else 4

/-- `lacq`: an aligned load that acquires. -/
def execLacq (rd ra : RegNo) (w : Bool) (sc : MemScope) (sg : SegNo) (la : La) (s : State) : Host.Outcome State Fault Refusal :=
  s.thread { rx := [ra], wx := [rd], rs := [sg] } fun d => d.load sg (d.x ra) (ocBytes w) (ocBytes w) (.sext rd (ocBytes w)) la (some sc)

/-- `srel`: a release, then an aligned store of the low bytes of X[rd]. -/
def execSrel (rd ra : RegNo) (w : Bool) (sc : MemScope) (sg : SegNo) (s : State) : Host.Outcome State Fault Refusal :=
  s.thread { rx := [ra, rd], rs := [sg] } fun d =>
    d.store sg (d.x ra) (ocBytes w) (ocBytes w) ((d.x rd).toNat % 256 ^ ocBytes w) (some sc)

/-! ### Fences (R271, R196) -/

/-- Requests that read for their thread. -/
def ReqKind.reads : ReqKind → Bool
  | .load _ _ _ _ _ | .amo _ _ _ _ _ _ _ | .satom _ _ _ | .pver _ _ _ => true
  | .store _ | .lease _ _ | .unlease _ _ _ | .sverNext _ _ | .sverNum _ _ _ | .lver _ _ _ _ | .rver _ _ | .uocBack _ | .red _ _ _ _
  | .agent _ _ => false

/-- Whether every earlier load of the thread in slot `k` of core `r` is performed: no request of its that returns a value waits at a home, in an ordered buffer or
refused by one, or at another module. -/
def Dev.loadsDone (d : Dev) (r k : Nat) : Bool :=
  let mine (q : HomeReq) : Bool := q.rank == r && q.slot == k && q.kind.reads
  !d.homeQ.any mine && !d.sidelined.any mine
    && !(d.remote.any fun p => p.2.rank == r && p.2.slot == k && p.2.chan.isNone && p.2.pid.isSome)
def Dev.loadsPerformed (d : Dev) : Bool := d.loadsDone d.cur.1 d.cur.2

/-- `fence.acq`: the thread's later accesses wait until its earlier loads are performed; then it acquires. -/
def execFenceAcq (sc : MemScope) (s : State) : Host.Outcome State Fault Refusal :=
  s.thread {} fun d => do
    d.acqHeld
    if d.loadsPerformed then .ok ((d.acquire sc).retire) else park (.fence none)

/-- `fence.rel`: later stores, messages and engine requests wait for the release (`relHeld`); the thread itself goes on. An earlier
`fence.rel` comes first. -/
def execFenceRel (sc : MemScope) (s : State) : Host.Outcome State Fault Refusal :=
  s.thread {} fun d => do
    d.relHeld
    .ok ((d.modTh fun t => { t with relMark := some (d.accSeq, sc) }).retire)

/-- `fence.ar`: both; later loads too wait for the earlier stores. -/
def execFenceAr (sc : MemScope) (s : State) : Host.Outcome State Fault Refusal :=
  s.thread {} fun d => do
    d.acqHeld
    let g := d.gateWaiting sc
    if d.loadsPerformed && d.gateOpen g then .ok ((d.acquire sc).retire) else park (.fence (some g))

/-! ### Stash mapping (R272, R273) -/

/-- The stash entry that X[rd] names, by its physical local line: SEGV unless the offset is that of a line of the task's stash. A guest
has no stash (R146). -/
def Dev.stashEntry (d : Dev) (lo : Word) : Chk Nat :=
  match d.th.guest, d.task d.cur.1 d.cur.2 with
  | false, some t =>
    if t.s ≤ lo.toNat ∧ lo.toNat < t.s + t.t ∧ lo.toNat % 128 = 0 then .ok ((t.origin + lo.toNat) / 128) else raise .segv lo
  | _, _ => raise .segv lo

/-- The write-back of a DIRTY entry enters the write buffer as a store of the thread (R273). -/
def Dev.writeBack (d : Dev) (i : Nat) (e : StashEntry) : Dev :=
  let d := d.stamp
  let n : WbEntry := { line := e.line, data := d.curCore.stashLine i, mask := BitVec.allOnes 128, glue := 0, seq := d.accSeq - 1, pg := ⟨e.gva / 65536, e.large⟩, part := e.part, home := e.home, srel := none, slots := [d.cur.2], sent := false, wback := true, cls := e.cls, bad := d.curCore.badLmem.contains i }
  d.modCur fun c => { c with wb := c.wb ++ [n] }

/-- The effect of `sunmap` on an entry (R273). The line stays registered until a write-back of it that is still in the write buffer is
performed. -/
def Dev.unmapEntry (d : Dev) (i : Nat) : Dev :=
  match aget? d.curCore.stash i with
  | none => d
  | some e =>
    let d := match e.st with
      | .dirty => d.writeBack i e
      | .clean => if d.curCore.wb.any fun w => w.wback && w.line == e.line then d else { d with regs := adel d.regs e.line }
      | .mapped => d
    d.modCur fun c => { c with stash := adel c.stash i }

/-- Entries of the core whose state needs the write buffer when they are unmapped. -/
def Dev.dirtyAt (d : Dev) (i : Nat) : Nat := if (aget? d.curCore.stash i).any (·.st == .dirty) then 1 else 0

/-- A line that the thread's own lease record names raises LEASE (R280). -/
def Dev.notLeased (d : Dev) (line : Nat) (gva : Nat) : Chk Unit :=
  ensure (!d.th.lease.any (·.line == line)) .lease (BitVec.ofNat 64 gva)

/-- `sunmap` of an entry, with room in the write buffer. -/
def Dev.sunmapNow (d : Dev) (i : Nat) : Chk Dev := do
  d.relHeld
  if d.wbFree d.cur.1 (d.dirtyAt i) then .ok ((d.unmapEntry i).retire) else park (.wb (d.dirtyAt i))

/-- `smap` (R272). -/
def execSmap (rd ra : RegNo) (sg : SegNo) (s : State) : Host.Outcome State Fault Refusal :=
  s.thread { rx := [rd, ra], rs := [sg] } fun d => do
    let i ← d.stashEntry (d.x rd)
    let seg := d.th.seg sg
    if segL seg then d.sunmapNow i
    else
      let gva ← segCheck seg (d.x ra) 128 { r := true }
      ensure (gva % 128 == 0) .misalign (BitVec.ofNat 64 gva)
      let t ← d.translate { read := true, user := d.user, twinOk := true } gva
      let line := t.pa / 128
      d.notLeased line gva
      if (aget? d.curCore.stash i).any (·.gva == gva) then .ok d.retire
      else
        d.relHeld
        let other := (d.curCore.stash.find? fun p => p.2.gva == gva).map (·.1)
        let need := d.dirtyAt i + (match other with
          | some j => d.dirtyAt j
          | none => 0)
        if !d.wbFree d.cur.1 need then park (.wb need)
        else
          let d := match other with
            | some j => d.unmapEntry j
            | none => d
          let d := d.unmapEntry i
          let e : StashEntry := ⟨.mapped, gva, line, !leafWr t.leaf || t.twin, d.th.part, t.large, leafClass t.leaf, homeSlice t.leaf t.pa⟩
          .ok ((d.modCur fun c => { c with stash := aset c.stash i e }).retire)

/-- `sunmap` (R273). -/
def execSunmap (rd : RegNo) (s : State) : Host.Outcome State Fault Refusal :=
  s.thread { rx := [rd] } fun d => do
    let i ← d.stashEntry (d.x rd)
    d.sunmapNow i

/-- `sflush` (R273): a DIRTY entry is written back and becomes CLEAN. -/
def execSflush (rd : RegNo) (s : State) : Host.Outcome State Fault Refusal :=
  s.thread { rx := [rd] } fun d => do
    let i ← d.stashEntry (d.x rd)
    d.relHeld
    match aget? d.curCore.stash i with
    | some e =>
      if e.st = .dirty then
        if d.wbFree d.cur.1 1 then
          .ok (((d.writeBack i e).modCur fun c => { c with stash := aset c.stash i { e with st := .clean } }).retire)
        else park (.wb 1)
      else .ok d.retire
    | none => .ok d.retire

end Sys2Proof.Machine
end

