-- ==== Sys2Proof/Machine/Atomics.lean ====
section
/-! DEFINITION. Atomic operations, reductions, leases and versioned words (chapter 11 of the spec, R274-R283). -/

namespace Sys2Proof.Machine

/-! ### Tagged requests (R274) -/

/-- An instruction that needs a 257th tag parks. -/
def Dev.tagRoom (d : Dev) : Chk Unit := if d.curCore.tagFree then .ok () else park .tags

/-- Send a request of the thread to the home of its line: with a tag of the core when `tagged` holds. -/
def Dev.ask (d : Dev) (t : Trans) (tagged : Bool) (kind : ReqKind) (scope : MemScope) (srel remote : Bool) : Dev :=
  let d := d.stamp
  let n := d.curCore.tagSeq
  let q := d.reqOf t (d.accSeq - 1) (if tagged then some n.toNat else none) kind scope srel remote
  let d := if tagged then d.modCur fun c => { c with tagSeq := n + 1, out := aset c.out n.toNat ⟨some q, none, none, none, 1, false⟩ } else d
  d.enqueue q

/-- The checks of a global operand of `n` bytes that lies in one line: the segment, alignment, translation, and R280. -/
def Dev.lineOperand (d : Dev) (sg : SegNo) (off : Word) (n align : Nat) (need : SegNeed) (acc : Access) : Chk Trans := do
  let gva ← segCheck (d.th.seg sg) off n need
  ensure (gva % align == 0) .misalign (BitVec.ofNat 64 gva)
  let t ← d.translate acc gva
  if t.remote then .ok t
  else
    d.notLeased (t.pa / 128) gva
    .ok t

/-! ### AMO family (R276) -/

/-- oc.ORD as the acquire and release of R194. -/
def ordAcq (o : MemOrd) : Bool := o == .acq || o == .ar
def ordRel (o : MemOrd) : Bool := o == .rel || o == .ar

/-- An AMO: X[rd] is the operand, X[rd + 1] the new value of `amocas`. It executes at the home of its line, or of the target module. -/
def State.amo (op : AmoOp) (rd ra : RegNo) (w : Bool) (ord : MemOrd) (sc : MemScope) (sg : SegNo) (la : La) (s : State) :
    Host.Outcome State Fault Refusal :=
  let rx := if op = .cas then [ra, rd, rd + 1] else [ra, rd]
  s.thread { rx := rx, wx := [rd], rs := [sg] } fun d => do
    let z := ocBytes w
    let t ← d.lineOperand sg (d.x ra) z z { r := true, w := true, l0 := true }
      { read := true, write := true, user := d.user, remoteOk := true }
    d.acqHeld
    d.relHeld
    d.tagRoom
    let (r, k) := d.cur
    let pid := d.th.nextPid
    let acq := if ordAcq ord then some sc else none
    let b := d.x rd
    let c := d.x (rd + 1)
    let d := d.retireLong r k (.sext rd z) (List.replicate z 0) 1 la
    let d := if ordAcq ord then d.modTh fun s => { s with acqPid := s.acqPid ++ [pid] } else d
    let at_ (t : Trans) (remote : Bool) : Dev :=
      d.ask t true (.amo pid (t.pa % 128) w op b c acq) sc (ordRel ord) remote
    if !t.remote then .ok (at_ t false)
    else if remoteModule t.pa = d.modnum then
      match d.exportOf d.modnum d.th.part t.pa z true with
      | some pa => .ok (at_ (t.at_ pa) true)
      | none => .ok ((d.logRefused d.th.part r k t.gva).modTh fun s =>
          { s.modPend pid (Pending.fail ⟨.dataerr, BitVec.ofNat 64 t.gva⟩) with acqPid := s.acqPid.filter (· != pid) })
    else
      let d := d.stamp
      let n := d.curCore.tagSeq
      let seq := d.accSeq - 1
      let gate := if ordRel ord then some (d.gateAt r k seq sc none) else none
      let d := d.modCur fun c => { c with tagSeq := n + 1, out := aset c.out n.toNat ⟨none, none, some seq, none, 1, false⟩ }
      .ok { d with remote := aset d.remote seq (d.remoteOf t (some pid) 0 z seq acq (some n.toNat) gate) }

/-- `amoswap` -/
def execAmoswap (rd ra : RegNo) (w : Bool) (ord : MemOrd) (sc : MemScope) (sg : SegNo) (la : La) (s : State) :=
  s.amo .swap rd ra w ord sc sg la
/-- `amoadd` -/
def execAmoadd (rd ra : RegNo) (w : Bool) (ord : MemOrd) (sc : MemScope) (sg : SegNo) (la : La) (s : State) :=
  s.amo .add rd ra w ord sc sg la
/-- `amoand` -/
def execAmoand (rd ra : RegNo) (w : Bool) (ord : MemOrd) (sc : MemScope) (sg : SegNo) (la : La) (s : State) :=
  s.amo .and rd ra w ord sc sg la
/-- `amoor` -/
def execAmoor (rd ra : RegNo) (w : Bool) (ord : MemOrd) (sc : MemScope) (sg : SegNo) (la : La) (s : State) :=
  s.amo .or rd ra w ord sc sg la
/-- `amoxor` -/
def execAmoxor (rd ra : RegNo) (w : Bool) (ord : MemOrd) (sc : MemScope) (sg : SegNo) (la : La) (s : State) :=
  s.amo .xor rd ra w ord sc sg la
/-- `amomin` -/
def execAmomin (rd ra : RegNo) (w : Bool) (ord : MemOrd) (sc : MemScope) (sg : SegNo) (la : La) (s : State) :=
  s.amo .min rd ra w ord sc sg la
/-- `amomax` -/
def execAmomax (rd ra : RegNo) (w : Bool) (ord : MemOrd) (sc : MemScope) (sg : SegNo) (la : La) (s : State) :=
  s.amo .max rd ra w ord sc sg la
/-- `amominu` -/
def execAmominu (rd ra : RegNo) (w : Bool) (ord : MemOrd) (sc : MemScope) (sg : SegNo) (la : La) (s : State) :=
  s.amo .minu rd ra w ord sc sg la
/-- `amomaxu` -/
def execAmomaxu (rd ra : RegNo) (w : Bool) (ord : MemOrd) (sc : MemScope) (sg : SegNo) (la : La) (s : State) :=
  s.amo .maxu rd ra w ord sc sg la
/-- `amocas`: an odd rd raises ILLEGAL. -/
def execAmocas (rd ra : RegNo) (w : Bool) (ord : MemOrd) (sc : MemScope) (sg : SegNo) (la : La) (s : State) :=
  if evenReg rd then s.amo .cas rd ra w ord sc sg la else s.illegal

/-! ### RED family (R277, R278, R203) -/

/-- A RED (R277): performed in the update-only copy of the core, and the thread goes on at once. Where it cannot be performed yet it waits at the
home of its line, without its thread: the thread's earlier accesses to the bytes come first (R189), an earlier acquiring read (R194), an
earlier `fence.rel` (R196), a held line (R175, R205), room and a tag for the copy that leaves (R123, R274); so does one on a lost line, which is
an error of the thread (R39). -/
def State.red (fn : Nat) (w : Bool) (ra rb : RegNo) (sg : SegNo) (s : State) : Host.Outcome State Fault Refusal :=
  s.thread { rx := [ra, rb], rs := [sg] } fun d => do
    let z := ocBytes w
    ensure (!(fn == 6 && d.tpart.cfg.det)) .detviol 0
    let t ← d.lineOperand sg (d.x ra) z z { w := true, l0 := true } { write := true, user := d.user }
    let line := t.pa / 128
    let off := t.pa % 128
    let open_ : Bool := match d.relHeld with
      | .ok _ => true
      | .error _ => false
    let scope := (d.th.relMark.map (·.2)).getD .cr
    let d := d.stamp
    let q := d.reqOf t (d.accSeq - 1) none (.red fn w off (d.x rb)) scope (!open_) false
    let waits := !open_ || !d.th.acqPid.isEmpty || d.lineBusy d.cur.1 d.cur.2 line (byteMask off z) || d.lineHeld line
      || d.lostLine line || !d.redRoom q fn w
    .ok ((if waits then d.enqueue q else d.redApply q fn w off (d.x rb)).retire)

/-- `redadd` -/
def execRedadd (w : Bool) (ra rb : RegNo) (sg : SegNo) (s : State) := s.red 0 w ra rb sg
/-- `redand` -/
def execRedand (w : Bool) (ra rb : RegNo) (sg : SegNo) (s : State) := s.red 1 w ra rb sg
/-- `redor` -/
def execRedor (w : Bool) (ra rb : RegNo) (sg : SegNo) (s : State) := s.red 2 w ra rb sg
/-- `redxor` -/
def execRedxor (w : Bool) (ra rb : RegNo) (sg : SegNo) (s : State) := s.red 3 w ra rb sg
/-- `redmin` -/
def execRedmin (w : Bool) (ra rb : RegNo) (sg : SegNo) (s : State) := s.red 4 w ra rb sg
/-- `redmax` -/
def execRedmax (w : Bool) (ra rb : RegNo) (sg : SegNo) (s : State) := s.red 5 w ra rb sg
/-- `redfadd` -/
def execRedfadd (w : Bool) (ra rb : RegNo) (sg : SegNo) (s : State) := s.red 6 w ra rb sg

/-! ### Leases (R279, R280) -/

/-- min(max(uv(x), 1), LEASEMAX), where the field's 0 means 4,096 (R76). -/
def leaseLen (x : Word) (leasemax : Nat) : Nat := min (max x.toNat 1) (if leasemax = 0 then 4096 else leasemax)

/-- `lease`: a second one raises LEASE, before any check of its operand; otherwise the thread parks until the home grants the line. -/
def execLease (rd ra rb : RegNo) (sg : SegNo) (s : State) : Host.Outcome State Fault Refusal :=
  s.thread { rx := [ra, rb], wx := [rd], rs := [sg] } fun d => do
    ensure d.th.lease.isNone .lease (BitVec.ofNat 64 (segBase (d.th.seg sg)) + d.x ra)
    let gva ← segCheck (d.th.seg sg) (d.x ra) 1 { r := true, w := true, l0 := true }
    let t ← d.translate { write := true, user := d.user, lease := true } gva
    d.acqHeld
    .ok ((d.ask t false (.lease rd (leaseLen (d.x rb) d.tpart.cfg.leasemax)) .cr false false).waitFor .home)

/-- `unlease`: a record that is none or names another line gives 0; otherwise the thread waits for the home's answer. The releases of `srel`
stores in the buffer come first (R194, R270). -/
def execUnlease (rd ra : RegNo) (sg : SegNo) (s : State) : Host.Outcome State Fault Refusal :=
  s.thread { rx := [ra], wx := [rd], rs := [sg] } fun d => do
    let gva ← segCheck (d.th.seg sg) (d.x ra) 1 { r := true, w := true, l0 := true }
    let t ← d.translate { read := true, write := true, user := d.user } gva
    match d.th.lease with
    | some l =>
      if l.line = t.pa / 128 then
        d.acqHeld
        d.relHeld
        l.rels.forM fun m => d.behind (d.gateAt d.cur.1 d.cur.2 m.1 m.2 none)
        d.tagRoom
        .ok ((d.ask t true (.unlease rd l.buf l.mask) .cr false false).waitFor .home)
      else .ok ((d.setX rd 0).retire)
    | none => .ok ((d.setX rd 0).retire)

/-! ### Versioned words (R281-R283) -/

/-- The checks of a versioned instruction (R282). -/
def Dev.versOperand (d : Dev) (sg : SegNo) (off : Word) (write : Bool) : Chk Trans :=
  d.lineOperand sg off 8 8 { r := !write, w := write, v := true, l0 := true }
    { read := !write, write := write, user := d.user, versioned := true }

/-- `sver` in both forms: a release, then a request whose answer the thread waits for. -/
def State.sver (ra rb : RegNo) (sg : SegNo) (rx : List RegNo) (kind : Dev → Nat → Word → ReqKind) (s : State) :
    Host.Outcome State Fault Refusal :=
  s.thread { rx := ra :: rb :: rx, rs := [sg] } fun d => do
    let t ← d.versOperand sg (d.x ra) true
    d.acqHeld
    d.relHeld
    d.tagRoom
    .ok ((d.ask t true (kind d (t.pa % 128) (d.x rb)) .pkg true false).waitFor .home)

/-- `sver rb, seg:(ra)`: the next version. -/
def execSverNext (ra rb : RegNo) (sg : SegNo) (s : State) := s.sver ra rb sg [] fun _ off v => .sverNext off v
/-- `sver rd, rb, seg:(ra)`: version X[rd][31:0]. -/
def execSverNumbered (rd ra rb : RegNo) (sg : SegNo) (s : State) :=
  s.sver ra rb sg [rd] fun d off v => .sverNum off ((d.x rd).setWidth 32) v

/-- `lver`: the thread parks at the home while version k is future; an odd rd raises ILLEGAL. -/
def execLver (rd ra rb : RegNo) (sg : SegNo) (la : La) (s : State) : Host.Outcome State Fault Refusal :=
  if !evenReg rd then s.illegal
  else s.thread { rx := [ra, rb], wx := [rd, rd + 1], rs := [sg] } fun d => do
    let t ← d.versOperand sg (d.x ra) false
    d.acqHeld
    .ok ((d.ask t false (.lver rd (t.pa % 128) ((d.x rb).setWidth 32) la) .pkg false false).waitFor .home)

/-- `pver`: long-latency; an odd rd raises ILLEGAL. Later accesses wait for it, since it acquires when it returns a version. -/
def execPver (rd ra rb : RegNo) (sg : SegNo) (la : La) (s : State) : Host.Outcome State Fault Refusal :=
  if !evenReg rd then s.illegal
  else s.thread { rx := [ra, rb], wx := [rd, rd + 1], rs := [sg] } fun d => do
    let t ← d.versOperand sg (d.x ra) false
    d.acqHeld
    let pid := d.th.nextPid
    let k := (d.x rb).setWidth 32
    let d := d.retireLong d.cur.1 d.cur.2 (.pair rd) (List.replicate 16 0) 1 la
    let d := d.modTh fun s => { s with acqPid := s.acqPid ++ [pid] }
    .ok (d.ask t false (.pver pid (t.pa % 128) k) .pkg false false)

/-- `rver`: versions up to X[rb][31:0] are retired; the thread waits for the answer. -/
def execRver (ra rb : RegNo) (sg : SegNo) (s : State) : Host.Outcome State Fault Refusal :=
  s.thread { rx := [ra, rb], rs := [sg] } fun d => do
    let t ← d.versOperand sg (d.x ra) true
    d.acqHeld
    d.relHeld
    d.tagRoom
    .ok ((d.ask t true (.rver (t.pa % 128) ((d.x rb).setWidth 32)) .cr false false).waitFor .home)

end Sys2Proof.Machine
end

