-- ==== Sys2Proof/Machine/Engine.lean ====
section
/-! DEFINITION. Accesses of a core's engines (R161, R173, R187): global bytes at their homes, local bytes with the first touch of a stash
entry (R131), and how they stop. -/

namespace Sys2Proof.Machine

/-- Translate every page of a range, lowest first: its pieces with their offsets. -/
def engPages (q part : Nat) (a : Access) (gva n done : Nat) : Nat → Eng (List (Trans × Nat × Nat))
  | 0 => pure []
  | fuel + 1 => do
    if n ≤ done then pure []
    else
      let g := gva + done
      let k := min (65536 - g % 65536) (n - done)
      let t ← engTrans q part a g
      let rest ← engPages q part a gva n (done + k) fuel
      pure ((t, done, k) :: rest)

def engRange (q part : Nat) (a : Access) (gva n : Nat) : Eng (List (Trans × Nat × Nat)) := engPages q part a gva n 0 (n / 65536 + 2)

/-- `n` bytes that the spec does not state, as a value (log entry 5). -/
def Dev.freeBytes (d : Dev) : Nat → Nat × Dev
  | 0 => (0, d)
  | n + 1 =>
    let (x, d) := d.freeBytes n
    let (w, d) := d.free
    (x + w.toNat % 256 * 256 ^ n, d)

/-- Whether a translated piece lies on another module (R41). -/
def Dev.isFar (d : Dev) (t : Trans) : Bool := t.remote && remoteModule t.pa != d.modnum

/-- Read one translated piece: a held line holds the access, poison is DATAERR. A REMOTE piece is read at the module that it names: this one
through its export table, another one by a request that it has to answer (R42, R43). -/
def engReadPiece (part : Nat) (t : Trans) (n : Nat) : Eng Nat := fun d =>
  let at_ (pa : Nat) (leaf : Word) : Except EStop (Nat × Dev) :=
    if d.rangePoisoned pa n then .error (.fail .dataerr t.gva)
    else match d.rangeHeld pa n with
      | some l => .error (.hold (some l) false)
      | none => .ok (d.agentRead pa n part leaf t.pg)
  if !t.remote then at_ t.pa t.leaf
  else if d.isFar t then .error (.far t.gva t.pa n t.large)
  else match d.exportOf d.modnum part t.pa n false with
    | some pa => at_ pa (targetLeaf t.leaf)
    | none => .error (.refused t.gva)

/-- Read the pieces of a range: the little-endian value. -/
def engReadPieces (part : Nat) : List (Trans × Nat × Nat) → Eng Nat
  | [] => pure 0
  | (t, o, n) :: rest => do
    let x ← engReadPiece part t n
    let y ← engReadPieces part rest
    pure (x * 256 ^ o + y)

/-- Write the bytes of a value to the pieces of a range, at their homes. -/
def engWritePieces (part x : Nat) : List (Trans × Nat × Nat) → Eng Unit
  | [] => pure ()
  | (t, o, n) :: rest => do
    let d ← get
    match d.rangeHeld t.pa n with
    | some l => Eng.stop (.hold (some l) true)
    | none =>
      if d.rangeLost t.pa n then Eng.stop (.fail .dataerr t.gva)
      else
        Eng.upd fun d => d.agentWrite t.pa n (x / 256 ^ o % 256 ^ n) part t.leaf t.pg
        engWritePieces part x rest

/-! ### Stash fills (R131, R133, R272) -/

/-- A MAPPED entry of core `r` fills: it is translated afresh, any other registration and the update-only copies of the line are recalled,
and it becomes CLEAN and registered; no L1 holds a copy of a registered line (R132). The bytes of a poisoned line come with their poison, which
who consumes them meets (R54); a lost line is DATAERR (R39). -/
def fillEntry (r i : Nat) : Eng Unit := do
  let d ← get
  match aget? (d.core r).stash i with
  | some e =>
    if e.st = .mapped then
      let t ← engTrans (r / 4) e.part { read := true, user := false, twinOk := true } e.gva
      let line := t.pa / 128
      let d ← get
      if d.lostLine line then Eng.stop (.fail .dataerr e.gva)
      else if d.lineHeld line then Eng.stop (.hold (some line) false)
      else
        Eng.upd fun d =>
          let home := homeSlice t.leaf t.pa
          let d := ((d.prepare line).recallStash line).touch line home e.part (leafClass t.leaf) t.pg false
          let bad := d.poison.contains line
          let new : StashEntry := { e with st := .clean, line := line, ro := !leafWr t.leaf || t.twin, large := t.large, cls := leafClass t.leaf, home := home }
          let data := d.mem.line line
          let d := { d with
            regs := aset d.regs line (r, i)
            cores := d.cores.map fun (p : Nat × Core) => (p.1, { p.2 with l1d := adel p.2.l1d line }) }
          d.modCore r fun c => { c with lmem := c.lmem.setLine i data, badLmem := c.badLmem.filter (· != i) ++ (if bad then [i] else []), stash := aset c.stash i new }
    else pure ()
  | none => pure ()

/-- An engine of core `r` touches local bytes: MAPPED entries fill first, and a write into a read-only entry fails with PERM and the
offset of its first byte there (R272, R343); `origin` is the base of the task's window. -/
def engTouch (r a n origin : Nat) (write : Bool) : Eng Unit := do
  let d ← get
  for p in (d.core r).entriesOf a n do
    if p.2.st = .mapped then fillEntry r p.1
    let d ← get
    if write && ((aget? (d.core r).stash p.1).map (·.ro)).getD false then Eng.stop (.fail .perm (max a (128 * p.1) - origin))

def engLocalRead (r a n origin : Nat) : Eng Nat := do
  engTouch r a n origin false
  let d ← get
  match (d.core r).localBad a n with
  | some g => Eng.stop (.poison (a - origin) g)
  | none => pure ((d.core r).lmem.nat a n)

def engLocalWrite (r a n x origin : Nat) : Eng Unit := do
  engTouch r a n origin true
  Eng.upd fun d => d.modCore r fun c => c.localWrite a (leBytes n x)

/-! ### The end of a task's window (R103) -/

/-- Every stash entry in a range of physical local lines is written back when it is DIRTY, deregistered, and PLAIN. -/
def Dev.clearStash (d : Dev) (r lo hi : Nat) : Dev :=
  let es := (d.core r).stash.filter fun p => decide (lo ≤ p.1) && decide (p.1 < hi)
  let d := es.foldl (fun d p => if p.2.st != .mapped then d.recallStash p.2.line else d) d
  d.modCore r fun c => { c with stash := c.stash.filter fun p => !(decide (lo ≤ p.1) && decide (p.1 < hi)) }

/-- What an ended task still holds is freed (R103, R328): its ladders when its queued commands have completed, and then its window, when its
copy requests have ended too and no guest is left in its guest slots. -/
def Dev.reap (d : Dev) (r : Nat) : Dev :=
  (d.core r).tasks.foldl (fun d t =>
    let c := d.core r
    if !t.ended || c.mxq.any (fun m => m.task == t.id) then d
    else
      let d := d.modCore r fun c => { c with ladders := c.ladders.filter fun l => l.2.task != t.id }
      if c.fifo.any (fun q => q.task == t.id) || c.chan.any (fun u => u.2.req.task == t.id) || t.guestSlots.any (fun k => (c.slot k).occ) then d
      else
        let d := d.clearStash r (t.origin / 128) ((t.origin + t.blocks * blockBytes) / 128)
        d.modCore r fun c => { c with
          tasks := c.tasks.filter fun u => u.id != t.id
          slots := t.guestSlots.foldl (fun v k => vset v k { vget v k Slot.reset with isGuestSlot := false }) c.slots }) d

/-- A page that an engine meets not resident joins the hamper of core `r`'s quad (R173). -/
def Dev.engineFault (d : Dev) (r part gva : Nat) (write : Bool) : Dev := d.hamperFault (r / 4) part (gva / 65536) write false

end Sys2Proof.Machine
end

