-- ==== Sys2Proof/Machine/Vector.lean ====
section
/-! DEFINITION. Vector instructions (chapter 12 of the spec, R293-R312). -/

namespace Sys2Proof.Machine

/-! ### Lanes (R293, R294) -/

/-- Element size in bytes, and lanes of a register. -/
def VTy.z : VTy → Nat
  | .f64 | .i64 => 8
  | .f32 | .i32 => 4
  | .f16 | .bf16 | .i16 => 2
  | .i8 => 1
def VTy.n (ty : VTy) : Nat := 64 / VTy.z ty
def VTy.w (ty : VTy) : Nat := 8 * VTy.z ty
/-- The number format of a floating-point type. -/
def VTy.fmt : VTy → Fmt
  | .f64 => fp64
  | .f32 => fp32
  | .f16 => fp16
  | _ => bf16

/-- Lane `l` of a register with elements of `z` bytes. -/
def vlane (v : VWordReg) (z l : Nat) : Nat := v.toNat / 256 ^ (z * l) % 256 ^ z

/-- The value whose lane `l`, for `l < n`, is `f l`; the lanes above are 0. -/
def vlanes (z : Nat) (f : Nat → Nat) : Nat → Nat
  | 0 => 0
  | n + 1 => vlanes z f n + f n % 256 ^ z * 256 ^ (z * n)

def vbuild (z n : Nat) (f : Nat → Nat) : VWordReg := BitVec.ofNat 512 (vlanes z f n)

/-- The flags of the active lanes together. -/
def laneFlags (act : Nat → Bool) (f : Nat → Nat × FFlags) : Nat → FFlags
  | 0 => 0
  | n + 1 => laneFlags act f n ||| (if act n then (f n).2 else 0)

/-- Active lanes take their results and the others keep the old value. -/
def vmerge (z n : Nat) (old : VWordReg) (act : Nat → Bool) (f : Nat → Nat) : VWordReg :=
  vbuild z n fun l => if act l then f l else vlane old z l

def Dev.orFlags (d : Dev) (g : FFlags) : Dev := d.modTh fun s => { s with fflags := s.fflags ||| g }

/-- A lane operation under a predicate: lane l of vd takes `f a b c`, with c its old value, and the flags are ORed into FFLAGS. `readsVd`
says that the old value is an operand, and `rcr` names the control registers that it reads. -/
def State.vlaneOp (ty : VTy) (f : RMode → Nat → Nat → Nat → Nat × FFlags) (readsVd : Bool) (vd va vb : RegNo) (srcs : List RegNo) (pm : PNo)
    (rcr : List (BitVec 6)) (s : State) : Host.Outcome State Fault Refusal :=
  let rv := if readsVd then vd :: srcs else srcs
  s.thread { rv := rv, wv := [vd], rp := [pm], rcr := rcr } fun d =>
    let z := VTy.z ty
    let n := VTy.n ty
    let p := d.p pm
    let a := d.v va
    let b := d.v vb
    let c := d.v vd
    let r (l : Nat) := f (rmOf d.th.frm) (vlane a z l) (vlane b z l) (vlane c z l)
    .ok (((d.setV vd (vmerge z n c (fun l => p.getLsbD l) (fun l => (r l).1))).orFlags (laneFlags (fun l => p.getLsbD l) r n)).retire)

/-! ### Floating point (R295-R297) -/

/-- Floating-point operations: ty 4-7 raise ILLEGAL. They read FRM, but for those that round nothing. -/
def State.vfloat (ty : VTy) (f : Fmt → RMode → Nat → Nat → Nat → Nat × FFlags) (readsVd : Bool) (vd va vb : RegNo) (srcs : List RegNo)
    (pm : PNo) (s : State) (rcr : List (BitVec 6) := [0x06]) : Host.Outcome State Fault Refusal :=
  if isFloatTy ty then s.vlaneOp ty (f (VTy.fmt ty)) readsVd vd va vb srcs pm rcr else s.illegal

/-- `vfadd` -/
def execVfadd (ty : VTy) (vd va vb : RegNo) (pm : PNo) (s : State) := s.vfloat ty (fun f m a b _ => f.add m a b) false vd va vb [va, vb] pm
/-- `vfsub` -/
def execVfsub (ty : VTy) (vd va vb : RegNo) (pm : PNo) (s : State) := s.vfloat ty (fun f m a b _ => f.sub m a b) false vd va vb [va, vb] pm
/-- `vfmul` -/
def execVfmul (ty : VTy) (vd va vb : RegNo) (pm : PNo) (s : State) := s.vfloat ty (fun f m a b _ => f.mul m a b) false vd va vb [va, vb] pm
/-- `vfma`: a × b + c with one rounding. -/
def execVfma (ty : VTy) (vd va vb : RegNo) (pm : PNo) (s : State) := s.vfloat ty (fun f m a b c => f.fma m false a b c) true vd va vb [va, vb] pm
/-- `vfnma`: c − a × b with one rounding. -/
def execVfnma (ty : VTy) (vd va vb : RegNo) (pm : PNo) (s : State) := s.vfloat ty (fun f m a b c => f.fma m true a b c) true vd va vb [va, vb] pm
/-- `vfmin` (R296) -/
def execVfmin (ty : VTy) (vd va vb : RegNo) (pm : PNo) (s : State) := s.vfloat ty (fun f _ a b _ => (f.minMax false a b, 0)) false vd va vb [va, vb] pm (rcr := [])
/-- `vfmax` (R296) -/
def execVfmax (ty : VTy) (vd va vb : RegNo) (pm : PNo) (s : State) := s.vfloat ty (fun f _ a b _ => (f.minMax true a b, 0)) false vd va vb [va, vb] pm (rcr := [])
/-- `vfdiv` (R297): the park ends with the result, before the thread's next turn. -/
def execVfdiv (ty : VTy) (vd va vb : RegNo) (pm : PNo) (s : State) := s.vfloat ty (fun f m a b _ => f.div m a b) false vd va vb [va, vb] pm
/-- `vfsqrt` (R297) -/
def execVfsqrt (ty : VTy) (vd va : RegNo) (pm : PNo) (s : State) := s.vfloat ty (fun f m a _ _ => f.sqrt m a) false vd va va [va] pm
/-- `vfrcp` -/
def execVfrcp (ty : VTy) (vd va : RegNo) (pm : PNo) (s : State) := s.vfloat ty (fun f m a _ _ => f.rcp m a) false vd va va [va] pm
/-- `vfexp2` -/
def execVfexp2 (ty : VTy) (vd va : RegNo) (pm : PNo) (s : State) := s.vfloat ty (fun f m a _ _ => f.exp2 m a) false vd va va [va] pm

/-! ### Integer and logic (R298) -/

/-- Integer operations on w-bit lanes: ty 0-3 raise ILLEGAL. -/
def State.vint (ty : VTy) (f : Nat → Nat → Nat → Nat) (vd va vb : RegNo) (pm : PNo) (s : State) : Host.Outcome State Fault Refusal :=
  if isFloatTy ty then s.illegal else s.vlaneOp ty (fun _ a b _ => (f (VTy.w ty) a b, 0)) false vd va vb [va, vb] pm []

/-- `viadd` -/
def execViadd (ty : VTy) (vd va vb : RegNo) (pm : PNo) (s : State) := s.vint ty (fun _ a b => a + b) vd va vb pm
/-- `visub` -/
def execVisub (ty : VTy) (vd va vb : RegNo) (pm : PNo) (s : State) := s.vint ty (fun w a b => a + 2 ^ w - b) vd va vb pm
/-- `vimul` -/
def execVimul (ty : VTy) (vd va vb : RegNo) (pm : PNo) (s : State) := s.vint ty (fun _ a b => a * b) vd va vb pm
/-- `vimin` -/
def execVimin (ty : VTy) (vd va vb : RegNo) (pm : PNo) (s : State) := s.vint ty sMin vd va vb pm
/-- `vimax` -/
def execVimax (ty : VTy) (vd va vb : RegNo) (pm : PNo) (s : State) := s.vint ty sMax vd va vb pm
/-- `vand` -/
def execVand (ty : VTy) (vd va vb : RegNo) (pm : PNo) (s : State) := s.vint ty (fun _ a b => a &&& b) vd va vb pm
/-- `vor` -/
def execVor (ty : VTy) (vd va vb : RegNo) (pm : PNo) (s : State) := s.vint ty (fun _ a b => a ||| b) vd va vb pm
/-- `vxor` -/
def execVxor (ty : VTy) (vd va vb : RegNo) (pm : PNo) (s : State) := s.vint ty (fun _ a b => a ^^^ b) vd va vb pm
/-- `vsll` -/
def execVsll (ty : VTy) (vd va vb : RegNo) (pm : PNo) (s : State) := s.vint ty (fun w a b => a * 2 ^ (b % w)) vd va vb pm
/-- `vsrl` -/
def execVsrl (ty : VTy) (vd va vb : RegNo) (pm : PNo) (s : State) := s.vint ty (fun w a b => a / 2 ^ (b % w)) vd va vb pm
/-- `vsra` -/
def execVsra (ty : VTy) (vd va vb : RegNo) (pm : PNo) (s : State) := s.vint ty (fun w a b => patOf w (svOf w a / (2 ^ (b % w) : Nat))) vd va vb pm

/-! ### Compares, select and predicates (R299, R300) -/

/-- A comparison of two lanes: 0 equal, 1 less, 2 less or equal. -/
def vcmpLane (ty : VTy) (rel a b : Nat) : Bool :=
  if isFloatTy ty then
    let x := (VTy.fmt ty).read a
    let y := (VTy.fmt ty).read b
    !x.isNan && !y.isNan && (match rel with
      | 0 => x.cmp y == 0
      | 1 => decide (x.cmp y < 0)
      | _ => decide (x.cmp y ≤ 0))
  else
    let x := svOf (VTy.w ty) a
    let y := svOf (VTy.w ty) b
    match rel with
    | 0 => x == y
    | 1 => decide (x < y)
    | _ => decide (x ≤ y)

/-- A compare into a predicate: bits n to 63 are written 0. -/
def State.vcompare (ty : VTy) (rel : Nat) (pd : PNo) (va vb : RegNo) (pm : PNo) (s : State) : Host.Outcome State Fault Refusal :=
  s.thread { rv := [va, vb], rp := [pm] } fun d =>
    let z := VTy.z ty
    let p := d.p pm
    let m := buildMask (d.p pd).toNat (fun l => p.getLsbD l) (fun l => vcmpLane ty rel (vlane (d.v va) z l) (vlane (d.v vb) z l)) (VTy.n ty)
    .ok ((d.setP pd (BitVec.ofNat 64 m)).retire)

/-- `vcmpeq` -/
def execVcmpeq (ty : VTy) (pd : PNo) (va vb : RegNo) (pm : PNo) (s : State) := s.vcompare ty 0 pd va vb pm
/-- `vcmplt` -/
def execVcmplt (ty : VTy) (pd : PNo) (va vb : RegNo) (pm : PNo) (s : State) := s.vcompare ty 1 pd va vb pm
/-- `vcmple` -/
def execVcmple (ty : VTy) (pd : PNo) (va vb : RegNo) (pm : PNo) (s : State) := s.vcompare ty 2 pd va vb pm

/-- `vsel`: every lane is written, from va where the predicate is set and from vb elsewhere. -/
def execVsel (ty : VTy) (vd va vb : RegNo) (pm : PNo) (s : State) : Host.Outcome State Fault Refusal :=
  s.thread { rv := [va, vb], wv := [vd], rp := [pm] } fun d =>
    let z := VTy.z ty
    let p := d.p pm
    .ok ((d.setV vd (vbuild z (VTy.n ty) fun l => if p.getLsbD l then vlane (d.v va) z l else vlane (d.v vb) z l)).retire)

/-- A predicate operation. -/
def State.pop (f : Word → Word → Word) (pd pa pb : PNo) (s : State) : Host.Outcome State Fault Refusal :=
  s.thread { rp := [pa, pb] } fun d => .ok ((d.setP pd (f (d.p pa) (d.p pb))).retire)

/-- `pand` -/
def execPand (pd pa pb : PNo) (s : State) := s.pop (· &&& ·) pd pa pb
/-- `por` -/
def execPor (pd pa pb : PNo) (s : State) := s.pop (· ||| ·) pd pa pb
/-- `pxor` -/
def execPxor (pd pa pb : PNo) (s : State) := s.pop (· ^^^ ·) pd pa pb
/-- `pnot` -/
def execPnot (pd pa : PNo) (s : State) := s.pop (fun a _ => ~~~a) pd pa pa
/-- The one bits of a predicate. -/
def onesOf (x : Word) : Nat → Nat
  | 0 => 0
  | n + 1 => onesOf x n + (if x.getLsbD n then 1 else 0)
/-- `ppop` -/
def execPpop (rd : RegNo) (pa : PNo) (s : State) : Host.Outcome State Fault Refusal :=
  s.thread { rp := [pa], wx := [rd] } fun d => .ok ((d.setX rd (BitVec.ofNat 64 (onesOf (d.p pa) 64))).retire)

/-! ### Movement (R301) -/

/-- `vbcast` -/
def execVbcast (ty : VTy) (vd xa : RegNo) (pm : PNo) (s : State) : Host.Outcome State Fault Refusal :=
  s.thread { rx := [xa], wv := [vd], rp := [pm] } fun d =>
    let p := d.p pm
    .ok ((d.setV vd (vmerge (VTy.z ty) (VTy.n ty) (d.v vd) (fun l => p.getLsbD l) fun _ => (d.x xa).toNat)).retire)

/-- `vext` -/
def execVext (ty : VTy) (rd va xb : RegNo) (s : State) : Host.Outcome State Fault Refusal :=
  s.thread { rx := [xb], rv := [va], wx := [rd] } fun d =>
    let i := (d.x xb).toNat
    let c := vlane (d.v va) (VTy.z ty) i
    let x : Word :=
      if VTy.n ty ≤ i then 0
      else if isFloatTy ty then BitVec.ofNat 64 c else BitVec.ofInt 64 (svOf (VTy.w ty) c)
    .ok ((d.setX rd x).retire)

/-- `vperm` -/
def execVperm (ty : VTy) (vd va vb : RegNo) (pm : PNo) (s : State) : Host.Outcome State Fault Refusal :=
  s.thread { rv := [va, vb], wv := [vd], rp := [pm] } fun d =>
    let z := VTy.z ty
    let p := d.p pm
    .ok ((d.setV vd (vmerge z (VTy.n ty) (d.v vd) (fun l => p.getLsbD l) fun l => vlane (d.v va) z (vlane (d.v vb) z l % VTy.n ty))).retire)

/-- `vslide` -/
def execVslide (ty : VTy) (vd va xb : RegNo) (pm : PNo) (s : State) : Host.Outcome State Fault Refusal :=
  s.thread { rx := [xb], rv := [va], wv := [vd], rp := [pm] } fun d =>
    let z := VTy.z ty
    let p := d.p pm
    let n := VTy.n ty
    let src (l : Nat) : Int := (l : Int) - (d.x xb).toInt
    .ok ((d.setV vd (vmerge z n (d.v vd) (fun l => p.getLsbD l) fun l =>
      if 0 ≤ src l ∧ src l < n then vlane (d.v va) z (src l).toNat else 0)).retire)

/-! ### Conversions (R302, R303) -/

/-- A conversion of `nw` lanes of `zs` bytes into lanes of `zd` bytes; the lanes above are written 0. -/
def State.vconv (zd zs nw : Nat) (f : BitVec 3 → Nat → Nat × FFlags) (vd va : RegNo) (pm : PNo) (s : State) :
    Host.Outcome State Fault Refusal :=
  s.thread { rv := [va], wv := [vd], rp := [pm], rcr := [0x06] } fun d =>
    let p := d.p pm
    let r (l : Nat) := f d.th.frm (vlane (d.v va) zs l)
    .ok (((d.setV vd (vmerge zd nw (d.v vd) (fun l => p.getLsbD l) fun l => (r l).1)).orFlags (laneFlags (fun l => p.getLsbD l) r nw)).retire)

/-- One lane of `vcvt`. -/
def convLane (dst src : VTy) (frm : BitVec 3) (c : Nat) : Nat × FFlags :=
  if isFloatTy src then
    let v := (VTy.fmt src).read c
    if isFloatTy dst then (VTy.fmt dst).round (rmOf frm) v else v.toIntSat (rmOf frm) (VTy.w dst)
  else
    let v := svOf (VTy.w src) c
    if isFloatTy dst then (VTy.fmt dst).round (rmOf frm) (FVal.ofInt v)
    else
      let (x, clamped) := clampInt (VTy.w dst) v
      (patOf (VTy.w dst) x, if clamped then fSAT else 0)

/-- `vcvt` between different types; equal codes are the FP8 forms or ILLEGAL (R303). -/
def execVcvt (dst src : VTy) (vd va : RegNo) (pm : PNo) (s : State) : Host.Outcome State Fault Refusal :=
  if dst = src then s.illegal
  else s.vconv (VTy.z dst) (VTy.z src) (64 / max (VTy.z dst) (VTy.z src)) (convLane dst src) vd va pm

/-- `vcvt.f32.e4m3` -/
def execVcvtF32E4m3 (vd va : RegNo) (pm : PNo) (s : State) := s.vconv 4 1 16 (fun frm c => fp32.round (rmOf frm) (e4m3.read c)) vd va pm
/-- `vcvt.f32.e5m2` -/
def execVcvtF32E5m2 (vd va : RegNo) (pm : PNo) (s : State) := s.vconv 4 1 16 (fun frm c => fp32.round (rmOf frm) (e5m2.read c)) vd va pm
/-- `vcvt.e4m3.f32` (R232) -/
def execVcvtE4m3F32 (vd va : RegNo) (pm : PNo) (s : State) := s.vconv 1 4 16 (fun frm c => e4m3.toFp8 (rmOf frm) (frm.getLsbD 2) (fp32.read c)) vd va pm
/-- `vcvt.e5m2.f32` (R232) -/
def execVcvtE5m2F32 (vd va : RegNo) (pm : PNo) (s : State) := s.vconv 1 4 16 (fun frm c => e5m2.toFp8 (rmOf frm) (frm.getLsbD 2) (fp32.read c)) vd va pm

/-! ### Reductions (R304, R236) -/

/-- The fixed pairwise tree: `t[l] + t[l + w]` for the halves of the list, until one value is left. -/
def redTree (add : Nat → Nat → Nat × FFlags) (t : List Nat) (g : FFlags) : Nat → Nat × FFlags
  | 0 => (t.headD 0, g)
  | k + 1 =>
    let w := t.length / 2
    if w = 0 then (t.headD 0, g)
    else
      let r := (List.range w).map fun l => add (t.getD l 0) (t.getD (l + w) 0)
      redTree add (r.map (·.1)) (r.foldl (fun acc x => acc ||| x.2) g) k

/-- A reduction: the result goes to lane 0, and the other lanes are written 0. -/
def State.vreduce (ty : VTy) (f : RMode → List (Nat × Bool) → Nat × FFlags) (vd va : RegNo) (pm : PNo) (s : State)
    (rcr : List (BitVec 6) := []) : Host.Outcome State Fault Refusal :=
  s.thread { rv := [va], wv := [vd], rp := [pm], rcr := rcr } fun d =>
    let p := d.p pm
    let lanes := (List.range (VTy.n ty)).map fun l => (vlane (d.v va) (VTy.z ty) l, p.getLsbD l)
    let r := f (rmOf d.th.frm) lanes
    .ok (((d.setV vd (BitVec.ofNat 512 (r.1 % 256 ^ VTy.z ty))).orFlags r.2).retire)

/-- `vredsum` -/
def execVredsum (ty : VTy) (vd va : RegNo) (pm : PNo) (s : State) : Host.Outcome State Fault Refusal :=
  let id := if isFloatTy ty then 2 ^ (VTy.w ty - 1) else 0
  let add (m : RMode) (a b : Nat) : Nat × FFlags := if isFloatTy ty then (VTy.fmt ty).add m a b else ((a + b) % 2 ^ VTy.w ty, 0)
  s.vreduce ty (fun m l => redTree (add m) (l.map fun x => if x.2 then x.1 else id) 0 6) vd va pm (rcr := if isFloatTy ty then [0x06] else [])

/-- The largest or smallest active lane; `none_` when no lane is active. -/
def extremeLane (f : Nat → Nat → Nat) (none_ : Nat) (l : List (Nat × Bool)) : Nat :=
  match (l.filter (·.2)).map (·.1) with
  | [] => none_
  | a :: t => t.foldl f (f a a)

/-- `vredmax` -/
def execVredmax (ty : VTy) (vd va : RegNo) (pm : PNo) (s : State) : Host.Outcome State Fault Refusal :=
  let w := VTy.w ty
  s.vreduce ty (fun _ l =>
    (if isFloatTy ty then extremeLane ((VTy.fmt ty).minMax true) ((VTy.fmt ty).signBit + (VTy.fmt ty).inf) l
      else extremeLane (sMax w) (2 ^ (w - 1)) l, 0)) vd va pm

/-- `vredmin` -/
def execVredmin (ty : VTy) (vd va : RegNo) (pm : PNo) (s : State) : Host.Outcome State Fault Refusal :=
  let w := VTy.w ty
  s.vreduce ty (fun _ l =>
    (if isFloatTy ty then extremeLane ((VTy.fmt ty).minMax false) (VTy.fmt ty).inf l
      else extremeLane (sMin w) (2 ^ (w - 1) - 1) l, 0)) vd va pm

/-! ### Vector memory (R305-R308) -/

/-- An active lane of a vector memory access: its lane number and its offset. -/
abbrev VLane := Nat × Word

/-- The three passes of R306 over the active lanes: segment checks, alignment, then lane by lane the local checks or the translations. Local lanes
go on in the order of R255: the translations of MAPPED entries, then what the tiles hold, then what the stash entries wait for. -/
def Dev.laneOperands (d : Dev) (sg : SegNo) (z : Nat) (lanes : List VLane) (need : SegNeed) (acc : Access) : Chk (List (Nat × Operand)) := do
  let seg := d.th.seg sg
  let gs ← lanes.mapM fun (l, off) => do
    let g ← segCheck seg off z need
    pure (l, g)
  gs.forM fun (_, g) => ensure (g % z == 0) .misalign (BitVec.ofNat 64 g)
  if segL seg then do
    let as ← gs.mapM fun (l, g) => do
      let a ← d.localAt g z
      d.tilePerm g a z
      d.stashPerm g a z acc.write
      pure (l, g, a)
    as.forM fun (_, g, a) => d.stashTrans g a z acc.write
    as.forM fun (_, _, a) => d.tileReady a z acc.write
    as.forM fun (_, _, a) => d.stashReady a z
    pure (as.map fun (l, _, a) => (l, Operand.loc a))
  else
    gs.mapM fun (l, g) => do
      let t ← d.translate acc g
      pure (l, Operand.glob [(t, 0, z)])

/-- The local bytes of checked lanes. -/
def localLanes (ops : List (Nat × Operand)) : List Nat := ops.filterMap fun o => match o.2 with
  | .loc a => some a
  | .glob _ => none

/-- A vector load: V[vd] is pending as a whole. Poison of any local lane is a DATAERR of the result, whose SADDR is that lane's offset. -/
def Dev.vload (d : Dev) (sg : SegNo) (z : Nat) (lanes : List VLane) (vd : RegNo) (la : La) : Chk Dev := do
  let ops ← d.laneOperands sg z lanes { r := true } { read := true, user := d.user, twinOk := true, remoteOk := true }
  d.acqHeld
  let post := Post.vec vd z (ops.map (·.1))
  if segL (d.th.seg sg) then
    let at_ := localLanes ops
    let gva (i : Nat) : Nat := segBase (d.th.seg sg) + ((lanes[i]?).map (·.2.toNat)).getD 0
    .ok (d.localLoad ((at_.zip ((List.range at_.length).map gva)).map fun p => (p.2, p.1, z)) post la)
  else
    let units := ops.zipIdx.flatMap fun ((_, o), i) => match o with
      | .glob ps => ps.map fun (t, _, _) => (⟨t, z, z * i⟩ : LUnit)
      | .loc _ => []
    .ok (d.issueLoad units post (z * ops.length) la none)

/-- A vector store, lane by lane in ascending order; `data l` is what lane l stores. -/
def Dev.vstore (d : Dev) (sg : SegNo) (z : Nat) (lanes : List VLane) (data : Nat → Nat) : Chk Dev := do
  let ops ← d.laneOperands sg z lanes { w := true } { write := true, user := d.user, remoteOk := true }
  d.acqHeld
  d.relHeld
  let us := ops.flatMap fun (l, o) => match o with
    | .glob ps => ps.map fun (t, _, _) => (⟨t, z, data l, true⟩ : SUnit)
    | .loc _ => []
  if d.wbRoom us then
    let d := ops.foldl (fun d (l, o) => match o with
      | .loc a => d.modCur fun c => c.localWrite a (leBytes z (data l))
      | .glob _ => d) d
    .ok ((us.foldl (Dev.storeUnit none) d).retire)
  else park (.wb (d.wbNeed us))

/-- The offsets of contiguous, strided and indexed lanes (R305); every lane is active unless `act` says otherwise. -/
def stridedLanes (base stride : Word) (n : Nat) : List VLane := (List.range n).map fun l => (l, base + BitVec.ofNat 64 l * stride)
def indexedLanes (base : Word) (idx : VWordReg) (z n : Nat) (act : Nat → Bool) : List VLane :=
  ((List.range n).filter act).map fun l => (l, base + BitVec.ofNat 64 (vlane idx z l))

/-- `vld` -/
def execVld (ty : VTy) (vd ra : RegNo) (sg : SegNo) (la : La) (s : State) : Host.Outcome State Fault Refusal :=
  s.thread { rx := [ra], wv := [vd], rs := [sg] } fun d =>
    d.vload sg (VTy.z ty) (stridedLanes (d.x ra) (BitVec.ofNat 64 (VTy.z ty)) (VTy.n ty)) vd la
/-- `vst` -/
def execVst (ty : VTy) (vd ra : RegNo) (sg : SegNo) (s : State) : Host.Outcome State Fault Refusal :=
  s.thread { rx := [ra], rv := [vd], rs := [sg] } fun d =>
    d.vstore sg (VTy.z ty) (stridedLanes (d.x ra) (BitVec.ofNat 64 (VTy.z ty)) (VTy.n ty)) (vlane (d.v vd) (VTy.z ty))

/-- A strided load or store of `z`-byte lanes. -/
def State.vldStrided (z : Nat) (vd ra xb : RegNo) (sg : SegNo) (la : La) (s : State) : Host.Outcome State Fault Refusal :=
  s.thread { rx := [ra, xb], wv := [vd], rs := [sg] } fun d => d.vload sg z (stridedLanes (d.x ra) (d.x xb) (64 / z)) vd la
def State.vstStrided (z : Nat) (vd ra xb : RegNo) (sg : SegNo) (s : State) : Host.Outcome State Fault Refusal :=
  s.thread { rx := [ra, xb], rv := [vd], rs := [sg] } fun d => d.vstore sg z (stridedLanes (d.x ra) (d.x xb) (64 / z)) (vlane (d.v vd) z)

/-- `vlds.32` -/
def execVlds32 (vd ra xb : RegNo) (sg : SegNo) (la : La) (s : State) := s.vldStrided 4 vd ra xb sg la
/-- `vlds.64` -/
def execVlds64 (vd ra xb : RegNo) (sg : SegNo) (la : La) (s : State) := s.vldStrided 8 vd ra xb sg la
/-- `vsts.32` -/
def execVsts32 (vd ra xb : RegNo) (sg : SegNo) (s : State) := s.vstStrided 4 vd ra xb sg
/-- `vsts.64` -/
def execVsts64 (vd ra xb : RegNo) (sg : SegNo) (s : State) := s.vstStrided 8 vd ra xb sg

/-- `vstm`: byte l is stored where P[pb][l] = 1. -/
def execVstm (vd ra : RegNo) (pb : PNo) (sg : SegNo) (s : State) : Host.Outcome State Fault Refusal :=
  s.thread { rx := [ra], rv := [vd], rp := [pb], rs := [sg] } fun d =>
    let p := d.p pb
    d.vstore sg 1 (((List.range 64).filter fun l => p.getLsbD l).map fun l => (l, d.x ra + BitVec.ofNat 64 l)) (vlane (d.v vd) 1)

/-- Gathers and scatters: the offsets stand in V[vd + 1], so vd = 31 raises ILLEGAL. -/
def State.vgather (z : Nat) (vd ra : RegNo) (pm : PNo) (sg : SegNo) (la : La) (s : State) : Host.Outcome State Fault Refusal :=
  if vd = 31 then s.illegal
  else s.thread { rx := [ra], rv := [vd + 1], wv := [vd], rp := [pm], rs := [sg] } fun d =>
    let p := d.p pm
    d.vload sg z (indexedLanes (d.x ra) (d.v (vd + 1)) z (64 / z) fun l => p.getLsbD l) vd la
def State.vscatter (z : Nat) (vd ra : RegNo) (pm : PNo) (sg : SegNo) (s : State) : Host.Outcome State Fault Refusal :=
  if vd = 31 then s.illegal
  else s.thread { rx := [ra], rv := [vd, vd + 1], rp := [pm], rs := [sg] } fun d =>
    let p := d.p pm
    d.vstore sg z (indexedLanes (d.x ra) (d.v (vd + 1)) z (64 / z) fun l => p.getLsbD l) (vlane (d.v vd) z)

/-- `vgath.32` -/
def execVgath32 (vd ra : RegNo) (pm : PNo) (sg : SegNo) (la : La) (s : State) := s.vgather 4 vd ra pm sg la
/-- `vgath.64` -/
def execVgath64 (vd ra : RegNo) (pm : PNo) (sg : SegNo) (la : La) (s : State) := s.vgather 8 vd ra pm sg la
/-- `vscat.32` -/
def execVscat32 (vd ra : RegNo) (pm : PNo) (sg : SegNo) (s : State) := s.vscatter 4 vd ra pm sg
/-- `vscat.64` -/
def execVscat64 (vd ra : RegNo) (pm : PNo) (sg : SegNo) (s : State) := s.vscatter 8 vd ra pm sg

/-! ### Special instructions (R309-R312) -/

/-- Entry a ranks before entry b by score, then by index (R309). -/
def ranksBefore (a b : Nat × Nat) : Bool :=
  let x := fp32.read a.1
  let y := fp32.read b.1
  if x.isNan then y.isNan && decide (a.2 < b.2)
  else if y.isNan then true
  else if x.cmp y = 0 then decide (a.2 < b.2) else decide (0 < x.cmp y)

/-- Insert an entry behind every entry that it does not rank before: equal entries keep their order. -/
def rankInsert (e : Nat × Nat) : List (Nat × Nat) → List (Nat × Nat)
  | [] => [e]
  | h :: t => if ranksBefore e h then e :: h :: t else h :: rankInsert e t

/-- `vtopk` (R309): old entries first, then the candidates in lane order. -/
def execVtopk (vd va vb : RegNo) (pm : PNo) (s : State) : Host.Outcome State Fault Refusal :=
  s.thread { rv := [vd, va, vb], wv := [vd], rp := [pm] } fun d =>
    let p := d.p pm
    let old := (List.range 8).map fun i => (vlane (d.v vd) 4 (2 * i), vlane (d.v vd) 4 (2 * i + 1))
    let new := ((List.range 16).filter fun l => p.getLsbD l).map fun l => (vlane (d.v va) 4 l, vlane (d.v vb) 4 l)
    let top := (old ++ new).foldl (fun acc e => rankInsert e acc) []
    .ok ((d.setV vd (vbuild 4 16 fun l =>
      let e := top.getD (l / 2) (0, 0)
      if l % 2 = 0 then e.1 else e.2)).retire)

/-- A register whose bit `k`, for `k < n`, is `f k`. -/
def bitsOf (f : Nat → Bool) : Nat → Nat
  | 0 => 0
  | n + 1 => bitsOf f n + (if f n then 2 ^ n else 0)

/-- `vplane` (R310): bit e of plane j of group g is bit j of packed element 64g + e. -/
def execVplane (vd va : RegNo) (s : State) : Host.Outcome State Fault Refusal :=
  s.thread { rv := [va], wv := [vd] } fun d =>
    .ok ((d.setV vd (BitVec.ofNat 512 (bitsOf (fun k =>
      (d.v va).getLsbD (4 * (64 * (k / 256) + k % 64) + k % 256 / 64)) 512))).retire)

/-- `vunplane` (R310): the inverse. -/
def execVunplane (vd va : RegNo) (s : State) : Host.Outcome State Fault Refusal :=
  s.thread { rv := [va], wv := [vd] } fun d =>
    .ok ((d.setV vd (BitVec.ofNat 512 (bitsOf (fun k =>
      let e := k / 4
      (d.v va).getLsbD (256 * (e / 64) + 64 * (k % 4) + e % 64)) 512))).retire)

/-- `vtree` (R311) -/
def execVtree (pd : PNo) (va xb : RegNo) (pm : PNo) (s : State) : Host.Outcome State Fault Refusal :=
  s.thread { rx := [xb], rv := [va], rp := [pm] } fun d =>
    let p := d.p pm
    let m := buildMask (d.p pd).toNat (fun l => p.getLsbD l) (fun l =>
      let k := vlane (d.v va) 4 l
      decide (2 ^ 31 ≤ k) || (d.x xb).getLsbD (k % 64)) 16
    .ok ((d.setP pd (BitVec.ofNat 64 m)).retire)

/-- 2 × e2m1(c) (R221). -/
def twiceE2m1 (c : Nat) : Int :=
  let m : Int := [0, 1, 2, 3, 4, 6, 8, 12].getD (c % 8) 0
  if 8 ≤ c then -m else m

/-- The code of element e of a Q4X group in bit-plane layout. -/
def planeCode (v : VWordReg) (e : Nat) : Nat :=
  (if v.getLsbD e then 1 else 0) + (if v.getLsbD (64 + e) then 2 else 0) + (if v.getLsbD (128 + e) then 4 else 0)
    + (if v.getLsbD (192 + e) then 8 else 0)

/-- The lane of element e, and whether it is an outlier (R312). -/
def q4xLane (v : VWordReg) (e : Nat) : Int × Bool :=
  let mine := planeCode v e
  let other := planeCode v (if e % 2 = 0 then e + 1 else e - 1)
  if mine = 8 then (if other = 8 then (0, false) else (twiceE2m1 other, true))
  else if other = 8 then (0, false) else (svOf 4 mine, false)

/-- `vq4xd` (R312) -/
def execVq4xd (vd : RegNo) (pb : PNo) (va : RegNo) (s : State) : Host.Outcome State Fault Refusal :=
  s.thread { rv := [va], wv := [vd] } fun d =>
    let v := d.v va
    .ok (((d.setV vd (vbuild 1 64 fun e => patOf 8 (q4xLane v e).1)).setP pb
      (BitVec.ofNat 64 (bitsOf (fun e => (q4xLane v e).2) 64))).retire)

end Sys2Proof.Machine
end

