-- ==== Sys2Proof/Machine/Matrix.lean ====
section
/-! DEFINITION. Matrix commands: their checks at enqueue and their execution (chapter 13 of the spec, R313-R325, R233-R235). -/

namespace Sys2Proof.Machine

/-! ### Formats (R313-R315) -/

/-- Format codes 0-5 are floating point. -/
def codeFmt : Nat → Fmt
  | 0 => fp64
  | 1 => fp32
  | 2 => bf16
  | 3 => fp16
  | 4 => e4m3
  | _ => e5m2

/-- The class of a format code: `mma` accepts pairs of one class (R314). Codes 10-15 have none. -/
def mxClass (c : Nat) : Option Nat :=
  if c = 0 then some 0 else if c = 1 then some 1 else if c ≤ 3 then some 2 else if c ≤ 6 then some 3 else if c ≤ 8 then some 4
  else if c = 9 then some 5 else none

inductive AccTy where
  | f64 | f32 | i32
  deriving DecidableEq, Repr

def AccTy.z : AccTy → Nat
  | .f64 => 8
  | .f32 | .i32 => 4

/-- The accumulator of a pair of codes (R233). -/
def accOf (ca cb : Nat) (scaled : Bool) : AccTy :=
  if ca = 0 then .f64 else if ca = cb && (ca = 6 || ca = 7 || ca = 9) && !scaled then .i32 else .f32

/-- The values of a pair of Q4X codes (R221). -/
def q4xPair (a b shift : Nat) : List FVal :=
  let e (c : Nat) : FVal := let v := twiceE2m1 c; .fin (decide (v < 0)) v.natAbs ((shift : Int) - 1)
  if a = 8 then (if b = 8 then [.fin false 0 0, .fin false 0 0] else [e b, .fin false 0 0])
  else if b = 8 then [.fin false 0 0, e a] else [FVal.ofInt (svOf 4 a), FVal.ofInt (svOf 4 b)]

/-- Code of element `k` of a row in bit-plane layout with 4 planes (R222, R313). -/
def rowCode (row k : Nat) : Nat :=
  (List.range 4).foldl (fun acc j => acc + row / 2 ^ (256 * (k / 64) + 64 * j + k % 64) % 2 * 2 ^ j) 0

/-- The elements of one 64-byte row of A or column of B (R313, R220-R223). -/
def rowVals (code planes shift row : Nat) : List FVal :=
  if code = 6 then (List.range 64).map fun k => FVal.ofInt (svOf 8 (row / 256 ^ k % 256))
  else if code = 9 then (List.range 512).map fun k => FVal.ofInt (if row / 2 ^ k % 2 = 0 then 1 else -1)
  else if code = 7 || code = 8 then
    let part := decide (1 ≤ planes ∧ planes ≤ 3)
    let c (k : Nat) := if part then rowCode row k / 2 ^ (4 - planes) * 2 ^ (4 - planes) else rowCode row k
    if code = 7 || part then (List.range 128).map fun k => FVal.ofInt (svOf 4 (c k))
    else (List.range 64).flatMap fun i => q4xPair (c (2 * i)) (c (2 * i + 1)) shift
  else
    let f := codeFmt code
    let z := (f.ebits + f.mbits + 1) / 8
    (List.range (64 / z)).map fun k => f.read (row / 256 ^ (z * k) % 256 ^ z)

/-- (a · s) · (b · t), exact (R224). -/
def scaledProduct (a s b t : FVal) : FVal × FFlags :=
  if a.isNan || s.isNan || b.isNan || t.isNan then (.nan, 0)
  else
    let (p, f) := a.mul s
    let (q, g) := b.mul t
    let (x, h) := p.mul q
    (x, f ||| g ||| h)

/-- One element of an `mma` (R234). -/
def mmaElem (acc : AccTy) (c : Nat) (as bs : List FVal) (s t : FVal) : Nat × FFlags :=
  match acc with
  | .i32 =>
    let x := (as.zip bs).foldl (fun (x : Int) p => x + (FVal.toInt .rne p.1).1 * (FVal.toInt .rne p.2).1) (svOf 32 c)
    let (v, cl) := clampInt 32 x
    (patOf 32 v, if cl then fSAT else 0)
  | .f32 | .f64 =>
    let fmt := if acc = .f64 then fp64 else fp32
    let ps := (as.zip bs).map fun p => scaledProduct p.1 s p.2 t
    let (x, f) := exactSum .rne (fmt.read c :: ps.map (·.1))
    let (r, g) := fmt.round .rne x
    (r, ps.foldl (fun acc p => acc ||| p.2) (f ||| g))

/-- An element-wise operation over the 1,024 elements of a tile or a pair of tiles held as a value. -/
def tileMap (z : Nat) (f : Nat → Nat × FFlags) : Nat × FFlags := (vlanes z (fun k => (f k).1) 1024, laneFlags (fun _ => true) f 1024)

/-- The new contents of the destination of an `mma`. -/
def mmaTile (acc : AccTy) (rows cols : List (List FVal)) (ss ts : List FVal) (old : Nat) : Nat × FFlags :=
  tileMap acc.z fun k =>
    mmaElem acc (old / 256 ^ (acc.z * k) % 256 ^ acc.z) (rows.getD (k / 32) []) (cols.getD (k % 32) []) (ss.getD (k / 32) (.fin false 1 0))
      (ts.getD (k % 32) (.fin false 1 0))

/-! ### Enqueue (R317) -/

/-- A checked operand: local by offset and physical address, or a GVA. -/
structure MxOpnd where
  isLoc : Bool
  gva : Nat
  phys : Nat
  deriving DecidableEq, Repr

def MxOpnd.loc (o : MxOpnd) : Loc := if o.isLoc then .loc o.phys else .glob o.gva

/-- Step 3: the segment and, through an L-right segment, the local range. `mst` needs L = 1 and `mstg` L = 0 (SEGPERM). -/
def Dev.mxOpnd (d : Dev) (sg : SegNo) (off : Word) (n : Nat) (need : SegNeed) (mustLocal : Bool) : Chk MxOpnd := do
  let seg := d.th.seg sg
  let gva ← segCheck seg off n need
  ensure (!mustLocal || segL seg) .segperm off
  if segL seg then
    let a ← d.localAt gva n
    .ok ⟨true, gva, a⟩
  else .ok ⟨false, gva, 0⟩

/-- Step 3 for a scale array (R128): its local address. A disabled side has none. -/
def Dev.scaleArray (d : Dev) (msc : Word) : Chk Nat :=
  let off := (msc.extractLsb' 0 19).toNat
  if !msc.getLsbD 63 then .ok 0
  else match d.task d.cur.1 d.cur.2 with
    | some t => if off + 64 ≤ t.s + t.t then .ok (t.origin + off) else raise .segv (BitVec.ofNat 64 off)
    | none => raise .segv (BitVec.ofNat 64 off)

def MxOpnd.aligned (o : MxOpnd) : Chk Unit := ensure (o.gva % 128 == 0) .misalign (BitVec.ofNat 64 o.gva)

/-- The tiles that an operand lies in. -/
def MxOpnd.tiles (o : MxOpnd) (n : Nat) : List Nat := if o.isLoc then tilesOf o.phys n else []

/-- Steps 5 and 6: PERM for a guest or a tile outside TILEMASK, then LADDER for a tile that a ladder owns. -/
def Dev.mxTiles (d : Dev) (tiles : List Nat) : Chk Unit := do
  ensure (!d.th.guest) .perm 0
  tiles.forM fun k => ensure ((d.task d.cur.1 d.cur.2).any (·.hasTile k)) .perm (BitVec.ofNat 64 (tileBase + 4096 * k))
  tiles.forM fun k => ensure (d.curCore.tileOwner k).isNone .ladder 0

/-- A full queue parks the slot before the checks are made (R134, R317). -/
def Dev.mxRoom (d : Dev) : Chk Unit := if 16 ≤ d.curCore.mxq.length then park .matrixQueue else .ok ()

/-- A command of the thread with the registers it samples (R128). -/
def Dev.mxCmd (d : Dev) (i : Instr) (dests : List Nat) : MxCmd :=
  let s := d.th
  { instr := i, slot := d.cur.2, task := ((d.task d.cur.1 d.cur.2).map (·.id)).getD 0, part := s.part, mfmt := s.mfmt, msca := s.msca
    mscb := s.mscb, mosh := s.mosh, frm := s.frm, a := .loc 0, b := .loc 0, xval := 0, vals := [], scaleA := 0, scaleB := 0
    dests := dests, lx := none, pins := [], faultPage := none }

/-- The command enters the queue, behind an earlier `fence.rel` (R196), and the thread goes on. -/
def Dev.mxPush (d : Dev) (c : MxCmd) : Chk Dev := do
  d.acqHeld
  d.relHeld
  .ok ((d.modCur fun k => { k with mxq := k.mxq ++ [c] }).retire)

/-- Whether the codes in MFMT form a pair that `mma` accepts. -/
def mfmtCodes (mfmt : Word) : Nat × Nat := ((mfmt.extractLsb' 0 4).toNat, (mfmt.extractLsb' 4 4).toNat)
def mfmtOk (mfmt : Word) : Bool :=
  let (a, b) := mfmtCodes mfmt
  (mxClass a).isSome && mxClass a == mxClass b

/-- What comes before LAHEAD at enqueue (R317): the wait for room in the queue, then ILLEGAL unless `ok`. -/
def mxFirst (ok : Dev → Bool) (d : Dev) : Chk Unit := do
  d.mxRoom
  ensure (ok d) .illegal d.word

/-- A queued command: its first checks, then the frame of an instruction and the rest. -/
def State.mxThread (ok : Dev → Bool) (use : RegUse) (body : Dev → Chk Dev) (s : State) : Host.Outcome State Fault Refusal :=
  s.threadAfter (mxFirst ok) use body

/-- Whether `mma` accepts the formats of MFMT with its destination. -/
def mmaLegal (md : TileNo) (d : Dev) : Bool := mfmtOk d.th.mfmt && !((mfmtCodes d.th.mfmt).1 == 0 && md.getLsbD 0)

/-- The control registers that every matrix instruction samples (R128): FRM, MFMT, MSCA, MSCB and MOSH. -/
def mxSampled : List (BitVec 6) := [0x06, 0x07, 0x08, 0x09, 0x0A]

/-- `mma` (R320) -/
def execMma (md : TileNo) (ra rb : RegNo) (sa sb : SegNo) (s : State) : Host.Outcome State Fault Refusal :=
  s.mxThread (mmaLegal md) { rx := [ra, rb], rs := [sa, sb], rcr := mxSampled } fun d => do
    let t := d.th
    let wide := (mfmtCodes t.mfmt).1 = 0
    let a ← d.mxOpnd sa (d.x ra) 2048 { r := true } false
    let b ← d.mxOpnd sb (d.x rb) 2048 { r := true } false
    let p ← d.scaleArray t.msca
    let q ← d.scaleArray t.mscb
    a.aligned
    b.aligned
    let dests := if wide then [md.toNat, md.toNat + 1] else [md.toNat]
    d.mxTiles (dests ++ a.tiles 2048 ++ b.tiles 2048)
    d.mxPush { d.mxCmd (.mma md ra rb sa sb) dests with a := a.loc, b := b.loc, scaleA := p, scaleB := q }

/-- `mzero` (R321) -/
def execMzero (md : TileNo) (s : State) : Host.Outcome State Fault Refusal :=
  s.mxThread (fun _ => true) { rcr := mxSampled } fun d => do
    d.mxTiles [md.toNat]
    d.mxPush (d.mxCmd (.mzero md) [md.toNat])

/-- `mld` (R321) -/
def execMld (md : TileNo) (ra : RegNo) (sa : SegNo) (s : State) : Host.Outcome State Fault Refusal :=
  s.mxThread (fun _ => true) { rx := [ra], rs := [sa], rcr := mxSampled } fun d => do
    let a ← d.mxOpnd sa (d.x ra) 4096 { r := true } false
    a.aligned
    d.mxTiles (md.toNat :: a.tiles 4096)
    d.mxPush { d.mxCmd (.mld md ra sa) [md.toNat] with a := a.loc }

/-- `mst` (R321): PERM into tile memory. -/
def execMst (md : TileNo) (ra : RegNo) (sa : SegNo) (s : State) : Host.Outcome State Fault Refusal :=
  s.mxThread (fun _ => true) { rx := [ra], rs := [sa], rcr := mxSampled } fun d => do
    let a ← d.mxOpnd sa (d.x ra) 4096 { w := true } true
    a.aligned
    ensure (!d.th.guest) .perm 0
    ensure (decide (a.phys < tileBase)) .perm (BitVec.ofNat 64 a.gva)
    d.mxTiles [md.toNat]
    d.mxPush { d.mxCmd (.mst md ra sa) [] with a := a.loc }

/-- `mstg` (R321): an L = 0 segment. -/
def execMstg (md : TileNo) (ra : RegNo) (sa : SegNo) (s : State) : Host.Outcome State Fault Refusal :=
  s.mxThread (fun _ => true) { rx := [ra], rs := [sa], rcr := mxSampled } fun d => do
    let a ← d.mxOpnd sa (d.x ra) 4096 { w := true, l0 := true } false
    a.aligned
    d.mxTiles [md.toNat]
    d.mxPush { d.mxCmd (.mstg md ra sa) [] with a := a.loc }

/-- The tiles of an operand of `macc` or `mscl`: a pair for `.f64`, and then an odd tile is ILLEGAL. -/
def mtyTiles (ty : MTy) (k : Nat) : List Nat := if ty = .f64 then [k, k + 1] else [k]
def mtyEven (ty : MTy) (k : Nat) : Bool := ty != .f64 || k % 2 == 0

/-- `macc` (R322): the source tile's number is read at enqueue. -/
def execMacc (ty : MTy) (md : TileNo) (ra : RegNo) (s : State) : Host.Outcome State Fault Refusal :=
  s.mxThread (fun d => mtyEven ty md.toNat && mtyEven ty ((d.x ra).toNat % 64)) { rx := [ra], rcr := mxSampled } fun d => do
    let src := (d.x ra).toNat % 64
    d.mxTiles (mtyTiles ty md.toNat ++ mtyTiles ty src)
    d.mxPush { d.mxCmd (.macc ty md ra) (mtyTiles ty md.toNat) with xval := d.x ra }

/-- `mscl` (R322): there is no `.i32` form. -/
def execMscl (ty : MTy) (md : TileNo) (ra : RegNo) (s : State) : Host.Outcome State Fault Refusal :=
  if ty = .i32 then s.illegal
  else s.mxThread (fun _ => mtyEven ty md.toNat) { rx := [ra], rcr := mxSampled } fun d => do
    d.mxTiles (mtyTiles ty md.toNat)
    d.mxPush { d.mxCmd (.mscl ty md ra) (mtyTiles ty md.toNat) with xval := d.x ra }

/-! ### Observing the queue (R323, R324) -/

/-- The first failed tile of the thread's TILEMASK. -/
def Dev.firstFailedTile (d : Dev) : Option MxErr :=
  match d.task d.cur.1 d.cur.2 with
  | some t => (d.curCore.tileFail.find? fun p => t.hasTile p.1).map (·.2)
  | none => none

/-- The failed ladders that the thread's task has bound, lowest first. -/
def Dev.failedLadders (d : Dev) : List (Nat × MxErr) :=
  match d.task d.cur.1 d.cur.2 with
  | some t => d.curCore.ladders.filterMap fun p => if p.2.task = t.id then p.2.failed.map fun e => (p.1, e) else none
  | none => []

/-- `mfence` (R323): a latched matrix error is cleared as it is raised, so the trap waits first for the thread's pending results (R250). -/
def execMfence (s : State) : Host.Outcome State Fault Refusal :=
  s.thread {} fun d => do
    ensure (!d.th.guest) .perm 0
    if d.curCore.mxq.any (·.slot == d.cur.2) then park .mfence
    else match d.firstFailedTile with
      | some e => raise e.cause e.gva
      | none => match d.failedLadders with
        | (_, e) :: _ => raise e.cause e.gva
        | [] => match d.th.mxerr with
          | some e =>
            if d.th.pend.isEmpty then .ok ((d.modTh fun t => { t with mxerr := none }).trap d.cur.1 d.cur.2 ⟨e.cause, e.gva⟩)
            else park .pending
          | none => .ok d.retire

/-- `mqstat` (R324) -/
def execMqstat (rd : RegNo) (s : State) : Host.Outcome State Fault Refusal :=
  s.thread { wx := [rd] } fun d => do
    ensure (!d.th.guest) .perm 0
    let c := d.curCore
    let mine := (c.mxq.filter (·.slot == d.cur.2)).length
    let lfail := (d.failedLadders.map fun p => 2 ^ p.1).foldl (· + ·) 0
    let x := lfail * 2 ^ 18 + (if d.th.mxerr.isSome then 2 ^ 17 else 0) + (if d.firstFailedTile.isSome then 2 ^ 16 else 0)
      + mine * 2 ^ 8 + c.mxq.length
    .ok ((d.setX rd (BitVec.ofNat 64 x)).retire)

/-! ### Execution (R317-R322) -/

/-- The window's base of the command's task, for the local offsets of failures. -/
def Dev.mxOrigin (d : Dev) (r : Nat) (c : MxCmd) : Nat := (((d.core r).tasks.find? (·.id == c.task)).map (·.origin)).getD 0

/-- Read an operand of `n` bytes: local, or through the tile fetch unit with user rights (R136). -/
def mxRead (r : Nat) (c : MxCmd) (l : Loc) (n : Nat) : Eng Nat := do
  let d ← get
  match l with
  | .loc a => engLocalRead r a n (d.mxOrigin r c)
  | .glob g =>
    let ps ← engRange (r / 4) c.part { read := true, twinOk := true } g n
    engReadPieces c.part ps

/-- The 32 BF16 scales of a side (R224). -/
def mxScales (r : Nat) (c : MxCmd) (msc : Word) (at_ : Nat) : Eng (List FVal) := do
  if msc.getLsbD 63 then
    let x ← mxRead r c (.loc at_) 64
    pure ((List.range 32).map fun i => bf16.read (x / 65536 ^ i % 65536))
  else pure []

def tileAddr (k : Nat) : Nat := tileBase + 4096 * k

/-- Write a tile or tiles from tile `k` on, as a value of `n` bytes. -/
def setTiles (r k n x : Nat) : Eng Unit := Eng.upd fun d => d.modCore r fun c =>
  { c with lmem := c.lmem.setNat (tileAddr k) n x, badLmem := c.cleanLmem (tileAddr k) n }

/-- Read tiles from tile `k` on, as a value of `n` bytes; poison fails the command (R54). -/
def getTiles (r k n : Nat) : Eng Nat := engLocalRead r (tileAddr k) n 0

/-- A completed `mzero` or `mld` clears the mark of its tile (R318). -/
def clearMark (r k : Nat) : Eng Unit := Eng.upd fun d => d.modCore r fun c => { c with tileFail := adel c.tileFail k }

/-- Execute a matrix command: it commits its writes and answers its flags, or stops without effect. -/
def mxRun (r : Nat) (c : MxCmd) : Eng FFlags := do
  match c.instr with
  | .mma md _ _ _ _ =>
    let (ca, cb) := mfmtCodes c.mfmt
    let a ← mxRead r c c.a 2048
    let b ← mxRead r c c.b 2048
    let ss ← mxScales r c c.msca c.scaleA
    let ts ← mxScales r c c.mscb c.scaleB
    let planes := (c.mfmt.extractLsb' 16 3).toNat
    let shift := c.mosh.toNat % 16
    let row (x i code : Nat) := rowVals code planes shift (x / 256 ^ (64 * i) % 256 ^ 64)
    let acc := accOf ca cb (c.msca.getLsbD 63 || c.mscb.getLsbD 63)
    let old ← getTiles r md.toNat (1024 * acc.z)
    let (x, f) := mmaTile acc ((List.range 32).map fun i => row a i ca) ((List.range 32).map fun j => row b j cb) ss ts old
    setTiles r md.toNat (1024 * acc.z) x
    pure f
  | .mzero md =>
    setTiles r md.toNat 4096 0
    clearMark r md.toNat
    pure 0
  | .mld md _ _ =>
    let x ← mxRead r c c.a 4096
    setTiles r md.toNat 4096 x
    clearMark r md.toNat
    pure 0
  | .mst md _ _ =>
    match c.a with
    | .loc a =>
      engLocalWrite r a 4096 (← getTiles r md.toNat 4096) ((← get).mxOrigin r c)
      pure 0
    | .glob _ => pure 0
  | .mstg md _ _ =>
    match c.a with
    | .glob g =>
      let ps ← engRange (r / 4) c.part { write := true, twinOk := true, twinOnly := true } g 4096
      engWritePieces c.part (← getTiles r md.toNat 4096) ps
      pure 0
    | .loc _ => pure 0
  | .macc ty md _ =>
    let z := if ty = .f64 then 8 else 4
    let x ← getTiles r md.toNat (1024 * z)
    let y ← getTiles r (c.xval.toNat % 64) (1024 * z)
    let (v, f) := tileMap z fun k =>
      let p := x / 256 ^ (z * k) % 256 ^ z
      let q := y / 256 ^ (z * k) % 256 ^ z
      match ty with
      | .f32 => fp32.add .rne p q
      | .f64 => fp64.add .rne p q
      | .i32 => let (w, cl) := clampInt 32 (svOf 32 p + svOf 32 q); (patOf 32 w, if cl then fSAT else 0)
    setTiles r md.toNat (1024 * z) v
    pure f
  | .mscl ty md _ =>
    let z := if ty = .f64 then 8 else 4
    let x ← getTiles r md.toNat (1024 * z)
    let (v, f) := tileMap z fun k =>
      let p := x / 256 ^ (z * k) % 256 ^ z
      if ty = .f64 then fp64.mul .rne p c.xval.toNat else fp32.mul .rne p (c.xval.toNat % 2 ^ 32)
    setTiles r md.toNat (1024 * z) v
    pure f
  | _ => pure 0

/-- Whether the core's queue starts no command: it is interrupted for a save, and the command then in execution has ended (R115). -/
def Core.mxStopped (c : Core) : Bool := c.saving && !c.commitWait

/-- The command at the head leaves the queue; its flags go to the thread that enqueued it (R235). -/
def Dev.mxDone (d : Dev) (r : Nat) (c : MxCmd) (f : FFlags) : Dev :=
  let d := (d.modCore r fun k => { k with mxq := k.mxq.drop 1, commitWait := false }).reap r
  if c.slot < 16 then d.modSlot r c.slot fun s => { s with fflags := s.fflags ||| f } else d

/-- A failed command marks its destination tiles, or latches the thread's matrix error (R317). -/
def Dev.mxFail (d : Dev) (r : Nat) (c : MxCmd) (e : MxErr) : Dev :=
  let d := d.mxDone r c 0
  if c.dests.isEmpty then
    if c.slot < 16 then d.modSlot r c.slot fun s => { s with mxerr := s.mxerr.orElse fun _ => some e } else d
  else d.modCore r fun k => { k with tileFail := c.dests.foldl (fun m t => aset m t e) k.tileFail }

/-- Records of residue failures that a retry corrected, and of a fourth one (R137). INFO holds a residue value that the spec does not state
(log entry 5). -/
def Dev.logResidue (d : Dev) (r : Nat) (c : MxCmd) (fails : Nat) : Dev :=
  let (w, d) := if 0 < fails then d.free else (0, d)
  let e (sev : Nat) : ErrRec := ⟨0x01, d.dieOf r, 0, 0, sev, r, min c.slot 15, w.toNat % 2 ^ 32, 1⟩
  let d := (List.range (min fails 3)).foldl (fun d _ => d.logCorrected (some c.part) (e 0)) d
  if 4 ≤ fails then d.logPart c.part (e 1) else d

/-- Change the head command of the queue. -/
def Dev.mxWait (d : Dev) (r : Nat) (page : Nat) : Dev :=
  d.modCore r fun k => match k.mxq with
    | c :: t => { k with mxq := { c with faultPage := some page } :: t, commitWait := false }
    | [] => k

/-- How a stopped command goes on: it waits for its page or its line (in the home queue, R175), or it fails with a cause and a GVA. No command
reads through a REMOTE page. -/
def Dev.mxStop (d : Dev) (r : Nat) (c : MxCmd) (fail : Dev → MxErr → Dev) : EStop → Dev
  | .wait g w => (d.engineFault r c.part g w).mxWait r (g / 65536)
  | .hold l w => d.queueHeld r c.part l .matrix w
  | .far _ _ _ _ => d
  | .poison lo g => fail (d.logLocalPoison c.part r (min c.slot 15) g) ⟨.dataerr, BitVec.ofNat 64 lo⟩
  | .fail cause g =>
    let d := if cause = .dataerr then d.logPoison c.part r (min c.slot 15) g else d
    fail d ⟨cause, BitVec.ofNat 64 g⟩
  | .refused g => fail (d.logRefused c.part r (min c.slot 15) g) ⟨.dataerr, BitVec.ofNat 64 g⟩

/-- Matrix instructions, as against ladder instructions, of the queue. -/
def isMatrix : Instr → Bool
  | .mma _ _ _ _ _ | .mzero _ | .mld _ _ _ | .mst _ _ _ | .mstg _ _ _ | .macc _ _ _ | .mscl _ _ _ => true
  | _ => false

/-- The sequencer of core `r` executes the matrix command at the head of its queue; `fails` of its residue checks fail. -/
def Dev.matrixTurn (d : Dev) (r fails : Nat) : Dev :=
  match (d.core r).mxq with
  | c :: _ =>
    if !isMatrix c.instr || c.faultPage.isSome || (d.core r).mxStopped then d
    else match mxRun r c d with
      | .error e => d.mxStop r c (fun d e => d.mxFail r c e) e
      | .ok (f, d') =>
        if 4 ≤ fails then (d.logResidue r c 4).mxFail r c ⟨.dataerr, 0⟩
        else (d'.logResidue r c fails).mxDone r c f
  | [] => d

/-! ### The tile fetch unit (R136) -/

/-- The global operand that the tile fetch unit reads for a queued command: A, or B, with its length. -/
def MxCmd.source (c : MxCmd) (b : Bool) : Option (Nat × Nat) :=
  match c.instr, (if b then c.b else c.a) with
  | .mma _ _ _ _ _, .glob g => some (g, 2048)
  | .mld _ _ _, .glob g => some (g, 4096)
  | _, _ => none

/-- The pins that a core holds. -/
def Core.pinCount (c : Core) : Nat := (c.mxq.map fun m => m.pins.length).foldl (· + ·) 0

/-- Whether core `r` may pin a line that a slice holds: at most 256 pins on a core, and at most 6 of the 12 ways of a set. -/
def Dev.canPin (d : Dev) (r line : Nat) : Bool :=
  match aget? d.llc line with
  | none => false
  | some e => decide ((d.core r).pinCount < 256)
      && (d.pinned line || decide ((((aget? d.lru e.set).getD []).filter d.pinned).length < 6))

/-- The tile fetch unit of core `r` fetches the line of byte `off` of an operand of its `n`-th queued command and pins it, unless a limit is
reached: then the line streams through. The command reads its value when it executes, and meets there what stops a fetch. -/
def Dev.tileFetch (d : Dev) (r n : Nat) (b : Bool) (off : Nat) : Dev :=
  match (d.core r).mxq[n]? with
  | none => d
  | some c => match c.source b with
    | none => d
    | some (g, len) =>
      if len ≤ off || (d.core r).saving then d
      else match engTrans (r / 4) c.part { read := true, twinOk := true } (g + off / 128 * 128) d with
        | .error _ => d
        | .ok (t, d) =>
          if d.lineHeld (t.pa / 128) then d
          else
            let d := (d.agentRead t.pa 128 c.part t.leaf t.pg).2
            let line := t.pa / 128
            if c.pins.contains line || !d.canPin r line then d
            else d.modCore r fun k => { k with mxq := k.mxq.modify n fun m => { m with pins := m.pins ++ [line] } }

/-- MATRIX_COMMAND_EXECUTE (R317): core `a`, with `c` failed residue checks. -/
def execMatrixCommandExecute (s : State) : Host.Outcome State Fault Refusal := s.onDev fun d => d.matrixTurn s.args.a s.args.c

end Sys2Proof.Machine
end

