-- ==== Sys2Proof/Machine/Ladder.lean ====
section
/-! DEFINITION. Ladders: bindings, the queued ladder commands and the blended read (chapter 13 of the spec, R326-R337, R237). -/

namespace Sys2Proof.Machine

/-! ### The descriptor (R327) -/

/-- The fields of a descriptor, as it stands in tile memory. -/
structure LDesc where
  base : Nat
  shape : Nat
  rungs : Nat
  hot : Nat
  n : Nat
  cold : Nat
  woff : Nat
  goff : Nat
  gen : Bool
  reservedOk : Bool
  deriving DecidableEq, Repr

/-- Read the 32 bytes of a descriptor, as one value. -/
def ldesc (x : Nat) : LDesc :=
  let w (k : Nat) := x / 2 ^ (64 * k) % 2 ^ 64
  { base := bits (w 0) 5 0, shape := bits (w 0) 7 6, rungs := bits (w 0) 13 8, hot := bits (w 0) 19 14, n := w 1
    cold := bits (w 2) 47 0, woff := bits (w 3) 18 0, goff := bits (w 3) 50 32, gen := bits (w 3) 63 63 == 1
    reservedOk := bits (w 0) 63 20 == 0 && bits (w 2) 63 48 == 0 && bits (w 3) 31 19 == 0 && bits (w 3) 62 51 == 0 }

/-- Tiles of a rung. -/
def LDesc.u (d : LDesc) : Nat := if d.shape = 0 then 1 else if d.shape = 1 then 2 else 4
def LDesc.hotTiles (d : LDesc) : List Nat := (List.range (d.u * d.hot)).map (d.base + ·)
def LDesc.occupied (d : LDesc) (l : Nat) : Bool := d.n / 2 ^ l % 2 == 1
/-- Trailing one bits of n, up to `k`. -/
def trailingOnes (n : Nat) : Nat → Nat
  | 0 => 0
  | k + 1 => if n % 2 = 1 then trailingOnes (n / 2) k + 1 else 0

def Core.ldescAt (c : Core) (o : Nat) : LDesc := ldesc (c.lmem.nat o 32)

/-- Element (i, j) of a rung stands at this place, in elements (R327). -/
def rungIndex (i j : Nat) : Nat := (i / 32 * 2 + j / 32) * 1024 + 32 * (i % 32) + j % 32

/-! ### Binding (R328) -/

/-- The 128 bytes of weights or factors: wholly in scratch and stash, or in one tile of TILEMASK that no ladder owns. -/
def ladArrayOk (t : Task) (off : Nat) (owned : List Nat) : Bool :=
  decide (off + 128 ≤ t.s + t.t)
    || (decide (tileBase ≤ off ∧ off + 128 ≤ tileEnd)
      && decide ((off - tileBase) / 4096 = (off + 127 - tileBase) / 4096)
      && t.hasTile ((off - tileBase) / 4096) && !owned.contains ((off - tileBase) / 4096))

/-- The conditions under which `lcfg` of `lx` takes the descriptor at `o`. -/
def Dev.lcfgOk (d : Dev) (t : Task) (lx o : Nat) : Bool :=
  let x := d.curCore.ldescAt o
  let tile := (o - tileBase) / 4096
  let others := (d.curCore.ladders.filter (·.1 != lx)).flatMap fun p => p.2.owned
  let own := tile :: x.hotTiles
  x.reservedOk && x.shape != 3 && decide (1 ≤ x.rungs ∧ x.rungs ≤ 32) && decide (x.hot ≤ x.rungs) && decide (x.n < 2 ^ x.rungs)
    && decide (x.base % x.u = 0) && decide (x.base + x.u * x.hot ≤ 64) && x.hotTiles.all t.hasTile
    && !(own.any others.contains) && !x.hotTiles.contains tile
    && (decide (x.hot = x.rungs) || (decide (x.cold ≠ 0) && decide (x.cold % 128 = 0)))
    && ladArrayOk t x.woff (own ++ others) && (!x.gen || ladArrayOk t x.goff (own ++ others))

/-- A thread access to a tile that is marked failed raises the recorded cause (R318). -/
def Dev.tileGood (d : Dev) (tiles : List Nat) : Chk Unit := tiles.forM fun k => match aget? d.curCore.tileFail k with
  | some e => raise e.cause e.gva
  | none => pure ()

/-- `lcfg`: the descriptor is read from its tile. -/
def execLcfg (lx : BitVec 3) (xo : RegNo) (s : State) : Host.Outcome State Fault Refusal :=
  s.thread { rx := [xo] } fun d => do
    ensure (!d.th.guest) .perm 0
    let l := lx.toNat
    match d.task d.cur.1 d.cur.2 with
    | none => raise .ladder 0
    | some t =>
      if !d.curCore.mxq.isEmpty then park .queueEmpty
      else
        let o := (d.x xo).toNat
        ensure (((aget? d.curCore.ladders l).map fun b => b.task == t.id).getD true) .ladder 0
        if o = 0 then .ok ((d.modCur fun c => { c with ladders := adel c.ladders l }).retire)
        else
          ensure (decide (tileBase ≤ o ∧ o ≤ 0xBFFE0 ∧ o % 32 = 0)) .segv (BitVec.ofNat 64 o)
          ensure (t.hasTile ((o - tileBase) / 4096)) .perm (BitVec.ofNat 64 o)
          d.tileGood [(o - tileBase) / 4096]
          d.localGood o o 32
          ensure (d.lcfgOk t l o) .ladder 0
          let b : Ladder := ⟨t.id, o, (o - tileBase) / 4096 :: (d.curCore.ldescAt o).hotTiles, none⟩
          .ok ((d.modCur fun c => { c with ladders := aset c.ladders l b }).retire)

/-! ### Enqueue of ladder commands (R329) -/

/-- The ladder bound by the thread's task: PERM in a guest (R146), LADDER otherwise. -/
def Dev.myLadder (d : Dev) (lx : BitVec 3) : Chk (Task × Ladder × LDesc) := do
  ensure (!d.th.guest) .perm 0
  match d.task d.cur.1 d.cur.2, aget? d.curCore.ladders lx.toNat with
  | some t, some b => if b.task = t.id then .ok (t, b, d.curCore.ldescAt b.off) else raise .ladder 0
  | _, _ => raise .ladder 0

/-- PERM for a tile outside TILEMASK, with the tile's local offset. -/
def Dev.ladTiles (t : Task) (tiles : List Nat) : Chk Unit :=
  tiles.forM fun k => ensure (decide (k < 64) && t.hasTile k) .perm (BitVec.ofNat 64 (tileBase + 4096 * k))

/-- LADDER for a named tile that a ladder owns. -/
def Dev.ladOwned (d : Dev) (tiles : List Nat) : Chk Unit := tiles.forM fun k => ensure (d.curCore.tileOwner k).isNone .ladder 0

/-- The FP32 elements of a register pair or quad (R330). -/
def Dev.vecElems (d : Dev) (v : RegNo) (n : Nat) : List Nat :=
  (List.range n).map fun i => vlane (d.v (v + BitVec.ofNat 5 (i / 16))) 4 (i % 16)

/-- `ladd lx, va, vb`: the vectors are read at enqueue. -/
def execLaddOuter (lx : BitVec 3) (va vb : RegNo) (s : State) : Host.Outcome State Fault Refusal :=
  if !evenReg va || !evenReg vb then s.illegal
  else s.mxThread (fun _ => true) { rv := [va, va + 1, vb, vb + 1] } fun d => do
    let (_, _, x) ← d.myLadder lx
    ensure (x.u == 1) .ladder 0
    let vals := (d.vecElems va 32 ++ d.vecElems vb 32).map (BitVec.ofNat 64)
    d.mxPush { d.mxCmd (.laddOuter lx va vb) [] with vals := vals, lx := some lx.toNat }

/-- `ladd lx, ma` -/
def execLaddTile (lx : BitVec 3) (ma : TileNo) (s : State) : Host.Outcome State Fault Refusal :=
  s.mxThread (fun _ => true) {} fun d => do
    let (t, _, x) ← d.myLadder lx
    let tiles := (List.range x.u).map (ma.toNat + ·)
    Dev.ladTiles t tiles
    d.ladOwned tiles
    d.mxPush { d.mxCmd (.laddTile lx ma) [] with lx := some lx.toNat }

/-- The tile forms of `lld` and `lst`. -/
def State.rungTile (i : Instr) (lx : BitVec 3) (ma : TileNo) (xl : RegNo) (locks : Bool) (s : State) : Host.Outcome State Fault Refusal :=
  s.mxThread (fun _ => true) { rx := [xl] } fun d => do
    let (t, _, x) ← d.myLadder lx
    let tiles := (List.range x.u).map (ma.toNat + ·)
    Dev.ladTiles t tiles
    ensure (decide ((d.x xl).toNat < x.rungs)) .ladder 0
    d.ladOwned tiles
    d.mxPush { d.mxCmd i (if locks then [] else tiles) with xval := d.x xl, lx := if locks then some lx.toNat else none }

/-- The local forms: X[xo] is 128-byte aligned, with the rung's bytes inside scratch and stash. -/
def State.rungLocal (i : Instr) (lx : BitVec 3) (xo xl : RegNo) (locks : Bool) (s : State) : Host.Outcome State Fault Refusal :=
  if xo = 0 then s.illegal
  else s.mxThread (fun _ => true) { rx := [xl, xo] } fun d => do
    let (t, _, x) ← d.myLadder lx
    let o := (d.x xo).toNat
    ensure (decide (o % 128 = 0 ∧ o + 4096 * x.u ≤ t.s + t.t)) .segv (d.x xo)
    ensure (decide ((d.x xl).toNat < x.rungs)) .ladder 0
    d.mxPush { d.mxCmd i [] with a := .loc (t.origin + o), xval := d.x xl, lx := if locks then some lx.toNat else none }

/-- `lld lx, ma, xl` (R335): it locks its tiles. -/
def execLldTile (lx : BitVec 3) (ma : TileNo) (xl : RegNo) (s : State) := s.rungTile (.lldTile lx ma xl) lx ma xl false
/-- `lld lx, xo, xl` -/
def execLldLocal (lx : BitVec 3) (xo xl : RegNo) (s : State) := s.rungLocal (.lldLocal lx xo xl) lx xo xl false
/-- `lst lx, ma, xl`: it locks the ladder. -/
def execLstTile (lx : BitVec 3) (ma : TileNo) (xl : RegNo) (s : State) := s.rungTile (.lstTile lx ma xl) lx ma xl true
/-- `lst lx, xo, xl` -/
def execLstLocal (lx : BitVec 3) (xo xl : RegNo) (s : State) := s.rungLocal (.lstLocal lx xo xl) lx xo xl true

/-- `lclr lx` (R336) -/
def execLclr (lx : BitVec 3) (s : State) : Host.Outcome State Fault Refusal :=
  s.mxThread (fun _ => true) {} fun d => do
    let _ ← d.myLadder lx
    d.mxPush { d.mxCmd (.lclr lx) [] with lx := some lx.toNat }

/-! ### Execution (R331, R335-R337) -/

/-- Whether an access of global bytes that the queue of core `r` makes on behalf of slot `k` stands behind an earlier one (R189): of the thread,
or a store to the bytes in the core's write buffer. -/
def Dev.behalfBusy (d : Dev) (r k pa n : Nat) : Bool := (piecesOf pa n).any fun p =>
  let m := byteMask p.2.1 p.2.2.1
  d.lineBusy r k p.1 m || (d.core r).wb.any fun e => e.line == p.1 && !e.wback && (e.mask &&& m) != 0

/-- The queue waits for such accesses. -/
def behalfReady (r k : Nat) (write : Bool) (ps : List (Trans × Nat × Nat)) : Eng Unit := do
  let d ← get
  if ps.any fun p => d.behalfBusy r k p.1.pa p.2.2 then Eng.stop (.hold none write)

/-- A store updates the L1 copy of its line that its core holds (R123). -/
def Core.l1Update (c : Core) (line : Nat) (data : Line) (mask : BitVec 128) : Core :=
  match aget? c.l1d line with
  | some l => { c with l1d := aset c.l1d line (lineMerge l data mask) }
  | none => c

/-- The L1 copies of core `r` after a store of the bytes of a value to the pieces of a range. -/
def Dev.l1Store (d : Dev) (r x : Nat) (ps : List (Trans × Nat × Nat)) : Dev :=
  ps.foldl (fun d p => (piecesOf p.1.pa p.2.2).foldl (fun d q =>
    let (line, off, k, at_) := q
    d.modCore r fun c => c.l1Update line (lineSet 0 off k (x / 256 ^ (p.2.1 + at_) % 256 ^ k)) (byteMask off k)) d) d

/-- The bytes of rung `l` for a command of slot `k`: in its hot tiles, or cold in memory, by ordinary loads on the thread's behalf. -/
def readRung (r k part : Nat) (x : LDesc) (l : Nat) : Eng Nat := do
  let n := 4096 * x.u
  if l < x.hot then
    getTiles r (x.base + x.u * l) n
  else
    let ps ← engRange (r / 4) part { read := true } (x.cold + l * n) n
    behalfReady r k false ps
    engReadPieces part ps

/-- The same for writing it: an ordinary store, which updates the core's L1 copy (R123). -/
def writeRung (r k part : Nat) (x : LDesc) (l v : Nat) : Eng Unit := do
  let n := 4096 * x.u
  if l < x.hot then setTiles r (x.base + x.u * l) n v
  else
    let ps ← engRange (r / 4) part { write := true } (x.cold + l * n) n
    behalfReady r k true ps
    engWritePieces part v ps
    Eng.upd fun d => d.l1Store r v ps

/-- The words of a rung, `n` of them, and back. -/
def rungWords (v n : Nat) : List Nat := (List.range n).map fun k => v / 2 ^ (32 * k) % 2 ^ 32
def wordsVal : List Nat → Nat
  | [] => 0
  | w :: t => w + 2 ^ 32 * wordsVal t

/-- The merge of rung l into the carry (R237): round(g × S + C) for each element. -/
def mergeRung (g : Nat) (s c : List Nat) : List Nat × FFlags :=
  let r := (s.zip c).map fun p => fp32.fma .rne false g p.1 p.2
  (r.map (·.1), r.foldl (fun acc x => acc ||| x.2) 0)

/-- Merge rungs `l`, l + 1, … in ascending order, as many as the last argument says. -/
def mergeUp (r k part : Nat) (x : LDesc) (g : List Nat) (l : Nat) (c : List Nat) (f : FFlags) : Nat → Eng (List Nat × FFlags)
  | 0 => pure (c, f)
  | n + 1 => do
    let v ← readRung r k part x l
    let (c', f') := mergeRung (g.getD l 0) (rungWords v (1024 * x.u)) c
    mergeUp r k part x g (l + 1) c' (f ||| f') n

/-- `ladd` in queue order (R331). -/
def laddRun (r : Nat) (c : MxCmd) (b : Ladder) (x : LDesc) (push : List Nat × FFlags) : Eng FFlags := do
  let d ← get
  let t := trailingOnes x.n 64
  if x.rungs ≤ t then Eng.stop (.fail .ladder 0)
  else
    let origin := d.mxOrigin r c
    let g ← if x.gen then do
        let v ← if tileBase ≤ x.goff then engLocalRead r x.goff 128 0 else engLocalRead r (origin + x.goff) 128 origin
        pure (rungWords v 32)
      else pure (List.replicate 32 0x3F800000)
    let (carry, f) ← mergeUp r c.slot c.part x g 0 push.1 push.2 t
    for l in List.range t do writeRung r c.slot c.part x l 0
    writeRung r c.slot c.part x t (wordsVal carry)
    Eng.upd fun d => d.modCore r fun k => { k with lmem := k.lmem.setNat (b.off + 8) 8 (x.n + 1) }
    pure f

/-- Whether a command acts on a failed ladder, and ends its failed state: `lclr` (R336, R337). -/
def isLclr : Instr → Bool
  | .lclr _ => true
  | _ => false

/-- Execute a ladder command on its binding; poison of the descriptor fails it (R54). -/
def ladRun (r : Nat) (c : MxCmd) (lx : Nat) (b : Ladder) : Eng FFlags := do
  let x := ldesc (← engLocalRead r b.off 32 0)
  let n := 4096 * x.u
  let l := c.xval.toNat
  match c.instr with
  | .lclr _ =>
    setTiles r x.base (n * x.hot) 0
    Eng.upd fun d => d.modCore r fun k =>
      { k with lmem := k.lmem.setNat (b.off + 8) 8 0, ladders := aset k.ladders lx { b with failed := none } }
    pure 0
  | .laddOuter _ _ _ =>
    let va := (c.vals.take 32).map (·.toNat)
    let vb := (c.vals.drop 32).map (·.toNat)
    let ps := va.flatMap fun p => vb.map fun q => fp32.mul .rne p q
    laddRun r c b x (ps.map (·.1), ps.foldl (fun acc p => acc ||| p.2) 0)
  | .laddTile _ ma =>
    laddRun r c b x (rungWords (← getTiles r ma.toNat n) (1024 * x.u), 0)
  | .lldTile _ ma _ =>
    let v ← readRung r c.slot c.part x l
    setTiles r ma.toNat n v
    pure 0
  | .lldLocal _ _ _ =>
    match c.a with
    | .loc a =>
      let v ← readRung r c.slot c.part x l
      engLocalWrite r a n v ((← get).mxOrigin r c)
      pure 0
    | .glob _ => pure 0
  | .lstTile _ ma _ =>
    writeRung r c.slot c.part x l (← getTiles r ma.toNat n)
    pure 0
  | .lstLocal _ _ _ =>
    match c.a with
    | .loc a =>
      let v ← engLocalRead r a n ((← get).mxOrigin r c)
      writeRung r c.slot c.part x l v
      pure 0
    | .glob _ => pure 0
  | _ => pure 0

/-- The ladder that a queued command names. -/
def ladderOf : Instr → Option Nat
  | .laddOuter lx _ _ | .laddTile lx _ | .lldTile lx _ _ | .lldLocal lx _ _ | .lstTile lx _ _ | .lstLocal lx _ _ | .lclr lx => some lx.toNat
  | _ => none

/-- A failed ladder command commits nothing and leaves the ladder failed (R337). -/
def Dev.ladFail (d : Dev) (r : Nat) (c : MxCmd) (lx : Nat) (e : MxErr) : Dev :=
  (d.mxDone r c 0).modCore r fun k => match aget? k.ladders lx with
    | some b => { k with ladders := aset k.ladders lx { b with failed := some e } }
    | none => k

/-- The sequencer of core `r` executes the ladder command at the head of its queue; `fails` of its residue checks fail. A failed ladder's commands
complete without effect, but for `lclr` (R337). -/
def Dev.ladderTurn (d : Dev) (r fails : Nat) : Dev :=
  match (d.core r).mxq with
  | c :: _ =>
    match ladderOf c.instr with
    | none => d
    | some lx =>
      if c.faultPage.isSome || (d.core r).mxStopped then d
      else match aget? (d.core r).ladders lx with
        | none => d.mxDone r c 0
        | some b =>
          if b.failed.isSome && !isLclr c.instr then d.mxDone r c 0
          else match ladRun r c lx b d with
          | .error e => d.mxStop r c (fun d e => d.ladFail r c lx e) e
          | .ok (f, d') =>
            if 4 ≤ fails then (d.logResidue r c 4).ladFail r c lx ⟨.dataerr, 0⟩
            else (d'.logResidue r c fails).mxDone r c f
  | [] => d

/-- LADDER_COMMAND_EXECUTE (R331): core `a`, with `c` failed residue checks. -/
def execLadderCommandExecute (s : State) : Host.Outcome State Fault Refusal := s.onDev fun d => d.ladderTurn s.args.a s.args.c

/-! ### lread (R333) -/

/-- The registers that an `lread` of a ladder of `u` tiles a rung reads and writes. -/
def lreadUse (u : Nat) (vd vq : RegNo) : RegUse :=
  let regs (v : RegNo) (n : Nat) := (List.range n).map fun i => v + BitVec.ofNat 5 i
  { rv := regs vq (if u = 4 then 4 else 2), wv := regs vd (if u = 1 then 2 else 4) }

/-- One occupied rung of an `lread`: its bytes, hot or by ordinary loads of the thread. -/
def Dev.lreadRung (d : Dev) (x : LDesc) (l : Nat) : Chk (Nat × Dev) := do
  let n := 4096 * x.u
  if l < x.hot then
    let k := x.base + x.u * l
    d.tileGood ((List.range x.u).map (k + ·))
    d.localGood (tileAddr k) (tileAddr k) n
    .ok (d.curCore.lmem.nat (tileAddr k) n, d)
  else
    let ps ← d.translateRange { read := true, user := d.user } (x.cold + l * n) n
    let (v, d) ← d.peekPieces ps
    match v.bad with
    | some g => .error (.consumed g)
    | none => .ok (v.val, d)

/-- acc := round(acc + w × d) over the occupied rungs, for one column (R237). -/
def blendColumn (q w : List Nat) (rungs : List (Nat × List Nat)) (j : Nat) : Nat × FFlags :=
  rungs.foldl (fun (acc : Nat × FFlags) p =>
    let ps := q.zipIdx.map fun (qi, i) => (fp32.read qi).mul (fp32.read (p.2.getD (rungIndex i j) 0))
    let (v, f) := exactSum .rne (ps.map (·.1))
    let (dl, g) := fp32.round .rne v
    let (b, h) := fp32.fma .rne false (w.getD p.1 0) dl acc.1
    (b, ps.foldl (fun a x => a ||| x.2) (acc.2 ||| f ||| g ||| h))) (0, 0)

/-- `lread`: it reads the weights in local memory or in a tile that no ladder owns (R326). -/
def execLread (lx : BitVec 3) (vd vq : RegNo) (s : State) : Host.Outcome State Fault Refusal :=
  let u := match aget? s.dev.curCore.ladders lx.toNat with
    | some b => (s.dev.curCore.ldescAt b.off).u
    | none => 1
  s.thread (lreadUse u vd vq) fun d => do
    ensure (!d.th.guest) .perm 0
    if d.curCore.ladderLocked lx.toNat then park (.ladder lx.toNat)
    else
      let (t, b, x) ← d.myLadder lx
      match b.failed with
      | some e => raise e.cause e.gva
      | none =>
        let c := if x.u = 1 then 2 else 4
        let nq := if x.u = 4 then 64 else 32
        ensure (decide (vd.toNat % c = 0 ∧ vq.toNat % (nq / 16) = 0)) .ladder 0
        d.acqHeld
        let wa := if tileBase ≤ x.woff then x.woff else t.origin + x.woff
        d.ladOwned (tilesOf wa 128)
        d.stashTrans x.woff wa 128 false
        d.tileReady wa 128 false
        d.stashReady wa 128
        d.localGood b.off b.off 32
        d.localGood x.woff wa 128
        let w := rungWords (d.curCore.lmem.nat wa 128) 32
        let (rungs, d) ← ((List.range x.rungs).filter x.occupied).foldlM (fun (acc : List (Nat × List Nat) × Dev) l => do
          let (v, d) ← acc.2.lreadRung x l
          .ok (acc.1 ++ [(l, rungWords v (1024 * x.u))], d)) ([], d)
        let q := d.vecElems vq nq
        let cols := (List.range (16 * c)).map fun j => blendColumn q w rungs j
        let out := (List.range c).map fun k => vbuild 4 16 fun i => ((cols.getD (16 * k + i) (0, 0)).1)
        let d := out.zipIdx.foldl (fun d p => d.setV (vd + BitVec.ofNat 5 p.2) p.1) d
        .ok ((d.orFlags (cols.foldl (fun a p => a ||| p.2) 0)).retire)

end Sys2Proof.Machine
end

