-- ==== Sys2Proof/Machine/Copy.lean ====
section
/-! DEFINITION. The copy engine (R138-R141, R338-R344) and `kvgath` (R357): how requests are queued, run step by step, complete, fail and
are cancelled; and how a trap, an interrupt or a save cancels the wait of a thread (R116). -/

namespace Sys2Proof.Machine

/-- A rejection in the form of R91: 2^63 + status. -/
def reject (status : Nat) : Word := BitVec.ofNat 64 (2 ^ 63 + status)
/-- The statuses that instructions return in that form. -/
def stInvalid : Nat := 0x0002
def stDeviceAddress : Nat := 0x0005
def stBusy : Nat := 0x000C

/-! ### Request words (R338) -/

structure CopyFields where
  src : Nat
  dsg : SegNo
  ssg : SegNo
  ch : Nat
  cmode : Nat
  kind : Nat
  dst : Nat
  len : Nat
  xid : HWord
  param : Word
  bad : Bool                     -- a reserved field that is not zero
  deriving DecidableEq, Repr

/-- The fields of a copy request. -/
def copyFields (v : VWordReg) : CopyFields :=
  let w (k : Nat) : Word := v.extractLsb' (64 * k) 64
  let kind := ((w 0).extractLsb' 62 2).toNat
  let cmode := ((w 0).extractLsb' 60 2).toNat
  let ssg := (w 0).extractLsb' 55 3
  let dsg := (w 0).extractLsb' 52 3
  let param := w 3
  let badParam := match cmode with
    | 0 => param != 0
    | 1 => param.extractLsb' 50 14 != 0
    | _ => param.extractLsb' 48 16 != 0
  { src := ((w 0).extractLsb' 0 48).toNat, dsg := dsg, ssg := ssg, ch := ((w 0).extractLsb' 58 2).toNat, cmode := cmode, kind := kind
    dst := ((w 1).extractLsb' 0 48).toNat, len := ((w 2).extractLsb' 0 32).toNat, xid := (w 2).extractLsb' 32 32, param := param
    bad := (w 0).extractLsb' 48 4 != 0 || (w 1).extractLsb' 48 16 != 0 || badParam
      || ((kind == 1 || kind == 3) && ssg != 0) || ((kind == 0 || kind == 3) && dsg != 0) }

def CopyFields.srcGlobal (f : CopyFields) : Bool := f.kind == 0 || f.kind == 2
def CopyFields.dstGlobal (f : CopyFields) : Bool := f.kind == 1 || f.kind == 2

/-- What `cpq` rejects with INVALID_FIELD (R340). -/
def CopyFields.invalid (f : CopyFields) (hlen : Nat) : Bool :=
  f.bad || f.cmode == 3 || f.len == 0 || (f.cmode == 1 && decide (hlen ≤ (f.param.extractLsb' 0 12).toNat))
    || (f.cmode == 2 && f.param.extractLsb' 0 2 != 0)

/-- A local side: a range of the issuing task's scratch and stash, as a physical local address; SEGV otherwise. -/
def Dev.copyLocal (d : Dev) (off n : Nat) : Chk Loc :=
  match d.task d.cur.1 d.cur.2 with
  | some t => if off + n ≤ t.s + t.t then .ok (.loc (t.origin + off)) else raise .segv (BitVec.ofNat 64 off)
  | none => raise .segv (BitVec.ofNat 64 off)

/-- The request enters the FIFO, behind an earlier `fence.rel` (R196); X[rd] := 0. -/
def Dev.copyPush (d : Dev) (rd : RegNo) (q : CopyReq) : Chk Dev := do
  d.acqHeld
  d.relHeld
  .ok (((d.modCur fun c => { c with fifo := c.fifo ++ [q] }).setX rd 0).retire)

def Dev.taskId (d : Dev) : Nat := ((d.task d.cur.1 d.cur.2).map (·.id)).getD 0

/-- `cpq` and `cpqn` (R340), which differ when the FIFO is full. -/
def State.copyQueue (rd vb : RegNo) (full : Dev → Chk Dev) (s : State) : Host.Outcome State Fault Refusal :=
  s.thread { wx := [rd], rv := [vb] } fun d =>
    if 8 ≤ d.curCore.fifo.length then full d
    else
      let f := copyFields (d.v vb)
      if f.invalid d.tpart.cfg.hlen then .ok ((d.setX rd (reject stInvalid)).retire)
      else do
        let glob (sg : SegNo) (off : Nat) (need : SegNeed) : Chk Loc := do
          if d.th.badS.contains sg.toNat then .error .parity
          .ok (.glob (← segCheck (d.th.seg sg) (BitVec.ofNat 64 off) f.len need))
        let src ← if f.srcGlobal then glob f.ssg f.src { r := true, l0 := true } else pure (.loc 0)
        let dst ← if f.dstGlobal then glob f.dsg f.dst { w := true, l0 := true } else pure (.loc 0)
        let src ← if f.srcGlobal then pure src else d.copyLocal f.src f.len
        let dst ← if f.dstGlobal then pure dst else d.copyLocal f.dst f.len
        ensure (!d.th.guest) .perm 0
        d.copyPush rd { slot := d.cur.2, task := d.taskId, part := d.th.part, ch := f.ch, src := src, dst := dst, len := f.len, cmode := f.cmode, param := f.param, xid := f.xid, lanes := [], kv := false, lane := 0 }

/-- `cpq`: parks while the FIFO is full. -/
def execCpq (rd vb : RegNo) (s : State) : Host.Outcome State Fault Refusal := s.copyQueue rd vb fun _ => park .copyFifo
/-- `cpqn`: BUSY when the FIFO is full. -/
def execCpqn (rd vb : RegNo) (s : State) : Host.Outcome State Fault Refusal :=
  s.copyQueue rd vb fun d => .ok ((d.setX rd (reject stBusy)).retire)

/-- A channel's read of another module, and its place in a home queue, are no longer waited for. -/
def Dev.dropChan (d : Dev) (r ch : Nat) : Dev :=
  { d with
    remote := d.remote.filter fun p => !(p.2.rank == r && p.2.chan == some ch)
    homeQ := d.homeQ.filter fun q => !(q.rank == r && q.kind.ofAgent (.copy ch)) }

/-- `cpcancel` (R344): a step is one turn, so none is in progress when the instruction executes. A guest queues no request, and counts
none. -/
def execCpcancel (rd ra : RegNo) (s : State) : Host.Outcome State Fault Refusal :=
  s.thread { rx := [ra], wx := [rd] } fun d => do
    let x := d.x ra
    if x.extractLsb' 2 62 != 0 then .ok ((d.setX rd (reject stInvalid)).retire)
    else
      d.relHeld
      let ch := x.toNat
      let c := d.curCore
      let hit (q : CopyReq) : Bool := !d.th.guest && q.ch == ch && q.task == d.taskId
      let run := (aget? c.chan ch).any fun u => hit u.req
      let n := (c.fifo.filter hit).length + (if run then 1 else 0)
      let d := (if run then d.dropChan d.cur.1 ch else d).modCur fun c =>
        { c with fifo := c.fifo.filter fun q => !hit q, chan := if run then adel c.chan ch else c.chan }
      .ok ((d.setX rd (BitVec.ofNat 64 n)).retire)

/-- `kvgath` (R357): one FIFO entry with its valid lanes. -/
def execKvgath (rd ra vb : RegNo) (s : State) : Host.Outcome State Fault Refusal :=
  s.thread { rx := [ra], wx := [rd], rv := [vb] } fun d =>
    if 8 ≤ d.curCore.fifo.length then park .copyFifo
    else
      let a := d.x ra
      let lane (l : Nat) : Word := (d.v vb).extractLsb' (64 * l) 64
      let lb := ((a.extractLsb' 12 9).toNat + 1) * 128
      let off := (a.extractLsb' 21 9).toNat * 128
      let dst := (a.extractLsb' 0 12).toNat * 128
      let cen := a.getLsbD 30
      let crank := (a.extractLsb' 31 12).toNat
      let bad := a.extractLsb' 51 13 != 0
        || (List.range 8).any fun l => (lane l).extractLsb' 48 15 != 0 || (lane l).extractLsb' 0 16 != 0
      if bad || decide (65536 < off + lb) || (cen && decide (d.tpart.cfg.hlen ≤ crank)) then
        .ok ((d.setX rd (reject stInvalid)).retire)
      else do
        let at_ ← d.copyLocal dst (8 * lb)
        ensure (!d.th.guest) .perm 0
        let base := match at_ with
          | .loc p => p
          | .glob g => g
        let lanes := (List.range 8).filterMap fun l =>
          if (lane l).getLsbD 63 then some (((lane l).extractLsb' 16 32).toNat * 65536 + off, base + l * lb) else none
        let param : Word := BitVec.ofNat 64 (2 ^ 18 + (a.extractLsb' 43 6).toNat * 4096 + crank)
        d.copyPush rd { slot := d.cur.2, task := d.taskId, part := d.th.part, ch := (a.extractLsb' 49 2).toNat, src := .loc 0, dst := at_, len := 0, cmode := if cen then 1 else 0, param := param, xid := 0, lanes := lanes, kv := true, lane := lb }

/-! ### Execution (R341-R343) -/

/-- The base of the window of a request's task. -/
def Dev.copyOrigin (d : Dev) (r : Nat) (q : CopyReq) : Nat := (((d.core r).tasks.find? (·.id == q.task)).map (·.origin)).getD 0

def Core.setChan (c : Core) (ch : Nat) (u : CopyRun) : Core := { c with chan := aset c.chan ch u }
def Core.setCpwp (c : Core) (ch off : Nat) : Core := { c with cpwp := vset c.cpwp ch (BitVec.ofNat 64 off) }

/-- CPWPn takes the offset of local byte `done` of the destination (R139); a global destination leaves it unchanged. -/
def Dev.copyMark (d : Dev) (r : Nat) (u : CopyRun) : Dev :=
  match u.req.dst with
  | .loc a => d.modCore r fun c => c.setCpwp u.req.ch (a - d.copyOrigin r u.req + u.done)
  | .glob _ => d

/-- The page of a size that holds a GVA, by its first 64 KiB. -/
def pageAt (gva : Nat) (large : Bool) : PageId := ⟨if large then gva / 65536 / 32 * 32 else gva / 65536, large⟩

/-- The translation of one page of a global destination of an engine of quad `q`: the back copy that the request chose when it first wrote the
page (R161, R162), or the back copy as it is now, which is its choice from then on. -/
def engBack (q part gva : Nat) (backs : List BackChoice) : Eng (Trans × BackChoice) := do
  match ← engEntry q part { write := true, twinOk := true, twinOnly := true } gva with
  | none => Eng.stop (.wait gva true)
  | some e =>
    let now := if e.front then 0 else 1
    let page := pageAt gva e.large
    let b := (backs.find? (·.page == page)).getD ⟨page, now, (← get).accSeq⟩
    let t ← engTrans q part { write := true, twinOk := true, twinOnly := !e.twin || b.entry == now } gva
    pure (t, b)

/-- The pieces of a step's global destination, by page, and the copies chosen. -/
def engBackRange (q part gva n : Nat) (backs : List BackChoice) : Eng (List (Trans × Nat × Nat) × List BackChoice) := do
  let k := min n (65536 - gva % 65536)
  let (t, b) ← engBack q part gva backs
  if k < n then
    let (u, c) ← engBack q part (gva + k) (b :: backs)
    pure ([(t, 0, k), (u, k, n - k)], [b, c])
  else pure ([(t, 0, n)], [b])

/-- The chosen copies that still matter once the bytes before `g` are written. -/
def keptBacks (g : Nat) (l : List BackChoice) : List BackChoice := l.filter fun b => b.page == pageAt g b.page.large

/-- The source bytes of a step: a piece on another module is the one that it has answered. -/
def copySource (part : Nat) (got : List (Nat × Nat × Nat)) : List (Trans × Nat × Nat) → Eng Nat
  | [] => pure 0
  | (t, o, n) :: rest => do
    let far := (← get).isFar t
    let x ← match if far then got.find? (fun p => p.1 == t.pa && p.2.1 == n) else none with
      | some p => pure p.2.2
      | none => engReadPiece part t n
    let y ← copySource part got rest
    pure (x * 256 ^ o + y)

/-- One step of at most 128 bytes. Whether a source may lie on another module is free, since R42 allows it and R343 ends the request with PERM
(log entry 16); that of a `kvgath` may not. -/
def copyMove (r : Nat) (u : CopyRun) : Eng CopyRun := do
  let d ← get
  let q := u.req
  let n := min 128 (q.len - u.done)
  let origin := d.copyOrigin r q
  let x ← match q.src with
    | .loc a => engLocalRead r (a + u.done) n origin
    | .glob g => do
      let ps ← engRange (r / 4) q.part { read := true, twinOk := true, remoteOk := Config.copyRemote && !q.kv } (g + u.done) n
      copySource q.part u.got ps
  let u := { u with done := u.done + n, got := [] }
  match q.dst with
  | .loc a =>
    engLocalWrite r (a + u.done - n) n x origin
    pure u
  | .glob g =>
    let (ps, backs) ← engBackRange (r / 4) q.part (g + u.done - n) n u.backs
    engWritePieces q.part x ps
    pure { u with backs := keptBacks (g + u.done) backs }

/-- The completion of a request (R342). -/
def Dev.copyComplete (d : Dev) (r : Nat) (q : CopyReq) : Dev :=
  match q.cmode with
  | 1 => d.post r q.part (q.param.extractLsb' 0 12).toNat (q.param.extractLsb' 12 6).toNat (q.param.extractLsb' 18 32)
  | 2 =>
    if q.slot < 16 then d.modSlot r q.slot fun s => { s with copyIrqs := s.copyIrqs ++ [(q.param, q.xid.setWidth 64)] } else d
  | _ => d

/-- The end of a request: its channel is idle. -/
def Dev.copyEnd (d : Dev) (r : Nat) (q : CopyReq) : Dev :=
  (((d.dropChan r q.ch).modCore r fun c => { c with chan := adel c.chan q.ch }).copyComplete r q).reap r

/-- The cause of a failure goes to the issuing thread, which takes it as a trap (R343). -/
def Dev.copyFault (d : Dev) (r : Nat) (q : CopyReq) (t : TrapInfo) : Dev :=
  if q.slot < 16 then d.modSlot r q.slot fun s => { s with copyFaults := s.copyFaults ++ [t] } else d

/-- A request ends with a failure. -/
def Dev.copyFail (d : Dev) (r : Nat) (q : CopyReq) (cause : Cause) (saddr : Nat) : Dev :=
  (d.copyFault r q ⟨cause, BitVec.ofNat 64 saddr⟩).copyEnd r q

/-- A channel asks another module for bytes of its next step (R42), once. -/
def Dev.copyFar (d : Dev) (r : Nat) (q : CopyReq) (gva pa n : Nat) (large : Bool) : Dev :=
  if d.remote.any fun p => p.2.rank == r && p.2.chan == some q.ch then d
  else
    let o : RemoteOut := { rank := r, slot := q.slot, pid := none, dst := 0, size := n, acq := none, part := q.part, prank := r - (d.part q.part).cfg.hbase, gva := gva, large := large, seq := d.accSeq, tag := none, chan := some q.ch, gate := none, mask := (pa, n) }
    { d with remote := aset d.remote d.accSeq o, accSeq := d.accSeq + 1 }

/-- A stopped step: the request waits for its page, its line (in the home queue, R175) or another module, or it ends with a failure. -/
def Dev.copyStop (d : Dev) (r : Nat) (u : CopyRun) : EStop → Dev
  | .wait g w =>
    (d.engineFault r u.req.part g w).modCore r fun c => c.setChan u.req.ch { u with faultPage := some (g / 65536) }
  | .hold l w => d.queueHeld r u.req.part l (.copy u.req.ch) w
  | .far g pa n large => d.copyFar r u.req g pa n large
  | .poison lo gva => (d.logLocalPoison u.req.part r (min u.req.slot 15) gva).copyFail r u.req .dataerr lo
  | .fail cause g =>
    let d := if cause = .dataerr then d.logPoison u.req.part r (min u.req.slot 15) g else d
    d.copyFail r u.req cause g
  | .refused g => (d.logRefused u.req.part r (min u.req.slot 15) g).copyFail r u.req .dataerr g

/-- A step of a running request; `next` says what follows its last byte. -/
def Dev.copyRunStep (d : Dev) (r : Nat) (u : CopyRun) (next : Dev → CopyRun → Dev) : Dev :=
  if u.faultPage.isSome then d
  else match copyMove r u d with
    | .error e => d.copyStop r u e
    | .ok (u', d) =>
      let d := (d.modCore r fun c => c.setChan u.req.ch u').copyMark r u'
      if u'.req.len ≤ u'.done then next d u' else d

/-- The first request of the FIFO that names a channel. -/
def Core.nextCopy (c : Core) (ch : Nat) : Option CopyReq := c.fifo.find? (·.ch == ch)

/-- A request leaves the FIFO and starts on its channel. -/
def Dev.copyStart (d : Dev) (r : Nat) (q : CopyReq) : Dev :=
  let u : CopyRun := ⟨q, 0, [], [], none⟩
  (d.modCore r fun c => ({ c with fifo := c.fifo.erase q } : Core).setChan q.ch u).copyMark r u

/-- Channel `ch` of core `r` starts its next copy request, or moves the next 128 bytes of the running one. -/
def Dev.copyTurn (d : Dev) (r ch : Nat) : Dev :=
  let c := d.core r
  if c.saving then d
  else match aget? c.chan ch with
    | some u => if u.req.kv then d else d.copyRunStep r u fun d u => d.copyEnd r u.req
    | none => match c.nextCopy ch with
      | some q => if q.kv then d else d.copyStart r q
      | none => d

/-- COPY_STEP (R341): channel `b` of core `a`. -/
def execCopyStep (s : State) : Host.Outcome State Fault Refusal := s.onDev fun d => d.copyTurn s.args.a s.args.b

/-- The next valid lane of a `kvgath` becomes a copy of one page (R357): CPWP takes the start of its part. -/
def Dev.kvNext (d : Dev) (r : Nat) (u : CopyRun) : Dev :=
  match u.req.lanes with
  | (g, a) :: rest =>
    let u' : CopyRun := ⟨{ u.req with src := .glob g, dst := .loc a, len := u.req.lane, lanes := rest }, 0, [], [], none⟩
    (d.modCore r fun c => c.setChan u.req.ch u').copyMark r u'
  | [] => d.copyEnd r u.req

/-- The walker starts the `kvgath` at the head of channel `ch` of core `r`, or runs the next step of the running one; after a lane the next
valid one starts, and after the last, or a failed one (log entry 14), the completion is performed. -/
def Dev.kvTurn (d : Dev) (r ch : Nat) : Dev :=
  let c := d.core r
  if c.saving then d
  else match aget? c.chan ch with
    | some u =>
      if !u.req.kv then d
      else if u.req.len = 0 then d.kvNext r u
      else d.copyRunStep r u fun d u => d.kvNext r u
    | none => match c.nextCopy ch with
      | some q => if q.kv then d.copyStart r q else d
      | none => d

/-- KVGATH_EXECUTE (R357): channel `b` of core `a`. -/
def execKvgathExecute (s : State) : Host.Outcome State Fault Refusal := s.onDev fun d => d.kvTurn s.args.a s.args.b

/-! ### Cancelled waits (R116, R141, R343) -/

/-- Whether a request is one that its thread waits for at the home. -/
def ReqKind.waits : ReqKind → Bool
  | .lease _ _ | .unlease _ _ _ | .sverNext _ _ | .sverNum _ _ _ | .lver _ _ _ _ | .rver _ _ => true
  | .load _ _ _ _ _ | .store _ | .amo _ _ _ _ _ _ _ | .pver _ _ _ | .satom _ _ _ | .uocBack _ | .red _ _ _ _ | .agent _ _ => false

/-- The flags that the frame of slot `k` of core `r` carries, while it is on its way: the slot itself gathers those of later matrix commands
(R235). -/
def Dev.frameFlags (d : Dev) (r k : Nat) : FFlags :=
  (d.net.findSome? fun p => match p.2.msg with
    | .frame part _ f =>
      if part = (d.slot r k).part && (d.part part).devRank f.srcRank = r && f.srcSlot = k then some (f.status.extractLsb' 10 6) else none
    | .launch _ _ _ | .incr _ _ _ _ _ => none).getD 0

/-- The wait of slot `k` of core `r` is cancelled, so that its instruction executes again: a request that it waits for is withdrawn, and an
arrival at a barrier is taken back (log entry 13); the flags of a frame that is withdrawn come back. -/
def Dev.cancelWait (d : Dev) (r k : Nat) : Dev :=
  let s := d.slot r k
  let flags := match s.wait with
    | .migrate => d.frameFlags r k
    | _ => 0
  let d : Dev := match s.wait with
    | .home =>
      let mine := d.homeQ.filter fun q => q.rank == r && q.slot == k && q.kind.waits
      let d := { d with homeQ := d.homeQ.filter fun q => !(q.rank == r && q.slot == k && q.kind.waits) }
      d.modCore r fun c => { c with out := c.out.filter fun t => !mine.any fun q => q.tag == some t.1 }
    | .bar key phase =>
      { d with bars := d.bars.map fun b => if b.key == key && b.phase == phase then { b with arrived := b.arrived - 1 } else b }
    | .migrate =>
      { d with net := d.net.filter fun p => match p.2.msg with
          | .frame part _ f => !(part == s.part && (d.part part).devRank f.srcRank == r && f.srcSlot == k)
          | .launch _ _ _ | .incr _ _ _ _ _ => true }
    | .peek _ _ => { d with homeQ := d.homeQ.filter fun q => !(q.rank == r && q.kind.ofAgent (.peek k)) }
    | _ => d
  d.modSlot r k fun s => { s with wait := .none, opMark := none, fflags := s.fflags ||| flags }

/-- The slot that holds what is kept for the thread of slot `k` of core `r` at its home (R141, R343). -/
def Dev.homeSlot (d : Dev) (r k : Nat) : Slot :=
  if d.homeSaved r k then (d.rankCore (d.slot r k).part (d.slot r k).hrank).slot (d.slot r k).hslot
  else let h := d.homeOf r k; d.slot h.1 h.2

/-- Change that slot. -/
def Dev.modHome (d : Dev) (r k : Nat) (f : Slot → Slot) : Dev :=
  let s := d.slot r k
  if d.homeSaved r k then d.modRank s.part s.hrank fun c => c.setSlot s.hslot (f (c.slot s.hslot))
  else let h := d.homeOf r k; d.modSlot h.1 h.2 f

/-- Whether a slot stands at an instruction boundary: not between the parts of a shootdown, and not on the way into a trap or upcall. A walk that is
under way for it is no boundary either (`Dev.walking`). -/
def Wait.boundary : Wait → Bool
  | .shootdown _ _ _ _ | .trapDue _ | .upcallDue _ => false
  | _ => true

/-- Whether a failed copy request is due as a trap (R343): no result is pending, and the thread holds no deferred trap (R250). One that was due
together with a deferred trap waits for `sret`. -/
def Dev.copyFaultDue (d : Dev) (r k : Nat) : Option TrapInfo :=
  let s := d.slot r k
  if s.occ && !s.away && s.wait.boundary && !d.walking r k && s.pend.isEmpty && s.deferred.isEmpty && !s.copyHold then (d.homeSlot r k).copyFaults.head? else none

/-- The thread takes the first failed request as a trap. -/
def Dev.takeCopyFault (d : Dev) (r k : Nat) (t : TrapInfo) : Dev :=
  let d := d.cancelWait r k
  (d.modHome r k fun s => { s with copyFaults := s.copyFaults.drop 1 }).modSlot r k fun s => s.enterTrap (d.core r).tvec t

/-- COPY_FAULT_TRAP (R343): slot `b` of core `a`. -/
def execCopyFaultTrap (s : State) : Host.Outcome State Fault Refusal :=
  s.onDev fun d => match d.copyFaultDue s.args.a s.args.b with
    | some t => d.takeCopyFault s.args.a s.args.b t
    | none => d

/-- Whether a copy interrupt is due (R141): at home, UACT = 0, MODE = 0, no result pending, and every due trap taken. -/
def Dev.copyIrqDue (d : Dev) (r k : Nat) : Option (Word × Word) :=
  let s := d.slot r k
  if s.occ && !s.away && !s.guest && !s.uact && !s.mode && s.wait.boundary && !d.walking r k && s.pend.isEmpty && s.deferred.isEmpty
      && s.copyFaults.isEmpty then
    s.copyIrqs.head?
  else none

/-- The thread enters the COPY upcall: the entry acquires the request's writes at the core (R207). -/
def Dev.takeCopyIrq (d : Dev) (r k : Nat) (q : Word × Word) : Dev :=
  let d := d.cancelWait r k
  d.modSlot r k fun s => { s.enterCopy q.1 q.2 with copyIrqs := s.copyIrqs.drop 1 }

/-- COPY_INTERRUPT_ENTRY (R141): slot `b` of core `a`. -/
def execCopyInterruptEntry (s : State) : Host.Outcome State Fault Refusal :=
  s.onDev fun d => match d.copyIrqDue s.args.a s.args.b with
    | some q => d.takeCopyIrq s.args.a s.args.b q
    | none => d

end Sys2Proof.Machine
end

