-- ==== Sys2Proof/Machine/Sweep.lean ====
section
/-! DEFINITION. Tile sweeps (R345-R353): the descriptor, the sweep record, deliveries by the mangles, and the instructions of workers. -/

namespace Sys2Proof.Machine

/-! ### The descriptor (R345, R346) -/

/-- Field `[lo + n - 1 : lo]` of word `w`. -/
def swf (x : BitVec 512) (w lo n : Nat) : Nat := (x.extractLsb' (64 * w + lo) n).toNat

def swZ (x : BitVec 512) : Nat := 2 ^ swf x 0 48 2
def swNdim (x : BitVec 512) : Nat := swf x 0 50 2
def swBmap (x : BitVec 512) : Bool := swf x 0 52 1 == 1
def swBase (x : BitVec 512) : Nat := swf x 0 0 48
def swExt (x : BitVec 512) (k : Nat) : Nat := swf x 1 (16 * k) 16 + 1
def swTile (x : BitVec 512) (k : Nat) : Nat := swf x 4 (16 * k) 16 + 1
def swFirst (x : BitVec 512) (k : Nat) : Nat := swf x 5 (12 * k) 12
def swLast (x : BitVec 512) (k : Nat) : Nat := swf x 6 (12 * k) 12
/-- The byte stride of dimension `k`; dimension 0 is contiguous. -/
def swStride (x : BitVec 512) : Nat → Nat
  | 0 => swZ x
  | 1 => swf x 2 0 32
  | 2 => swf x 2 32 32
  | _ => swf x 3 0 32
def swN (x : BitVec 512) (k : Nat) : Nat := swLast x k + 1 - swFirst x k
/-- AGE, with 0 read as 4,096. -/
def swAge (x : BitVec 512) : Nat := if swf x 3 48 16 = 0 then 4096 else swf x 3 48 16
def swWorkers (x : BitVec 512) : Nat := swf x 3 32 16
def swBuf (x : BitVec 512) : Nat := swf x 5 48 12 * 128
def swRecord (x : BitVec 512) : Nat := swf x 7 0 41 * 128
def swTiles (x : BitVec 512) : Nat := swN x 0 * swN x 1 * swN x 2 * swN x 3
/-- The bytes of a tile, and of a buffer. -/
def swBytes (x : BitVec 512) : Nat := swZ x * (swTile x 0 * swTile x 1 * swTile x 2 * swTile x 3)
def swBufBytes (x : BitVec 512) : Nat := (swBytes x + 127) / 128 * 128

/-- A descriptor that `sweep` refuses with SWEEP (R349); `st` is S + T of the worker tasks. -/
def swBad (x : BitVec 512) (st : Nat) : Bool :=
  swf x 0 53 11 != 0 || swf x 5 60 4 != 0 || swf x 6 48 16 != 0 || swf x 7 60 4 != 0
    || decide (16384 < swBytes x)
    || ([0, 1, 2, 3].any fun k => decide (swLast x k < swFirst x k) || decide (swExt x k - 1 < swLast x k * swTile x k))
    || ([1, 2, 3].any fun k => decide (swNdim x < k)
        && (swExt x k != 1 || swTile x k != 1 || swFirst x k != 0 || swLast x k != 0 || swStride x k != 0))
    || decide (2 ^ 24 < swTiles x) || decide (st < swBuf x + 2 * swBufBytes x)

/-- Coordinate `k` of the tile with linear index `lin`. -/
def swCoord (x : BitVec 512) (lin k : Nat) : Nat :=
  swFirst x k + lin / (match k with
    | 0 => 1
    | 1 => swN x 0
    | 2 => swN x 0 * swN x 1
    | _ => swN x 0 * swN x 1 * swN x 2) % swN x k

/-- The GVA of an element. -/
def swAddr (x : BitVec 512) (i0 i1 i2 i3 : Nat) : Nat :=
  swBase x + swZ x * i0 + i1 * swStride x 1 + i2 * swStride x 2 + i3 * swStride x 3

/-- The GVA of a tile's first element. -/
def swFirstElem (x : BitVec 512) (lin : Nat) : Nat :=
  let i (k : Nat) := swCoord x lin k * swTile x k
  swAddr x (i 0) (i 1) (i 2) (i 3)

/-- The reads of a tile: offset in the buffer, GVA and length of each run of dimension 0 that lies inside the extents. -/
def swRows (x : BitVec 512) (lin : Nat) : List (Nat × Nat × Nat) :=
  let i (k : Nat) := swCoord x lin k * swTile x k
  let n0 := min (swTile x 0) (swExt x 0 - i 0)
  (List.range (swTile x 3)).flatMap fun u3 => (List.range (swTile x 2)).flatMap fun u2 => (List.range (swTile x 1)).filterMap fun u1 =>
    if i 1 + u1 < swExt x 1 ∧ i 2 + u2 < swExt x 2 ∧ i 3 + u3 < swExt x 3 then
      some (swZ x * (((u3 * swTile x 2 + u2) * swTile x 1 + u1) * swTile x 0),
        swAddr x (i 0) (i 1 + u1) (i 2 + u2) (i 3 + u3), swZ x * n0)
    else none

/-! ### Units -/

def Part.modGroup (p : Part) (g : Nat) (f : Group → Group) : Part :=
  match aget? p.groups g with
  | some x => { p with groups := aset p.groups g (f x) }
  | none => p
def Dev.modGroup (d : Dev) (part g : Nat) (f : Group → Group) : Dev := d.modPart part fun p => p.modGroup g f
def Dev.sweepAt (d : Dev) (part sid : Nat) : Option Sweep := aget? (d.part part).sweeps sid
def Dev.setSweep (d : Dev) (w : Sweep) : Dev := d.modPart w.part fun p => { p with sweeps := aset p.sweeps w.id w }
def Dev.modSweep (d : Dev) (part sid : Nat) (f : Sweep → Sweep) : Dev :=
  match d.sweepAt part sid with
  | some w => d.setSweep (f w)
  | none => d

def Core.modTask (c : Core) (id : Nat) (f : Task → Task) : Core :=
  { c with tasks := c.tasks.map fun t => if t.id == id then f t else t }

def Sweep.claims (w : Sweep) : Bool := w.tiles.any fun p => match p.2 with
  | .claimed _ _ => true
  | .delivered _ _ _ | .done | .excluded => false
def Sweep.countDone (w : Sweep) : Nat := (w.tiles.filter fun p => p.2 == .done).length
/-- Tiles with code 1. -/
def Sweep.countDelivered (w : Sweep) : Nat := (w.tiles.filter fun p => match p.2 with
  | .delivered _ _ _ | .claimed _ _ => true
  | .done | .excluded => false).length
/-- Whether every tile is done: its end is completion, which waits for the codes of its record (R353). -/
def Sweep.allDone (w : Sweep) : Bool := w.ready && w.countDone == w.total
/-- Whether the mangles have nothing left to do for a sweep that has ended: no tile is claimed, and every access of its record is made (R348). -/
def Sweep.settled (w : Sweep) : Bool := w.st != .live && !w.claims && w.recQ.isEmpty && (w.ready || w.st == .failed)
def Sweep.pending (w : Sweep) (lin : Nat) : Bool := decide (lin < swTiles w.desc) && (aget? w.tiles lin).isNone

/-- The state of the worker group follows the end of its sweep (R353): a cancelled one ends it when no tile is claimed. -/
def Dev.sweepSettle (d : Dev) (w : Sweep) : Dev :=
  let ended := match w.st with
    | .live => false
    | .complete | .failed => true
    | .cancelled => !w.claims
  if ended then d.modGroup w.part w.group fun g => if g.sweepId == w.id then { g with sweep := 2 } else g else d

/-! ### The record (R348) -/

/-- The quad whose TLB, walkers and hamper the mangles use for a sweep: that of the core that issued it (R173). -/
def Sweep.quad (w : Sweep) : Nat := w.issuer / 4

/-- Record accesses of the mangles: read and write, with user rights. -/
def recAccess : Access := { read := true, write := true }

/-- Change the 64-bit word of a record that holds a tile. -/
def recWord (w : Sweep) (at_ : Nat) (f : Nat → Nat) : Eng Nat := do
  let ps ← engRange w.quad w.part recAccess at_ 8
  let x ← engReadPieces w.part ps
  engWritePieces w.part (f x) ps
  pure x

/-- Write the code of one tile. -/
def recCode (w : Sweep) (lin code : Nat) : Eng Unit := do
  let j := lin % 32
  let _ ← recWord w (swRecord w.desc + 8 * (lin / 32)) fun x => x - x / 4 ^ j % 4 * 4 ^ j + code * 4 ^ j

/-- A record word with `n` codes at the start: code 3 stays when the record holds a bitmap, and every other code becomes 0. -/
def recClear (bmap : Bool) (x : Nat) : Nat → Nat
  | 0 => x
  | n + 1 =>
    let y := recClear bmap x n
    let c := x / 4 ^ n % 4
    if bmap && c == 3 then y else y - c * 4 ^ n

/-- Initialise `n` words of a record from word `i`: the excluded tiles. A word without a bitmap whose 32 codes are all the sweep's is not
read. -/
def recInit (w : Sweep) (i : Nat) : Nat → Eng (List Nat)
  | 0 => pure []
  | n + 1 => do
    let at_ := swRecord w.desc + 8 * i
    let count := min 32 (swTiles w.desc - 32 * i)
    let ex ← if !swBmap w.desc && count == 32 then do
        let ps ← engRange w.quad w.part recAccess at_ 8
        engWritePieces w.part 0 ps
        pure []
      else do
        let x ← recWord w at_ fun x => recClear (swBmap w.desc) x count
        pure (if swBmap w.desc then ((List.range count).filter fun j => x / 4 ^ j % 4 == 3).map (32 * i + ·) else [])
    let rest ← recInit w (i + 1) n
    pure (ex ++ rest)

/-- The mangle that serves a tile whose first byte translates to `t` (R350). -/
def Dev.mangleOf (d : Dev) (part : Nat) (t : Trans) : Nat :=
  if isLp t.pa then homeSlice t.leaf t.pa % 16
  else hbmStack ((aget? d.masks (8 + part)).getD []) t.pa

/-- The mangle of a GVA, as far as its page is resident. -/
def Dev.mangleAt (d : Dev) (w : Sweep) (gva : Nat) : Option Nat :=
  match engTrans w.quad w.part { read := true, twinOk := true } gva d with
  | .ok (t, _) => some (d.mangleOf w.part t)
  | .error _ => none

/-- Poison that a mangle consumes (R54, R58): a record that names the mangle, on its base die (R33), and no thread. Where a page table gave the poison
and no mangle is known, the agent is unknown, and the die that of the issuing core's quadrant (log entry 56). -/
def Dev.logMangle (d : Dev) (w : Sweep) (m : Option Nat) (gva : Nat) : Dev := match m with
  | some m => d.logPart w.part ⟨0x07, 5 + m / 4, 1, gva, 2, 5120 + m, 15, 0, 1⟩
  | none => d.logPart w.part ⟨0x07, 5 + w.issuer / 1024, 1, gva, 2, 8191, 15, 0, 1⟩

/-- The sweep fails with a cause and a GVA (R350), met by mangle `m`: it delivers nothing more. -/
def Dev.sweepFail (d : Dev) (w : Sweep) (m : Option Nat) (e : MxErr) : Dev :=
  let d := if e.cause = .dataerr then d.logMangle w m e.gva.toNat else d
  let w := { w with st := if w.st == .live then .failed else w.st, fail := w.fail.orElse fun _ => some e }
  (d.setSweep w).sweepSettle w

/-- A record access that stops: it waits under R173 in the hamper of the issuing core's quad, or in the home queue of its line (R175), or fails the
sweep. The mangle that makes it is the one of the HBM stack of its first byte (log entry 56). -/
def Dev.recStop (d : Dev) (w : Sweep) : EStop → Dev
  | .wait g wr => (d.engineFault w.issuer w.part g wr).setSweep { w with recWait := true }
  | .hold l wr => d.queueHeld noRank w.part l (.sweepRec w.part w.id) wr
  | .far _ _ _ _ => d
  | .fail c g => d.sweepFail { w with recQ := w.recQ.drop 1 } (d.mangleAt w g) ⟨c, BitVec.ofNat 64 g⟩
  | .refused g | .poison g _ => d.sweepFail { w with recQ := w.recQ.drop 1 } (d.mangleAt w g) ⟨.dataerr, BitVec.ofNat 64 g⟩

/-- Write the codes that wait, oldest first, as far as the record's pages allow. -/
def Dev.recDrain (d : Dev) (part sid : Nat) : List (Nat × Nat) → Dev
  | [] => d
  | (lin, code) :: t =>
    match d.sweepAt part sid with
    | none => d
    | some w =>
      if w.recWait then d
      else match recCode w lin code d with
        | .ok (_, d) => (d.modSweep part sid fun w => { w with recQ := w.recQ.drop 1 }).recDrain part sid t
        | .error e => d.recStop w e

/-- A sweep whose tiles are all done and written in its record completes (R353), and posts its increment once. -/
def Dev.sweepFinish (d : Dev) (part sid : Nat) : Dev :=
  match d.sweepAt part sid with
  | none => d
  | some w =>
    if w.st = .live && w.recQ.isEmpty && w.allDone then
      let w := { w with st := .complete }
      let d := (d.setSweep w).sweepSettle w
      if swf w.desc 7 59 1 = 1 then d.post w.issuer part (swf w.desc 7 47 12) (swf w.desc 7 41 6) 1 else d
    else d

/-- The sweep goes on with its record: it is initialised, even when the sweep has been cancelled meanwhile; the waiting codes are written, and the end
is noticed. -/
def Dev.sweepPump (d : Dev) (part sid : Nat) : Dev :=
  match d.sweepAt part sid with
  | none => d
  | some w =>
    if w.recWait then d
    else
      let d := if w.ready || w.st == .failed then d
        else match recInit w 0 ((swTiles w.desc + 31) / 32) d with
          | .ok (ex, d) => d.setSweep { w with ready := true, total := swTiles w.desc - ex.length, tiles := ex.foldl (fun m l => aset m l TileState.excluded) w.tiles }
          | .error e => d.recStop w e
      match d.sweepAt part sid with
      | some w => (d.recDrain part sid w.recQ).sweepFinish part sid
      | none => d

/-- A tile takes a state, or none for pending, and its code goes to the record. -/
def Dev.setTile (d : Dev) (part sid lin : Nat) (st : Option TileState) (code : Nat) : Dev :=
  d.modSweep part sid fun w =>
    { w with
      tiles := match st with
        | some x => aset w.tiles lin x
        | none => adel w.tiles lin
      recQ := w.recQ ++ [(lin, code)] }

/-- A tile is returned to pending (R352). -/
def Dev.returnTile (d : Dev) (part sid lin : Nat) : Dev :=
  let d := (d.setTile part sid lin none 0).sweepPump part sid
  match d.sweepAt part sid with
  | some w => d.sweepSettle w
  | none => d

/-- Every buffer of a sweep's workers that holds a tile no thread has claimed is freed, and its tile returned. -/
def Dev.returnDelivered (d : Dev) (part sid : Nat) : Dev :=
  let held := d.cores.flatMap fun p => p.2.tasks.flatMap fun t =>
    if t.part = part then (t.bufs.filter fun b => b.sid == sid && b.claimedBy.isNone).map fun b => (p.1, t.id, b) else []
  held.foldl (fun d h =>
    let (r, tid, b) := h
    (d.modCore r fun c => c.modTask tid fun t => { t with bufs := t.bufs.filter (· != b) }).returnTile part sid b.lin) d

/-- A live sweep is cancelled (R353), unless every tile is done: then it completes. -/
def Dev.cancelSweep (d : Dev) (part sid : Nat) : Dev :=
  match d.sweepAt part sid with
  | some w =>
    if w.st = .live && !w.allDone then
      let d := (d.setSweep { w with st := .cancelled }).returnDelivered part sid
      match d.sweepAt part sid with
      | some w => d.sweepSettle w
      | none => d
    else d
  | none => d

/-! ### Deliveries (R350) -/

/-- `hilbert_xy` (R74): one round for each of 6 bit pairs. -/
def hilbertRound (t s x y : Nat) : Nat → Nat × Nat
  | 0 => (x, y)
  | n + 1 =>
    let rx := t / 2 % 2
    let ry := (t ^^^ rx) % 2
    let (x, y) := if ry = 0 then
        let (x, y) := if rx = 1 then (s - 1 - x, s - 1 - y) else (x, y)
        (y, x)
      else (x, y)
    hilbertRound (t / 4) (2 * s) (x + s * rx) (y + s * ry) n

def hilbertXY (h : Nat) : Nat × Nat := hilbertRound h 1 0 0 6

/-- |Δx| + |Δy| from a core to the nearest core of a quad. -/
def quadDistance (r q : Nat) : Nat :=
  let (x, y) := hilbertXY r
  let dist (h : Nat) : Nat := let (u, v) := hilbertXY h; (x - u) + (u - x) + (y - v) + (v - y)
  min (min (dist (4 * q)) (dist (4 * q + 1))) (min (dist (4 * q + 2)) (dist (4 * q + 3)))

/-- A buffer of a task that holds nothing. -/
def Task.freeBuf (t : Task) (b : Nat) : Bool := !(t.bufs.any (·.buf == b)) && !t.heldBufs.contains b

/-- Buffers that a sweep may deliver to: core, task id, task index, buffer. -/
def Dev.workerBufs (d : Dev) (w : Sweep) : List (Nat × Nat × Nat × Nat) :=
  d.cores.flatMap fun p =>
    if p.2.part = some w.part && !p.2.saving then
      p.2.tasks.flatMap fun t =>
        if t.part = w.part ∧ t.group = w.group ∧ !t.ended then ([0, 1].filter t.freeBuf).map fun b => (p.1, t.id, t.index, b) else []
    else []

/-- The nearest buffer to a home quad. -/
def Dev.nearestBuf (d : Dev) (w : Sweep) (q : Nat) : Option (Nat × Nat × Nat × Nat) :=
  let less (a b : Nat × Nat × Nat × Nat) : Bool :=
    let k (x : Nat × Nat × Nat × Nat) : Nat := ((quadDistance x.1 q * 4096 + x.1) * 2 ^ 20 + x.2.2.1) * 2 + x.2.2.2
    decide (k a < k b)
  (d.workerBufs w).foldl (fun acc b => match acc with
    | none => some b
    | some a => if less b a then some b else some a) none

/-- A tile's bytes as a value: the runs inside the extents; the rest is zero. -/
def tileRead (w : Sweep) : List (Nat × Nat × Nat) → Eng Nat
  | [] => pure 0
  | (o, g, n) :: rest => do
    let ps ← engRange w.quad w.part { read := true, twinOk := true } g n
    let x ← engReadPieces w.part ps
    let y ← tileRead w rest
    pure (x * 256 ^ o + y)

/-- A delivery by mangle `m`, if it is known, stops: the tile is held under R173 or in the home queue of a line (R175), or the sweep fails. -/
def Dev.deliverStop (d : Dev) (w : Sweep) (lin : Nat) (m : Option Nat) : EStop → Dev
  | .wait g wr => (d.engineFault w.issuer w.part g wr).setSweep { w with held := w.held ++ [lin] }
  | .hold l wr => d.queueHeld noRank w.part l (.sweep w.part w.id lin) wr
  | .far _ _ _ _ => d
  | .fail c g => d.sweepFail w m ⟨c, BitVec.ofNat 64 g⟩
  | .refused g | .poison g _ => d.sweepFail w m ⟨.dataerr, BitVec.ofNat 64 g⟩

/-- Mangle `m` writes a tile into the nearest free buffer of a sweep's workers, with home quad `q`; whether it has. -/
def Dev.deliverTo (d : Dev) (w : Sweep) (lin q x m : Nat) : Bool × Dev :=
  match d.nearestBuf w q with
  | none => (false, d)
  | some (r, tid, _, b) =>
    let origin := (((d.core r).tasks.find? (·.id == tid)).map (·.origin)).getD 0
    match engLocalWrite r (origin + swBuf w.desc + b * swBufBytes w.desc) (swBytes w.desc) x origin d with
    | .error e => (false, d.deliverStop w lin (some m) e)
    | .ok (_, d) =>
      let d := d.stamp
      let n : SweepBuf := ⟨b, w.id, lin, d.accSeq - 1, none⟩
      let d := d.modCore r fun c => c.modTask tid fun t => { t with bufs := t.bufs ++ [n] }
      (true, ((d.setTile w.part w.id lin (some (.delivered r tid b)) 1).modSweep w.part w.id fun w => { w with passed := 0 }).sweepPump w.part w.id)

/-- A sweep that may deliver: live, with its record ready, in a resident partition. -/
def Dev.sweepRuns (d : Dev) (w : Sweep) : Bool :=
  w.st == .live && w.ready && !w.recWait && (d.part w.part).st == .resident

/-- Sweeps that read the same array in the same tiles (R350): every field of the geometry but FIRST and LAST. -/
def sameGeometry (x y : BitVec 512) : Bool :=
  x.extractLsb' 0 52 == y.extractLsb' 0 52 && x.extractLsb' 64 160 == y.extractLsb' 64 160 && x.extractLsb' 256 64 == y.extractLsb' 256 64

/-- The linear index in sweep `y` of the tile that has index `lin` in sweep `x`. -/
def swSameTile (x y : BitVec 512) (lin : Nat) : Option Nat :=
  let c (k : Nat) := swCoord x lin k
  if [0, 1, 2, 3].all fun k => decide (swFirst y k ≤ c k) && decide (c k ≤ swLast y k) then
    some ((c 0 - swFirst y 0) + swN y 0 * ((c 1 - swFirst y 1) + swN y 1 * ((c 2 - swFirst y 2) + swN y 2 * (c 3 - swFirst y 3))))
  else none

/-- The other subscribers of a merged stream. -/
def Dev.subscribers (d : Dev) (w : Sweep) : List Sweep :=
  if w.solo then []
  else ((d.part w.part).sweeps.map (·.2)).filter fun v => v.id != w.id && !v.solo && d.sweepRuns v && sameGeometry v.desc w.desc

/-- The mangle that a tile belongs to. -/
def Dev.tileMangle (d : Dev) (w : Sweep) (lin : Nat) : Option Nat := d.mangleAt w (swFirstElem w.desc lin)

/-- The tile that mangle `m` must deliver next, if one has been pending for longer than AGE of its deliveries: the longest-pending sweep's,
lowest first. -/
def Dev.overdue (d : Dev) (m : Nat) : Option (Nat × Nat × Nat) :=
  let ws := (d.parts.flatMap fun p => p.2.sweeps.map (·.2)).filter fun w =>
    d.sweepRuns w && decide (swAge w.desc < d.mangles.getD m 0 - w.starts.getD m 0) && !(d.workerBufs w).isEmpty
  let sorted := ws.foldl (fun l w => (l.filter fun v => decide (v.order < w.order)) ++ w :: l.filter fun v => decide (w.order < v.order)) []
  sorted.findSome? fun w =>
    ((List.range (swTiles w.desc)).find? fun l => w.pending l && !w.held.contains l && d.tileMangle w l == some m).map
      fun l => (w.part, w.id, l)

/-- Deliver a tile that is pending. -/
def Dev.deliver (d : Dev) (w : Sweep) (lin : Nat) : Dev :=
  match engTrans w.quad w.part { read := true, twinOk := true } (swFirstElem w.desc lin) d with
  | .error e => d.deliverStop w lin none e
  | .ok (t, d) =>
    let m := d.mangleOf w.part t
    match d.overdue m with
    | some o => if o = (w.part, w.id, lin) then go d t m else d
    | none => go d t m
where
  /-- Read the tile once and write it to the sweep, and then to every other subscriber that can take it: one delivery of the mangle. A delivery that
  waits counts once it is made. -/
  go (d : Dev) (t : Trans) (m : Nat) : Dev :=
    if (d.workerBufs w).isEmpty then d
    else match tileRead w (swRows w.desc lin) d with
      | .error e => d.deliverStop w lin (some m) e
      | .ok (x, d) =>
        let q := homeSlice t.leaf t.pa
        match d.deliverTo w lin q x m with
        | (false, d) => d
        | (true, d) => (d.subscribers w).foldl (fun d v =>
          match swSameTile w.desc v.desc lin with
          | some l =>
            if (d.workerBufs v).isEmpty then d.modSweep v.part v.id fun v => { v with passed := v.passed + 1 }
            else if v.pending l && !v.held.contains l then (d.deliverTo v l q x m).2 else d
          | none => d) { d with mangles := d.mangles.modify m (· + 1) }

/-- Tile `lin` of a sweep is delivered, where it is pending and the sweep may deliver. -/
def Dev.tileTurn (d : Dev) (part sid lin : Nat) : Dev :=
  match d.sweepAt part sid with
  | some w => if d.sweepRuns w && w.pending lin && !w.held.contains lin then d.deliver w lin else d
  | none => d

/-- TILE_DELIVERY (R350): tile `c` of sweep `b` of partition `a`. The turn also carries on with the sweep's record. -/
def execTileDelivery (s : State) : Host.Outcome State Fault Refusal :=
  s.onDev fun d => (d.sweepPump s.args.a s.args.b).tileTurn s.args.a s.args.b s.args.c

/-- SWEEP_SPLIT (R350): sweep `b` of partition `a` leaves the merged stream. -/
def execSweepSplit (s : State) : Host.Outcome State Fault Refusal :=
  s.onDev fun d =>
    d.modSweep s.args.a s.args.b fun w => if w.st = .live && !w.solo && decide (64 < w.passed) then { w with solo := true } else w

/-! ### Instructions (R347-R353) -/

/-- Sweeps that are live in the module. -/
def Dev.liveSweeps (d : Dev) : Nat :=
  (d.parts.map fun p => (p.2.sweeps.filter fun w => w.2.st == .live).length).foldl (· + ·) 0

/-- Whether a sweep id still names a sweep: live, or the last one of its group (R353). -/
def Part.sweepNamed (p : Part) (sid : Nat) : Option Sweep :=
  match aget? p.sweeps sid with
  | some w => if w.st = .live || (aget? p.groups w.group).any (·.sweepId == sid) then some w else none
  | none => none

/-- A buffer still held by an unclaimed tile of an earlier sweep of the group is freed (log entry 15). -/
def Task.dropOld (t : Task) : Task := { t with bufs := t.bufs.filter fun b => b.claimedBy.isSome }

/-- The mangles start sweep `sid` (R349); an earlier sweep of the group is forgotten once it is settled. -/
def Dev.startSweep (d : Dev) (part g sid : Nat) (x : BitVec 512) : Dev :=
  let d := d.stamp
  let w : Sweep := ⟨sid, part, g, x, d.cur.1, d.accSeq - 1, .live, [], false, 0, [], none, d.mangles, false, 0, false, []⟩
  let d : Dev := { d with cores := d.cores.map fun p =>
    (p.1, { p.2 with tasks := p.2.tasks.map fun t => if t.part = part ∧ t.group = g then t.dropOld else t }) }
  let d := d.modPart part fun p =>
    { p with sweeps := p.sweeps.filter fun v => !(v.2.group == g) || !v.2.settled }
  ((d.setSweep w).modGroup part g fun y => { y with sweep := 1, sweepId := sid }).sweepPump part sid

/-- `sweep` (R349) -/
def execSweep (rd ra : RegNo) (s : State) : Host.Outcome State Fault Refusal :=
  s.thread { rx := [ra], wx := [rd] } fun d => do
    ensure (!d.th.guest) .perm 0
    let o := d.x ra
    match d.task d.cur.1 d.cur.2 with
    | none => raise .segv o
    | some t =>
      ensure (decide (t.s ≤ o.toNat) && decide (o.toNat + 64 ≤ t.s + t.t) && o.toNat % 64 == 0) .segv o
      let a := t.origin + o.toNat
      match aget? d.curCore.stash (a / 128) with
      | none => raise .sweep 0
      | some e =>
        d.stashTrans o.toNat a 64 false
        d.stashReady a 64
        d.localGood o.toNat a 64
        let x := BitVec.ofNat 512 (d.curCore.lmem.nat a 64)
        let g := if swWorkers x = 0 then t.group else swWorkers x
        match aget? d.tpart.groups g with
        | none => .ok ((d.setX rd (reject stInvalid)).retire)
        | some y =>
          ensure (!swBad x ((y.desc.scratch + y.desc.stash) * blockBytes)) .sweep (BitVec.ofNat 64 (e.gva + o.toNat % 128))
          d.acqHeld
          d.relHeld
          d.behind (d.gateWaiting .pkg)
          if y.sweep == 1 && (d.sweepAt t.part y.sweepId).any (·.st == .live) || decide (1024 ≤ d.liveSweeps) then
            .ok ((d.setX rd (reject stBusy)).retire)
          else match (List.range 65535).find? fun k => (d.tpart.sweepNamed (k + 1)).isNone && ((aget? d.tpart.sweeps (k + 1)).all (·.settled)) with
            | some k => .ok (((d.startSweep t.part g (k + 1) x).setX rd (BitVec.ofNat 64 (k + 1))).retire)
            | none => .ok ((d.setX rd (reject stBusy)).retire)

/-- A buffer kept back after a save is freed by the thread's first `twait`, `tdone` or `exit` (R352). -/
def Dev.freeHeld (d : Dev) (r k : Nat) : Dev :=
  match (d.slot r k).heldBuf, d.task r k with
  | some b, some t =>
    (d.modCore r fun c => c.modTask t.id fun t => { t with heldBufs := t.heldBufs.filter (· != b) }).modSlot r k fun s =>
      { s with heldBuf := none }
  | _, _ => d

/-- The failure of the worker group's last sweep. -/
def Dev.sweepFailure (d : Dev) (part g : Nat) : Option MxErr :=
  match aget? (d.part part).groups g with
  | some y => match d.sweepAt part y.sweepId with
    | some w => if w.st = .failed && y.sweep != 0 then w.fail else none
    | none => none
  | none => none

/-- The delivered buffer of a task that was filled first. -/
def Task.firstDelivered (t : Task) : Option SweepBuf :=
  t.bufs.foldl (fun acc b => if b.claimedBy.isSome then acc else match acc with
    | none => some b
    | some a => if b.order < a.order then some b else some a) none

/-- The coordinates that `twait` returns. -/
def tileCoords (x : BitVec 512) (lin : Nat) : Nat :=
  swCoord x lin 0 + swCoord x lin 1 * 2 ^ 16 + swCoord x lin 2 * 2 ^ 32 + swCoord x lin 3 * 2 ^ 48

/-- `twait` (R351) -/
def execTwait (rd : RegNo) (la : La) (s : State) : Host.Outcome State Fault Refusal :=
  s.thread { wx := [rd], rcr := [0x0B, 0x0C] } fun d => do
    ensure (!d.th.guest) .perm 0
    let (r, k) := d.cur
    ensure d.th.claimed.isNone .sweep 0
    match d.task r k with
    | none => raise .sweep 0
    | some t =>
      let d := d.freeHeld r k
      match d.sweepFailure t.part t.group with
      | some e => .ok (d.trap r k ⟨e.cause, e.gva⟩)
      | none =>
        d.acqHeld
        match t.firstDelivered with
        | some b =>
          let x := ((d.sweepAt t.part b.sid).map (·.desc)).getD 0
          let d := d.modCore r fun c => c.modTask t.id fun t =>
            { t with bufs := t.bufs.map fun e => if e == b then { e with claimedBy := some k } else e }
          let d := d.modSweep t.part b.sid fun w => { w with tiles := aset w.tiles b.lin (.claimed r k) }
          let d := d.modTh fun s => { s with claimed := some (b.sid, b.lin, b.buf) }
          .ok (d.retireLong r k (.twait rd b.buf b.lin) (leBytes 8 (tileCoords x b.lin)) 0 la)
        | none =>
          if (aget? (d.part t.part).groups t.group).any (·.sweep == 2) then
            .ok (d.retireLong r k (.twait rd d.th.swbuf.toNat d.th.swlin.toNat) (List.replicate 8 255) 0 la)
          else .ok (d.waitFor .twait)

/-- `tdone` (R351) -/
def execTdone (rd : RegNo) (s : State) : Host.Outcome State Fault Refusal :=
  s.thread { wx := [rd] } fun d => do
    ensure (!d.th.guest) .perm 0
    let (r, k) := d.cur
    match d.th.claimed with
    | none => .ok (((d.freeHeld r k).setX rd 0).retire)
    | some (sid, lin, buf) =>
      d.acqHeld
      d.relHeld
      d.behind (d.gateWaiting .pkg)
      let part := d.th.part
      let d := match d.task r k with
        | some t => d.modCore r fun c => c.modTask t.id fun t => { t with bufs := t.bufs.filter fun b => !(b.buf == buf) }
        | none => d
      let d := d.modTh fun s => { s with claimed := none }
      let d := (d.setTile part sid lin (some .done) 2).sweepPump part sid
      let d := match d.sweepAt part sid with
        | some w => d.sweepSettle w
        | none => d
      .ok ((d.setX rd 1).retire)

/-- The sweep id that X[ra] names, or none. -/
def Dev.sweepNamed (d : Dev) (x : Word) : Option Sweep :=
  if x.extractLsb' 16 48 != 0 then none else d.tpart.sweepNamed x.toNat

/-- The state of a sweep as `swstat` gives it: complete from the moment that its done count reaches the tile count. -/
def Dev.sweepStatus (d : Dev) (w : Sweep) : Nat :=
  let st := match w.st with
    | .live => if w.allDone then 1 else if (d.part w.part).st = .descheduled then 4 else 0
    | .complete => 1
    | .cancelled => 2
    | .failed => 3
  st * 2 ^ 50 + w.countDelivered * 2 ^ 25 + w.countDone

/-- `swstat` (R353) -/
def execSwstat (rd ra : RegNo) (s : State) : Host.Outcome State Fault Refusal :=
  s.thread { rx := [ra], wx := [rd] } fun d => do
    ensure (!d.th.guest) .perm 0
    match d.sweepNamed (d.x ra) with
    | some w => .ok ((d.setX rd (BitVec.ofNat 64 (d.sweepStatus w))).retire)
    | none => .ok ((d.setX rd (reject stInvalid)).retire)

/-- `swcancel` (R353): a sweep whose tiles are all done is no longer live. -/
def execSwcancel (rd ra : RegNo) (s : State) : Host.Outcome State Fault Refusal :=
  s.thread { rx := [ra], wx := [rd] } fun d => do
    ensure (!d.th.guest) .perm 0
    match d.sweepNamed (d.x ra) with
    | some w =>
      if w.st = .live && !w.allDone then .ok (((d.cancelSweep w.part w.id).setX rd 1).retire) else .ok ((d.setX rd 0).retire)
    | none => .ok ((d.setX rd (reject stInvalid)).retire)

end Sys2Proof.Machine
end

