-- ==== Sys2Proof/Machine/Kv.lean ====
section
/-! DEFINITION. Reads that an instruction makes of tables and descriptors in global memory (R105, R287, R356), and `kvlook` (R182, R183,
R355, R356). -/

namespace Sys2Proof.Machine

/-- Read `n` bytes at a GVA with user rights. -/
def Dev.peek (d : Dev) (gva n : Nat) : Chk (Peeked × Dev) := do
  d.peekPieces (← d.translateRange { read := true, twinOk := true } gva n)

/-! ### kvlook -/

/-- Word `k` of a table's header. -/
def kvWord (h k : Nat) : Nat := h / 2 ^ (64 * k) % 2 ^ 64

/-- A header that `kvlook` refuses with KVFAULT (R182, R356). -/
def kvBad (h : Nat) : Bool :=
  kvWord h 0 / 2 ^ 48 != 0 || kvWord h 1 / 2 ^ 48 != 0 || kvWord h 2 / 2 ^ 32 != 0 || kvWord h 3 / 2 ^ 16 != 0
    || kvWord h 3 / 32 % 8 != 0 || h / 2 ^ 256 != 0 || kvWord h 3 / 256 % 256 == 0 || decide (128 < kvWord h 3 / 256 % 256)
    || decide (16 < kvWord h 3 % 32)

/-- `kv_lookup` (R183) from a table on, with LOG2TPP of the child when there is one; `n` tables may still be read. The result is the GVA, or
0 for NONE, and the first poisoned byte. -/
def kvLookup (pos : Nat) (d : Dev) (tab : Nat) (child : Option Nat) : Nat → Chk (Peeked × Dev)
  | 0 => raise .kvfault (BitVec.ofNat 64 tab)
  | n + 1 => do
    let (h, d) ← d.peek tab 64
    if h.bad.isSome then .ok (h, d)
    else
      let fault : Chk Unit := raise .kvfault (BitVec.ofNat 64 tab)
      if kvBad h.val then fault
      let l := kvWord h.val 3 % 32
      if child.any (· != l) then fault
      let b := pos / 2 ^ l
      let parent := kvWord h.val 0
      let up (d : Dev) : Chk (Peeked × Dev) :=
        if parent = 0 then .ok (⟨0, none⟩, d)
        else if n = 0 then raise .kvfault (BitVec.ofNat 64 tab)
        else kvLookup pos d parent (some l) n
      if b < kvWord h.val 2 then
        let (e, d) ← d.peek (tab + 8 * (8 + b)) 8
        if e.bad.isSome then .ok (e, d)
        else
          if e.val / 2 ^ 48 % 2 ^ 14 != 0 || e.val % 65536 != 0 then fault
          if e.val / 2 ^ 63 = 1 then .ok (⟨e.val / 65536 % 2 ^ 32 * 65536 + pos % 2 ^ l * 2 ^ (16 - l), none⟩, d)
          else if e.val / 2 ^ 62 % 2 = 1 then .ok (⟨0, none⟩, d)
          else up d
      else up d

/-- `kvlook` (R356): the table reads are made now, and the result is outstanding under la. A read of poison is a deferred DATAERR. -/
def execKvlook (rd ra rb : RegNo) (la : La) (s : State) : Host.Outcome State Fault Refusal :=
  s.thread { rx := [ra, rb], wx := [rd], rs := [1] } fun d => do
    let tab ← segCheck (d.th.seg 1) (d.x ra) 64 { r := true, l0 := true }
    ensure (tab % 128 == 0) .misalign (BitVec.ofNat 64 tab)
    d.acqHeld
    let pid := d.th.nextPid
    let (x, d) ← kvLookup (d.x rb).toNat d tab none 5
    let d := d.retireLong d.cur.1 d.cur.2 (.zext rd 8) (leBytes 8 x.val) 0 la
    match x.bad with
    | none => .ok d
    | some g => .ok ((d.logPoison d.th.part d.cur.1 d.cur.2 g).modTh fun s =>
        s.modPend pid fun p => { p with err := some ⟨.dataerr, BitVec.ofNat 64 g⟩ })

end Sys2Proof.Machine
end

