-- ==== Sys2Proof/Machine/System.lean ====
section
/-! DEFINITION. `satom`, `srsync` and the system instructions (R370-R381), with the shootdown of translations (R167), the replay of faults
(R172, R173) and the cleaning of caches that they and the host's commands share. -/

namespace Sys2Proof.Machine

/-! ### Darn routines (R359, R370-R372) -/

/-- The flag copy of a routine entry: VALID, BAD, COMM, RO and ORD are bits 63 to 59 of its word 0. -/
def rfValid (f : BitVec 5) : Bool := f.getLsbD 4
def rfBad (f : BitVec 5) : Bool := f.getLsbD 3
def rfComm (f : BitVec 5) : Bool := f.getLsbD 2
def rfRo (f : BitVec 5) : Bool := f.getLsbD 1
def rfOrd (f : BitVec 5) : Bool := f.getLsbD 0

/-- `satom` (R370): a tagged request to the home of the line, long-latency. -/
def execSatom (rd ra vb : RegNo) (id : BitVec 6) (la : La) (s : State) : Host.Outcome State Fault Refusal :=
  s.thread { rx := [ra], wx := [rd], rv := [vb], rs := [1] } fun d => do
    let f := vget d.curCore.rflags id.toNat 0
    let w := !rfRo f
    let gva ← segCheck (d.th.seg 1) (d.x ra) 128 { r := true, w := w, l0 := true }
    ensure (gva % 128 == 0) .misalign (BitVec.ofNat 64 gva)
    let t ← d.translate { read := true, write := w, user := d.user } gva
    d.notLeased (t.pa / 128) gva
    ensure (rfValid f && !rfBad f) .slice (BitVec.ofNat 64 gva)
    ensure (!d.tpart.cfg.det || rfComm f || rfOrd f) .detviol 0
    d.acqHeld
    d.relHeld
    d.tagRoom
    let pid := d.th.nextPid
    let p := d.v vb
    let d := d.retireLong d.cur.1 d.cur.2 (.satom rd 0) (List.replicate 8 0) 1 la
    .ok (d.ask t true (.satom pid id.toNat p) .cr false false)

/-- Load the flag copy of entry `n` into the cores of a partition (R359). -/
def loadFlags (part n : Nat) : Eng Unit := do
  let x ← agRead ((← get).routineAt part n) 8 part
  let f : BitVec 5 := (BitVec.ofNat 64 x).extractLsb' 59 5
  Eng.upd fun d =>
    { d with cores := d.cores.map fun p => if p.2.part = some part then (p.1, { p.2 with rflags := vset p.2.rflags n f }) else p }

/-- Every slice drops its copy of an entry, and every core of the partition loads its flags again. -/
def refreshEntry (part n : Nat) : Eng Unit := do
  Eng.upd fun d => { d with rcache := d.rcache.filter fun c => !(c.part == part && c.entry == n) }
  loadFlags part n

/-- Clear BAD, BADIDX and BADWHY of an entry in memory. -/
def clearBad (part n : Nat) : Eng Unit := do
  let at_ := (← get).routineAt part n
  let x ← agRead at_ 16 part
  let x := x - x / 2 ^ 62 % 2 * 2 ^ 62
  let x := x - x / 2 ^ 64 % 65536 * 2 ^ 64
  agWrite at_ 16 x part

/-- How an access of the device stops the instruction that makes it: the thread waits for a held line (R205), or it takes the cause. -/
def EStop.stop : EStop → Stop
  | .hold l _ => .park (.line (l.getD 0) 0)
  | .fail c g => if c = .dataerr then .consumed g else .trap ⟨c, BitVec.ofNat 64 g⟩
  | .wait g _ | .far g _ _ _ => .trap ⟨.perm, BitVec.ofNat 64 g⟩
  | .poison lo g => .poison lo g
  | .refused g => .trap ⟨.dataerr, BitVec.ofNat 64 g⟩

/-- An instruction makes accesses as an agent of the device. -/
def Dev.act {α : Type} (d : Dev) (e : Eng α) : Chk (α × Dev) := match e d with
  | .ok x => .ok x
  | .error st => .error st.stop

/-- A release that the thread makes before its own effect (R194): with it open the instruction goes on. -/
def Dev.releaseNow (d : Dev) (sc : MemScope) : Chk Unit := do
  d.acqHeld
  d.relHeld
  d.behind (d.gateWaiting sc)

/-- `srsync` (R372) -/
def execSrsync (id : BitVec 6) (s : State) : Host.Outcome State Fault Refusal :=
  s.thread {} fun d => do
    d.releaseNow .pkg
    let (_, d) ← d.act do
      clearBad d.th.part id.toNat
      refreshEntry d.th.part id.toNat
    .ok d.retire

/-! ### Traps and returns (R375, R376) -/

/-- `trap`: SYSCALL, in either mode. -/
def execTrap (s : State) : Host.Outcome State Fault Refusal := s.thread {} fun _ => raise .syscall 0

/-- `sret`: once every pending result has arrived, MODE := 0 and PC := SEPC. -/
def execSret (s : State) : Host.Outcome State Fault Refusal :=
  s.priv { rcr := [0x21] } fun d =>
    if d.th.pend.isEmpty then .ok (d.modTh fun t => (t.retireTo t.pc).leaveTrap) else park .pending

/-- `wfi`: the thread parks; a mailbox increment or the cycle limit lets it go on after the instruction, and so does a copy interrupt of
the thread that waits. -/
def execWfi (ra : RegNo) (s : State) : Host.Outcome State Fault Refusal :=
  s.priv { rx := [ra] } fun d =>
    let k := (d.x ra).toNat
    if !(d.homeSlot d.cur.1 d.cur.2).copyIrqs.isEmpty then .ok d.retire
    else match d.th.wait with
      | .wfi u => if u != 0 && decide (u ≤ d.curCore.cycle.toNat) then .ok d.retire else .ok d
      | _ => .ok (d.waitFor (.wfi (if k = 0 then 0 else d.curCore.cycle.toNat + k)))

/-- WFI_TIMEOUT (R376): the limit of the `wfi` of slot `b` of core `a` has passed. -/
def execWfiTimeout (s : State) : Host.Outcome State Fault Refusal :=
  s.onDev fun d =>
    let r := s.args.a
    let k := s.args.b
    match (d.slot r k).wait with
    | .wfi u =>
      if u != 0 && decide (u ≤ (d.core r).cycle.toNat) then d.modSlot r k fun t => t.retireTo (link t.pc) else d
    | _ => d

/-! ### Segment registers (R377) -/

/-- `segw` -/
def execSegw (sn : SegNo) (ra rb : RegNo) (s : State) : Host.Outcome State Fault Refusal :=
  s.priv { rx := [ra, rb] } fun d => do
    let v : SegImage := d.x rb ++ d.x ra
    ensure (segReservedOk v) .illegal d.word
    .ok ((d.modTh fun t => t.setSeg sn v).retire)

/-- `segr` -/
def execSegr (rd : RegNo) (sn : SegNo) (k : BitVec 1) (s : State) : Host.Outcome State Fault Refusal :=
  s.thread { wx := [rd], rs := [sn] } fun d =>
    .ok ((d.setX rd ((d.th.seg sn).extractLsb' (64 * k.toNat) 64)).retire)

/-! ### Shootdown (R167, R378) -/

/-- Whether a shootdown of kind 0 (64 KiB), 1 (2 MiB), 2 (8 MiB) or 3 (everything) at a GVA covers a page. -/
def shotPage (kind gva page : Nat) : Bool :=
  match kind with
  | 0 => page == gva / 65536
  | 1 => page / 32 == gva / 65536 / 32
  | 2 => page / 128 == gva / 65536 / 128
  | _ => true

/-- Whether it discards a translation through a page: a 2 MiB page goes whole (R167). -/
def shotCovers (kind gva : Nat) (p : PageId) : Bool :=
  if p.large && decide (kind ≤ 1) then p.num / 32 == gva / 65536 / 32 else shotPage kind gva p.num

/-- Whether it discards a TLB entry. -/
def shotEntry (part kind gva : Nat) (e : TlbEntry) : Bool := e.part == part && shotCovers kind gva ⟨e.page, e.large⟩

/-- An LP frame after a shootdown (R181): where a leaf entry that is shot maps it, its counter, QUEUED and PENDING are cleared, and other pages may
still map it. -/
def LpFrame.shoot (f : LpFrame) (part kind gva : Nat) : LpFrame :=
  let hit (p : Nat × PageId) : Bool := p.1 == part && shotCovers kind gva p.2
  if f.pages.any hit then ⟨0, false, none, f.pages.filter fun p => !hit p⟩ else f

/-- A lease ends at its home before its `unlease` (R279, R280): the holder's record is ended. At an expiry its stores stay in the buffer, which
the holder still reads; otherwise they are discarded now. -/
def Dev.endLease (d : Dev) (line : Nat) (discard : Bool) : Dev :=
  let hs := d.leases.filter fun l => l.line == line
  let d := { d with leases := d.leases.filter fun l => l.line != line }
  hs.foldl (fun d l => d.modSlot l.rank l.slot fun s => { s with lease := s.lease.map fun x =>
    if x.line == line then { x with held := false, mask := if discard then 0 else x.mask } else x }) d

/-- The shootdown itself: matching translations of every TLB are discarded, stash registrations made under them recalled, the LP
counters of their frames cleared (R181), and leases on their lines ended (R280). -/
def Dev.shootdown (d : Dev) (part kind gva : Nat) : Dev :=
  let keep (l : List TlbEntry) : List TlbEntry := l.filter fun e => !shotEntry part kind gva e
  let shot (f : Nat) : Bool := (d.lpFrame f).shoot part kind gva != d.lpFrame f
  let d : Dev := { d with
    cores := d.cores.map fun p => (p.1, { p.2 with tlb := keep p.2.tlb })
    quads := d.quads.map fun p => (p.1, { p.2 with tlb := keep p.2.tlb })
    lp := d.lp.map fun f => (f.1, f.2.shoot part kind gva)
    lpFills := d.lpFills.filter fun f => !shot f.2.1 }
  let lines := d.cores.flatMap fun p => (p.2.stash.filter fun e =>
    e.2.part == part && e.2.st != .mapped && shotCovers kind gva ⟨e.2.gva / 65536, e.2.large⟩).map fun e => e.2.line
  let d := lines.foldl Dev.recallStash d
  (d.leases.filter fun l => l.part == part && shotCovers kind gva l.pg).foldl (fun d l => d.endLease l.line true) d

/-- Whether every access stamped before `mark` under the translations that a shootdown covers has been performed (R167). -/
def Dev.shotDone (d : Dev) (part kind gva mark : Nat) : Bool :=
  let agent (q : HomeReq) : Bool := match q.kind with
    | .agent _ _ => true
    | _ => false
  let hit (q : HomeReq) : Bool := !agent q && q.part == part && shotCovers kind gva q.pg && decide (q.seq < mark)
  !d.homeQ.any hit && !d.sidelined.any hit
    && !(d.cores.any fun c => c.2.wb.any fun e => e.part == part && shotCovers kind gva e.pg && decide (e.seq < mark))
    && !(d.remote.any fun p => p.2.part == part && shotCovers kind gva ⟨p.2.gva / 65536, p.2.large⟩ && decide (p.2.seq < mark))

/-- The kind that X[rb] names. -/
def tlbKind (x : Word) : Nat := if x.extractLsb' 2 62 != 0 then 3 else x.toNat

/-- `tlbinv` (R378): after the release the shootdown is made once, and the thread waits for the accesses under the old translations. -/
def execTlbinv (ra rb : RegNo) (s : State) : Host.Outcome State Fault Refusal :=
  s.priv { rx := [ra, rb] } fun d =>
    let gva := (d.x ra).toNat % 2 ^ 48
    let kind := tlbKind (d.x rb)
    match d.th.wait with
    | .shootdown m kind gva _ => .ok (if d.shotDone d.th.part kind gva m then d.retire else d)
    | _ => do
      d.releaseNow .pkg
      let m := d.accSeq
      let d := d.shootdown d.th.part kind gva
      .ok (if d.shotDone d.th.part kind gva m then d.retire else d.waitFor (.shootdown m kind gva none))

/-! ### Hampers (R169, R172, R173, R379) -/

/-- The quad that a selector names: PERM for a rank outside the partition or a bit outside `mask`. -/
def Dev.selectQuad (d : Dev) (x : Word) (mask : Word) : Chk Nat := do
  let r := x.toNat % 4096
  ensure (decide (r < d.tpart.cfg.hlen) && (x &&& ~~~(mask ||| 0xFFF)) == 0) .perm 0
  .ok (d.tpart.devRank r / 4)

/-- Word `w` of hamper entry `i` of quad `q`, as partition `part` reads it (R169). -/
def Dev.hamperWord (d : Dev) (q part i w : Nat) : Word :=
  let x := d.quad q
  let e := x.hamper.find? fun h => h.idx == i && h.part == part
  let drop := if x.dropped.contains part then 2 ^ 62 else 0
  match w, e with
  | 0, some h =>
    BitVec.ofNat 64 (2 ^ 63 + drop + (if h.write then 2 ^ 61 else 0) + (if h.exec_ then 2 ^ 60 else 0) + h.part * 2 ^ 54
      + h.page % 2 ^ 32 * 65536)
  | 0, none => BitVec.ofNat 64 drop
  | _, some h => BitVec.ofNat 64 (q * 2 ^ 54 + h.waiters * 2 ^ 32)
  | _, none => BitVec.ofNat 64 (q * 2 ^ 54)

/-- `fltrd`: the read acquires what the pager notice released. -/
def execFltrd (rd ra : RegNo) (s : State) : Host.Outcome State Fault Refusal :=
  s.priv { rx := [ra], wx := [rd] } fun d => do
    let x := d.x ra
    let q ← d.selectQuad x 0xF000
    let v := d.hamperWord q d.th.part (x.extractLsb' 12 3).toNat (x.extractLsb' 15 1).toNat
    .ok (((d.setX rd v).acquire .pkg).retire)

/-- A thread parked on a page fault executes its instruction again; a pending notice is posted. -/
def Dev.replaySlot (d : Dev) (part r k : Nat) : Dev :=
  let s := d.slot r k
  if s.part = part ∧ s.occ then
    let d := match s.wait with
      | .fault _ => d.modSlot r k fun s => { s with wait := .none }
      | _ => d
    if s.npend then
      (d.modSlot r k fun s => { s with npend := false }).post r part (r - (d.part part).cfg.hbase) (s.unote.extractLsb' 0 6).toNat 1
    else d
  else d

/-- The step of R172 at the hamper of quad `q`, with the engines that wait there (R173). -/
def Dev.replay (d : Dev) (q part : Nat) : Dev :=
  let d := d.modQuad q fun x =>
    { x with hamper := x.hamper.filter (·.part != part), dropped := x.dropped.filter (· != part) }
  let slots := (List.range 4).flatMap fun i => (List.range 16).map fun k => (4 * q + i, k)
  let d := slots.foldl (fun d p => d.replaySlot part p.1 p.2) d
  let d := (List.range 4).foldl (fun d i => d.modCore (4 * q + i) fun c =>
    { c with
      mxq := c.mxq.map fun m => if m.part == part then { m with faultPage := none } else m
      chan := c.chan.map fun u => if u.2.req.part == part then (u.1, { u.2 with faultPage := none }) else u }) d
  let ws := ((d.part part).sweeps.map (·.2)).filter fun w => w.issuer / 4 == q
  ws.foldl (fun d w => (d.modSweep part w.id fun w => { w with recWait := false, held := [] }).sweepPump part w.id) d

/-- `fltreplay` -/
def execFltreplay (ra : RegNo) (s : State) : Host.Outcome State Fault Refusal :=
  s.priv { rx := [ra] } fun d => do
    let q ← d.selectQuad (d.x ra) 0
    d.releaseNow .pkg
    .ok ((d.replay q d.th.part).retire)

/-! ### Caches (R380) -/

/-- The lines of a range, through both members of a twin page: every page is translated before any line is acted on. -/
def Dev.rangeLines (d : Dev) (a : Access) (gva n : Nat) : Nat → Chk (List Nat)
  | 0 => .ok []
  | fuel + 1 => do
    if n = 0 then .ok []
    else
      let k := min n (65536 - gva % 65536)
      let t ← d.translate a gva
      let back : List Nat ← match d.tlbFind d.cur.1 d.th.part (gva / 65536) with
        | some e =>
          if e.twin then
            match pageCheck d.tpart.cfg e.back e.large e.twin a gva with
            | some c => raise c (BitVec.ofNat 64 gva)
            | none => pure [leafAddr e.large e.back gva]
          else pure []
        | none => pure []
      let lines := (t.pa :: back).flatMap fun pa => (List.range ((pa + k - 1) / 128 + 1 - pa / 128)).map (pa / 128 + ·)
      let rest ← d.rangeLines a (gva + k) (n - k) fuel
      .ok (lines ++ rest)

/-- The lines that `cflush` or `cinval` acts on; none for a length of 0. A held line makes the thread wait. -/
def Dev.cacheLines (d : Dev) (sn : SegNo) (ra rb : RegNo) (need : SegNeed) (a : Access) : Chk (List Nat) := do
  let n := min (d.x rb).toNat (2 ^ 24)
  if n = 0 then .ok []
  else
    let gva ← segCheck (d.th.seg sn) (d.x ra) n need
    let lines ← d.rangeLines a gva n (n / 65536 + 2)
    match lines.find? d.lineHeld with
    | some l => park (.cache (some l) none)
    | none => .ok lines

/-- The release of `cflush`, behind an earlier `fence.rel` (R194, R196): a save cancels the wait for it. -/
def Dev.cacheRelease (d : Dev) : Chk Unit := do
  d.acqHeld
  match (d.relGate ++ [d.gateWaiting .pkg]).find? fun g => !d.gateOpen g with
  | some g => park (.cache none (some g))
  | none => .ok ()

/-- `cinval` of a line by core `r`: copies go without write-back, and the line reads what DRAM holds. The core's own earlier stores and every
write-back of a stash entry go too; what another core has in flight may survive. -/
def Dev.cinvalLine (r : Nat) (d : Dev) (line : Nat) : Dev :=
  let gone (c : Nat) (e : WbEntry) : Bool := e.line == line && (c == r || e.wback)
  let stale (q : HomeReq) : Bool := q.line == line && (d.core q.rank).wb.any fun e => gone q.rank e && e.isFor q
  let d : Dev := { d with
    homeQ := d.homeQ.filter fun q => !stale q
    cores := d.cores.map fun p => (p.1, { p.2 with wb := p.2.wb.filter fun e => !gone p.1 e }) }
  let d := match aget? d.regs line with
    | some (r, e) =>
      { d with regs := adel d.regs line }.modCore r fun c => match aget? c.stash e with
        | some s => if s.line = line then { c with stash := aset c.stash e { s with st := .mapped } } else c
        | none => c
    | none => d
  let back (q : HomeReq) : Bool := q.line == line && (match q.kind with
    | .uocBack _ => true
    | _ => false)
  let backs := d.homeQ.filter back
  let d : Dev := { d with
    homeQ := d.homeQ.filter fun q => !back q
    cores := d.cores.map fun p => (p.1, { p.2 with
      l1d := adel p.2.l1d line
      uoc := p.2.uoc.filter (·.line != line)
      out := p.2.out.filter fun o => !backs.any fun q => q.rank == p.1 && q.tag == some o.1 }) }
  let d := match (aget? d.llc line).bind (·.dram) with
    | some x => { d with mem := d.mem.setLine line x }
    | none => d
  { d with
    llc := adel d.llc line
    lru := d.lru.map fun p => (p.1, p.2.filter (· != line))
    poison := d.poison.filter (· != line)
    lostRegs := d.lostRegs.filter (· != line) }

/-- `cflush` of a line: what is newer elsewhere comes home, and DRAM holds it. -/
def Dev.cflushLine (d : Dev) (line : Nat) : Dev :=
  let d := (d.recallStash line).recallUocs line
  match aget? d.llc line with
  | some e => { d with llc := aset d.llc line { e with dram := none } }
  | none => d

/-- `cinval` -/
def execCinval (sn : SegNo) (ra rb : RegNo) (s : State) : Host.Outcome State Fault Refusal :=
  s.priv { rx := [ra, rb], rs := [sn] } fun d => do
    let lines ← d.cacheLines sn ra rb { w := true, l0 := true } { write := true, user := d.user, twinOk := true }
    d.acqHeld
    .ok ((lines.foldl (Dev.cinvalLine d.cur.1) d).retire)

/-- `cflush` -/
def execCflush (sn : SegNo) (ra rb : RegNo) (s : State) : Host.Outcome State Fault Refusal :=
  s.thread { rx := [ra, rb], rs := [sn] } fun d => do
    let lines ← d.cacheLines sn ra rb { r := true, l0 := true } { read := true, user := d.user, twinOk := true }
    if lines.isEmpty then .ok d.retire
    else
      d.cacheRelease
      .ok ((lines.foldl Dev.cflushLine d).retire)

/-! ### Publication (R162, R208, R381) -/

/-- The directory entry of a twin region at a GVA: its address and value; none for any other. -/
def twinEntry (part gva : Nat) : Eng (Option (Nat × Word)) := do
  match ← dirAt part gva with
  | none => pure none
  | some at_ =>
    let c ← pte part at_
    match dirLeaf (((← get).part part).cfg.tableBase.getD 0) c with
    | some (_, true, _, _) => pure (some (at_, c))
    | some (_, false, _, _) | none => pure none

/-- The back copies that the engine requests in execution of a partition have chosen: those of the copy channels, and `host`, those of its
COPYH and FILL commands. -/
def Dev.chosenBacks (d : Dev) (part : Nat) (host : List (Nat × BackChoice)) : List BackChoice :=
  (d.cores.flatMap fun c => c.2.chan.flatMap fun u => if u.2.req.part = part && !c.2.saving then u.2.backs else [])
    ++ (host.filter (·.1 == part)).map (·.2)

/-- Whether a request still writes a page of the region through entry `entry` of its pairs, the back copy that it chose before `mark`. -/
def Dev.oldBackBusy (d : Dev) (part gva mark entry : Nat) (host : List (Nat × BackChoice)) : Bool :=
  (d.chosenBacks part host).any fun b => shotPage 2 gva b.page.num && b.entry == entry && decide (b.seq < mark)

/-- The condition under which a `publish` is performed: `entry` was the back copy when it took its mark. -/
def Dev.publishDone (d : Dev) (part gva mark entry : Nat) (host : List (Nat × BackChoice)) : Bool :=
  d.shotDone part 2 gva mark && !d.oldBackBusy part gva mark entry host

/-- The entry of its pairs that is the back copy under a directory entry (R158). -/
def backEntry (c : Word) : Nat := if c.getLsbD 60 then 0 else 1

/-- The L1s of a partition drop their plain copies (R208). -/
def Dev.dropPlain (d : Dev) (part : Nat) : Dev :=
  { d with cores := d.cores.map fun p => if p.2.part = some part then (p.1, { p.2 with l1d := [] }) else p }

/-- Toggle FRONT at the directory entry, and shoot the region down. -/
def publishNow (part at_ : Nat) (c : Word) (gva : Nat) : Eng Unit := do
  agWrite at_ 8 (c ^^^ BitVec.ofNat 64 (2 ^ 60)).toNat part
  Eng.upd fun d => d.shootdown part 2 gva

/-- A `publish` that is performed ends: copies that the L1s have taken since the toggle go. -/
def Dev.published (d : Dev) (part : Nat) : Dev := (d.dropPlain part).retire

/-- The back copies chosen by COPYH and FILL commands, by partition. -/
def HostIf.chosenBacks (h : HostIf) : List (Nat × BackChoice) :=
  h.cmds.flatMap fun c => match c.2.kind with
    | .copyh _ _ _ _ _ backs | .fill _ _ _ _ backs => backs.map fun b => (c.2.part, b)
    | .launch _ | .launchWait _ | .wait _ _ _ _ | .map _ _ _ | .held _ _ => []

/-- `publish` -/
def execPublish (sn : SegNo) (ra : RegNo) (s : State) : Host.Outcome State Fault Refusal :=
  let host := s.host.chosenBacks
  s.thread { rx := [ra], rs := [sn] } fun d =>
    let part := d.th.part
    match d.th.wait with
    | .shootdown m _ gva pub => .ok (if d.publishDone part gva m (pub.getD 0) host then d.published part else d)
    | _ => do
      let gva ← segCheck (d.th.seg sn) (d.x ra) 1 { p := true, l0 := true }
      let (e, d) ← d.act (twinEntry part gva)
      match e with
      | some (at_, c) =>
        d.releaseNow .pkg
        let (_, d) ← d.stamp.act (publishNow part at_ c gva)
        let m := d.accSeq
        .ok (if d.publishDone part gva m (backEntry c) host then d.published part else d.waitFor (.shootdown m 2 gva (some (backEntry c))))
      | none => raise .perm (BitVec.ofNat 64 gva)

end Sys2Proof.Machine
end

