-- ==== Sys2Proof/Machine/Tasks.lean ====
section
/-! DEFINITION. Task groups and tasks: descriptors and their checks (R87-R91), group ids (R92), the start of a task (R93, R95), what fits a
core (R96, R110), threads' ends, task ends and successors (R103-R106, R288), `spawn` (R287) and migration (R145-R151, R290). -/

namespace Sys2Proof.Machine

/-! ### Descriptors (R87) -/

def parseDesc (x : BitVec 512) : Desc where
  entry := x.extractLsb' 0 32 |>.setWidth 64
  tasks := swf x 0 32 20
  segtab := swf x 1 0 48
  args := x.extractLsb' 128 48 |>.setWidth 64
  threads := swf x 3 0 5
  scratch := swf x 3 8 4
  stash := swf x 3 16 4
  guests := swf x 3 32 2
  place := swf x 3 34 2
  detl := swf x 3 36 1 == 1
  queue := swf x 3 37 3
  tilemask := x.extractLsb' 256 64
  jrank := swf x 5 0 12
  jidx := swf x 5 12 6
  jen := swf x 5 18 1 == 1
  succ := swf x 6 0 48

/-- A reserved bit of a descriptor that is set. -/
def descReserved (x : BitVec 512) : Bool :=
  swf x 0 52 12 != 0 || swf x 1 48 16 != 0 || swf x 2 48 16 != 0 || swf x 3 5 3 != 0 || swf x 3 12 4 != 0 || swf x 3 20 12 != 0
    || swf x 3 40 24 != 0 || swf x 5 19 45 != 0 || swf x 6 48 16 != 0 || swf x 7 0 64 != 0

def Desc.guestBlock (d : Desc) : Nat := if 0 < d.guests then 1 else 0
def Desc.needSlots (d : Desc) : Nat := d.threads + d.guests
def Desc.needBlocks (d : Desc) : Nat := d.scratch + d.stash + d.guestBlock

def stResource : Nat := 0x0003
def stDetviol : Nat := 0x0009
def stConfig : Nat := 0x000B

def Part.inGang (p : Part) (r : Nat) : Bool := decide (p.cfg.grbase ≤ r) && decide (r < p.cfg.grbase + p.cfg.grlen)

/-- The device quads that lie wholly inside the partition's interval and outside its permanent gang interval. -/
def Part.wholeQuads (p : Part) : List Nat :=
  (List.range 1024).filter fun q => decide (p.cfg.hbase ≤ 4 * q) && decide (4 * q + 4 ≤ p.cfg.hbase + p.cfg.hlen)
    && [0, 1, 2, 3].all fun j => !p.inGang (4 * q + j - p.cfg.hbase)

/-- Check 1 of R90. -/
def Part.badFields (p : Part) (x : BitVec 512) (host : Bool) : Bool :=
  let d := parseDesc x
  descReserved x || d.tasks == 0 || d.threads == 0 || d.guests == 3 || d.entry.extractLsb' 0 2 != 0 || d.segtab % 256 != 0 || d.succ % 64 != 0
    || (d.jen && decide (p.cfg.hlen ≤ d.jrank)) || (d.detl && !p.cfg.det) || (host && d.segtab == 0)

/-- Check 3 of R90. -/
def Desc.tooBig (d : Desc) : Bool := decide (16 < d.needSlots) || decide (12 < d.needBlocks)

/-- Checks 1 to 4 of R90: the status of the first that fails. -/
def Part.checkDesc (p : Part) (x : BitVec 512) (host : Bool) : Option Nat :=
  let d := parseDesc x
  if p.badFields x host then some stInvalid
  else if p.cfg.det && !d.detl then some stDetviol
  else if d.tooBig then some stResource
  else if !p.cfg.det && ((d.place == 3 && decide (p.cfg.hlen < d.tasks)) || (d.place == 2 && p.wholeQuads.isEmpty)) then some stConfig
  else none

/-! ### Start blocks (R89) -/

/-- The segment images of a start block. -/
def blockSegs (b : Nat) : Vector SegImage 8 := Vector.ofFn fun i => segClean (BitVec.ofNat 128 (b / 2 ^ (128 * i.val) % 2 ^ 128))
/-- Its `.local` image: GVA and length; GVA 0 names none. -/
def blockLocal (b : Nat) : Option (Nat × Nat) :=
  let g := b / 2 ^ 1024 % 2 ^ 48
  let n := b / 2 ^ 1088 % 2 ^ 64
  if b / 2 ^ 1024 % 2 ^ 64 = 0 then none else some (g, n)
def blockReserved (b : Nat) : Bool := b / 2 ^ 1152 != 0
/-- Check 6 of R90. -/
def blockBad (b scratch : Nat) : Bool := blockReserved b || (blockLocal b).any fun l => decide (scratch * blockBytes < l.2)

/-! ### Groups (R92, R96, R107) -/

def Dev.setGroup (d : Dev) (part : Nat) (g : Group) : Dev := d.modPart part fun p => { p with groups := aset p.groups g.id g }

/-- The lowest id that no live group of the partition holds. -/
def Part.freeGroup (p : Part) : Option Nat := freeKey p.groups 1 65535

/-- A new group, in its placement queue or on the DET lists of the partition. -/
def Part.queueGroup (p : Part) (gid : Nat) (x : Desc) : Part :=
  if p.cfg.det then
    let q := (List.range x.tasks).foldl (fun m i =>
      let r := i % p.cfg.hlen
      aset m r ((aget? m r).getD [] ++ [(gid, i)])) p.det
    { p with det := q }.modGroup gid fun g => { g with next := x.tasks, live := x.tasks }
  else { p with queues := aset p.queues x.queue ((aget? p.queues x.queue).getD [] ++ [gid]) }

def newGroup (gid : Nat) (x : Desc) (segs : Vector SegImage 8) (img : Option (Nat × Nat)) (cmd disp : Option Nat) : Group where
  id := gid
  desc := x
  segs := segs
  localImg := img
  next := 0
  live := 0
  lastRank := none
  cmd := cmd
  lost := 0
  disp := disp
  gates := []
  sweep := 0
  sweepId := 0

/-! ### Room on a core (R96, R110) -/

def Core.slotTaken (c : Core) (k : Nat) : Bool :=
  let s := c.slot k
  s.occ || s.away || s.isGuestSlot || c.tasks.any fun t => !t.ended && t.slots.contains k

/-- Whether a task of a stream waits in the partition's placement queues or in the core's inbox. -/
def Part.streamWaits (p : Part) (c : Core) (q : Nat) : Bool :=
  !((aget? p.queues q).getD []).isEmpty || c.inbox.any fun m => match m with
    | .launch g => (aget? p.groups g).any (·.desc.queue == q)
    | .frame _ => false

/-- The free slots that a stream may take. -/
def Part.freeSlots (p : Part) (c : Core) (q : Nat) : List Nat :=
  (List.range 16).filter fun k =>
    !c.slotTaken k && (p.cfg.det || vget c.qown k 0 == q || !p.streamWaits c (vget c.qown k 0))

def Core.blockTaken (c : Core) (b : Nat) : Bool := c.tasks.any fun t => decide (t.base ≤ b) && decide (b < t.base + t.blocks)
def Core.tileTaken (c : Core) (k : Nat) : Bool :=
  c.tasks.any fun t => t.hasTile k && (!t.ended || c.mxq.any fun m => m.task == t.id)

/-- The lowest run of `n` free blocks (log entry 19). -/
def Core.findBlocks (c : Core) (n : Nat) : Option Nat :=
  (List.range (13 - n)).find? fun b => (List.range n).all fun i => !c.blockTaken (b + i)

/-- Slots and window base with which a task fits core `r` (R96). -/
def Dev.fit (d : Dev) (part r : Nat) (x : Desc) : Option (List Nat × Nat) :=
  let c := d.core r
  if c.part != some part || c.saving || c.lost then none
  else if (List.range 64).any fun k => x.tilemask.getLsbD k && c.tileTaken k then none
  else
    let free := (d.part part).freeSlots c x.queue
    match c.findBlocks x.needBlocks with
    | some b => if x.needSlots ≤ free.length then some (free.take x.needSlots, b) else none
    | none => none

/-! ### Task start (R93) -/

/-- A slot as its thread begins. -/
def Slot.startThread (part : Nat) (x : Desc) (segs : Vector SegImage 8) (i : Nat) : Slot :=
  { Slot.reset with
    occ := true, part := part, s := segs, pc := x.entry, arrive := some 0
    x := ((Vector.replicate 32 (0 : Word)).setIfInBounds 10 x.args).setIfInBounds 11 (BitVec.ofNat 64 i) }

/-- A read of a `.local` image for a core of quad `q`. -/
def engImage (q part : Nat) : Option (Nat × Nat) → Eng (List Byte)
  | none => pure []
  | some (g, n) => do
    let x ← engReadPieces part (← engRange q part { read := true, twinOk := true } g n)
    pure (leBytes n x)

/-- Whether a task of a group cannot start yet on core `r`: a line of its `.local` image is held (R205). -/
def Dev.imageHeld (d : Dev) (part r : Nat) (g : Group) : Bool := match engImage (r / 4) part g.localImg d with
  | .error (.hold _ _) => true
  | .ok _ | .error _ => false

/-- The bytes of a `.local` image; where it cannot be read the bytes are free values (log entry 18). -/
def Dev.readImage (d : Dev) (q part : Nat) (img : Option (Nat × Nat)) : List Byte × Dev :=
  match engImage q part img d with
  | .ok x => x
  | .error _ =>
    let n := (img.map (·.2)).getD 0
    let (x, d) := d.freeBytes n
    (leBytes n x, d)

/-- The threads of a task start in `slots`, and its guest slots are reserved behind them. -/
def Core.startThreads (c : Core) (part : Nat) (x : Desc) (segs : Vector SegImage 8) (slots guests : List Nat) : Core :=
  let c := slots.zipIdx.foldl (fun c p => c.setSlot p.1 (Slot.startThread part x segs p.2)) c
  guests.foldl (fun c k => c.setSlot k { c.slot k with isGuestSlot := true, part := part }) c

/-- Task `index` of a group starts on core `r`; the start acquires (R95). -/
def Dev.startTask (d : Dev) (part r gid index : Nat) (slots : List Nat) (base : Nat) : Dev :=
  match aget? (d.part part).groups gid with
  | none => d
  | some g =>
    let x := g.desc
    let (img, d) := d.readImage (r / 4) part g.localImg
    let lo := base * blockBytes
    let hi := (base + x.needBlocks) * blockBytes
    let d := d.modCore r fun c =>
      let threads := slots.take x.threads
      let guests := slots.drop x.threads
      let t : Task := { id := c.nextTask, part := part, group := gid, index := index, desc := x, base := base, blocks := x.needBlocks, slots := threads, freed := [], guestSlots := guests, gates := [], startedAt := c.cycle.toNat, ended := false, bufs := [], heldBufs := [] }
      let m := c.lmem.filter fun p => !(decide (lo ≤ p.1) && decide (p.1 < hi))
      { c with lmem := Mem.setBytes m lo img, badLmem := c.cleanLmem lo (hi - lo), tasks := c.tasks ++ [t], nextTask := c.nextTask + 1, l1d := [] }.startThreads part x g.segs threads guests
    d.modGroup part gid fun g => { g with lastRank := some (r - (d.part part).cfg.hbase) }

/-! ### Ends (R103-R106, R288) -/

/-- A slot is empty again: a guest slot stays one. Its registers and FFLAGS stay as the thread left them until another thread starts there
(R394); what the core kept for the thread goes. -/
def Slot.vacate (s : Slot) : Slot :=
  { s with
    occ := false, away := false, guest := false, mode := false, uact := false, npend := false, hrank := 0, hslot := 0, arrive := none
    mxerr := none, windows := [], pend := [], deferred := [], wait := .none, lease := none, acqPid := [], relMark := none, opMark := none
    turns := [], own := none, fresh := none, yieldUntil := 0, claimed := none, heldBuf := none, copyFaults := [], copyHold := false, copyIrqs := [] }

def Core.clearSlot (c : Core) (k : Nat) : Core := c.setSlot k (c.slot k).vacate

/-- Requests and commands of home slot `k` no longer belong to a thread. -/
def Core.orphan (c : Core) (k : Nat) : Core :=
  { c with
    mxq := c.mxq.map fun m => if m.slot == k then { m with slot := 16 } else m
    fifo := c.fifo.map fun q => if q.slot == k then { q with slot := 16 } else q
    chan := c.chan.map fun u => if u.2.req.slot == k then (u.1, { u.2 with req := { u.2.req with slot := 16 } }) else u }

/-- The end of a group (R103): its sweeps end with it, and are forgotten once their records are written (R348); a LAUNCH that waits is told. -/
def Dev.endGroup (d : Dev) (part : Nat) (g : Group) : Dev :=
  let live := ((d.part part).sweeps.filter fun w => w.2.group == g.id && w.2.st == .live).map (·.1)
  let d := live.foldl (fun d w => d.cancelSweep part w) d
  let d := d.modPart part fun p => { p with groups := adel p.groups g.id, sweeps := p.sweeps.filter fun w => w.2.group != g.id || !w.2.settled }
  match g.cmd with
  | some c => { d with ended := d.ended ++ [⟨c, g.id, g.lost, g.gates⟩] }
  | none => d

/-- A task of a group has ended, behind the releases of its threads. -/
def Dev.groupTaskEnd (d : Dev) (part gid : Nat) (gates : List Gate) : Dev :=
  match aget? (d.part part).groups gid with
  | none => d
  | some g =>
    let g := { g with live := g.live - 1, gates := if g.cmd.isSome then g.gates ++ gates else [] }
    if g.live = 0 ∧ g.desc.tasks ≤ g.next then (d.setGroup part g).endGroup part g else d.setGroup part g

/-- Tiles that a sweep delivered to a task are returned (R352). -/
def Dev.returnBufs (d : Dev) (r : Nat) (t : Task) : Dev :=
  let d := d.modCore r fun c => c.modTask t.id fun t => { t with bufs := [], heldBufs := [] }
  t.bufs.foldl (fun d b => d.returnTile t.part b.sid b.lin) d

/-- A task ends on core `r` (R103): its slots are free, the rest follows in `reap`; the join increment travels as a release of the task's
stores (R106). -/
def Dev.endTask (d : Dev) (r : Nat) (t : Task) (gates : List Gate) : Dev :=
  let d := d.returnBufs r t
  let d := d.modCore r fun c =>
    { c with
      tasks := c.tasks.map fun u => if u.id == t.id then { u with ended := true, slots := [], freed := [] } else u
      slots := t.guestSlots.foldl (fun v k => let s := vget v k Slot.reset; if s.occ then v else vset v k { s with isGuestSlot := false }) c.slots }
  let d := d.reap r
  let d := if t.desc.jen then d.post r t.part t.desc.jrank t.desc.jidx 1 gates else d
  d.groupTaskEnd t.part t.group gates

/-- The lease of a slot ends as if it had expired, and its buffer is discarded: with its thread, or at a save of its core, after which the
record is still that of an ended lease (R280). -/
def Dev.dropLease (d : Dev) (r k : Nat) (keep : Bool) : Dev :=
  match (d.slot r k).lease with
  | some l =>
    let d := if l.held && d.leases.any (fun h => h.line == l.line && h.rank == r && h.slot == k) then d.endLease l.line true else d
    d.modSlot r k fun s => { s with lease := if keep then some { l with held := false, mask := 0 } else none }
  | none => d

/-- What is on its way for a thread no longer names it. -/
def Dev.forgetThread (d : Dev) (id : Nat × Nat × Nat) : Dev :=
  let keep (t : Option (Nat × Nat × Nat)) : Option (Nat × Nat × Nat) := t.filter (· != id)
  { d with
    net := d.net.map fun m => (m.1, { m.2 with thread := keep m.2.thread })
    cores := d.cores.map fun c => (c.1, { c.2 with out := c.2.out.map fun o => (o.1, { o.2 with thread := keep o.2.thread }) }) }

/-- The thread of slot `k` of core `r` ends: its slot and, for a guest, its away home slot are free, and what it claimed is returned. -/
def Dev.endThread (d : Dev) (r k : Nat) : Dev :=
  let s := d.slot r k
  let h := d.homeOf r k
  let d := (d.freeHeld h.1 h.2).forgetThread (s.part, r - (d.part s.part).cfg.hbase, k)
  let task := d.task r k
  let d := match (d.slot h.1 h.2).claimed, task with
    | some (sid, lin, buf), some t =>
      (d.modCore h.1 fun c => c.modTask t.id fun t => { t with bufs := t.bufs.filter fun b => !(b.buf == buf) }).returnTile s.part sid lin
    | _, _ => d
  let gate : Gate := d.gateAt r k d.accSeq .pkg none
  let d := match task with
    | some t => d.modCore h.1 fun c => c.modTask t.id fun t =>
        { t with slots := t.slots.filter (· != h.2), freed := t.freed ++ [h.2], gates := t.gates ++ [gate] }
    | none => d
  let d := d.modCore h.1 fun c => (c.orphan h.2).clearSlot h.2
  if s.guest then
    let d := match (d.core r).hostTask k with
      | some (t, i) =>
        let lo := t.origin + t.s + t.t + 8192 * i
        d.modCore r fun c => { c with lmem := c.lmem.filter fun p => !(decide (lo ≤ p.1) && decide (p.1 < lo + 8192)) }
      | none => d
    let gone := ((d.core r).hostTask k).any (·.1.ended)
    let d := d.modCore r fun c => c.clearSlot k
    if gone then d.reap r else d
  else d

/-! ### Reads of descriptors -/

/-- A read whose failures other than a non-resident page are the instruction's own: no value for a failure. Poison is recorded (R54). -/
def Dev.tryPeek (d : Dev) (gva n : Nat) : Chk (Option Nat × Dev) :=
  match d.peek gva n with
  | .ok (p, d) => .ok (match p.bad with
    | some g => (none, d.logPoison d.th.part d.cur.1 d.cur.2 g)
    | none => (some p.val, d))
  | .error (.park w) => .error (.park w)
  | .error _ => .ok (none, d)

/-- Whether every page of a range can be read with user rights; a non-resident page parks or upcalls. -/
def Dev.tryPages (d : Dev) (gva n : Nat) : Nat → Chk Bool
  | 0 => .ok true
  | fuel + 1 =>
    if n = 0 then .ok true
    else
      let k := min n (65536 - gva % 65536)
      match d.translate { read := true, twinOk := true } gva with
      | .error (.park w) => .error (.park w)
      | .error _ => .ok false
      | .ok _ => d.tryPages (gva + k) (n - k) fuel

/-- The segment registers that a task or group takes over are read: their parity (R54). -/
def Dev.segsGood (d : Dev) : Chk Unit := if d.th.badS.isEmpty then .ok () else .error .parity

/-- A descriptor that an instruction names: poison on it is DATAERR. -/
def Dev.readDesc (d : Dev) (gva : Nat) : Chk (BitVec 512 × Dev) := do
  let (p, d) ← d.peek gva 64
  match p.bad with
  | some g => .error (.consumed g)
  | none => .ok (BitVec.ofNat 512 p.val, d)

/-! ### exit (R288, R104, R105) -/

/-- What a successor starts with: its descriptor, and the images of its start block. -/
structure Succ where
  x : Desc
  segs : Vector SegImage 8
  slots : List Nat
  guests : List Nat

/-- Read and check a successor (R105): a status, or what it starts with. The ending task sits on core `hr`, and its last thread's home slot
is `hk`. Guest slots that hold a guest stay guest slots (log entry 20). -/
def Dev.checkSucc (d : Dev) (hr hk gva : Nat) (t : Task) : Chk (Except (Nat × Dev) (Succ × Dev)) := do
  if gva % 64 ≠ 0 then .ok (.error (stInvalid, d))
  else
    let (x, d) ← d.readDesc gva
    let s := parseDesc x
    let (b, d) ← if s.segtab = 0 then do
        d.segsGood
        pure (none, d)
      else d.tryPeek s.segtab 256
    if s.segtab != 0 && b.isNone then .ok (.error (stDeviceAddress, d))
    else
      let p := d.part t.part
      let c := d.core hr
      if b.any blockReserved then .ok (.error (stInvalid, d))
      else if p.badFields x false then .ok (.error (stInvalid, d))
      else if s.tooBig || decide (t.desc.needSlots < s.needSlots) || decide (t.blocks < s.needBlocks)
          || (s.tilemask &&& ~~~t.desc.tilemask) != 0 then .ok (.error (stResource, d))
      else
        let busy := t.guestSlots.filter fun k => (c.slot k).occ
        let idle := t.guestSlots.filter fun k => !(c.slot k).occ
        let again := (t.freed.filter fun k => k != hk && (p.freeSlots c s.queue).contains k).mergeSort (· ≤ ·)
        let have_ := hk :: (idle ++ again)
        if s.guests < busy.length || have_.length < s.threads + (s.guests - busy.length) then .ok (.error (stResource, d))
        else
          let segs := match b with
            | some b => blockSegs b
            | none => d.th.s
          .ok (.ok (⟨s, segs, have_.take s.threads, busy ++ (have_.drop s.threads).take (s.guests - busy.length)⟩, d))

/-- Whether a ladder of the ending task stays bound: the successor's TILEMASK holds every tile of it (R328). -/
def Succ.keeps (q : Succ) (b : Ladder) : Bool := b.owned.all fun k => q.x.tilemask.getLsbD k

/-- The successor starts in place of the task on core `hr` (R104); the start acquires (R193). -/
def Dev.startSucc (d : Dev) (hr : Nat) (t : Task) (q : Succ) : Dev :=
  let lo := t.base + q.x.needBlocks
  let hi := t.base + t.blocks
  let d := d.clearStash hr (lo * blockBytes / 128) (hi * blockBytes / 128)
  let at_ (x : Desc) (i : Nat) : Nat := t.origin + (x.scratch + x.stash) * blockBytes + 8192 * i
  d.modCore hr fun c =>
    let kept := q.guests.zipIdx.filterMap fun p =>
      if (c.slot p.1).occ then some (at_ q.x p.2, c.lmem.bytes (at_ t.desc (t.guestSlots.findIdx (· == p.1))) 8192) else none
    let c := { c with slots := t.guestSlots.foldl (fun v k => let s := vget v k Slot.reset; vset v k { s with isGuestSlot := s.occ }) c.slots }
    let c := { c with lmem := kept.foldl (fun (m : Mem) (p : Nat × List Byte) => m.setBytes p.1 p.2) c.lmem, ladders := c.ladders.filter fun l => l.2.task != t.id || q.keeps l.2, l1d := [] }
    let c := c.modTask t.id fun t => { t with desc := q.x, blocks := q.x.needBlocks, slots := q.slots, freed := [], guestSlots := q.guests }
    c.startThreads t.part q.x q.segs q.slots q.guests

/-- `exit` (R288). A guest whose home core is saved waits until it runs again (log entry 23); an exit into a successor that drops a ladder waits
until the matrix queue is empty, as `lcfg` would (R328). -/
def execExit (rd ra : RegNo) (s : State) : Host.Outcome State Fault Refusal :=
  s.thread { rx := [ra], wx := [rd] } fun d => do
    if !d.th.pend.isEmpty then park .pending
    else if d.homeSaved d.cur.1 d.cur.2 then park .homeCore
    else
      let (r, k) := d.cur
      let h := d.homeOf r k
      let d := d.dropLease r k true
      match d.task r k with
      | none => .ok (d.endThread r k)
      | some t =>
        if 1 < t.slots.length then .ok (d.endThread r k)
        else
          let x := (d.x ra).toNat
          let succ := if x != 0 then x else t.desc.succ
          if succ = 0 then
            let d := d.endThread r k
            match (d.core h.1).tasks.find? (·.id == t.id) with
            | some t => .ok (d.endTask h.1 t t.gates)
            | none => .ok d
          else match ← d.checkSucc h.1 h.2 succ t with
            | .error (st, d) => .ok ((d.setX rd (reject st)).retire)
            | .ok (q, d) =>
              if (d.core h.1).ladders.any (fun l => l.2.task == t.id && !q.keeps l.2) && !(d.core h.1).mxq.isEmpty then park .queueEmpty
              else
              let d := d.endThread r k
              let d := match (d.core h.1).tasks.find? (·.id == t.id) with
                | some t => d.returnBufs h.1 t
                | none => d
              .ok (d.startSucc h.1 t q)

/-! ### spawn (R287, R102) -/

/-- Launch messages on their way to a rank, in flight or parked. -/
def Dev.launchesTo (d : Dev) (part rank : Nat) : Nat :=
  let hit (m : Msg) : Bool := match m with
    | .launch p r _ => p == part && r == rank
    | .frame _ _ _ | .incr _ _ _ _ _ => false
  (d.net.filter fun p => hit p.2.msg).length
    + (match aget? (d.part part).ctx rank with
      | some c => (c.parked.filter hit).length
      | none => 0)

/-- Whether a launch message will find room in the target's inbox of 32 or overflow ring of 512 (R101), with those on their way. -/
def Dev.launchRoom (d : Dev) (part rank : Nat) : Bool :=
  let c := d.rankCore part rank
  decide (c.inbox.length + c.overflow.length + d.launchesTo part rank < 544)

/-- The route that the target of `spawn` selects (R102): the dispatcher, a rank, or none for INVALID_FIELD. -/
def Part.route (p : Part) (target : Word) (tasks : Nat) : Option (Option Nat) :=
  if target = BitVec.allOnes 64 then some none
  else if p.cfg.det || decide (p.cfg.hlen ≤ target.toNat) || tasks != 1 then none
  else some (some target.toNat)

/-- Live groups whose segment records a dispatcher holds. -/
def Dev.segRecords (d : Dev) (disp : Nat) : Nat :=
  (d.parts.map fun p => (p.2.groups.filter fun g => g.2.disp == some disp).length).foldl (· + ·) 0

/-- The dispatcher accepts the group of a `spawn`: X[rd] := its id. -/
def Dev.acceptSpawn (d : Dev) (rd : RegNo) (x : Desc) (dest : Option Nat) (segs : Vector SegImage 8) (img : Option (Nat × Nat)) : Dev :=
  let part := d.th.part
  let disp := d.cur.1 / 1024
  match d.tpart.freeGroup with
  | none => (d.setX rd (reject stBusy)).retire
  | some gid =>
    if 1024 ≤ d.segRecords disp || dest.any fun r => !d.launchRoom part r then (d.setX rd (reject stBusy)).retire
    else
      let g := newGroup gid x segs img none (some disp)
      let d := match dest with
        | none => (d.setGroup part g).modPart part fun p => p.queueGroup gid x
        | some r =>
          let gate : Gate := d.gateAt d.cur.1 d.cur.2 d.accSeq .cr (some (d.tpart.devRank r))
          (d.setGroup part { g with next := 1, live := 1 }).send (.launch part r gid) [gate] (some (part, d.cur.1 - d.tpart.cfg.hbase, d.cur.2))
      (d.setX rd (BitVec.ofNat 64 gid)).retire

/-- `spawn` (R287) -/
def execSpawn (rd ra rb : RegNo) (s : State) : Host.Outcome State Fault Refusal :=
  s.thread { rx := [ra, rb], wx := [rd] } fun d => do
    let gva := (d.x ra).toNat
    ensure (gva % 64 == 0) .misalign (d.x ra)
    d.acqHeld
    let (x, d) ← d.readDesc gva
    let desc := parseDesc x
    let no (d : Dev) (st : Nat) : Chk Dev := .ok ((d.setX rd (reject st)).retire)
    match d.tpart.checkDesc x false with
    | some st => no d st
    | none => match d.tpart.route (d.x rb) desc.tasks with
      | none => no d stInvalid
      | some dest =>
        if desc.segtab = 0 then do
          d.segsGood
          d.relHeld
          .ok (d.acceptSpawn rd desc dest d.th.s none)
        else match ← d.tryPeek desc.segtab 256 with
          | (none, d) => no d stDeviceAddress
          | (some b, d) =>
            let readable ← match blockLocal b with
              | some (g, n) => d.tryPages g n (n / 65536 + 2)
              | none => pure true
            if !readable then no d stDeviceAddress
            else if blockBad b desc.scratch then no d stInvalid
            else do
              d.relHeld
              .ok (d.acceptSpawn rd desc dest (blockSegs b) (blockLocal b))

/-! ### migrate (R147-R150, R290) -/

/-- The frame of the thread, with X[rd] := 0. -/
def Dev.frameOf (d : Dev) (rd : RegNo) (home : Bool) : Frame :=
  let s := d.th.setX rd 0
  let st := d.status d.cur.1 d.cur.2
  let low : BitVec 25 := BitVec.ofBool s.npend ++ s.unote.extractLsb' 0 7 ++ (0 : BitVec 1) ++ s.fflags ++ s.frm ++ s.mosh.extractLsb' 0 4
    ++ st.extractLsb' 0 3
  { x := (List.range 15).map fun i => vget s.x (i + 1) 0
    p := (List.range 3).map fun i => vget s.p (i + 1) 0
    s := s.s
    pc := link s.pc
    status := st.extractLsb' 25 39 ++ low
    v := (List.range 12).map fun i => vget s.v i 0
    srcRank := d.cur.1 - d.tpart.cfg.hbase
    srcSlot := d.cur.2
    home := home
    bad := false }

/-- The registers that a frame takes from the slot (R147), which are read for it (R54): FFLAGS, FRM, MOSH and UNOTE among them. -/
def frameUse : RegUse where
  rx := (List.range 15).map fun i => BitVec.ofNat 5 (i + 1)
  rv := (List.range 12).map (BitVec.ofNat 5)
  rp := [1, 2, 3]
  rs := (List.range 8).map (BitVec.ofNat 3)
  rcr := [0x05, 0x06, 0x0A, 0x16]

/-- The slot of a thread that arrives in a frame (R147). A home rank of a spilled frame that software made one of no core of the partition counts
as 0 (log entry 9). -/
def Frame.slot (f : Frame) (part hlen : Nat) (guest : Bool) : Slot :=
  let h := (f.status.extractLsb' 32 12).toNat
  { Slot.reset with
    occ := true, part := part
    x := Vector.ofFn fun i => if 1 ≤ i.val ∧ i.val ≤ 15 then f.x.getD (i.val - 1) 0 else 0
    p := Vector.ofFn fun i => if 1 ≤ i.val ∧ i.val ≤ 3 then f.p.getD (i.val - 1) 0 else 0
    v := Vector.ofFn fun i => f.v.getD i.val 0
    s := Vector.ofFn fun i => segClean (vget f.s i.val 0), pc := f.pc, guest := guest
    mode := f.status.getLsbD 0, uact := f.status.getLsbD 2
    npend := f.status.getLsbD 24, unote := (f.status.extractLsb' 17 7).setWidth 64
    fflags := f.status.extractLsb' 10 6, frm := f.status.extractLsb' 7 3, mosh := (f.status.extractLsb' 3 4).setWidth 64
    hrank := if h < hlen then h else 0, hslot := (f.status.extractLsb' 28 4).toNat }

/-- A guest slot of a core that no thread holds. -/
def Core.freeGuest (c : Core) : Option Nat :=
  (List.range 16).find? fun k => (c.slot k).isGuestSlot && !(c.slot k).occ && c.tasks.any fun t => !t.ended && t.guestSlots.contains k
def Core.hasGuests (c : Core) : Bool := c.tasks.any fun t => !t.ended && !t.guestSlots.isEmpty

/-- The partition ranks of a quad whose cores, saved or running, have guest slots, lowest first (R148, R151). -/
def Dev.guestRanks (d : Dev) (part q : Nat) : List Nat :=
  let c := (d.part part).cfg
  (((List.range 4).map (4 * q + ·)).filter fun r => decide (c.hbase ≤ r) && decide (r < c.hbase + c.hlen)
    && ((aget? (d.part part).ctx (r - c.hbase)).isSome || (d.core r).part == some part)
    && (d.rankCore part (r - c.hbase)).hasGuests).map (· - c.hbase)

/-- `migrate` (R290): the frame takes the flags, and the slot gathers those of matrix commands that complete later (R235). -/
def execMigrate (rd ra : RegNo) (s : State) : Host.Outcome State Fault Refusal :=
  s.thread { rx := [ra], wx := [rd] } fun d => do
    if !d.th.pend.isEmpty then park .pending
    else
      ensure d.th.lease.isNone .lease (d.x ra)
      let t ← d.translate { read := true, user := d.user, twinOk := true, remoteOk := true } ((d.x ra).toNat % 2 ^ 48)
      let (r, k) := d.cur
      let h := d.homeOf r k
      let part := d.th.part
      let stay (x : Word) : Chk Dev := .ok ((d.setX rd x).retire)
      let go (target : Nat) (home : Bool) : Chk Dev := do
        d.releaseNow .pkg
        if d.th.parityHit frameUse then .error .parity
        let f := d.frameOf rd home
        .ok (((d.send (.frame part target f)).modTh fun s => { s with fflags := 0 }).waitFor .migrate)
      if d.th.uact || t.remote then stay 1
      else
        let q := homeSlice t.leaf t.pa
        if q = h.1 / 4 then (if d.th.guest then go (h.1 - d.tpart.cfg.hbase) true else stay 0)
        else if q = r / 4 then stay 0
        else match d.guestRanks part q with
          | [] => stay 1
          | c :: cs => go (((c :: cs).find? fun r => (d.rankCore part r).freeGuest.isSome).getD c) false

end Sys2Proof.Machine
end

