-- ==== Sys2Proof/Machine/Sync.lean ====
section
/-! DEFINITION. Barriers (R284), mailbox instructions (R285, R143), `yield` (R289) and `upret` (R291). -/

namespace Sys2Proof.Machine

/-! ### Barriers -/

/-- The instance of a barrier scope that holds core `r`: its rank in the partition, its quad, its die quadrant, the module or the pod
group. -/
def Dev.barInst (d : Dev) (part r scope : Nat) : Nat :=
  match scope with
  | 0 => r - (d.part part).cfg.hbase
  | 1 => r / 4
  | 2 => r / 1024
  | _ => 0

/-- The memory scope of a barrier (R199). -/
def barMem : Nat → MemScope
  | 0 => .cr
  | 1 | 2 | 3 => .pkg
  | _ => .pod

/-- A barrier, before its first arrival at phase 0. -/
def Dev.barrier (d : Dev) (key : BarKey) : Barrier := (d.bars.find? (·.key == key)).getD ⟨key, 0, 0, 0⟩

def Dev.setBarrier (d : Dev) (b : Barrier) : Dev := { d with bars := (d.bars.filter fun x => !(x.key == b.key)) ++ [b] }

/-- Open barriers of a partition in one instance of a scope. -/
def Dev.openBars (d : Dev) (key : BarKey) : Nat :=
  (d.bars.filter fun b => decide (0 < b.arrived) && b.key.part == key.part && b.key.scope == key.scope && b.key.inst == key.inst).length

/-- Count an arrival: the first of a phase fixes the count, and the last completes the phase. -/
def Barrier.arrive (b : Barrier) (count : Nat) : Barrier :=
  let n := if b.arrived = 0 then max count 1 else b.count
  if n ≤ b.arrived + 1 then { b with phase := b.phase + 1, count := 0, arrived := 0 } else { b with count := n, arrived := b.arrived + 1 }

/-- Whether the phase that a thread waits for has completed. -/
def Dev.barDone (d : Dev) (key : BarKey) (phase : Nat) : Bool := (d.barrier key).phase != phase

/-- Whether an arrival waits before it is counted: it would open a 65th barrier in its instance of the scope. -/
def Dev.barFull (d : Dev) (key : BarKey) : Bool := (d.barrier key).arrived == 0 && decide (64 ≤ d.openBars key)

/-- `bar` of a scope: a release, the arrival, and a wait for the phase; the departure acquires. -/
def State.bar (scope : Nat) (ra rb : RegNo) (s : State) : Host.Outcome State Fault Refusal :=
  s.thread { rx := [ra, rb] } fun d =>
    let sc := barMem scope
    match d.th.wait with
    | .bar key phase => .ok (if d.barDone key phase then (d.acquire sc).retire else d)
    | _ => do
      d.releaseNow sc
      let part := d.th.part
      let key : BarKey := ⟨part, (d.x rb).toNat % 65536, scope, d.barInst part d.cur.1 scope⟩
      let b := d.barrier key
      if d.barFull key then park (.barOpen key)
      else
        let d := d.setBarrier (b.arrive ((d.x ra).toNat % 65536))
        .ok (if d.barDone key b.phase then (d.acquire sc).retire else d.waitFor (.bar key b.phase))

/-- `bar.cr` -/
def execBarCr (ra rb : RegNo) (s : State) := s.bar 0 ra rb
/-- `bar.qd` -/
def execBarQd (ra rb : RegNo) (s : State) := s.bar 1 ra rb
/-- `bar.die` -/
def execBarDie (ra rb : RegNo) (s : State) := s.bar 2 ra rb
/-- `bar.pkg` -/
def execBarPkg (ra rb : RegNo) (s : State) := s.bar 3 ra rb
/-- `bar.pod` -/
def execBarPod (ra rb : RegNo) (s : State) := s.bar 4 ra rb

/-- POD_BARRIER_ARRIVAL (R284): a thread of another module arrives at the pod barrier of partition `a` with tag `b` and count `c`. One that
would open a 65th barrier is not counted yet. -/
def execPodBarrierArrival (s : State) : Host.Outcome State Fault Refusal :=
  s.onDev fun d =>
    let key : BarKey := ⟨s.args.a, s.args.b % 65536, 4, 0⟩
    if d.barFull key then d else d.setBarrier ((d.barrier key).arrive (s.args.c % 65536))

/-! ### Mailboxes (R285) -/

/-- `mbxadd`: a release, then the tagged increment. It is no access and never parks, but for a tag (R187, R292): what it stands behind it
waits for on its way. -/
def execMbxadd (rd ra rb : RegNo) (s : State) : Host.Outcome State Fault Refusal :=
  s.thread { rx := [ra, rb], wx := [rd] } fun d => do
    let x := d.x ra
    let rank := (x.extractLsb' 0 12).toNat
    if x.extractLsb' 18 46 != 0 || decide (d.tpart.cfg.hlen ≤ rank) then .ok ((d.setX rd (reject stInvalid)).retire)
    else
      d.tagRoom
      let d := d.post d.cur.1 d.th.part rank (x.extractLsb' 12 6).toNat ((d.x rb).setWidth 32) (d.relGate ++ [d.gateNow .pkg]) (some (d.th.part, d.cur.1 - d.tpart.cfg.hbase, d.cur.2))
      .ok ((d.setX rd 0).retire)

/-- The condition of R143. -/
def mbxMet (counter target : HWord) : Bool := decide ((counter - target).toNat < 2 ^ 31)

/-- `mbxwait`: an acquire once the counter has reached the target. -/
def execMbxwait (ra rb : RegNo) (s : State) : Host.Outcome State Fault Refusal :=
  s.thread { rx := [ra, rb] } fun d =>
    let i := (d.x ra).toNat % 64
    let t : HWord := (d.x rb).setWidth 32
    if mbxMet (vget d.curCore.counters i 0) t then .ok ((d.acquire .pkg).retire) else park (.mbx i t)

/-- `mbxrd` -/
def execMbxrd (rd ra : RegNo) (s : State) : Host.Outcome State Fault Refusal :=
  s.thread { rx := [ra], wx := [rd] } fun d =>
    .ok ((d.setX rd ((vget d.curCore.counters ((d.x ra).toNat % 64) 0).setWidth 64)).retire)

/-! ### yield and upret -/

/-- `yield`: the next 16 cycles are lent. -/
def execYield (s : State) : Host.Outcome State Fault Refusal :=
  s.thread {} fun d =>
    let c := d.curCore.cycle.toNat
    .ok ((d.modTh fun t => { t with yieldUntil := c + 17 }).retire)

/-- YIELD_EXPIRY (R289): slot `b` of core `a` is eligible again once the 16 cycles have passed. -/
def execYieldExpiry (s : State) : Host.Outcome State Fault Refusal :=
  s.onDev fun d =>
    if (d.slot s.args.a s.args.b).yieldUntil ≤ (d.core s.args.a).cycle.toNat then
      d.modSlot s.args.a s.args.b fun t => { t with yieldUntil := 0 }
    else d

/-- `upret`: PC := UEPC and UACT := 0, with no wait for pending results. -/
def execUpret (s : State) : Host.Outcome State Fault Refusal :=
  s.thread { rcr := [0x13] } fun d => .ok (d.modTh fun t => (t.retireTo t.pc).leaveUpcall)

end Sys2Proof.Machine
end

