-- ==== Sys2Proof/Machine/Sched.lean ====
section
/-! DEFINITION. Steps of the dispatchers and cores (R96-R101, R107, R110, R111, R142, R148-R150): placement, reservation, messages that
arrive, the inbox, the spill area and the arbiter of slot owners. -/

namespace Sys2Proof.Machine

/-! ### Placement (R96-R100, R107) -/

/-- A frame at the head of an inbox that can be accepted. -/
def Core.frameReady (c : Core) (f : Frame) : Bool := f.home || c.freeGuest.isSome

def isLaunch : InboxMsg → Bool
  | .launch _ => true
  | .frame _ => false

/-- Whether a launch message waits first in a core's inbox (R101); frames that wait for a guest slot are passed (R150). -/
def Core.launchFirst (c : Core) : Bool :=
  match c.inbox with
  | .launch _ :: _ => true
  | .frame f :: rest => !c.frameReady f && rest.any isLaunch
  | [] => false

def Part.reserved (p : Part) (r : Nat) : Bool := p.resv.any fun v => decide (v.base ≤ r) && decide (r < v.base + v.len)

/-- What the dispatcher needs to start a task on partition rank `r`; `mine` when the run is reserved for its gang. -/
def Dev.dispatch (d : Dev) (part r : Nat) (x : Desc) (mine : Bool) : Option (List Nat × Nat) :=
  let p := d.part part
  if (d.core (p.devRank r)).launchFirst || (p.reserved r && !mine) then none else d.fit part (p.devRank r) x

/-- Occupied slots of a core, for PLACE spread. -/
def Core.usedSlots (c : Core) : Nat := ((List.range 16).filter c.slotTaken).length

/-- All of `n` consecutive ranks from `b` fit: rank, slots and base of each. -/
def Dev.fitRun (d : Dev) (part b n : Nat) (x : Desc) (mine : Bool) : Option (List (Nat × List Nat × Nat)) :=
  (List.range n).mapM fun i => (d.dispatch part (b + i) x mine).map fun f => (b + i, f.1, f.2)

/-- The bases that a gang tries (R98, R99). -/
def Part.gangBases (p : Part) (n : Nat) : List Nat :=
  let inside := (List.range (p.cfg.grlen + 1 - n)).map (p.cfg.grbase + ·)
  inside ++ (List.range (p.cfg.hlen + 1 - n)).filter fun b => !inside.contains b

/-- The ranks, slots and bases for the next tasks of a group by PLACE (R97, R98), or none. -/
def Dev.plan (d : Dev) (part : Nat) (g : Group) : Option (List (Nat × List Nat × Nat)) :=
  let p := d.part part
  let x := g.desc
  let one (r : Nat) : Option (Nat × List Nat × Nat) := (d.dispatch part r x false).map fun f => (r, f.1, f.2)
  let ranks := (List.range p.cfg.hlen).filter fun r => !p.inGang r
  match x.place with
  | 0 => (ranks.findSome? one).map fun f => [f]
  | 1 =>
    let key (f : Nat × List Nat × Nat) : Nat :=
      let turn := match g.lastRank with
        | some l => (f.1 + 2 * p.cfg.hlen - l - 1) % p.cfg.hlen
        | none => f.1
      (d.core (p.devRank f.1)).usedSlots * 8192 + turn
    ((ranks.filterMap one).foldl (fun acc f => match acc with
      | none => some f
      | some a => if key f < key a then some f else some a) none).map fun f => [f]
  | 2 => p.wholeQuads.findSome? fun q => d.fitRun part (4 * q - p.cfg.hbase) (min 4 (x.tasks - g.next)) x false
  | _ => match p.resv.filter (·.stream == x.queue) with
    | some v => d.fitRun part v.base x.tasks x true
    | none => (p.gangBases x.tasks).findSome? fun b => d.fitRun part b x.tasks x false

/-- The group at the head of a stream's placement queue. -/
def Part.headGroup (p : Part) (q : Nat) : Option Group :=
  match (aget? p.queues q).getD [] with
  | g :: _ => aget? p.groups g
  | [] => none

/-- Start the planned tasks of the head of stream `q`. -/
def Dev.startPlan (d : Dev) (part q : Nat) (g : Group) (plan : List (Nat × List Nat × Nat)) : Dev :=
  let n := plan.length
  let d := plan.zipIdx.foldl (fun d f => d.startTask part ((d.part part).devRank f.1.1) g.id (g.next + f.2) f.1.2.1 f.1.2.2) d
  let d := d.modGroup part g.id fun g => { g with next := g.next + n, live := g.live + n }
  d.modPart part fun p =>
    { p with
      stream := q
      queues := if g.desc.tasks ≤ g.next + n then aset p.queues q (((aget? p.queues q).getD []).drop 1) else p.queues
      resv := p.resv.filter fun v => !(g.desc.place == 3 && v.stream == q) }

/-- Whether a planned start waits: a line of the `.local` image is held for one of its cores (R205). -/
def Dev.planHeld (d : Dev) (part : Nat) (g : Group) (plan : List (Nat × List Nat × Nat)) : Bool :=
  plan.any fun f => d.imageHeld part ((d.part part).devRank f.1) g

/-- The next task of the DET list of rank `r` (R107), once no task runs on the core. -/
def Dev.placeDet (d : Dev) (part r : Nat) : Dev :=
  let p := d.part part
  match (aget? p.det r).getD [] with
  | (gid, i) :: rest =>
    match aget? p.groups gid with
    | some g =>
      if (d.core (p.devRank r)).tasks.any (!·.ended) then d
      else match d.fit part (p.devRank r) g.desc with
        | some (slots, b) =>
          if d.imageHeld part (p.devRank r) g then d
          else (d.startTask part (p.devRank r) gid i slots b).modPart part fun p => { p with det := aset p.det r rest }
        | none => d
    | none => d
  | [] => d

/-- TASK_PLACEMENT (R96): the dispatcher of partition `a` starts the next placeable task, serving the streams in turn; in a DET partition the
next task of the list of rank `b`. -/
def execTaskPlacement (s : State) : Host.Outcome State Fault Refusal :=
  s.onDev fun d =>
    let part := s.args.a
    let p := d.part part
    if p.st != .resident then d
    else if p.cfg.det then d.placeDet part s.args.b
    else
      let order := (List.range 8).map fun i => (p.stream + 1 + i) % 8
      let next := order.findSome? fun q => match p.headGroup q with
        | some g => (d.plan part g).map fun f => (q, g, f)
        | none => none
      match next with
      | some (q, g, f) => if d.planHeld part g f then d else d.startPlan part q g f
      | none => d

/-- The smallest power of two that is not below `n` (structural on the fuel). -/
def powAbove (n : Nat) : Nat → Nat
  | 0 => 1
  | k + 1 => if n ≤ 2 ^ (12 - k) then 2 ^ (12 - k) else powAbove n k

/-- Tasks on a core that have run for longer than the gang-wait limit, in the core's cycles. -/
def Dev.longLived (d : Dev) (r : Nat) : Nat :=
  let c := d.core r
  (c.tasks.filter fun t => !t.ended && decide (d.gangWait * 1250000 < c.cycle.toNat - t.startedAt)).length

/-- The run that a reservation takes (R100): the fewest long-lived occupants, the lowest base. -/
def Dev.reserveRun (d : Dev) (part n : Nat) : Option Nat :=
  let p := d.part part
  let step := powAbove n 13
  let bases := ((List.range 4096).map (step * ·)).filter fun b => decide (b + n ≤ p.cfg.hlen)
  let load (b : Nat) : Nat := ((List.range n).map fun i => d.longLived (p.devRank (b + i))).foldl (· + ·) 0
  bases.foldl (fun acc b => match acc with
    | none => some b
    | some a => if load b < load a then some b else some a) none

/-- GANG_RESERVATION (R100): the gang at the head of stream `b` of partition `a` has waited past the gang-wait limit. -/
def execGangReservation (s : State) : Host.Outcome State Fault Refusal :=
  s.onDev fun d =>
    let part := s.args.a
    let p := d.part part
    match p.headGroup s.args.b with
    | some g =>
      if g.desc.place = 3 && p.resv.isNone && p.st == .resident && !p.cfg.det && (d.plan part g).isNone then
        match d.reserveRun part g.desc.tasks with
        | some b => d.modPart part fun p => { p with resv := some ⟨s.args.b, b, g.desc.tasks⟩ }
        | none => d
      else d
    | none => d

/-! ### Messages that arrive -/

/-- A message in flight whose gates are open and which has its tag (R274), by its number. -/
def Dev.arrived (d : Dev) (n : Nat) : Option Msg :=
  match aget? d.net n with
  | some m => if m.gates.all d.gateOpen && d.tagged m.msg then some m.msg else none
  | none => none

/-- A partition that can take messages: one that has been scheduled and not stopped. -/
def Dev.partLive (d : Dev) (part : Nat) : Bool := (d.part part).st != .stopped

/-- Whether a partition rank stands on a core that was lost with its die and that no spare has replaced (R39). -/
def Dev.lostRank (d : Dev) (part rank : Nat) : Bool :=
  (aget? (d.part part).ctx rank).isNone && (d.core ((d.part part).devRank rank)).lost

/-- A task of a group is lost with the die of device rank `r` (R39): its join increment is made, a record is written, and the group counts
it. -/
def Dev.countLost (d : Dev) (part r gid : Nat) (x : Desc) : Dev :=
  let d := if x.jen then d.post srcLoss part x.jrank x.jidx 1 else d
  let d := d.logPart part ⟨0x0B, d.dieOf r, 0, 0, 3, r, 15, gid, 1⟩
  (d.modGroup part gid fun g => { g with lost := g.lost + 1 }).groupTaskEnd part gid []

/-- A launch message that a lost inbox held or meets: its task is lost. -/
def Dev.loseLaunch (d : Dev) (part r gid : Nat) : Dev :=
  match aget? (d.part part).groups gid with
  | some g => d.countLost part r gid g.desc
  | none => d

/-- The core and slot of a thread by its partition, partition rank and slot there; none while it is on its way to another core or saved. -/
def Dev.threadAt (d : Dev) (t : Nat × Nat × Nat) : Option (Nat × Nat) :=
  if 16 ≤ t.2.2 || (aget? (d.part t.1).ctx t.2.1).isSome then none else some ((d.part t.1).devRank t.2.1, t.2.2)

/-- DATAERR at its next boundary for the thread of a message that got no answer (R39, R275), if it has not ended; none while it is on its way or
saved: the error waits for it. -/
def Dev.bounce (d : Dev) (t : Option (Nat × Nat × Nat)) : Option Dev := match t with
  | none => some d
  | some t => (d.threadAt t).map fun p => d.modSlot p.1 p.2 (Slot.deferErr ⟨.dataerr, 0⟩)

/-- Words as a little-endian value. -/
def wordsNat : List Word → Nat
  | [] => 0
  | w :: t => w.toNat + 2 ^ 64 * wordsNat t

/-- The entries of the launch overflow ring in the context block of a partition rank (R112). -/
def Part.ringAt (p : Part) (prank entry : Nat) : Nat := p.cfg.ctxbase + 0x100000 * prank + 0xC0000 + 64 * entry

/-- The 64 bytes of a launch message in the ring, as a value: the spec does not give their layout, and they are free values (log entry 9). -/
def RingMsg.val (m : RingMsg) : Nat := wordsNat ((List.range 8).map fun i => Config.freeWord (m.fill + i))

/-- A launch message is written into the next entry of the ring. -/
def ringPut (part rank gid : Nat) : Eng Unit := do
  let d ← get
  let m : RingMsg := ⟨gid, (((d.rankCore part rank).overflow.getLast?).map fun m => (m.entry + 1) % 512).getD 0, d.freeCtr⟩
  Eng.upd fun d => { d with freeCtr := d.freeCtr + 8 }
  agWrite ((d.part part).ringAt rank m.entry) 64 m.val part
  Eng.upd fun d => d.modRank part rank fun c => { c with overflow := c.overflow ++ [m] }

/-- The oldest message of the ring moves up into the inbox. The group of one whose bytes software has changed is a free value (log entry 9); so is
that of a poisoned one, which is recorded (R54). -/
def ringTake (part rank : Nat) : Eng Unit := do
  let d ← get
  match (d.rankCore part rank).overflow with
  | [] => pure ()
  | m :: rest =>
    let at_ := (d.part part).ringAt rank m.entry
    let bad := (d.rangeHeld at_ 64).isNone && d.rangePoisoned at_ 64
    let x ← if bad then pure 0 else agRead at_ 64 part
    Eng.upd fun d =>
      let d := if bad then d.logAgentPoison part (homeSlice 0 at_) at_ else d
      let (w, d) := if bad || x != m.val then d.free else (BitVec.ofNat 64 m.group, d)
      d.modRank part rank fun c => { c with inbox := c.inbox ++ [.launch (w.toNat % 65536)], overflow := rest }

/-- The overflow ring moves up as far as the inbox has room (R101), at most `n` messages; a held line of it is waited for (R205). -/
def Dev.ringUp (d : Dev) (part rank : Nat) : Nat → Dev
  | 0 => d
  | n + 1 =>
    let c := d.rankCore part rank
    if 32 ≤ c.inbox.length || c.overflow.isEmpty then d
    else match ringTake part rank d with
      | .ok (_, d) => d.ringUp part rank n
      | .error _ => d

/-- LAUNCH_MESSAGE_ARRIVAL (R101): message `a` reaches its core's inbox, or the overflow ring when that is full. -/
def execLaunchMessageArrival (s : State) : Host.Outcome State Fault Refusal :=
  s.onDev fun d => match d.arrived s.args.a with
    | some (.launch part rank gid) =>
      let gone := { d with net := adel d.net s.args.a }
      let c := d.rankCore part rank
      if !d.partLive part then gone
      else if d.lostRank part rank then
        ((gone.loseLaunch part ((d.part part).devRank rank) gid).bounce ((aget? d.net s.args.a).bind (·.thread))).getD d
      else if c.inbox.length < 32 && c.overflow.isEmpty then gone.modRank part rank fun c => { c with inbox := c.inbox ++ [.launch gid] }
      else if c.overflow.length < 512 then
        match ringPut part rank gid gone with
        | .ok (_, d) => d
        | .error _ => d
      else d
    | _ => d

/-! ### Frames (R147-R151) -/

/-- The 1,056 bytes of a frame (R147), as a value. -/
def Frame.nat (f : Frame) : Nat :=
  let segs := (List.range 8).flatMap fun i => let g := vget f.s i 0; [g.extractLsb' 0 64, g.extractLsb' 64 64]
  let head := wordsNat (f.x ++ f.p ++ segs ++ [f.pc, f.status])
  f.v.zipIdx.foldl (fun acc p => acc + p.1.toNat * 2 ^ (8 * 0x120 + 512 * p.2)) head

def frameWord (x k : Nat) : Word := BitVec.ofNat 64 (x / 2 ^ (64 * k))

/-- A frame from its bytes, at partition rank `rank`. -/
def frameOfNat (x rank : Nat) : Frame where
  x := (List.range 15).map (frameWord x)
  p := (List.range 3).map fun i => frameWord x (15 + i)
  s := Vector.ofFn fun i => frameWord x (19 + 2 * i.val) ++ frameWord x (18 + 2 * i.val)
  pc := frameWord x 34
  status := frameWord x 35
  v := (List.range 12).map fun i => BitVec.ofNat 512 (x / 2 ^ (8 * 0x120 + 512 * i))
  srcRank := 0
  srcSlot := 0
  home := ((frameWord x 35).extractLsb' 32 12).toNat == rank
  bad := false

/-- The source slot of an accepted frame (R149): a home slot is held as away, with what the core keeps for the thread and the flags of matrix
commands that completed meanwhile (R235); a guest slot is empty, and its scratch is discarded. -/
def Dev.leaveSlot (d : Dev) (r k : Nat) : Dev :=
  let s := d.slot r k
  if s.guest then
    let gone := ((d.core r).hostTask k).any (·.1.ended)
    let d := d.modCore r fun c => match c.hostTask k with
      | some (t, i) =>
        let lo := t.origin + t.s + t.t + 8192 * i
        { c with lmem := c.lmem.filter fun p => !(decide (lo ≤ p.1) && decide (p.1 < lo + 8192)) }.clearSlot k
      | none => c.clearSlot k
    if gone then d.reap r else d
  else d.modSlot r k fun s => { s.vacate with
    away := true, mxerr := s.mxerr, copyFaults := s.copyFaults, copyIrqs := s.copyIrqs, heldBuf := s.heldBuf, claimed := s.claimed }

/-- Change every gate that something on its way, an ended thread or a task waits for. -/
def Dev.mapGates (d : Dev) (f : Gate → Gate) : Dev :=
  let core (c : Core) : Core := { c with tasks := c.tasks.map fun t => { t with gates := t.gates.map f } }
  { d with
    net := d.net.map fun m => (m.1, { m.2 with gates := m.2.gates.map f })
    remote := d.remote.map fun u => (u.1, { u.2 with gate := u.2.gate.map f })
    ended := d.ended.map fun e => { e with gates := e.gates.map f }
    cores := d.cores.map fun c => (c.1, core c.2)
    parts := d.parts.map fun p => (p.1, { p.2 with
      groups := p.2.groups.map fun g => (g.1, { g.2 with gates := g.2.gates.map f })
      ctx := p.2.ctx.map fun c => (c.1, { c.2 with core := core c.2.core }) }) }

/-- What is on its way for a thread follows it from one partition rank and slot to another: its accesses to other modules (R213), the releases that
wait for them (R194), and the messages whose errors are its own (R275). While its frame is on its way or waits, the slot is a number that no
slot has, which the frame carries. -/
def Dev.moveRemote (d : Dev) (part : Nat) (a b : Nat × Nat) : Dev :=
  let id (t : Option (Nat × Nat × Nat)) : Option (Nat × Nat × Nat) := if t == some (part, a.1, a.2) then some (part, b.1, b.2) else t
  let d := d.mapGates fun g => if g.part == part && g.prank == a.1 && g.slot == a.2 then { g with prank := b.1, slot := b.2 } else g
  { d with
    remote := d.remote.map fun p =>
      if p.2.part == part && p.2.prank == a.1 && p.2.slot == a.2 && p.2.chan.isNone then
        (p.1, { p.2 with rank := (d.part part).devRank b.1, prank := b.1, slot := b.2 }) else p
    net := d.net.map fun m => (m.1, { m.2 with thread := id m.2.thread })
    cores := d.cores.map fun c => (c.1, { c.2 with out := c.2.out.map fun o => (o.1, { o.2 with thread := id o.2.thread }) }) }

/-- The numbers that stand for the slot of a thread whose frame waits in an inbox, by its message, or in a spill record, by its SEQ. -/
def inboxKey (n : Nat) : Nat := 17 + 2 * n
def spillKey (seq : Nat) : Nat := 18 + 2 * seq

/-- Records of the spill area. -/
def Part.spillCount (p : Part) : Nat := 32 * p.cfg.spilllen
def Part.spillAt (p : Part) (i : Nat) : Nat := p.cfg.spillbase + 2048 * i

/-- Word 0 of a spill record: a poisoned one is recorded and read as no record (R54). -/
def spillHead (part at_ : Nat) : Eng (Option Nat) := do
  let d ← get
  if (d.rangeHeld at_ 8).isNone && d.rangePoisoned at_ 8 then
    Eng.upd fun d => d.logAgentPoison part (homeSlice 0 at_) at_
    pure none
  else pure (some (← agRead at_ 8 part))

/-- The lowest spill record that is not valid, of `n` from record `i` (structural on `n`). -/
def freeSpill (part i : Nat) : Nat → Eng (Option Nat)
  | 0 => pure none
  | n + 1 => do
    match ← spillHead part (((← get).part part).spillAt i) with
    | some x => if x / 2 ^ 63 % 2 = 0 then pure (some i) else freeSpill part (i + 1) n
    | none => freeSpill part (i + 1) n

/-- The valid records for a target rank, of `n` from record `i`, with their SEQ. -/
def spillsOf (part rank i : Nat) : Nat → Eng (List (Nat × Nat))
  | 0 => pure []
  | n + 1 => do
    let x ← spillHead part (((← get).part part).spillAt i)
    let rest ← spillsOf part rank (i + 1) n
    pure (match x with
      | some x => if x / 2 ^ 63 % 2 = 1 ∧ x % 4096 = rank then (i, x / 4096 % 2 ^ 32) :: rest else rest
      | none => rest)

/-- The frame is written into the lowest free record, whole, with SEQ as the arrival sequence of its target (R150); false when none is free. -/
def spillFrame (part rank : Nat) (f : Frame) : Eng Bool := do
  let p := (← get).part part
  match ← freeSpill part 0 p.spillCount with
  | some i =>
    let seq : HWord := (aget? p.spillSeq rank).getD 0
    agWrite (p.spillAt i) 2048 (2 ^ 63 + seq.toNat * 4096 + rank + f.nat * 2 ^ (8 * 128)) part
    Eng.upd fun d => ((d.modPart part fun p => { p with spillSeq := aset p.spillSeq rank (seq + 1) }).modRank part rank fun c =>
      { c with spilled := c.spilled + 1 }).moveRemote part (f.srcRank, f.srcSlot) (rank, spillKey seq.toNat)
    pure true
  | none => pure false

/-- MIGRATION_FRAME_ARRIVAL (R148-R150): frame `a` enters its target's inbox, or the spill area, and frees its source slot; with neither it
goes back, and the `migrate` raises MIGRATE. -/
def execMigrationFrameArrival (s : State) : Host.Outcome State Fault Refusal :=
  s.onDev fun d => match d.arrived s.args.a with
    | some (.frame part rank f) =>
      let gone := { d with net := adel d.net s.args.a }
      let c := d.rankCore part rank
      let src := (d.part part).devRank f.srcRank
      let back (cause : Cause) : Dev := (gone.modSlot src f.srcSlot fun s => { s with fflags := s.fflags ||| f.status.extractLsb' 10 6 }).trap
        src f.srcSlot ⟨cause, 0⟩
      if !d.partLive part then gone
      else if d.lostRank part rank then back .dataerr
      else if c.inbox.length < 32 && c.spilled == 0 then
        let key := inboxKey s.args.a
        ((gone.modRank part rank fun c => { c with inbox := c.inbox ++ [.frame { f with srcSlot := key }] }).leaveSlot src f.srcSlot).moveRemote
          part (f.srcRank, f.srcSlot) (f.srcRank, key)
      else match spillFrame part rank f gone with
        | .ok (true, d) => d.leaveSlot src f.srcSlot
        | .ok (false, _) => back .migrate
        | .error _ => d
    | _ => d

/-- Core `r` takes its spilled frame with the lowest SEQ. -/
def takeSpill (part r rank : Nat) : Eng Unit := do
  let p := (← get).part part
  let recs ← spillsOf part rank 0 p.spillCount
  match recs.foldl (fun (acc : Option (Nat × Nat)) q => match acc with
      | none => some q
      | some a => if q.2 < a.2 then some q else some a) none with
  | some (i, seq) =>
    let at_ := p.spillAt i
    let d ← get
    match d.rangeHeld at_ 2048 with
    | some l => Eng.stop (.hold (some l) true)
    | none =>
      let bad := d.rangePoisoned (at_ + 128) 1056
      Eng.upd fun d =>
        let d := if bad then d.logAgentPoison part (homeSlice 0 (at_ + 128)) (at_ + 128) else d
        let (y, d) := d.agentRead (at_ + 128) 1056 part noLeaf noPage
        let d := d.agentWrite at_ 8 (seq * 4096 + rank) part noLeaf noPage
        d.modCore r fun c => { c with spilled := c.spilled - 1, inbox := c.inbox ++ [.frame { frameOfNat y rank with srcRank := rank, srcSlot := spillKey seq, bad := bad }] }
  | none => pure ()

/-- SPILL_DRAIN (R150): core `a` has a free inbox entry and takes a spilled frame. -/
def execSpillDrain (s : State) : Host.Outcome State Fault Refusal :=
  s.onDev fun d =>
    let r := s.args.a
    let c := d.core r
    match c.part with
    | some part =>
      if c.inbox.length < 32 && 0 < c.spilled && !c.saving then
        match takeSpill part r (r - (d.part part).cfg.hbase) d with
        | .ok (_, d) => d
        | .error _ => d
      else d
    | none => d

/-- The slot that a frame takes on a core: its home slot, or a free guest slot. -/
def Core.frameSlot (c : Core) (f : Frame) : Option Nat := if f.home then some (f.status.extractLsb' 28 4).toNat else c.freeGuest

/-- A frame is accepted on core `r`: into its home slot, or into a free guest slot whose scratch is zero; the thread's first instruction
acquires (R151). Bytes that came from a poisoned record are DATAERR for the thread (R54). -/
def Dev.acceptFrame (d : Dev) (part r : Nat) (f : Frame) : Dev :=
  match (d.core r).frameSlot f with
  | none => d
  | some k =>
    let hlen := (d.part part).cfg.hlen
    let n := f.slot part hlen (!f.home)
    let n := if f.bad then n.deferErr ⟨.dataerr, 0⟩ else n
    let d := d.moveRemote part (f.srcRank, f.srcSlot) (r - (d.part part).cfg.hbase, k)
    d.modCore r fun c =>
      let c := { c with l1d := [] }
      let old := c.slot k
      if f.home then
        c.setSlot k { n with
          fflags := n.fflags ||| old.fflags, mxerr := old.mxerr, copyFaults := old.copyFaults, copyIrqs := old.copyIrqs
          heldBuf := old.heldBuf, claimed := old.claimed }
      else
        let c := match c.hostTask k with
          | some (t, i) =>
            let lo := t.origin + t.s + t.t + 8192 * i
            { c with
              lmem := c.lmem.filter fun p => !(decide (lo ≤ p.1) && decide (p.1 < lo + 8192))
              badLmem := c.cleanLmem lo 8192 }
          | none => c
        c.setSlot k { n with isGuestSlot := true }

/-- Remove the first message that satisfies a condition. -/
def dropFirst (f : InboxMsg → Bool) : List InboxMsg → List InboxMsg
  | [] => []
  | m :: t => if f m then t else m :: dropFirst f t

/-- An inbox entry frees. -/
def Core.popInbox (c : Core) (m : InboxMsg) : Core := { c with inbox := dropFirst (· == m) c.inbox }

/-- The launch message of a group is taken when its task fits (R101, R102). -/
def Dev.takeLaunch (d : Dev) (part r gid : Nat) : Dev :=
  match aget? (d.part part).groups gid with
  | none => d.modCore r fun c => c.popInbox (.launch gid)
  | some g => match d.fit part r g.desc with
    | some (slots, b) =>
      if d.imageHeld part r g then d else (d.modCore r fun c => c.popInbox (.launch gid)).startTask part r gid 0 slots b
    | none => d

/-- Core `r` takes the first message of its inbox for which there is room. -/
def Dev.takeFirst (d : Dev) (part r : Nat) : Dev :=
  let c := d.core r
  match c.inbox with
  | .launch g :: _ => d.takeLaunch part r g
  | .frame f :: rest =>
    if c.frameReady f then (d.modCore r fun c => c.popInbox (.frame f)).acceptFrame part r f
    else match rest.find? isLaunch with
      | some (.launch g) => d.takeLaunch part r g
      | some (.frame _) | none => d
  | [] => d

/-- INBOX_TAKE (R101): core `a` takes its first message for which there is room, and the overflow ring moves up. -/
def execInboxTake (s : State) : Host.Outcome State Fault Refusal :=
  s.onDev fun d =>
    let r := s.args.a
    let c := d.core r
    match c.part with
    | some part =>
      if c.saving then d
      else
        let prank := r - (d.part part).cfg.hbase
        ((d.ringUp part prank 32).takeFirst part r).ringUp part prank 32
    | none => d

/-! ### Increments (R142, R117) -/

/-- Add a parked increment: into the record of its counter, or as a new one, whose tag has been answered. -/
def parkIncr (part rank idx : Nat) (inc : HWord) : List Msg → List Msg
  | [] => [.incr part rank idx inc (0, 0)]
  | .incr p r i x t :: rest => if i = idx then .incr p r i (x + inc) t :: rest else .incr p r i x t :: parkIncr part rank idx inc rest
  | m :: rest => m :: parkIncr part rank idx inc rest

/-- An increment is applied to a counter: the threads of the core in `wfi` go on (R376), and a thread in `mbxwait` whose condition the new
value meets goes on with its acquire (R143, R285). -/
def Core.applyIncr (c : Core) (idx : Nat) (inc : HWord) : Core :=
  let n := vget c.counters idx 0 + inc
  let met (s : Slot) : Bool := match s.wait with
    | .mbx i t => i == idx && mbxMet n t
    | _ => false
  let wakes (s : Slot) : Bool := met s || (match s.wait with
    | .wfi _ => true
    | _ => false)
  { c with
    counters := vset c.counters idx n
    l1d := if c.slots.toList.any met then [] else c.l1d
    slots := c.slots.map fun s => if wakes s then s.retireTo (link s.pc) else s }

/-- The number of the core of a partition rank as the receiver of tags (R274). -/
def tagCore (part rank : Nat) : Nat := 1024 + 4096 * part + rank

/-- The tag of an increment is answered by its receiver (R274): true when that had applied it before. -/
def Dev.answerTag (d : Dev) (recv : Nat) (tag : Nat × Nat) : Bool × Dev :=
  let old := (d.tagSeen recv tag.1 tag.2).isSome
  let d := d.modCore tag.1 fun c => { c with out := adel c.out tag.2 }
  (old, if old then d else d.recordTag recv tag.1 tag.2 0)

/-- MAILBOX_INCREMENT (R142): increment `a` reaches its core, or its core's parked records (R117). -/
def execMailboxIncrement (s : State) : Host.Outcome State Fault Refusal :=
  s.onDev fun before => match before.arrived s.args.a with
    | some (.incr part rank idx inc tag) =>
      let d := { before with net := adel before.net s.args.a }
      let from_ := (aget? (d.core tag.1).out tag.2).bind (·.thread)
      let (old, d) := d.answerTag (tagCore part rank) tag
      if old || !d.partLive part then d
      else if d.lostRank part rank then (d.bounce from_).getD before
      else match aget? (d.part part).ctx rank with
        | some c => d.modPart part fun p => { p with ctx := aset p.ctx rank { c with parked := parkIncr part rank idx inc c.parked } }
        | none => d.modCore ((d.part part).devRank rank) fun c => c.applyIncr idx inc
    | _ => before

/-! ### Slot owners (R111) -/

/-- The streams for which slot `k` of core `r` is occupied (R111): that of the task whose thread it holds, at home, away or as a guest, and for a
guest slot that of its host task. -/
def Dev.slotStreams (d : Dev) (r k : Nat) : List Nat :=
  let c := d.core r
  let s := c.slot k
  let host := if s.isGuestSlot then (c.hostTask k).map (·.1) else if s.away then c.taskOf k else none
  let own := if s.occ then d.task r k else none
  (host.toList ++ own.toList).map (·.desc.queue)

/-- The streams that have demand on core `r`. -/
def Dev.demand (d : Dev) (part r : Nat) : List Nat :=
  let p := d.part part
  let c := d.core r
  (List.range 8).filter fun q =>
    ((List.range 16).any fun k => (c.slot k).occ && (d.task r k).any (·.desc.queue == q)) || p.streamWaits c q

/-- The targets of step 2, by stream. -/
def slotTargets (w : List Nat) (demand : List Nat) : List Nat :=
  let zero := demand.all fun q => w.getD q 0 == 0
  let wt (q : Nat) : Nat := if demand.contains q then (if zero then 1 else w.getD q 0) else 0
  let total := ((List.range 8).map wt).foldl (· + ·) 0
  let base := (List.range 8).map fun q => 16 * wt q / total
  let left := 16 - base.foldl (· + ·) 0
  let before (a b : Nat) : Bool := decide (16 * wt b % total < 16 * wt a % total) || (16 * wt a % total == 16 * wt b % total && decide (a < b))
  (List.range 8).map fun q =>
    base.getD q 0 + (if demand.contains q && decide ((demand.filter fun a => before a q).length < left) then 1 else 0)

/-- The owners after an arbiter pass, with the streams for which each slot is occupied: what each stream keeps, and then the rest to the streams below their targets. -/
def Core.newOwners (c : Core) (streams : Nat → List Nat) (targets : List Nat) : List Nat :=
  let kept (q : Nat) : List Nat :=
    let own := (List.range 16).filter fun k => vget c.qown k 0 == q
    let occ := own.filter fun k => (streams k).contains q
    (occ ++ own.filter fun k => !occ.contains k).take (targets.getD q 0)
  let keep := (List.range 8).map kept
  let rest := (List.range 16).filter fun k => !keep.any (·.contains k)
  let wants := (List.range 8).flatMap fun q => List.replicate (targets.getD q 0 - (keep.getD q []).length) q
  let given := rest.zip wants
  (List.range 16).map fun k => match (List.range 8).find? fun q => (keep.getD q []).contains k with
    | some q => q
    | none => ((given.find? fun p => p.1 == k).map (·.2)).getD (vget c.qown k 0)

/-- ARBITER_PASS (R111) on core `a`. -/
def execArbiterPass (s : State) : Host.Outcome State Fault Refusal :=
  s.onDev fun d =>
    let r := s.args.a
    let c := d.core r
    match c.part with
    | some part =>
      let q := d.demand part r
      if q.isEmpty then d
      else
        let own := c.newOwners (d.slotStreams r) (slotTargets (d.part part).cfg.slotwt q)
        d.modCore r fun c => { c with qown := Vector.ofFn fun i => own.getD i.val 0 }
    | none => d

end Sys2Proof.Machine
end

