-- ==== Sys2Proof/Machine/HomeSteps.lean ====
section
/-! DEFINITION. The steps of the walkers and of what fills, and the arrival of what a thread waits for: stash fills and recalls (R131, R133),
results and deferred traps (R248, R250), page walks (R160), fetch lines (R122), tags (R274, R275, R368), tier notifications (R178-R180), and
requests to and from other modules (R41-R43). -/

namespace Sys2Proof.Machine

/-! ### Walks, fills and fetch lines -/

/-- A walker of quad `q` completes the walk of a page for a partition, if one is under way. -/
def Dev.walkTurn (d : Dev) (q part page : Nat) : Dev := if (d.quad q).coal.contains (part, page) then d.completeWalk q part page else d

/-- PAGE_WALK (R160): a walker of quad `a` completes the walk of page `c` for partition `b`. -/
def execPageWalk (s : State) : Host.Outcome State Fault Refusal := s.onDev fun d => d.walkTurn s.args.a s.args.b s.args.c

/-- The slots of a core whose wait satisfies a condition. -/
def Core.waiters (c : Core) (f : Wait → Bool) : List Nat := (List.range 16).filter fun k => (c.slot k).occ && f (c.slot k).wait

/-- The slots of core `r` in `ks` execute their instructions again. -/
def Dev.wake (d : Dev) (r : Nat) (ks : List Nat) : Dev := ks.foldl (fun d k => d.modSlot r k fun s => { s with wait := .none }) d

/-- The parked accesses to an entry whose fill stops: they fault, trap, or wait on with the fill in the home queue of its line. -/
def Dev.fillStop (d : Dev) (r i : Nat) (ks : List Nat) : EStop → Dev
  | .wait g w => ks.foldl (fun d k => d.pageFault r k g w false) d
  | .hold l w => d.queueHeld r (((aget? (d.core r).stash i).map (·.part)).getD 0) l (.fill i) w
  | .fail c g =>
    ks.foldl (fun d k => (if c = .dataerr then d.logPoison (d.slot r k).part r k g else d).trap r k ⟨c, BitVec.ofNat 64 g⟩) d
  | .refused g | .far g _ _ _ => ks.foldl (fun d k => d.trap r k ⟨.dataerr, BitVec.ofNat 64 g⟩) d
  | .poison lo _ => ks.foldl (fun d k => d.trap r k ⟨.dataerr, BitVec.ofNat 64 lo⟩) d

/-- The line of entry `i` of core `r` arrives with its registration, and the parked accesses go on. -/
def Dev.stashFill (d : Dev) (r i : Nat) : Dev :=
  let ks := (d.core r).waiters (· == .stash i)
  match fillEntry r i d with
  | .ok (_, d) => d.wake r ks
  | .error e => d.fillStop r i ks e

/-- STASH_FILL (R131, R272): entry `b` of core `a`. A page that is not resident is a fault of each parked access, and an error a trap of
it. -/
def execStashFill (s : State) : Host.Outcome State Fault Refusal := s.onDev fun d => d.stashFill s.args.a s.args.b

/-- Fetch line `line` arrives at core `r`. A held line is waited for in its home queue; a poisoned one is DATAERR for each slot that fetches it
(R54). -/
def Dev.ifetchFill (d : Dev) (r line : Nat) : Dev :=
  let ks := (d.core r).waiters (· == .fetch line)
  let at_ (k : Nat) : Nat := let t := d.slot r k; segBase (t.seg 7) + t.pc.toNat
  match ks with
  | [] => d
  | k :: _ =>
    let part := (d.slot r k).part
    if d.lineHeld line then d.queueAgent r part line .ifetch false
    else if d.poisoned line then
      ks.foldl (fun d k =>
        (d.logPoison (d.slot r k).part r k (at_ k)).trap r k ⟨.dataerr, BitVec.ofNat 64 (at_ k)⟩) d
    else
      let e := d.tlbFind r part (at_ k / 65536)
      let leaf := (e.map (·.leaf)).getD noLeaf
      let d := (d.prepare line).touch line (homeSlice leaf (128 * line)) part (leafClass leaf) ⟨at_ k / 65536, (e.map (·.large)).getD false⟩ false
      (d.l1iPut r line (d.lineNow line)).wake r ks

/-- IFETCH_FILL (R122): fetch line `b` arrives at core `a`. -/
def execIfetchFill (s : State) : Host.Outcome State Fault Refusal := s.onDev fun d => d.ifetchFill s.args.a s.args.b

/-! ### Recalls -/

/-- UPDATE_COPY_RETURN (R278): the update-only copy of line `b` returns from core `a` when that has a tag for it (R274), and the home combines the
returns of the line. -/
def execUpdateCopyReturn (s : State) : Host.Outcome State Fault Refusal :=
  s.onDev fun d => (if (d.core s.args.a).tagFree then d.sendBack s.args.a s.args.b else d).applyBacks s.args.b

/-- Whether a request makes the home recall a registration (R133). -/
def ReqKind.recalls : ReqKind → Bool
  | .amo _ _ _ _ _ _ _ | .lease _ _ | .satom _ _ _ => true
  | .load _ _ _ _ _ | .store _ | .unlease _ _ _ | .sverNext _ _ | .sverNum _ _ _ | .lver _ _ _ _ | .pver _ _ _ | .rver _ _ | .uocBack _
  | .red _ _ _ _ | .agent _ _ => false

/-- STASH_RECALL (R133): the home of line `a` recalls its registration for a request that waits. -/
def execStashRecall (s : State) : Host.Outcome State Fault Refusal :=
  s.onDev fun d => if d.homeQ.any fun q => q.line == s.args.a && q.kind.recalls then d.recallStash s.args.a else d

/-! ### Results and deferred traps (R248, R250) -/

/-- RESULT_ARRIVAL (R248): result `c` of slot `b` of core `a` arrives, once every part of it has been answered. -/
def execResultArrival (s : State) : Host.Outcome State Fault Refusal :=
  s.onDev fun d => d.modSlot s.args.a s.args.b fun t => t.arriveResult s.args.c

/-- The trap that a slot takes before anything else at its boundary (R250), once no result is pending. A slot for which a walk is under way stands
at none (R387). -/
def Dev.deferredDue (d : Dev) (r k : Nat) : Option TrapInfo :=
  let s := d.slot r k
  let whole := match s.wait with
    | .shootdown _ _ _ _ => false
    | _ => true
  if s.occ && !s.away && s.pend.isEmpty && whole && !d.walking r k then s.nextDeferred.map (·.2) else none

/-- The slot takes its deferred trap; an instruction that waits executes again after the handler, and a failed copy request of the thread that
is due too waits for `sret`. -/
def Dev.takeDeferred (d : Dev) (r k : Nat) : Dev :=
  let failed := !(d.homeSlot r k).copyFaults.isEmpty
  (d.cancelWait r k).modSlot r k fun t => t.takeDeferred (d.core r).tvec failed

/-- DEFERRED_TRAP (R250): slot `b` of core `a`. -/
def execDeferredTrap (s : State) : Host.Outcome State Fault Refusal :=
  s.onDev fun d => match d.deferredDue s.args.a s.args.b with
    | some _ => d.takeDeferred s.args.a s.args.b
    | none => d

/-! ### Tags (R274, R275, R368) -/

/-- The tagged request with sequence number `seq` that core `a` waits for. -/
def Dev.outOf (d : Dev) (r seq : Nat) : Option OutReq := aget? (d.core r).out seq

def Dev.setOut (d : Dev) (r seq : Nat) (o : OutReq) : Dev := d.modCore r fun c => { c with out := aset c.out seq o }

/-- Whether the resend timer runs for an outstanding request: not for an invocation that its ordered buffer has refused, or has accepted
(R368). -/
def Dev.timed (d : Dev) (o : OutReq) : Bool := !o.refused && !(o.req.any d.accepted)

/-- The request goes out once more, with the same tag. -/
def Dev.sendAgain (d : Dev) (o : OutReq) : Dev :=
  match o.req, o.msg with
  | some q, _ => d.stamp.enqueue { q with arr := d.accSeq, passed := 0 }
  | none, some m => match d.net.find? fun p => p.2.msg == m with
    | some p => d.send m p.2.gates p.2.thread
    | none => d
  | none, none => d

/-- TAG_RESEND (R275): the request with tag `b` of core `a` has no answer after its interval and is sent again, at most 7 times. The receiver
applies one of the two and answers the other by its tag (R274). -/
def execTagResend (s : State) : Host.Outcome State Fault Refusal :=
  s.onDev fun d => match d.outOf s.args.a s.args.b with
    | some o =>
      if o.sends = 0 || 8 ≤ o.sends || !d.timed o then d
      else (d.setOut s.args.a s.args.b { o with sends := o.sends + 1 }).sendAgain o
    | none => d

/-- ORD_REFUSAL_RESEND (R368): the refused ordered invocation with tag `b` of core `a` is sent again; one of a core that is being saved
waits for the resumption (R371). -/
def execOrdRefusalResend (s : State) : Host.Outcome State Fault Refusal :=
  s.onDev fun d => match d.outOf s.args.a s.args.b with
    | some o => match o.req with
      | some q =>
        if o.refused && !(d.core s.args.a).saving then (d.setOut s.args.a s.args.b { o with refused := false }).stamp.enqueue { q with arr := d.accSeq } else d
      | none => d
    | none => d

/-- The AGENT and DIE codes of a source of tags (R58): a core, the slice at whose port a hamper sits, or for the sources that have no code 8191
and the north I/O die (log entry 54). -/
def Dev.agentOf (d : Dev) (src : Nat) : Nat × Nat :=
  if src < 4096 then (src, d.dieOf src) else if src < 5120 then (src, d.dieOf (4 * (src - 4096))) else (8191, 10)

/-- A record for an access that got no answer (R43, R275). -/
def Dev.logNoAnswer (d : Dev) (part r k gva : Nat) : Dev :=
  let (agent, die) := d.agentOf r
  d.logPart part ⟨0x08, die, if gva = 0 then 0 else 1, gva, 1, agent, min k 15, 0, 1⟩

/-- The error of a request to a home: its result arrives with DATAERR, or its thread takes DATAERR at its next boundary. Of a returned
update-only copy the record is the only report. -/
def Dev.failReq (d : Dev) (q : HomeReq) : Dev :=
  let t : TrapInfo := ⟨.dataerr, BitVec.ofNat 64 q.gva⟩
  match q.kind with
  | .load pid _ _ _ _ | .amo pid _ _ _ _ _ _ | .pver pid _ _ | .satom pid _ _ => d.failPend q pid .dataerr
  | .lease _ _ | .unlease _ _ _ | .sverNext _ _ | .sverNum _ _ _ | .lver _ _ _ _ | .rver _ _ => d.finish q (Slot.deferErr t)
  | .store _ | .red _ _ _ _ => d.modReq q (Slot.deferErr t)
  | .uocBack _ | .agent _ _ => d

/-- An access to another module ends with an error: of a copy channel, with that of its request; otherwise with that of its thread. -/
def Dev.failRemote (d : Dev) (id : Nat) (u : RemoteOut) : Dev :=
  let t : TrapInfo := ⟨.dataerr, BitVec.ofNat 64 u.gva⟩
  let d := { d with remote := adel d.remote id }
  match u.chan, u.pid with
  | some ch, _ => match aget? (d.core u.rank).chan ch with
    | some run => d.copyFail u.rank run.req .dataerr u.gva
    | none => d
  | none, some pid => d.modSlot u.rank u.slot fun s =>
      { s.modPend pid (Pending.fail t) with acqPid := s.acqPid.filter (· != pid) }
  | none, none => d.modSlot u.rank u.slot (Slot.deferErr t)

/-- The partition of a tagged request. -/
def OutReq.part (o : OutReq) (d : Dev) : Nat :=
  match o.req, o.remote.bind (aget? d.remote ·), o.msg with
  | some q, _, _ => q.part
  | none, some u, _ => u.part
  | none, none, some (.incr part _ _ _ _) | none, none, some (.launch part _ _) | none, none, some (.frame part _ _) => part
  | none, none, none => 0

/-- The last resend of tag `t` of core `r` goes unanswered: the request is taken as never applied (log entry 22). The error of an `mbxadd` is its
thread's, wherever that is; while the thread is on its way or saved, nothing happens. -/
def Dev.exhaust (before : Dev) (r t : Nat) (o : OutReq) : Dev :=
  let d := before.modCore r fun c => { c with out := adel c.out t }
  let part := o.part d
  match o.req, o.remote, o.msg with
  | some q, _, _ =>
    let d : Dev := { d with
      homeQ := d.homeQ.filter fun x => !(x.rank == q.rank && x.tag == q.tag)
      obuf := d.obuf.filter fun x => !(x.req.rank == q.rank && x.req.tag == q.tag) }
    (d.logNoAnswer part r q.slot q.gva).failReq q
  | none, some id, _ => match aget? d.remote id with
    | some u => (d.logNoAnswer part r u.slot u.gva).failRemote id u
    | none => d
  | none, none, some m =>
    let d := { d with net := d.net.filter fun p => p.2.msg != m }
    match o.thread with
    | some id => match d.threadAt id with
      | some (r, k) => (d.logNoAnswer part r k 0).modSlot r k (Slot.deferErr ⟨.dataerr, 0⟩)
      | none => before
    | none => d.logNoAnswer part r 15 0
  | none, none, none => d

/-- RESEND_EXHAUSTED (R275): tag `b` of core `a`. -/
def execResendExhausted (s : State) : Host.Outcome State Fault Refusal :=
  s.onDev fun d => match d.outOf s.args.a s.args.b with
    | some o =>
      if o.sends < 8 || !d.timed o then d else d.exhaust s.args.a s.args.b o
    | none => d

/-! ### Other modules (R41-R43, R213) -/

/-- Whether the thread of a remote access is on its way to another core: what the access brings waits for it. -/
def RemoteOut.moving (u : RemoteOut) : Bool := decide (16 < u.slot)

/-- REMOTE_ACCESS_TIMEOUT (R43): the remote access `a` of a load, a store or a copy channel has not completed within its bound. -/
def execRemoteAccessTimeout (s : State) : Host.Outcome State Fault Refusal :=
  s.onDev fun d => match aget? d.remote s.args.a with
    | some u => if u.tag.isSome || u.moving then d else (d.logNoAnswer u.part u.rank u.slot u.gva).failRemote s.args.a u
    | none => d

/-- Whether a remote access has left: the release before it is complete (R194), and no earlier access of the thread to its bytes is still
out (R189). -/
def Dev.remoteGone (d : Dev) (u : RemoteOut) : Bool :=
  let overlaps (a b : Nat × Nat) : Bool := decide (a.1 < b.1 + b.2) && decide (b.1 < a.1 + a.2)
  u.gate.all d.gateOpen && !u.moving
    && !(d.remote.any fun p => p.2.part == u.part && p.2.prank == u.prank && p.2.slot == u.slot && p.2.chan == u.chan
      && decide (p.2.seq < u.seq) && overlaps p.2.mask u.mask)

/-- Another module answers access `id`: a read or an atomic returns a value that the spec does not state here (log entry 5); or it refuses
it, with a record of kind 0x0F (R41). -/
def Dev.remoteAnswer (d : Dev) (id : Nat) (ok : Bool) : Dev :=
  match aget? d.remote id with
  | none => d
  | some u =>
    if !d.remoteGone u then d
    else
      let d := match u.tag with
        | some t => d.modCore u.rank fun c => { c with out := adel c.out t }
        | none => d
      if !ok then (d.logRefused u.part u.rank (min u.slot 15) u.gva).failRemote id u
      else
        let d := { d with remote := adel d.remote id }
        match u.chan, u.pid with
        | some ch, _ =>
          let (x, d) := d.freeBytes u.size
          match aget? (d.core u.rank).chan ch with
          | some run => d.modCore u.rank fun c => c.setChan ch { run with got := run.got ++ [(u.mask.1, u.size, x)] }
          | none => d
        | none, some pid =>
          let (x, d) := d.freeBytes u.size
          let d := d.modSlot u.rank u.slot fun s => s.modPend pid (Pending.answer u.dst u.size x)
          match u.acq with
          | some sc =>
            if (d.slot u.rank u.slot).pend.any fun p => p.id == pid && p.need != 0 then d
            else (d.modSlot u.rank u.slot fun s => { s with acqPid := s.acqPid.filter (· != pid) }).acquireAt u.rank sc
          | none => d
        | none, none => d

/-- The tag of a request of another module, in the window that the home keeps for each source module and core (R275). -/
def remoteSource (q : RemoteReq) : Nat := 4096 + 4096 * q.srcModule + q.srcCore

/-- A request of another module that is performed at its home: recalls, poison, and one indivisible access. -/
def Dev.remoteAccess (d : Dev) (q : RemoteReq) (pa : Nat) : Dev :=
  match q.op with
  | .load n => (d.agentRead pa n q.part noLeaf noPage).2
  | .store n v => d.agentWrite pa n v.toNat q.part noLeaf noPage
  | .amo op w64 b c =>
    let z := if w64 then 8 else 4
    let home := homeSlice 0 pa
    if (d.tagSeen home (remoteSource q) q.seq).isSome then d
    else
      let d := (d.recallStash (pa / 128)).recallUocs (pa / 128)
      let old := d.mem.nat pa z
      let d := d.touch (pa / 128) home q.part (leafClass noLeaf) noPage true
      let d := match amoFn op z old (b.toNat % 256 ^ z) (c.toNat % 256 ^ z) with
        | some x => { d with mem := d.mem.setNat pa z x }
        | none => d
      d.recordTag home (remoteSource q) q.seq (BitVec.ofNat 64 old)

/-- Bytes that a request covers, and whether it writes. -/
def remoteSpan : RemoteOp → Nat × Bool
  | .load n => (n, false)
  | .store n _ => (n, true)
  | .amo _ w64 _ _ => (if w64 then 8 else 4, true)

/-- A record about a request of another module. The spec does not say which log of the target takes it: that of the local partition with the
source partition's number where it is configured, otherwise Flojo's own (DESIGN CHOICE, log entry 56). -/
def Dev.logRemote (d : Dev) (part : Nat) (e : ErrRec) : Dev := d.log (if (d.part part).configured then some part else none) e

/-- A request from another module is checked against the export table and performed at its home, or answered DATAERR with a record of kind
0x0F; one on a held line waits in the home queue of the line (R175). -/
def Dev.remoteTurn (d : Dev) (q : RemoteReq) : Dev :=
  let span := remoteSpan q.op
  match d.exportOf q.srcModule q.part q.pa span.1 span.2 with
  | none => d.logRemote q.part ⟨0x0F, 11, 2, q.pa, 1, 8191, 15, 0, 1⟩
  | some pa => match d.rangeHeld pa span.1 with
    | some l => d.queueAgent noRank q.part l (.request q) span.2
    | none =>
      if d.rangePoisoned pa span.1 then d.logRemote q.part ⟨0x07, 11, 2, pa, 2, 8191, 15, 0, 1⟩
      else d.remoteAccess q pa

/-- REMOTE_REQUEST (R41). What travels back to the other module is outside this one. -/
def execRemoteRequest (s : State) : Host.Outcome State Fault Refusal := s.onDev fun d => d.remoteTurn s.args.remote

/-! ### Tier notifications (R178-R180) -/

/-- A step `a` of an agent of the device that may have to wait for a held line, in the home queue of that line (R175, R205): then nothing has
happened yet. Poison that it meets is recorded, and the step is not made (R54). -/
def Dev.attempt (d : Dev) (part at_ : Nat) (a : AgentStep) (e : Eng Unit) : Dev :=
  match e d with
  | .ok (_, d) => d
  | .error (.fail .dataerr _) => d.logAgentPoison part (homeSlice 0 at_) at_
  | .error (.hold l w) => d.queueHeld noRank part l a w
  | .error _ => d

def Part.nqFull (p : Part) : Bool := (p.nqTail + 1) % 4096 == p.nqHead

/-- Write an entry at TAIL for a frame and the page that crossed the threshold, and then advance TAIL: the frame takes QUEUED. -/
def notify (part f page : Nat) : Eng Unit := do
  let d ← get
  let p := d.part part
  let x := d.lpFrame f
  agWrite (p.cfg.nqbase + 0x1000 + 16 * p.nqTail) 16 (page % 2 ^ 32 * 65536 + 2 ^ 64 * (f % 2 ^ 30 * 65536 + x.count)) part
  let t := (p.nqTail + 1) % 4096
  agWrite p.cfg.nqbase 4 t part
  Eng.upd fun d => (d.modPart part fun p => { p with nqTail := t }).setLp f { x with queued := true, pendPage := none }

/-- The pending frames of a partition, with their pages. -/
def Dev.pendingLp (d : Dev) (part : Nat) : List (Nat × Nat) :=
  d.lp.filterMap fun p => match p.2.pendPage with
    | some (q, page) => if q = part then some (p.1, page) else none
    | none => none

/-- A crossing of the threshold: an entry, or PENDING while the queue is full, which sets OVERFLOW, or while other frames are pending. -/
def crossing (part f page : Nat) : Eng Unit := do
  let d ← get
  let p := d.part part
  let pending : Eng Unit := Eng.upd fun d => d.setLp f { d.lpFrame f with pendPage := some (part, page) }
  if p.nqFull then
    let o ← agRead (p.cfg.nqbase + 0x10) 1 part
    agWrite (p.cfg.nqbase + 0x10) 1 (o ||| 1) part
    pending
  else if !(d.pendingLp part).isEmpty then pending
  else notify part f page

/-- A fill of LP frame `f` by a partition through a page is counted. -/
def countFill (part f : Nat) (page : PageId) : Eng Unit := do
  Eng.upd fun d =>
    let x := d.lpFrame f
    { d with lpFills := d.lpFills.erase (part, f, page) }.setLp f { x with count := min (x.count + 1) 65535 }
  let d ← get
  let x := d.lpFrame f
  let t := (d.part part).cfg.lpthresh
  if t != 0 && decide (t ≤ x.count) && !x.queued && x.pendPage.isNone then crossing part f page.num

/-- A fill of LP frame `f` by a partition through page `page`, if one has not been counted, is counted. -/
def Dev.lpTurn (d : Dev) (part f page : Nat) : Dev :=
  match d.lpFills.find? fun p => p.1 == part && p.2.1 == f && p.2.2.num == page with
  | some (_, _, id) => d.attempt part ((d.part part).cfg.nqbase) (.lpFill part f page) (countFill part f id)
  | none => d

/-- LP_FRAME_FILL (R178): a fill of LP frame `b` by partition `a` through page `c` is counted. -/
def execLpFrameFill (s : State) : Host.Outcome State Fault Refusal := s.onDev fun d => d.lpTurn s.args.a s.args.b s.args.c

/-- The slices take the HEAD that software stored, and write pending frames while space lasts. -/
def takeHead (part : Nat) : Eng Unit := do
  let h ← agRead (((← get).part part).cfg.nqbase + 8) 4 part
  Eng.upd fun d => d.modPart part fun p => { p with nqHead := h % 4096 }
  for f in (← get).pendingLp part do
    if !((← get).part part).nqFull then notify part f.1 f.2

def Dev.headTurn (d : Dev) (part : Nat) : Dev := d.attempt part ((d.part part).cfg.nqbase + 8) (.nqHead part) (takeHead part)

/-- NOTIFY_QUEUE_HEAD_UPDATE (R180): partition `a`. -/
def execNotifyQueueHeadUpdate (s : State) : Host.Outcome State Fault Refusal := s.onDev fun d => d.headTurn s.args.a

/-- The log writer takes the TAIL that software stored, and writes what waited for room. -/
def takeTail (part : Nat) : Eng Unit := do
  let c := ((← get).part part).cfg
  let t ← agRead (c.elogbase + 8) 4 part
  Eng.upd fun d => (d.modPart part fun p => { p with elogTail := t % 2 ^ c.eloglog2 }).writeLog part

def Dev.tailTurn (d : Dev) (part : Nat) : Dev := d.attempt part ((d.part part).cfg.elogbase + 8) (.logTail part) (takeTail part)

/-- ERROR_LOG_TAIL_UPDATE (R56): partition `a`. -/
def execErrorLogTailUpdate (s : State) : Host.Outcome State Fault Refusal := s.onDev fun d => d.tailTurn s.args.a

/-! ### The turn of an agent (R175) -/

/-- The slot whose instruction reads line `line` at once has had its turn there, and executes again. -/
def Slot.peekTurn (line : Nat) (s : Slot) : Slot := match s.wait with
  | .peek l _ => if l = line then { s with wait := .none, turns := s.turns ++ [line] } else s
  | _ => s

/-- What an agent of core `r`, or of none, does when the home of a line serves it (R175). A command of the host goes on in `State.serveOne`. -/
def Dev.agentStep (d : Dev) (r line : Nat) : AgentStep → Dev
  | .fill i => d.stashFill r i
  | .ifetch => d.ifetchFill r line
  | .copy ch => match aget? (d.core r).chan ch with
    | some u => if u.req.kv then d.kvTurn r ch else d.copyTurn r ch
    | none => d
  | .matrix => match (d.core r).mxq with
    | c :: _ => if isMatrix c.instr then d.matrixTurn r 0 else d.ladderTurn r 0
    | [] => d
  | .peek k => d.modSlot r k (Slot.peekTurn line)
  | .walk q part page => d.walkTurn q part page
  | .sweep part sid lin => d.tileTurn part sid lin
  | .sweepRec part sid => d.sweepPump part sid
  | .command _ => d
  | .request q => d.remoteTurn q
  | .log part => d.writeLog part
  | .logTail part => d.tailTurn part
  | .lpFill part f page => d.lpTurn part f page
  | .nqHead part => d.headTurn part

end Sys2Proof.Machine
end

