-- ==== Sys2Proof/Machine/Preempt.lean ====
section
/-! DEFINITION. Pre-emption (R112-R119): how a core is interrupted, drained and saved into its context block, and how it resumes; the
start of a partition's cores (R78, R110, R142) and the move of a descheduled partition (R119). -/

namespace Sys2Proof.Machine

/-! ### Bulk memory -/

/-- Set listed bytes, keeping the canonical form. -/
def Mem.put (m : Mem) (cells : List (Nat × Byte)) : Mem := cells.foldl (fun m c => m.set c.1 c.2) m

/-- The bytes whose addresses `f` names become what an unlisted address reads as. -/
def Mem.drop (m : Mem) (f : Nat → Bool) : Mem := m.filter fun c => !f c.1

/-- The listed bytes of a range, moved from `lo` to `at_`. -/
def Mem.window (m : Mem) (lo n at_ : Nat) : List (Nat × Byte) :=
  (m.filter fun c => decide (lo ≤ c.1) && decide (c.1 < lo + n)).map fun c => (c.1 - lo + at_, c.2)

/-- Words as bytes from an address. -/
def wordCells (at_ : Nat) (ws : List Word) : List (Nat × Byte) :=
  ws.zipIdx.flatMap fun p => (List.range 8).map fun i => (at_ + 8 * p.2 + i, p.1.extractLsb' (8 * i) 8)

/-- Copies of the lines of a range that stash entries and update-only copies hold come home before the device reads or writes the range in
bulk; its cached lines are clean afterwards. -/
def Dev.settleRange (d : Dev) (a n : Nat) : Dev :=
  let hit (l : Nat) : Bool := decide (a / 128 ≤ l) && decide (128 * l < a + n)
  let d := ((d.regs.map (·.1)).filter hit).foldl Dev.recallStash d
  let backs := d.homeQ.filterMap fun q => match q.kind with
    | .uocBack u => some u.line
    | _ => none
  let d := ((d.cores.flatMap (fun c => c.2.uoc.map (·.line)) ++ backs).filter hit).foldl Dev.recallUocs d
  { d with llc := d.llc.map fun e => if hit e.1 then (e.1, { e.2 with dram := none }) else e }

/-- Whether a line of a range is held against an agent of the device (R205). -/
def Dev.spanHeld (d : Dev) (a n : Nat) : Bool :=
  (d.leases.map (·.line) ++ d.homeQ.map (·.line) ++ d.cores.flatMap fun c => c.2.uoc.map (·.line)).any fun l => decide (a / 128 ≤ l) && decide (128 * l < a + n) && d.lineHeld l

/-- Bytes of a layout that the spec does not give (log entry 9), as free values. -/
def Dev.freeCells (d : Dev) (at_ n : Nat) : List (Nat × Byte) × Dev :=
  (wordCells at_ ((List.range (n / 8)).map fun i => Config.freeWord (d.freeCtr + i)), { d with freeCtr := d.freeCtr + n / 8 })

/-! ### The context block (R112-R114) -/

def ctxSize : Nat := 0x100000
def Part.ctxAt (p : Part) (prank : Nat) : Nat := p.cfg.ctxbase + ctxSize * prank

/-- The areas of a context block whose layout the spec does not give: matrix queue, copy channels, core state, inbox, parked increments; and the
wait record of each slot image. The launch overflow ring stands in memory all the time (`Part.ringAt`). -/
def ctxOpaque : List (Nat × Nat) :=
  [(0xB0000, 2048), (0xB0800, 2048), (0xB1100, 3840), (0xB2000, 36864), (0xBB000, 1024)]
    ++ (List.range 16).map fun k => (0xA0400 + 0x1000 * k, 64)

/-- The bytes of a context block that a save writes whole: the images of local memory, and of each slot image what R113 lists; reserved words there
become 0 (R9, R114, R125). -/
def ctxWhole (o : Nat) : Bool :=
  let k := o % 0x1000
  decide (o < 0xA0000) || (decide (o < 0xB0000) && (decide (k < 0x400) || (decide (0x480 ≤ k) && decide (k < 0x580)) || decide (0x800 ≤ k)))

/-- The pending `satom` of a slot: its request, wherever it stands (R371). -/
def Dev.pendingSatom (d : Dev) (part prank k : Nat) : Option HomeReq :=
  let mine (q : HomeReq) : Bool := q.part == part && q.prank == prank && q.slot == k && q.kind.isSatom
  let outs := (d.rankCore part prank).out.filterMap fun o => o.2.req
  (outs.filter mine).head?

/-- The status area and the pending records of a slot image (R114), as words with their offsets. -/
def Dev.slotStatus (d : Dev) (part prank k : Nat) (s : Slot) : List (Nat × List Word) :=
  let sat := d.pendingSatom part prank k
  let bit (b : Bool) (n : Nat) : Nat := if b then 2 ^ n else 0
  let err := match s.mxerr with
    | some e => 2 ^ 59 + e.cause.code.toNat * 2 ^ 48 + e.gva.toNat % 2 ^ 48
    | none => 0
  let w0 : Word := BitVec.ofNat 64 (bit s.occ 63 + bit s.away 62 + bit s.arrive.isSome 61 + bit sat.isSome 60 + err)
  let recs := match sat with
    | some q =>
      let (id, p) := match q.kind with
        | .satom _ entry p => (entry, p)
        | _ => (0, (0 : BitVec 512))
      let rd := match s.pend.findSome? fun x => match x.post with
          | .satom rd _ => some rd.toNat
          | _ => none with
        | some r => r
        | none => 0
      [(0x480, (List.range 8).map fun i => p.extractLsb' (64 * i) 64),
        (0x4C0, [BitVec.ofNat 64 q.gva, BitVec.ofNat 64 ((q.tag.getD 0) % 2 ^ 32 * 2 ^ 32 + id * 2 ^ 17 + rd), 0, 0])]
    | none => []
  let defs := s.deferred.map fun t => BitVec.ofNat 64 (t.2.cause.code.toNat * 2 ^ 56 + t.2.saddr.toNat % 2 ^ 48)
  [(0x1C8, [w0, BitVec.ofNat 64 s.deferred.length]), (0x500, defs)] ++ recs

/-- The control registers that belong to the core (R125): a slot image does not hold them. -/
def crOfCore (n : Nat) : Bool := decide (n = 0x02 ∨ n = 0x03 ∨ n = 0x04 ∨ (0x0D ≤ n ∧ n ≤ 0x10) ∨ n = 0x20)

/-- A slot image (R113): its registers, PC, status area, control registers of the slot and its task, and pending records. -/
def Dev.slotImage (d : Dev) (r part prank k : Nat) : List (Nat × List Word) :=
  let s := d.slot r k
  let e : Dev := { d with cur := (r, k) }
  let pair (i : Nat) : List Word := let g := vget s.s i 0; [g.extractLsb' 0 64, g.extractLsb' 64 64]
  let lanes (i : Nat) : List Word := (List.range 8).map fun j => (vget s.v i 0).extractLsb' (64 * j) 64
  let crs := (List.range 0x25).filter fun n => !crReserved (BitVec.ofNat 6 n) && !crOfCore n
  [(0, (List.range 32).map fun i => if i = 0 then 0 else vget s.x i 0), (0x100, (List.range 8).map fun i => s.pr (BitVec.ofNat 3 i)),
    (0x140, (List.range 8).flatMap pair), (0x1C0, [s.pc]), (0x800, (List.range 32).flatMap lanes)]
    ++ crs.map (fun n => (0x200 + 8 * n, [e.crGet (BitVec.ofNat 6 n)])) ++ d.slotStatus part prank k s

/-- The line of a context block that holds a line of local memory. -/
def ctxLine (base e : Nat) : Nat := base / 128 + (if e < tileBase / 128 then e else e - tileBase / 128 + 0x60000 / 128)

/-- The line of local memory that a line of a context block holds. -/
def ctxLocal (base l : Nat) : Option Nat :=
  let o := l - base / 128
  if l < base / 128 ∨ 0xA0000 / 128 ≤ o then none
  else if o < 0x60000 / 128 then some o else some (o - 0x60000 / 128 + tileBase / 128)

/-- Write the context block of core `r` (step 6 of R115): poison of its local memory goes with the bytes (R54). -/
def Dev.writeContext (d : Dev) (r part prank : Nat) : Dev :=
  let base := (d.part part).ctxAt prank
  let d := d.settleRange base ctxSize
  let c := d.core r
  let slots := (List.range 16).flatMap fun k => (d.slotImage r part prank k).flatMap fun w => wordCells (base + 0xA0000 + 0x1000 * k + w.1) w.2
  let counters := (List.range 32).map fun i => vget c.counters (2 * i + 1) 0 ++ vget c.counters (2 * i) 0
  let listed := c.lmem.window 0 0x60000 base ++ c.lmem.window tileBase 0x40000 (base + 0x60000) ++ slots
    ++ wordCells (base + 0xB1000) counters
  let bad := (c.badLmem.map (ctxLine base)).filter fun l => !d.poison.contains l
  let d := { d with mem := (d.mem.drop fun a => decide (base ≤ a) && ctxWhole (a - base)).put listed, poison := d.poison ++ bad }
  ctxOpaque.foldl (fun d a =>
    let (cells, d) := d.freeCells (base + a.1) a.2
    { d with mem := d.mem.put cells }) d

/-- Whether software has changed area `i` of `ctxOpaque` since the save, whose free values are numbered from `fill`. -/
def ctxAltered (m : Mem) (base fill i : Nat) : Bool :=
  let a := ctxOpaque.getD i (0, 0)
  let before := ((ctxOpaque.take i).map fun a => a.2 / 8).foldl (· + ·) 0
  m.bytes (base + a.1) a.2 != (wordCells 0 ((List.range (a.2 / 8)).map fun j => Config.freeWord (fill + before + j))).map (·.2)

/-- A memory operand of `n` bytes as free values give it: bytes of the local store, or below the end of the GVAs. -/
def Loc.altered (w : Word) (n : Nat) : Loc → Loc
  | .loc _ => .loc (w.toNat % (0x60000 + 1 - min n 0x60000))
  | .glob _ => .glob (w.toNat % (2 ^ 48 + 1 - n))

/-- A queued matrix command as 128 free values give it, from number `k`. -/
def MxCmd.altered (f : Nat → Word) (k : Nat) (m : MxCmd) : MxCmd :=
  { m with
    a := m.a.altered (f k) 4096, b := m.b.altered (f (k + 1)) 4096
    scaleA := (f (k + 2)).toNat % 0x5F000, scaleB := (f (k + 3)).toNat % 0x5F000
    vals := m.vals.zipIdx.map fun p => f (k + 4 + p.2) }

/-- A copy request as 32 free values give it, from number `k`. -/
def CopyReq.altered (f : Nat → Word) (k : Nat) (q : CopyReq) : CopyReq :=
  { q with
    src := q.src.altered (f k) q.len, dst := q.dst.altered (f (k + 1)) q.len
    lanes := q.lanes.zipIdx.map fun p => ((f (k + 2 + 2 * p.2)).toNat % (2 ^ 48 + 1 - q.lane), (f (k + 3 + 2 * p.2)).toNat % (0x60001 - q.lane)) }

/-- What a saved core holds in the areas that software has changed: the written values, which without a layout are free values (log entry 9);
`f` numbers them. -/
def Core.altered (f : Nat → Word) (alt : Nat → Bool) (c : Core) : Core :=
  let put {α : Type} (i : Nat) (old new : α) : α := if alt i then new else old
  let n (k m : Nat) : Nat := (f k).toNat % m
  { c with
    mxq := put 0 c.mxq (c.mxq.zipIdx.map fun p => { p.1.altered f (5000 + 128 * p.2) with
      mfmt := f (8 * p.2) &&& mfmtMask, msca := f (8 * p.2 + 1) &&& mscMask, mscb := f (8 * p.2 + 2) &&& mscMask, mosh := f (8 * p.2 + 3) &&& 0xF
      frm := (f (8 * p.2 + 4)).setWidth 3, xval := f (8 * p.2 + 5) })
    chan := put 1 c.chan (c.chan.zipIdx.map fun p => (p.1.1, { p.1.2 with
      req := p.1.2.req.altered f (7100 + 32 * p.2), done := n (128 + p.2) (p.1.2.req.len + 1) }))
    fifo := put 1 c.fifo (c.fifo.zipIdx.map fun p => { p.1.altered f (7300 + 32 * p.2) with param := f (136 + p.2), xid := (f (144 + p.2)).setWidth 32 })
    tvec := put 2 c.tvec (f 152)
    cpwp := put 2 c.cpwp (Vector.ofFn fun i => f (153 + i.val) &&& 0x7FFFF)
    qown := put 2 c.qown (Vector.ofFn fun i => n (160 + i.val) 8)
    inbox := put 3 c.inbox (c.inbox.zipIdx.map fun p => match p.1 with
      | .launch _ => .launch (n (256 + 64 * p.2) 65536)
      | .frame g => .frame { g with x := g.x.zipIdx.map fun x => f (256 + 64 * p.2 + x.2), pc := f (256 + 64 * p.2 + 32), status := f (256 + 64 * p.2 + 33) })
    tasks := put 2 c.tasks (c.tasks.zipIdx.map fun p => { p.1 with
      base := n (7600 + 2 * p.2) (13 - min p.1.blocks 12), desc := { p.1.desc with tilemask := f (7601 + 2 * p.2) } })
    ladders := put 2 c.ladders (c.ladders.zipIdx.map fun p => (p.1.1, { p.1.2 with
      off := tileBase + 64 * n (7700 + 3 * p.2) 4096
      owned := (List.range 64).filter fun k => (f (7701 + 3 * p.2)).getLsbD k
      failed := if (f (7702 + 3 * p.2)).getLsbD 63 then some ⟨.dataerr, f (7702 + 3 * p.2) &&& 0xFFFFFFFFFFFF⟩ else none }))
    spilled := put 2 c.spilled (n 7750 4096)
    slots := Vector.ofFn fun k => let s := c.slot k.val; { s with wait := match s.wait with
      | .bar key phase => put (5 + k.val) (.bar key phase) (.bar { key with tag := n (2400 + 2 * k.val) 65536 } (n (2401 + 2 * k.val) (2 ^ 64)))
      | w => w } }

/-- The increments that are parked for a saved core, as its block gives them. -/
def alteredIncrs (f : Nat → Word) (alt : Nat → Bool) (l : List Msg) : List Msg :=
  if alt 4 then l.zipIdx.map fun p => match p.1 with
    | .incr part rank idx _ tag => .incr part rank idx ((f (4700 + p.2)).setWidth 32) tag
    | m => m
  else l

/-- The trap cause with a code. -/
def causeOf (n : Nat) : Option Cause :=
  [Cause.illegal, .target, .lahead, .segv, .segperm, .misalign, .perm, .dataerr, .priv, .detviol, .slice, .vers, .lease, .kvfault, .sweep,
    .syscall, .migrate, .ladder].find? fun c => c.code.toNat == n

/-- Change the first pending `satom` of a slot: it alone has a pending record (R114). -/
def modSatom (f : RegNo → Pending → Option Pending) : List Pending → List Pending
  | [] => []
  | p :: t => match p.post with
    | .satom rd _ => (f rd p).toList ++ t
    | .sext _ _ | .zext _ _ | .pair _ | .vec _ _ _ | .twait _ _ _ => p :: modSatom f t

/-- The first pending `satom` as its record gives it (R114, R371): its register, and an answer that has arrived; none without SPEND. -/
def satomAnswer (spend : Bool) (ans y0 flags gva : Word) (p : Pending) : Option Pending :=
  let post : Post := .satom (ans.extractLsb' 0 5) ((flags.extractLsb' 0 5).setWidth 6)
  if !spend then none
  else if !ans.getLsbD 16 then some { p with post := post }
  else
    let err : Option TrapInfo := if ans.getLsbD 15 then some ⟨.dataerr, gva⟩ else if ans.getLsbD 14 then some ⟨.slice, gva⟩ else none
    some { p with post := post, need := 0, raw := leBytes 8 y0.toNat, err := err }

/-- A slot as its image in the block of partition `part` gives it; what the image does not hold is kept from the saved slot (log entry 9). Reserved
fields read 0. A register whose bytes are poisoned fails its parity (R54). A home rank of no core of the partition counts as 0 (log entry 9). -/
def restoreSlot (m : Mem) (bad : Nat → Bool) (at_ part hlen : Nat) (s : Slot) : Slot :=
  let w (off : Nat) : Word := BitVec.ofNat 64 (m.nat (at_ + off) 8)
  let cr (n : Nat) : Word := w (0x200 + 8 * n)
  let st := w 0x1C8
  let n := (w 0x1D0).toNat % 32
  let defs := (List.range (min n 16)).filterMap fun i =>
    let e := w (0x500 + 8 * i)
    (causeOf (e.extractLsb' 56 8).toNat).map fun c => ((s.deferred.map (·.1)).getD i (s.nextPid + i), (⟨c, e &&& 0xFFFFFFFFFFFF⟩ : TrapInfo))
  let h := ((cr 0).extractLsb' 32 12).toNat
  let regs (k off size : Nat) : List Nat := (List.range k).filter fun i => bad (at_ + off + size * i)
  { s with
    x := Vector.ofFn fun i => if i.val = 0 then 0 else w (8 * i.val)
    p := Vector.ofFn fun i => if i.val = 0 then 0 else w (0x100 + 8 * i.val)
    s := Vector.ofFn fun i => segClean (w (0x148 + 16 * i.val) ++ w (0x140 + 16 * i.val))
    v := Vector.ofFn fun i => BitVec.ofNat 512 (m.nat (at_ + 0x800 + 64 * i.val) 64)
    pc := w 0x1C0, occ := st.getLsbD 63, away := st.getLsbD 62, part := if st.getLsbD 63 || st.getLsbD 62 then part else s.part
    own := if st.getLsbD 63 then some ⟨cr 0x01 &&& 0xFFFFF, cr 0x17 &&& 0x1FF, cr 0x18, cr 0x19 &&& 0xFFFF, ((cr 0).extractLsb' 25 3).toNat⟩ else none
    arrive := if st.getLsbD 61 then some (s.arrive.getD 0) else none
    mxerr := if st.getLsbD 59 then (causeOf (st.extractLsb' 48 8).toNat).map fun c => ⟨c, st &&& 0xFFFFFFFFFFFF⟩ else none
    deferred := defs
    pend := modSatom (fun _ => satomAnswer (st.getLsbD 60) (w 0x4C8) (w 0x4D0) (w 0x4D8) (w 0x4C0)) s.pend
    mode := (cr 0).getLsbD 0, guest := (cr 0).getLsbD 1, uact := (cr 0).getLsbD 2, npend := (cr 0).getLsbD 24
    hslot := ((cr 0).extractLsb' 28 4).toNat, hrank := if h < hlen then h else 0
    fflags := (cr 0x05).setWidth 6, frm := (cr 0x06).setWidth 3, mfmt := cr 0x07 &&& mfmtMask, msca := cr 0x08 &&& mscMask
    mscb := cr 0x09 &&& mscMask, mosh := cr 0x0A &&& 0xF, swbuf := cr 0x0B &&& 1, swlin := cr 0x0C &&& 0xFFFFFFFF
    uixid := cr 0x11 &&& 0xFFFFFFFF, uvec := cr 0x12, uepc := cr 0x13, ucause := cr 0x14 &&& 0xFF, uaddr := cr 0x15
    unote := cr 0x16 &&& 0x7F, sepc := cr 0x21, scause := cr 0x22 &&& 0xFF, saddr := cr 0x23, sscratch := cr 0x24
    badX := regs 32 0 8, badP := regs 8 0x100 8, badS := regs 8 0x140 16, badV := regs 32 0x800 64
    badC := (regs 0x25 0x200 8).filter (fun n => !crOfCore n) ++ (if bad (at_ + 0x1C0) then [64] else [])
    yieldUntil := 0, lastIssue := none }

/-! ### The save (R115, R116) -/

/-- A core that holds nothing of a partition: its cycle counter, its tags, its instruction lines and its TLB stay with the hardware. -/
def Core.blank (c : Core) (part : Option Nat) : Core :=
  { Core.reset with cycle := c.cycle, tagSeq := c.tagSeq, out := c.out, l1i := c.l1i, tlb := c.tlb, part := part, lost := c.lost }

/-- Whether a result may stay outstanding over a save: a `satom` that an ordered buffer holds, also one that waits in the home queue there, or has
refused (R371). -/
def Dev.staysOut (d : Dev) (part prank k : Nat) (p : Pending) : Bool :=
  match p.post with
  | .satom _ _ => p.need != 0 && d.sidelined.any fun q => q.part == part && q.prank == prank && q.slot == k && (match q.kind with
      | .satom pid _ _ => pid == p.id
      | _ => false)
  | .sext _ _ | .zext _ _ | .pair _ | .vec _ _ _ | .twait _ _ _ => false

/-- Whether a request must be answered before its core is saved (R115, R280, R292): an `sver` when the home can apply it. -/
def Dev.holdsSave (d : Dev) (q : HomeReq) : Bool :=
  match q.kind with
  | .store _ | .unlease _ _ _ | .rver _ _ | .red _ _ _ _ => true
  | .sverNext _ _ | .sverNum _ _ _ => d.sverRoom q
  | .load _ _ _ _ _ | .amo _ _ _ _ _ _ _ | .lease _ _ | .lver _ _ _ _ | .pver _ _ _ | .satom _ _ _ | .uocBack _ | .agent _ _ => false

/-- Whether a slot waits inside an instruction that completes before a save (R115): its wait is none of R116. The core lets it go on. -/
def Wait.inside : Wait → Bool
  | .release _ | .acquire | .wb _ | .fence _ | .line _ _ | .shootdown _ _ _ _ => true
  | _ => false

/-- Whether a slot is at a boundary where it can be saved: not inside an instruction, and no walk is under way for it (R387). -/
def Dev.saveable (d : Dev) (r k : Nat) : Bool := !(d.slot r k).wait.inside && !d.walking r k

/-- Whether core `r` has drained (steps 1 to 5 of R115). -/
def Dev.drained (d : Dev) (r : Nat) : Bool :=
  let c := d.core r
  let part := c.part.getD 0
  let prank := r - (d.part part).cfg.hbase
  !c.commitWait && c.wb.isEmpty && (c.uoc.isEmpty || c.tagFree)
    && !(d.homeQ.any fun q => q.rank == r && some q.part == c.part && d.holdsSave q)
    && !(d.remote.any fun p => p.2.rank == r && decide (p.2.slot ≤ 16))
    && (List.range 16).all fun k =>
      let s := c.slot k
      s.pend.all (d.staysOut part prank k) && d.saveable r k

/-- The interrupt: the core stops issuing; a matrix command that is in execution may still commit. -/
def Core.interrupt (c : Core) : Core :=
  if c.saving then c else { c with saving := true, commitWait := c.mxq.head?.any fun m => m.faultPage.isNone }

/-- The wait of a slot at a save: kept for a barrier that has counted the thread; a `wfi` completes; any other is cancelled. A walk that has
just ended serves no later access. -/
def Dev.saveWait (d : Dev) (r k : Nat) : Dev :=
  let d := match (d.slot r k).wait with
    | .bar _ _ => d
    | .wfi _ => d.modSlot r k fun s => s.retireTo (link s.pc)
    | _ => d.cancelWait r k
  d.modSlot r k fun s => { s with fresh := none, turns := [] }

/-- Tiles of a task that are delivered or claimed return to their sweeps; a claimed buffer stays out of use (R352). -/
def Dev.saveTiles (d : Dev) (r : Nat) (t : Task) : Dev :=
  let held := t.bufs.filterMap fun b => b.claimedBy.map fun k => (k, b.buf)
  let d := d.modCore r fun c => c.modTask t.id fun t => { t with bufs := [], heldBufs := t.heldBufs ++ held.map (·.2) }
  let d := held.foldl (fun d h => d.modSlot r h.1 fun s => { s with claimed := none, heldBuf := some h.2 }) d
  t.bufs.foldl (fun d b => d.returnTile t.part b.sid b.lin) d

/-- The tags of requests that stay outstanding move with their context: the number is made unique over the cores that the context may
resume on. -/
def moveTag (r t : Nat) : Nat := if t < 2 ^ 32 then t + 2 ^ 32 * (r + 1) else t

def HomeReq.moveTag (r : Nat) (q : HomeReq) : HomeReq := { q with tag := q.tag.map (Machine.moveTag r) }

/-- Core `r`, drained, writes its context block and is free. -/
def Dev.saveNow (d : Dev) (r part : Nat) : Dev :=
  let prank := r - (d.part part).cfg.hbase
  let d := (List.range 16).foldl (fun d k => (d.saveWait r k).dropLease r k true) d
  let d := (d.core r).tasks.foldl (fun d t => d.saveTiles r t) d
  let d := ((d.core r).uoc.map (·.line)).foldl (fun d l => (d.sendBack r l).applyBacks l) d
  let d := (d.core r).stash.foldl (fun d e => if e.2.st != .mapped then d.recallStash e.2.line else d) d
  -- outstanding `satom` requests keep their tags with the context
  let mine (o : OutReq) : Bool := o.req.any fun q => q.part == part && q.prank == prank && q.kind.isSatom
  let moved := ((d.core r).out.filter fun o => mine o.2).map fun o =>
    (moveTag r o.1, { o.2 with req := o.2.req.map (HomeReq.moveTag r) })
  let tagged (q : HomeReq) : Bool := q.part == part && q.prank == prank && q.rank == r && q.kind.isSatom
  let agent (q : HomeReq) : Bool := q.rank == r && (match q.kind with
    | .agent _ _ => true
    | _ => false)
  let d : Dev := { d with
    homeQ := (d.homeQ.filter fun q => !agent q).map fun q => if tagged q then q.moveTag r else q
    obuf := d.obuf.map fun o => if tagged o.req then { o with req := o.req.moveTag r } else o }
  let d := d.modCore r fun c => { c with out := c.out.filter fun o => !mine o.2 }
  let hw := d.core r
  let d := d.setCore r { hw with out := moved }
  let fill := d.freeCtr
  let d := d.writeContext r part prank
  let c := d.core r
  let saved : Core := { c with
    saving := false, commitWait := false, l1d := [], l1i := [], tlb := [], wb := [], badLmem := []
    mxq := c.mxq.map fun m => { m with faultPage := none, pins := [] }
    chan := c.chan.map fun u => (u.1, { u.2 with backs := [], got := [], faultPage := none })
    tasks := c.tasks.map fun t => { t with startedAt := c.cycle.toNat - t.startedAt } }
  let d := d.setCore r (hw.blank none)
  d.modPart part fun p => { p with ctx := aset p.ctx prank ⟨saved, fill, []⟩ }

/-- A partition all of whose cores are saved is DESCHEDULED (R78). -/
def Dev.markDescheduled (d : Dev) (part : Nat) : Dev :=
  let p := d.part part
  if p.st == .resident && (List.range p.cfg.hlen).all fun i => (aget? p.ctx i).isSome || (d.core (p.devRank i)).lost then
    d.modPart part fun p => { p with st := .descheduled }
  else d

/-- CORE_SAVE (R115): Flojo interrupts core `a`, which saves its context once it has drained. -/
def execCoreSave (s : State) : Host.Outcome State Fault Refusal :=
  s.onDev fun d =>
    let r := s.args.a
    match (d.core r).part with
    | some part =>
      if (d.core r).lost then d
      else
        let d := d.modCore r Core.interrupt
        let base := (d.part part).ctxAt (r - (d.part part).cfg.hbase)
        if d.drained r && !d.spanHeld base ctxSize then (d.saveNow r part).markDescheduled part else d
    | none => d

/-- Whether the command in execution may fail to begin its commit in time (R115): it fetches global operands, or moves cold rungs. -/
def Core.abandonable (c : Core) : Bool :=
  let glob : Loc → Bool
    | .glob _ => true
    | .loc _ => false
  match c.mxq with
  | [] => false
  | m :: _ => match m.instr with
    | .mma _ _ _ _ _ => glob m.a || glob m.b
    | .mld _ _ _ => glob m.a
    | i => match (ladderOf i).bind (aget? c.ladders) with
      | some b =>
        let x := c.ldescAt b.off
        let top := match i with
          | .laddOuter _ _ _ | .laddTile _ _ => trailingOnes x.n 64
          | .lldTile _ _ _ | .lldLocal _ _ _ | .lstTile _ _ _ | .lstLocal _ _ _ => m.xval.toNat
          | _ => 0
        b.failed.isNone && decide (x.hot ≤ top) && (match i with
          | .lclr _ => false
          | _ => true)
      | none => false

/-- SAVE_COMMIT_TIMEOUT (R115): the matrix command in execution on core `a` has not begun its commit within 2,500 cycles of the interrupt: it
is abandoned and stays at the head of the queue, not started. -/
def execSaveCommitTimeout (s : State) : Host.Outcome State Fault Refusal :=
  s.onDev fun d => d.modCore s.args.a fun c => if c.saving && c.abandonable then { c with commitWait := false } else c

/-! ### The resumption (R118) -/

/-- What a message parked in the context does (R117). -/
def Core.unpark (c : Core) : Msg → Core
  | .incr _ _ idx inc _ => c.applyIncr idx inc
  | .launch _ _ g => { c with inbox := c.inbox ++ [.launch g] }
  | .frame _ _ f => { c with inbox := c.inbox ++ [.frame f] }

/-- Flag copies of every entry of the partition's routine table (R359); a poisoned entry is recorded and has no flags (R54). -/
def loadAllFlags (part : Nat) : Eng Unit := do
  for n in List.range 64 do
    let d ← get
    let at_ := d.routineAt part n
    if (d.rangeHeld at_ 8).isNone && d.rangePoisoned at_ 8 then Eng.upd fun d => d.logAgentPoison part (homeSlice 0 at_) at_
    else loadFlags part n

/-- The cores of a partition load their flag copies, and go on with what `d` becomes; while a line of the table is held nothing happens yet
(R205). -/
def Dev.withFlags (before d : Dev) (part : Nat) : Dev :=
  match loadAllFlags part d with
  | .ok (_, d) => d
  | .error _ => before

/-- The pending `satom` requests of a partition rank go on under the number of the core that it resumes on; second copies of answered ones are
dropped, and the refused ones are sent again with their tags (R371). -/
def Dev.resumeSatoms (d : Dev) (part prank r : Nat) (out : AMap OutReq) : Dev :=
  let mine (q : HomeReq) : Bool := q.part == part && q.prank == prank && q.kind.isSatom
  let live (q : HomeReq) : Bool := !mine q || q.tag.any fun t => (aget? out t).isSome
  let move (q : HomeReq) : HomeReq := if mine q then { q with rank := r } else q
  let d : Dev := { d with
    homeQ := (d.homeQ.filter live).map move
    obuf := (d.obuf.filter fun o => live o.req).map fun o => { o with req := move o.req } }
  let refused := out.filterMap fun e => if e.2.refused then e.2.req else none
  refused.foldl (fun d q => d.stamp.enqueue { q with rank := r, arr := d.accSeq, passed := 0 }) d

/-- Partition rank `prank` resumes on its core: the context block is restored, parked messages are applied, counter 63 takes its notice, and
the slots issue. The plain copies of the core are dropped (an acquire). -/
def Dev.resumeNow (d : Dev) (part prank : Nat) : Dev :=
  match aget? (d.part part).ctx prank with
  | none => d
  | some x =>
    let before := d
    let p := d.part part
    let r := p.devRank prank
    let base := p.ctxAt prank
    let d := d.settleRange base ctxSize
    let hw := d.core r
    let m := d.mem
    let bad (a : Nat) : Bool := d.poison.contains (a / 128)
    let alt (i : Nat) : Bool := ctxAltered m base x.fill i
    let n := d.freeCtr
    let f (k : Nat) : Word := Config.freeWord (n + k)
    let lmem : Mem := Mem.put [] (m.window base 0x60000 0 ++ m.window (base + 0x60000) 0x40000 tileBase)
    let old := x.core.altered f alt
    let c : Core := { old with
      lmem := lmem, cycle := hw.cycle, tagSeq := hw.tagSeq, l1i := hw.l1i, tlb := hw.tlb, part := some part, lost := hw.lost
      badLmem := d.poison.filterMap (ctxLocal base)
      out := x.core.out.foldl (fun o e => aset o e.1 { e.2 with refused := false, req := e.2.req.map fun q => { q with rank := r } }) hw.out
      counters := Vector.ofFn fun i => BitVec.ofNat 32 (m.nat (base + 0xB1000 + 4 * i.val) 4)
      tasks := old.tasks.map fun t => { t with startedAt := hw.cycle.toNat - t.startedAt }
      slots := Vector.ofFn fun i => restoreSlot m bad (base + 0xA0000 + 0x1000 * i.val) part p.cfg.hlen (old.slot i.val) }
    let c := ((alteredIncrs f alt x.parked).foldl Core.unpark c).applyIncr 63 1
    let d := { d with freeCtr := n + 8192 }
    let det (l : List (Nat × Nat)) : List (Nat × Nat) := if alt 2 then l.drop ((f 7751).toNat % (l.length + 1)) else l
    let d := (d.setCore r c).modPart part fun p =>
      { p with ctx := adel p.ctx prank, st := .resident, det := p.det.map fun e => if e.1 = prank then (e.1, det e.2) else e }
    let d := d.resumeSatoms part prank r x.core.out
    let eaten := d.poison.filter fun l => decide (base + 0xA0000 ≤ 128 * l) && decide (128 * l < base + 0xB1100)
    let d := eaten.foldl (fun d l => d.logAgentPoison part (homeSlice 0 (128 * l)) (128 * l)) d
    let d := (List.range 16).foldl (fun d k => d.modSlot r k fun s =>
      (s.pend.filter (·.need == 0)).foldl (fun s p => s.arriveResult p.id) s) d
    before.withFlags d part

/-- Whether another partition is resident on cores of this one's interval (R78). -/
def Dev.overlapped (d : Dev) (part : Nat) : Bool :=
  let p := (d.part part).cfg
  d.parts.any fun q => q.1 != part && q.2.st == .resident && decide (q.2.cfg.hbase < p.hbase + p.hlen)
    && decide (p.hbase < q.2.cfg.hbase + q.2.cfg.hlen)

/-- Whether partition rank `prank` can resume now. -/
def Dev.canResume (d : Dev) (part prank : Nat) : Bool :=
  let p := d.part part
  let c := d.core (p.devRank prank)
  (aget? p.ctx prank).isSome && p.st != .stopped && c.part.isNone && !c.lost && !d.overlapped part
    && !d.spanHeld (p.ctxAt prank) ctxSize

/-! ### The start of a partition (R78, R110, R142, R359) -/

/-- A started partition becomes RESIDENT: from STOPPED its cores begin empty, with counters and slot owners 0; from DESCHEDULED each core
resumes on its own. -/
def Dev.scheduleNow (d : Dev) (part : Nat) : Dev :=
  let p := d.part part
  let ranks := (List.range p.cfg.hlen).map p.devRank
  match p.st with
  | .resident => d
  | .descheduled => if d.overlapped part then d else d.modPart part fun p => { p with st := .resident }
  | .stopped =>
    if !p.started || d.overlapped part || ranks.any fun r => (d.core r).part.isSome then d
    else
      let blank := ranks.foldl (fun d r => d.modCore r fun c => c.blank (some part)) d
      d.withFlags (blank.modPart part fun p => { p with st := .resident }) part

/-! ### A move of HBASE (R119) -/

/-- The partition moves to a new interval: its hamper entries in the old quads are discarded, and its dropped flag is set in every new one,
which is posted to the pager (R171). -/
def Dev.moveBase (d : Dev) (part hbase : Nat) : Dev :=
  let old := (d.part part).cfg
  let quads (b : Nat) : List Nat := (List.range 1024).filter fun q => decide (b < 4 * q + 4) && decide (4 * q < b + old.hlen)
  let d := (quads old.hbase).foldl (fun d q => d.modQuad q fun x =>
    { x with hamper := x.hamper.filter (·.part != part), dropped := x.dropped.filter (· != part) }) d
  let d := d.modPart part fun p =>
    { p with
      cfg := { p.cfg with hbase := hbase }
      sweeps := p.sweeps.map fun w => (w.1, { w.2 with issuer := hbase + (w.2.issuer - old.hbase) }) }
  (quads hbase).foldl (fun d q => (d.modQuad q fun x => { x with dropped := x.dropped ++ [part] }).pagerPost q part) d

end Sys2Proof.Machine
end

