-- ==== Sys2Proof/Machine/Queues.lean ====
section
/-! DEFINITION. The host interface below the commands: host memory (R60), registers (R61-R66), completion queues and vectors (R67, R72),
which functions are active (R83), held events (R84), and how commands are fetched (R68-R70). -/

namespace Sys2Proof.Machine

/-! ### Functions, queues, host memory -/

def State.fn (s : State) (f : Nat) : Fn := (aget? s.host.funcs f).getD Fn.reset
def State.modHost (s : State) (g : HostIf → HostIf) : State := { s with host := g s.host }
def State.modFn (s : State) (f : Nat) (g : Fn → Fn) : State := s.modHost fun h => { h with funcs := aset h.funcs f (g (s.fn f)) }
def State.modDev (s : State) (g : Dev → Dev) : State := { s with dev := g s.dev }
def State.modBoot (s : State) (g : Boot → Boot) : State := { s with boot := g s.boot }
def Fn.queue (x : Fn) (q : Nat) : Queue := (aget? x.queues q).getD Queue.reset
def Fn.setQueue (x : Fn) (q : Nat) (y : Queue) : Fn := { x with queues := aset x.queues q y }
def State.queue (s : State) (f q : Nat) : Queue := (s.fn f).queue q
def State.setQueue (s : State) (f q : Nat) (y : Queue) : State := s.modFn f fun x => x.setQueue q y

/-! ### Routing IDs (R60) -/

/-- The SR-IOV values of the physical function. -/
def totalVfs : Nat := 512
def firstVfOffset : Nat := 1
def vfStride : Nat := 1

/-- The routing ID of a function: that of the physical function for 0, and of VF n that plus n. Its bits [15:8] are the bus, and under ARI its
bits [7:0] the function number. -/
def HostIf.routingId (h : HostIf) (n : Nat) : Nat := if n = 0 then h.pfRid else h.pfRid + firstVfOffset + (n - 1) * vfStride

def ridBus (rid : Nat) : Nat := rid / 256
def ridFunction (rid : Nat) : Nat := rid % 256

/-- The function that a routing ID names. -/
def HostIf.fnOfRid (h : HostIf) (rid : Nat) : Option Nat := (List.range (totalVfs + 1)).find? fun n => h.routingId n == rid

/-- Entries of a queue (R64): sizes other than 2^4 to 2^16 count as 2^4. -/
def Queue.size (y : Queue) : Nat := 2 ^ (if 4 ≤ y.log2size ∧ y.log2size ≤ 16 then y.log2size else 4)

/-- Whether the host's IOMMU refuses a byte of a range. -/
def State.iommuFault (s : State) (iova n : Nat) : Bool :=
  s.host.iommuBad.any fun r => decide (r.1 < iova + n) && decide (iova < r.1 + r.2)

def State.hostRead (s : State) (iova n : Nat) : Option Nat := if s.iommuFault iova n then none else some (s.host.hostMem.nat iova n)
def State.hostWrite (s : State) (iova n x : Nat) : State :=
  if s.iommuFault iova n then s else s.modHost fun h => { h with hostMem := h.hostMem.setNat iova n x }

/-! ### Active functions (R83) -/

/-- Whether the device fetches commands of a function: the physical function once it is ready and enabled; a VF that is bound, enabled and
not paused, while its partition is RESIDENT. -/
def State.active (s : State) (f : Nat) : Bool :=
  let x := s.fn f
  s.boot.ready && x.en && (f == 0 || (!x.paused && x.bound.any fun p => (s.dev.part p).st == .resident))

/-- VFSTAT.STATE (R63); a bound VF that is neither active, descheduled nor paused reads 2 (log entry 24). -/
def State.vfState (s : State) (f : Nat) : Nat :=
  let x := s.fn f
  if x.bound.isNone then 0 else if x.paused then 3 else if s.active f then 1 else 2

/-! ### Vectors and completion records (R67, R72) -/

/-- Send vector `v` of a function: a masked one becomes pending (the PCIe specification's table, log entry 7). -/
def State.sendVector (s : State) (f v : Nat) : State :=
  let e := (aget? (s.fn f).msix v).getD (BitVec.ofNat 128 (2 ^ 96))
  if e.getLsbD 96 then s.modFn f fun x => { x with pba := x.pba ||| 2 ^ v }
  else s.modHost fun h => { h with msis := (f, v) :: h.msis }

/-- The queue's vector is sent for the records written since its last send, unless that was less than 1,250 cycles ago. -/
def State.trySend (s : State) (f q : Nat) : State :=
  let y := s.queue f q
  if y.unsent && !y.interval then (s.setQueue f q { y with unsent := false, interval := true }).sendVector f y.vec else s

def Queue.full (y : Queue) : Bool := (y.cqtail + 1) % y.size == y.cqhead

/-- Write one record at the CQ tail, with the current phase and SQHEAD. A record whose address the host's IOMMU refuses is lost, and the tail and
the phase go on (log entry 55). -/
def State.putRecord (s : State) (f q : Nat) (rec_ : BitVec 128) : State :=
  let y := s.queue f q
  let r := rec_.toNat + y.sqhead % 65536 * 2 ^ 16 + (if y.phase then 2 ^ 48 else 0)
  let s := s.hostWrite (y.cqbase.toNat / 4096 * 4096 + 16 * y.cqtail) 16 r
  let t := (y.cqtail + 1) % y.size
  s.setQueue f q { y with cqtail := t, phase := if t = 0 then !y.phase else y.phase, unsent := y.unsent || y.ien }

/-- Held records are written while the CQ has room (structural on their number). -/
def State.drainCq (s : State) (f q : Nat) : Nat → State
  | 0 => s
  | n + 1 =>
    let y := s.queue f q
    match y.heldRecs with
    | r :: t => if y.full then s else ((s.setQueue f q { y with heldRecs := t }).putRecord f q r).drainCq f q n
    | [] => s

/-- A record for a queue: written in order while there is room, and discarded when the CQ is disabled. -/
def State.addRecord (s : State) (f q : Nat) (rec_ : BitVec 128) : State :=
  let y := s.queue f q
  if !y.cqen then s
  else (s.setQueue f q { y with heldRecs := y.heldRecs ++ [rec_] }).drainCq f q (y.heldRecs.length + 1)

/-- The record of a command, without phase and SQHEAD. -/
def record (q cid status info : Nat) : BitVec 128 :=
  BitVec.ofNat 128 (info % 2 ^ 64 * 2 ^ 64 + q % 16 * 2 ^ 60 + status % 65536 * 2 ^ 32 + cid % 65536)

/-- An event of a function (R84): of an older generation it is discarded; for an inactive VF it is held with its vector; otherwise it is
written and its vector sent. Whether a held event of a queue with IEN = 0 sets its vector's bit in PENDVEC the spec does not say: it sets none, since
such a queue sends none (DESIGN CHOICE, log entry 55). -/
def State.event (s : State) (f gen q : Nat) (rec_ : BitVec 128) : State :=
  let x := s.fn f
  if gen != x.gen then s
  else if f == 0 || s.active f then (s.addRecord f q rec_).trySend f q
  else
    let y := x.queue q
    s.modFn f fun x => { x with held := x.held ++ [⟨gen, q, rec_⟩], pendvec := if y.ien then x.pendvec ||| 2 ^ y.vec else x.pendvec }

/-- The held events of a VF that has become active are written, and then its pending vectors sent (R84). Where that is within 1,250 cycles of a
queue's last send the spec does not say which of R67 and R84 gives way: they are sent at once (DESIGN CHOICE, log entry 55). -/
def State.flushHeld (s : State) (f : Nat) : State :=
  let x := s.fn f
  if x.held.isEmpty || !s.active f then s
  else
    let s := s.modFn f fun x => { x with held := [], pendvec := 0 }
    let s := (x.held.filter (·.gen == x.gen)).foldl (fun s e => s.addRecord f e.queue e.record) s
    let vs := (List.range 16).filter fun v => x.pendvec / 2 ^ v % 2 == 1
    let s := vs.foldl (fun s v => s.sendVector f v) s
    let mark (y : Queue) : Queue := if vs.contains y.vec && y.ien then { y with unsent := false, interval := true } else y
    s.modFn f fun x => { x with queues := x.queues.map fun y => (y.1, mark y.2) }

/-- The VFs of a partition whose activity may have changed. -/
def State.partChanged (s : State) (part : Nat) : State :=
  ((s.host.funcs.filter fun x => x.2.bound == some part).map (·.1)).foldl State.flushHeld s

/-! ### Commands: words and completion (R69-R73) -/

def stSuccess : Nat := 0x0000
def stOpcode : Nat := 0x0001
def stHostAddress : Nat := 0x0004
def stDataerr : Nat := 0x0006
def stAborted : Nat := 0x0007
def stNotPermitted : Nat := 0x0008
def stTimeout : Nat := 0x000A

/-- The command at hand. -/
def State.cmdFn (s : State) : Nat := s.args.a
def State.cmdQueue (s : State) : Nat := s.args.b
def cmdCid (x : BitVec 512) : Nat := swf x 0 16 16
def cmdNocqe (x : BitVec 512) : Bool := x.getLsbD 9
def cmdAccept (x : BitVec 512) : Bool := x.getLsbD 10
def cmdFence (x : BitVec 512) : Bool := x.getLsbD 8

/-- A command completes: no record when NOCQE is set and the status is SUCCESS. -/
def State.complete (s : State) (f gen q cid : Nat) (nocqe : Bool) (status info : Nat) : State :=
  if nocqe && status == 0 then s else s.event f gen q (record q cid status info)

/-- The command that starts completes at once. -/
def State.answer (s : State) (status : Nat) (info : Nat := 0) : State :=
  let x := s.args.cmd
  s.complete s.cmdFn (s.fn s.cmdFn).gen s.cmdQueue (cmdCid x) (cmdNocqe x) status info

/-- The command stays in execution; its number. -/
def State.begin_ (s : State) (part : Nat) (kind : CmdKind) : Nat × State :=
  let x := s.args.cmd
  let n := s.host.nextCmd
  let c : Cmd := { fn := s.cmdFn, queue := s.cmdQueue, gen := (s.fn s.cmdFn).gen, part := part, cid := cmdCid x, accept := cmdAccept x, nocqe := cmdNocqe x, kind := kind }
  (n, s.modHost fun h => { h with cmds := aset h.cmds n c, nextCmd := n + 1 })

def State.start (s : State) (part : Nat) (kind : CmdKind) : State := (s.begin_ part kind).2

/-- A command in execution completes. -/
def State.endCmd (s : State) (n : Nat) (status info : Nat) : State :=
  match aget? s.host.cmds n with
  | none => s
  | some c => (s.modHost fun h => { h with cmds := adel h.cmds n }).complete c.fn c.gen c.queue c.cid c.nocqe status info

/-- Change the kind of a command in execution: its progress. -/
def State.setKind (s : State) (n : Nat) (k : CmdKind) : State :=
  s.modHost fun h => match aget? h.cmds n with
    | some c => { h with cmds := aset h.cmds n { c with kind := k } }
    | none => h

/-- The bits of a command that are not reserved: bits 31 to 16 and 10 to 0 of word 0, and the listed fields (word, low bit, width). -/
def cmdMask (fields : List (Nat × Nat × Nat)) : BitVec 512 :=
  fields.foldl (fun m f => m ||| BitVec.ofNat 512 ((2 ^ f.2.2 - 1) * 2 ^ (64 * f.1 + f.2.1))) (BitVec.ofNat 512 0xFFFF07FF)

def cmdReserved (x : BitVec 512) (fields : List (Nat × Nat × Nat)) : Bool := (x &&& ~~~(cmdMask fields)) != 0

/-- A VF command (R70): INVALID_OPCODE on the physical function, NOT_PERMITTED without supervisor rights where it needs them,
INVALID_FIELD for a reserved bit; `run` acts for the VF's partition. A function that is not active starts none. The order of the last two, for a
ROUTINE or MAP with both, is in no rule (DESIGN CHOICE, log entry 55). -/
def State.vfCommand (s : State) (sup : Bool) (fields : List (Nat × Nat × Nat)) (run : Nat → State) : State :=
  let x := s.fn s.cmdFn
  if !s.active s.cmdFn then s
  else if s.cmdFn = 0 then s.answer stOpcode
  else if sup && !(s.cmdQueue == 0 && x.sup) then s.answer stNotPermitted
  else if cmdReserved s.args.cmd fields then s.answer stInvalid
  else match x.bound with
    | some p => run p
    | none => s

/-- A PF command. -/
def State.pfCommand (s : State) (fields : List (Nat × Nat × Nat)) (run : State) : State :=
  if !s.active s.cmdFn then s
  else if s.cmdFn != 0 then s.answer stOpcode
  else if cmdReserved s.args.cmd fields then s.answer stInvalid
  else run

/-! ### Register writes (R61-R66) -/

/-- A write of SQBASE or CQBASE: ignored, with QERR, while the queue is enabled (R65). -/
def State.setBase (s : State) (f q : Nat) (cq : Bool) (v : Word) : State :=
  let y := s.queue f q
  if y.sqen || y.cqen then s.modFn f fun x => { x with qerr := true }
  else s.setQueue f q (if cq then { y with cqbase := v } else { y with sqbase := v })

/-- A write of QCFG (R64, R65). LOG2SIZE is ignored while the queue is enabled; QERR is set when it would have changed (log entry 25). Finished
records that wait for room are dropped when CQEN is cleared (log entry 55). -/
def State.setQcfg (s : State) (f q : Nat) (v : Word) : State :=
  let y := s.queue f q
  let lg := (v.extractLsb' 0 5).toNat
  let on := y.sqen || y.cqen
  let sq := v.getLsbD 16
  let cq := v.getLsbD 17
  let y' : Queue := { y with
    vec := (v.extractLsb' 8 4).toNat, ien := v.getLsbD 18, sqen := sq, cqen := cq
    log2size := if on then y.log2size else lg
    sqhead := if sq && !y.sqen then 0 else y.sqhead
    sqtail := if sq && !y.sqen then 0 else y.sqtail
    cqhead := if cq && !y.cqen then 0 else y.cqhead
    cqtail := if cq && !y.cqen then 0 else y.cqtail
    phase := if cq && !y.cqen then true else y.phase
    heldRecs := if cq then y.heldRecs else [] }
  let s := s.setQueue f q y'
  if on && lg != y.log2size then s.modFn f fun x => { x with qerr := true } else s

/-- A write of the SQ tail doorbell (R66). -/
def State.setSqtail (s : State) (f q : Nat) (v : Nat) : State :=
  let y := s.queue f q
  if y.size ≤ v then s.modFn f fun x => { x with dberr := true } else s.setQueue f q { y with sqtail := v }

/-- A write of the CQ head doorbell (R67): held records follow into the freed entries, whether the VF is active or not, since their events arose
while it was. A value of the size or more is a doorbell value that is ignored (R66; log entry 55). -/
def State.setCqhead (s : State) (f q : Nat) (v : Nat) : State :=
  let y := s.queue f q
  if y.size ≤ v then s.modFn f fun x => { x with dberr := true }
  else ((s.setQueue f q { y with cqhead := v }).drainCq f q y.heldRecs.length).trySend f q

/-- A write of VFCTL (R63, R83): EN; a pending VFBIND takes effect when it is set, and a VF that becomes active writes its held events. -/
def State.setVfctl (s : State) (f : Nat) (v : Word) : State :=
  let en := v.getLsbD 0
  let s := s.modFn f fun x =>
    let x := match x.pendBind with
      | some b => if en && !x.en then { x with bound := b.part, sup := b.sup, pendBind := none } else x
      | none => x
    { x with en := en }
  s.flushHeld f

/-- The bytes that an access to the MSI-X table covers: 8 at a multiple of 8 unless it is a DWORD access, 4 at any other multiple of 4. -/
def msixSpan (off : Nat) (dword : Bool) : Nat := if off % 4 ≠ 0 then 0 else if dword || off % 8 = 4 then 4 else 8

/-- A write into the MSI-X table (log entry 7): a DWORD or a QWORD of an entry; unmasking sends a pending vector. -/
def State.setMsix (s : State) (f off : Nat) (dword : Bool) (v : Word) : State :=
  let i := off / 16
  let k := 8 * (off % 16)
  let m : Nat := (2 ^ (8 * msixSpan off dword) - 1) * 2 ^ k
  let old := (aget? (s.fn f).msix i).getD (BitVec.ofNat 128 (2 ^ 96))
  let e := (old &&& ~~~(BitVec.ofNat 128 m) ||| BitVec.ofNat 128 (v.toNat * 2 ^ k) &&& BitVec.ofNat 128 m) &&& BitVec.ofNat 128 (2 ^ 97 - 1)
  let pending := (s.fn f).pba / 2 ^ i % 2 == 1
  let s := s.modFn f fun x => { x with msix := aset x.msix i e, pba := if pending && !e.getLsbD 96 then x.pba - 2 ^ i else x.pba }
  if pending && !e.getLsbD 96 then s.sendVector f i else s

/-- A write into the queue block of a function (R61); `dword` for one of 32 bits into the MSI-X table. -/
def State.writeBlock (s : State) (f off : Nat) (dword : Bool) (v : Word) : State :=
  let q := (off - 0x1000) / 32
  if off = 0x0008 then s.setVfctl f v
  else if off = 0x0010 then
    s.modFn f fun x => { x with qerr := x.qerr && !v.getLsbD 4, dberr := x.dberr && !v.getLsbD 3 }
  else if 0x1000 ≤ off ∧ off < 0x1200 then
    if off % 32 = 0 then s.setBase f q false v
    else if off % 32 = 8 then s.setBase f q true v
    else if off % 32 = 16 then s.setQcfg f q v else s
  else if 0x2000 ≤ off ∧ off < 0x2080 then
    let q := (off - 0x2000) / 8
    if off % 8 = 0 then s.setSqtail f q (v.toNat % 2 ^ 32)
    else if off % 8 = 4 then s.setCqhead f q (v.toNat % 2 ^ 32) else s
  else if 0x3000 ≤ off ∧ off < 0x3100 ∧ off % 4 = 0 then s.setMsix f (off - 0x3000) dword v
  else s

/-- A command that MGCMD does not know is refused; any other one runs (R50). -/
def mgKnown (x : BitVec 16) : Bool :=
  [0x0001, 0x0101, 0x0002, 0x0003, 0x0103].contains x.toNat

/-- A write into the management window (R49, R50, R81). Bits [63:16] of a value written to MGCMD are ignored, and a command leaves DONE and
RESULT of the one before until it ends (log entry 55). -/
def State.writeMgmt (s : State) (off : Nat) (v : Word) : State :=
  if off = 0x0100 then
    let n := (v.extractLsb' 0 14).toNat
    if 1 ≤ n ∧ n ≤ 1000 then s.modDev fun d => { d with llcreb := n } else s
  else if off = 0x0200 then
    if s.boot.mgBusy.isSome then s
    else
      let x := v.extractLsb' 0 16
      if mgKnown x then s.modBoot fun b => { b with mgBusy := some x } else s.modBoot fun b => { b with mgResult := 0x0100, mgDone := true }
  else if off = 0x0208 then s.modBoot fun b => { b with mgiova := v }
  else if off = 0x0210 then s.modBoot fun b => { b with mglen := v }
  else if off = 0x0218 then s.modBoot fun b => { b with mgDone := b.mgDone && !v.getLsbD 1 }
  else s

/-- A write to BAR0 of a function (R61). In recovery only the management window responds (R45). -/
def State.writeReg (s : State) (f off : Nat) (dword : Bool) (v : Word) : State :=
  if f = 0 then
    if off < 0x10000 then s.writeMgmt off v
    else if s.boot.recovery then s else s.writeBlock 0 (off - 0x10000) dword v
  else if s.boot.recovery || decide (totalVfs < f) then s else s.writeBlock f off dword v

/-! ### Register reads -/

def bit (b : Bool) (n : Nat) : Nat := if b then 2 ^ n else 0

/-- BOOTSTAT (R49). -/
def Boot.bootstat (b : Boot) : Word :=
  BitVec.ofNat 64 (b.errcode * 2 ^ 32 + b.stage * 2 ^ 24 + bit b.feport 16 + b.tries * 2 ^ 8 + bit b.recovery 1 + bit b.ready 0)

/-- MGSTAT (R50). -/
def Boot.mgstat (b : Boot) : Word := BitVec.ofNat 64 (b.mgResult * 2 ^ 16 + bit b.mgDone 1 + bit b.mgBusy.isSome 0)

/-- VFCAP (R62). In the block of the physical function VFID reads 0, as VFSTAT.STATE does (log entry 55). -/
def State.vfcap (s : State) (f : Nat) : Word :=
  let x := s.fn f
  BitVec.ofNat 64 (f % 1024 * 2 ^ 32 + x.bound.getD 0 % 64 * 2 ^ 26 + bit x.sup 25 + bit x.bound.isSome 24 + 16)

/-- VFSTAT (R63). -/
def State.vfstat (s : State) (f : Nat) : Word :=
  let x := s.fn f
  BitVec.ofNat 64 (x.gen % 65536 * 2 ^ 48 + x.pendvec % 65536 * 2 ^ 32 + s.vfState f % 8 * 2 ^ 5 + bit x.qerr 4 + bit x.dberr 3)

/-- QCFG as it reads (R64). -/
def Queue.qcfg (y : Queue) : Word :=
  BitVec.ofNat 64 (y.sqhead % 65536 * 2 ^ 32 + bit y.ien 18 + bit y.cqen 17 + bit y.sqen 16 + y.vec % 16 * 2 ^ 8 + y.log2size % 32)

/-- A read of the queue block of a function. The doorbells read 0 (log entry 55). -/
def State.readBlock (s : State) (f off : Nat) : Word :=
  let y := s.queue f ((off - 0x1000) / 32)
  let e := (aget? (s.fn f).msix ((off - 0x3000) / 16)).getD (BitVec.ofNat 128 (2 ^ 96))
  if off = 0 then s.vfcap f
  else if off = 0x0008 then BitVec.ofNat 64 (bit (s.fn f).en 0)
  else if off = 0x0010 then s.vfstat f
  else if 0x1000 ≤ off ∧ off < 0x1200 then
    if off % 32 = 0 then y.sqbase else if off % 32 = 8 then y.cqbase else if off % 32 = 16 then y.qcfg else 0
  else if 0x3000 ≤ off ∧ off < 0x3100 then BitVec.ofNat 64 (e.toNat / 2 ^ (8 * (off % 16)) % 2 ^ (8 * msixSpan (off - 0x3000) false))
  else if off = 0x3800 then BitVec.ofNat 64 (s.fn f).pba else 0

/-- A read of BAR0 of a function (R61); it changes nothing. -/
def State.readReg (s : State) (f off : Nat) : Word :=
  if f = 0 then
    if off < 0x10000 then
      if off = 0x0040 then s.boot.bootstat
      else if off = 0x0100 then BitVec.ofNat 64 s.dev.llcreb
      else if off = 0x0208 then s.boot.mgiova
      else if off = 0x0210 then s.boot.mglen
      else if off = 0x0218 then s.boot.mgstat else 0
    else if s.boot.recovery then 0 else s.readBlock 0 (off - 0x10000)
  else if s.boot.recovery then 0 else s.readBlock f off

/-! ### The rows of the host's register writes -/

/-- A step of the whole machine. -/
def State.to (s : State) : Host.Outcome State Fault Refusal := .next s

/-- SQTAIL (R66): function `a`, queue `b`, value `v`. -/
def execSqtail (s : State) : Host.Outcome State Fault Refusal :=
  (if s.boot.recovery then s else s.setSqtail s.args.a s.args.b (s.args.v.toNat % 2 ^ 32)).to
/-- CQHEAD (R67). -/
def execCqhead (s : State) : Host.Outcome State Fault Refusal :=
  (if s.boot.recovery then s else s.setCqhead s.args.a s.args.b (s.args.v.toNat % 2 ^ 32)).to
/-- QCFG (R65). -/
def execQcfg (s : State) : Host.Outcome State Fault Refusal :=
  (if s.boot.recovery then s else s.setQcfg s.args.a s.args.b s.args.v).to
/-- VFCTL (R83). -/
def execVfctl (s : State) : Host.Outcome State Fault Refusal :=
  (if s.boot.recovery then s else s.setVfctl s.args.a s.args.v).to
/-- REGISTER_WRITE (R8): function `a`, offset `b` in its BAR0, value `v`; with `ok2` an access of 32 bits. -/
def execRegisterWrite (s : State) : Host.Outcome State Fault Refusal := (s.writeReg s.args.a s.args.b s.args.ok2 s.args.v).to

/-- MSIX_DEFERRED_SEND (R67): 1,250 cycles have passed since the last send of queue `b` of function `a`; one send covers what was written
since. -/
def execMsixDeferredSend (s : State) : Host.Outcome State Fault Refusal :=
  let y := s.queue s.args.a s.args.b
  ((s.setQueue s.args.a s.args.b { y with interval := false }).trySend s.args.a s.args.b).to

/-- CORE_RESUME (R118): partition `b` resumes on core `a`, which becomes its rank `a` - HBASE. -/
def execCoreResume (s : State) : Host.Outcome State Fault Refusal :=
  let part := s.args.b
  let prank := s.args.a - (s.dev.part part).cfg.hbase
  (if s.dev.canResume part prank then (s.modDev fun d => d.resumeNow part prank).partChanged part else s).to

/-- PARTITION_SCHEDULE (R78): Flojo schedules partition `a`. -/
def execPartitionSchedule (s : State) : Host.Outcome State Fault Refusal :=
  ((s.modDev fun d => d.scheduleNow s.args.a).partChanged s.args.a).to

end Sys2Proof.Machine
end

