-- ==== Sys2Proof/Machine/Commands.lean ====
section
/-! DEFINITION. The host commands (R70, R71, R76-R78, R83-R86): one definition for each row, the pieces in which a command in execution goes
on, and the device's fetch of the next command (R68). -/

namespace Sys2Proof.Machine

/-- Field of the command at hand: word, low bit, width. -/
def State.cf (s : State) (w lo n : Nat) : Nat := swf s.args.cmd w lo n

/-! ### LAUNCH (R71, R89-R92) -/

/-- The start block of a descriptor, once every page of its `.local` image can be read with user rights (check 5 of R90). -/
def launchBlock (part segtab : Nat) : Eng Nat := do
  let q := (← get).homeQuad part
  let rd : Access := { read := true, twinOk := true }
  let ps ← engRange q part rd segtab 256
  let b ← engReadPieces part ps
  match blockLocal b with
  | some (g, n) =>
    let _ ← engRange q part rd g n
    pure b
  | none => pure b

/-- The group of an accepted launch stands in its placement queue; with ACCEPT the command completes. -/
def State.launchAccept (s : State) (n : Nat) (c : Cmd) (x : Desc) (b gid : Nat) : State :=
  let g := newGroup gid x (blockSegs b) (blockLocal b) (if c.accept then none else some n) none
  let s := s.modDev fun d => (d.setGroup c.part g).modPart c.part fun p => p.queueGroup gid x
  if c.accept then s.endCmd n stSuccess gid else s.setKind n (.launch gid)

/-- A command waits for a held line in the home queue of the line (R175, R205). -/
def State.cmdHeld (s : State) (n : Nat) (c : Cmd) (line : Option Nat) (write : Bool) : State :=
  s.modDev fun d => d.queueHeld noRank c.part line (.command n) write

/-- The checks of R90 in order, and then the group id: a launch that finds none stays in execution (R91). -/
def State.launchGo (s : State) (n : Nat) (c : Cmd) (x : BitVec 512) : State :=
  let p := s.dev.part c.part
  match p.checkDesc x true with
  | some st => s.endCmd n st 0
  | none =>
    let desc := parseDesc x
    match launchBlock c.part desc.segtab s.dev with
    | .error (.hold l w) => s.cmdHeld n c l w
    | .error _ => s.endCmd n stDeviceAddress 0
    | .ok (b, d) =>
      let s := { s with dev := d }
      if blockBad b desc.scratch then s.endCmd n stInvalid 0
      else match (s.dev.part c.part).freeGroup with
        | none => s
        | some gid => s.launchAccept n c desc b gid

/-- Whether a group that a LAUNCH waits for has ended and its releases are complete; the command then completes (R71, R39). -/
def State.launchEnd (s : State) (n : Nat) : State :=
  match s.dev.ended.find? (·.cmd == n) with
  | some e =>
    if e.gates.all s.dev.gateOpen then
      (s.modDev fun d => { d with ended := d.ended.filter fun e => e.cmd != n }).endCmd n
        (if e.lost = 0 then stSuccess else stDataerr) (e.group + e.lost * 2 ^ 32)
    else s
  | none => s

/-! ### COPYH and FILL (R71) -/

/-- How a piece of a copy ends early: DEVICE_ADDRESS, DATAERR, HOST_ADDRESS, or it waits for a held line. -/
inductive CopyStop where
  | device
  | data (gva : Nat)
  | host
  | hold (line : Option Nat) (write : Bool)
  deriving DecidableEq, Repr

/-- The translation of a page of a command, with user rights. A write into a twin region takes the back copy that the command chose when it
first wrote the page (R162), which it names as an entry of the pair; any other page is written as it is. -/
def cmdTrans (part : Nat) (write : Bool) (gva : Nat) (backs : List BackChoice) : Eng (Trans × List BackChoice) := do
  let q := (← get).homeQuad part
  let plain : Access := { read := !write, write := write, twinOk := true }
  if !write then pure (← engTrans q part plain gva, [])
  else match ← engEntry q part { plain with twinOnly := true } gva with
    | none => Eng.stop (.wait gva true)
    | some e =>
      if e.twin then
        let (t, b) ← engBack q part gva backs
        pure (t, [b])
      else pure (← engTrans q part plain gva, [])

/-- The `n` bytes of a piece, which lies in one line: read, or written with the value `x`. With them go the back copies chosen. -/
def cmdPiece (part : Nat) (write : Bool) (gva n x : Nat) (backs : List BackChoice) : Eng (Nat × List BackChoice) := do
  let (t, backs) ← cmdTrans part write gva backs
  if write then
    engWritePieces part x [(t, 0, n)]
    pure (0, keptBacks (gva + n) backs)
  else pure (← engReadPiece part t n, [])

def EStop.toCopy : EStop → CopyStop
  | .wait _ _ | .refused _ | .far _ _ _ _ | .poison _ _ => .device
  | .hold l w => .hold l w
  | .fail c g => if c = .dataerr then .data g else .device

/-- The next piece: up to the end of the line of `gva`. -/
def cmdLen (gva len done : Nat) : Nat := min (128 - (gva + done) % 128) (len - done)

/-- Move the next piece of a COPYH. A range that runs past GVA 2^48 gives DEVICE_ADDRESS (log entry 55). -/
def State.copyhPiece (s : State) (part : Nat) (toHost : Bool) (iova gva len done : Nat) (backs : List BackChoice) :
    Except CopyStop (State × List BackChoice) :=
  let n := cmdLen gva len done
  if 2 ^ 48 < gva + done + n then .error .device
  else if toHost then
    match cmdPiece part false (gva + done) n 0 backs s.dev with
    | .error e => .error e.toCopy
    | .ok (x, d) =>
      if s.iommuFault (iova + done) n then .error .host else .ok ({ s with dev := d }.hostWrite (iova + done) n x.1, x.2)
  else match s.hostRead (iova + done) n with
    | none => .error .host
    | some x => match cmdPiece part true (gva + done) n x backs s.dev with
      | .error e => .error e.toCopy
      | .ok (y, d) => .ok ({ s with dev := d }, y.2)

/-- The value of a piece of a FILL: the pattern's bytes from the 8-byte word that holds its first byte. -/
def fillValue (pattern : Word) : Nat → Nat
  | 0 => 0
  | k + 1 => pattern.toNat + 2 ^ 64 * fillValue pattern k

/-- Write the next piece of a FILL; its range is bounded as that of COPYH is. -/
def State.fillPiece (s : State) (part gva len done : Nat) (pattern : Word) (backs : List BackChoice) :
    Except CopyStop (State × List BackChoice) :=
  let n := cmdLen gva len done
  if 2 ^ 48 < gva + done + n then .error .device
  else match cmdPiece part true (gva + done) n (fillValue pattern (n / 8)) backs s.dev with
    | .error e => .error e.toCopy
    | .ok (y, d) => .ok ({ s with dev := d }, y.2)

/-- A record of poison that a host command consumed (R54). -/
def State.logHostPoison (s : State) (part atype addr : Nat) : State :=
  s.modDev fun d => d.logPart part ⟨0x07, 10, atype, addr, 2, 5156, 15, 0, 1⟩

/-- A piece has ended: the command goes on, completes, or completes with the status of its failure. -/
def State.pieceDone (s : State) (n : Nat) (c : Cmd) (done len k : Nat) (kind : Nat → List BackChoice → CmdKind) :
    Except CopyStop (State × List BackChoice) → State
  | .ok (s, backs) => if len ≤ done + k then s.endCmd n stSuccess 0 else s.setKind n (kind (done + k) backs)
  | .error (.hold l w) => s.cmdHeld n c l w
  | .error .device => s.endCmd n stDeviceAddress done
  | .error .host => s.endCmd n stHostAddress 0
  | .error (.data g) => (s.logHostPoison c.part 1 g).endCmd n stDataerr 0

/-! ### ROUTINE and MAP (R71, R358) -/

/-- How an access of a command to a table stops it: it waits for a held line (R205), or poison ends it with DATAERR. -/
def State.tableStop (s : State) (n : Nat) (c : Cmd) (at_ : Nat) : EStop → State
  | .hold l w => s.cmdHeld n c l w
  | .wait _ _ | .fail _ _ | .poison _ _ | .refused _ | .far _ _ _ _ => (s.logHostPoison c.part 2 at_).endCmd n stDataerr 0

/-- The entry of a ROUTINE is written with BAD, BADIDX and BADWHY 0, and takes effect as by `srsync`. -/
def State.routineGo (s : State) (n : Nat) (c : Cmd) : State :=
  let entry := s.cf 0 32 6
  let w := 2 ^ 63 + s.cf 0 40 1 * 2 ^ 61 + s.cf 0 39 1 * 2 ^ 60 + s.cf 0 38 1 * 2 ^ 59 + s.cf 0 41 6 * 2 ^ 53 + s.cf 1 0 48
  let at_ := s.dev.routineAt c.part entry
  let go : Eng Unit := do
    agWrite at_ 16 w c.part
    refreshEntry c.part entry
  match go s.dev with
  | .ok (_, d) => { s with dev := d }.endCmd n stSuccess 0
  | .error e => s.tableStop n c at_ e

/-- The leaf entry that MAP writes for one page, and where, or none for DEVICE_ADDRESS, which a page past GVA 2^48 gives too (log entry 55). In a
twin region it is the front entry (log entry 26). Whether the conditions on PA and RDONLY also hold for an unmap, with ATTR's valid bit 0, is in no
rule: they are skipped, while the PA must still be aligned (DESIGN CHOICE, log entry 64). -/
def mapEntry (part : Nat) (large : Bool) (gva pa : Nat) (attr : Word) : Eng (Option (Nat × Word)) := do
  let c := ((← get).part part).cfg
  let size := if large then 2 ^ 21 else 65536
  let inside := c.ranges.any fun r => r.valid && decide (65536 * r.base ≤ pa) && decide (pa + size ≤ 65536 * r.limit) && !(leafWr attr && r.rdonly)
  if 2 ^ 48 < gva + size then pure none
  else match ← dirAt part gva with
    | none => pure none
    | some at_ => match dirLeaf (c.tableBase.getD 0) (← pte part at_) with
      | none => pure none
      | some (lg, twin, front, p) =>
        if lg != large || (leafValid attr && !inside) then pure none
        else
          let i := if large then bits gva 22 21 else bits gva 22 16
          let at_ := if twin then p + 8 * (2 * i + (if front then 1 else 0)) else p + 8 * i
          let field : Word := 0x00003FFFFFFF0000
          pure (some (at_, if leafValid attr then (attr &&& ~~~field) ||| (BitVec.ofNat 64 pa &&& field) else 0))

/-- Every entry of a MAP, or none when one of them fails (structural on the number of pages). -/
def mapEntries (part : Nat) (large : Bool) (gva pa : Nat) (attr : Word) : Nat → Eng (Option (List (Nat × Nat × Word)))
  | 0 => pure (some [])
  | k + 1 => do
    let size := if large then 2 ^ 21 else 65536
    match ← mapEntry part large gva pa attr with
    | none => pure none
    | some e => pure ((← mapEntries part large (gva + size) (pa + size) attr k).map ((gva, e) :: ·))

/-- Every check of a MAP, and then each entry is written and shot down; false when a check fails. -/
def mapWrite (part : Nat) (large : Bool) (gva pa : Nat) (attr : Word) (count : Nat) : Eng Bool := do
  match ← mapEntries part large gva pa attr count with
  | none => pure false
  | some es => do
    for e in es do
      agWrite e.2.1 8 e.2.2.toNat part
      Eng.upd fun d => d.shootdown part (if large then 1 else 0) e.1
    pure true

/-- MAP writes its entries; the command completes once the accesses under the old translations are performed. -/
def State.mapGo (s : State) (n : Nat) (c : Cmd) : State :=
  let large := s.cf 0 32 1 == 1
  let size := if large then 2 ^ 21 else 65536
  let gva := s.cf 1 0 48
  let count := s.cf 3 0 32
  let mark := s.dev.accSeq
  match mapWrite c.part large gva (s.cf 2 0 46) (s.args.cmd.extractLsb' 256 64) count s.dev with
  | .ok (true, d) => { s with dev := d }.setKind n (.map (gva / 65536) ((gva + count * size) / 65536) mark)
  | .ok (false, _) => s.endCmd n stDeviceAddress 0
  | .error e => s.tableStop n c (((s.dev.part c.part).cfg.tableBase).getD 0) e

/-! ### Commands in execution -/

/-- Whether every access of a partition under the translations that the shootdowns of pages `lo` to `hi` - 1 discard, stamped before `mark`, has been
performed; a 2 MiB page goes whole (R167). -/
def Dev.pagesDone (d : Dev) (part lo hi mark : Nat) : Bool :=
  let page (p : PageId) : Bool :=
    if p.large then decide (lo / 32 ≤ p.num / 32) && decide (p.num / 32 ≤ (hi - 1) / 32) else decide (lo ≤ p.num) && decide (p.num < hi)
  let agent (q : HomeReq) : Bool := match q.kind with
    | .agent _ _ => true
    | _ => false
  let hit (q : HomeReq) : Bool := !agent q && q.part == part && page q.pg && decide (q.seq < mark)
  !d.homeQ.any hit && !d.sidelined.any hit
    && !(d.cores.any fun c => c.2.wb.any fun e => e.part == part && page e.pg && decide (e.seq < mark))
    && !(d.remote.any fun p => p.2.part == part && page ⟨p.2.gva / 65536, p.2.large⟩ && decide (p.2.seq < mark))

/-- The counter that a WAIT names. -/
def Dev.counterOf (d : Dev) (part rank idx : Nat) : HWord := vget (d.rankCore part rank).counters idx 0

/-- A command in execution goes on: the next piece of a COPYH or FILL; a WAIT, a MAP or a LAUNCH looked at again. -/
def State.cmdStep (s : State) (n : Nat) : State :=
  match aget? s.host.cmds n with
  | none => s
  | some c => match c.kind with
    | .launch _ => s.launchEnd n
    | .launchWait x => s.launchGo n c x
    | .copyh dir iova gva len done backs =>
      s.pieceDone n c done len (cmdLen gva len done) (.copyh dir iova gva len) (s.copyhPiece c.part dir iova gva len done backs)
    | .fill gva len done pattern backs =>
      s.pieceDone n c done len (cmdLen gva len done) (fun k => .fill gva len k pattern) (s.fillPiece c.part gva len done pattern backs)
    | .wait rank idx target _ => if mbxMet (s.dev.counterOf c.part rank idx) target then s.endCmd n stSuccess 0 else s
    | .map lo hi mark => if s.dev.pagesDone c.part lo hi mark then s.endCmd n stSuccess 0 else s
    | .held routine x =>
      let s := { s with args := { s.args with cmd := x } }
      if routine then s.routineGo n c else s.mapGo n c

/-- A command starts and goes on at once. -/
def State.startStep (s : State) (part : Nat) (kind : CmdKind) : State :=
  let r := s.begin_ part kind
  r.2.cmdStep r.1

/-! ### The VF commands -/

/-- LAUNCH (R71): the descriptor is the entry behind the command. -/
def State.launch (s : State) : State := s.vfCommand false [] fun part => s.startStep part (.launchWait s.args.desc)
def execLaunch (s : State) : Host.Outcome State Fault Refusal := s.launch.to

/-- COPYH (R71) -/
def State.copyh (s : State) : State :=
  s.vfCommand false [(0, 32, 1), (1, 0, 64), (2, 0, 48), (3, 0, 33)] fun part =>
    let len := s.cf 3 0 33
    if len = 0 ∨ 2 ^ 32 < len then s.answer stInvalid
    else s.start part (.copyh (s.cf 0 32 1 == 1) (s.cf 1 0 64) (s.cf 2 0 48) len 0 [])
def execCopyh (s : State) : Host.Outcome State Fault Refusal := s.copyh.to

/-- FILL (R71) -/
def State.fill (s : State) : State :=
  s.vfCommand false [(2, 0, 48), (3, 0, 33), (4, 0, 64)] fun part =>
    let len := s.cf 3 0 33
    let gva := s.cf 2 0 48
    if len = 0 ∨ 2 ^ 32 < len ∨ len % 8 ≠ 0 ∨ gva % 8 ≠ 0 then s.answer stInvalid
    else s.start part (.fill gva len 0 (s.args.cmd.extractLsb' 256 64) [])
def execFill (s : State) : Host.Outcome State Fault Refusal := s.fill.to

/-- SIGNAL (R71): every effect of a completed command of the function has been performed at its home, which is the release. -/
def State.signal (s : State) : State :=
  s.vfCommand false [(0, 32, 18), (1, 0, 32)] fun part =>
    if (s.dev.part part).cfg.hlen ≤ s.cf 0 32 12 then s.answer stInvalid
    else (s.modDev fun d => d.post srcHost part (s.cf 0 32 12) (s.cf 0 44 6) (s.args.cmd.extractLsb' 64 32)).answer stSuccess
def execSignal (s : State) : Host.Outcome State Fault Refusal := s.signal.to

/-- WAIT (R71) -/
def State.wait (s : State) : State :=
  s.vfCommand false [(0, 32, 18), (1, 0, 64)] fun part =>
    if (s.dev.part part).cfg.hlen ≤ s.cf 0 32 12 then s.answer stInvalid
    else s.startStep part (.wait (s.cf 0 32 12) (s.cf 0 44 6) (s.args.cmd.extractLsb' 64 32) (s.cf 1 32 32 != 0))
def execWait (s : State) : Host.Outcome State Fault Refusal := s.wait.to

/-- WAIT_TIMEOUT (R71): the TIMEOUT of WAIT command `a` elapses. -/
def execWaitTimeout (s : State) : Host.Outcome State Fault Refusal :=
  (match aget? s.host.cmds s.args.a with
    | some c => match c.kind with
      | .wait rank idx target true =>
        s.endCmd s.args.a (if mbxMet (s.dev.counterOf c.part rank idx) target then stSuccess else stTimeout) 0
      | .wait _ _ _ false | .launch _ | .launchWait _ | .copyh _ _ _ _ _ _ | .fill _ _ _ _ _ | .map _ _ _ | .held _ _ => s
    | none => s).to

/-- ROUTINE (R71, R358) -/
def State.routine (s : State) : State :=
  s.vfCommand true [(0, 32, 15), (1, 0, 48)] fun part =>
    let len := s.cf 0 41 6
    if len = 0 ∨ 32 < len then s.answer stInvalid
    else if (s.dev.part part).cfg.det ∧ s.cf 0 40 1 = 0 ∧ s.cf 0 38 1 = 0 then s.answer stDetviol
    else s.startStep part (.held true s.args.cmd)
def execRoutine (s : State) : Host.Outcome State Fault Refusal := s.routine.to

/-- MAP (R71): every check before any change. -/
def State.map (s : State) : State :=
  s.vfCommand true [(0, 32, 1), (1, 0, 48), (2, 0, 46), (3, 0, 32), (4, 0, 64)] fun part =>
    let size := if s.cf 0 32 1 = 1 then 2 ^ 21 else 65536
    let attr := s.args.cmd.extractLsb' 256 64
    if s.cf 1 0 48 % size ≠ 0 ∨ s.cf 2 0 46 % size ≠ 0 ∨ s.cf 3 0 32 = 0 ∨ attr.extractLsb' 46 5 ≠ 0 ∨ attr.extractLsb' 0 6 ≠ 0
        ∨ (!leafHomed attr && attr.extractLsb' 6 10 != 0) then s.answer stInvalid
    else s.startStep part (.held false s.args.cmd)
def execMap (s : State) : Host.Outcome State Fault Refusal := s.map.to

/-! ### Partition records (R76, R77) -/

/-- The record in 256 bytes. -/
def parsePart (x : BitVec 2048) : PartRec :=
  let f (w lo n : Nat) : Nat := (x.extractLsb' (64 * w + lo) n).toNat
  { hbase := f 0 0 12, hlen := f 0 12 13, det := f 0 25 1 == 1, floor := f 0 28 4, ceil := f 0 32 4
    qw := f 0 36 4, qa := f 0 40 4, qk := f 0 44 4, qo := f 0 48 4, maskset := f 0 52 3
    leasemax := f 1 0 16, slotwt := (List.range 8).map fun k => f 1 (16 + 4 * k) 4
    rtbase := f 2 0 46, elogbase := f 3 0 46
    eloglog2 := f 4 0 5, embxrank := f 4 8 12, embxidx := f 4 20 6, pmbxrank := f 4 26 12, pmbxidx := f 4 38 6
    spillbase := f 5 0 46, spilllen := f 5 46 18, ctxbase := f 6 0 46, nqbase := f 7 0 46, lpthresh := f 8 0 32
    ranges := (List.range 8).map fun i => ⟨f (9 + i) 63 1 == 1, f (9 + i) 62 1 == 1, f (9 + i) 30 30, f (9 + i) 0 30⟩
    grbase := f 17 0 12, grlen := f 17 12 13 }

/-- A field of the record that R76 rules out: a reserved bit, or an area that is not aligned (log entry 27). -/
def partFieldsBad (x : BitVec 2048) : Bool :=
  let f (w lo n : Nat) : Nat := (x.extractLsb' (64 * w + lo) n).toNat
  let c := parsePart x
  [f 0 26 2, f 0 55 9, f 1 48 16, f 2 46 18, f 3 46 18, f 4 5 3, f 4 44 20, f 6 46 18, f 7 46 18, f 8 32 32, f 17 25 39].any (· != 0)
    || ((List.range 8).any fun i => f (9 + i) 60 2 != 0) || x.extractLsb' 1152 896 != 0
    || c.rtbase % 1024 != 0 || c.elogbase % 4096 != 0 || c.spillbase % 65536 != 0
    || c.ctxbase % 65536 != 0 || c.nqbase % 4096 != 0

def PRange.overlaps (a b : PRange) : Bool := a.valid && b.valid && decide (a.base < b.limit) && decide (b.base < a.limit)

/-- An area that lies in a valid range that is not RDONLY. -/
def PartRec.holds (c : PartRec) (a n : Nat) : Bool :=
  c.ranges.any fun r => r.valid && !r.rdonly && decide (65536 * r.base ≤ a) && decide (a + n ≤ 65536 * r.limit)

/-- The valid ranges of a record pairwise apart. -/
def apart : List PRange → Bool
  | [] => true
  | r :: t => t.all (fun q => !r.overlaps q) && apart t

/-- The conditions of R77 for partition `p`. -/
def Dev.partOk (d : Dev) (p : Nat) (c : PartRec) : Bool :=
  let others := d.parts.filter fun q => q.1 != p && q.2.configured
  decide (c.hbase + c.hlen ≤ 4096) && decide (c.floor ≤ c.ceil) && decide (c.ceil ≤ 12)
    && decide ((others.map fun q => q.2.cfg.floor).foldl (· + ·) c.floor ≤ 12) && c.qw + c.qa + c.qk + c.qo == 16
    && decide (c.embxrank < c.hlen) && decide (c.pmbxrank < c.hlen) && decide (c.grbase + c.grlen ≤ c.hlen)
    && (c.leasemax == 0 || decide (64 ≤ c.leasemax)) && decide (5 ≤ c.eloglog2) && decide (c.eloglog2 ≤ 20) && decide (1 ≤ c.spilllen)
    && (c.ranges.all fun r => !r.valid || (decide (r.base < r.limit) && decide (65536 * r.limit ≤ paEnd))) && apart c.ranges
    && c.holds c.rtbase 1024 && c.holds c.elogbase (64 + 32 * 2 ^ c.eloglog2) && c.holds c.spillbase (65536 * c.spilllen)
    && c.holds c.ctxbase (ctxSize * c.hlen) && c.holds c.nqbase 0x11000
    && c.ranges.all fun r => others.all fun q => q.2.cfg.ranges.all fun u =>
        !r.overlaps u || (c.maskset == q.2.cfg.maskset && r.rdonly && u.rdonly)

/-- The record takes effect: a STOPPED partition begins with empty logs and queues; a DESCHEDULED one may move (R119). -/
def Dev.setPartCfg (d : Dev) (p : Nat) (c : PartRec) : Dev :=
  let x := d.part p
  if x.st == .stopped then
    { d with corr := d.corr.filter (·.part != some p) }.setPart p
      { x with configured := true, cfg := c, elogHead := 0, elogTail := 0, elogDrops := 0, elogSeq := 0, elogQ := [], nqTail := 0, nqHead := 0 }
  else
    let d := d.setPart p { x with cfg := { x.cfg with slotwt := c.slotwt, lpthresh := c.lpthresh } }
    if c.hbase = x.cfg.hbase then d else d.moveBase p c.hbase

/-- PARTCFG (R77, R78) on a record that has been read: a status. -/
def Dev.partCfg (d : Dev) (p : Nat) (x : BitVec 2048) : Nat × Dev :=
  let c := parsePart x
  let old := d.part p
  if old.st == .resident then (stBusy, d)
  else if partFieldsBad x then (stInvalid, d)
  else if old.st == .descheduled && { c with hbase := old.cfg.hbase, slotwt := old.cfg.slotwt, lpthresh := old.cfg.lpthresh } != old.cfg then
    (stBusy, d)
  else if !d.partOk p c then (stConfig, d)
  else (stSuccess, d.setPartCfg p c)

def State.partcfg (s : State) : State :=
  s.pfCommand [(0, 32, 6), (1, 0, 64)] <|
    match s.hostRead (s.cf 1 0 64) 256 with
    | none => s.answer stHostAddress
    | some x =>
      let r := s.dev.partCfg (s.cf 0 32 6) (BitVec.ofNat 2048 x)
      { s with dev := r.2 }.answer r.1
/-- PARTCFG (R76) -/
def execPartcfg (s : State) : Host.Outcome State Fault Refusal := s.partcfg.to

/-- PARTSTART (R78): a STOPPED partition is started, and takes the mask set that it selects (R86). A partition that no PARTCFG has
configured gives CONFIG (log entry 28). A PARTCFG that changes MASKSET after this, while the partition waits to be scheduled, does not change the set
that is taken here (DESIGN CHOICE, log entry 64). -/
def State.partstart (s : State) : State :=
  s.pfCommand [(0, 32, 6)] <|
    let p := s.cf 0 32 6
    let x := s.dev.part p
    if !x.configured then s.answer stConfig
    else if x.st != .stopped || x.started then s.answer stSuccess
    else (s.modDev fun d =>
      { d with masks := aset d.masks (8 + p) ((aget? d.masks x.cfg.maskset).getD defaultMasks) }.setPart p { x with started := true }).answer stSuccess
def execPartstart (s : State) : Host.Outcome State Fault Refusal := s.partstart.to

/-! ### PARTSTOP (R78) -/

/-- The stores in the write buffer of core `r` are performed, its update-only copies return, and its stash entries come home. -/
def Dev.emptyCore (d : Dev) (r part : Nat) : Dev :=
  let d := (d.core r).wb.foldl (fun d e =>
    if e.wback then d else (d.prepare e.line).lineWrite e.line e.data e.mask e.home part e.cls e.pg) d
  let d := ((d.core r).uoc.map (·.line)).foldl (fun d l => (d.sendBack r l).applyBacks l) d
  let d := (d.core r).stash.foldl (fun d e => if e.2.st != .mapped then d.recallStash e.2.line else d) d
  ((d.core r).wb.map (·.line)).foldl (fun d l => d.settleBack r l) d

/-- The sweeps of a partition end, and every tile that one of its tasks holds is returned (R352, R353). -/
def Dev.endSweeps (d : Dev) (part : Nat) (ranks : List Nat) : Dev :=
  let d := ((d.part part).sweeps.map (·.1)).foldl (fun d w => d.cancelSweep part w) d
  ranks.foldl (fun d r => (d.core r).tasks.foldl (fun d t => d.returnBufs r t) d) d

/-- Whether a request that waits at a home is one of another module, whose partition number names no partition of this one. -/
def HomeReq.outer (q : HomeReq) : Bool := match q.kind with
  | .agent (.request _) _ => true
  | _ => false

/-- Everything of a partition goes but its configuration, its logs and memory. -/
def Dev.stopPart (d : Dev) (part : Nat) : Dev :=
  let ranks := (d.cores.filter fun c => c.2.part == some part).map (·.1)
  let d := ranks.foldl (fun d r => d.emptyCore r part) d
  let backs := d.homeQ.filterMap fun q => match q.kind with
    | .uocBack u => if q.part = part then some (q, u) else none
    | _ => none
  let d := backs.foldl (fun d p => d.applyBack p.1 p.2) d
  let d : Dev := { d with
    homeQ := d.homeQ.filter fun q => q.part != part || q.outer
    obuf := d.obuf.filter (·.req.part != part)
    leases := d.leases.filter (·.part != part)
    rcache := d.rcache.filter (·.part != part)
    remote := d.remote.filter (·.2.part != part)
    bars := d.bars.filter (·.key.part != part)
    net := d.net.filter fun m => match m.2.msg with
      | .launch p _ _ | .frame p _ _ | .incr p _ _ _ _ => p != part }
  let d := d.endSweeps part ranks
  let d : Dev := { d with quads := d.quads.map fun q => (q.1, { q.2 with
    hamper := q.2.hamper.filter (·.part != part), dropped := q.2.dropped.filter (· != part)
    coal := q.2.coal.filter (·.1 != part), tlb := q.2.tlb.filter (·.part != part) }) }
  let d := ranks.foldl (fun d r => d.modCore r fun c => { c.blank none with out := [], tlb := c.tlb.filter (·.part != part) }) d
  d.modPart part fun p => { p with
    st := .stopped, started := false, groups := [], queues := [], det := [], stream := 7, resv := none, ctx := [], sweeps := [], spillSeq := [] }

/-- What an aborted command returns in INFO: the bytes that a COPYH or FILL has moved. -/
def CmdKind.moved : CmdKind → Nat
  | .copyh _ _ _ _ done _ | .fill _ _ done _ _ => done
  | .launch _ | .launchWait _ | .wait _ _ _ _ | .map _ _ _ | .held _ _ => 0

/-- Every command of the partition in execution completes with ABORTED. -/
def State.abortPart (s : State) (part : Nat) : State :=
  (s.host.cmds.filter (·.2.part == part)).foldl (fun s c => s.endCmd c.1 stAborted c.2.kind.moved) s

/-- PARTSTOP (R78). The records of the aborted commands are written for a VF that was active until now, and held otherwise (R84). -/
def State.partstop (s : State) : State :=
  s.pfCommand [(0, 32, 6)] <|
    let p := s.cf 0 32 6
    if (s.dev.part p).st == .stopped then s.answer stSuccess
    else
      let s := (s.abortPart p).modDev fun d => d.stopPart p
      (s.modDev fun d => { d with ended := d.ended.filter fun e => (aget? s.host.cmds e.cmd).isSome }).answer stSuccess
def execPartstop (s : State) : Host.Outcome State Fault Refusal := s.partstop.to

/-! ### Virtual functions (R83-R85) -/

/-- A PF command that names a VF: INVALID_FIELD for a number outside 1 to 512. -/
def State.onVf (s : State) (fields : List (Nat × Nat × Nat)) (run : Nat → State) : State :=
  s.pfCommand ((0, 32, 10) :: fields) <|
    let f := s.cf 0 32 10
    if f = 0 ∨ 512 < f then s.answer stInvalid else run f

/-- VFBIND (R83): BUSY while the VF has commands in execution; the binding takes effect at the VF's next enable. -/
def State.vfbind (s : State) : State :=
  s.onVf [(0, 42, 8)] fun f =>
    if s.host.cmds.any fun c => c.2.fn == f then s.answer stBusy
    else
      let b : PendBind := if s.cf 0 49 1 = 1 then ⟨none, false⟩ else ⟨some (s.cf 0 42 6), s.cf 0 48 1 == 1⟩
      (s.modFn f fun x => { x with pendBind := some b }).answer stSuccess
def execVfbind (s : State) : Host.Outcome State Fault Refusal := s.vfbind.to

/-- VFPAUSE (R83) -/
def State.vfpause (s : State) : State := s.onVf [] fun f => (s.modFn f fun x => { x with paused := true }).answer stSuccess
def execVfpause (s : State) : Host.Outcome State Fault Refusal := s.vfpause.to

/-- VFRESUME (R83, R84) -/
def State.vfresume (s : State) : State :=
  s.onVf [] fun f => ((s.modFn f fun x => { x with paused := false }).flushHeld f).answer stSuccess
def execVfresume (s : State) : Host.Outcome State Fault Refusal := s.vfresume.to

/-- A QCFG is cleared: its queue is disabled, and the base registers stay. -/
def Queue.cleared (y : Queue) : Queue := { Queue.reset with sqbase := y.sqbase, cqbase := y.cqbase, log2size := 0 }

/-- The reset of a VF (R85). Commands in execution end without records; the groups that they started go on. -/
def State.resetVf (s : State) (f : Nat) : State :=
  let mine := (s.host.cmds.filter (·.2.fn == f)).map (·.1)
  let s := s.modHost fun h => { h with cmds := h.cmds.filter fun c => c.2.fn != f }
  let s := s.modDev fun d => { d with ended := d.ended.filter fun e => !mine.contains e.cmd }
  s.modFn f fun x => { x with
    gen := (x.gen + 1) % 65536, held := [], pendvec := 0, en := false, queues := (List.range 16).map fun q => (q, (x.queue q).cleared) }

/-- VFRESET (R85) -/
def State.vfreset (s : State) : State := s.onVf [] fun f => (s.resetVf f).answer stSuccess
def execVfreset (s : State) : Host.Outcome State Fault Refusal := s.vfreset.to

/-- The reset of the physical function: it and every VF are reset, since the PCIe specification has it clear VF Enable (log entry 59). -/
def State.resetPf (s : State) : State := ((s.host.funcs.map (·.1)).filter (· != 0)).foldl State.resetVf (s.resetVf 0)

/-- FUNCTION_LEVEL_RESET (R60, R85) of function `a`. -/
def execFunctionLevelReset (s : State) : Host.Outcome State Fault Refusal :=
  (if s.args.a = 0 then s.resetPf else if s.args.a ≤ totalVfs then s.resetVf s.args.a else s).to

/-! ### MASKSET (R86, R176) -/

/-- The conditions on a mask: bits [45:40] and [7:0] are 0, and so the highest set bit, if any, is in [39:8]. -/
def maskOk (m : Nat) : Bool := m != 0 && decide (m < 2 ^ 40) && m % 256 == 0

/-- Ten masks that R176 allows. -/
def masksOk (ms : List Nat) : Bool := ms.all maskOk && (ms.map Nat.log2).eraseDups.length == ms.length

/-- MASKSET writes a set. R86 gives its answers no order: BUSY is answered first, then HOST_ADDRESS, then INVALID_FIELD (DESIGN CHOICE, log entry
64). -/
def State.maskset (s : State) : State :=
  s.pfCommand [(0, 32, 3), (1, 0, 64)] <|
    let k := s.cf 0 32 3
    if s.dev.parts.any fun p => p.2.st != .stopped && p.2.cfg.maskset == k then s.answer stBusy
    else match s.hostRead (s.cf 1 0 64) 80 with
      | none => s.answer stHostAddress
      | some x =>
        let ms := (List.range 10).map fun i => x / 2 ^ (64 * i) % 2 ^ 64
        if masksOk ms then (s.modDev fun d => { d with masks := aset d.masks k ms }).answer stSuccess else s.answer stInvalid
/-- MASKSET (R86) -/
def execMaskset (s : State) : Host.Outcome State Fault Refusal := s.maskset.to

/-! ### The fetch of commands (R68, R70, R83) -/

/-- What a command does, by its opcode. -/
def State.runCommand (s : State) : State :=
  match swf s.args.cmd 0 0 8 with
  | 0x01 => s.launch
  | 0x02 => s.copyh
  | 0x03 => s.fill
  | 0x04 => s.signal
  | 0x05 => s.wait
  | 0x06 => s.routine
  | 0x07 => s.map
  | 0x10 => s.partcfg
  | 0x11 => s.partstart
  | 0x12 => s.partstop
  | 0x13 => s.vfbind
  | 0x14 => s.vfpause
  | 0x15 => s.vfresume
  | 0x16 => s.vfreset
  | 0x17 => s.maskset
  | _ => s.answer stOpcode

/-- The entry `k` places behind the head of a queue. -/
def State.sqEntry (s : State) (f q k : Nat) : Option (BitVec 512) :=
  let y := s.queue f q
  (s.hostRead (y.sqbase.toNat / 4096 * 4096 + 64 * ((y.sqhead + k) % y.size)) 64).map (BitVec.ofNat 512)

/-- Whether a command holds back every later one of its queue (R68, R91). -/
def CmdKind.holdsQueue : CmdKind → Bool
  | .wait _ _ _ _ | .launchWait _ => true
  | .launch _ | .copyh _ _ _ _ _ _ | .fill _ _ _ _ _ | .map _ _ _ | .held _ _ => false

/-- A VF's LAUNCH takes the next entry as its descriptor. -/
def isLaunchEntry (f : Nat) (x : BitVec 512) : Bool := f != 0 && swf x 0 0 8 == 1

/-- Whether the device can start the next command of a queue now: none for no, else its entry, or nothing for a fault of the IOMMU. -/
def State.startable (s : State) (f q : Nat) : Option (Option (BitVec 512)) :=
  let y := s.queue f q
  let mine := s.host.cmds.filter fun c => c.2.fn == f && c.2.queue == q
  if !s.active f || !y.sqen || y.sqhead == y.sqtail || mine.any (·.2.kind.holdsQueue)
      || (f != 0 && decide (256 ≤ (s.host.cmds.filter fun c => c.2.fn == f).length)) then none
  else match s.sqEntry f q 0 with
    | none => some none
    | some x =>
      if (cmdFence x && !mine.isEmpty) || (isLaunchEntry f x && (y.sqhead + 1) % y.size == y.sqtail) then none else some (some x)

/-- The active VF of a partition that starts the next command: the first after the last one, in turn (R83). -/
def State.nextVf (s : State) (part : Nat) : Option Nat :=
  let last := (aget? s.host.rrFn part).getD 0
  let ready := (s.host.funcs.filter fun x => x.1 != 0 && x.2.bound == some part
    && (List.range 16).any fun q => (s.startable x.1 q).isSome).map (·.1)
  ((ready.filter fun f => decide (last < f)) ++ ready).head?

/-- Whether it is a function's turn. -/
def State.turnOf (s : State) (f : Nat) : Bool :=
  f == 0 || match (s.fn f).bound with
    | some p => s.nextVf p == some f
    | none => false

/-- The device fetches the next command of queue `q` of function `f` and starts it. -/
def State.fetchCmd (s : State) (f q : Nat) : State :=
  if !s.turnOf f then s
  else match s.startable f q with
    | none => s
    | some e =>
      let y := s.queue f q
      let two := e.any (isLaunchEntry f)
      let desc := if two then s.sqEntry f q 1 else some 0
      let s := s.setQueue f q { y with sqhead := (y.sqhead + (if two then 2 else 1)) % y.size }
      let s := match (s.fn f).bound with
        | some p => s.modHost fun h => { h with rrFn := aset h.rrFn p f }
        | none => s
      match e, desc with
      | some x, some dsc => { s with args := { s.args with a := f, b := q, cmd := x, desc := dsc } }.runCommand
      | some x, none => { s with args := { s.args with a := f, b := q, cmd := x } }.answer stHostAddress
      | none, _ =>
        let (w, d) := s.dev.free
        { s with dev := d, args := { s.args with a := f, b := q, cmd := BitVec.ofNat 512 (w.toNat % 65536 * 65536) } }.answer stHostAddress

end Sys2Proof.Machine
end

