-- ==== Sys2Proof/Machine/Sha3.lean ====
section
/-! DEFINITION. SHA3-512, which the boot stages and the measurement registers use (R44, R47). The spec names the function and no more; its
steps are those of FIPS 202 (PRESUMED, log entry 55). The string of 1,600 bits is one bit vector, whose bit 64 (5 y + x) + z is the bit
A[x, y, z] of the standard, so that a message block and a digest are numbers read in little-endian order. -/

namespace Sys2Proof.Machine

abbrev Sponge := BitVec 1600

/-- Lane (x, y), with both coordinates mod 5. -/
def spLane (a : Sponge) (x y : Nat) : Word := a.extractLsb' (64 * (5 * (y % 5) + x % 5)) 64

/-- The string whose lanes are the values of `f`. -/
def spOf (f : Nat → Nat → Word) : Sponge := BitVec.ofNat 1600 ((List.range 25).foldr (fun i n => (f (i % 5) (i / 5)).toNat + 2 ^ 64 * n) 0)

/-- The exclusive-or of the five lanes of column x. -/
def spColumn (a : Sponge) (x : Nat) : Word := spLane a x 0 ^^^ spLane a x 1 ^^^ spLane a x 2 ^^^ spLane a x 3 ^^^ spLane a x 4

def spTheta (a : Sponge) : Sponge := spOf fun x y => spLane a x y ^^^ spColumn a (x + 4) ^^^ (spColumn a (x + 1)).rotateLeft 1

/-- The rotations that the walk from lane (x, y) gives at its next `n` lanes: step t rotates by the triangular number of t + 1, and goes
on to lane (y, 2 x + 3 y) (structural on `n`). -/
def spWalk (t x y : Nat) : Nat → AMap Nat
  | 0 => []
  | n + 1 => (5 * y + x, (t + 1) * (t + 2) / 2 % 64) :: spWalk (t + 1) y ((2 * x + 3 * y) % 5) n

def spRho (a : Sponge) : Sponge :=
  let walk := spWalk 0 1 0 24
  spOf fun x y => (spLane a x y).rotateLeft ((aget? walk (5 * y + x)).getD 0)

def spPi (a : Sponge) : Sponge := spOf fun x y => spLane a (x + 3 * y) x

def spChi (a : Sponge) : Sponge := spOf fun x y => spLane a x y ^^^ (~~~spLane a (x + 1) y &&& spLane a (x + 2) y)

/-- The shift register of the round constants: 8 bits under x^8 + x^6 + x^5 + x^4 + 1. -/
def spShift (r : BitVec 8) : BitVec 8 := if r.getLsbD 7 then r <<< 1 ^^^ 0x71 else r <<< 1

/-- Lane (0, 0) of a round takes, at its bits 2^j - 1, the outputs of the shift register in turn, here those of its next `n` states from
`r` on (structural on `n`). -/
def spConst (r : BitVec 8) (j : Nat) : Nat → Word × BitVec 8
  | 0 => (0, r)
  | n + 1 =>
    let (w, e) := spConst (spShift r) (j + 1) n
    (if r.getLsbD 0 then w ||| BitVec.twoPow 64 (2 ^ j - 1) else w, e)

/-- `n` rounds from the register state `r` on (structural on `n`). -/
def spRounds (a : Sponge) (r : BitVec 8) : Nat → Sponge
  | 0 => a
  | n + 1 =>
    let (c, r) := spConst r 0 7
    spRounds (spChi (spPi (spRho (spTheta a))) ^^^ c.setWidth 1600) r n

/-- Absorb the next `n` blocks of 72 bytes of the padded message `m` (structural on `n`). -/
def spAbsorb (a : Sponge) (m : Nat) : Nat → Sponge
  | 0 => a
  | n + 1 => spAbsorb (spRounds (a ^^^ BitVec.ofNat 1600 (m % 2 ^ 576)) 1 24) (m / 2 ^ 576) n

/-- SHA3-512 of a byte string, as its 64 bytes: the bits 01 and a one follow the message, and a one ends the last block. -/
def sha3 (m : List Byte) : List Byte :=
  let blocks := m.length / 72 + 1
  leBytes 64 (spAbsorb 0 (leNat m + 6 * 256 ^ m.length + 128 * 256 ^ (72 * blocks - 1)) blocks).toNat

end Sys2Proof.Machine
end

