-- ==== Sys2Proof/Machine/Boot.lean ====
section
/-! DEFINITION. Boot (R44-R47), the management commands (R50) and attestation (R48). -/

namespace Sys2Proof.Machine

/-! ### Verification and measurement -/

/-- The check of a signed stage (R44, R46), whose versions are unsigned 64-bit numbers: the code of the signature, 0x0002 for a version below the fused minimum, or none. -/
def verifyStage (img : List Byte) (min : Word) (code : Nat) : Option Nat :=
  if !Config.signatureOk img then some code else if Config.stageVersion img < min then some 0x0002 else none

/-- M[i] := SHA3-512(M[i] || digest) (R47). -/
def Boot.extend (b : Boot) (i : Nat) (digest : List Byte) : Boot :=
  let old := leBytes 64 (vget b.measure i 0).toNat
  { b with measure := vset b.measure i (BitVec.ofNat 512 (leNat (sha3 (old ++ digest)))) }

/-- Flojo asks the root of trust for an extension of measurement register 4 to 7 (R47); it runs from stage 4 on. -/
def State.flojoExtend (s : State) (reg : Nat) (digest : List Byte) : State :=
  if 4 ≤ reg ∧ reg < 8 ∧ 4 ≤ s.boot.stage ∧ s.boot.recovery = false then s.modBoot fun b => b.extend reg digest else s

/-- A stage fails: the module is in recovery, and BOOTSTAT keeps the code (R45). -/
def Boot.fail (b : Boot) (code : Nat) : Boot := { b with errcode := code, recovery := true, ready := false }

/-! ### The stages (R44) -/

/-- The gang-wait limit that Flojo's configuration gives: 1 to 1,000 ms, and 10 where it gives none (R100; log entry 60). -/
def gangLimit (ms : Nat) : Nat := if 1 ≤ ms ∧ ms ≤ 1000 then ms else 10

/-- Stage 3, with the module number (R41) and the gang-wait limit, and then stage 4 is entered. `ok`: the eight steward cores start. -/
def State.stewards (s : State) (ok : Bool) : State :=
  let s := s.modBoot fun b => { b with stage := 3 }
  if !ok then s.modBoot fun b => b.fail 0x0006
  else
    let s := s.modBoot fun b => { b.extend 2 (sha3 b.cfgBytes) with stage := 4 }
    s.modDev fun d => { d with modnum := s.boot.cfgModnum % 2048, gangWait := gangLimit s.boot.cfgGangWait }

/-- Stage 2 on an image: its code, or the stages go on. -/
def State.imageStage (s : State) (img : List Byte) (ok : Bool) : Option Nat × State :=
  let s := s.modBoot fun b => { b with stage := 2 }
  match verifyStage img s.boot.minImage 0x0004 with
  | some code => (some code, s)
  | none =>
    let s := s.modBoot fun b => { b.extend 1 (sha3 img) with runImage := Config.stageVersion img, fetched := some img }
    (none, s.stewards ok)

/-- Stage 0, and stage 1 with an image that is kept (R50): it is used at this boot in place of a fetch; where it fails stage 2 the network
serves (log entry 29). -/
def State.bootRom (s : State) (ok : Bool) : State :=
  let s := s.modBoot fun b => { b with begun := true, stage := 0, errcode := 0, tries := 0, feport := false, recovery := false, ready := false, slaac := false, fetched := none }
  match verifyStage s.boot.flashStage s.boot.minFirst 0x0001 with
  | some code => s.modBoot fun b => b.fail code
  | none =>
    let s := s.modBoot fun b => { b.extend 0 (sha3 b.flashStage) with runFirst := Config.stageVersion b.flashStage, stage := 1 }
    match s.boot.keptImage with
    | none => s
    | some img =>
      let s := s.modBoot fun b => { b with keptImage := none }
      match s.imageStage img ok with
      | (none, s) => s
      | (some _, s) => s.modBoot fun b => { b with stage := 1 }

/-- The machine at reset, with what outlives it: the fused minimum versions, module flash, a kept image, Flojo's configuration, and the host's
own memory. The model's counter of free values goes on. -/
def State.cleared (s : State) : State :=
  { State.reset with
    boot := { Boot.reset with
      minFirst := s.boot.minFirst, minImage := s.boot.minImage, flashStage := s.boot.flashStage, keptImage := s.boot.keptImage
      cfgModnum := s.boot.cfgModnum, cfgGangWait := s.boot.cfgGangWait, cfgBytes := s.boot.cfgBytes, cfgParts := s.boot.cfgParts }
    host := { HostIf.reset with hostMem := s.host.hostMem, iommuBad := s.host.iommuBad, pfRid := s.host.pfRid }
    dev := { Dev.reset with freeCtr := s.dev.freeCtr }
    args := s.args, schedule := s.schedule }

/-- MODULE_RESET (R44): the module is reset and the boot ROM runs stage 0; `ok`: should stage 3 follow at once, the stewards start. -/
def execModuleReset (s : State) : Host.Outcome State Fault Refusal := (s.cleared.bootRom s.args.ok).to

/-- DHCPV6_TIMEOUT (R45) -/
def execDhcpv6Timeout (s : State) : Host.Outcome State Fault Refusal :=
  (if s.boot.stage = 1 ∧ s.boot.recovery = false then s.modBoot fun b => { b with slaac := true } else s).to

/-- A failed attempt: the 16th puts the module into recovery. Whether ERRCODE shows the code of an attempt that is retried the spec does not say: it
stays as it was until the 16th (DESIGN CHOICE, log entry 6). -/
def State.failedFetch (s : State) (code : Nat) : State :=
  if 16 ≤ s.boot.tries then s.modBoot fun b => b.fail code else s.modBoot fun b => { b with stage := 1 }

/-- FETCH_ATTEMPT (R45): an attempt ends, with the image `img` or without one; attempt n uses port (n - 1) mod 2. -/
def State.fetchAttempt (s : State) (img : Option (List Byte)) (ok : Bool) : State :=
  if !s.boot.begun || s.boot.stage != 1 || s.boot.recovery then s
  else
    let s := s.modBoot fun b => { b with feport := b.tries % 2 == 1, tries := b.tries + 1 }
    match img with
    | none => s.failedFetch 0x0003
    | some img => match s.imageStage img ok with
      | (none, s) => s
      | (some code, s) => s.failedFetch code
def execFetchAttempt (s : State) : Host.Outcome State Fault Refusal := (s.fetchAttempt s.args.img s.args.ok).to

/-- Whether the compute dies that fail their test can be replaced: none, the spare alone, or one that the spare replaces. -/
def sparesFor (bad : List Nat) : Option (Option Nat) :=
  match bad.filter (· < 4) with
  | [] => some none
  | [k] => if bad.contains 4 then none else some (some k)
  | _ :: _ :: _ => none

/-- Stage 5: the partitions of the stored configuration, or none where one of them cannot be built. -/
def Dev.buildParts (d : Dev) : List (Nat × BitVec 2048) → Option Dev
  | [] => some d
  | (p, x) :: t =>
    let r := d.partCfg (p % 64) x
    if r.1 = stSuccess then r.2.buildParts t else none

/-- The partition configuration as bytes, for measurement 3. -/
def Boot.partBytes (b : Boot) : List Byte := b.cfgParts.flatMap fun p => BitVec.ofNat 8 p.1 :: leBytes 256 p.2.toNat

/-- MEMORY_TRAINING (R44, R45): `ok` the memories train, `ok2` the base and I/O dies pass their tests, and the compute dies of the list fail
theirs (4 is the spare); stages 5 and 6 follow. -/
def State.train (s : State) (ok ok2 : Bool) (bad : List Nat) : State :=
  if s.boot.stage != 4 || s.boot.recovery then s
  else if !ok then s.modBoot fun b => b.fail 0x0005
  else match (if ok2 then sparesFor bad else none) with
    | none => s.modBoot fun b => b.fail 0x0007
    | some spare =>
      let s := s.modDev fun d => { d with spareUsed := spare, deadDies := bad }
      let s := s.modBoot fun b => { b.extend 3 (sha3 b.partBytes) with stage := 6, ready := true }
      match s.dev.buildParts s.boot.cfgParts with
      | some d => { s with dev := d }
      | none => s.modBoot fun b => { b with errcode := 0x0008 }
def execMemoryTraining (s : State) : Host.Outcome State Fault Refusal := (s.train s.args.ok s.args.ok2 s.args.list).to

/-! ### Attestation (R48) -/

/-- Bytes 0x0000 to 0x0257 of a report. -/
def State.reportBody (s : State) (nonce : BitVec 512) : List Byte :=
  (s.boot.measure.toList.flatMap fun m => leBytes 64 m.toNat) ++ leBytes 8 s.boot.runFirst.toNat ++ leBytes 8 s.boot.runImage.toNat
    ++ leBytes 8 (s.dev.modnum % 2048) ++ leBytes 64 nonce.toNat

/-- The 5,227 bytes of a report. -/
def State.report (s : State) (nonce : BitVec 512) : List Byte :=
  let body := s.reportBody nonce
  let sig := Config.sign body
  body ++ (List.range 4627).map fun i => sig.getD i 0

/-- ATTEST_POST (R48): a nonce arrives on a front-end port once Flojo runs, and the report is the answer (log entry 31). -/
def execAttestPost (s : State) : Host.Outcome State Fault Refusal :=
  (if 4 ≤ s.boot.stage ∧ s.boot.recovery = false then s.modBoot fun b => { b with report := s.report s.args.cmd } else s).to

/-! ### Management commands (R50) -/

def mgSuccess : Nat := 0
def mgRefused : Nat := 0x0100
def mgIommu : Nat := 0x0101

/-- The command that runs has finished. -/
def State.mgEnd (s : State) (result : Nat) : State := s.modBoot fun b => { b with mgBusy := none, mgDone := true, mgResult := result }

/-- LOADIMG: a first stage (`first`) or a device image. Of a length above the 256 MiB of R50 the spec gives no result: it is refused, and
nothing is read (log entry 55). -/
def State.loadImage (s : State) (first ok : Bool) : State :=
  let n := s.boot.mglen.toNat
  if 2 ^ 28 < n then s.mgEnd mgRefused
  else match s.hostRead s.boot.mgiova.toNat n with
    | none => s.mgEnd mgIommu
    | some x =>
      let img := leBytes n x
      match verifyStage img (if first then s.boot.minFirst else s.boot.minImage) (if first then 0x0001 else 0x0004) with
      | some code => s.mgEnd code
      | none =>
        let s := s.modBoot fun b => if first then { b with flashStage := img } else { b with keptImage := some img }
        let s := s.mgEnd mgSuccess
        if s.boot.recovery then s.bootRom ok else s

/-- LOADIMG (R50): acts when MGCMD has started it; `ok`: should a restart reach stage 3, the stewards start. -/
def execLoadimg (s : State) : Host.Outcome State Fault Refusal :=
  (if s.boot.mgBusy = some 0x0001 then s.loadImage true s.args.ok
    else if s.boot.mgBusy = some 0x0101 then s.loadImage false s.args.ok else s).to

/-- The effect of ATTEST. -/
def State.attest (s : State) : State :=
  let at_ := s.boot.mgiova.toNat
  if s.boot.mglen.toNat < 5291 then s.mgEnd mgRefused
  else match s.hostRead at_ 64 with
    | none => s.mgEnd mgIommu
    | some x =>
      if s.iommuFault (at_ + 64) 5227 then s.mgEnd mgIommu
      else (s.modHost fun h => { h with hostMem := h.hostMem.setBytes (at_ + 64) (s.report (BitVec.ofNat 512 x)) }).mgEnd mgSuccess

/-- ATTEST (R50) -/
def execAttest (s : State) : Host.Outcome State Fault Refusal := (if s.boot.mgBusy = some 0x0002 then s.attest else s).to

/-- The effect of RAISEVER: the fused minimum never falls (R46). -/
def State.raise (s : State) (first : Bool) : State :=
  if s.boot.recovery then s.mgEnd mgRefused
  else (s.modBoot fun b => if first then { b with minFirst := BitVec.ofNat 64 (max b.minFirst.toNat b.runFirst.toNat) }
    else { b with minImage := BitVec.ofNat 64 (max b.minImage.toNat b.runImage.toNat) }).mgEnd mgSuccess

/-- RAISEVER (R50) -/
def execRaisever (s : State) : Host.Outcome State Fault Refusal :=
  (if s.boot.mgBusy = some 0x0003 then s.raise true else if s.boot.mgBusy = some 0x0103 then s.raise false else s).to

end Sys2Proof.Machine
end

