-- ==== Sys2Proof/Machine/HomeServe.lean ====
section
/-! DEFINITION. The turn of a home slice (R175): the request of a line that it serves next, be it of a thread, of an agent of the device or of
a command of the host; leases (R279) and darn invocations (R366) among them. -/

namespace Sys2Proof.Machine

/-- A request leaves its queue for its turn. -/
def Dev.takeTurn (d : Dev) (q : HomeReq) : Dev :=
  { d.countPassed q with homeQ := d.homeQ.filter fun x => x != q, homeNow := some q.line }

/-- The home serves one request; an agent that waited for the line has its turn there. -/
def State.serveOne (luck : DarnLuck) (s : State) (q : HomeReq) : State :=
  let after (s : State) : State := s.modDev fun d => { d with homeNow := none }
  match q.kind with
  | .agent (.command n) _ => after ((s.modDev fun d => d.takeTurn q).cmdStep n)
  | .agent a _ => after (s.modDev fun d => (d.takeTurn q).agentStep q.rank q.line a)
  | _ => s.modDev fun d => d.serveReq q luck

/-- The home of a line serves its next request when it is one that `want` names. -/
def State.serveLine (s : State) (line : Nat) (want : Dev → HomeReq → Bool) (luck : DarnLuck) : State :=
  let s := s.modDev fun d => d.readyLine line
  match s.dev.nextReq line with
  | some q => if want s.dev q then s.serveOne luck q else s
  | none => s

def ReqKind.isLease : ReqKind → Bool
  | .lease _ _ => true
  | .load _ _ _ _ _ | .store _ | .amo _ _ _ _ _ _ _ | .unlease _ _ _ | .sverNext _ _ | .sverNum _ _ _ | .lver _ _ _ _ | .pver _ _ _
  | .rver _ _ | .satom _ _ _ | .uocBack _ | .red _ _ _ _ | .agent _ _ => false

/-- HOME_QUEUE_SERVE (R175): the home of line `a` serves the waiting request of the highest class, oldest first. -/
def execHomeQueueServe (s : State) : Host.Outcome State Fault Refusal := (s.serveLine s.args.a (fun _ _ => true) .none).to

/-- FORWARDED_ACCESS (R132): the next request of line `a` is one for the registered stash entry, which answers it. -/
def execForwardedAccess (s : State) : Host.Outcome State Fault Refusal := (s.serveLine s.args.a (fun d q => d.reqClass q == 1) .none).to

/-- LEASE_GRANT (R279): the next request of line `a` is a lease. -/
def execLeaseGrant (s : State) : Host.Outcome State Fault Refusal := (s.serveLine s.args.a (fun _ q => q.kind.isLease) .none).to

/-- LEASE_EXPIRY (R279): the lease on line `a` reaches its length and ends. -/
def execLeaseExpiry (s : State) : Host.Outcome State Fault Refusal := s.onDev fun d => d.endLease s.args.a false

/-- What the darner meets: `c` operations fail their residue check once and are repeated; with `ok2` one of them fails twice; with `b` 4 or 6 its
read detects an uncorrectable error of that kind (R369). -/
def StepArgs.luck (a : StepArgs) : DarnLuck := ⟨a.c, a.ok2, if a.b = 4 ∨ a.b = 6 then some a.b else none⟩

/-- DARN_INVOCATION (R366): the next request of line `a` is a `satom`. -/
def execDarnInvocation (s : State) : Host.Outcome State Fault Refusal :=
  (s.serveLine s.args.a (fun _ q => q.kind.isSatom) s.args.luck).to

end Sys2Proof.Machine
end

