-- ==== Sys2Proof/Machine/Reliab.lean ====
section
/-! DEFINITION. Reliability (R35-R40, R51-R55), the rebalancing of the cache ways (R81, R82) and errors of the links. -/

namespace Sys2Proof.Machine

/-! ### The package (R33, R34) -/

/-- A die of the package. -/
inductive Die where
  | compute (i : Nat)
  | base (i : Nat)
  | northIo
  | southIo
  deriving DecidableEq, Repr

/-- The physical index of a die (R33). -/
def Die.index : Die → String
  | .compute i | .base i => toString i
  | .northIo => "N"
  | .southIo => "S"

/-- The die's code in an error record (R58). -/
def Die.code : Die → Nat
  | .compute i => i
  | .base i => 5 + i
  | .northIo => 10
  | .southIo => 11

/-- The quadrant that a die serves (R34, R36): a compute die that failed or was evacuated serves none, and the spare serves the quadrant it
took over. -/
def Dev.serves (d : Dev) : Die → Option Nat
  | .compute 4 => if d.deadDies.contains 4 then none else d.spareUsed
  | .compute i => if i < 4 ∧ !d.deadDies.contains i then some i else none
  | .base i => if i < 4 then some i else none
  | .northIo | .southIo => none

/-- Flojo's inventory (R33): every die with its physical index and the quadrant that it serves. -/
def Dev.inventory (d : Dev) : List (Die × String × Option Nat) :=
  ((List.range 5).map Die.compute ++ (List.range 5).map Die.base ++ [Die.northIo, Die.southIo]).map fun x => (x, x.index, d.serves x)

/-- Whether the spare die is free (R38, R45). -/
def Dev.spareFree (d : Dev) : Bool := d.spareUsed.isNone && !d.deadDies.contains 4

/-- The cores of a die quadrant (R34). -/
def quadrantRanks (a : Nat) : List Nat := (List.range 1024).map (1024 * a + ·)

/-- A core as the spare die brings it: its own cycle count, empty instruction lines and TLB, and the flag copies of its rank (log entry 61). -/
def Dev.spareCore (d : Dev) (c : Core) (part : Option Nat) : Core × Dev :=
  let (w, d) := d.free
  ({ c.blank part with cycle := w, tlb := [], l1i := [], rflags := c.rflags, lost := false }, d)

/-! ### Sparing (R35-R38) -/

/-- The cores of a quadrant that a partition holds. -/
def Dev.busyRanks (d : Dev) (a : Nat) : List Nat :=
  (quadrantRanks a).filter fun r => (d.core r).part.isSome && !(d.core r).lost

/-- Every core of the quadrant is saved, the spare takes the quadrant's ranks, and each saved context is restored. The spec gives the record of kind
0x0A no SEV: it is 0 (DESIGN CHOICE, log entry 56). -/
def Dev.evacuate (d : Dev) (a info : Nat) : Dev :=
  let ranks := d.busyRanks a
  let held := ranks.filterMap fun r => (d.core r).part.map fun p => (r, p)
  let die := d.dieOf (1024 * a)
  let d := held.foldl (fun d h => d.saveNow h.1 h.2) d
  let d : Dev := { d with spareUsed := some a, deadDies := d.deadDies ++ [die] }
  let d := ((quadrantRanks a).filter fun r => (aget? d.cores r).isSome).foldl (fun d r =>
    let (c, d) := d.spareCore (d.core r) none
    d.setCore r c) d
  let d := held.foldl (fun d h => d.resumeNow h.2 (h.1 - (d.part h.2).cfg.hbase)) d
  d.logFlojo ⟨0x0A, die, 0, 0, 0, 8191, 15, info, 1⟩

/-- Whether the context block of core `r`, or the routine table of its partition, is held against the save and the restoration (R205). -/
def Dev.evacHeld (d : Dev) (r : Nat) : Bool :=
  match (d.core r).part with
  | some p =>
    let x := d.part p
    d.spanHeld (x.ctxAt (r - x.cfg.hbase)) ctxSize || d.spanHeld x.cfg.rtbase 1024
  | none => false

/-- DIE_SPARING (R35, R38): the die that serves quadrant `a` has crossed threshold `c`. Its cores are interrupted, and once all have drained
they move to the spare; with no spare free there is only a record in Flojo's log, whose kind the spec does not give: it is a free one of the 15
codes of R59 (log entry 59). -/
def execDieSparing (s : State) : Host.Outcome State Fault Refusal :=
  s.onDev fun d =>
    let a := s.args.a % 4
    if d.spareFree then
      let d := (d.busyRanks a).foldl (fun d r => d.modCore r Core.interrupt) d
      if (d.busyRanks a).all fun r => d.drained r && !d.evacHeld r then d.evacuate a s.args.c else d
    else
      let (w, d) := d.free
      d.logFlojo ⟨w.toNat % 15 + 1, d.dieOf (1024 * a), 0, 0, 0, 8191, 15, s.args.c, 1⟩

/-! ### The loss of a die (R39) -/

/-- The home rank and home slot that the STATUS of a frame names (R126, R147); a home rank of no core of the partition counts as 0 (R10, log entry
9). -/
def Frame.homeRank (f : Frame) (hlen : Nat) : Nat := let h := (f.status.extractLsb' 32 12).toNat; if h < hlen then h else 0
def Frame.homeSlot (f : Frame) : Nat := (f.status.extractLsb' 28 4).toNat

/-- The tasks that have a thread on core `r`: the home rank of the task and its id. -/
def Dev.tasksOn (d : Dev) (r : Nat) : List (Nat × Nat) :=
  let c := d.core r
  let homes := (c.tasks.filter fun t => !t.ended).map fun t => (r, t.id)
  let guests := (List.range 16).filterMap fun k =>
    let s := c.slot k
    if s.occ && s.guest then
      let h := d.homeOf r k
      ((d.core h.1).taskOf h.2).map fun t => (h.1, t.id)
    else none
  let framed := c.inbox.filterMap fun m => match m with
    | .frame f =>
      let h := (d.part (c.part.getD 0)).devRank (f.homeRank (d.part (c.part.getD 0)).cfg.hlen)
      ((d.core h).taskOf f.homeSlot).map fun t => (h, t.id)
    | .launch _ => none
  homes ++ guests ++ framed

/-- The launches that wait in a core's inbox and overflow ring. -/
def Core.launches (c : Core) : List Nat :=
  (c.inbox.filterMap fun m => match m with
    | .launch g => some g
    | .frame _ => none) ++ c.overflow.map (·.group)

/-- Requests of a slot of a core are never completed, and its tags are not waited for any longer. -/
def Dev.dropSlot (d : Dev) (r k : Nat) : Dev :=
  let d := (d.dropLease r k false).forgetThread ((d.slot r k).part, r - (d.part (d.slot r k).part).cfg.hbase, k)
  let mine (o : OutReq) : Bool := o.req.any (fun q => q.slot == k) || (o.remote.bind (aget? d.remote ·)).any (fun u => u.rank == r && u.slot == k)
  let d := d.modCore r fun c => { c with out := c.out.filter fun o => !mine o.2 }
  { d with
    homeQ := d.homeQ.filter fun q => !(q.rank == r && q.slot == k && !q.kind.isStore)
    obuf := d.obuf.filter fun o => !(o.req.rank == r && o.req.slot == k)
    remote := d.remote.filter fun u => !(u.2.rank == r && u.2.slot == k) }

/-- Requests to other modules of a thread whose frame waits, under the numbers that the frame carries. -/
def Dev.dropMoving (d : Dev) (part : Nat) (at_ : Nat × Nat) : Dev :=
  { d with remote := d.remote.filter fun u => !(u.2.part == part && u.2.prank == at_.1 && u.2.slot == at_.2) }

/-- The spill records of threads that `mine` names end (R150): each is not valid any longer, of `n` from record `i` (structural on `n`). -/
def Dev.dropSpills (d : Dev) (part : Nat) (mine : Frame → Bool) (i : Nat) : Nat → Dev
  | 0 => d
  | n + 1 =>
    let at_ := (d.part part).spillAt i
    let (x, e) := d.agentRead at_ 1184 part noLeaf noPage
    let rank := x % 4096
    let seq := x / 4096 % 2 ^ 32
    let f := frameOfNat (x / 2 ^ 1024) rank
    let d := if x / 2 ^ 63 % 2 = 1 ∧ mine f then
        ((e.agentWrite at_ 8 (x % 2 ^ 63) part noLeaf noPage).modRank part rank fun c => { c with spilled := c.spilled - 1 }).dropMoving
          part (rank, spillKey seq)
      else d
    d.dropSpills part mine (i + 1) n

/-- The frames of threads that `mine` names end wherever they stand: on the way, in inboxes, in saved inboxes and in the spill area, which is
read only while it holds records. -/
def Dev.dropFrames (d : Dev) (part : Nat) (mine : Frame → Bool) : Dev :=
  let of (m : InboxMsg) : Option Frame := match m with
    | .frame f => if mine f then some f else none
    | .launch _ => none
  let drop (c : Core) : Core := { c with inbox := c.inbox.filter fun m => (of m).isNone }
  let boxes := d.cores.flatMap (fun c => if c.2.part == some part then c.2.inbox else []) ++ (d.part part).ctx.flatMap fun c => c.2.core.inbox
  let d := (boxes.filterMap of).foldl (fun d f => d.dropMoving part (f.srcRank, f.srcSlot)) d
  let d : Dev := { d with
    net := d.net.filter fun p => match p.2.msg with
      | .frame q _ f => !(q == part && mine f)
      | .launch _ _ _ | .incr _ _ _ _ _ => true
    cores := d.cores.map fun c => if c.2.part == some part then (c.1, drop c.2) else c }
  let d := d.modPart part fun p => { p with ctx := p.ctx.map fun c => (c.1, { c.2 with
    core := drop c.2.core
    parked := c.2.parked.filter fun m => match m with
      | .frame _ _ f => !mine f
      | .launch _ _ _ | .incr _ _ _ _ _ => true }) }
  let spilled := d.cores.any (fun c => c.2.part == some part && 0 < c.2.spilled) || (d.part part).ctx.any fun c => 0 < c.2.core.spilled
  if spilled then d.dropSpills part mine 0 (d.part part).spillCount else d

/-- The threads of a task end wherever they run or travel: its guests on other cores, its frames and its home slots. -/
def Dev.killThreads (d : Dev) (hr : Nat) (t : Task) : Dev :=
  let away := d.cores.flatMap fun c => (List.range 16).filterMap fun k =>
    let s := c.2.slot k
    if s.occ && s.guest && s.part == t.part && (d.homeOf c.1 k).1 == hr && t.slots.contains (d.homeOf c.1 k).2 then some (c.1, k) else none
  let d := d.dropFrames t.part fun f => (d.part t.part).devRank (f.homeRank (d.part t.part).cfg.hlen) == hr && t.slots.contains f.homeSlot
  let d := (away ++ t.slots.map fun k => (hr, k)).foldl (fun d p => (d.dropSlot p.1 p.2).modCore p.1 fun c => c.clearSlot p.2) d
  d.modCore hr fun c => t.slots.foldl (fun c k => (c.orphan k).setSlot k { c.slot k with away := false }) c

/-- A task is lost: its threads end and its tiles return, and the loss is counted; `r` is the core that is named. -/
def Dev.loseTask (d : Dev) (r hr tid : Nat) : Dev :=
  match (d.core hr).tasks.find? (·.id == tid) with
  | none => d
  | some t =>
    if t.ended then d
    else
      let d := (d.killThreads hr t).returnBufs hr t
      let d := d.modCore hr fun c => { c with
        tasks := c.tasks.map fun u => if u.id == tid then { u with ended := true, slots := [], freed := [] } else u
        slots := t.guestSlots.foldl (fun v k => let s := vget v k Slot.reset; if s.occ then v else vset v k { s with isGuestSlot := false }) c.slots }
      (d.countLost t.part r t.group t.desc).reap hr

/-- What the core itself held is gone: its stores, copies, requests and leases. -/
def Dev.loseCore (d : Dev) (r : Nat) : Dev :=
  let d := (d.leases.filter (·.rank == r)).foldl (fun d l => d.endLease l.line true) d
  let d : Dev := { d with
    homeQ := d.homeQ.filter (·.rank != r)
    obuf := d.obuf.filter (·.req.rank != r)
    remote := d.remote.filter (·.2.rank != r) }
  let part := (d.core r).part
  if d.spareFree then
    let c := d.core r
    let (n, d) := d.spareCore c part
    d.setCore r { n with out := [], spilled := c.spilled }
  else d.modCore r fun c => { c.blank part with out := [], lost := true }

/-- The physical die that serves quadrant `a` is lost; the spare takes its place if it is free. -/
def Dev.loseDie (d : Dev) (a : Nat) : Dev :=
  let die := d.dieOf (1024 * a)
  let ranks := (quadrantRanks a).filter fun r => (aget? d.cores r).isSome
  let gone := ranks.flatMap fun r => (d.tasksOn r).map fun t => (r, t)
  let msgs := ranks.flatMap fun r => match (d.core r).part with
    | some p => ((d.core r).launches).map fun g => (p, r, g)
    | none => []
  -- registrations first: a lost entry is not written back when its task ends
  let lost := d.regs.filter fun g => ranks.contains g.2.1
  let d : Dev := { d with regs := d.regs.filter fun g => !ranks.contains g.2.1, lostRegs := d.lostRegs ++ lost.map (·.1) }
  let d := ranks.foldl (fun d r => d.modCore r fun c => { c with stash := [], wb := [], uoc := [] }) d
  let d := gone.foldl (fun d g => d.loseTask g.1 g.2.1 g.2.2) d
  let d := msgs.foldl (fun d m => d.loseLaunch m.1 m.2.1 m.2.2) d
  let d := ranks.foldl Dev.loseCore d
  let d : Dev := if d.spareFree then { d with spareUsed := some a, deadDies := d.deadDies ++ [die] } else { d with deadDies := d.deadDies ++ [die] }
  { d with quads := d.quads.map fun q => if q.1 / 256 = a then (q.1, { q.2 with tlb := [], coal := [] }) else q }

/-- COMPUTE_DIE_LOST (R39): the compute die that serves quadrant `a` fails hard. -/
def execComputeDieLost (s : State) : Host.Outcome State Fault Refusal := s.onDev fun d => d.loseDie (s.args.a % 4)

/-! ### Kemir links (R40) and PCIe -/

/-- FLIT_REPLAY (R40): a flit of port `a` has failed its CRC and is replayed, with success (`ok`) or not. -/
def execFlitReplay (s : State) : Host.Outcome State Fault Refusal :=
  s.onDev fun d =>
    let n := (aget? d.linkFails s.args.a).getD 0
    if d.linksDown.contains s.args.a then d else { d with linkFails := aset d.linkFails s.args.a (if s.args.ok then 0 else n + 1) }

/-- LINK_PORT_DOWN (R40): after 8 consecutive failed replays port `a` goes down, with a record in Flojo's log whose INFO is the link lane `b`
(R58). The spec gives this record no SEV: it is 0 (DESIGN CHOICE, log entry 56). -/
def execLinkPortDown (s : State) : Host.Outcome State Fault Refusal :=
  s.onDev fun d =>
    let a := s.args.a
    if (aget? d.linkFails a).getD 0 < 8 ∨ d.linksDown.contains a ∨ 16 ≤ a then d
    else { d with linksDown := d.linksDown ++ [a] }.logFlojo ⟨0x08, 11, 3, a, 0, 5140 + a, 15, s.args.b, 1⟩

/-- PCIE_ERROR (R53): a flit is replayed (`ok`), which nothing sees, or an error is logged, for partition `a` when `b` is not 0. The spec gives the
record of kind 0x09 no SEV: it is 1 (DESIGN CHOICE, log entry 56). -/
def execPcieError (s : State) : Host.Outcome State Fault Refusal :=
  s.onDev fun d =>
    if s.args.ok then d else d.log (if s.args.b = 0 then none else some s.args.a) ⟨0x09, 10, 0, 0, 1, 5156, 15, 0, 1⟩

/-! ### Power (R51, R52) -/

/-- DROOP_TRIP (R51): quad `a` is stretched; nothing that software sees changes. -/
def execDroopTrip (s : State) : Host.Outcome State Fault Refusal := s.onDev fun d => d.modQuad s.args.a fun q => { q with stretched := true }
/-- DROOP_CLEAR (R51) -/
def execDroopClear (s : State) : Host.Outcome State Fault Refusal := s.onDev fun d => d.modQuad s.args.a fun q => { q with stretched := false }

/-- The codes that AGENT and DIE of a record may hold (R58). -/
def agentCode (n : Nat) : Bool := decide (n ≤ 5166) || n == 8191
def dieCode (n : Nat) : Bool := decide (n ≤ 11)

/-- THERMAL_SHUTDOWN (R52): die `a`, one of the 12, reaches its hard limit; the record is written and the module is off. The spec gives the record of
kind 0x0C no SEV: it is 0 (DESIGN CHOICE, log entry 56). -/
def execThermalShutdown (s : State) : Host.Outcome State Fault Refusal :=
  (if dieCode s.args.a then (s.modDev fun d => d.logFlojo ⟨0x0C, s.args.a, 0, 0, 0, 8191, 15, 0, 1⟩).modBoot fun b => { b with off := true } else s).to

/-! ### Scrub and restore (R53-R55) -/

/-- What an uncorrectable error poisons (R53, R54): a line, wherever its value stands; a line of a core's local store or tile memory; the
entries of TLBs and queues hold no line. -/
def Dev.poisonUnit (d : Dev) (u : ScrubUnit) (addr : Nat) : Dev :=
  let add (n : Nat) (l : List Nat) : List Nat := if l.contains n then l else l ++ [n]
  match u with
  | .line => { d with poison := add (addr / 128) d.poison }
  | .localMem r => d.modCore r fun c => { c with badLmem := add (addr / 128) c.badLmem }
  | .other => d

/-- The kind of address that a record of patrol scrub holds: a PA, or none for memories that no address of R58 names (log entry 57). -/
def scrubRecord (f : ScrubFind) (kind sev : Nat) : ErrRec :=
  match f.unit with
  | .line => ⟨kind, f.die, 2, f.addr, sev, f.agent, 15, f.info.toNat, 1⟩
  | .localMem _ | .other => ⟨kind, f.die, 0, 0, sev, f.agent, 15, f.info.toNat, 1⟩

/-- PATROL_SCRUB (R53, R54): what scrub found is corrected, or its line is poisoned. Codes that a record cannot hold report nothing. -/
def execPatrolScrub (s : State) : Host.Outcome State Fault Refusal :=
  s.onDev fun d =>
    let f := s.args.scrub
    if !agentCode f.agent || !dieCode f.die then d
    else if f.correctable then d.logCorrected f.part (scrubRecord f (if f.dram then 0x05 else 0x03) 0)
    else (d.poisonUnit f.unit f.addr).log f.part (scrubRecord f (if f.dram then 0x06 else 0x04) 4)

/-- The clean backing copy of a line of a read-only page (R55): in the LP tier, or in host memory where the IOMMU answers. -/
def State.backingLine (s : State) (line : Nat) : Option Line :=
  match aget? s.dev.backing (line / 512) with
  | some (.lp pa) =>
    let l := pa / 128 + line % 512
    if s.dev.poisoned l then none else some (s.dev.lineNow l)
  | some (.host iova) => (s.hostRead (iova + 128 * (line % 512)) 128).map (BitVec.ofNat 1024)
  | none => none

/-- Line `line` is rewritten and is poisoned no longer. -/
def Dev.restoreLine (d : Dev) (line : Nat) (data : Line) : Dev :=
  { d with
    mem := d.mem.setLine line data
    llc := d.llc.map fun e => if e.1 = line then (line, { e.2 with dram := none }) else e
    poison := d.poison.filter (· != line) }

/-- VEC_RESIDUE: an operation of the vector datapath of slot `k` of core `r` fails its residue check and is executed again from its operands
(R53, R54): a corrected error of the thread's partition, with a residue value that the spec does not state (log entry 5). -/
def Dev.vecResidue (d : Dev) (r k : Nat) : Dev :=
  if (d.slot r k).occ then
    let (w, d) := d.free
    d.logCorrected (some (d.slot r k).part) ⟨0x01, d.dieOf r, 0, 0, 0, r, k, w.toNat % 2 ^ 32, 1⟩
  else d

/-- POISON_RESTORE (R55): line `a` of a read-only page with a clean backing copy is rewritten from that copy, the poison is cleared, and
Flojo's log takes a record. -/
def execPoisonRestore (s : State) : Host.Outcome State Fault Refusal :=
  s.onDev fun d =>
    let line := s.args.a
    match s.backingLine line with
    | some x =>
      if d.poison.contains line then (d.restoreLine line x).logFlojo ⟨0x0D, 10, 2, 128 * line, 0, 5159, 15, 0, 1⟩ else d
    | none => d

/-! ### The rebalancing of the cache ways (R79-R82) -/

/-- A partition in the allocation: its number, its ways so far, its ceiling and its counts H[1..12]. -/
structure WayShare where
  part : Nat
  ways : Nat
  ceil : Nat
  hits : List Nat
  deriving DecidableEq, Repr

/-- The partition that takes the next way: the largest count, the lowest number. -/
def nextShare (l : List WayShare) : Option WayShare :=
  (l.filter fun w => decide (w.ways < w.ceil)).foldl (fun acc w => match acc with
    | none => some w
    | some a => if a.hits.getD a.ways 0 < w.hits.getD w.ways 0 then some w else some a) none

/-- Give `n` ways, one at a time. -/
def giveWays (l : List WayShare) : Nat → List WayShare
  | 0 => l
  | n + 1 => match nextShare l with
    | some w => giveWays (l.map fun x => if x.part = w.part then { x with ways := x.ways + 1 } else x) n
    | none => l

/-- How many ways each class holds among `n` (R82): quotas in the order weights, activations, KV, other. -/
def classWays (n : Nat) (q : List Nat) : List Nat :=
  let base := q.map fun x => n * x / 16
  let left := n - base.foldl (· + ·) 0
  let frac (i : Nat) : Nat := n * q.getD i 0 % 16
  let before (i j : Nat) : Bool := decide (frac j < frac i) || (frac i == frac j && decide (i < j))
  (List.range 4).map fun i => base.getD i 0 + (if ((List.range 4).filter fun j => before j i).length < left then 1 else 0)

/-- Contiguous runs of the given lengths, cut from a list of ways in order. -/
def cutWays (l : List Nat) : List Nat → List (List Nat)
  | [] => []
  | n :: t => l.take n :: cutWays (l.drop n) t

/-- Contiguous ways from way `at_` up, in ascending partition number. -/
def placeWays (at_ : Nat) : List WayShare → List (Nat × List Nat)
  | [] => []
  | w :: t => (w.part, (List.range w.ways).map (at_ + ·)) :: placeWays (at_ + w.ways) t

/-- The ways of every configured partition after the interval. -/
def Dev.wayShares (d : Dev) : List WayShare :=
  let l := (d.parts.filter fun p => p.2.configured).map fun p =>
    (⟨p.1, p.2.cfg.floor, p.2.cfg.ceil, (aget? d.shadowHits p.1).getD (List.replicate 12 0)⟩ : WayShare)
  giveWays l (12 - (l.map (·.ways)).foldl (· + ·) 0)

/-- LLC_REBALANCE (R81, R82) -/
def execLlcRebalance (s : State) : Host.Outcome State Fault Refusal :=
  s.onDev fun d =>
    let placed := placeWays 0 d.wayShares
    { d with
      shadowHits := []
      parts := d.parts.map fun p => match placed.find? fun w => w.1 == p.1 with
        | some w => (p.1, { p.2 with ways := w.2, clsWays := cutWays w.2 (classWays w.2.length [p.2.cfg.qw, p.2.cfg.qa, p.2.cfg.qk, p.2.cfg.qo]) })
        | none => p }

end Sys2Proof.Machine
end

