-- ==== Sys2Proof/Machine/Scalar.lean ====
section
/-! DEFINITION. Scalar and control instructions (chapter 10 of the spec, R256-R266): one meaning for each, over the shared frame. -/

namespace Sys2Proof.Machine

/-! ### Register arithmetic (R256, R257) -/

/-- A register operation: X[rd] := f(X[ra], X[rb]). -/
def State.alu (f : Word → Word → Word) (rd ra rb : RegNo) (s : State) : Host.Outcome State Fault Refusal :=
  s.thread { rx := [ra, rb], wx := [rd] } fun d => .ok ((d.setX rd (f (d.x ra) (d.x rb))).retire)

/-- A division: long-latency, so its result is outstanding under the window of `la` (R257). -/
def State.divide (f : Word → Word → Word) (rd ra rb : RegNo) (la : La) (s : State) : Host.Outcome State Fault Refusal :=
  s.thread { rx := [ra, rb], wx := [rd] } fun d =>
    .ok (d.retireLong d.cur.1 d.cur.2 (.zext rd 8) (leBytes 8 (f (d.x ra) (d.x rb)).toNat) 0 la)

/-- A comparison as a word. -/
def boolWord (b : Bool) : Word := if b then 1 else 0

def aluMulh (a b : Word) : Word := BitVec.ofInt 64 (a.toInt * b.toInt / 2 ^ 64)
def aluMulhu (a b : Word) : Word := BitVec.ofNat 64 (a.toNat * b.toNat / 2 ^ 64)
/-- R257: b = 0 gives all ones; the quotient truncates toward zero, mod 2^64. -/
def aluDiv (a b : Word) : Word := if b = 0 then BitVec.allOnes 64 else BitVec.ofInt 64 (a.toInt.tdiv b.toInt)
def aluDivu (a b : Word) : Word := if b = 0 then BitVec.allOnes 64 else BitVec.ofNat 64 (a.toNat / b.toNat)
def aluRem (a b : Word) : Word := if b = 0 then a else BitVec.ofInt 64 (a.toInt.tmod b.toInt)
def aluRemu (a b : Word) : Word := if b = 0 then a else BitVec.ofNat 64 (a.toNat % b.toNat)

/-- Leading zero bits among the `n` low bits of a value. -/
def leadingZeros (x : Word) : Nat → Nat
  | 0 => 0
  | n + 1 => if x.getLsbD n then 0 else leadingZeros x n + 1
/-- Trailing zero bits from bit `k`, `n` bits looked at. -/
def trailingZeros (x : Word) (k : Nat) : Nat → Nat
  | 0 => 0
  | n + 1 => if x.getLsbD k then 0 else trailingZeros x (k + 1) n + 1
/-- One bits among the `n` low bits. -/
def onesCount (x : Word) : Nat → Nat
  | 0 => 0
  | n + 1 => onesCount x n + (if x.getLsbD n then 1 else 0)

/-- `add` (R256). -/
def execAdd (rd ra rb : RegNo) (s : State) := s.alu (fun a b => a + b) rd ra rb
/-- `sub` (R256). -/
def execSub (rd ra rb : RegNo) (s : State) := s.alu (fun a b => a - b) rd ra rb
/-- `and` (R256). -/
def execAnd (rd ra rb : RegNo) (s : State) := s.alu (fun a b => a &&& b) rd ra rb
/-- `or` (R256). -/
def execOr (rd ra rb : RegNo) (s : State) := s.alu (fun a b => a ||| b) rd ra rb
/-- `xor` (R256). -/
def execXor (rd ra rb : RegNo) (s : State) := s.alu (fun a b => a ^^^ b) rd ra rb
/-- `sll` (R256). -/
def execSll (rd ra rb : RegNo) (s : State) := s.alu (fun a b => a <<< (b.toNat % 64)) rd ra rb
/-- `srl` (R256). -/
def execSrl (rd ra rb : RegNo) (s : State) := s.alu (fun a b => a >>> (b.toNat % 64)) rd ra rb
/-- `sra` (R256). -/
def execSra (rd ra rb : RegNo) (s : State) := s.alu (fun a b => a.sshiftRight (b.toNat % 64)) rd ra rb
/-- `slt` (R256). -/
def execSlt (rd ra rb : RegNo) (s : State) := s.alu (fun a b => boolWord (a.slt b)) rd ra rb
/-- `sltu` (R256). -/
def execSltu (rd ra rb : RegNo) (s : State) := s.alu (fun a b => boolWord (a.ult b)) rd ra rb
/-- `mul` (R256). -/
def execMul (rd ra rb : RegNo) (s : State) := s.alu (fun a b => a * b) rd ra rb
/-- `mulh` (R256). -/
def execMulh (rd ra rb : RegNo) (s : State) := s.alu (fun a b => aluMulh a b) rd ra rb
/-- `mulhu` (R256). -/
def execMulhu (rd ra rb : RegNo) (s : State) := s.alu (fun a b => aluMulhu a b) rd ra rb
/-- `min` (R256). -/
def execMin (rd ra rb : RegNo) (s : State) := s.alu (fun a b => if a.slt b then a else b) rd ra rb
/-- `max` (R256). -/
def execMax (rd ra rb : RegNo) (s : State) := s.alu (fun a b => if a.slt b then b else a) rd ra rb
/-- `minu` (R256). -/
def execMinu (rd ra rb : RegNo) (s : State) := s.alu (fun a b => if a.ult b then a else b) rd ra rb
/-- `maxu` (R256). -/
def execMaxu (rd ra rb : RegNo) (s : State) := s.alu (fun a b => if a.ult b then b else a) rd ra rb
/-- `div` (R257). -/
def execDiv (rd ra rb : RegNo) (la : La) (s : State) := s.divide aluDiv rd ra rb la
/-- `divu` (R257). -/
def execDivu (rd ra rb : RegNo) (la : La) (s : State) := s.divide aluDivu rd ra rb la
/-- `rem` (R257). -/
def execRem (rd ra rb : RegNo) (la : La) (s : State) := s.divide aluRem rd ra rb la
/-- `remu` (R257). -/
def execRemu (rd ra rb : RegNo) (la : La) (s : State) := s.divide aluRemu rd ra rb la
/-- `clz` (R256). -/
def execClz (rd ra : RegNo) (s : State) := s.alu (fun a _ => BitVec.ofNat 64 (leadingZeros a 64)) rd ra 0
/-- `ctz` (R256). -/
def execCtz (rd ra : RegNo) (s : State) := s.alu (fun a _ => BitVec.ofNat 64 (trailingZeros a 0 64)) rd ra 0
/-- `popc` (R256). -/
def execPopc (rd ra : RegNo) (s : State) := s.alu (fun a _ => BitVec.ofNat 64 (onesCount a 64)) rd ra 0

/-! ### Immediates (R258-R260) -/

/-- An immediate operation: X[rd] := f(X[ra]). -/
def State.aluImm (f : Word → Word) (rd ra : RegNo) (s : State) : Host.Outcome State Fault Refusal :=
  s.thread { rx := [ra], wx := [rd] } fun d => .ok ((d.setX rd (f (d.x ra))).retire)

/-- `addi` (R258). -/
def execAddi (rd ra : RegNo) (imm : BitVec 16) (s : State) := s.aluImm (fun a => a + imm.signExtend 64) rd ra
/-- `andi` (R258). -/
def execAndi (rd ra : RegNo) (imm : BitVec 16) (s : State) := s.aluImm (fun a => a &&& imm.setWidth 64) rd ra
/-- `ori` (R258). -/
def execOri (rd ra : RegNo) (imm : BitVec 16) (s : State) := s.aluImm (fun a => a ||| imm.setWidth 64) rd ra
/-- `xori` (R258). -/
def execXori (rd ra : RegNo) (imm : BitVec 16) (s : State) := s.aluImm (fun a => a ^^^ imm.setWidth 64) rd ra
/-- `slti` (R258). -/
def execSlti (rd ra : RegNo) (imm : BitVec 16) (s : State) := s.aluImm (fun a => boolWord (a.slt (imm.signExtend 64))) rd ra
/-- `sltiu` (R258). -/
def execSltiu (rd ra : RegNo) (imm : BitVec 16) (s : State) := s.aluImm (fun a => boolWord (a.ult (imm.signExtend 64))) rd ra
/-- `slli` (R259). -/
def execSlli (rd ra : RegNo) (n : BitVec 6) (s : State) := s.aluImm (fun a => a <<< n.toNat) rd ra
/-- `srli` (R259). -/
def execSrli (rd ra : RegNo) (n : BitVec 6) (s : State) := s.aluImm (fun a => a >>> n.toNat) rd ra
/-- `srai` (R259). -/
def execSrai (rd ra : RegNo) (n : BitVec 6) (s : State) := s.aluImm (fun a => a.sshiftRight n.toNat) rd ra
/-- `lui` (R260). -/
def execLui (rd : RegNo) (imm : BitVec 21) (s : State) : Host.Outcome State Fault Refusal :=
  s.thread { wx := [rd] } fun d => .ok ((d.setX rd (imm.signExtend 64 <<< 16)).retire)
/-- `auipc` (R260): PC is the s7 offset of this word. -/
def execAuipc (rd : RegNo) (imm : BitVec 21) (s : State) : Host.Outcome State Fault Refusal :=
  s.thread { wx := [rd] } fun d => .ok ((d.setX rd (d.th.pc + imm.signExtend 64 <<< 16)).retire)

/-! ### Branches and jumps (R261-R264) -/

/-- The target of a branch: PC + sext(off16) × 4 (R262). -/
def branchTarget (pc : Word) (off : BitVec 16) : Word := pc + off.signExtend 64 <<< 2

/-- A conditional branch (R262). -/
def State.branch (cond : Word → Word → Bool) (ra rb : RegNo) (off : BitVec 16) (s : State) : Host.Outcome State Fault Refusal :=
  s.thread { rx := [ra, rb] } fun d =>
    .ok (if cond (d.x ra) (d.x rb) then d.jump (branchTarget d.th.pc off) else d.retire)

/-- `beq` (R262). -/
def execBeq (ra rb : RegNo) (off : BitVec 16) (s : State) := s.branch (fun a b => a == b) ra rb off
/-- `bne` (R262). -/
def execBne (ra rb : RegNo) (off : BitVec 16) (s : State) := s.branch (fun a b => a != b) ra rb off
/-- `blt` (R262). -/
def execBlt (ra rb : RegNo) (off : BitVec 16) (s : State) := s.branch (fun a b => a.slt b) ra rb off
/-- `bge` (R262). -/
def execBge (ra rb : RegNo) (off : BitVec 16) (s : State) := s.branch (fun a b => !a.slt b) ra rb off
/-- `bltu` (R262). -/
def execBltu (ra rb : RegNo) (off : BitVec 16) (s : State) := s.branch (fun a b => a.ult b) ra rb off
/-- `bgeu` (R262). -/
def execBgeu (ra rb : RegNo) (off : BitVec 16) (s : State) := s.branch (fun a b => !a.ult b) ra rb off
/-- `jal` (R263). -/
def execJal (rd : RegNo) (off : BitVec 21) (s : State) : Host.Outcome State Fault Refusal :=
  s.thread { wx := [rd] } fun d =>
    .ok ((d.setX rd (link d.th.pc)).jump (d.th.pc + off.signExtend 64 <<< 2))
/-- `jalr` (R264): the target is formed before the link is written. -/
def execJalr (rd ra : RegNo) (imm : BitVec 16) (s : State) : Host.Outcome State Fault Refusal :=
  s.thread { rx := [ra], wx := [rd] } fun d =>
    .ok ((d.setX rd (link d.th.pc)).jump ((d.x ra + imm.signExtend 64) &&& ~~~(3 : Word)))

/-! ### Control registers (R265, R266) -/

/-- `crr`: nothing is written. -/
def execCrr (rd : RegNo) (n : BitVec 6) (s : State) := s.crAccess rd 0 n (fun _ _ => none)
/-- `crw`: X[ra] is written. -/
def execCrw (rd ra : RegNo) (n : BitVec 6) (s : State) := s.crAccess rd ra n (fun _ a => some a)
/-- `crs`: the bits of X[ra] are set; with ra = 0 nothing is written. -/
def execCrs (rd ra : RegNo) (n : BitVec 6) (s : State) := s.crAccess rd ra n (fun old a => if ra = 0 then none else some (old ||| a))
/-- `crc`: the bits of X[ra] are cleared; with ra = 0 nothing is written. -/
def execCrc (rd ra : RegNo) (n : BitVec 6) (s : State) :=
  s.crAccess rd ra n (fun old a => if ra = 0 then none else some (old &&& ~~~a))

end Sys2Proof.Machine
end

