-- ==== Sys2Proof/Machine/Dispatch.lean ====
section
/-! DEFINITION. The meaning of every instruction and of every step of the host and the device: one arm for each constructor of `Instr`. -/

namespace Sys2Proof.Machine

def exec (i : Instr) (s : State) : Host.Outcome State Fault Refusal :=
  match i with
  | .add rd ra rb => Sys2Proof.Machine.execAdd rd ra rb s
  | .sub rd ra rb => Sys2Proof.Machine.execSub rd ra rb s
  | .and rd ra rb => Sys2Proof.Machine.execAnd rd ra rb s
  | .or rd ra rb => Sys2Proof.Machine.execOr rd ra rb s
  | .xor rd ra rb => Sys2Proof.Machine.execXor rd ra rb s
  | .sll rd ra rb => Sys2Proof.Machine.execSll rd ra rb s
  | .srl rd ra rb => Sys2Proof.Machine.execSrl rd ra rb s
  | .sra rd ra rb => Sys2Proof.Machine.execSra rd ra rb s
  | .slt rd ra rb => Sys2Proof.Machine.execSlt rd ra rb s
  | .sltu rd ra rb => Sys2Proof.Machine.execSltu rd ra rb s
  | .mul rd ra rb => Sys2Proof.Machine.execMul rd ra rb s
  | .mulh rd ra rb => Sys2Proof.Machine.execMulh rd ra rb s
  | .mulhu rd ra rb => Sys2Proof.Machine.execMulhu rd ra rb s
  | .div rd ra rb la => Sys2Proof.Machine.execDiv rd ra rb la s
  | .divu rd ra rb la => Sys2Proof.Machine.execDivu rd ra rb la s
  | .rem rd ra rb la => Sys2Proof.Machine.execRem rd ra rb la s
  | .remu rd ra rb la => Sys2Proof.Machine.execRemu rd ra rb la s
  | .min rd ra rb => Sys2Proof.Machine.execMin rd ra rb s
  | .max rd ra rb => Sys2Proof.Machine.execMax rd ra rb s
  | .minu rd ra rb => Sys2Proof.Machine.execMinu rd ra rb s
  | .maxu rd ra rb => Sys2Proof.Machine.execMaxu rd ra rb s
  | .clz rd ra => Sys2Proof.Machine.execClz rd ra s
  | .ctz rd ra => Sys2Proof.Machine.execCtz rd ra s
  | .popc rd ra => Sys2Proof.Machine.execPopc rd ra s
  | .addi rd ra imm => Sys2Proof.Machine.execAddi rd ra imm s
  | .andi rd ra imm => Sys2Proof.Machine.execAndi rd ra imm s
  | .ori rd ra imm => Sys2Proof.Machine.execOri rd ra imm s
  | .xori rd ra imm => Sys2Proof.Machine.execXori rd ra imm s
  | .slti rd ra imm => Sys2Proof.Machine.execSlti rd ra imm s
  | .sltiu rd ra imm => Sys2Proof.Machine.execSltiu rd ra imm s
  | .slli rd ra n => Sys2Proof.Machine.execSlli rd ra n s
  | .srli rd ra n => Sys2Proof.Machine.execSrli rd ra n s
  | .srai rd ra n => Sys2Proof.Machine.execSrai rd ra n s
  | .lui rd imm => Sys2Proof.Machine.execLui rd imm s
  | .auipc rd imm => Sys2Proof.Machine.execAuipc rd imm s
  | .crr rd n => Sys2Proof.Machine.execCrr rd n s
  | .crw rd ra n => Sys2Proof.Machine.execCrw rd ra n s
  | .crs rd ra n => Sys2Proof.Machine.execCrs rd ra n s
  | .crc rd ra n => Sys2Proof.Machine.execCrc rd ra n s
  | .beq ra rb off => Sys2Proof.Machine.execBeq ra rb off s
  | .bne ra rb off => Sys2Proof.Machine.execBne ra rb off s
  | .blt ra rb off => Sys2Proof.Machine.execBlt ra rb off s
  | .bge ra rb off => Sys2Proof.Machine.execBge ra rb off s
  | .bltu ra rb off => Sys2Proof.Machine.execBltu ra rb off s
  | .bgeu ra rb off => Sys2Proof.Machine.execBgeu ra rb off s
  | .jal rd off => Sys2Proof.Machine.execJal rd off s
  | .jalr rd ra imm => Sys2Proof.Machine.execJalr rd ra imm s
  | .lb rt ra sg la off => Sys2Proof.Machine.execLb rt ra sg la off s
  | .lbu rt ra sg la off => Sys2Proof.Machine.execLbu rt ra sg la off s
  | .lh rt ra sg la off => Sys2Proof.Machine.execLh rt ra sg la off s
  | .lhu rt ra sg la off => Sys2Proof.Machine.execLhu rt ra sg la off s
  | .lw rt ra sg la off => Sys2Proof.Machine.execLw rt ra sg la off s
  | .lwu rt ra sg la off => Sys2Proof.Machine.execLwu rt ra sg la off s
  | .ld rt ra sg la off => Sys2Proof.Machine.execLd rt ra sg la off s
  | .sb rt ra sg off => Sys2Proof.Machine.execSb rt ra sg off s
  | .sh rt ra sg off => Sys2Proof.Machine.execSh rt ra sg off s
  | .sw rt ra sg off => Sys2Proof.Machine.execSw rt ra sg off s
  | .sd rt ra sg off => Sys2Proof.Machine.execSd rt ra sg off s
  | .lacq rd ra w sc sg la => Sys2Proof.Machine.execLacq rd ra w sc sg la s
  | .srel rd ra w sc sg => Sys2Proof.Machine.execSrel rd ra w sc sg s
  | .fenceAcq sc => Sys2Proof.Machine.execFenceAcq sc s
  | .fenceRel sc => Sys2Proof.Machine.execFenceRel sc s
  | .fenceAr sc => Sys2Proof.Machine.execFenceAr sc s
  | .smap rd ra sg => Sys2Proof.Machine.execSmap rd ra sg s
  | .sunmap rd => Sys2Proof.Machine.execSunmap rd s
  | .sflush rd => Sys2Proof.Machine.execSflush rd s
  | .amoswap rd ra w ord sc sg la => Sys2Proof.Machine.execAmoswap rd ra w ord sc sg la s
  | .amoadd rd ra w ord sc sg la => Sys2Proof.Machine.execAmoadd rd ra w ord sc sg la s
  | .amoand rd ra w ord sc sg la => Sys2Proof.Machine.execAmoand rd ra w ord sc sg la s
  | .amoor rd ra w ord sc sg la => Sys2Proof.Machine.execAmoor rd ra w ord sc sg la s
  | .amoxor rd ra w ord sc sg la => Sys2Proof.Machine.execAmoxor rd ra w ord sc sg la s
  | .amomin rd ra w ord sc sg la => Sys2Proof.Machine.execAmomin rd ra w ord sc sg la s
  | .amomax rd ra w ord sc sg la => Sys2Proof.Machine.execAmomax rd ra w ord sc sg la s
  | .amominu rd ra w ord sc sg la => Sys2Proof.Machine.execAmominu rd ra w ord sc sg la s
  | .amomaxu rd ra w ord sc sg la => Sys2Proof.Machine.execAmomaxu rd ra w ord sc sg la s
  | .amocas rd ra w ord sc sg la => Sys2Proof.Machine.execAmocas rd ra w ord sc sg la s
  | .redadd w ra rb sg => Sys2Proof.Machine.execRedadd w ra rb sg s
  | .redand w ra rb sg => Sys2Proof.Machine.execRedand w ra rb sg s
  | .redor w ra rb sg => Sys2Proof.Machine.execRedor w ra rb sg s
  | .redxor w ra rb sg => Sys2Proof.Machine.execRedxor w ra rb sg s
  | .redmin w ra rb sg => Sys2Proof.Machine.execRedmin w ra rb sg s
  | .redmax w ra rb sg => Sys2Proof.Machine.execRedmax w ra rb sg s
  | .redfadd w ra rb sg => Sys2Proof.Machine.execRedfadd w ra rb sg s
  | .sverNext ra rb sg => Sys2Proof.Machine.execSverNext ra rb sg s
  | .sverNumbered rd ra rb sg => Sys2Proof.Machine.execSverNumbered rd ra rb sg s
  | .lver rd ra rb sg la => Sys2Proof.Machine.execLver rd ra rb sg la s
  | .pver rd ra rb sg la => Sys2Proof.Machine.execPver rd ra rb sg la s
  | .rver ra rb sg => Sys2Proof.Machine.execRver ra rb sg s
  | .lease rd ra rb sg => Sys2Proof.Machine.execLease rd ra rb sg s
  | .unlease rd ra sg => Sys2Proof.Machine.execUnlease rd ra sg s
  | .barCr ra rb => Sys2Proof.Machine.execBarCr ra rb s
  | .barQd ra rb => Sys2Proof.Machine.execBarQd ra rb s
  | .barDie ra rb => Sys2Proof.Machine.execBarDie ra rb s
  | .barPkg ra rb => Sys2Proof.Machine.execBarPkg ra rb s
  | .barPod ra rb => Sys2Proof.Machine.execBarPod ra rb s
  | .mbxadd rd ra rb => Sys2Proof.Machine.execMbxadd rd ra rb s
  | .mbxwait ra rb => Sys2Proof.Machine.execMbxwait ra rb s
  | .mbxrd rd ra => Sys2Proof.Machine.execMbxrd rd ra s
  | .spawn rd ra rb => Sys2Proof.Machine.execSpawn rd ra rb s
  | .exit rd ra => Sys2Proof.Machine.execExit rd ra s
  | .yield => Sys2Proof.Machine.execYield s
  | .migrate rd ra => Sys2Proof.Machine.execMigrate rd ra s
  | .upret => Sys2Proof.Machine.execUpret s
  | .vfadd ty vd va vb pm => Sys2Proof.Machine.execVfadd ty vd va vb pm s
  | .vfsub ty vd va vb pm => Sys2Proof.Machine.execVfsub ty vd va vb pm s
  | .vfmul ty vd va vb pm => Sys2Proof.Machine.execVfmul ty vd va vb pm s
  | .vfma ty vd va vb pm => Sys2Proof.Machine.execVfma ty vd va vb pm s
  | .vfnma ty vd va vb pm => Sys2Proof.Machine.execVfnma ty vd va vb pm s
  | .vfmin ty vd va vb pm => Sys2Proof.Machine.execVfmin ty vd va vb pm s
  | .vfmax ty vd va vb pm => Sys2Proof.Machine.execVfmax ty vd va vb pm s
  | .vfdiv ty vd va vb pm => Sys2Proof.Machine.execVfdiv ty vd va vb pm s
  | .vfsqrt ty vd va pm => Sys2Proof.Machine.execVfsqrt ty vd va pm s
  | .vfrcp ty vd va pm => Sys2Proof.Machine.execVfrcp ty vd va pm s
  | .vfexp2 ty vd va pm => Sys2Proof.Machine.execVfexp2 ty vd va pm s
  | .viadd ty vd va vb pm => Sys2Proof.Machine.execViadd ty vd va vb pm s
  | .visub ty vd va vb pm => Sys2Proof.Machine.execVisub ty vd va vb pm s
  | .vimul ty vd va vb pm => Sys2Proof.Machine.execVimul ty vd va vb pm s
  | .vimin ty vd va vb pm => Sys2Proof.Machine.execVimin ty vd va vb pm s
  | .vimax ty vd va vb pm => Sys2Proof.Machine.execVimax ty vd va vb pm s
  | .vand ty vd va vb pm => Sys2Proof.Machine.execVand ty vd va vb pm s
  | .vor ty vd va vb pm => Sys2Proof.Machine.execVor ty vd va vb pm s
  | .vxor ty vd va vb pm => Sys2Proof.Machine.execVxor ty vd va vb pm s
  | .vsll ty vd va vb pm => Sys2Proof.Machine.execVsll ty vd va vb pm s
  | .vsrl ty vd va vb pm => Sys2Proof.Machine.execVsrl ty vd va vb pm s
  | .vsra ty vd va vb pm => Sys2Proof.Machine.execVsra ty vd va vb pm s
  | .vcmpeq ty pd va vb pm => Sys2Proof.Machine.execVcmpeq ty pd va vb pm s
  | .vcmplt ty pd va vb pm => Sys2Proof.Machine.execVcmplt ty pd va vb pm s
  | .vcmple ty pd va vb pm => Sys2Proof.Machine.execVcmple ty pd va vb pm s
  | .vsel ty vd va vb pm => Sys2Proof.Machine.execVsel ty vd va vb pm s
  | .pand pd pa pb => Sys2Proof.Machine.execPand pd pa pb s
  | .por pd pa pb => Sys2Proof.Machine.execPor pd pa pb s
  | .pxor pd pa pb => Sys2Proof.Machine.execPxor pd pa pb s
  | .pnot pd pa => Sys2Proof.Machine.execPnot pd pa s
  | .ppop rd pa => Sys2Proof.Machine.execPpop rd pa s
  | .vbcast ty vd xa pm => Sys2Proof.Machine.execVbcast ty vd xa pm s
  | .vext ty rd va xb => Sys2Proof.Machine.execVext ty rd va xb s
  | .vperm ty vd va vb pm => Sys2Proof.Machine.execVperm ty vd va vb pm s
  | .vslide ty vd va xb pm => Sys2Proof.Machine.execVslide ty vd va xb pm s
  | .vcvt dst src vd va pm => Sys2Proof.Machine.execVcvt dst src vd va pm s
  | .vcvtF32E4m3 vd va pm => Sys2Proof.Machine.execVcvtF32E4m3 vd va pm s
  | .vcvtF32E5m2 vd va pm => Sys2Proof.Machine.execVcvtF32E5m2 vd va pm s
  | .vcvtE4m3F32 vd va pm => Sys2Proof.Machine.execVcvtE4m3F32 vd va pm s
  | .vcvtE5m2F32 vd va pm => Sys2Proof.Machine.execVcvtE5m2F32 vd va pm s
  | .vredsum ty vd va pm => Sys2Proof.Machine.execVredsum ty vd va pm s
  | .vredmax ty vd va pm => Sys2Proof.Machine.execVredmax ty vd va pm s
  | .vredmin ty vd va pm => Sys2Proof.Machine.execVredmin ty vd va pm s
  | .vld ty vd ra sg la => Sys2Proof.Machine.execVld ty vd ra sg la s
  | .vst ty vd ra sg => Sys2Proof.Machine.execVst ty vd ra sg s
  | .vlds32 vd ra xb sg la => Sys2Proof.Machine.execVlds32 vd ra xb sg la s
  | .vlds64 vd ra xb sg la => Sys2Proof.Machine.execVlds64 vd ra xb sg la s
  | .vsts32 vd ra xb sg => Sys2Proof.Machine.execVsts32 vd ra xb sg s
  | .vsts64 vd ra xb sg => Sys2Proof.Machine.execVsts64 vd ra xb sg s
  | .vstm vd ra pb sg => Sys2Proof.Machine.execVstm vd ra pb sg s
  | .vgath32 vd ra pm sg la => Sys2Proof.Machine.execVgath32 vd ra pm sg la s
  | .vgath64 vd ra pm sg la => Sys2Proof.Machine.execVgath64 vd ra pm sg la s
  | .vscat32 vd ra pm sg => Sys2Proof.Machine.execVscat32 vd ra pm sg s
  | .vscat64 vd ra pm sg => Sys2Proof.Machine.execVscat64 vd ra pm sg s
  | .vtopk vd va vb pm => Sys2Proof.Machine.execVtopk vd va vb pm s
  | .vplane vd va => Sys2Proof.Machine.execVplane vd va s
  | .vunplane vd va => Sys2Proof.Machine.execVunplane vd va s
  | .vtree pd va xb pm => Sys2Proof.Machine.execVtree pd va xb pm s
  | .vq4xd vd pb va => Sys2Proof.Machine.execVq4xd vd pb va s
  | .mma md ra rb sa sb => Sys2Proof.Machine.execMma md ra rb sa sb s
  | .mzero md => Sys2Proof.Machine.execMzero md s
  | .mld md ra sa => Sys2Proof.Machine.execMld md ra sa s
  | .mst md ra sa => Sys2Proof.Machine.execMst md ra sa s
  | .mstg md ra sa => Sys2Proof.Machine.execMstg md ra sa s
  | .macc ty md ra => Sys2Proof.Machine.execMacc ty md ra s
  | .mscl ty md ra => Sys2Proof.Machine.execMscl ty md ra s
  | .mfence => Sys2Proof.Machine.execMfence s
  | .mqstat rd => Sys2Proof.Machine.execMqstat rd s
  | .lcfg lx xo => Sys2Proof.Machine.execLcfg lx xo s
  | .laddOuter lx va vb => Sys2Proof.Machine.execLaddOuter lx va vb s
  | .laddTile lx ma => Sys2Proof.Machine.execLaddTile lx ma s
  | .lread lx vd vq => Sys2Proof.Machine.execLread lx vd vq s
  | .lldTile lx ma xl => Sys2Proof.Machine.execLldTile lx ma xl s
  | .lldLocal lx xo xl => Sys2Proof.Machine.execLldLocal lx xo xl s
  | .lstTile lx ma xl => Sys2Proof.Machine.execLstTile lx ma xl s
  | .lstLocal lx xo xl => Sys2Proof.Machine.execLstLocal lx xo xl s
  | .lclr lx => Sys2Proof.Machine.execLclr lx s
  | .cpq rd vb => Sys2Proof.Machine.execCpq rd vb s
  | .cpqn rd vb => Sys2Proof.Machine.execCpqn rd vb s
  | .cpcancel rd ra => Sys2Proof.Machine.execCpcancel rd ra s
  | .sweep rd ra => Sys2Proof.Machine.execSweep rd ra s
  | .twait rd la => Sys2Proof.Machine.execTwait rd la s
  | .tdone rd => Sys2Proof.Machine.execTdone rd s
  | .swstat rd ra => Sys2Proof.Machine.execSwstat rd ra s
  | .swcancel rd ra => Sys2Proof.Machine.execSwcancel rd ra s
  | .kvlook rd ra rb la => Sys2Proof.Machine.execKvlook rd ra rb la s
  | .kvgath rd ra vb => Sys2Proof.Machine.execKvgath rd ra vb s
  | .satom rd ra vb id la => Sys2Proof.Machine.execSatom rd ra vb id la s
  | .srsync id => Sys2Proof.Machine.execSrsync id s
  | .trap => Sys2Proof.Machine.execTrap s
  | .sret => Sys2Proof.Machine.execSret s
  | .wfi ra => Sys2Proof.Machine.execWfi ra s
  | .segw sn ra rb => Sys2Proof.Machine.execSegw sn ra rb s
  | .segr rd sn k => Sys2Proof.Machine.execSegr rd sn k s
  | .tlbinv ra rb => Sys2Proof.Machine.execTlbinv ra rb s
  | .fltrd rd ra => Sys2Proof.Machine.execFltrd rd ra s
  | .fltreplay ra => Sys2Proof.Machine.execFltreplay ra s
  | .cinval sn ra rb => Sys2Proof.Machine.execCinval sn ra rb s
  | .cflush sn ra rb => Sys2Proof.Machine.execCflush sn ra rb s
  | .publish sn ra => Sys2Proof.Machine.execPublish sn ra s
  | .sqtail => Sys2Proof.Machine.execSqtail s
  | .cqhead => Sys2Proof.Machine.execCqhead s
  | .qcfg => Sys2Proof.Machine.execQcfg s
  | .vfctl => Sys2Proof.Machine.execVfctl s
  | .registerWrite => Sys2Proof.Machine.execRegisterWrite s
  | .launch => Sys2Proof.Machine.execLaunch s
  | .copyh => Sys2Proof.Machine.execCopyh s
  | .fill => Sys2Proof.Machine.execFill s
  | .signal => Sys2Proof.Machine.execSignal s
  | .wait => Sys2Proof.Machine.execWait s
  | .waitTimeout => Sys2Proof.Machine.execWaitTimeout s
  | .routine => Sys2Proof.Machine.execRoutine s
  | .map => Sys2Proof.Machine.execMap s
  | .partcfg => Sys2Proof.Machine.execPartcfg s
  | .partstart => Sys2Proof.Machine.execPartstart s
  | .partstop => Sys2Proof.Machine.execPartstop s
  | .vfbind => Sys2Proof.Machine.execVfbind s
  | .vfpause => Sys2Proof.Machine.execVfpause s
  | .vfresume => Sys2Proof.Machine.execVfresume s
  | .vfreset => Sys2Proof.Machine.execVfreset s
  | .functionLevelReset => Sys2Proof.Machine.execFunctionLevelReset s
  | .maskset => Sys2Proof.Machine.execMaskset s
  | .loadimg => Sys2Proof.Machine.execLoadimg s
  | .attest => Sys2Proof.Machine.execAttest s
  | .raisever => Sys2Proof.Machine.execRaisever s
  | .msixDeferredSend => Sys2Proof.Machine.execMsixDeferredSend s
  | .moduleReset => Sys2Proof.Machine.execModuleReset s
  | .dhcpv6Timeout => Sys2Proof.Machine.execDhcpv6Timeout s
  | .fetchAttempt => Sys2Proof.Machine.execFetchAttempt s
  | .memoryTraining => Sys2Proof.Machine.execMemoryTraining s
  | .attestPost => Sys2Proof.Machine.execAttestPost s
  | .dieSparing => Sys2Proof.Machine.execDieSparing s
  | .computeDieLost => Sys2Proof.Machine.execComputeDieLost s
  | .flitReplay => Sys2Proof.Machine.execFlitReplay s
  | .linkPortDown => Sys2Proof.Machine.execLinkPortDown s
  | .remoteRequest => Sys2Proof.Machine.execRemoteRequest s
  | .droopTrip => Sys2Proof.Machine.execDroopTrip s
  | .droopClear => Sys2Proof.Machine.execDroopClear s
  | .thermalShutdown => Sys2Proof.Machine.execThermalShutdown s
  | .patrolScrub => Sys2Proof.Machine.execPatrolScrub s
  | .poisonRestore => Sys2Proof.Machine.execPoisonRestore s
  | .errorLogTailUpdate => Sys2Proof.Machine.execErrorLogTailUpdate s
  | .llcRebalance => Sys2Proof.Machine.execLlcRebalance s
  | .taskPlacement => Sys2Proof.Machine.execTaskPlacement s
  | .gangReservation => Sys2Proof.Machine.execGangReservation s
  | .launchMessageArrival => Sys2Proof.Machine.execLaunchMessageArrival s
  | .inboxTake => Sys2Proof.Machine.execInboxTake s
  | .arbiterPass => Sys2Proof.Machine.execArbiterPass s
  | .coreSave => Sys2Proof.Machine.execCoreSave s
  | .saveCommitTimeout => Sys2Proof.Machine.execSaveCommitTimeout s
  | .coreResume => Sys2Proof.Machine.execCoreResume s
  | .ifetchFill => Sys2Proof.Machine.execIfetchFill s
  | .stashFill => Sys2Proof.Machine.execStashFill s
  | .stashRecall => Sys2Proof.Machine.execStashRecall s
  | .forwardedAccess => Sys2Proof.Machine.execForwardedAccess s
  | .matrixCommandExecute => Sys2Proof.Machine.execMatrixCommandExecute s
  | .ladderCommandExecute => Sys2Proof.Machine.execLadderCommandExecute s
  | .copyStep => Sys2Proof.Machine.execCopyStep s
  | .copyInterruptEntry => Sys2Proof.Machine.execCopyInterruptEntry s
  | .copyFaultTrap => Sys2Proof.Machine.execCopyFaultTrap s
  | .mailboxIncrement => Sys2Proof.Machine.execMailboxIncrement s
  | .resultArrival => Sys2Proof.Machine.execResultArrival s
  | .deferredTrap => Sys2Proof.Machine.execDeferredTrap s
  | .pageWalk => Sys2Proof.Machine.execPageWalk s
  | .migrationFrameArrival => Sys2Proof.Machine.execMigrationFrameArrival s
  | .spillDrain => Sys2Proof.Machine.execSpillDrain s
  | .homeQueueServe => Sys2Proof.Machine.execHomeQueueServe s
  | .updateCopyReturn => Sys2Proof.Machine.execUpdateCopyReturn s
  | .leaseGrant => Sys2Proof.Machine.execLeaseGrant s
  | .leaseExpiry => Sys2Proof.Machine.execLeaseExpiry s
  | .tagResend => Sys2Proof.Machine.execTagResend s
  | .resendExhausted => Sys2Proof.Machine.execResendExhausted s
  | .tileDelivery => Sys2Proof.Machine.execTileDelivery s
  | .sweepSplit => Sys2Proof.Machine.execSweepSplit s
  | .kvgathExecute => Sys2Proof.Machine.execKvgathExecute s
  | .darnInvocation => Sys2Proof.Machine.execDarnInvocation s
  | .ordRefusalResend => Sys2Proof.Machine.execOrdRefusalResend s
  | .lpFrameFill => Sys2Proof.Machine.execLpFrameFill s
  | .notifyQueueHeadUpdate => Sys2Proof.Machine.execNotifyQueueHeadUpdate s
  | .yieldExpiry => Sys2Proof.Machine.execYieldExpiry s
  | .wfiTimeout => Sys2Proof.Machine.execWfiTimeout s
  | .remoteAccessTimeout => Sys2Proof.Machine.execRemoteAccessTimeout s
  | .podBarrierArrival => Sys2Proof.Machine.execPodBarrierArrival s
  | .partitionSchedule => Sys2Proof.Machine.execPartitionSchedule s
  | .pcieError => Sys2Proof.Machine.execPcieError s

end Sys2Proof.Machine
end

