-- ==== Sys2Proof/Machine/Issue.lean ====
section
/-! DEFINITION. How a core issues (R109, R122, R144, R244-R246, R255): which slot a cycle goes to, what stands at its boundary, the fetch of its
instruction, and its execution; and the turns of the schedule (log entry 3). -/

namespace Sys2Proof.Machine

/-! ### Which slot issues (R109) -/

/-- Whether `twait` of slot `k` of core `r` has something to answer (R351): a tile, the end of its group's sweeps, or their failure. -/
def Dev.tileDue (d : Dev) (r k : Nat) : Bool :=
  match d.task r k with
  | some t => t.firstDelivered.isSome || (d.sweepFailure t.part t.group).isSome
      || (aget? (d.part t.part).groups t.group).any (·.sweep == 2)
  | none => true

/-- Whether the condition of a parked slot holds, so that its instruction executes again (R109, R144): until then the slot takes no cycle. Waits
that another step ends are not over here. `host` are the back copies that commands of the host have chosen (R208). -/
def Dev.waitOver (d : Dev) (host : List (Nat × BackChoice)) (r k : Nat) : Bool :=
  let c := d.core r
  let s := c.slot k
  match s.wait with
  | .none => true
  | .fetch l => (aget? c.l1i l).isSome
  | .walk g _ _ => let q := d.quad (r / 4); !q.coal.contains (s.part, g / 65536) && decide (q.coal.length < 32)
  | .mbx i t => mbxMet (vget c.counters i 0) t
  | .tags => c.tagFree
  | .wb n => d.wbFree r n
  | .release g => d.gateOpen g
  | .acquire => s.acqPid.isEmpty
  | .matrixQueue => decide (c.mxq.length < 16)
  | .queueEmpty => (d.core (d.homeOf r k).1).mxq.isEmpty
  | .mfence => !c.mxq.any (·.slot == k)
  | .copyFifo => decide (c.fifo.length < 8)
  | .tile t => !c.tileLocked t && !(c.tileOwner t).any (fun l => c.ladderLocked l.1)
  | .stash e => !(aget? c.stash e).any (·.st == .mapped)
  | .twait => d.tileDue r k
  | .bar key phase => d.barDone key phase
  | .barOpen key => !d.barFull key
  | .pending => s.pend.isEmpty
  | .homeCore => !d.homeSaved r k
  | .wfi _ => !(d.homeSlot r k).copyIrqs.isEmpty
  | .shootdown m kind gva pub => match pub with
    | some e => d.publishDone s.part gva m e host
    | none => d.shotDone s.part kind gva m
  | .ladder l => !c.ladderLocked l
  | .fence g => d.loadsDone r k && g.all d.gateOpen
  | .line l mask => !d.lineHeld l && !d.lineBusy r k l mask
  | .peek l _ => !d.homeQ.any fun q => q.rank == r && q.line == l && q.kind.ofAgent (.peek k)
  | .cache l g => l.all (fun l => !d.lineHeld l) && g.all d.gateOpen
  | .fault _ | .home | .migrate | .trapDue _ | .upcallDue _ => false

/-- Whether a thread stands at the end of a lookahead window whose result has not arrived (R248). -/
def Slot.windowHeld (s : Slot) : Bool := s.windows.any (·.left == 0)

/-- Whether a thread that does not wait may issue: it is not held at the end of a window, it has room for one more outstanding result, and no
deferred trap is due, which waits for the pending results alone (R248, R250). -/
def Slot.mayIssue (s : Slot) : Bool := !s.windowHeld && s.nextDeferred.isNone && decide (s.pend.length < 16)

/-- What is due at the boundary of slot `k` of core `r`, before its next instruction (R250, R141, R343): the device after it. -/
def Dev.boundary (d : Dev) (r k : Nat) : Option Dev :=
  let s := d.slot r k
  let tvec := (d.core r).tvec
  match d.deferredDue r k with
  | some _ => some (d.takeDeferred r k)
  | none => match s.wait, s.pend.isEmpty with
    | .trapDue t, true => some (d.modSlot r k fun s => s.enterTrap tvec t)
    | .upcallDue g, true => some (d.modSlot r k fun s => s.enterPage g)
    | _, _ => match d.copyFaultDue r k with
      | some t => some (d.takeCopyFault r k t)
      | none => (d.copyIrqDue r k).map fun q => d.takeCopyIrq r k q

/-- A thread that can use a cycle of its core. While the core drains for a save only an instruction that has to complete first goes on
(R115). -/
def Dev.eligible (d : Dev) (host : List (Nat × BackChoice)) (r k : Nat) : Bool :=
  let s := d.slot r k
  s.occ && !s.away && decide (s.yieldUntil ≤ (d.core r).cycle.toNat)
    && (if (d.core r).saving then s.wait.inside && d.waitOver host r k
      else (d.boundary r k).isSome || (s.mayIssue && d.waitOver host r k))

/-- The slot that the core's cycle goes to: slot i of the rotation, or its sibling. -/
def Dev.chooseSlot (d : Dev) (host : List (Nat × BackChoice)) (r : Nat) : Option Nat :=
  let c := d.core r
  if c.part.isNone || c.lost then none
  else
    let n := c.cycle.toNat
    let i := n % 16
    let j := (i + 8) % 16
    if d.eligible host r i then some i
    else if d.eligible host r j && ((c.slot j).lastIssue.all fun l => decide (l + 8 ≤ n)) then some j else none

/-! ### Fetch (R122, R244, R245) -/

/-- Translate one byte of text, and its line in the instruction cache: a miss parks until the line arrives. -/
def Dev.textByte (d : Dev) (gva : Nat) : Chk (Line × Nat) := do
  let t ← d.translate { exec_ := true, user := d.user, twinOk := true } gva
  match aget? d.curCore.l1i (t.pa / 128) with
  | some l => .ok (l, t.pa % 128)
  | none => park (.fetch (t.pa / 128))

/-- TARGET for an arrival at a slot that its header does not mark, or at slot 0 (R245). -/
def Dev.targetCheck (d : Dev) (from_ : Word) : Chk Unit := do
  let s := d.th
  let k := slotOf s.pc
  let (l, o) ← d.textByte (segBase (s.seg 7) + s.pc.toNat / 128 * 128)
  ensure (k != 0 && lineNat l o 4 / 2 ^ k % 2 == 1) .target from_

/-- The word at the PC; s7 and the PC are read for it (R54). -/
def Dev.fetchWord (d : Dev) : Chk HWord := do
  let s := d.th
  if s.badS.contains 7 || s.badC.contains 64 then .error .parity
  let gva ← segCheck (s.seg 7) s.pc 4 { x := true, l0 := true }
  let (l, o) ← d.textByte gva
  match s.arrive with
  | some a => d.targetCheck a
  | none => pure ()
  .ok (BitVec.ofNat 32 (lineNat l o 4))

/-! ### Execution -/

/-- Decode the slot's word and execute it: a word that no instruction has is ILLEGAL. -/
def State.runWord (s : State) (w : HWord) : Host.Outcome State Fault Refusal :=
  match decode w with
  | .ok i => exec i s
  | .error _ => s.illegal

/-- Whether the instruction of a slot is under way, so that it goes on with the word that was fetched. -/
def Wait.underWay : Wait → Bool
  | .bar _ _ => true
  | w => w.inside

/-- The device as a thread's instruction finds it: the current slot is slot `k` of core `r`, its word is `w`, and the arrival mark is
used up. -/
def Dev.atSlot (d : Dev) (r k : Nat) (w : HWord) : Dev :=
  { d with cur := (r, k) }.modSlot r k fun s => { s with word := w, arrive := none }

/-- The cycle of slot `k` of core `r`: what is due at its boundary, or its next instruction. -/
def State.slotTurn (s : State) (r k : Nat) : Host.Outcome State Fault Refusal :=
  let d := s.dev.modSlot r k fun t => { t with lastIssue := some (s.dev.core r).cycle.toNat }
  match (if (d.core r).saving then none else d.boundary r k) with
  | some d => .next { s with dev := d }
  | none =>
    let t := d.slot r k
    let d := { d with cur := (r, k) }
    if t.wait.underWay then { s with dev := d }.runWord t.word
    else match d.fetchWord with
      | .error st => .next { s with dev := d.stopAt r k st }
      | .ok w => { s with dev := d.atSlot r k w }.runWord w

/-- The core's clock (R123). -/
def State.tick (s : State) (r : Nat) : State := s.modDev fun d => d.modCore r fun c => { c with cycle := c.cycle + 1 }

/-- One cycle of core `r`. -/
def State.coreTurn (s : State) (r : Nat) : Host.Outcome State Fault Refusal :=
  match s.dev.chooseSlot s.host.chosenBacks r with
  | none => .next (s.tick r)
  | some k => match s.slotTurn r k with
    | .next t => .next (t.tick r)
    | .fault f => .fault f
    | .refused q => .refused q

/-! ### The other turns -/

/-- The first entry in a list of unsent entries of a line from which bytes can leave: no older entry, whose bytes are gathered in `older`, holds
any of them (R189). -/
def pickEntry (g older : BitVec 128) : List WbEntry → Option (WbEntry × BitVec 128)
  | [] => none
  | e :: t =>
    let m := e.leaving g
    if m != 0 && (m &&& older) == 0 then some (e, m) else pickEntry g (older ||| e.mask) t

/-- An entry whose bytes `m` are sent: they stand in the buffer until the home has them, and what is left waits on. -/
def WbEntry.split (e : WbEntry) (m : BitVec 128) : List WbEntry :=
  { e with mask := m, sent := true } :: (if e.mask = m then [] else [{ e with mask := e.mask &&& ~~~m }])

/-- The store request for bytes of an entry. -/
def Dev.drainReq (d : Dev) (r : Nat) (e : WbEntry) (m : BitVec 128) : HomeReq :=
  let k := match e.srel with
    | some (o, _) => o
    | none => e.slots.head?.getD 0
  { rank := r, slot := k, part := e.part, prank := r - (d.part e.part).cfg.hbase, arr := d.accSeq, passed := 0, line := e.line, home := e.home
    gva := e.pg.num * 65536 + 128 * e.line % 65536, large := e.pg.large, seq := e.seq, tag := none, kind := .store m, cls := e.cls
    scope := (e.srel.map (·.2)).getD .cr, srel := e.srel.isSome, remote := false }

/-- Bytes of a write-buffer entry of core `r` are sent to the home of their line (R123). Entries for different bytes may leave in any order
(R188, R189). -/
def Dev.drain (d : Dev) (r line : Nat) (bytes : BitVec 128) : Dev :=
  match pickEntry bytes 0 ((d.core r).wb.filter fun e => e.line == line && !e.sent) with
  | none => d
  | some (e, m) =>
    (d.stamp.modCore r fun c => { c with wb := c.wb.flatMap fun x => if x = e then x.split m else [x] }).enqueue (d.drainReq r e m)

/-- The `k`-th request of a line has been on its way until now, and arrives behind the others: one that no other has passed at the home, and
that no ordered buffer has accepted. -/
def Dev.transit (d : Dev) (line k : Nat) : Dev :=
  match (d.homeQ.filter fun q => q.line == line)[k]? with
  | some q => if q.passed = 0 && !d.accepted q then { d.stamp with homeQ := d.homeQ.erase q ++ [{ q with arr := d.accSeq }] } else d
  | none => d

/-- A line leaves the L1 caches of core `r`: plain copies are dropped, and an update-only copy returns, for which the core needs a tag (R274). -/
def Dev.evictL1 (d : Dev) (r line : Nat) : Dev :=
  if (d.core r).uoc.any (·.line == line) && !(d.core r).tagFree then d
  else (d.sendBack r line).modCore r fun c => { c with l1d := adel c.l1d line, l1i := adel c.l1i line }

/-- The parity of a register goes bad (R53, R124). -/
def Slot.upset (kind reg : Nat) (s : Slot) : Slot :=
  match kind with
  | 0 => { s with badX := s.badX ++ [reg] }
  | 1 => { s with badV := s.badV ++ [reg] }
  | 2 => { s with badP := s.badP ++ [reg] }
  | 3 => { s with badS := s.badS ++ [reg] }
  | _ => { s with badC := s.badC ++ [reg] }

/-- A step of the host or of the device: an instruction word is none. -/
def State.event_ (s : State) (i : Instr) (args : StepArgs) : Host.Outcome State Fault Refusal :=
  if (encode i).isSome then .next s else exec i { s with args := args }

/-- One turn of the schedule. -/
def State.runTurn (s : State) : Turn → Host.Outcome State Fault Refusal
  | .core r => s.coreTurn r
  | .ev i args => s.event_ i args
  | .fetchCmd f q => .next (s.fetchCmd f q)
  | .cmd n => .next (s.cmdStep n)
  | .drain r line g => .next (s.modDev fun d => d.drain r line g)
  | .tileFetch r n b off => .next (s.modDev fun d => d.tileFetch r n b off)
  | .transit line k => .next (s.modDev fun d => d.transit line k)
  | .evictL1 r line => .next (s.modDev fun d => d.evictL1 r line)
  | .upset r k kind reg => .next (s.modDev fun d => d.modSlot r k (Slot.upset kind reg))
  | .remoteAck id ok => .next (s.modDev fun d => d.remoteAnswer id ok)
  | .corrected => .next (s.modDev fun d => d.flushCorrected)
  | .clock die => .next (s.modDev fun d => { d with dieCycles := aset d.dieCycles die (d.dieCycle die + 1) })
  | .hostWrite iova b => .next (s.modHost fun h => { h with hostMem := h.hostMem.set iova b })
  | .iommu ranges => .next (s.modHost fun h => { h with iommuBad := ranges })
  | .exports l => .next (s.modDev fun d => { d with exports := l })
  | .backing l => .next (s.modDev fun d => { d with backing := l })
  | .measure reg digest => .next (s.flojoExtend reg digest)
  | .configure modnum gangWait bytes parts => .next (s.modBoot fun b =>
      { b with cfgModnum := modnum, cfgGangWait := gangWait, cfgBytes := bytes, cfgParts := parts })
  | .assignBus bus => .next (s.modHost fun h => { h with pfRid := bus % 256 * 256 })
  | .vecResidue r k => .next (s.modDev fun d => d.vecResidue r k)

/-! ### The order where the schedule is empty (log entry 3) -/

/-- A step of the device with its operands. -/
def evTurn (i : Instr) (a : Nat) (b c : Nat := 0) : Turn := .ev i { StepArgs.reset with a := a, b := b, c := c }

/-- What a core has to do beside issuing. -/
def coreAgenda (r : Nat) (c : Core) : List Turn :=
  let slots := (List.range 16).flatMap fun k =>
    let s := c.slot k
    ((s.pend.filter (·.need == 0)).map fun p => evTurn .resultArrival r k p.id) ++ (match s.wait with
      | .fetch l => [evTurn .ifetchFill r l]
      | .stash e => [evTurn .stashFill r e]
      | .wfi n => if n ≤ c.cycle.toNat then [evTurn .wfiTimeout r k] else []
      | _ => [])
  let chans := (List.range 4).flatMap fun ch => [evTurn .copyStep r ch, evTurn .kvgathExecute r ch]
  slots ++ ((c.wb.filter fun e => !e.sent).map fun e => Turn.drain r e.line (BitVec.allOnes 128))
    ++ (c.mxq.zipIdx.flatMap fun m => [false, true].filterMap fun b =>
      (m.1.source b).map fun s => Turn.tileFetch r m.2 b (128 * (m.1.pins.length % (s.2 / 128))))
    ++ (if c.mxq.isEmpty then [] else [evTurn .matrixCommandExecute r, evTurn .ladderCommandExecute r])
    ++ (if c.fifo.isEmpty && c.chan.isEmpty then [] else chans)
    ++ (if c.inbox.isEmpty && c.overflow.isEmpty && c.spilled == 0 then [] else [evTurn .inboxTake r, evTurn .spillDrain r])
    ++ (c.out.filter (·.2.refused)).map (fun o => evTurn .ordRefusalResend r o.1)
    ++ (if c.part.isSome then [evTurn .arbiterPass r] else [])
    ++ c.l1d.map fun l => Turn.evictL1 r l.1

/-- The arrival of a message. -/
def netTurn (n : Nat) (m : NetMsg) : Turn :=
  match m.msg with
  | .launch _ _ _ => evTurn .launchMessageArrival n
  | .frame _ _ _ => evTurn .migrationFrameArrival n
  | .incr _ _ _ _ _ => evTurn .mailboxIncrement n

/-- The work of a partition. -/
def partAgenda (p : Nat) (x : Part) : List Turn :=
  match x.st with
  | .stopped => if x.started then [evTurn .partitionSchedule p] else []
  | .descheduled => []
  | .resident =>
    (if x.queues.any (fun q => !q.2.isEmpty) then [evTurn .taskPlacement p] else [])
      ++ ((x.det.filter fun q => !q.2.isEmpty).map fun q => evTurn .taskPlacement p q.1)
      ++ (x.sweeps.flatMap fun w => ((List.range (swTiles w.2.desc)).filter w.2.pending).map fun i => evTurn .tileDelivery p w.1 i)
      ++ ((x.sweeps.filter fun w => !w.2.recQ.isEmpty || !w.2.ready).map fun w => evTurn .tileDelivery p w.1 (swTiles w.2.desc))
      ++ [evTurn .errorLogTailUpdate p, evTurn .notifyQueueHeadUpdate p]

/-- Everything that the device could do next. -/
def State.agenda (s : State) : List Turn :=
  let d := s.dev
  ((d.homeQ.map (·.line)).eraseDups.map fun l => evTurn .homeQueueServe l)
    ++ (d.quads.flatMap fun q => q.2.coal.map fun c => evTurn .pageWalk q.1 c.1 c.2)
    ++ (d.net.map fun m => netTurn m.1 m.2)
    ++ (d.lpFills.map fun f => evTurn .lpFrameFill f.1 f.2.1 f.2.2.num)
    ++ (if d.corr.isEmpty then [] else [Turn.corrected])
    ++ (d.cores.flatMap fun c => coreAgenda c.1 c.2)
    ++ (d.parts.flatMap fun p => partAgenda p.1 p.2)
    ++ (s.host.funcs.flatMap fun f => ((List.range 16).filter fun q => (s.startable f.1 q).isSome).map fun q => Turn.fetchCmd f.1 q)
    ++ (s.host.funcs.flatMap fun f => (f.2.queues.filter fun q => q.2.interval).map fun q => evTurn .msixDeferredSend f.1 q.1)
    ++ (s.host.cmds.map fun c => Turn.cmd c.1)
    ++ ((d.cores.filter fun c => c.2.part.isSome).map fun c => Turn.core c.1)

/-- The turn that is taken where the schedule names none: the boot ROM's first, and then one of the agenda, by the count of turns. -/
def State.ownTurn (s : State) : Option Turn :=
  if !s.boot.begun then some (.ev .moduleReset StepArgs.reset)
  else
    let l := s.agenda
    l[s.dev.time % l.length]?

/-- The next turn. -/
def State.nextTurn (s : State) : Host.Outcome State Fault Refusal :=
  let s := s.modDev fun d => { d with time := d.time + 1 }
  match s.schedule with
  | t :: rest => { s with schedule := rest }.runTurn t
  | [] => match s.ownTurn with
    | some t => s.runTurn t
    | none => .next s

/-! ### A placed instruction -/

/-- The segment of the placed text: 2^20 bytes from GVA 0, readable and executable, L = 0. -/
def placedSeg : SegImage := BitVec.ofNat 128 (2 ^ 84 + 2 ^ 112 + 2 ^ 114)
/-- A leaf entry that maps page 0 to PA 0: valid, readable, executable, USER, ACC. -/
def placedLeaf : Word := BitVec.ofNat 64 (2 ^ 63 + 2 ^ 62 + 2 ^ 60 + 2 ^ 59 + 2 ^ 52)
/-- The line of the placed text: the header marks slot 1, which holds the word. -/
def placedLine (w : Nat) : Line := BitVec.ofNat 1024 (2 + w % 2 ^ 32 * 2 ^ 32)

/-- Core 0 runs a thread of partition 0 in slot 0, whose next instruction lies in its instruction cache: `withFetchWord` stands for the
launch of a task (log entry 3). -/
def Core.placed (w : Nat) (c : Core) : Core :=
  { c with
    part := some 0, saving := false, lost := false, cycle := 0
    l1i := [(0, placedLine w)]
    tlb := [⟨0, 0, false, false, placedLeaf, 0, false⟩]
    tasks := [{ id := 0, part := 0, group := 1, index := 0, desc := parseDesc (BitVec.ofNat 512 (2 ^ 192 + 2 ^ 200)), base := 0, blocks := 1, slots := [0], freed := [], guestSlots := [], gates := [], startedAt := 0, ended := false, bufs := [], heldBufs := [] }]
    nextTask := 1
    slots := vset c.slots 0 { Slot.startThread 0 (parseDesc (BitVec.ofNat 512 (2 ^ 192 + 2 ^ 200 + 4))) (Vector.ofFn fun i => if i.val = 7 then placedSeg else 0) 0 with
      occ := true } }

/-- Partition 0, resident, with core 0 and the page of the text as its physical range 0. -/
def Part.placed (p : Part) : Part :=
  { p with
    configured := true, started := true, st := .resident
    cfg := { p.cfg with hbase := 0, hlen := 1, ranges := ⟨true, false, 128, 0⟩ :: (PartRec.reset.ranges.drop 1) } }

end Sys2Proof.Machine
end

