-- ==== Sys2Proof/Machine/Step.lean ====
section
/-! DEFINITION. One step of the machine: a turn of its schedule; and a state whose next step fetches a given word. -/

namespace Sys2Proof.Machine

/-- One step. A module that Flojo has shut down makes none (R52). -/
def step (s : State) : Host.Outcome State Fault Refusal :=
  if s.boot.off then .fault .shutDown else s.nextTurn

/-- `s` with a thread on core 0 whose next instruction is the word `w`, and the core's cycle as the next turn. -/
def State.withFetchWord (s : State) (_nbits w : Nat) : State :=
  { s with
    boot := { s.boot with off := false }
    dev := ((s.dev.setCore 0 ((s.dev.core 0).placed w)).modPart 0 Part.placed)
    schedule := .core 0 :: s.schedule }

end Sys2Proof.Machine
end

