-- ==== Sys2Proof/Certificates/Slice0/Obligations.lean ====
section
/-! DEFINITION. The statements about the model that provers settle, from the numbered rules of the spec. -/

namespace Sys2Proof.Claims

open Machine

/-! ### The words that the statements share -/

/-- The instruction answers a next state, and `P` holds of it. -/
def Gives (i : Instr) (s : State) (P : State → Prop) : Prop := ∃ t, exec i s = .next t ∧ P t

/-- The thread whose instruction executes sits in one of its core's 16 slots, no window holds a register of `u` (R249), and no register
that `u` reads has bad parity (R54). -/
def Ready (u : RegUse) (s : State) : Prop :=
  s.dev.cur.2 < 16 ∧ s.dev.th.laheadHit u = false ∧ s.dev.th.parityHit u = false

/-- Of the whole machine only the slot of the thread may differ between `s` and `t`: every byte of memory and of local memory, every other
slot, every register of every core, home slice, quad and partition, the host and the boot state are as before. -/
structure ThreadOnly (s t : State) : Prop where
  boot : t.boot = s.boot
  host : t.host = s.host
  args : t.args = s.args
  schedule : t.schedule = s.schedule
  device : { t.dev with cores := s.dev.cores } = s.dev
  cores : ∀ r, { t.dev.core r with slots := (s.dev.core r).slots } = s.dev.core r
  slots : ∀ r k, ¬(r = s.dev.cur.1 ∧ k = s.dev.cur.2) → t.dev.slot r k = s.dev.slot r k
  memory : ∀ a, t.dev.mem.get a = s.dev.mem.get a
  localBytes : ∀ r a, (t.dev.core r).lmem.get a = (s.dev.core r).lmem.get a

/-- The slot `b` with the fields of program flow taken from `a`: what any retiring instruction may change of its slot. -/
def flowOf (a b : Slot) : Slot :=
  { b with pc := a.pc, arrive := a.arrive, windows := a.windows, wait := a.wait, opMark := a.opMark, turns := a.turns, fresh := a.fresh }

/-- The thread goes on at `pc`, with the arrival mark `arrive`, and is not parked. -/
def GoesOn (t : State) (pc : Word) (arrive : Option Word) : Prop :=
  t.dev.th.pc = pc ∧ t.dev.th.arrive = arrive ∧ t.dev.th.wait = Wait.none

/-- The thread goes on after its instruction in sequential flow (R244). -/
def InSequence (s t : State) : Prop := GoesOn t (link s.dev.th.pc) s.dev.th.arrive

/-- X[rd] takes `v` and x0 stays 0; nothing else of the slot changes but the flow of the program. -/
def WritesX (s t : State) (rd : RegNo) (v : Word) : Prop :=
  ThreadOnly s t ∧ (∀ r, t.dev.x r = if r = 0 then 0 else if r = rd then v else s.dev.x r)
    ∧ { flowOf s.dev.th t.dev.th with x := s.dev.th.x, badX := s.dev.th.badX } = s.dev.th

/-- No register of the thread changes, nor anything else but the flow of the program. -/
def WritesNothing (s t : State) : Prop := ThreadOnly s t ∧ flowOf s.dev.th t.dev.th = s.dev.th

/-- One result more is outstanding (R248): its destinations `post`, the bytes known of it, and how many parts of it are still to come, under
a window of `la` instructions. Nothing else of the slot changes but the flow of the program. -/
def AddsPending (s t : State) (post : Post) (raw : List Byte) (need : Nat) (la : La) : Prop :=
  t.dev.th.pend = s.dev.th.pend ++ [⟨s.dev.th.nextPid, post, raw, need, none⟩]
    ∧ t.dev.th.windows = tickWindows s.dev.th.pend s.dev.th.windows
        ++ (if post.dests.isEmpty then [] else [⟨s.dev.th.nextPid, post.dests, la.toNat⟩])
    ∧ { flowOf s.dev.th t.dev.th with pend := s.dev.th.pend, nextPid := s.dev.th.nextPid } = s.dev.th

/-- `sv` and `uv` of the spec: a pattern read as two's complement, and unsigned. -/
abbrev sv (a : Word) : Int := a.toInt
abbrev uv (a : Word) : Nat := a.toNat
/-- A value mod 2^64. -/
abbrev word (x : Int) : Word := BitVec.ofInt 64 x

end Sys2Proof.Claims

open Sys2Proof Sys2Proof.Machine Sys2Proof.Claims

/-! ### Register arithmetic, immediates, branches (R256-R264) -/

namespace Sys2Proof.Claims

/-- `i rd ra rb` sets X[rd] to f(X[ra], X[rb]) and goes on in sequence. -/
def AluResult (i : RegNo → RegNo → RegNo → Instr) (f : Word → Word → Word) : Prop :=
  ∀ rd ra rb s, Ready { rx := [ra, rb], wx := [rd] } s →
    Gives (i rd ra rb) s fun t => WritesX s t rd (f (s.dev.x ra) (s.dev.x rb)) ∧ InSequence s t

/-- `i rd ra` sets X[rd] to a count n that `P` describes. -/
def CountResult (i : RegNo → RegNo → Instr) (P : Word → Nat → Prop) : Prop :=
  ∀ rd ra s, Ready { rx := [ra, 0], wx := [rd] } s →
    Gives (i rd ra) s fun t => ∃ n, P (s.dev.x ra) n ∧ WritesX s t rd (BitVec.ofNat 64 n) ∧ InSequence s t

/-- `i rd ra` sets X[rd] to f(X[ra]). -/
def UnaryResult (i : RegNo → RegNo → Instr) (f : Word → Word) : Prop :=
  ∀ rd ra s, Ready { rx := [ra], wx := [rd] } s →
    Gives (i rd ra) s fun t => WritesX s t rd (f (s.dev.x ra)) ∧ InSequence s t

/-- A division leaves the result `f` of its operands outstanding for X[rd], with every byte known. -/
def DivResult (i : RegNo → RegNo → RegNo → La → Instr) (f : Word → Word → Word) : Prop :=
  ∀ rd ra rb la s, Ready { rx := [ra, rb], wx := [rd] } s →
    Gives (i rd ra rb la) s fun t => ThreadOnly s t ∧ InSequence s t
      ∧ AddsPending s t (.zext rd 8) (leBytes 8 (f (s.dev.x ra) (s.dev.x rb)).toNat) 0 la

/-- A branch arrives at PC + sext(off16) × 4 when `taken`, and otherwise goes on in sequence. -/
def BranchResult (i : RegNo → RegNo → BitVec 16 → Instr) (taken : Word → Word → Prop) : Prop :=
  ∀ ra rb off s, Ready { rx := [ra, rb] } s →
    Gives (i ra rb off) s fun t => WritesNothing s t
      ∧ (taken (s.dev.x ra) (s.dev.x rb) → GoesOn t (word (sv s.dev.th.pc + off.toInt * 4)) (some s.dev.th.pc))
      ∧ (¬taken (s.dev.x ra) (s.dev.x rb) → InSequence s t)

end Sys2Proof.Claims

/-- R256: each register operation sets X[rd] to the table's result, mod 2^64; a write to x0 is discarded; nothing else changes. R256: `clz`,
`ctz` and `popc` count leading zeros, trailing zeros and ones; 64 zeros when X[ra] = 0. -/
def Obligations.RegisterAluAndBitCounts : Prop :=
  (
    AluResult .add (fun a b => word (sv a + sv b)) ∧ AluResult .sub (fun a b => word (sv a - sv b))
      ∧ AluResult .and (fun a b => a &&& b) ∧ AluResult .or (fun a b => a ||| b) ∧ AluResult .xor (fun a b => a ^^^ b)
      ∧ AluResult .sll (fun a b => word (uv a * 2 ^ (uv b % 64))) ∧ AluResult .srl (fun a b => word (uv a / 2 ^ (uv b % 64)))
      ∧ AluResult .sra (fun a b => word (sv a / 2 ^ (uv b % 64)))
      ∧ AluResult .slt (fun a b => if sv a < sv b then 1 else 0) ∧ AluResult .sltu (fun a b => if uv a < uv b then 1 else 0)
      ∧ AluResult .mul (fun a b => word (sv a * sv b)) ∧ AluResult .mulh (fun a b => word (sv a * sv b / 2 ^ 64))
      ∧ AluResult .mulhu (fun a b => word (uv a * uv b / 2 ^ 64))
      ∧ AluResult .min (fun a b => word (min (sv a) (sv b))) ∧ AluResult .max (fun a b => word (max (sv a) (sv b)))
      ∧ AluResult .minu (fun a b => word (min (uv a) (uv b))) ∧ AluResult .maxu (fun a b => word (max (uv a) (uv b)))
  ) ∧
  (
    CountResult .clz (fun a n => n ≤ 64 ∧ (∀ k < n, a.getLsbD (63 - k) = false) ∧ (n < 64 → a.getLsbD (63 - n) = true))
      ∧ CountResult .ctz (fun a n => n ≤ 64 ∧ (∀ k < n, a.getLsbD k = false) ∧ (n < 64 → a.getLsbD n = true))
      ∧ CountResult .popc (fun a n => n = (List.range 64).countP fun k => a.getLsbD k)
  )

/-- R257: the four divisions leave the table's result outstanding, truncating toward zero; no case traps. R258-R260: the immediate
operations. -/
def Obligations.DivisionsAndImmediates : Prop :=
  (
    DivResult .div (fun a b => if b = 0 then word (-1) else word ((sv a).tdiv (sv b)))
      ∧ DivResult .rem (fun a b => if b = 0 then a else word (sv a - sv b * (sv a).tdiv (sv b)))
      ∧ DivResult .divu (fun a b => if b = 0 then word (-1) else word (uv a / uv b))
      ∧ DivResult .remu (fun a b => if b = 0 then a else word (uv a % uv b))
  ) ∧
  (
    (∀ i : BitVec 16, UnaryResult (fun d a => .addi d a i) (fun a => word (sv a + i.toInt))
        ∧ UnaryResult (fun d a => .andi d a i) (fun a => word (uv a &&& i.toNat : Nat))
        ∧ UnaryResult (fun d a => .ori d a i) (fun a => word (uv a ||| i.toNat : Nat))
        ∧ UnaryResult (fun d a => .xori d a i) (fun a => word (uv a ^^^ i.toNat : Nat))
        ∧ UnaryResult (fun d a => .slti d a i) (fun a => if sv a < i.toInt then 1 else 0)
        ∧ UnaryResult (fun d a => .sltiu d a i) (fun a => if (uv a : Int) < i.toInt % 2 ^ 64 then 1 else 0))
      ∧ (∀ n : BitVec 6, UnaryResult (fun d a => .slli d a n) (fun a => word (uv a * 2 ^ n.toNat))
        ∧ UnaryResult (fun d a => .srli d a n) (fun a => word (uv a / 2 ^ n.toNat))
        ∧ UnaryResult (fun d a => .srai d a n) (fun a => word (sv a / 2 ^ n.toNat)))
      ∧ ∀ (i : BitVec 21) rd s, Ready { wx := [rd] } s →
        Gives (.lui rd i) s (fun t => WritesX s t rd (word (i.toInt * 2 ^ 16)) ∧ InSequence s t)
          ∧ Gives (.auipc rd i) s (fun t => WritesX s t rd (word (sv s.dev.th.pc + i.toInt * 2 ^ 16)) ∧ InSequence s t)
  )

/-- R262: the conditional branches. R263, R264: `jal` and `jalr` write the link and arrive at their target, `jalr` with the target formed
before the link is written. R22, R244: sequential flow passes from slot k to slot k + 1, and from slot 31 to slot 1 of the next line. -/
def Obligations.BranchesAndJumps : Prop :=
  (
    BranchResult .beq (fun a b => a = b) ∧ BranchResult .bne (fun a b => a ≠ b)
      ∧ BranchResult .blt (fun a b => sv a < sv b) ∧ BranchResult .bge (fun a b => sv b ≤ sv a)
      ∧ BranchResult .bltu (fun a b => uv a < uv b) ∧ BranchResult .bgeu (fun a b => uv b ≤ uv a)
  ) ∧
  (
    (∀ rd off s, Ready { wx := [rd] } s → Gives (.jal rd off) s fun t =>
        WritesX s t rd (link s.dev.th.pc) ∧ GoesOn t (word (sv s.dev.th.pc + off.toInt * 4)) (some s.dev.th.pc))
      ∧ ∀ rd ra imm s, Ready { rx := [ra], wx := [rd] } s → Gives (.jalr rd ra imm) s fun t =>
        WritesX s t rd (link s.dev.th.pc) ∧ GoesOn t (word (sv (s.dev.x ra) + imm.toInt) &&& ~~~(3 : Word)) (some s.dev.th.pc)
  ) ∧
  (
    ∀ (line : BitVec 57) (k : BitVec 5), k ≠ 0 →
      link (line ++ k ++ (0 : BitVec 2)) = (if k = 31 then (line + 1) ++ (1 : BitVec 5) ++ (0 : BitVec 2) else line ++ (k + 1) ++ (0 : BitVec 2))
  )

/-! ### Control registers, traps and returns (R125-R127, R249-R255, R265, R375-R377) -/

namespace Sys2Proof.Claims

/-- The bits of each control register that software can write (R125-R127); 0 for the registers that no write changes. -/
def crWritable (n : BitVec 6) : Word :=
  match n.toNat with
  | 0x05 => 0x3F
  | 0x06 => 0x7
  | 0x07 => 0x700FF
  | 0x08 | 0x09 => 0x800000000007FFFF
  | 0x0A => 0xF
  | 0x12 | 0x13 | 0x15 | 0x20 | 0x21 | 0x23 | 0x24 => BitVec.allOnes 64
  | 0x14 | 0x22 => 0xFF
  | 0x16 => 0x7F
  | _ => 0

/-- A register number of R125, which the thread may access in its mode. -/
def CrAllowed (n : BitVec 6) (s : State) : Prop :=
  n.toNat < 0x1A ∨ (0x20 ≤ n.toNat ∧ n.toNat ≤ 0x24 ∧ s.dev.th.mode = true)

/-- X[rd] takes the old value; CR[n] takes `new` in its writable bits; every other control register, general register, vector, predicate
and segment register, every byte of memory and every other slot and core is as before. -/
structure CrResult (s t : State) (rd : RegNo) (n : BitVec 6) (new : Option Word) : Prop where
  old : ∀ r, t.dev.x r = if r = 0 then 0 else if r = rd then s.dev.crGet n else s.dev.x r
  value : t.dev.crGet n = match new with
    | some v => if crWritable n = 0 then s.dev.crGet n else v &&& crWritable n
    | none => s.dev.crGet n
  others : ∀ m, m ≠ n → t.dev.crGet m = s.dev.crGet m
  flow : InSequence s t
  vectors : t.dev.th.v = s.dev.th.v ∧ t.dev.th.p = s.dev.th.p ∧ t.dev.th.s = s.dev.th.s ∧ t.dev.th.pend = s.dev.th.pend
  device : { t.dev with cores := s.dev.cores } = s.dev
  rest : t.boot = s.boot ∧ t.host = s.host
  slots : ∀ r k, ¬(r = s.dev.cur.1 ∧ k = s.dev.cur.2) → t.dev.slot r k = s.dev.slot r k
  cores : ∀ r, { t.dev.core r with slots := (s.dev.core r).slots, tvec := (s.dev.core r).tvec } = s.dev.core r

/-- The trap `c` has been taken at once (R254): SEPC, SCAUSE and SADDR are set, MODE is 1, and the thread continues at TVEC under R246
without an arrival mark. No other state changes, but that what waited is over, the lookahead windows that still cover instructions go on over the
handler's (R248), its results are numbered on, and the registers written have good parity. -/
def TrapTaken (s t : State) (c : Cause) (saddr : Word) : Prop :=
  ThreadOnly s t ∧ t.dev.th.sepc = s.dev.th.pc ∧ t.dev.th.scause = c.code ∧ t.dev.th.saddr = saddr ∧ t.dev.th.mode = true
    ∧ GoesOn t (returnTarget s.dev.curCore.tvec) none ∧ t.dev.th.windows = s.dev.th.windows.filter (fun w => decide (0 < w.left))
    ∧ { flowOf s.dev.th t.dev.th with
        sepc := s.dev.th.sepc, scause := s.dev.th.scause, saddr := s.dev.th.saddr, mode := s.dev.th.mode, badC := s.dev.th.badC
        trapPid := s.dev.th.trapPid, nextPid := s.dev.th.nextPid } = s.dev.th

/-- The instruction raises the trap `c`: at once when no result is pending, and otherwise the thread waits with it for every pending result
(R250). It has no other effect. -/
def Traps (i : Instr) (s : State) (c : Cause) (saddr : Word) : Prop :=
  (s.dev.th.pend = [] → Gives i s fun t => TrapTaken s t c saddr)
    ∧ (s.dev.th.pend ≠ [] → Gives i s fun t =>
        ThreadOnly s t ∧ { t.dev.th with wait := s.dev.th.wait } = s.dev.th ∧ t.dev.th.wait = .trapDue ⟨c, saddr⟩)

/-- What trap entry makes of a slot (R254): SEPC, SCAUSE, SADDR and MODE are set, and it continues at `tvec` under R246 without an arrival mark.
No other state of the slot changes, but that its wait is over, the windows that still cover instructions go on over the handler's (R248), its
results are numbered on, and the registers written have good parity. -/
def EntersTrap (a b : Slot) (tvec : Word) (t : TrapInfo) : Prop :=
  b.sepc = a.pc ∧ b.scause = t.cause.code ∧ b.saddr = t.saddr ∧ b.mode = true ∧ b.pc = returnTarget tvec ∧ b.arrive = none
    ∧ b.wait = Wait.none ∧ b.windows = a.windows.filter (fun w => decide (0 < w.left)) ∧ { flowOf a b with
      sepc := a.sepc, scause := a.scause, saddr := a.saddr, mode := a.mode, badC := a.badC, trapPid := a.trapPid, nextPid := a.nextPid } = a

/-- The word of the instruction, zero-extended. -/
def wordOf (s : State) : Word := s.dev.th.word.setWidth 64

end Sys2Proof.Claims

/-- R265: `crr`, `crw`, `crs` and `crc` return the old value and write the writable fields. R265, R125: numbers 0x1A-0x1F and 0x25-0x3F
raise ILLEGAL; 0x20-0x24 raise PRIV in user mode. -/
def Obligations.ControlRegisters : Prop :=
  (
    ∀ rd ra n s, CrAllowed n s →
      (Ready { rx := [0], wx := [rd], rcr := [n] } s → Gives (.crr rd n) s fun t => CrResult s t rd n none)
      ∧ (Ready { rx := [ra], wx := [rd], rcr := [n] } s →
          Gives (.crw rd ra n) s (fun t => CrResult s t rd n (some (s.dev.x ra)))
          ∧ Gives (.crs rd ra n) s (fun t => CrResult s t rd n (if ra = 0 then none else some (s.dev.crGet n ||| s.dev.x ra)))
          ∧ Gives (.crc rd ra n) s (fun t => CrResult s t rd n (if ra = 0 then none else some (s.dev.crGet n &&& ~~~s.dev.x ra))))
  ) ∧
  (
    ∀ rd ra n s, s.dev.cur.2 < 16 →
      ((0x1A ≤ n.toNat ∧ n.toNat ≤ 0x1F ∨ 0x25 ≤ n.toNat) →
        Traps (.crr rd n) s .illegal (wordOf s) ∧ Traps (.crw rd ra n) s .illegal (wordOf s)
          ∧ Traps (.crs rd ra n) s .illegal (wordOf s) ∧ Traps (.crc rd ra n) s .illegal (wordOf s))
      ∧ (0x20 ≤ n.toNat → n.toNat ≤ 0x24 → s.dev.th.mode = false →
        Traps (.crr rd n) s .priv (wordOf s) ∧ Traps (.crw rd ra n) s .priv (wordOf s)
          ∧ Traps (.crs rd ra n) s .priv (wordOf s) ∧ Traps (.crc rd ra n) s .priv (wordOf s))
  )

namespace Sys2Proof.Claims

/-- `n` vector registers from `v`. -/
def vregs (v : RegNo) (n : Nat) : List Dest := (List.range n).map fun i => .v (v + BitVec.ofNat 5 i)

/-- The registers that can be pending (R248) and that an instruction word reads or writes. -/
def namesOf (s : State) : Instr → List Dest
  | .add d a b | .sub d a b | .and d a b | .or d a b | .xor d a b | .sll d a b | .srl d a b | .sra d a b | .slt d a b | .sltu d a b
  | .mul d a b | .mulh d a b | .mulhu d a b | .div d a b _ | .divu d a b _ | .rem d a b _ | .remu d a b _ | .min d a b | .max d a b
  | .minu d a b | .maxu d a b | .lease d a b _ | .mbxadd d a b | .spawn d a b | .kvlook d a b _ | .sverNumbered d a b _ => [.x d, .x a, .x b]
  | .clz d a | .ctz d a | .popc d a | .addi d a _ | .andi d a _ | .ori d a _ | .xori d a _ | .slti d a _ | .sltiu d a _ | .slli d a _
  | .srli d a _ | .srai d a _ | .jalr d a _ | .lb d a _ _ _ | .lbu d a _ _ _ | .lh d a _ _ _ | .lhu d a _ _ _ | .lw d a _ _ _ | .lwu d a _ _ _
  | .ld d a _ _ _ | .sb d a _ _ | .sh d a _ _ | .sw d a _ _ | .sd d a _ _ | .lacq d a _ _ _ _ | .srel d a _ _ _ | .smap d a _
  | .amoswap d a _ _ _ _ _ | .amoadd d a _ _ _ _ _ | .amoand d a _ _ _ _ _ | .amoor d a _ _ _ _ _ | .amoxor d a _ _ _ _ _
  | .amomin d a _ _ _ _ _ | .amomax d a _ _ _ _ _ | .amominu d a _ _ _ _ _ | .amomaxu d a _ _ _ _ _ | .unlease d a _ | .mbxrd d a
  | .exit d a | .migrate d a | .cpcancel d a | .sweep d a | .swstat d a | .swcancel d a | .fltrd d a => [.x d, .x a]
  | .amocas d a _ _ _ _ _ => [.x d, .x (d + 1), .x a]
  | .lver d a b _ _ | .pver d a b _ _ => [.x d, .x (d + 1), .x a, .x b]
  | .crr d n => [.x d, .cr n]
  | .crw d a n | .crs d a n | .crc d a n => [.x d, .x a, .cr n]
  | .beq a b _ | .bne a b _ | .blt a b _ | .bge a b _ | .bltu a b _ | .bgeu a b _ | .redadd _ a b _ | .redand _ a b _ | .redor _ a b _
  | .redxor _ a b _ | .redmin _ a b _ | .redmax _ a b _ | .redfadd _ a b _ | .sverNext a b _ | .rver a b _ | .barCr a b | .barQd a b
  | .barDie a b | .barPkg a b | .barPod a b | .mbxwait a b | .mma _ a b _ _ | .segw _ a b | .tlbinv a b | .cinval _ a b | .cflush _ a b
  | .lldLocal _ a b | .lstLocal _ a b => [.x a, .x b]
  | .lui d _ | .auipc d _ | .jal d _ | .sunmap d | .sflush d | .mqstat d | .tdone d | .mld _ d _ | .mst _ d _ | .mstg _ d _ | .macc _ _ d
  | .mscl _ _ d | .lcfg _ d | .lldTile _ _ d | .lstTile _ _ d | .wfi d | .fltreplay d | .publish _ d | .segr d _ _ | .ppop d _ => [.x d]
  | .twait d _ => [.x d, .cr 0x0B, .cr 0x0C]
  | .vfadd _ d a b _ | .vfsub _ d a b _ | .vfmul _ d a b _ | .vfma _ d a b _ | .vfnma _ d a b _ | .vfmin _ d a b _ | .vfmax _ d a b _
  | .vfdiv _ d a b _ | .viadd _ d a b _ | .visub _ d a b _ | .vimul _ d a b _ | .vimin _ d a b _ | .vimax _ d a b _ | .vand _ d a b _
  | .vor _ d a b _ | .vxor _ d a b _ | .vsll _ d a b _ | .vsrl _ d a b _ | .vsra _ d a b _ | .vsel _ d a b _ | .vperm _ d a b _
  | .vtopk d a b _ => [.v d, .v a, .v b]
  | .vfsqrt _ d a _ | .vfrcp _ d a _ | .vfexp2 _ d a _ | .vcvt _ _ d a _ | .vcvtF32E4m3 d a _ | .vcvtF32E5m2 d a _ | .vcvtE4m3F32 d a _
  | .vcvtE5m2F32 d a _ | .vredsum _ d a _ | .vredmax _ d a _ | .vredmin _ d a _ | .vplane d a | .vunplane d a | .vq4xd d _ a => [.v d, .v a]
  | .vcmpeq _ _ a b _ | .vcmplt _ _ a b _ | .vcmple _ _ a b _ => [.v a, .v b]
  | .vbcast _ d x _ => [.v d, .x x]
  | .vext _ d a x => [.x d, .v a, .x x]
  | .vslide _ d a x _ => [.v d, .v a, .x x]
  | .vtree _ a x _ => [.v a, .x x]
  | .vld _ d a _ _ | .vst _ d a _ | .vstm d a _ _ => [.v d, .x a]
  | .vlds32 d a x _ _ | .vlds64 d a x _ _ | .vsts32 d a x _ | .vsts64 d a x _ => [.v d, .x a, .x x]
  | .vgath32 d a _ _ _ | .vgath64 d a _ _ _ | .vscat32 d a _ _ | .vscat64 d a _ _ => [.v d, .v (d + 1), .x a]
  | .laddOuter _ a b => [.v a, .v (a + 1), .v b, .v (b + 1)]
  | .lread l d q =>
    let u := ((aget? s.dev.curCore.ladders l.toNat).map fun b => (s.dev.curCore.ldescAt b.off).u).getD 1
    vregs d (if u = 1 then 2 else 4) ++ vregs q (if u = 4 then 4 else 2)
  | .cpq d v | .cpqn d v => [.x d, .v v]
  | .kvgath d a v | .satom d a v _ _ => [.x d, .x a, .v v]
  | _ => []

/-- Nothing of an instruction word comes before the check of LAHEAD (R255): its form is legal (step 3), its mode may run it (step 4), and a
matrix or ladder command finds room in the queue and formats that it accepts (R317). -/
def ReachesLahead (s : State) : Instr → Prop
  | .amocas d _ _ _ _ _ _ | .lver d _ _ _ _ | .pver d _ _ _ _ => d.toNat % 2 = 0
  | .crr _ n | .crw _ _ n | .crs _ _ n | .crc _ _ n => CrAllowed n s
  | .sret | .wfi _ | .segw _ _ _ | .tlbinv _ _ | .fltrd _ _ | .fltreplay _ | .cinval _ _ _ => s.dev.th.mode = true
  | .vfadd ty _ _ _ _ | .vfsub ty _ _ _ _ | .vfmul ty _ _ _ _ | .vfma ty _ _ _ _ | .vfnma ty _ _ _ _ | .vfmin ty _ _ _ _ | .vfmax ty _ _ _ _
  | .vfdiv ty _ _ _ _ | .vfsqrt ty _ _ _ | .vfrcp ty _ _ _ | .vfexp2 ty _ _ _ => isFloatTy ty = true
  | .viadd ty _ _ _ _ | .visub ty _ _ _ _ | .vimul ty _ _ _ _ | .vimin ty _ _ _ _ | .vimax ty _ _ _ _ | .vand ty _ _ _ _ | .vor ty _ _ _ _
  | .vxor ty _ _ _ _ | .vsll ty _ _ _ _ | .vsrl ty _ _ _ _ | .vsra ty _ _ _ _ => isFloatTy ty = false
  | .vcvt d a _ _ _ => d ≠ a
  | .vgath32 d _ _ _ _ | .vgath64 d _ _ _ _ | .vscat32 d _ _ _ | .vscat64 d _ _ _ => d ≠ 31
  | .mma md _ _ _ _ => s.dev.curCore.mxq.length < 16 ∧ mmaLegal md s.dev = true
  | .mzero _ | .mld _ _ _ | .mst _ _ _ | .mstg _ _ _ | .laddTile _ _ | .lldTile _ _ _ | .lstTile _ _ _ | .lclr _ =>
    s.dev.curCore.mxq.length < 16
  | .macc ty md a => s.dev.curCore.mxq.length < 16 ∧ (ty = .f64 → md.toNat % 2 = 0 ∧ uv (s.dev.x a) % 2 = 0)
  | .mscl ty md _ => s.dev.curCore.mxq.length < 16 ∧ ty ≠ .i32 ∧ (ty = .f64 → md.toNat % 2 = 0)
  | .laddOuter _ a b => s.dev.curCore.mxq.length < 16 ∧ a.toNat % 2 = 0 ∧ b.toNat % 2 = 0
  | .lldLocal _ o _ | .lstLocal _ o _ => s.dev.curCore.mxq.length < 16 ∧ o ≠ 0
  | _ => True

end Sys2Proof.Claims

/-- R251 "S", R255 step 4: the supervisor's instructions raise PRIV in user mode, whatever their operands. R249: an instruction word of any
kind in the window of a pending destination that it reads or writes raises LAHEAD, with SADDR 0 and no effect, once nothing that R255 puts
before that check has stopped it. -/
def Obligations.PrivilegeAndLookaheadTraps : Prop :=
  (
    ∀ s (sn : SegNo) (ra rb rd : RegNo), s.dev.cur.2 < 16 → s.dev.th.mode = false →
      Traps .sret s .priv (wordOf s) ∧ Traps (.wfi ra) s .priv (wordOf s) ∧ Traps (.segw sn ra rb) s .priv (wordOf s)
        ∧ Traps (.tlbinv ra rb) s .priv (wordOf s) ∧ Traps (.fltrd rd ra) s .priv (wordOf s)
        ∧ Traps (.fltreplay ra) s .priv (wordOf s) ∧ Traps (.cinval sn ra rb) s .priv (wordOf s)
  ) ∧
  (
    ∀ (i : Instr) s (w : Window) (r : Dest), s.dev.cur.2 < 16 → w ∈ s.dev.th.windows → 0 < w.left → r ∈ w.dests → r ∈ namesOf s i →
      ReachesLahead s i → Traps i s .lahead 0
  )

/-- R254, R250, R375, R291: a trap of a thread enters at once when no result of it is pending, and otherwise at the boundary at which none
is left; no other slot and no other state changes. `trap` raises SYSCALL in either mode; `sret` sets MODE to 0 and continues at SEPC under
R246 once every pending result has arrived; `upret` continues at UEPC and sets UACT to 0. R246: bits [1:0] of a return target are taken as
0, and slot 0 of a line continues at slot 1. -/
def Obligations.TrapEntryAndReturns : Prop :=
  (
    (∀ (d : Dev) r k (t : TrapInfo), k < 16 →
      ((d.slot r k).pend = [] → ∃ e, EntersTrap (d.slot r k) e (d.core r).tvec t ∧ d.trap r k t = d.setSlot r k e)
      ∧ ((d.slot r k).pend ≠ [] → d.trap r k t = d.setSlot r k { d.slot r k with wait := .trapDue t })
      ∧ ((d.slot r k).wait = .trapDue t → (d.slot r k).pend = [] → d.deferredDue r k = none →
          ∃ e, EntersTrap (d.slot r k) e (d.core r).tvec t ∧ d.boundary r k = some (d.setSlot r k e)))
    ∧ ∀ s, (Ready {} s → Traps .trap s .syscall 0)
      ∧ (Ready { rcr := [0x21] } s → s.dev.th.mode = true → s.dev.th.pend = [] → Gives .sret s fun t => ThreadOnly s t ∧ t.dev.th.mode = false
          ∧ GoesOn t (returnTarget s.dev.th.sepc) none 
          ∧ { flowOf s.dev.th t.dev.th with mode := s.dev.th.mode, badC := s.dev.th.badC, copyHold := s.dev.th.copyHold } = s.dev.th)
      ∧ (Ready { rcr := [0x13] } s → Gives .upret s fun t => ThreadOnly s t ∧ t.dev.th.uact = false
          ∧ GoesOn t (returnTarget s.dev.th.uepc) none 
          ∧ { flowOf s.dev.th t.dev.th with uact := s.dev.th.uact, badC := s.dev.th.badC } = s.dev.th)
  ) ∧
  (
    ∀ (line : BitVec 57) (k : BitVec 5) (low : BitVec 2),
      returnTarget (line ++ k ++ low) = (if k = 0 then line ++ (1 : BitVec 5) ++ (0 : BitVec 2) else line ++ k ++ (0 : BitVec 2))
  )

/-! ### Loads, stores, fences, stash entries (R129-R132, R267-R273) -/

namespace Sys2Proof.Claims

/-- The access of a scalar load, and of a store, in the thread's mode. -/
def loadAccess (s : State) : Access := { read := true, user := !s.dev.th.mode, twinOk := true, remoteOk := true }
def storeAccess (s : State) : Access := { write := true, user := !s.dev.th.mode, remoteOk := true }

/-- The operand of `n` bytes at offset `off` of segment `sg` passes every check and names `o`: local bytes, or pieces of global pages. -/
def LoadsFrom (s : State) (sg : SegNo) (off : Word) (n align : Nat) (o : Operand) : Prop :=
  s.dev.operand sg off n { r := true } (loadAccess s) align = .ok o ∧ s.dev.th.acqPid = []
def StoresTo (s : State) (sg : SegNo) (off : Word) (n align : Nat) (o : Operand) : Prop :=
  s.dev.operand sg off n { w := true } (storeAccess s) align = .ok o ∧ s.dev.th.acqPid = [] ∧ s.dev.th.relMark = none

/-- The offset of a scalar access: X[ra] + sext(off9) × z, mod 2^64. -/
def scalarOff (s : State) (ra : RegNo) (off : BitVec 9) (z : Nat) : Word := word (sv (s.dev.x ra) + off.toInt * z)

/-- Only core `r`'s copies, buffers and requests differ, beside the thread: memory bytes, local memory bytes, every other slot and core,
and the units of the package other than the home queue are as before. -/
structure RequestOnly (s t : State) : Prop where
  boot : t.boot = s.boot
  host : t.host = s.host
  device : { t.dev with cores := s.dev.cores, homeQ := s.dev.homeQ, accSeq := s.dev.accSeq } = s.dev
  cores : ∀ r, { t.dev.core r with slots := (s.dev.core r).slots } = s.dev.core r
  slots : ∀ r k, ¬(r = s.dev.cur.1 ∧ k = s.dev.cur.2) → t.dev.slot r k = s.dev.slot r k
  memory : ∀ a, t.dev.mem.get a = s.dev.mem.get a
  localBytes : ∀ r a, (t.dev.core r).lmem.get a = (s.dev.core r).lmem.get a

/-- The instruction waits under `w` and has no other effect; for a page that no TLB holds a walk is asked for in its quad (R163). -/
def WaitsUnder (i : Instr) (s : State) (w : Wait) : Prop :=
  Gives i s fun t => t.dev.th.wait = w ∧ { t.dev.th with wait := s.dev.th.wait, opMark := s.dev.th.opMark, fresh := s.dev.th.fresh } = s.dev.th
    ∧ t.boot = s.boot ∧ t.host = s.host ∧ { t.dev with cores := s.dev.cores, quads := s.dev.quads } = s.dev
    ∧ (∀ r, { t.dev.core r with slots := (s.dev.core r).slots } = s.dev.core r)
    ∧ (∀ r k, ¬(r = s.dev.cur.1 ∧ k = s.dev.cur.2) → t.dev.slot r k = s.dev.slot r k)
    ∧ ∀ g x y, w = .walk g x y → (s.dev.quad (s.dev.cur.1 / 4)).coal.length < 32 → (s.dev.th.part, g / 65536) ∈ (t.dev.quad (s.dev.cur.1 / 4)).coal

/-- What stops an access of `n` bytes at offset `off` of segment `sg` (R153, R160, R255): past the segment SEGV, then SEGPERM for a right that
the segment lacks, and after the walk for this access the cause that its page gives. Any other check of the operand traps or waits alike, and
nothing else happens. -/
def OperandStops (i : Instr) (s : State) (sg : SegNo) (off : Word) (n : Nat) (need : SegNeed) (acc : Access) : Prop :=
  let seg := s.dev.th.seg sg
  let gva := segBase seg + uv off
  let outside := segLimit seg < uv off + n ∨ (segL seg = false ∧ 2 ^ 48 < gva + n)
  let lacks := (need.r = true ∧ segR seg = false) ∨ (need.w = true ∧ segW seg = false)
  (outside → Traps i s .segv off) ∧ (¬outside → lacks → Traps i s .segperm off)
    ∧ (∀ e c, ¬outside → ¬lacks → segL seg = false → s.dev.tlbFind s.dev.cur.1 s.dev.th.part (gva / 65536) = some e →
      s.dev.th.fresh = some (gva / 65536, acc.write, acc.exec_) →
      pageCheck s.dev.tpart.cfg (e.member acc) e.large e.twin acc gva = some c → Traps i s c (BitVec.ofNat 64 gva))
    ∧ (∀ t, s.dev.operand sg off n need acc 1 = .error (.trap t) → Traps i s t.cause t.saddr)
    ∧ ∀ w, s.dev.operand sg off n need acc 1 = .error (.park w) → WaitsUnder i s w

/-- One result more is outstanding, which has arrived with the error `e` (R250). -/
def AddsFailed (s t : State) (post : Post) (raw : List Byte) (e : TrapInfo) : Prop :=
  t.dev.th.pend = s.dev.th.pend ++ [⟨s.dev.th.nextPid, post, raw, 0, some e⟩]
    ∧ { flowOf s.dev.th t.dev.th with pend := s.dev.th.pend, nextPid := s.dev.th.nextPid } = s.dev.th

/-- An access of the thread to another module leaves (R42): `n` bytes at `pa`, for result `pid` if it is a load. Beside the thread nothing changes
but the accesses that wait for other modules. -/
structure GoesFar (s t : State) (pid : Option Nat) (pa n : Nat) : Prop where
  boot : t.boot = s.boot
  host : t.host = s.host
  device : { t.dev with cores := s.dev.cores, remote := s.dev.remote, accSeq := s.dev.accSeq } = s.dev
  cores : ∀ r, { t.dev.core r with slots := (s.dev.core r).slots } = s.dev.core r
  slots : ∀ r k, ¬(r = s.dev.cur.1 ∧ k = s.dev.cur.2) → t.dev.slot r k = s.dev.slot r k
  access : ∃ u, t.dev.remote = aset s.dev.remote s.dev.accSeq u ∧ u.pid = pid ∧ u.mask = (pa, n) ∧ u.rank = s.dev.cur.1 ∧ u.slot = s.dev.cur.2
    ∧ u.part = s.dev.th.part ∧ u.seq = s.dev.accSeq ∧ u.gate = none

/-- A load of `z` bytes for `post`. A local operand gives its bytes at once (R197), or where they are poisoned a result that arrives with DATAERR
(R121, R250). A naturally aligned global one gives its value at once where the thread's leased line or the core holds it (R205, R188), and
otherwise sends one request to the home of its line; through a REMOTE mapping it goes to the module that the PA names (R41, R42), and for this
module itself to the home of the exported PA. In every case the result is outstanding under the window of `la`. -/
def LoadResult (i : RegNo → RegNo → SegNo → La → BitVec 9 → Instr) (z : Nat) (post : RegNo → Post) : Prop :=
  ∀ rt ra sg la off s, Ready { rx := [ra], wx := [rt], rs := [sg] } s →
    OperandStops (i rt ra sg la off) s sg (scalarOff s ra off z) z { r := true } (loadAccess s)
    ∧ (∀ a, LoadsFrom s sg (scalarOff s ra off z) z 1 (.loc a) → Gives (i rt ra sg la off) s fun t =>
      InSequence s t ∧ match s.dev.curCore.localBad a z with
        | none => ThreadOnly s t ∧ AddsPending s t (post rt) (s.dev.curCore.lmem.bytes a z) 0 la
        | some _ => AddsFailed s t (post rt) (s.dev.curCore.lmem.bytes a z)
            ⟨.dataerr, BitVec.ofNat 64 (segBase (s.dev.th.seg sg) + uv (scalarOff s ra off z))⟩)
    ∧ (∀ tr l, LoadsFrom s sg (scalarOff s ra off z) z 1 (.glob [(tr, 0, z)]) → tr.remote = false →
        (segBase (s.dev.th.seg sg) + (scalarOff s ra off z).toNat) % z = 0 → s.dev.th.lease = some l → l.line = tr.pa / 128 →
        Gives (i rt ra sg la off) s fun t => InSequence s t ∧ ThreadOnly s t
          ∧ AddsPending s t (post rt) (leBytes z (lineNat (lineMerge l.snap l.buf l.mask) (tr.pa % 128) z)) 0 la)
    ∧ (∀ tr, LoadsFrom s sg (scalarOff s ra off z) z 1 (.glob [(tr, 0, z)]) → tr.remote = true →
        (segBase (s.dev.th.seg sg) + (scalarOff s ra off z).toNat) % z = 0 →
        (remoteModule tr.pa ≠ s.dev.modnum → Gives (i rt ra sg la off) s fun t => InSequence s t
          ∧ AddsPending s t (post rt) (List.replicate z 0) 1 la ∧ GoesFar s t (some s.dev.th.nextPid) tr.pa z)
        ∧ (∀ pa, remoteModule tr.pa = s.dev.modnum → s.dev.exportOf s.dev.modnum s.dev.th.part tr.pa z false = some pa →
          Gives (i rt ra sg la off) s fun t => InSequence s t ∧ RequestOnly s t ∧ AddsPending s t (post rt) (List.replicate z 0) 1 la
            ∧ ∃ q, t.dev.homeQ = s.dev.homeQ ++ [q] ∧ q.kind = .load s.dev.th.nextPid (pa % 128) z 0 false ∧ q.line = pa / 128
              ∧ q.home = homeSlice 0 pa ∧ q.remote = true)
        ∧ (remoteModule tr.pa = s.dev.modnum → s.dev.exportOf s.dev.modnum s.dev.th.part tr.pa z false = none →
          Gives (i rt ra sg la off) s fun t => InSequence s t
            ∧ AddsFailed s t (post rt) (List.replicate z 0) ⟨.dataerr, BitVec.ofNat 64 tr.gva⟩))
    ∧ (∀ tr, LoadsFrom s sg (scalarOff s ra off z) z 1 (.glob [(tr, 0, z)]) → tr.remote = false →
        (segBase (s.dev.th.seg sg) + (scalarOff s ra off z).toNat) % z = 0 →
        Gives (i rt ra sg la off) s fun t => InSequence s t ∧
          match s.dev.immediate s.dev.cur.1 s.dev.cur.2 (tr.pa / 128) (tr.pa % 128) z with
          | some x => ThreadOnly s t ∧ AddsPending s t (post rt) (leBytes z x) 0 la
          | none => RequestOnly s t ∧ AddsPending s t (post rt) (List.replicate z 0) 1 la
              ∧ ∃ q, t.dev.homeQ = s.dev.homeQ ++ [q] ∧ q.kind = .load s.dev.th.nextPid (tr.pa % 128) z 0 false
                ∧ q.line = tr.pa / 128 ∧ q.rank = s.dev.cur.1 ∧ q.slot = s.dev.cur.2 ∧ q.seq = s.dev.accSeq ∧ q.tag = none)

/-- A store of the low `z` bytes of X[rt]. Into a local operand they are written at once, lowest first, and every other byte is as before;
an entry of the stash that they touch becomes DIRTY (R131). Into a line that the thread has leased they stay in the buffer of its record (R279);
into any other global operand they enter the write buffer of the core, and memory is as before. Through a REMOTE mapping the store goes to the
module that the PA names (R41, R42), and for this module itself to the home of the exported PA. -/
def StoreResult (i : RegNo → RegNo → SegNo → BitVec 9 → Instr) (z : Nat) : Prop :=
  ∀ rt ra sg off s, Ready { rx := [ra, rt], rs := [sg] } s →
    OperandStops (i rt ra sg off) s sg (scalarOff s ra off z) z { w := true } (storeAccess s)
    ∧ (∀ a, StoresTo s sg (scalarOff s ra off z) z 1 (.loc a) → (s.dev.core s.dev.cur.1).lmem.wf = true →
      Gives (i rt ra sg off) s fun t => InSequence s t ∧ flowOf s.dev.th t.dev.th = s.dev.th
        ∧ t.dev.mem = s.dev.mem ∧ t.boot = s.boot ∧ t.host = s.host ∧ { t.dev with cores := s.dev.cores } = s.dev
        ∧ (∀ k < z, t.dev.curCore.lmem.get (a + k) = BitVec.ofNat 8 (uv (s.dev.x rt) / 256 ^ k))
        ∧ (∀ b, (b < a ∨ a + z ≤ b) → t.dev.curCore.lmem.get b = s.dev.curCore.lmem.get b)
        ∧ (∀ j, aget? t.dev.curCore.stash j = (aget? s.dev.curCore.stash j).map fun e =>
          if a < 0x80000 ∧ a / 128 ≤ j ∧ 128 * j < a + z then { e with st := .dirty } else e)
        ∧ (∀ r, r ≠ s.dev.cur.1 → t.dev.core r = s.dev.core r)
        ∧ { t.dev.curCore with slots := s.dev.curCore.slots, lmem := s.dev.curCore.lmem, stash := s.dev.curCore.stash } = s.dev.curCore
        ∧ ∀ k, k ≠ s.dev.cur.2 → t.dev.slot s.dev.cur.1 k = s.dev.slot s.dev.cur.1 k)
    ∧ (∀ tr l, StoresTo s sg (scalarOff s ra off z) z 1 (.glob [(tr, 0, z)]) → tr.remote = false → s.dev.th.lease = some l →
        l.line = tr.pa / 128 → tr.pa % 128 + z ≤ 128 → s.dev.curCore.wb.length ≤ 32 →
        Gives (i rt ra sg off) s fun t => InSequence s t ∧ { flowOf s.dev.th t.dev.th with lease := s.dev.th.lease } = s.dev.th
          ∧ t.dev.th.lease = some { l with
              buf := lineSet l.buf (tr.pa % 128) z (uv (s.dev.x rt) % 256 ^ z), mask := l.mask ||| byteMask (tr.pa % 128) z }
          ∧ t.boot = s.boot ∧ t.host = s.host ∧ { t.dev with cores := s.dev.cores, accSeq := s.dev.accSeq } = s.dev
          ∧ (∀ r, { t.dev.core r with slots := (s.dev.core r).slots } = s.dev.core r)
          ∧ ∀ r k, ¬(r = s.dev.cur.1 ∧ k = s.dev.cur.2) → t.dev.slot r k = s.dev.slot r k)
    ∧ (∀ tr, StoresTo s sg (scalarOff s ra off z) z 1 (.glob [(tr, 0, z)]) → tr.remote = true → tr.pa % 128 + z ≤ 128 →
        (remoteModule tr.pa ≠ s.dev.modnum → s.dev.curCore.wb.length ≤ 32 → Gives (i rt ra sg off) s fun t => InSequence s t
          ∧ flowOf s.dev.th t.dev.th = s.dev.th ∧ GoesFar s t none tr.pa z)
        ∧ (∀ pa, remoteModule tr.pa = s.dev.modnum → s.dev.exportOf s.dev.modnum s.dev.th.part tr.pa z true = some pa →
          s.dev.curCore.wb.length < 32 → Gives (i rt ra sg off) s fun t => InSequence s t ∧ flowOf s.dev.th t.dev.th = s.dev.th
            ∧ t.dev.mem = s.dev.mem ∧ ∃ e, t.dev.curCore.wb = (s.dev.wbAdd s.dev.cur.1 e).curCore.wb ∧ e.line = pa / 128
              ∧ e.mask = byteMask (pa % 128) z ∧ e.data = lineSet 0 (pa % 128) z (uv (s.dev.x rt) % 256 ^ z) ∧ e.home = homeSlice 0 pa)
        ∧ (remoteModule tr.pa = s.dev.modnum → s.dev.exportOf s.dev.modnum s.dev.th.part tr.pa z true = none → s.dev.curCore.wb.length ≤ 32 →
          Gives (i rt ra sg off) s fun t => InSequence s t
            ∧ t.dev.th.deferred = s.dev.th.deferred ++ [(s.dev.th.nextPid, ⟨.dataerr, BitVec.ofNat 64 tr.gva⟩)]
            ∧ { flowOf s.dev.th t.dev.th with deferred := s.dev.th.deferred, nextPid := s.dev.th.nextPid } = s.dev.th))
    ∧ (∀ tr, StoresTo s sg (scalarOff s ra off z) z 1 (.glob [(tr, 0, z)]) → tr.remote = false →
        s.dev.th.lease.any (·.line == tr.pa / 128) = false → tr.pa % 128 + z ≤ 128 → s.dev.curCore.wb.length < 32 →
        Gives (i rt ra sg off) s fun t => InSequence s t ∧ flowOf s.dev.th t.dev.th = s.dev.th
          ∧ t.dev.mem = s.dev.mem ∧ t.boot = s.boot ∧ t.host = s.host
          ∧ { t.dev with cores := s.dev.cores, accSeq := s.dev.accSeq } = s.dev
          ∧ (∀ r, r ≠ s.dev.cur.1 → t.dev.core r = s.dev.core r)
          ∧ { t.dev.curCore with slots := s.dev.curCore.slots, wb := s.dev.curCore.wb } = s.dev.curCore
          ∧ (∀ k, k ≠ s.dev.cur.2 → t.dev.slot s.dev.cur.1 k = s.dev.slot s.dev.cur.1 k)
          ∧ ∃ e, t.dev.curCore.wb = (s.dev.wbAdd s.dev.cur.1 e).curCore.wb ∧ e.line = tr.pa / 128 ∧ e.mask = byteMask (tr.pa % 128) z
              ∧ e.data = lineSet 0 (tr.pa % 128) z (uv (s.dev.x rt) % 256 ^ z) ∧ e.srel = none ∧ e.sent = false ∧ e.slots = [s.dev.cur.2])

end Sys2Proof.Claims

/-- R267, R197, R188: the scalar loads. R267, R131, R123: the scalar stores. -/
def Obligations.ScalarLoadsAndStores : Prop :=
  (
    LoadResult .lb 1 (fun rt => .sext rt 1) ∧ LoadResult .lbu 1 (fun rt => .zext rt 1) ∧ LoadResult .lh 2 (fun rt => .sext rt 2)
      ∧ LoadResult .lhu 2 (fun rt => .zext rt 2) ∧ LoadResult .lw 4 (fun rt => .sext rt 4) ∧ LoadResult .lwu 4 (fun rt => .zext rt 4)
      ∧ LoadResult .ld 8 (fun rt => .zext rt 8)
  ) ∧
  (
    StoreResult .sb 1 ∧ StoreResult .sh 2 ∧ StoreResult .sw 4 ∧ StoreResult .sd 8
  )

/-! ### Segments, local offsets, ordered accesses, fences, stash entries, results -/

namespace Sys2Proof.Claims

/-- The instruction parks with the wait `w` and has no other effect (R255). -/
def Parks (i : Instr) (s : State) (w : Wait) : Prop :=
  Gives i s fun t => ThreadOnly s t ∧ t.dev.th.wait = w
    ∧ { t.dev.th with wait := s.dev.th.wait, opMark := s.dev.th.opMark, fresh := s.dev.th.fresh } = s.dev.th

/-- The plain copies of the core's L1 after an acquire: dropped for a scope of `.qd` or wider (R194). -/
def Acquired (s t : State) (sc : MemScope) : Prop :=
  t.dev.curCore.l1d = (if sc = .cr then s.dev.curCore.l1d else []) ∧ (∀ r, r ≠ s.dev.cur.1 → t.dev.core r = s.dev.core r)
    ∧ { t.dev with cores := s.dev.cores } = s.dev ∧ t.boot = s.boot ∧ t.host = s.host
    ∧ { t.dev.curCore with slots := s.dev.curCore.slots, l1d := s.dev.curCore.l1d } = s.dev.curCore
    ∧ ∀ k, k ≠ s.dev.cur.2 → t.dev.slot s.dev.cur.1 k = s.dev.slot s.dev.cur.1 k

/-- Bytes of an access whose width is selected by oc.W. -/
def widthOf (w : Bool) : Nat := if w then 8 else 4

end Sys2Proof.Claims

/-- R377: `segw` writes both words of a segment register in supervisor mode, or raises ILLEGAL for a reserved bit; `segr` reads one word.
R153: `seg_check` raises SEGV for an access past LIMIT, or past 2^48 with L = 0; then SEGPERM for a missing right; otherwise it gives BASE +
off. -/
def Obligations.Segments : Prop :=
  (
    (∀ sn ra rb s, Ready { rx := [ra, rb] } s → s.dev.th.mode = true →
        (segReservedOk (s.dev.x rb ++ s.dev.x ra) = true → Gives (.segw sn ra rb) s fun t =>
          ThreadOnly s t ∧ InSequence s t ∧ (∀ r, t.dev.th.seg r = if r = sn then s.dev.x rb ++ s.dev.x ra else s.dev.th.seg r)
            ∧ { flowOf s.dev.th t.dev.th with s := s.dev.th.s, badS := s.dev.th.badS } = s.dev.th)
        ∧ (segReservedOk (s.dev.x rb ++ s.dev.x ra) = false → Traps (.segw sn ra rb) s .illegal (wordOf s)))
      ∧ ∀ rd sn (k : BitVec 1) s, Ready { wx := [rd], rs := [sn] } s → Gives (.segr rd sn k) s fun t =>
          WritesX s t rd ((s.dev.th.seg sn).extractLsb' (64 * k.toNat) 64) ∧ InSequence s t
  ) ∧
  (
    ∀ (s : SegImage) (off : Word) (size : Nat) (need : SegNeed),
      let outside := segLimit s < uv off + size ∨ (segL s = false ∧ 2 ^ 48 < segBase s + uv off + size)
      let lacks := (need.r = true ∧ segR s = false) ∨ (need.w = true ∧ segW s = false) ∨ (need.x = true ∧ segX s = false)
        ∨ (need.v = true ∧ segV s = false) ∨ (need.p = true ∧ segP s = false) ∨ (need.l0 = true ∧ segL s = true)
      (outside → segCheck s off size need = .error (.trap ⟨.segv, off⟩))
        ∧ (¬outside → lacks → segCheck s off size need = .error (.trap ⟨.segperm, off⟩))
        ∧ (¬outside → ¬lacks → segCheck s off size need = .ok (segBase s + uv off))
  )

/-- R129, R130: through an L-right segment a thread at home reaches the scratch and stash of its task, and tile memory at its own offsets; an
access that is not wholly below S + T, or wholly in tile memory, raises SEGV. R146: a guest reaches 8,192 bytes of guest scratch, behind the
task's scratch and stash, and beyond them SEGV is raised. -/
def Obligations.LocalOffsets : Prop :=
  (∀ (s : State) (lo n : Nat), 0x80000 ≤ lo → lo + n ≤ 0xC0000 → s.dev.localAt lo n = .ok lo) ∧
  (
    ∀ (s : State) (lo n : Nat) (t : Task), s.dev.th.guest = false → s.dev.task s.dev.cur.1 s.dev.cur.2 = some t → ¬(0x80000 ≤ lo ∧ lo + n ≤ 0xC0000) →
      (lo + n ≤ t.desc.scratch * 32768 + t.desc.stash * 32768 → s.dev.localAt lo n = .ok (t.base * 32768 + lo))
        ∧ (t.desc.scratch * 32768 + t.desc.stash * 32768 < lo + n → s.dev.localAt lo n = .error (.trap ⟨.segv, BitVec.ofNat 64 lo⟩))
  ) ∧
  (
    ∀ (s : State) (lo n : Nat) (t : Task) (i : Nat), s.dev.th.guest = true → s.dev.curCore.hostTask s.dev.cur.2 = some (t, i) →
      ¬(0x80000 ≤ lo ∧ lo + n ≤ 0xC0000) →
      (lo + n ≤ 8192 → s.dev.localAt lo n
          = .ok (t.base * 32768 + t.desc.scratch * 32768 + t.desc.stash * 32768 + 8192 * i + lo))
        ∧ (8192 < lo + n → s.dev.localAt lo n = .error (.trap ⟨.segv, BitVec.ofNat 64 lo⟩))
  )

/-- R270, R194: `lacq` reads an aligned word, sign-extended, and acquires; `srel` releases and then stores; into a line that the thread has leased
the store stays in the record with the mark of its release, behind which `unlease` writes it. R196: `fence.acq` waits for the
thread's earlier loads and then acquires; `fence.rel` lets the thread go on, with its later stores and messages behind the release, and
comes after an earlier `fence.rel`; `fence.ar` waits for the earlier stores too. Both acquiring fences wait for an acquiring read. -/
def Obligations.OrderedAccessesAndFences : Prop :=
  (
    (∀ rd ra w sc sg la s, Ready { rx := [ra], wx := [rd], rs := [sg] } s →
        (∀ a, LoadsFrom s sg (s.dev.x ra) (widthOf w) (widthOf w) (.loc a) → s.dev.curCore.localBad a (widthOf w) = none → Gives (.lacq rd ra w sc sg la) s fun t =>
          InSequence s t ∧ AddsPending s t (.sext rd (widthOf w)) (s.dev.curCore.lmem.bytes a (widthOf w)) 0 la ∧ Acquired s t sc)
        ∧ (∀ tr, LoadsFrom s sg (s.dev.x ra) (widthOf w) (widthOf w) (.glob [(tr, 0, widthOf w)]) → tr.remote = false →
            (segBase (s.dev.th.seg sg) + uv (s.dev.x ra)) % widthOf w = 0 →
            s.dev.immediate s.dev.cur.1 s.dev.cur.2 (tr.pa / 128) (tr.pa % 128) (widthOf w) = none →
            Gives (.lacq rd ra w sc sg la) s fun t => InSequence s t ∧ RequestOnly s t ∧ t.dev.th.acqPid = [s.dev.th.nextPid]
              ∧ t.dev.th.pend = s.dev.th.pend ++ [⟨s.dev.th.nextPid, .sext rd (widthOf w), List.replicate (widthOf w) 0, 1, none⟩]
              ∧ ∃ q, t.dev.homeQ = s.dev.homeQ ++ [q] ∧ q.kind = .load s.dev.th.nextPid (tr.pa % 128) (widthOf w) 0 true
                ∧ q.line = tr.pa / 128 ∧ q.scope = sc)
        ∧ (∀ tr x, LoadsFrom s sg (s.dev.x ra) (widthOf w) (widthOf w) (.glob [(tr, 0, widthOf w)]) → tr.remote = false →
            (segBase (s.dev.th.seg sg) + uv (s.dev.x ra)) % widthOf w = 0 →
            s.dev.immediate s.dev.cur.1 s.dev.cur.2 (tr.pa / 128) (tr.pa % 128) (widthOf w) = some x →
            Gives (.lacq rd ra w sc sg la) s fun t =>
              InSequence s t ∧ AddsPending s t (.sext rd (widthOf w)) (leBytes (widthOf w) x) 0 la ∧ Acquired s t sc))
      ∧ ∀ rd ra w sc sg s, Ready { rx := [ra, rd], rs := [sg] } s →
        (∀ a, StoresTo s sg (s.dev.x ra) (widthOf w) (widthOf w) (.loc a) → s.dev.curCore.lmem.wf = true →
          (s.dev.gateOpen (s.dev.gateWaiting sc) = false → Parks (.srel rd ra w sc sg) s (.release (s.dev.gateWaiting sc)))
          ∧ (s.dev.gateOpen (s.dev.gateWaiting sc) = true → Gives (.srel rd ra w sc sg) s fun t => InSequence s t
            ∧ t.dev.mem = s.dev.mem ∧ flowOf s.dev.th t.dev.th = s.dev.th
            ∧ (∀ k < widthOf w, t.dev.curCore.lmem.get (a + k) = BitVec.ofNat 8 (uv (s.dev.x rd) / 256 ^ k))
            ∧ (∀ b, (b < a ∨ a + widthOf w ≤ b) → t.dev.curCore.lmem.get b = s.dev.curCore.lmem.get b)))
        ∧ (∀ tr l, StoresTo s sg (s.dev.x ra) (widthOf w) (widthOf w) (.glob [(tr, 0, widthOf w)]) → tr.remote = false →
            s.dev.th.lease = some l → l.line = tr.pa / 128 → tr.pa % 128 + widthOf w ≤ 128 → s.dev.curCore.wb.length ≤ 32 →
            Gives (.srel rd ra w sc sg) s fun t => InSequence s t ∧ t.dev.mem = s.dev.mem ∧ t.dev.curCore.wb = s.dev.curCore.wb
              ∧ { flowOf s.dev.th t.dev.th with lease := s.dev.th.lease } = s.dev.th
              ∧ ∃ b m, t.dev.th.lease = some { l with buf := b, mask := m, rels := l.rels ++ [(s.dev.accSeq, sc)] })
        ∧ (∀ tr, StoresTo s sg (s.dev.x ra) (widthOf w) (widthOf w) (.glob [(tr, 0, widthOf w)]) → tr.remote = false →
            s.dev.th.lease.any (·.line == tr.pa / 128) = false → tr.pa % 128 + widthOf w ≤ 128 → s.dev.curCore.wb.length < 32 → Gives (.srel rd ra w sc sg) s fun t => InSequence s t
              ∧ t.dev.mem = s.dev.mem ∧ flowOf s.dev.th t.dev.th = s.dev.th
              ∧ ∃ e, t.dev.curCore.wb = (s.dev.wbAdd s.dev.cur.1 e).curCore.wb ∧ e.line = tr.pa / 128 ∧ e.mask = byteMask (tr.pa % 128) (widthOf w)
                ∧ e.data = lineSet 0 (tr.pa % 128) (widthOf w) (uv (s.dev.x rd) % 256 ^ widthOf w) ∧ e.srel = some (s.dev.cur.2, sc))
  ) ∧
  (
    ∀ sc s, Ready {} s →
      (s.dev.th.acqPid = [] → s.dev.loadsPerformed = true → Gives (.fenceAcq sc) s fun t => InSequence s t ∧ Acquired s t sc
          ∧ flowOf s.dev.th t.dev.th = s.dev.th)
      ∧ (s.dev.th.acqPid = [] → s.dev.loadsPerformed = false → Parks (.fenceAcq sc) s (.fence none))
      ∧ (s.dev.th.acqPid ≠ [] → Parks (.fenceAcq sc) s .acquire ∧ Parks (.fenceAr sc) s .acquire)
      ∧ (∀ m sc', s.dev.th.relMark = some (m, sc') → let g := s.dev.gateAt s.dev.cur.1 s.dev.cur.2 m sc' none
          (s.dev.gateOpen g = false → Parks (.fenceRel sc) s (.release g))
          ∧ (s.dev.gateOpen g = true → Gives (.fenceRel sc) s fun t => InSequence s t ∧ ThreadOnly s t
            ∧ t.dev.th.relMark = some (s.dev.accSeq, sc) ∧ { flowOf s.dev.th t.dev.th with relMark := s.dev.th.relMark } = s.dev.th))
      ∧ (s.dev.th.relMark = none → Gives (.fenceRel sc) s fun t => InSequence s t ∧ ThreadOnly s t
          ∧ t.dev.th.relMark = some (s.dev.accSeq, sc) ∧ { flowOf s.dev.th t.dev.th with relMark := s.dev.th.relMark } = s.dev.th)
      ∧ (s.dev.th.acqPid = [] → s.dev.loadsPerformed = true → s.dev.gateOpen (s.dev.gateWaiting sc) = true →
          Gives (.fenceAr sc) s fun t => InSequence s t ∧ Acquired s t sc ∧ flowOf s.dev.th t.dev.th = s.dev.th)
      ∧ (s.dev.th.acqPid = [] → s.dev.loadsPerformed = false ∨ s.dev.gateOpen (s.dev.gateWaiting sc) = false →
          Parks (.fenceAr sc) s (.fence (some (s.dev.gateWaiting sc))))
  )

namespace Sys2Proof.Claims

/-- A stash instruction names entry `i` of the core (by its local line), and the thread's stores may go on. -/
def NamesEntry (s : State) (rd : RegNo) (i : Nat) : Prop := s.dev.stashEntry (s.dev.x rd) = .ok i ∧ s.dev.th.relMark = none

/-- The write buffer holds one entry more, the write-back of stash entry `e`, whose bytes are local line `i` (R273). -/
def WrittenBack (s t : State) (i : Nat) (e : StashEntry) : Prop :=
  ∃ w : WbEntry, t.dev.curCore.wb = s.dev.curCore.wb ++ [w] ∧ w.line = e.line ∧ w.data = s.dev.curCore.lmem.line i
    ∧ w.mask = BitVec.allOnes 128 ∧ w.wback = true

end Sys2Proof.Claims

/-! ### Atomics, reductions, leases, versioned words (R174-R175, R202-R205, R274-R283) -/

namespace Sys2Proof.Claims

/-- One request of the thread to the home of a line leaves: the queue of the homes holds `q` more, tagged with the core's next tag when
`tagged` holds (R274). Beside the thread nothing else changes. -/
structure Sends (s t : State) (tagged : Bool) (q : HomeReq) : Prop where
  boot : t.boot = s.boot
  host : t.host = s.host
  device : { t.dev with cores := s.dev.cores, homeQ := s.dev.homeQ, accSeq := s.dev.accSeq } = s.dev
  queue : t.dev.homeQ = s.dev.homeQ ++ [q]
  cores : ∀ r, r ≠ s.dev.cur.1 → t.dev.core r = s.dev.core r
  slots : ∀ k, k ≠ s.dev.cur.2 → t.dev.slot s.dev.cur.1 k = s.dev.slot s.dev.cur.1 k
  core : { t.dev.curCore with slots := s.dev.curCore.slots, tagSeq := s.dev.curCore.tagSeq, out := s.dev.curCore.out } = s.dev.curCore
  tag : q.tag = (if tagged then some s.dev.curCore.tagSeq.toNat else none)
  tags : t.dev.curCore.tagSeq = s.dev.curCore.tagSeq + (if tagged then 1 else 0)
  outstanding : t.dev.curCore.out = if tagged then aset s.dev.curCore.out s.dev.curCore.tagSeq.toNat ⟨some q, none, none, none, 1, false⟩ else s.dev.curCore.out
  source : q.rank = s.dev.cur.1 ∧ q.slot = s.dev.cur.2 ∧ q.part = s.dev.th.part ∧ q.seq = s.dev.accSeq

/-- A global operand of `n` bytes, aligned to `align`, that passes every check and lies at `tr`, in a line that no lease record of the thread
names; the thread has no ordered access before it, and a tag is free. -/
structure OnLine (s : State) (sg : SegNo) (off : Word) (n align : Nat) (need : SegNeed) (acc : Access) (tr : Trans) : Prop where
  seg : segCheck (s.dev.th.seg sg) off n need = .ok (segBase (s.dev.th.seg sg) + uv off)
  aligned : (segBase (s.dev.th.seg sg) + uv off) % align = 0
  page : s.dev.translate acc (segBase (s.dev.th.seg sg) + uv off) = .ok tr
  here : tr.remote = false
  noLease : s.dev.th.lease.any (·.line == tr.pa / 128) = false
  noAcquire : s.dev.th.acqPid = []
  noRelease : s.dev.th.relMark = none
  tags : s.dev.curCore.tagFree = true

/-- An AMO sends one tagged request with its operands and leaves the old value outstanding for X[rd], sign-extended (R276). -/
def AmoIssues (i : RegNo → RegNo → Bool → MemOrd → MemScope → SegNo → La → Instr) (op : AmoOp) : Prop :=
  ∀ rd ra w ord sc sg la tr s, (op = .cas → rd.toNat % 2 = 0) →
    Ready { rx := if op = .cas then [ra, rd, rd + 1] else [ra, rd], wx := [rd], rs := [sg] } s →
    OnLine s sg (s.dev.x ra) (widthOf w) (widthOf w) { r := true, w := true, l0 := true }
      { read := true, write := true, user := !s.dev.th.mode, remoteOk := true } tr →
    Gives (i rd ra w ord sc sg la) s fun t => InSequence s t
      ∧ t.dev.th.pend = s.dev.th.pend ++ [⟨s.dev.th.nextPid, .sext rd (widthOf w), List.replicate (widthOf w) 0, 1, none⟩]
      ∧ t.dev.th.windows = tickWindows s.dev.th.pend s.dev.th.windows
          ++ (if rd = 0 then [] else [⟨s.dev.th.nextPid, [.x rd], la.toNat⟩])
      ∧ t.dev.th.acqPid = (if ord = .acq ∨ ord = .ar then [s.dev.th.nextPid] else [])
      ∧ { flowOf s.dev.th t.dev.th with
          pend := s.dev.th.pend, nextPid := s.dev.th.nextPid, acqPid := s.dev.th.acqPid } = s.dev.th
      ∧ ∃ q, Sends s t true q ∧ q.line = tr.pa / 128 ∧ q.scope = sc ∧ q.srel = decide (ord = .rel ∨ ord = .ar)
          ∧ q.kind = .amo s.dev.th.nextPid (tr.pa % 128) w op (s.dev.x rd) (s.dev.x (rd + 1))
              (if ord = .acq ∨ ord = .ar then some sc else none)

/-- The word of the line at byte `off` becomes `new old`, and every other byte of memory is as before. -/
def WordAtHome (s t : State) (pa z : Nat) (new : Option Nat) : Prop :=
  t.dev.mem.nat pa z = (new.getD (s.dev.mem.nat pa z)) ∧ ∀ a, (a < pa ∨ pa + z ≤ a) → t.dev.mem.get a = s.dev.mem.get a

/-- The new value of an AMO on words of `z` bytes, from the old value, b and c (R276); none when nothing is written. -/
def amoNew (op : AmoOp) (z : Nat) (old b c : Nat) : Option Nat :=
  match op with
  | .swap => some b
  | .add => some ((old + b) % 256 ^ z)
  | .and => some (old &&& b)
  | .or => some (old ||| b)
  | .xor => some (old ^^^ b)
  | .min => some (if (BitVec.ofNat (8 * z) old).slt (BitVec.ofNat (8 * z) b) then old else b)
  | .max => some (if (BitVec.ofNat (8 * z) old).slt (BitVec.ofNat (8 * z) b) then b else old)
  | .minu => some (min old b)
  | .maxu => some (max old b)
  | .cas => if old = b then some c else none

/-- Request `q` is the one that the home of its line serves next (R175); no tag of the core is recorded at the homes, no ordered invocation
is buffered and none other waits for the line, and no copy of the line is away: no registration, no update-only copy, and nothing in the write buffer of the requesting core, which runs the partition of the
request. -/
structure NextAtHome (s : State) (q : HomeReq) : Prop where
  next : s.dev.nextReq q.line = some q
  fresh : s.dev.tagWin = []
  noBuffered : s.dev.obuf = []
  noDarns : ∀ o ∈ s.dev.homeQ, o.line = q.line → o ≠ q → o.kind.isSatom = false
  unregistered : aget? s.dev.regs q.line = none
  noCopies : s.dev.hasUoc q.line = false
  noStores : (s.dev.core q.rank).wb = []
  here : aget? (s.dev.part q.part).ctx q.prank = none ∧ (s.dev.part q.part).devRank q.prank = q.rank
  slot : q.slot < 16
  sound : s.dev.poisoned q.line = false
  memory : s.dev.mem.wf = true

/-- The request has left the queue. -/
def Leaves (t : State) (q : HomeReq) : Prop := q ∉ t.dev.homeQ

/-- What the home tells the requesting slot: `raw` for the bytes of result `pid` from `dst` on, with one part less to come. -/
def Answers (s t : State) (q : HomeReq) (pid dst : Nat) (raw : List Byte) : Prop :=
  ∀ p ∈ (s.dev.slot q.rank q.slot).pend, p.id = pid →
    { p with raw := p.raw.take dst ++ raw ++ p.raw.drop (dst + raw.length), need := p.need - 1 } ∈ (t.dev.slot q.rank q.slot).pend

end Sys2Proof.Claims

namespace Sys2Proof.Claims

/-- The bytes of memory, of every local memory and the other slots and cores are as before, and beside the cores nothing changes but the
access stamp and the counter of free values (a full L1 set loses a free line, log entry 8). -/
structure CoreOnly (s t : State) : Prop where
  boot : t.boot = s.boot
  host : t.host = s.host
  device : { t.dev with cores := s.dev.cores, accSeq := s.dev.accSeq, freeCtr := s.dev.freeCtr } = s.dev
  cores : ∀ r, r ≠ s.dev.cur.1 → t.dev.core r = s.dev.core r
  slots : ∀ k, k ≠ s.dev.cur.2 → t.dev.slot s.dev.cur.1 k = s.dev.slot s.dev.cur.1 k
  localBytes : ∀ r, (t.dev.core r).lmem = (s.dev.core r).lmem

/-- A RED on word `off` of a line applies `op` to the core's update-only copy of the line, made of `identity` words when there is none
(R277, R203). It changes no byte of memory, and the core's plain copy of the line is gone. Where the line is held or lost, earlier accesses of the
thread to the bytes are on their way, or the core has no room for the copy, the update waits at the home, and the thread goes on all the same
(R292, R39). -/
def RedResult (i : Bool → RegNo → RegNo → SegNo → Instr) (fn : Nat) (op : Nat → Nat → Nat → Nat) (identity : Nat → Nat) : Prop :=
  ∀ w ra rb sg tr s, Ready { rx := [ra, rb], rs := [sg] } s → (fn = 6 → s.dev.tpart.cfg.det = false) →
    OnLine s sg (s.dev.x ra) (widthOf w) (widthOf w) { w := true, l0 := true } { write := true, user := !s.dev.th.mode } tr →
    let waits := s.dev.lineBusy s.dev.cur.1 s.dev.cur.2 (tr.pa / 128) (byteMask (tr.pa % 128) (widthOf w)) || s.dev.lineHeld (tr.pa / 128)
      || s.dev.lostLine (tr.pa / 128) || !(match s.dev.curCore.uoc.find? (·.line == tr.pa / 128) with
        | some u => (u.fn == fn && u.w64 == w) || s.dev.curCore.tagFree
        | none => s.dev.curCore.l1Fits (tr.pa / 128))
    (waits = true → Gives (i w ra rb sg) s fun t => InSequence s t ∧ flowOf s.dev.th t.dev.th = s.dev.th
        ∧ ∃ q, Sends s t false q ∧ q.line = tr.pa / 128 ∧ q.kind = .red fn w (tr.pa % 128) (s.dev.x rb))
    ∧ (waits = false → tr.pa % widthOf w = 0 → aget? s.dev.regs (tr.pa / 128) = none →
    (s.dev.curCore.uoc = [] → Gives (i w ra rb sg) s fun t => InSequence s t ∧ CoreOnly s t ∧ flowOf s.dev.th t.dev.th = s.dev.th
        ∧ aget? t.dev.curCore.l1d (tr.pa / 128) = none
        ∧ ∃ u, t.dev.curCore.uoc = [u] ∧ u.line = tr.pa / 128 ∧ u.fn = fn ∧ u.w64 = w
          ∧ lineNat u.data (tr.pa % 128) (widthOf w)
              = op (widthOf w) (identity (widthOf w)) (uv (s.dev.x rb) % 256 ^ widthOf w) % 256 ^ widthOf w
          ∧ ∀ j < 128 / widthOf w, widthOf w * j ≠ tr.pa % 128 →
              lineNat u.data (widthOf w * j) (widthOf w) = identity (widthOf w))
    ∧ (∀ u, s.dev.curCore.uoc = [u] → u.line = tr.pa / 128 → u.fn = fn → u.w64 = w →
        Gives (i w ra rb sg) s fun t => InSequence s t ∧ CoreOnly s t ∧ flowOf s.dev.th t.dev.th = s.dev.th
        ∧ ∃ v, t.dev.curCore.uoc = [{ u with data := v }]
          ∧ lineNat v (tr.pa % 128) (widthOf w) = op (widthOf w) (lineNat u.data (tr.pa % 128) (widthOf w))
              (uv (s.dev.x rb) % 256 ^ widthOf w) % 256 ^ widthOf w
          ∧ ∀ j < 128 / widthOf w, widthOf w * j ≠ tr.pa % 128 →
              lineNat v (widthOf w * j) (widthOf w) = lineNat u.data (widthOf w * j) (widthOf w)))

/-- The thread waits for its home with nothing else of its slot changed; one request has left. -/
def AsksHome (i : Instr) (s : State) (tagged : Bool) (tr : Trans) (scope : MemScope) (srel : Bool) (kind : ReqKind) : Prop :=
  Gives i s fun t => t.dev.th.wait = .home
    ∧ { t.dev.th with wait := s.dev.th.wait, opMark := s.dev.th.opMark, fresh := s.dev.th.fresh } = s.dev.th
    ∧ ∃ q, Sends s t tagged q ∧ q.line = tr.pa / 128 ∧ q.scope = scope ∧ q.srel = srel ∧ q.kind = kind

/-- The checks of a versioned instruction that reads or writes (R282). -/
def VersOn (s : State) (sg : SegNo) (ra : RegNo) (write : Bool) (tr : Trans) : Prop :=
  OnLine s sg (s.dev.x ra) 8 8 { r := !write, w := write, v := true, l0 := true }
    { read := !write, write := write, user := !s.dev.th.mode, versioned := true } tr

end Sys2Proof.Claims

/-- R276, R274, R194: the ten atomic operations issue; an odd rd of `amocas` raises ILLEGAL. R277: the reductions. -/
def Obligations.AtomicsIssue : Prop :=
  (
    AmoIssues .amoswap .swap ∧ AmoIssues .amoadd .add ∧ AmoIssues .amoand .and ∧ AmoIssues .amoor .or ∧ AmoIssues .amoxor .xor
      ∧ AmoIssues .amomin .min ∧ AmoIssues .amomax .max ∧ AmoIssues .amominu .minu ∧ AmoIssues .amomaxu .maxu ∧ AmoIssues .amocas .cas
      ∧ ∀ rd ra w ord sc sg la s, s.dev.cur.2 < 16 → rd.toNat % 2 = 1 → Traps (.amocas rd ra w ord sc sg la) s .illegal (wordOf s)
  ) ∧
  (
    RedResult .redadd 0 (fun _ u d => u + d) (fun _ => 0)
      ∧ RedResult .redand 1 (fun _ u d => u &&& d) (fun z => 256 ^ z - 1)
      ∧ RedResult .redor 2 (fun _ u d => u ||| d) (fun _ => 0)
      ∧ RedResult .redxor 3 (fun _ u d => u ^^^ d) (fun _ => 0)
      ∧ RedResult .redmin 4 (fun z u d => if (BitVec.ofNat (8 * z) u).slt (BitVec.ofNat (8 * z) d) then u else d)
          (fun z => 2 ^ (8 * z - 1) - 1)
      ∧ RedResult .redmax 5 (fun z u d => if (BitVec.ofNat (8 * z) u).slt (BitVec.ofNat (8 * z) d) then d else u)
          (fun z => 2 ^ (8 * z - 1))
      ∧ RedResult .redfadd 6 (fun z u d => ((if z = 4 then fp32 else fp64).add .rne u d).1) (fun z => 2 ^ (8 * z - 1))
      ∧ ∀ w ra rb sg s, Ready { rx := [ra, rb], rs := [sg] } s → s.dev.tpart.cfg.det = true → Traps (.redfadd w ra rb sg) s .detviol 0
  )

/-! ### The steps of the homes (R131-R133, R175, R181, R205, R279-R283) -/

namespace Sys2Proof.Claims

/-- The requesting slot goes on after its instruction, with `f` done to it. -/
def GoesAfter (s t : State) (q : HomeReq) (f : Slot → Slot) : Prop :=
  let a := s.dev.slot q.rank q.slot
  let b := t.dev.slot q.rank q.slot
  b = { f a with pc := link a.pc, windows := tickWindows a.pend a.windows, wait := .none, opMark := none, turns := [], fresh := none }

/-- Memory as the homes read it is all there is: no stash entry is registered, no core holds an update-only copy, no line is held by a lease or
by a request that waits, and no line is poisoned or lost. -/
structure AtHomes (d : Dev) : Prop where
  regs : d.regs = []
  copies : ∀ c ∈ d.cores, c.2.uoc = []
  queue : d.homeQ = []
  leases : d.leases = []
  sound : d.poison = [] ∧ d.lostRegs = []
  memory : d.mem.wf = true

/-- Nothing of memory, of local memory or of another slot changes. -/
def SameBytes (s t : State) (r k : Nat) : Prop :=
  t.dev.mem = s.dev.mem ∧ (∀ c, (t.dev.core c).lmem = (s.dev.core c).lmem) ∧ t.boot = s.boot ∧ t.host = s.host
    ∧ ∀ c j, ¬(c = r ∧ j = k) → t.dev.slot c j = s.dev.slot c j

end Sys2Proof.Claims

/-- R279, R280, R76: `lease` asks the home of the line for min(max(uv(X[rb]), 1), LEASEMAX) cycles, a field of 0 standing for 4,096, and waits;
with a record it raises LEASE, whatever its operand.
`unlease` of no record, or of one that names another line, gives 0; otherwise its buffered stores leave for the home, once the releases of the
`srel` stores among them are complete. R279: the home grants
a waiting lease: the record holds the line as it is, X[rd] the length, and the home the lease. At expiry the lease ends at the home, and the
holder's record is ended. R279, R205: `unlease` at the home writes the masked bytes of the buffer in one step and gives 1 while the lease is
held; afterwards it gives 0 and writes nothing. -/
def Obligations.Leases : Prop :=
  (
    (∀ rd ra rb sg tr s, Ready { rx := [ra, rb], wx := [rd], rs := [sg] } s →
        (OnLine s sg (s.dev.x ra) 1 1 { r := true, w := true, l0 := true } { write := true, user := !s.dev.th.mode, lease := true } tr →
          s.dev.th.lease = none →
          AsksHome (.lease rd ra rb sg) s false tr .cr false 
            (.lease rd (min (max (uv (s.dev.x rb)) 1) (if s.dev.tpart.cfg.leasemax = 0 then 4096 else s.dev.tpart.cfg.leasemax))))
        ∧ (s.dev.th.lease ≠ none → Traps (.lease rd ra rb sg) s .lease (BitVec.ofNat 64 (segBase (s.dev.th.seg sg)) + s.dev.x ra)))
      ∧ ∀ rd ra sg tr gva s, Ready { rx := [ra], wx := [rd], rs := [sg] } s →
        segCheck (s.dev.th.seg sg) (s.dev.x ra) 1 { r := true, w := true, l0 := true } = .ok gva →
        s.dev.translate { read := true, write := true, user := !s.dev.th.mode } gva = .ok tr →
        ((∀ l, s.dev.th.lease = some l → l.line ≠ tr.pa / 128) →
            Gives (.unlease rd ra sg) s fun t => WritesX s t rd 0 ∧ InSequence s t)
        ∧ ∀ l, s.dev.th.lease = some l → l.line = tr.pa / 128 → s.dev.th.acqPid = [] → s.dev.th.relMark = none →
            (∀ m rest, l.rels = m :: rest → s.dev.gateOpen (s.dev.gateAt s.dev.cur.1 s.dev.cur.2 m.1 m.2 none) = false →
              Parks (.unlease rd ra sg) s (.release (s.dev.gateAt s.dev.cur.1 s.dev.cur.2 m.1 m.2 none)))
            ∧ ((∀ m ∈ l.rels, s.dev.gateOpen (s.dev.gateAt s.dev.cur.1 s.dev.cur.2 m.1 m.2 none) = true) →
            s.dev.curCore.tagFree = true → AsksHome (.unlease rd ra sg) s true tr .cr false (.unlease rd l.buf l.mask))
  ) ∧
  (
    (∀ (s : State) (q : HomeReq) rd len, q.kind = .lease rd len → q.line = s.args.a → NextAtHome s q →
        Gives .leaseGrant s fun t => Leaves t q ∧ SameBytes s t q.rank q.slot
          ∧ t.dev.leases = s.dev.leases ++ [⟨q.line, q.part, q.pg, q.rank, q.slot, len⟩]
          ∧ GoesAfter s t q fun a => { a.setX rd (BitVec.ofNat 64 len) with lease := some ⟨q.line, true, s.dev.mem.line q.line, 0, 0, []⟩ })
      ∧ ∀ (s : State) (h : LeaseHold) l, s.dev.leases = [h] → h.line = s.args.a → h.slot < 16 →
        (s.dev.slot h.rank h.slot).lease = some l → l.line = h.line →
        Gives .leaseExpiry s fun t => t.dev.leases = [] ∧ SameBytes s t h.rank h.slot
          ∧ t.dev.slot h.rank h.slot = { s.dev.slot h.rank h.slot with lease := some { l with held := false } }
  ) ∧
  (
    ∀ (s : State) (q : HomeReq) rd buf mask, q.kind = .unlease rd buf mask → q.line = s.args.a → NextAtHome s q →
      (∀ h, h ∈ s.dev.leases → h.line = q.line → h.rank = q.rank → h.slot = q.slot →
        Gives .homeQueueServe s fun t => Leaves t q ∧ (∀ l ∈ t.dev.leases, l.line ≠ q.line)
          ∧ (∀ k < 128, t.dev.mem.get (128 * q.line + k)
              = if mask.getLsbD k then lineByte buf k else s.dev.mem.get (128 * q.line + k))
          ∧ (∀ a, (a < 128 * q.line ∨ 128 * q.line + 128 ≤ a) → t.dev.mem.get a = s.dev.mem.get a)
          ∧ GoesAfter s t q fun a => { a.setX rd 1 with lease := none })
      ∧ ((∀ h ∈ s.dev.leases, ¬(h.line = q.line ∧ h.rank = q.rank ∧ h.slot = q.slot)) →
        Gives .homeQueueServe s fun t => Leaves t q ∧ SameBytes s t q.rank q.slot ∧ t.dev.leases = s.dev.leases
          ∧ GoesAfter s t q fun a => { a.setX rd 0 with lease := none })
  )

/-- R282, R283: `sver` and `rver` send a tagged request, `sver` behind a release of scope `.pkg`; `lver` waits at the home; `pver` leaves
its pair outstanding; an odd rd of `lver` and `pver` raises ILLEGAL. R281-R283: a version is created at the home; a live version reads its
value, a retired one (0, 2), and for `pver` a future one (0, 1); `rver` retires versions, and the last one leaves N in the memory bytes of
the word. -/
def Obligations.Versions : Prop :=
  (
    (∀ ra rb sg tr s, Ready { rx := [ra, rb], rs := [sg] } s → VersOn s sg ra true tr →
        AsksHome (.sverNext ra rb sg) s true tr .pkg true (.sverNext (tr.pa % 128) (s.dev.x rb))
          ∧ AsksHome (.rver ra rb sg) s true tr .cr false (.rver (tr.pa % 128) ((s.dev.x rb).setWidth 32)))
      ∧ (∀ rd ra rb sg tr s, Ready { rx := [ra, rb, rd], rs := [sg] } s → VersOn s sg ra true tr →
        AsksHome (.sverNumbered rd ra rb sg) s true tr .pkg true
          (.sverNum (tr.pa % 128) ((s.dev.x rd).setWidth 32) (s.dev.x rb)))
      ∧ (∀ rd ra rb sg la tr s, rd.toNat % 2 = 0 → Ready { rx := [ra, rb], wx := [rd, rd + 1], rs := [sg] } s → VersOn s sg ra false tr →
        AsksHome (.lver rd ra rb sg la) s false tr .pkg false (.lver rd (tr.pa % 128) ((s.dev.x rb).setWidth 32) la)
          ∧ Gives (.pver rd ra rb sg la) s fun t => InSequence s t
            ∧ t.dev.th.pend = s.dev.th.pend ++ [⟨s.dev.th.nextPid, .pair rd, List.replicate 16 0, 1, none⟩]
            ∧ t.dev.th.acqPid = [s.dev.th.nextPid]
            ∧ { flowOf s.dev.th t.dev.th with
                pend := s.dev.th.pend, nextPid := s.dev.th.nextPid, acqPid := s.dev.th.acqPid } = s.dev.th
            ∧ ∃ q, Sends s t false q ∧ q.line = tr.pa / 128
              ∧ q.kind = .pver s.dev.th.nextPid (tr.pa % 128) ((s.dev.x rb).setWidth 32))
      ∧ ∀ rd ra rb sg la s, s.dev.cur.2 < 16 → rd.toNat % 2 = 1 →
        Traps (.lver rd ra rb sg la) s .illegal (wordOf s) ∧ Traps (.pver rd ra rb sg la) s .illegal (wordOf s)
  ) ∧
  (
    ∀ (s : State) (q : HomeReq) off, q.line = s.args.a → NextAtHome s q → off + 8 ≤ 128 →
      let pa := 128 * q.line + off
      let v := s.dev.vword pa q.home
      let Unchanged (t : State) : Prop := aget? t.dev.vwords pa = (aget? s.dev.vwords pa).map (fun _ => v)
        ∧ ∀ a, a ≠ pa → aget? t.dev.vwords a = aget? s.dev.vwords a
      (∀ x, q.kind = .sverNext off x → Gives .homeQueueServe s fun t => Leaves t q ∧ SameBytes s t q.rank q.slot
          ∧ aget? t.dev.vwords pa = some { v with n := v.n + 1, entries := v.entries ++ [(v.n + 1, x)] } ∧ GoesAfter s t q id)
      ∧ (∀ k x, q.kind = .sverNum off k x → Gives .homeQueueServe s fun t => Leaves t q ∧ SameBytes s t q.rank q.slot
          ∧ (newer k v.n = true → aget? t.dev.vwords pa = some { v with n := k, entries := v.entries ++ [(k, x)] })
          ∧ (newer k v.n = false → Unchanged t) ∧ GoesAfter s t q id)
      ∧ (∀ rd k la, q.kind = .lver rd off k la → Gives .homeQueueServe s fun t => Leaves t q ∧ SameBytes s t q.rank q.slot
          ∧ ∃ a b, (t.dev.slot q.rank q.slot).pend
              = (s.dev.slot q.rank q.slot).pend ++ [⟨(s.dev.slot q.rank q.slot).nextPid, .pair rd, leBytes 8 a ++ leBytes 8 b, 0, none⟩]
            ∧ (newer k v.t = true → ∀ x, v.entries.find? (fun e => e.1 == k) = some (k, x) → a = uv x ∧ b = 0)
            ∧ (newer k v.t = false → a = 0 ∧ b = 2))
      ∧ (∀ pid k, q.kind = .pver pid off k → Gives .homeQueueServe s fun t => Leaves t q ∧ SameBytes s t q.rank q.slot
          ∧ ∃ a b, Answers s t q pid 0 (leBytes 8 a ++ leBytes 8 b)
            ∧ (newer k v.n = true → a = 0 ∧ b = 1)
            ∧ (newer k v.n = false → newer k v.t = true → ∀ x, v.entries.find? (fun e => e.1 == k) = some (k, x) → a = uv x ∧ b = 0)
            ∧ (newer k v.n = false → newer k v.t = false → a = 0 ∧ b = 2))
      ∧ ∀ k, q.kind = .rver off k → Gives .homeQueueServe s fun t => Leaves t q ∧ GoesAfter s t q id
          ∧ let k' := if newer k v.n then v.n else k
            let left := v.entries.filter fun e => newer e.1 k'
            (newer k' v.t = false → Unchanged t ∧ t.dev.mem = s.dev.mem)
            ∧ (newer k' v.t = true → left ≠ [] → aget? t.dev.vwords pa = some { v with t := k', entries := left } ∧ t.dev.mem = s.dev.mem)
            ∧ (newer k' v.t = true → left = [] → aget? t.dev.vwords pa = none ∧ WordAtHome s t pa 8 (some v.n.toNat))
  )

/-- R131, R272, R273: `sunmap` writes a DIRTY entry back, deregisters a CLEAN one unless its write-back still waits in the write buffer, and
makes the entry PLAIN with its bytes kept; `sflush` writes a DIRTY entry back and makes it CLEAN; `smap` maps a PLAIN entry to a global line,
whose bytes do not arrive yet, and through an L-right segment it acts as `sunmap`. R131-R133: an
access to a registered line is answered by the stash entry, and its home keeps no part in it; a recall writes a DIRTY entry back,
deregisters the line and leaves the entry MAPPED. -/
def Obligations.StashEntries : Prop :=
  (
    (∀ rd i s, Ready { rx := [rd] } s → NamesEntry s rd i → s.dev.curCore.wb.length < 32 →
        (Gives (.sunmap rd) s fun t => InSequence s t ∧ aget? t.dev.curCore.stash i = none ∧ t.dev.curCore.lmem = s.dev.curCore.lmem
          ∧ t.dev.mem = s.dev.mem ∧ (∀ j, j ≠ i → aget? t.dev.curCore.stash j = aget? s.dev.curCore.stash j)
          ∧ flowOf s.dev.th t.dev.th = s.dev.th
          ∧ ∀ e, aget? s.dev.curCore.stash i = some e →
            (e.st = .dirty → WrittenBack s t i e) ∧ (e.st = .clean → t.dev.curCore.wb = s.dev.curCore.wb
                ∧ ((∀ w ∈ s.dev.curCore.wb, w.wback = true → w.line ≠ e.line) → aget? t.dev.regs e.line = none)
                ∧ ∀ w ∈ s.dev.curCore.wb, w.wback = true → w.line = e.line → t.dev.regs = s.dev.regs))
        ∧ (Gives (.sflush rd) s fun t => InSequence s t ∧ t.dev.curCore.lmem = s.dev.curCore.lmem ∧ t.dev.mem = s.dev.mem
          ∧ flowOf s.dev.th t.dev.th = s.dev.th
          ∧ (∀ j, j ≠ i → aget? t.dev.curCore.stash j = aget? s.dev.curCore.stash j)
          ∧ ∀ e, aget? s.dev.curCore.stash i = some e →
            (e.st = .dirty → WrittenBack s t i e ∧ aget? t.dev.curCore.stash i = some { e with st := .clean })
            ∧ (e.st ≠ .dirty → aget? t.dev.curCore.stash i = some e ∧ t.dev.curCore.wb = s.dev.curCore.wb)))
      ∧ (∀ rd ra sg s, Ready { rx := [rd, ra], rs := [sg] } s → segL (s.dev.th.seg sg) = true → exec (.smap rd ra sg) s = exec (.sunmap rd) s)
      ∧ ∀ rd ra sg i gva tr s, Ready { rx := [rd, ra], rs := [sg] } s → NamesEntry s rd i → s.dev.curCore.stash = [] → s.dev.curCore.wb.length ≤ 32 →
        segL (s.dev.th.seg sg) = false → segCheck (s.dev.th.seg sg) (s.dev.x ra) 128 { r := true } = .ok gva → gva % 128 = 0 →
        s.dev.translate { read := true, user := !s.dev.th.mode, twinOk := true } gva = .ok tr →
        s.dev.th.lease.any (·.line == tr.pa / 128) = false →
        Gives (.smap rd ra sg) s fun t => InSequence s t ∧ t.dev.mem = s.dev.mem ∧ t.dev.curCore.lmem = s.dev.curCore.lmem
          ∧ t.dev.curCore.stash = [(i, ⟨.mapped, gva, tr.pa / 128, !leafWr tr.leaf || tr.twin, s.dev.th.part, tr.large, leafClass tr.leaf, homeSlice tr.leaf tr.pa⟩)]
          ∧ flowOf s.dev.th t.dev.th = s.dev.th
  ) ∧
  (
    (∀ (s : State) (q : HomeReq) pid off n dst r e, q.kind = .load pid off n dst false → q.line = s.args.a → s.dev.nextReq q.line = some q →
        s.dev.tagWin = [] → s.dev.obuf = [] → (∀ o ∈ s.dev.homeQ, o.line = q.line → o ≠ q → o.kind.isSatom = false) →
        aget? s.dev.regs q.line = some (r, e) → s.dev.hasUoc q.line = false → (s.dev.core r).wb = [] →
        (s.dev.core q.rank).wb = [] → aget? (s.dev.part q.part).ctx q.prank = none → (s.dev.part q.part).devRank q.prank = q.rank →
        q.slot < 16 → s.dev.poisoned q.line = false → off + n ≤ 128 →
        Gives .forwardedAccess s fun t => Leaves t q ∧ t.dev.mem = s.dev.mem ∧ t.dev.regs = s.dev.regs
          ∧ (t.dev.core q.rank).l1d = (s.dev.core q.rank).l1d
          ∧ Answers s t q pid dst (leBytes n (lineNat ((s.dev.core r).lmem.line e) off n)))
      ∧ ∀ (s : State) (q : HomeReq) r i e, q ∈ s.dev.homeQ → q.line = s.args.a → (∃ rd len, q.kind = .lease rd len) →
        aget? s.dev.regs q.line = some (r, i) → (s.dev.core r).wb = [] → aget? (s.dev.core r).stash i = some e → e.line = q.line →
        e.st ≠ .mapped → s.dev.mem.wf = true →
        Gives .stashRecall s fun t => aget? t.dev.regs q.line = none ∧ aget? (t.dev.core r).stash i = some { e with st := .mapped }
          ∧ (t.dev.core r).lmem = (s.dev.core r).lmem ∧ t.dev.homeQ = s.dev.homeQ
          ∧ (e.st = .clean → t.dev.mem = s.dev.mem)
          ∧ (e.st = .dirty → t.dev.mem.line q.line = (s.dev.core r).lmem.line i
              ∧ ∀ a, (a < 128 * q.line ∨ 128 * q.line + 128 ≤ a) → t.dev.mem.get a = s.dev.mem.get a)
  )

/-! ### Barriers, mailboxes, waits (R142-R143, R194, R199, R284-R289, R376) -/

namespace Sys2Proof.Claims

/-- A release of scope `sc` is complete at once (R194). -/
def Released (s : State) (sc : MemScope) : Prop :=
  s.dev.th.acqPid = [] ∧ s.dev.th.relMark = none ∧ s.dev.gateOpen (s.dev.gateWaiting sc) = true

/-- X[rd] of the thread takes `v`; nothing else of its slot changes but the flow of the program. -/
def TakesX (s t : State) (rd : RegNo) (v : Word) : Prop :=
  (∀ r, t.dev.x r = if r = 0 then 0 else if r = rd then v else s.dev.x r)
    ∧ { flowOf s.dev.th t.dev.th with x := s.dev.th.x, badX := s.dev.th.badX } = s.dev.th

/-- The thread waits with its instruction under `w`, and nothing else of its slot changes. -/
def Waits (s t : State) (w : Wait) : Prop :=
  t.dev.th.wait = w ∧ { t.dev.th with wait := s.dev.th.wait, opMark := s.dev.th.opMark, fresh := s.dev.th.fresh } = s.dev.th

/-- Of the barriers only `key` changes, to `b`; every other thing but the thread and the plain copies of its core is as before. -/
def BarrierBecomes (s t : State) (key : BarKey) (b : Barrier) : Prop :=
  t.dev.barrier key = b ∧ (∀ k, k ≠ key → t.dev.barrier k = s.dev.barrier k) ∧ t.boot = s.boot ∧ t.host = s.host
    ∧ { t.dev with cores := s.dev.cores, bars := s.dev.bars } = s.dev ∧ (∀ r, r ≠ s.dev.cur.1 → t.dev.core r = s.dev.core r)
    ∧ { t.dev.curCore with slots := s.dev.curCore.slots, l1d := s.dev.curCore.l1d } = s.dev.curCore
    ∧ ∀ k, k ≠ s.dev.cur.2 → t.dev.slot s.dev.cur.1 k = s.dev.slot s.dev.cur.1 k

/-- A barrier of `scope` (R284). The first arrival of a phase fixes the count, X[ra] mod 2^16 and at least 1. An arrival that is not the last
counts and waits; the last one completes the phase, so that the barrier is ready for the next, and goes on with an acquire. One that would open
a 65th barrier in its instance parks before it is counted. -/
def BarResult (i : RegNo → RegNo → Instr) (scope : Nat) (sc : MemScope) (inst : State → Nat) : Prop :=
  ∀ ra rb s, Ready { rx := [ra, rb] } s → (∀ key p, s.dev.th.wait ≠ .bar key p) → Released s sc →
    let key : BarKey := ⟨s.dev.th.part, uv (s.dev.x rb) % 65536, scope, inst s⟩
    let b := s.dev.barrier key
    let n := if b.arrived = 0 then max (uv (s.dev.x ra) % 65536) 1 else b.count
    (b.arrived = 0 → 64 ≤ s.dev.openBars key → Parks (i ra rb) s (.barOpen key))
    ∧ ((b.arrived ≠ 0 ∨ s.dev.openBars key < 64) →
      (b.arrived + 1 < n → Gives (i ra rb) s fun t => Waits s t (.bar key b.phase)
        ∧ BarrierBecomes s t key { b with count := n, arrived := b.arrived + 1 })
      ∧ (n ≤ b.arrived + 1 → Gives (i ra rb) s fun t => InSequence s t ∧ flowOf s.dev.th t.dev.th = s.dev.th
        ∧ BarrierBecomes s t key { b with phase := b.phase + 1, count := 0, arrived := 0 }
        ∧ t.dev.curCore.l1d = if sc = .cr then s.dev.curCore.l1d else []))

/-- Partition rank `rank` stands on a live core of a partition that is not STOPPED, and its core is not saved. -/
def OnCore (d : Dev) (part rank : Nat) : Prop :=
  (d.part part).st ≠ .stopped ∧ aget? (d.part part).ctx rank = none ∧ (d.core ((d.part part).cfg.hbase + rank)).lost = false

end Sys2Proof.Claims

/-- R284, R199: the barriers of the five scopes, and an arrival from another module of the pod. -/
def Obligations.BarrierResults : Prop :=
  BarResult .barCr 0 .cr (fun s => s.dev.cur.1 - s.dev.tpart.cfg.hbase) ∧ BarResult .barQd 1 .pkg (fun s => s.dev.cur.1 / 4)
    ∧ BarResult .barDie 2 .pkg (fun s => s.dev.cur.1 / 1024) ∧ BarResult .barPkg 3 .pkg (fun _ => 0)
    ∧ BarResult .barPod 4 .pod (fun _ => 0)
    ∧ ∀ s : State, Gives .podBarrierArrival s fun t =>
        let key : BarKey := ⟨s.args.a, s.args.b % 65536, 4, 0⟩
        let b := s.dev.barrier key
        let n := if b.arrived = 0 then max (s.args.c % 65536) 1 else b.count
        t.dev.barrier key = (if b.arrived = 0 ∧ 64 ≤ s.dev.openBars key then b
          else if n ≤ b.arrived + 1 then { b with phase := b.phase + 1, count := 0, arrived := 0 }
          else { b with count := n, arrived := b.arrived + 1 })
        ∧ (∀ k, k ≠ key → t.dev.barrier k = s.dev.barrier k) ∧ { t.dev with bars := s.dev.bars } = s.dev ∧ t.boot = s.boot ∧ t.host = s.host

/-- R285, R143, R142: the mailbox instructions; an arriving increment adds to the counter mod 2^32 and ends a wait that it meets. R289,
R376: `yield` keeps the slot from issuing for the next 16 cycles of its core; `wfi` parks until a limit of X[ra] cycles, 0 for none, and at
the limit the thread goes on after it. -/
def Obligations.MailboxesAndWaits : Prop :=
  (
    (∀ rd ra rb s, Ready { rx := [ra, rb], wx := [rd] } s →
        let x := s.dev.x ra
        let rank := uv x % 4096
        (uv x / 2 ^ 18 ≠ 0 ∨ s.dev.tpart.cfg.hlen ≤ rank →
          Gives (.mbxadd rd ra rb) s fun t => WritesX s t rd (word (2 ^ 63 + 0x0002)) ∧ InSequence s t)
        ∧ (uv x / 2 ^ 18 = 0 → rank < s.dev.tpart.cfg.hlen → s.dev.curCore.tagFree = false → Parks (.mbxadd rd ra rb) s .tags)
        ∧ (uv x / 2 ^ 18 = 0 → rank < s.dev.tpart.cfg.hlen → s.dev.curCore.tagFree = true → Gives (.mbxadd rd ra rb) s fun t => InSequence s t ∧ TakesX s t rd 0
          ∧ t.dev.mem = s.dev.mem
          ∧ t.dev.net = aset s.dev.net s.dev.netSeq ⟨.incr s.dev.th.part rank (uv x / 4096 % 64) ((s.dev.x rb).setWidth 32)
              (s.dev.cur.1, s.dev.curCore.tagSeq.toNat), s.dev.relGate ++ [s.dev.gateNow .pkg],
              some (s.dev.th.part, s.dev.cur.1 - s.dev.tpart.cfg.hbase, s.dev.cur.2)⟩
          ∧ { t.dev with cores := s.dev.cores, net := s.dev.net, netSeq := s.dev.netSeq } = s.dev))
      ∧ (∀ ra rb s, Ready { rx := [ra, rb] } s →
        let i := uv (s.dev.x ra) % 64
        let target : HWord := (s.dev.x rb).setWidth 32
        let met := (vget s.dev.curCore.counters i 0 - target).toNat < 2 ^ 31
        (met → Gives (.mbxwait ra rb) s fun t => InSequence s t ∧ Acquired s t .pkg ∧ flowOf s.dev.th t.dev.th = s.dev.th)
        ∧ (¬met → Parks (.mbxwait ra rb) s (.mbx i target)))
      ∧ (∀ rd ra s, Ready { rx := [ra], wx := [rd] } s → Gives (.mbxrd rd ra) s fun t => InSequence s t
          ∧ WritesX s t rd ((vget s.dev.curCore.counters (uv (s.dev.x ra) % 64) 0).setWidth 64))
  ) ∧
  (
    ∀ (s : State) part rank idx inc src seq th, aget? s.dev.net s.args.a = some ⟨.incr part rank idx inc (src, seq), [], th⟩ → idx < 64 →
      s.dev.tagged (.incr part rank idx inc (src, seq)) = true →
      OnCore s.dev part rank → s.dev.tagSeen (tagCore part rank) src seq = none → Gives .mailboxIncrement s fun t =>
        let r := (s.dev.part part).cfg.hbase + rank
        let old (i : Nat) : HWord := vget (s.dev.core r).counters i 0
        (∀ i < 64, vget (t.dev.core r).counters i 0 = old i + if i = idx then inc else 0) ∧ t.dev.mem = s.dev.mem
          ∧ ∀ k < 16, ∀ j n, (s.dev.slot r k).wait = .mbx j n →
            (j = idx ∧ (old idx + inc - n).toNat < 2 ^ 31 → (t.dev.slot r k).wait = .none ∧ (t.dev.slot r k).pc = link (s.dev.slot r k).pc)
            ∧ (j ≠ idx ∨ 2 ^ 31 ≤ (old idx + inc - n).toNat → t.dev.slot r k = s.dev.slot r k)
  ) ∧
  (
    (∀ s, Ready {} s → Gives .yield s fun t => InSequence s t ∧ ThreadOnly s t ∧ t.dev.th.yieldUntil = uv s.dev.curCore.cycle + 17
        ∧ { flowOf s.dev.th t.dev.th with yieldUntil := s.dev.th.yieldUntil } = s.dev.th)
      ∧ (∀ s : State, s.args.b < 16 → (s.dev.slot s.args.a s.args.b).yieldUntil ≤ uv (s.dev.core s.args.a).cycle →
          Gives .yieldExpiry s fun t => t.dev.slot s.args.a s.args.b = { s.dev.slot s.args.a s.args.b with yieldUntil := 0 }
            ∧ SameBytes s t s.args.a s.args.b)
      ∧ (∀ ra s, Ready { rx := [ra] } s → s.dev.th.mode = true → (s.dev.homeSlot s.dev.cur.1 s.dev.cur.2).copyIrqs = [] →
          (∀ u, s.dev.th.wait ≠ .wfi u) →
          Parks (.wfi ra) s (.wfi (if s.dev.x ra = 0 then 0 else uv s.dev.curCore.cycle + uv (s.dev.x ra))))
      ∧ ∀ (s : State) u, s.args.b < 16 → (s.dev.slot s.args.a s.args.b).wait = .wfi u → u ≠ 0 → u ≤ uv (s.dev.core s.args.a).cycle →
          Gives .wfiTimeout s fun t => SameBytes s t s.args.a s.args.b
            ∧ (t.dev.slot s.args.a s.args.b).pc = link (s.dev.slot s.args.a s.args.b).pc
            ∧ (t.dev.slot s.args.a s.args.b).wait = Wait.none
            ∧ flowOf (s.dev.slot s.args.a s.args.b) (t.dev.slot s.args.a s.args.b) = s.dev.slot s.args.a s.args.b
  )

/-! ### System instructions (R167, R172, R359, R370-R372, R378-R381) -/

/-- R167, R378, R181: after its release `tlbinv` leaves no translation of the pages that it covers in any TLB, no lease on their lines and no
count, QUEUED or PENDING of the LP frames that their leaf entries map, and goes on when every access made under them is performed. R380, R381, R208: `cinval` drops every copy of each
line of its range, and the line reads what DRAM holds; `cflush` leaves DRAM with the value of each line; `publish` toggles FRONT in the
region's directory entry and drops every translation of the region. That every plain copy of the partition's cores goes, those of other lines
than the region's too, is log entry 36. -/
def Obligations.ShootdownsAndCaches : Prop :=
  (
    ∀ ra rb s, Ready { rx := [ra, rb] } s → s.dev.th.mode = true → (∀ m k g p, s.dev.th.wait ≠ .shootdown m k g p) → Released s .pkg →
      let gva := uv (s.dev.x ra) % 2 ^ 48
      let kind := if uv (s.dev.x rb) < 4 then uv (s.dev.x rb) else 3
      (s.dev.shootdown s.dev.th.part kind gva).shotDone s.dev.th.part kind gva s.dev.accSeq = true →
      Gives (.tlbinv ra rb) s fun t => GoesOn t (link s.dev.th.pc) s.dev.th.arrive
        ∧ (∀ r, ∀ e ∈ (t.dev.core r).tlb, shotEntry s.dev.th.part kind gva e = false)
        ∧ (∀ q, ∀ e ∈ (t.dev.quad q).tlb, shotEntry s.dev.th.part kind gva e = false)
        ∧ (∀ l ∈ t.dev.leases, ¬(l.part = s.dev.th.part ∧ shotCovers kind gva l.pg = true))
        ∧ ∀ f x, aget? s.dev.lp f = some x →
            let hit (p : Nat × PageId) : Bool := p.1 == s.dev.th.part && shotCovers kind gva p.2
            (x.pages.any hit = true → aget? t.dev.lp f = some ⟨0, false, none, x.pages.filter fun p => !hit p⟩)
            ∧ (x.pages.any hit = false → aget? t.dev.lp f = some x)
  ) ∧
  (
    (∀ sn ra rb lines s, Ready { rx := [ra, rb], rs := [sn] } s → s.dev.th.mode = true → s.dev.mem.wf = true →
        s.dev.cacheLines sn ra rb { w := true, l0 := true } { write := true, user := false, twinOk := true } = .ok lines →
        s.dev.th.acqPid = [] → Gives (.cinval sn ra rb) s fun t => InSequence s t ∧ flowOf s.dev.th t.dev.th = s.dev.th
          ∧ (∀ line ∈ lines, (∀ r, aget? (t.dev.core r).l1d line = none ∧ ∀ u ∈ (t.dev.core r).uoc, u.line ≠ line)
            ∧ aget? t.dev.llc line = none ∧ line ∉ t.dev.poison ∧ aget? t.dev.regs line = none
            ∧ (∀ e ∈ t.dev.curCore.wb, e.line ≠ line)
            ∧ t.dev.mem.line line = ((aget? s.dev.llc line).bind (·.dram)).getD (s.dev.mem.line line))
          ∧ ∀ a, (∀ line ∈ lines, a < 128 * line ∨ 128 * line + 128 ≤ a) → t.dev.mem.get a = s.dev.mem.get a)
      ∧ (∀ sn ra rb lines s, Ready { rx := [ra, rb], rs := [sn] } s → Released s .pkg →
        s.dev.cacheLines sn ra rb { r := true, l0 := true } { read := true, user := !s.dev.th.mode, twinOk := true } = .ok lines →
        (∀ line ∈ lines, aget? s.dev.regs line = none ∧ s.dev.hasUoc line = false) →
        Gives (.cflush sn ra rb) s fun t => InSequence s t ∧ flowOf s.dev.th t.dev.th = s.dev.th ∧ t.dev.mem = s.dev.mem
          ∧ ∀ line ∈ lines, ∀ e, aget? s.dev.llc line = some e → aget? t.dev.llc line = some { e with dram := none })
      ∧ ∀ sn ra gva at_ c d d' s, Ready { rx := [ra], rs := [sn] } s → (∀ m k g p, s.dev.th.wait ≠ .shootdown m k g p) →
        segCheck (s.dev.th.seg sn) (s.dev.x ra) 1 { p := true, l0 := true } = .ok gva →
        twinEntry s.dev.th.part gva s.dev = .ok (some (at_, c), d) → d.th = s.dev.th → d.cur = s.dev.cur →
        d.th.acqPid = [] → d.th.relMark = none → d.gateOpen (d.gateWaiting .pkg) = true →
        publishNow s.dev.th.part at_ c gva d.stamp = .ok ((), d') →
        d'.publishDone s.dev.th.part gva d'.accSeq (if c.getLsbD 60 then 0 else 1) s.host.chosenBacks = true →
        Gives (.publish sn ra) s fun t => GoesOn t (link s.dev.th.pc) s.dev.th.arrive
          ∧ (∀ r, (t.dev.core r).part = some s.dev.th.part → (t.dev.core r).l1d = [])
          ∧ (∀ r, ∀ e ∈ (t.dev.core r).tlb, shotEntry s.dev.th.part 2 gva e = false)
          ∧ (AtHomes d → at_ % 8 = 0 → BitVec.ofNat 64 (t.dev.mem.nat at_ 8) = c ^^^ BitVec.ofNat 64 (2 ^ 60)
            ∧ ∀ a, (a < at_ ∨ at_ + 8 ≤ a) → t.dev.mem.get a = d.mem.get a)
  )

/-! ### spawn, exit, migrate (R87-R92, R102-R106, R147, R287, R288, R290) -/

namespace Sys2Proof.Claims

/-- A rejection of R91: 2^63 + the status. -/
def rejected (status : Nat) : Word := word (2 ^ 63 + status)

end Sys2Proof.Claims

/-- R287, R102: `spawn` of a descriptor that fails a check of R90, or with a target that R102 does not allow, returns the status; so does one
whose start block cannot be read or breaks check 6, and one for which no group id or no segment record is left. One that passes becomes a
group with the lowest free id and its segment images, those of the start block or the spawning thread's own: in the placement queue of its
stream with no task started, or, for a rank as target, on its way there in a launch message. X[rd] takes the id. -/
def Obligations.SpawnResults : Prop :=
  ∀ rd ra rb s, Ready { rx := [ra, rb], wx := [rd] } s →
    (uv (s.dev.x ra) % 64 ≠ 0 → Traps (.spawn rd ra rb) s .misalign (s.dev.x ra))
    ∧ ∀ x d, uv (s.dev.x ra) % 64 = 0 → s.dev.th.acqPid = [] → s.dev.readDesc (uv (s.dev.x ra)) = .ok (x, d) →
      d.th = s.dev.th → d.cur = s.dev.cur → d.parts = s.dev.parts →
      let Rejects (st : Nat) : Prop := Gives (.spawn rd ra rb) s fun t => TakesX s t rd (rejected st) ∧ InSequence s t ∧ t.dev.parts = s.dev.parts
      let desc := parseDesc x
      (∀ st, s.dev.tpart.checkDesc x false = some st → Rejects st)
      ∧ (s.dev.tpart.checkDesc x false = none → s.dev.tpart.route (s.dev.x rb) desc.tasks = none → Rejects 0x0002)
      ∧ ∀ dest, s.dev.tpart.checkDesc x false = none → s.dev.tpart.route (s.dev.x rb) desc.tasks = some dest → s.dev.th.relMark = none →
        (∀ e, desc.segtab ≠ 0 → d.tryPeek desc.segtab 256 = .ok (none, e) → e.th = d.th → e.cur = d.cur → e.parts = d.parts → Rejects 0x0005)
        ∧ (∀ b e, desc.segtab ≠ 0 → d.tryPeek desc.segtab 256 = .ok (some b, e) → e.th = d.th → e.cur = d.cur → e.parts = d.parts →
            blockLocal b = none → blockBad b desc.scratch = true → Rejects 0x0002)
        ∧ ∀ e segs, e.th = d.th → e.cur = d.cur → e.parts = d.parts →
          ((desc.segtab = 0 ∧ s.dev.th.badS = [] ∧ e = d ∧ segs = s.dev.th.s)
            ∨ (desc.segtab ≠ 0 ∧ ∃ b, d.tryPeek desc.segtab 256 = .ok (some b, e) ∧ blockLocal b = none ∧ blockBad b desc.scratch = false
              ∧ segs = blockSegs b)) →
          (s.dev.tpart.freeGroup = none ∨ 1024 ≤ e.segRecords (s.dev.cur.1 / 1024) → Rejects 0x000C)
          ∧ ∀ g, s.dev.tpart.freeGroup = some g → e.segRecords (s.dev.cur.1 / 1024) < 1024 →
            let Made (t : State) (next : Nat) : Prop := TakesX s t rd (word g) ∧ InSequence s t
              ∧ ∃ y, aget? (t.dev.part s.dev.th.part).groups g = some y ∧ y.desc = desc ∧ y.segs = segs ∧ y.next = next ∧ y.live = next
            (dest = none → s.dev.tpart.cfg.det = false → Gives (.spawn rd ra rb) s fun t => Made t 0
              ∧ aget? (t.dev.part s.dev.th.part).queues desc.queue = some ((aget? s.dev.tpart.queues desc.queue).getD [] ++ [g]))
            ∧ ∀ r, dest = some r → (e.launchRoom s.dev.th.part r = false → Rejects 0x000C)
              ∧ (e.launchRoom s.dev.th.part r = true → Gives (.spawn rd ra rb) s fun t => Made t 1
                ∧ ∃ gates, t.dev.net = aset e.net e.netSeq ⟨.launch s.dev.th.part r g, gates,
                  some (s.dev.th.part, s.dev.cur.1 - s.dev.tpart.cfg.hbase, s.dev.cur.2)⟩)

/-- R288, R105, R394: `exit` of a thread that is not its task's last empties its slot, whose registers and FFLAGS stay, and leaves the task to
the others; a guest empties its guest slot and its home slot both. The last thread that names a successor at a misaligned address goes on with
INVALID_FIELD in X[rd]. With results outstanding the thread waits for them, and a guest whose home core is saved waits for that core. R290,
R147, R148: `migrate` returns 1 during an upcall, for a REMOTE page, and for a quad that has no core with guest slots; 0 for the quad where the
thread runs; otherwise the thread's state leaves in a frame, for its home slot where the quad holds its home core, else for the lowest core of
the quad with a free guest slot, or the lowest with guest slots, and the thread waits. With a lease record it raises LEASE. -/
def Obligations.ExitsAndMigrations : Prop :=
  (
    ∀ rd ra s, Ready { rx := [ra], wx := [rd] } s →
      (s.dev.th.pend ≠ [] → Gives (.exit rd ra) s fun t => ThreadOnly s t ∧ Waits s t .pending)
      ∧ (s.dev.th.pend = [] → s.dev.homeSaved s.dev.cur.1 s.dev.cur.2 = true → Gives (.exit rd ra) s fun t => ThreadOnly s t ∧ Waits s t .homeCore)
      ∧ ∀ x, s.dev.th.pend = [] → s.dev.th.lease = none → s.dev.task s.dev.cur.1 s.dev.cur.2 = some x →
        (1 < x.slots.length → s.dev.th.guest = false → s.dev.th.claimed = none → s.dev.th.heldBuf = none → Gives (.exit rd ra) s fun t =>
          t.dev.th.occ = false ∧ t.dev.th.x = s.dev.th.x ∧ t.dev.th.fflags = s.dev.th.fflags ∧ t.dev.mem = s.dev.mem ∧ t.dev.parts = s.dev.parts ∧ t.dev.curCore.lmem = s.dev.curCore.lmem
            ∧ (∀ k, k ≠ s.dev.cur.2 → t.dev.slot s.dev.cur.1 k = s.dev.slot s.dev.cur.1 k)
            ∧ ∃ y ∈ t.dev.curCore.tasks, y.id = x.id ∧ y.ended = x.ended ∧ y.slots = x.slots.filter (· != s.dev.cur.2))
        ∧ (∀ h, 1 < x.slots.length → s.dev.th.guest = true → s.dev.homeSaved s.dev.cur.1 s.dev.cur.2 = false →
            h = s.dev.homeOf s.dev.cur.1 s.dev.cur.2 → (s.dev.slot h.1 h.2).claimed = none → (s.dev.slot h.1 h.2).heldBuf = none →
            (∀ y i, s.dev.curCore.hostTask s.dev.cur.2 = some (y, i) → y.ended = false) → Gives (.exit rd ra) s fun t =>
          t.dev.th.occ = false ∧ t.dev.th.x = s.dev.th.x ∧ t.dev.th.fflags = s.dev.th.fflags ∧ t.dev.mem = s.dev.mem ∧ t.dev.parts = s.dev.parts
            ∧ (t.dev.slot h.1 h.2).occ = false ∧ (t.dev.slot h.1 h.2).away = false
            ∧ (∀ r k, (r, k) ≠ s.dev.cur → (r, k) ≠ h → t.dev.slot r k = s.dev.slot r k)
            ∧ ∃ y ∈ (t.dev.core h.1).tasks, y.id = x.id ∧ y.ended = x.ended ∧ y.slots = x.slots.filter (· != h.2))
        ∧ (x.slots.length ≤ 1 → s.dev.homeSaved s.dev.cur.1 s.dev.cur.2 = false → uv (s.dev.x ra) % 64 ≠ 0 → Gives (.exit rd ra) s fun t =>
          WritesX s t rd (rejected 0x0002) ∧ InSequence s t)
  ) ∧
  (
    ∀ rd ra s, Ready { rx := [ra], wx := [rd] } s → s.dev.th.pend = [] →
      (∀ l, s.dev.th.lease = some l → Traps (.migrate rd ra) s .lease (s.dev.x ra))
      ∧ ∀ tr q h part, s.dev.th.lease = none →
        s.dev.translate { read := true, user := !s.dev.th.mode, twinOk := true, remoteOk := true } (uv (s.dev.x ra) % 2 ^ 48) = .ok tr →
        q = homeSlice tr.leaf tr.pa → h = s.dev.homeOf s.dev.cur.1 s.dev.cur.2 → part = s.dev.th.part →
        (s.dev.th.uact = true ∨ tr.remote = true → Gives (.migrate rd ra) s fun t => WritesX s t rd 1 ∧ InSequence s t)
        ∧ (s.dev.th.uact = false → tr.remote = false →
          (q = h.1 / 4 → s.dev.th.guest = false → Gives (.migrate rd ra) s fun t => WritesX s t rd 0 ∧ InSequence s t)
          ∧ (q ≠ h.1 / 4 → q = s.dev.cur.1 / 4 → Gives (.migrate rd ra) s fun t => WritesX s t rd 0 ∧ InSequence s t)
          ∧ (q ≠ h.1 / 4 → q ≠ s.dev.cur.1 / 4 → s.dev.guestRanks part q = [] → Gives (.migrate rd ra) s fun t => WritesX s t rd 1 ∧ InSequence s t)
          ∧ ∀ home, (home = true ∧ q = h.1 / 4 ∧ s.dev.th.guest = true)
                ∨ (home = false ∧ q ≠ h.1 / 4 ∧ q ≠ s.dev.cur.1 / 4 ∧ s.dev.guestRanks part q ≠ []) → Released s .pkg →
            s.dev.th.parityHit frameUse = false → Gives (.migrate rd ra) s fun t => t.dev.th.wait = .migrate ∧ t.dev.th.fflags = 0 ∧ t.dev.mem = s.dev.mem
              ∧ { flowOf s.dev.th t.dev.th with fflags := s.dev.th.fflags } = s.dev.th
              ∧ { t.dev with cores := s.dev.cores, net := s.dev.net, netSeq := s.dev.netSeq } = s.dev
              ∧ ∃ dest f, t.dev.net = aset s.dev.net s.dev.netSeq ⟨.frame part dest f, [], none⟩
                ∧ (home = true → dest = h.1 - s.dev.tpart.cfg.hbase)
                ∧ (home = false → dest ∈ s.dev.guestRanks part q ∧ ∀ c ∈ s.dev.guestRanks part q,
                    (s.dev.rankCore part c).freeGuest.isSome = true ∨ (s.dev.rankCore part dest).freeGuest = none →
                    dest ≤ c ∧ ((s.dev.rankCore part c).freeGuest.isSome = true → (s.dev.rankCore part dest).freeGuest.isSome = true))
                ∧ f.status.extractLsb' 10 6 = s.dev.th.fflags
                ∧ f.pc = link s.dev.th.pc ∧ f.s = s.dev.th.s ∧ f.home = home ∧ f.srcSlot = s.dev.cur.2
                ∧ f.srcRank = s.dev.cur.1 - s.dev.tpart.cfg.hbase
                ∧ (∀ i : Nat, 1 ≤ i → i < 16 → f.x.getD (i - 1) 0 = if BitVec.ofNat 5 i = rd then 0 else s.dev.x (BitVec.ofNat 5 i))
                ∧ (∀ i : Nat, i < 12 → f.v.getD i 0 = s.dev.v (BitVec.ofNat 5 i)))
  )

/-! ### Vector instructions (R293-R312) -/

namespace Sys2Proof.Claims

/-- Element size in bytes of a type, its format, and lane `l` of a register (R293). -/
def size (ty : VTy) : Nat := match ty with
  | .f64 | .i64 => 8
  | .f32 | .i32 => 4
  | .f16 | .bf16 | .i16 => 2
  | .i8 => 1
def format (ty : VTy) : Fmt := match ty with
  | .f64 => fp64
  | .f32 => fp32
  | .f16 => fp16
  | .bf16 | .i64 | .i32 | .i16 | .i8 => bf16
def lane (v : VWordReg) (z l : Nat) : Nat := (v.extractLsb' (8 * z * l) (8 * z)).toNat
/-- Whether lane `l` is active under P[pm]. -/
def active (s : State) (pm : PNo) (l : Nat) : Bool := (s.dev.p pm).getLsbD l

/-- Lane `l` of V[vd] takes `f l`; no other register and nothing else of the machine changes, but FFLAGS and the flow of the program. -/
def WritesV (s t : State) (vd : RegNo) (z : Nat) (f : Nat → Nat) : Prop :=
  ThreadOnly s t ∧ InSequence s t ∧ (∀ l < 64 / z, lane (t.dev.v vd) z l = f l) ∧ (∀ r, r ≠ vd → t.dev.v r = s.dev.v r)
    ∧ { flowOf s.dev.th t.dev.th with v := s.dev.th.v, badV := s.dev.th.badV, fflags := s.dev.th.fflags } = s.dev.th

/-- No flag is set. -/
def SameFlags (s t : State) : Prop := t.dev.th.fflags = s.dev.th.fflags

/-- The flags of the active lanes are ORed into FFLAGS (R294). -/
def OrsFlags (s t : State) (n : Nat) (act : Nat → Bool) (g : Nat → FFlags) : Prop :=
  ∀ k, t.dev.th.fflags.getLsbD k = true ↔ (s.dev.th.fflags.getLsbD k = true ∨ ∃ l < n, act l = true ∧ (g l).getLsbD k = true)

/-- Bit `l` of P[pd] takes `f l` for `l < n` and the bits above are 0; a write to p0 is discarded. -/
def WritesP (s t : State) (pd : PNo) (f : Nat → Bool) : Prop :=
  ThreadOnly s t ∧ InSequence s t ∧ (pd ≠ 0 → ∀ l < 64, (t.dev.p pd).getLsbD l = f l) ∧ (∀ r, r ≠ pd ∨ r = 0 → t.dev.p r = s.dev.p r)
    ∧ { flowOf s.dev.th t.dev.th with p := s.dev.th.p, badP := s.dev.th.badP } = s.dev.th

/-- A floating-point instruction on ty 0-3: each active lane takes `f` of its operands, and the other lanes keep their value; ty 4-7 raise
ILLEGAL (R294, R295). -/
def VFloat (i : VTy → RegNo → RegNo → RegNo → PNo → Instr) (readsVd : Bool) (readsFrm : Bool) (srcs : RegNo → RegNo → List RegNo)
    (f : Fmt → RMode → Nat → Nat → Nat → Nat × FFlags) : Prop :=
  ∀ ty vd va vb pm s,
    (isFloatTy ty = true →
      Ready { rv := if readsVd then vd :: srcs va vb else srcs va vb, wv := [vd], rp := [pm], rcr := if readsFrm then [0x06] else [] } s →
      let z := size ty
      let r (l : Nat) := f (format ty) (rmOf s.dev.th.frm) (lane (s.dev.v va) z l) (lane (s.dev.v vb) z l) (lane (s.dev.v vd) z l)
      Gives (i ty vd va vb pm) s fun t =>
        WritesV s t vd z (fun l => if active s pm l then (r l).1 % 256 ^ z else lane (s.dev.v vd) z l)
          ∧ OrsFlags s t (64 / z) (active s pm) (fun l => (r l).2))
    ∧ (isFloatTy ty = false → s.dev.cur.2 < 16 → Traps (i ty vd va vb pm) s .illegal (wordOf s))

/-- An integer instruction on ty 4-7, on lanes of w bits; ty 0-3 raise ILLEGAL (R298). -/
def VInt (i : VTy → RegNo → RegNo → RegNo → PNo → Instr) (f : (w : Nat) → BitVec w → BitVec w → BitVec w) : Prop :=
  ∀ ty vd va vb pm s,
    (isFloatTy ty = false → Ready { rv := [va, vb], wv := [vd], rp := [pm] } s →
      let z := size ty
      Gives (i ty vd va vb pm) s fun t => SameFlags s t ∧ WritesV s t vd z fun l =>
        if active s pm l then
          (f (8 * z) ((s.dev.v va).extractLsb' (8 * z * l) (8 * z)) ((s.dev.v vb).extractLsb' (8 * z * l) (8 * z))).toNat
        else lane (s.dev.v vd) z l)
    ∧ (isFloatTy ty = true → s.dev.cur.2 < 16 → Traps (i ty vd va vb pm) s .illegal (wordOf s))

/-- A compare: bit l takes the comparison where the lane is active, and keeps its value elsewhere; bits n to 63 are 0 (R299). -/
def VCompare (i : VTy → PNo → RegNo → RegNo → PNo → Instr) (float : Int → Prop) (int : Int → Int → Prop) [DecidablePred float]
    [DecidableRel int] : Prop :=
  ∀ ty pd va vb pm s, Ready { rv := [va, vb], rp := [pm] } s →
    let z := size ty
    Gives (i ty pd va vb pm) s fun t => SameFlags s t ∧ WritesP s t pd fun l =>
      if 64 / z ≤ l then false
      else if active s pm l then
        let a := lane (s.dev.v va) z l
        let b := lane (s.dev.v vb) z l
        if isFloatTy ty then
          let x := (format ty).read a
          let y := (format ty).read b
          !x.isNan && !y.isNan && decide (float (x.cmp y))
        else decide (int (BitVec.ofNat (8 * z) a).toInt (BitVec.ofNat (8 * z) b).toInt)
      else (s.dev.p pd).getLsbD l

/-- One lane of `vcvt` (R229-R231, R302). -/
def converted (dst src : VTy) (frm : BitVec 3) (c : Nat) : Nat × FFlags :=
  match isFloatTy dst, isFloatTy src with
  | true, true => (format dst).round (rmOf frm) ((format src).read c)
  | true, false => (format dst).round (rmOf frm) (FVal.ofInt (BitVec.ofNat (8 * size src) c).toInt)
  | false, true => ((format src).read c).toIntSat (rmOf frm) (8 * size dst)
  | false, false =>
    let v := (BitVec.ofNat (8 * size src) c).toInt
    let lo : Int := -2 ^ (8 * size dst - 1)
    let hi : Int := 2 ^ (8 * size dst - 1) - 1
    let x := max lo (min hi v)
    ((BitVec.ofInt (8 * size dst) x).toNat, if v < lo ∨ hi < v then fSAT else 0)

/-- A conversion of `n` lanes; the lanes above are written 0 (R302). -/
def VConvert (i : RegNo → RegNo → PNo → Instr) (zd zs n : Nat) (f : BitVec 3 → Nat → Nat × FFlags) : Prop :=
  ∀ vd va pm s, Ready { rv := [va], wv := [vd], rp := [pm], rcr := [0x06] } s →
    let r (l : Nat) := f s.dev.th.frm (lane (s.dev.v va) zs l)
    Gives (i vd va pm) s fun t => OrsFlags s t n (active s pm) (fun l => (r l).2)
      ∧ WritesV s t vd zd fun l =>
        if n ≤ l then 0 else if active s pm l then (r l).1 % 256 ^ zd else lane (s.dev.v vd) zd l

end Sys2Proof.Claims

/-- R294-R298: the lane operations. -/
def Obligations.VectorLaneResults : Prop :=
  VFloat .vfadd false true (fun a b => [a, b]) (fun f m a b _ => f.add m a b)
    ∧ VFloat .vfsub false true (fun a b => [a, b]) (fun f m a b _ => f.sub m a b)
    ∧ VFloat .vfmul false true (fun a b => [a, b]) (fun f m a b _ => f.mul m a b)
    ∧ VFloat .vfma true true (fun a b => [a, b]) (fun f m a b c => f.fma m false a b c)
    ∧ VFloat .vfnma true true (fun a b => [a, b]) (fun f m a b c => f.fma m true a b c)
    ∧ VFloat .vfmin false false (fun a b => [a, b]) (fun f _ a b _ => (f.minMax false a b, 0))
    ∧ VFloat .vfmax false false (fun a b => [a, b]) (fun f _ a b _ => (f.minMax true a b, 0))
    ∧ VFloat .vfdiv false true (fun a b => [a, b]) (fun f m a b _ => f.div m a b)
    ∧ VFloat (fun ty vd va _ pm => .vfsqrt ty vd va pm) false true (fun a _ => [a]) (fun f m a _ _ => f.sqrt m a)
    ∧ VFloat (fun ty vd va _ pm => .vfrcp ty vd va pm) false true (fun a _ => [a]) (fun f m a _ _ => f.rcp m a)
    ∧ VFloat (fun ty vd va _ pm => .vfexp2 ty vd va pm) false true (fun a _ => [a]) (fun f m a _ _ => f.exp2 m a)
    ∧ VInt .viadd (fun _ a b => a + b) ∧ VInt .visub (fun _ a b => a - b) ∧ VInt .vimul (fun _ a b => a * b)
    ∧ VInt .vimin (fun _ a b => if a.slt b then a else b) ∧ VInt .vimax (fun _ a b => if a.slt b then b else a)
    ∧ VInt .vand (fun _ a b => a &&& b) ∧ VInt .vor (fun _ a b => a ||| b) ∧ VInt .vxor (fun _ a b => a ^^^ b)
    ∧ VInt .vsll (fun w a b => a <<< (b.toNat % w)) ∧ VInt .vsrl (fun w a b => a >>> (b.toNat % w))
    ∧ VInt .vsra (fun w a b => a.sshiftRight (b.toNat % w))

/-- R299-R301: compares, select, predicate operations, and the movement of lanes. R302-R304: conversions and reductions. -/
def Obligations.VectorMovesAndConversions : Prop :=
  (
    VCompare .vcmpeq (fun c => c = 0) (fun a b => a = b) ∧ VCompare .vcmplt (fun c => c < 0) (fun a b => a < b)
      ∧ VCompare .vcmple (fun c => c ≤ 0) (fun a b => a ≤ b)
      ∧ (∀ ty vd va vb pm s, Ready { rv := [va, vb], wv := [vd], rp := [pm] } s →
          Gives (.vsel ty vd va vb pm) s (fun t => SameFlags s t ∧ WritesV s t vd (size ty) fun l =>
            if active s pm l then lane (s.dev.v va) (size ty) l else lane (s.dev.v vb) (size ty) l)
          ∧ Gives (.vperm ty vd va vb pm) s fun t => SameFlags s t ∧ WritesV s t vd (size ty) fun l =>
            if active s pm l then lane (s.dev.v va) (size ty) (lane (s.dev.v vb) (size ty) l % (64 / size ty)) else lane (s.dev.v vd) (size ty) l)
      ∧ (∀ pd pa pb s, Ready { rp := [pa, pb] } s →
          Gives (.pand pd pa pb) s (fun t => WritesP s t pd fun l => (s.dev.p pa).getLsbD l && (s.dev.p pb).getLsbD l)
          ∧ Gives (.por pd pa pb) s (fun t => WritesP s t pd fun l => (s.dev.p pa).getLsbD l || (s.dev.p pb).getLsbD l)
          ∧ Gives (.pxor pd pa pb) s (fun t => WritesP s t pd fun l => (s.dev.p pa).getLsbD l != (s.dev.p pb).getLsbD l)
          ∧ (pb = pa → Gives (.pnot pd pa) s fun t => WritesP s t pd fun l => !(s.dev.p pa).getLsbD l))
      ∧ (∀ rd pa s, Ready { rp := [pa], wx := [rd] } s → Gives (.ppop rd pa) s fun t => InSequence s t
          ∧ WritesX s t rd (BitVec.ofNat 64 ((List.range 64).countP fun l => (s.dev.p pa).getLsbD l)))
      ∧ (∀ ty vd xa pm s, Ready { rx := [xa], wv := [vd], rp := [pm] } s → Gives (.vbcast ty vd xa pm) s fun t =>
          SameFlags s t ∧ WritesV s t vd (size ty) fun l =>
            if active s pm l then uv (s.dev.x xa) % 256 ^ size ty else lane (s.dev.v vd) (size ty) l)
      ∧ (∀ ty rd va xb s, Ready { rx := [xb], rv := [va], wx := [rd] } s → Gives (.vext ty rd va xb) s fun t => InSequence s t
          ∧ WritesX s t rd (if 64 / size ty ≤ uv (s.dev.x xb) then 0
            else if isFloatTy ty then BitVec.ofNat 64 (lane (s.dev.v va) (size ty) (uv (s.dev.x xb)))
            else (BitVec.ofNat (8 * size ty) (lane (s.dev.v va) (size ty) (uv (s.dev.x xb)))).signExtend 64))
      ∧ ∀ ty vd va xb pm s, Ready { rx := [xb], rv := [va], wv := [vd], rp := [pm] } s → Gives (.vslide ty vd va xb pm) s fun t =>
          SameFlags s t ∧ WritesV s t vd (size ty) fun l =>
            let src : Int := (l : Int) - sv (s.dev.x xb)
            if active s pm l then (if 0 ≤ src ∧ src < (64 / size ty : Nat) then lane (s.dev.v va) (size ty) src.toNat else 0)
            else lane (s.dev.v vd) (size ty) l
  ) ∧
  (
    (∀ dst src, dst ≠ src →
        VConvert (.vcvt dst src) (size dst) (size src) (64 / max (size dst) (size src)) (converted dst src))
      ∧ VConvert .vcvtF32E4m3 4 1 16 (fun frm c => fp32.round (rmOf frm) (e4m3.read c))
      ∧ VConvert .vcvtF32E5m2 4 1 16 (fun frm c => fp32.round (rmOf frm) (e5m2.read c))
      ∧ VConvert .vcvtE4m3F32 1 4 16 (fun frm c => e4m3.toFp8 (rmOf frm) (frm.getLsbD 2) (fp32.read c))
      ∧ VConvert .vcvtE5m2F32 1 4 16 (fun frm c => e5m2.toFp8 (rmOf frm) (frm.getLsbD 2) (fp32.read c))
      ∧ ∀ ty vd va pm s, Ready { rv := [va], wv := [vd], rp := [pm] } s →
        let z := size ty
        let n := 64 / z
        let act := (List.range n).filter (active s pm)
        let val (l : Nat) := lane (s.dev.v va) z l
        let first (x : Nat) (l : Nat) := if l = 0 then x else 0
        (isFloatTy ty = false →
          Gives (.vredsum ty vd va pm) s (fun t => SameFlags s t
            ∧ WritesV s t vd z (first ((act.map val).sum % 256 ^ z)))
          ∧ Gives (.vredmax ty vd va pm) s (fun t => SameFlags s t ∧ ∃ x, WritesV s t vd z (first x)
            ∧ (act = [] → x = 2 ^ (8 * z - 1))
            ∧ (act ≠ [] → x ∈ act.map val ∧ ∀ y ∈ act.map val, (BitVec.ofNat (8 * z) y).toInt ≤ (BitVec.ofNat (8 * z) x).toInt))
          ∧ Gives (.vredmin ty vd va pm) s (fun t => SameFlags s t ∧ ∃ x, WritesV s t vd z (first x)
            ∧ (act = [] → x = 2 ^ (8 * z - 1) - 1)
            ∧ (act ≠ [] → x ∈ act.map val ∧ ∀ y ∈ act.map val, (BitVec.ofNat (8 * z) x).toInt ≤ (BitVec.ofNat (8 * z) y).toInt)))
        ∧ (isFloatTy ty = true →
          let f := format ty
          (Ready { rcr := [0x06] } s → Gives (.vredsum ty vd va pm) s fun t =>
            let r := redTree (f.add (rmOf s.dev.th.frm)) ((List.range n).map fun l => if active s pm l then val l else f.signBit) 0 6
            WritesV s t vd z (first (r.1 % 256 ^ z)) ∧ t.dev.th.fflags = s.dev.th.fflags ||| r.2)
          ∧ Gives (.vredmax ty vd va pm) s (fun t => SameFlags s t ∧ WritesV s t vd z (first ((match act.map val with
            | [] => f.signBit + f.inf
            | a :: rest => rest.foldl (f.minMax true) (f.minMax true a a)) % 256 ^ z)))
          ∧ Gives (.vredmin ty vd va pm) s (fun t => SameFlags s t ∧ WritesV s t vd z (first ((match act.map val with
            | [] => f.inf
            | a :: rest => rest.foldl (f.minMax false) (f.minMax false a a)) % 256 ^ z))))
  )

namespace Sys2Proof.Claims

/-- The operands of the lanes of a vector access pass every check (R306): in local memory at the addresses `as`, or in global pages `ts`. -/
def LanesLocal (s : State) (sg : SegNo) (z : Nat) (lanes : List VLane) (need : SegNeed) (acc : Access) (as : List (Nat × Nat)) : Prop :=
  s.dev.laneOperands sg z lanes need acc = .ok (as.map fun p => (p.1, .loc p.2)) ∧ segL (s.dev.th.seg sg) = true ∧ s.dev.th.acqPid = []
def LanesGlobal (s : State) (sg : SegNo) (z : Nat) (lanes : List VLane) (need : SegNeed) (acc : Access) (ts : List (Nat × Trans)) : Prop :=
  s.dev.laneOperands sg z lanes need acc = .ok (ts.map fun p => (p.1, .glob [(p.2, 0, z)])) ∧ segL (s.dev.th.seg sg) = false
    ∧ s.dev.th.acqPid = []

/-- Lanes of `z` bytes: lane l at X[ra] + l × `stride`, for l < n; and the lanes that `act` selects, at X[ra] + lane l of V[vd + 1]. -/
def stepLanes (base : Word) (stride : Nat → Word) (n : Nat) : List VLane := (List.range n).map fun l => (l, base + stride l)
def pickLanes (base : Word) (off : Nat → Nat) (n : Nat) (act : Nat → Bool) : List VLane :=
  ((List.range n).filter act).map fun l => (l, base + BitVec.ofNat 64 (off l))

/-- A vector load (R305-R307): V[vd] is pending as a whole, its local bytes known where none is poisoned, and its global ones as `issueLoad` finds them. -/
def VLoads (s : State) (i : Instr) (sg : SegNo) (vd : RegNo) (z : Nat) (la : La) (lanes : List VLane) : Prop :=
  (∀ as, LanesLocal s sg z lanes { r := true } (loadAccess s) as → (∀ p ∈ as, s.dev.curCore.localBad p.2 z = none) →
    Gives i s fun t => ThreadOnly s t ∧ InSequence s t
      ∧ AddsPending s t (.vec vd z (as.map (·.1))) (as.flatMap fun p => s.dev.curCore.lmem.bytes p.2 z) 0 la)
  ∧ ∀ ts, LanesGlobal s sg z lanes { r := true } (loadAccess s) ts → Gives i s fun t => InSequence s t
      ∧ ((∀ p ∈ ts, p.2.remote = false) → t.dev.mem = s.dev.mem)
      ∧ t.dev = s.dev.issueLoad (ts.zipIdx.map fun p => ⟨p.1.2, z, z * p.2⟩) (.vec vd z (ts.map (·.1))) (z * ts.length) la none

/-- A vector store: the lanes in ascending order, into local bytes, or into the write buffer as `storeUnit` puts each. -/
def VStores (s : State) (i : Instr) (sg : SegNo) (z : Nat) (data : Nat → Nat) (lanes : List VLane) : Prop :=
  (∀ as, LanesLocal s sg z lanes { w := true } (storeAccess s) as → s.dev.th.relMark = none → s.dev.curCore.wb.length ≤ 32 →
      Gives i s fun t => InSequence s t ∧ flowOf s.dev.th t.dev.th = s.dev.th ∧ { t.dev with cores := s.dev.cores } = s.dev
        ∧ (∀ r, r ≠ s.dev.cur.1 → t.dev.core r = s.dev.core r)
        ∧ t.dev.curCore.lmem = as.foldl (fun m p => m.setBytes p.2 (leBytes z (data p.1))) s.dev.curCore.lmem)
  ∧ ∀ ts, LanesGlobal s sg z lanes { w := true } (storeAccess s) ts → s.dev.th.relMark = none →
      s.dev.wbRoom (ts.map fun p => ⟨p.2, z, data p.1, true⟩) = true → Gives i s fun t => t.boot = s.boot ∧ t.host = s.host
        ∧ t.dev = ((ts.map fun p => (⟨p.2, z, data p.1, true⟩ : SUnit)).foldl (Dev.storeUnit none) s.dev).retire

end Sys2Proof.Claims

/-- R305-R307: the vector loads and stores. -/
def Obligations.VectorMemoryAccesses : Prop :=
  (∀ ty vd ra sg la s, Ready { rx := [ra], wv := [vd], rs := [sg] } s →
      VLoads s (.vld ty vd ra sg la) sg vd (size ty) la (stepLanes (s.dev.x ra) (fun l => word (l * size ty)) (64 / size ty)))
    ∧ (∀ ty vd ra sg s, Ready { rx := [ra], rv := [vd], rs := [sg] } s →
      VStores s (.vst ty vd ra sg) sg (size ty) (lane (s.dev.v vd) (size ty))
        (stepLanes (s.dev.x ra) (fun l => word (l * size ty)) (64 / size ty)))
    ∧ (∀ vd ra xb sg la s, Ready { rx := [ra, xb], wv := [vd], rs := [sg] } s →
      VLoads s (.vlds32 vd ra xb sg la) sg vd 4 la (stepLanes (s.dev.x ra) (fun l => word (l * sv (s.dev.x xb))) 16)
        ∧ VLoads s (.vlds64 vd ra xb sg la) sg vd 8 la (stepLanes (s.dev.x ra) (fun l => word (l * sv (s.dev.x xb))) 8))
    ∧ (∀ vd ra xb sg s, Ready { rx := [ra, xb], rv := [vd], rs := [sg] } s →
      VStores s (.vsts32 vd ra xb sg) sg 4 (lane (s.dev.v vd) 4) (stepLanes (s.dev.x ra) (fun l => word (l * sv (s.dev.x xb))) 16)
        ∧ VStores s (.vsts64 vd ra xb sg) sg 8 (lane (s.dev.v vd) 8)
            (stepLanes (s.dev.x ra) (fun l => word (l * sv (s.dev.x xb))) 8))
    ∧ (∀ vd ra pb sg s, Ready { rx := [ra], rv := [vd], rp := [pb], rs := [sg] } s →
      VStores s (.vstm vd ra pb sg) sg 1 (lane (s.dev.v vd) 1) (pickLanes (s.dev.x ra) (fun l => l) 64 (active s pb)))
    ∧ (∀ vd ra pm sg la s, vd ≠ 31 → Ready { rx := [ra], rv := [vd + 1], wv := [vd], rp := [pm], rs := [sg] } s →
      VLoads s (.vgath32 vd ra pm sg la) sg vd 4 la (pickLanes (s.dev.x ra) (lane (s.dev.v (vd + 1)) 4) 16 (active s pm))
        ∧ VLoads s (.vgath64 vd ra pm sg la) sg vd 8 la (pickLanes (s.dev.x ra) (lane (s.dev.v (vd + 1)) 8) 8 (active s pm)))
    ∧ (∀ vd ra pm sg s, vd ≠ 31 → Ready { rx := [ra], rv := [vd, vd + 1], rp := [pm], rs := [sg] } s →
      VStores s (.vscat32 vd ra pm sg) sg 4 (lane (s.dev.v vd) 4)
          (pickLanes (s.dev.x ra) (lane (s.dev.v (vd + 1)) 4) 16 (active s pm))
        ∧ VStores s (.vscat64 vd ra pm sg) sg 8 (lane (s.dev.v vd) 8)
            (pickLanes (s.dev.x ra) (lane (s.dev.v (vd + 1)) 8) 8 (active s pm)))
    ∧ ∀ ra pm sg la s, s.dev.cur.2 < 16 → Traps (.vgath32 31 ra pm sg la) s .illegal (wordOf s)
      ∧ Traps (.vgath64 31 ra pm sg la) s .illegal (wordOf s) ∧ Traps (.vscat32 31 ra pm sg) s .illegal (wordOf s)
      ∧ Traps (.vscat64 31 ra pm sg) s .illegal (wordOf s)

namespace Sys2Proof.Claims

/-- Code e of a Q4X group in bit-plane layout (R222), and its pair partner. -/
def q4x (v : VWordReg) (e : Nat) : Nat :=
  (if v.getLsbD e then 1 else 0) + (if v.getLsbD (64 + e) then 2 else 0) + (if v.getLsbD (128 + e) then 4 else 0)
    + (if v.getLsbD (192 + e) then 8 else 0)
def pairOf (e : Nat) : Nat := if e % 2 = 0 then e + 1 else e - 1

/-- Twice the value of an E2M1 code (R221). -/
def twice (c : Nat) : Int := [0, 1, 2, 3, 4, 6, 8, 12, 0, -1, -2, -3, -4, -6, -8, -12].getD c 0

end Sys2Proof.Claims

/-- R309-R312: the special vector instructions. -/
def Obligations.VectorSpecialInstructions : Prop :=
  (∀ vd va vb pm s, Ready { rv := [vd, va, vb], wv := [vd], rp := [pm] } s → Gives (.vtopk vd va vb pm) s fun t => SameFlags s t
      ∧ let old := (List.range 8).map fun i => (lane (s.dev.v vd) 4 (2 * i), lane (s.dev.v vd) 4 (2 * i + 1))
        let new := ((List.range 16).filter (active s pm)).map fun l => (lane (s.dev.v va) 4 l, lane (s.dev.v vb) 4 l)
        let top := (old ++ new).foldl (fun acc e => rankInsert e acc) []
        WritesV s t vd 4 fun l => if l % 2 = 0 then (top.getD (l / 2) (0, 0)).1 else (top.getD (l / 2) (0, 0)).2)
    ∧ (∀ vd va s, Ready { rv := [va], wv := [vd] } s →
        Gives (.vplane vd va) s (fun t => SameFlags s t ∧ (∃ f, WritesV s t vd 1 f)
          ∧ ∀ g < 2, ∀ j < 4, ∀ e < 64, (t.dev.v vd).getLsbD (64 * (4 * g + j) + e) = (s.dev.v va).getLsbD (4 * (64 * g + e) + j))
        ∧ Gives (.vunplane vd va) s (fun t => SameFlags s t ∧ (∃ f, WritesV s t vd 1 f)
          ∧ ∀ g < 2, ∀ j < 4, ∀ e < 64, (t.dev.v vd).getLsbD (4 * (64 * g + e) + j) = (s.dev.v va).getLsbD (64 * (4 * g + j) + e)))
    ∧ (∀ pd va xb pm s, Ready { rx := [xb], rv := [va], rp := [pm] } s → Gives (.vtree pd va xb pm) s fun t => SameFlags s t
        ∧ WritesP s t pd fun l =>
          if 16 ≤ l then false
          else if active s pm l then
            (s.dev.v va).getLsbD (32 * l + 31) || (s.dev.x xb).getLsbD (lane (s.dev.v va) 4 l % 64)
          else (s.dev.p pd).getLsbD l)
    ∧ ∀ vd pb va s, Ready { rv := [va], wv := [vd] } s → Gives (.vq4xd vd pb va) s fun t => ThreadOnly s t ∧ InSequence s t
        ∧ SameFlags s t ∧ (∀ r, r ≠ vd → t.dev.v r = s.dev.v r) ∧ (∀ r, r ≠ pb ∨ r = 0 → t.dev.p r = s.dev.p r)
        ∧ ∀ e < 64,
          let mine := q4x (s.dev.v va) e
          let other := q4x (s.dev.v va) (pairOf e)
          let escaped := mine = 8 ∧ other ≠ 8
          (BitVec.ofNat 8 (lane (t.dev.v vd) 1 e)).toInt
              = (if escaped then twice other else if mine = 8 ∨ other = 8 then 0 else if mine < 8 then mine else (mine : Int) - 16)
            ∧ (pb ≠ 0 → (t.dev.p pb).getLsbD e = decide escaped)

/-! ### Matrix and ladder commands (R126-R128, R134-R137, R206, R313-R337) -/

namespace Sys2Proof.Claims

/-- A place in the queue, and no ordered access before the command. -/
def MayQueue (s : State) : Prop := s.dev.curCore.mxq.length < 16 ∧ s.dev.th.acqPid = [] ∧ s.dev.th.relMark = none

/-- A thread at home whose TILEMASK has the tiles, none of which a ladder owns (R94, R146, R326). -/
def MayUse (s : State) (tiles : List Nat) : Prop :=
  s.dev.th.guest = false ∧ ∀ k ∈ tiles, (s.dev.task s.dev.cur.1 s.dev.cur.2).any (·.hasTile k) = true ∧ s.dev.curCore.tileOwner k = none

/-- One command more stands in the queue of the core, with everything it samples (R128, R317), and nothing else changes but the flow of the
program. -/
def Queues (s t : State) (i : Instr) (dests : List Nat) (P : MxCmd → Prop) : Prop :=
  InSequence s t ∧ flowOf s.dev.th t.dev.th = s.dev.th ∧ { t.dev with cores := s.dev.cores } = s.dev ∧ t.boot = s.boot ∧ t.host = s.host
    ∧ (∀ r, r ≠ s.dev.cur.1 → t.dev.core r = s.dev.core r)
    ∧ (∀ k, k ≠ s.dev.cur.2 → t.dev.slot s.dev.cur.1 k = s.dev.slot s.dev.cur.1 k)
    ∧ { t.dev.curCore with slots := s.dev.curCore.slots, mxq := s.dev.curCore.mxq } = s.dev.curCore
    ∧ ∃ c, t.dev.curCore.mxq = s.dev.curCore.mxq ++ [c] ∧ c.instr = i ∧ c.slot = s.dev.cur.2 ∧ c.part = s.dev.th.part
      ∧ c.mfmt = s.dev.th.mfmt ∧ c.msca = s.dev.th.msca ∧ c.mscb = s.dev.th.mscb ∧ c.mosh = s.dev.th.mosh ∧ c.frm = s.dev.th.frm
      ∧ c.dests = dests ∧ c.pins = [] ∧ c.faultPage = none ∧ P c

/-- A matrix operand of `n` bytes passes its segment, range and alignment. -/
def Operand128 (s : State) (sg : SegNo) (off : Word) (n : Nat) (need : SegNeed) (loc : Bool) (o : MxOpnd) : Prop :=
  s.dev.mxOpnd sg off n need loc = .ok o ∧ o.gva % 128 = 0

/-- The control registers that a matrix command samples (R128): FRM, MFMT, MSCA, MSCB and MOSH. -/
def sampled : List (BitVec 6) := [0x06, 0x07, 0x08, 0x09, 0x0A]

/-- The tiles of `macc` and `mscl`: a pair for FP64. -/
def pairFor (ty : MTy) (k : Nat) : List Nat := if ty = .f64 then [k, k + 1] else [k]

end Sys2Proof.Claims

/-- R317, R320-R324: the matrix commands enter the queue with their operands; a pair of formats of two classes is ILLEGAL; with the queue full
each of them waits. `mfence` waits for the thread's commands and raises the cause of a failed tile, of a failed ladder, or the error latched
for the thread; `mqstat` counts the commands and names what has failed. R146: each of them raises PERM in a guest. -/
def Obligations.MatrixInstructions : Prop :=
  (∀ md ra rb sa sb a b p q s, Ready { rx := [ra, rb], rs := [sa, sb], rcr := sampled } s → MayQueue s →
      let wide := uv s.dev.th.mfmt % 16 = 0
      let dests := if wide then [md.toNat, md.toNat + 1] else [md.toNat]
      (mfmtOk s.dev.th.mfmt = false → Traps (.mma md ra rb sa sb) s .illegal (wordOf s))
      ∧ (mfmtOk s.dev.th.mfmt = true → (wide → md.toNat % 2 = 0) → Operand128 s sa (s.dev.x ra) 2048 { r := true } false a →
          Operand128 s sb (s.dev.x rb) 2048 { r := true } false b →
          s.dev.scaleArray s.dev.th.msca = .ok p → s.dev.scaleArray s.dev.th.mscb = .ok q →
          MayUse s (dests ++ a.tiles 2048 ++ b.tiles 2048) →
          Gives (.mma md ra rb sa sb) s fun t => Queues s t (.mma md ra rb sa sb) dests fun c =>
            c.a = a.loc ∧ c.b = b.loc ∧ c.scaleA = p ∧ c.scaleB = q)
      ∧ (mfmtOk s.dev.th.mfmt = true → (wide → md.toNat % 2 = 0) → Operand128 s sa (s.dev.x ra) 2048 { r := true } false a →
          Operand128 s sb (s.dev.x rb) 2048 { r := true } false b →
          s.dev.scaleArray s.dev.th.msca = .ok p → s.dev.scaleArray s.dev.th.mscb = .ok q →
          s.dev.th.guest = true → Traps (.mma md ra rb sa sb) s .perm 0))
    ∧ (∀ md ra rb sa sb ty s, s.dev.cur.2 < 16 → 16 ≤ s.dev.curCore.mxq.length →
      Parks (.mma md ra rb sa sb) s .matrixQueue ∧ Parks (.mzero md) s .matrixQueue ∧ Parks (.mld md ra sa) s .matrixQueue
        ∧ Parks (.mst md ra sa) s .matrixQueue ∧ Parks (.mstg md ra sa) s .matrixQueue ∧ Parks (.macc ty md ra) s .matrixQueue
        ∧ (ty ≠ .i32 → Parks (.mscl ty md ra) s .matrixQueue))
    ∧ (∀ md ra sa a s, Ready { rx := [ra], rs := [sa], rcr := sampled } s → s.dev.curCore.mxq.length < 16 → s.dev.th.guest = true →
      Traps (.mzero md) s .perm 0
        ∧ (Operand128 s sa (s.dev.x ra) 4096 { r := true } false a → Traps (.mld md ra sa) s .perm 0)
        ∧ (Operand128 s sa (s.dev.x ra) 4096 { w := true } true a → Traps (.mst md ra sa) s .perm 0)
        ∧ (Operand128 s sa (s.dev.x ra) 4096 { w := true, l0 := true } false a → Traps (.mstg md ra sa) s .perm 0)
        ∧ ∀ ty, (ty = .f64 → md.toNat % 2 = 0) → ((ty = .f64 → uv (s.dev.x ra) % 2 = 0) → Traps (.macc ty md ra) s .perm 0)
          ∧ (ty ≠ .i32 → Traps (.mscl ty md ra) s .perm 0))
    ∧ (∀ md s, Ready { rcr := sampled } s → MayQueue s → MayUse s [md.toNat] →
      Gives (.mzero md) s fun t => Queues s t (.mzero md) [md.toNat] fun _ => True)
    ∧ (∀ md ra sa a s, Ready { rx := [ra], rs := [sa], rcr := sampled } s → MayQueue s →
      (Operand128 s sa (s.dev.x ra) 4096 { r := true } false a → MayUse s (md.toNat :: a.tiles 4096) →
        Gives (.mld md ra sa) s fun t => Queues s t (.mld md ra sa) [md.toNat] fun c => c.a = a.loc)
      ∧ (Operand128 s sa (s.dev.x ra) 4096 { w := true } true a → a.phys < 0x80000 → MayUse s [md.toNat] →
        Gives (.mst md ra sa) s fun t => Queues s t (.mst md ra sa) [] fun c => c.a = a.loc)
      ∧ (Operand128 s sa (s.dev.x ra) 4096 { w := true, l0 := true } false a → MayUse s [md.toNat] →
        Gives (.mstg md ra sa) s fun t => Queues s t (.mstg md ra sa) [] fun c => c.a = a.loc))
    ∧ (∀ ty md ra s, Ready { rx := [ra], rcr := sampled } s → MayQueue s → (ty = .f64 → md.toNat % 2 = 0) →
      let src := uv (s.dev.x ra) % 64
      ((ty = .f64 → src % 2 = 0) → MayUse s (pairFor ty md.toNat ++ pairFor ty src) →
        Gives (.macc ty md ra) s fun t => Queues s t (.macc ty md ra) (pairFor ty md.toNat) fun c => c.xval = s.dev.x ra)
      ∧ (ty ≠ .i32 → MayUse s (pairFor ty md.toNat) →
        Gives (.mscl ty md ra) s fun t => Queues s t (.mscl ty md ra) (pairFor ty md.toNat) fun c => c.xval = s.dev.x ra))
    ∧ (∀ s, s.dev.cur.2 < 16 → s.dev.curCore.mxq.length < 16 → ∀ md ra, md.toNat % 2 = 1 →
      Traps (.macc .f64 md ra) s .illegal (wordOf s) ∧ Traps (.mscl .f64 md ra) s .illegal (wordOf s))
    ∧ (∀ rd s, Ready { wx := [rd] } s → s.dev.th.guest = true → Traps .mfence s .perm 0 ∧ Traps (.mqstat rd) s .perm 0)
    ∧ (∀ s, Ready {} s → s.dev.th.guest = false →
      (s.dev.curCore.mxq.any (·.slot == s.dev.cur.2) = true → Parks .mfence s .mfence)
      ∧ (∀ e, s.dev.curCore.mxq.any (·.slot == s.dev.cur.2) = false → s.dev.firstFailedTile = some e → Traps .mfence s e.cause e.gva)
      ∧ (∀ l e rest, s.dev.curCore.mxq.any (·.slot == s.dev.cur.2) = false → s.dev.firstFailedTile = none → s.dev.failedLadders = (l, e) :: rest →
          Traps .mfence s e.cause e.gva)
      ∧ (s.dev.curCore.mxq.any (·.slot == s.dev.cur.2) = false → s.dev.firstFailedTile = none → s.dev.failedLadders = [] →
          s.dev.th.mxerr = none → Gives .mfence s fun t => WritesNothing s t ∧ InSequence s t)
      ∧ (∀ e, s.dev.curCore.mxq.any (·.slot == s.dev.cur.2) = false → s.dev.firstFailedTile = none → s.dev.failedLadders = [] →
          s.dev.th.mxerr = some e →
          (s.dev.th.pend = [] → Gives .mfence s fun t => ThreadOnly s t ∧ t.dev.th.mxerr = none ∧ t.dev.th.sepc = s.dev.th.pc
            ∧ t.dev.th.scause = e.cause.code ∧ t.dev.th.saddr = e.gva ∧ t.dev.th.mode = true
            ∧ GoesOn t (returnTarget s.dev.curCore.tvec) none)
          ∧ (s.dev.th.pend ≠ [] → Parks .mfence s .pending)))
    ∧ ∀ rd s, Ready { wx := [rd] } s → s.dev.th.guest = false → Gives (.mqstat rd) s fun t =>
      InSequence s t ∧ WritesX s t rd (BitVec.ofNat 64 ((s.dev.failedLadders.map fun l => 2 ^ l.1).sum * 2 ^ 18 + (if s.dev.th.mxerr.isSome then 2 ^ 17 else 0)
        + (if s.dev.firstFailedTile.isSome then 2 ^ 16 else 0)
        + 256 * (s.dev.curCore.mxq.filter (·.slot == s.dev.cur.2)).length + s.dev.curCore.mxq.length))

namespace Sys2Proof.Claims

/-- Element `k` of `z` bytes of a tile, in the local memory of core `r`. -/
def elem (s : State) (r tile z k : Nat) : Nat := (s.dev.core r).lmem.nat (0x80000 + 4096 * tile + z * k) z

/-- The command `c` is the one in core `a`'s queue, in a slot, with nothing that holds it; the core's bytes are all PLAIN and no task of it is
ending. -/
structure AtHead (s : State) (c : MxCmd) : Prop where
  queue : (s.dev.core s.args.a).mxq = [c]
  running : c.faultPage = none ∧ (s.dev.core s.args.a).saving = false
  thread : c.slot < 16
  checks : s.args.c = 0
  plain : (s.dev.core s.args.a).stash = []
  sound : (s.dev.core s.args.a).badLmem = []
  tasks : ∀ t ∈ (s.dev.core s.args.a).tasks, t.ended = false
  memory : (s.dev.core s.args.a).lmem.wf = true

/-- The command has completed: the queue is empty, and its flags `g` are in its thread. No byte of memory, of another core or outside the
`n` bytes of local memory from `lo` on has changed. -/
def Completed (s t : State) (c : MxCmd) (g : FFlags) (lo n : Nat) : Prop :=
  (t.dev.core s.args.a).mxq = [] ∧ t.dev.mem = s.dev.mem
    ∧ t.dev.slot s.args.a c.slot = { s.dev.slot s.args.a c.slot with fflags := (s.dev.slot s.args.a c.slot).fflags ||| g }
    ∧ (∀ r, r ≠ s.args.a → t.dev.core r = s.dev.core r)
    ∧ ∀ a, (a < lo ∨ lo + n ≤ a) → (t.dev.core s.args.a).lmem.get a = (s.dev.core s.args.a).lmem.get a

end Sys2Proof.Claims

/-- R318, R321, R322: the sequencer zeroes, loads and stores tiles, in local memory and through the tile fetch unit, adds and scales them
element by element in every type, and a completed `mzero` or `mld` clears the failed mark of its tile. R233, R234, R313, R320: an `mma` of any
pair of formats with local operands combines element (i, j) of its tile with row i of A and column j of B, 64 bytes each, under their scales;
for INT8 that is the exact sum of the products, added and clamped to 32 bits. -/
def Obligations.MatrixExecution : Prop :=
  (
    ∀ (s : State) (c : MxCmd), AtHead s c →
      (∀ md, c.instr = .mzero md → Gives .matrixCommandExecute s fun t => Completed s t c 0 (0x80000 + 4096 * md.toNat) 4096
          ∧ aget? (t.dev.core s.args.a).tileFail md.toNat = none ∧ ∀ k < 1024, elem t s.args.a md.toNat 4 k = 0)
      ∧ (∀ md ra sa a, c.instr = .mld md ra sa → c.a = .loc a → Gives .matrixCommandExecute s fun t =>
          Completed s t c 0 (0x80000 + 4096 * md.toNat) 4096 ∧ aget? (t.dev.core s.args.a).tileFail md.toNat = none
          ∧ ∀ k < 4096, elem t s.args.a md.toNat 1 k = ((s.dev.core s.args.a).lmem.get (a + k)).toNat)
      ∧ (∀ md ra sa a, c.instr = .mst md ra sa → c.a = .loc a → a + 4096 ≤ 0x80000 → Gives .matrixCommandExecute s fun t =>
          Completed s t c 0 a 4096 ∧ ∀ k < 4096, ((t.dev.core s.args.a).lmem.get (a + k)).toNat = elem s s.args.a md.toNat 1 k)
      ∧ (∀ md ra, c.instr = .macc .i32 md ra → Gives .matrixCommandExecute s fun t =>
          ∃ g, Completed s t c g (0x80000 + 4096 * md.toNat) 4096 ∧ ∀ k < 1024,
            (BitVec.ofNat 32 (elem t s.args.a md.toNat 4 k)).toInt = max (-2 ^ 31) (min (2 ^ 31 - 1)
              ((BitVec.ofNat 32 (elem s s.args.a md.toNat 4 k)).toInt
                + (BitVec.ofNat 32 (elem s s.args.a (uv c.xval % 64) 4 k)).toInt)))
      ∧ (∀ ty md ra, c.instr = .macc ty md ra → ty ≠ .i32 → let z := if ty = .f64 then 8 else 4
          Gives .matrixCommandExecute s fun t => ∃ g, Completed s t c g (0x80000 + 4096 * md.toNat) (1024 * z) ∧ ∀ k < 1024,
            elem t s.args.a md.toNat z k = ((if ty = .f64 then fp64 else fp32).add .rne (elem s s.args.a md.toNat z k)
              (elem s s.args.a (uv c.xval % 64) z k)).1 % 256 ^ z)
      ∧ (∀ ty md ra, c.instr = .mscl ty md ra → ty ≠ .i32 → let z := if ty = .f64 then 8 else 4
          Gives .matrixCommandExecute s fun t => ∃ g, Completed s t c g (0x80000 + 4096 * md.toNat) (1024 * z) ∧ ∀ k < 1024,
            elem t s.args.a md.toNat z k = ((if ty = .f64 then fp64 else fp32).mul .rne (elem s s.args.a md.toNat z k)
              (uv c.xval % 256 ^ z)).1 % 256 ^ z)
      ∧ (∀ md ra sa g x d, c.instr = .mld md ra sa → c.a = .glob g → mxRead s.args.a c (.glob g) 4096 s.dev = .ok (x, d) → d.cores = s.dev.cores →
          Gives .matrixCommandExecute s fun t => (t.dev.core s.args.a).mxq = [] ∧ t.dev.mem = d.mem
            ∧ aget? (t.dev.core s.args.a).tileFail md.toNat = none ∧ ∀ k < 4096, elem t s.args.a md.toNat 1 k = x / 256 ^ k % 256)
      ∧ ∀ md ra sa g ps d d', c.instr = .mstg md ra sa → c.a = .glob g →
          engRange (s.args.a / 4) c.part { write := true, twinOk := true, twinOnly := true } g 4096 s.dev = .ok (ps, d) → d.cores = s.dev.cores →
          engWritePieces c.part ((s.dev.core s.args.a).lmem.nat (0x80000 + 4096 * md.toNat) 4096) ps d = .ok ((), d') →
          (d'.core s.args.a).mxq = [c] → (∀ y ∈ (d'.core s.args.a).tasks, y.ended = false) →
          Gives .matrixCommandExecute s fun t => (t.dev.core s.args.a).mxq = [] ∧ t.dev.mem = d'.mem
            ∧ (t.dev.core s.args.a).lmem = (d'.core s.args.a).lmem
  ) ∧
  (
    ∀ (s : State) (c : MxCmd) md ra rb sa sb a b, AtHead s c → c.instr = .mma md ra rb sa sb → c.a = .loc a → c.b = .loc b →
      (let ca := uv c.mfmt % 16
      let cb := uv c.mfmt / 16 % 16
      let acc := accOf ca cb (c.msca.getLsbD 63 || c.mscb.getLsbD 63)
      let row (at_ i code : Nat) : List FVal := rowVals code (uv c.mfmt / 2 ^ 16 % 8) (uv c.mosh % 16) ((s.dev.core s.args.a).lmem.nat (at_ + 64 * i) 64)
      let scale (msc : Word) (at_ i : Nat) : FVal :=
        if msc.getLsbD 63 then bf16.read ((s.dev.core s.args.a).lmem.nat (at_ + 2 * i) 2) else .fin false 1 0
      Gives .matrixCommandExecute s fun t => ∃ g, Completed s t c g (0x80000 + 4096 * md.toNat) (1024 * acc.z) ∧ ∀ i < 32, ∀ j < 32,
        elem t s.args.a md.toNat acc.z (32 * i + j) = (mmaElem acc (elem s s.args.a md.toNat acc.z (32 * i + j)) (row a i ca) (row b j cb)
          (scale c.msca c.scaleA i) (scale c.mscb c.scaleB j)).1 % 256 ^ acc.z)
      ∧ (uv c.mfmt % 256 = 0x66 → c.msca.getLsbD 63 = false → c.mscb.getLsbD 63 = false →
      let int8 (at_ : Nat) : Int := ((s.dev.core s.args.a).lmem.get at_).toInt
      Gives .matrixCommandExecute s fun t => ∃ g, Completed s t c g (0x80000 + 4096 * md.toNat) 4096 ∧ ∀ i < 32, ∀ j < 32,
        (BitVec.ofNat 32 (elem t s.args.a md.toNat 4 (32 * i + j))).toInt = max (-2 ^ 31) (min (2 ^ 31 - 1)
          ((BitVec.ofNat 32 (elem s s.args.a md.toNat 4 (32 * i + j))).toInt
            + ((List.range 64).map fun e => int8 (a + 64 * i + e) * int8 (b + 64 * j + e)).sum)))
  )

namespace Sys2Proof.Claims

/-- The thread, at home, has bound ladder `lx` to the descriptor `x`, in the binding `b` of its task `t` (R326-R328). -/
def Bound (s : State) (lx : BitVec 3) (t : Task) (b : Ladder) (x : LDesc) : Prop :=
  s.dev.task s.dev.cur.1 s.dev.cur.2 = some t ∧ s.dev.th.guest = false ∧ aget? s.dev.curCore.ladders lx.toNat = some b ∧ b.task = t.id
    ∧ s.dev.curCore.ldescAt b.off = x

/-- The tiles `ma` to `ma` + u - 1 of a rung, all in TILEMASK and owned by no ladder. -/
def RungTiles (s : State) (t : Task) (x : LDesc) (ma : TileNo) : Prop :=
  ∀ k < x.u, ma.toNat + k < 64 ∧ t.hasTile (ma.toNat + k) = true ∧ s.dev.curCore.tileOwner (ma.toNat + k) = none

end Sys2Proof.Claims

/-- R331, R335, R336, R327: in queue order `ladd` adds 1 to n and, with n even, puts its operand, tiles or the outer product of its vectors,
into rung 0; with n = 1 mod 4 it merges rung 0 into the operand, zeroes rung 0 and puts the sum into rung 1 (R237); with a ladder of one rung
that is occupied it fails with LADDER (R337). `lclr` zeroes the hot rungs and n and ends a failure; `lld` copies a hot rung into its tiles or
into local memory, and `lst` tiles or local bytes into a hot rung. Any command but `lclr` on a failed ladder completes without effect. -/
def Obligations.LadderExecution : Prop :=
  ∀ (s : State) (c : MxCmd) (lx : BitVec 3) b x, AtHead s c → aget? (s.dev.core s.args.a).ladders lx.toNat = some b →
    (s.dev.core s.args.a).ldescAt b.off = x → 0x80000 ≤ b.off → b.off + 32 ≤ 0xC0000 → x.base + x.u * x.hot ≤ 64 →
    (b.off + 32 ≤ 0x80000 + 4096 * x.base ∨ 0x80000 + 4096 * (x.base + x.u * x.hot) ≤ b.off) →
    let n (t : State) := (t.dev.core s.args.a).lmem.nat (b.off + 8) 8
    let ends (t : State) := (t.dev.core s.args.a).mxq = [] ∧ t.dev.mem = s.dev.mem ∧ ∀ r, r ≠ s.args.a → t.dev.core r = s.dev.core r
    (c.instr = .lclr lx → Gives .ladderCommandExecute s fun t => ends t ∧ n t = 0
        ∧ aget? (t.dev.core s.args.a).ladders lx.toNat = some { b with failed := none }
        ∧ ∀ k < x.u * x.hot, ∀ e < 1024, elem t s.args.a (x.base + k) 4 e = 0)
    ∧ (∀ ma, c.instr = .laddTile lx ma → b.failed = none → x.gen = false → x.n % 2 = 0 → 0 < x.rungs → 0 < x.hot →
        Gives .ladderCommandExecute s fun t => ends t ∧ n t = (x.n + 1) % 2 ^ 64
          ∧ ∀ k < x.u, ∀ e < 1024, elem t s.args.a (x.base + k) 4 e = elem s s.args.a (ma.toNat + k) 4 e)
    ∧ (∀ ma, c.instr = .laddTile lx ma → b.failed = none → x.gen = false → x.n % 4 = 1 → 1 < x.rungs → 1 < x.hot →
        Gives .ladderCommandExecute s fun t => ends t ∧ n t = (x.n + 1) % 2 ^ 64
          ∧ ∀ k < x.u, ∀ e < 1024, elem t s.args.a (x.base + k) 4 e = 0
            ∧ elem t s.args.a (x.base + x.u + k) 4 e = (fp32.fma .rne false 0x3F800000 (elem s s.args.a (x.base + k) 4 e)
              (elem s s.args.a (ma.toNat + k) 4 e)).1 % 2 ^ 32)
    ∧ (∀ va vb, c.instr = .laddOuter lx va vb → b.failed = none → x.gen = false → x.u = 1 → x.n % 2 = 0 → 0 < x.rungs → 0 < x.hot →
        c.vals.length = 64 → Gives .ladderCommandExecute s fun t => ends t ∧ n t = (x.n + 1) % 2 ^ 64
          ∧ ∀ i < 32, ∀ j < 32, elem t s.args.a x.base 4 (32 * i + j)
            = (fp32.mul .rne (uv (c.vals.getD i 0)) (uv (c.vals.getD (32 + j) 0))).1 % 2 ^ 32)
    ∧ (∀ ma, c.instr = .laddTile lx ma → b.failed = none → x.n % 2 = 1 → x.rungs = 1 → Gives .ladderCommandExecute s fun t => ends t
        ∧ (t.dev.core s.args.a).lmem = (s.dev.core s.args.a).lmem
        ∧ aget? (t.dev.core s.args.a).ladders lx.toNat = some { b with failed := some ⟨.ladder, 0⟩ })
    ∧ (∀ ma va vb xo xl e, c.instr ∈ [.laddTile lx ma, .laddOuter lx va vb, .lldTile lx ma xl, .lldLocal lx xo xl, .lstTile lx ma xl, .lstLocal lx xo xl] →
        b.failed = some e → Gives .ladderCommandExecute s fun t => ends t
        ∧ (t.dev.core s.args.a).lmem = (s.dev.core s.args.a).lmem ∧ (t.dev.core s.args.a).ladders = (s.dev.core s.args.a).ladders)
    ∧ (∀ xo xl a, c.instr = .lldLocal lx xo xl → b.failed = none → c.a = .loc a → a + 4096 * x.u ≤ 0x80000 → uv c.xval < x.hot →
        Gives .ladderCommandExecute s fun t => ends t ∧ n t = x.n ∧ ∀ k < 4096 * x.u, (t.dev.core s.args.a).lmem.get (a + k)
          = (s.dev.core s.args.a).lmem.get (0x80000 + 4096 * (x.base + x.u * uv c.xval) + k))
    ∧ (∀ xo xl a, c.instr = .lstLocal lx xo xl → b.failed = none → c.a = .loc a → a + 4096 * x.u ≤ 0x80000 → uv c.xval < x.hot →
        Gives .ladderCommandExecute s fun t => ends t ∧ n t = x.n ∧ ∀ k < 4096 * x.u,
          (t.dev.core s.args.a).lmem.get (0x80000 + 4096 * (x.base + x.u * uv c.xval) + k) = (s.dev.core s.args.a).lmem.get (a + k))
    ∧ (∀ ma xl, c.instr = .lldTile lx ma xl → b.failed = none → uv c.xval < x.hot → Gives .ladderCommandExecute s fun t =>
        ends t ∧ ∀ k < x.u, ∀ e < 1024, elem t s.args.a (ma.toNat + k) 4 e = elem s s.args.a (x.base + x.u * uv c.xval + k) 4 e)
    ∧ ∀ ma xl, c.instr = .lstTile lx ma xl → b.failed = none → uv c.xval < x.hot → Gives .ladderCommandExecute s fun t =>
        ends t ∧ n t = x.n
          ∧ ∀ k < x.u, ∀ e < 1024, elem t s.args.a (x.base + x.u * uv c.xval + k) 4 e = elem s s.args.a (ma.toNat + k) 4 e

/-- R326-R330, R335, R336: a ladder is bound and released by `lcfg`, and its commands enter the queue: a `ladd`, `lst` or `lclr` locks the
ladder, and the tile form of `lld` locks its tiles. A ladder that the task has not bound raises LADDER. R333, R237, R334: `lread` of a
ladder whose rungs are all hot writes its vectors of 16 columns each, blended over the occupied rungs in ascending order; with no rung occupied
every lane is 0. A failed ladder raises its cause; while a queued command locks the ladder, `lread` waits. R146: a guest gets PERM. -/
def Obligations.LadderInstructions : Prop :=
  (
    (∀ lx xo t s, Ready { rx := [xo] } s → s.dev.task s.dev.cur.1 s.dev.cur.2 = some t → s.dev.th.guest = false → s.dev.curCore.mxq = [] →
        (∀ b, aget? s.dev.curCore.ladders lx.toNat = some b → b.task = t.id) →
        let o := uv (s.dev.x xo)
        (o = 0 → Gives (.lcfg lx xo) s fun u => InSequence s u ∧ flowOf s.dev.th u.dev.th = s.dev.th
          ∧ { u.dev.curCore with slots := s.dev.curCore.slots, ladders := s.dev.curCore.ladders } = s.dev.curCore
          ∧ aget? u.dev.curCore.ladders lx.toNat = none
          ∧ ∀ k, k ≠ lx.toNat → aget? u.dev.curCore.ladders k = aget? s.dev.curCore.ladders k)
        ∧ (0x80000 ≤ o → o ≤ 0xBFFE0 → o % 32 = 0 → t.hasTile ((o - 0x80000) / 4096) = true → s.dev.lcfgOk t lx.toNat o = true →
          aget? s.dev.curCore.tileFail ((o - 0x80000) / 4096) = none → s.dev.curCore.badLmem = [] →
          Gives (.lcfg lx xo) s fun u => InSequence s u ∧ flowOf s.dev.th u.dev.th = s.dev.th
          ∧ { u.dev.curCore with slots := s.dev.curCore.slots, ladders := s.dev.curCore.ladders } = s.dev.curCore
          ∧ aget? u.dev.curCore.ladders lx.toNat
              = some ⟨t.id, o, (o - 0x80000) / 4096 :: (s.dev.curCore.ldescAt o).hotTiles, none⟩
          ∧ ∀ k, k ≠ lx.toNat → aget? u.dev.curCore.ladders k = aget? s.dev.curCore.ladders k))
      ∧ (∀ lx va vb t b x s, va.toNat % 2 = 0 → vb.toNat % 2 = 0 → Ready { rv := [va, va + 1, vb, vb + 1] } s → MayQueue s → Bound s lx t b x →
        x.u = 1 → Gives (.laddOuter lx va vb) s fun u => Queues s u (.laddOuter lx va vb) [] fun c => c.lx = some lx.toNat
          ∧ (∀ i < 32, c.vals.getD i 0 = BitVec.ofNat 64 (lane (s.dev.v (va + BitVec.ofNat 5 (i / 16))) 4 (i % 16)))
          ∧ ∀ i < 32, c.vals.getD (32 + i) 0 = BitVec.ofNat 64 (lane (s.dev.v (vb + BitVec.ofNat 5 (i / 16))) 4 (i % 16)))
      ∧ (∀ lx ma t b x s, Ready {} s → MayQueue s → Bound s lx t b x →
        (RungTiles s t x ma → Gives (.laddTile lx ma) s fun u => Queues s u (.laddTile lx ma) [] fun c => c.lx = some lx.toNat)
        ∧ Gives (.lclr lx) s fun u => Queues s u (.lclr lx) [] fun c => c.lx = some lx.toNat)
      ∧ (∀ lx ma xl t b x s, Ready { rx := [xl] } s → MayQueue s → Bound s lx t b x → RungTiles s t x ma → uv (s.dev.x xl) < x.rungs →
        Gives (.lldTile lx ma xl) s (fun u => Queues s u (.lldTile lx ma xl) ((List.range x.u).map (ma.toNat + ·)) fun c =>
          c.lx = none ∧ c.xval = s.dev.x xl)
        ∧ Gives (.lstTile lx ma xl) s fun u => Queues s u (.lstTile lx ma xl) [] fun c => c.lx = some lx.toNat ∧ c.xval = s.dev.x xl)
      ∧ (∀ lx xo xl t b x s, xo ≠ 0 → Ready { rx := [xl, xo] } s → MayQueue s → Bound s lx t b x → uv (s.dev.x xl) < x.rungs →
        uv (s.dev.x xo) % 128 = 0 → uv (s.dev.x xo) + 4096 * x.u ≤ 32768 * t.desc.scratch + 32768 * t.desc.stash →
        Gives (.lldLocal lx xo xl) s (fun u => Queues s u (.lldLocal lx xo xl) [] fun c =>
          c.lx = none ∧ c.xval = s.dev.x xl ∧ c.a = .loc (32768 * t.base + uv (s.dev.x xo)))
        ∧ Gives (.lstLocal lx xo xl) s fun u => Queues s u (.lstLocal lx xo xl) [] fun c =>
          c.lx = some lx.toNat ∧ c.xval = s.dev.x xl ∧ c.a = .loc (32768 * t.base + uv (s.dev.x xo)))
      ∧ (∀ lx ma s, Ready {} s → MayQueue s → s.dev.th.guest = false → aget? s.dev.curCore.ladders lx.toNat = none →
        Traps (.laddTile lx ma) s .ladder 0 ∧ Traps (.lclr lx) s .ladder 0)
      ∧ ∀ lx ma xl xo va vb s, Ready { rx := [xl, xo], rv := [va, va + 1, vb, vb + 1] } s → s.dev.th.guest = true →
        Traps (.lcfg lx xo) s .perm 0 ∧ (s.dev.curCore.mxq.length < 16 → Traps (.laddTile lx ma) s .perm 0 ∧ Traps (.lclr lx) s .perm 0
          ∧ Traps (.lldTile lx ma xl) s .perm 0 ∧ Traps (.lstTile lx ma xl) s .perm 0
          ∧ (xo ≠ 0 → Traps (.lldLocal lx xo xl) s .perm 0 ∧ Traps (.lstLocal lx xo xl) s .perm 0)
          ∧ (va.toNat % 2 = 0 → vb.toNat % 2 = 0 → Traps (.laddOuter lx va vb) s .perm 0))
  ) ∧
  (
    ∀ lx vd vq t b x s, Bound s lx t b x → Ready (lreadUse x.u vd vq) s →
      let c := if x.u = 1 then 2 else 4
      let m := if x.u = 4 then 4 else 2
      (s.dev.curCore.ladderLocked lx.toNat = true → Parks (.lread lx vd vq) s (.ladder lx.toNat))
      ∧ (∀ e, s.dev.curCore.ladderLocked lx.toNat = false → b.failed = some e → Traps (.lread lx vd vq) s e.cause e.gva)
      ∧ (s.dev.curCore.ladderLocked lx.toNat = false → b.failed = none → (vd.toNat % c ≠ 0 ∨ vq.toNat % m ≠ 0) → Traps (.lread lx vd vq) s .ladder 0)
      ∧ (s.dev.curCore.ladderLocked lx.toNat = false → b.failed = none → vd.toNat % c = 0 → vq.toNat % m = 0 → s.dev.th.acqPid = [] →
          x.rungs ≤ x.hot → x.woff + 128 ≤ 32768 * t.desc.scratch + 32768 * t.desc.stash → x.woff < 0x80000 →
          32768 * t.base + x.woff + 128 ≤ 0x80000 → s.dev.curCore.stash = [] → s.dev.curCore.badLmem = [] → s.dev.curCore.tileFail = [] →
        Gives (.lread lx vd vq) s fun u => InSequence s u ∧ ThreadOnly s u ∧ u.dev.th.x = s.dev.th.x ∧ u.dev.th.p = s.dev.th.p
          ∧ (∀ r, (∀ i < c, r ≠ vd + BitVec.ofNat 5 i) → u.dev.v r = s.dev.v r)
          ∧ let w := (List.range 32).map fun i => s.dev.curCore.lmem.nat (32768 * t.base + x.woff) 128 / 2 ^ (32 * i) % 2 ^ 32
            let q := (List.range (16 * m)).map fun i => lane (s.dev.v (vq + BitVec.ofNat 5 (i / 16))) 4 (i % 16)
            let rungs := ((List.range x.rungs).filter x.occupied).map fun l =>
              (l, rungWords (s.dev.curCore.lmem.nat (0x80000 + 4096 * (x.base + x.u * l)) (4096 * x.u)) (1024 * x.u))
            ∀ k < c, ∀ i < 16, lane (u.dev.v (vd + BitVec.ofNat 5 k)) 4 i = (blendColumn q w rungs (16 * k + i)).1 % 2 ^ 32)
  )

/-! ### Copies and KV gathers (R138-R141, R338-R344, R355-R357) -/

namespace Sys2Proof.Claims

/-- One side of a copy request: a global range of a segment, or a range of the task's scratch and stash (R338, R340). -/
def CopySide (s : State) (glob : Bool) (sg : SegNo) (off n : Nat) (need : SegNeed) (l : Loc) : Prop :=
  if glob then s.dev.th.badS.contains sg.toNat = false ∧ ∃ g, segCheck (s.dev.th.seg sg) (BitVec.ofNat 64 off) n need = .ok g ∧ l = .glob g else s.dev.copyLocal off n = .ok l

/-- An engine of quad `q` finds the page of a GVA in the TLB of its quad: entry `e` permits the access, which meets this module's byte `pa`. -/
def EngineMeets (d : Dev) (q part : Nat) (acc : Access) (gva : Nat) (e : TlbEntry) (pa : Nat) : Prop :=
  (d.quad q).tlb.find? (·.covers part (gva / 65536)) = some e ∧ leafServes e.large (e.member acc) acc = true
    ∧ pageCheck (d.part part).cfg (e.member acc) e.large e.twin acc gva = none ∧ leafRemote (e.member acc) = false
    ∧ leafAddr e.large (e.member acc) gva = pa

/-- Channel `b` of core `a` runs the copy `u`, which is not at its end, and nothing holds it: every local byte that it moves is plain. -/
def Copying (s : State) (u : CopyRun) : Prop :=
  (s.dev.core s.args.a).saving = false ∧ aget? (s.dev.core s.args.a).chan s.args.b = some u ∧ u.req.ch = s.args.b ∧ s.args.b < 4
    ∧ u.req.kv = false ∧ u.faultPage = none ∧ u.done < u.req.len ∧ u.req.slot < 16 ∧ (s.dev.core s.args.a).stash = []
    ∧ (s.dev.core s.args.a).badLmem = [] ∧ (∀ t ∈ (s.dev.core s.args.a).tasks, t.ended = false) ∧ (s.dev.core s.args.a).lmem.wf = true

/-- The request `q` stands last in the copy FIFO of the core, and X[rd] = 0; nothing else changes. -/
def EntersFifo (s t : State) (rd : RegNo) (q : CopyReq) : Prop :=
  InSequence s t ∧ TakesX s t rd 0 ∧ t.dev.curCore.fifo = s.dev.curCore.fifo ++ [q] ∧ { t.dev with cores := s.dev.cores } = s.dev
    ∧ { t.dev.curCore with slots := s.dev.curCore.slots, fifo := s.dev.curCore.fifo } = s.dev.curCore
    ∧ ∀ r, r ≠ s.dev.cur.1 → t.dev.core r = s.dev.core r

/-- `cpq` and `cpqn`. -/
def CopyQueueResult (i : RegNo → RegNo → Instr) : Prop :=
  ∀ rd vb s, Ready { wx := [rd], rv := [vb] } s → s.dev.curCore.fifo.length < 8 →
    let f := copyFields (s.dev.v vb)
    (f.invalid s.dev.tpart.cfg.hlen = true → Gives (i rd vb) s fun t => WritesX s t rd (rejected 0x0002) ∧ InSequence s t)
    ∧ ∀ src dst, f.invalid s.dev.tpart.cfg.hlen = false →
        CopySide s f.srcGlobal f.ssg f.src f.len { r := true, l0 := true } src →
        CopySide s f.dstGlobal f.dsg f.dst f.len { w := true, l0 := true } dst →
        (s.dev.th.guest = true → Traps (i rd vb) s .perm 0)
        ∧ (s.dev.th.guest = false → s.dev.th.acqPid = [] → s.dev.th.relMark = none → Gives (i rd vb) s fun t => EntersFifo s t rd
          ⟨s.dev.cur.2, s.dev.taskId, s.dev.th.part, f.ch, src, dst, f.len, f.cmode, f.param, f.xid, [], false, 0⟩)

end Sys2Proof.Claims

/-- R341, R342, R139: an idle channel starts its first request; a running one moves 128 bytes a step, between local bytes, from a global source, or
to the back copy of a global destination in a twin region (R161, R162), advances CPWP for a local destination, and after the last byte its channel is
idle, with the mailbox increment or the interrupt that it asked for. R141, R343: at its boundary a user thread at
home enters the handler of its oldest copy interrupt as a COPY upcall, and takes the oldest failed request as a trap. -/
def Obligations.CopyStepsAndInterrupts : Prop :=
  (
    (∀ (s : State) q, (s.dev.core s.args.a).saving = false → aget? (s.dev.core s.args.a).chan s.args.b = none →
        (s.dev.core s.args.a).fifo = [q] → q.ch = s.args.b →
        (q.kv = false → Gives .copyStep s fun t => (t.dev.core s.args.a).fifo = []
          ∧ aget? (t.dev.core s.args.a).chan s.args.b = some ⟨q, 0, [], [], none⟩ ∧ t.dev.mem = s.dev.mem)
        ∧ (q.kv = true → Gives .kvgathExecute s fun t => (t.dev.core s.args.a).fifo = []
          ∧ aget? (t.dev.core s.args.a).chan s.args.b = some ⟨q, 0, [], [], none⟩ ∧ t.dev.mem = s.dev.mem))
      ∧ (∀ (s : State) u g a rest, (s.dev.core s.args.a).saving = false → aget? (s.dev.core s.args.a).chan s.args.b = some u →
        u.req.kv = true → u.req.len = 0 → u.req.ch = s.args.b → u.req.lanes = (g, a) :: rest → Gives .kvgathExecute s fun t =>
          aget? (t.dev.core s.args.a).chan s.args.b
              = some ⟨{ u.req with src := .glob g, dst := .loc a, len := u.req.lane, lanes := rest }, 0, [], [], none⟩
            ∧ t.dev.mem = s.dev.mem ∧ (t.dev.core s.args.a).lmem = (s.dev.core s.args.a).lmem)
      ∧ (∀ (s : State) u g y e pa, Copying s u → u.req.src = .glob g → u.req.dst = .loc y → u.got = [] →
        let n := min 128 (u.req.len - u.done)
        (g + u.done) % 65536 + n ≤ 65536 →
        EngineMeets s.dev (s.args.a / 4) u.req.part { read := true, twinOk := true, remoteOk := Config.copyRemote } (g + u.done) e pa → AtHomes s.dev →
        s.dev.rangeLost pa n = false → s.dev.rangeHeld pa n = none → Gives .copyStep s fun t => t.dev.mem = s.dev.mem
          ∧ (∀ k < n, (t.dev.core s.args.a).lmem.get (y + u.done + k) = s.dev.mem.get (pa + k))
          ∧ (∀ b, (b < y + u.done ∨ y + u.done + n ≤ b) → (t.dev.core s.args.a).lmem.get b = (s.dev.core s.args.a).lmem.get b)
          ∧ vget (t.dev.core s.args.a).cpwp s.args.b 0 = BitVec.ofNat 64 (y - s.dev.copyOrigin s.args.a u.req + (u.done + n))
          ∧ (u.done + n < u.req.len → aget? (t.dev.core s.args.a).chan s.args.b = some { u with done := u.done + n, got := [] })
          ∧ (u.req.len ≤ u.done + n → aget? (t.dev.core s.args.a).chan s.args.b = none))
      ∧ (∀ (s : State) u x g e pa, Copying s u → u.req.src = .loc x → u.req.dst = .glob g → u.backs = [] →
        let n := min 128 (u.req.len - u.done)
        (g + u.done) % 65536 + n ≤ 65536 → e.twin = true →
        EngineMeets s.dev (s.args.a / 4) u.req.part { write := true, twinOk := true, twinOnly := true } (g + u.done) e pa → AtHomes s.dev →
        s.dev.rangeLost pa n = false → s.dev.rangeHeld pa n = none → Gives .copyStep s fun t =>
          (∀ k < n, t.dev.mem.get (pa + k) = (s.dev.core s.args.a).lmem.get (x + u.done + k))
          ∧ (∀ b, (b < pa ∨ pa + n ≤ b) → t.dev.mem.get b = s.dev.mem.get b)
          ∧ (t.dev.core s.args.a).lmem = (s.dev.core s.args.a).lmem ∧ (t.dev.core s.args.a).cpwp = (s.dev.core s.args.a).cpwp
          ∧ (u.done + n < u.req.len → aget? (t.dev.core s.args.a).chan s.args.b = some { u with
              done := u.done + n, got := []
              backs := [BackChoice.mk (pageAt (g + u.done) e.large) (if e.front = true then 0 else 1) s.dev.accSeq].filter fun b =>
                b.page == pageAt (g + u.done + n) b.page.large })
          ∧ (u.req.len ≤ u.done + n → aget? (t.dev.core s.args.a).chan s.args.b = none))
      ∧ ∀ (s : State) u x y, Copying s u → u.req.src = .loc x → u.req.dst = .loc y →
        let n := min 128 (u.req.len - u.done)
        Gives .copyStep s fun t => t.dev.mem = s.dev.mem
          ∧ (∀ k < n, (t.dev.core s.args.a).lmem.get (y + u.done + k) = (s.dev.core s.args.a).lmem.get (x + u.done + k))
          ∧ (∀ b, (b < y + u.done ∨ y + u.done + n ≤ b) → (t.dev.core s.args.a).lmem.get b = (s.dev.core s.args.a).lmem.get b)
          ∧ vget (t.dev.core s.args.a).cpwp s.args.b 0 = BitVec.ofNat 64 (y - s.dev.copyOrigin s.args.a u.req + (u.done + n))
          ∧ (u.done + n < u.req.len → aget? (t.dev.core s.args.a).chan s.args.b = some { u with done := u.done + n, got := [] })
          ∧ (u.req.len ≤ u.done + n → aget? (t.dev.core s.args.a).chan s.args.b = none
            ∧ (u.req.cmode = 0 → t.dev.net = s.dev.net)
            ∧ (u.req.cmode = 1 → t.dev.net = aset s.dev.net s.dev.netSeq ⟨.incr u.req.part (uv u.req.param % 4096)
                (uv u.req.param / 4096 % 64) (u.req.param.extractLsb' 18 32) (s.args.a, (s.dev.core s.args.a).tagSeq.toNat), [], none⟩)
            ∧ (u.req.cmode = 2 → (t.dev.slot s.args.a u.req.slot).copyIrqs
                = (s.dev.slot s.args.a u.req.slot).copyIrqs ++ [(u.req.param, u.req.xid.setWidth 64)]))
  ) ∧
  (
    ∀ (s : State) (a : Slot), s.dev.slot s.args.a s.args.b = a → s.args.b < 16 → a.occ = true → a.away = false → a.guest = false → a.wait = Wait.none →
      a.pend = [] → a.deferred = [] → a.badC = [] →
      (∀ h x rest, a.uact = false → a.mode = false → a.copyFaults = [] → a.copyIrqs = (h, x) :: rest →
        Gives .copyInterruptEntry s fun t => SameBytes s t s.args.a s.args.b
          ∧ t.dev.slot s.args.a s.args.b = { a with
              pc := h, arrive := some 0, uepc := a.pc, ucause := 0x21, uaddr := 0, uixid := x, uact := true, copyIrqs := rest, windows := a.windows.filter (fun w => decide (0 < w.left)), opMark := none, turns := [], fresh := none })
      ∧ ∀ c v rest, a.copyHold = false → a.copyFaults = ⟨c, v⟩ :: rest →
        Gives .copyFaultTrap s fun t => SameBytes s t s.args.a s.args.b
          ∧ t.dev.slot s.args.a s.args.b = { a with
              pc := returnTarget (s.dev.core s.args.a).tvec, arrive := none, sepc := a.pc, scause := c.code, saddr := v, mode := true, copyFaults := rest, windows := a.windows.filter (fun w => decide (0 < w.left)), opMark := none, turns := [], fresh := none, trapPid := a.nextPid + 1, nextPid := a.nextPid + 1 }
  )

/-- R338, R340, R344, R357: a copy request enters the FIFO, or is rejected with INVALID_FIELD; with the FIFO full `cpq` and `kvgath` park,
and `cpqn` returns BUSY. R146: a guest gets PERM. `cpcancel` takes the task's requests off a channel and counts them. R356, R183: `kvlook` reads the table at once
and leaves the GVA that it finds outstanding; a table that is not 128-byte aligned raises MISALIGN. -/
def Obligations.CopyAndKvInstructions : Prop :=
  (
    CopyQueueResult .cpq ∧ CopyQueueResult .cpqn
      ∧ (∀ rd vb s, Ready { wx := [rd], rv := [vb] } s → 8 ≤ s.dev.curCore.fifo.length →
          Parks (.cpq rd vb) s .copyFifo ∧ Gives (.cpqn rd vb) s fun t => WritesX s t rd (rejected 0x000C) ∧ InSequence s t)
      ∧ (∀ rd ra s, Ready { rx := [ra], wx := [rd] } s →
          (4 ≤ uv (s.dev.x ra) → Gives (.cpcancel rd ra) s fun t => WritesX s t rd (rejected 0x0002) ∧ InSequence s t)
          ∧ (uv (s.dev.x ra) < 4 → s.dev.th.relMark = none →
            let hit (q : CopyReq) : Bool := !s.dev.th.guest && q.ch == uv (s.dev.x ra) && q.task == s.dev.taskId
            let runs := (aget? s.dev.curCore.chan (uv (s.dev.x ra))).any fun u => hit u.req
            Gives (.cpcancel rd ra) s fun t => InSequence s t
              ∧ TakesX s t rd (word ((s.dev.curCore.fifo.countP hit + if runs then 1 else 0 : Nat)))
              ∧ t.dev.curCore.fifo = s.dev.curCore.fifo.filter (fun q => !hit q)
              ∧ (runs = true → aget? t.dev.curCore.chan (uv (s.dev.x ra)) = none)
              ∧ { t.dev with cores := s.dev.cores, remote := s.dev.remote, homeQ := s.dev.homeQ } = s.dev
              ∧ (runs = false → t.dev.remote = s.dev.remote ∧ t.dev.homeQ = s.dev.homeQ)))
      ∧ ∀ rd ra vb s, Ready { rx := [ra], wx := [rd], rv := [vb] } s →
          (8 ≤ s.dev.curCore.fifo.length → Parks (.kvgath rd ra vb) s .copyFifo)
          ∧ (s.dev.curCore.fifo.length < 8 →
            let a := uv (s.dev.x ra)
            let lb := (a / 2 ^ 12 % 512 + 1) * 128
            let off := a / 2 ^ 21 % 512 * 128
            let l (k : Nat) := (s.dev.v vb).toNat / 2 ^ (64 * k) % 2 ^ 64
            let Fits : Prop := a < 2 ^ 51 ∧ off + lb ≤ 65536 ∧ (∀ k < 8, l k / 2 ^ 48 % 2 ^ 15 = 0 ∧ l k % 2 ^ 16 = 0)
              ∧ (a / 2 ^ 30 % 2 = 1 → a / 2 ^ 31 % 4096 < s.dev.tpart.cfg.hlen)
            (¬Fits → Gives (.kvgath rd ra vb) s fun t => WritesX s t rd (rejected 0x0002) ∧ InSequence s t)
            ∧ ∀ at_, Fits → s.dev.copyLocal (a % 4096 * 128) (8 * lb) = .ok (.loc at_) →
            (s.dev.th.guest = true → Traps (.kvgath rd ra vb) s .perm 0)
            ∧ (s.dev.th.guest = false → s.dev.th.acqPid = [] → s.dev.th.relMark = none → Gives (.kvgath rd ra vb) s fun t => ∃ q, EntersFifo s t rd q ∧ q.kv = true ∧ q.slot = s.dev.cur.2 ∧ q.ch = a / 2 ^ 49 % 4
              ∧ q.lane = lb ∧ q.cmode = a / 2 ^ 30 % 2
              ∧ q.lanes = ((List.range 8).filter fun k => l k / 2 ^ 63 == 1).map fun k => (l k / 2 ^ 16 % 2 ^ 32 * 65536 + off, at_ + k * lb)))
  ) ∧
  (
    ∀ rd ra rb la tab s, Ready { rx := [ra, rb], wx := [rd], rs := [1] } s →
      segCheck (s.dev.th.seg 1) (s.dev.x ra) 64 { r := true, l0 := true } = .ok tab →
      (tab % 128 ≠ 0 → Traps (.kvlook rd ra rb la) s .misalign (BitVec.ofNat 64 tab))
      ∧ ∀ v d, tab % 128 = 0 → s.dev.th.acqPid = [] → kvLookup (uv (s.dev.x rb)) s.dev tab none 5 = .ok (⟨v, none⟩, d) →
          d.cur = s.dev.cur → d.th = s.dev.th → Gives (.kvlook rd ra rb la) s fun t =>
            InSequence s t ∧ AddsPending s t (.zext rd 8) (leBytes 8 v) 0 la ∧ t.dev.mem = d.mem
  )

/-! ### Tile sweeps (R345-R353) -/

/-- R349, R351, R353: `sweep` starts a sweep for a worker group and returns its id; `twait` claims the tile that was delivered first, waits
for one, or returns -1 after the end of the sweep, or raises the cause of a failed one; `tdone` completes the claimed tile; `swstat` counts,
and `swcancel` ends a live sweep. R146: a guest gets PERM from each of them; a `sweep` of a group that has a live one, or beyond 1,024, gets BUSY.
R350: a mangle reads a pending tile of a live sweep and delivers it to the nearest free buffer of its workers. A sweep of a merged stream
that more than 64 tiles have passed splits off. Which free id a sweep gets is the model's choice: the lowest one (log entry 4); that the model
keeps an id as long as its sweep still has accesses to make is its choice too (log entry 15). -/
def Obligations.Sweeps : Prop :=
  (
    (∀ rd ra o t e y k s, Ready { rx := [ra], wx := [rd] } s → s.dev.th.guest = false → s.dev.task s.dev.cur.1 s.dev.cur.2 = some t →
        uv (s.dev.x ra) = o → t.desc.scratch * 32768 ≤ o → o + 64 ≤ t.desc.scratch * 32768 + t.desc.stash * 32768 → o % 64 = 0 →
        aget? s.dev.curCore.stash ((t.base * 32768 + o) / 128) = some e → s.dev.stashTrans o (t.base * 32768 + o) 64 false = .ok () →
        s.dev.stashReady (t.base * 32768 + o) 64 = .ok () → s.dev.curCore.badLmem = [] →
        let x := BitVec.ofNat 512 (s.dev.curCore.lmem.nat (t.base * 32768 + o) 64)
        let g := if swWorkers x = 0 then t.group else swWorkers x
        (aget? s.dev.tpart.groups g = none → Gives (.sweep rd ra) s fun u => WritesX s u rd (rejected 0x0002) ∧ InSequence s u)
        ∧ (aget? s.dev.tpart.groups g = some y → swBad x ((y.desc.scratch + y.desc.stash) * 32768) = true →
            Traps (.sweep rd ra) s .sweep (BitVec.ofNat 64 (e.gva + o % 128)))
        ∧ (aget? s.dev.tpart.groups g = some y → swBad x ((y.desc.scratch + y.desc.stash) * 32768) = false → Released s .pkg →
            ((y.sweep = 1 ∧ (s.dev.sweepAt t.part y.sweepId).any (·.st == .live) = true) ∨ 1024 ≤ s.dev.liveSweeps) →
            Gives (.sweep rd ra) s fun u => WritesX s u rd (rejected 0x000C) ∧ InSequence s u)
        ∧ (aget? s.dev.tpart.groups g = some y → swBad x ((y.desc.scratch + y.desc.stash) * 32768) = false → Released s .pkg → y.sweep = 0 →
            s.dev.liveSweeps < 1024 → t.part = s.dev.th.part → y.id = g →
            (List.range 65535).find? (fun j => (s.dev.tpart.sweepNamed (j + 1)).isNone && (aget? s.dev.tpart.sweeps (j + 1)).all (·.settled))
              = some k →
            Gives (.sweep rd ra) s fun u => TakesX s u rd (word (k + 1)) ∧ InSequence s u
              ∧ (∃ z, aget? (u.dev.part t.part).groups g = some z ∧ z.sweepId = k + 1 ∧ z.sweep ≠ 0)
              ∧ ∃ w, u.dev.sweepAt t.part (k + 1) = some w ∧ w.group = g ∧ w.desc = x))
      ∧ (∀ rd ra la s, Ready { rx := [ra], wx := [rd], rcr := [0x0B, 0x0C] } s → s.dev.th.guest = true →
        Traps (.sweep rd ra) s .perm 0 ∧ Traps (.twait rd la) s .perm 0 ∧ Traps (.tdone rd) s .perm 0 ∧ Traps (.swstat rd ra) s .perm 0
          ∧ Traps (.swcancel rd ra) s .perm 0)
      ∧ (∀ rd la s, Ready { wx := [rd], rcr := [0x0B, 0x0C] } s → s.dev.th.guest = false → s.dev.th.claimed ≠ none → Traps (.twait rd la) s .sweep 0)
      ∧ (∀ rd la t e s, Ready { wx := [rd], rcr := [0x0B, 0x0C] } s → s.dev.th.guest = false → s.dev.th.claimed = none → s.dev.th.heldBuf = none →
        s.dev.task s.dev.cur.1 s.dev.cur.2 = some t → s.dev.sweepFailure t.part t.group = some e → Traps (.twait rd la) s e.cause e.gva)
      ∧ (∀ rd la t s, Ready { wx := [rd], rcr := [0x0B, 0x0C] } s → s.dev.th.guest = false → s.dev.th.claimed = none → s.dev.th.heldBuf = none →
        s.dev.task s.dev.cur.1 s.dev.cur.2 = some t → s.dev.sweepFailure t.part t.group = none → s.dev.th.acqPid = [] →
        (∀ b w, t.firstDelivered = some b → s.dev.sweepAt t.part b.sid = some w → w.part = t.part → w.id = b.sid →
          Gives (.twait rd la) s fun u => InSequence s u ∧ u.dev.th.claimed = some (b.sid, b.lin, b.buf)
            ∧ u.dev.th.pend = s.dev.th.pend ++ [⟨s.dev.th.nextPid, .twait rd b.buf b.lin, leBytes 8 (tileCoords w.desc b.lin), 0, none⟩]
            ∧ { flowOf s.dev.th u.dev.th with
                pend := s.dev.th.pend, nextPid := s.dev.th.nextPid, claimed := s.dev.th.claimed } = s.dev.th
            ∧ u.dev.sweepAt t.part b.sid = some { w with tiles := aset w.tiles b.lin (.claimed s.dev.cur.1 s.dev.cur.2) }
            ∧ u.dev.mem = s.dev.mem)
        ∧ (t.firstDelivered = none → (aget? (s.dev.part t.part).groups t.group).any (·.sweep == 2) = false → Parks (.twait rd la) s .twait)
        ∧ (t.firstDelivered = none → (aget? (s.dev.part t.part).groups t.group).any (·.sweep == 2) = true →
          Gives (.twait rd la) s fun u => InSequence s u
            ∧ AddsPending s u (.twait rd (uv s.dev.th.swbuf) (uv s.dev.th.swlin)) (List.replicate 8 255) 0 la))
      ∧ (∀ rd s, Ready { wx := [rd] } s → s.dev.th.guest = false → s.dev.th.heldBuf = none →
        (s.dev.th.claimed = none → Gives (.tdone rd) s fun u => WritesX s u rd 0 ∧ InSequence s u)
        ∧ ∀ sid lin buf w, s.dev.th.claimed = some (sid, lin, buf) → Released s .pkg → s.dev.sweepAt s.dev.th.part sid = some w →
          w.part = s.dev.th.part → w.id = sid → w.ready = true →
          Gives (.tdone rd) s fun u => InSequence s u ∧ u.dev.th.claimed = none
            ∧ (∀ r, u.dev.x r = if r = 0 then 0 else if r = rd then 1 else s.dev.x r)
            ∧ ∃ v, u.dev.sweepAt s.dev.th.part sid = some v ∧ aget? v.tiles lin = some .done)
      ∧ ∀ rd ra s, Ready { rx := [ra], wx := [rd] } s → s.dev.th.guest = false →
        (s.dev.sweepNamed (s.dev.x ra) = none →
          Gives (.swstat rd ra) s (fun u => WritesX s u rd (rejected 0x0002) ∧ InSequence s u)
          ∧ Gives (.swcancel rd ra) s fun u => WritesX s u rd (rejected 0x0002) ∧ InSequence s u)
        ∧ ∀ w, s.dev.sweepNamed (s.dev.x ra) = some w →
          Gives (.swstat rd ra) s (fun u => InSequence s u ∧ WritesX s u rd (BitVec.ofNat 64 ((match w.st with
              | .live => if w.allDone = true then 1 else if (s.dev.part w.part).st = .descheduled then 4 else 0
              | .complete => 1
              | .cancelled => 2
              | .failed => 3) * 2 ^ 50 + w.countDelivered * 2 ^ 25 + w.countDone)))
          ∧ (w.st ≠ .live ∨ w.allDone = true → Gives (.swcancel rd ra) s fun u => WritesX s u rd 0 ∧ InSequence s u)
          ∧ (w.st = .live → w.allDone = false → s.dev.sweepAt w.part w.id = some w → Gives (.swcancel rd ra) s fun u => TakesX s u rd 1 ∧ InSequence s u
            ∧ ∃ v, u.dev.sweepAt w.part w.id = some v ∧ v.st = .cancelled)
  ) ∧
  (
    (∀ (s : State) w tr d1 x d2 r tid i b d3, s.dev.sweepAt s.args.a s.args.b = some w → w.part = s.args.a → w.id = s.args.b →
        w.st = .live → w.ready = true → w.recWait = false → w.recQ = [] → w.countDone ≠ w.total → w.solo = true →
        (s.dev.part s.args.a).st = .resident → w.pending s.args.c = true → w.held = [] →
        engTrans w.quad w.part { read := true, twinOk := true } (swFirstElem w.desc s.args.c) s.dev = .ok (tr, d1) →
        d1.overdue (d1.mangleOf w.part tr) = none → (d1.workerBufs w).isEmpty = false →
        tileRead w (swRows w.desc s.args.c) d1 = .ok (x, d2) →
        d2.nearestBuf w (homeSlice tr.leaf tr.pa) = some (r, tid, i, b) →
        engLocalWrite r (((((d2.core r).tasks.find? (·.id == tid)).map (·.origin)).getD 0) + swBuf w.desc + b * swBufBytes w.desc)
          (swBytes w.desc) x ((((d2.core r).tasks.find? (·.id == tid)).map (·.origin)).getD 0) d2 = .ok ((), d3) →
        d3.sweepAt s.args.a s.args.b = some w →
        Gives .tileDelivery s fun t => ∃ v, t.dev.sweepAt s.args.a s.args.b = some v ∧ aget? v.tiles s.args.c = some (.delivered r tid b))
      ∧ ∀ (s : State) w, s.dev.sweepAt s.args.a s.args.b = some w → w.part = s.args.a → w.id = s.args.b →
        (w.st = .live → w.solo = false → 64 < w.passed → Gives .sweepSplit s fun t =>
          t.dev.sweepAt s.args.a s.args.b = some { w with solo := true } ∧ t.dev.mem = s.dev.mem ∧ t.dev.cores = s.dev.cores)
  )

/-! ### The host interface (R60-R73, R83-R85) -/

namespace Sys2Proof.Claims

/-- Only the registers of the functions and what the host sees of them may differ: not memory, not a command in execution, not the device. -/
structure FunctionsOnly (s t : State) : Prop where
  boot : t.boot = s.boot
  dev : t.dev = s.dev
  args : t.args = s.args
  schedule : t.schedule = s.schedule
  memory : t.host.hostMem = s.host.hostMem
  commands : t.host.cmds = s.host.cmds ∧ t.host.nextCmd = s.host.nextCmd

/-- Of the functions only `f` may differ. -/
def OtherFns (s t : State) (f : Nat) : Prop := ∀ g, g ≠ f → t.fn g = s.fn g

/-- Function `f` becomes `x`, and nothing else of the machine changes. -/
def FnBecomes (s t : State) (f : Nat) (x : Fn) : Prop :=
  FunctionsOnly s t ∧ OtherFns s t f ∧ t.fn f = x ∧ t.host.msis = s.host.msis

/-- Queue `q` of function `f` becomes `y`, and nothing else of the machine changes. -/
def QueueBecomes (s t : State) (f q : Nat) (y : Queue) : Prop :=
  FunctionsOnly s t ∧ OtherFns s t f ∧ t.queue f q = y ∧ (∀ r, r ≠ q → t.queue f r = s.queue f r)
    ∧ { t.fn f with queues := (s.fn f).queues } = s.fn f ∧ t.host.msis = s.host.msis

/-- Where queue `q` of function `f` writes its next completion record (R64, R72). -/
def cqSlot (y : Queue) : Nat := uv y.cqbase / 4096 * 4096 + 16 * y.cqtail

/-- Queue `q` of function `f` can take a record at once: the function is active, its completion queue is enabled, has room and holds no
record back, and the host answers. -/
structure CanReport (s : State) (f q : Nat) : Prop where
  active : s.active f = true
  enabled : (s.queue f q).cqen = true
  room : (s.queue f q).full = false
  none : (s.queue f q).heldRecs = []
  reach : s.iommuFault (cqSlot (s.queue f q)) 16 = false
  memory : s.host.hostMem.wf = true

/-- Command `cid` of queue `q` of function `f` completes (R72, R73): beside the effect of the command, which `u` has, `t` holds its record in
the completion queue, with the phase and SQHEAD of the queue, and the queue's vector is sent when it reports and 1,250 cycles have passed
since the last one (R67). With NOCQE a SUCCESS leaves no record. -/
def ReportsFor (u t : State) (f q cid : Nat) (nocqe : Bool) (status info : Nat) : Prop :=
  let y := u.queue f q
  let due := (y.unsent || y.ien) && !y.interval
  if nocqe = true ∧ status = 0 then t = u
  else
    t.boot = u.boot ∧ t.dev = u.dev ∧ t.args = u.args ∧ t.schedule = u.schedule ∧ t.host.cmds = u.host.cmds ∧ OtherFns u t f
    ∧ t.host.hostMem.nat (cqSlot y) 16 = cid % 65536 + y.sqhead % 65536 * 2 ^ 16 + status * 2 ^ 32
        + (if y.phase then 2 ^ 48 else 0) + q % 16 * 2 ^ 60 + info * 2 ^ 64
    ∧ (∀ a, (a < cqSlot y ∨ cqSlot y + 16 ≤ a) → t.host.hostMem.get a = u.host.hostMem.get a)
    ∧ t.queue f q = { y with
        cqtail := (y.cqtail + 1) % y.size, phase := if (y.cqtail + 1) % y.size = 0 then !y.phase else y.phase
        unsent := (y.unsent || y.ien) && y.interval, interval := y.interval || due }
    ∧ (∀ r, r ≠ q → t.queue f r = u.queue f r)
    ∧ { t.fn f with queues := (u.fn f).queues, pba := (u.fn f).pba } = u.fn f
    ∧ ∀ e, aget? (u.fn f).msix y.vec = some e →
        t.host.msis = (if due ∧ e.getLsbD 96 = false then (f, y.vec) :: u.host.msis else u.host.msis)
        ∧ (t.fn f).pba = if due ∧ e.getLsbD 96 = true then (u.fn f).pba ||| 2 ^ y.vec else (u.fn f).pba

/-- The command identifier of a command (R69). -/
def cidOf (x : BitVec 512) : Nat := (x.extractLsb' 16 16).toNat

/-- The command at hand completes. -/
def Reports (u t : State) (status info : Nat) : Prop :=
  ReportsFor u t u.args.a u.args.b (cidOf u.args.cmd) (u.args.cmd.getLsbD 9) status info

end Sys2Proof.Claims

/-- R65, R66, R67: the doorbells take a value below the queue's size, and any other sets DBERR; while a queue is enabled its size stays,
with QERR for a change, and disabling the completion queue discards the held records. In recovery no queue register responds (R45). R83,
R65, R61, R49, R67: VFCTL sets EN, and a binding that waits takes effect when EN goes from 0 to 1; a base register of an enabled queue
stays, with QERR; QERR and DBERR are cleared by a 1; LLCREB takes 1 to 1,000; and a deferred vector is sent after its interval. That QERR is set only for a size that differs is log entry 25; that the held records are dropped at
CQEN = 0, and that a CQHEAD of the size or more sets DBERR, log entry 55; that bit 96 of an MSI-X entry is its mask bit, log entry 7. -/
def Obligations.QueueAndFunctionRegisters : Prop :=
  (
    ∀ s : State,
      let f := s.args.a
      let q := s.args.b
      let y := s.queue f q
      let v := s.args.v
      (s.boot.recovery = true → Gives .sqtail s (· = s) ∧ Gives .cqhead s (· = s) ∧ Gives .qcfg s (· = s) ∧ Gives .vfctl s (· = s))
      ∧ (s.boot.recovery = false →
          (uv v % 2 ^ 32 < y.size → Gives .sqtail s fun t => QueueBecomes s t f q { y with sqtail := uv v % 2 ^ 32 })
          ∧ (y.size ≤ uv v % 2 ^ 32 → Gives .sqtail s fun t => FnBecomes s t f { s.fn f with dberr := true })
          ∧ (uv v % 2 ^ 32 < y.size → y.heldRecs = [] → y.unsent = false → Gives .cqhead s fun t =>
              QueueBecomes s t f q { y with cqhead := uv v % 2 ^ 32 })
          ∧ (y.size ≤ uv v % 2 ^ 32 → Gives .cqhead s fun t => FnBecomes s t f { s.fn f with dberr := true })
          ∧ Gives .qcfg s fun t => FunctionsOnly s t ∧ OtherFns s t f ∧ (∀ r, r ≠ q → t.queue f r = s.queue f r)
              ∧ (let z := t.queue f q
                z.vec = (v.extractLsb' 8 4).toNat ∧ z.ien = v.getLsbD 18 ∧ z.sqen = v.getLsbD 16 ∧ z.cqen = v.getLsbD 17
                ∧ z.log2size = (if y.sqen ∨ y.cqen then y.log2size else (v.extractLsb' 0 5).toNat)
                ∧ (z.sqhead, z.sqtail) = (if v.getLsbD 16 ∧ y.sqen = false then (0, 0) else (y.sqhead, y.sqtail))
                ∧ (z.cqhead, z.cqtail, z.phase) = (if v.getLsbD 17 ∧ y.cqen = false then (0, 0, true) else (y.cqhead, y.cqtail, y.phase))
                ∧ z.heldRecs = (if v.getLsbD 17 then y.heldRecs else []) ∧ z.sqbase = y.sqbase ∧ z.cqbase = y.cqbase)
              ∧ (t.fn f).qerr = ((s.fn f).qerr || ((y.sqen || y.cqen) && decide ((v.extractLsb' 0 5).toNat ≠ y.log2size))))
  ) ∧
  (
    (∀ s : State, s.boot.recovery = false → (s.fn s.args.a).held = [] → Gives .vfctl s fun t =>
        let x := s.fn s.args.a
        let en := s.args.v.getLsbD 0
        (∀ b, x.pendBind = some b → en = true → x.en = false →
          FnBecomes s t s.args.a { x with en := en, bound := b.part, sup := b.sup, pendBind := none })
        ∧ (x.pendBind = none ∨ en = false ∨ x.en = true → FnBecomes s t s.args.a { x with en := en }))
      ∧ (∀ s : State, ∀ q < 16, s.boot.recovery = false → 1 ≤ s.args.a → s.args.a ≤ 512 →
          let f := s.args.a
          let y := s.queue f q
          (s.args.b = 0x1000 + 32 * q → Gives .registerWrite s fun t =>
            if y.sqen ∨ y.cqen then FnBecomes s t f { s.fn f with qerr := true } else QueueBecomes s t f q { y with sqbase := s.args.v })
          ∧ (s.args.b = 0x1008 + 32 * q → Gives .registerWrite s fun t =>
            if y.sqen ∨ y.cqen then FnBecomes s t f { s.fn f with qerr := true } else QueueBecomes s t f q { y with cqbase := s.args.v })
          ∧ (s.args.b = 0x0010 → Gives .registerWrite s fun t => FnBecomes s t f { s.fn f with
              qerr := (s.fn f).qerr && !s.args.v.getLsbD 4, dberr := (s.fn f).dberr && !s.args.v.getLsbD 3 }))
      ∧ (∀ s : State, s.args.a = 0 →
          let n := (s.args.v.extractLsb' 0 14).toNat
          (s.args.b = 0x0100 → Gives .registerWrite s fun t =>
            t = if 1 ≤ n ∧ n ≤ 1000 then { s with dev := { s.dev with llcreb := n } } else s)
          ∧ (s.args.b = 0x0208 → Gives .registerWrite s (· = { s with boot := { s.boot with mgiova := s.args.v } }))
          ∧ (s.args.b = 0x0210 → Gives .registerWrite s (· = { s with boot := { s.boot with mglen := s.args.v } })))
      ∧ ∀ (s : State) e,
          let f := s.args.a
          let y := s.queue f s.args.b
          aget? (s.fn f).msix y.vec = some e → Gives .msixDeferredSend s fun t => FunctionsOnly s t ∧ OtherFns s t f
            ∧ t.queue f s.args.b = { y with unsent := false, interval := y.unsent }
            ∧ t.host.msis = (if y.unsent ∧ e.getLsbD 96 = false then (f, y.vec) :: s.host.msis else s.host.msis)
            ∧ (t.fn f).pba = if y.unsent ∧ e.getLsbD 96 = true then (s.fn f).pba ||| 2 ^ y.vec else (s.fn f).pba
  )

/-! ### The commands of the virtual functions (R68-R73, R90-R92, R167, R358) -/

namespace Sys2Proof.Claims

/-- The command at hand is one of an active virtual function bound to partition `p`, its reserved bits are 0 (the `fields` are those of
R70: word, low bit, width), and a record can be written at once. -/
structure VfMay (s : State) (p : Nat) (fields : List (Nat × Nat × Nat)) : Prop where
  report : CanReport s s.args.a s.args.b
  vf : s.args.a ≠ 0
  bound : (s.fn s.args.a).bound = some p
  fields : cmdReserved s.args.cmd fields = false

/-- The command is of queue 0 of a function bound with supervisor rights. -/
def Supervises (s : State) : Prop := s.args.b = 0 ∧ (s.fn s.args.a).sup = true

/-- Field of word `w` of the command at hand, from bit `lo`, `n` bits. -/
def cmdField (s : State) (w lo n : Nat) : Nat := (s.args.cmd.extractLsb' (64 * w + lo) n).toNat

/-- The command at hand stays in execution under the next number. -/
def started (s : State) (p : Nat) (k : CmdKind) : State :=
  let x := s.args.cmd
  { s with host := { s.host with
    cmds := aset s.host.cmds s.host.nextCmd ⟨s.args.a, s.args.b, (s.fn s.args.a).gen, p, cidOf x, x.getLsbD 10, x.getLsbD 9, k⟩
    nextCmd := s.host.nextCmd + 1 } }

/-- The command at hand takes the next number and is in execution no more. -/
def passed (s : State) : State :=
  { s with host := { s.host with cmds := adel s.host.cmds s.host.nextCmd, nextCmd := s.host.nextCmd + 1 } }

/-- A command that waits in execution completes, with the device as `d`. -/
def EndsCmd (s t : State) (d : Dev) (n : Nat) (c : Cmd) (status info : Nat) : Prop :=
  ReportsFor { s with dev := d, host := { s.host with cmds := adel s.host.cmds n } } t c.fn c.queue c.cid c.nocqe status info

/-- Command `c` is in execution under number `n`, its function has not been reset since, and its record can be written at once. -/
structure InExecution (s : State) (n : Nat) (c : Cmd) : Prop where
  held : aget? s.host.cmds n = some c
  gen : c.gen = (s.fn c.fn).gen
  report : CanReport s c.fn c.queue

/-- The bytes that a piece of a command touches lie in one line that no agent holds apart from its home. -/
structure PlainPiece (d : Dev) (tr : Trans) (k : Nat) : Prop where
  here : tr.remote = false
  line : tr.pa % 128 + k ≤ 128
  sound : d.poisoned (tr.pa / 128) = false
  free : d.lineHeld (tr.pa / 128) = false
  unregistered : aget? d.regs (tr.pa / 128) = none
  noCopies : d.hasUoc (tr.pa / 128) = false
  memory : d.mem.wf = true

/-- The device after the increment `m` was put in flight under the next tag of its source, which keeps it until it is answered (R274); with every tag in use it waits. -/
def sendsTagged (d : Dev) (src : Nat) (m : Nat × Nat → Msg) : Dev :=
  let n := (d.core src).tagSeq
  { d.modCore src fun c => { c with tagSeq := n + 1, out := aset c.out n.toNat ⟨none, some (m (src, n.toNat)), none, none, if (d.core src).tagFree then 1 else 0, false⟩ } with
    net := aset d.net d.netSeq ⟨m (src, n.toNat), [], none⟩, netSeq := d.netSeq + 1 }

/-- How far a piece of a COPYH or FILL goes. -/
def pieceLen (gva len done : Nat) : Nat := min (128 - (gva + done) % 128) (len - done)

end Sys2Proof.Claims

/-- R71, R143: SIGNAL sends one increment of its counter; WAIT completes at once when its counter has been reached and stays in execution
otherwise; a timeout completes it with TIMEOUT, or with SUCCESS when the counter satisfies the condition then. A RANK of HLEN or more gives
INVALID_FIELD (R70). R71: COPYH and FILL with a LEN that R70 allows stay in execution, and go on in pieces of at most one line: a piece to
the host reads partition memory, one from the host or of a FILL writes it, and the last one completes the command. A page that is not
resident ends it with DEVICE_ADDRESS and the number of bytes moved before. -/
def Obligations.HostSignalsAndCopies : Prop :=
  (
    (∀ s p, VfMay s p [(0, 32, 18), (1, 0, 32)] →
        let rank := cmdField s 0 32 12
        ((s.dev.part p).cfg.hlen ≤ rank → Gives .signal s fun t => Reports s t 0x0002 0)
        ∧ (rank < (s.dev.part p).cfg.hlen → Gives .signal s fun t => Reports
            { s with dev := sendsTagged s.dev srcHost (.incr p rank (cmdField s 0 44 6) (s.args.cmd.extractLsb' 64 32)) } t 0 0))
      ∧ (∀ s p, VfMay s p [(0, 32, 18), (1, 0, 64)] →
        let rank := cmdField s 0 32 12
        let idx := cmdField s 0 44 6
        let target : HWord := s.args.cmd.extractLsb' 64 32
        let met := (vget (s.dev.rankCore p rank).counters idx 0 - target).toNat < 2 ^ 31
        ((s.dev.part p).cfg.hlen ≤ rank → Gives .wait s fun t => Reports s t 0x0002 0)
        ∧ (rank < (s.dev.part p).cfg.hlen → met → Gives .wait s fun t => Reports (passed s) t 0 0)
        ∧ (rank < (s.dev.part p).cfg.hlen → ¬met → Gives .wait s (· = started s p (.wait rank idx target (decide (cmdField s 1 32 32 ≠ 0))))))
      ∧ ∀ (s : State) c rank idx target, InExecution s s.args.a c → c.kind = .wait rank idx target true →
        Gives .waitTimeout s fun t => EndsCmd s t s.dev s.args.a c
          (if (vget (s.dev.rankCore c.part rank).counters idx 0 - target).toNat < 2 ^ 31 then 0 else 0x000A) 0
  ) ∧
  (
    (∀ s p, VfMay s p [(0, 32, 1), (1, 0, 64), (2, 0, 48), (3, 0, 33)] →
        let len := cmdField s 3 0 33
        (len = 0 ∨ 2 ^ 32 < len → Gives .copyh s fun t => Reports s t 0x0002 0)
        ∧ (1 ≤ len → len ≤ 2 ^ 32 → Gives .copyh s
            (· = started s p (.copyh (decide (cmdField s 0 32 1 = 1)) (cmdField s 1 0 64) (cmdField s 2 0 48) len 0 []))))
      ∧ (∀ s p, VfMay s p [(2, 0, 48), (3, 0, 33), (4, 0, 64)] →
        let len := cmdField s 3 0 33
        let gva := cmdField s 2 0 48
        (len = 0 ∨ 2 ^ 32 < len ∨ len % 8 ≠ 0 ∨ gva % 8 ≠ 0 → Gives .fill s fun t => Reports s t 0x0002 0)
        ∧ (1 ≤ len → len ≤ 2 ^ 32 → len % 8 = 0 → gva % 8 = 0 → Gives .fill s
            (· = started s p (.fill gva len 0 (s.args.cmd.extractLsb' 256 64) []))))
      ∧ ∀ (s : State) n c, InExecution s n c →
        let onward (t : State) (done len : Nat) (kind : Nat → CmdKind) :=
          if done < len then aget? t.host.cmds n = some { c with kind := kind done } else aget? t.host.cmds n = none
        (∀ dir iova gva len done bs, c.kind = .copyh dir iova gva len done bs →
          let k := pieceLen gva len done
          gva + done + k ≤ 2 ^ 48 → s.iommuFault (iova + done) k = false → s.host.hostMem.wf = true →
          (∀ g w, cmdTrans c.part (!dir) (gva + done) bs s.dev = .error (.wait g w) → done < 2 ^ 64 →
            ∃ t, s.runTurn (.cmd n) = .next t ∧ EndsCmd s t s.dev n c 0x0005 done)
          ∧ ∀ tr bs' d, cmdTrans c.part (!dir) (gva + done) bs s.dev = .ok ((tr, bs'), d) → PlainPiece d tr k → (done + k < len ∨ c.nocqe = true) →
            ∃ t, s.runTurn (.cmd n) = .next t ∧ onward t (done + k) len (fun j =>
                .copyh dir iova gva len j (if dir then [] else bs'.filter fun b => b.page == pageAt (gva + done + k) b.page.large)) ∧ t.boot = s.boot
              ∧ (dir = true → t.dev.mem = d.mem ∧ t.host.hostMem.nat (iova + done) k = d.mem.nat tr.pa k
                ∧ ∀ a, (a < iova + done ∨ iova + done + k ≤ a) → t.host.hostMem.get a = s.host.hostMem.get a)
              ∧ (dir = false → t.host.hostMem = s.host.hostMem ∧ t.dev.mem.nat tr.pa k = s.host.hostMem.nat (iova + done) k
                ∧ ∀ a, (a < tr.pa ∨ tr.pa + k ≤ a) → t.dev.mem.get a = d.mem.get a))
        ∧ ∀ gva len done pattern bs, c.kind = .fill gva len done pattern bs → gva % 8 = 0 → len % 8 = 0 → done % 8 = 0 →
          let k := pieceLen gva len done
          ∀ tr bs' d, gva + done + k ≤ 2 ^ 48 → cmdTrans c.part true (gva + done) bs s.dev = .ok ((tr, bs'), d) → PlainPiece d tr k →
            (done + k < len ∨ c.nocqe = true) →
            ∃ t, s.runTurn (.cmd n) = .next t ∧ onward t (done + k) len (fun j =>
                .fill gva len j pattern (bs'.filter fun b => b.page == pageAt (gva + done + k) b.page.large)) ∧ t.boot = s.boot
              ∧ (∀ j, 8 * j < k → t.dev.mem.nat (tr.pa + 8 * j) 8 = uv pattern)
              ∧ ∀ a, (a < tr.pa ∨ tr.pa + k ≤ a) → t.dev.mem.get a = d.mem.get a
  )

/-- R71, R90-R92: a LAUNCH whose descriptor fails a check completes with its status; one that passes enters the placement queue of its
stream as a group with the lowest free id, no task started, and stays in execution, or completes with the id when ACCEPT is set. At the
end of its group the command completes with SUCCESS, or with DATAERR and the number of lost tasks (R39). -/
def Obligations.LaunchCommand : Prop :=
  (∀ s p, VfMay s p [] →
      let x := s.args.desc
      let y := parseDesc x
      (∀ st, (s.dev.part p).checkDesc x true = some st → Gives .launch s fun t => Reports (passed s) t st 0)
      ∧ ∀ b d g, (s.dev.part p).checkDesc x true = none → launchBlock p y.segtab s.dev = .ok (b, d) → d.parts = s.dev.parts →
        blockBad b y.scratch = false → (s.dev.part p).cfg.det = false → (s.dev.part p).freeGroup = some g →
        let Placed (u : State) := u.dev.mem = d.mem ∧ u.boot = s.boot
          ∧ (∃ z, aget? (u.dev.part p).groups g = some z ∧ z.desc = y ∧ z.segs = blockSegs b ∧ z.next = 0 ∧ z.live = 0)
          ∧ aget? (u.dev.part p).queues y.queue = some ((aget? (s.dev.part p).queues y.queue).getD [] ++ [g])
          ∧ ∀ r, r ≠ p → u.dev.part r = s.dev.part r
        (s.args.cmd.getLsbD 10 = true → Gives .launch s fun t => ∃ u, Placed u ∧ u.args = s.args ∧ u.host = (passed s).host ∧ Reports u t 0 g)
        ∧ (s.args.cmd.getLsbD 10 = false → Gives .launch s fun t => Placed t ∧ t.host = (started s p (.launch g)).host))
    ∧ ∀ (s : State) n c g e, InExecution s n c → c.kind = .launch g → s.dev.ended = [e] → e.cmd = n → e.gates = [] → e.group < 65536 →
      e.lost < 2 ^ 32 → ∃ t, s.runTurn (.cmd n) = .next t
        ∧ EndsCmd s t { s.dev with ended := [] } n c (if e.lost = 0 then 0 else 0x0006) (e.group + e.lost * 2 ^ 32)

/-- R71, R358, R359, R70: ROUTINE writes its entry of the routine table with BAD, BADIDX and BADWHY 0, the slices drop their copies of it and
the cores of the partition take its flags; MAP writes every leaf entry that passes its checks, no TLB holds an old translation of its pages,
and it completes when every access under those translations is performed (R167). Without supervisor rights both give NOT_PERMITTED; a check
that fails changes nothing. -/
def Obligations.RoutineAndMap : Prop :=
  (∀ s p, VfMay s p [(0, 32, 15), (1, 0, 48)] → (¬Supervises s → Gives .routine s fun t => Reports s t 0x0008 0) ∧ (Supervises s →
      let e := cmdField s 0 32 6
      let len := cmdField s 0 41 6
      let ord := cmdField s 0 38 1
      let ro := cmdField s 0 39 1
      let comm := cmdField s 0 40 1
      let at_ := (s.dev.part p).cfg.rtbase + 16 * e
      (len = 0 ∨ 32 < len → Gives .routine s fun t => Reports s t 0x0002 0)
      ∧ (1 ≤ len → len ≤ 32 → (s.dev.part p).cfg.det = true → comm = 0 → ord = 0 → Gives .routine s fun t => Reports s t 0x0009 0)
      ∧ (1 ≤ len → len ≤ 32 → ((s.dev.part p).cfg.det = false ∨ comm = 1 ∨ ord = 1) → at_ % 16 = 0 → aget? s.dev.regs (at_ / 128) = none →
          s.dev.hasUoc (at_ / 128) = false → s.dev.lineHeld (at_ / 128) = false → s.dev.poisoned (at_ / 128) = false → s.dev.mem.wf = true →
          Gives .routine s fun t => ∃ u, Reports u t 0 0 ∧ u.host = (passed s).host
        ∧ u.boot = s.boot ∧ u.args = s.args ∧ u.dev.parts = s.dev.parts
        ∧ u.dev.mem.nat at_ 16 = 2 ^ 63 + comm * 2 ^ 61 + ro * 2 ^ 60 + ord * 2 ^ 59 + len * 2 ^ 53 + cmdField s 1 0 48
        ∧ (∀ a, (a < at_ ∨ at_ + 16 ≤ a) → u.dev.mem.get a = s.dev.mem.get a)
        ∧ (∀ c ∈ u.dev.rcache, ¬(c.part = p ∧ c.entry = e))
        ∧ ∀ r, (s.dev.core r).part = some p →
            vget (u.dev.core r).rflags e 0 = BitVec.ofNat 5 (16 + 4 * comm + 2 * ro + ord))))
    ∧ ∀ s p, VfMay s p [(0, 32, 1), (1, 0, 48), (2, 0, 46), (3, 0, 32), (4, 0, 64)] →
      (¬Supervises s → Gives .map s fun t => Reports s t 0x0008 0) ∧ (Supervises s →
      let large := decide (cmdField s 0 32 1 = 1)
      let size := if large then 2 ^ 21 else 65536
      let gva := cmdField s 1 0 48
      let pa := cmdField s 2 0 46
      let count := cmdField s 3 0 32
      let attr : Word := s.args.cmd.extractLsb' 256 64
      (gva % size ≠ 0 ∨ pa % size ≠ 0 ∨ count = 0 → Gives .map s fun t => Reports s t 0x0002 0)
      ∧ (gva % size = 0 → pa % size = 0 → 1 ≤ count → attr.extractLsb' 46 5 = 0 → attr.extractLsb' 0 6 = 0 →
          (attr.getLsbD 56 = true ∨ attr.extractLsb' 6 10 = 0) →
        (∀ d, mapEntries p large gva pa attr count s.dev = .ok (none, d) → Gives .map s fun t => Reports (passed s) t 0x0005 0)
        ∧ ∀ es d, mapEntries p large gva pa attr count s.dev = .ok (some es, d) → s.dev.regs = [] →
          (∀ c ∈ s.dev.cores, c.2.uoc = [] ∧ c.2.wb = []) →
          s.dev.homeQ = [] → s.dev.leases = [] → s.dev.mem.wf = true → (∀ e ∈ es, e.2.1 % 8 = 0 ∧ s.dev.lostLine (e.2.1 / 128) = false) →
          es.Pairwise (fun a b => a.2.1 ≠ b.2.1) →
          Gives .map s fun t => t.host = (started s p (.map (gva / 65536) ((gva + count * size) / 65536) s.dev.accSeq)).host
            ∧ t.boot = s.boot ∧ t.args = s.args
            ∧ (∀ e ∈ es, t.dev.mem.nat e.2.1 8 = uv e.2.2)
            ∧ (∀ a, (∀ e ∈ es, a < e.2.1 ∨ e.2.1 + 8 ≤ a) → t.dev.mem.get a = s.dev.mem.get a)
            ∧ ∀ e ∈ es, ∀ r, ∀ x ∈ (t.dev.core r).tlb, shotEntry p (if large then 1 else 0) e.1 x = false)
      ∧ ∀ n c lo hi mark, InExecution s n c → c.kind = .map lo hi mark →
        (s.dev.pagesDone c.part lo hi mark = false → s.runTurn (.cmd n) = .next s)
        ∧ (s.dev.pagesDone c.part lo hi mark = true → ∃ t, s.runTurn (.cmd n) = .next t ∧ EndsCmd s t s.dev n c 0 0))

/-! ### The commands of the physical function (R41, R70, R73, R76-R78, R83-R86, R176) -/

namespace Sys2Proof.Claims

/-- The command at hand is one of the enabled physical function, its reserved bits are 0, and a record can be written at once. -/
structure PfMay (s : State) (fields : List (Nat × Nat × Nat)) : Prop where
  report : CanReport s s.args.a s.args.b
  pf : s.args.a = 0
  fields : cmdReserved s.args.cmd fields = false

/-- The command completes with SUCCESS, and its own effect is on the device alone: the device after it satisfies `P`. -/
def Effects (s : State) (P : Dev → Prop) (t : State) : Prop := ∃ d, P d ∧ Reports { s with dev := d } t 0 0

/-- Partition `p` becomes `x`; memory, the cores, the homes and every other partition are as before. -/
def PartBecomes (s : State) (p : Nat) (x : Part) (d : Dev) : Prop :=
  d.part p = x ∧ (∀ r, r ≠ p → d.part r = s.dev.part r) ∧ { d with parts := s.dev.parts } = s.dev

/-- Nothing of partition `p` is left on a core, at a home or under way: the partition is STOPPED without groups, saved contexts or
sweeps, and its configuration is as before (R78). A request of another module, which names a partition there, is not the partition's. -/
structure Stopped (s : State) (p : Nat) (d : Dev) : Prop where
  state : (d.part p).st = .stopped ∧ (d.part p).started = false
  empty : (d.part p).groups = [] ∧ (d.part p).queues = [] ∧ (d.part p).det = [] ∧ (d.part p).ctx = [] ∧ (d.part p).sweeps = []
  config : (d.part p).cfg = (s.dev.part p).cfg ∧ (d.part p).configured = (s.dev.part p).configured
  others : ∀ r, r ≠ p → d.part r = s.dev.part r
  cores : ∀ r, (d.core r).part ≠ some p
  homes : (∀ q ∈ d.homeQ, q.part ≠ p ∨ q.outer = true) ∧ (∀ l ∈ d.leases, l.part ≠ p) ∧ (∀ o ∈ d.obuf, o.req.part ≠ p) ∧ ∀ b ∈ d.bars, b.key.part ≠ p
  memory : d.mem = s.dev.mem

end Sys2Proof.Claims

/-- R76-R78, R73: PARTCFG reads its record from host memory; it gives HOST_ADDRESS, BUSY, INVALID_FIELD or CONFIG without other effect, and
otherwise a STOPPED partition takes the record, and a DESCHEDULED one its SLOTWT and LPTHRESH, or its HBASE, which moves it (R119).
PARTSTART starts a STOPPED partition with the masks of its set (R86), and has no effect on any other. R78, R84: PARTSTOP has no effect on a
STOPPED partition; any other one loses every task, saved context and sweep and every command in execution, which completes with ABORTED and
the bytes that it has moved; memory stays as it is. -/
def Obligations.PartitionCommands : Prop :=
  (
    (∀ s, PfMay s [(0, 32, 6), (1, 0, 64)] →
        let p := cmdField s 0 32 6
        let x := s.dev.part p
        let iova := cmdField s 1 0 64
        let rec_ : BitVec 2048 := BitVec.ofNat 2048 (s.host.hostMem.nat iova 256)
        let c := parsePart rec_
        (s.iommuFault iova 256 = true → Gives .partcfg s fun t => Reports s t 0x0004 0)
        ∧ (s.iommuFault iova 256 = false →
          (x.st = .resident → Gives .partcfg s fun t => Reports s t 0x000C 0)
          ∧ (x.st ≠ .resident → partFieldsBad rec_ = true → Gives .partcfg s fun t => Reports s t 0x0002 0)
          ∧ (x.st = .descheduled → partFieldsBad rec_ = false →
              { c with hbase := x.cfg.hbase, slotwt := x.cfg.slotwt, lpthresh := x.cfg.lpthresh } ≠ x.cfg →
              Gives .partcfg s fun t => Reports s t 0x000C 0)
          ∧ (x.st = .stopped → partFieldsBad rec_ = false → s.dev.partOk p c = false → Gives .partcfg s fun t => Reports s t 0x000B 0)
          ∧ (x.st = .stopped → partFieldsBad rec_ = false → s.dev.partOk p c = true → Gives .partcfg s (Effects s fun d =>
              PartBecomes s p { x with
                configured := true, cfg := c, elogHead := 0, elogTail := 0, elogDrops := 0, elogSeq := 0, elogQ := [], nqTail := 0, nqHead := 0 }
                { d with corr := s.dev.corr } ∧ d.corr = s.dev.corr.filter fun e => e.part != some p))
          ∧ (x.st = .descheduled → partFieldsBad rec_ = false → s.dev.partOk p c = true →
              c = { x.cfg with slotwt := c.slotwt, lpthresh := c.lpthresh } →
              Gives .partcfg s (Effects s (PartBecomes s p { x with cfg := c })))
          ∧ (x.st = .descheduled → partFieldsBad rec_ = false → s.dev.partOk p c = true → c.hbase ≠ x.cfg.hbase →
              c = { x.cfg with hbase := c.hbase, slotwt := c.slotwt, lpthresh := c.lpthresh } →
              Gives .partcfg s (Effects s fun d => (d.part p).cfg = c ∧ (d.part p).st = .descheduled ∧ d.mem = s.dev.mem
                ∧ (∀ q, x.cfg.hbase < 4 * q + 4 → 4 * q < x.cfg.hbase + x.cfg.hlen → q < 1024 → ∀ h ∈ (d.quad q).hamper, h.part ≠ p)
                ∧ ∀ q, c.hbase < 4 * q + 4 → 4 * q < c.hbase + c.hlen → q < 1024 → p ∈ (d.quad q).dropped))))
      ∧ ∀ s, PfMay s [(0, 32, 6)] →
        let p := cmdField s 0 32 6
        let x := s.dev.part p
        (x.configured = false → Gives .partstart s fun t => Reports s t 0x000B 0)
        ∧ (x.configured = true → (x.st ≠ .stopped ∨ x.started = true) → Gives .partstart s fun t => Reports s t 0 0)
        ∧ (x.configured = true → x.st = .stopped → x.started = false → Gives .partstart s (Effects s fun d =>
            d.part p = { x with started := true } ∧ (∀ r, r ≠ p → d.part r = s.dev.part r)
            ∧ (∀ m, aget? s.dev.masks x.cfg.maskset = some m → aget? d.masks (8 + p) = some m)
            ∧ { d with parts := s.dev.parts, masks := s.dev.masks } = s.dev))
  ) ∧
  (
    ∀ s, PfMay s [(0, 32, 6)] →
      let p := cmdField s 0 32 6
      ((s.dev.part p).st = .stopped → Gives .partstop s fun t => Reports s t 0 0)
      ∧ ((s.dev.part p).st ≠ .stopped → (∀ c ∈ s.dev.cores, c.2.wb = [] ∧ c.2.uoc = [] ∧ c.2.stash = []) →
        (s.dev.part p).sweeps = [] → (∀ q ∈ s.dev.homeQ, ∀ u, q.kind ≠ .uocBack u) →
        ((∀ c ∈ s.host.cmds, c.2.part ≠ p) → Gives .partstop s (Effects s (Stopped s p)))
        ∧ ∀ n c, s.host.cmds = [(n, c)] → c.part = p → c.fn ≠ 0 → InExecution s n c → c.kind.moved < 2 ^ 64 → s.args.cmd.getLsbD 9 = true →
          Gives .partstop s fun t => Stopped s p t.dev ∧ ∃ u, EndsCmd s u s.dev n c 0x0007 c.kind.moved ∧ t.host = u.host)
  )

/-- R83-R85: VFBIND is BUSY while the function has commands in execution, and otherwise waits for the next enable; VFPAUSE and VFRESUME set and
clear the pause, and a function that becomes active has its held events written; VFRESET and a function-level reset advance GEN, discard
the held events, clear VFCTL and every QCFG, and end the commands in execution without records; a function-level reset of the physical
function resets it and every VF (the model's choice, log entry 59). -/
def Obligations.FunctionCommands : Prop :=
  (∀ s, PfMay s [(0, 32, 10), (0, 42, 8)] →
      let f := cmdField s 0 32 10
      let b : PendBind := if cmdField s 0 49 1 = 1 then ⟨none, false⟩ else ⟨some (cmdField s 0 42 6), decide (cmdField s 0 48 1 = 1)⟩
      1 ≤ f → f ≤ 512 →
      ((∃ c ∈ s.host.cmds, c.2.fn = f) → Gives .vfbind s fun t => Reports s t 0x000C 0)
      ∧ ((∀ c ∈ s.host.cmds, c.2.fn ≠ f) → Gives .vfbind s fun t =>
        ∃ u, FnBecomes s u f { s.fn f with pendBind := some b } ∧ Reports u t 0 0))
    ∧ (∀ s, PfMay s [(0, 32, 10)] →
      let f := cmdField s 0 32 10
      let x := s.fn f
      1 ≤ f → f ≤ 512 →
      (Gives .vfpause s fun t => ∃ u, FnBecomes s u f { x with paused := true } ∧ Reports u t 0 0)
      ∧ (x.held = [] → Gives .vfresume s fun t => ∃ u, FnBecomes s u f { x with paused := false } ∧ Reports u t 0 0)
      ∧ (∀ e p, x.held = [e] → e.gen = x.gen → s.boot.ready = true → x.en = true → x.bound = some p → (s.dev.part p).st = .resident →
          s.args.cmd.getLsbD 9 = true →
          let y := s.queue f e.queue
          y.cqen = true → y.full = false → y.heldRecs = [] → s.iommuFault (cqSlot y) 16 = false → s.host.hostMem.wf = true →
          e.record.toNat + y.sqhead % 65536 * 2 ^ 16 + (if y.phase then 2 ^ 48 else 0) < 2 ^ 128 →
          Gives .vfresume s fun t => (t.fn f).paused = false ∧ (t.fn f).held = [] ∧ (t.fn f).pendvec = 0
            ∧ t.host.hostMem.nat (cqSlot y) 16 = e.record.toNat + y.sqhead % 65536 * 2 ^ 16 + (if y.phase then 2 ^ 48 else 0)
            ∧ ∀ a, (a < cqSlot y ∨ cqSlot y + 16 ≤ a) → t.host.hostMem.get a = s.host.hostMem.get a))
    ∧ (let Reset (s u : State) (f : Nat) : Prop := u.boot = s.boot ∧ u.args = s.args ∧ u.schedule = s.schedule ∧ OtherFns s u f
          ∧ { u.dev with ended := s.dev.ended } = s.dev ∧ u.host.hostMem = s.host.hostMem ∧ u.host.msis = s.host.msis
          ∧ u.host.cmds = s.host.cmds.filter (fun c => c.2.fn != f)
          ∧ (u.fn f).gen = ((s.fn f).gen + 1) % 65536 ∧ (u.fn f).held = [] ∧ (u.fn f).pendvec = 0 ∧ (u.fn f).en = false
          ∧ (u.fn f).bound = (s.fn f).bound ∧ (u.fn f).sup = (s.fn f).sup ∧ (u.fn f).paused = (s.fn f).paused
          ∧ ∀ q < 16, uv (u.queue f q).qcfg = 0 ∧ (u.queue f q).sqbase = (s.queue f q).sqbase ∧ (u.queue f q).cqbase = (s.queue f q).cqbase
      (∀ s, PfMay s [(0, 32, 10)] → 1 ≤ cmdField s 0 32 10 → cmdField s 0 32 10 ≤ 512 →
        Gives .vfreset s fun t => ∃ u, Reset s u (cmdField s 0 32 10) ∧ Reports u t 0 0)
      ∧ (∀ s : State, 1 ≤ s.args.a → s.args.a ≤ 512 → Gives .functionLevelReset s fun t => Reset s t s.args.a)
      ∧ ∀ s : State, s.args.a = 0 → (s.host.funcs.map (·.1)).Nodup → Gives .functionLevelReset s fun t => t.boot = s.boot ∧ t.host.hostMem = s.host.hostMem
        ∧ { t.dev with ended := s.dev.ended } = s.dev
        ∧ ∀ f, (f = 0 ∨ f ∈ s.host.funcs.map (·.1)) → (t.fn f).gen = ((s.fn f).gen + 1) % 65536 ∧ (t.fn f).held = [] ∧ (t.fn f).en = false
          ∧ (t.fn f).bound = (s.fn f).bound)

/-- R70, R73, R83: a command of an inactive function does not start; a VF command on a PF queue and a PF command on a VF queue give
INVALID_OPCODE, and a PF command with a reserved bit gives INVALID_FIELD; none of them has another effect. R86, R176: MASKSET gives BUSY
while a partition that is not STOPPED selects the set; otherwise the set takes the ten masks at the IOVA when each has its highest set bit
in [39:8] with bits [7:0] 0 and no two share it; a mask that the rules do not allow gives INVALID_FIELD. -/
def Obligations.CommandChecksAndMaskSets : Prop :=
  (
    ∀ s : State,
      let vf : List Instr := [.launch, .copyh, .fill, .signal, .wait, .routine, .map]
      let onVf : List Instr := [.vfpause, .vfresume, .vfreset]
      let pf : List Instr := [.partcfg, .partstart, .partstop, .vfbind, .maskset] ++ onVf
      (s.active s.args.a = false → ∀ i ∈ vf ++ pf, Gives i s (· = s))
      ∧ (CanReport s s.args.a s.args.b → (s.args.a = 0 → ∀ i ∈ vf, Gives i s fun t => Reports s t 0x0001 0)
        ∧ (s.args.a ≠ 0 → ∀ i ∈ pf, Gives i s fun t => Reports s t 0x0001 0)
        ∧ (s.args.a = 0 → ∀ n, s.args.cmd.getLsbD n = true → (11 ≤ n ∧ n < 16 ∨ 50 ≤ n ∧ n < 64 ∨ 128 ≤ n ∧ n < 512) → ∀ i ∈ pf,
            Gives i s fun t => Reports s t 0x0002 0)
        ∧ (s.args.a = 0 → (∀ n, s.args.cmd.getLsbD n = true → n < 11 ∨ 16 ≤ n ∧ n < 42) →
            (cmdField s 0 32 10 = 0 ∨ 512 < cmdField s 0 32 10) → ∀ i ∈ Instr.vfbind :: onVf, Gives i s fun t => Reports s t 0x0002 0))
  ) ∧
  (
    ∀ s, PfMay s [(0, 32, 3), (1, 0, 64)] →
      let k := cmdField s 0 32 3
      let iova := cmdField s 1 0 64
      let m (i : Nat) : Nat := s.host.hostMem.nat (iova + 8 * i) 8
      let Fits := (∀ i < 10, m i ≠ 0 ∧ m i < 2 ^ 40 ∧ m i % 256 = 0) ∧ ∀ i < 10, ∀ j < 10, i ≠ j → Nat.log2 (m i) ≠ Nat.log2 (m j)
      ((∃ p ∈ s.dev.parts, p.2.st ≠ .stopped ∧ p.2.cfg.maskset = k) → Gives .maskset s fun t => Reports s t 0x000C 0)
      ∧ ((∀ p ∈ s.dev.parts, p.2.st = .stopped ∨ p.2.cfg.maskset ≠ k) →
        (s.iommuFault iova 80 = true → Gives .maskset s fun t => Reports s t 0x0004 0)
        ∧ (s.iommuFault iova 80 = false → (¬Fits → Gives .maskset s fun t => Reports s t 0x0002 0)
          ∧ (Fits → Gives .maskset s (Effects s fun d => aget? d.masks k = some ((List.range 10).map m)
            ∧ (∀ j, j ≠ k → aget? d.masks j = aget? s.dev.masks j) ∧ { d with masks := s.dev.masks } = s.dev))))
  )

namespace Sys2Proof.Claims

/-- Whether an odd number of the bits that a mask selects are set in a PA. -/
def oddUnder (mask pa : Nat) : Bool := ((List.range 46).filter fun k => (pa &&& mask).testBit k).length % 2 == 1

end Sys2Proof.Claims

/-- R60: VF n has the PF's routing ID plus n, which names it alone; VFs 1 to 255 share the PF's bus, VFs 256 to 511 take the next, and VF 512
the one after. R62-R64: what the capability, status and queue registers of a VF read, field by field; in recovery they read 0 (R45).
R176: each bit of an HBM PA's stack, channel and pseudo-channel is the parity of the bits that its mask selects; under masks that MASKSET
takes, the placement is one-to-one. -/
def Obligations.HostReadsAndPlacement : Prop :=
  (
    (∀ h : HostIf, (∀ n m, n ≤ 512 → m ≤ 512 → h.routingId n = h.routingId m → n = m)
        ∧ (∀ n ≤ 512, h.routingId n = h.pfRid + n ∧ h.fnOfRid (h.routingId n) = some n)
        ∧ (h.pfRid % 256 = 0 → ∀ n ≤ 512, ridBus (h.routingId n) = ridBus h.pfRid + (if n ≤ 255 then 0 else if n ≤ 511 then 1 else 2)
          ∧ ridFunction (h.routingId n) = if n ≤ 255 then n else if n ≤ 511 then n - 256 else 0))
      ∧ ∀ (s : State) f q, 1 ≤ f → f ≤ 512 → q < 16 →
        let x := s.fn f
        let y := s.queue f q
        let cap := s.readReg f 0
        let stat := s.readReg f 0x10
        let cfg := s.readReg f (0x1010 + 32 * q)
        (s.boot.recovery = true → ∀ off, s.readReg f off = 0)
          ∧ (s.boot.recovery = false →
            (cap.extractLsb' 32 32).toNat = f ∧ (cap.extractLsb' 26 6).toNat = x.bound.getD 0 % 64 ∧ cap.getLsbD 25 = x.sup
              ∧ cap.getLsbD 24 = x.bound.isSome ∧ (cap.extractLsb' 0 24).toNat = 16
              ∧ s.readReg f 0x08 = (if x.en then 1 else 0)
              ∧ (stat.extractLsb' 48 16).toNat = x.gen % 65536 ∧ (stat.extractLsb' 32 16).toNat = x.pendvec % 65536
              ∧ (stat.extractLsb' 5 3).toNat = s.vfState f ∧ stat.getLsbD 4 = x.qerr ∧ stat.getLsbD 3 = x.dberr
              ∧ (stat.extractLsb' 8 24).toNat = 0 ∧ (stat.extractLsb' 0 3).toNat = 0
              ∧ s.readReg f (0x1000 + 32 * q) = y.sqbase ∧ s.readReg f (0x1008 + 32 * q) = y.cqbase
              ∧ (cfg.extractLsb' 32 16).toNat = y.sqhead % 65536 ∧ cfg.getLsbD 18 = y.ien ∧ cfg.getLsbD 17 = y.cqen ∧ cfg.getLsbD 16 = y.sqen
              ∧ (cfg.extractLsb' 8 4).toNat = y.vec % 16 ∧ (cfg.extractLsb' 0 5).toNat = y.log2size % 32
              ∧ (cfg.extractLsb' 48 16).toNat = 0 ∧ (cfg.extractLsb' 19 13).toNat = 0 ∧ (cfg.extractLsb' 12 4).toNat = 0 ∧ (cfg.extractLsb' 5 3).toNat = 0)
  ) ∧
  (
    ∀ ms : List Nat, ms.length = 10 →
      (∀ pa, (∀ i < 4, (hbmStack ms pa).testBit i = oddUnder (ms.getD i 0) pa) ∧ hbmStack ms pa < 16
        ∧ (∀ i < 5, (hbmChannel ms pa).testBit i = oddUnder (ms.getD (4 + i) 0) pa) ∧ hbmChannel ms pa < 32
        ∧ hbmPseudo ms pa = if oddUnder (ms.getD 9 0) pa then 1 else 0)
      ∧ (masksOk ms = true → ∀ a b, a < 2 ^ 40 → b < 2 ^ 40 → hbmStack ms a = hbmStack ms b → hbmChannel ms a = hbmChannel ms b →
        hbmPseudo ms a = hbmPseudo ms b → hbmOffset ms a = hbmOffset ms b → a = b)
  )

/-! ### Boot, the management window, attestation (R41, R44-R50, R52) -/

namespace Sys2Proof.Claims

/-- What holds of the boot state from reset on (R44, R45, R46, R49): the stage and the attempts stay in their ranges, stage 1 outside recovery has an
attempt left, a ready module is in stage 6 outside recovery, and the stages that run are not below their fused minimum versions. -/
structure BootLegal (b : Boot) : Prop where
  stage : b.stage ≤ 6
  tries : b.tries ≤ 16
  attempt : b.stage = 1 → b.recovery = false → b.tries < 16
  ready : b.ready = true → b.stage = 6 ∧ b.recovery = false
  first : 1 ≤ b.stage → b.minFirst ≤ b.runFirst
  image : 3 ≤ b.stage → b.minImage ≤ b.runImage

/-- The module enters recovery with a code in ERRCODE; of the boot state nothing else changes. -/
def recovered (b : Boot) (code : Nat) : Boot := { b with errcode := code, recovery := true, ready := false }

/-- A measurement register extended with the digest of a stage (R47). -/
def extended (old : BitVec 512) (stage : List Byte) : BitVec 512 := BitVec.ofNat 512 (leNat (sha3 (leBytes 64 old.toNat ++ sha3 stage)))

/-- The verdict on a signed stage (R44, R46): its code, or none when it is taken. -/
inductive Verdict (img : List Byte) (min : Word) (sig : Nat) : Option Nat → Prop
  | signature (h : Config.signatureOk img = false) : Verdict img min sig (some sig)
  | version (h : Config.signatureOk img = true) (v : Config.stageVersion img < min) : Verdict img min sig (some 0x0002)
  | taken (h : Config.signatureOk img = true) (v : min ≤ Config.stageVersion img) : Verdict img min sig none

/-- The management command has finished with a result (R50). -/
def mgDoneWith (b : Boot) (result : Nat) : Boot := { b with mgBusy := none, mgDone := true, mgResult := result }

end Sys2Proof.Claims

/-- R44, R45, R46, R49: no step makes the boot state illegal. -/
def Obligations.BootLegalKept : Prop :=
  ∀ s t : State, BootLegal s.boot → step s = .next t → BootLegal t.boot

/-- R49: the boot state is legal at reset: STAGE, TRIES, RECOVERY and READY read 0. The versions at reset are 0 (log entry 1). -/
def Obligations.BootLegalAtReset : Prop := BootLegal State.reset.boot ∧ State.reset.boot.bootstat = 0

/-- R44-R47: at a reset everything but the fused versions, module flash, the kept image, Flojo's configuration and the host's own memory
starts afresh, and stage 0 verifies the first stage: it is taken, measured and entered as stage 1, or the module is in recovery with the
code. In stage 1 each attempt counts and alternates the port; an image that verifies is measured, and with the stewards started the module
is in stage 4 with its number; the 16th failure leads to recovery. R44, R45, R35: stage 4 fails with the code of memory training or of the
die test; otherwise at most one compute die has failed and the spare serves its quadrant, the partition configuration is measured (R47), and
the module reaches stage 6 and is ready, with the partitions of the stored configuration or, with code 0x0008, with none. That the gang wait is 10
where Flojo's stored limit is not from 1 to 1,000 is the model's reading (log entry 60): R100 gives 10 as the default only. R47: from stage 4 on
Flojo has measurement registers 4 to 7 extended, and no other. -/
def Obligations.BootSequence : Prop :=
  (
    (∀ s : State, s.boot.keptImage = none → ∀ v, Verdict s.boot.flashStage s.boot.minFirst 0x0001 v → Gives .moduleReset s fun t =>
        t.dev = { Dev.reset with freeCtr := s.dev.freeCtr } ∧ t.host = { HostIf.reset with
          hostMem := s.host.hostMem, iommuBad := s.host.iommuBad, pfRid := s.host.pfRid }
        ∧ t.args = s.args ∧ t.schedule = s.schedule
        ∧ let b : Boot := { Boot.reset with
            begun := true, minFirst := s.boot.minFirst, minImage := s.boot.minImage, flashStage := s.boot.flashStage
            cfgModnum := s.boot.cfgModnum, cfgGangWait := s.boot.cfgGangWait, cfgBytes := s.boot.cfgBytes, cfgParts := s.boot.cfgParts }
          t.boot = match v with
            | some code => recovered b code
            | none => { b with
              stage := 1, runFirst := Config.stageVersion s.boot.flashStage, measure := vset b.measure 0 (extended 0 s.boot.flashStage) })
      ∧ (∀ s : State, s.boot.stage = 1 → s.boot.recovery = false →
        Gives .dhcpv6Timeout s (· = { s with boot := { s.boot with slaac := true } }))
      ∧ ∀ s : State, s.boot.begun = true → s.boot.stage = 1 → s.boot.recovery = false →
        let b : Boot := { s.boot with feport := decide (s.boot.tries % 2 = 1), tries := s.boot.tries + 1 }
        let failed (code : Nat) (stage : Nat) : Boot := if 16 ≤ b.tries then recovered { b with stage := stage } code else b
        (s.args.img = none → Gives .fetchAttempt s (· = { s with boot := failed 0x0003 1 }))
        ∧ ∀ img v, s.args.img = some img → Verdict img b.minImage 0x0004 v →
          (∀ code, v = some code → Gives .fetchAttempt s (· = { s with boot := failed code 2 }))
          ∧ (v = none → Gives .fetchAttempt s fun t =>
            let m := vset b.measure 1 (extended (vget b.measure 1 0) img)
            let c : Boot := { b with measure := m, runImage := Config.stageVersion img, fetched := some img }
            t.host = s.host
            ∧ (s.args.ok = false → t.dev = s.dev ∧ t.boot = recovered { c with stage := 3 } 0x0006)
            ∧ (s.args.ok = true → t.dev = { s.dev with
                modnum := s.boot.cfgModnum % 2048
                gangWait := if 1 ≤ s.boot.cfgGangWait ∧ s.boot.cfgGangWait ≤ 1000 then s.boot.cfgGangWait else 10 }
              ∧ t.boot = { c with stage := 4, measure := vset m 2 (extended (vget m 2 0) b.cfgBytes) }))
  ) ∧
  (
    ∀ s : State, s.boot.stage = 4 → s.boot.recovery = false →
      let dies := s.args.list
      (s.args.ok = false → Gives .memoryTraining s (· = { s with boot := recovered s.boot 0x0005 }))
      ∧ (s.args.ok = true → (s.args.ok2 = false ∨ 2 ≤ (dies.filter (· < 4)).length ∨ ((dies.filter (· < 4)).length = 1 ∧ 4 ∈ dies)) →
          Gives .memoryTraining s (· = { s with boot := recovered s.boot 0x0007 }))
      ∧ ∀ spare, s.args.ok = true → s.args.ok2 = true →
          ((dies.filter (· < 4) = [] ∧ spare = none) ∨ ∃ k, dies.filter (· < 4) = [k] ∧ 4 ∉ dies ∧ spare = some k) →
          let d := { s.dev with spareUsed := spare, deadDies := dies }
          let b : Boot := { s.boot with
            stage := 6, ready := true, measure := vset s.boot.measure 3 (extended (vget s.boot.measure 3 0) s.boot.partBytes) }
          (d.buildParts s.boot.cfgParts = none → Gives .memoryTraining s (· = { s with dev := d, boot := { b with errcode := 0x0008 } }))
          ∧ ∀ e, d.buildParts s.boot.cfgParts = some e → Gives .memoryTraining s (· = { s with dev := e, boot := b })
  ) ∧
  (
    ∀ (s : State) reg digest,
      (4 ≤ reg → reg < 8 → 4 ≤ s.boot.stage → s.boot.recovery = false → s.runTurn (.measure reg digest) = .next { s with boot := { s.boot with
        measure := vset s.boot.measure reg
          (BitVec.ofNat 512 (leNat (sha3 (leBytes 64 (vget s.boot.measure reg 0).toNat ++ digest)))) } })
      ∧ (reg < 4 ∨ 8 ≤ reg ∨ s.boot.stage < 4 ∨ s.boot.recovery = true → s.runTurn (.measure reg digest) = .next s)
  )

/-- R46, R50: LOADIMG verifies what the host's buffer holds and keeps it, a first stage in module flash and a device image for the next
boot; RAISEVER raises the fused minimum of a stage to the version that runs, outside recovery. Each ends with DONE and a RESULT. That a LOADIMG
with MGLEN above 256 MiB reads nothing and ends with RESULT 0x0100 is the model's choice (log entry 55). A first
stage that is taken in recovery restarts the boot. R48, R50: a report holds the measurement registers, the versions of the stages that run,
the module number, the requester's nonce, and the module's signature over these bytes. ATTEST writes it behind the nonce in the host's
buffer; a POST on a front-end port answers it. -/
def Obligations.ImagesAndAttestation : Prop :=
  (
    (∀ (s : State) (first : Bool), s.boot.mgBusy = some (if first then 0x0001 else 0x0101) →
        let n := uv s.boot.mglen
        let at_ := uv s.boot.mgiova
        let img := leBytes n (s.host.hostMem.nat at_ n)
        (2 ^ 28 < n → Gives .loadimg s (· = { s with boot := mgDoneWith s.boot 0x0100 }))
        ∧ (n ≤ 2 ^ 28 → s.iommuFault at_ n = true → Gives .loadimg s (· = { s with boot := mgDoneWith s.boot 0x0101 }))
        ∧ ∀ v, n ≤ 2 ^ 28 → s.iommuFault at_ n = false →
          Verdict img (if first then s.boot.minFirst else s.boot.minImage) (if first then 0x0001 else 0x0004) v →
          (∀ code, v = some code → Gives .loadimg s (· = { s with boot := mgDoneWith s.boot code }))
          ∧ (v = none → s.boot.recovery = false → Gives .loadimg s (· = { s with
              boot := mgDoneWith (if first then { s.boot with flashStage := img } else { s.boot with keptImage := some img }) 0 }))
          ∧ (v = none → s.boot.recovery = true → first = true → s.boot.keptImage = none → Gives .loadimg s fun t =>
              t.dev = s.dev ∧ t.host = s.host ∧ t.boot.flashStage = img ∧ t.boot.mgResult = 0 ∧ t.boot.mgDone = true ∧ t.boot.mgBusy = none
              ∧ t.boot.stage = 1 ∧ t.boot.recovery = false ∧ t.boot.tries = 0 ∧ t.boot.runFirst = Config.stageVersion img))
      ∧ ∀ (s : State) (first : Bool), s.boot.mgBusy = some (if first then 0x0003 else 0x0103) →
        (s.boot.recovery = true → Gives .raisever s (· = { s with boot := mgDoneWith s.boot 0x0100 }))
        ∧ (s.boot.recovery = false → Gives .raisever s (· = { s with boot := mgDoneWith (if first
            then { s.boot with minFirst := BitVec.ofNat 64 (max (uv s.boot.minFirst) (uv s.boot.runFirst)) }
            else { s.boot with minImage := BitVec.ofNat 64 (max (uv s.boot.minImage) (uv s.boot.runImage)) }) 0 }))
  ) ∧
  (
    let Report (s : State) (nonce : Nat) (byte : Nat → Byte) : Prop :=
      let word (at_ n : Nat) : Nat := leNat ((List.range n).map fun i => byte (at_ + i))
      (∀ i < 8, word (64 * i) 64 = (vget s.boot.measure i 0).toNat) ∧ word 0x0200 8 = uv s.boot.runFirst
      ∧ word 0x0208 8 = uv s.boot.runImage ∧ word 0x0210 8 = s.dev.modnum % 2048 ∧ word 0x0218 64 = nonce
      ∧ ∀ i < 4627, byte (0x0258 + i) = (Config.sign ((List.range 0x0258).map byte)).getD i 0
    (∀ s : State, s.boot.mgBusy = some 0x0002 →
        let at_ := uv s.boot.mgiova
        (uv s.boot.mglen < 5291 → Gives .attest s (· = { s with boot := mgDoneWith s.boot 0x0100 }))
        ∧ (5291 ≤ uv s.boot.mglen → s.iommuFault at_ 64 = true → Gives .attest s (· = { s with boot := mgDoneWith s.boot 0x0101 }))
        ∧ (5291 ≤ uv s.boot.mglen → s.iommuFault at_ 64 = false → s.iommuFault (at_ + 64) 5227 = false → s.host.hostMem.wf = true →
            Gives .attest s fun t => t.boot = mgDoneWith s.boot 0 ∧ t.dev = s.dev
              ∧ Report s (s.host.hostMem.nat at_ 64) (fun i => t.host.hostMem.get (at_ + 64 + i))
              ∧ ∀ a, (a < at_ + 64 ∨ at_ + 5291 ≤ a) → t.host.hostMem.get a = s.host.hostMem.get a))
      ∧ ∀ s : State, 4 ≤ s.boot.stage → s.boot.recovery = false → Gives .attestPost s fun t =>
          { t with boot := { t.boot with report := s.boot.report } } = s ∧ t.boot.report.length = 5227
            ∧ Report s s.args.cmd.toNat (fun i => t.boot.report.getD i 0)
  )

/-! ### Reliability, links, power, the cache ways and the queues of the tables (R35-R40, R51-R59, R79-R82, R178-R180) -/

namespace Sys2Proof.Claims

/-- A field of an error record (R58): `n` bits from bit `lo` of its 256. -/
def recField (r : BitVec 256) (lo n : Nat) : Nat := (r.extractLsb' lo n).toNat

/-- Flojo's log takes one record more (R56-R58), with the cycle of its die and a count of 1. Its SEQ is the number of records before it, which is
the model's choice: the spec gives the SEQ of Flojo's log no rule (log entry 56). -/
def Logged (s t : Dev) (kind die addr sev agent info : Nat) : Prop :=
  ∃ r, t.flojoLog = s.flojoLog ++ [r] ∧ recField r 88 8 = kind ∧ recField r 84 4 = die ∧ recField r 96 64 = addr ∧ recField r 78 4 = sev
    ∧ recField r 64 13 = agent ∧ recField r 0 32 = info ∧ recField r 32 22 = 1 ∧ recField r 224 32 = s.flojoLog.length % 2 ^ 32
    ∧ recField r 160 64 = (s.dieCycle die).toNat

/-- Whether the spare die is free (R35, R38). -/
def SpareFree (d : Dev) : Prop := d.spareUsed = none ∧ 4 ∉ d.deadDies

end Sys2Proof.Claims

/-- R35, R36, R38: a die that crosses a threshold, with the spare free: the cores of its quadrant that hold a partition are interrupted
while one of them has not drained; with none left to save, the spare serves the quadrant, and Flojo's log has the record. With no spare free
there is only a record. R39: a compute die that fails hard takes the stash registrations, the requests and the cores of its quadrant with
it, and the spare takes its place when it is free; each task that ran there is lost: its core holds no task, its group counts it, the log of its
partition takes a record of kind 0x0B with SEV 3, the core and the group, and its join mailbox is incremented. That SEQ of a record in Flojo's log is
the number of records before it, and SEV of the one of kind 0x0A is 0, is the model's choice (log entry 56). -/
def Obligations.SparingAndLossOfDies : Prop :=
  (
    ∀ s : State, s.args.a < 4 → s.args.c < 2 ^ 32 →
      let a := s.args.a
      let busy (r : Nat) : Prop := r / 1024 = a ∧ (s.dev.core r).part.isSome = true ∧ (s.dev.core r).lost = false
      (SpareFree s.dev → (∃ r, busy r ∧ (s.dev.core r).wb ≠ []) → Gives .dieSparing s fun t =>
          t.dev.mem = s.dev.mem ∧ t.dev.spareUsed = none ∧ t.dev.flojoLog = s.dev.flojoLog ∧ (∀ r, busy r → (t.dev.core r).saving = true)
          ∧ (∀ r, { t.dev.core r with saving := (s.dev.core r).saving, commitWait := (s.dev.core r).commitWait } = s.dev.core r)
          ∧ ∀ r, ¬busy r → t.dev.core r = s.dev.core r)
      ∧ (SpareFree s.dev → (∀ r, ¬busy r) → Gives .dieSparing s fun t =>
          t.dev.mem = s.dev.mem ∧ t.dev.spareUsed = some a ∧ t.dev.deadDies = s.dev.deadDies ++ [a]
          ∧ Logged s.dev t.dev 0x0A a 0 0 8191 s.args.c ∧ (∀ r, r / 1024 ≠ a → t.dev.core r = s.dev.core r) ∧ t.dev.parts = s.dev.parts)
      ∧ (¬SpareFree s.dev → Gives .dieSparing s fun t => ∃ r, t.dev.flojoLog = s.dev.flojoLog ++ [r] ∧ recField r 0 32 = s.args.c
          ∧ 1 ≤ recField r 88 8 ∧ recField r 88 8 ≤ 15 ∧ recField r 84 4 = (if s.dev.spareUsed = some a then 4 else a)
          ∧ { t.dev with flojoLog := s.dev.flojoLog, freeCtr := s.dev.freeCtr } = s.dev)
  ) ∧
  (
    (∀ s : State, s.args.a < 4 → (∀ l ∈ s.dev.leases, l.rank / 1024 ≠ s.args.a) →
        let a := s.args.a
        (∀ c ∈ s.dev.cores, c.1 / 1024 = a → c.2.tasks = [] ∧ c.2.inbox = [] ∧ c.2.overflow = [] ∧ c.2.part = none
          ∧ ∀ k < 16, (c.2.slot k).occ = false) →
        Gives .computeDieLost s fun t => t.dev.mem = s.dev.mem ∧ t.dev.parts = s.dev.parts
          ∧ t.dev.deadDies = s.dev.deadDies ++ [if s.dev.spareUsed = some a then 4 else a]
          ∧ (∀ c ∈ s.dev.cores, c.1 / 1024 = a → (∀ q ∈ t.dev.homeQ, q.rank ≠ c.1) ∧ ((t.dev.core c.1).lost = true ↔ ¬SpareFree s.dev))
          ∧ (SpareFree s.dev → t.dev.spareUsed = some a) ∧ (¬SpareFree s.dev → t.dev.spareUsed = s.dev.spareUsed)
          ∧ (∀ g ∈ s.dev.regs, g.2.1 / 1024 = a → (aget? s.dev.cores g.2.1).isSome = true → g.1 ∈ t.dev.lostRegs)
          ∧ ∀ r, r / 1024 ≠ a → t.dev.core r = s.dev.core r)
      ∧ (∀ s : State, s.args.a < 4 → (s.dev.cores.map (·.1)).Nodup → (∀ m ∈ s.dev.net, m.1 < s.dev.netSeq) →
        (∀ c ∈ s.dev.cores, c.1 / 1024 = s.args.a → c.2.inbox = [] ∧ c.2.overflow = [] ∧ (c.2.tasks.map (·.id)).Nodup
          ∧ ∀ k < 16, (c.2.slot k).guest = false) →
        let gone := (s.dev.cores.filter fun c => c.1 / 1024 == s.args.a).flatMap fun c => (c.2.tasks.filter fun x => !x.ended).map fun x => (c.1, x)
        Gives .computeDieLost s fun t => (∀ c ∈ s.dev.cores, c.1 / 1024 = s.args.a → (t.dev.core c.1).tasks = [])
          ∧ (∀ p i g, aget? (s.dev.part p).groups i = some g →
            let n := gone.countP fun x => x.2.part == p && x.2.group == i
            n < g.live → ∃ y, aget? (t.dev.part p).groups i = some y ∧ y.lost = g.lost + n ∧ y.live = g.live - n)
          ∧ (∀ p, (s.dev.part p).elogQ.head?.any (·.merging) = true → ∀ r i,
            let isLoss (e : LogEnt) : Bool := e.err == ErrRec.mk 0x0B (s.dev.dieOf r) 0 0 3 r 15 i 1
            (t.dev.part p).elogQ.countP isLoss
              = (s.dev.part p).elogQ.countP isLoss + gone.countP fun x => x.1 == r && x.2.part == p && x.2.group == i)
          ∧ ∀ p rank idx,
            let isJoin (m : Nat × NetMsg) : Bool := match m.2.msg with
              | .incr q r i n tag => q == p && r == rank && i == idx && n == 1 && tag.1 == srcLoss
              | .launch _ _ _ | .frame _ _ _ => false
            t.dev.net.countP isJoin = s.dev.net.countP isJoin
              + gone.countP fun x => x.2.desc.jen && x.2.part == p && x.2.desc.jrank == rank && x.2.desc.jidx == idx)
      ∧ ∀ (s : State) r c p x g, s.args.a < 4 → s.dev.cores = [(r, c)] → r / 1024 = s.args.a → c.part = some p → c.tasks = [x] →
        x.ended = false → x.part = p → x.bufs = [] → c.inbox = [] → c.overflow = [] → (∀ k < 16, (c.slot k).guest = false) →
        aget? (s.dev.part p).groups x.group = some g → 2 ≤ g.live →
        Gives .computeDieLost s fun t => (t.dev.core r).tasks = [] ∧ (t.dev.core r).part = some p
          ∧ ∃ y, aget? (t.dev.part p).groups x.group = some y ∧ y.lost = g.lost + 1 ∧ y.live = g.live - 1
  )

/-- R40, R53, R51, R52: a replay that fails counts against its port and one that succeeds clears the count; after 8 the port goes down with
a record; a PCIe error of no partition is logged, and a replayed flit is not seen; a droop stretches and releases the clock of its quad
alone; at a die's hard limit the record is written and the module is off, and an off module makes no step. The SEQ of a record in Flojo's log,
and the SEV of the records of a port that goes down, of PCIe and of the hard limit, are the model's choice (log entry 56). R53-R55, R57: what patrol scrub
corrects joins the corrected errors of its kind and address; what it cannot correct poisons the line of memory or of a core's own memory, with a record;
a poisoned line with a clean backing copy is rewritten from it and is poisoned no more, and one without stays. -/
def Obligations.LinksPowerAndScrub : Prop :=
  (
    ∀ s : State,
      let a := s.args.a
      let fails := (aget? s.dev.linkFails a).getD 0
      (a ∈ s.dev.linksDown → Gives .flitReplay s (· = s))
      ∧ (a ∉ s.dev.linksDown → Gives .flitReplay s fun t =>
          aget? t.dev.linkFails a = some (if s.args.ok then 0 else fails + 1) ∧ (∀ b, b ≠ a → aget? t.dev.linkFails b = aget? s.dev.linkFails b)
          ∧ { t with dev := { t.dev with linkFails := s.dev.linkFails } } = s)
      ∧ (8 ≤ fails → a < 16 → a ∉ s.dev.linksDown → s.args.b < 2 ^ 32 → Gives .linkPortDown s fun t =>
          t.dev.linksDown = s.dev.linksDown ++ [a] ∧ Logged s.dev t.dev 0x08 11 a 0 (5140 + a) s.args.b
          ∧ { t with dev := { t.dev with linksDown := s.dev.linksDown, flojoLog := s.dev.flojoLog } } = s)
      ∧ (fails < 8 ∨ a ∈ s.dev.linksDown → Gives .linkPortDown s (· = s))
      ∧ (s.args.ok = true → Gives .pcieError s (· = s))
      ∧ (s.args.ok = false → s.args.b = 0 → Gives .pcieError s fun t => Logged s.dev t.dev 0x09 10 0 1 5156 0
          ∧ { t with dev := { t.dev with flojoLog := s.dev.flojoLog } } = s)
      ∧ (∀ i on, (i, on) ∈ [(Instr.droopTrip, true), (Instr.droopClear, false)] → Gives i s fun t =>
          t.dev.quad a = { s.dev.quad a with stretched := on } ∧ (∀ q, q ≠ a → t.dev.quad q = s.dev.quad q)
          ∧ { t with dev := { t.dev with quads := s.dev.quads } } = s)
      ∧ (11 < a → Gives .thermalShutdown s (· = s))
      ∧ (a ≤ 11 → Gives .thermalShutdown s fun t => t.boot = { s.boot with off := true } ∧ Logged s.dev t.dev 0x0C a 0 0 8191 0
          ∧ { t with boot := s.boot, dev := { t.dev with flojoLog := s.dev.flojoLog } } = s ∧ step t = .fault .shutDown)
  ) ∧
  (
    (∀ s : State,
        let f := s.args.scrub
        let kind := if f.correctable then (if f.dram then 0x05 else 0x03) else if f.dram then 0x06 else 0x04
        let addr := if f.unit = .line then f.addr else 0
        f.die ≤ 11 → (f.agent ≤ 5166 ∨ f.agent = 8191) →
        (∀ p, f.correctable = true → f.part = some p → (∀ c ∈ s.dev.corr, ¬(c.part = f.part ∧ c.kind = kind ∧ c.addr = addr)) →
          Gives .patrolScrub s fun t => t.dev.corr = s.dev.corr ++ [⟨some p, kind, addr, 0⟩]
            ∧ (∃ e, (t.dev.part p).elogQ = (s.dev.part p).elogQ ++ [e] ∧ e.merging = true ∧ e.cycle = s.dev.dieCycle f.die
              ∧ (e.err.kind, e.err.die, e.err.addr, e.err.sev, e.err.agent, e.err.info, e.err.count) = (kind, f.die, addr, 0, f.agent, f.info.toNat, 1))
            ∧ { t.dev.part p with elogQ := (s.dev.part p).elogQ } = s.dev.part p
            ∧ (∀ q, q ≠ p → t.dev.part q = s.dev.part q)
            ∧ { t with dev := { t.dev with corr := s.dev.corr, parts := s.dev.parts } } = s)
        ∧ (∀ p c e, f.correctable = true → f.part = some p → c ∈ s.dev.corr → (c.part, c.kind, c.addr) = (some p, kind, addr) →
          (s.dev.part p).elogQ = [e] → e.merging = true → (e.err.kind, e.err.addr) = (kind, addr) → Gives .patrolScrub s fun t =>
            (t.dev.part p).elogQ = [{ e with err := { e.err with count := e.err.count + 1 } }]
            ∧ (∀ q, q ≠ p → t.dev.part q = s.dev.part q) ∧ { t with dev := { t.dev with parts := s.dev.parts } } = s)
        ∧ (f.correctable = false → f.part = none → f.addr < 2 ^ 64 → Gives .patrolScrub s fun t =>
          Logged s.dev t.dev kind f.die addr 4 f.agent f.info.toNat
          ∧ (f.unit = .line → (∀ l, l ∈ t.dev.poison ↔ l ∈ s.dev.poison ∨ l = f.addr / 128)
            ∧ { t with dev := { t.dev with poison := s.dev.poison, flojoLog := s.dev.flojoLog } } = s)
          ∧ (∀ r, f.unit = .localMem r → (∀ l, l ∈ (t.dev.core r).badLmem ↔ l ∈ (s.dev.core r).badLmem ∨ l = f.addr / 128)
            ∧ { t.dev.core r with badLmem := (s.dev.core r).badLmem } = s.dev.core r ∧ (∀ q, q ≠ r → t.dev.core q = s.dev.core q)
            ∧ { t with dev := { t.dev with cores := s.dev.cores, flojoLog := s.dev.flojoLog } } = s)))
      ∧ (∀ s : State, aget? s.dev.backing (s.args.a / 512) = none → Gives .poisonRestore s (· = s))
      ∧ ∀ (s : State) data, s.args.a ∈ s.dev.poison → s.dev.mem.wf = true → s.args.a < 2 ^ 56 →
          ((∃ pa, aget? s.dev.backing (s.args.a / 512) = some (.lp pa) ∧ s.dev.poisoned (pa / 128 + s.args.a % 512) = false ∧ s.dev.regs = []
              ∧ data = s.dev.mem.line (pa / 128 + s.args.a % 512))
            ∨ ∃ iova, aget? s.dev.backing (s.args.a / 512) = some (.host iova)
              ∧ s.iommuFault (iova + 128 * (s.args.a % 512)) 128 = false
              ∧ data = BitVec.ofNat 1024 (s.host.hostMem.nat (iova + 128 * (s.args.a % 512)) 128)) →
          Gives .poisonRestore s fun t => t.dev.mem.line s.args.a = data
          ∧ (∀ x, (x < 128 * s.args.a ∨ 128 * s.args.a + 128 ≤ x) → t.dev.mem.get x = s.dev.mem.get x)
          ∧ (∀ l, l ∈ t.dev.poison ↔ l ∈ s.dev.poison ∧ l ≠ s.args.a) ∧ Logged s.dev t.dev 0x0D 10 (128 * s.args.a) 0 5159 0
  )

/-- R79, R81, R82: a rebalance gives every configured partition at least FLOOR and at most CEIL ways and clears the counts; in the spec's
example partition 3 gets ways 0 to 3 and partition 9 ways 4 to 11, divided among the classes as R82 says. R56, R178-R180: the log writer and
the slices take the TAIL and HEAD that software stored; a counted fill raises its frame's count to at most 65,535, and at the threshold an
entry is written at TAIL, TAIL advances and the frame is QUEUED; a pending frame is written once space has returned. That a stored TAIL counts
modulo the size of the log, and a stored HEAD modulo 4,096, is the model's reading (log entry 39): R56 and R180 give a value out of range no
meaning. -/
def Obligations.CacheWaysAndLogs : Prop :=
  (
    (∀ s : State, (s.dev.parts.map (·.1)).Nodup → (∀ p ∈ s.dev.parts, p.2.cfg.floor ≤ p.2.cfg.ceil) →
        Gives .llcRebalance s fun t => t.dev.shadowHits = [] ∧ { t.dev with shadowHits := s.dev.shadowHits, parts := s.dev.parts } = s.dev
          ∧ ∀ p x, (p, x) ∈ s.dev.parts →
            (x.configured = false → t.dev.part p = x)
            ∧ (x.configured = true → x.cfg.floor ≤ (t.dev.part p).ways.length ∧ (t.dev.part p).ways.length ≤ x.cfg.ceil
              ∧ { t.dev.part p with ways := x.ways, clsWays := x.clsWays } = x))
      ∧ ∀ (s : State) x y, s.dev.parts = [(3, x), (9, y)] → x.configured = true → y.configured = true →
        (x.cfg.floor, x.cfg.ceil) = (2, 8) → (y.cfg.floor, y.cfg.ceil) = (1, 12) →
        (x.cfg.qw, x.cfg.qa, x.cfg.qk, x.cfg.qo) = (4, 4, 6, 2) → (y.cfg.qw, y.cfg.qa, y.cfg.qk, y.cfg.qo) = (4, 4, 6, 2) →
        aget? s.dev.shadowHits 3 = some [900, 500, 300, 200, 40, 30, 20, 10, 5, 5, 0, 0] →
        aget? s.dev.shadowHits 9 = some [800, 600, 400, 350, 300, 250, 100, 50, 20, 10, 5, 0] →
        Gives .llcRebalance s fun t => (t.dev.part 3).ways = [0, 1, 2, 3] ∧ (t.dev.part 9).ways = [4, 5, 6, 7, 8, 9, 10, 11]
          ∧ (t.dev.part 9).clsWays = [[4, 5], [6, 7], [8, 9, 10], [11]] ∧ (t.dev.part 3).clsWays = [[0], [1], [2, 3], []]
  ) ∧
  (
    (∀ s : State, AtHomes s.dev →
        let x := s.dev.part s.args.a
        x.cfg.elogbase % 128 = 0 → x.elogQ = [] → Gives .errorLogTailUpdate s fun t => t.dev.mem = s.dev.mem
          ∧ t.dev.part s.args.a = { x with elogTail := s.dev.mem.nat (x.cfg.elogbase + 8) 4 % 2 ^ x.cfg.eloglog2 }
          ∧ ∀ p, p ≠ s.args.a → t.dev.part p = s.dev.part p)
      ∧ (let Entry (s t : State) (part f page count : Nat) (pages : List (Nat × PageId)) : Prop :=
          let x := s.dev.part part
          t.dev.mem.nat (x.cfg.nqbase + 0x1000 + 16 * x.nqTail) 16 = page % 2 ^ 32 * 65536 + 2 ^ 64 * (f % 2 ^ 30 * 65536 + count)
          ∧ t.dev.mem.nat x.cfg.nqbase 4 = (x.nqTail + 1) % 4096 ∧ (t.dev.part part).nqTail = (x.nqTail + 1) % 4096
          ∧ aget? t.dev.lp f = some ⟨count, true, none, pages⟩
          ∧ ∀ a, (a < x.cfg.nqbase ∨ x.cfg.nqbase + 4 ≤ a) → (a < x.cfg.nqbase + 0x1000 + 16 * x.nqTail ∨ x.cfg.nqbase + 0x1010 + 16 * x.nqTail ≤ a) →
            t.dev.mem.get a = s.dev.mem.get a
        (∀ s : State, AtHomes s.dev →
          let part := s.args.a
          let x := s.dev.part part
          let head := s.dev.mem.nat (x.cfg.nqbase + 8) 4 % 4096
          x.cfg.nqbase % 4096 = 0 →
          ((∀ f ∈ s.dev.lp, f.2.pendPage = none) → Gives .notifyQueueHeadUpdate s fun t => t.dev.mem = s.dev.mem
            ∧ t.dev.part part = { x with nqHead := head } ∧ t.dev.lp = s.dev.lp)
          ∧ ∀ f y page, s.dev.lp = [(f, y)] → y.pendPage = some (part, page) → y.count < 65536 → (x.nqTail + 1) % 4096 ≠ head →
            Gives .notifyQueueHeadUpdate s fun t => Entry s t part f page y.count y.pages ∧ (t.dev.part part).nqHead = head)
        ∧ ∀ (s : State) (pg : PageId), AtHomes s.dev →
          let part := s.args.a
          let f := s.args.b
          let x := s.dev.part part
          let y := (aget? s.dev.lp f).getD ⟨0, false, none, []⟩
          let n := min (y.count + 1) 65535
          let pages := if y.pages.contains (part, pg) then y.pages else y.pages ++ [(part, pg)]
          pg.num = s.args.c → s.dev.lpFills.find? (fun e => e.1 == part && e.2.1 == f && e.2.2.num == s.args.c) = some (part, f, pg) →
          x.cfg.nqbase % 4096 = 0 →
          (x.cfg.lpthresh = 0 ∨ n < x.cfg.lpthresh ∨ y.queued = true → Gives .lpFrameFill s fun t =>
            t.dev.lpFills = s.dev.lpFills.erase (part, f, pg) ∧ aget? t.dev.lp f = some { y with count := n, pages := pages }
            ∧ { t.dev with lp := s.dev.lp, lpFills := s.dev.lpFills } = s.dev)
          ∧ (1 ≤ x.cfg.lpthresh → x.cfg.lpthresh ≤ n → y.queued = false → (∀ e ∈ s.dev.lp, e.2.pendPage = none) →
            (x.nqTail + 1) % 4096 ≠ x.nqHead → Gives .lpFrameFill s fun t => Entry s t part f s.args.c n pages))
  )

/-! ### Placement, messages, pre-emption (R78, R93-R101, R107, R110-R119, R142, R147-R151) -/

namespace Sys2Proof.Claims

/-- Task `index` of group `g` starts on core `r` with the slots `slots` and the window from block `b` (R93, R94): its threads begin at ENTRY in user
mode with the group's segments, x10 the argument, x11 their index and every other register 0; its scratch and stash bytes read 0; the
slots that it does not take, and memory, are as before. -/
structure TaskStarts (s t : Dev) (part r : Nat) (g : Group) (index : Nat) (slots : List Nat) (b : Nat) : Prop where
  task : ∃ x, (t.core r).tasks = (s.core r).tasks ++ [x] ∧ x.part = part ∧ x.group = g.id ∧ x.index = index ∧ x.desc = g.desc ∧ x.base = b
    ∧ x.slots = slots.take g.desc.threads ∧ x.guestSlots = slots.drop g.desc.threads ∧ x.ended = false
  threads : ∀ i k, i < g.desc.threads → slots[i]? = some k →
    let a := t.slot r k
    a.occ = true ∧ a.mode = false ∧ a.pc = g.desc.entry ∧ a.s = g.segs ∧ a.pend = [] ∧ a.wait = .none ∧ a.v = Vector.replicate 32 0
      ∧ ∀ n, a.xr n = if n = 10 then g.desc.args else if n = 11 then BitVec.ofNat 64 i else 0
  others : ∀ k, k ∉ slots → t.slot r k = s.slot r k
  cores : ∀ c, c ≠ r → t.core c = s.core c
  window : (s.core r).lmem.wf = true → ∀ a, 32768 * b ≤ a → a < 32768 * (b + g.desc.needBlocks) → (t.core r).lmem.get a = 0
  memory : t.mem = s.mem

/-- Message `n` has left the network, and nothing else of it. -/
def OffNet (s t : State) (n : Nat) : Prop :=
  t.boot = s.boot ∧ t.host = s.host ∧ aget? t.dev.net n = none ∧ ∀ m, m ≠ n → aget? t.dev.net m = aget? s.dev.net m

/-- Message `n` has left the network; of the device only cores may differ beside it. -/
def Delivered (s t : State) (n : Nat) : Prop := OffNet s t n ∧ { t.dev with cores := s.dev.cores, net := s.dev.net } = s.dev

/-- A gate of the thread of a frame, whose number becomes `key`; any other gate as it is. -/
def gateTo (part : Nat) (f : Frame) (key : Nat × Nat) (g : Gate) : Gate :=
  if g.part = part ∧ g.prank = f.srcRank ∧ g.slot = f.srcSlot then { g with prank := key.1, slot := key.2 } else g

/-- Message `n` is a frame and has left the network; the releases and the messages that are on their way for its thread, and its accesses to other
modules, follow it to the number `key` (R194, R213, R275). -/
def FrameLeaves (s t : State) (n part : Nat) (f : Frame) (key : Nat × Nat) : Prop :=
  t.boot = s.boot ∧ t.host = s.host ∧ aget? t.dev.net n = none
    ∧ (∀ m, m ≠ n → aget? t.dev.net m = (aget? s.dev.net m).map fun x => { x with
      gates := x.gates.map (gateTo part f key)
      thread := if x.thread = some (part, f.srcRank, f.srcSlot) then some (part, key.1, key.2) else x.thread })
    ∧ t.dev.remote = s.dev.remote.map fun p =>
      let u := { p.2 with gate := p.2.gate.map (gateTo part f key) }
      (p.1, if u.part = part ∧ u.prank = f.srcRank ∧ u.slot = f.srcSlot ∧ u.chan = none
        then { u with rank := (s.dev.part part).cfg.hbase + key.1, prank := key.1, slot := key.2 } else u)

/-- The source slot of a frame is free: a home slot is kept as away, with what is recorded for its thread. -/
def LeavesSlot (s t : State) (part : Nat) (f : Frame) : Prop :=
  let src := (s.dev.part part).cfg.hbase + f.srcRank
  (t.dev.slot src f.srcSlot).occ = false
    ∧ ((s.dev.slot src f.srcSlot).guest = false → (t.dev.slot src f.srcSlot).away = true
      ∧ (t.dev.slot src f.srcSlot).mxerr = (s.dev.slot src f.srcSlot).mxerr)

/-- The word at `a` of memory. -/
def wordAt (d : Dev) (a : Nat) : Word := BitVec.ofNat 64 (d.mem.nat a 8)

/-- Where the context block of a partition rank lies (R112). -/
def blockAt (d : Dev) (part prank : Nat) : Nat := (d.part part).cfg.ctxbase + 0x100000 * prank

end Sys2Proof.Claims

/-- R96, R97, R107: with one group waiting, PLACE compact starts its next task on the lowest rank outside the gang interval that has room,
and nothing happens while there is none; a group whose last task has started leaves the queue. In a DET partition a core that runs no task
starts the head of its rank's list. R100: a gang at the head of its stream that cannot be placed reserves the aligned run with the fewest
long-lived tasks. -/
def Obligations.PlacementAndGangs : Prop :=
  (
    (∀ (s : State) q gid g, s.args.a < 64 →
        let p := s.args.a
        let x := s.dev.part p
        x.st = .resident → x.cfg.det = false → q < 8 → x.queues = [(q, [gid])] → aget? x.groups gid = some g → g.id = gid →
        g.localImg = none → g.desc.place = 0 →
        ((∀ r < x.cfg.hlen, x.inGang r = false → s.dev.dispatch p r g.desc false = none) → Gives .taskPlacement s (· = s))
        ∧ ∀ r slots b, r < x.cfg.hlen → x.inGang r = false → s.dev.dispatch p r g.desc false = some (slots, b) →
          (∀ r' < r, x.inGang r' = false → s.dev.dispatch p r' g.desc false = none) →
          Gives .taskPlacement s fun t => TaskStarts s.dev t.dev p (x.cfg.hbase + r) g g.next slots b
            ∧ aget? (t.dev.part p).groups gid = some { g with next := g.next + 1, live := g.live + 1, lastRank := some r }
            ∧ (t.dev.part p).stream = q
            ∧ aget? (t.dev.part p).queues q = some (if g.desc.tasks ≤ g.next + 1 then [] else [gid])
            ∧ ∀ o, o ≠ p → t.dev.part o = s.dev.part o)
      ∧ ∀ (s : State) gid i rest g slots b,
        let p := s.args.a
        let x := s.dev.part p
        let r := x.cfg.hbase + s.args.b
        x.st = .resident → x.cfg.det = true → aget? x.det s.args.b = some ((gid, i) :: rest) → aget? x.groups gid = some g → g.id = gid →
        g.localImg = none → (∀ y ∈ (s.dev.core r).tasks, y.ended = true) → s.dev.fit p r g.desc = some (slots, b) →
        Gives .taskPlacement s fun t => TaskStarts s.dev t.dev p r g i slots b ∧ aget? (t.dev.part p).det s.args.b = some rest
  ) ∧
  (
    ∀ (s : State) gid rest g,
      let p := s.args.a
      let q := s.args.b
      let x := s.dev.part p
      let n := g.desc.tasks
      let load (b : Nat) : Nat := ((List.range n).map fun i => s.dev.longLived (x.cfg.hbase + (b + i))).sum
      aget? x.queues q = some (gid :: rest) → aget? x.groups gid = some g → g.desc.place = 3 → x.resv = none → x.st = .resident →
      x.cfg.det = false → s.dev.plan p g = none → 1 ≤ n → n ≤ x.cfg.hlen → x.cfg.hlen ≤ 4096 →
      Gives .gangReservation s fun t => ∃ b k, t.dev.part p = { x with resv := some ⟨q, b, n⟩ } ∧ { t.dev with parts := s.dev.parts } = s.dev
        ∧ (∀ o, o ≠ p → t.dev.part o = s.dev.part o) ∧ n ≤ 2 ^ k ∧ (k = 0 ∨ 2 ^ (k - 1) < n) ∧ b % 2 ^ k = 0 ∧ b + n ≤ x.cfg.hlen
        ∧ ∀ c, c % 2 ^ k = 0 → c + n ≤ x.cfg.hlen → load b ≤ load c
  )

/-- R147-R150: a frame enters the inbox of its target, and frees its source slot: a home slot is kept as away. With the inbox full, or while frames
of its target are spilled, it goes to the spill area, into the lowest record that is not valid, under the next SEQ of its target, with the record's
reserved bytes 0; with every record valid the `migrate` raises MIGRATE. A core takes its spilled frame with the lowest SEQ. The numbers that stand
for the slot of a thread on its way are the model's own (log entry 3). -/
def Obligations.FramesInFlight : Prop :=
  (∀ (s : State) part rank f th, aget? s.dev.net s.args.a = some ⟨.frame part rank f, [], th⟩ → OnCore s.dev part rank → f.srcSlot < 16 →
      let x := s.dev.part part
      let r := x.cfg.hbase + rank
      let src := x.cfg.hbase + f.srcRank
      let a := s.dev.slot src f.srcSlot
      let Spills : Prop := 32 ≤ (s.dev.core r).inbox.length ∨ (s.dev.core r).spilled ≠ 0
      let key := (f.srcRank, 17 + 2 * s.args.a)
      ((s.dev.core r).inbox.length < 32 → (s.dev.core r).spilled = 0 → Gives .migrationFrameArrival s fun t =>
        FrameLeaves s t s.args.a part f key ∧ LeavesSlot s t part f
          ∧ (t.dev.core r).inbox = (s.dev.core r).inbox ++ [.frame { f with srcSlot := 17 + 2 * s.args.a }]
          ∧ (a.guest = false → { t.dev with cores := s.dev.cores, net := s.dev.net, remote := s.dev.remote }
              = { s.dev.mapGates (gateTo part f key) with cores := s.dev.cores, net := s.dev.net, remote := s.dev.remote }
            ∧ (∀ c, c ≠ r → c ≠ src → { t.dev.core c with out := (s.dev.core c).out, tasks := (s.dev.core c).tasks } = s.dev.core c)
            ∧ ∀ c k, ¬(c = src ∧ k = f.srcSlot) → t.dev.slot c k = s.dev.slot c k))
      ∧ (Spills → AtHomes s.dev → 1 ≤ x.cfg.spilllen → x.cfg.spillbase % 65536 = 0 →
        (∀ j < 32 * x.cfg.spilllen, s.dev.mem.nat (x.cfg.spillbase + 2048 * j) 8 / 2 ^ 63 % 2 = 1) → a.pend = [] →
        Gives .migrationFrameArrival s fun t => Delivered s t s.args.a
          ∧ EntersTrap { a with fflags := a.fflags ||| f.status.extractLsb' 10 6 } (t.dev.slot src f.srcSlot) (s.dev.core src).tvec ⟨.migrate, 0⟩)
      ∧ ∀ i, Spills → AtHomes s.dev → x.cfg.spillbase % 65536 = 0 → i < 32 * x.cfg.spilllen →
        rank < 4096 → f.x.length = 15 → f.p.length = 3 → f.v.length = 12 →
        let at_ := x.cfg.spillbase + 2048 * i
        let seq := (aget? x.spillSeq rank).getD 0
        s.dev.mem.nat at_ 8 < 2 ^ 63 → (∀ j < i, s.dev.mem.nat (x.cfg.spillbase + 2048 * j) 8 / 2 ^ 63 % 2 = 1) →
        Gives .migrationFrameArrival s fun t => FrameLeaves s t s.args.a part f (rank, 18 + 2 * seq.toNat) ∧ LeavesSlot s t part f
          ∧ t.dev.mem.nat at_ 8 = 2 ^ 63 + seq.toNat * 4096 + rank
          ∧ (∀ j < 15, wordAt t.dev (at_ + 128 + 8 * j) = f.x.getD j 0) ∧ wordAt t.dev (at_ + 128 + 8 * 34) = f.pc
          ∧ (∀ b, (8 ≤ b ∧ b < 128 ∨ 0x4A0 ≤ b ∧ b < 2048) → t.dev.mem.get (at_ + b) = 0)
          ∧ (a.guest = false → ∀ b, (b < at_ ∨ at_ + 2048 ≤ b) → t.dev.mem.get b = s.dev.mem.get b)
          ∧ aget? (t.dev.part part).spillSeq rank = some (seq + 1)
          ∧ (∀ o, o ≠ rank → aget? (t.dev.part part).spillSeq o = aget? x.spillSeq o)
          ∧ (t.dev.core r).spilled = (s.dev.core r).spilled + 1)
    ∧ ∀ (s : State) part i, (s.dev.core s.args.a).part = some part →
      let c := s.dev.core s.args.a
      let x := s.dev.part part
      let rank := s.args.a - x.cfg.hbase
      let rec_ (j : Nat) : Nat := s.dev.mem.nat (x.cfg.spillbase + 2048 * j) 8
      let mine (j : Nat) : Prop := rec_ j / 2 ^ 63 % 2 = 1 ∧ rec_ j % 4096 = rank
      c.inbox.length < 32 → 0 < c.spilled → c.saving = false → AtHomes s.dev → x.cfg.spillbase % 65536 = 0 → i < 32 * x.cfg.spilllen →
      mine i → (∀ j < 32 * x.cfg.spilllen, j ≠ i → mine j → rec_ i / 4096 % 2 ^ 32 < rec_ j / 4096 % 2 ^ 32) →
      Gives .spillDrain s fun t => (t.dev.core s.args.a).spilled = c.spilled - 1
        ∧ t.dev.mem.nat (x.cfg.spillbase + 2048 * i) 8 = rec_ i % 2 ^ 44
        ∧ (∀ b, (b < x.cfg.spillbase + 2048 * i ∨ x.cfg.spillbase + 2048 * i + 8 ≤ b) → t.dev.mem.get b = s.dev.mem.get b)
        ∧ ∃ f : Frame, (t.dev.core s.args.a).inbox = c.inbox ++ [.frame f] ∧ f.bad = false
          ∧ (∀ j < 15, f.x.getD j 0 = wordAt s.dev (x.cfg.spillbase + 2048 * i + 128 + 8 * j))
          ∧ f.pc = wordAt s.dev (x.cfg.spillbase + 2048 * i + 128 + 8 * 34)

/-- R101, R142, R117, R274: a launch message enters the inbox of its core, or an entry of the overflow ring in its context block while the inbox is
full or the ring holds older ones. That it waits in the network when both are full is the model's choice: R101 gives BUSY at the `spawn` (log entry
63), and so are the bytes of a ring entry, which no rule gives (log entry 9), the slots and blocks of a launched task (log entry 19) and the free
guest slot that a frame takes, the lowest (log entry 4). An increment is added to its counter mod 2^32 and ends the waits of `wfi`, or is parked in the saved context; a
tagged one is applied once. R101, R102, R151: a core takes the launch at the head of its inbox when the task fits, and a frame into its home
slot or a free guest slot; the inbox entry frees. An accepted thread goes on with the frame's registers, and with an acquire. -/
def Obligations.MessagesAndInboxes : Prop :=
  (
    (∀ (s : State) part rank gid th, aget? s.dev.net s.args.a = some ⟨.launch part rank gid, [], th⟩ → OnCore s.dev part rank →
        let r := (s.dev.part part).cfg.hbase + rank
        let c := s.dev.core r
        (c.inbox.length < 32 → c.overflow = [] → Gives .launchMessageArrival s fun t => Delivered s t s.args.a
          ∧ t.dev.core r = { c with inbox := c.inbox ++ [.launch gid] } ∧ ∀ o, o ≠ r → t.dev.core o = s.dev.core o)
        ∧ ((32 ≤ c.inbox.length ∨ c.overflow ≠ []) → c.overflow.length < 512 → AtHomes s.dev → (s.dev.part part).cfg.ctxbase % 128 = 0 →
          let e := (c.overflow.getLast?.map fun m => (m.entry + 1) % 512).getD 0
          let at_ := blockAt s.dev part rank + 0xC0000 + 64 * e
          Gives .launchMessageArrival s fun t => OffNet s t s.args.a ∧ t.dev.parts = s.dev.parts
            ∧ t.dev.core r = { c with overflow := c.overflow ++ [⟨gid, e, s.dev.freeCtr⟩] } ∧ (∀ o, o ≠ r → t.dev.core o = s.dev.core o)
            ∧ ∀ b, (b < at_ ∨ at_ + 64 ≤ b) → t.dev.mem.get b = s.dev.mem.get b)
        ∧ ((32 ≤ c.inbox.length ∨ c.overflow ≠ []) → 512 ≤ c.overflow.length → Gives .launchMessageArrival s (· = s)))
      ∧ (∀ (s : State) part rank idx inc src seq th, aget? s.dev.net s.args.a = some ⟨.incr part rank idx inc (src, seq), [], th⟩ → idx < 64 →
        s.dev.tagged (.incr part rank idx inc (src, seq)) = true →
        s.dev.tagSeen (tagCore part rank) src seq = none →
        let Answered (t : State) : Prop := OffNet s t s.args.a ∧ aget? (t.dev.core src).out seq = none
          ∧ t.dev.tagSeen (tagCore part rank) src seq = some ⟨tagCore part rank, src, seq, 0, 0⟩ ∧ t.dev.mem = s.dev.mem
        (OnCore s.dev part rank → Gives .mailboxIncrement s fun t =>
          let r := (s.dev.part part).cfg.hbase + rank
          let old (i : Nat) : HWord := vget (s.dev.core r).counters i 0
          let met (k : Nat) : Prop := ∃ n, (s.dev.slot r k).wait = .mbx idx n ∧ (old idx + inc - n).toNat < 2 ^ 31
          Answered t ∧ (∀ o, o ≠ r → { t.dev.core o with out := (s.dev.core o).out } = s.dev.core o)
            ∧ { t.dev with cores := s.dev.cores, net := s.dev.net, tagWin := s.dev.tagWin } = s.dev
            ∧ { t.dev.core r with counters := (s.dev.core r).counters, slots := (s.dev.core r).slots, out := (s.dev.core r).out, l1d := (s.dev.core r).l1d } = s.dev.core r
            ∧ (∀ i < 64, vget (t.dev.core r).counters i 0 = old i + if i = idx then inc else 0)
            ∧ ((∀ k < 16, ¬met k) → (t.dev.core r).l1d = (s.dev.core r).l1d)
            ∧ ∀ k < 16, ((∀ u, (s.dev.slot r k).wait ≠ .wfi u) → ¬met k → t.dev.slot r k = s.dev.slot r k)
              ∧ (∀ u, (s.dev.slot r k).wait = .wfi u → (t.dev.slot r k).wait = .none ∧ (t.dev.slot r k).pc = link (s.dev.slot r k).pc)
              ∧ (met k → (t.dev.slot r k).wait = .none ∧ (t.dev.slot r k).pc = link (s.dev.slot r k).pc ∧ (t.dev.core r).l1d = []))
        ∧ ∀ c, (s.dev.part part).st ≠ .stopped → aget? (s.dev.part part).ctx rank = some c →
          (c.parked = [] → Gives .mailboxIncrement s fun t => Answered t ∧ (∀ o, (t.dev.core o).counters = (s.dev.core o).counters)
            ∧ aget? (t.dev.part part).ctx rank = some { c with parked := [.incr part rank idx inc (0, 0)] })
          ∧ ∀ y tag, c.parked = [.incr part rank idx y tag] → Gives .mailboxIncrement s fun t => Answered t
            ∧ (∀ o, (t.dev.core o).counters = (s.dev.core o).counters)
            ∧ aget? (t.dev.part part).ctx rank = some { c with parked := [.incr part rank idx (y + inc) tag] })
      ∧ ∀ (s : State) part rank idx inc src seq o th, aget? s.dev.net s.args.a = some ⟨.incr part rank idx inc (src, seq), [], th⟩ →
        s.dev.tagged (.incr part rank idx inc (src, seq)) = true →
        OnCore s.dev part rank → s.dev.tagWin = [o] → o.recv = tagCore part rank → o.rank = src → o.seq = seq →
        Gives .mailboxIncrement s fun t =>
          Delivered s t s.args.a ∧ (∀ r, (t.dev.core r).counters = (s.dev.core r).counters) ∧ aget? (t.dev.core src).out seq = none
  ) ∧
  (
    ∀ (s : State) p, (s.dev.core s.args.a).part = some p → (s.dev.core s.args.a).saving = false → (s.dev.core s.args.a).overflow = [] →
      let r := s.args.a
      let c := s.dev.core r
      (∀ gid rest g slots b, c.inbox = .launch gid :: rest → aget? (s.dev.part p).groups gid = some g → g.id = gid → g.localImg = none →
          s.dev.fit p r g.desc = some (slots, b) →
          Gives .inboxTake s fun t => TaskStarts s.dev t.dev p r g 0 slots b ∧ (t.dev.core r).inbox = rest)
      ∧ ∀ f rest, c.inbox = .frame f :: rest → f.bad = false →
        let Arrives (t : State) (k : Nat) : Prop :=
          let a := t.dev.slot r k
          a.occ = true ∧ a.pc = f.pc ∧ (∀ i : Nat, i < 8 → a.seg (BitVec.ofNat 3 i) = segClean (vget f.s i 0)) ∧ a.mode = f.status.getLsbD 0 ∧ a.wait = .none ∧ a.pend = []
            ∧ (∀ i : Nat, 1 ≤ i → i < 32 → a.xr (BitVec.ofNat 5 i) = if i < 16 then f.x.getD (i - 1) 0 else 0)
            ∧ (∀ j, j ≠ k → t.dev.slot r j = s.dev.slot r j)
            ∧ (t.dev.core r).inbox = rest ∧ (t.dev.core r).l1d = [] ∧ t.dev.mem = s.dev.mem
        (f.home = true → Gives .inboxTake s fun t => Arrives t (f.status.extractLsb' 28 4).toNat
          ∧ (t.dev.slot r (f.status.extractLsb' 28 4).toNat).guest = false)
        ∧ ∀ k, f.home = false → c.freeGuest = some k → Gives .inboxTake s fun t => Arrives t k ∧ (t.dev.slot r k).guest = true
  )

/-- R111: after an arbiter pass each stream with demand owns its share of the 16 slots by weight, rounded down or one more, and a stream
without demand owns none; without demand the owners stay. R112-R116: an interrupted core that has not drained issues nothing more; one that
has drained writes its local memory, its slot images and its counters into its context block and is free, and the partition is DESCHEDULED
once every core is saved, which is the model's reading of the moment (log entry 42); the words of a slot image that are the core's control
registers, or reserved, read 0. A matrix command that may wait on memory and has not begun its
commit in time is given up; one with local operands, and `lclr`, completes. -/
def Obligations.SlotOwnersAndSaves : Prop :=
  (
    ∀ (s : State) p, (s.dev.core s.args.a).part = some p →
      let c := s.dev.core s.args.a
      let dm := s.dev.demand p s.args.a
      let w (q : Nat) : Nat := (s.dev.part p).cfg.slotwt.getD q 0
      let share (q : Nat) : Nat := if q ∈ dm then (if ∀ o ∈ dm, w o = 0 then 1 else w q) else 0
      let total := ((List.range 8).map share).sum
      (dm = [] → Gives .arbiterPass s (· = s))
      ∧ (dm ≠ [] → Gives .arbiterPass s fun t => ∃ own, t.dev.core s.args.a = { c with qown := own }
        ∧ (∀ o, o ≠ s.args.a → t.dev.core o = s.dev.core o) ∧ { t.dev with cores := s.dev.cores } = s.dev
        ∧ ∀ q < 8, let n := (own.toList.filter (· == q)).length
          16 * share q / total ≤ n ∧ n ≤ 16 * share q / total + 1 ∧ (q ∉ dm → n = 0))
  ) ∧
  (
    (∀ (s : State) p, (s.dev.core s.args.a).part = some p → (s.dev.core s.args.a).lost = false →
        let r := s.args.a
        let c := s.dev.core r
        let x := s.dev.part p
        let prank := r - x.cfg.hbase
        let base := blockAt s.dev p prank
        (c.wb ≠ [] → Gives .coreSave s fun t => (t.dev.core r).saving = true ∧ t.dev.mem = s.dev.mem ∧ t.dev.parts = s.dev.parts
          ∧ { t.dev.core r with saving := c.saving, commitWait := c.commitWait } = c)
        ∧ (c.saving = true → c.commitWait = false → c.wb = [] → c.out = [] → c.tasks = [] → c.uoc = [] → c.stash = [] →
            s.dev.remote = [] → AtHomes s.dev → c.lmem.wf = true →
            (∀ k < 16, (c.slot k).pend = [] ∧ (c.slot k).wait = .none ∧ (c.slot k).lease = none ∧ (c.slot k).deferred = []) →
            Gives .coreSave s fun t => (t.dev.core r).part = none ∧ (t.dev.core r).cycle = c.cycle ∧ (aget? (t.dev.part p).ctx prank).isSome = true
              ∧ (∀ a < 0x60000, t.dev.mem.get (base + a) = c.lmem.get a)
              ∧ (∀ a < 0x40000, t.dev.mem.get (base + 0x60000 + a) = c.lmem.get (0x80000 + a))
              ∧ (∀ k < 16, let at_ := base + 0xA0000 + 0x1000 * k
                (∀ i < 32, wordAt t.dev (at_ + 8 * i) = (c.slot k).xr (BitVec.ofNat 5 i)) ∧ wordAt t.dev (at_ + 0x1C0) = (c.slot k).pc
                  ∧ (wordAt t.dev (at_ + 0x1C8)).getLsbD 63 = (c.slot k).occ
                  ∧ (∀ n, n = 0x02 ∨ n = 0x03 ∨ n = 0x04 ∨ (0x0D ≤ n ∧ n ≤ 0x10) ∨ n = 0x20 → wordAt t.dev (at_ + 0x200 + 8 * n) = 0)
                  ∧ (∀ b, (0x1D8 ≤ b ∧ b < 0x200 ∨ 0x480 ≤ b ∧ b < 0x580) → t.dev.mem.get (at_ + b) = 0)
                  ∧ ∀ i < 32, BitVec.ofNat 512 (t.dev.mem.nat (at_ + 0x800 + 64 * i) 64) = (c.slot k).vr (BitVec.ofNat 5 i))
              ∧ (∀ i < 64, BitVec.ofNat 32 (t.dev.mem.nat (base + 0xB1000 + 4 * i) 4) = vget c.counters i 0)
              ∧ (∀ a, (a < base ∨ base + 0x100000 ≤ a) → t.dev.mem.get a = s.dev.mem.get a)
              ∧ (x.st = .resident → (∀ i < x.cfg.hlen, i ≠ prank → (aget? x.ctx i).isSome = true) → (t.dev.part p).st = .descheduled)))
      ∧ ∀ s : State,
          let c := s.dev.core s.args.a
          let Becomes (x : Core) : Prop := Gives .saveCommitTimeout s fun t =>
            t.dev.core s.args.a = x ∧ { t.dev with cores := s.dev.cores } = s.dev ∧ ∀ o, o ≠ s.args.a → t.dev.core o = s.dev.core o
          (c.saving = false → Becomes c) ∧ (c.mxq = [] → Becomes c) ∧ ∀ m rest, c.saving = true → c.mxq = m :: rest →
            (∀ md ra rb sa sb, m.instr = .mma md ra rb sa sb →
              ((∃ x, m.a = .glob x) ∨ (∃ x, m.b = .glob x) → Becomes { c with commitWait := false })
                ∧ ((∃ x, m.a = .loc x) → (∃ x, m.b = .loc x) → Becomes c))
            ∧ (∀ md ra sa x, m.instr = .mld md ra sa → m.a = .glob x → Becomes { c with commitWait := false })
            ∧ ∀ lx, m.instr = .lclr lx → Becomes c
  )

/-- R118, R78, R110, R142: a resumed core takes its registers, counters and local memory from its context block, counter 63 counts the resumption, and the
partition is RESIDENT, from its first resumed core on (log entry 42, as for the schedule of a DESCHEDULED one); a started partition is scheduled on empty cores with counters and slot owners 0. -/
def Obligations.ResumptionAndStart : Prop :=
  (∀ (s : State) c, let p := s.args.b
      let x := s.dev.part p
      let prank := s.args.a - x.cfg.hbase
      let base := blockAt s.dev p prank
      let hw := s.dev.core s.args.a
      x.cfg.hbase ≤ s.args.a → aget? x.ctx prank = some c → x.st ≠ .stopped → hw.part = none → hw.lost = false →
      s.dev.overlapped p = false → AtHomes s.dev → c.parked = [] → c.core.out = [] → c.core.uoc = [] →
      (∀ k < 16, (c.core.slot k).pend = [] ∧ (∀ u, (c.core.slot k).wait ≠ .wfi u) ∧ ∀ u, (c.core.slot k).wait ≠ .mbx 63 u) →
      Gives .coreResume s fun t => let e := t.dev.core s.args.a
        e.part = some p ∧ e.saving = c.core.saving ∧ e.cycle = hw.cycle ∧ (t.dev.part p).st = .resident ∧ aget? (t.dev.part p).ctx prank = none
          ∧ t.dev.mem = s.dev.mem
          ∧ (∀ a < 0x60000, e.lmem.get a = s.dev.mem.get (base + a)) ∧ (∀ a < 0x40000, e.lmem.get (0x80000 + a) = s.dev.mem.get (base + 0x60000 + a))
          ∧ (∀ i < 64, vget e.counters i 0 = BitVec.ofNat 32 (s.dev.mem.nat (base + 0xB1000 + 4 * i) 4) + if i = 63 then 1 else 0)
          ∧ ∀ k < 16, let at_ := base + 0xA0000 + 0x1000 * k
            (∀ i : Nat, 1 ≤ i → i < 32 → (e.slot k).xr (BitVec.ofNat 5 i) = wordAt s.dev (at_ + 8 * i)) ∧ (e.slot k).pc = wordAt s.dev (at_ + 0x1C0)
              ∧ (e.slot k).occ = (wordAt s.dev (at_ + 0x1C8)).getLsbD 63
              ∧ (∀ i : Nat, i < 8 → (e.slot k).seg (BitVec.ofNat 3 i) = segClean (wordAt s.dev (at_ + 0x148 + 16 * i) ++ wordAt s.dev (at_ + 0x140 + 16 * i)))
              ∧ ∀ i < 32, (e.slot k).vr (BitVec.ofNat 5 i) = BitVec.ofNat 512 (s.dev.mem.nat (at_ + 0x800 + 64 * i) 64))
    ∧ ∀ s : State, let p := s.args.a
      let x := s.dev.part p
      (x.st = .stopped → x.started = false → Gives .partitionSchedule s fun t => t.dev = s.dev)
      ∧ (x.st = .descheduled → s.dev.overlapped p = false → Gives .partitionSchedule s fun t => t.dev.part p = { x with st := .resident }
        ∧ { t.dev with parts := s.dev.parts } = s.dev)
      ∧ (x.st = .stopped → x.started = true → s.dev.overlapped p = false → AtHomes s.dev →
        (∀ i < x.cfg.hlen, (s.dev.core (x.cfg.hbase + i)).part = none) → Gives .partitionSchedule s fun t =>
          t.dev.part p = { x with st := .resident } ∧ t.dev.mem = s.dev.mem
            ∧ (∀ i < x.cfg.hlen, let c := t.dev.core (x.cfg.hbase + i)
              c.part = some p ∧ c.counters = Vector.replicate 64 0 ∧ c.qown = Vector.replicate 16 0 ∧ c.tasks = [] ∧ c.lmem = []
                ∧ c.slots = Vector.replicate 16 Slot.reset ∧ c.cycle = (s.dev.core (x.cfg.hbase + i)).cycle)
            ∧ ∀ r, (r < x.cfg.hbase ∨ x.cfg.hbase + x.cfg.hlen ≤ r) → (s.dev.core r).part ≠ some p → t.dev.core r = s.dev.core r)

/-! ### What arrives at a thread, and the requests of other modules (R41, R43, R122, R131, R160-R166, R250, R274-R278, R366-R369) -/

/-- R248, R250, R267: a complete result writes its destinations (a register, extended as its load states, a pair, the lanes of a vector, and
SWBUF and SWLIN or the flags with it), or becomes a deferred trap and leaves them as they were; it is no longer outstanding. R122, R131, R132, R250: a fetch line goes into the instruction cache of its core, and a
stash line with its registration into local memory; the slots that wait for it go on. A deferred trap is taken once no result is pending, in
supervisor mode one of a result issued since the trap was taken. -/
def Obligations.ResultArrivalsAndFills : Prop :=
  (
    ∀ (s : State) (p : Pending) (sl : Slot), s.dev.slot s.args.a s.args.b = sl → s.args.b < 16 → sl.pend = [p] → p.id = s.args.c → p.need = 0 →
      Gives .resultArrival s fun t =>
        let u := t.dev.slot s.args.a s.args.b
        u.pend = [] ∧ u.pc = sl.pc ∧ u.mode = sl.mode ∧ u.s = sl.s ∧ u.p = sl.p ∧ t.dev.mem = s.dev.mem
          ∧ (∀ r k, ¬(r = s.args.a ∧ k = s.args.b) → t.dev.slot r k = s.dev.slot r k)
          ∧ (∀ e, p.err = some e → u.x = sl.x ∧ u.v = sl.v ∧ u.deferred = deferInsert p.id e sl.deferred)
          ∧ (p.err = none → u.deferred = sl.deferred
            ∧ (∀ rd z, p.post = .zext rd z → ∀ r, u.xr r = if r = 0 then 0 else if r = rd then BitVec.ofNat 64 (leNat (p.raw.take z)) else sl.xr r)
            ∧ (∀ rd z, p.post = .sext rd z → z ∈ [1, 2, 4, 8] → p.raw.length = z → ∀ r, u.xr r = if r = 0 then 0 else if r = rd then
                word (BitVec.ofNat (8 * z) (leNat p.raw)).toInt else sl.xr r)
            ∧ (∀ rd, p.post = .pair rd → rd.toNat % 2 = 0 → ∀ r, u.xr r = if r = 0 then 0 else if r = rd then BitVec.ofNat 64 (leNat (p.raw.take 8))
                else if r = rd + 1 then BitVec.ofNat 64 (leNat (p.raw.drop 8)) else sl.xr r)
            ∧ (∀ vd z lanes, p.post = .vec vd z lanes → z ∈ [1, 2, 4, 8] → lanes.Nodup → (∀ l ∈ lanes, z * l + z ≤ 64) →
              (∀ (i : Nat) l, lanes[i]? = some l → lane (u.vr vd) z l = leNat ((p.raw.drop (z * i)).take z))
              ∧ (∀ l < 64 / z, l ∉ lanes → lane (u.vr vd) z l = lane (sl.vr vd) z l) ∧ ∀ r, r ≠ vd → u.vr r = sl.vr r)
            ∧ (∀ rd buf lin, p.post = .twait rd buf lin → u.swbuf = BitVec.ofNat 64 buf ∧ u.swlin = BitVec.ofNat 64 lin
              ∧ ∀ r, u.xr r = if r = 0 then 0 else if r = rd then BitVec.ofNat 64 (leNat (p.raw.take 8)) else sl.xr r)
            ∧ ∀ rd flags, p.post = .satom rd flags → u.fflags = sl.fflags ||| flags
              ∧ ∀ r, u.xr r = if r = 0 then 0 else if r = rd then BitVec.ofNat 64 (leNat (p.raw.take 8)) else sl.xr r)
  ) ∧
  (
    (∀ (s : State) k, let r := s.args.a
        let l := s.args.b
        k < 16 → (s.dev.slot r k).occ = true → (s.dev.slot r k).wait = .fetch l → s.dev.lineHeld l = false → s.dev.poisoned l = false →
        aget? s.dev.regs l = none → s.dev.hasUoc l = false →
        Gives .ifetchFill s fun t => aget? (t.dev.core r).l1i l = some (s.dev.mem.line l) ∧ t.dev.mem = s.dev.mem
          ∧ ∀ j < 16, t.dev.slot r j = if (s.dev.slot r j).occ ∧ (s.dev.slot r j).wait = .fetch l
            then { s.dev.slot r j with wait := .none } else s.dev.slot r j)
      ∧ (∀ (s : State) e tr d, let r := s.args.a
        let i := s.args.b
        let l := tr.pa / 128
        aget? (s.dev.core r).stash i = some e → e.st = .mapped →
        engTrans (r / 4) e.part { read := true, user := false, twinOk := true } e.gva s.dev = .ok (tr, d) → d.cores = s.dev.cores →
        d.regs = s.dev.regs → d.poisoned l = false → d.lineHeld l = false → aget? d.regs l = none → d.hasUoc l = false → d.mem.wf = true → (s.dev.core r).lmem.wf = true →
        Gives .stashFill s fun t => aget? t.dev.regs l = some (r, i)
          ∧ aget? (t.dev.core r).stash i = some { e with
            st := .clean, line := l, ro := !leafWr tr.leaf || tr.twin, large := tr.large, cls := leafClass tr.leaf
            home := homeSlice tr.leaf tr.pa }
          ∧ (t.dev.core r).lmem.line i = d.mem.line l ∧ t.dev.mem = d.mem
          ∧ (∀ a, (a < 128 * i ∨ 128 * i + 128 ≤ a) → (t.dev.core r).lmem.get a = (s.dev.core r).lmem.get a)
          ∧ (∀ o, aget? (t.dev.core o).l1d l = none)
          ∧ ∀ j < 16, t.dev.slot r j = if (s.dev.slot r j).occ ∧ (s.dev.slot r j).wait = .stash i
            then { s.dev.slot r j with wait := .none } else s.dev.slot r j)
      ∧ ∀ (s : State) n x, let r := s.args.a
        let k := s.args.b
        let a := s.dev.slot r k
        k < 16 → a.occ = true → a.away = false → a.pend = [] → a.wait = .none →
        a.deferred.find? (fun p => !a.mode || decide (a.trapPid ≤ p.1)) = some (n, x) →
        Gives .deferredTrap s fun t => SameBytes s t r k ∧ ∃ e, EntersTrap a e (s.dev.core r).tvec x
          ∧ t.dev.slot r k = { e with deferred := a.deferred.erase (n, x), copyHold := a.copyHold || !(s.dev.homeSlot r k).copyFaults.isEmpty }
  )

/-- R169, R172, R379: `fltrd` returns a word of a hamper entry of the partition; `fltreplay` empties the hamper of the partition's entries
and lets the parked threads execute again; both raise PERM for a rank outside the partition. R160, R163, R165, R168, R170: a completed walk
installs the translation in the TLBs, sets ACC in the leaf entry, and DIRTY for a write of a waiting slot that the page allows, and lets the slots that wait for the page go on, on a 2 MiB page those that wait for any part of it; on a page that is not
valid each user slot parks with its fault, or upcalls to its UVEC with bits [1:0] taken as 0 (log entry 33), and the hamper of the quad takes
the page. -/
def Obligations.PageFaultsAndWalks : Prop :=
  (
    (∀ rd ra h s, Ready { rx := [ra], wx := [rd] } s → s.dev.th.mode = true →
        let x := uv (s.dev.x ra)
        let q := (s.dev.tpart.cfg.hbase + x % 4096) / 4
        x < 65536 → x % 4096 < s.dev.tpart.cfg.hlen →
        (s.dev.quad q).hamper.find? (fun e => e.idx == x / 4096 % 8 && e.part == s.dev.th.part) = some h →
        Gives (.fltrd rd ra) s fun t => InSequence s t ∧ TakesX s t rd (BitVec.ofNat 64
            (if x / 32768 = 0 then 2 ^ 63 + (if (s.dev.quad q).dropped.contains s.dev.th.part then 2 ^ 62 else 0) + (if h.write then 2 ^ 61 else 0)
                + (if h.exec_ then 2 ^ 60 else 0) + h.part * 2 ^ 54 + h.page % 2 ^ 32 * 65536
              else q * 2 ^ 54 + h.waiters * 2 ^ 32))
          ∧ { t.dev with cores := s.dev.cores } = s.dev)
      ∧ (∀ ra s, Ready { rx := [ra] } s → s.dev.th.mode = true → Released s .pkg → uv (s.dev.x ra) < s.dev.tpart.cfg.hlen →
          uv (s.dev.x ra) < 4096 → s.dev.tpart.sweeps = [] → s.dev.th.wait = Wait.none →
          let q := (s.dev.tpart.cfg.hbase + uv (s.dev.x ra)) / 4
          Gives (.fltreplay ra) s fun t => InSequence s t
            ∧ (t.dev.quad q).hamper = (s.dev.quad q).hamper.filter (·.part != s.dev.th.part)
            ∧ (t.dev.quad q).dropped = (s.dev.quad q).dropped.filter (· != s.dev.th.part)
            ∧ t.dev.mem = s.dev.mem
            ∧ ∀ i < 4, ∀ k < 16, ∀ g, (s.dev.slot (4 * q + i) k).part = s.dev.th.part → (s.dev.slot (4 * q + i) k).occ = true →
                (s.dev.slot (4 * q + i) k).wait = .fault g → (t.dev.slot (4 * q + i) k).wait = Wait.none)
      ∧ ∀ rd ra s, Ready { rx := [ra], wx := [rd] } s → s.dev.th.mode = true → s.dev.tpart.cfg.hlen ≤ uv (s.dev.x ra) % 4096 →
          Traps (.fltrd rd ra) s .perm 0 ∧ Traps (.fltreplay ra) s .perm 0
  ) ∧
  (
    ∀ s : State, let q := s.args.a
      let part := s.args.b
      let page := s.args.c
      (part, page) ∈ (s.dev.quad q).coal → AtHomes s.dev →
      let Here (w : Walked) (g : Nat) : Prop := if w.large then g / 65536 / 32 = page / 32 else g / 65536 = page
      (∀ w d (dirty : Bool), walk part (65536 * page) s.dev = .ok (some w, d) → leafOk w.large w.leaf = true → w.leafAt % 8 = 0 →
          (dirty = true ↔ leafWr w.leaf = true
            ∧ ∃ i < 4, ∃ k < 16, ∃ g y, (s.dev.slot (4 * q + i) k).wait = .walk g true y ∧ (s.dev.slot (4 * q + i) k).part = part ∧ Here w g
              ∧ (leafRemote w.leaf = true ∨ (((s.dev.part part).cfg.rangeOf (leafAddr w.large w.leaf g)).all fun r => !r.rdonly) = true)) →
          Gives .pageWalk s fun t => (part, page) ∉ (t.dev.quad q).coal
            ∧ BitVec.ofNat 64 (t.dev.mem.nat w.leafAt 8) = w.leaf ||| BitVec.ofNat 64 (2 ^ 52) ||| (if dirty then BitVec.ofNat 64 (2 ^ 51) else 0)
            ∧ (∀ a, (a < w.leafAt ∨ w.leafAt + 8 ≤ a) → t.dev.mem.get a = s.dev.mem.get a)
            ∧ (∃ e ∈ (t.dev.quad q).tlb, e.part = part ∧ e.large = w.large ∧ e.twin = w.twin ∧ e.leaf.getLsbD 52 = true
              ∧ e.page = if w.large then page / 32 * 32 else page)
            ∧ ∀ i < 4, ∀ k < 16, ∀ g x y, (s.dev.slot (4 * q + i) k).wait = .walk g x y → (s.dev.slot (4 * q + i) k).part = part →
              Here w g → (t.dev.slot (4 * q + i) k).wait = .none ∧ (t.dev.slot (4 * q + i) k).pc = (s.dev.slot (4 * q + i) k).pc)
      ∧ ∀ d, walk part (65536 * page) s.dev = .ok (none, d) → (s.dev.quad q).hamper = [] → (s.dev.quad q).dropped = [] → s.dev.presentIn q = [part] →
          ∀ k < 16, ∀ g x y, (s.dev.slot (4 * q) k).wait = .walk g x y → (s.dev.slot (4 * q) k).part = part → g / 65536 = page →
          (s.dev.slot (4 * q) k).mode = false →
          ((s.dev.slot (4 * q) k).uvec = 0 ∨ (s.dev.slot (4 * q) k).uact = true →
            Gives .pageWalk s fun t => (part, page) ∉ (t.dev.quad q).coal ∧ (t.dev.slot (4 * q) k).wait = .fault g
              ∧ ∃ h ∈ (t.dev.quad q).hamper, h.part = part ∧ h.page = page)
          ∧ ((s.dev.slot (4 * q) k).uvec ≠ 0 → (s.dev.slot (4 * q) k).uact = false → (s.dev.slot (4 * q) k).pend = [] →
            Gives .pageWalk s fun t => (part, page) ∉ (t.dev.quad q).coal ∧ (∃ h ∈ (t.dev.quad q).hamper, h.part = part ∧ h.page = page)
              ∧ let a := s.dev.slot (4 * q) k
                let u := t.dev.slot (4 * q) k
                u.uepc = a.pc ∧ u.ucause = 0x20 ∧ u.uaddr = BitVec.ofNat 64 g ∧ u.uact = true ∧ u.pc = a.uvec &&& ~~~(3 : Word) ∧ u.wait = .none
                ∧ u.x = a.x ∧ u.mode = false)
  )

/-- R276, R202, R274: an AMO that its home serves reads the old word and writes the new one in one step; every other byte of memory is as
before, and the old value goes back. R175, R188, R132: a load that its home serves answers the bytes of the line; a store of the write
buffer that its home serves writes its masked bytes alone, and leaves the buffer. R203, R274, R277, R278: an update-only copy that returns is
a tagged request, which its home answers, and is combined into its line word by word: a word of the copy that differs from the identity gives the operation's result, and every other byte is
as before. -/
def Obligations.AccessesAtTheHome : Prop :=
  (
    ∀ (s : State) (q : HomeReq) pid off w op b c acq, q.kind = .amo pid off w op b c acq → q.line = s.args.a → NextAtHome s q →
      off + widthOf w ≤ 128 →
      Gives .homeQueueServe s fun t =>
        let old := s.dev.mem.nat (128 * q.line + off) (widthOf w)
        WordAtHome s t (128 * q.line + off) (widthOf w) (amoNew op (widthOf w) old (uv b % 256 ^ widthOf w) (uv c % 256 ^ widthOf w))
          ∧ Leaves t q ∧ Answers s t q pid 0 (leBytes (widthOf w) old)
          ∧ aget? (t.dev.core q.rank).l1d q.line = none
          ∧ (∀ n, q.tag = some n → n < 2 ^ 32 → aget? (t.dev.core q.rank).out n = none ∧ t.dev.tagWin = [⟨q.home, q.rank, n, BitVec.ofNat 64 old, 0⟩])
  ) ∧
  (
    ∀ (s : State) (q : HomeReq), q.line = s.args.a → q.remote = false → q.slot < 16 →
      (∀ pid off n dst acq, q.kind = .load pid off n dst acq → NextAtHome s q → off + n ≤ 128 →
        Gives .homeQueueServe s fun t => t.dev.mem = s.dev.mem ∧ Leaves t q
          ∧ Answers s t q pid dst (leBytes n (lineNat (s.dev.mem.line q.line) off n))
          ∧ (acq = false → aget? (t.dev.core q.rank).l1d q.line = some (s.dev.mem.line q.line)))
      ∧ (∀ e, q.kind = .store e.mask → s.dev.nextReq q.line = some q → s.dev.tagWin = [] → s.dev.obuf = [] →
          (∀ o ∈ s.dev.homeQ, o.line = q.line → o.kind.isSatom = false) → aget? s.dev.regs q.line = none →
          s.dev.hasUoc q.line = false → s.dev.lostLine q.line = false → s.dev.mem.wf = true → (s.dev.core q.rank).wb = [e] →
          e.line = q.line → e.seq = q.seq → e.sent = true → e.wback = false →
        Gives .homeQueueServe s fun t => Leaves t q ∧ (t.dev.core q.rank).wb = []
          ∧ (∀ k < 128, t.dev.mem.get (128 * q.line + k)
              = if e.mask.getLsbD k then lineByte e.data k else s.dev.mem.get (128 * q.line + k))
          ∧ ∀ a, (a < 128 * q.line ∨ 128 * q.line + 128 ≤ a) → t.dev.mem.get a = s.dev.mem.get a)
  ) ∧
  (
    ∀ (s : State) u, (s.dev.core s.args.a).uoc = [u] → u.line = s.args.b → u.fn ≤ 6 → (s.dev.core s.args.a).tagFree = true → s.dev.mem.wf = true → s.dev.backsOf u.line = [] →
      s.dev.tagSeen u.home s.args.a (s.dev.core s.args.a).tagSeq.toNat = none →
      Gives .updateCopyReturn s fun t =>
        let z := if u.w64 then 8 else 4
        let n := (s.dev.core s.args.a).tagSeq
        (t.dev.core s.args.a).uoc = [] ∧ (t.dev.core s.args.a).tagSeq = n + 1 ∧ aget? (t.dev.core s.args.a).out n.toNat = none
        ∧ t.dev.tagSeen u.home s.args.a n.toNat = some ⟨u.home, s.args.a, n.toNat, 0, 0⟩ ∧ t.dev.homeQ = s.dev.homeQ ∧ (∀ a, (a < 128 * u.line ∨ 128 * u.line + 128 ≤ a) → t.dev.mem.get a = s.dev.mem.get a)
        ∧ ∀ i, z * i < 128 →
          let old := s.dev.mem.nat (128 * u.line + z * i) z
          let c := lineNat u.data (z * i) z
          let S (x : Nat) : Int := (BitVec.ofNat (8 * z) x).toInt
          t.dev.mem.nat (128 * u.line + z * i) z = match u.fn with
            | 0 => (old + c) % 256 ^ z
            | 1 => old &&& c
            | 2 => old ||| c
            | 3 => old ^^^ c
            | 4 => if S old ≤ S c then old else c
            | 5 => if S old ≤ S c then c else old
            | _ => if c = 2 ^ (8 * z - 1) then old else ((if z = 4 then fp32 else fp64).add .rne old c).1 % 256 ^ z
  )

/-- R370, R372: `satom` through segment s1 sends the tagged invocation of entry id with the payload V[vb] and leaves y0 outstanding; an
entry that is not valid, or is BAD, raises SLICE. `srsync` clears the entry's cached copies, its BAD, BADWHY and BADIDX in the table, and reloads its flags. R366-R369: a routine that
is cached and good runs on its line in one step: the home writes the line that the routine leaves, unless it is read-only, and answers y0
with its flags. For an ordered entry an equal ticket advances the counter in bytes 124 to 127, an earlier one returns 0 and runs nothing,
and a later one waits in the ordered buffer. -/
def Obligations.DarnRoutines : Prop :=
  (
    (∀ rd ra vb id la tr s, Ready { rx := [ra], wx := [rd], rv := [vb], rs := [1] } s →
        let f := vget s.dev.curCore.rflags id.toNat 0
        let w := !f.getLsbD 1
        OnLine s 1 (s.dev.x ra) 128 128 { r := true, w := w, l0 := true } { read := true, write := w, user := !s.dev.th.mode } tr →
        (f.getLsbD 4 = true → f.getLsbD 3 = false → (s.dev.tpart.cfg.det = true → f.getLsbD 2 = true ∨ f.getLsbD 0 = true) →
          Gives (.satom rd ra vb id la) s fun t => InSequence s t ∧ AddsPending s t (.satom rd 0) (List.replicate 8 0) 1 la
            ∧ ∃ q, Sends s t true q ∧ q.line = tr.pa / 128 ∧ q.kind = .satom s.dev.th.nextPid id.toNat (s.dev.v vb))
        ∧ ((f.getLsbD 4 = false ∨ f.getLsbD 3 = true) →
          Traps (.satom rd ra vb id la) s .slice (BitVec.ofNat 64 (segBase (s.dev.th.seg 1) + uv (s.dev.x ra)))))
      ∧ ∀ id s, Ready {} s → Released s .pkg →
          let a := s.dev.tpart.cfg.rtbase + 16 * id.toNat
          s.dev.rangeHeld a 16 = none → s.dev.rangePoisoned a 16 = false → Gives (.srsync id) s fun t => InSequence s t
          ∧ (∀ c ∈ t.dev.rcache, ¬(c.part = s.dev.th.part ∧ c.entry = id.toNat)) ∧ flowOf s.dev.th t.dev.th = s.dev.th
          ∧ (AtHomes s.dev → s.dev.tpart.cfg.rtbase % 16 = 0 →
            let x := s.dev.mem.nat a 16
            t.dev.mem.nat a 16 = x - x / 2 ^ 62 % 2 * 2 ^ 62 - x / 2 ^ 64 % 65536 * 2 ^ 64
              ∧ (∀ b, (b < a ∨ a + 16 ≤ b) → t.dev.mem.get b = s.dev.mem.get b)
              ∧ (s.dev.curCore.part = some s.dev.th.part →
                vget t.dev.curCore.rflags id.toNat 0 = (BitVec.ofNat 64 x).extractLsb' 59 5 &&& 0x17))
  ) ∧
  (
    ∀ (s : State) (q : HomeReq) pid entry payload c, q.kind = .satom pid entry payload → q.line = s.args.a → NextAtHome s q →
      s.dev.cachedRoutine q.home q.part entry = some c → c.bad = false → s.args.c = 0 → s.args.ok2 = false →
      s.args.b ≠ 4 → s.args.b ≠ 6 →
      let l := s.dev.mem.line q.line
      let z := runRoutine c.code l payload
      let ticket : HWord := payload.extractLsb' 480 32
      let count : HWord := BitVec.ofNat 32 (s.dev.mem.nat (128 * q.line + 124) 4)
      let Result (t : State) (y0 : Word) (flags : FFlags) : Prop := Leaves t q ∧ ∀ p ∈ (s.dev.slot q.rank q.slot).pend, p.id = pid →
        ∀ rd f, p.post = .satom rd f → ∃ p' ∈ (t.dev.slot q.rank q.slot).pend, p'.id = pid ∧ p'.need = p.need - 1 ∧ p'.post = .satom rd flags
          ∧ p'.raw.take 8 = (leBytes 8 y0.toNat).take 8
      let others (t : State) : Prop := ∀ a, (a < 128 * q.line ∨ 128 * q.line + 128 ≤ a) → t.dev.mem.get a = s.dev.mem.get a
      (c.ord = false → z.ran + (if c.ro then 4 else 8) ≤ 48 → Gives .darnInvocation s fun t => Result t (z.yr 0) z.flags ∧ others t
          ∧ t.dev.mem.line q.line = if c.ro then l else z.l)
      ∧ (c.ord = true → c.ro = false → ticket = count → z.ran + 8 ≤ 48 → Gives .darnInvocation s fun t =>
          Result t (z.yr 0) z.flags ∧ others t ∧ t.dev.mem.line q.line = lineSet z.l 124 4 (count + 1).toNat)
      ∧ (c.ord = true → newer ticket count = false → ticket ≠ count → Gives .darnInvocation s fun t =>
          Result t 0 0 ∧ t.dev.mem = s.dev.mem)
      ∧ (c.ord = true → newer ticket count = true → Gives .darnInvocation s fun t =>
          Leaves t q ∧ t.dev.obuf = [⟨q.home, q, ticket, false⟩] ∧ t.dev.mem = s.dev.mem)
  )

namespace Sys2Proof.Claims

/-- A record of a kind has reached the log of a partition (R56, R57): it is written, or counted as dropped, and has its SEQ, or it waits. -/
def Recorded (s t : State) (part kind : Nat) : Prop :=
  (t.dev.part part).elogSeq ≠ (s.dev.part part).elogSeq ∨ ∃ l ∈ (t.dev.part part).elogQ, l.err.kind = kind

end Sys2Proof.Claims

/-- R274, R275, R368: a request without an answer is sent again with its tag, at most 7 times, unless an ordered buffer has accepted it; a
refused ordered invocation is sent again; after the last resend the result of the request arrives as DATAERR, with a record. That the
request is then taken as never applied is the model's choice (log entry 22). R41, R43: a request from another module that the export table
allows is performed at the byte that its entry names, and any other leaves a record, in the log of the local partition with the source partition's
number where that is configured and otherwise in Flojo's, which is the model's choice (log entry 56); a remote access without an answer in time arrives as
DATAERR, with a record. -/
def Obligations.ResendsAndRemoteModules : Prop :=
  (
    ∀ (s : State) o q, let r := s.args.a
      let n := s.args.b
      aget? (s.dev.core r).out n = some o → o.req = some q → q.rank = r → q.tag = some n →
      let Again (t : State) (o' : OutReq) : Prop := aget? (t.dev.core r).out n = some o' ∧ t.dev.mem = s.dev.mem
          ∧ (∀ m, m ≠ n → aget? (t.dev.core r).out m = aget? (s.dev.core r).out m) ∧ (∀ c, c ≠ r → t.dev.core c = s.dev.core c)
          ∧ ∀ k, t.dev.slot r k = s.dev.slot r k
      (o.sends = 0 → Gives .tagResend s (· = s))
      ∧ (1 ≤ o.sends → o.sends < 8 → o.refused = false → s.dev.accepted q = false → Gives .tagResend s fun t =>
          Again t { o with sends := o.sends + 1 } ∧ t.dev.homeQ = s.dev.homeQ ++ [{ q with arr := s.dev.accSeq, passed := 0 }])
      ∧ (s.dev.accepted q = true → Gives .tagResend s (· = s) ∧ Gives .resendExhausted s (· = s))
      ∧ (o.refused = true → (s.dev.core r).saving = false → Gives .ordRefusalResend s fun t =>
          Again t { o with refused := false } ∧ t.dev.homeQ = s.dev.homeQ ++ [{ q with arr := s.dev.accSeq }])
      ∧ ∀ pid off w op b c acq p, 8 ≤ o.sends → o.refused = false → s.dev.accepted q = false → (s.dev.part q.part).elogQ = [] →
        q.kind = .amo pid off w op b c acq → q.slot < 16 → aget? (s.dev.part q.part).ctx q.prank = none →
        (s.dev.part q.part).devRank q.prank = r → p ∈ (s.dev.slot r q.slot).pend → p.id = pid → p.err = none →
        Gives .resendExhausted s fun t => aget? (t.dev.core r).out n = none ∧ q ∉ t.dev.homeQ
          ∧ { p with need := p.need - 1, err := some ⟨.dataerr, BitVec.ofNat 64 q.gva⟩ } ∈ (t.dev.slot r q.slot).pend
          ∧ Recorded s t q.part 0x08
  ) ∧
  (
    (∀ s : State, AtHomes s.dev →
        let q := s.args.remote
        (∀ n v pa, q.op = .store n v → n ≤ 128 → s.dev.exportOf q.srcModule q.part q.pa n true = some pa → pa % 128 + n ≤ 128 →
          s.dev.leased (pa / 128) = false → s.dev.poisoned (pa / 128) = false → Gives .remoteRequest s fun t =>
            t.dev.mem.nat pa n = v.toNat % 256 ^ n ∧ (∀ a, (a < pa ∨ pa + n ≤ a) → t.dev.mem.get a = s.dev.mem.get a)
              ∧ t.dev.cores = s.dev.cores ∧ t.dev.parts = s.dev.parts)
        ∧ (∀ op w b c pa, q.op = .amo op w b c →
          let z := if w then 8 else 4
          s.dev.exportOf q.srcModule q.part q.pa z true = some pa → pa % 128 + z ≤ 128 → s.dev.leased (pa / 128) = false →
          s.dev.poisoned (pa / 128) = false → s.dev.tagWin = [] → Gives .remoteRequest s fun t =>
            let old := s.dev.mem.nat pa z
            WordAtHome s t pa z (amoNew op z old (uv b % 256 ^ z) (uv c % 256 ^ z)) ∧ ∃ g, t.dev.tagWin = [g] ∧ g.result = BitVec.ofNat 64 old)
        ∧ (∀ n, q.op = .load n → s.dev.exportOf q.srcModule q.part q.pa n false = none →
            ((s.dev.part q.part).configured = true → (s.dev.part q.part).elogQ = [] →
              Gives .remoteRequest s fun t => Recorded s t q.part 0x0F ∧ ∀ r < 4096, t.dev.core r = s.dev.core r)
            ∧ ((s.dev.part q.part).configured = false → Gives .remoteRequest s fun t => Logged s.dev t.dev 0x0F 11 (q.pa % 2 ^ 64) 1 8191 0
              ∧ { t with dev := { t.dev with flojoLog := s.dev.flojoLog } } = s)))
      ∧ ∀ (s : State) u pid p, aget? s.dev.remote s.args.a = some u → u.tag = none → u.chan = none → u.pid = some pid → u.slot < 16 →
        (s.dev.part u.part).elogQ = [] → p ∈ (s.dev.slot u.rank u.slot).pend → p.id = pid → p.err = none → Gives .remoteAccessTimeout s fun t =>
          aget? t.dev.remote s.args.a = none
            ∧ { p with need := p.need - 1, err := some ⟨.dataerr, BitVec.ofNat 64 u.gva⟩ } ∈ (t.dev.slot u.rank u.slot).pend
            ∧ Recorded s t u.part 0x08
  )

/-! ### Words, steps and the frame of the machine -/

namespace Sys2Proof.Claims

open Machine

/-- The device in which the cycle of slot `k` of core `r` finds itself: one turn more has passed, and the slot has the cycle. -/
def issueDev (s : State) (r k : Nat) : Dev :=
  { s.dev with time := s.dev.time + 1 }.modSlot r k fun t => { t with lastIssue := some (s.dev.core r).cycle.toNat }

/-- The machine runs, its next turn is the cycle of core `r`, the cycle goes to slot `k` (R109), and nothing is due at the slot's boundary. -/
def Issues (s : State) (r k : Nat) (rest : List Turn) : Prop :=
  s.boot.off = false ∧ s.schedule = .core r :: rest ∧ { s.dev with time := s.dev.time + 1 }.chooseSlot s.host.chosenBacks r = some k
    ∧ ((s.dev.core r).saving = true ∨ (issueDev s r k).boundary r k = none)

/-- The clock of core `r` counts the cycle (R123). -/
def thenTick (r : Nat) : Host.Outcome State Fault Refusal → Host.Outcome State Fault Refusal
  | .next t => .next (t.modDev fun d => d.modCore r fun c => { c with cycle := c.cycle + 1 })
  | .fault f => .fault f
  | .refused q => .refused q

end Sys2Proof.Claims

/-- R251, R255 and R109: a core's cycle whose slot holds a fetched word that decodes to `i` is `exec i` in that slot, with the word and the
cycle noted and the arrival mark used up; then the core's clock counts. A word that no instruction has raises ILLEGAL with the word, a fetch
that stops stops the slot, and an instruction under way goes on with the word that was fetched for it. Where no slot can use the cycle only
the clock counts. That the schedule names the turns is the model's (log entry 3). -/
def Obligations.StepRunsDecodedInstruction : Prop :=
  (∀ (s : State) (r k : Nat) (rest : List Turn), Issues s r k rest → ((issueDev s r k).slot r k).wait.underWay = false →
    (∀ w i, { issueDev s r k with cur := (r, k) }.fetchWord = .ok w → decode w = .ok i →
      step s = thenTick r (exec i { s with schedule := rest, dev := { issueDev s r k with cur := (r, k) }.modSlot r k fun t => { t with word := w, arrive := none } }))
    ∧ (∀ w e, { issueDev s r k with cur := (r, k) }.fetchWord = .ok w → decode w = .error e →
      let d := { issueDev s r k with cur := (r, k) }.modSlot r k fun t => { t with word := w, arrive := none }
      step s = thenTick r (.next { s with schedule := rest, dev := d.trap r k ⟨.illegal, d.th.word.setWidth 64⟩ }))
    ∧ (∀ st, { issueDev s r k with cur := (r, k) }.fetchWord = .error st →
      step s = thenTick r (.next { s with schedule := rest, dev := { issueDev s r k with cur := (r, k) }.stopAt r k st })))
  ∧ (∀ (s : State) (r k : Nat) (rest : List Turn) (i : Instr), Issues s r k rest → ((issueDev s r k).slot r k).wait.underWay = true →
    decode ((issueDev s r k).slot r k).word = .ok i →
    step s = thenTick r (exec i { s with schedule := rest, dev := { issueDev s r k with cur := (r, k) } }))
  ∧ (∀ (s : State) (r : Nat) (rest : List Turn), s.boot.off = false → s.schedule = .core r :: rest →
    { s.dev with time := s.dev.time + 1 }.chooseSlot s.host.chosenBacks r = none →
    step s = thenTick r (.next { s with schedule := rest, dev := { s.dev with time := s.dev.time + 1 } }))

/-- R240 to R251: words written out from the formats and the field tables decode to the instructions that they stand for. -/
def Obligations.WordsOfTheFieldTables : Prop :=
  decode 0x04642800 = .ok (.add 3 4 5) ∧ decode 0x046428D2 = .ok (.div 3 4 5 2) ∧ decode 0x24A07000 = .ok (.lui 5 0x7000)
    ∧ decode 0x10A50001 = .ok (.ori 5 5 1) ∧ decode 0x20A50010 = .ok (.slli 5 5 16)
    ∧ decode 0x7D248901 = .ok (.lacq 9 4 true .pkg 1 1) ∧ decode 0x7C006820 = .ok (.fenceAr .pkg)
    ∧ decode 0x80896991 = .ok (.amocas 4 9 false .ar .pkg 1 1) ∧ decode 0x86072900 = .ok (.redadd true 7 5 1)
    ∧ decode 0x8CA73100 = .ok (.lease 5 7 6 1) ∧ decode 0x8CA70110 = .ok (.unlease 5 7 1)
    ∧ decode 0xA4A31824 = .ok (.vcvt .f32 .bf16 5 3 0) ∧ decode 0xA4A328A4 = .ok (.vcvtE4m3F32 5 3 0)
    ∧ decode 0xB1095200 = .ok (.vtopk 8 9 10 2)
    ∧ decode 0x00000000 = .error .reservedMajor ∧ decode 0xD0000000 = .error .reservedMajor ∧ decode 0x04642980 = .error .reservedFn
    ∧ decode 0x04642801 = .error .lookahead

/-- R286, R355: every word of major 0x25 and of major 0x31. The task instructions have la = 0 and 0 in every field that their form does not
name; `kvlook` takes any la, and a non-zero la on `kvgath` raises ILLEGAL. The words of the two tables are the spec's own. -/
def Obligations.TaskAndKvEncodings : Prop :=
  (∀ (rd ra rb : RegNo) (fn : BitVec 7) (la : La),
    let task : HWord := (0x25 : BitVec 6) ++ rd ++ ra ++ rb ++ fn ++ la
    let kv : HWord := (0x31 : BitVec 6) ++ rd ++ ra ++ rb ++ fn ++ la
    (la ≠ 0 ∨ 5 ≤ fn.toNat → ∃ e, decode task = .error e)
      ∧ (la = 0 → fn = 0 → decode task = .ok (.spawn rd ra rb))
      ∧ (la = 0 → fn = 1 → if rb = 0 then decode task = .ok (.exit rd ra) else ∃ e, decode task = .error e)
      ∧ (la = 0 → fn = 2 → if rd = 0 ∧ ra = 0 ∧ rb = 0 then decode task = .ok .yield else ∃ e, decode task = .error e)
      ∧ (la = 0 → fn = 3 → if rb = 0 then decode task = .ok (.migrate rd ra) else ∃ e, decode task = .error e)
      ∧ (la = 0 → fn = 4 → if rd = 0 ∧ ra = 0 ∧ rb = 0 then decode task = .ok .upret else ∃ e, decode task = .error e)
      ∧ (fn = 0 → decode kv = .ok (.kvlook rd ra rb la))
      ∧ (fn = 1 → if la = 0 then decode kv = .ok (.kvgath rd ra rb) else ∃ e, decode kv = .error e)
      ∧ (2 ≤ fn.toNat → ∃ e, decode kv = .error e))
  ∧ decode 0x9594A800 = .ok (.spawn 12 20 21) ∧ decode 0x94000010 = .ok (.exit 0 0) ∧ decode 0x94000020 = .ok .yield
  ∧ decode 0x94650030 = .ok (.migrate 3 5) ∧ decode 0x94000040 = .ok .upret
  ∧ decode 0xC4A63801 = .ok (.kvlook 5 6 7 1) ∧ decode 0xC4A64010 = .ok (.kvgath 5 6 8)

/-- Decoding and encoding agree on every word that an instruction has (R239 to R252): what a well-formed instruction encodes to decodes to
that instruction, and a word that decodes is the encoding of the well-formed instruction that it decodes to, so that no bit of a word is
dropped and no word stands for two instructions. -/
def Obligations.DecodeAndEncodeAgree : Prop :=
  (∀ i w, i.wf = true → encode i = some w → decode w = .ok i) ∧ (∀ w i, decode w = .ok i → i.wf = true ∧ encode i = some w)

/-- An instruction ends in its effect, parked, or in a trap (R255), and its word acts on the device and on nothing else: the boot state, the host with its queues and functions, the operands of
the device's own steps and the schedule stay as they are, whatever the word does. It answers a next state, parks and traps included; no word is a
fault or a refusal of the machine. -/
def Obligations.WordsActOnTheDevice : Prop :=
  ∀ (i : Instr) (s : State), (encode i).isSome = true →
    ∃ t, exec i s = .next t ∧ t.boot = s.boot ∧ t.host = s.host ∧ t.args = s.args ∧ t.schedule = s.schedule
end

