-- ==== Sys2Proof/Laws/Agent.lean ====
section
/-! SUPPORT. What the reads and writes of the device's agents can do (R79-R81, R132, R187, R205), and through them the page walk (R157): a
stop leaves the device as it was; where no line is registered to a stash and no core holds an update-only copy, a read changes the records of
the last-level cache alone, and a write also the bytes of memory that it names. Which line leaves a set, which stores come before a request, and
which enter the write buffer. -/

namespace Sys2Proof.Machine

/-- A computation over the device that goes on went on in each of its parts. -/
theorem Eng.bind_ok {α β : Type} {x : Eng α} {f : α → Eng β} {d e : Dev} {b : β} :
    (x >>= f) d = .ok (b, e) ↔ ∃ a m, x d = .ok (a, m) ∧ f a m = .ok (b, e) := by
  constructor
  · intro h
    change Except.bind (x d) (fun p => f p.1 p.2) = _ at h
    cases hx : x d with
    | error s => rw [hx] at h; cases h
    | ok p => rw [hx] at h; exact ⟨p.1, p.2, rfl, h⟩
  · rintro ⟨a, m, h, k⟩
    change Except.bind (x d) (fun p => f p.1 p.2) = _
    rw [h]
    exact k

theorem Eng.pure_ok {α : Type} {a b : α} {d e : Dev} : (pure a : Eng α) d = .ok (b, e) ↔ b = a ∧ e = d := by
  change Except.ok (a, d) = Except.ok (b, e) ↔ _
  simp only [Except.ok.injEq, Prod.mk.injEq, eq_comm]

/-- An agent's read that goes on: no line of the range is held, none is poisoned (R54, R205). -/
theorem agRead_ok {pa n part x : Nat} {d e : Dev} :
    agRead pa n part d = .ok (x, e) ↔ d.rangeHeld pa n = none ∧ d.rangePoisoned pa n = false ∧ d.agentRead pa n part noLeaf noPage = (x, e) := by
  unfold agRead
  split
  · simp_all
  · split <;> simp_all

/-- An agent's write that goes on: no line of the range is held (R205), none is lost (R39). -/
theorem agWrite_ok {pa n x part : Nat} {d e : Dev} :
    agWrite pa n x part d = .ok ((), e) ↔ d.rangeHeld pa n = none ∧ d.rangeLost pa n = false ∧ d.agentWrite pa n x part noLeaf noPage = e := by
  unfold agWrite
  split
  · simp_all
  · split <;> simp_all

/-- Only the records of the last-level cache differ: its lines and their order of use, the fills not counted yet, and the shadow tags. -/
def CacheOnly (d e : Dev) : Prop := ∃ v w x y z, e = { d with llc := v, lru := w, lpFills := x, shadow := y, shadowHits := z }

theorem CacheOnly.same (d : Dev) : CacheOnly d d := ⟨_, _, _, _, _, rfl⟩

theorem CacheOnly.trans {a b c : Dev} (h : CacheOnly a b) (k : CacheOnly b c) : CacheOnly a c := by
  obtain ⟨_, _, _, _, _, rfl⟩ := h
  obtain ⟨_, _, _, _, _, rfl⟩ := k
  exact ⟨_, _, _, _, _, rfl⟩

/-- No line is registered to a stash entry, and no core holds an update-only copy: every line's value is at its home. -/
def Dev.homesOnly (d : Dev) : Prop := d.regs = [] ∧ ∀ l, d.hasUoc l = false

theorem Dev.homesOnly_cache {d e : Dev} (h : CacheOnly d e) (k : d.homesOnly) : e.homesOnly := by
  obtain ⟨_, _, _, _, _, rfl⟩ := h
  exact k

theorem Dev.prepare_homesOnly {d : Dev} (h : d.homesOnly) (l : Nat) : d.prepare l = d := by
  simp [Dev.prepare, h.1, aget?, h.2 l]

theorem Dev.countShadow_cache (d : Dev) (l home part : Nat) : CacheOnly d (d.countShadow l home part) := ⟨_, _, _, _, _, rfl⟩

theorem Dev.touch_cache (d : Dev) (l home part cls : Nat) (pg : PageId) (write : Bool) : CacheOnly d (d.touch l home part cls pg write) :=
  ⟨_, _, _, _, _, rfl⟩

/-- A read of an agent where every value is at its home. -/
theorem Dev.agentRead_cache {d : Dev} (h : d.homesOnly) (pa n part : Nat) (leaf : Word) (pg : PageId) :
    CacheOnly d (d.agentRead pa n part leaf pg).2 := by
  unfold Dev.agentRead
  suffices ∀ (l : List (Nat × Nat × Nat × Nat)) (x : Nat) (e : Dev), CacheOnly d e → CacheOnly d (l.foldl (fun (acc : Nat × Dev) p =>
      let (line, off, k, at_) := p
      let d := (acc.2.prepare line).touch line (homeSlice leaf (128 * line)) part (leafClass leaf) pg false
      (acc.1 + lineNat (d.lineNow line) off k * 256 ^ at_, d)) (x, e)).2 from this _ _ _ (CacheOnly.same d)
  intro l
  induction l with
  | nil => exact fun _ _ k => k
  | cons p t ih =>
    intro x e k
    refine ih _ _ (k.trans ?_)
    dsimp only
    rw [Dev.prepare_homesOnly (Dev.homesOnly_cache k h)]
    exact Dev.touch_cache ..

/-- A write of an agent where every value is at its home: memory is the bytes that `m` holds, and the cache records may differ. -/
theorem Dev.agentWrite_cache {d : Dev} (h : d.homesOnly) (pa n x part : Nat) (leaf : Word) (pg : PageId) :
    ∃ m, CacheOnly { d with mem := m } (d.agentWrite pa n x part leaf pg) := by
  unfold Dev.agentWrite
  suffices ∀ (l : List (Nat × Nat × Nat × Nat)) (e : Dev) (m : Mem), CacheOnly { d with mem := m } e → ∃ m, CacheOnly { d with mem := m } (l.foldl (fun d p =>
      let (line, off, k, at_) := p
      if d.lostLine line then d
      else (d.prepare line).lineWrite line (lineSet 0 off k (x / 256 ^ at_ % 256 ^ k)) (byteMask off k) (homeSlice leaf (128 * line)) part
        (leafClass leaf) pg) e) from
    this _ _ _ (CacheOnly.same d)
  intro l
  induction l with
  | nil => exact fun _ m k => ⟨m, k⟩
  | cons p t ih =>
    intro e m k
    obtain ⟨line, off, j, at_⟩ := p
    have he : e.homesOnly := Dev.homesOnly_cache k h
    have hr : aget? e.regs line = none := by rw [he.1]; rfl
    simp only [List.foldl_cons]
    split
    · exact ih _ m k
    rw [Dev.prepare_homesOnly he]
    unfold Dev.lineWrite
    rw [hr]
    obtain ⟨v, w, a, b, c, e2⟩ := k.trans (Dev.touch_cache e line (homeSlice leaf (128 * line)) part (leafClass leaf) pg true)
    dsimp only
    rw [e2]
    exact ih _ (m.setMasked (128 * line) (lineSet 0 off j (x / 256 ^ at_ % 256 ^ j)) (byteMask off j) 128) ⟨v, w, a, b, c, rfl⟩

/-- What a computation may do that only reads: where every value is at its home, only the cache records differ after it. -/
def Eng.Reads {α : Type} (x : Eng α) : Prop := ∀ d e a, d.homesOnly → x d = .ok (a, e) → CacheOnly d e

theorem Eng.reads_pure {α : Type} (a : α) : Eng.Reads (pure a : Eng α) := by
  intro d e b _ h
  rw [(Eng.pure_ok.mp h).2]
  exact CacheOnly.same d

theorem Eng.reads_bind {α β : Type} {x : Eng α} {f : α → Eng β} (h : Eng.Reads x) (k : ∀ a, Eng.Reads (f a)) : Eng.Reads (x >>= f) := by
  intro d e b hd hb
  obtain ⟨a, m, h1, h2⟩ := Eng.bind_ok.mp hb
  have hm := h d m a hd h1
  exact hm.trans (k a m e b (Dev.homesOnly_cache hm hd) h2)

theorem agRead_reads (pa n part : Nat) : Eng.Reads (agRead pa n part) := by
  intro d e a hd h
  have := Dev.agentRead_cache hd pa n part noLeaf noPage
  rwa [(agRead_ok.mp h).2.2] at this

theorem pte_reads (part a : Nat) : Eng.Reads (pte part a) := Eng.reads_bind (agRead_reads _ _ _) fun _ => Eng.reads_pure _

theorem Eng.reads_get : Eng.Reads (get : Eng Dev) := by
  rintro d e a _ ⟨⟩
  exact CacheOnly.same d

theorem dirAt_reads (part gva : Nat) : Eng.Reads (dirAt part gva) := by
  unfold dirAt
  refine Eng.reads_bind Eng.reads_get fun d => ?_
  split
  · exact Eng.reads_pure _
  · refine Eng.reads_bind (pte_reads _ _) fun _ => ?_
    split
    · exact Eng.reads_pure _
    · refine Eng.reads_bind (pte_reads _ _) fun _ => ?_
      split <;> exact Eng.reads_pure _

/-- A page walk only reads (R157). -/
theorem walk_reads (part gva : Nat) : Eng.Reads (walk part gva) := by
  unfold walk
  refine Eng.reads_bind (dirAt_reads _ _) fun _ => ?_
  split
  · exact Eng.reads_pure _
  · refine Eng.reads_bind Eng.reads_get fun _ => Eng.reads_bind (pte_reads _ _) fun _ => ?_
    split
    · exact Eng.reads_pure _
    · dsimp only
      split
      · exact Eng.reads_bind (pte_reads _ _) fun _ => Eng.reads_bind (pte_reads _ _) fun _ => Eng.reads_pure _
      · exact Eng.reads_bind (pte_reads _ _) fun _ => Eng.reads_pure _

/-! ### The last-level cache, the stores before a request, and the write buffer -/

/-- The line that leaves a set is one of its lines, and no tile fetch unit pins it (R136). -/
theorem llcPlace_leaves {llc : AMap LlcLine} {pinned : Nat → Bool} {stack ways : List Nat} {w l : Nat}
    (h : llcPlace llc pinned stack ways = some (w, some l)) : l ∈ stack ∧ pinned l = false := by
  unfold llcPlace at h
  dsimp only at h
  split at h
  · simp at h
  · simp only [Option.map_eq_some_iff, Prod.mk.injEq, Option.some.injEq] at h
    obtain ⟨x, hx, _, rfl⟩ := h
    have := List.mem_of_getLast? hx
    simp only [List.mem_filter, Bool.and_eq_true, Bool.not_eq_true'] at this
    exact ⟨this.1, this.2.2⟩

/-- A request before which no store of its core comes finds the device as it is. -/
theorem Dev.flushOwn_none {d : Dev} {q : HomeReq} (h : (d.core q.rank).wb = []) : d.flushOwn q = d := by
  simp [Dev.flushOwn, Dev.ownStores, h, pickOwn]

/-- A store to this module enters the write buffer under its own translation, unless its line is leased to the thread. -/
theorem Dev.wbTarget_here {d : Dev} {u : SUnit} (h : u.t.remote = false) (hl : d.th.lease.any (·.line == u.t.pa / 128) = false) :
    d.wbTarget u = some u.t := by simp [Dev.wbTarget, h, hl]
theorem Dev.wbTarget_leased {d : Dev} {u : SUnit} (h : u.t.remote = false) (hl : d.th.lease.any (·.line == u.t.pa / 128) = true) :
    d.wbTarget u = none := by simp [Dev.wbTarget, h, hl]
/-- One to another module does not enter it. -/
theorem Dev.wbTarget_far {d : Dev} {u : SUnit} (h : u.t.remote = true) (hm : remoteModule u.t.pa ≠ d.modnum) : d.wbTarget u = none := by
  simp [Dev.wbTarget, h, hm]

end Sys2Proof.Machine
end

