-- ==== Sys2Proof/Laws/Decode.lean ====
section
/-! SUPPORT. The fields of a packed word (R240): each field that a format packs is the field that the decoder reads. -/

namespace Sys2Proof

@[simp] theorem packR_fOp (op : BitVec 6) (d a b : RegNo) (fn : BitVec 7) (la : La) : fOp (packR op d a b fn la) = op := by
  simp only [fOp, packR]
  rw [BitVec.extractLsb'_append_eq_of_le (by decide), BitVec.extractLsb'_append_eq_of_le (by decide), BitVec.extractLsb'_append_eq_of_le (by decide), BitVec.extractLsb'_append_eq_of_le (by decide), BitVec.extractLsb'_append_eq_of_le (by decide)]; exact BitVec.extractLsb'_eq_self

@[simp] theorem packR_fD (op : BitVec 6) (d a b : RegNo) (fn : BitVec 7) (la : La) : fD (packR op d a b fn la) = d := by
  simp only [fD, packR]
  rw [BitVec.extractLsb'_append_eq_of_le (by decide), BitVec.extractLsb'_append_eq_of_le (by decide), BitVec.extractLsb'_append_eq_of_le (by decide), BitVec.extractLsb'_append_eq_of_le (by decide), BitVec.extractLsb'_append_eq_of_add_le (by decide)]; exact BitVec.extractLsb'_eq_self

@[simp] theorem packR_fA (op : BitVec 6) (d a b : RegNo) (fn : BitVec 7) (la : La) : fA (packR op d a b fn la) = a := by
  simp only [fA, packR]
  rw [BitVec.extractLsb'_append_eq_of_le (by decide), BitVec.extractLsb'_append_eq_of_le (by decide), BitVec.extractLsb'_append_eq_of_le (by decide), BitVec.extractLsb'_append_eq_of_add_le (by decide)]; exact BitVec.extractLsb'_eq_self

@[simp] theorem packR_fB (op : BitVec 6) (d a b : RegNo) (fn : BitVec 7) (la : La) : fB (packR op d a b fn la) = b := by
  simp only [fB, packR]
  rw [BitVec.extractLsb'_append_eq_of_le (by decide), BitVec.extractLsb'_append_eq_of_le (by decide), BitVec.extractLsb'_append_eq_of_add_le (by decide)]; exact BitVec.extractLsb'_eq_self

@[simp] theorem packR_fRfn (op : BitVec 6) (d a b : RegNo) (fn : BitVec 7) (la : La) : fRfn (packR op d a b fn la) = fn := by
  simp only [fRfn, packR]
  rw [BitVec.extractLsb'_append_eq_of_le (by decide), BitVec.extractLsb'_append_eq_of_add_le (by decide)]; exact BitVec.extractLsb'_eq_self

@[simp] theorem packR_fLa (op : BitVec 6) (d a b : RegNo) (fn : BitVec 7) (la : La) : fLa (packR op d a b fn la) = la := by
  simp only [fLa, packR]
  rw [BitVec.extractLsb'_append_eq_of_add_le (by decide)]; exact BitVec.extractLsb'_eq_self

@[simp] theorem packI_fOp (op : BitVec 6) (d a : RegNo) (imm : BitVec 16) : fOp (packI op d a imm) = op := by
  simp only [fOp, packI]
  rw [BitVec.extractLsb'_append_eq_of_le (by decide), BitVec.extractLsb'_append_eq_of_le (by decide), BitVec.extractLsb'_append_eq_of_le (by decide)]; exact BitVec.extractLsb'_eq_self

@[simp] theorem packI_fD (op : BitVec 6) (d a : RegNo) (imm : BitVec 16) : fD (packI op d a imm) = d := by
  simp only [fD, packI]
  rw [BitVec.extractLsb'_append_eq_of_le (by decide), BitVec.extractLsb'_append_eq_of_le (by decide), BitVec.extractLsb'_append_eq_of_add_le (by decide)]; exact BitVec.extractLsb'_eq_self

@[simp] theorem packI_fA (op : BitVec 6) (d a : RegNo) (imm : BitVec 16) : fA (packI op d a imm) = a := by
  simp only [fA, packI]
  rw [BitVec.extractLsb'_append_eq_of_le (by decide), BitVec.extractLsb'_append_eq_of_add_le (by decide)]; exact BitVec.extractLsb'_eq_self

@[simp] theorem packI_fImm16 (op : BitVec 6) (d a : RegNo) (imm : BitVec 16) : fImm16 (packI op d a imm) = imm := by
  simp only [fImm16, packI]
  rw [BitVec.extractLsb'_append_eq_of_add_le (by decide)]; exact BitVec.extractLsb'_eq_self

@[simp] theorem packU_fOp (op : BitVec 6) (d : RegNo) (imm : BitVec 21) : fOp (packU op d imm) = op := by
  simp only [fOp, packU]
  rw [BitVec.extractLsb'_append_eq_of_le (by decide), BitVec.extractLsb'_append_eq_of_le (by decide)]; exact BitVec.extractLsb'_eq_self

@[simp] theorem packU_fD (op : BitVec 6) (d : RegNo) (imm : BitVec 21) : fD (packU op d imm) = d := by
  simp only [fD, packU]
  rw [BitVec.extractLsb'_append_eq_of_le (by decide), BitVec.extractLsb'_append_eq_of_add_le (by decide)]; exact BitVec.extractLsb'_eq_self

@[simp] theorem packU_fImm21 (op : BitVec 6) (d : RegNo) (imm : BitVec 21) : fImm21 (packU op d imm) = imm := by
  simp only [fImm21, packU]
  rw [BitVec.extractLsb'_append_eq_of_add_le (by decide)]; exact BitVec.extractLsb'_eq_self

@[simp] theorem packM_fOp (op : BitVec 6) (t a : RegNo) (sg : SegNo) (la : La) (off : BitVec 9) : fOp (packM op t a sg la off) = op := by
  simp only [fOp, packM]
  rw [BitVec.extractLsb'_append_eq_of_le (by decide), BitVec.extractLsb'_append_eq_of_le (by decide), BitVec.extractLsb'_append_eq_of_le (by decide), BitVec.extractLsb'_append_eq_of_le (by decide), BitVec.extractLsb'_append_eq_of_le (by decide)]; exact BitVec.extractLsb'_eq_self

@[simp] theorem packM_fD (op : BitVec 6) (t a : RegNo) (sg : SegNo) (la : La) (off : BitVec 9) : fD (packM op t a sg la off) = t := by
  simp only [fD, packM]
  rw [BitVec.extractLsb'_append_eq_of_le (by decide), BitVec.extractLsb'_append_eq_of_le (by decide), BitVec.extractLsb'_append_eq_of_le (by decide), BitVec.extractLsb'_append_eq_of_le (by decide), BitVec.extractLsb'_append_eq_of_add_le (by decide)]; exact BitVec.extractLsb'_eq_self

@[simp] theorem packM_fA (op : BitVec 6) (t a : RegNo) (sg : SegNo) (la : La) (off : BitVec 9) : fA (packM op t a sg la off) = a := by
  simp only [fA, packM]
  rw [BitVec.extractLsb'_append_eq_of_le (by decide), BitVec.extractLsb'_append_eq_of_le (by decide), BitVec.extractLsb'_append_eq_of_le (by decide), BitVec.extractLsb'_append_eq_of_add_le (by decide)]; exact BitVec.extractLsb'_eq_self

@[simp] theorem packM_fSgM (op : BitVec 6) (t a : RegNo) (sg : SegNo) (la : La) (off : BitVec 9) : fSgM (packM op t a sg la off) = sg := by
  simp only [fSgM, packM]
  rw [BitVec.extractLsb'_append_eq_of_le (by decide), BitVec.extractLsb'_append_eq_of_le (by decide), BitVec.extractLsb'_append_eq_of_add_le (by decide)]; exact BitVec.extractLsb'_eq_self

@[simp] theorem packM_fLaM (op : BitVec 6) (t a : RegNo) (sg : SegNo) (la : La) (off : BitVec 9) : fLaM (packM op t a sg la off) = la := by
  simp only [fLaM, packM]
  rw [BitVec.extractLsb'_append_eq_of_le (by decide), BitVec.extractLsb'_append_eq_of_add_le (by decide)]; exact BitVec.extractLsb'_eq_self

@[simp] theorem packM_fOff9 (op : BitVec 6) (t a : RegNo) (sg : SegNo) (la : La) (off : BitVec 9) : fOff9 (packM op t a sg la off) = off := by
  simp only [fOff9, packM]
  rw [BitVec.extractLsb'_append_eq_of_add_le (by decide)]; exact BitVec.extractLsb'_eq_self

@[simp] theorem packA_fOp (op : BitVec 6) (d a b : RegNo) (sg : SegNo) (fn : BitVec 4) (la : La) : fOp (packA op d a b sg fn la) = op := by
  simp only [fOp, packA]
  rw [BitVec.extractLsb'_append_eq_of_le (by decide), BitVec.extractLsb'_append_eq_of_le (by decide), BitVec.extractLsb'_append_eq_of_le (by decide), BitVec.extractLsb'_append_eq_of_le (by decide), BitVec.extractLsb'_append_eq_of_le (by decide), BitVec.extractLsb'_append_eq_of_le (by decide)]; exact BitVec.extractLsb'_eq_self

@[simp] theorem packA_fD (op : BitVec 6) (d a b : RegNo) (sg : SegNo) (fn : BitVec 4) (la : La) : fD (packA op d a b sg fn la) = d := by
  simp only [fD, packA]
  rw [BitVec.extractLsb'_append_eq_of_le (by decide), BitVec.extractLsb'_append_eq_of_le (by decide), BitVec.extractLsb'_append_eq_of_le (by decide), BitVec.extractLsb'_append_eq_of_le (by decide), BitVec.extractLsb'_append_eq_of_le (by decide), BitVec.extractLsb'_append_eq_of_add_le (by decide)]; exact BitVec.extractLsb'_eq_self

@[simp] theorem packA_fA (op : BitVec 6) (d a b : RegNo) (sg : SegNo) (fn : BitVec 4) (la : La) : fA (packA op d a b sg fn la) = a := by
  simp only [fA, packA]
  rw [BitVec.extractLsb'_append_eq_of_le (by decide), BitVec.extractLsb'_append_eq_of_le (by decide), BitVec.extractLsb'_append_eq_of_le (by decide), BitVec.extractLsb'_append_eq_of_le (by decide), BitVec.extractLsb'_append_eq_of_add_le (by decide)]; exact BitVec.extractLsb'_eq_self

@[simp] theorem packA_fB (op : BitVec 6) (d a b : RegNo) (sg : SegNo) (fn : BitVec 4) (la : La) : fB (packA op d a b sg fn la) = b := by
  simp only [fB, packA]
  rw [BitVec.extractLsb'_append_eq_of_le (by decide), BitVec.extractLsb'_append_eq_of_le (by decide), BitVec.extractLsb'_append_eq_of_le (by decide), BitVec.extractLsb'_append_eq_of_add_le (by decide)]; exact BitVec.extractLsb'_eq_self

@[simp] theorem packA_fSgA (op : BitVec 6) (d a b : RegNo) (sg : SegNo) (fn : BitVec 4) (la : La) : fSgA (packA op d a b sg fn la) = sg := by
  simp only [fSgA, packA]
  rw [BitVec.extractLsb'_append_eq_of_le (by decide), BitVec.extractLsb'_append_eq_of_le (by decide), BitVec.extractLsb'_append_eq_of_add_le (by decide)]; exact BitVec.extractLsb'_eq_self

@[simp] theorem packA_fAfn (op : BitVec 6) (d a b : RegNo) (sg : SegNo) (fn : BitVec 4) (la : La) : fAfn (packA op d a b sg fn la) = fn := by
  simp only [fAfn, packA]
  rw [BitVec.extractLsb'_append_eq_of_le (by decide), BitVec.extractLsb'_append_eq_of_add_le (by decide)]; exact BitVec.extractLsb'_eq_self

@[simp] theorem packA_fLa (op : BitVec 6) (d a b : RegNo) (sg : SegNo) (fn : BitVec 4) (la : La) : fLa (packA op d a b sg fn la) = la := by
  simp only [fLa, packA]
  rw [BitVec.extractLsb'_append_eq_of_add_le (by decide)]; exact BitVec.extractLsb'_eq_self

@[simp] theorem packV_fOp (op : BitVec 6) (d a b : RegNo) (pm : PNo) (ty : BitVec 3) (fn : BitVec 5) : fOp (packV op d a b pm ty fn) = op := by
  simp only [fOp, packV]
  rw [BitVec.extractLsb'_append_eq_of_le (by decide), BitVec.extractLsb'_append_eq_of_le (by decide), BitVec.extractLsb'_append_eq_of_le (by decide), BitVec.extractLsb'_append_eq_of_le (by decide), BitVec.extractLsb'_append_eq_of_le (by decide), BitVec.extractLsb'_append_eq_of_le (by decide)]; exact BitVec.extractLsb'_eq_self

@[simp] theorem packV_fD (op : BitVec 6) (d a b : RegNo) (pm : PNo) (ty : BitVec 3) (fn : BitVec 5) : fD (packV op d a b pm ty fn) = d := by
  simp only [fD, packV]
  rw [BitVec.extractLsb'_append_eq_of_le (by decide), BitVec.extractLsb'_append_eq_of_le (by decide), BitVec.extractLsb'_append_eq_of_le (by decide), BitVec.extractLsb'_append_eq_of_le (by decide), BitVec.extractLsb'_append_eq_of_le (by decide), BitVec.extractLsb'_append_eq_of_add_le (by decide)]; exact BitVec.extractLsb'_eq_self

@[simp] theorem packV_fA (op : BitVec 6) (d a b : RegNo) (pm : PNo) (ty : BitVec 3) (fn : BitVec 5) : fA (packV op d a b pm ty fn) = a := by
  simp only [fA, packV]
  rw [BitVec.extractLsb'_append_eq_of_le (by decide), BitVec.extractLsb'_append_eq_of_le (by decide), BitVec.extractLsb'_append_eq_of_le (by decide), BitVec.extractLsb'_append_eq_of_le (by decide), BitVec.extractLsb'_append_eq_of_add_le (by decide)]; exact BitVec.extractLsb'_eq_self

@[simp] theorem packV_fB (op : BitVec 6) (d a b : RegNo) (pm : PNo) (ty : BitVec 3) (fn : BitVec 5) : fB (packV op d a b pm ty fn) = b := by
  simp only [fB, packV]
  rw [BitVec.extractLsb'_append_eq_of_le (by decide), BitVec.extractLsb'_append_eq_of_le (by decide), BitVec.extractLsb'_append_eq_of_le (by decide), BitVec.extractLsb'_append_eq_of_add_le (by decide)]; exact BitVec.extractLsb'_eq_self

@[simp] theorem packV_fSgA (op : BitVec 6) (d a b : RegNo) (pm : PNo) (ty : BitVec 3) (fn : BitVec 5) : fSgA (packV op d a b pm ty fn) = pm := by
  simp only [fSgA, packV]
  rw [BitVec.extractLsb'_append_eq_of_le (by decide), BitVec.extractLsb'_append_eq_of_le (by decide), BitVec.extractLsb'_append_eq_of_add_le (by decide)]; exact BitVec.extractLsb'_eq_self

@[simp] theorem packV_fTy (op : BitVec 6) (d a b : RegNo) (pm : PNo) (ty : BitVec 3) (fn : BitVec 5) : fTy (packV op d a b pm ty fn) = ty := by
  simp only [fTy, packV]
  rw [BitVec.extractLsb'_append_eq_of_le (by decide), BitVec.extractLsb'_append_eq_of_add_le (by decide)]; exact BitVec.extractLsb'_eq_self

@[simp] theorem packV_fVfn (op : BitVec 6) (d a b : RegNo) (pm : PNo) (ty : BitVec 3) (fn : BitVec 5) : fVfn (packV op d a b pm ty fn) = fn := by
  simp only [fVfn, packV]
  rw [BitVec.extractLsb'_append_eq_of_add_le (by decide)]; exact BitVec.extractLsb'_eq_self

@[simp] theorem packMX_fOp (md : TileNo) (a b : RegNo) (sa sb : SegNo) (fn : BitVec 4) : fOp (packMX md a b sa sb fn) = (0x2D : BitVec 6) := by
  simp only [fOp, packMX]
  rw [BitVec.extractLsb'_append_eq_of_le (by decide), BitVec.extractLsb'_append_eq_of_le (by decide), BitVec.extractLsb'_append_eq_of_le (by decide), BitVec.extractLsb'_append_eq_of_le (by decide), BitVec.extractLsb'_append_eq_of_le (by decide), BitVec.extractLsb'_append_eq_of_le (by decide)]; exact BitVec.extractLsb'_eq_self

@[simp] theorem packMX_fMd (md : TileNo) (a b : RegNo) (sa sb : SegNo) (fn : BitVec 4) : fMd (packMX md a b sa sb fn) = md := by
  simp only [fMd, packMX]
  rw [BitVec.extractLsb'_append_eq_of_le (by decide), BitVec.extractLsb'_append_eq_of_le (by decide), BitVec.extractLsb'_append_eq_of_le (by decide), BitVec.extractLsb'_append_eq_of_le (by decide), BitVec.extractLsb'_append_eq_of_le (by decide), BitVec.extractLsb'_append_eq_of_add_le (by decide)]; exact BitVec.extractLsb'_eq_self

@[simp] theorem packMX_fMa (md : TileNo) (a b : RegNo) (sa sb : SegNo) (fn : BitVec 4) : fMa (packMX md a b sa sb fn) = a := by
  simp only [fMa, packMX]
  rw [BitVec.extractLsb'_append_eq_of_le (by decide), BitVec.extractLsb'_append_eq_of_le (by decide), BitVec.extractLsb'_append_eq_of_le (by decide), BitVec.extractLsb'_append_eq_of_le (by decide), BitVec.extractLsb'_append_eq_of_add_le (by decide)]; exact BitVec.extractLsb'_eq_self

@[simp] theorem packMX_fMb (md : TileNo) (a b : RegNo) (sa sb : SegNo) (fn : BitVec 4) : fMb (packMX md a b sa sb fn) = b := by
  simp only [fMb, packMX]
  rw [BitVec.extractLsb'_append_eq_of_le (by decide), BitVec.extractLsb'_append_eq_of_le (by decide), BitVec.extractLsb'_append_eq_of_le (by decide), BitVec.extractLsb'_append_eq_of_add_le (by decide)]; exact BitVec.extractLsb'_eq_self

@[simp] theorem packMX_fSa (md : TileNo) (a b : RegNo) (sa sb : SegNo) (fn : BitVec 4) : fSa (packMX md a b sa sb fn) = sa := by
  simp only [fSa, packMX]
  rw [BitVec.extractLsb'_append_eq_of_le (by decide), BitVec.extractLsb'_append_eq_of_le (by decide), BitVec.extractLsb'_append_eq_of_add_le (by decide)]; exact BitVec.extractLsb'_eq_self

@[simp] theorem packMX_fSb (md : TileNo) (a b : RegNo) (sa sb : SegNo) (fn : BitVec 4) : fSb (packMX md a b sa sb fn) = sb := by
  simp only [fSb, packMX]
  rw [BitVec.extractLsb'_append_eq_of_le (by decide), BitVec.extractLsb'_append_eq_of_add_le (by decide)]; exact BitVec.extractLsb'_eq_self

@[simp] theorem packMX_bits0 (md : TileNo) (a b : RegNo) (sa sb : SegNo) (fn : BitVec 4) : (packMX md a b sa sb fn).extractLsb' 0 4 = fn := by
  simp only [packMX]
  rw [BitVec.extractLsb'_append_eq_of_add_le (by decide)]; exact BitVec.extractLsb'_eq_self

@[simp] theorem packLX_fOp (lx fn : BitVec 3) (fa : TileNo) (fb fc : RegNo) : fOp (packLX lx fn fa fb fc) = (0x2E : BitVec 6) := by
  simp only [fOp, packLX]
  rw [BitVec.extractLsb'_append_eq_of_le (by decide), BitVec.extractLsb'_append_eq_of_le (by decide), BitVec.extractLsb'_append_eq_of_le (by decide), BitVec.extractLsb'_append_eq_of_le (by decide), BitVec.extractLsb'_append_eq_of_le (by decide), BitVec.extractLsb'_append_eq_of_le (by decide)]; exact BitVec.extractLsb'_eq_self

@[simp] theorem packLX_fLx (lx fn : BitVec 3) (fa : TileNo) (fb fc : RegNo) : fLx (packLX lx fn fa fb fc) = lx := by
  simp only [fLx, packLX]
  rw [BitVec.extractLsb'_append_eq_of_le (by decide), BitVec.extractLsb'_append_eq_of_le (by decide), BitVec.extractLsb'_append_eq_of_le (by decide), BitVec.extractLsb'_append_eq_of_le (by decide), BitVec.extractLsb'_append_eq_of_le (by decide), BitVec.extractLsb'_append_eq_of_add_le (by decide)]; exact BitVec.extractLsb'_eq_self

@[simp] theorem packLX_fLfn (lx fn : BitVec 3) (fa : TileNo) (fb fc : RegNo) : fLfn (packLX lx fn fa fb fc) = fn := by
  simp only [fLfn, packLX]
  rw [BitVec.extractLsb'_append_eq_of_le (by decide), BitVec.extractLsb'_append_eq_of_le (by decide), BitVec.extractLsb'_append_eq_of_le (by decide), BitVec.extractLsb'_append_eq_of_le (by decide), BitVec.extractLsb'_append_eq_of_add_le (by decide)]; exact BitVec.extractLsb'_eq_self

@[simp] theorem packLX_fFa (lx fn : BitVec 3) (fa : TileNo) (fb fc : RegNo) : fFa (packLX lx fn fa fb fc) = fa := by
  simp only [fFa, packLX]
  rw [BitVec.extractLsb'_append_eq_of_le (by decide), BitVec.extractLsb'_append_eq_of_le (by decide), BitVec.extractLsb'_append_eq_of_le (by decide), BitVec.extractLsb'_append_eq_of_add_le (by decide)]; exact BitVec.extractLsb'_eq_self

@[simp] theorem packLX_fFb (lx fn : BitVec 3) (fa : TileNo) (fb fc : RegNo) : fFb (packLX lx fn fa fb fc) = fb := by
  simp only [fFb, packLX]
  rw [BitVec.extractLsb'_append_eq_of_le (by decide), BitVec.extractLsb'_append_eq_of_le (by decide), BitVec.extractLsb'_append_eq_of_add_le (by decide)]; exact BitVec.extractLsb'_eq_self

@[simp] theorem packLX_fFc (lx fn : BitVec 3) (fa : TileNo) (fb fc : RegNo) : fFc (packLX lx fn fa fb fc) = fc := by
  simp only [fFc, packLX]
  rw [BitVec.extractLsb'_append_eq_of_le (by decide), BitVec.extractLsb'_append_eq_of_add_le (by decide)]; exact BitVec.extractLsb'_eq_self

@[simp] theorem packLX_fLa (lx fn : BitVec 3) (fa : TileNo) (fb fc : RegNo) : fLa (packLX lx fn fa fb fc) = (0 : La) := by
  simp only [fLa, packLX]
  rw [BitVec.extractLsb'_append_eq_of_add_le (by decide)]; exact BitVec.extractLsb'_eq_self

@[simp] theorem packSA_fOp (d a b : RegNo) (id : BitVec 6) (fn : BitVec 1) (la : La) : fOp (packSA d a b id fn la) = (0x32 : BitVec 6) := by
  simp only [fOp, packSA]
  rw [BitVec.extractLsb'_append_eq_of_le (by decide), BitVec.extractLsb'_append_eq_of_le (by decide), BitVec.extractLsb'_append_eq_of_le (by decide), BitVec.extractLsb'_append_eq_of_le (by decide), BitVec.extractLsb'_append_eq_of_le (by decide), BitVec.extractLsb'_append_eq_of_le (by decide)]; exact BitVec.extractLsb'_eq_self

@[simp] theorem packSA_fD (d a b : RegNo) (id : BitVec 6) (fn : BitVec 1) (la : La) : fD (packSA d a b id fn la) = d := by
  simp only [fD, packSA]
  rw [BitVec.extractLsb'_append_eq_of_le (by decide), BitVec.extractLsb'_append_eq_of_le (by decide), BitVec.extractLsb'_append_eq_of_le (by decide), BitVec.extractLsb'_append_eq_of_le (by decide), BitVec.extractLsb'_append_eq_of_le (by decide), BitVec.extractLsb'_append_eq_of_add_le (by decide)]; exact BitVec.extractLsb'_eq_self

@[simp] theorem packSA_fA (d a b : RegNo) (id : BitVec 6) (fn : BitVec 1) (la : La) : fA (packSA d a b id fn la) = a := by
  simp only [fA, packSA]
  rw [BitVec.extractLsb'_append_eq_of_le (by decide), BitVec.extractLsb'_append_eq_of_le (by decide), BitVec.extractLsb'_append_eq_of_le (by decide), BitVec.extractLsb'_append_eq_of_le (by decide), BitVec.extractLsb'_append_eq_of_add_le (by decide)]; exact BitVec.extractLsb'_eq_self

@[simp] theorem packSA_fB (d a b : RegNo) (id : BitVec 6) (fn : BitVec 1) (la : La) : fB (packSA d a b id fn la) = b := by
  simp only [fB, packSA]
  rw [BitVec.extractLsb'_append_eq_of_le (by decide), BitVec.extractLsb'_append_eq_of_le (by decide), BitVec.extractLsb'_append_eq_of_le (by decide), BitVec.extractLsb'_append_eq_of_add_le (by decide)]; exact BitVec.extractLsb'_eq_self

@[simp] theorem packSA_fId (d a b : RegNo) (id : BitVec 6) (fn : BitVec 1) (la : La) : fId (packSA d a b id fn la) = id := by
  simp only [fId, packSA]
  rw [BitVec.extractLsb'_append_eq_of_le (by decide), BitVec.extractLsb'_append_eq_of_le (by decide), BitVec.extractLsb'_append_eq_of_add_le (by decide)]; exact BitVec.extractLsb'_eq_self

@[simp] theorem packSA_fSaFn (d a b : RegNo) (id : BitVec 6) (fn : BitVec 1) (la : La) : fSaFn (packSA d a b id fn la) = fn := by
  simp only [fSaFn, packSA]
  rw [BitVec.extractLsb'_append_eq_of_le (by decide), BitVec.extractLsb'_append_eq_of_add_le (by decide)]; exact BitVec.extractLsb'_eq_self

@[simp] theorem packSA_fLa (d a b : RegNo) (id : BitVec 6) (fn : BitVec 1) (la : La) : fLa (packSA d a b id fn la) = la := by
  simp only [fLa, packSA]
  rw [BitVec.extractLsb'_append_eq_of_add_le (by decide)]; exact BitVec.extractLsb'_eq_self

@[simp] theorem packSh_fOp (op : BitVec 6) (d a : RegNo) (sel : BitVec 2) (n : BitVec 6) : fOp (packSh op d a sel n) = op := by
  simp only [fOp, packSh]
  rw [BitVec.extractLsb'_append_eq_of_le (by decide), BitVec.extractLsb'_append_eq_of_le (by decide), BitVec.extractLsb'_append_eq_of_le (by decide), BitVec.extractLsb'_append_eq_of_le (by decide), BitVec.extractLsb'_append_eq_of_le (by decide)]; exact BitVec.extractLsb'_eq_self

@[simp] theorem packSh_fD (op : BitVec 6) (d a : RegNo) (sel : BitVec 2) (n : BitVec 6) : fD (packSh op d a sel n) = d := by
  simp only [fD, packSh]
  rw [BitVec.extractLsb'_append_eq_of_le (by decide), BitVec.extractLsb'_append_eq_of_le (by decide), BitVec.extractLsb'_append_eq_of_le (by decide), BitVec.extractLsb'_append_eq_of_le (by decide), BitVec.extractLsb'_append_eq_of_add_le (by decide)]; exact BitVec.extractLsb'_eq_self

@[simp] theorem packSh_fA (op : BitVec 6) (d a : RegNo) (sel : BitVec 2) (n : BitVec 6) : fA (packSh op d a sel n) = a := by
  simp only [fA, packSh]
  rw [BitVec.extractLsb'_append_eq_of_le (by decide), BitVec.extractLsb'_append_eq_of_le (by decide), BitVec.extractLsb'_append_eq_of_le (by decide), BitVec.extractLsb'_append_eq_of_add_le (by decide)]; exact BitVec.extractLsb'_eq_self

@[simp] theorem packSh_bits14 (op : BitVec 6) (d a : RegNo) (sel : BitVec 2) (n : BitVec 6) : (packSh op d a sel n).extractLsb' 14 2 = sel := by
  simp only [packSh]
  rw [BitVec.extractLsb'_append_eq_of_le (by decide), BitVec.extractLsb'_append_eq_of_le (by decide), BitVec.extractLsb'_append_eq_of_add_le (by decide)]; exact BitVec.extractLsb'_eq_self

@[simp] theorem packSh_bits6 (op : BitVec 6) (d a : RegNo) (sel : BitVec 2) (n : BitVec 6) : (packSh op d a sel n).extractLsb' 6 8 = (0 : BitVec 8) := by
  simp only [packSh]
  rw [BitVec.extractLsb'_append_eq_of_le (by decide), BitVec.extractLsb'_append_eq_of_add_le (by decide)]; exact BitVec.extractLsb'_eq_self

@[simp] theorem packSh_bits0 (op : BitVec 6) (d a : RegNo) (sel : BitVec 2) (n : BitVec 6) : (packSh op d a sel n).extractLsb' 0 6 = n := by
  simp only [packSh]
  rw [BitVec.extractLsb'_append_eq_of_add_le (by decide)]; exact BitVec.extractLsb'_eq_self

/-! ### The codes that fields hold (R241, R243) -/

@[simp] theorem tyOf_tyCode (t : VTy) : tyOf (tyCode t) = t := by cases t <;> rfl
theorem tyCode_inj (a b : VTy) : tyCode a = tyCode b ↔ a = b := by cases a <;> cases b <;> decide
@[simp] theorem scopeOf_scopeCode (t : MemScope) : scopeOf (scopeCode t) = t := by cases t <;> rfl
@[simp] theorem ordOf_ordCode (t : MemOrd) : ordOf (ordCode t) = t := by cases t <;> rfl
@[simp] theorem wOf_wCode (t : Bool) : wOf (wCode t) = t := by cases t <;> rfl
@[simp] theorem ocW_packOc (w : Bool) (o : MemOrd) (c : MemScope) : ocW (packOc w o c) = w := by cases w <;> cases o <;> cases c <;> rfl
@[simp] theorem ocOrd_packOc (w : Bool) (o : MemOrd) (c : MemScope) : ocOrd (packOc w o c) = o := by cases w <;> cases o <;> cases c <;> rfl
@[simp] theorem ocScope_packOc (w : Bool) (o : MemOrd) (c : MemScope) : ocScope (packOc w o c) = c := by cases w <;> cases o <;> cases c <;> rfl
@[simp] theorem pLow_pField (p : PNo) : pLow (pField p) = p := by revert p; decide
@[simp] theorem pHigh_pField (p : PNo) : pHigh (pField p) = 0 := by revert p; decide
@[simp] theorem pLow_tyField (t : VTy) : pLow (tyField t) = tyCode t := by cases t <;> decide
@[simp] theorem pHigh_tyField (t : VTy) : pHigh (tyField t) = 0 := by cases t <;> decide

end Sys2Proof
end

