-- ==== Sys2Proof/Laws/Tables.lean ====
section
/-! SUPPORT. Laws of the sparse tables, of vectors read with a default, and of memory: a read after a write, and the canonical form, which
every memory operation keeps. -/

namespace Sys2Proof.Machine

/-! ### Tables -/

@[simp] theorem aget?_aset_same {α : Type} (m : AMap α) (k : Nat) (v : α) : aget? (aset m k v) k = some v := by
  induction m with
  | nil => simp [aset, aget?]
  | cons p t ih =>
    obtain ⟨j, w⟩ := p
    unfold aset
    split
    · simp [aget?]
    · rename_i hj
      split
      · simp [aget?]
      · simpa [aget?, hj] using ih

@[simp] theorem aget?_aset_ne {α : Type} (m : AMap α) (k j : Nat) (v : α) (h : j ≠ k) : aget? (aset m k v) j = aget? m j := by
  induction m with
  | nil => simp [aset, aget?, Ne.symm h]
  | cons p t ih =>
    obtain ⟨i, w⟩ := p
    unfold aset
    split
    · rename_i hi; subst hi; simp [aget?, Ne.symm h]
    · split
      · simp [aget?, Ne.symm h]
      · by_cases hij : i = j <;> simp [aget?, hij, ih]

@[simp] theorem aget?_adel_same {α : Type} (m : AMap α) (k : Nat) : aget? (adel m k) k = none := by
  induction m with
  | nil => rfl
  | cons p t ih =>
    obtain ⟨i, w⟩ := p
    by_cases h : i = k <;> simp [adel, aget?, h, ih]

@[simp] theorem aget?_adel_ne {α : Type} (m : AMap α) (k j : Nat) (h : j ≠ k) : aget? (adel m k) j = aget? m j := by
  induction m with
  | nil => rfl
  | cons p t ih =>
    obtain ⟨i, w⟩ := p
    by_cases hk : i = k
    · subst hk; simp [adel, aget?, Ne.symm h, ih]
    · by_cases hj : i = j
      · simp [adel, aget?, hj, h]
      · simp [adel, aget?, hk, hj, ih]

/-! ### Vectors -/

@[simp] theorem vget_vset_same {α : Type} {n : Nat} (v : Vector α n) (k : Nat) (x d : α) (h : k < n) : vget (vset v k x) k d = x := by
  simp [vget, vset, List.getD, h]

@[simp] theorem vget_vset_ne {α : Type} {n : Nat} (v : Vector α n) (k j : Nat) (x d : α) (h : j ≠ k) : vget (vset v k x) j d = vget v j d := by
  simp [vget, vset, List.getD, Ne.symm h]

theorem vget_beyond {α : Type} {n : Nat} (v : Vector α n) (k : Nat) (d : α) (h : n ≤ k) : vget v k d = d := by
  simp [vget, List.getD, h]

/-! ### The canonical form of memory -/

/-- The canonical form: addresses strictly rise, and no listed byte is what an unlisted address reads as. -/
theorem Mem.wf_iff (m : Mem) : Mem.wf m = true ↔ m.Pairwise (fun a b => a.1 < b.1) ∧ ∀ c ∈ m, c.2 ≠ unlisted := by
  induction m with
  | nil => simp [Mem.wf]
  | cons p t ih =>
    obtain ⟨a, b⟩ := p
    cases t with
    | nil => simp [Mem.wf]
    | cons q u =>
      obtain ⟨c, e⟩ := q
      simp only [Mem.wf, Bool.and_eq_true, bne_iff_ne, ne_eq, decide_eq_true_eq, ih, List.pairwise_cons, List.mem_cons, forall_eq_or_imp]
      constructor
      · rintro ⟨⟨h1, h2⟩, ⟨h3, h4⟩, h5, h6⟩
        exact ⟨⟨⟨h2, fun x hx => Nat.lt_trans h2 (h3 x hx)⟩, h3, h4⟩, h1, h5, h6⟩
      · rintro ⟨⟨⟨h2, _⟩, h3, h4⟩, h1, h5, h6⟩
        exact ⟨⟨h1, h2⟩, ⟨h3, h4⟩, h5, h6⟩

/-- The tail of a canonical memory is canonical, and lies above its head. -/
theorem Mem.wf_cons {a : Nat} {b : Byte} {t : Mem} : Mem.wf ((a, b) :: t) = true ↔ b ≠ unlisted ∧ (∀ c ∈ t, a < c.1) ∧ Mem.wf t = true := by
  simp only [Mem.wf_iff, List.pairwise_cons, List.mem_cons, forall_eq_or_imp]
  tauto

theorem Mem.mem_set {m : Mem} {x : Nat} {v : Byte} {c : Host.Cell} (h : c ∈ m.set x v) : (c = (x, v) ∧ v ≠ unlisted) ∨ c ∈ m := by
  induction m with
  | nil =>
    unfold Mem.set at h
    split at h <;> simp_all
  | cons p t ih =>
    obtain ⟨a, b⟩ := p
    unfold Mem.set at h
    split at h <;> (try split at h) <;> (try split at h) <;> simp_all
    · rcases h with h | h <;> tauto
    · rcases h with h | h
      · tauto
      · rcases ih h with h | h <;> tauto

@[simp] theorem Mem.wf_nil : Mem.wf [] = true := rfl

/-- A write keeps the canonical form. -/
theorem Mem.wf_set {m : Mem} (x : Nat) (v : Byte) (h : Mem.wf m = true) : Mem.wf (m.set x v) = true := by
  induction m with
  | nil => unfold Mem.set; split <;> simp_all [Mem.wf]
  | cons p t ih =>
    obtain ⟨a, b⟩ := p
    obtain ⟨hb, hlt, ht⟩ := Mem.wf_cons.mp h
    unfold Mem.set
    split
    · split
      · exact ht
      · exact Mem.wf_cons.mpr ⟨‹_›, hlt, ht⟩
    · split
      · split
        · exact h
        · refine Mem.wf_cons.mpr ⟨‹_›, ?_, h⟩
          intro c hc
          rcases List.mem_cons.mp hc with rfl | hc
          · assumption
          · exact Nat.lt_trans ‹_› (hlt c hc)
      · refine Mem.wf_cons.mpr ⟨hb, ?_, ih ht⟩
        intro c hc
        rcases Mem.mem_set hc with ⟨rfl, _⟩ | hc
        · simp only; omega
        · exact hlt c hc

theorem Mem.wf_setBytes {m : Mem} (a : Nat) (bs : List Byte) (h : Mem.wf m = true) : Mem.wf (m.setBytes a bs) = true := by
  induction bs generalizing m a with
  | nil => exact h
  | cons b t ih => exact ih (a + 1) (Mem.wf_set a b h)

theorem Mem.wf_setNat {m : Mem} (a n x : Nat) (h : Mem.wf m = true) : Mem.wf (m.setNat a n x) = true := Mem.wf_setBytes a _ h

theorem Mem.wf_setLine {m : Mem} (l : Nat) (d : Line) (h : Mem.wf m = true) : Mem.wf (m.setLine l d) = true := Mem.wf_setNat _ _ _ h

theorem Mem.wf_setMasked {m : Mem} (a : Nat) (data : Line) (mask : BitVec 128) (k : Nat) (h : Mem.wf m = true) :
    Mem.wf (m.setMasked a data mask k) = true := by
  induction k with
  | zero => exact h
  | succ k ih =>
    unfold Mem.setMasked
    simp only
    split
    · exact Mem.wf_set _ _ ih
    · exact ih

theorem Mem.wf_filter {m : Mem} (f : Host.Cell → Bool) (h : Mem.wf m = true) : Mem.wf (m.filter f) = true := by
  rw [Mem.wf_iff] at h ⊢
  exact ⟨h.1.filter f, fun c hc => h.2 c (List.mem_of_mem_filter hc)⟩

theorem Mem.wf_drop {m : Mem} (f : Nat → Bool) (h : Mem.wf m = true) : Mem.wf (m.drop f) = true := Mem.wf_filter _ h

theorem Mem.wf_put {m : Mem} (cells : List (Nat × Byte)) (h : Mem.wf m = true) : Mem.wf (m.put cells) = true := by
  unfold Mem.put
  induction cells generalizing m with
  | nil => exact h
  | cons c t ih => exact ih (Mem.wf_set c.1 c.2 h)

/-! ### Reads after writes -/

theorem Mem.get_above {m : Mem} {x : Nat} (h : ∀ c ∈ m, x < c.1) : m.get x = unlisted := by
  cases m with
  | nil => rfl
  | cons p t =>
    obtain ⟨a, b⟩ := p
    have : x < a := h (a, b) (by simp)
    simp [Mem.get, this, Nat.ne_of_gt this]

/-- A read after a write to the same address gives the byte written. -/
theorem Mem.get_set_same {m : Mem} (x : Nat) (v : Byte) (h : Mem.wf m = true) : (m.set x v).get x = v := by
  induction m with
  | nil => unfold Mem.set; split <;> simp_all [Mem.get]
  | cons p t ih =>
    obtain ⟨a, b⟩ := p
    obtain ⟨_, hlt, ht⟩ := Mem.wf_cons.mp h
    unfold Mem.set
    split
    · rename_i ha; subst ha
      split
      · rename_i hv; rw [Mem.get_above hlt, hv]
      · simp [Mem.get]
    · rename_i ha
      split
      · rename_i hx
        split
        · rename_i hv; simp [Mem.get, ha, hx, hv]
        · simp [Mem.get]
      · rename_i hx
        simpa [Mem.get, ha, hx] using ih ht

/-- A write leaves every other address as it was. -/
theorem Mem.get_set_ne {m : Mem} (x y : Nat) (v : Byte) (h : Mem.wf m = true) (hy : y ≠ x) : (m.set x v).get y = m.get y := by
  induction m with
  | nil => unfold Mem.set; split <;> simp [Mem.get, Ne.symm hy]
  | cons p t ih =>
    obtain ⟨a, b⟩ := p
    obtain ⟨_, hlt, ht⟩ := Mem.wf_cons.mp h
    unfold Mem.set
    split
    · rename_i ha; subst ha
      split
      · by_cases hya : y < a
        · rw [Mem.get_above fun c hc => Nat.lt_trans hya (hlt c hc)]
          simp [Mem.get, hya, Ne.symm hy]
        · simp [Mem.get, hya, Ne.symm hy]
      · simp [Mem.get, Ne.symm hy]
    · rename_i ha
      split
      · rename_i hx
        split
        · rfl
        · by_cases hyx : y < x
          · have : y < a := Nat.lt_trans hyx hx
            simp [Mem.get, Ne.symm hy, hyx, this, Nat.ne_of_gt this]
          · simp [Mem.get, Ne.symm hy, hyx]
      · by_cases hay : a = y
        · simp [Mem.get, hay]
        · simp [Mem.get, hay, ih ht]

theorem Mem.get_setBytes_outside {m : Mem} (a : Nat) (bs : List Byte) (y : Nat) (h : Mem.wf m = true) (hy : y < a ∨ a + bs.length ≤ y) :
    (m.setBytes a bs).get y = m.get y := by
  induction bs generalizing m a with
  | nil => rfl
  | cons b t ih =>
    have hne : y ≠ a := by simp only [List.length_cons] at hy; omega
    rw [Mem.setBytes, ih (a + 1) (Mem.wf_set a b h) (by simp only [List.length_cons] at hy; omega), Mem.get_set_ne a y b h hne]

theorem Mem.get_setBytes_inside {m : Mem} (a : Nat) (bs : List Byte) (i : Nat) (h : Mem.wf m = true) (hi : i < bs.length) :
    (m.setBytes a bs).get (a + i) = bs.getD i 0 := by
  induction bs generalizing m a i with
  | nil => simp at hi
  | cons b t ih =>
    cases i with
    | zero =>
      show ((m.set a b).setBytes (a + 1) t).get a = b
      rw [Mem.get_setBytes_outside (a + 1) t a (Mem.wf_set a b h) (by omega), Mem.get_set_same a b h]
    | succ i =>
      rw [Mem.setBytes, show a + (i + 1) = (a + 1) + i by omega, ih (a + 1) i (Mem.wf_set a b h) (by simpa using hi)]
      rfl

@[simp] theorem length_leBytes (n x : Nat) : (leBytes n x).length = n := by
  induction n generalizing x with
  | zero => rfl
  | succ n ih => simp [leBytes, ih]

/-- `n` little-endian bytes of a value give it back, mod 256^n (R5). -/
@[simp] theorem leNat_leBytes (n x : Nat) : leNat (leBytes n x) = x % 256 ^ n := by
  induction n generalizing x with
  | zero => simp [leBytes, leNat, Nat.mod_one]
  | succ n ih =>
    simp only [leBytes, leNat, ih, BitVec.toNat_ofNat]
    rw [show 256 ^ (n + 1) = 2 ^ 8 * 256 ^ n by rw [pow_succ]; ring, Nat.mod_mul]
    norm_num

end Sys2Proof.Machine
end

