-- ==== Sys2Proof/Laws/State.lean ====
section
/-! SUPPORT. Laws of the state: what each named update leaves of each field, and what a read after it gives. -/

namespace Sys2Proof.Machine

/-! ### Composite updates in terms of `setCore`, `setSlot`, `setPart` and `setQuad` -/

theorem Dev.modCore_eq (d : Dev) (r : Nat) (f : Core → Core) : d.modCore r f = d.setCore r (f (d.core r)) := rfl
theorem Dev.modCur_eq (d : Dev) (f : Core → Core) : d.modCur f = d.setCore d.cur.1 (f (d.core d.cur.1)) := rfl
theorem Dev.modSlot_eq (d : Dev) (r k : Nat) (f : Slot → Slot) : d.modSlot r k f = d.setSlot r k (f (d.slot r k)) := rfl
theorem Dev.modTh_eq (d : Dev) (f : Slot → Slot) : d.modTh f = d.setSlot d.cur.1 d.cur.2 (f d.th) := rfl
theorem Dev.setSlot_eq (d : Dev) (r k : Nat) (s : Slot) : d.setSlot r k s = d.setCore r ((d.core r).setSlot k s) := rfl
theorem Dev.modPart_eq (d : Dev) (p : Nat) (f : Part → Part) : d.modPart p f = d.setPart p (f (d.part p)) := rfl
theorem Dev.modQuad_eq (d : Dev) (q : Nat) (f : Quad → Quad) : d.modQuad q f = d.setQuad q (f (d.quad q)) := rfl

/-! ### Fields of the device -/

@[simp] theorem Dev.setCore_modnum (d : Dev) (r : Nat) (c : Core) : (d.setCore r c).modnum = d.modnum := rfl
@[simp] theorem Dev.setCore_mem (d : Dev) (r : Nat) (c : Core) : (d.setCore r c).mem = d.mem := rfl
@[simp] theorem Dev.setCore_llc (d : Dev) (r : Nat) (c : Core) : (d.setCore r c).llc = d.llc := rfl
@[simp] theorem Dev.setCore_poison (d : Dev) (r : Nat) (c : Core) : (d.setCore r c).poison = d.poison := rfl
@[simp] theorem Dev.setCore_lostRegs (d : Dev) (r : Nat) (c : Core) : (d.setCore r c).lostRegs = d.lostRegs := rfl
@[simp] theorem Dev.setCore_masks (d : Dev) (r : Nat) (c : Core) : (d.setCore r c).masks = d.masks := rfl
@[simp] theorem Dev.setCore_lp (d : Dev) (r : Nat) (c : Core) : (d.setCore r c).lp = d.lp := rfl
@[simp] theorem Dev.setCore_lpFills (d : Dev) (r : Nat) (c : Core) : (d.setCore r c).lpFills = d.lpFills := rfl
@[simp] theorem Dev.setCore_corr (d : Dev) (r : Nat) (c : Core) : (d.setCore r c).corr = d.corr := rfl
@[simp] theorem Dev.setCore_shadowHits (d : Dev) (r : Nat) (c : Core) : (d.setCore r c).shadowHits = d.shadowHits := rfl
@[simp] theorem Dev.setCore_shadow (d : Dev) (r : Nat) (c : Core) : (d.setCore r c).shadow = d.shadow := rfl
@[simp] theorem Dev.setCore_homeQ (d : Dev) (r : Nat) (c : Core) : (d.setCore r c).homeQ = d.homeQ := rfl
@[simp] theorem Dev.setCore_regs (d : Dev) (r : Nat) (c : Core) : (d.setCore r c).regs = d.regs := rfl
@[simp] theorem Dev.setCore_leases (d : Dev) (r : Nat) (c : Core) : (d.setCore r c).leases = d.leases := rfl
@[simp] theorem Dev.setCore_vwords (d : Dev) (r : Nat) (c : Core) : (d.setCore r c).vwords = d.vwords := rfl
@[simp] theorem Dev.setCore_obuf (d : Dev) (r : Nat) (c : Core) : (d.setCore r c).obuf = d.obuf := rfl
@[simp] theorem Dev.setCore_rcache (d : Dev) (r : Nat) (c : Core) : (d.setCore r c).rcache = d.rcache := rfl
@[simp] theorem Dev.setCore_tagWin (d : Dev) (r : Nat) (c : Core) : (d.setCore r c).tagWin = d.tagWin := rfl
@[simp] theorem Dev.setCore_net (d : Dev) (r : Nat) (c : Core) : (d.setCore r c).net = d.net := rfl
@[simp] theorem Dev.setCore_netSeq (d : Dev) (r : Nat) (c : Core) : (d.setCore r c).netSeq = d.netSeq := rfl
@[simp] theorem Dev.setCore_bars (d : Dev) (r : Nat) (c : Core) : (d.setCore r c).bars = d.bars := rfl
@[simp] theorem Dev.setCore_mangles (d : Dev) (r : Nat) (c : Core) : (d.setCore r c).mangles = d.mangles := rfl
@[simp] theorem Dev.setCore_parts (d : Dev) (r : Nat) (c : Core) : (d.setCore r c).parts = d.parts := rfl
@[simp] theorem Dev.setCore_flojoLog (d : Dev) (r : Nat) (c : Core) : (d.setCore r c).flojoLog = d.flojoLog := rfl
@[simp] theorem Dev.setCore_spareUsed (d : Dev) (r : Nat) (c : Core) : (d.setCore r c).spareUsed = d.spareUsed := rfl
@[simp] theorem Dev.setCore_deadDies (d : Dev) (r : Nat) (c : Core) : (d.setCore r c).deadDies = d.deadDies := rfl
@[simp] theorem Dev.setCore_linksDown (d : Dev) (r : Nat) (c : Core) : (d.setCore r c).linksDown = d.linksDown := rfl
@[simp] theorem Dev.setCore_linkFails (d : Dev) (r : Nat) (c : Core) : (d.setCore r c).linkFails = d.linkFails := rfl
@[simp] theorem Dev.setCore_exports (d : Dev) (r : Nat) (c : Core) : (d.setCore r c).exports = d.exports := rfl
@[simp] theorem Dev.setCore_remote (d : Dev) (r : Nat) (c : Core) : (d.setCore r c).remote = d.remote := rfl
@[simp] theorem Dev.setCore_dieCycles (d : Dev) (r : Nat) (c : Core) : (d.setCore r c).dieCycles = d.dieCycles := rfl
@[simp] theorem Dev.setCore_llcreb (d : Dev) (r : Nat) (c : Core) : (d.setCore r c).llcreb = d.llcreb := rfl
@[simp] theorem Dev.setCore_gangWait (d : Dev) (r : Nat) (c : Core) : (d.setCore r c).gangWait = d.gangWait := rfl
@[simp] theorem Dev.setCore_quads (d : Dev) (r : Nat) (c : Core) : (d.setCore r c).quads = d.quads := rfl
@[simp] theorem Dev.setCore_accSeq (d : Dev) (r : Nat) (c : Core) : (d.setCore r c).accSeq = d.accSeq := rfl
@[simp] theorem Dev.setCore_freeCtr (d : Dev) (r : Nat) (c : Core) : (d.setCore r c).freeCtr = d.freeCtr := rfl
@[simp] theorem Dev.setCore_time (d : Dev) (r : Nat) (c : Core) : (d.setCore r c).time = d.time := rfl
@[simp] theorem Dev.setCore_cur (d : Dev) (r : Nat) (c : Core) : (d.setCore r c).cur = d.cur := rfl
@[simp] theorem Dev.setCore_ended (d : Dev) (r : Nat) (c : Core) : (d.setCore r c).ended = d.ended := rfl
@[simp] theorem Dev.setCore_lru (d : Dev) (r : Nat) (c : Core) : (d.setCore r c).lru = d.lru := rfl
@[simp] theorem Dev.setCore_backing (d : Dev) (r : Nat) (c : Core) : (d.setCore r c).backing = d.backing := rfl
@[simp] theorem Dev.setCore_homeNow (d : Dev) (r : Nat) (c : Core) : (d.setCore r c).homeNow = d.homeNow := rfl
@[simp] theorem Dev.setSlot_modnum (d : Dev) (r k : Nat) (s : Slot) : (d.setSlot r k s).modnum = d.modnum := rfl
@[simp] theorem Dev.setSlot_mem (d : Dev) (r k : Nat) (s : Slot) : (d.setSlot r k s).mem = d.mem := rfl
@[simp] theorem Dev.setSlot_llc (d : Dev) (r k : Nat) (s : Slot) : (d.setSlot r k s).llc = d.llc := rfl
@[simp] theorem Dev.setSlot_poison (d : Dev) (r k : Nat) (s : Slot) : (d.setSlot r k s).poison = d.poison := rfl
@[simp] theorem Dev.setSlot_lostRegs (d : Dev) (r k : Nat) (s : Slot) : (d.setSlot r k s).lostRegs = d.lostRegs := rfl
@[simp] theorem Dev.setSlot_masks (d : Dev) (r k : Nat) (s : Slot) : (d.setSlot r k s).masks = d.masks := rfl
@[simp] theorem Dev.setSlot_lp (d : Dev) (r k : Nat) (s : Slot) : (d.setSlot r k s).lp = d.lp := rfl
@[simp] theorem Dev.setSlot_lpFills (d : Dev) (r k : Nat) (s : Slot) : (d.setSlot r k s).lpFills = d.lpFills := rfl
@[simp] theorem Dev.setSlot_corr (d : Dev) (r k : Nat) (s : Slot) : (d.setSlot r k s).corr = d.corr := rfl
@[simp] theorem Dev.setSlot_shadowHits (d : Dev) (r k : Nat) (s : Slot) : (d.setSlot r k s).shadowHits = d.shadowHits := rfl
@[simp] theorem Dev.setSlot_shadow (d : Dev) (r k : Nat) (s : Slot) : (d.setSlot r k s).shadow = d.shadow := rfl
@[simp] theorem Dev.setSlot_homeQ (d : Dev) (r k : Nat) (s : Slot) : (d.setSlot r k s).homeQ = d.homeQ := rfl
@[simp] theorem Dev.setSlot_regs (d : Dev) (r k : Nat) (s : Slot) : (d.setSlot r k s).regs = d.regs := rfl
@[simp] theorem Dev.setSlot_leases (d : Dev) (r k : Nat) (s : Slot) : (d.setSlot r k s).leases = d.leases := rfl
@[simp] theorem Dev.setSlot_vwords (d : Dev) (r k : Nat) (s : Slot) : (d.setSlot r k s).vwords = d.vwords := rfl
@[simp] theorem Dev.setSlot_obuf (d : Dev) (r k : Nat) (s : Slot) : (d.setSlot r k s).obuf = d.obuf := rfl
@[simp] theorem Dev.setSlot_rcache (d : Dev) (r k : Nat) (s : Slot) : (d.setSlot r k s).rcache = d.rcache := rfl
@[simp] theorem Dev.setSlot_tagWin (d : Dev) (r k : Nat) (s : Slot) : (d.setSlot r k s).tagWin = d.tagWin := rfl
@[simp] theorem Dev.setSlot_net (d : Dev) (r k : Nat) (s : Slot) : (d.setSlot r k s).net = d.net := rfl
@[simp] theorem Dev.setSlot_netSeq (d : Dev) (r k : Nat) (s : Slot) : (d.setSlot r k s).netSeq = d.netSeq := rfl
@[simp] theorem Dev.setSlot_bars (d : Dev) (r k : Nat) (s : Slot) : (d.setSlot r k s).bars = d.bars := rfl
@[simp] theorem Dev.setSlot_mangles (d : Dev) (r k : Nat) (s : Slot) : (d.setSlot r k s).mangles = d.mangles := rfl
@[simp] theorem Dev.setSlot_parts (d : Dev) (r k : Nat) (s : Slot) : (d.setSlot r k s).parts = d.parts := rfl
@[simp] theorem Dev.setSlot_flojoLog (d : Dev) (r k : Nat) (s : Slot) : (d.setSlot r k s).flojoLog = d.flojoLog := rfl
@[simp] theorem Dev.setSlot_spareUsed (d : Dev) (r k : Nat) (s : Slot) : (d.setSlot r k s).spareUsed = d.spareUsed := rfl
@[simp] theorem Dev.setSlot_deadDies (d : Dev) (r k : Nat) (s : Slot) : (d.setSlot r k s).deadDies = d.deadDies := rfl
@[simp] theorem Dev.setSlot_linksDown (d : Dev) (r k : Nat) (s : Slot) : (d.setSlot r k s).linksDown = d.linksDown := rfl
@[simp] theorem Dev.setSlot_linkFails (d : Dev) (r k : Nat) (s : Slot) : (d.setSlot r k s).linkFails = d.linkFails := rfl
@[simp] theorem Dev.setSlot_exports (d : Dev) (r k : Nat) (s : Slot) : (d.setSlot r k s).exports = d.exports := rfl
@[simp] theorem Dev.setSlot_remote (d : Dev) (r k : Nat) (s : Slot) : (d.setSlot r k s).remote = d.remote := rfl
@[simp] theorem Dev.setSlot_dieCycles (d : Dev) (r k : Nat) (s : Slot) : (d.setSlot r k s).dieCycles = d.dieCycles := rfl
@[simp] theorem Dev.setSlot_llcreb (d : Dev) (r k : Nat) (s : Slot) : (d.setSlot r k s).llcreb = d.llcreb := rfl
@[simp] theorem Dev.setSlot_gangWait (d : Dev) (r k : Nat) (s : Slot) : (d.setSlot r k s).gangWait = d.gangWait := rfl
@[simp] theorem Dev.setSlot_quads (d : Dev) (r k : Nat) (s : Slot) : (d.setSlot r k s).quads = d.quads := rfl
@[simp] theorem Dev.setSlot_accSeq (d : Dev) (r k : Nat) (s : Slot) : (d.setSlot r k s).accSeq = d.accSeq := rfl
@[simp] theorem Dev.setSlot_freeCtr (d : Dev) (r k : Nat) (s : Slot) : (d.setSlot r k s).freeCtr = d.freeCtr := rfl
@[simp] theorem Dev.setSlot_time (d : Dev) (r k : Nat) (s : Slot) : (d.setSlot r k s).time = d.time := rfl
@[simp] theorem Dev.setSlot_cur (d : Dev) (r k : Nat) (s : Slot) : (d.setSlot r k s).cur = d.cur := rfl
@[simp] theorem Dev.setSlot_ended (d : Dev) (r k : Nat) (s : Slot) : (d.setSlot r k s).ended = d.ended := rfl
@[simp] theorem Dev.setSlot_lru (d : Dev) (r k : Nat) (s : Slot) : (d.setSlot r k s).lru = d.lru := rfl
@[simp] theorem Dev.setSlot_backing (d : Dev) (r k : Nat) (s : Slot) : (d.setSlot r k s).backing = d.backing := rfl
@[simp] theorem Dev.setSlot_homeNow (d : Dev) (r k : Nat) (s : Slot) : (d.setSlot r k s).homeNow = d.homeNow := rfl
@[simp] theorem Dev.setPart_modnum (d : Dev) (p : Nat) (x : Part) : (d.setPart p x).modnum = d.modnum := rfl
@[simp] theorem Dev.setPart_mem (d : Dev) (p : Nat) (x : Part) : (d.setPart p x).mem = d.mem := rfl
@[simp] theorem Dev.setPart_llc (d : Dev) (p : Nat) (x : Part) : (d.setPart p x).llc = d.llc := rfl
@[simp] theorem Dev.setPart_poison (d : Dev) (p : Nat) (x : Part) : (d.setPart p x).poison = d.poison := rfl
@[simp] theorem Dev.setPart_lostRegs (d : Dev) (p : Nat) (x : Part) : (d.setPart p x).lostRegs = d.lostRegs := rfl
@[simp] theorem Dev.setPart_masks (d : Dev) (p : Nat) (x : Part) : (d.setPart p x).masks = d.masks := rfl
@[simp] theorem Dev.setPart_lp (d : Dev) (p : Nat) (x : Part) : (d.setPart p x).lp = d.lp := rfl
@[simp] theorem Dev.setPart_lpFills (d : Dev) (p : Nat) (x : Part) : (d.setPart p x).lpFills = d.lpFills := rfl
@[simp] theorem Dev.setPart_corr (d : Dev) (p : Nat) (x : Part) : (d.setPart p x).corr = d.corr := rfl
@[simp] theorem Dev.setPart_shadowHits (d : Dev) (p : Nat) (x : Part) : (d.setPart p x).shadowHits = d.shadowHits := rfl
@[simp] theorem Dev.setPart_shadow (d : Dev) (p : Nat) (x : Part) : (d.setPart p x).shadow = d.shadow := rfl
@[simp] theorem Dev.setPart_homeQ (d : Dev) (p : Nat) (x : Part) : (d.setPart p x).homeQ = d.homeQ := rfl
@[simp] theorem Dev.setPart_regs (d : Dev) (p : Nat) (x : Part) : (d.setPart p x).regs = d.regs := rfl
@[simp] theorem Dev.setPart_leases (d : Dev) (p : Nat) (x : Part) : (d.setPart p x).leases = d.leases := rfl
@[simp] theorem Dev.setPart_vwords (d : Dev) (p : Nat) (x : Part) : (d.setPart p x).vwords = d.vwords := rfl
@[simp] theorem Dev.setPart_obuf (d : Dev) (p : Nat) (x : Part) : (d.setPart p x).obuf = d.obuf := rfl
@[simp] theorem Dev.setPart_rcache (d : Dev) (p : Nat) (x : Part) : (d.setPart p x).rcache = d.rcache := rfl
@[simp] theorem Dev.setPart_tagWin (d : Dev) (p : Nat) (x : Part) : (d.setPart p x).tagWin = d.tagWin := rfl
@[simp] theorem Dev.setPart_net (d : Dev) (p : Nat) (x : Part) : (d.setPart p x).net = d.net := rfl
@[simp] theorem Dev.setPart_netSeq (d : Dev) (p : Nat) (x : Part) : (d.setPart p x).netSeq = d.netSeq := rfl
@[simp] theorem Dev.setPart_bars (d : Dev) (p : Nat) (x : Part) : (d.setPart p x).bars = d.bars := rfl
@[simp] theorem Dev.setPart_mangles (d : Dev) (p : Nat) (x : Part) : (d.setPart p x).mangles = d.mangles := rfl
@[simp] theorem Dev.setPart_flojoLog (d : Dev) (p : Nat) (x : Part) : (d.setPart p x).flojoLog = d.flojoLog := rfl
@[simp] theorem Dev.setPart_spareUsed (d : Dev) (p : Nat) (x : Part) : (d.setPart p x).spareUsed = d.spareUsed := rfl
@[simp] theorem Dev.setPart_deadDies (d : Dev) (p : Nat) (x : Part) : (d.setPart p x).deadDies = d.deadDies := rfl
@[simp] theorem Dev.setPart_linksDown (d : Dev) (p : Nat) (x : Part) : (d.setPart p x).linksDown = d.linksDown := rfl
@[simp] theorem Dev.setPart_linkFails (d : Dev) (p : Nat) (x : Part) : (d.setPart p x).linkFails = d.linkFails := rfl
@[simp] theorem Dev.setPart_exports (d : Dev) (p : Nat) (x : Part) : (d.setPart p x).exports = d.exports := rfl
@[simp] theorem Dev.setPart_remote (d : Dev) (p : Nat) (x : Part) : (d.setPart p x).remote = d.remote := rfl
@[simp] theorem Dev.setPart_dieCycles (d : Dev) (p : Nat) (x : Part) : (d.setPart p x).dieCycles = d.dieCycles := rfl
@[simp] theorem Dev.setPart_llcreb (d : Dev) (p : Nat) (x : Part) : (d.setPart p x).llcreb = d.llcreb := rfl
@[simp] theorem Dev.setPart_gangWait (d : Dev) (p : Nat) (x : Part) : (d.setPart p x).gangWait = d.gangWait := rfl
@[simp] theorem Dev.setPart_cores (d : Dev) (p : Nat) (x : Part) : (d.setPart p x).cores = d.cores := rfl
@[simp] theorem Dev.setPart_quads (d : Dev) (p : Nat) (x : Part) : (d.setPart p x).quads = d.quads := rfl
@[simp] theorem Dev.setPart_accSeq (d : Dev) (p : Nat) (x : Part) : (d.setPart p x).accSeq = d.accSeq := rfl
@[simp] theorem Dev.setPart_freeCtr (d : Dev) (p : Nat) (x : Part) : (d.setPart p x).freeCtr = d.freeCtr := rfl
@[simp] theorem Dev.setPart_time (d : Dev) (p : Nat) (x : Part) : (d.setPart p x).time = d.time := rfl
@[simp] theorem Dev.setPart_cur (d : Dev) (p : Nat) (x : Part) : (d.setPart p x).cur = d.cur := rfl
@[simp] theorem Dev.setPart_ended (d : Dev) (p : Nat) (x : Part) : (d.setPart p x).ended = d.ended := rfl
@[simp] theorem Dev.setPart_lru (d : Dev) (p : Nat) (x : Part) : (d.setPart p x).lru = d.lru := rfl
@[simp] theorem Dev.setPart_backing (d : Dev) (p : Nat) (x : Part) : (d.setPart p x).backing = d.backing := rfl
@[simp] theorem Dev.setPart_homeNow (d : Dev) (p : Nat) (x : Part) : (d.setPart p x).homeNow = d.homeNow := rfl
@[simp] theorem Dev.setQuad_modnum (d : Dev) (q : Nat) (x : Quad) : (d.setQuad q x).modnum = d.modnum := rfl
@[simp] theorem Dev.setQuad_mem (d : Dev) (q : Nat) (x : Quad) : (d.setQuad q x).mem = d.mem := rfl
@[simp] theorem Dev.setQuad_llc (d : Dev) (q : Nat) (x : Quad) : (d.setQuad q x).llc = d.llc := rfl
@[simp] theorem Dev.setQuad_poison (d : Dev) (q : Nat) (x : Quad) : (d.setQuad q x).poison = d.poison := rfl
@[simp] theorem Dev.setQuad_lostRegs (d : Dev) (q : Nat) (x : Quad) : (d.setQuad q x).lostRegs = d.lostRegs := rfl
@[simp] theorem Dev.setQuad_masks (d : Dev) (q : Nat) (x : Quad) : (d.setQuad q x).masks = d.masks := rfl
@[simp] theorem Dev.setQuad_lp (d : Dev) (q : Nat) (x : Quad) : (d.setQuad q x).lp = d.lp := rfl
@[simp] theorem Dev.setQuad_lpFills (d : Dev) (q : Nat) (x : Quad) : (d.setQuad q x).lpFills = d.lpFills := rfl
@[simp] theorem Dev.setQuad_corr (d : Dev) (q : Nat) (x : Quad) : (d.setQuad q x).corr = d.corr := rfl
@[simp] theorem Dev.setQuad_shadowHits (d : Dev) (q : Nat) (x : Quad) : (d.setQuad q x).shadowHits = d.shadowHits := rfl
@[simp] theorem Dev.setQuad_shadow (d : Dev) (q : Nat) (x : Quad) : (d.setQuad q x).shadow = d.shadow := rfl
@[simp] theorem Dev.setQuad_homeQ (d : Dev) (q : Nat) (x : Quad) : (d.setQuad q x).homeQ = d.homeQ := rfl
@[simp] theorem Dev.setQuad_regs (d : Dev) (q : Nat) (x : Quad) : (d.setQuad q x).regs = d.regs := rfl
@[simp] theorem Dev.setQuad_leases (d : Dev) (q : Nat) (x : Quad) : (d.setQuad q x).leases = d.leases := rfl
@[simp] theorem Dev.setQuad_vwords (d : Dev) (q : Nat) (x : Quad) : (d.setQuad q x).vwords = d.vwords := rfl
@[simp] theorem Dev.setQuad_obuf (d : Dev) (q : Nat) (x : Quad) : (d.setQuad q x).obuf = d.obuf := rfl
@[simp] theorem Dev.setQuad_rcache (d : Dev) (q : Nat) (x : Quad) : (d.setQuad q x).rcache = d.rcache := rfl
@[simp] theorem Dev.setQuad_tagWin (d : Dev) (q : Nat) (x : Quad) : (d.setQuad q x).tagWin = d.tagWin := rfl
@[simp] theorem Dev.setQuad_net (d : Dev) (q : Nat) (x : Quad) : (d.setQuad q x).net = d.net := rfl
@[simp] theorem Dev.setQuad_netSeq (d : Dev) (q : Nat) (x : Quad) : (d.setQuad q x).netSeq = d.netSeq := rfl
@[simp] theorem Dev.setQuad_bars (d : Dev) (q : Nat) (x : Quad) : (d.setQuad q x).bars = d.bars := rfl
@[simp] theorem Dev.setQuad_mangles (d : Dev) (q : Nat) (x : Quad) : (d.setQuad q x).mangles = d.mangles := rfl
@[simp] theorem Dev.setQuad_parts (d : Dev) (q : Nat) (x : Quad) : (d.setQuad q x).parts = d.parts := rfl
@[simp] theorem Dev.setQuad_flojoLog (d : Dev) (q : Nat) (x : Quad) : (d.setQuad q x).flojoLog = d.flojoLog := rfl
@[simp] theorem Dev.setQuad_spareUsed (d : Dev) (q : Nat) (x : Quad) : (d.setQuad q x).spareUsed = d.spareUsed := rfl
@[simp] theorem Dev.setQuad_deadDies (d : Dev) (q : Nat) (x : Quad) : (d.setQuad q x).deadDies = d.deadDies := rfl
@[simp] theorem Dev.setQuad_linksDown (d : Dev) (q : Nat) (x : Quad) : (d.setQuad q x).linksDown = d.linksDown := rfl
@[simp] theorem Dev.setQuad_linkFails (d : Dev) (q : Nat) (x : Quad) : (d.setQuad q x).linkFails = d.linkFails := rfl
@[simp] theorem Dev.setQuad_exports (d : Dev) (q : Nat) (x : Quad) : (d.setQuad q x).exports = d.exports := rfl
@[simp] theorem Dev.setQuad_remote (d : Dev) (q : Nat) (x : Quad) : (d.setQuad q x).remote = d.remote := rfl
@[simp] theorem Dev.setQuad_dieCycles (d : Dev) (q : Nat) (x : Quad) : (d.setQuad q x).dieCycles = d.dieCycles := rfl
@[simp] theorem Dev.setQuad_llcreb (d : Dev) (q : Nat) (x : Quad) : (d.setQuad q x).llcreb = d.llcreb := rfl
@[simp] theorem Dev.setQuad_gangWait (d : Dev) (q : Nat) (x : Quad) : (d.setQuad q x).gangWait = d.gangWait := rfl
@[simp] theorem Dev.setQuad_cores (d : Dev) (q : Nat) (x : Quad) : (d.setQuad q x).cores = d.cores := rfl
@[simp] theorem Dev.setQuad_accSeq (d : Dev) (q : Nat) (x : Quad) : (d.setQuad q x).accSeq = d.accSeq := rfl
@[simp] theorem Dev.setQuad_freeCtr (d : Dev) (q : Nat) (x : Quad) : (d.setQuad q x).freeCtr = d.freeCtr := rfl
@[simp] theorem Dev.setQuad_time (d : Dev) (q : Nat) (x : Quad) : (d.setQuad q x).time = d.time := rfl
@[simp] theorem Dev.setQuad_cur (d : Dev) (q : Nat) (x : Quad) : (d.setQuad q x).cur = d.cur := rfl
@[simp] theorem Dev.setQuad_ended (d : Dev) (q : Nat) (x : Quad) : (d.setQuad q x).ended = d.ended := rfl
@[simp] theorem Dev.setQuad_lru (d : Dev) (q : Nat) (x : Quad) : (d.setQuad q x).lru = d.lru := rfl
@[simp] theorem Dev.setQuad_backing (d : Dev) (q : Nat) (x : Quad) : (d.setQuad q x).backing = d.backing := rfl
@[simp] theorem Dev.setQuad_homeNow (d : Dev) (q : Nat) (x : Quad) : (d.setQuad q x).homeNow = d.homeNow := rfl
@[simp] theorem Dev.stamp_modnum (d : Dev) : d.stamp.modnum = d.modnum := rfl
@[simp] theorem Dev.stamp_mem (d : Dev) : d.stamp.mem = d.mem := rfl
@[simp] theorem Dev.stamp_llc (d : Dev) : d.stamp.llc = d.llc := rfl
@[simp] theorem Dev.stamp_poison (d : Dev) : d.stamp.poison = d.poison := rfl
@[simp] theorem Dev.stamp_lostRegs (d : Dev) : d.stamp.lostRegs = d.lostRegs := rfl
@[simp] theorem Dev.stamp_masks (d : Dev) : d.stamp.masks = d.masks := rfl
@[simp] theorem Dev.stamp_lp (d : Dev) : d.stamp.lp = d.lp := rfl
@[simp] theorem Dev.stamp_lpFills (d : Dev) : d.stamp.lpFills = d.lpFills := rfl
@[simp] theorem Dev.stamp_corr (d : Dev) : d.stamp.corr = d.corr := rfl
@[simp] theorem Dev.stamp_shadowHits (d : Dev) : d.stamp.shadowHits = d.shadowHits := rfl
@[simp] theorem Dev.stamp_shadow (d : Dev) : d.stamp.shadow = d.shadow := rfl
@[simp] theorem Dev.stamp_homeQ (d : Dev) : d.stamp.homeQ = d.homeQ := rfl
@[simp] theorem Dev.stamp_regs (d : Dev) : d.stamp.regs = d.regs := rfl
@[simp] theorem Dev.stamp_leases (d : Dev) : d.stamp.leases = d.leases := rfl
@[simp] theorem Dev.stamp_vwords (d : Dev) : d.stamp.vwords = d.vwords := rfl
@[simp] theorem Dev.stamp_obuf (d : Dev) : d.stamp.obuf = d.obuf := rfl
@[simp] theorem Dev.stamp_rcache (d : Dev) : d.stamp.rcache = d.rcache := rfl
@[simp] theorem Dev.stamp_tagWin (d : Dev) : d.stamp.tagWin = d.tagWin := rfl
@[simp] theorem Dev.stamp_net (d : Dev) : d.stamp.net = d.net := rfl
@[simp] theorem Dev.stamp_netSeq (d : Dev) : d.stamp.netSeq = d.netSeq := rfl
@[simp] theorem Dev.stamp_bars (d : Dev) : d.stamp.bars = d.bars := rfl
@[simp] theorem Dev.stamp_mangles (d : Dev) : d.stamp.mangles = d.mangles := rfl
@[simp] theorem Dev.stamp_parts (d : Dev) : d.stamp.parts = d.parts := rfl
@[simp] theorem Dev.stamp_flojoLog (d : Dev) : d.stamp.flojoLog = d.flojoLog := rfl
@[simp] theorem Dev.stamp_spareUsed (d : Dev) : d.stamp.spareUsed = d.spareUsed := rfl
@[simp] theorem Dev.stamp_deadDies (d : Dev) : d.stamp.deadDies = d.deadDies := rfl
@[simp] theorem Dev.stamp_linksDown (d : Dev) : d.stamp.linksDown = d.linksDown := rfl
@[simp] theorem Dev.stamp_linkFails (d : Dev) : d.stamp.linkFails = d.linkFails := rfl
@[simp] theorem Dev.stamp_exports (d : Dev) : d.stamp.exports = d.exports := rfl
@[simp] theorem Dev.stamp_remote (d : Dev) : d.stamp.remote = d.remote := rfl
@[simp] theorem Dev.stamp_dieCycles (d : Dev) : d.stamp.dieCycles = d.dieCycles := rfl
@[simp] theorem Dev.stamp_llcreb (d : Dev) : d.stamp.llcreb = d.llcreb := rfl
@[simp] theorem Dev.stamp_gangWait (d : Dev) : d.stamp.gangWait = d.gangWait := rfl
@[simp] theorem Dev.stamp_cores (d : Dev) : d.stamp.cores = d.cores := rfl
@[simp] theorem Dev.stamp_quads (d : Dev) : d.stamp.quads = d.quads := rfl
@[simp] theorem Dev.stamp_freeCtr (d : Dev) : d.stamp.freeCtr = d.freeCtr := rfl
@[simp] theorem Dev.stamp_time (d : Dev) : d.stamp.time = d.time := rfl
@[simp] theorem Dev.stamp_cur (d : Dev) : d.stamp.cur = d.cur := rfl
@[simp] theorem Dev.stamp_ended (d : Dev) : d.stamp.ended = d.ended := rfl
@[simp] theorem Dev.stamp_lru (d : Dev) : d.stamp.lru = d.lru := rfl
@[simp] theorem Dev.stamp_backing (d : Dev) : d.stamp.backing = d.backing := rfl
@[simp] theorem Dev.stamp_homeNow (d : Dev) : d.stamp.homeNow = d.homeNow := rfl

/-! ### Fields of a core -/

@[simp] theorem Core.setSlot_cycle (c : Core) (k : Nat) (s : Slot) : (c.setSlot k s).cycle = c.cycle := rfl
@[simp] theorem Core.setSlot_tvec (c : Core) (k : Nat) (s : Slot) : (c.setSlot k s).tvec = c.tvec := rfl
@[simp] theorem Core.setSlot_cpwp (c : Core) (k : Nat) (s : Slot) : (c.setSlot k s).cpwp = c.cpwp := rfl
@[simp] theorem Core.setSlot_counters (c : Core) (k : Nat) (s : Slot) : (c.setSlot k s).counters = c.counters := rfl
@[simp] theorem Core.setSlot_lmem (c : Core) (k : Nat) (s : Slot) : (c.setSlot k s).lmem = c.lmem := rfl
@[simp] theorem Core.setSlot_stash (c : Core) (k : Nat) (s : Slot) : (c.setSlot k s).stash = c.stash := rfl
@[simp] theorem Core.setSlot_mxq (c : Core) (k : Nat) (s : Slot) : (c.setSlot k s).mxq = c.mxq := rfl
@[simp] theorem Core.setSlot_tileFail (c : Core) (k : Nat) (s : Slot) : (c.setSlot k s).tileFail = c.tileFail := rfl
@[simp] theorem Core.setSlot_ladders (c : Core) (k : Nat) (s : Slot) : (c.setSlot k s).ladders = c.ladders := rfl
@[simp] theorem Core.setSlot_fifo (c : Core) (k : Nat) (s : Slot) : (c.setSlot k s).fifo = c.fifo := rfl
@[simp] theorem Core.setSlot_chan (c : Core) (k : Nat) (s : Slot) : (c.setSlot k s).chan = c.chan := rfl
@[simp] theorem Core.setSlot_inbox (c : Core) (k : Nat) (s : Slot) : (c.setSlot k s).inbox = c.inbox := rfl
@[simp] theorem Core.setSlot_overflow (c : Core) (k : Nat) (s : Slot) : (c.setSlot k s).overflow = c.overflow := rfl
@[simp] theorem Core.setSlot_spilled (c : Core) (k : Nat) (s : Slot) : (c.setSlot k s).spilled = c.spilled := rfl
@[simp] theorem Core.setSlot_wb (c : Core) (k : Nat) (s : Slot) : (c.setSlot k s).wb = c.wb := rfl
@[simp] theorem Core.setSlot_l1d (c : Core) (k : Nat) (s : Slot) : (c.setSlot k s).l1d = c.l1d := rfl
@[simp] theorem Core.setSlot_uoc (c : Core) (k : Nat) (s : Slot) : (c.setSlot k s).uoc = c.uoc := rfl
@[simp] theorem Core.setSlot_l1i (c : Core) (k : Nat) (s : Slot) : (c.setSlot k s).l1i = c.l1i := rfl
@[simp] theorem Core.setSlot_tlb (c : Core) (k : Nat) (s : Slot) : (c.setSlot k s).tlb = c.tlb := rfl
@[simp] theorem Core.setSlot_tagSeq (c : Core) (k : Nat) (s : Slot) : (c.setSlot k s).tagSeq = c.tagSeq := rfl
@[simp] theorem Core.setSlot_out (c : Core) (k : Nat) (s : Slot) : (c.setSlot k s).out = c.out := rfl
@[simp] theorem Core.setSlot_rflags (c : Core) (k : Nat) (s : Slot) : (c.setSlot k s).rflags = c.rflags := rfl
@[simp] theorem Core.setSlot_tasks (c : Core) (k : Nat) (s : Slot) : (c.setSlot k s).tasks = c.tasks := rfl
@[simp] theorem Core.setSlot_nextTask (c : Core) (k : Nat) (s : Slot) : (c.setSlot k s).nextTask = c.nextTask := rfl
@[simp] theorem Core.setSlot_qown (c : Core) (k : Nat) (s : Slot) : (c.setSlot k s).qown = c.qown := rfl
@[simp] theorem Core.setSlot_part (c : Core) (k : Nat) (s : Slot) : (c.setSlot k s).part = c.part := rfl
@[simp] theorem Core.setSlot_saving (c : Core) (k : Nat) (s : Slot) : (c.setSlot k s).saving = c.saving := rfl
@[simp] theorem Core.setSlot_commitWait (c : Core) (k : Nat) (s : Slot) : (c.setSlot k s).commitWait = c.commitWait := rfl
@[simp] theorem Core.setSlot_lost (c : Core) (k : Nat) (s : Slot) : (c.setSlot k s).lost = c.lost := rfl
@[simp] theorem Core.setSlot_badLmem (c : Core) (k : Nat) (s : Slot) : (c.setSlot k s).badLmem = c.badLmem := rfl

/-! ### Fields of a slot -/

@[simp] theorem Slot.retireTo_occ (s : Slot) (pc : Word) : (Slot.retireTo pc s).occ = s.occ := rfl
@[simp] theorem Slot.retireTo_away (s : Slot) (pc : Word) : (Slot.retireTo pc s).away = s.away := rfl
@[simp] theorem Slot.retireTo_part (s : Slot) (pc : Word) : (Slot.retireTo pc s).part = s.part := rfl
@[simp] theorem Slot.retireTo_isGuestSlot (s : Slot) (pc : Word) : (Slot.retireTo pc s).isGuestSlot = s.isGuestSlot := rfl
@[simp] theorem Slot.retireTo_x (s : Slot) (pc : Word) : (Slot.retireTo pc s).x = s.x := rfl
@[simp] theorem Slot.retireTo_v (s : Slot) (pc : Word) : (Slot.retireTo pc s).v = s.v := rfl
@[simp] theorem Slot.retireTo_p (s : Slot) (pc : Word) : (Slot.retireTo pc s).p = s.p := rfl
@[simp] theorem Slot.retireTo_s (s : Slot) (pc : Word) : (Slot.retireTo pc s).s = s.s := rfl
@[simp] theorem Slot.retireTo_arrive (s : Slot) (pc : Word) : (Slot.retireTo pc s).arrive = s.arrive := rfl
@[simp] theorem Slot.retireTo_mode (s : Slot) (pc : Word) : (Slot.retireTo pc s).mode = s.mode := rfl
@[simp] theorem Slot.retireTo_uact (s : Slot) (pc : Word) : (Slot.retireTo pc s).uact = s.uact := rfl
@[simp] theorem Slot.retireTo_guest (s : Slot) (pc : Word) : (Slot.retireTo pc s).guest = s.guest := rfl
@[simp] theorem Slot.retireTo_npend (s : Slot) (pc : Word) : (Slot.retireTo pc s).npend = s.npend := rfl
@[simp] theorem Slot.retireTo_hrank (s : Slot) (pc : Word) : (Slot.retireTo pc s).hrank = s.hrank := rfl
@[simp] theorem Slot.retireTo_hslot (s : Slot) (pc : Word) : (Slot.retireTo pc s).hslot = s.hslot := rfl
@[simp] theorem Slot.retireTo_fflags (s : Slot) (pc : Word) : (Slot.retireTo pc s).fflags = s.fflags := rfl
@[simp] theorem Slot.retireTo_frm (s : Slot) (pc : Word) : (Slot.retireTo pc s).frm = s.frm := rfl
@[simp] theorem Slot.retireTo_mfmt (s : Slot) (pc : Word) : (Slot.retireTo pc s).mfmt = s.mfmt := rfl
@[simp] theorem Slot.retireTo_msca (s : Slot) (pc : Word) : (Slot.retireTo pc s).msca = s.msca := rfl
@[simp] theorem Slot.retireTo_mscb (s : Slot) (pc : Word) : (Slot.retireTo pc s).mscb = s.mscb := rfl
@[simp] theorem Slot.retireTo_mosh (s : Slot) (pc : Word) : (Slot.retireTo pc s).mosh = s.mosh := rfl
@[simp] theorem Slot.retireTo_swbuf (s : Slot) (pc : Word) : (Slot.retireTo pc s).swbuf = s.swbuf := rfl
@[simp] theorem Slot.retireTo_swlin (s : Slot) (pc : Word) : (Slot.retireTo pc s).swlin = s.swlin := rfl
@[simp] theorem Slot.retireTo_uixid (s : Slot) (pc : Word) : (Slot.retireTo pc s).uixid = s.uixid := rfl
@[simp] theorem Slot.retireTo_uvec (s : Slot) (pc : Word) : (Slot.retireTo pc s).uvec = s.uvec := rfl
@[simp] theorem Slot.retireTo_uepc (s : Slot) (pc : Word) : (Slot.retireTo pc s).uepc = s.uepc := rfl
@[simp] theorem Slot.retireTo_ucause (s : Slot) (pc : Word) : (Slot.retireTo pc s).ucause = s.ucause := rfl
@[simp] theorem Slot.retireTo_uaddr (s : Slot) (pc : Word) : (Slot.retireTo pc s).uaddr = s.uaddr := rfl
@[simp] theorem Slot.retireTo_unote (s : Slot) (pc : Word) : (Slot.retireTo pc s).unote = s.unote := rfl
@[simp] theorem Slot.retireTo_sepc (s : Slot) (pc : Word) : (Slot.retireTo pc s).sepc = s.sepc := rfl
@[simp] theorem Slot.retireTo_scause (s : Slot) (pc : Word) : (Slot.retireTo pc s).scause = s.scause := rfl
@[simp] theorem Slot.retireTo_saddr (s : Slot) (pc : Word) : (Slot.retireTo pc s).saddr = s.saddr := rfl
@[simp] theorem Slot.retireTo_sscratch (s : Slot) (pc : Word) : (Slot.retireTo pc s).sscratch = s.sscratch := rfl
@[simp] theorem Slot.retireTo_mxerr (s : Slot) (pc : Word) : (Slot.retireTo pc s).mxerr = s.mxerr := rfl
@[simp] theorem Slot.retireTo_pend (s : Slot) (pc : Word) : (Slot.retireTo pc s).pend = s.pend := rfl
@[simp] theorem Slot.retireTo_nextPid (s : Slot) (pc : Word) : (Slot.retireTo pc s).nextPid = s.nextPid := rfl
@[simp] theorem Slot.retireTo_deferred (s : Slot) (pc : Word) : (Slot.retireTo pc s).deferred = s.deferred := rfl
@[simp] theorem Slot.retireTo_lease (s : Slot) (pc : Word) : (Slot.retireTo pc s).lease = s.lease := rfl
@[simp] theorem Slot.retireTo_acqPid (s : Slot) (pc : Word) : (Slot.retireTo pc s).acqPid = s.acqPid := rfl
@[simp] theorem Slot.retireTo_relMark (s : Slot) (pc : Word) : (Slot.retireTo pc s).relMark = s.relMark := rfl
@[simp] theorem Slot.retireTo_word (s : Slot) (pc : Word) : (Slot.retireTo pc s).word = s.word := rfl
@[simp] theorem Slot.retireTo_yieldUntil (s : Slot) (pc : Word) : (Slot.retireTo pc s).yieldUntil = s.yieldUntil := rfl
@[simp] theorem Slot.retireTo_lastIssue (s : Slot) (pc : Word) : (Slot.retireTo pc s).lastIssue = s.lastIssue := rfl
@[simp] theorem Slot.retireTo_badX (s : Slot) (pc : Word) : (Slot.retireTo pc s).badX = s.badX := rfl
@[simp] theorem Slot.retireTo_badV (s : Slot) (pc : Word) : (Slot.retireTo pc s).badV = s.badV := rfl
@[simp] theorem Slot.retireTo_badP (s : Slot) (pc : Word) : (Slot.retireTo pc s).badP = s.badP := rfl
@[simp] theorem Slot.retireTo_claimed (s : Slot) (pc : Word) : (Slot.retireTo pc s).claimed = s.claimed := rfl
@[simp] theorem Slot.retireTo_heldBuf (s : Slot) (pc : Word) : (Slot.retireTo pc s).heldBuf = s.heldBuf := rfl
@[simp] theorem Slot.retireTo_copyFaults (s : Slot) (pc : Word) : (Slot.retireTo pc s).copyFaults = s.copyFaults := rfl
@[simp] theorem Slot.retireTo_copyIrqs (s : Slot) (pc : Word) : (Slot.retireTo pc s).copyIrqs = s.copyIrqs := rfl
@[simp] theorem Slot.retireTo_trapPid (s : Slot) (pc : Word) : (Slot.retireTo pc s).trapPid = s.trapPid := rfl
@[simp] theorem Slot.retireTo_badS (s : Slot) (pc : Word) : (Slot.retireTo pc s).badS = s.badS := rfl
@[simp] theorem Slot.retireTo_badC (s : Slot) (pc : Word) : (Slot.retireTo pc s).badC = s.badC := rfl
@[simp] theorem Slot.retireTo_copyHold (s : Slot) (pc : Word) : (Slot.retireTo pc s).copyHold = s.copyHold := rfl
@[simp] theorem Slot.retireTo_own (s : Slot) (pc : Word) : (Slot.retireTo pc s).own = s.own := rfl
@[simp] theorem Slot.retireTo_pc (s : Slot) (pc : Word) : (Slot.retireTo pc s).pc = pc := rfl
@[simp] theorem Slot.retireTo_windows (s : Slot) (pc : Word) : (Slot.retireTo pc s).windows = tickWindows s.pend s.windows := rfl
@[simp] theorem Slot.goodCr_occ (s : Slot) (ns : List Nat) : (s.goodCr ns).occ = s.occ := rfl
@[simp] theorem Slot.goodCr_away (s : Slot) (ns : List Nat) : (s.goodCr ns).away = s.away := rfl
@[simp] theorem Slot.goodCr_part (s : Slot) (ns : List Nat) : (s.goodCr ns).part = s.part := rfl
@[simp] theorem Slot.goodCr_isGuestSlot (s : Slot) (ns : List Nat) : (s.goodCr ns).isGuestSlot = s.isGuestSlot := rfl
@[simp] theorem Slot.goodCr_x (s : Slot) (ns : List Nat) : (s.goodCr ns).x = s.x := rfl
@[simp] theorem Slot.goodCr_v (s : Slot) (ns : List Nat) : (s.goodCr ns).v = s.v := rfl
@[simp] theorem Slot.goodCr_p (s : Slot) (ns : List Nat) : (s.goodCr ns).p = s.p := rfl
@[simp] theorem Slot.goodCr_s (s : Slot) (ns : List Nat) : (s.goodCr ns).s = s.s := rfl
@[simp] theorem Slot.goodCr_mode (s : Slot) (ns : List Nat) : (s.goodCr ns).mode = s.mode := rfl
@[simp] theorem Slot.goodCr_guest (s : Slot) (ns : List Nat) : (s.goodCr ns).guest = s.guest := rfl
@[simp] theorem Slot.goodCr_npend (s : Slot) (ns : List Nat) : (s.goodCr ns).npend = s.npend := rfl
@[simp] theorem Slot.goodCr_hrank (s : Slot) (ns : List Nat) : (s.goodCr ns).hrank = s.hrank := rfl
@[simp] theorem Slot.goodCr_hslot (s : Slot) (ns : List Nat) : (s.goodCr ns).hslot = s.hslot := rfl
@[simp] theorem Slot.goodCr_fflags (s : Slot) (ns : List Nat) : (s.goodCr ns).fflags = s.fflags := rfl
@[simp] theorem Slot.goodCr_frm (s : Slot) (ns : List Nat) : (s.goodCr ns).frm = s.frm := rfl
@[simp] theorem Slot.goodCr_mfmt (s : Slot) (ns : List Nat) : (s.goodCr ns).mfmt = s.mfmt := rfl
@[simp] theorem Slot.goodCr_msca (s : Slot) (ns : List Nat) : (s.goodCr ns).msca = s.msca := rfl
@[simp] theorem Slot.goodCr_mscb (s : Slot) (ns : List Nat) : (s.goodCr ns).mscb = s.mscb := rfl
@[simp] theorem Slot.goodCr_mosh (s : Slot) (ns : List Nat) : (s.goodCr ns).mosh = s.mosh := rfl
@[simp] theorem Slot.goodCr_swbuf (s : Slot) (ns : List Nat) : (s.goodCr ns).swbuf = s.swbuf := rfl
@[simp] theorem Slot.goodCr_swlin (s : Slot) (ns : List Nat) : (s.goodCr ns).swlin = s.swlin := rfl
@[simp] theorem Slot.goodCr_uixid (s : Slot) (ns : List Nat) : (s.goodCr ns).uixid = s.uixid := rfl
@[simp] theorem Slot.goodCr_uvec (s : Slot) (ns : List Nat) : (s.goodCr ns).uvec = s.uvec := rfl
@[simp] theorem Slot.goodCr_uepc (s : Slot) (ns : List Nat) : (s.goodCr ns).uepc = s.uepc := rfl
@[simp] theorem Slot.goodCr_ucause (s : Slot) (ns : List Nat) : (s.goodCr ns).ucause = s.ucause := rfl
@[simp] theorem Slot.goodCr_uaddr (s : Slot) (ns : List Nat) : (s.goodCr ns).uaddr = s.uaddr := rfl
@[simp] theorem Slot.goodCr_unote (s : Slot) (ns : List Nat) : (s.goodCr ns).unote = s.unote := rfl
@[simp] theorem Slot.goodCr_sepc (s : Slot) (ns : List Nat) : (s.goodCr ns).sepc = s.sepc := rfl
@[simp] theorem Slot.goodCr_scause (s : Slot) (ns : List Nat) : (s.goodCr ns).scause = s.scause := rfl
@[simp] theorem Slot.goodCr_saddr (s : Slot) (ns : List Nat) : (s.goodCr ns).saddr = s.saddr := rfl
@[simp] theorem Slot.goodCr_sscratch (s : Slot) (ns : List Nat) : (s.goodCr ns).sscratch = s.sscratch := rfl
@[simp] theorem Slot.goodCr_mxerr (s : Slot) (ns : List Nat) : (s.goodCr ns).mxerr = s.mxerr := rfl
@[simp] theorem Slot.goodCr_windows (s : Slot) (ns : List Nat) : (s.goodCr ns).windows = s.windows := rfl
@[simp] theorem Slot.goodCr_pend (s : Slot) (ns : List Nat) : (s.goodCr ns).pend = s.pend := rfl
@[simp] theorem Slot.goodCr_nextPid (s : Slot) (ns : List Nat) : (s.goodCr ns).nextPid = s.nextPid := rfl
@[simp] theorem Slot.goodCr_deferred (s : Slot) (ns : List Nat) : (s.goodCr ns).deferred = s.deferred := rfl
@[simp] theorem Slot.goodCr_wait (s : Slot) (ns : List Nat) : (s.goodCr ns).wait = s.wait := rfl
@[simp] theorem Slot.goodCr_lease (s : Slot) (ns : List Nat) : (s.goodCr ns).lease = s.lease := rfl
@[simp] theorem Slot.goodCr_acqPid (s : Slot) (ns : List Nat) : (s.goodCr ns).acqPid = s.acqPid := rfl
@[simp] theorem Slot.goodCr_relMark (s : Slot) (ns : List Nat) : (s.goodCr ns).relMark = s.relMark := rfl
@[simp] theorem Slot.goodCr_opMark (s : Slot) (ns : List Nat) : (s.goodCr ns).opMark = s.opMark := rfl
@[simp] theorem Slot.goodCr_fresh (s : Slot) (ns : List Nat) : (s.goodCr ns).fresh = s.fresh := rfl
@[simp] theorem Slot.goodCr_word (s : Slot) (ns : List Nat) : (s.goodCr ns).word = s.word := rfl
@[simp] theorem Slot.goodCr_yieldUntil (s : Slot) (ns : List Nat) : (s.goodCr ns).yieldUntil = s.yieldUntil := rfl
@[simp] theorem Slot.goodCr_lastIssue (s : Slot) (ns : List Nat) : (s.goodCr ns).lastIssue = s.lastIssue := rfl
@[simp] theorem Slot.goodCr_badX (s : Slot) (ns : List Nat) : (s.goodCr ns).badX = s.badX := rfl
@[simp] theorem Slot.goodCr_badV (s : Slot) (ns : List Nat) : (s.goodCr ns).badV = s.badV := rfl
@[simp] theorem Slot.goodCr_badP (s : Slot) (ns : List Nat) : (s.goodCr ns).badP = s.badP := rfl
@[simp] theorem Slot.goodCr_claimed (s : Slot) (ns : List Nat) : (s.goodCr ns).claimed = s.claimed := rfl
@[simp] theorem Slot.goodCr_heldBuf (s : Slot) (ns : List Nat) : (s.goodCr ns).heldBuf = s.heldBuf := rfl
@[simp] theorem Slot.goodCr_copyFaults (s : Slot) (ns : List Nat) : (s.goodCr ns).copyFaults = s.copyFaults := rfl
@[simp] theorem Slot.goodCr_copyIrqs (s : Slot) (ns : List Nat) : (s.goodCr ns).copyIrqs = s.copyIrqs := rfl
@[simp] theorem Slot.goodCr_trapPid (s : Slot) (ns : List Nat) : (s.goodCr ns).trapPid = s.trapPid := rfl
@[simp] theorem Slot.goodCr_badS (s : Slot) (ns : List Nat) : (s.goodCr ns).badS = s.badS := rfl
@[simp] theorem Slot.goodCr_copyHold (s : Slot) (ns : List Nat) : (s.goodCr ns).copyHold = s.copyHold := rfl
@[simp] theorem Slot.goodCr_pc (s : Slot) (ns : List Nat) : (s.goodCr ns).pc = s.pc := rfl
@[simp] theorem Slot.goodCr_arrive (s : Slot) (ns : List Nat) : (s.goodCr ns).arrive = s.arrive := rfl
@[simp] theorem Slot.goodCr_uact (s : Slot) (ns : List Nat) : (s.goodCr ns).uact = s.uact := rfl
@[simp] theorem Slot.goodCr_turns (s : Slot) (ns : List Nat) : (s.goodCr ns).turns = s.turns := rfl
@[simp] theorem Slot.goodCr_own (s : Slot) (ns : List Nat) : (s.goodCr ns).own = s.own := rfl
@[simp] theorem Slot.leaveTrap_occ (s : Slot) : (s.leaveTrap).occ = s.occ := rfl
@[simp] theorem Slot.leaveTrap_away (s : Slot) : (s.leaveTrap).away = s.away := rfl
@[simp] theorem Slot.leaveTrap_part (s : Slot) : (s.leaveTrap).part = s.part := rfl
@[simp] theorem Slot.leaveTrap_isGuestSlot (s : Slot) : (s.leaveTrap).isGuestSlot = s.isGuestSlot := rfl
@[simp] theorem Slot.leaveTrap_x (s : Slot) : (s.leaveTrap).x = s.x := rfl
@[simp] theorem Slot.leaveTrap_v (s : Slot) : (s.leaveTrap).v = s.v := rfl
@[simp] theorem Slot.leaveTrap_p (s : Slot) : (s.leaveTrap).p = s.p := rfl
@[simp] theorem Slot.leaveTrap_s (s : Slot) : (s.leaveTrap).s = s.s := rfl
@[simp] theorem Slot.leaveTrap_uact (s : Slot) : (s.leaveTrap).uact = s.uact := rfl
@[simp] theorem Slot.leaveTrap_guest (s : Slot) : (s.leaveTrap).guest = s.guest := rfl
@[simp] theorem Slot.leaveTrap_npend (s : Slot) : (s.leaveTrap).npend = s.npend := rfl
@[simp] theorem Slot.leaveTrap_hrank (s : Slot) : (s.leaveTrap).hrank = s.hrank := rfl
@[simp] theorem Slot.leaveTrap_hslot (s : Slot) : (s.leaveTrap).hslot = s.hslot := rfl
@[simp] theorem Slot.leaveTrap_fflags (s : Slot) : (s.leaveTrap).fflags = s.fflags := rfl
@[simp] theorem Slot.leaveTrap_frm (s : Slot) : (s.leaveTrap).frm = s.frm := rfl
@[simp] theorem Slot.leaveTrap_mfmt (s : Slot) : (s.leaveTrap).mfmt = s.mfmt := rfl
@[simp] theorem Slot.leaveTrap_msca (s : Slot) : (s.leaveTrap).msca = s.msca := rfl
@[simp] theorem Slot.leaveTrap_mscb (s : Slot) : (s.leaveTrap).mscb = s.mscb := rfl
@[simp] theorem Slot.leaveTrap_mosh (s : Slot) : (s.leaveTrap).mosh = s.mosh := rfl
@[simp] theorem Slot.leaveTrap_swbuf (s : Slot) : (s.leaveTrap).swbuf = s.swbuf := rfl
@[simp] theorem Slot.leaveTrap_swlin (s : Slot) : (s.leaveTrap).swlin = s.swlin := rfl
@[simp] theorem Slot.leaveTrap_uixid (s : Slot) : (s.leaveTrap).uixid = s.uixid := rfl
@[simp] theorem Slot.leaveTrap_uvec (s : Slot) : (s.leaveTrap).uvec = s.uvec := rfl
@[simp] theorem Slot.leaveTrap_uepc (s : Slot) : (s.leaveTrap).uepc = s.uepc := rfl
@[simp] theorem Slot.leaveTrap_ucause (s : Slot) : (s.leaveTrap).ucause = s.ucause := rfl
@[simp] theorem Slot.leaveTrap_uaddr (s : Slot) : (s.leaveTrap).uaddr = s.uaddr := rfl
@[simp] theorem Slot.leaveTrap_unote (s : Slot) : (s.leaveTrap).unote = s.unote := rfl
@[simp] theorem Slot.leaveTrap_sepc (s : Slot) : (s.leaveTrap).sepc = s.sepc := rfl
@[simp] theorem Slot.leaveTrap_scause (s : Slot) : (s.leaveTrap).scause = s.scause := rfl
@[simp] theorem Slot.leaveTrap_saddr (s : Slot) : (s.leaveTrap).saddr = s.saddr := rfl
@[simp] theorem Slot.leaveTrap_sscratch (s : Slot) : (s.leaveTrap).sscratch = s.sscratch := rfl
@[simp] theorem Slot.leaveTrap_mxerr (s : Slot) : (s.leaveTrap).mxerr = s.mxerr := rfl
@[simp] theorem Slot.leaveTrap_windows (s : Slot) : (s.leaveTrap).windows = s.windows := rfl
@[simp] theorem Slot.leaveTrap_pend (s : Slot) : (s.leaveTrap).pend = s.pend := rfl
@[simp] theorem Slot.leaveTrap_nextPid (s : Slot) : (s.leaveTrap).nextPid = s.nextPid := rfl
@[simp] theorem Slot.leaveTrap_deferred (s : Slot) : (s.leaveTrap).deferred = s.deferred := rfl
@[simp] theorem Slot.leaveTrap_wait (s : Slot) : (s.leaveTrap).wait = s.wait := rfl
@[simp] theorem Slot.leaveTrap_lease (s : Slot) : (s.leaveTrap).lease = s.lease := rfl
@[simp] theorem Slot.leaveTrap_acqPid (s : Slot) : (s.leaveTrap).acqPid = s.acqPid := rfl
@[simp] theorem Slot.leaveTrap_relMark (s : Slot) : (s.leaveTrap).relMark = s.relMark := rfl
@[simp] theorem Slot.leaveTrap_opMark (s : Slot) : (s.leaveTrap).opMark = s.opMark := rfl
@[simp] theorem Slot.leaveTrap_fresh (s : Slot) : (s.leaveTrap).fresh = s.fresh := rfl
@[simp] theorem Slot.leaveTrap_word (s : Slot) : (s.leaveTrap).word = s.word := rfl
@[simp] theorem Slot.leaveTrap_yieldUntil (s : Slot) : (s.leaveTrap).yieldUntil = s.yieldUntil := rfl
@[simp] theorem Slot.leaveTrap_lastIssue (s : Slot) : (s.leaveTrap).lastIssue = s.lastIssue := rfl
@[simp] theorem Slot.leaveTrap_badX (s : Slot) : (s.leaveTrap).badX = s.badX := rfl
@[simp] theorem Slot.leaveTrap_badV (s : Slot) : (s.leaveTrap).badV = s.badV := rfl
@[simp] theorem Slot.leaveTrap_badP (s : Slot) : (s.leaveTrap).badP = s.badP := rfl
@[simp] theorem Slot.leaveTrap_claimed (s : Slot) : (s.leaveTrap).claimed = s.claimed := rfl
@[simp] theorem Slot.leaveTrap_heldBuf (s : Slot) : (s.leaveTrap).heldBuf = s.heldBuf := rfl
@[simp] theorem Slot.leaveTrap_copyFaults (s : Slot) : (s.leaveTrap).copyFaults = s.copyFaults := rfl
@[simp] theorem Slot.leaveTrap_copyIrqs (s : Slot) : (s.leaveTrap).copyIrqs = s.copyIrqs := rfl
@[simp] theorem Slot.leaveTrap_trapPid (s : Slot) : (s.leaveTrap).trapPid = s.trapPid := rfl
@[simp] theorem Slot.leaveTrap_badS (s : Slot) : (s.leaveTrap).badS = s.badS := rfl
@[simp] theorem Slot.leaveTrap_turns (s : Slot) : (s.leaveTrap).turns = s.turns := rfl
@[simp] theorem Slot.leaveTrap_own (s : Slot) : (s.leaveTrap).own = s.own := rfl
@[simp] theorem Slot.leaveUpcall_occ (s : Slot) : (s.leaveUpcall).occ = s.occ := rfl
@[simp] theorem Slot.leaveUpcall_away (s : Slot) : (s.leaveUpcall).away = s.away := rfl
@[simp] theorem Slot.leaveUpcall_part (s : Slot) : (s.leaveUpcall).part = s.part := rfl
@[simp] theorem Slot.leaveUpcall_isGuestSlot (s : Slot) : (s.leaveUpcall).isGuestSlot = s.isGuestSlot := rfl
@[simp] theorem Slot.leaveUpcall_x (s : Slot) : (s.leaveUpcall).x = s.x := rfl
@[simp] theorem Slot.leaveUpcall_v (s : Slot) : (s.leaveUpcall).v = s.v := rfl
@[simp] theorem Slot.leaveUpcall_p (s : Slot) : (s.leaveUpcall).p = s.p := rfl
@[simp] theorem Slot.leaveUpcall_s (s : Slot) : (s.leaveUpcall).s = s.s := rfl
@[simp] theorem Slot.leaveUpcall_mode (s : Slot) : (s.leaveUpcall).mode = s.mode := rfl
@[simp] theorem Slot.leaveUpcall_guest (s : Slot) : (s.leaveUpcall).guest = s.guest := rfl
@[simp] theorem Slot.leaveUpcall_npend (s : Slot) : (s.leaveUpcall).npend = s.npend := rfl
@[simp] theorem Slot.leaveUpcall_hrank (s : Slot) : (s.leaveUpcall).hrank = s.hrank := rfl
@[simp] theorem Slot.leaveUpcall_hslot (s : Slot) : (s.leaveUpcall).hslot = s.hslot := rfl
@[simp] theorem Slot.leaveUpcall_fflags (s : Slot) : (s.leaveUpcall).fflags = s.fflags := rfl
@[simp] theorem Slot.leaveUpcall_frm (s : Slot) : (s.leaveUpcall).frm = s.frm := rfl
@[simp] theorem Slot.leaveUpcall_mfmt (s : Slot) : (s.leaveUpcall).mfmt = s.mfmt := rfl
@[simp] theorem Slot.leaveUpcall_msca (s : Slot) : (s.leaveUpcall).msca = s.msca := rfl
@[simp] theorem Slot.leaveUpcall_mscb (s : Slot) : (s.leaveUpcall).mscb = s.mscb := rfl
@[simp] theorem Slot.leaveUpcall_mosh (s : Slot) : (s.leaveUpcall).mosh = s.mosh := rfl
@[simp] theorem Slot.leaveUpcall_swbuf (s : Slot) : (s.leaveUpcall).swbuf = s.swbuf := rfl
@[simp] theorem Slot.leaveUpcall_swlin (s : Slot) : (s.leaveUpcall).swlin = s.swlin := rfl
@[simp] theorem Slot.leaveUpcall_uixid (s : Slot) : (s.leaveUpcall).uixid = s.uixid := rfl
@[simp] theorem Slot.leaveUpcall_uvec (s : Slot) : (s.leaveUpcall).uvec = s.uvec := rfl
@[simp] theorem Slot.leaveUpcall_uepc (s : Slot) : (s.leaveUpcall).uepc = s.uepc := rfl
@[simp] theorem Slot.leaveUpcall_ucause (s : Slot) : (s.leaveUpcall).ucause = s.ucause := rfl
@[simp] theorem Slot.leaveUpcall_uaddr (s : Slot) : (s.leaveUpcall).uaddr = s.uaddr := rfl
@[simp] theorem Slot.leaveUpcall_unote (s : Slot) : (s.leaveUpcall).unote = s.unote := rfl
@[simp] theorem Slot.leaveUpcall_sepc (s : Slot) : (s.leaveUpcall).sepc = s.sepc := rfl
@[simp] theorem Slot.leaveUpcall_scause (s : Slot) : (s.leaveUpcall).scause = s.scause := rfl
@[simp] theorem Slot.leaveUpcall_saddr (s : Slot) : (s.leaveUpcall).saddr = s.saddr := rfl
@[simp] theorem Slot.leaveUpcall_sscratch (s : Slot) : (s.leaveUpcall).sscratch = s.sscratch := rfl
@[simp] theorem Slot.leaveUpcall_mxerr (s : Slot) : (s.leaveUpcall).mxerr = s.mxerr := rfl
@[simp] theorem Slot.leaveUpcall_windows (s : Slot) : (s.leaveUpcall).windows = s.windows := rfl
@[simp] theorem Slot.leaveUpcall_pend (s : Slot) : (s.leaveUpcall).pend = s.pend := rfl
@[simp] theorem Slot.leaveUpcall_nextPid (s : Slot) : (s.leaveUpcall).nextPid = s.nextPid := rfl
@[simp] theorem Slot.leaveUpcall_deferred (s : Slot) : (s.leaveUpcall).deferred = s.deferred := rfl
@[simp] theorem Slot.leaveUpcall_wait (s : Slot) : (s.leaveUpcall).wait = s.wait := rfl
@[simp] theorem Slot.leaveUpcall_lease (s : Slot) : (s.leaveUpcall).lease = s.lease := rfl
@[simp] theorem Slot.leaveUpcall_acqPid (s : Slot) : (s.leaveUpcall).acqPid = s.acqPid := rfl
@[simp] theorem Slot.leaveUpcall_relMark (s : Slot) : (s.leaveUpcall).relMark = s.relMark := rfl
@[simp] theorem Slot.leaveUpcall_opMark (s : Slot) : (s.leaveUpcall).opMark = s.opMark := rfl
@[simp] theorem Slot.leaveUpcall_fresh (s : Slot) : (s.leaveUpcall).fresh = s.fresh := rfl
@[simp] theorem Slot.leaveUpcall_word (s : Slot) : (s.leaveUpcall).word = s.word := rfl
@[simp] theorem Slot.leaveUpcall_yieldUntil (s : Slot) : (s.leaveUpcall).yieldUntil = s.yieldUntil := rfl
@[simp] theorem Slot.leaveUpcall_lastIssue (s : Slot) : (s.leaveUpcall).lastIssue = s.lastIssue := rfl
@[simp] theorem Slot.leaveUpcall_badX (s : Slot) : (s.leaveUpcall).badX = s.badX := rfl
@[simp] theorem Slot.leaveUpcall_badV (s : Slot) : (s.leaveUpcall).badV = s.badV := rfl
@[simp] theorem Slot.leaveUpcall_badP (s : Slot) : (s.leaveUpcall).badP = s.badP := rfl
@[simp] theorem Slot.leaveUpcall_claimed (s : Slot) : (s.leaveUpcall).claimed = s.claimed := rfl
@[simp] theorem Slot.leaveUpcall_heldBuf (s : Slot) : (s.leaveUpcall).heldBuf = s.heldBuf := rfl
@[simp] theorem Slot.leaveUpcall_copyFaults (s : Slot) : (s.leaveUpcall).copyFaults = s.copyFaults := rfl
@[simp] theorem Slot.leaveUpcall_copyIrqs (s : Slot) : (s.leaveUpcall).copyIrqs = s.copyIrqs := rfl
@[simp] theorem Slot.leaveUpcall_trapPid (s : Slot) : (s.leaveUpcall).trapPid = s.trapPid := rfl
@[simp] theorem Slot.leaveUpcall_badS (s : Slot) : (s.leaveUpcall).badS = s.badS := rfl
@[simp] theorem Slot.leaveUpcall_copyHold (s : Slot) : (s.leaveUpcall).copyHold = s.copyHold := rfl
@[simp] theorem Slot.leaveUpcall_turns (s : Slot) : (s.leaveUpcall).turns = s.turns := rfl
@[simp] theorem Slot.leaveUpcall_own (s : Slot) : (s.leaveUpcall).own = s.own := rfl
@[simp] theorem Slot.enterTrap_occ (s : Slot) (tvec : Word) (t : TrapInfo) : (Slot.enterTrap tvec t s).occ = s.occ := rfl
@[simp] theorem Slot.enterTrap_away (s : Slot) (tvec : Word) (t : TrapInfo) : (Slot.enterTrap tvec t s).away = s.away := rfl
@[simp] theorem Slot.enterTrap_part (s : Slot) (tvec : Word) (t : TrapInfo) : (Slot.enterTrap tvec t s).part = s.part := rfl
@[simp] theorem Slot.enterTrap_isGuestSlot (s : Slot) (tvec : Word) (t : TrapInfo) : (Slot.enterTrap tvec t s).isGuestSlot = s.isGuestSlot := rfl
@[simp] theorem Slot.enterTrap_x (s : Slot) (tvec : Word) (t : TrapInfo) : (Slot.enterTrap tvec t s).x = s.x := rfl
@[simp] theorem Slot.enterTrap_v (s : Slot) (tvec : Word) (t : TrapInfo) : (Slot.enterTrap tvec t s).v = s.v := rfl
@[simp] theorem Slot.enterTrap_p (s : Slot) (tvec : Word) (t : TrapInfo) : (Slot.enterTrap tvec t s).p = s.p := rfl
@[simp] theorem Slot.enterTrap_s (s : Slot) (tvec : Word) (t : TrapInfo) : (Slot.enterTrap tvec t s).s = s.s := rfl
@[simp] theorem Slot.enterTrap_uact (s : Slot) (tvec : Word) (t : TrapInfo) : (Slot.enterTrap tvec t s).uact = s.uact := rfl
@[simp] theorem Slot.enterTrap_guest (s : Slot) (tvec : Word) (t : TrapInfo) : (Slot.enterTrap tvec t s).guest = s.guest := rfl
@[simp] theorem Slot.enterTrap_npend (s : Slot) (tvec : Word) (t : TrapInfo) : (Slot.enterTrap tvec t s).npend = s.npend := rfl
@[simp] theorem Slot.enterTrap_hrank (s : Slot) (tvec : Word) (t : TrapInfo) : (Slot.enterTrap tvec t s).hrank = s.hrank := rfl
@[simp] theorem Slot.enterTrap_hslot (s : Slot) (tvec : Word) (t : TrapInfo) : (Slot.enterTrap tvec t s).hslot = s.hslot := rfl
@[simp] theorem Slot.enterTrap_fflags (s : Slot) (tvec : Word) (t : TrapInfo) : (Slot.enterTrap tvec t s).fflags = s.fflags := rfl
@[simp] theorem Slot.enterTrap_frm (s : Slot) (tvec : Word) (t : TrapInfo) : (Slot.enterTrap tvec t s).frm = s.frm := rfl
@[simp] theorem Slot.enterTrap_mfmt (s : Slot) (tvec : Word) (t : TrapInfo) : (Slot.enterTrap tvec t s).mfmt = s.mfmt := rfl
@[simp] theorem Slot.enterTrap_msca (s : Slot) (tvec : Word) (t : TrapInfo) : (Slot.enterTrap tvec t s).msca = s.msca := rfl
@[simp] theorem Slot.enterTrap_mscb (s : Slot) (tvec : Word) (t : TrapInfo) : (Slot.enterTrap tvec t s).mscb = s.mscb := rfl
@[simp] theorem Slot.enterTrap_mosh (s : Slot) (tvec : Word) (t : TrapInfo) : (Slot.enterTrap tvec t s).mosh = s.mosh := rfl
@[simp] theorem Slot.enterTrap_swbuf (s : Slot) (tvec : Word) (t : TrapInfo) : (Slot.enterTrap tvec t s).swbuf = s.swbuf := rfl
@[simp] theorem Slot.enterTrap_swlin (s : Slot) (tvec : Word) (t : TrapInfo) : (Slot.enterTrap tvec t s).swlin = s.swlin := rfl
@[simp] theorem Slot.enterTrap_uixid (s : Slot) (tvec : Word) (t : TrapInfo) : (Slot.enterTrap tvec t s).uixid = s.uixid := rfl
@[simp] theorem Slot.enterTrap_uvec (s : Slot) (tvec : Word) (t : TrapInfo) : (Slot.enterTrap tvec t s).uvec = s.uvec := rfl
@[simp] theorem Slot.enterTrap_uepc (s : Slot) (tvec : Word) (t : TrapInfo) : (Slot.enterTrap tvec t s).uepc = s.uepc := rfl
@[simp] theorem Slot.enterTrap_ucause (s : Slot) (tvec : Word) (t : TrapInfo) : (Slot.enterTrap tvec t s).ucause = s.ucause := rfl
@[simp] theorem Slot.enterTrap_uaddr (s : Slot) (tvec : Word) (t : TrapInfo) : (Slot.enterTrap tvec t s).uaddr = s.uaddr := rfl
@[simp] theorem Slot.enterTrap_unote (s : Slot) (tvec : Word) (t : TrapInfo) : (Slot.enterTrap tvec t s).unote = s.unote := rfl
@[simp] theorem Slot.enterTrap_sscratch (s : Slot) (tvec : Word) (t : TrapInfo) : (Slot.enterTrap tvec t s).sscratch = s.sscratch := rfl
@[simp] theorem Slot.enterTrap_mxerr (s : Slot) (tvec : Word) (t : TrapInfo) : (Slot.enterTrap tvec t s).mxerr = s.mxerr := rfl
@[simp] theorem Slot.enterTrap_pend (s : Slot) (tvec : Word) (t : TrapInfo) : (Slot.enterTrap tvec t s).pend = s.pend := rfl
@[simp] theorem Slot.enterTrap_deferred (s : Slot) (tvec : Word) (t : TrapInfo) : (Slot.enterTrap tvec t s).deferred = s.deferred := rfl
@[simp] theorem Slot.enterTrap_lease (s : Slot) (tvec : Word) (t : TrapInfo) : (Slot.enterTrap tvec t s).lease = s.lease := rfl
@[simp] theorem Slot.enterTrap_acqPid (s : Slot) (tvec : Word) (t : TrapInfo) : (Slot.enterTrap tvec t s).acqPid = s.acqPid := rfl
@[simp] theorem Slot.enterTrap_relMark (s : Slot) (tvec : Word) (t : TrapInfo) : (Slot.enterTrap tvec t s).relMark = s.relMark := rfl
@[simp] theorem Slot.enterTrap_word (s : Slot) (tvec : Word) (t : TrapInfo) : (Slot.enterTrap tvec t s).word = s.word := rfl
@[simp] theorem Slot.enterTrap_yieldUntil (s : Slot) (tvec : Word) (t : TrapInfo) : (Slot.enterTrap tvec t s).yieldUntil = s.yieldUntil := rfl
@[simp] theorem Slot.enterTrap_lastIssue (s : Slot) (tvec : Word) (t : TrapInfo) : (Slot.enterTrap tvec t s).lastIssue = s.lastIssue := rfl
@[simp] theorem Slot.enterTrap_badX (s : Slot) (tvec : Word) (t : TrapInfo) : (Slot.enterTrap tvec t s).badX = s.badX := rfl
@[simp] theorem Slot.enterTrap_badV (s : Slot) (tvec : Word) (t : TrapInfo) : (Slot.enterTrap tvec t s).badV = s.badV := rfl
@[simp] theorem Slot.enterTrap_badP (s : Slot) (tvec : Word) (t : TrapInfo) : (Slot.enterTrap tvec t s).badP = s.badP := rfl
@[simp] theorem Slot.enterTrap_claimed (s : Slot) (tvec : Word) (t : TrapInfo) : (Slot.enterTrap tvec t s).claimed = s.claimed := rfl
@[simp] theorem Slot.enterTrap_heldBuf (s : Slot) (tvec : Word) (t : TrapInfo) : (Slot.enterTrap tvec t s).heldBuf = s.heldBuf := rfl
@[simp] theorem Slot.enterTrap_copyFaults (s : Slot) (tvec : Word) (t : TrapInfo) : (Slot.enterTrap tvec t s).copyFaults = s.copyFaults := rfl
@[simp] theorem Slot.enterTrap_copyIrqs (s : Slot) (tvec : Word) (t : TrapInfo) : (Slot.enterTrap tvec t s).copyIrqs = s.copyIrqs := rfl
@[simp] theorem Slot.enterTrap_badS (s : Slot) (tvec : Word) (t : TrapInfo) : (Slot.enterTrap tvec t s).badS = s.badS := rfl
@[simp] theorem Slot.enterTrap_copyHold (s : Slot) (tvec : Word) (t : TrapInfo) : (Slot.enterTrap tvec t s).copyHold = s.copyHold := rfl
@[simp] theorem Slot.enterTrap_own (s : Slot) (tvec : Word) (t : TrapInfo) : (Slot.enterTrap tvec t s).own = s.own := rfl
@[simp] theorem Slot.setX_occ (s : Slot) (r : RegNo) (v : Word) : (s.setX r v).occ = s.occ := by unfold Slot.setX; split <;> rfl
@[simp] theorem Slot.setX_away (s : Slot) (r : RegNo) (v : Word) : (s.setX r v).away = s.away := by unfold Slot.setX; split <;> rfl
@[simp] theorem Slot.setX_part (s : Slot) (r : RegNo) (v : Word) : (s.setX r v).part = s.part := by unfold Slot.setX; split <;> rfl
@[simp] theorem Slot.setX_isGuestSlot (s : Slot) (r : RegNo) (v : Word) : (s.setX r v).isGuestSlot = s.isGuestSlot := by unfold Slot.setX; split <;> rfl
@[simp] theorem Slot.setX_v (s : Slot) (r : RegNo) (v : Word) : (s.setX r v).v = s.v := by unfold Slot.setX; split <;> rfl
@[simp] theorem Slot.setX_p (s : Slot) (r : RegNo) (v : Word) : (s.setX r v).p = s.p := by unfold Slot.setX; split <;> rfl
@[simp] theorem Slot.setX_s (s : Slot) (r : RegNo) (v : Word) : (s.setX r v).s = s.s := by unfold Slot.setX; split <;> rfl
@[simp] theorem Slot.setX_pc (s : Slot) (r : RegNo) (v : Word) : (s.setX r v).pc = s.pc := by unfold Slot.setX; split <;> rfl
@[simp] theorem Slot.setX_arrive (s : Slot) (r : RegNo) (v : Word) : (s.setX r v).arrive = s.arrive := by unfold Slot.setX; split <;> rfl
@[simp] theorem Slot.setX_mode (s : Slot) (r : RegNo) (v : Word) : (s.setX r v).mode = s.mode := by unfold Slot.setX; split <;> rfl
@[simp] theorem Slot.setX_uact (s : Slot) (r : RegNo) (v : Word) : (s.setX r v).uact = s.uact := by unfold Slot.setX; split <;> rfl
@[simp] theorem Slot.setX_guest (s : Slot) (r : RegNo) (v : Word) : (s.setX r v).guest = s.guest := by unfold Slot.setX; split <;> rfl
@[simp] theorem Slot.setX_npend (s : Slot) (r : RegNo) (v : Word) : (s.setX r v).npend = s.npend := by unfold Slot.setX; split <;> rfl
@[simp] theorem Slot.setX_hrank (s : Slot) (r : RegNo) (v : Word) : (s.setX r v).hrank = s.hrank := by unfold Slot.setX; split <;> rfl
@[simp] theorem Slot.setX_hslot (s : Slot) (r : RegNo) (v : Word) : (s.setX r v).hslot = s.hslot := by unfold Slot.setX; split <;> rfl
@[simp] theorem Slot.setX_fflags (s : Slot) (r : RegNo) (v : Word) : (s.setX r v).fflags = s.fflags := by unfold Slot.setX; split <;> rfl
@[simp] theorem Slot.setX_frm (s : Slot) (r : RegNo) (v : Word) : (s.setX r v).frm = s.frm := by unfold Slot.setX; split <;> rfl
@[simp] theorem Slot.setX_mfmt (s : Slot) (r : RegNo) (v : Word) : (s.setX r v).mfmt = s.mfmt := by unfold Slot.setX; split <;> rfl
@[simp] theorem Slot.setX_msca (s : Slot) (r : RegNo) (v : Word) : (s.setX r v).msca = s.msca := by unfold Slot.setX; split <;> rfl
@[simp] theorem Slot.setX_mscb (s : Slot) (r : RegNo) (v : Word) : (s.setX r v).mscb = s.mscb := by unfold Slot.setX; split <;> rfl
@[simp] theorem Slot.setX_mosh (s : Slot) (r : RegNo) (v : Word) : (s.setX r v).mosh = s.mosh := by unfold Slot.setX; split <;> rfl
@[simp] theorem Slot.setX_swbuf (s : Slot) (r : RegNo) (v : Word) : (s.setX r v).swbuf = s.swbuf := by unfold Slot.setX; split <;> rfl
@[simp] theorem Slot.setX_swlin (s : Slot) (r : RegNo) (v : Word) : (s.setX r v).swlin = s.swlin := by unfold Slot.setX; split <;> rfl
@[simp] theorem Slot.setX_uixid (s : Slot) (r : RegNo) (v : Word) : (s.setX r v).uixid = s.uixid := by unfold Slot.setX; split <;> rfl
@[simp] theorem Slot.setX_uvec (s : Slot) (r : RegNo) (v : Word) : (s.setX r v).uvec = s.uvec := by unfold Slot.setX; split <;> rfl
@[simp] theorem Slot.setX_uepc (s : Slot) (r : RegNo) (v : Word) : (s.setX r v).uepc = s.uepc := by unfold Slot.setX; split <;> rfl
@[simp] theorem Slot.setX_ucause (s : Slot) (r : RegNo) (v : Word) : (s.setX r v).ucause = s.ucause := by unfold Slot.setX; split <;> rfl
@[simp] theorem Slot.setX_uaddr (s : Slot) (r : RegNo) (v : Word) : (s.setX r v).uaddr = s.uaddr := by unfold Slot.setX; split <;> rfl
@[simp] theorem Slot.setX_unote (s : Slot) (r : RegNo) (v : Word) : (s.setX r v).unote = s.unote := by unfold Slot.setX; split <;> rfl
@[simp] theorem Slot.setX_sepc (s : Slot) (r : RegNo) (v : Word) : (s.setX r v).sepc = s.sepc := by unfold Slot.setX; split <;> rfl
@[simp] theorem Slot.setX_scause (s : Slot) (r : RegNo) (v : Word) : (s.setX r v).scause = s.scause := by unfold Slot.setX; split <;> rfl
@[simp] theorem Slot.setX_saddr (s : Slot) (r : RegNo) (v : Word) : (s.setX r v).saddr = s.saddr := by unfold Slot.setX; split <;> rfl
@[simp] theorem Slot.setX_sscratch (s : Slot) (r : RegNo) (v : Word) : (s.setX r v).sscratch = s.sscratch := by unfold Slot.setX; split <;> rfl
@[simp] theorem Slot.setX_mxerr (s : Slot) (r : RegNo) (v : Word) : (s.setX r v).mxerr = s.mxerr := by unfold Slot.setX; split <;> rfl
@[simp] theorem Slot.setX_windows (s : Slot) (r : RegNo) (v : Word) : (s.setX r v).windows = s.windows := by unfold Slot.setX; split <;> rfl
@[simp] theorem Slot.setX_pend (s : Slot) (r : RegNo) (v : Word) : (s.setX r v).pend = s.pend := by unfold Slot.setX; split <;> rfl
@[simp] theorem Slot.setX_nextPid (s : Slot) (r : RegNo) (v : Word) : (s.setX r v).nextPid = s.nextPid := by unfold Slot.setX; split <;> rfl
@[simp] theorem Slot.setX_deferred (s : Slot) (r : RegNo) (v : Word) : (s.setX r v).deferred = s.deferred := by unfold Slot.setX; split <;> rfl
@[simp] theorem Slot.setX_wait (s : Slot) (r : RegNo) (v : Word) : (s.setX r v).wait = s.wait := by unfold Slot.setX; split <;> rfl
@[simp] theorem Slot.setX_lease (s : Slot) (r : RegNo) (v : Word) : (s.setX r v).lease = s.lease := by unfold Slot.setX; split <;> rfl
@[simp] theorem Slot.setX_acqPid (s : Slot) (r : RegNo) (v : Word) : (s.setX r v).acqPid = s.acqPid := by unfold Slot.setX; split <;> rfl
@[simp] theorem Slot.setX_relMark (s : Slot) (r : RegNo) (v : Word) : (s.setX r v).relMark = s.relMark := by unfold Slot.setX; split <;> rfl
@[simp] theorem Slot.setX_opMark (s : Slot) (r : RegNo) (v : Word) : (s.setX r v).opMark = s.opMark := by unfold Slot.setX; split <;> rfl
@[simp] theorem Slot.setX_fresh (s : Slot) (r : RegNo) (v : Word) : (s.setX r v).fresh = s.fresh := by unfold Slot.setX; split <;> rfl
@[simp] theorem Slot.setX_word (s : Slot) (r : RegNo) (v : Word) : (s.setX r v).word = s.word := by unfold Slot.setX; split <;> rfl
@[simp] theorem Slot.setX_yieldUntil (s : Slot) (r : RegNo) (v : Word) : (s.setX r v).yieldUntil = s.yieldUntil := by unfold Slot.setX; split <;> rfl
@[simp] theorem Slot.setX_lastIssue (s : Slot) (r : RegNo) (v : Word) : (s.setX r v).lastIssue = s.lastIssue := by unfold Slot.setX; split <;> rfl
@[simp] theorem Slot.setX_badV (s : Slot) (r : RegNo) (v : Word) : (s.setX r v).badV = s.badV := by unfold Slot.setX; split <;> rfl
@[simp] theorem Slot.setX_badP (s : Slot) (r : RegNo) (v : Word) : (s.setX r v).badP = s.badP := by unfold Slot.setX; split <;> rfl
@[simp] theorem Slot.setX_claimed (s : Slot) (r : RegNo) (v : Word) : (s.setX r v).claimed = s.claimed := by unfold Slot.setX; split <;> rfl
@[simp] theorem Slot.setX_heldBuf (s : Slot) (r : RegNo) (v : Word) : (s.setX r v).heldBuf = s.heldBuf := by unfold Slot.setX; split <;> rfl
@[simp] theorem Slot.setX_copyFaults (s : Slot) (r : RegNo) (v : Word) : (s.setX r v).copyFaults = s.copyFaults := by unfold Slot.setX; split <;> rfl
@[simp] theorem Slot.setX_copyIrqs (s : Slot) (r : RegNo) (v : Word) : (s.setX r v).copyIrqs = s.copyIrqs := by unfold Slot.setX; split <;> rfl
@[simp] theorem Slot.setX_trapPid (s : Slot) (r : RegNo) (v : Word) : (s.setX r v).trapPid = s.trapPid := by unfold Slot.setX; split <;> rfl
@[simp] theorem Slot.setX_badS (s : Slot) (r : RegNo) (v : Word) : (s.setX r v).badS = s.badS := by unfold Slot.setX; split <;> rfl
@[simp] theorem Slot.setX_badC (s : Slot) (r : RegNo) (v : Word) : (s.setX r v).badC = s.badC := by unfold Slot.setX; split <;> rfl
@[simp] theorem Slot.setX_copyHold (s : Slot) (r : RegNo) (v : Word) : (s.setX r v).copyHold = s.copyHold := by unfold Slot.setX; split <;> rfl
@[simp] theorem Slot.setX_turns (s : Slot) (r : RegNo) (v : Word) : (s.setX r v).turns = s.turns := by unfold Slot.setX; split <;> rfl
@[simp] theorem Slot.setX_own (s : Slot) (r : RegNo) (v : Word) : (s.setX r v).own = s.own := by unfold Slot.setX; split <;> rfl
@[simp] theorem Slot.setP_occ (s : Slot) (r : PNo) (v : Word) : (s.setP r v).occ = s.occ := by unfold Slot.setP; split <;> rfl
@[simp] theorem Slot.setP_away (s : Slot) (r : PNo) (v : Word) : (s.setP r v).away = s.away := by unfold Slot.setP; split <;> rfl
@[simp] theorem Slot.setP_part (s : Slot) (r : PNo) (v : Word) : (s.setP r v).part = s.part := by unfold Slot.setP; split <;> rfl
@[simp] theorem Slot.setP_isGuestSlot (s : Slot) (r : PNo) (v : Word) : (s.setP r v).isGuestSlot = s.isGuestSlot := by unfold Slot.setP; split <;> rfl
@[simp] theorem Slot.setP_x (s : Slot) (r : PNo) (v : Word) : (s.setP r v).x = s.x := by unfold Slot.setP; split <;> rfl
@[simp] theorem Slot.setP_v (s : Slot) (r : PNo) (v : Word) : (s.setP r v).v = s.v := by unfold Slot.setP; split <;> rfl
@[simp] theorem Slot.setP_s (s : Slot) (r : PNo) (v : Word) : (s.setP r v).s = s.s := by unfold Slot.setP; split <;> rfl
@[simp] theorem Slot.setP_pc (s : Slot) (r : PNo) (v : Word) : (s.setP r v).pc = s.pc := by unfold Slot.setP; split <;> rfl
@[simp] theorem Slot.setP_arrive (s : Slot) (r : PNo) (v : Word) : (s.setP r v).arrive = s.arrive := by unfold Slot.setP; split <;> rfl
@[simp] theorem Slot.setP_mode (s : Slot) (r : PNo) (v : Word) : (s.setP r v).mode = s.mode := by unfold Slot.setP; split <;> rfl
@[simp] theorem Slot.setP_uact (s : Slot) (r : PNo) (v : Word) : (s.setP r v).uact = s.uact := by unfold Slot.setP; split <;> rfl
@[simp] theorem Slot.setP_guest (s : Slot) (r : PNo) (v : Word) : (s.setP r v).guest = s.guest := by unfold Slot.setP; split <;> rfl
@[simp] theorem Slot.setP_npend (s : Slot) (r : PNo) (v : Word) : (s.setP r v).npend = s.npend := by unfold Slot.setP; split <;> rfl
@[simp] theorem Slot.setP_hrank (s : Slot) (r : PNo) (v : Word) : (s.setP r v).hrank = s.hrank := by unfold Slot.setP; split <;> rfl
@[simp] theorem Slot.setP_hslot (s : Slot) (r : PNo) (v : Word) : (s.setP r v).hslot = s.hslot := by unfold Slot.setP; split <;> rfl
@[simp] theorem Slot.setP_fflags (s : Slot) (r : PNo) (v : Word) : (s.setP r v).fflags = s.fflags := by unfold Slot.setP; split <;> rfl
@[simp] theorem Slot.setP_frm (s : Slot) (r : PNo) (v : Word) : (s.setP r v).frm = s.frm := by unfold Slot.setP; split <;> rfl
@[simp] theorem Slot.setP_mfmt (s : Slot) (r : PNo) (v : Word) : (s.setP r v).mfmt = s.mfmt := by unfold Slot.setP; split <;> rfl
@[simp] theorem Slot.setP_msca (s : Slot) (r : PNo) (v : Word) : (s.setP r v).msca = s.msca := by unfold Slot.setP; split <;> rfl
@[simp] theorem Slot.setP_mscb (s : Slot) (r : PNo) (v : Word) : (s.setP r v).mscb = s.mscb := by unfold Slot.setP; split <;> rfl
@[simp] theorem Slot.setP_mosh (s : Slot) (r : PNo) (v : Word) : (s.setP r v).mosh = s.mosh := by unfold Slot.setP; split <;> rfl
@[simp] theorem Slot.setP_swbuf (s : Slot) (r : PNo) (v : Word) : (s.setP r v).swbuf = s.swbuf := by unfold Slot.setP; split <;> rfl
@[simp] theorem Slot.setP_swlin (s : Slot) (r : PNo) (v : Word) : (s.setP r v).swlin = s.swlin := by unfold Slot.setP; split <;> rfl
@[simp] theorem Slot.setP_uixid (s : Slot) (r : PNo) (v : Word) : (s.setP r v).uixid = s.uixid := by unfold Slot.setP; split <;> rfl
@[simp] theorem Slot.setP_uvec (s : Slot) (r : PNo) (v : Word) : (s.setP r v).uvec = s.uvec := by unfold Slot.setP; split <;> rfl
@[simp] theorem Slot.setP_uepc (s : Slot) (r : PNo) (v : Word) : (s.setP r v).uepc = s.uepc := by unfold Slot.setP; split <;> rfl
@[simp] theorem Slot.setP_ucause (s : Slot) (r : PNo) (v : Word) : (s.setP r v).ucause = s.ucause := by unfold Slot.setP; split <;> rfl
@[simp] theorem Slot.setP_uaddr (s : Slot) (r : PNo) (v : Word) : (s.setP r v).uaddr = s.uaddr := by unfold Slot.setP; split <;> rfl
@[simp] theorem Slot.setP_unote (s : Slot) (r : PNo) (v : Word) : (s.setP r v).unote = s.unote := by unfold Slot.setP; split <;> rfl
@[simp] theorem Slot.setP_sepc (s : Slot) (r : PNo) (v : Word) : (s.setP r v).sepc = s.sepc := by unfold Slot.setP; split <;> rfl
@[simp] theorem Slot.setP_scause (s : Slot) (r : PNo) (v : Word) : (s.setP r v).scause = s.scause := by unfold Slot.setP; split <;> rfl
@[simp] theorem Slot.setP_saddr (s : Slot) (r : PNo) (v : Word) : (s.setP r v).saddr = s.saddr := by unfold Slot.setP; split <;> rfl
@[simp] theorem Slot.setP_sscratch (s : Slot) (r : PNo) (v : Word) : (s.setP r v).sscratch = s.sscratch := by unfold Slot.setP; split <;> rfl
@[simp] theorem Slot.setP_mxerr (s : Slot) (r : PNo) (v : Word) : (s.setP r v).mxerr = s.mxerr := by unfold Slot.setP; split <;> rfl
@[simp] theorem Slot.setP_windows (s : Slot) (r : PNo) (v : Word) : (s.setP r v).windows = s.windows := by unfold Slot.setP; split <;> rfl
@[simp] theorem Slot.setP_pend (s : Slot) (r : PNo) (v : Word) : (s.setP r v).pend = s.pend := by unfold Slot.setP; split <;> rfl
@[simp] theorem Slot.setP_nextPid (s : Slot) (r : PNo) (v : Word) : (s.setP r v).nextPid = s.nextPid := by unfold Slot.setP; split <;> rfl
@[simp] theorem Slot.setP_deferred (s : Slot) (r : PNo) (v : Word) : (s.setP r v).deferred = s.deferred := by unfold Slot.setP; split <;> rfl
@[simp] theorem Slot.setP_wait (s : Slot) (r : PNo) (v : Word) : (s.setP r v).wait = s.wait := by unfold Slot.setP; split <;> rfl
@[simp] theorem Slot.setP_lease (s : Slot) (r : PNo) (v : Word) : (s.setP r v).lease = s.lease := by unfold Slot.setP; split <;> rfl
@[simp] theorem Slot.setP_acqPid (s : Slot) (r : PNo) (v : Word) : (s.setP r v).acqPid = s.acqPid := by unfold Slot.setP; split <;> rfl
@[simp] theorem Slot.setP_relMark (s : Slot) (r : PNo) (v : Word) : (s.setP r v).relMark = s.relMark := by unfold Slot.setP; split <;> rfl
@[simp] theorem Slot.setP_opMark (s : Slot) (r : PNo) (v : Word) : (s.setP r v).opMark = s.opMark := by unfold Slot.setP; split <;> rfl
@[simp] theorem Slot.setP_fresh (s : Slot) (r : PNo) (v : Word) : (s.setP r v).fresh = s.fresh := by unfold Slot.setP; split <;> rfl
@[simp] theorem Slot.setP_word (s : Slot) (r : PNo) (v : Word) : (s.setP r v).word = s.word := by unfold Slot.setP; split <;> rfl
@[simp] theorem Slot.setP_yieldUntil (s : Slot) (r : PNo) (v : Word) : (s.setP r v).yieldUntil = s.yieldUntil := by unfold Slot.setP; split <;> rfl
@[simp] theorem Slot.setP_lastIssue (s : Slot) (r : PNo) (v : Word) : (s.setP r v).lastIssue = s.lastIssue := by unfold Slot.setP; split <;> rfl
@[simp] theorem Slot.setP_badX (s : Slot) (r : PNo) (v : Word) : (s.setP r v).badX = s.badX := by unfold Slot.setP; split <;> rfl
@[simp] theorem Slot.setP_badV (s : Slot) (r : PNo) (v : Word) : (s.setP r v).badV = s.badV := by unfold Slot.setP; split <;> rfl
@[simp] theorem Slot.setP_claimed (s : Slot) (r : PNo) (v : Word) : (s.setP r v).claimed = s.claimed := by unfold Slot.setP; split <;> rfl
@[simp] theorem Slot.setP_heldBuf (s : Slot) (r : PNo) (v : Word) : (s.setP r v).heldBuf = s.heldBuf := by unfold Slot.setP; split <;> rfl
@[simp] theorem Slot.setP_copyFaults (s : Slot) (r : PNo) (v : Word) : (s.setP r v).copyFaults = s.copyFaults := by unfold Slot.setP; split <;> rfl
@[simp] theorem Slot.setP_copyIrqs (s : Slot) (r : PNo) (v : Word) : (s.setP r v).copyIrqs = s.copyIrqs := by unfold Slot.setP; split <;> rfl
@[simp] theorem Slot.setP_trapPid (s : Slot) (r : PNo) (v : Word) : (s.setP r v).trapPid = s.trapPid := by unfold Slot.setP; split <;> rfl
@[simp] theorem Slot.setP_badS (s : Slot) (r : PNo) (v : Word) : (s.setP r v).badS = s.badS := by unfold Slot.setP; split <;> rfl
@[simp] theorem Slot.setP_badC (s : Slot) (r : PNo) (v : Word) : (s.setP r v).badC = s.badC := by unfold Slot.setP; split <;> rfl
@[simp] theorem Slot.setP_copyHold (s : Slot) (r : PNo) (v : Word) : (s.setP r v).copyHold = s.copyHold := by unfold Slot.setP; split <;> rfl
@[simp] theorem Slot.setP_turns (s : Slot) (r : PNo) (v : Word) : (s.setP r v).turns = s.turns := by unfold Slot.setP; split <;> rfl
@[simp] theorem Slot.setP_own (s : Slot) (r : PNo) (v : Word) : (s.setP r v).own = s.own := by unfold Slot.setP; split <;> rfl
@[simp] theorem Slot.setV_occ (s : Slot) (r : RegNo) (v : VWordReg) : (s.setV r v).occ = s.occ := rfl
@[simp] theorem Slot.setV_away (s : Slot) (r : RegNo) (v : VWordReg) : (s.setV r v).away = s.away := rfl
@[simp] theorem Slot.setV_part (s : Slot) (r : RegNo) (v : VWordReg) : (s.setV r v).part = s.part := rfl
@[simp] theorem Slot.setV_isGuestSlot (s : Slot) (r : RegNo) (v : VWordReg) : (s.setV r v).isGuestSlot = s.isGuestSlot := rfl
@[simp] theorem Slot.setV_x (s : Slot) (r : RegNo) (v : VWordReg) : (s.setV r v).x = s.x := rfl
@[simp] theorem Slot.setV_p (s : Slot) (r : RegNo) (v : VWordReg) : (s.setV r v).p = s.p := rfl
@[simp] theorem Slot.setV_s (s : Slot) (r : RegNo) (v : VWordReg) : (s.setV r v).s = s.s := rfl
@[simp] theorem Slot.setV_pc (s : Slot) (r : RegNo) (v : VWordReg) : (s.setV r v).pc = s.pc := rfl
@[simp] theorem Slot.setV_arrive (s : Slot) (r : RegNo) (v : VWordReg) : (s.setV r v).arrive = s.arrive := rfl
@[simp] theorem Slot.setV_mode (s : Slot) (r : RegNo) (v : VWordReg) : (s.setV r v).mode = s.mode := rfl
@[simp] theorem Slot.setV_uact (s : Slot) (r : RegNo) (v : VWordReg) : (s.setV r v).uact = s.uact := rfl
@[simp] theorem Slot.setV_guest (s : Slot) (r : RegNo) (v : VWordReg) : (s.setV r v).guest = s.guest := rfl
@[simp] theorem Slot.setV_npend (s : Slot) (r : RegNo) (v : VWordReg) : (s.setV r v).npend = s.npend := rfl
@[simp] theorem Slot.setV_hrank (s : Slot) (r : RegNo) (v : VWordReg) : (s.setV r v).hrank = s.hrank := rfl
@[simp] theorem Slot.setV_hslot (s : Slot) (r : RegNo) (v : VWordReg) : (s.setV r v).hslot = s.hslot := rfl
@[simp] theorem Slot.setV_fflags (s : Slot) (r : RegNo) (v : VWordReg) : (s.setV r v).fflags = s.fflags := rfl
@[simp] theorem Slot.setV_frm (s : Slot) (r : RegNo) (v : VWordReg) : (s.setV r v).frm = s.frm := rfl
@[simp] theorem Slot.setV_mfmt (s : Slot) (r : RegNo) (v : VWordReg) : (s.setV r v).mfmt = s.mfmt := rfl
@[simp] theorem Slot.setV_msca (s : Slot) (r : RegNo) (v : VWordReg) : (s.setV r v).msca = s.msca := rfl
@[simp] theorem Slot.setV_mscb (s : Slot) (r : RegNo) (v : VWordReg) : (s.setV r v).mscb = s.mscb := rfl
@[simp] theorem Slot.setV_mosh (s : Slot) (r : RegNo) (v : VWordReg) : (s.setV r v).mosh = s.mosh := rfl
@[simp] theorem Slot.setV_swbuf (s : Slot) (r : RegNo) (v : VWordReg) : (s.setV r v).swbuf = s.swbuf := rfl
@[simp] theorem Slot.setV_swlin (s : Slot) (r : RegNo) (v : VWordReg) : (s.setV r v).swlin = s.swlin := rfl
@[simp] theorem Slot.setV_uixid (s : Slot) (r : RegNo) (v : VWordReg) : (s.setV r v).uixid = s.uixid := rfl
@[simp] theorem Slot.setV_uvec (s : Slot) (r : RegNo) (v : VWordReg) : (s.setV r v).uvec = s.uvec := rfl
@[simp] theorem Slot.setV_uepc (s : Slot) (r : RegNo) (v : VWordReg) : (s.setV r v).uepc = s.uepc := rfl
@[simp] theorem Slot.setV_ucause (s : Slot) (r : RegNo) (v : VWordReg) : (s.setV r v).ucause = s.ucause := rfl
@[simp] theorem Slot.setV_uaddr (s : Slot) (r : RegNo) (v : VWordReg) : (s.setV r v).uaddr = s.uaddr := rfl
@[simp] theorem Slot.setV_unote (s : Slot) (r : RegNo) (v : VWordReg) : (s.setV r v).unote = s.unote := rfl
@[simp] theorem Slot.setV_sepc (s : Slot) (r : RegNo) (v : VWordReg) : (s.setV r v).sepc = s.sepc := rfl
@[simp] theorem Slot.setV_scause (s : Slot) (r : RegNo) (v : VWordReg) : (s.setV r v).scause = s.scause := rfl
@[simp] theorem Slot.setV_saddr (s : Slot) (r : RegNo) (v : VWordReg) : (s.setV r v).saddr = s.saddr := rfl
@[simp] theorem Slot.setV_sscratch (s : Slot) (r : RegNo) (v : VWordReg) : (s.setV r v).sscratch = s.sscratch := rfl
@[simp] theorem Slot.setV_mxerr (s : Slot) (r : RegNo) (v : VWordReg) : (s.setV r v).mxerr = s.mxerr := rfl
@[simp] theorem Slot.setV_windows (s : Slot) (r : RegNo) (v : VWordReg) : (s.setV r v).windows = s.windows := rfl
@[simp] theorem Slot.setV_pend (s : Slot) (r : RegNo) (v : VWordReg) : (s.setV r v).pend = s.pend := rfl
@[simp] theorem Slot.setV_nextPid (s : Slot) (r : RegNo) (v : VWordReg) : (s.setV r v).nextPid = s.nextPid := rfl
@[simp] theorem Slot.setV_deferred (s : Slot) (r : RegNo) (v : VWordReg) : (s.setV r v).deferred = s.deferred := rfl
@[simp] theorem Slot.setV_wait (s : Slot) (r : RegNo) (v : VWordReg) : (s.setV r v).wait = s.wait := rfl
@[simp] theorem Slot.setV_lease (s : Slot) (r : RegNo) (v : VWordReg) : (s.setV r v).lease = s.lease := rfl
@[simp] theorem Slot.setV_acqPid (s : Slot) (r : RegNo) (v : VWordReg) : (s.setV r v).acqPid = s.acqPid := rfl
@[simp] theorem Slot.setV_relMark (s : Slot) (r : RegNo) (v : VWordReg) : (s.setV r v).relMark = s.relMark := rfl
@[simp] theorem Slot.setV_opMark (s : Slot) (r : RegNo) (v : VWordReg) : (s.setV r v).opMark = s.opMark := rfl
@[simp] theorem Slot.setV_fresh (s : Slot) (r : RegNo) (v : VWordReg) : (s.setV r v).fresh = s.fresh := rfl
@[simp] theorem Slot.setV_word (s : Slot) (r : RegNo) (v : VWordReg) : (s.setV r v).word = s.word := rfl
@[simp] theorem Slot.setV_yieldUntil (s : Slot) (r : RegNo) (v : VWordReg) : (s.setV r v).yieldUntil = s.yieldUntil := rfl
@[simp] theorem Slot.setV_lastIssue (s : Slot) (r : RegNo) (v : VWordReg) : (s.setV r v).lastIssue = s.lastIssue := rfl
@[simp] theorem Slot.setV_badX (s : Slot) (r : RegNo) (v : VWordReg) : (s.setV r v).badX = s.badX := rfl
@[simp] theorem Slot.setV_badP (s : Slot) (r : RegNo) (v : VWordReg) : (s.setV r v).badP = s.badP := rfl
@[simp] theorem Slot.setV_claimed (s : Slot) (r : RegNo) (v : VWordReg) : (s.setV r v).claimed = s.claimed := rfl
@[simp] theorem Slot.setV_heldBuf (s : Slot) (r : RegNo) (v : VWordReg) : (s.setV r v).heldBuf = s.heldBuf := rfl
@[simp] theorem Slot.setV_copyFaults (s : Slot) (r : RegNo) (v : VWordReg) : (s.setV r v).copyFaults = s.copyFaults := rfl
@[simp] theorem Slot.setV_copyIrqs (s : Slot) (r : RegNo) (v : VWordReg) : (s.setV r v).copyIrqs = s.copyIrqs := rfl
@[simp] theorem Slot.setV_trapPid (s : Slot) (r : RegNo) (v : VWordReg) : (s.setV r v).trapPid = s.trapPid := rfl
@[simp] theorem Slot.setV_badS (s : Slot) (r : RegNo) (v : VWordReg) : (s.setV r v).badS = s.badS := rfl
@[simp] theorem Slot.setV_badC (s : Slot) (r : RegNo) (v : VWordReg) : (s.setV r v).badC = s.badC := rfl
@[simp] theorem Slot.setV_copyHold (s : Slot) (r : RegNo) (v : VWordReg) : (s.setV r v).copyHold = s.copyHold := rfl
@[simp] theorem Slot.setV_turns (s : Slot) (r : RegNo) (v : VWordReg) : (s.setV r v).turns = s.turns := rfl
@[simp] theorem Slot.setV_own (s : Slot) (r : RegNo) (v : VWordReg) : (s.setV r v).own = s.own := rfl
@[simp] theorem Slot.setSeg_occ (s : Slot) (r : SegNo) (v : SegImage) : (s.setSeg r v).occ = s.occ := rfl
@[simp] theorem Slot.setSeg_away (s : Slot) (r : SegNo) (v : SegImage) : (s.setSeg r v).away = s.away := rfl
@[simp] theorem Slot.setSeg_part (s : Slot) (r : SegNo) (v : SegImage) : (s.setSeg r v).part = s.part := rfl
@[simp] theorem Slot.setSeg_isGuestSlot (s : Slot) (r : SegNo) (v : SegImage) : (s.setSeg r v).isGuestSlot = s.isGuestSlot := rfl
@[simp] theorem Slot.setSeg_x (s : Slot) (r : SegNo) (v : SegImage) : (s.setSeg r v).x = s.x := rfl
@[simp] theorem Slot.setSeg_v (s : Slot) (r : SegNo) (v : SegImage) : (s.setSeg r v).v = s.v := rfl
@[simp] theorem Slot.setSeg_p (s : Slot) (r : SegNo) (v : SegImage) : (s.setSeg r v).p = s.p := rfl
@[simp] theorem Slot.setSeg_pc (s : Slot) (r : SegNo) (v : SegImage) : (s.setSeg r v).pc = s.pc := rfl
@[simp] theorem Slot.setSeg_arrive (s : Slot) (r : SegNo) (v : SegImage) : (s.setSeg r v).arrive = s.arrive := rfl
@[simp] theorem Slot.setSeg_mode (s : Slot) (r : SegNo) (v : SegImage) : (s.setSeg r v).mode = s.mode := rfl
@[simp] theorem Slot.setSeg_uact (s : Slot) (r : SegNo) (v : SegImage) : (s.setSeg r v).uact = s.uact := rfl
@[simp] theorem Slot.setSeg_guest (s : Slot) (r : SegNo) (v : SegImage) : (s.setSeg r v).guest = s.guest := rfl
@[simp] theorem Slot.setSeg_npend (s : Slot) (r : SegNo) (v : SegImage) : (s.setSeg r v).npend = s.npend := rfl
@[simp] theorem Slot.setSeg_hrank (s : Slot) (r : SegNo) (v : SegImage) : (s.setSeg r v).hrank = s.hrank := rfl
@[simp] theorem Slot.setSeg_hslot (s : Slot) (r : SegNo) (v : SegImage) : (s.setSeg r v).hslot = s.hslot := rfl
@[simp] theorem Slot.setSeg_fflags (s : Slot) (r : SegNo) (v : SegImage) : (s.setSeg r v).fflags = s.fflags := rfl
@[simp] theorem Slot.setSeg_frm (s : Slot) (r : SegNo) (v : SegImage) : (s.setSeg r v).frm = s.frm := rfl
@[simp] theorem Slot.setSeg_mfmt (s : Slot) (r : SegNo) (v : SegImage) : (s.setSeg r v).mfmt = s.mfmt := rfl
@[simp] theorem Slot.setSeg_msca (s : Slot) (r : SegNo) (v : SegImage) : (s.setSeg r v).msca = s.msca := rfl
@[simp] theorem Slot.setSeg_mscb (s : Slot) (r : SegNo) (v : SegImage) : (s.setSeg r v).mscb = s.mscb := rfl
@[simp] theorem Slot.setSeg_mosh (s : Slot) (r : SegNo) (v : SegImage) : (s.setSeg r v).mosh = s.mosh := rfl
@[simp] theorem Slot.setSeg_swbuf (s : Slot) (r : SegNo) (v : SegImage) : (s.setSeg r v).swbuf = s.swbuf := rfl
@[simp] theorem Slot.setSeg_swlin (s : Slot) (r : SegNo) (v : SegImage) : (s.setSeg r v).swlin = s.swlin := rfl
@[simp] theorem Slot.setSeg_uixid (s : Slot) (r : SegNo) (v : SegImage) : (s.setSeg r v).uixid = s.uixid := rfl
@[simp] theorem Slot.setSeg_uvec (s : Slot) (r : SegNo) (v : SegImage) : (s.setSeg r v).uvec = s.uvec := rfl
@[simp] theorem Slot.setSeg_uepc (s : Slot) (r : SegNo) (v : SegImage) : (s.setSeg r v).uepc = s.uepc := rfl
@[simp] theorem Slot.setSeg_ucause (s : Slot) (r : SegNo) (v : SegImage) : (s.setSeg r v).ucause = s.ucause := rfl
@[simp] theorem Slot.setSeg_uaddr (s : Slot) (r : SegNo) (v : SegImage) : (s.setSeg r v).uaddr = s.uaddr := rfl
@[simp] theorem Slot.setSeg_unote (s : Slot) (r : SegNo) (v : SegImage) : (s.setSeg r v).unote = s.unote := rfl
@[simp] theorem Slot.setSeg_sepc (s : Slot) (r : SegNo) (v : SegImage) : (s.setSeg r v).sepc = s.sepc := rfl
@[simp] theorem Slot.setSeg_scause (s : Slot) (r : SegNo) (v : SegImage) : (s.setSeg r v).scause = s.scause := rfl
@[simp] theorem Slot.setSeg_saddr (s : Slot) (r : SegNo) (v : SegImage) : (s.setSeg r v).saddr = s.saddr := rfl
@[simp] theorem Slot.setSeg_sscratch (s : Slot) (r : SegNo) (v : SegImage) : (s.setSeg r v).sscratch = s.sscratch := rfl
@[simp] theorem Slot.setSeg_mxerr (s : Slot) (r : SegNo) (v : SegImage) : (s.setSeg r v).mxerr = s.mxerr := rfl
@[simp] theorem Slot.setSeg_windows (s : Slot) (r : SegNo) (v : SegImage) : (s.setSeg r v).windows = s.windows := rfl
@[simp] theorem Slot.setSeg_pend (s : Slot) (r : SegNo) (v : SegImage) : (s.setSeg r v).pend = s.pend := rfl
@[simp] theorem Slot.setSeg_nextPid (s : Slot) (r : SegNo) (v : SegImage) : (s.setSeg r v).nextPid = s.nextPid := rfl
@[simp] theorem Slot.setSeg_deferred (s : Slot) (r : SegNo) (v : SegImage) : (s.setSeg r v).deferred = s.deferred := rfl
@[simp] theorem Slot.setSeg_wait (s : Slot) (r : SegNo) (v : SegImage) : (s.setSeg r v).wait = s.wait := rfl
@[simp] theorem Slot.setSeg_lease (s : Slot) (r : SegNo) (v : SegImage) : (s.setSeg r v).lease = s.lease := rfl
@[simp] theorem Slot.setSeg_acqPid (s : Slot) (r : SegNo) (v : SegImage) : (s.setSeg r v).acqPid = s.acqPid := rfl
@[simp] theorem Slot.setSeg_relMark (s : Slot) (r : SegNo) (v : SegImage) : (s.setSeg r v).relMark = s.relMark := rfl
@[simp] theorem Slot.setSeg_opMark (s : Slot) (r : SegNo) (v : SegImage) : (s.setSeg r v).opMark = s.opMark := rfl
@[simp] theorem Slot.setSeg_fresh (s : Slot) (r : SegNo) (v : SegImage) : (s.setSeg r v).fresh = s.fresh := rfl
@[simp] theorem Slot.setSeg_word (s : Slot) (r : SegNo) (v : SegImage) : (s.setSeg r v).word = s.word := rfl
@[simp] theorem Slot.setSeg_yieldUntil (s : Slot) (r : SegNo) (v : SegImage) : (s.setSeg r v).yieldUntil = s.yieldUntil := rfl
@[simp] theorem Slot.setSeg_lastIssue (s : Slot) (r : SegNo) (v : SegImage) : (s.setSeg r v).lastIssue = s.lastIssue := rfl
@[simp] theorem Slot.setSeg_badX (s : Slot) (r : SegNo) (v : SegImage) : (s.setSeg r v).badX = s.badX := rfl
@[simp] theorem Slot.setSeg_badV (s : Slot) (r : SegNo) (v : SegImage) : (s.setSeg r v).badV = s.badV := rfl
@[simp] theorem Slot.setSeg_badP (s : Slot) (r : SegNo) (v : SegImage) : (s.setSeg r v).badP = s.badP := rfl
@[simp] theorem Slot.setSeg_claimed (s : Slot) (r : SegNo) (v : SegImage) : (s.setSeg r v).claimed = s.claimed := rfl
@[simp] theorem Slot.setSeg_heldBuf (s : Slot) (r : SegNo) (v : SegImage) : (s.setSeg r v).heldBuf = s.heldBuf := rfl
@[simp] theorem Slot.setSeg_copyFaults (s : Slot) (r : SegNo) (v : SegImage) : (s.setSeg r v).copyFaults = s.copyFaults := rfl
@[simp] theorem Slot.setSeg_copyIrqs (s : Slot) (r : SegNo) (v : SegImage) : (s.setSeg r v).copyIrqs = s.copyIrqs := rfl
@[simp] theorem Slot.setSeg_trapPid (s : Slot) (r : SegNo) (v : SegImage) : (s.setSeg r v).trapPid = s.trapPid := rfl
@[simp] theorem Slot.setSeg_badC (s : Slot) (r : SegNo) (v : SegImage) : (s.setSeg r v).badC = s.badC := rfl
@[simp] theorem Slot.setSeg_copyHold (s : Slot) (r : SegNo) (v : SegImage) : (s.setSeg r v).copyHold = s.copyHold := rfl
@[simp] theorem Slot.setSeg_turns (s : Slot) (r : SegNo) (v : SegImage) : (s.setSeg r v).turns = s.turns := rfl
@[simp] theorem Slot.setSeg_own (s : Slot) (r : SegNo) (v : SegImage) : (s.setSeg r v).own = s.own := rfl


/-! ### Reads of units after an update -/

@[simp] theorem Dev.core_setCore (d : Dev) (r : Nat) (c : Core) : (d.setCore r c).core r = c := by simp [Dev.core, Dev.setCore]
@[simp] theorem Dev.core_setCore_ne (d : Dev) (r q : Nat) (c : Core) (h : q ≠ r) : (d.setCore r c).core q = d.core q := by
  simp [Dev.core, Dev.setCore, h]
@[simp] theorem Dev.part_setPart (d : Dev) (p : Nat) (x : Part) : (d.setPart p x).part p = x := by simp [Dev.part, Dev.setPart]
@[simp] theorem Dev.part_setPart_ne (d : Dev) (p q : Nat) (x : Part) (h : q ≠ p) : (d.setPart p x).part q = d.part q := by
  simp [Dev.part, Dev.setPart, h]
@[simp] theorem Dev.quad_setQuad (d : Dev) (q : Nat) (x : Quad) : (d.setQuad q x).quad q = x := by simp [Dev.quad, Dev.setQuad]
@[simp] theorem Dev.quad_setQuad_ne (d : Dev) (q p : Nat) (x : Quad) (h : p ≠ q) : (d.setQuad q x).quad p = d.quad p := by
  simp [Dev.quad, Dev.setQuad, h]
@[simp] theorem Dev.part_setCore (d : Dev) (r : Nat) (c : Core) (p : Nat) : (d.setCore r c).part p = d.part p := rfl
@[simp] theorem Dev.quad_setCore (d : Dev) (r : Nat) (c : Core) (q : Nat) : (d.setCore r c).quad q = d.quad q := rfl
@[simp] theorem Dev.core_setPart (d : Dev) (p : Nat) (x : Part) (r : Nat) : (d.setPart p x).core r = d.core r := rfl
@[simp] theorem Dev.core_setQuad (d : Dev) (q : Nat) (x : Quad) (r : Nat) : (d.setQuad q x).core r = d.core r := rfl
@[simp] theorem Dev.core_setSlot (d : Dev) (r k : Nat) (s : Slot) : (d.setSlot r k s).core r = (d.core r).setSlot k s := by
  simp [Dev.setSlot_eq]
@[simp] theorem Dev.core_setSlot_ne (d : Dev) (r k q : Nat) (s : Slot) (h : q ≠ r) : (d.setSlot r k s).core q = d.core q := by
  simp [Dev.setSlot_eq, h]
@[simp] theorem Core.slot_setSlot (c : Core) (k : Nat) (s : Slot) (h : k < 16) : (c.setSlot k s).slot k = s := by
  simp [Core.slot, Core.setSlot, h]
@[simp] theorem Core.slot_setSlot_ne (c : Core) (k j : Nat) (s : Slot) (h : j ≠ k) : (c.setSlot k s).slot j = c.slot j := by
  simp [Core.slot, Core.setSlot, h]
/-- A core has 16 slots: a slot beyond them reads as at reset. -/
theorem Core.slot_beyond (c : Core) (k : Nat) (h : 16 ≤ k) : c.slot k = Slot.reset := vget_beyond _ _ _ h
@[simp] theorem Dev.slot_setSlot (d : Dev) (r k : Nat) (s : Slot) (h : k < 16) : (d.setSlot r k s).slot r k = s := by
  simp [Dev.slot, h]
theorem Dev.slot_setSlot_ne (d : Dev) (r k q j : Nat) (s : Slot) (h : ¬(q = r ∧ j = k)) : (d.setSlot r k s).slot q j = d.slot q j := by
  by_cases hq : q = r
  · subst hq
    have hj : j ≠ k := fun e => h ⟨rfl, e⟩
    simp [Dev.slot, hj]
  · simp [Dev.slot, hq]
theorem Dev.slot_setCore_ne (d : Dev) (r q j : Nat) (c : Core) (h : q ≠ r) : (d.setCore r c).slot q j = d.slot q j := by
  simp [Dev.slot, h]
@[simp] theorem Dev.slot_setPart (d : Dev) (p : Nat) (x : Part) (r k : Nat) : (d.setPart p x).slot r k = d.slot r k := rfl
@[simp] theorem Dev.slot_setQuad (d : Dev) (q : Nat) (x : Quad) (r k : Nat) : (d.setQuad q x).slot r k = d.slot r k := rfl
@[simp] theorem Dev.setSlot_setSlot (d : Dev) (r k : Nat) (a b : Slot) : (d.setSlot r k a).setSlot r k b = d.setSlot r k b := by
  have hv : ∀ v : Vector Slot 16, vset (vset v k a) k b = vset v k b := fun v => by simp [vset]
  have ha : ∀ (m : AMap Core) (x y : Core), aset (aset m r x) r y = aset m r y := by
    intro m x y
    induction m with
    | nil => simp [aset]
    | cons p t ih =>
      obtain ⟨i, w⟩ := p
      by_cases h1 : i = r
      · simp [aset, h1]
      · by_cases h2 : r < i
        · simp [aset, h1, h2]
        · simp [aset, h1, h2, ih]
  simp only [Dev.setSlot_eq, Dev.core_setCore]
  simp only [Dev.setCore, Core.setSlot, ha, hv]

/-! ### The thread after an update of itself -/

@[simp] theorem Dev.th_setSlot (d : Dev) (s : Slot) (h : d.cur.2 < 16) : (d.setSlot d.cur.1 d.cur.2 s).th = s := by
  simp [Dev.th, h]
@[simp] theorem Dev.cur_modTh (d : Dev) (f : Slot → Slot) : (d.modTh f).cur = d.cur := rfl
/-- Two updates of the thread are one. -/
theorem Dev.modTh_modTh (d : Dev) (f g : Slot → Slot) (h : d.cur.2 < 16) : (d.modTh f).modTh g = d.modTh fun s => g (f s) := by
  simp [Dev.modTh_eq, h]
@[simp] theorem Dev.th_modTh (d : Dev) (f : Slot → Slot) (h : d.cur.2 < 16) : (d.modTh f).th = f d.th := by
  simp [Dev.modTh_eq, h]

/-! ### Registers -/

@[simp] theorem Slot.xr_zero (s : Slot) : s.xr 0 = 0 := rfl
/-- X[r] after a write of X[rd]: x0 discards the write (R256). -/
theorem Slot.xr_setX (s : Slot) (rd r : RegNo) (v : Word) : (s.setX rd v).xr r = if r = 0 then 0 else if r = rd then v else s.xr r := by
  unfold Slot.setX Slot.xr
  by_cases h0 : r = 0
  · rw [if_pos h0, if_pos h0]
  · rw [if_neg h0, if_neg h0, if_neg h0]
    by_cases hd : rd = 0
    · rw [if_pos hd, if_neg fun e => h0 (e.trans hd)]
    · rw [if_neg hd]
      by_cases h : r = rd
      · subst h; simp [r.isLt]
      · rw [if_neg h]
        exact vget_vset_ne _ _ _ _ _ fun e => h (BitVec.eq_of_toNat_eq e)
theorem Slot.vr_setV (s : Slot) (vd r : RegNo) (v : VWordReg) : (s.setV vd v).vr r = if r = vd then v else s.vr r := by
  unfold Slot.setV Slot.vr
  by_cases h : r = vd
  · subst h; simp [r.isLt]
  · have : r.toNat ≠ vd.toNat := fun e => h (BitVec.eq_of_toNat_eq e)
    simp [h, this]
@[simp] theorem Slot.pr_zero (s : Slot) : s.pr 0 = BitVec.allOnes 64 := rfl
/-- P[r] after a write of P[pd]: p0 discards the write. -/
theorem Slot.pr_setP (s : Slot) (pd r : PNo) (v : Word) :
    (s.setP pd v).pr r = if r = 0 then BitVec.allOnes 64 else if r = pd then v else s.pr r := by
  unfold Slot.setP Slot.pr
  by_cases h0 : r = 0
  · rw [if_pos h0, if_pos h0]
  · rw [if_neg h0, if_neg h0, if_neg h0]
    by_cases hd : pd = 0
    · rw [if_pos hd, if_neg fun e => h0 (e.trans hd)]
    · rw [if_neg hd]
      by_cases h : r = pd
      · subst h; simp [r.isLt]
      · rw [if_neg h]
        exact vget_vset_ne _ _ _ _ _ fun e => h (BitVec.eq_of_toNat_eq e)
theorem Slot.seg_setSeg (s : Slot) (sn r : SegNo) (v : SegImage) : (s.setSeg sn v).seg r = if r = sn then v else s.seg r := by
  unfold Slot.setSeg Slot.seg
  by_cases h : r = sn
  · subst h; simp [r.isLt]
  · have : r.toNat ≠ sn.toNat := fun e => h (BitVec.eq_of_toNat_eq e)
    simp [h, this]

end Sys2Proof.Machine
end

