-- ==== Sys2Proof/Laws/Thread.lean ====
section
/-! SUPPORT. Laws of the frame that every instruction of a thread shares: how it can end, and what retirement leaves. -/

namespace Sys2Proof.Machine

/-- An instruction whose registers no window and no bad parity touches, and whose body acts, answers the body's device. -/
theorem State.thread_ok {use : RegUse} {body : Dev → Chk Dev} {s : State} {d : Dev} (hl : s.dev.th.laheadHit use = false)
    (hp : s.dev.th.parityHit use = false) (hb : body s.dev = .ok d) : s.thread use body = .next { s with dev := d } := by
  simp [State.thread, State.onDev, Dev.runThread, hl, hp, hb]

/-- Every way in which an instruction of a thread ends: LAHEAD, DATAERR, a stop of its own, or its effect. -/
theorem State.thread_cases {use : RegUse} {body : Dev → Chk Dev} {s t : State} (h : s.thread use body = .next t) :
    (s.dev.th.laheadHit use = true ∧ t = { s with dev := s.dev.trap s.dev.cur.1 s.dev.cur.2 ⟨.lahead, 0⟩ }) ∨
    (s.dev.th.laheadHit use = false ∧ s.dev.th.parityHit use = true
      ∧ t = { s with dev := (s.dev.logParity s.dev.th.part s.dev.cur.1 s.dev.cur.2).trap s.dev.cur.1 s.dev.cur.2 ⟨.dataerr, 0⟩ }) ∨
    (s.dev.th.laheadHit use = false ∧ s.dev.th.parityHit use = false ∧ ∃ st, body s.dev = .error st
      ∧ t = { s with dev := s.dev.stopAt s.dev.cur.1 s.dev.cur.2 st }) ∨
    (s.dev.th.laheadHit use = false ∧ s.dev.th.parityHit use = false ∧ ∃ d, body s.dev = .ok d ∧ t = { s with dev := d }) := by
  unfold State.thread State.onDev Dev.runThread at h
  cases hl : s.dev.th.laheadHit use
  · cases hp : s.dev.th.parityHit use
    · cases hb : body s.dev with
      | ok d => simp [hl, hp, hb] at h; simp [← h]
      | error st => simp [hl, hp, hb] at h; simp [← h]
    · simp [hl, hp] at h; simp [← h, Dev.stopAt, Dev.th]
  · simp [hl] at h; simp [← h]

/-- A supervisor's instruction in supervisor mode is an ordinary one. -/
theorem State.priv_supervisor {use : RegUse} {body : Dev → Chk Dev} {s : State} (h : s.dev.th.mode = true) :
    s.priv use body = s.thread use body := by
  simp [State.priv, State.thread, State.onDev, Dev.runPriv, h]

/-- In user mode it raises PRIV, with its word (R255, step 4). -/
theorem State.priv_user {use : RegUse} {body : Dev → Chk Dev} {s : State} (h : s.dev.th.mode = false) :
    s.priv use body = .next { s with dev := s.dev.trap s.dev.cur.1 s.dev.cur.2 ⟨.priv, s.dev.word⟩ } := by
  simp [State.priv, State.onDev, Dev.runPriv, h]

/-- A trap without pending results is taken at once (R254). -/
theorem Dev.trap_now {d : Dev} {r k : Nat} {t : TrapInfo} (h : (d.slot r k).pend = []) :
    d.trap r k t = d.setSlot r k ((d.slot r k).enterTrap (d.core r).tvec t) := by
  simp [Dev.trap, Dev.modSlot_eq, h]

/-- With results pending it waits for them, and changes nothing else (R250). -/
theorem Dev.trap_later {d : Dev} {r k : Nat} {t : TrapInfo} (h : (d.slot r k).pend ≠ []) :
    d.trap r k t = d.setSlot r k { d.slot r k with wait := .trapDue t } := by
  simp [Dev.trap, Dev.modSlot_eq, h]

/-- Writing X[rd] and retiring is one update of the thread. -/
theorem Dev.setX_retire (d : Dev) (rd : RegNo) (v : Word) (h : d.cur.2 < 16) :
    (d.setX rd v).retire = d.setSlot d.cur.1 d.cur.2 (Slot.retireTo (link d.th.pc) (d.th.setX rd v)) := by
  simp [Dev.setX, Dev.retire, h, Dev.modTh_eq]

theorem Dev.setX_jump (d : Dev) (rd : RegNo) (v pc : Word) (h : d.cur.2 < 16) :
    (d.setX rd v).jump pc = d.setSlot d.cur.1 d.cur.2 { Slot.retireTo pc (d.th.setX rd v) with arrive := some d.th.pc } := by
  simp [Dev.setX, Dev.jump, h, Dev.modTh_eq]

theorem Dev.setV_retire (d : Dev) (vd : RegNo) (v : VWordReg) (h : d.cur.2 < 16) :
    (d.setV vd v).retire = d.setSlot d.cur.1 d.cur.2 (Slot.retireTo (link d.th.pc) (d.th.setV vd v)) := by
  simp [Dev.setV, Dev.retire, h, Dev.modTh_eq]

theorem Dev.setP_retire (d : Dev) (pd : PNo) (v : Word) (h : d.cur.2 < 16) :
    (d.setP pd v).retire = d.setSlot d.cur.1 d.cur.2 (Slot.retireTo (link d.th.pc) (d.th.setP pd v)) := by
  simp [Dev.setP, Dev.retire, h, Dev.modTh_eq]

theorem Dev.retire_eq (d : Dev) : d.retire = d.setSlot d.cur.1 d.cur.2 (Slot.retireTo (link d.th.pc) d.th) := rfl

/-- The slot that a long-latency instruction leaves: retired, with one more result outstanding under its window (R248). -/
theorem Dev.retireLong_eq (d : Dev) (r k : Nat) (post : Post) (raw : List Byte) (need : Nat) (la : La) :
    d.retireLong r k post raw need la = d.setSlot r k
      { Slot.retireTo (link (d.slot r k).pc) (d.slot r k) with
        pend := (d.slot r k).pend ++ [⟨(d.slot r k).nextPid, post, raw, need, none⟩]
        windows := tickWindows (d.slot r k).pend (d.slot r k).windows
          ++ (if post.dests.isEmpty then [] else [⟨(d.slot r k).nextPid, post.dests, la.toNat⟩])
        nextPid := (d.slot r k).nextPid + 1 } := rfl

end Sys2Proof.Machine
end

