-- ==== Sys2Proof/Safety.lean ====
section
/-! DEFINITION. What counts as a safe run: no step of it stops. The one stop of this model is the shut-down of R52. -/

namespace Sys2Proof

open Machine

/-- A run of `n` steps that no fault and no refusal ends. -/
def SafeFor (s : State) (n : Nat) : Prop := ∃ t, Host.Core.run core n s = .next t

/-- Whether an outcome is a next state. -/
def isNext (o : Host.Outcome State Fault Refusal) : Bool :=
  match o with
  | .next _ => true
  | .fault _ | .refused _ => false

end Sys2Proof
end

