-- ==== Sys2Proof/Tests/Slice0.lean ====
section
/-! SUPPORT. Small tests: words of the encoding tables, ill-formed instructions, single steps on a small state, and for every statement a state
and operands that meet its hypotheses. Expected values are worked out by hand from the rules that the theorems name. -/

namespace Sys2Proof.Tests

set_option Elab.async false

open Machine Claims

/-! ### The states of the tests -/

/-- The next state of an instruction meets `P`. -/
def nextIs (i : Instr) (s : State) (P : State → Bool) : Bool :=
  match exec i s with
  | .next t => P t
  | _ => false

/-- A check passes, and `P` holds of its answer. -/
def okAnd {ε α : Type} (c : Except ε α) (P : α → Bool) : Bool :=
  match c with
  | .ok a => P a
  | .error _ => false

/-- Segment 1 of the tests: 2^20 global bytes from GVA 0, with every right but L; segment 2: local offsets, with R and W. -/
def globalSeg : SegImage := BitVec.ofNat 128 (2 ^ 84 + 2 ^ 112 + 2 ^ 113 + 2 ^ 114 + 2 ^ 116 + 2 ^ 117)
def localSeg : SegImage := BitVec.ofNat 128 (2 ^ 84 + 2 ^ 112 + 2 ^ 113 + 2 ^ 115)
/-- A leaf entry of page 0 at PA 0 with every right, ACC and DIRTY; and one with VERS. -/
def openLeaf : Word := BitVec.ofNat 64 (2 ^ 63 + 2 ^ 62 + 2 ^ 61 + 2 ^ 60 + 2 ^ 59 + 2 ^ 52 + 2 ^ 51)
def versLeaf : Word := openLeaf ||| BitVec.ofNat 64 (2 ^ 54)

/-- The descriptor of the task of the tests: one thread, two blocks of scratch, one of stash, every tile. -/
def taskDesc : Desc := { parseDesc 0 with threads := 1, scratch := 2, stash := 1, tilemask := BitVec.allOnes 64 }

/-- Partition 0 is resident on cores 0 to 3; slot 0 of core 0 runs a task at home, in user mode, at slot 1 of its text. -/
def base : State :=
  let s := State.reset.withFetchWord 32 0
  s.modDev fun d => (d.modPart 0 fun p => { p with cfg := { p.cfg with hlen := 4, leasemax := 8, nqbase := 0x10000, elogbase := 0x20000 } }).modCore 0
    fun c => { c with
      tlb := [⟨0, 0, false, false, openLeaf, 0, false⟩]
      tasks := c.tasks.map fun t => { t with desc := taskDesc, blocks := 3 }
      slots := vset c.slots 0 { c.slot 0 with arrive := none, s := vset (vset (c.slot 0).s 1 globalSeg) 2 localSeg } }

/-- `base` with its thread, its core, or its device changed. -/
def th (f : Slot → Slot) : State := base.modDev fun d => d.modSlot 0 0 f
def co (f : Core → Core) : State := base.modDev fun d => d.modCore 0 f
def dv (f : Dev → Dev) : State := base.modDev f
/-- X[1] and X[2] of the thread. -/
def xs (a b : Word) : State := th fun s => (s.setX 1 a).setX 2 b
/-- `base` with the operands of a step. -/
def st (a b c : Nat) : State := { base with args := { StepArgs.reset with a := a, b := b, c := c } }
/-- The thread in supervisor mode, and with one result outstanding. -/
def sup (f : Slot → Slot) : State := th fun s => f { s with mode := true }
def pendOne : Pending := ⟨0, .zext 5 8, List.replicate 8 0, 1, none⟩

/-! ### Scalar instructions, traps, registers (R22, R244-R266, R375-R377) -/

theorem witness_registerAlu : Ready { rx := [1, 2], wx := [3] } (xs 5 7) ∧ Ready { rx := [1, 0], wx := [0] } (xs 5 7) := by
  unfold Ready; decide +kernel
theorem witness_division : Ready { rx := [1, 2], wx := [3] } (xs 5 0) ∧ (xs 5 0).dev.x 2 = 0 := by unfold Ready; decide +kernel
theorem witness_branch_taken : Ready { rx := [1, 2] } (xs 5 5) ∧ (xs 5 5).dev.x 1 = (xs 5 5).dev.x 2 := by unfold Ready; decide +kernel
theorem witness_branch_not_taken : Ready { rx := [1, 2] } (xs 5 6) ∧ ¬(xs 5 6).dev.x 1 = (xs 5 6).dev.x 2 := by unfold Ready; decide +kernel
theorem witness_link_last_slot : (31 : BitVec 5) ≠ 0 ∧ link ((0 : BitVec 57) ++ (31 : BitVec 5) ++ (0 : BitVec 2)) = 0x84 := by decide +kernel
theorem witness_controlRegister : CrAllowed 0x19 base ∧ Ready { rx := [1], wx := [3], rcr := [0x19] } base
    ∧ CrAllowed 0x24 (sup id) ∧ Ready { rx := [1], wx := [3], rcr := [0x24] } (sup id) := by unfold CrAllowed Ready; decide +kernel
theorem witness_controlRegister_traps : base.dev.cur.2 < 16 ∧ 0x1A ≤ (0x1A : BitVec 6).toNat ∧ (0x1A : BitVec 6).toNat ≤ 0x1F ∧ 0x25 ≤ (0x3F : BitVec 6).toNat
    ∧ 0x20 ≤ (0x20 : BitVec 6).toNat ∧ base.dev.th.mode = false := by decide +kernel
theorem witness_supervisorOnly : base.dev.cur.2 < 16 ∧ base.dev.th.mode = false ∧ base.dev.th.pend = [] := by decide +kernel
/-- The thread in a window over x3 that covers one more instruction. -/
def windowed : State := th fun s => { s with windows := [⟨0, [.x 3], 1⟩], pend := [pendOne] }
theorem witness_lookahead : windowed.dev.cur.2 < 16 ∧ (⟨0, [.x 3], 1⟩ : Window) ∈ windowed.dev.th.windows ∧ 0 < (⟨0, [.x 3], 1⟩ : Window).left
    ∧ Dest.x 3 ∈ (⟨0, [.x 3], 1⟩ : Window).dests ∧ windowed.dev.th.pend ≠ [] := by decide +kernel
theorem witness_lookahead_names : Dest.x 3 ∈ namesOf windowed (.sb 3 1 1 0) ∧ ReachesLahead windowed (.sb 3 1 1 0)
    ∧ Dest.x 3 ∈ namesOf windowed (.amocas 2 1 true .acq .pkg 1 0) ∧ ReachesLahead windowed (.amocas 2 1 true .acq .pkg 1 0)
    ∧ Dest.x 3 ∈ namesOf windowed (.mma 4 3 1 2 0) ∧ ReachesLahead windowed (.mma 4 3 1 2 0)
    ∧ Dest.cr 5 ∈ namesOf windowed (.crs 3 1 5) ∧ ReachesLahead windowed (.crs 3 1 5) := by
  refine ⟨?_, trivial, ?_, (by decide : (2 : RegNo).toNat % 2 = 0), ?_, ⟨by decide +kernel, by decide +kernel⟩, ?_, Or.inl (by decide)⟩ <;> decide +kernel
theorem witness_trapEntry_now : (base.dev.slot 0 0).pend = [] ∧ 0 < 16 := by decide +kernel
theorem witness_trapEntry_later : (windowed.dev.slot 0 0).pend ≠ [] := by decide +kernel
theorem witness_trapEntry_due : ((th fun s => { s with wait := .trapDue ⟨.lahead, 0⟩ }).dev.slot 0 0).wait = .trapDue ⟨.lahead, 0⟩
    ∧ ((th fun s => { s with wait := .trapDue ⟨.lahead, 0⟩ }).dev.slot 0 0).pend = []
    ∧ (th fun s => { s with wait := .trapDue ⟨.lahead, 0⟩ }).dev.deferredDue 0 0 = none := by decide +kernel
theorem witness_sret : Ready { rcr := [0x21] } (sup id) ∧ (sup id).dev.th.mode = true ∧ (sup id).dev.th.pend = [] ∧ Ready { rcr := [0x13] } base := by
  unfold Ready; decide +kernel
theorem witness_segw : Ready { rx := [1, 2] } (sup id) ∧ (sup id).dev.th.mode = true
    ∧ segReservedOk ((sup id).dev.x 2 ++ (sup id).dev.x 1) = true := by unfold Ready; decide +kernel
theorem witness_segw_reserved : let s := sup fun s => s.setX 1 (2 ^ 63)
    Ready { rx := [1, 2] } s ∧ s.dev.th.mode = true ∧ segReservedOk (s.dev.x 2 ++ s.dev.x 1) = false := by unfold Ready; decide +kernel
theorem witness_segr : Ready { wx := [3], rs := [1] } base := by unfold Ready; decide +kernel
theorem witness_segments : segLimit globalSeg < uv (2 ^ 20 - 7) + 8 ∧ ¬segLimit globalSeg < uv (2 ^ 20 - 8) + 8
    ∧ ¬(2 ^ 48 < segBase globalSeg + uv (2 ^ 20 - 8) + 8) ∧ segL globalSeg = false ∧ segL localSeg = true ∧ segX localSeg = false := by decide +kernel

/-- R256: sums wrap, and a write to x0 is discarded. -/
theorem test_add : nextIs (.add 3 1 2) (xs (BitVec.allOnes 64) 2) (fun t => t.dev.x 3 == 1 && t.dev.th.pc == 8) = true
    ∧ nextIs (.add 0 1 2) (xs 5 2) (fun t => t.dev.x 0 == 0) = true := by decide +kernel
/-- R256: `sra` rounds toward minus infinity; `sll` takes b[5:0]; `mulh` of -1 and 2 is -1. -/
theorem test_shifts_and_products : nextIs (.sra 3 1 2) (xs (-5) 1) (fun t => t.dev.x 3 == -3) = true
    ∧ nextIs (.sll 3 1 2) (xs 1 65) (fun t => t.dev.x 3 == 2) = true ∧ nextIs (.mulh 3 1 2) (xs (-1) 2) (fun t => t.dev.x 3 == -1) = true
    ∧ nextIs (.clz 3 1) (xs 1 0) (fun t => t.dev.x 3 == 63) = true ∧ nextIs (.ctz 3 1) (xs 0 0) (fun t => t.dev.x 3 == 64) = true := by
  decide +kernel
/-- R257: -7 divided by 2 leaves -3 outstanding; -7 modulo 2 is -1; by 0 the quotient is -1. -/
theorem test_divisions :
    nextIs (.div 3 1 2 1) (xs (-7) 2) (fun t => t.dev.th.pend.map (·.raw) == [leBytes 8 (2 ^ 64 - 3)] && t.dev.th.windows.length == 1) = true
    ∧ nextIs (.rem 3 1 2 0) (xs (-7) 2) (fun t => t.dev.th.pend.map (·.raw) == [leBytes 8 (2 ^ 64 - 1)]) = true
    ∧ nextIs (.div 3 1 2 0) (xs 9 0) (fun t => t.dev.th.pend.map (·.raw) == [leBytes 8 (2 ^ 64 - 1)]) = true := by decide +kernel
/-- R258, R260: `addi` extends its sign and `ori` does not; `lui` shifts by 16. -/
theorem test_immediates : nextIs (.addi 3 1 0xFFFF) (xs 5 0) (fun t => t.dev.x 3 == 4) = true
    ∧ nextIs (.ori 3 1 0x8000) (xs 5 0) (fun t => t.dev.x 3 == 0x8005) = true
    ∧ nextIs (.lui 3 0x7000) base (fun t => t.dev.x 3 == 0x70000000) = true
    ∧ nextIs (.sltiu 3 1 0xFFFF) (xs 5 0) (fun t => t.dev.x 3 == 1) = true := by decide +kernel
/-- R262-R264: a taken branch marks its arrival; `jalr` forms its target before it writes the link. -/
theorem test_transfers : nextIs (.blt 1 2 4) (xs (-1) 0) (fun t => t.dev.th.pc == 20 && t.dev.th.arrive == some 4) = true
    ∧ nextIs (.bltu 1 2 4) (xs (-1) 0) (fun t => t.dev.th.pc == 8 && t.dev.th.arrive == none) = true
    ∧ nextIs (.jalr 1 1 3) (xs 0x100 0) (fun t => t.dev.th.pc == 0x100 && t.dev.x 1 == 8) = true := by decide +kernel
/-- R265: `crw` of FRM keeps three bits; TVEC raises PRIV in user mode. -/
theorem test_controlRegisters : nextIs (.crw 3 1 6) (xs 0xFF 0) (fun t => t.dev.x 3 == 4 && t.dev.crGet 6 == 7) = true
    ∧ nextIs (.crr 3 0x20) base (fun t => t.dev.th.scause == 0x09 && t.dev.th.mode && t.dev.th.sepc == 4) = true := by decide +kernel
/-- R254, R375: `trap` saves the PC, enters supervisor mode, and `sret` goes back. -/
theorem test_trap_and_sret : nextIs .trap base (fun t => t.dev.th.scause == 0x10 && t.dev.th.sepc == 4 && t.dev.th.mode) = true
    ∧ nextIs .sret (sup fun s => { s with sepc := 0x80 }) (fun t => t.dev.th.pc == 0x84 && !t.dev.th.mode) = true
    ∧ nextIs .upret (th fun s => { s with uepc := 0x93, uact := true }) (fun t => t.dev.th.pc == 0x90 && !t.dev.th.uact) = true := by
  decide +kernel
/-- R377: `segr` reads a word of a segment; `segw` in user mode raises PRIV. -/
theorem test_segments : nextIs (.segr 3 1 1) base (fun t => t.dev.x 3 == 0x0037000000100000) = true
    ∧ nextIs (.segw 1 1 2) base (fun t => t.dev.th.scause == 0x09) = true := by decide +kernel

/-! ### Memory, stash, fences (R129-R132, R153, R196, R248-R250, R267-R273) -/

/-- Where GVA 0x40 of the tests lies, and the same in a page with VERS. -/
def tr40 : Trans := ⟨0x40, openLeaf, false, false, 0x40, false⟩
def tr40v : Trans := ⟨0x40, versLeaf, false, false, 0x40, false⟩
/-- X[1] = 0x40 and X[2] = 0xA1B2C3D4E5F60718; the same with page 0 under VERS. -/
def at40 : State := xs 0x40 0xA1B2C3D4E5F60718
def at40v : State := at40.modDev fun d => d.modCore 0 fun c => { c with tlb := [⟨0, 0, false, false, versLeaf, 0, false⟩] }

theorem witness_load_local : Ready { rx := [1], wx := [3], rs := [2] } at40 ∧ LoadsFrom at40 2 (scalarOff at40 1 0x1F8 8) 8 1 (.loc 0) := by
  unfold Ready LoadsFrom scalarOff; decide +kernel
theorem witness_load_global : Ready { rx := [1], wx := [3], rs := [1] } at40 ∧ LoadsFrom at40 1 (scalarOff at40 1 0 8) 8 1 (.glob [(tr40, 0, 8)])
    ∧ tr40.remote = false ∧ (segBase (at40.dev.th.seg 1) + (scalarOff at40 1 0 8).toNat) % 8 = 0
    ∧ at40.dev.immediate 0 0 (tr40.pa / 128) (tr40.pa % 128) 8 = none := by unfold Ready LoadsFrom scalarOff; decide +kernel
theorem witness_load_held : let s := at40.modDev fun d => d.modCore 0 fun c => { c with l1d := [(0, 5)] }
    LoadsFrom s 1 (scalarOff s 1 0 8) 8 1 (.glob [(tr40, 0, 8)]) ∧ s.dev.immediate 0 0 (tr40.pa / 128) (tr40.pa % 128) 8 = some 0 := by
  unfold LoadsFrom scalarOff; decide +kernel
theorem witness_store_local : let s := xs 98304 7
    Ready { rx := [1, 2], rs := [2] } s ∧ StoresTo s 2 (scalarOff s 1 (-1) 8) 8 1 (.loc 98296) ∧ (s.dev.core 0).lmem.wf = true := by
  unfold Ready StoresTo scalarOff; decide +kernel
theorem witness_store_global : Ready { rx := [1, 2], rs := [1] } at40 ∧ StoresTo at40 1 (scalarOff at40 1 0 8) 8 1 (.glob [(tr40, 0, 8)])
    ∧ at40.dev.th.lease = none ∧ tr40.pa % 128 + 8 ≤ 128 ∧ at40.dev.curCore.wb.length < 32 := by
  unfold Ready StoresTo scalarOff; decide +kernel
/-- The bytes of line 0 of local memory are poisoned. -/
def spoilt : State := at40.modDev fun d => d.modCore 0 fun c => { c with badLmem := [0] }
theorem witness_load_poisoned : LoadsFrom spoilt 2 (scalarOff spoilt 1 0 8) 8 1 (.loc 0x40) ∧ spoilt.dev.curCore.localBad 0x40 8 = some none
    ∧ at40.dev.curCore.localBad 0x40 8 = none := by unfold LoadsFrom scalarOff; decide +kernel
/-- Page 0 lies in module `m`, as REMOTE; the export table of this module allows partition 0 to read and write its first 2^16 bytes, or nothing. -/
def farLeaf (m : Nat) : Word := openLeaf ||| BitVec.ofNat 64 (2 ^ 53 + m * 2 ^ 35)
def farAt (m : Nat) (open_ : Bool) : State := at40.modDev fun d => { d with exports := if open_ then [⟨0, 0, 0x30000, 65536, true⟩] else [] }.modCore 0
  fun c => { c with tlb := [⟨0, 0, false, false, farLeaf m, 0, false⟩] }
def trFar (m : Nat) : Trans := ⟨m * 2 ^ 35 + 0x40, farLeaf m, true, false, 0x40, false⟩
theorem witness_remote : Ready { rx := [1], wx := [3], rs := [1] } (farAt 5 false) ∧ Ready { rx := [1, 2], rs := [1] } (farAt 0 true)
    ∧ LoadsFrom (farAt 5 false) 1 (scalarOff (farAt 5 false) 1 0 8) 8 1 (.glob [(trFar 5, 0, 8)]) ∧ (trFar 5).remote = true
    ∧ StoresTo (farAt 5 false) 1 (scalarOff (farAt 5 false) 1 0 8) 8 1 (.glob [(trFar 5, 0, 8)]) ∧ remoteModule (trFar 5).pa ≠ (farAt 5 false).dev.modnum
    ∧ LoadsFrom (farAt 0 true) 1 (scalarOff (farAt 0 true) 1 0 8) 8 1 (.glob [(trFar 0, 0, 8)]) ∧ remoteModule (trFar 0).pa = (farAt 0 true).dev.modnum
    ∧ StoresTo (farAt 0 true) 1 (scalarOff (farAt 0 true) 1 0 8) 8 1 (.glob [(trFar 0, 0, 8)])
    ∧ (∀ w, (farAt 0 true).dev.exportOf 0 0 (trFar 0).pa 8 w = some 0x30040) ∧ (trFar 5).pa % 128 + 8 ≤ 128
    ∧ LoadsFrom (farAt 0 false) 1 (scalarOff (farAt 0 false) 1 0 8) 8 1 (.glob [(trFar 0, 0, 8)])
    ∧ StoresTo (farAt 0 false) 1 (scalarOff (farAt 0 false) 1 0 8) 8 1 (.glob [(trFar 0, 0, 8)])
    ∧ ∀ w, (farAt 0 false).dev.exportOf 0 0 (trFar 0).pa 8 w = none := by unfold Ready LoadsFrom StoresTo scalarOff; decide +kernel
/-- The thread has segment 4, with no right, and has just walked page 0 for a load; page 0 gives no right to read. -/
def lacking : State := at40.modDev fun d => (d.modSlot 0 0 fun s => { s with fresh := some (0, false, false), s := vset s.s 4 (BitVec.ofNat 128 (2 ^ 84)) }).modCore 0
  fun c => { c with tlb := [⟨0, 0, false, false, openLeaf ^^^ BitVec.ofNat 64 (2 ^ 59), 0, false⟩] }
/-- No TLB of the thread's core or quad holds page 0. -/
def untranslated : State := at40.modDev fun d => d.modCore 0 fun c => { c with tlb := [] }
theorem witness_operand_stops : segLimit globalSeg < uv (2 ^ 20 - 7) + 8 ∧ segR (lacking.dev.th.seg 4) = false
    ∧ lacking.dev.tlbFind 0 0 0 = some ⟨0, 0, false, false, openLeaf ^^^ BitVec.ofNat 64 (2 ^ 59), 0, false⟩
    ∧ pageCheck lacking.dev.tpart.cfg (openLeaf ^^^ BitVec.ofNat 64 (2 ^ 59)) false false (loadAccess lacking) 0x40 = some .perm
    ∧ lacking.dev.operand 4 0x40 8 { r := true } (loadAccess lacking) 1 = .error (.trap ⟨.segperm, 0x40⟩)
    ∧ untranslated.dev.operand 1 0x40 8 { r := true } (loadAccess untranslated) 1 = .error (.park (.walk 0x40 false false)) := by decide +kernel
/-- The thread as a guest of a task with one guest slot. -/
def guest : State := base.modDev fun d => d.modCore 0 fun c => { c with
  tasks := c.tasks.map fun t => { t with slots := [], guestSlots := [0], desc := { taskDesc with guests := 1 }, blocks := 4 }
  slots := vset c.slots 0 { c.slot 0 with guest := true, isGuestSlot := true } }
theorem witness_local_task : base.dev.th.guest = false ∧ (base.dev.task 0 0).any (fun t => t.desc.scratch * 32768 + t.desc.stash * 32768 == 98304) = true
    ∧ ¬(0x80000 ≤ 98296 ∧ 98296 + 8 ≤ 0xC0000) ∧ base.dev.localAt 98296 8 = .ok 98296
    ∧ base.dev.localAt 98297 8 = .error (.trap ⟨.segv, 98297⟩) := by decide +kernel
theorem witness_local_guest : guest.dev.th.guest = true ∧ (guest.dev.curCore.hostTask 0).isSome = true
    ∧ guest.dev.localAt 8184 8 = .ok (98304 + 8184) ∧ guest.dev.localAt 8185 8 = .error (.trap ⟨.segv, 8185⟩) := by decide +kernel
theorem witness_ordered_local : Ready { rx := [1], wx := [3], rs := [2] } at40 ∧ LoadsFrom at40 2 (at40.dev.x 1) (widthOf true) (widthOf true) (.loc 0x40)
    ∧ Ready { rx := [1, 2], rs := [2] } at40 ∧ StoresTo at40 2 (at40.dev.x 1) (widthOf false) (widthOf false) (.loc 0x40)
    ∧ at40.dev.gateOpen (at40.dev.gateWaiting .pkg) = true := by unfold Ready LoadsFrom StoresTo; decide +kernel
/-- A load of the thread that its home has not answered. -/
def loading : State := at40.modDev fun d =>
  { d with accSeq := 1, homeQ := [⟨0, 0, 0, 0, 0, 0, 3, 0, 0x180, false, 0, none, .load 0 0 8 0 false, 0, .cr, false, false⟩] }.modSlot 0 0 fun s => { s with pend := [pendOne] }
theorem witness_ordered_global : LoadsFrom at40 1 (at40.dev.x 1) (widthOf true) (widthOf true) (.glob [(tr40, 0, widthOf true)])
    ∧ (segBase (at40.dev.th.seg 1) + uv (at40.dev.x 1)) % widthOf true = 0 ∧ at40.dev.immediate 0 0 0 0x40 (widthOf true) = none
    ∧ StoresTo at40 1 (at40.dev.x 1) (widthOf false) (widthOf false) (.glob [(tr40, 0, widthOf false)]) ∧ tr40.pa % 128 + widthOf false ≤ 128
    ∧ at40.dev.curCore.wb.length < 32 := by unfold LoadsFrom StoresTo; decide +kernel
/-- A store of the thread that waits in the write buffer. -/
def storing : State := at40.modDev fun d => { d with accSeq := 1 }.modCore 0 fun c =>
  { c with wb := [⟨3, 0, 1, 0, 0, ⟨0, false⟩, 0, 0, none, [0], false, false, 0, false⟩] }
theorem witness_lacq_sound : at40.dev.curCore.localBad 0x40 (widthOf true) = none := by decide +kernel
theorem witness_release_waits : storing.dev.gateOpen (storing.dev.gateWaiting .pkg) = false ∧ storing.dev.th.acqPid = []
    ∧ StoresTo storing 2 (storing.dev.x 1) (widthOf true) (widthOf true) (.loc 0x40) := by unfold StoresTo; decide +kernel
theorem witness_fences : Ready {} base ∧ base.dev.th.acqPid = [] ∧ base.dev.loadsPerformed = true ∧ base.dev.th.relMark = none
    ∧ base.dev.gateOpen (base.dev.gateWaiting .sys) = true ∧ Ready {} loading ∧ loading.dev.loadsPerformed = false := by
  unfold Ready; decide +kernel
/-- The thread has an acquiring read outstanding, or an earlier `fence.rel`. -/
def acquiring : State := th fun s => { s with acqPid := [0], pend := [pendOne] }
def releasing (s : State) : State := s.modDev fun d => d.modSlot 0 0 fun t => { t with relMark := some (1, .pkg) }
theorem witness_fences_behind : Ready {} acquiring ∧ acquiring.dev.th.acqPid ≠ [] ∧ (releasing base).dev.th.relMark = some (1, .pkg) ∧ Ready {} (releasing storing)
    ∧ (releasing storing).dev.gateOpen ((releasing storing).dev.gateAt 0 0 1 .pkg none) = false
    ∧ (releasing base).dev.gateOpen ((releasing base).dev.gateAt 0 0 1 .pkg none) = true ∧ base.dev.localAt 0x80010 8 = .ok 0x80010 := by
  unfold Ready; decide +kernel
theorem witness_lacq_held : let s := at40.modDev fun d => d.modCore 0 fun c => { c with l1d := [(0, 5)] }
    LoadsFrom s 1 (s.dev.x 1) (widthOf true) (widthOf true) (.glob [(tr40, 0, widthOf true)])
      ∧ s.dev.immediate 0 0 (tr40.pa / 128) (tr40.pa % 128) (widthOf true) = some 0 := by unfold LoadsFrom; decide +kernel
/-- A result of two bytes has arrived for x5 of slot 0, or has failed. -/
def arrived (err : Option TrapInfo) : State :=
  let s := th fun s => { s with pend := [⟨7, .sext 5 2, [0xFE, 0xFF], 0, err⟩] }
  { s with args := { StepArgs.reset with c := 7 } }
theorem witness_store_dirty : let s := (xs 65536 7).modDev fun d => { d with regs := [(2, (0, 512))] }.modCore 0 fun c =>
      { c with stash := [(512, ⟨.clean, 0x100, 2, false, 0, false, 0, 0⟩)] }
    Ready { rx := [1, 2], rs := [2] } s ∧ StoresTo s 2 (scalarOff s 1 0 8) 8 1 (.loc 65536)
      ∧ nextIs (.sd 2 1 2 0) s (fun t => t.dev.curCore.stash.map (fun e => (e.1, e.2.st)) == [(512, .dirty)]) = true := by
  unfold Ready StoresTo scalarOff; decide +kernel
theorem witness_arrival_forms : ([0, 2].Nodup ∧ ∀ l ∈ [0, 2], 4 * l + 4 ≤ 64) ∧ (4 : RegNo).toNat % 2 = 0 ∧ [0x80].length = 1 := by decide
theorem witness_arrival : ((arrived none).dev.slot 0 0).pend = [⟨7, .sext 5 2, [0xFE, 0xFF], 0, none⟩] ∧ (arrived none).args.c = 7
    ∧ ((arrived (some ⟨.dataerr, 0⟩)).dev.slot 0 0).pend = [⟨7, .sext 5 2, [0xFE, 0xFF], 0, some ⟨.dataerr, 0⟩⟩] := by decide +kernel
/-- X[1] names the only stash line of the task, at local offset 65536, whose entry has state `x`. -/
def stashed (x : StashState) : State := (xs 65536 0x100).modDev fun d =>
  { d with regs := [(2, (0, 512))] }.modCore 0 fun c => { c with stash := [(512, ⟨x, 0x100, 2, false, 0, false, 0, 0⟩)] }
theorem witness_stash_dirty : Ready { rx := [1] } (stashed .dirty) ∧ NamesEntry (stashed .dirty) 1 512 ∧ (stashed .dirty).dev.curCore.wb.length < 32
    ∧ aget? (stashed .dirty).dev.curCore.stash 512 = some ⟨.dirty, 0x100, 2, false, 0, false, 0, 0⟩ := by unfold Ready NamesEntry; decide +kernel
theorem witness_stash_clean : NamesEntry (stashed .clean) 1 512 ∧ aget? (stashed .clean).dev.curCore.stash 512 = some ⟨.clean, 0x100, 2, false, 0, false, 0, 0⟩ := by
  unfold NamesEntry; decide +kernel
theorem witness_smap : let s := xs 65536 0x100
    Ready { rx := [1, 2], rs := [1] } s ∧ NamesEntry s 1 512 ∧ s.dev.curCore.stash = [] ∧ s.dev.curCore.wb.length ≤ 32 ∧ segL (s.dev.th.seg 1) = false
      ∧ segCheck (s.dev.th.seg 1) (s.dev.x 2) 128 { r := true } = .ok 0x100
      ∧ s.dev.translate { read := true, user := !s.dev.th.mode, twinOk := true } 0x100 = .ok ⟨0x100, openLeaf, false, false, 0x100, false⟩
      ∧ s.dev.th.lease = none := by unfold Ready NamesEntry; decide +kernel

theorem witness_smap_local : Ready { rx := [1, 2], rs := [2] } (xs 65536 0x100) ∧ segL ((xs 65536 0x100).dev.th.seg 2) = true := by unfold Ready; decide +kernel
/-- The CLEAN entry with its write-back still in the write buffer. -/
def cleaning : State := (stashed .clean).modDev fun d => d.modCore 0 fun c =>
  { c with wb := [⟨2, 5, BitVec.allOnes 128, 0, 0, ⟨0, false⟩, 0, 0, none, [], false, true, 0, false⟩] }
theorem witness_stash_cleaning : NamesEntry cleaning 1 512 ∧ aget? cleaning.dev.curCore.stash 512 = some ⟨.clean, 0x100, 2, false, 0, false, 0, 0⟩
    ∧ ∃ w ∈ cleaning.dev.curCore.wb, w.wback = true ∧ w.line = 2 := by unfold NamesEntry; decide +kernel

/-- R267, R197: a local load gives its bytes at once, sign-extended when they arrive; a store writes the lowest byte first. -/
theorem test_local_accesses :
    nextIs (.lb 3 1 2 0 0) (at40.modDev fun d => d.modCore 0 fun c => { c with lmem := [(0x40, 0x80)] })
      (fun t => t.dev.th.pend.map (fun p => (p.post, p.raw, p.need)) == [(.sext 3 1, [0x80], 0)]) = true
    ∧ nextIs (.sh 2 1 2 1) at40 (fun t => t.dev.curCore.lmem == [(0x42, 0x18), (0x43, 0x07)]) = true := by decide +kernel
/-- R267, R123, R188: a global load asks the home of its line; a global store enters the write buffer. -/
theorem test_global_accesses :
    nextIs (.ld 3 1 1 0 0) at40 (fun t => t.dev.homeQ.map (fun q => (q.line, q.kind)) == [(0, .load 0 0x40 8 0 false)]) = true
    ∧ nextIs (.sw 2 1 1 0) at40 (fun t => t.dev.mem == [] && t.dev.curCore.wb.map (fun e => (e.line, e.mask)) == [(0, 0xF0000000000000000)]) = true := by
  decide +kernel
/-- R41, R42, R121: a REMOTE page of module 5; one of this module, which the export table moves to 0x30000, or refuses; poisoned local bytes. -/
theorem test_remote_accesses :
    nextIs (.ld 3 1 1 0 0) (farAt 5 false) (fun t => t.dev.remote.length == 1 && t.dev.th.pend.length == 1 && t.dev.homeQ == []) = true
    ∧ nextIs (.ld 3 1 1 0 0) (farAt 0 true) (fun t => t.dev.homeQ.map (·.line) == [0x600]) = true
    ∧ nextIs (.ld 3 1 1 0 0) (farAt 0 false) (fun t => t.dev.th.pend.map (·.err) == [some ⟨.dataerr, 0x40⟩]) = true
    ∧ nextIs (.sd 2 1 1 0) (farAt 0 false) (fun t => t.dev.th.deferred == [(0, ⟨.dataerr, 0x40⟩)]) = true
    ∧ nextIs (.sd 2 1 1 0) (farAt 0 true) (fun t => t.dev.curCore.wb.map (·.line) == [0x600]) = true
    ∧ nextIs (.ld 3 1 2 0 0) spoilt (fun t => t.dev.th.pend.map (·.err) == [some ⟨.dataerr, 0x40⟩] && t.dev.th.pc == 8) = true := by decide +kernel
/-- R153, R160, R163: past LIMIT a load raises SEGV with its offset in SADDR; a page without READ gives PERM after the walk; a miss asks for a
walk and waits. -/
theorem test_segv : nextIs (.ld 3 1 1 0 0) (xs (2 ^ 20 - 7) 0) (fun t => t.dev.th.scause == 0x04 && t.dev.th.saddr == 2 ^ 20 - 7) = true
    ∧ nextIs (.ld 3 1 1 0 0) lacking (fun t => t.dev.th.scause == Cause.perm.code && t.dev.th.saddr == 0x40) = true
    ∧ nextIs (.ld 3 1 1 0 0) untranslated (fun t => t.dev.th.wait == .walk 0x40 false false && (t.dev.quad 0).coal == [(0, 0)]) = true := by
  decide +kernel
/-- R248, R250: a result of two bytes is sign-extended into its register; one that failed is deferred and leaves it. -/
theorem test_arrival : nextIs .resultArrival (arrived none) (fun t => t.dev.th.xr 5 == -2 && t.dev.th.pend == []) = true
    ∧ nextIs .resultArrival (arrived (some ⟨.dataerr, 9⟩)) (fun t => t.dev.th.xr 5 == 0 && t.dev.th.deferred == [(7, ⟨.dataerr, 9⟩)]) = true := by
  decide +kernel
/-- R196, R273: a fence waits for the load before it; `sflush` writes a DIRTY entry back; `sunmap` of a CLEAN entry deregisters it, but not
while its write-back is on its way. -/
theorem test_fence_and_sflush : nextIs (.fenceAcq .pkg) loading (fun t => t.dev.th.wait == .fence none && t.dev.th.pc == 4) = true
    ∧ nextIs (.sflush 1) (stashed .dirty) (fun t => t.dev.curCore.wb.map (fun e => (e.line, e.wback)) == [(2, true)]) = true
    ∧ nextIs (.sunmap 1) cleaning (fun t => t.dev.regs == [(2, (0, 512))] && t.dev.curCore.stash == []) = true
    ∧ nextIs (.sunmap 1) (stashed .clean) (fun t => t.dev.regs == [] && t.dev.curCore.stash == []) = true := by decide +kernel

/-! ### Atomics, reductions, leases, versions and their homes (R174, R175, R202-R205, R274-R283) -/

/-- The request of kind `k` that slot 0 sends for line 0. -/
def request (k : ReqKind) (tag : Option Nat) : HomeReq := ⟨0, 0, 0, 0, 0, 0, 0, 0, 0x40, false, 0, tag, k, 0, .cr, false, false⟩
/-- The home of line 0 has that request alone; one result of the thread is outstanding. -/
def asked (k : ReqKind) (tag : Option Nat) : State := at40.modDev fun d =>
  { d with accSeq := 1, homeQ := [request k tag], mem := [(0x40, 9)] }.modSlot 0 0 fun s => { s with pend := [pendOne] }

theorem witness_amoIssue : Ready { rx := [1, 2], wx := [2], rs := [1] } at40
    ∧ OnLine at40 1 (at40.dev.x 1) (widthOf true) (widthOf true) { r := true, w := true, l0 := true }
      { read := true, write := true, user := !at40.dev.th.mode, remoteOk := true } tr40 := by
  refine ⟨by unfold Ready; decide +kernel, ?_⟩; constructor <;> decide +kernel
theorem witness_amocas : (4 : RegNo).toNat % 2 = 0 ∧ Ready { rx := [1, 4, 5], wx := [4], rs := [1] } at40 ∧ (5 : RegNo).toNat % 2 = 1 := by
  unfold Ready; decide +kernel
theorem witness_nextAtHome (k : ReqKind) (h : k = .amo 0 0x40 true .add 5 0 none ∨ k = .load 0 0x40 8 0 false ∨ k = .lease 3 8
    ∨ k = .unlease 3 1 1 ∨ k = .sverNext 0x40 5 ∨ k = .sverNum 0x40 1 5 ∨ k = .lver 4 0x40 0 0 ∨ k = .pver 0 0x40 1 ∨ k = .rver 0x40 0) :
    NextAtHome (asked k none) (request k none) ∧ (request k none).line = (asked k none).args.a := by
  rcases h with rfl | rfl | rfl | rfl | rfl | rfl | rfl | rfl | rfl <;> exact ⟨by constructor <;> decide +kernel, by decide +kernel⟩
theorem witness_storeAtHome : let s := at40.modDev fun d =>
      { d with accSeq := 1, homeQ := [request (.store 1) none] }.modCore 0 fun c => { c with wb := [⟨0, 7, 1, 0, 0, ⟨0, false⟩, 0, 0, none, [0], true, false, 0, false⟩] }
    s.dev.nextReq 0 = some (request (.store 1) none) ∧ s.dev.tagWin = [] ∧ s.dev.obuf = [] ∧ aget? s.dev.regs 0 = none ∧ s.dev.hasUoc 0 = false
      ∧ (∀ o ∈ s.dev.homeQ, o.line = 0 → o.kind.isSatom = false) ∧ s.dev.lostLine 0 = false ∧ s.dev.mem.wf = true ∧ (s.dev.core 0).wb = [⟨0, 7, 1, 0, 0, ⟨0, false⟩, 0, 0, none, [0], true, false, 0, false⟩] := by decide +kernel
/-- An update-only copy of line 0 for `redadd.i64`, with 5 in the word at 0x40. -/
def copyOf : Uoc := ⟨0, 0, true, lineSet 0 0x40 8 5, 0, 0, 0, ⟨0, false⟩⟩
theorem witness_reduction : Ready { rx := [1, 2], rs := [1] } at40 ∧ at40.dev.tpart.cfg.det = false ∧ at40.dev.lineBusy 0 0 0 (byteMask 0x40 8) = false
    ∧ at40.dev.lineHeld 0 = false ∧ tr40.pa % widthOf true = 0 ∧ aget? at40.dev.regs 0 = none ∧ at40.dev.curCore.uoc = []
    ∧ OnLine at40 1 (at40.dev.x 1) (widthOf true) (widthOf true) { w := true, l0 := true } { write := true, user := !at40.dev.th.mode } tr40
    ∧ (at40.modDev fun d => d.modCore 0 fun c => { c with uoc := [copyOf] }).dev.curCore.uoc = [copyOf] := by
  refine ⟨by unfold Ready; decide +kernel, by decide +kernel, by decide +kernel, by decide +kernel, by decide +kernel, by decide +kernel,
    by decide +kernel, by constructor <;> decide +kernel, by decide +kernel⟩
/-- Another thread holds the lease of line 0. -/
def heldLine : State := at40.modDev fun d => { d with leases := [⟨0, 0, ⟨0, false⟩, 1, 0, 8⟩] }
theorem witness_reduction_waits : Ready { rx := [1, 2], rs := [1] } heldLine ∧ heldLine.dev.lineHeld (tr40.pa / 128) = true
    ∧ OnLine heldLine 1 (heldLine.dev.x 1) (widthOf true) (widthOf true) { w := true, l0 := true } { write := true, user := !heldLine.dev.th.mode } tr40 := by
  refine ⟨by unfold Ready; decide +kernel, by decide +kernel, by constructor <;> decide +kernel⟩
theorem witness_redfadd_det : Ready { rx := [1, 2], rs := [1] } (at40.modDev fun d => d.modPart 0 fun p => { p with cfg := { p.cfg with det := true } })
    ∧ (at40.modDev fun d => d.modPart 0 fun p => { p with cfg := { p.cfg with det := true } }).dev.tpart.cfg.det = true := by
  unfold Ready; decide +kernel
theorem witness_lease : Ready { rx := [1, 2], wx := [3], rs := [1] } at40
    ∧ OnLine at40 1 (at40.dev.x 1) 1 1 { r := true, w := true, l0 := true } { write := true, user := !at40.dev.th.mode, lease := true } tr40 := by
  refine ⟨by unfold Ready; decide +kernel, by constructor <;> decide +kernel⟩
/-- The thread with a lease record of line 0. -/
def leasing : State := at40.modDev fun d =>
  { d with leases := [⟨0, 0, ⟨0, false⟩, 0, 0, 8⟩] }.modSlot 0 0 fun s => { s with lease := some ⟨0, true, 0, 1, 1, []⟩ }
theorem witness_lease_again : Ready { rx := [1, 2], wx := [3], rs := [1] } leasing ∧ leasing.dev.th.lease ≠ none := by unfold Ready; decide +kernel
theorem witness_unlease : Ready { rx := [1], wx := [3], rs := [1] } leasing ∧ segCheck (leasing.dev.th.seg 1) (leasing.dev.x 1) 1 { r := true, w := true, l0 := true } = .ok 0x40
    ∧ leasing.dev.translate { read := true, write := true, user := !leasing.dev.th.mode } 0x40 = .ok tr40
    ∧ leasing.dev.th.acqPid = [] ∧ leasing.dev.th.relMark = none ∧ leasing.dev.curCore.tagFree = true ∧ at40.dev.th.lease = none := by
  unfold Ready; decide +kernel
/-- Its loads and stores to the line itself; and an `srel` among them, behind an earlier store that waits in the write buffer. -/
theorem witness_leased : LoadsFrom leasing 1 (scalarOff leasing 1 0 8) 8 1 (.glob [(tr40, 0, 8)]) ∧ StoresTo leasing 1 (scalarOff leasing 1 0 8) 8 1 (.glob [(tr40, 0, 8)])
    ∧ StoresTo leasing 1 (leasing.dev.x 1) (widthOf true) (widthOf true) (.glob [(tr40, 0, widthOf true)]) ∧ leasing.dev.th.lease = some ⟨0, true, 0, 1, 1, []⟩
    ∧ (0 : Nat) = tr40.pa / 128 ∧ leasing.dev.curCore.wb.length ≤ 32 ∧ Ready { rx := [1], wx := [3], rs := [1] } leasing ∧ Ready { rx := [1, 2], rs := [1] } leasing := by
  unfold LoadsFrom StoresTo scalarOff Ready; decide +kernel
def ordering : State := storing.modDev fun d => d.modSlot 0 0 fun s => { s with lease := some ⟨0, true, 0, 1, 1, [(1, .pkg)]⟩ }
theorem witness_unlease_waits : Ready { rx := [1], wx := [3], rs := [1] } ordering
    ∧ segCheck (ordering.dev.th.seg 1) (ordering.dev.x 1) 1 { r := true, w := true, l0 := true } = .ok 0x40
    ∧ ordering.dev.translate { read := true, write := true, user := !ordering.dev.th.mode } 0x40 = .ok tr40
    ∧ ordering.dev.gateOpen (ordering.dev.gateAt 0 0 1 .pkg none) = false ∧ leasing.dev.gateOpen (leasing.dev.gateAt 0 0 1 .pkg none) = true := by
  unfold Ready; decide +kernel
theorem witness_leaseExpiry : leasing.dev.leases = [⟨0, 0, ⟨0, false⟩, 0, 0, 8⟩] ∧ leasing.args.a = 0
    ∧ (leasing.dev.slot 0 0).lease = some ⟨0, true, 0, 1, 1, []⟩ := by decide +kernel
theorem witness_unleaseAtHome : let s := leasing.modDev fun d => { d with homeQ := [request (.unlease 3 1 1) none] }
    NextAtHome s (request (.unlease 3 1 1) none) ∧ (⟨0, 0, ⟨0, false⟩, 0, 0, 8⟩ : LeaseHold) ∈ s.dev.leases
      ∧ ∀ h ∈ (asked (.unlease 3 1 1) none).dev.leases, ¬(h.line = 0 ∧ h.rank = 0 ∧ h.slot = 0) := by
  refine ⟨by constructor <;> decide +kernel, by decide +kernel, by decide +kernel⟩
theorem witness_versions : VersOn at40v 1 1 true tr40v ∧ VersOn at40v 1 1 false tr40v ∧ Ready { rx := [1, 2, 3], rs := [1] } at40v
    ∧ Ready { rx := [1, 2], rs := [1] } at40v ∧ Ready { rx := [1, 2], wx := [4, 5], rs := [1] } at40v := by
  refine ⟨by constructor <;> decide +kernel, by constructor <;> decide +kernel, ?_⟩; unfold Ready; decide +kernel
/-- A versioned word at 0x40 with versions 3 and 4 live. -/
def versioned (k : ReqKind) : State := (asked k none).modDev fun d => { d with vwords := [(0x40, ⟨0, 4, 2, [(3, 30), (4, 40)]⟩)] }
theorem witness_versionsAtHome : NextAtHome (versioned (.pver 0 0x40 5)) (request (.pver 0 0x40 5) none)
    ∧ newer 5 ((versioned (.pver 0 0x40 5)).dev.vword 0x40 0).n = true ∧ newer 4 ((versioned (.pver 0 0x40 5)).dev.vword 0x40 0).n = false
    ∧ newer 3 ((versioned (.pver 0 0x40 5)).dev.vword 0x40 0).t = true ∧ newer 2 ((versioned (.pver 0 0x40 5)).dev.vword 0x40 0).t = false
    ∧ ((versioned (.pver 0 0x40 5)).dev.vword 0x40 0).entries.find? (fun e => e.1 == 3) = some (3, 30) := by
  refine ⟨by constructor <;> decide +kernel, by decide +kernel⟩
theorem witness_forwarded : let q := { request (.load 0 0 8 0 false) none with line := 2 }
    let s := { (stashed .dirty).modDev fun d => { d with homeQ := [q] } with args := { StepArgs.reset with a := 2 } }
    s.dev.nextReq 2 = some q ∧ s.dev.tagWin = [] ∧ s.dev.obuf = [] ∧ aget? s.dev.regs 2 = some (0, 512) ∧ s.dev.hasUoc 2 = false ∧ (s.dev.core 0).wb = []
      ∧ aget? (s.dev.part 0).ctx 0 = none ∧ (s.dev.part 0).devRank 0 = 0 ∧ s.dev.poisoned 2 = false ∧ s.args.a = 2
      ∧ ∀ o ∈ s.dev.homeQ, o.line = 2 → o ≠ q → o.kind.isSatom = false := by decide +kernel
theorem witness_recall : let q := { request (.lease 3 8) none with line := 2 }
    let s := { (stashed .dirty).modDev fun d => { d with homeQ := [q] } with args := { StepArgs.reset with a := 2 } }
    q ∈ s.dev.homeQ ∧ aget? s.dev.regs 2 = some (0, 512) ∧ (s.dev.core 0).wb = []
      ∧ aget? (s.dev.core 0).stash 512 = some ⟨.dirty, 0x100, 2, false, 0, false, 0, 0⟩ ∧ s.dev.mem.wf = true := by decide +kernel
theorem witness_updateCopy : let s := base.modDev fun d => { d with mem := [(0x40, 9)] }.modCore 0 fun c => { c with uoc := [copyOf] }
    (s.dev.core s.args.a).uoc = [copyOf] ∧ copyOf.line = s.args.b ∧ copyOf.fn ≤ 6 ∧ (s.dev.core s.args.a).tagFree = true ∧ s.dev.mem.wf = true ∧ s.dev.backsOf copyOf.line = []
      ∧ s.dev.tagSeen copyOf.home s.args.a (s.dev.core s.args.a).tagSeq.toNat = none := by decide +kernel

/-- R276, R202: `amoadd` at its home adds to the word; the old value goes back. -/
theorem test_amoAtHome : nextIs .homeQueueServe (asked (.amo 0 0x40 true .add 5 0 none) none)
    (fun t => t.dev.mem == [(0x40, 14)] && t.dev.th.pend.map (fun p => (p.raw, p.need)) == [([9, 0, 0, 0, 0, 0, 0, 0], 0)]) = true := by decide +kernel
/-- R277, R203, R292: `redadd` joins the update-only copy, and memory keeps its value until the copy returns; where the line is leased, the
update waits at its home and the thread goes on. -/
theorem test_reduction :
    nextIs (.redadd true 1 2 1) (at40.modDev fun d => d.modCore 0 fun c => { c with uoc := [copyOf] })
      (fun t => t.dev.curCore.uoc.map (fun u => lineNat u.data 0x40 8) == [0xA1B2C3D4E5F6071D] && t.dev.mem == []) = true
    ∧ nextIs .updateCopyReturn (base.modDev fun d => { d with mem := [(0x40, 9)] }.modCore 0 fun c => { c with uoc := [copyOf] })
      (fun t => t.dev.mem == [(0x40, 14)] && t.dev.curCore.uoc == [] && t.dev.curCore.tagSeq == 1 && t.dev.curCore.out == []) = true
    ∧ nextIs (.redadd true 1 2 1) heldLine (fun t => t.dev.homeQ.map (·.kind) == [.red 0 true 0x40 0xA1B2C3D4E5F60718] && t.dev.th.pc == 8) = true := by decide +kernel
/-- R279, R194: a store into the leased line stays in the record, and `unlease` waits for the release of an `srel` there. -/
theorem test_leased_stores :
    nextIs (.sd 2 1 1 0) leasing (fun t => t.dev.th.lease.any (fun l => l.mask == BitVec.ofNat 128 (0xFF * 2 ^ 64 + 1)) && t.dev.curCore.wb == []) = true
    ∧ nextIs (.srel 2 1 true .pkg 1) leasing (fun t => t.dev.th.lease.any fun l => l.rels.length == 1) = true
    ∧ nextIs (.unlease 3 1 1) ordering (fun t => t.dev.th.wait == .release (ordering.dev.gateAt 0 0 1 .pkg none)) = true := by decide +kernel
/-- R279: the length of a lease is at most LEASEMAX; `unlease` writes the masked byte and gives 1. -/
theorem test_leases : nextIs (.lease 3 1 2 1) leasing (fun t => t.dev.th.scause == Cause.lease.code && t.dev.th.saddr == 0x40) = true
    ∧ nextIs (.lease 3 1 2 1) at40 (fun t => t.dev.homeQ.map (·.kind) == [.lease 3 8] && t.dev.th.wait == .home) = true
    ∧ nextIs .homeQueueServe (leasing.modDev fun d => { d with homeQ := [request (.unlease 3 1 1) none] })
      (fun t => t.dev.mem == [(0, 1)] && t.dev.x 3 == 1 && t.dev.leases == [] && t.dev.th.pc == 8) = true := by decide +kernel
/-- R281-R283: a future version reads (0, 1), a live one its value; `rver` retires up to its number. -/
theorem test_versions :
    nextIs .homeQueueServe (versioned (.pver 0 0x40 5)) (fun t => t.dev.th.pend.map (·.raw) == [leBytes 8 0 ++ leBytes 8 1]) = true
    ∧ nextIs .homeQueueServe (versioned (.lver 4 0x40 3 0)) (fun t => (t.dev.th.pend.drop 1).map (·.raw) == [leBytes 8 30 ++ leBytes 8 0]) = true
    ∧ nextIs .homeQueueServe (versioned (.rver 0x40 3)) (fun t => aget? t.dev.vwords 0x40 == some ⟨0, 4, 3, [(4, 40)]⟩) = true := by decide +kernel


/-! ### Barriers, mailboxes, waits, system instructions, tasks (R142, R143, R167, R284-R290, R376-R381) -/

/-- Two threads are to arrive; one has, at the barrier of tag 2 in core 0. -/
def barred (n : Nat) : State := (xs 2 2).modDev fun d => { d with bars := [⟨⟨0, 2, 0, 0⟩, 3, 2, n⟩] }
theorem witness_barrier : Ready { rx := [1, 2] } (barred 0) ∧ Released (barred 0) .cr ∧ ((barred 1).dev.barrier ⟨0, 2, 0, 0⟩).arrived ≠ 0
    ∧ (barred 0).dev.th.wait = .none ∧ (barred 0).dev.openBars ⟨0, 2, 0, 0⟩ < 64 ∧ ((barred 0).dev.barrier ⟨0, 2, 0, 0⟩).arrived + 1 < 2
    ∧ 2 ≤ ((barred 1).dev.barrier ⟨0, 2, 0, 0⟩).arrived + 1 := by unfold Ready Released; decide +kernel
/-- Every tag of the core is in use. -/
def tagless : State := (xs 1 7).modDev fun d => d.modCore 0 fun c => { c with out := List.replicate 256 (9, ⟨none, none, none, none, 1, false⟩) }
/-- Bits [5:0] of X[1] name counter 0, its rank 1. -/
theorem witness_mbxadd : Ready { rx := [1, 2], wx := [3] } (xs 1 7) ∧ (1 : Nat) % 4096 < (xs 1 7).dev.tpart.cfg.hlen ∧ (xs 1 7).dev.curCore.tagFree = true ∧ tagless.dev.curCore.tagFree = false
    ∧ uv ((xs (2 ^ 18) 7).dev.x 1) / 2 ^ 18 ≠ 0 ∧ (xs 1 7).dev.tpart.cfg.hlen ≤ uv ((xs 4 7).dev.x 1) % 4096 := by unfold Ready; decide +kernel
theorem witness_mbxwait : (vget (xs 0 0).dev.curCore.counters 0 0 - 0).toNat < 2 ^ 31 ∧ ¬(vget (xs 0 1).dev.curCore.counters 0 0 - 1).toNat < 2 ^ 31 := by
  decide +kernel
/-- Slot 0 under `yield` or `wfi`, at cycle 20 of its core. -/
def resting (w : Wait) : State := co fun c => { c with cycle := 20, slots := vset c.slots 0 { c.slot 0 with wait := w, yieldUntil := 17 } }
theorem witness_resting : ((resting .none).dev.slot 0 0).yieldUntil ≤ uv ((resting .none).dev.core 0).cycle
    ∧ ((resting (.wfi 20)).dev.slot 0 0).wait = .wfi 20 ∧ 20 ≤ uv ((resting (.wfi 20)).dev.core 0).cycle := by decide +kernel
theorem witness_wfi : (sup id).dev.th.mode = true ∧ ((sup id).dev.homeSlot 0 0).copyIrqs = [] ∧ (sup id).dev.th.wait = .none := by decide +kernel
theorem witness_tlbinv : Ready { rx := [1, 2] } (sup id) ∧ Released (sup id) .pkg
    ∧ ((sup id).dev.shootdown 0 0 0).shotDone 0 0 0 (sup id).dev.accSeq = true := by unfold Ready Released; decide +kernel
/-- A supervisor thread with X[1] = 0x40, X[2] = 1, and a copy of line 0 in its L1. -/
def kernel : State := co fun c => { c with l1d := [(0, 7)], slots := vset c.slots 0 { ((c.slot 0).setX 1 0x40).setX 2 1 with mode := true } }
theorem witness_cinval : Ready { rx := [1, 2], rs := [1] } kernel ∧ kernel.dev.th.mode = true ∧ kernel.dev.mem.wf = true ∧ kernel.dev.th.acqPid = []
    ∧ kernel.dev.cacheLines 1 1 2 { w := true, l0 := true } { write := true, user := false, twinOk := true } = .ok [0] := by unfold Ready; decide +kernel
theorem witness_cflush : Ready { rx := [1, 2], rs := [1] } (xs 0x40 1) ∧ Released (xs 0x40 1) .pkg ∧ (xs 0x40 1).dev.cacheLines 1 1 2 { r := true, l0 := true } { read := true, user := true, twinOk := true } = .ok [0]
    ∧ aget? (xs 0x40 1).dev.regs 0 = none ∧ (xs 0x40 1).dev.hasUoc 0 = false := by unfold Ready Released; decide +kernel
/-- The page tables of the partition at PA 0x100000: page 0 lies in a twin region of 2 MiB pages, or in a plain one of 64 KiB pages. -/
def tables (twin : Bool) (leaf : Word) : State := base.modDev fun d =>
  { d with mem := (((Mem.setBytes [] 0x100000 (leBytes 8 (2 ^ 63 + 0x100800))).setBytes 0x100800 (leBytes 8 (2 ^ 63 + 0x101000))).setBytes 0x101000
      (leBytes 8 (2 ^ 63 + (if twin then 2 ^ 61 + 2 ^ 62 else 0) + 0x102000))).setBytes 0x102000 (leBytes 8 leaf.toNat) }.modPart 0
    fun p => { p with cfg := { p.cfg with ranges := ⟨true, false, 256, 16⟩ :: p.cfg.ranges.drop 1 } }
def publishing : State := (tables true openLeaf).modDev fun d => d.modSlot 0 0 fun t => t.setX 1 0x40
/-- The directory entry that `publish` finds, with the device after that walk, and the device after the toggle and the shootdown. -/
def pubEntry : Except EStop (Option (Nat × Word) × Dev) := twinEntry 0 0x40 publishing.dev
def toggled : Bool := okAnd pubEntry fun p => match p.1 with
  | some (at_, c) => okAnd (publishNow 0 at_ c 0x40 p.2.stamp) fun q => q.2.publishDone 0 0x40 p.2.accSeq (backEntry c) publishing.host.chosenBacks
  | none => false
theorem witness_publish : Ready { rx := [1], rs := [1] } publishing ∧ publishing.dev.th.wait = .none
    ∧ segCheck (publishing.dev.th.seg 1) (publishing.dev.x 1) 1 { p := true, l0 := true } = .ok 0x40 := by unfold Ready; decide +kernel
theorem witness_publish_entry : okAnd pubEntry (fun p => p.1.any (·.1 == 0x101000) && decide (p.2.th = publishing.dev.th) && p.2.cur == publishing.dev.cur
    && p.2.th.acqPid == [] && p.2.th.relMark == none && p.2.gateOpen (p.2.gateWaiting .pkg)) = true := by decide +kernel
theorem witness_publish_homes : okAnd pubEntry (fun p => p.2.regs.isEmpty && p.2.homeQ.isEmpty && p.2.leases.isEmpty && p.2.poison.isEmpty
    && p.2.lostRegs.isEmpty && p.2.mem.wf && p.2.cores.all (·.2.uoc.isEmpty)) = true := by decide +kernel
theorem witness_publish_done : toggled = true := by decide +kernel
/-- A descriptor of one task of one thread at GVA 0x80, with the entry at an instruction slot; X[1] names it, and X[2] is -1. -/
def descAt (bytes : Nat) : State := (xs 0x80 (-1)).modDev fun d =>
  { d with mem := Mem.setBytes [] 0x80 (leBytes 64 bytes) }.modPart 0 fun p => { p with st := .resident }
/-- ENTRY 4, TASKS 1, THREADS 1, SCRATCH 1 (R87). -/
def goodDesc : Nat := 4 + 2 ^ 32 + 2 ^ 192 + 2 ^ 200
theorem witness_spawn : Ready { rx := [1, 2], wx := [3] } (descAt goodDesc) ∧ uv ((descAt goodDesc).dev.x 1) % 64 = 0
    ∧ (descAt goodDesc).dev.th.acqPid = [] := by unfold Ready; decide +kernel
theorem witness_spawn_read (n : Nat) (h : n = goodDesc ∨ n = 0) :
    okAnd ((descAt n).dev.readDesc 0x80) (fun r => r.1 == BitVec.ofNat 512 n && decide (r.2.th = (descAt n).dev.th) && r.2.cur == (descAt n).dev.cur
      && decide (r.2.parts = (descAt n).dev.parts) && decide (r.2.segRecords 0 < 1024)) = true := by rcases h with rfl | rfl <;> decide +kernel
theorem witness_spawn_checks : let s := descAt goodDesc
    s.dev.tpart.checkDesc (BitVec.ofNat 512 goodDesc) false = none ∧ s.dev.x 2 = BitVec.allOnes 64 ∧ (parseDesc (BitVec.ofNat 512 goodDesc)).segtab = 0
      ∧ s.dev.th.relMark = none ∧ s.dev.tpart.cfg.det = false ∧ s.dev.tpart.freeGroup = some 1
      ∧ s.dev.tpart.checkDesc 0 false = some 2 ∧ uv ((xs 0x81 0).dev.x 1) % 64 ≠ 0 := by decide +kernel
/-- A descriptor whose start block at GVA 0x10000, of zeros, lies in a page with or without READ, which the thread has just walked; X[2] is `b`. -/
def blockAt (r : Bool) (b : Word) : State := (descAt (goodDesc + 2 ^ 64 * 0x10000)).modDev fun d => (d.modSlot 0 0 fun s =>
  { s.setX 2 b with fresh := some (1, false, false) }).modCore 0 fun c => { c with
    tlb := c.tlb ++ [⟨0, 1, false, false, openLeaf ^^^ BitVec.ofNat 64 (0x10000 + if r then 0 else 2 ^ 59), 0, false⟩] }
theorem witness_spawn_block : okAnd ((blockAt true 1).dev.tryPeek 0x10000 256) (fun p => p.1 == some 0 && decide (p.2.th = (blockAt true 1).dev.th)
      && decide (p.2.parts = (blockAt true 1).dev.parts) && decide (p.2.segRecords 0 < 1024) && p.2.launchRoom 0 1 && p.2.cur == (0, 0)) = true
    ∧ okAnd ((blockAt false 1).dev.tryPeek 0x10000 256) (fun p => p.1.isNone) = true ∧ blockLocal 0 = none ∧ blockBad 0 1 = false
    ∧ (blockAt true 1).dev.tpart.route 1 1 = some (some 1) ∧ (blockAt true 4).dev.tpart.route 4 1 = none ∧ (blockAt true 1).dev.tpart.route (-1) 1 = some none
    ∧ blockBad (2 ^ 2047) 1 = true := by decide +kernel
/-- R287, R102: a start block that cannot be read; one of zeros, with rank 1 as target; a rank outside the partition. -/
theorem test_spawn_block : nextIs (.spawn 3 1 2) (blockAt false 1) (fun t => t.dev.x 3 == 0x8000000000000005 && t.dev.net == []) = true
    ∧ nextIs (.spawn 3 1 2) (blockAt true 1) (fun t => t.dev.x 3 == 1 && t.dev.net.map (·.2.msg) == [.launch 0 1 1]) = true
    ∧ nextIs (.spawn 3 1 2) (blockAt true 4) (fun t => t.dev.x 3 == 0x8000000000000002 && t.dev.net == []) = true := by decide +kernel
/-- Two threads of the task, or one, which has X[1] = `a`. -/
def ending (n : Nat) (a : Word) : State := (xs a 0).modDev fun d => d.modCore 0 fun c =>
  { c with tasks := c.tasks.map fun t => { t with slots := List.range n } }
theorem witness_exit : Ready { rx := [1], wx := [3] } (ending 2 0) ∧ (ending 2 0).dev.th.guest = false ∧ (ending 2 0).dev.th.pend = []
    ∧ (ending 2 0).dev.th.lease = none ∧ ((ending 2 0).dev.task 0 0).any (fun t => decide (1 < t.slots.length)) = true
    ∧ (ending 2 0).dev.th.claimed = none ∧ (ending 2 0).dev.th.heldBuf = none ∧ (th fun t => { t with pend := [pendOne] }).dev.th.pend ≠ []
    ∧ ((ending 1 0x41).dev.task 0 0).any (fun t => decide (t.slots.length ≤ 1)) = true ∧ uv ((ending 1 0x41).dev.x 1) % 64 ≠ 0 := by
  unfold Ready; decide +kernel
/-- Partition 0 on 8 cores, with an empty guest slot on core 4; the home of line `l` is the quad of X[1] = 128 * `l`. -/
def roaming (l : Nat) : State := (xs (BitVec.ofNat 64 (128 * l)) 0).modDev fun d => (d.modPart 0 fun p => { p with cfg := { p.cfg with hlen := 8 } }).modCore 4
  fun c => { c with part := some 0, tasks := [⟨0, 0, 0, 0, { taskDesc with guests := 1 }, 0, 4, [], [], [5], [], 0, false, [], []⟩]
                    slots := vset c.slots 5 { c.slot 5 with isGuestSlot := true } }
/-- How `migrate` translates. -/
def roamAccess (s : State) : Access := { read := true, user := !s.dev.th.mode, twinOk := true, remoteOk := true }
theorem witness_migrate : Ready { rx := [1], wx := [3] } (roaming 1) ∧ (roaming 1).dev.th.pend = [] ∧ (roaming 1).dev.th.lease = none ∧ (roaming 1).dev.th.guest = false
    ∧ (roaming 1).dev.translate (roamAccess (roaming 1)) 128 = .ok ⟨128, openLeaf, false, false, 128, false⟩
    ∧ (roaming 0).dev.translate (roamAccess (roaming 0)) 0 = .ok ⟨0, openLeaf, false, false, 0, false⟩
    ∧ homeSlice openLeaf 0 = 0 ∧ homeSlice openLeaf 128 = 1 ∧ (roaming 1).dev.cur.1 / 4 = 0 ∧ (roaming 1).dev.th.uact = false
    ∧ (roaming 1).dev.guestRanks 0 1 = [4] ∧ (th fun s => { s with uact := true }).dev.th.uact = true := by unfold Ready; decide +kernel
/-- The thread is a guest on core 0, whose home is slot 3 of core 4; its task has `n` threads. -/
def visiting (l n : Nat) : State := (roaming l).modDev fun d => (d.modSlot 0 0 fun s => { s with guest := true, isGuestSlot := true, hrank := 4, hslot := 3 }).modCore 4
  fun c => { c with tasks := c.tasks.map fun t => { t with slots := (List.range n).map (3 + ·) }, slots := vset c.slots 3 { c.slot 3 with away := true } }
theorem witness_visiting : Ready { rx := [1], wx := [3] } (visiting 1 2) ∧ (visiting 1 2).dev.th.pend = [] ∧ (visiting 1 2).dev.th.lease = none
    ∧ (visiting 1 2).dev.th.guest = true ∧ (visiting 1 2).dev.homeSaved 0 0 = false ∧ (visiting 1 2).dev.homeOf 0 0 = (4, 3)
    ∧ ((visiting 1 2).dev.task 0 0).any (fun t => decide (1 < t.slots.length)) = true ∧ ((visiting 1 2).dev.slot 4 3).claimed = none
    ∧ ((visiting 1 2).dev.slot 4 3).heldBuf = none ∧ (visiting 1 2).dev.curCore.hostTask 0 = none := by unfold Ready; decide +kernel
theorem witness_visiting_moves : (visiting 1 2).dev.translate (roamAccess (visiting 1 2)) 128 = .ok ⟨128, openLeaf, false, false, 128, false⟩
    ∧ homeSlice openLeaf 128 = 4 / 4 ∧ Released (visiting 1 2) .pkg ∧ homeSlice openLeaf 0 ≠ 4 / 4 ∧ homeSlice openLeaf 0 = 0 / 4
    ∧ homeSlice openLeaf 256 = 2 ∧ (roaming 2).dev.guestRanks 0 2 = []
    ∧ ((visiting 1 2).modDev fun d => d.modPart 0 fun p => { p with ctx := [(4, ⟨Core.reset, 0, []⟩)] }).dev.homeSaved 0 0 = true := by
  unfold Released; decide +kernel
/-- R288, R290: a guest that ends frees both its slots; one whose address has its home quad as home leaves for its home slot. -/
theorem test_guest : nextIs (.exit 3 1) (visiting 1 2) (fun t => !t.dev.th.occ && !(t.dev.slot 4 3).away && (t.dev.core 4).tasks.map (·.slots) == [[4]]) = true
    ∧ nextIs (.migrate 3 1) (visiting 1 2) (fun t => t.dev.th.wait == .migrate && t.dev.net.any fun m => match m.2.msg with
      | .frame 0 4 f => f.home
      | _ => false) = true
    ∧ nextIs (.migrate 3 1) (visiting 0 2) (fun t => t.dev.x 3 == 0 && t.dev.net == []) = true
    ∧ nextIs (.migrate 3 1) (roaming 2) (fun t => t.dev.x 3 == 1 && t.dev.net == []) = true := by decide +kernel
theorem witness_migrate_released : Released (roaming 1) .pkg ∧ (roaming 1).dev.th.parityHit frameUse = false ∧ (visiting 1 2).dev.th.parityHit frameUse = false ∧ leasing.dev.th.pend = [] ∧ leasing.dev.th.lease = some ⟨0, true, 0, 1, 1, []⟩ := by
  unfold Released; decide +kernel

/-- 64 barriers of scope `sc` are open in the instance of core 0. -/
def crowded (sc : Nat) : State := (barred 0).modDev fun d => { d with bars := (List.range 64).map fun i => ⟨⟨0, 100 + i, sc, 0⟩, 0, 2, 1⟩ }
theorem witness_crowded : ((crowded 0).dev.barrier ⟨0, 2, 0, 0⟩).arrived = 0 ∧ 64 ≤ (crowded 0).dev.openBars ⟨0, 2, 0, 0⟩ ∧ Released (crowded 0) .cr
    ∧ ((crowded 4).dev.barrier ⟨0, 2, 4, 0⟩).arrived = 0 ∧ 64 ≤ (crowded 4).dev.openBars ⟨0, 2, 4, 0⟩ := by unfold Released; decide +kernel
/-- R284: the first of two arrivals waits; the second opens the next phase. An arrival from another module counts. -/
theorem test_barrier : nextIs (.barCr 1 2) (barred 0) (fun t => t.dev.th.wait == .bar ⟨0, 2, 0, 0⟩ 3 && t.dev.bars.map (·.arrived) == [1]) = true
    ∧ nextIs (.barCr 1 2) (barred 1) (fun t => t.dev.th.pc == 8 && t.dev.bars.map (fun b => (b.phase, b.arrived)) == [(4, 0)]) = true
    ∧ nextIs .podBarrierArrival (st 0 2 2) (fun t => t.dev.bars == [⟨⟨0, 2, 4, 0⟩, 0, 2, 1⟩]) = true
    ∧ nextIs (.barCr 1 2) (crowded 0) (fun t => t.dev.th.wait == .barOpen ⟨0, 2, 0, 0⟩ && t.dev.bars.length == 64) = true := by decide +kernel
/-- R285, R142: `mbxadd` sends one increment; a rank outside the partition is rejected; `mbxrd` reads a counter. -/
theorem test_mailbox : nextIs (.mbxadd 3 1 2) (xs 0x5001 7) (fun t => t.dev.net.map (·.2.msg) == [.incr 0 1 5 7 (0, 0)] && t.dev.x 3 == 0) = true
    ∧ nextIs (.mbxadd 3 1 2) (xs 4 7) (fun t => t.dev.x 3 == 0x8000000000000002 && t.dev.net == []) = true
    ∧ nextIs (.mbxrd 3 1) ((xs 5 0).modDev fun d => d.modCore 0 fun c => { c with counters := vset c.counters 5 9 }) (fun t => t.dev.x 3 == 9) = true := by
  decide +kernel
/-- R376: `wfi` for 5 cycles from cycle 0, and its end; R289: `yield` holds the slot for 16 cycles after this one. -/
theorem test_waits : nextIs (.wfi 1) (sup fun s => s.setX 1 5) (fun t => t.dev.th.wait == .wfi 5 && t.dev.th.pc == 4) = true
    ∧ nextIs .wfiTimeout (resting (.wfi 20)) (fun t => t.dev.th.wait == .none && t.dev.th.pc == 8) = true
    ∧ nextIs .yield base (fun t => t.dev.th.yieldUntil == 17 && t.dev.th.pc == 8) = true := by decide +kernel
/-- R378, R380: `tlbinv` drops the page's translation; `cinval` drops the L1 copy. -/
theorem test_system : nextIs (.tlbinv 1 2) (sup id) (fun t => t.dev.curCore.tlb == [] && t.dev.th.pc == 8) = true
    ∧ nextIs (.cinval 1 1 2) kernel (fun t => t.dev.curCore.l1d == [] && t.dev.th.pc == 8) = true := by decide +kernel
/-- R91, R287: `spawn` of a good descriptor returns the lowest free id; of one with no task, INVALID_FIELD. -/
theorem test_spawn : nextIs (.spawn 3 1 2) (descAt goodDesc) (fun t => t.dev.x 3 == 1 && (t.dev.part 0).queues == [(0, [1])]) = true
    ∧ nextIs (.spawn 3 1 2) (descAt 0) (fun t => t.dev.x 3 == 0x8000000000000002 && (t.dev.part 0).queues == []) = true := by decide +kernel
/-- R288, R105: the exit of one of two threads; a misaligned successor. R290: `migrate` to the own quad, and to quad 1. -/
theorem test_exit_migrate : nextIs (.exit 3 1) (ending 2 0) (fun t => !t.dev.th.occ && t.dev.curCore.tasks.map (·.slots) == [[1]]) = true
    ∧ nextIs (.exit 3 1) (ending 1 0x41) (fun t => t.dev.x 3 == 0x8000000000000002) = true
    ∧ nextIs (.migrate 3 1) (roaming 0) (fun t => t.dev.x 3 == 0 && t.dev.th.pc == 8) = true
    ∧ nextIs (.migrate 3 1) (roaming 1) (fun t => t.dev.th.wait == .migrate && t.dev.net.map (fun m => match m.2.msg with
        | .frame 0 4 f => f.pc == 8 && !f.home
        | .frame _ _ _ | .launch _ _ _ | .incr _ _ _ _ _ => false) == [true]) = true := by decide +kernel

/-! ### Vector instructions (R293-R312) -/

/-- A register of elements of `z` bytes, the first ones as listed. -/
def vlanes (z : Nat) (l : List Nat) : VWordReg := BitVec.ofNat 512 (l.foldr (fun e acc => e % 256 ^ z + 256 ^ z * acc) 0)
/-- V[1], V[2], V[3] and P[1] of the thread; X[1] = 0x40, X[2] = 2. -/
def vec (a b c : VWordReg) (p : Word) : State := th fun s => ((((s.setV 1 a).setV 2 b).setV 3 c).setP 1 p).setX 1 0x40 |>.setX 2 2
/-- Offsets 0 and 8 in lanes 0 and 1 of V[2], and data in V[1]; P[1] selects both lanes. -/
def pick : State := vec (vlanes 8 [5, 6]) (vlanes 8 [0, 8]) 0 3

theorem witness_vector : Ready { rx := [1], rv := [1, 2, 3], wv := [3], rp := [1] } pick ∧ isFloatTy .bf16 = true ∧ isFloatTy .i8 = false
    ∧ Ready { rx := [2], rv := [1], wx := [3] } pick ∧ (31 : RegNo) ≠ 3 := by unfold Ready; decide +kernel
theorem witness_lanes_local : LanesLocal pick 2 8 (stepLanes 0x40 (fun l => word (l * 8)) 2) { r := true } (loadAccess pick) [(0, 0x40), (1, 0x48)]
    ∧ LanesLocal pick 2 8 (pickLanes 0x40 (lane (pick.dev.v 2) 8) 8 (active pick 1)) { r := true } (loadAccess pick) [(0, 0x40), (1, 0x48)]
    ∧ LanesLocal pick 2 8 (pickLanes 0x40 (lane (pick.dev.v 2) 8) 8 (active pick 1)) { w := true } (storeAccess pick) [(0, 0x40), (1, 0x48)]
    ∧ pick.dev.th.relMark = none ∧ pick.dev.curCore.wb.length ≤ 32 := by unfold LanesLocal; decide +kernel
theorem witness_lanes_global : let ts := [(0, tr40), (1, { tr40 with pa := 0x48, gva := 0x48 })]
    LanesGlobal pick 1 8 (pickLanes 0x40 (lane (pick.dev.v 2) 8) 8 (active pick 1)) { r := true } (loadAccess pick) ts
    ∧ LanesGlobal pick 1 8 (pickLanes 0x40 (lane (pick.dev.v 2) 8) 8 (active pick 1)) { w := true } (storeAccess pick) ts
    ∧ (∀ p ∈ ts, p.2.remote = false) ∧ pick.dev.wbRoom (ts.map fun p => ⟨p.2, 8, p.1, true⟩) = true := by unfold LanesGlobal; decide +kernel

/-- V[`r`] of the next state has these first elements of `z` bytes. -/
def vIs (r : RegNo) (z : Nat) (l : List Nat) (t : State) : Bool := (List.range l.length).map (fun i => vlane (t.dev.v r) z i) == l
def ones : State := vec (vlanes 4 [0x3F800000, 0x3F800000]) (vlanes 4 [0x40000000, 0x40000000]) (vlanes 4 [0x40400000, 7]) 1
def bytesOps : State := vec (vlanes 1 [0xFF, 3]) (vlanes 1 [2, 9]) (vlanes 1 [0, 7]) 1

/-- R294-R297 on lane 0 of FP32 1.0, 2.0 and 3.0, with lane 1 inactive: 1 + 2 = 3, 1 - 2 = -1, 1 * 2 = 2, 1 * 2 + 3 = 5, -(1 * 2) + 3 = 1, 1 / 2 = 0.5. -/
theorem test_vfloat : nextIs (.vfadd .f32 3 1 2 1) ones (vIs 3 4 [0x40400000, 7]) = true ∧ nextIs (.vfsub .f32 3 1 2 1) ones (vIs 3 4 [0xBF800000, 7]) = true
    ∧ nextIs (.vfmul .f32 3 1 2 1) ones (vIs 3 4 [0x40000000, 7]) = true ∧ nextIs (.vfma .f32 3 1 2 1) ones (vIs 3 4 [0x40A00000, 7]) = true
    ∧ nextIs (.vfnma .f32 3 1 2 1) ones (vIs 3 4 [0x3F800000, 7]) = true ∧ nextIs (.vfdiv .f32 3 1 2 1) ones (vIs 3 4 [0x3F000000, 7]) = true
    ∧ nextIs (.vfmin .f32 3 1 2 1) ones (vIs 3 4 [0x3F800000, 7]) = true ∧ nextIs (.vfmax .f32 3 1 2 1) ones (vIs 3 4 [0x40000000, 7]) = true
    ∧ nextIs (.vfsqrt .f32 3 1 1) ones (vIs 3 4 [0x3F800000, 7]) = true ∧ nextIs (.vfrcp .f32 3 2 1) ones (vIs 3 4 [0x3F000000, 7]) = true
    ∧ nextIs (.vfexp2 .f32 3 2 1) ones (vIs 3 4 [0x40800000, 7]) = true := by decide +kernel
/-- R298 on bytes: -1 and 2, with lane 1 inactive. -/
theorem test_vint : nextIs (.viadd .i8 3 1 2 1) bytesOps (vIs 3 1 [1, 7]) = true ∧ nextIs (.visub .i8 3 1 2 1) bytesOps (vIs 3 1 [0xFD, 7]) = true
    ∧ nextIs (.vimul .i8 3 1 2 1) bytesOps (vIs 3 1 [0xFE, 7]) = true ∧ nextIs (.vimin .i8 3 1 2 1) bytesOps (vIs 3 1 [0xFF, 7]) = true
    ∧ nextIs (.vimax .i8 3 1 2 1) bytesOps (vIs 3 1 [2, 7]) = true ∧ nextIs (.vand .i8 3 1 2 1) bytesOps (vIs 3 1 [2, 7]) = true
    ∧ nextIs (.vor .i8 3 1 2 1) bytesOps (vIs 3 1 [0xFF, 7]) = true ∧ nextIs (.vxor .i8 3 1 2 1) bytesOps (vIs 3 1 [0xFD, 7]) = true
    ∧ nextIs (.vsll .i8 3 1 2 1) bytesOps (vIs 3 1 [0xFC, 7]) = true ∧ nextIs (.vsrl .i8 3 1 2 1) bytesOps (vIs 3 1 [0x3F, 7]) = true
    ∧ nextIs (.vsra .i8 3 1 2 1) bytesOps (vIs 3 1 [0xFF, 7]) = true
    ∧ nextIs (.viadd .f32 3 1 2 1) bytesOps (fun t => t.dev.th.scause == Cause.illegal.code) = true := by decide +kernel
/-- R299-R301: -1 < 2 on bytes; the select and the permutation take V[2] of inactive lanes, and lane 9 mod 64; predicates; slides by 2. -/
theorem test_vmoves : nextIs (.vcmplt .i8 2 1 2 1) bytesOps (fun t => t.dev.p 2 == 1) = true
    ∧ nextIs (.vcmpeq .i8 2 1 2 1) bytesOps (fun t => t.dev.p 2 == 0) = true ∧ nextIs (.vcmple .f32 2 1 2 1) ones (fun t => t.dev.p 2 == 1) = true
    ∧ nextIs (.vsel .i8 3 1 2 1) bytesOps (vIs 3 1 [0xFF, 9]) = true ∧ nextIs (.vperm .i8 3 1 2 1) bytesOps (vIs 3 1 [0, 7]) = true
    ∧ nextIs (.pand 2 1 0) bytesOps (fun t => t.dev.p 2 == 1) = true ∧ nextIs (.pnot 2 1) bytesOps (fun t => t.dev.p 2 == -2) = true
    ∧ nextIs (.por 2 1 0) bytesOps (fun t => t.dev.p 2 == -1) = true ∧ nextIs (.pxor 2 1 0) bytesOps (fun t => t.dev.p 2 == -2) = true
    ∧ nextIs (.ppop 3 1) bytesOps (fun t => t.dev.x 3 == 1) = true ∧ nextIs (.vbcast .i8 3 2 1) bytesOps (vIs 3 1 [2, 7]) = true
    ∧ nextIs (.vext .i8 3 1 0) bytesOps (fun t => t.dev.x 3 == -1) = true
    ∧ nextIs (.vslide .i8 3 1 2 0) bytesOps (vIs 3 1 [0, 0, 0xFF, 3]) = true := by decide +kernel
/-- R302-R304: 1.0 to 1 and 1 to 1.0; 1.0 is 0x38 in E4M3 and 0x3C in E5M2; sums and extremes of the active lanes. -/
theorem test_vconvert : nextIs (.vcvt .i32 .f32 3 1 1) ones (vIs 3 4 [1, 7]) = true ∧ nextIs (.vcvt .f32 .i32 3 3 0) ones (vIs 3 4 [0x4E808000, 0x40E00000]) = true
    ∧ nextIs (.vcvtE4m3F32 3 1 0) ones (vIs 3 1 [0x38, 0x38, 0]) = true ∧ nextIs (.vcvtE5m2F32 3 1 0) ones (vIs 3 1 [0x3C, 0x3C, 0]) = true
    ∧ nextIs (.vcvtF32E4m3 3 1 0) (vec 0x38 0 0 1) (vIs 3 4 [0x3F800000, 0]) = true
    ∧ nextIs (.vcvtF32E5m2 3 1 0) (vec 0x3C 0 0 1) (vIs 3 4 [0x3F800000, 0]) = true
    ∧ nextIs (.vredsum .i8 3 1 0) bytesOps (vIs 3 1 [2, 0]) = true ∧ nextIs (.vredmax .i8 3 1 0) bytesOps (vIs 3 1 [3, 0]) = true
    ∧ nextIs (.vredmin .i8 3 1 0) bytesOps (vIs 3 1 [0xFF, 0]) = true := by decide +kernel
/-- R305-R307: a gather of two local words, a scatter of two, and a store under a mask. -/
theorem test_vmemory :
    nextIs (.vgath64 1 1 1 2 0) pick (fun t => t.dev.th.pend.map (fun p => (p.post, p.need)) == [(.vec 1 8 [0, 1], 0)]) = true
    ∧ nextIs (.vscat64 1 1 1 2) pick (fun t => t.dev.curCore.lmem == [(0x40, 5), (0x48, 6)]) = true
    ∧ nextIs (.vstm 1 1 1 2) pick (fun t => t.dev.curCore.lmem == [(0x40, 5)]) = true
    ∧ nextIs (.vst .i64 1 1 2) pick (fun t => t.dev.curCore.lmem == [(0x40, 5), (0x48, 6)]) = true
    ∧ nextIs (.vsts32 1 1 2 2) (pick.modDev fun d => d.modSlot 0 0 fun s => s.setX 2 16) (fun t => t.dev.curCore.lmem == [(0x40, 5), (0x60, 6)]) = true
    ∧ nextIs (.vgath32 31 1 1 2 0) pick (fun t => t.dev.th.scause == Cause.illegal.code) = true := by decide +kernel
/-- R309-R312: the candidate 2.0 with payload 9 stands before the old entry 1.0; planes of element 0; a tree step; Q4X code 8 beside 3. -/
theorem test_vspecial :
    nextIs (.vtopk 3 1 2 1) (vec (vlanes 4 [0x40000000]) (vlanes 4 [9]) (vlanes 4 [0x3F800000, 5]) 1) (vIs 3 4 [0x40000000, 9, 0x3F800000, 5]) = true
    ∧ nextIs (.vplane 3 1) (vec 0xA 0 0 1) (vIs 3 8 [0, 1, 0, 1, 0, 0, 0, 0]) = true
    ∧ nextIs (.vunplane 3 1) (vec (vlanes 8 [0, 1, 0, 1]) 0 0 1) (vIs 3 8 [0xA, 0, 0]) = true
    ∧ nextIs (.vtree 2 1 2 1) (vec 1 0 0 3) (fun t => t.dev.p 2 == 1) = true
    ∧ nextIs (.vq4xd 3 2 1) (vec (vlanes 8 [2, 2, 0, 1]) 0 0 1) (fun t => vIs 3 1 [3, 0] t && t.dev.p 2 == 1) = true := by decide +kernel

/-! ### Matrix and ladder commands (R126-R128, R134-R137, R313-R337) -/

/-- The thread with MFMT; X[1] = 0x1000, X[2] = 2. -/
def mat (mfmt : Word) : State := (xs 0x1000 2).modDev fun d => d.modSlot 0 0 fun s => { s with mfmt }
theorem witness_matrix : Ready { rx := [1, 2], rs := [2, 1], rcr := sampled } (mat 0x66) ∧ Ready { rx := [2], rs := [1], rcr := sampled } (mat 0x66) ∧ MayQueue (mat 0x66) ∧ mfmtOk (mat 0x66).dev.th.mfmt = true
    ∧ mfmtOk (mat 0x06).dev.th.mfmt = false ∧ ¬uv (mat 0x66).dev.th.mfmt % 16 = 0 ∧ mfmtOk (mat 0).dev.th.mfmt = true
    ∧ Operand128 (mat 0x66) 2 0x1000 2048 { r := true } false ⟨true, 0x1000, 0x1000⟩
    ∧ Operand128 (mat 0x66) 1 0x1000 4096 { r := true } false ⟨false, 0x1000, 0⟩ ∧ Operand128 (mat 0x66) 2 0x1000 4096 { w := true } true ⟨true, 0x1000, 0x1000⟩
    ∧ Operand128 (mat 0x66) 1 0x1000 4096 { w := true, l0 := true } false ⟨false, 0x1000, 0⟩ ∧ (0x1000 : Nat) < 0x80000
    ∧ (mat 0x66).dev.scaleArray (mat 0x66).dev.th.msca = .ok 0 ∧ (mat 0x66).dev.scaleArray (mat 0x66).dev.th.mscb = .ok 0
    ∧ MayUse (mat 0x66) ([4] ++ (MxOpnd.tiles ⟨true, 0x1000, 0x1000⟩ 2048) ++ (MxOpnd.tiles ⟨false, 0x1000, 0⟩ 2048))
    ∧ MayUse (mat 0x66) (pairFor .f64 4 ++ pairFor .f64 (uv ((mat 0x66).dev.x 2) % 64)) ∧ uv ((mat 0x66).dev.x 2) % 64 % 2 = 0 := by
  unfold Ready MayQueue Operand128 MayUse; decide +kernel

/-- The thread has a latched matrix error, with no result outstanding, or with one. -/
def latched (pend : List Pending) : State := th fun s => { s with mxerr := some ⟨.perm, 7⟩, pend }
theorem witness_mfence : Ready {} (latched []) ∧ (latched []).dev.curCore.mxq.any (·.slot == 0) = false ∧ (latched []).dev.firstFailedTile = none
    ∧ (latched []).dev.failedLadders = [] ∧ (latched []).dev.th.mxerr = some ⟨.perm, 7⟩ ∧ (latched [pendOne]).dev.th.pend ≠ []
    ∧ (latched [pendOne]).dev.th.mxerr = some ⟨.perm, 7⟩ ∧ base.dev.th.mxerr = none ∧ (5 : TileNo).toNat % 2 = 1 ∧ Ready { wx := [3] } base := by
  unfold Ready; decide +kernel

/-- The thread of `mat` as a guest. -/
def matGuest : State := guest.modDev fun d => d.modSlot 0 0 fun s => { (s.setX 1 0x1000).setX 2 2 with mfmt := 0x66 }
theorem witness_matrix_guest : Ready { rx := [1, 2], rs := [1, 2], wx := [3], rv := [2, 3, 4, 5], rcr := sampled ++ [0x0B, 0x0C] } matGuest
    ∧ matGuest.dev.th.guest = true ∧ matGuest.dev.curCore.mxq.length < 16 ∧ Operand128 matGuest 2 0x1000 4096 { w := true } true ⟨true, 0x1000, 98304 + 0x1000⟩
    ∧ Operand128 matGuest 1 0x1000 2048 { r := true } false ⟨false, 0x1000, 0⟩ ∧ Operand128 matGuest 1 0x1000 4096 { w := true, l0 := true } false ⟨false, 0x1000, 0⟩ := by
  unfold Ready Operand128; decide +kernel
/-- A command of slot 0. -/
def mxCmd (i : Instr) : MxCmd := ⟨i, 0, 0, 0, 0x66, 0, 0, 0, 0, .loc 0, .loc 0x1000, 1, [], 0, 0, [], none, [], none⟩
/-- Core 0 with that command in its queue, and tile 2 with 5 in its first element; ladder 0 is bound to the descriptor at 0xBF000: one hot rung
of one tile, tile 0, which is empty (n = 0), with its weights at local offset 0. -/
def queued (c : MxCmd) : State := co fun k => { k with
  mxq := [c]
  ladders := [(0, ⟨0, 0xBF000, [63, 0], none⟩)]
  lmem := [(0x82000, 5), (0xBF001, 0x41)] }
theorem witness_head (c : MxCmd) (h : c.slot = 0 ∧ c.faultPage = none) : AtHead (queued c) c :=
  ⟨rfl, ⟨h.2, rfl⟩, by omega, rfl, rfl, rfl,
    (by decide +kernel : ∀ t ∈ (base.dev.core 0).tasks, t.ended = false), rfl⟩
theorem witness_executions : (mxCmd (.mzero 2)).a = .loc 0 ∧ (mxCmd (.mst 2 1 2)).a = .loc 0 ∧ (0 : Nat) + 4096 ≤ 0x80000
    ∧ (mxCmd (.macc .i32 1 1)).slot = 0 ∧ (mxCmd (.mma 2 1 2 2 2)).b = .loc 0x1000 ∧ uv (mxCmd (.mma 2 1 2 2 2)).mfmt % 256 = 0x66
    ∧ (mxCmd (.mma 2 1 2 2 2)).msca.getLsbD 63 = false ∧ (mxCmd (.mma 2 1 2 2 2)).mscb.getLsbD 63 = false := by decide +kernel
/-- 16 commands in the queue; a failed tile. -/
def crammed : State := (mat 0x66).modDev fun d => d.modCore 0 fun c => { c with mxq := List.replicate 16 (mxCmd (.mzero 2)) }
def failedTile : State := (mat 0x66).modDev fun d => d.modCore 0 fun c => { c with tileFail := [(4, ⟨.perm, 9⟩)] }
theorem witness_matrix_waits : 16 ≤ crammed.dev.curCore.mxq.length ∧ crammed.dev.cur.2 < 16 ∧ failedTile.dev.firstFailedTile = some ⟨.perm, 9⟩
    ∧ failedTile.dev.curCore.mxq.any (·.slot == 0) = false := by decide +kernel
/-- A command of 4,096 global bytes at GVA 0x1000, in a twin region whose back copy lies at PA 0x200000, with every tile 0. -/
def tileGlobal (i : Instr) : State := (tables true (openLeaf ||| 0x400000)).modDev fun d => ({ d with
    mem := d.mem.setBytes 0x102008 (leBytes 8 (openLeaf ||| 0x200000).toNat) }.modPart 0 fun p => { p with st := .resident }).modCore 0 fun k =>
  { k with mxq := [{ mxCmd i with a := .glob 0x1000 }], lmem := [] }
theorem witness_tileGlobal_reads : okAnd (mxRead 0 { mxCmd (.mld 2 1 1) with a := .glob 0x1000 } (.glob 0x1000) 4096 (tileGlobal (.mld 2 1 1)).dev) (fun r =>
    decide (r.2.cores = (tileGlobal (.mld 2 1 1)).dev.cores)) = true := by decide +kernel
theorem witness_tileGlobal_stores : okAnd (engRange 0 0 { write := true, twinOk := true, twinOnly := true } 0x1000 4096 (tileGlobal (.mstg 2 1 1)).dev) (fun r =>
    decide (r.2.cores = (tileGlobal (.mstg 2 1 1)).dev.cores) && okAnd (engWritePieces 0 0 r.1 r.2) fun q => decide (q.2.cores = r.2.cores)) = true := by
  decide +kernel
/-- The descriptor of the tests. -/
def rungs : LDesc := ⟨0, 0, 1, 1, 0, 0, 0, 0, false, true⟩
theorem witness_ladder_head (i : Instr) (xval : Word) : aget? ((queued { mxCmd i with xval }).dev.core 0).ladders 0 = some ⟨0, 0xBF000, [63, 0], none⟩
    ∧ ((queued { mxCmd i with xval }).dev.core 0).ldescAt 0xBF000 = rungs := ⟨rfl, by
  have : ((queued { mxCmd i with xval }).dev.core 0).lmem = [(0x82000, 5), (0xBF001, 0x41)] := rfl
  unfold Core.ldescAt; rw [this]; decide +kernel⟩
theorem witness_ladder_bounds : 0x80000 ≤ 0xBF000 ∧ 0xBF000 + 32 ≤ 0xC0000 ∧ rungs.base + rungs.u * rungs.hot ≤ 64
    ∧ 0x80000 + 4096 * (rungs.base + rungs.u * rungs.hot) ≤ 0xBF000 ∧ rungs.gen = false ∧ rungs.n % 2 = 0 ∧ 0 < rungs.rungs ∧ 0 < rungs.hot
    ∧ uv (0 : Word) < rungs.hot ∧ uv (0 : Word) < rungs.rungs ∧ rungs.u = 1 ∧ rungs.rungs ≤ rungs.hot := by decide +kernel

/-- The same core with an empty queue; `bound` says whether the ladder is bound. -/
def laddered (bound : Bool) : State := (xs 0xBF000 0).modDev fun d => d.modCore 0 fun k => { k with
  ladders := if bound then [(0, ⟨0, 0xBF000, [63, 0], none⟩)] else []
  lmem := [(0x82000, 5), (0xBF001, 0x41)] }
/-- The task of the tests. -/
def task0 : Task := (base.dev.task 0 0).getD ⟨0, 0, 0, 0, taskDesc, 0, 0, [], [], [], [], 0, false, [], []⟩
theorem witness_lcfg : Ready { rx := [1] } (laddered false) ∧ (laddered false).dev.task 0 0 = some task0 ∧ (laddered false).dev.th.guest = false
    ∧ (laddered false).dev.curCore.mxq = [] ∧ aget? (laddered false).dev.curCore.ladders 0 = none ∧ uv ((laddered false).dev.x 1) = 0xBF000
    ∧ 0xBF000 % 32 = 0 ∧ task0.hasTile ((0xBF000 - 0x80000) / 4096) = true ∧ (laddered false).dev.lcfgOk task0 0 0xBF000 = true
    ∧ uv ((laddered true).dev.x 2) = 0 ∧ aget? (laddered true).dev.curCore.ladders 0 = some ⟨0, 0xBF000, [63, 0], none⟩ ∧ task0.id = 0 := by
  unfold Ready; decide +kernel
theorem witness_ladder_bound : Bound (laddered true) 0 task0 ⟨0, 0xBF000, [63, 0], none⟩ rungs ∧ MayQueue (laddered true)
    ∧ Ready { rx := [1, 2], rv := [2, 3, 4, 5], wv := [6, 7] } (laddered true) ∧ (laddered true).dev.curCore.ladderLocked 0 = false
    ∧ (queued { mxCmd (.lclr 0) with lx := some 0 }).dev.curCore.ladderLocked 0 = true
    ∧ uv ((laddered true).dev.x 2) % 128 = 0 ∧ uv ((laddered true).dev.x 2) + 4096 * rungs.u ≤ 32768 * task0.desc.scratch + 32768 * task0.desc.stash
    ∧ rungs.woff + 128 ≤ 32768 * task0.desc.scratch + 32768 * task0.desc.stash ∧ 32768 * task0.base + rungs.woff + 128 ≤ 0x80000
    ∧ (laddered true).dev.curCore.stash = [] ∧ (laddered true).dev.th.acqPid = [] := by unfold Bound MayQueue Ready; decide +kernel
theorem witness_rung_tiles : RungTiles (laddered true) task0 rungs 5 := by unfold RungTiles; decide +kernel

/-- Ladder 0 of core 0 has two hot rungs, with the n of the state, or one, and may have failed; `c` waits on it. -/
def rung (n k : Nat) (fail : Option MxErr) (c : MxCmd) : State := co fun x => { x with
  mxq := [{ c with lx := some 0 }]
  ladders := [(0, ⟨0, 0xBF000, [63, 0], fail⟩)]
  lmem := [(0x80002, 0x80), (0x80003, 0x3F), (0x84003, 0x40), (0xBF001, if k = 1 then 0x41 else 0x82), (0xBF008, BitVec.ofNat 8 n)] }
theorem witness_rungs (k : Nat) (h : k = 1 ∨ k = 2) : ((rung 1 k none (mxCmd (.laddTile 0 4))).dev.core 0).ldescAt 0xBF000 = { rungs with rungs := k, hot := k, n := 1 } := by
  have : ((rung 1 k none (mxCmd (.laddTile 0 4))).dev.core 0).lmem
    = [(0x80002, 0x80), (0x80003, 0x3F), (0x84003, 0x40), (0xBF001, if k = 1 then 0x41 else 0x82), (0xBF008, 1)] := rfl
  unfold Core.ldescAt; rw [this]; rcases h with rfl | rfl <;> decide +kernel
theorem witness_rung_fails : aget? ((rung 1 1 (some ⟨.ladder, 0⟩) (mxCmd (.laddTile 0 4))).dev.core 0).ladders 0 = some ⟨0, 0xBF000, [63, 0], some ⟨.ladder, 0⟩⟩
    ∧ (rung 1 1 (some ⟨.ladder, 0⟩) (mxCmd (.laddTile 0 4))).dev.failedLadders = [(0, ⟨.ladder, 0⟩)]
    ∧ (List.replicate 64 (0 : Word)).length = 64 := by decide +kernel
theorem witness_lread (u : Nat) (h : u = 1 ∨ u = 2 ∨ u = 4) : Ready (lreadUse u 4 8) (laddered true) ∧ (4 : RegNo).toNat % 4 = 0 ∧ (8 : RegNo).toNat % 4 = 0 := by
  rcases h with rfl | rfl | rfl <;> unfold Ready <;> decide +kernel
/-- R331, R337: with one rung, which is occupied, `ladd` fails its ladder. -/
theorem test_rung_fails :
    nextIs .ladderCommandExecute (rung 1 1 none (mxCmd (.laddTile 0 4))) (fun t => (t.dev.core 0).ladders.map (·.2.failed) == [some ⟨.ladder, 0⟩]) = true := by
  decide +kernel
/-- R317, R135, R323: `mzero` locks its tile; an `mma` of formats of two classes is ILLEGAL, and a `macc` of FP64 into an odd tile; `mqstat` counts;
`mfence` raises a latched error once. -/
theorem test_matrix_queue : nextIs (.mzero 4) (mat 0x66) (fun t => t.dev.curCore.mxq.map (fun c => (c.dests, c.mfmt)) == [([4], 0x66)]) = true
    ∧ nextIs (.mma 4 1 1 2 2) (mat 0x06) (fun t => t.dev.th.scause == Cause.illegal.code) = true
    ∧ nextIs (.mma 4 1 1 2 1) (mat 0x66) (fun t => t.dev.curCore.mxq.map (fun c => (c.a, c.b)) == [(.loc 0x1000, .glob 0x1000)]) = true
    ∧ nextIs (.mqstat 3) (queued (mxCmd (.mzero 2))) (fun t => t.dev.x 3 == 0x101) = true
    ∧ nextIs .mfence (queued (mxCmd (.mzero 2))) (fun t => t.dev.th.wait == .mfence) = true
    ∧ nextIs .mfence (latched []) (fun t => t.dev.th.mxerr == none && t.dev.th.scause == Cause.perm.code && t.dev.th.saddr == 7) = true
    ∧ nextIs (.macc .f64 5 1) (mat 0x66) (fun t => t.dev.th.scause == Cause.illegal.code) = true := by decide +kernel
/-- A command of the sequencer completes. R234: 10 + 2 * (-1) + 3 * 5 = 23, and 2^31 - 1 + 1 clamps with SAT. -/
theorem test_matrix_execution :
    nextIs .matrixCommandExecute (queued { mxCmd (.macc .i32 1 1) with xval := 2 }) (fun t => (t.dev.core 0).mxq == []) = true
    ∧ mmaElem .i32 10 [FVal.ofInt 2, FVal.ofInt 3] [FVal.ofInt (-1), FVal.ofInt 5] (FVal.ofInt 1) (FVal.ofInt 1) = (23, 0)
    ∧ mmaElem .i32 0x7FFFFFFF [FVal.ofInt 1] [FVal.ofInt 1] (FVal.ofInt 1) (FVal.ofInt 1) = (0x7FFFFFFF, fSAT) := by decide +kernel
/-- R328, R329: `lcfg` binds and releases; an unbound ladder raises LADDER; `lclr` enters the queue and locks. -/
theorem test_ladder : nextIs (.lcfg 0 1) (laddered false) (fun t => t.dev.curCore.ladders == [(0, ⟨0, 0xBF000, [63, 0], none⟩)]) = true
    ∧ nextIs (.lcfg 0 2) (laddered true) (fun t => t.dev.curCore.ladders == []) = true
    ∧ nextIs (.lclr 0) (laddered false) (fun t => t.dev.th.scause == Cause.ladder.code) = true
    ∧ nextIs (.lclr 0) (laddered true) (fun t => t.dev.curCore.mxq.map (·.lx) == [some 0]) = true
    ∧ nextIs (.laddTile 0 5) (laddered true) (fun t => t.dev.curCore.mxq.map (·.lx) == [some 0]) = true := by decide +kernel
/-- R237: merging a rung of 1.0 into a carry of 2.0 without a factor gives 3.0; the blend of one rung of one element, 1.0 * (2.0 * 1.0), is 2.0. -/
theorem test_ladder_execution :
    mergeRung 0x3F800000 [0x3F800000] [0x40000000] = ([0x40400000], 0)
    ∧ blendColumn [0x40000000] [0x3F800000] [(0, [0x3F800000])] 0 = (0x40000000, 0) := by decide +kernel

/-! ### Copies, KV gathers, sweeps (R138-R141, R338-R353, R355-R357) -/

/-- A copy of 128 bytes from local offset 0x1000 to 0x2000 on channel 1 with mailbox increment (CMODE 1), in V[1]. -/
def copyV (len cmode : Nat) : VWordReg :=
  BitVec.ofNat 512 (0x1000 + 2 ^ 58 + cmode * 2 ^ 60 + 3 * 2 ^ 62 + 2 ^ 64 * 0x2000 + 2 ^ 128 * len)
/-- The same request in the FIFO. -/
def copyReq (len cmode : Nat) : CopyReq := ⟨0, 0, 0, 1, .loc 0x1000, .loc 0x2000, len, cmode, 0, 0, [], false, 0⟩
theorem witness_cpq : Ready { wx := [3], rv := [1] } (vec (copyV 128 1) 0 0 0) ∧ (vec (copyV 128 1) 0 0 0).dev.curCore.fifo.length < 8
    ∧ (copyFields (copyV 128 1)).invalid 4 = false ∧ (copyFields (copyV 0 1)).invalid 4 = true ∧ (copyFields (copyV 128 1)).srcGlobal = false
    ∧ (vec (copyV 128 1) 0 0 0).dev.copyLocal 0x1000 128 = .ok (.loc 0x1000) ∧ (vec (copyV 128 1) 0 0 0).dev.copyLocal 0x2000 128 = .ok (.loc 0x2000) := by
  unfold Ready; decide +kernel
theorem witness_cpq_global : CopySide base true 1 0x40 128 { r := true, l0 := true } (.glob 0x40) := ⟨by decide +kernel, 0x40, by decide +kernel, rfl⟩
/-- Core 0 with a full FIFO. -/
def full : State := co fun c => { c with fifo := List.replicate 8 (copyReq 128 0) }
theorem witness_cpq_full : 8 ≤ full.dev.curCore.fifo.length ∧ (xs 1 0).dev.curCore.fifo.length < 8 ∧ uv ((xs 1 0).dev.x 1) < 4 ∧ 4 ≤ uv ((xs 4 0).dev.x 1)
    ∧ (xs 1 0).dev.th.relMark = none ∧ Ready { rx := [1], wx := [3] } (xs 1 0) := by unfold Ready; decide +kernel
/-- Channel 1 of core 0 is idle, or runs `u`. -/
def copying (q : CopyReq) (u : Option CopyRun) : State := { co fun c => { c with
    lmem := [(0x1000, 5)]
    fifo := if u.isNone then [q] else []
    chan := match u with
      | some u => [(1, u)]
      | none => [] } with args := { StepArgs.reset with b := 1 } }
/-- One lane of 128 bytes, from GVA 0x10000 to local 0x2000. -/
def kvReq : CopyReq := ⟨0, 0, 0, 1, .loc 0, .loc 0, 0, 0, 0, 0, [(0x10000, 0x2000)], true, 128⟩
theorem witness_copyStart : let s := copying (copyReq 128 1) none
    (s.dev.core 0).saving = false ∧ aget? (s.dev.core 0).chan s.args.b = none ∧ (s.dev.core 0).fifo = [copyReq 128 1] ∧ (copyReq 128 1).ch = s.args.b
      ∧ (copyReq 128 1).kv = false ∧ kvReq.kv = true ∧ kvReq.ch = s.args.b ∧ kvReq.len = 0 ∧ kvReq.lanes = (0x10000, 0x2000) :: []
      ∧ aget? ((copying kvReq (some ⟨kvReq, 0, [], [], none⟩)).dev.core 0).chan 1 = some ⟨kvReq, 0, [], [], none⟩ := by decide +kernel
theorem witness_copyStep : let u : CopyRun := ⟨copyReq 128 2, 0, [], [], none⟩
    let s := copying u.req (some u)
    aget? (s.dev.core 0).chan s.args.b = some u ∧ u.req.ch = s.args.b ∧ (s.dev.core 0).badLmem = [] ∧ s.args.b < 4 ∧ u.done < u.req.len ∧ u.req.len ≤ u.done + min 128 (u.req.len - u.done)
      ∧ (s.dev.core 0).stash = [] ∧ (∀ t ∈ (s.dev.core 0).tasks, t.ended = false) ∧ (s.dev.core 0).lmem.wf = true ∧ u.req.slot < 16
      ∧ 128 < (copyReq 300 0).len := by decide +kernel
/-- Channel 1 moves 128 bytes between `src` and `dst`; quad 0 holds page 0, in a plain page at PA 0, or in a twin region with its back copy at
PA 0x10000. -/
def streaming (twin : Bool) (src dst : Loc) : State :=
  let q := { copyReq 128 0 with src, dst }
  (copying q (some ⟨q, 0, [], [], none⟩)).modDev fun d =>
    { d with mem := [(0x40, 7)] }.setQuad 0 { Quad.reset with tlb := [⟨0, 0, false, twin, openLeaf, if twin then openLeaf ||| 0x10000 else 0, false⟩] }
theorem witness_copyGlobal_source : let s := streaming false (.glob 0x40) (.loc 0x2000)
    Copying s ⟨{ copyReq 128 0 with src := .glob 0x40, dst := .loc 0x2000 }, 0, [], [], none⟩ ∧ (0x40 + 0) % 65536 + 128 ≤ 65536 ∧ AtHomes s.dev
      ∧ EngineMeets s.dev 0 0 { read := true, twinOk := true, remoteOk := true } 0x40 ⟨0, 0, false, false, openLeaf, 0, false⟩ 0x40
      ∧ s.dev.rangeLost 0x40 128 = false ∧ s.dev.rangeHeld 0x40 128 = none := by
  refine ⟨by unfold Copying; decide +kernel, by decide, by constructor <;> decide +kernel, by unfold EngineMeets; decide +kernel, by decide +kernel⟩
theorem witness_copyGlobal_dest : let s := streaming true (.loc 0x1000) (.glob 0x40)
    Copying s ⟨{ copyReq 128 0 with src := .loc 0x1000, dst := .glob 0x40 }, 0, [], [], none⟩ ∧ AtHomes s.dev
      ∧ EngineMeets s.dev 0 0 { write := true, twinOk := true, twinOnly := true } 0x40 ⟨0, 0, false, true, openLeaf, openLeaf ||| 0x10000, false⟩ 0x10040
      ∧ s.dev.rangeLost 0x10040 128 = false ∧ s.dev.rangeHeld 0x10040 128 = none := by
  refine ⟨by unfold Copying; decide +kernel, by constructor <;> decide +kernel, by unfold EngineMeets; decide +kernel, by decide +kernel⟩
theorem witness_copying : let u : CopyRun := ⟨copyReq 128 2, 0, [], [], none⟩
    Copying (copying u.req (some u)) u := by unfold Copying; decide +kernel
/-- Slot 0 with a copy interrupt, or a failed copy request, that waits. -/
def notified (irqs : List (Word × Word)) (faults : List TrapInfo) : State := th fun s => { s with copyIrqs := irqs, copyFaults := faults }
theorem witness_copyInterrupt : let a := (notified [(0x80, 9)] []).dev.slot 0 0
    a.occ = true ∧ a.away = false ∧ a.guest = false ∧ a.wait = Wait.none ∧ a.pend = [] ∧ a.deferred = [] ∧ a.badC = [] ∧ a.copyHold = false ∧ a.uact = false ∧ a.mode = false
      ∧ a.copyFaults = [] ∧ a.copyIrqs = (0x80, 9) :: [] ∧ ((notified [] [⟨.perm, 7⟩]).dev.slot 0 0).copyFaults = ⟨.perm, 7⟩ :: [] := by decide +kernel
/-- One lane: page 1, valid; X[1] asks for local 0x2000 (units of 128) and 128 bytes from offset 0, on channel 1. -/
def gathering : State := vec (BitVec.ofNat 512 (2 ^ 63 + 0x10000)) 0 0 0 |>.modDev fun d => d.modSlot 0 0 fun s => s.setX 1 (BitVec.ofNat 64 (0x40 + 2 ^ 49))
theorem witness_kvgath : let a := uv (gathering.dev.x 1)
    Ready { rx := [1], wx := [3], rv := [1] } gathering ∧ a < 2 ^ 51 ∧ a / 2 ^ 21 % 512 * 128 + (a / 2 ^ 12 % 512 + 1) * 128 ≤ 65536
      ∧ (∀ k < 8, (gathering.dev.v 1).toNat / 2 ^ (64 * k) % 2 ^ 64 / 2 ^ 48 % 2 ^ 15 = 0 ∧ (gathering.dev.v 1).toNat / 2 ^ (64 * k) % 2 ^ 64 % 2 ^ 16 = 0)
      ∧ a / 2 ^ 30 % 2 = 0 ∧ gathering.dev.copyLocal (a % 4096 * 128) (8 * ((a / 2 ^ 12 % 512 + 1) * 128)) = .ok (.loc 0x2000) := by
  unfold Ready; decide +kernel
/-- The guest of `visiting` with V[1] and X[1]. -/
def visitor (v : VWordReg) (a : Word) : State := (visiting 1 2).modDev fun d => d.modSlot 0 0 fun s => (s.setV 1 v).setX 1 a
theorem witness_copies_guest : Ready { rx := [1], wx := [3], rv := [1] } (visitor (copyV 128 1) 1) ∧ (visitor (copyV 128 1) 1).dev.th.guest = true
    ∧ (visitor (copyV 128 1) 1).dev.curCore.fifo.length < 8 ∧ (copyFields (copyV 128 1)).invalid (visitor (copyV 128 1) 1).dev.tpart.cfg.hlen = false
    ∧ okAnd ((visitor (copyV 128 1) 1).dev.copyLocal 0x1000 128) (fun _ => true) = true
    ∧ okAnd ((visitor (gathering.dev.v 1) (gathering.dev.x 1)).dev.copyLocal 0x2000 1024) (fun _ => true) = true := by unfold Ready; decide +kernel
theorem test_copies_guest : nextIs (.cpq 3 1) (visitor (copyV 128 1) 1) (fun t => t.dev.th.scause == Cause.perm.code) = true
    ∧ nextIs (.kvgath 3 1 1) (visitor (gathering.dev.v 1) (gathering.dev.x 1)) (fun t => t.dev.th.scause == Cause.perm.code) = true
    ∧ nextIs (.kvgath 3 1 1) (visitor (gathering.dev.v 1) (-1)) (fun t => t.dev.x 3 == 0x8000000000000002) = true := by decide +kernel
/-- A sequence table at GVA 0x80: one block of one page of tokens (LOG2TPP 0), resident in GVA page 2. -/
def kvTable : State := (xs 0x80 0).modDev fun d => { d with mem := Mem.setBytes [] 0x80 (leBytes 72
  (2 ^ 128 * 1 + 2 ^ 192 * 256 + 2 ^ 512 * (2 ^ 63 + 0x20000))) }
theorem witness_kvlook : Ready { rx := [1, 2], wx := [3], rs := [1] } kvTable ∧ segCheck (kvTable.dev.th.seg 1) (kvTable.dev.x 1) 64 { r := true, l0 := true } = .ok 0x80
    ∧ okAnd (kvLookup (uv (kvTable.dev.x 2)) kvTable.dev 0x80 none 5) (fun r => r.1.val == 0x20000 && r.1.bad.isNone && r.2.cur == kvTable.dev.cur) = true
    ∧ segCheck ((xs 0x40 0).dev.th.seg 1) ((xs 0x40 0).dev.x 1) 64 { r := true, l0 := true } = .ok 0x40 := by unfold Ready; decide +kernel
theorem witness_kvlook_thread : okAnd (kvLookup (uv (kvTable.dev.x 2)) kvTable.dev 0x80 none 5) (fun r => decide (r.2.th = kvTable.dev.th)) = true := by
  decide +kernel
/-- Group 1, and the task of slot 0 in it; `st` is its worker state, `n` its last sweep. -/
def group (st n : Nat) : Group := ⟨1, taskDesc, Vector.replicate 8 0, none, 1, 1, none, none, 0, none, [], st, n⟩
/-- A descriptor of one tile of one byte at GVA 0, and its sweep 1, whose record is ready. -/
def sweepOf (st : SweepState) : Sweep := ⟨1, 0, 1, 0, 0, 0, st, [], true, 1, [], none, [], true, 0, false, []⟩
def working (bufs : List SweepBuf) (y : Group) (ws : List Sweep) (s : State) : State :=
  s.modDev fun d => (d.modPart 0 fun p => { p with st := .resident, groups := [(1, y)], sweeps := ws.map fun w => (w.id, w) }).modCore 0 fun c =>
    { c with tasks := c.tasks.map fun t => { t with group := 1, bufs := bufs } }
/-- The thread names the descriptor of zeros in the CLEAN entry 512; or one with a reserved bit set. -/
def sweeper (bad : Bool) (ys : Bool) : State := (working [] (group 0 0) [] (stashed .clean)).modDev fun d =>
  (d.modPart 0 fun p => { p with groups := if ys then p.groups else [] }).modCore 0 fun c => { c with lmem := if bad then [(0x10007, 0x80)] else [] }
theorem witness_sweep : let s := sweeper false true
    Ready { rx := [1], wx := [3] } s ∧ s.dev.th.guest = false ∧ uv (s.dev.x 1) = 65536 ∧ taskDesc.scratch * 32768 ≤ 65536
      ∧ 65536 + 64 ≤ taskDesc.scratch * 32768 + taskDesc.stash * 32768
      ∧ (group 0 0).id = 1 ∧ aget? s.dev.curCore.stash ((0 * 32768 + 65536) / 128) = some ⟨.clean, 0x100, 2, false, 0, false, 0, 0⟩
      ∧ s.dev.curCore.badLmem = [] ∧ s.dev.stashTrans 65536 (0 * 32768 + 65536) 64 false = .ok () ∧ s.dev.stashReady (0 * 32768 + 65536) 64 = .ok () ∧ (s.dev.task 0 0).any (fun t => t.desc == taskDesc && t.base == 0 && t.group == 1) = true
      ∧ aget? s.dev.tpart.groups 1 = some (group 0 0) ∧ swBad 0 98304 = false ∧ s.dev.liveSweeps < 1024
      ∧ aget? (sweeper false false).dev.tpart.groups 1 = none ∧ swBad (BitVec.ofNat 512 ((sweeper true true).dev.curCore.lmem.nat 65536 64)) 98304 = true := by
  unfold Ready; decide +kernel
theorem witness_sweep_id : Released (sweeper false true) .pkg ∧ (List.range 65535).find? (fun j => ((sweeper false true).dev.tpart.sweepNamed (j + 1)).isNone
    && (aget? (sweeper false true).dev.tpart.sweeps (j + 1)).all (·.settled)) = some 0 := by
  refine ⟨by unfold Released; decide +kernel, ?_⟩
  have h : (sweeper false true).dev.tpart.sweeps = [] := by decide +kernel
  have h2 : List.range 65535 = 0 :: (List.range 65534).map Nat.succ := by rw [List.range_succ_eq_map]
  rw [h2, List.find?_cons_of_pos]; simp [Part.sweepNamed, h, aget?]
/-- The tile is in buffer 0 of the task, delivered, or claimed by slot 0. -/
def holding (claimed : Bool) : State := working [⟨0, 1, 0, 5, if claimed then some 0 else none⟩] (group 1 1)
  [{ sweepOf .live with tiles := [(0, if claimed then .claimed 0 0 else .delivered 0 0 0)] }]
  (th fun s => { s with claimed := if claimed then some (1, 0, 0) else none })
theorem witness_twait : let s := holding false
    Ready { wx := [3], rcr := [0x0B, 0x0C] } s ∧ s.dev.th.guest = false ∧ s.dev.th.claimed = none ∧ s.dev.th.heldBuf = none
      ∧ s.dev.sweepFailure 0 1 = none ∧ s.dev.th.acqPid = [] ∧ (s.dev.task 0 0).bind (·.firstDelivered) = some ⟨0, 1, 0, 5, none⟩
      ∧ s.dev.sweepAt 0 1 = some { sweepOf .live with tiles := [(0, .delivered 0 0 0)] } := by unfold Ready; decide +kernel
theorem witness_twait_none (st : Nat) (h : st = 1 ∨ st = 2) : let s := working [] (group st 1) [] base
    (s.dev.task 0 0).bind (·.firstDelivered) = none ∧ s.dev.sweepFailure 0 1 = none
      ∧ (aget? (s.dev.part 0).groups 1).any (·.sweep == 2) = decide (st = 2) := by rcases h with rfl | rfl <;> decide +kernel
/-- The thread of a group that has a live sweep, or a failed one. -/
def busy : State := working [] (group 1 1) [sweepOf .live] (stashed .clean)
def failedSweep : State := working [] (group 1 1) [{ sweepOf .failed with fail := some ⟨.perm, 7⟩ }] base
theorem witness_sweep_busy : aget? busy.dev.tpart.groups 1 = some (group 1 1) ∧ (group 1 1).sweep = 1 ∧ (busy.dev.sweepAt 0 1).any (·.st == .live) = true
    ∧ Released busy .pkg ∧ failedSweep.dev.sweepFailure 0 1 = some ⟨.perm, 7⟩ ∧ failedSweep.dev.th.claimed = none ∧ failedSweep.dev.th.heldBuf = none
    ∧ Ready { wx := [3], rcr := [0x0B, 0x0C] } failedSweep ∧ (holding true).dev.th.claimed ≠ none := by unfold Released Ready; decide +kernel
/-- R349, R351: a group with a live sweep is BUSY; `twait` raises the cause of a failed sweep. -/
theorem test_sweep_stops : nextIs (.sweep 3 1) busy (fun t => t.dev.x 3 == 0x800000000000000C) = true
    ∧ nextIs (.twait 3 0) failedSweep (fun t => t.dev.th.scause == Cause.perm.code && t.dev.th.saddr == 7) = true
    ∧ nextIs (.twait 3 0) (holding true) (fun t => t.dev.th.scause == Cause.sweep.code) = true := by decide +kernel
theorem witness_tdone : let s := holding true
    Ready { wx := [3] } s ∧ s.dev.th.claimed = some (1, 0, 0) ∧ Released s .pkg ∧ base.dev.th.claimed = none
      ∧ s.dev.sweepAt 0 1 = some { sweepOf .live with tiles := [(0, .claimed 0 0)] } ∧ (sweepOf .live).ready = true := by unfold Ready Released; decide +kernel
theorem witness_sweepNamed : let s := working [] (group 1 1) [sweepOf .live] (xs 1 0)
    s.dev.sweepNamed (s.dev.x 1) = some (sweepOf .live) ∧ s.dev.sweepAt 0 1 = some (sweepOf .live) ∧ (xs 1 0).dev.sweepNamed ((xs 1 0).dev.x 1) = none
      ∧ (working [] (group 1 1) [sweepOf .complete] (xs 1 0)).dev.sweepNamed 1 = some (sweepOf .complete) ∧ (sweepOf .live).allDone = false
      ∧ ({ sweepOf .live with tiles := [(0, .done)] } : Sweep).allDone = true := by decide +kernel
/-- The sweep has its tile pending, its group one worker, and GVA page 0 lies at PA 0x110000. -/
def delivering : State := { working [] (group 1 1) [sweepOf .live] ((tables false (openLeaf ||| 0x110000)).modDev fun d => { d with mem := d.mem.set 0x110000 5 }) with
  args := { StepArgs.reset with b := 1 } }
theorem witness_delivery : let s := delivering
    let w := sweepOf .live
    w.part = s.args.a ∧ w.id = s.args.b ∧ w.ready = true ∧ w.recWait = false ∧ w.recQ = [] ∧ w.solo = true ∧ s.dev.sweepAt s.args.a s.args.b = some w ∧ w.countDone ≠ w.total ∧ (s.dev.part s.args.a).st = .resident ∧ w.pending s.args.c = true ∧ w.held = []
      ∧ okAnd (engTrans w.quad 0 { read := true, twinOk := true } (swFirstElem w.desc 0) s.dev) (fun p =>
        (p.2.overdue (p.2.mangleOf 0 p.1)).isNone && !(p.2.workerBufs w).isEmpty && okAnd (tileRead w (swRows w.desc 0) p.2) fun q =>
          q.1 == 5 && (q.2.nearestBuf w (homeSlice p.1.leaf p.1.pa)) == some (0, 0, 0, 0)
            && okAnd (engLocalWrite 0 (0 + swBuf w.desc + 0 * swBufBytes w.desc) (swBytes w.desc) q.1 0 q.2) fun r => r.2.sweepAt 0 1 == some w) = true := by
  decide +kernel
theorem witness_sweepSplit : let w := { sweepOf .live with solo := false, passed := 65 }
    (working [] (group 1 1) [w] base).dev.sweepAt 0 1 = some w ∧ 64 < w.passed := by decide +kernel

/-- R340, R344: `cpq` enters the FIFO, a length of 0 is INVALID_FIELD, `cpqn` with a full FIFO is BUSY; `cpcancel` takes the task's requests. -/
theorem test_copy_queue :
    nextIs (.cpq 3 1) (vec (copyV 128 1) 0 0 0) (fun t => t.dev.curCore.fifo == [copyReq 128 1] && t.dev.x 3 == 0) = true
    ∧ nextIs (.cpq 3 1) (vec (copyV 0 1) 0 0 0) (fun t => t.dev.x 3 == 0x8000000000000002) = true
    ∧ nextIs (.cpqn 3 1) full (fun t => t.dev.x 3 == 0x800000000000000C) = true
    ∧ nextIs (.cpcancel 3 1) (full.modDev fun d => d.modSlot 0 0 fun s => s.setX 1 1) (fun t => t.dev.x 3 == 8 && t.dev.curCore.fifo == []) = true := by
  decide +kernel
/-- R341, R139: a step moves 128 bytes; the last one ends the request with its interrupt. R141: the upcall's registers. -/
theorem test_copy_step :
    nextIs .copyStep (copying (copyReq 128 2) (some ⟨copyReq 128 2, 0, [], [], none⟩)) (fun t => (t.dev.core 0).lmem.get 0x2000 == 5
      && (t.dev.core 0).chan == [] && (t.dev.slot 0 0).copyIrqs == [(0, 0)] && vget (t.dev.core 0).cpwp 1 0 == 0x2080) = true
    ∧ nextIs .copyStep (streaming false (.glob 0x40) (.loc 0x2000)) (fun t => (t.dev.core 0).lmem.get 0x2000 == 7 && t.dev.mem == [(0x40, 7)]) = true
    ∧ nextIs .copyStep (streaming true (.loc 0x1000) (.glob 0x40)) (fun t => t.dev.mem == [(0x40, 7), (0x10040, 5)] && (t.dev.core 0).chan == []) = true
    ∧ nextIs .copyInterruptEntry (notified [(0x80, 9)] []) (fun t => t.dev.th.pc == 0x80 && t.dev.th.ucause == 0x21 && t.dev.th.uixid == 9) = true
    ∧ nextIs .copyFaultTrap (notified [] [⟨.perm, 7⟩]) (fun t => t.dev.th.scause == Cause.perm.code && t.dev.th.saddr == 7) = true := by decide +kernel
/-- R357, R356: a lane of `kvgath` runs as a copy; `kvlook` finds page 2. -/
theorem test_kv :
    nextIs .kvgathExecute (copying kvReq (some ⟨kvReq, 0, [], [], none⟩))
      (fun t => (aget? (t.dev.core 0).chan 1).any fun u => u.req.src == .glob 0x10000 && u.req.dst == .loc 0x2000 && u.req.len == 128) = true
    ∧ nextIs (.kvgath 3 1 1) gathering (fun t => t.dev.curCore.fifo.map (·.lanes) == [[(0x10000, 0x2000)]] && t.dev.x 3 == 0) = true
    ∧ nextIs (.kvlook 3 1 2 0) kvTable (fun t => t.dev.th.pend.map (·.raw) == [leBytes 8 0x20000]) = true := by decide +kernel
/-- R351, R353: `twait` gives coordinates (0, 0, 0, 0) of the tile in buffer 0; `tdone` of the last tile completes the sweep; `swstat` of
it is state 1 with one tile done; `swcancel`. -/
theorem test_sweep :
    nextIs (.twait 3 0) (holding false) (fun t => t.dev.th.claimed == some (1, 0, 0) && t.dev.th.pend.map (·.post) == [.twait 3 0 0]) = true
    ∧ nextIs (.swcancel 3 1) (working [] (group 1 1) [sweepOf .live] (xs 1 0)) (fun t => t.dev.x 3 == 1 && (t.dev.sweepAt 0 1).any (·.st == .cancelled)) = true
    ∧ nextIs (.swstat 3 1) (working [] (group 1 1) [{ sweepOf .complete with tiles := [(0, .done)] }] (xs 1 0))
      (fun t => t.dev.x 3 == BitVec.ofNat 64 (2 ^ 50 + 1)) = true
    ∧ nextIs .tileDelivery delivering (fun t => (t.dev.sweepAt 0 1).any fun w => w.tiles == [(0, .delivered 0 0 0)]) = true
    ∧ nextIs .tileDelivery delivering (fun t => (t.dev.core 0).lmem.get 0 == 5) = true := by decide +kernel

/-! ### The host: registers, commands, partitions (R41, R60-R73, R76-R78, R83-R86) -/

/-- Queue 0 of a function, enabled, with its completion queue of 16 entries at IOVA 0x1000. -/
def queue0 : Queue := { Queue.reset with sqen := true, cqen := true, cqbase := 0x1000, sqbase := 0x2000 }
def fn1 : Fn := { Fn.reset with en := true, bound := some 0, sup := true, queues := [(0, queue0)], msix := [(0, 0)] }
/-- A ready module whose partition 0 is resident; function `f` has the command of words `w` in queue 0. -/
def hosted (f : Nat) (w : Nat) : State :=
  let s := (tables false (openLeaf ||| 0x110000)).modDev fun d => d.modPart 0 fun p => { p with st := .resident, configured := true }
  { s with
    boot := { s.boot with ready := true }
    host := { s.host with funcs := [(0, { fn1 with bound := none }), (1, fn1)] }
    args := { StepArgs.reset with a := f, cmd := BitVec.ofNat 512 w } }
/-- Command word 0 with CID 5. -/
def cid5 : Nat := 5 * 2 ^ 16

theorem witness_recovery : ({ base with boot := { base.boot with recovery := true } } : State).boot.recovery = true ∧ base.boot.recovery = false := by
  decide +kernel
theorem witness_doorbells : let s := hosted 1 0
    uv (15 : Word) % 2 ^ 32 < (s.queue 1 0).size ∧ (s.queue 1 0).size ≤ uv (16 : Word) % 2 ^ 32 ∧ (s.queue 1 0).heldRecs = [] ∧ (s.queue 1 0).unsent = false
      ∧ (s.fn 1).held = [] ∧ (s.fn 1).pendBind = none ∧ aget? (s.fn 1).msix (s.queue 1 0).vec = some 0
      ∧ ({ fn1 with pendBind := some ⟨some 0, false⟩, en := false } : Fn).pendBind = some ⟨some 0, false⟩ := by decide +kernel
theorem witness_registerWrite : 1 ≤ (hosted 1 0).args.a ∧ (hosted 1 0).args.a ≤ 512 ∧ (hosted 0 0).args.a = 0 ∧ (hosted 1 0).boot.recovery = false
    ∧ (0x1000 : Nat) = 0x1000 + 32 * 0 := by decide +kernel
theorem witness_canReport (f : Nat) (h : f = 0 ∨ f = 1) (w : Nat) : CanReport (hosted f w) f 0 := by
  rcases h with rfl | rfl <;> constructor <;> rfl
theorem witness_vfMay (w : Nat) (fields : List (Nat × Nat × Nat)) (h : cmdReserved (BitVec.ofNat 512 w) fields = false) : VfMay (hosted 1 w) 0 fields :=
  ⟨witness_canReport 1 (.inr rfl) w, Nat.one_ne_zero, rfl, h⟩
theorem witness_pfMay (w : Nat) (fields : List (Nat × Nat × Nat)) (h : cmdReserved (BitVec.ofNat 512 w) fields = false) : PfMay (hosted 0 w) fields :=
  ⟨witness_canReport 0 (.inl rfl) w, rfl, h⟩
theorem witness_fields :
    cmdReserved (BitVec.ofNat 512 (cid5 + 2 ^ 32 + 2 ^ 44)) [(0, 32, 18), (1, 0, 32)] = false ∧ cmdReserved (BitVec.ofNat 512 cid5) [(0, 32, 1), (1, 0, 64), (2, 0, 48), (3, 0, 33)] = false
    ∧ cmdReserved (BitVec.ofNat 512 cid5) [(2, 0, 48), (3, 0, 33), (4, 0, 64)] = false ∧ cmdReserved (BitVec.ofNat 512 cid5) [] = false
    ∧ cmdReserved (BitVec.ofNat 512 cid5) [(0, 32, 15), (1, 0, 48)] = false ∧ cmdReserved (BitVec.ofNat 512 cid5) [(0, 32, 6), (1, 0, 64)] = false
    ∧ cmdReserved (BitVec.ofNat 512 cid5) [(0, 32, 6)] = false ∧ cmdReserved (BitVec.ofNat 512 cid5) [(0, 32, 10), (0, 42, 8)] = false
    ∧ cmdReserved (BitVec.ofNat 512 cid5) [(0, 32, 3), (1, 0, 64)] = false ∧ cmdReserved (BitVec.ofNat 512 cid5) [(0, 32, 1), (1, 0, 48), (2, 0, 46), (3, 0, 32), (4, 0, 64)] = false := by
  decide +kernel
theorem witness_signal : let s := hosted 1 (cid5 + 2 ^ 32 + 2 ^ 44)
    cmdField s 0 32 12 = 1 ∧ cmdField s 0 44 6 = 1 ∧ (s.dev.part 0).cfg.hlen = 4 ∧ cmdField (hosted 1 (4 * 2 ^ 32)) 0 32 12 = 4
      ∧ (vget (s.dev.rankCore 0 1).counters 1 0 - 0).toNat < 2 ^ 31 ∧ ¬(vget (s.dev.rankCore 0 1).counters 1 0 - 1).toNat < 2 ^ 31 := by decide +kernel
/-- Command 3 of function 1 is in execution; it leaves no record when it succeeds. -/
def inFlight (k : CmdKind) : Cmd := ⟨1, 0, 0, 0, 5, false, true, k⟩
def flying (k : CmdKind) : State := { hosted 1 0 with
  host := { (hosted 1 0).host with cmds := [(3, inFlight k)], hostMem := [(0x3000, 7)] }, args := { StepArgs.reset with a := 3 } }
theorem witness_inExecution (k : CmdKind) : InExecution (flying k) 3 (inFlight k) := ⟨rfl, rfl, by constructor <;> rfl⟩
/-- A piece lies at PA 0x110040, in a line that nothing else touches. -/
def plainAt (p : (Machine.Trans × List BackChoice) × Dev) : Bool :=
  p.1.1.pa == 0x110040 && !p.1.1.remote && !p.2.poisoned (0x110040 / 128) && !p.2.lineHeld (0x110040 / 128) && p.2.regs.isEmpty
    && !p.2.hasUoc (0x110040 / 128) && Mem.wf p.2.mem
theorem witness_copyPiece : let s := flying (.copyh true 0x3000 0x40 200 0 [])
    pieceLen 0x40 200 0 = 64 ∧ 0x40 + 0 + 64 ≤ 2 ^ 48 ∧ s.iommuFault 0x3000 64 = false ∧ Mem.wf s.host.hostMem = true
    ∧ okAnd (cmdTrans 0 false 0x40 [] s.dev) plainAt = true
    ∧ okAnd (cmdTrans 0 true 0x40 [] (flying (.fill 0x40 64 0 9 [])).dev) plainAt = true
    ∧ (match cmdTrans 0 true 0x10000 [] (flying (.fill 0x10000 64 0 9 [])).dev with
      | .error (.wait _ _) => true
      | .error (.hold _ _) | .error (.fail _ _) | .error (.poison _ _) | .error (.refused _) | .error (.far _ _ _ _) | .ok _ => false) = true := by
  decide +kernel
/-- A LAUNCH of a descriptor with a start block at GVA 0x100, on function 1. -/
def launching (desc : Nat) : State := { hosted 1 (cid5 + 2 ^ 10) with args := { (hosted 1 (cid5 + 2 ^ 10)).args with desc := BitVec.ofNat 512 desc } }
def hostDesc : Nat := goodDesc + 2 ^ 64 * 0x100
theorem witness_launch : let s := launching hostDesc
    VfMay s 0 [] ∧ s.args.cmd.getLsbD 10 = true ∧ (s.dev.part 0).checkDesc s.args.desc true = none
      ∧ okAnd (launchBlock 0 (parseDesc s.args.desc).segtab s.dev) (fun r => r.1 == 0 && decide (r.2.parts = s.dev.parts)) = true
      ∧ blockBad 0 (parseDesc s.args.desc).scratch = false ∧ (s.dev.part 0).cfg.det = false ∧ (s.dev.part 0).freeGroup = some 1
      ∧ ((launching 0).dev.part 0).checkDesc 0 true = some 2 :=
  ⟨⟨by constructor <;> rfl, by decide, rfl, by decide +kernel⟩, by decide +kernel⟩
theorem witness_launchEnd : let s := (flying (.launch 1)).modDev fun d => { d with ended := [⟨3, 1, 2, []⟩] }
    s.dev.ended = [⟨3, 1, 2, []⟩] ∧ InExecution s 3 (inFlight (.launch 1)) := ⟨rfl, rfl, rfl, by constructor <;> rfl⟩
/-- ROUTINE of entry 2: LEN 3, COMM, at GVA 0x200; the table of the partition stands at PA 0x900000. -/
def registering : State := (hosted 1 (cid5 + 2 * 2 ^ 32 + 3 * 2 ^ 41 + 2 ^ 40 + 2 ^ 64 * 0x200)).modDev fun d => d.modPart 0 fun p =>
  { p with cfg := { p.cfg with rtbase := 0x900000 } }
theorem witness_routine : let s := registering
    VfMay s 0 [(0, 32, 15), (1, 0, 48)] ∧ Supervises s ∧ cmdField s 0 41 6 = 3 ∧ cmdField s 0 40 1 = 1
      ∧ ((s.dev.part 0).cfg.rtbase + 16 * 2) % 16 = 0 ∧ aget? s.dev.regs (0x900020 / 128) = none ∧ s.dev.hasUoc (0x900020 / 128) = false
      ∧ s.dev.lineHeld (0x900020 / 128) = false ∧ s.dev.poisoned (0x900020 / 128) = false ∧ s.dev.mem.wf = true := by
  refine ⟨⟨by constructor <;> rfl, by decide, rfl, by decide +kernel⟩, ⟨rfl, rfl⟩, by decide +kernel⟩
theorem witness_notSupervisor : ¬Supervises { hosted 1 0 with args := { (hosted 1 0).args with b := 1 } } := by unfold Supervises; decide
/-- MAP of page 0 to PA 0x110000. -/
def mapping : State := hosted 1 (cid5 + 2 ^ 128 * 0x110000 + 2 ^ 192 + 2 ^ 256 * (2 ^ 63 + 2 ^ 61))
theorem witness_map : let s := mapping
    cmdReserved s.args.cmd [(0, 32, 1), (1, 0, 48), (2, 0, 46), (3, 0, 32), (4, 0, 64)] = false ∧ cmdField s 3 0 32 = 1
      ∧ (s.args.cmd.extractLsb' 256 64).extractLsb' 46 5 = 0 ∧ (s.args.cmd.extractLsb' 256 64).extractLsb' 0 6 = 0
      ∧ (s.args.cmd.extractLsb' 256 64).extractLsb' 6 10 = 0
      ∧ okAnd (mapEntries 0 false 0 0x110000 (s.args.cmd.extractLsb' 256 64) 1 s.dev) (fun r => r.1.any fun es => es.map (fun e => (e.1, e.2.1)) == [(0, 0x102000)]) = true
      ∧ okAnd (mapEntries 0 false (2 ^ 23) 0x110000 (s.args.cmd.extractLsb' 256 64) 1 s.dev) (fun r => r.1.isNone) = true
      ∧ s.dev.lostLine (0x102000 / 128) = false
      ∧ s.dev.regs = [] ∧ (∀ c ∈ s.dev.cores, c.2.uoc = [] ∧ c.2.wb = []) ∧ s.dev.homeQ = [] ∧ s.dev.leases = [] ∧ s.dev.mem.wf = true := by
  decide +kernel
/-- A MAP of page 0 that waits for the accesses stamped before 1, one of which is a load of page 0. -/
def mapWaits (waits : Bool) : State := { flying (.map 0 1 1) with
  dev := if waits then { (flying (.map 0 1 1)).dev with
    homeQ := [⟨0, 0, 0, 0, 0, 0, 3, 0, 0x180, false, 0, none, .load 0 0 8 0 false, 0, .cr, false, false⟩] } else (flying (.map 0 1 1)).dev }
theorem witness_mapEnd : InExecution (mapWaits true) 3 (inFlight (.map 0 1 1)) ∧ InExecution (mapWaits false) 3 (inFlight (.map 0 1 1)) :=
  ⟨⟨rfl, rfl, by constructor <;> rfl⟩, ⟨rfl, rfl, by constructor <;> rfl⟩⟩
theorem witness_mapEnd_done : (mapWaits true).dev.pagesDone 0 0 1 1 = false ∧ (mapWaits false).dev.pagesDone 0 0 1 1 = true := by decide +kernel

/-- A partition record (R76): 4 cores from rank 0, CEIL 1, weights 4 each, ELOGLOG2 5, one range of PAs 0x100000 to 0xFA00000 with every area in it. -/
def goodPart : Nat :=
  4 * 2 ^ 12 + 2 ^ 32 + 4 * 2 ^ 36 + 4 * 2 ^ 40 + 4 * 2 ^ 44 + 4 * 2 ^ 48 + 2 ^ 128 * 0x900000 + 2 ^ 192 * 0x901000 + 2 ^ 256 * 5
    + 2 ^ 320 * (0x930000 + 2 ^ 46) + 2 ^ 384 * 0x940000 + 2 ^ 448 * 0x910000 + 2 ^ 576 * (2 ^ 63 + 4000 * 2 ^ 30 + 16)
/-- PARTCFG of partition 1, whose record is `r` at IOVA 0x4000. -/
def configuring (r : Nat) (p : Part) : State :=
  let s := hosted 0 (cid5 + 2 ^ 32 + 2 ^ 64 * 0x4000)
  { s with
    dev := { s.dev with parts := aset [] 1 p }
    host := { s.host with hostMem := Mem.setBytes [] 0x4000 (leBytes 256 r) } }
def cfg1 : PartRec := parsePart (BitVec.ofNat 2048 goodPart)
theorem witness_partcfg : let s := configuring goodPart Part.reset
    s.iommuFault 0x4000 256 = false ∧ s.host.hostMem.nat 0x4000 256 = goodPart ∧ (s.dev.part 1).st = .stopped
      ∧ partFieldsBad (BitVec.ofNat 2048 goodPart) = false ∧ s.dev.partOk 1 cfg1 = true ∧ partFieldsBad (BitVec.ofNat 2048 (2 ^ 26)) = true
      ∧ s.dev.partOk 1 (parsePart (BitVec.ofNat 2048 (goodPart + 12 * 2 ^ 32))) = false := by decide +kernel
theorem witness_partcfg_descheduled (c : PartRec) (h : c = cfg1 ∨ c = { cfg1 with hbase := 8 } ∨ c = { cfg1 with leasemax := 64 }) :
    let s := configuring goodPart { Part.reset with st := .descheduled, configured := true, cfg := c }
    (s.dev.part 1).st = .descheduled ∧ s.dev.partOk 1 cfg1 = true
      ∧ (c = { cfg1 with hbase := 8 } → cfg1.hbase ≠ c.hbase ∧ cfg1 = { c with hbase := cfg1.hbase, slotwt := cfg1.slotwt, lpthresh := cfg1.lpthresh })
      ∧ (c = { cfg1 with leasemax := 64 } → { cfg1 with hbase := c.hbase, slotwt := c.slotwt, lpthresh := c.lpthresh } ≠ c) := by
  rcases h with rfl | rfl | rfl <;> decide +kernel
theorem witness_partcfg_refused : ({ configuring goodPart Part.reset with host := { (configuring goodPart Part.reset).host with iommuBad := [(0x4010, 1)] } } : State).iommuFault 0x4000 256 = true
    ∧ ((hosted 0 0).dev.part 0).st = .resident := by decide +kernel
/-- PARTSTART of partition 1. -/
def starting (conf : Bool) : State := (hosted 0 (cid5 + 2 ^ 32)).modDev fun d => { d with parts := aset [] 1 { Part.reset with configured := conf, cfg := cfg1 } }
theorem witness_partstart : let s := starting true
    (s.dev.part 1).configured = true ∧ (s.dev.part 1).started = false ∧ (s.dev.part 1).st = .stopped ∧ aget? s.dev.masks cfg1.maskset = some defaultMasks
      ∧ cmdReserved s.args.cmd [(0, 32, 6)] = false ∧ cmdField s 0 32 6 = 1 ∧ ((starting false).dev.part 1).configured = false := by decide +kernel
theorem witness_partstop : let s := hosted 0 cid5
    (s.dev.part 0).st ≠ .stopped ∧ (∀ c ∈ s.dev.cores, c.2.wb = [] ∧ c.2.uoc = [] ∧ c.2.stash = []) ∧ (s.dev.part 0).sweeps = [] ∧ s.dev.homeQ = [] ∧ (∀ c ∈ s.host.cmds, c.2.part ≠ 0)
      ∧ (inFlight (.fill 0 64 32 0 [])).kind.moved < 2 ^ 64 ∧ (flying (.fill 0 64 32 0 [])).host.cmds = [(3, inFlight (.fill 0 64 32 0 []))] := by decide +kernel
theorem witness_functions : cmdField (hosted 0 (cid5 + 2 ^ 32)) 0 32 10 = 1 ∧ (∀ c ∈ (hosted 0 0).host.cmds, c.2.fn ≠ 1)
    ∧ (∃ c ∈ (flying (.fill 0 64 0 0 [])).host.cmds, c.2.fn = 1) ∧ ((hosted 0 0).fn 1).held = []
    ∧ (hosted 1 0).args.a = 1 ∧ (hosted 0 0).args.a = 0 ∧ ((hosted 0 0).host.funcs.map (·.1)).Nodup := ⟨by decide +kernel, by decide +kernel, ⟨_, List.mem_singleton_self _, rfl⟩, by decide +kernel, rfl, rfl, by decide +kernel⟩
/-- Function 1 is paused and holds an event. -/
def paused : State := { hosted 0 (cid5 + 2 ^ 9 + 2 ^ 32) with
  host := { (hosted 0 0).host with funcs := [(0, { fn1 with bound := none }), (1, { fn1 with paused := true, held := [⟨0, 0, 77⟩], pendvec := 1 })] } }
theorem witness_vfresume : PfMay paused [(0, 32, 10)] ∧ (paused.fn 1).held = [⟨0, 0, 77⟩] ∧ (paused.fn 1).gen = 0 ∧ paused.args.cmd.getLsbD 9 = true
    ∧ (paused.queue 1 0).cqen = true ∧ (paused.queue 1 0).full = false ∧ paused.iommuFault (cqSlot (paused.queue 1 0)) 16 = false :=
  ⟨⟨by constructor <;> rfl, rfl, by decide +kernel⟩, by decide +kernel⟩
/-- MASKSET of set 2, whose ten masks at IOVA 0x5000 have their highest bits at 20 to 29. -/
def masking (w : Nat) : State := { hosted 0 (cid5 + 2 * 2 ^ 32 + 2 ^ 64 * 0x5000) with
  host := { (hosted 0 0).host with hostMem := Mem.setBytes [] 0x5000 (leBytes 80 w) } }
def tenMasks : Nat := (List.range 10).foldl (fun acc i => acc + 2 ^ (64 * i) * 2 ^ (20 + i)) 0
theorem witness_maskset : let s := masking tenMasks
    (∀ p ∈ s.dev.parts, p.2.st = .stopped ∨ p.2.cfg.maskset ≠ 2) ∧ s.iommuFault 0x5000 80 = false
      ∧ (∀ i < 10, s.host.hostMem.nat (0x5000 + 8 * i) 8 = 2 ^ (20 + i)) ∧ (masking 0).host.hostMem.nat 0x5000 8 = 0
      ∧ ∃ p ∈ s.dev.parts, p.2.st ≠ .stopped ∧ p.2.cfg.maskset = 0 := ⟨by decide +kernel, by decide +kernel, by decide +kernel, by decide +kernel,
    ⟨(0, (masking tenMasks).dev.part 0), by decide +kernel, by decide +kernel⟩⟩
theorem witness_inactive : State.reset.active 1 = false := by decide +kernel

/-- R65, R83: a doorbell below the size; one above it sets DBERR; VFCTL. -/
theorem test_registers :
    nextIs .sqtail { hosted 1 0 with args := { StepArgs.reset with a := 1, v := 15 } } (fun t => (t.queue 1 0).sqtail == 15) = true
    ∧ nextIs .cqhead { hosted 1 0 with args := { StepArgs.reset with a := 1, v := 16 } } (fun t => (t.fn 1).dberr && (t.queue 1 0).cqhead == 0) = true
    ∧ nextIs .vfctl { hosted 1 0 with args := { StepArgs.reset with a := 1, v := 0 } } (fun t => !(t.fn 1).en) = true
    ∧ nextIs .registerWrite { hosted 1 0 with args := { StepArgs.reset with b := 0x0100, v := 500 } } (fun t => t.dev.llcreb == 500) = true := by decide +kernel
/-- R71: SIGNAL sends one increment and completes with CID 5; a rank of HLEN is INVALID_FIELD. -/
theorem test_signal :
    nextIs .signal (hosted 1 (cid5 + 2 ^ 32 + 2 ^ 44 + 2 ^ 64 * 6)) (fun t => t.dev.net.map (·.2.msg) == [.incr 0 1 1 6 (srcHost, 0)]
      && t.host.hostMem.nat 0x1000 16 == 5 + 2 ^ 48) = true
    ∧ nextIs .signal (hosted 1 (cid5 + 4 * 2 ^ 32)) (fun t => t.dev.net == [] && t.host.hostMem.nat 0x1000 16 == 5 + 2 * 2 ^ 32 + 2 ^ 48) = true := by
  decide +kernel
/-- R71: COPYH and FILL enter execution, and a piece of a FILL writes its pattern; LAUNCH with ACCEPT completes with its group id. -/
theorem test_commands :
    nextIs .fill (hosted 1 (cid5 + 2 ^ 128 * 0x40 + 2 ^ 192 * 64 + 2 ^ 256 * 9)) (fun t => t.host.cmds.map (·.2.kind) == [.fill 0x40 64 0 9 []]) = true
    ∧ nextIs .copyh (hosted 1 cid5) (fun t => t.host.hostMem.nat 0x1000 16 == 5 + 2 * 2 ^ 32 + 2 ^ 48) = true
    ∧ nextIs .launch (launching hostDesc) (fun t => (t.dev.part 0).queues == [(0, [1])] && t.host.hostMem.nat 0x1000 16 == 5 + 2 ^ 48 + 2 ^ 64) = true
    ∧ nextIs .routine registering (fun t => t.dev.mem.nat 0x900020 16 == 2 ^ 63 + 2 ^ 61 + 3 * 2 ^ 53 + 0x200 && vget (t.dev.core 0).rflags 2 0 == 20) = true
    ∧ nextIs .map mapping (fun t => t.dev.mem.nat 0x102000 8 == 2 ^ 63 + 2 ^ 61 + 0x110000) = true := by decide +kernel
/-- R76-R78, R83-R86: a partition is configured and started; a function is paused and reset; the masks of set 2. -/
theorem test_pf_commands :
    nextIs .functionLevelReset (hosted 0 0) (fun t => (t.fn 0).gen == 1 && (t.fn 1).gen == 1 && !(t.fn 1).en && (t.fn 1).bound == some 0) = true
    ∧ nextIs .partcfg (configuring goodPart Part.reset) (fun t => (t.dev.part 1).configured && (t.dev.part 1).cfg == cfg1) = true
    ∧ nextIs .partstart (starting true) (fun t => (t.dev.part 1).started) = true
    ∧ nextIs .partstop (hosted 0 cid5) (fun t => (t.dev.part 0).st == .stopped && (t.dev.core 0).part == none) = true
    ∧ nextIs .vfpause (hosted 0 (cid5 + 2 ^ 32)) (fun t => (t.fn 1).paused) = true
    ∧ nextIs .vfreset (hosted 0 (cid5 + 2 ^ 32)) (fun t => (t.fn 1).gen == 1 && !(t.fn 1).en) = true
    ∧ nextIs .vfbind (hosted 0 (cid5 + 2 ^ 32 + 2 ^ 48)) (fun t => (t.fn 1).pendBind == some ⟨some 0, true⟩) = true
    ∧ nextIs .maskset (masking tenMasks) (fun t => aget? t.dev.masks 2 == some ((List.range 10).map fun i => 2 ^ (20 + i))) = true := by decide +kernel

/-- R62-R64: VF 3 is bound to partition 7 as its supervisor, its generation is 5 and QERR is set. -/
theorem test_registerReads : let s := State.reset.modFn 3 fun x => { x with gen := 5, qerr := true, bound := some 7, sup := true }
    s.boot.recovery = false ∧ (s.modBoot fun b => { b with recovery := true }).boot.recovery = true
      ∧ s.readReg 3 0 = BitVec.ofNat 64 (3 * 2 ^ 32 + 7 * 2 ^ 26 + 3 * 2 ^ 24 + 16)
      ∧ s.readReg 3 0x10 = BitVec.ofNat 64 (5 * 2 ^ 48 + 2 * 2 ^ 5 + 2 ^ 4) ∧ s.readReg 3 0x1010 = 4 := by decide +kernel
theorem witness_placement_masks : masksOk defaultMasks = true ∧ defaultMasks.length = 10 ∧ (0x1000300 : Nat) < 2 ^ 40 := by decide +kernel
/-- R177: the column walk falls on stack 1, channel 3 and pseudo-channel 0 under the defaults, and on four channels under the other set. -/
theorem test_columnWalk : [0x1000300, 0x1002300, 0x1004300, 0x1006300].map (fun a => (hbmStack defaultMasks a, hbmChannel defaultMasks a, hbmPseudo defaultMasks a))
      = List.replicate 4 (1, 3, 0)
    ∧ [0x1000300, 0x1002300, 0x1004300, 0x1006300].map (hbmChannel ((defaultMasks.set 7 0x2800).set 8 0x5000)) = [3, 11, 19, 27] := by decide +kernel
/-- R44: SHA3-512 of the bytes of "abc", as FIPS 202 gives it. -/
theorem test_sha3 : (sha3 [0x61, 0x62, 0x63]).take 8 = [0xB7, 0x51, 0x85, 0x0B, 0x1A, 0x57, 0x16, 0x8A] := by decide +kernel

/-! ### Boot, reliability, links, scrub, cache ways, logs (R35-R59, R79-R82, R178-R180) -/

theorem witness_verdict (img : List Byte) (min : Word) (sig : Nat) : ∃ v, Verdict img min sig v := by
  cases h : Config.signatureOk img with
  | false => exact ⟨_, .signature h⟩
  | true =>
    by_cases v : Config.stageVersion img < min
    · exact ⟨_, .version h v⟩
    · exact ⟨_, .taken h (BitVec.not_lt.1 v)⟩
/-- The module in a stage of boot. -/
def booting (b : Boot) (ok ok2 : Bool) (dies : List Nat) : State := { State.reset with boot := b, args := { StepArgs.reset with ok, ok2, list := dies } }
theorem witness_boot : let b : Boot := { Boot.reset with begun := true, stage := 1 }
    BootLegal b ∧ (booting b true true []).boot.keptImage = none ∧ (booting b true true []).boot.stage = 1 ∧ (booting b true true []).boot.recovery = false
      ∧ (booting b true true []).boot.begun = true ∧ (booting b true true []).args.img = none
      ∧ ({ booting b true true [] with args := { StepArgs.reset with img := some [1] } } : State).args.img = some [1] := by
  refine ⟨by constructor <;> decide +kernel, by decide +kernel⟩
theorem witness_bootStep : ∃ t, step (booting { Boot.reset with begun := true, stage := 1 } true true []) = .next t := ⟨_, rfl⟩
theorem witness_training : let dies := [2]
    (booting { Boot.reset with stage := 4 } true true dies).boot.stage = 4 ∧ dies.filter (· < 4) = [2] ∧ 4 ∉ dies
      ∧ 2 ≤ ([1, 2].filter (· < 4)).length ∧ ([2, 4].filter (· < 4)).length = 1 ∧ 4 ∈ [2, 4] ∧ ([4] : List Nat).filter (· < 4) = [] := by decide +kernel
theorem witness_measure : 4 ≤ (booting { Boot.reset with stage := 4 } true true []).boot.stage ∧ (booting { Boot.reset with stage := 4 } true true []).boot.recovery = false
    ∧ (booting { Boot.reset with stage := 3 } true true []).boot.stage < 4 := by decide +kernel
theorem witness_buildParts : (booting { Boot.reset with stage := 4 } true true []).dev.buildParts [] = some Dev.reset ∧ Dev.reset.buildParts [(1, 0)] = none := by
  decide +kernel
/-- A management command runs on 6,000 bytes at IOVA 0x8000. -/
def managed (cmd : BitVec 16) (n : Nat) (rec_ : Bool) : State :=
  { State.reset with boot := { Boot.reset with stage := 6, mgBusy := some cmd, mglen := BitVec.ofNat 64 n, mgiova := 0x8000, recovery := rec_ } }
theorem witness_management :
    (managed 0x0001 6000 false).boot.mgBusy = some 0x0001 ∧ uv (managed 1 6000 false).boot.mglen ≤ 2 ^ 28 ∧ 2 ^ 28 < uv (managed 1 (2 ^ 28 + 1) false).boot.mglen
    ∧ (managed 1 6000 false).iommuFault 0x8000 6000 = false ∧ (managed 1 6000 false).iommuFault 0x8000 64 = false ∧ (managed 1 6000 false).iommuFault 0x8040 5227 = false
    ∧ ({ managed 1 6000 false with host := { HostIf.reset with iommuBad := [(0x8000, 1)] } } : State).iommuFault 0x8000 64 = true
    ∧ 5291 ≤ uv (managed 2 6000 false).boot.mglen ∧ uv (managed 2 5290 false).boot.mglen < 5291 ∧ (managed 2 6000 false).host.hostMem.wf = true
    ∧ (managed 1 6000 true).boot.recovery = true ∧ (managed 1 6000 true).boot.keptImage = none ∧ 4 ≤ (managed 2 0 false).boot.stage := by decide +kernel

/-- The machine at reset, with the operands of a step. -/
def atReset (a b c : Nat) (ok : Bool) : State := { State.reset with args := { StepArgs.reset with a, b, c, ok } }
theorem witness_sparing : (atReset 1 0 7 true).args.a < 4 ∧ (atReset 1 0 7 true).args.c < 2 ^ 32 ∧ SpareFree State.reset.dev
    ∧ (∀ r, ¬(r / 1024 = 1 ∧ (State.reset.dev.core r).part.isSome = true ∧ (State.reset.dev.core r).lost = false))
    ∧ ¬SpareFree { Dev.reset with spareUsed := some 2 } := ⟨by decide, by decide, ⟨rfl, by decide⟩, fun _ h => Bool.noConfusion (h.2.1 : false = true), fun h => nomatch h.1⟩
theorem witness_sparing_busy : let s := co fun c => { c with wb := [⟨3, 0, 1, 0, 0, ⟨0, false⟩, 0, 0, none, [0], false, false, 0, false⟩] }
    SpareFree s.dev ∧ (0 / 1024 = s.args.a ∧ (s.dev.core 0).part.isSome = true ∧ (s.dev.core 0).lost = false) ∧ (s.dev.core 0).wb ≠ [] := by
  unfold SpareFree; decide +kernel
theorem witness_dieLost : (∀ l ∈ State.reset.dev.leases, l.rank / 1024 ≠ 1) ∧ (∀ c ∈ State.reset.dev.cores, c.1 / 1024 = 1 → c.2.tasks = [] ∧ c.2.inbox = []
    ∧ c.2.overflow = [] ∧ c.2.part = none ∧ ∀ k < 16, (c.2.slot k).occ = false) := by decide
theorem witness_taskLost : let s := working [] { group 0 0 with live := 2 } [] base
    s.dev.cores = [(0, s.dev.core 0)] ∧ (s.dev.core 0).part = some 0 ∧ (s.dev.core 0).tasks.map (fun t => (t.ended, t.part, t.bufs, t.group)) = [(false, 0, [], 1)]
      ∧ (s.dev.core 0).inbox = [] ∧ (s.dev.core 0).overflow = [] ∧ (∀ k < 16, ((s.dev.core 0).slot k).guest = false)
      ∧ aget? (s.dev.part 0).groups 1 = some { group 0 0 with live := 2 } := by decide +kernel
/-- Cores 0 and 1 run two tasks of group 1, with a join counter; the log of the partition has a record that still merges. -/
def losing : State := (working [] { group 0 0 with live := 3 } [] base).modDev fun d => (d.modCore 0 fun c =>
  { c with tasks := c.tasks.map fun t => { t with group := 1, desc := { taskDesc with jen := true, jidx := 5, jrank := 2 } } }).setCore 1 { Core.reset with
    part := some 0, tasks := [⟨0, 0, 1, 1, { taskDesc with jen := true, jidx := 5, jrank := 2 }, 0, 3, [], [], [], [], 0, false, [], []⟩] } |>.modPart 0 fun p =>
  { p with elogQ := [⟨⟨5, 10, 0, 0x480, 0, 5159, 31, 3, 1⟩, 0, true⟩] }
theorem witness_tasksLost : losing.args.a < 4 ∧ (losing.dev.cores.map (·.1)).Nodup ∧ losing.dev.net = []
    ∧ (∀ c ∈ losing.dev.cores, c.1 / 1024 = losing.args.a → c.2.inbox = [] ∧ c.2.overflow = [] ∧ (c.2.tasks.map (·.id)).Nodup ∧ ∀ k < 16, (c.2.slot k).guest = false)
    ∧ aget? (losing.dev.part 0).groups 1 = some { group 0 0 with live := 3 } ∧ (losing.dev.part 0).elogQ.head?.any (·.merging) = true := by decide +kernel
theorem witness_links : 3 ∉ State.reset.dev.linksDown ∧ 3 ∈ ({ Dev.reset with linksDown := [3] } : Dev).linksDown
    ∧ 8 ≤ (aget? ({ Dev.reset with linkFails := [(3, 8)] } : Dev).linkFails 3).getD 0 ∧ (aget? State.reset.dev.linkFails 3).getD 0 < 8
    ∧ (Instr.droopTrip, true) ∈ [(Instr.droopTrip, true), (Instr.droopClear, false)] := by decide
/-- Patrol scrub finds an error of DRAM at PA 0x480, of `part` or of none, or one in the local memory of core 2 at 0x480. -/
def scrubbed (corr : Bool) (part : Option Nat) (unit : ScrubUnit) : State :=
  { base with args := { StepArgs.reset with scrub := ⟨true, unit, 10, part, 0x480, 5159, corr, 3⟩ } }
/-- Partition 0 has had that error corrected once. -/
def merging : State := (scrubbed true (some 0) .line).modDev fun d => { d with corr := [⟨some 0, 5, 0x480, 0⟩] }.modPart 0 fun p =>
  { p with elogQ := [⟨⟨5, 10, 0, 0x480, 0, 5159, 31, 3, 1⟩, 0, true⟩] }
theorem witness_scrub : (scrubbed true (some 0) .line).args.scrub.correctable = true ∧ (scrubbed true (some 0) .line).dev.corr = []
    ∧ (scrubbed false none .line).args.scrub.part = none ∧ (scrubbed false none .line).args.scrub.die ≤ 11 ∧ (scrubbed false none .line).args.scrub.agent ≤ 5166
    ∧ (scrubbed false none .line).args.scrub.addr < 2 ^ 64 ∧ (scrubbed false none (.localMem 2)).args.scrub.unit = .localMem 2
    ∧ merging.dev.corr = [⟨some 0, 5, 0x480, 0⟩] ∧ (merging.dev.part 0).elogQ = [⟨⟨5, 10, 0, 0x480, 0, 5159, 31, 3, 1⟩, 0, true⟩] := by decide +kernel
/-- Line 9 is poisoned; its page has a clean backing copy, or none. -/
def poisoned (back : Option Backing) : State := { base with args := { StepArgs.reset with a := 9 } }.modDev fun d =>
  { d with poison := [9], mem := [(0x200480, 5)], backing := back.toList.map fun b => (0, b) }
theorem witness_restore : 9 ∈ (poisoned none).dev.poison ∧ (poisoned none).args.a < 2 ^ 56 ∧ (poisoned none).dev.mem.wf = true
    ∧ aget? (poisoned none).dev.backing (9 / 512) = none ∧ aget? (poisoned (some (.lp 0x200000))).dev.backing (9 / 512) = some (.lp 0x200000)
    ∧ (poisoned (some (.lp 0x200000))).dev.poisoned (0x200000 / 128 + 9 % 512) = false ∧ (poisoned (some (.lp 0x200000))).dev.regs = []
    ∧ aget? (poisoned (some (.host 0x3000))).dev.backing (9 / 512) = some (.host 0x3000)
    ∧ (poisoned (some (.host 0x3000))).iommuFault (0x3000 + 128 * (9 % 512)) 128 = false := by decide +kernel
/-- The partitions of R82's example. -/
def sharing : State :=
  let p (f c : Nat) : Part := { Part.reset with configured := true, cfg := { PartRec.reset with floor := f, ceil := c, qw := 4, qa := 4, qk := 6, qo := 2 } }
  { State.reset with dev := { Dev.reset with
    parts := [(3, p 2 8), (9, p 1 12)]
    shadowHits := [(3, [900, 500, 300, 200, 40, 30, 20, 10, 5, 5, 0, 0]), (9, [800, 600, 400, 350, 300, 250, 100, 50, 20, 10, 5, 0])] } }
theorem witness_ways : (sharing.dev.parts.map (·.1)).Nodup ∧ (∀ p ∈ sharing.dev.parts, p.2.cfg.floor ≤ p.2.cfg.ceil) ∧ (sharing.dev.part 3).configured = true
    ∧ ((sharing.dev.part 3).cfg.floor, (sharing.dev.part 3).cfg.ceil) = (2, 8)
    ∧ aget? sharing.dev.shadowHits 9 = some [800, 600, 400, 350, 300, 250, 100, 50, 20, 10, 5, 0] := by decide
/-- An LP frame of partition 0, 0x1000000, that one fill brings to its threshold of 3; or that waits for space. -/
def filling (pend : Bool) : State := { dv fun d => { d with
    mem := [(0x20001, 7)]
    lp := [(0x1000000, ⟨if pend then 3 else 2, false, if pend then some (0, 5) else none, []⟩)]
    lpFills := [(0, 0x1000000, ⟨5, false⟩)] }.modPart 0 fun p => { p with cfg := { p.cfg with lpthresh := 3 } } with
  args := { StepArgs.reset with b := 0x1000000, c := 5 } }
theorem witness_logs : AtHomes (filling false).dev ∧ ((filling false).dev.part 0).cfg.elogbase % 128 = 0 ∧ ((filling false).dev.part 0).cfg.nqbase % 4096 = 0
    ∧ (filling false).dev.lpFills.find? (fun e => e.1 == 0 && e.2.1 == 0x1000000 && e.2.2.num == 5) = some (0, 0x1000000, ⟨5, false⟩) ∧ ((filling false).dev.part 0).elogQ = [] ∧ 1 ≤ ((filling false).dev.part 0).cfg.lpthresh
    ∧ (∀ e ∈ (filling false).dev.lp, e.2.pendPage = none) ∧ (((filling false).dev.part 0).nqTail + 1) % 4096 ≠ ((filling false).dev.part 0).nqHead
    ∧ (filling true).dev.lp = [(0x1000000, ⟨3, false, some (0, 5), []⟩)]
    ∧ (((filling true).dev.part 0).nqTail + 1) % 4096 ≠ (filling true).dev.mem.nat (((filling true).dev.part 0).cfg.nqbase + 8) 4 % 4096 := by
  refine ⟨by constructor <;> decide +kernel, by decide +kernel⟩

/-- R45: an attempt without an image counts; the 16th failure leads to recovery with 0x0003; DHCPv6 gives way to SLAAC. -/
theorem test_boot :
    nextIs .fetchAttempt (booting { Boot.reset with begun := true, stage := 1 } true true []) (fun t => t.boot.tries == 1 && t.boot.stage == 1) = true
    ∧ nextIs .fetchAttempt (booting { Boot.reset with begun := true, stage := 1, tries := 15 } true true []) (fun t => t.boot.recovery && t.boot.errcode == 3) = true
    ∧ nextIs .dhcpv6Timeout (booting { Boot.reset with begun := true, stage := 1 } true true []) (fun t => t.boot.slaac) = true
    ∧ nextIs .memoryTraining (booting { Boot.reset with stage := 4 } false true []) (fun t => t.boot.recovery && t.boot.errcode == 5) = true
    ∧ nextIs .memoryTraining (booting { Boot.reset with stage := 4 } true true [2, 4]) (fun t => t.boot.errcode == 7) = true := by decide +kernel
/-- R50: RAISEVER raises the fused minimum; a LOADIMG that is too long and an ATTEST of too few bytes are refused. -/
theorem test_management :
    nextIs .raisever { managed 0x0003 0 false with boot := { (managed 0x0003 0 false).boot with runFirst := 4 } } (fun t => t.boot.minFirst == 4 && t.boot.mgDone) = true
    ∧ nextIs .loadimg (managed 0x0001 (2 ^ 28 + 1) false) (fun t => t.boot.mgResult == 0x0100 && t.boot.mgBusy == none) = true
    ∧ nextIs .attest (managed 0x0002 5290 false) (fun t => t.boot.mgResult == 0x0100) = true := by decide +kernel
/-- R38, R39: a threshold with no core to save: the spare takes quadrant 1 with record 0x0A; a lost die. -/
theorem test_dies :
    nextIs .dieSparing (atReset 1 0 7 true) (fun t => t.dev.spareUsed == some 1 && t.dev.flojoLog.map (recField · 88 8) == [0x0A]) = true
    ∧ nextIs .computeDieLost (atReset 1 0 0 true) (fun t => t.dev.spareUsed == some 1 && t.dev.deadDies == [1]) = true
    ∧ nextIs .computeDieLost losing (fun t => (t.dev.core 0).tasks == [] && (t.dev.core 1).tasks == [] && (t.dev.part 0).groups.map (fun g => (g.2.lost, g.2.live)) == [(2, 1)]
      && (t.dev.part 0).elogQ.map (fun e => (e.err.kind, e.err.agent, e.err.info)) == [(5, 5159, 3), (0x0B, 0, 1), (0x0B, 1, 1)]
      && t.dev.net.map (fun m => match m.2.msg with
        | .incr p r i n _ => (p, r, i, n)
        | .launch _ _ _ | .frame _ _ _ => (9, 9, 9, 9)) == [(0, 2, 5, 1), (0, 2, 5, 1)]) = true := by decide +kernel
theorem witness_hardLimit : (3 : Nat) ≤ 11 ∧ (11 : Nat) < 12 := by decide
/-- R40, R51-R55: the 8th failed replay, the port's record, a stretched quad, the end at the hard limit, poison and its restore. -/
theorem test_links_and_scrub :
    nextIs .flitReplay (atReset 3 0 0 false) (fun t => t.dev.linkFails == [(3, 1)]) = true
    ∧ nextIs .linkPortDown { atReset 3 0 0 true with dev := { Dev.reset with linkFails := [(3, 8)] } } (fun t => t.dev.linksDown == [3]
      && t.dev.flojoLog.map (recField · 88 8) == [8]) = true
    ∧ nextIs .droopTrip (atReset 3 0 0 true) (fun t => (t.dev.quad 3).stretched && !(t.dev.quad 2).stretched) = true
    ∧ nextIs .thermalShutdown (atReset 3 0 0 true) (fun t => t.boot.off && match step t with
      | .fault .shutDown => true
      | .next _ | .refused _ => false) = true
    ∧ nextIs .patrolScrub (scrubbed false none .line) (fun t => t.dev.poison == [9] && t.dev.flojoLog.map (recField · 96 64) == [0x480]) = true
    ∧ nextIs .patrolScrub (scrubbed false none (.localMem 2)) (fun t => (t.dev.core 2).badLmem == [9] && t.dev.poison == []) = true
    ∧ nextIs .patrolScrub (scrubbed true (some 0) .line) (fun t => t.dev.poison == [] && t.dev.corr.map (·.kind) == [5] && (t.dev.part 0).elogQ.length == 1) = true
    ∧ nextIs .patrolScrub merging (fun t => (t.dev.part 0).elogQ.map (·.err.count) == [2]) = true
    ∧ nextIs .poisonRestore (poisoned (some (.lp 0x200000))) (fun t => t.dev.poison == [] && t.dev.mem == [(0x480, 5), (0x200480, 5)]
      && t.dev.flojoLog.map (recField · 88 8) == [0x0D]) = true
    ∧ nextIs .poisonRestore (poisoned none) (fun t => t.dev.poison == [9]) = true
    ∧ nextIs .pcieError (atReset 3 0 0 false) (fun t => t.dev.flojoLog.map (recField · 88 8) == [9]) = true := by decide +kernel
/-- R82's worked example; R178-R180: the fill that reaches the threshold writes entry 0 of the queue at 0x11000. -/
theorem test_ways_and_queue :
    nextIs .llcRebalance sharing (fun t => (t.dev.part 3).ways == [0, 1, 2, 3] && (t.dev.part 9).ways == [4, 5, 6, 7, 8, 9, 10, 11]
      && (t.dev.part 9).clsWays == [[4, 5], [6, 7], [8, 9, 10], [11]]) = true
    ∧ nextIs .lpFrameFill (filling false) (fun t => t.dev.mem.nat 0x11000 16 == 5 * 65536 + 2 ^ 64 * (0x1000000 * 65536 + 3)
      && (t.dev.part 0).nqTail == 1) = true
    ∧ nextIs .notifyQueueHeadUpdate (filling true) (fun t => t.dev.mem.nat 0x11000 16 == 5 * 65536 + 2 ^ 64 * (0x1000000 * 65536 + 3)) = true
    ∧ nextIs .errorLogTailUpdate ((filling false).modDev fun d => { d with mem := [(0x20008, 1)] }) (fun t => (t.dev.part 0).elogTail == 0) = true := by
  decide +kernel

/-! ### Placement, messages, pre-emption (R78, R93-R101, R107, R110-R119, R142, R147-R151) -/

/-- Group 1 waits in stream 0 of partition 0, whose first task has not started; its DET list on rank 1. -/
def newG (place tasks : Nat) (mask : Word) : Group := ⟨1, { taskDesc with tilemask := mask, place, tasks, threads := 1, scratch := 1, stash := 0, entry := 0x84 }, Vector.replicate 8 0, none, 0, 0, none, none, 0, none, [], 0, 0⟩
def placing (g : Group) (det : Bool) : State := dv fun d => (d.setCore 1 { Core.reset with part := some 0 }).modPart 0 fun p => { p with
  st := .resident, groups := [(1, g)], queues := if det then [] else [(0, [1])], det := if det then [(1, [(1, 2)])] else []
  cfg := { p.cfg with det, slotwt := [1, 0, 0, 0, 0, 0, 0, 0] } }
theorem witness_placement : let s := placing (newG 0 2 0) false
    (s.dev.part 0).st = .resident ∧ (s.dev.part 0).cfg.det = false ∧ (s.dev.part 0).queues = [(0, [1])] ∧ aget? (s.dev.part 0).groups 1 = some (newG 0 2 0)
      ∧ (newG 0 2 0).localImg = none ∧ (newG 0 2 0).desc.place = 0 ∧ (s.dev.part 0).inGang 0 = false ∧ s.dev.dispatch 0 0 (newG 0 2 0).desc false = some ([1], 3)
      ∧ ∀ r < 4, (placing (newG 0 2 1) false).dev.dispatch 0 r { (newG 0 2 1).desc with threads := 16, guests := 1 } false = none := by decide +kernel
theorem witness_det : let s := { placing (newG 0 2 0) true with args := { StepArgs.reset with b := 1 } }
    (s.dev.part 0).cfg.det = true ∧ aget? (s.dev.part 0).det s.args.b = some ((1, 2) :: []) ∧ (∀ y ∈ (s.dev.core 1).tasks, y.ended = true)
      ∧ s.dev.fit 0 1 (newG 0 2 0).desc = some ([0], 0) := by decide +kernel
theorem witness_gang : let s := placing (newG 3 4 0) false
    aget? (s.dev.part 0).queues 0 = some (1 :: []) ∧ (newG 3 4 0).desc.place = 3 ∧ (s.dev.part 0).resv = none ∧ (s.dev.part 0).st = .resident ∧ (s.dev.part 0).cfg.det = false ∧ s.dev.plan 0 (newG 3 4 0) = none
      ∧ 1 ≤ (newG 3 4 0).desc.tasks ∧ (newG 3 4 0).desc.tasks ≤ (s.dev.part 0).cfg.hlen ∧ (s.dev.part 0).cfg.hlen ≤ 4096 := by decide +kernel

/-- A frame of slot 3 of rank 0 for rank 1, or home again to slot 3. -/
def frame (home : Bool) : Frame :=
  ⟨(List.range 15).map fun i => BitVec.ofNat 64 (i + 1), [0, 0, 0], Vector.replicate 8 0, 0x84, BitVec.ofNat 64 (3 * 2 ^ 28), List.replicate 12 0, 0, 3, home, false⟩
/-- Message 0 is under way to rank 1 of the resident partition 0, whose core holds `inbox` and `ring`. -/
def sent (m : Msg) (inbox : List InboxMsg) (ring : List RingMsg) (spill : Nat) : State := dv fun d => { (d.setCore 1 { Core.reset with
    part := some 0, inbox := inbox, overflow := ring
    slots := vset Core.reset.slots 5 { Slot.reset with occ := true, wait := .wfi 9 } }).modPart 0 fun p => { p with
      st := .resident, cfg := { p.cfg with spilllen := spill, spillbase := 0x300000 } } with net := [(0, ⟨m, [], none⟩)] }
def fullInbox : List InboxMsg := List.replicate 32 (.launch 7)
/-- The same with room in the inbox, but one frame of rank 1 in the first record of the spill area; or with every record of it valid. -/
def behindSpill (m : Msg) (n : Nat) : State := (sent m [] [] 1).modDev fun d => { d with
  mem := (List.range n).foldl (fun mem j => mem.setBytes (0x300000 + 2048 * j) (leBytes 8 (2 ^ 63 + 1))) [] }.modCore 1 fun c => { c with spilled := n }
theorem witness_frame_spills : AtHomes (behindSpill (.frame 0 1 (frame false)) 1).dev ∧ AtHomes (behindSpill (.frame 0 1 (frame false)) 32).dev
    ∧ (∀ j < 1, (behindSpill (.frame 0 1 (frame false)) 1).dev.mem.nat (0x300000 + 2048 * j) 8 / 2 ^ 63 % 2 = 1)
    ∧ (behindSpill (.frame 0 1 (frame false)) 1).dev.mem.nat (0x300000 + 2048) 8 < 2 ^ 63
    ∧ (∀ j < 32, (behindSpill (.frame 0 1 (frame false)) 32).dev.mem.nat (0x300000 + 2048 * j) 8 / 2 ^ 63 % 2 = 1)
    ∧ ((behindSpill (.frame 0 1 (frame false)) 32).dev.slot 0 3).pend = [] ∧ OnCore (behindSpill (.frame 0 1 (frame false)) 32).dev 0 1 := by
  refine ⟨by constructor <;> decide +kernel, by constructor <;> decide +kernel, by decide +kernel, by decide +kernel, by decide +kernel, by decide +kernel,
    by unfold OnCore; decide +kernel⟩
theorem witness_frame : OnCore (sent (.frame 0 1 (frame false)) fullInbox [] 1).dev 0 1 ∧ (frame false).srcSlot < 16
    ∧ ((sent (.frame 0 1 (frame false)) [] [] 1).dev.core 1).inbox.length < 32 ∧ ((sent (.frame 0 1 (frame false)) [] [] 1).dev.core 1).spilled = 0
    ∧ ((sent (.frame 0 1 (frame false)) [] [] 1).dev.slot 0 3).guest = false ∧ ((sent (.frame 0 1 (frame false)) [] [] 1).dev.slot 0 3).pend = []
    ∧ 32 ≤ ((sent (.frame 0 1 (frame false)) fullInbox [] 1).dev.core 1).inbox.length ∧ ((behindSpill (.frame 0 1 (frame false)) 1).dev.core 1).spilled ≠ 0
    ∧ ((behindSpill (.frame 0 1 (frame false)) 1).dev.core 1).inbox.length < 32
    ∧ (0 : Nat) < 32 * ((sent (.frame 0 1 (frame false)) fullInbox [] 1).dev.part 0).cfg.spilllen ∧ ((sent (.frame 0 1 (frame false)) fullInbox [] 1).dev.part 0).cfg.spillbase % 65536 = 0
    ∧ (sent (.frame 0 1 (frame false)) fullInbox [] 1).dev.mem.nat 0x300000 8 < 2 ^ 63 ∧ (frame false).x.length = 15 ∧ (frame false).p.length = 3 ∧ (frame false).v.length = 12 := by
  unfold OnCore; decide +kernel
theorem witness_frame_homes : AtHomes (sent (.frame 0 1 (frame false)) fullInbox [] 1).dev := by constructor <;> decide +kernel
/-- Rank 1 has one frame in the spill area, under SEQ 6. -/
def spilt : State := { sent (.incr 0 1 0 0 (0, 4)) [] [] 1 with args := { StepArgs.reset with a := 1 } }.modDev fun d =>
  { d with mem := Mem.setBytes [] 0x300000 (leBytes 8 (2 ^ 63 + 6 * 4096 + 1)) }.modCore 1 fun c => { c with spilled := 1 }
theorem witness_spill : (spilt.dev.core 1).part = some 0 ∧ (spilt.dev.core 1).inbox.length < 32 ∧ 0 < (spilt.dev.core 1).spilled ∧ (spilt.dev.core 1).saving = false
    ∧ spilt.dev.mem.nat 0x300000 8 / 2 ^ 63 % 2 = 1 ∧ spilt.dev.mem.nat 0x300000 8 % 4096 = 1
    ∧ (spilt.dev.part 0).cfg.spillbase % 65536 = 0 ∧ ∀ j < 32, j ≠ 0 → ¬spilt.dev.mem.nat (0x300000 + 2048 * j) 8 / 2 ^ 63 % 2 = 1 := by decide +kernel
theorem witness_spill_homes : AtHomes spilt.dev := by constructor <;> decide +kernel
/-- The same increment, and slot 5 of rank 1 waits for counter 5 to reach `n`. -/
def awaiting (n : HWord) : State := (sent (.incr 0 1 5 9 (0, 4)) [] [] 0).modDev fun d => d.modSlot 1 5 fun s => { s with wait := .mbx 5 n }
theorem witness_launchMessage : OnCore (sent (.launch 0 1 1) [] [] 0).dev 0 1 ∧ ((sent (.launch 0 1 1) [] [] 0).dev.core 1).overflow = []
    ∧ 32 ≤ ((sent (.launch 0 1 1) fullInbox [] 0).dev.core 1).inbox.length ∧ 512 ≤ ((sent (.launch 0 1 1) fullInbox (List.replicate 512 ⟨7, 0, 0⟩) 0).dev.core 1).overflow.length
    ∧ ((sent (.launch 0 1 1) [] [⟨7, 3, 0⟩] 0).dev.core 1).overflow ≠ [] ∧ ((sent (.launch 0 1 1) [] [] 0).dev.part 0).cfg.ctxbase % 128 = 0
    ∧ aget? (sent (.launch 0 1 1) [] [] 0).dev.net 0 = some ⟨.launch 0 1 1, [], none⟩ := by unfold OnCore; decide +kernel
theorem witness_launch_homes : AtHomes (sent (.launch 0 1 1) fullInbox [] 0).dev := by constructor <;> decide +kernel
/-- Counter 5 of rank 2, whose context is saved with the parked increments `l`, is sent 9. -/
def parking (l : List Msg) : State := (sent (.incr 0 2 5 9 (0, 4)) [] [] 0).modDev fun d => d.modPart 0 fun p => { p with ctx := [(2, ⟨Core.reset, 0, l⟩)] }
theorem witness_increment : let s := sent (.incr 0 1 5 9 (0, 4)) [] [] 0
    aget? s.dev.net 0 = some ⟨.incr 0 1 5 9 (0, 4), [], none⟩ ∧ (s.dev.slot 1 5).wait = .wfi 9 ∧ s.dev.tagSeen (tagCore 0 1) 0 4 = none ∧ s.dev.tagged (.incr 0 1 5 9 (0, 4)) = true ∧ OnCore s.dev 0 1
      ∧ ((awaiting 9).dev.slot 1 5).wait = .mbx 5 9 ∧ OnCore (awaiting 9).dev 0 1 := by unfold OnCore; decide +kernel
theorem witness_parking (l : List Msg) (h : l = [] ∨ l = [.incr 0 2 5 3 (0, 0)]) : ((parking l).dev.part 0).st ≠ .stopped
    ∧ aget? ((parking l).dev.part 0).ctx 2 = some ⟨Core.reset, 0, l⟩ ∧ aget? (parking l).dev.net 0 = some ⟨.incr 0 2 5 9 (0, 4), [], none⟩
    ∧ (parking l).dev.tagSeen (tagCore 0 2) 0 4 = none ∧ (parking l).dev.tagged (.incr 0 2 5 9 (0, 4)) = true := by rcases h with rfl | rfl <;> decide +kernel
/-- The receiver has answered that increment before. -/
def answered : State := (sent (.incr 0 1 5 9 (0, 4)) [] [] 0).modDev fun d => { d with tagWin := [⟨tagCore 0 1, 0, 4, 0, 0⟩] }
theorem witness_increment_again : aget? answered.dev.net 0 = some ⟨.incr 0 1 5 9 (0, 4), [], none⟩ ∧ answered.dev.tagWin = [⟨tagCore 0 1, 0, 4, 0, 0⟩]
    ∧ answered.dev.tagged (.incr 0 1 5 9 (0, 4)) = true ∧ OnCore answered.dev 0 1 := by unfold OnCore; decide +kernel
/-- Rank 1 finds `m` at the head of its inbox; group 1 is live. -/
def taking (m : InboxMsg) : State := { sent (.incr 0 1 0 0 (0, 4)) [m] [] 0 with args := { StepArgs.reset with a := 1 } }.modDev fun d =>
  (d.modPart 0 fun p => { p with groups := [(1, newG 0 2 0)], cfg := { p.cfg with slotwt := [1, 0, 0, 0, 0, 0, 0, 0] } }).modCore 1 fun c => { c with
    slots := vset c.slots 6 { c.slot 6 with isGuestSlot := true }
    tasks := [⟨0, 0, 1, 0, { (newG 0 2 0).desc with guests := 1 }, 0, 4, [], [], [6], [], 0, false, [], []⟩] }
theorem witness_inbox : ((taking (.launch 1)).dev.core 1).part = some 0 ∧ ((taking (.launch 1)).dev.core 1).saving = false ∧ ((taking (.launch 1)).dev.core 1).overflow = []
    ∧ ((taking (.launch 1)).dev.core 1).inbox = .launch 1 :: [] ∧ aget? ((taking (.launch 1)).dev.part 0).groups 1 = some (newG 0 2 0)
    ∧ (taking (.launch 1)).dev.fit 0 1 (newG 0 2 0).desc = some ([0], 4) ∧ ((taking (.frame (frame false))).dev.core 1).freeGuest = some 6
    ∧ (frame true).home = true ∧ (frame false).home = false := by decide +kernel

/-- Core 0 runs stream 0 and has stream 0 in demand; core 1 is interrupted and holds nothing. -/
def saving : State := { dv fun d => (d.setCore 1 { Core.reset with part := some 0, saving := true }).modPart 0 fun p => { p with
  st := .resident, ctx := [(0, ⟨Core.reset, 0, []⟩), (2, ⟨Core.reset, 0, []⟩), (3, ⟨Core.reset, 0, []⟩)], cfg := { p.cfg with ctxbase := 0x400000 } } with
  args := { StepArgs.reset with a := 1 } }
theorem witness_save : let s := saving
    let c := s.dev.core 1
    c.part = some 0 ∧ c.lost = false ∧ c.saving = true ∧ c.commitWait = false ∧ c.wb = [] ∧ c.out = [] ∧ c.tasks = [] ∧ c.uoc = [] ∧ c.stash = []
      ∧ s.dev.homeQ = [] ∧ s.dev.remote = [] ∧ s.dev.leases = [] ∧ c.lmem.wf = true
      ∧ (∀ k < 16, (c.slot k).pend = [] ∧ (c.slot k).wait = .none ∧ (c.slot k).lease = none ∧ (c.slot k).deferred = [])
      ∧ (s.dev.part 0).st = .resident ∧ (∀ i < 4, i ≠ 1 → (aget? (s.dev.part 0).ctx i).isSome = true) ∧ storing.dev.curCore.wb ≠ [] := by decide +kernel
theorem witness_save_homes : AtHomes saving.dev := by constructor <;> decide +kernel
/-- The core of `saving` waits for matrix command `i` to begin its commit. -/
def committing (i : Instr) (a : Loc) : State := saving.modDev fun d => d.modCore 1 fun c => { c with commitWait := true, mxq := [{ mxCmd i with a := a }] }
theorem witness_committing (i : Instr) (a : Loc) : ((committing i a).dev.core 1).saving = true
    ∧ ((committing i a).dev.core 1).mxq = [{ mxCmd i with a := a }] := ⟨rfl, rfl⟩
theorem witness_arbiter : (placing (newG 0 2 0) false).dev.demand 0 0 ≠ [] ∧ ((placing (newG 0 2 0) false).dev.core 0).part = some 0
    ∧ ((atReset 0 0 0 true).modDev fun d => d.setCore 0 { Core.reset with part := some 0 }).dev.demand 0 0 = [] := by decide +kernel
/-- The context of rank 1 of partition 1 is saved, and core 5 is free. -/
def resumable : State := { State.reset with
  dev := { Dev.reset with parts := [(1, { Part.reset with st := .descheduled, ctx := [(1, ⟨Core.reset, 0, []⟩)], cfg := { PartRec.reset with hbase := 4, hlen := 2 } })] }
  args := { StepArgs.reset with a := 5, b := 1 } }
theorem witness_resume : let s := resumable
    (s.dev.part 1).cfg.hbase ≤ s.args.a ∧ aget? (s.dev.part 1).ctx (s.args.a - (s.dev.part 1).cfg.hbase) = some ⟨Core.reset, 0, []⟩ ∧ (s.dev.part 1).st ≠ .stopped
      ∧ (s.dev.core 5).part = none ∧ (s.dev.core 5).lost = false ∧ s.dev.overlapped 1 = false
      ∧ (∀ k < 16, (Core.reset.slot k).pend = [] ∧ (Core.reset.slot k).wait = .none) := by decide +kernel
theorem witness_resume_homes : AtHomes resumable.dev := by constructor <;> decide +kernel
/-- Partition 0 is started. -/
def started0 : State := { State.reset with dev := { Dev.reset with parts := [(0, { Part.reset with started := true, cfg := { PartRec.reset with hlen := 2 } })] } }
theorem witness_schedule : (started0.dev.part 0).st = .stopped ∧ (started0.dev.part 0).started = true ∧ started0.dev.overlapped 0 = false
    ∧ (∀ i < 2, (started0.dev.core ((started0.dev.part 0).cfg.hbase + i)).part = none) ∧ (State.reset.dev.part 0).started = false
    ∧ (resumable.dev.part 1).st = .descheduled := by decide +kernel

/-- R96, R107: a task starts on rank 0 in slot 1 at block 3, and on rank 1 from its list; R100: a gang of 4 reserves ranks 0 to 3. -/
theorem test_placement :
    nextIs .taskPlacement (placing (newG 0 2 0) false) (fun t => (t.dev.core 0).tasks.map (fun x => (x.slots, x.base)) == [([0], 0), ([1], 3)]
      && (t.dev.slot 0 1).pc == 0x84) = true
    ∧ nextIs .taskPlacement { placing (newG 0 2 0) true with args := { StepArgs.reset with b := 1 } } (fun t => (t.dev.core 1).tasks.map (·.index) == [2]) = true
    ∧ nextIs .gangReservation (placing (newG 3 4 0) false) (fun t => (t.dev.part 0).resv == some ⟨0, 0, 4⟩) = true := by decide +kernel
/-- R148-R151: a frame into the inbox, and into the spill area, whose next SEQ for rank 1 is then 1; a drain; an acceptance. -/
theorem test_frames :
    nextIs .migrationFrameArrival (sent (.frame 0 1 (frame false)) [] [] 1) (fun t => (t.dev.core 1).inbox.length == 1 && (t.dev.slot 0 3).away) = true
    ∧ nextIs .migrationFrameArrival (sent (.frame 0 1 (frame false)) fullInbox [] 1) (fun t => aget? (t.dev.part 0).spillSeq 1 == some 1
      && (t.dev.core 1).spilled == 1) = true
    ∧ nextIs .migrationFrameArrival (behindSpill (.frame 0 1 (frame false)) 1) (fun t => (t.dev.core 1).spilled == 2 && (t.dev.core 1).inbox == []) = true
    ∧ nextIs .spillDrain spilt (fun t => (t.dev.core 1).spilled == 0 && (t.dev.core 1).inbox.length == 1) = true
    ∧ nextIs .inboxTake (taking (.frame (frame false))) (fun t => (t.dev.slot 1 6).occ && (t.dev.slot 1 6).guest && (t.dev.slot 1 6).xr 15 == 15
      && (t.dev.slot 1 6).pc == 0x84) = true := by decide +kernel
/-- R101, R142, R274: a launch message, an increment of counter 5 by 9, which ends `wfi`, and a repeated one. -/
theorem test_messages :
    nextIs .launchMessageArrival (sent (.launch 0 1 1) [] [] 0) (fun t => (t.dev.core 1).inbox == [.launch 1] && t.dev.net == []) = true
    ∧ nextIs .launchMessageArrival (sent (.launch 0 1 1) fullInbox [] 0) (fun t => (t.dev.core 1).overflow.map (fun m => (m.group, m.entry)) == [(1, 0)]) = true
    ∧ nextIs .mailboxIncrement (sent (.incr 0 1 5 9 (0, 4)) [] [] 0) (fun t => vget (t.dev.core 1).counters 5 0 == 9 && (t.dev.slot 1 5).wait == .none) = true
    ∧ nextIs .mailboxIncrement (awaiting 9) (fun t => (t.dev.slot 1 5).wait == .none && (t.dev.slot 1 5).pc == 4) = true
    ∧ nextIs .mailboxIncrement answered (fun t => vget (t.dev.core 1).counters 5 0 == 0 && t.dev.net == []) = true
    ∧ nextIs .inboxTake (taking (.launch 1)) (fun t => (t.dev.core 1).tasks.length == 2 && (t.dev.core 1).inbox == []) = true := by decide +kernel
/-- R111: all 16 slots go to the only stream with demand; R114: an interrupt; R116: the commit is given up; R78: two cores of a started partition. -/
theorem test_schedule :
    nextIs .arbiterPass (placing (newG 0 2 0) false) (fun t => (t.dev.core 0).qown == Vector.replicate 16 0) = true
    ∧ nextIs .coreSave storing (fun t => (t.dev.core 0).saving && (t.dev.core 0).part == some 0) = true
    ∧ nextIs .saveCommitTimeout (committing (.mld 3 1 1) (.glob 0x40)) (fun t => !(t.dev.core 1).commitWait) = true
    ∧ nextIs .saveCommitTimeout (committing (.lclr 2) (.loc 0)) (fun t => (t.dev.core 1).commitWait) = true
    ∧ nextIs .partitionSchedule started0 (fun t => (t.dev.part 0).st == .resident && (t.dev.core 1).part == some 0) = true := by decide +kernel

/-! ### Arrivals, walks, routines, resends, other modules (R41, R43, R122, R131, R160-R172, R250, R274, R275, R366-R372) -/

/-- Slot 0 of core 0 waits for fetch line 1 of its text, which holds 9 in byte 0x90. -/
def fetching : State := { th fun s => { s with wait := .fetch 1 } with args := { StepArgs.reset with b := 1 } }.modDev fun d => { d with mem := [(0x90, 9)] }
theorem witness_ifetchFill : let s := fetching
    (s.dev.slot 0 0).occ = true ∧ (s.dev.slot 0 0).wait = .fetch 1 ∧ s.dev.lineHeld 1 = false ∧ s.dev.poisoned 1 = false
      ∧ aget? s.dev.regs 1 = none ∧ s.dev.hasUoc 1 = false ∧ s.args.b = 1 := by decide +kernel
/-- Slot 0 waits for stash entry 512, which maps GVA 0x100; its page lies at PA 0x110000. -/
def stashing : State := { (tables false (openLeaf ||| 0x110000)) with args := { StepArgs.reset with b := 512 } }.modDev fun d =>
  { d with mem := d.mem.set 0x110104 9 }.modCore 0 fun c => { c with
    stash := [(512, ⟨.mapped, 0x100, 2, false, 0, false, 0, 0⟩)], slots := vset c.slots 0 { c.slot 0 with wait := .stash 512 } }
/-- How a stash fill translates. -/
def fillAccess : Access := { read := true, user := false, twinOk := true }
theorem witness_stashFill : okAnd (engTrans 0 0 fillAccess 0x100 stashing.dev) (fun r => r.1.pa / 128 == 0x2202 && decide (r.2.cores = stashing.dev.cores)
      && decide (r.2.regs = stashing.dev.regs) && !r.2.poisoned 0x2202 && !r.2.lineHeld 0x2202 && (aget? r.2.regs 0x2202).isNone && !r.2.hasUoc 0x2202 && r.2.mem.wf
      && (r.2.core 0).lmem.wf) = true
    ∧ aget? (stashing.dev.core 0).stash 512 = some ⟨.mapped, 0x100, 2, false, 0, false, 0, 0⟩ ∧ stashing.args.b = 512 := by decide +kernel
/-- Result 7 of slot 0 has failed, and its trap is due. -/
def deferring : State := th fun s => { s with deferred := [(7, ⟨.dataerr, 9⟩)] }
theorem witness_deferredTrap : let a := deferring.dev.slot 0 0
    a.occ = true ∧ a.away = false ∧ a.mode = false ∧ a.pend = [] ∧ a.wait = .none
      ∧ a.deferred.find? (fun p => !a.mode || decide (a.trapPid ≤ p.1)) = some (7, ⟨.dataerr, 9⟩) := by decide +kernel

/-- The hamper of quad 0 holds page 5, which slot 2 waits for; the thread is in supervisor mode with X[1] = `x`. -/
def hampered (x : Word) : State := (sup fun s => s.setX 1 x).modDev fun d => (d.setQuad 0 { Quad.reset with hamper := [⟨0, 0, 5, true, false, 1⟩] }).modSlot 0 2 fun s =>
  { s with occ := true, part := 0, wait := .fault 0x50000 }
theorem witness_fltrd : Ready { rx := [1], wx := [3] } (hampered 0) ∧ (hampered 0).dev.th.mode = true ∧ uv ((hampered 0).dev.x 1) % 4096 < (hampered 0).dev.tpart.cfg.hlen
    ∧ ((hampered 0).dev.quad 0).hamper.find? (fun e => e.idx == 0 && e.part == (hampered 0).dev.th.part) = some ⟨0, 0, 5, true, false, 1⟩
    ∧ (hampered 4).dev.tpart.cfg.hlen ≤ uv ((hampered 4).dev.x 1) % 4096 ∧ (hampered 0).dev.tpart.cfg.hbase = 0 := by unfold Ready; decide +kernel
theorem witness_fltreplay : Released (hampered 0) .pkg ∧ (hampered 0).dev.tpart.sweeps = [] ∧ (hampered 0).dev.th.wait = .none
    ∧ ((hampered 0).dev.slot 0 2).part = (hampered 0).dev.th.part ∧ ((hampered 0).dev.slot 0 2).occ = true
    ∧ ((hampered 0).dev.slot 0 2).wait = .fault 0x50000 := by unfold Released; decide +kernel
/-- A walk of page 0 that slot 0 waits for, with a write or not, is under way in quad 0; there is a page, or no page table. -/
def walking (w : Bool) (s : State) : State := { s with args := StepArgs.reset }.modDev fun d =>
  (d.setQuad 0 { Quad.reset with coal := [(0, 0)] }).modSlot 0 0 fun t => { t with wait := .walk 0x40 w false }
def closedLeaf : Word := openLeaf &&& ~~~(BitVec.ofNat 64 (3 * 2 ^ 51))
theorem witness_pageWalk (w : Bool) : let s := walking w (tables false closedLeaf)
    (0, 0) ∈ (s.dev.quad 0).coal ∧ okAnd (walk 0 0 s.dev) (fun x => x.1 == some ⟨false, false, closedLeaf, 0x102000, 0, 0⟩) = true ∧ leafOk false closedLeaf = true
      ∧ (s.dev.slot 0 0).part = 0 ∧ (s.dev.slot 0 0).wait = .walk 0x40 w false ∧ leafWr closedLeaf = true
      ∧ leafRemote closedLeaf = false ∧ (((s.dev.part 0).cfg.rangeOf (leafAddr false closedLeaf 0x40)).all fun r => !r.rdonly) = true := by cases w <;> decide +kernel
theorem witness_pageWalk_none : let s := walking false base
    okAnd (walk 0 0 s.dev) (fun x => x.1 == none) = true ∧ (s.dev.quad 0).hamper = [] ∧ (s.dev.quad 0).dropped = [] ∧ s.dev.presentIn 0 = [0]
      ∧ (0, 0) ∈ (s.dev.quad 0).coal ∧ (s.dev.slot 0 0).mode = false ∧ (s.dev.slot 0 0).uvec = 0 := by decide +kernel
theorem witness_pageWalk_homes : AtHomes (walking true (tables false closedLeaf)).dev ∧ AtHomes (walking false base).dev := by
  refine ⟨by constructor <;> decide +kernel, by constructor <;> decide +kernel⟩

/-- X[1] = 0x80, V[2] = 1 in every word; the flags of routine entry 3 are `f`. -/
def invoking (f : BitVec 5) (det : Bool) : State := (xs 0x80 0).modDev fun d => (d.modPart 0 fun p => { p with cfg := { p.cfg with det } }).modCore 0 fun c => { c with
  rflags := vset c.rflags 3 f, slots := vset c.slots 0 { c.slot 0 with v := vset (c.slot 0).v 2 (BitVec.ofNat 512 (2 ^ 480 * 7 + 1)) } }
def tr80 : Trans := ⟨0x80, openLeaf, false, false, 0x80, false⟩
theorem witness_satom : Ready { rx := [1], wx := [3], rv := [2], rs := [1] } (invoking 0x10 false)
    ∧ OnLine (invoking 0x10 false) 1 ((invoking 0x10 false).dev.x 1) 128 128 { r := true, w := true, l0 := true } { read := true, write := true, user := true } tr80
    ∧ OnLine (invoking 0x12 false) 1 ((invoking 0x12 false).dev.x 1) 128 128 { r := true, w := false, l0 := true } { read := true, write := false, user := true } tr80
    ∧ (invoking 0x15 true).dev.tpart.cfg.det = true ∧ (invoking 0x10 false).dev.th.mode = false := by
  refine ⟨by unfold Ready; decide +kernel, by constructor <;> decide +kernel, by constructor <;> decide +kernel, by decide +kernel, by decide +kernel⟩
theorem witness_srsync : Ready {} base ∧ Released base .pkg ∧ AtHomes base.dev ∧ base.dev.rangeHeld (base.dev.tpart.cfg.rtbase + 48) 16 = none
    ∧ base.dev.rangePoisoned (base.dev.tpart.cfg.rtbase + 48) 16 = false ∧ base.dev.tpart.cfg.rtbase % 16 = 0 ∧ base.dev.curCore.part = some base.dev.th.part := by
  refine ⟨by unfold Ready; decide +kernel, by unfold Released; decide +kernel, by constructor <;> decide +kernel, by decide +kernel⟩
/-- `add` of the payload to every 32-bit lane, then `get y0` of lane 2, then `done`. -/
def adding : List HWord := [0x08000000, 0xA8004000, 0xF8000000]
/-- The home of line 0 has an invocation with the ticket `t` of a routine that is cached, ordered or not; the counter of the line is 7. -/
def darning (ord ro : Bool) (code : List HWord) (t : Nat) : State :=
  (asked (.satom 0 3 (BitVec.ofNat 512 (2 ^ 480 * t + 2 ^ 64 * 5))) none).modDev fun d => { d with
    mem := [(8, 4), (124, 7)], rcache := [⟨0, 0, 3, false, ro, ord, code⟩] }.modSlot 0 0 fun s =>
      { s with pend := [⟨0, .satom 5 0, List.replicate 8 0, 1, none⟩] }
theorem witness_darnInvocation (ord ro : Bool) (t : Nat) (h : t = 6 ∨ t = 7 ∨ t = 8) : let s := darning ord ro adding t
    let q := request (.satom 0 3 (BitVec.ofNat 512 (2 ^ 480 * t + 2 ^ 64 * 5))) none
    NextAtHome s q ∧ q.line = s.args.a ∧ s.dev.cachedRoutine q.home q.part 3 = some ⟨0, 0, 3, false, ro, ord, adding⟩ ∧ s.args.c = 0 ∧ s.args.ok2 = false
      ∧ s.args.b = 0 ∧ s.dev.obuf = [] ∧ BitVec.ofNat 32 (s.dev.mem.nat (128 * q.line + 124) 4) = 7
      ∧ (s.dev.slot q.rank q.slot).pend.map (fun p => (p.id, p.post)) = [(0, .satom 5 0)] := by
  rcases h with rfl | rfl | rfl <;> revert ord ro <;> intro ord ro <;> cases ord <;> cases ro <;> exact ⟨by constructor <;> decide +kernel, by decide +kernel⟩
theorem witness_addingRoutine : (runRoutine adding (lineSet 0 8 4 4) (BitVec.ofNat 512 (2 ^ 64 * 5))).ran + 8 ≤ 48 ∧ newer (8 : HWord) 7 = true
    ∧ newer (6 : HWord) 7 = false ∧ (6 : HWord) ≠ 7 := by decide +kernel

/-- The AMO of `asked` was sent `n` times under tag 4, and stands at its home or does not. -/
def resending (n : Nat) (refused standing : Bool) : State :=
  let q := request (.amo 0 0x40 true .add 5 0 none) (some 4)
  { (asked (.amo 0 0x40 true .add 5 0 none) (some 4)) with args := { StepArgs.reset with b := 4 } }.modDev fun d =>
    { d with homeQ := if standing then [q] else [] }.modCore 0 fun c => { c with out := [(4, ⟨some q, none, none, none, n, refused⟩)] }
theorem witness_resend : let q := request (.amo 0 0x40 true .add 5 0 none) (some 4)
    aget? ((resending 0 false true).dev.core 0).out 4 = some ⟨some q, none, none, none, 0, false⟩ ∧ (1 : Nat) ≤ 7 ∧
    aget? ((resending 1 false true).dev.core 0).out 4 = some ⟨some q, none, none, none, 1, false⟩ ∧ q.rank = 0 ∧ q.tag = some 4
      ∧ (resending 1 false true).dev.accepted q = false ∧ ((resending 8 false true).dev.part 0).elogQ = [] ∧ (resending 8 false true).dev.accepted q = false ∧ (∀ x ∈ (resending 1 false false).dev.homeQ, ¬(x.rank = 0 ∧ x.tag = some 4))
      ∧ ((resending 1 true false).dev.core 0).saving = false ∧ aget? ((resending 8 false true).dev.core 0).out 4 = some ⟨some q, none, none, none, 8, false⟩
      ∧ aget? ((resending 8 false true).dev.part 0).ctx 0 = none ∧ ((resending 8 false true).dev.part 0).devRank 0 = 0
      ∧ pendOne ∈ ((resending 8 false true).dev.slot 0 0).pend ∧ pendOne.id = 0 ∧ pendOne.err = none := by decide +kernel
/-- Module 5 may read and write 4,096 bytes from 0x40 for partition 0, and asks for `op` at their first byte. -/
def asking (op : RemoteOp) (module : Nat) : State := { base with args := { StepArgs.reset with remote := ⟨module, 3, 1, 0, 0, op⟩ } }.modDev fun d =>
  { d with exports := [⟨5, 0, 0x40, 4096, true⟩], mem := [(0x40, 9)] }
/-- Partition 0 is not configured. -/
def unknown (s : State) : State := s.modDev fun d => d.modPart 0 fun p => { p with configured := false }
theorem witness_remoteRequest : let s := asking (.amo .add true 5 0) 5
    s.dev.exportOf 5 0 0 8 true = some 0x40 ∧ s.dev.leased 0 = false ∧ s.dev.poisoned 0 = false ∧ s.dev.tagWin = [] ∧ (s.dev.part 0).elogQ = []
      ∧ (asking (.load 8) 6).dev.exportOf 6 0 0 8 false = none ∧ (unknown (asking (.load 8) 6)).dev.exportOf 6 0 0 8 false = none
      ∧ ((unknown (asking (.load 8) 6)).dev.part 0).configured = false ∧ ((asking (.load 8) 6).dev.part 0).configured = true := by decide +kernel
theorem witness_remoteRequest_homes (op : RemoteOp) (m : Nat) : AtHomes (asking op m).dev := by
  refine ⟨rfl, fun _ h => by cases List.mem_singleton.mp h; rfl, rfl, rfl, ⟨rfl, rfl⟩, rfl⟩
/-- Remote load 9 of slot 0 is under way. -/
def farLoad : RemoteOut := ⟨0, 0, some 0, 0, 8, none, 0, 0, 0x40, false, 9, none, none, none, (0x40, 8)⟩
def remoteLoad : State := { at40 with args := { StepArgs.reset with a := 9 } }.modDev fun d =>
  { d with remote := [(9, farLoad)] }.modSlot 0 0 fun s => { s with pend := [pendOne] }
theorem witness_remoteTimeout : aget? remoteLoad.dev.remote 9 = some farLoad ∧ pendOne ∈ (remoteLoad.dev.slot 0 0).pend
    ∧ remoteLoad.args.a = 9 ∧ (remoteLoad.dev.part 0).elogQ = [] := by decide +kernel

/-- R122, R131, R250: a fetch line and a stash line arrive; a deferred trap is taken. -/
theorem test_fills :
    nextIs .ifetchFill fetching (fun t => (aget? t.dev.curCore.l1i 1).map (fun l => lineNat l 0x10 1) == some 9 && t.dev.th.wait == .none) = true
    ∧ nextIs .stashFill stashing (fun t => (t.dev.curCore.lmem.get (128 * 512 + 4)) == 9 && aget? t.dev.regs 0x2202 == some (0, 512)
      && t.dev.curCore.stash.map (·.2.st) == [.clean] && t.dev.th.wait == .none) = true
    ∧ nextIs .deferredTrap deferring (fun t => t.dev.th.scause == 0x08 && t.dev.th.saddr == 9 && t.dev.th.sepc == 4 && t.dev.th.mode) = true := by
  decide +kernel
/-- R169, R172, R160, R165, R168: word 0 of a hamper entry (valid, write, page 5); a replay; walks. -/
theorem test_faults_walks :
    nextIs (.fltrd 3 1) (hampered 0) (fun t => t.dev.x 3 == 0xA000000000050000) = true
    ∧ nextIs (.fltreplay 1) (hampered 0) (fun t => (t.dev.quad 0).hamper == [] && (t.dev.slot 0 2).wait == .none) = true
    ∧ nextIs .pageWalk (walking true (tables false closedLeaf)) (fun t => t.dev.mem.nat 0x102000 8 == openLeaf.toNat && t.dev.th.wait == .none) = true
    ∧ nextIs .pageWalk (walking false base) (fun t => (t.dev.quad 0).hamper.map (·.page) == [0] && t.dev.th.wait == .fault 0x40) = true := by decide +kernel
/-- R370, R372, R366, R368: `satom` sends its invocation; an entry that is not valid is SLICE; the routine runs on the line; a later ticket
waits, and an equal one counts on. -/
theorem test_darn :
    nextIs (.satom 3 1 2 3 0) (invoking 0x10 false) (fun t => t.dev.homeQ.map (·.line) == [1] && t.dev.th.pc == 8) = true
    ∧ nextIs (.satom 3 1 2 3 0) (invoking 0 false) (fun t => t.dev.th.scause == 0x0B && t.dev.th.saddr == 0x80) = true
    ∧ nextIs (.srsync 3) (base.modDev fun d => { d with rcache := [⟨0, 0, 3, false, false, false, []⟩] }) (fun t => t.dev.rcache == [] && t.dev.th.pc == 8) = true
    ∧ nextIs .darnInvocation (darning false false adding 0) (fun t => t.dev.mem.nat 8 4 == 9 && t.dev.th.pend.map (fun p => (leNat p.raw, p.need)) == [(9, 0)]) = true
    ∧ nextIs .darnInvocation (darning true false adding 7) (fun t => t.dev.mem.nat 124 4 == 8 && t.dev.mem.nat 8 4 == 9) = true
    ∧ nextIs .darnInvocation (darning true false adding 8) (fun t => t.dev.obuf.map (·.ticket) == [8] && t.dev.mem.nat 8 4 == 4) = true := by decide +kernel
/-- R274, R275, R368: a resend of a request that stands, of one that does not, of a refused one, and the end of the resends. -/
theorem test_resends :
    nextIs .tagResend (resending 1 false true) (fun t => t.dev.homeQ.length == 2 && t.dev.curCore.out.map (·.2.sends) == [2]) = true
    ∧ nextIs .tagResend (resending 1 false false) (fun t => t.dev.homeQ.length == 1) = true
    ∧ nextIs .ordRefusalResend (resending 1 true false) (fun t => t.dev.homeQ.length == 1 && t.dev.curCore.out.map (·.2.refused) == [false]) = true
    ∧ nextIs .resendExhausted (resending 8 false true) (fun t => t.dev.th.pend.map (·.err) == [some ⟨.dataerr, 0x40⟩] && t.dev.curCore.out == []) = true := by
  decide +kernel
/-- R41, R43: an AMO and a store of module 5; a load of module 6, which no entry allows, leaves a record; a load of this module times out. -/
theorem test_remote :
    nextIs .remoteRequest (asking (.amo .add true 5 0) 5) (fun t => t.dev.mem.nat 0x40 8 == 14) = true
    ∧ nextIs .remoteRequest (asking (.store 2 0xABCD) 5) (fun t => t.dev.mem.nat 0x40 2 == 0xABCD) = true
    ∧ nextIs .remoteRequest (asking (.load 8) 6) (fun t => (t.dev.part 0).elogSeq == 1) = true
    ∧ nextIs .remoteRequest (unknown (asking (.load 8) 6)) (fun t => t.dev.flojoLog.map (recField · 88 8) == [0x0F] && (t.dev.part 0).elogSeq == 0) = true
    ∧ nextIs .remoteAccessTimeout remoteLoad (fun t => t.dev.remote == [] && t.dev.th.pend.map (·.err) == [some ⟨.dataerr, 0x40⟩]) = true := by decide +kernel

/-! ### Words, well-formedness and the step (R239-R252) -/

/-- The word `addi x1, x0, 5` stands at the PC, or another; the thread of `withFetchWord` waits as `w` says. -/
def fetched (word : Nat) : State := State.reset.withFetchWord 32 word
theorem witness_issues : Issues (fetched 0x08200005) 0 0 [] ∧ Issues (fetched 0) 0 0 []
    ∧ ((issueDev (fetched 0x08200005) 0 0).slot 0 0).wait.underWay = false := by unfold Issues; decide +kernel
theorem witness_fetchWord : { issueDev (fetched 0x08200005) 0 0 with cur := (0, 0) }.fetchWord = .ok 0x08200005 ∧ decode 0x08200005 = .ok (.addi 1 0 5)
    ∧ { issueDev (fetched 0) 0 0 with cur := (0, 0) }.fetchWord = .ok 0 ∧ decode 0 = .error .reservedMajor := by decide +kernel
/-- The text is not in the instruction cache. -/
def unfetched : State := (fetched 0).modDev fun d => d.modCore 0 fun c => { c with l1i := [] }
theorem witness_fetchStop : Issues unfetched 0 0 [] ∧ { issueDev unfetched 0 0 with cur := (0, 0) }.fetchWord = .error (.park (.fetch 0)) := by
  unfold Issues; decide +kernel
/-- The thread waits at a barrier whose phase is over, with `bar.cr x1, x2` under way. -/
def passing : State := (fetched 0).modDev fun d => { d with bars := [⟨⟨0, 2, 0, 0⟩, 4, 2, 0⟩] }.modSlot 0 0 fun s => { s with word := 0x90011000, wait := .bar ⟨0, 2, 0, 0⟩ 3 }
theorem witness_underWay : Issues passing 0 0 [] ∧ ((issueDev passing 0 0).slot 0 0).wait.underWay = true
    ∧ decode ((issueDev passing 0 0).slot 0 0).word = .ok (.barCr 1 2) := by unfold Issues; decide +kernel
theorem witness_idle : let s := { State.reset with schedule := [.core 0] }
    s.boot.off = false ∧ s.schedule = .core 0 :: [] ∧ { s.dev with time := s.dev.time + 1 }.chooseSlot [] 0 = none := by decide +kernel
theorem witness_encode : (Instr.addi 1 0 5).wf = true ∧ encode (.addi 1 0 5) = some 0x08200005 ∧ (encode (.addi 1 0 5)).isSome = true
    ∧ decode 0x08200005 = .ok (.addi 1 0 5) ∧ (encode .sqtail).isSome = false := by decide +kernel

/-- R258, R123: the first step after the placing of `addi x1, x0, 5` executes it, and the clock counts. -/
theorem test_step : (match step (fetched 0x08200005) with
    | .next t => (t.dev.slot 0 0).xr 1 == 5 && (t.dev.slot 0 0).pc == 8 && (t.dev.core 0).cycle == 1
    | _ => false) = true := by decide +kernel
/-- R242, R251: a word that no instruction has raises ILLEGAL with the word in SADDR. -/
theorem test_step_illegal : (match step (fetched 0xD0000001) with
    | .next t => (t.dev.slot 0 0).scause == 0x01 && (t.dev.slot 0 0).saddr == 0xD0000001
    | _ => false) = true := by decide +kernel
/-- R243, R276, R282, R293, R302, R305, R316, R329, R335: a term that each check of well-formedness refuses. -/
theorem test_illFormed : [
    Instr.amoswap 1 2 true .none .pkg 1 0, .amoadd 1 2 true .none .pkg 1 0, .amoand 1 2 true .none .pkg 1 0, .amoor 1 2 true .none .pkg 1 0,
    .amoxor 1 2 true .none .pkg 1 0, .amomin 1 2 true .none .pkg 1 0, .amomax 1 2 true .none .pkg 1 0, .amominu 1 2 true .none .pkg 1 0,
    .amomaxu 1 2 true .none .pkg 1 0, .amocas 1 2 true .acq .pkg 1 0, .amocas 2 2 true .none .pkg 1 0, .lver 3 1 2 1 0, .pver 3 1 2 1 0,
    .vfadd .i32 1 2 3 0, .vfsub .i64 1 2 3 0, .vfmul .i8 1 2 3 0, .vfma .i16 1 2 3 0, .vfnma .i32 1 2 3 0, .vfmin .i32 1 2 3 0, .vfmax .i32 1 2 3 0,
    .vfdiv .i32 1 2 3 0, .vfsqrt .i32 1 2 0, .vfrcp .i32 1 2 0, .vfexp2 .i32 1 2 0, .viadd .f32 1 2 3 0, .visub .f64 1 2 3 0, .vimul .f16 1 2 3 0,
    .vimin .bf16 1 2 3 0, .vimax .f32 1 2 3 0, .vand .f32 1 2 3 0, .vor .f32 1 2 3 0, .vxor .f32 1 2 3 0, .vsll .f32 1 2 3 0, .vsrl .f32 1 2 3 0,
    .vsra .f32 1 2 3 0, .vcvt .f32 .f32 1 2 0, .vgath32 31 1 0 1 0, .vgath64 31 1 0 1 0, .vscat32 31 1 0 1, .vscat64 31 1 0 1, .mscl .i32 1 2,
    .laddOuter 0 1 2, .laddOuter 0 2 1, .lldLocal 0 0 1, .lstLocal 0 0 1].all (fun i => !i.wf && (encode i).all fun w => decode w != .ok i) = true := by
  decide +kernel
/-- A word decodes to an instruction, which is well formed, and whose encoding is the word. -/
def reads (p : HWord × Instr) : Bool := decode p.1 == .ok p.2 && p.2.wf && encode p.2 == some p.1
/-- Words of the encoding tables, field by field. -/
theorem test_words_scalar : ([
    (0x06B26800, .add 21 18 13), (0x06B26810, .sub 21 18 13), (0x06B26820, .and 21 18 13), (0x06B26830, .or 21 18 13), (0x06B26840, .xor 21 18 13),
    (0x06B26850, .sll 21 18 13), (0x06B26860, .srl 21 18 13), (0x06B26870, .sra 21 18 13), (0x06B26880, .slt 21 18 13), (0x06B26890, .sltu 21 18 13),
    (0x06B268A0, .mul 21 18 13), (0x06B268B0, .mulh 21 18 13), (0x06B268C0, .mulhu 21 18 13), (0x06B268D9, .div 21 18 13 9),
    (0x06B268E9, .divu 21 18 13 9), (0x06B268F9, .rem 21 18 13 9), (0x06B26909, .remu 21 18 13 9), (0x06B26910, .min 21 18 13),
    (0x06B26920, .max 21 18 13), (0x06B26930, .minu 21 18 13), (0x06B26940, .maxu 21 18 13), (0x06B20150, .clz 21 18), (0x06B20160, .ctz 21 18),
    (0x06B20170, .popc 21 18), (0x0AB29C35, .addi 21 18 39989), (0x0EB29C35, .andi 21 18 39989), (0x12B29C35, .ori 21 18 39989),
    (0x16B29C35, .xori 21 18 39989), (0x1AB29C35, .slti 21 18 39989), (0x1EB29C35, .sltiu 21 18 39989), (0x22B2002B, .slli 21 18 43),
    (0x22B2402B, .srli 21 18 43), (0x22B2802B, .srai 21 18 43), (0x26A09C35, .lui 21 39989), (0x2AA09C35, .auipc 21 39989), (0x2EA0002B, .crr 21 43),
    (0x2EB2402B, .crw 21 18 43), (0x2EB2802B, .crs 21 18 43), (0x2EB2C02B, .crc 21 18 43), (0x324D01A5, .beq 18 13 421), (0x364D01A5, .bne 18 13 421),
    (0x3A4D01A5, .blt 18 13 421), (0x3E4D01A5, .bge 18 13 421), (0x424D01A5, .bltu 18 13 421), (0x464D01A5, .bgeu 18 13 421),
    (0x4AA001A5, .jal 21 421), (0x4EB29C35, .jalr 21 18 39989)] : List (HWord × Instr)).all reads = true := by decide +kernel
/-- Words of the encoding tables, field by field. -/
theorem test_words_memory : ([
    (0x52B2B3A5, .lb 21 18 5 9 421), (0x56B2B3A5, .lbu 21 18 5 9 421), (0x5AB2B3A5, .lh 21 18 5 9 421), (0x5EB2B3A5, .lhu 21 18 5 9 421),
    (0x62B2B3A5, .lw 21 18 5 9 421), (0x66B2B3A5, .lwu 21 18 5 9 421), (0x6AB2B3A5, .ld 21 18 5 9 421), (0x6EB2A1A5, .sb 21 18 5 421),
    (0x72B2A1A5, .sh 21 18 5 421), (0x76B2A1A5, .sw 21 18 5 421), (0x7AB2A1A5, .sd 21 18 5 421), (0x7EB29509, .lacq 21 18 true .pod 5 9),
    (0x7EB29510, .srel 21 18 true .pod 5), (0x7C003020, .fenceAcq .pod), (0x7C005020, .fenceRel .pod), (0x7C007020, .fenceAr .pod),
    (0x7EB20530, .smap 21 18 5), (0x7EA00040, .sunmap 21), (0x7EA00050, .sflush 21)] : List (HWord × Instr)).all reads = true := by decide +kernel
/-- Words of the encoding tables, field by field. -/
theorem test_words_atomics : ([
    (0x82B2D509, .amoswap 21 18 true .rel .pod 5 9), (0x82B2D519, .amoadd 21 18 true .rel .pod 5 9), (0x82B2D529, .amoand 21 18 true .rel .pod 5 9),
    (0x82B2D539, .amoor 21 18 true .rel .pod 5 9), (0x82B2D549, .amoxor 21 18 true .rel .pod 5 9), (0x82B2D559, .amomin 21 18 true .rel .pod 5 9),
    (0x82B2D569, .amomax 21 18 true .rel .pod 5 9), (0x82B2D579, .amominu 21 18 true .rel .pod 5 9), (0x82B2D589, .amomaxu 21 18 true .rel .pod 5 9),
    (0x82D2D599, .amocas 22 18 true .rel .pod 5 9), (0x86126D00, .redadd true 18 13 5), (0x86126D10, .redand true 18 13 5),
    (0x86126D20, .redor true 18 13 5), (0x86126D30, .redxor true 18 13 5), (0x86126D40, .redmin true 18 13 5), (0x86126D50, .redmax true 18 13 5),
    (0x86126D60, .redfadd true 18 13 5), (0x88126D00, .sverNext 18 13 5), (0x8AB26D10, .sverNumbered 21 18 13 5), (0x8AD26D29, .lver 22 18 13 5 9),
    (0x8AD26D39, .pver 22 18 13 5 9), (0x88126D40, .rver 18 13 5), (0x8EB26D00, .lease 21 18 13 5), (0x8EB20510, .unlease 21 18 5)] : List (HWord × Instr)).all reads = true := by decide +kernel
/-- Words of the encoding tables, field by field. -/
theorem test_words_tasks : ([
    (0x90126800, .barCr 18 13), (0x90126810, .barQd 18 13), (0x90126820, .barDie 18 13), (0x90126830, .barPkg 18 13), (0x90126840, .barPod 18 13),
    (0x92B26880, .mbxadd 21 18 13), (0x90126890, .mbxwait 18 13), (0x92B200A0, .mbxrd 21 18), (0x96B26800, .spawn 21 18 13),
    (0x96B20010, .exit 21 18), (0x94000020, .yield), (0x96B20030, .migrate 21 18), (0x94000040, .upret)] : List (HWord × Instr)).all reads = true := by decide +kernel
/-- Words of the encoding tables, field by field. -/
theorem test_words_vector : ([
    (0x9AB26D60, .vfadd .bf16 21 18 13 5), (0x9AB26D61, .vfsub .bf16 21 18 13 5), (0x9AB26D62, .vfmul .bf16 21 18 13 5),
    (0x9AB26D63, .vfma .bf16 21 18 13 5), (0x9AB26D64, .vfnma .bf16 21 18 13 5), (0x9AB26D65, .vfmin .bf16 21 18 13 5),
    (0x9AB26D66, .vfmax .bf16 21 18 13 5), (0x9AB26D67, .vfdiv .bf16 21 18 13 5), (0x9AB20568, .vfsqrt .bf16 21 18 5),
    (0x9AB20569, .vfrcp .bf16 21 18 5), (0x9AB2056A, .vfexp2 .bf16 21 18 5), (0x9EB26DC0, .viadd .i16 21 18 13 5),
    (0x9EB26DC1, .visub .i16 21 18 13 5), (0x9EB26DC2, .vimul .i16 21 18 13 5), (0x9EB26DC3, .vimin .i16 21 18 13 5),
    (0x9EB26DC4, .vimax .i16 21 18 13 5), (0x9EB26DC5, .vand .i16 21 18 13 5), (0x9EB26DC6, .vor .i16 21 18 13 5),
    (0x9EB26DC7, .vxor .i16 21 18 13 5), (0x9EB26DC8, .vsll .i16 21 18 13 5), (0x9EB26DC9, .vsrl .i16 21 18 13 5),
    (0x9EB26DCA, .vsra .i16 21 18 13 5), (0xA0B26D60, .vcmpeq .bf16 5 18 13 5), (0xA0B26D61, .vcmplt .bf16 5 18 13 5),
    (0xA0B26D62, .vcmple .bf16 5 18 13 5), (0xA2B26D63, .vsel .bf16 21 18 13 5), (0xA0A22808, .pand 5 2 5), (0xA0A22809, .por 5 2 5),
    (0xA0A2280A, .pxor 5 2 5), (0xA0A2000B, .pnot 5 2), (0xA2A2000C, .ppop 21 2)] : List (HWord × Instr)).all reads = true := by decide +kernel
/-- Words of the encoding tables, field by field. -/
theorem test_words_vectorMoves : ([
    (0xA6B20560, .vbcast .bf16 21 18 5), (0xA6B26861, .vext .bf16 21 18 13), (0xA6B26D62, .vperm .bf16 21 18 13 5),
    (0xA6B26D63, .vslide .bf16 21 18 13 5), (0xA6B23524, .vcvt .f32 .i16 21 18 5), (0xA6B20D24, .vcvtF32E4m3 21 18 5),
    (0xA6B21544, .vcvtF32E5m2 21 18 5), (0xA6B22DA4, .vcvtE4m3F32 21 18 5), (0xA6B235C4, .vcvtE5m2F32 21 18 5), (0xAAB20560, .vredsum .bf16 21 18 5),
    (0xAAB20561, .vredmax .bf16 21 18 5), (0xAAB20562, .vredmin .bf16 21 18 5), (0xAEB21D09, .vld .bf16 21 18 5 9), (0xAEB21D10, .vst .bf16 21 18 5),
    (0xAEB26D29, .vlds32 21 18 13 5 9), (0xAEB26D39, .vlds64 21 18 13 5 9), (0xAEB26D40, .vsts32 21 18 13 5), (0xAEB26D50, .vsts64 21 18 13 5),
    (0xAEB22D60, .vstm 21 18 5 5), (0xAEB22D79, .vgath32 21 18 5 5 9), (0xAEB22D89, .vgath64 21 18 5 5 9), (0xAEB22D90, .vscat32 21 18 5 5),
    (0xAEB22DA0, .vscat64 21 18 5 5), (0xB2B26D00, .vtopk 21 18 13 5), (0xB2B20001, .vplane 21 18), (0xB2B20002, .vunplane 21 18),
    (0xB0B26D03, .vtree 5 18 13 5), (0xB2B22804, .vq4xd 21 5 18)] : List (HWord × Instr)).all reads = true := by decide +kernel
/-- Words of the encoding tables, field by field. -/
theorem test_words_matrix : ([
    (0xB6B936D0, .mma 43 18 13 5 5), (0xB6B00001, .mzero 43), (0xB6B90282, .mld 43 18 5), (0xB6B90283, .mst 43 18 5), (0xB6B90284, .mstg 43 18 5),
    (0xB6B90085, .macc .i32 43 18), (0xB6B90106, .mscl .f64 43 18), (0xB4000007, .mfence), (0xB5500008, .mqstat 21), (0xBA801A00, .lcfg 5 13),
    (0xBA902CC0, .laddOuter 5 22 12), (0xBA9AFFF0, .laddTile 5 43), (0xBAA02AB0, .lread 5 21 11), (0xBABADA00, .lldTile 5 43 13),
    (0xBAB01A50, .lldLocal 5 5 13), (0xBACADA00, .lstTile 5 43 13), (0xBAC01A50, .lstLocal 5 5 13), (0xBAD00000, .lclr 5)] : List (HWord × Instr)).all reads = true := by decide +kernel
/-- Words of the encoding tables, field by field. -/
theorem test_words_copies : ([
    (0xBEA06800, .cpq 21 13), (0xBEA06810, .cpqn 21 13), (0xBEB20020, .cpcancel 21 18), (0xC2B20000, .sweep 21 18), (0xC2A00019, .twait 21 9),
    (0xC2A00020, .tdone 21), (0xC2B20030, .swstat 21 18), (0xC2B20040, .swcancel 21 18), (0xC6B26809, .kvlook 21 18 13 9),
    (0xC6B26810, .kvgath 21 18 13)] : List (HWord × Instr)).all reads = true := by decide +kernel
/-- Words of the encoding tables, field by field. -/
theorem test_words_system : ([
    (0xCAB26EA9, .satom 21 18 13 53 9), (0xC80006B0, .srsync 53), (0xCC000000, .trap), (0xCC000010, .sret), (0xCC120020, .wfi 18),
    (0xCCB26830, .segw 5 18 13), (0xCEA20840, .segr 21 2 1), (0xCC126850, .tlbinv 18 13), (0xCEB20060, .fltrd 21 18), (0xCC120070, .fltreplay 18),
    (0xCCB26880, .cinval 5 18 13), (0xCCB26890, .cflush 5 18 13), (0xCCB200A0, .publish 5 18)] : List (HWord × Instr)).all reads = true := by decide +kernel

end Sys2Proof.Tests
end

namespace Sys2Proof.Machine

/-! ### What leaves the boot state as it is -/

section BootFrame

@[simp] theorem State.boot_modDev (s : State) (g : Dev → Dev) : (s.modDev g).boot = s.boot := rfl
@[simp] theorem State.boot_modHost (s : State) (g : HostIf → HostIf) : (s.modHost g).boot = s.boot := rfl
@[simp] theorem State.boot_modFn (s : State) (f : Nat) (g : Fn → Fn) : (s.modFn f g).boot = s.boot := rfl
@[simp] theorem State.boot_setQueue (s : State) (f q : Nat) (y : Queue) : (s.setQueue f q y).boot = s.boot := rfl
@[simp] theorem State.boot_setKind (s : State) (n : Nat) (k : CmdKind) : (s.setKind n k).boot = s.boot := rfl
@[simp] theorem State.boot_modBoot (s : State) (g : Boot → Boot) : (s.modBoot g).boot = g s.boot := rfl

/-- A fold whose step leaves the boot state leaves it as a whole. -/
theorem foldl_boot {α : Type} {f : State → α → State} (h : ∀ s a, (f s a).boot = s.boot) (l : List α) (s : State) :
    (l.foldl f s).boot = s.boot := by
  induction l generalizing s with
  | nil => rfl
  | cons a l ih => rw [List.foldl_cons, ih, h]

/-! Completion queues, vectors, held events -/

@[simp] theorem State.boot_hostWrite (s : State) (iova n x : Nat) : (s.hostWrite iova n x).boot = s.boot := by
  unfold State.hostWrite; split <;> simp

@[simp] theorem State.boot_sendVector (s : State) (f v : Nat) : (s.sendVector f v).boot = s.boot := by
  simp only [State.sendVector]; split <;> simp

@[simp] theorem State.boot_trySend (s : State) (f q : Nat) : (s.trySend f q).boot = s.boot := by
  simp only [State.trySend]; split <;> simp

@[simp] theorem State.boot_putRecord (s : State) (f q : Nat) (x : BitVec 128) : (s.putRecord f q x).boot = s.boot := by
  simp [State.putRecord]

@[simp] theorem State.boot_drainCq (s : State) (f q n : Nat) : (s.drainCq f q n).boot = s.boot := by
  induction n generalizing s with
  | zero => rfl
  | succ n ih =>
    simp only [State.drainCq]
    split
    · split
      · rfl
      · simp [ih]
    · rfl

@[simp] theorem State.boot_addRecord (s : State) (f q : Nat) (x : BitVec 128) : (s.addRecord f q x).boot = s.boot := by
  simp only [State.addRecord]; split <;> simp

@[simp] theorem State.boot_event (s : State) (f gen q : Nat) (x : BitVec 128) : (s.event f gen q x).boot = s.boot := by
  simp only [State.event]
  split
  · rfl
  · split <;> simp

@[simp] theorem State.boot_flushHeld (s : State) (f : Nat) : (s.flushHeld f).boot = s.boot := by
  simp only [State.flushHeld]
  split
  · rfl
  · rw [State.boot_modFn, foldl_boot fun s v => State.boot_sendVector s f v, foldl_boot fun s (e : HeldEvent) => State.boot_addRecord s f e.queue e.record,
      State.boot_modFn]

@[simp] theorem State.boot_partChanged (s : State) (p : Nat) : (s.partChanged p).boot = s.boot := foldl_boot State.boot_flushHeld _ _

/-! Commands -/

@[simp] theorem State.boot_complete (s : State) (f gen q cid : Nat) (nocqe : Bool) (status info : Nat) :
    (s.complete f gen q cid nocqe status info).boot = s.boot := by
  unfold State.complete; split <;> simp

@[simp] theorem State.boot_answer (s : State) (status info : Nat) : (s.answer status info).boot = s.boot := by
  simp [State.answer]

@[simp] theorem State.boot_begin (s : State) (p : Nat) (k : CmdKind) : (s.begin_ p k).2.boot = s.boot := rfl
@[simp] theorem State.boot_start (s : State) (p : Nat) (k : CmdKind) : (s.start p k).boot = s.boot := rfl
@[simp] theorem State.boot_cmdHeld (s : State) (n : Nat) (c : Cmd) (l : Option Nat) (w : Bool) : (s.cmdHeld n c l w).boot = s.boot := rfl
@[simp] theorem State.boot_logHostPoison (s : State) (p t a : Nat) : (s.logHostPoison p t a).boot = s.boot := rfl

@[simp] theorem State.boot_endCmd (s : State) (n status info : Nat) : (s.endCmd n status info).boot = s.boot := by
  unfold State.endCmd; split <;> simp

theorem State.boot_vfCommand {s : State} {sup : Bool} {fields : List (Nat × Nat × Nat)} {run : Nat → State}
    (h : ∀ p, (run p).boot = s.boot) : (s.vfCommand sup fields run).boot = s.boot := by
  simp only [State.vfCommand]
  repeat' split
  all_goals simp [h]

theorem State.boot_pfCommand {s : State} {fields : List (Nat × Nat × Nat)} {run : State} (h : run.boot = s.boot) :
    (s.pfCommand fields run).boot = s.boot := by
  simp only [State.pfCommand]
  repeat' split
  all_goals simp [h]

theorem State.boot_onVf {s : State} {fields : List (Nat × Nat × Nat)} {run : Nat → State} (h : ∀ f, (run f).boot = s.boot) :
    (s.onVf fields run).boot = s.boot := by
  refine State.boot_pfCommand ?_
  dsimp only
  split
  · simp
  · exact h _

@[simp] theorem State.boot_launchAccept (s : State) (n : Nat) (c : Cmd) (x : Desc) (b gid : Nat) :
    (s.launchAccept n c x b gid).boot = s.boot := by
  simp only [State.launchAccept]; split <;> simp

@[simp] theorem State.boot_launchGo (s : State) (n : Nat) (c : Cmd) (x : BitVec 512) : (s.launchGo n c x).boot = s.boot := by
  unfold State.launchGo
  dsimp only
  split
  · simp
  · split
    · simp
    · simp
    · split
      · simp
      · split <;> simp

@[simp] theorem State.boot_launchEnd (s : State) (n : Nat) : (s.launchEnd n).boot = s.boot := by
  unfold State.launchEnd
  repeat' split
  all_goals simp

theorem State.boot_copyhPiece {s : State} {p : Nat} {dir : Bool} {iova gva len done : Nat} {backs : List BackChoice} {r : State × List BackChoice}
    (h : s.copyhPiece p dir iova gva len done backs = .ok r) : r.1.boot = s.boot := by
  simp only [State.copyhPiece] at h
  repeat' split at h
  all_goals cases h
  · simp
  · rfl

theorem State.boot_fillPiece {s : State} {p gva len done : Nat} {pat : Word} {backs : List BackChoice} {r : State × List BackChoice}
    (h : s.fillPiece p gva len done pat backs = .ok r) : r.1.boot = s.boot := by
  simp only [State.fillPiece] at h
  repeat' split at h
  all_goals cases h
  rfl

/-- The end of a piece leaves the boot state, where the piece left it. -/
theorem State.boot_pieceDone {s : State} {n : Nat} {c : Cmd} {done len k : Nat} {kind : Nat → List BackChoice → CmdKind}
    {p : Except CopyStop (State × List BackChoice)} (h : ∀ r, p = .ok r → r.1.boot = s.boot) :
    (s.pieceDone n c done len k kind p).boot = s.boot := by
  unfold State.pieceDone
  split
  · have := h _ rfl
    split <;> simpa using this
  all_goals simp

@[simp] theorem State.boot_tableStop (s : State) (n : Nat) (c : Cmd) (a : Nat) (e : EStop) : (s.tableStop n c a e).boot = s.boot := by
  cases e <;> simp [State.tableStop]

@[simp] theorem State.boot_routineGo (s : State) (n : Nat) (c : Cmd) : (s.routineGo n c).boot = s.boot := by
  simp only [State.routineGo]; split <;> simp

@[simp] theorem State.boot_mapGo (s : State) (n : Nat) (c : Cmd) : (s.mapGo n c).boot = s.boot := by
  simp only [State.mapGo]; split <;> simp

@[simp] theorem State.boot_cmdStep (s : State) (n : Nat) : (s.cmdStep n).boot = s.boot := by
  unfold State.cmdStep
  split
  · rfl
  · split
    · simp
    · simp
    · exact State.boot_pieceDone fun _ => State.boot_copyhPiece
    · exact State.boot_pieceDone fun _ => State.boot_fillPiece
    · split <;> simp
    · split <;> simp
    · dsimp only
      split <;> simp

@[simp] theorem State.boot_startStep (s : State) (p : Nat) (k : CmdKind) : (s.startStep p k).boot = s.boot := by
  simp [State.startStep]

@[simp] theorem State.boot_launch (s : State) : s.launch.boot = s.boot := State.boot_vfCommand fun _ => by simp
@[simp] theorem State.boot_copyh (s : State) : s.copyh.boot = s.boot := State.boot_vfCommand fun _ => by dsimp only; split <;> simp
@[simp] theorem State.boot_fill (s : State) : s.fill.boot = s.boot := State.boot_vfCommand fun _ => by dsimp only; split <;> simp
@[simp] theorem State.boot_signal (s : State) : s.signal.boot = s.boot := State.boot_vfCommand fun _ => by split <;> simp
@[simp] theorem State.boot_wait (s : State) : s.wait.boot = s.boot := State.boot_vfCommand fun _ => by split <;> simp
@[simp] theorem State.boot_routine (s : State) : s.routine.boot = s.boot :=
  State.boot_vfCommand fun _ => by dsimp only; (repeat' split) <;> simp
@[simp] theorem State.boot_map (s : State) : s.map.boot = s.boot := State.boot_vfCommand fun _ => by dsimp only; (repeat' split) <;> simp
@[simp] theorem State.boot_partcfg (s : State) : s.partcfg.boot = s.boot := State.boot_pfCommand (by split <;> simp)
@[simp] theorem State.boot_partstart (s : State) : s.partstart.boot = s.boot :=
  State.boot_pfCommand (by dsimp only; (repeat' split) <;> simp)
@[simp] theorem State.boot_abortPart (s : State) (p : Nat) : (s.abortPart p).boot = s.boot :=
  foldl_boot (fun s (c : Nat × Cmd) => State.boot_endCmd s c.1 _ _) _ _
@[simp] theorem State.boot_partstop (s : State) : s.partstop.boot = s.boot :=
  State.boot_pfCommand (by dsimp only; split <;> simp)
@[simp] theorem State.boot_vfbind (s : State) : s.vfbind.boot = s.boot := State.boot_onVf fun _ => by split <;> simp
@[simp] theorem State.boot_vfpause (s : State) : s.vfpause.boot = s.boot := State.boot_onVf fun _ => by simp
@[simp] theorem State.boot_vfresume (s : State) : s.vfresume.boot = s.boot := State.boot_onVf fun _ => by simp
@[simp] theorem State.boot_resetVf (s : State) (f : Nat) : (s.resetVf f).boot = s.boot := rfl
@[simp] theorem State.boot_vfreset (s : State) : s.vfreset.boot = s.boot := State.boot_onVf fun _ => by simp
@[simp] theorem State.boot_resetPf (s : State) : s.resetPf.boot = s.boot := foldl_boot State.boot_resetVf _ _
@[simp] theorem State.boot_maskset (s : State) : s.maskset.boot = s.boot :=
  State.boot_pfCommand (by dsimp only; (repeat' split) <;> simp)

@[simp] theorem State.boot_runCommand (s : State) : s.runCommand.boot = s.boot := by
  unfold State.runCommand
  split <;> simp

@[simp] theorem State.boot_fetchCmd (s : State) (f q : Nat) : (s.fetchCmd f q).boot = s.boot := by
  unfold State.fetchCmd
  dsimp only
  repeat' split
  all_goals simp

/-! Registers of a function -/

@[simp] theorem State.boot_setBase (s : State) (f q : Nat) (cq : Bool) (v : Word) : (s.setBase f q cq v).boot = s.boot := by
  simp only [State.setBase]; split <;> simp

@[simp] theorem State.boot_setQcfg (s : State) (f q : Nat) (v : Word) : (s.setQcfg f q v).boot = s.boot := by
  simp only [State.setQcfg]; split <;> simp

@[simp] theorem State.boot_setSqtail (s : State) (f q v : Nat) : (s.setSqtail f q v).boot = s.boot := by
  simp only [State.setSqtail]; split <;> simp

@[simp] theorem State.boot_setCqhead (s : State) (f q v : Nat) : (s.setCqhead f q v).boot = s.boot := by
  simp only [State.setCqhead]; split <;> simp

@[simp] theorem State.boot_setVfctl (s : State) (f : Nat) (v : Word) : (s.setVfctl f v).boot = s.boot := by
  simp [State.setVfctl]

@[simp] theorem State.boot_setMsix (s : State) (f off : Nat) (dword : Bool) (v : Word) : (s.setMsix f off dword v).boot = s.boot := by
  simp only [State.setMsix]; split <;> simp

@[simp] theorem State.boot_writeBlock (s : State) (f off : Nat) (dword : Bool) (v : Word) : (s.writeBlock f off dword v).boot = s.boot := by
  simp only [State.writeBlock]
  repeat' split
  all_goals simp

/-! The turn of a home slice -/

@[simp] theorem State.boot_serveOne (luck : DarnLuck) (s : State) (q : HomeReq) : (s.serveOne luck q).boot = s.boot := by
  unfold State.serveOne
  split <;> simp

@[simp] theorem State.boot_serveLine (s : State) (l : Nat) (want : Dev → HomeReq → Bool) (luck : DarnLuck) :
    (s.serveLine l want luck).boot = s.boot := by
  simp only [State.serveLine]
  repeat' split
  all_goals simp

end BootFrame
end Sys2Proof.Machine

namespace Sys2Proof.Machine
open Host (Outcome)

/-! ### What acts on the device alone -/

/-- The outcome is a next state that differs from `s` in the device alone. -/
def ActsOnDev (s : State) (o : Outcome State Fault Refusal) : Prop := ∃ d, o = .next { s with dev := d }

theorem actsOnDev_thread (s : State) (u : RegUse) (f : Dev → Chk Dev) : ActsOnDev s (s.thread u f) := ⟨_, rfl⟩
theorem actsOnDev_priv (s : State) (u : RegUse) (f : Dev → Chk Dev) : ActsOnDev s (s.priv u f) := ⟨_, rfl⟩
theorem actsOnDev_mxThread (s : State) (ok : Dev → Bool) (u : RegUse) (f : Dev → Chk Dev) : ActsOnDev s (s.mxThread ok u f) := ⟨_, rfl⟩
theorem actsOnDev_illegal (s : State) : ActsOnDev s s.illegal := ⟨_, rfl⟩
theorem ActsOnDev.ite {s : State} {c : Prop} [Decidable c] {o p : Outcome State Fault Refusal} (h : ActsOnDev s o) (k : ActsOnDev s p) :
    ActsOnDev s (if c then o else p) := by split <;> assumption

/-! The families whose instructions choose between a refusal and an effect -/

theorem actsOnDev_crAccess (rd ra : RegNo) (n : BitVec 6) (new : Word → Word → Option Word) (s : State) :
    ActsOnDev s (s.crAccess rd ra n new) := .ite (actsOnDev_illegal s) (.ite (actsOnDev_priv ..) (actsOnDev_thread ..))

theorem actsOnDev_vfloat (ty : VTy) (f : Fmt → RMode → Nat → Nat → Nat → Nat × FFlags) (readsVd : Bool) (vd va vb : RegNo) (srcs : List RegNo)
    (pm : PNo) (s : State) (rcr : List (BitVec 6)) : ActsOnDev s (s.vfloat ty f readsVd vd va vb srcs pm rcr) :=
  .ite (actsOnDev_thread ..) (actsOnDev_illegal s)

theorem actsOnDev_vint (ty : VTy) (f : Nat → Nat → Nat → Nat) (vd va vb : RegNo) (pm : PNo) (s : State) :
    ActsOnDev s (s.vint ty f vd va vb pm) := .ite (actsOnDev_illegal s) (actsOnDev_thread ..)

theorem actsOnDev_vgather (z : Nat) (vd ra : RegNo) (pm : PNo) (sg : SegNo) (la : La) (s : State) :
    ActsOnDev s (s.vgather z vd ra pm sg la) := .ite (actsOnDev_illegal s) (actsOnDev_thread ..)

theorem actsOnDev_vscatter (z : Nat) (vd ra : RegNo) (pm : PNo) (sg : SegNo) (s : State) :
    ActsOnDev s (s.vscatter z vd ra pm sg) := .ite (actsOnDev_illegal s) (actsOnDev_thread ..)

theorem actsOnDev_rungLocal (i : Instr) (lx : BitVec 3) (xo xl : RegNo) (locks : Bool) (s : State) :
    ActsOnDev s (s.rungLocal i lx xo xl locks) := .ite (actsOnDev_illegal s) (actsOnDev_mxThread ..)

/-- The steps that act on more than the device: those of the host, of its commands, of the boot ROM and Flojo, and of a home slice, which
may serve a command. -/
def beyondDev : Instr → Bool
  | .sqtail | .cqhead | .qcfg | .vfctl | .registerWrite | .launch | .copyh | .fill | .signal | .wait | .waitTimeout | .routine | .map
  | .partcfg | .partstart | .partstop | .vfbind | .vfpause | .vfresume | .vfreset | .functionLevelReset | .maskset | .loadimg | .attest
  | .raisever | .msixDeferredSend | .moduleReset | .dhcpv6Timeout | .fetchAttempt | .memoryTraining | .attestPost | .coreResume
  | .forwardedAccess | .homeQueueServe | .leaseGrant | .darnInvocation | .partitionSchedule | .thermalShutdown => true
  | _ => false

/-- Every other instruction and step acts on the device alone. -/
theorem exec_actsOnDev {i : Instr} {s : State} (h : beyondDev i = false) : ActsOnDev s (exec i s) := by
  cases i with
  | sqtail | cqhead | qcfg | vfctl | registerWrite | launch | copyh | fill | signal | wait | waitTimeout | routine | map | partcfg
  | partstart | partstop | vfbind | vfpause | vfresume | vfreset | functionLevelReset | maskset | loadimg | attest | raisever
  | msixDeferredSend | moduleReset | dhcpv6Timeout | fetchAttempt | memoryTraining | attestPost | coreResume | forwardedAccess
  | homeQueueServe | leaseGrant | darnInvocation | partitionSchedule | thermalShutdown => cases h
  | crr | crw | crs | crc =>
    simp only [exec, execCrr, execCrw, execCrs, execCrc]
    exact actsOnDev_crAccess ..
  | vfadd | vfsub | vfmul | vfma | vfnma | vfmin | vfmax | vfdiv | vfsqrt | vfrcp | vfexp2 =>
    simp only [exec, execVfadd, execVfsub, execVfmul, execVfma, execVfnma, execVfmin, execVfmax, execVfdiv, execVfsqrt, execVfrcp, execVfexp2]
    exact actsOnDev_vfloat ..
  | viadd | visub | vimul | vimin | vimax | vand | vor | vxor | vsll | vsrl | vsra =>
    simp only [exec, execViadd, execVisub, execVimul, execVimin, execVimax, execVand, execVor, execVxor, execVsll, execVsrl, execVsra]
    exact actsOnDev_vint ..
  | vgath32 | vgath64 =>
    simp only [exec, execVgath32, execVgath64]
    exact actsOnDev_vgather ..
  | vscat32 | vscat64 =>
    simp only [exec, execVscat32, execVscat64]
    exact actsOnDev_vscatter ..
  | lldLocal | lstLocal =>
    simp only [exec, execLldLocal, execLstLocal]
    exact actsOnDev_rungLocal ..
  | amocas =>
    simp only [exec, execAmocas]
    exact .ite ⟨_, rfl⟩ (actsOnDev_illegal s)
  | lver | pver | vcvt =>
    simp only [exec, execLver, execPver, execVcvt]
    exact .ite (actsOnDev_illegal s) (actsOnDev_thread ..)
  | mscl | laddOuter =>
    simp only [exec, execMscl, execLaddOuter]
    exact .ite (actsOnDev_illegal s) (actsOnDev_mxThread ..)
  | _ => exact ⟨_, rfl⟩

/-! ### The boot state that an outcome leaves -/

/-- The boot state that an outcome leaves; where it is no next state, `b`. -/
def bootAfter (b : Boot) : Outcome State Fault Refusal → Boot
  | .next t => t.boot
  | .fault _ | .refused _ => b

@[simp] theorem bootAfter_next (b : Boot) (t : State) : bootAfter b (.next t) = t.boot := rfl
@[simp] theorem bootAfter_to (b : Boot) (t : State) : bootAfter b t.to = t.boot := rfl

/-- The steps that act on the boot state: the host's register writes, the management commands, the boot ROM and Flojo. -/
def actsOnBoot : Instr → Bool
  | .registerWrite | .loadimg | .attest | .raisever | .moduleReset | .dhcpv6Timeout | .fetchAttempt | .memoryTraining | .attestPost
  | .thermalShutdown => true
  | _ => false

/-- Every other instruction and step leaves the boot state as it is. -/
theorem bootAfter_exec {i : Instr} {s : State} (h : actsOnBoot i = false) : bootAfter s.boot (exec i s) = s.boot := by
  cases hb : beyondDev i with
  | false =>
    obtain ⟨d, hd⟩ := exec_actsOnDev (s := s) hb
    rw [hd]
    rfl
  | true =>
    cases i with
    | registerWrite | loadimg | attest | raisever | moduleReset | dhcpv6Timeout | fetchAttempt | memoryTraining | attestPost
    | thermalShutdown => cases h
    | launch => exact State.boot_launch s
    | copyh => exact State.boot_copyh s
    | fill => exact State.boot_fill s
    | signal => exact State.boot_signal s
    | wait => exact State.boot_wait s
    | routine => exact State.boot_routine s
    | map => exact State.boot_map s
    | partcfg => exact State.boot_partcfg s
    | partstart => exact State.boot_partstart s
    | partstop => exact State.boot_partstop s
    | vfbind => exact State.boot_vfbind s
    | vfpause => exact State.boot_vfpause s
    | vfresume => exact State.boot_vfresume s
    | vfreset => exact State.boot_vfreset s
    | maskset => exact State.boot_maskset s
    | homeQueueServe | forwardedAccess | leaseGrant | darnInvocation => exact State.boot_serveLine ..
    | partitionSchedule => exact State.boot_partChanged ..
    | msixDeferredSend => exact State.boot_trySend ..
    | sqtail | cqhead | qcfg | vfctl | coreResume =>
      simp only [exec, execSqtail, execCqhead, execQcfg, execVfctl, execCoreResume, bootAfter_to]
      split <;> simp
    | functionLevelReset | waitTimeout =>
      simp only [exec, execFunctionLevelReset, execWaitTimeout, bootAfter_to]
      (repeat' split) <;> simp
    | _ => cases hb

end Sys2Proof.Machine

namespace Sys2Proof.Claims
open Machine

end Sys2Proof.Claims

namespace Sys2Proof.Machine

/-! ### The stages of the boot, case by case (R44, R45) -/

/-- The verdict of stage 2 against an image. -/
theorem imageStage_refused {s : State} {img : List Byte} {ok : Bool} {code : Nat} (h : verifyStage img s.boot.minImage 0x0004 = some code) :
    s.imageStage img ok = (some code, { s with boot := { s.boot with stage := 2 } }) := by
  have h' : verifyStage img (s.modBoot fun b => { b with stage := 2 }).boot.minImage 0x0004 = some code := h
  simp only [State.imageStage, h']
  rfl

/-- Its verdict for one: the image is measured, and the stewards are started. -/
theorem imageStage_taken {s : State} {img : List Byte} {ok : Bool} (h : verifyStage img s.boot.minImage 0x0004 = none) :
    s.imageStage img ok = (none, { s with boot := { s.boot.extend 1 (sha3 img) with
      stage := 2, runImage := Config.stageVersion img, fetched := some img } }.stewards ok) := by
  have h' : verifyStage img (s.modBoot fun b => { b with stage := 2 }).boot.minImage 0x0004 = none := h
  simp only [State.imageStage, h']
  rfl

/-- Stage 0 before its check. -/
def State.atRom (s : State) : State :=
  { s with boot := { s.boot with
      begun := true, stage := 0, errcode := 0, tries := 0, feport := false, recovery := false, ready := false, slaac := false, fetched := none } }

/-- Stage 1 as the boot ROM enters it: the first stage of module flash is measured, and runs. -/
def State.firstStage (s : State) : State :=
  { s.atRom with boot := { s.atRom.boot.extend 0 (sha3 s.boot.flashStage) with runFirst := Config.stageVersion s.boot.flashStage, stage := 1 } }

theorem bootRom_refused {s : State} {ok : Bool} {code : Nat} (h : verifyStage s.boot.flashStage s.boot.minFirst 0x0001 = some code) :
    s.bootRom ok = { s.atRom with boot := s.atRom.boot.fail code } := by
  have h' : verifyStage s.atRom.boot.flashStage s.atRom.boot.minFirst 0x0001 = some code := h
  simp only [State.bootRom]
  rw [show (s.modBoot _) = s.atRom from rfl, h']
  rfl

theorem bootRom_fetches {s : State} {ok : Bool} (h : verifyStage s.boot.flashStage s.boot.minFirst 0x0001 = none)
    (hk : s.boot.keptImage = none) : s.bootRom ok = s.firstStage := by
  have h' : verifyStage s.atRom.boot.flashStage s.atRom.boot.minFirst 0x0001 = none := h
  have hk' : s.firstStage.boot.keptImage = none := hk
  simp only [State.bootRom]
  rw [show (s.modBoot _) = s.atRom from rfl, h']
  dsimp only
  rw [show (s.atRom.modBoot _) = s.firstStage from rfl, hk']

/-- The kept image has been used. -/
def State.keptUsed (s : State) : State := { s with boot := { s.boot with keptImage := none } }

/-- A kept image is used once, in place of a fetch; where it fails, the module is back in stage 1. -/
theorem bootRom_kept {s : State} {ok : Bool} {img : List Byte} (h : verifyStage s.boot.flashStage s.boot.minFirst 0x0001 = none)
    (hk : s.boot.keptImage = some img) : s.bootRom ok =
      match s.firstStage.keptUsed.imageStage img ok with
      | (none, t) => t
      | (some _, t) => { t with boot := { t.boot with stage := 1 } } := by
  have h' : verifyStage s.atRom.boot.flashStage s.atRom.boot.minFirst 0x0001 = none := h
  have hk' : s.firstStage.boot.keptImage = some img := hk
  simp only [State.bootRom]
  rw [show (s.modBoot _) = s.atRom from rfl, h']
  dsimp only
  rw [show (s.atRom.modBoot _) = s.firstStage from rfl, hk']
  rfl

/-! ### LOADIMG, case by case (R46, R50) -/

/-- What LOADIMG reads: the host's buffer (R50). -/
def State.buffer (s : State) : List Byte := leBytes s.boot.mglen.toNat (s.host.hostMem.nat s.boot.mgiova.toNat s.boot.mglen.toNat)

/-- The verdict on a first stage, or on a device image, in the host's buffer. -/
def State.bufferVerdict (s : State) (first : Bool) : Option Nat :=
  verifyStage s.buffer (if first then s.boot.minFirst else s.boot.minImage) (if first then 0x0001 else 0x0004)

/-- The stage in the host's buffer is kept, and the command ends. -/
def State.bufferKept (s : State) (first : Bool) : State :=
  (s.modBoot fun b => if first then { b with flashStage := s.buffer } else { b with keptImage := some s.buffer }).mgEnd mgSuccess

theorem loadImage_long {s : State} {first ok : Bool} (h : 2 ^ 28 < s.boot.mglen.toNat) : s.loadImage first ok = s.mgEnd mgRefused := if_pos h

theorem loadImage_iommu {s : State} {first ok : Bool} (h : s.boot.mglen.toNat ≤ 2 ^ 28)
    (hf : s.iommuFault s.boot.mgiova.toNat s.boot.mglen.toNat = true) : s.loadImage first ok = s.mgEnd mgIommu := by
  unfold State.loadImage State.hostRead
  simp only [Nat.not_lt.mpr h, if_false, hf, if_true]

theorem loadImage_read {s : State} {first ok : Bool} (h : s.boot.mglen.toNat ≤ 2 ^ 28)
    (hf : s.iommuFault s.boot.mgiova.toNat s.boot.mglen.toNat = false) : s.loadImage first ok =
      match s.bufferVerdict first with
      | some code => s.mgEnd code
      | none => if (s.bufferKept first).boot.recovery then (s.bufferKept first).bootRom ok else s.bufferKept first := by
  unfold State.loadImage State.hostRead
  simp only [Nat.not_lt.mpr h, if_false, hf, Bool.false_eq_true]
  rfl

/-! ### An attempt to fetch an image, case by case (R45) -/

/-- Whether an attempt to fetch an image counts: the boot ROM has run, and the module is in stage 1 outside recovery. -/
def State.fetches (s : State) : Prop := s.boot.begun = true ∧ s.boot.stage = 1 ∧ s.boot.recovery = false

/-- An attempt counts, on the port that is its turn (R45). -/
def State.counted (s : State) : State :=
  { s with boot := { s.boot with feport := s.boot.tries % 2 == 1, tries := s.boot.tries + 1 } }

theorem fetchAttempt_none {s : State} {ok : Bool} (h : s.fetches) : s.fetchAttempt none ok = s.counted.failedFetch 0x0003 := by
  obtain ⟨hb, hs, hr⟩ := h
  simp [State.fetchAttempt, hb, hs, hr]
  rfl

theorem fetchAttempt_some {s : State} {ok : Bool} {img : List Byte} (h : s.fetches) : s.fetchAttempt (some img) ok =
    match s.counted.imageStage img ok with
    | (none, t) => t
    | (some code, t) => t.failedFetch code := by
  obtain ⟨hb, hs, hr⟩ := h
  simp [State.fetchAttempt, hb, hs, hr]
  rfl

theorem fetchAttempt_idle {s : State} {img : Option (List Byte)} {ok : Bool} (h : ¬s.fetches) : s.fetchAttempt img ok = s := by
  unfold State.fetchAttempt
  split
  · rfl
  · rename_i hc
    simp only [Bool.not_eq_true, Bool.or_eq_false_iff, Bool.not_eq_false', bne_eq_false_iff_eq] at hc
    exact absurd ⟨hc.1.1, hc.1.2, hc.2⟩ h

end Sys2Proof.Machine

namespace Sys2Proof.Claims
open Machine

/-! ### The legal boot states -/

/-- The fields of the boot state of which legality speaks. -/
def legalPart (b : Boot) : Nat × Nat × Bool × Bool × (Word × Word) × Word × Word :=
  (b.stage, b.tries, b.recovery, b.ready, (b.minFirst, b.minImage), b.runFirst, b.runImage)

/-- Legality is a matter of those fields alone. -/
theorem BootLegal.frame {b c : Boot} (h : BootLegal b) (e : legalPart c = legalPart b) : BootLegal c := by
  simp only [legalPart, Prod.mk.injEq] at e
  obtain ⟨e1, e2, e3, e4, ⟨e5, e6⟩, e7, e8⟩ := e
  constructor
  · exact e1 ▸ h.stage
  · exact e2 ▸ h.tries
  · rw [e1, e2, e3]; exact h.attempt
  · rw [e1, e3, e4]; exact h.ready
  · rw [e1, e5, e7]; exact h.first
  · rw [e1, e6, e8]; exact h.image

/-- A verified stage is not below its minimum version (R46). -/
theorem verifyStage_none {img : List Byte} {min : Word} {code : Nat} (h : verifyStage img min code = none) : min ≤ Config.stageVersion img := by
  unfold verifyStage at h
  split at h
  · cases h
  · split at h
    · cases h
    · exact BitVec.not_lt.mp ‹_›

/-- What holds while a verified first stage tries images: an attempt counts at most 16, the module is not ready, and the first stage that runs
has the version that the fuses ask for. -/
structure Trying (b : Boot) : Prop where
  tries : b.tries ≤ 16
  ready : b.ready = false
  first : b.minFirst ≤ b.runFirst

/-- A legal module in stage 1 outside recovery tries images, and has an attempt left. -/
theorem BootLegal.trying {b : Boot} (h : BootLegal b) (hs : b.stage = 1) : Trying b where
  tries := h.tries
  ready := by
    by_contra hr
    have := (h.ready (by simpa using hr)).1
    omega
  first := h.first (by omega)

/-- A stage that fails leaves a legal boot state (R45). -/
theorem BootLegal.fail {b : Boot} (h : BootLegal b) (code : Nat) : BootLegal (b.fail code) where
  stage := h.stage
  tries := h.tries
  attempt := by simp [Boot.fail]
  ready := by simp [Boot.fail]
  first := h.first
  image := h.image

/-- A module that tries images is legal in stage 1 while it has an attempt left, -/
theorem Trying.stage1 {b : Boot} (h : Trying b) (hs : b.stage = 1) (ht : b.tries < 16) : BootLegal b where
  stage := by omega
  tries := h.tries
  attempt _ _ := ht
  ready hr := by simp [h.ready] at hr
  first _ := h.first
  image := by omega

/-- and in a later stage once its image has the version that the fuses ask for. -/
theorem Trying.later {b : Boot} (h : Trying b) (h1 : b.stage ≠ 1) (h6 : b.stage ≤ 6) (hv : 3 ≤ b.stage → b.minImage ≤ b.runImage) :
    BootLegal b where
  stage := h6
  tries := h.tries
  attempt hs := absurd hs h1
  ready hr := by simp [h.ready] at hr
  first _ := h.first
  image := hv

/-- In stage 0 nothing is asked of the versions. -/
theorem bootLegal_stage0 {b : Boot} (hs : b.stage = 0) (ht : b.tries = 0) (hr : b.ready = false) : BootLegal b where
  stage := by omega
  tries := by omega
  attempt := by omega
  ready h := by simp [hr] at h
  first := by omega
  image := by omega

/-- A failed attempt: recovery after the 16th, and stage 1 again before (R45). -/
theorem failedFetch_legal {s : State} (h : Trying s.boot) (hs : s.boot.stage = 1 ∨ s.boot.stage = 2) (code : Nat) :
    BootLegal (s.failedFetch code).boot := by
  unfold State.failedFetch
  split
  · exact
    { stage := by simp [Boot.fail]; omega
      tries := h.tries
      attempt := by simp [Boot.fail]
      ready := by simp [Boot.fail]
      first := fun _ => h.first
      image := by simp [Boot.fail]; omega }
  · exact Trying.stage1 ⟨h.tries, h.ready, h.first⟩ rfl (Nat.not_le.mp ‹_›)

/-- Stages 3 and 4 on a verified image. -/
theorem stewards_legal {s : State} (h : Trying s.boot) (hv : s.boot.minImage ≤ s.boot.runImage) (ok : Bool) :
    BootLegal (s.stewards ok).boot := by
  have later (b : Boot) (hb : Trying b) (hv : b.minImage ≤ b.runImage) (hs : b.stage = 3 ∨ b.stage = 4) : BootLegal b :=
    hb.later (by omega) (by omega) fun _ => hv
  cases ok
  · exact (later { s.boot with stage := 3 } ⟨h.tries, h.ready, h.first⟩ hv (.inl rfl)).fail 0x0006
  · exact later _ ⟨h.tries, h.ready, h.first⟩ hv (.inr rfl)

/-- An image that stage 2 takes leads to a legal boot state, -/
theorem imageStage_legal {s t : State} {img : List Byte} {ok : Bool} (h : Trying s.boot) (e : s.imageStage img ok = (none, t)) :
    BootLegal t.boot := by
  cases hv : verifyStage img s.boot.minImage 0x0004 with
  | some code =>
    rw [imageStage_refused hv] at e
    cases e
  | none =>
    rw [imageStage_taken hv] at e
    cases e
    refine stewards_legal ?_ ?_ ok
    · exact ⟨h.tries, h.ready, h.first⟩
    · exact verifyStage_none hv

/-- and on one that it refuses the module is still trying. -/
theorem imageStage_trying {s t : State} {img : List Byte} {ok : Bool} {code : Nat} (h : Trying s.boot)
    (e : s.imageStage img ok = (some code, t)) : Trying t.boot ∧ t.boot.stage = 2 ∧ t.boot.tries = s.boot.tries := by
  cases hv : verifyStage img s.boot.minImage 0x0004 with
  | some c =>
    rw [imageStage_refused hv] at e
    cases e
    exact ⟨⟨h.tries, h.ready, h.first⟩, rfl, rfl⟩
  | none =>
    rw [imageStage_taken hv] at e
    cases e

/-! ### Each step that acts on the boot state keeps it legal -/

/-- The boot ROM leaves a legal boot state, whatever stood there (R44). -/
theorem bootRom_legal (s : State) (ok : Bool) : BootLegal (s.bootRom ok).boot := by
  have h0 : BootLegal s.atRom.boot := bootLegal_stage0 rfl rfl rfl
  cases hv : verifyStage s.boot.flashStage s.boot.minFirst 0x0001 with
  | some code =>
    rw [bootRom_refused hv]
    exact h0.fail code
  | none =>
    have h1 : Trying s.firstStage.boot := ⟨Nat.zero_le _, rfl, verifyStage_none hv⟩
    cases hk : s.boot.keptImage with
    | none =>
      rw [bootRom_fetches hv hk]
      exact h1.stage1 rfl (Nat.zero_lt_succ _)
    | some img =>
      have h2 : Trying s.firstStage.keptUsed.boot := ⟨h1.tries, h1.ready, h1.first⟩
      rw [bootRom_kept hv hk]
      split
      · exact imageStage_legal h2 ‹_›
      · obtain ⟨ht, -, hz⟩ := imageStage_trying h2 ‹_›
        exact Trying.stage1 ⟨ht.tries, ht.ready, ht.first⟩ rfl (hz ▸ Nat.zero_lt_succ _)

/-- An attempt to fetch an image (R45). -/
theorem fetchAttempt_legal {s : State} (h : BootLegal s.boot) (img : Option (List Byte)) (ok : Bool) :
    BootLegal (s.fetchAttempt img ok).boot := by
  by_cases hf : s.fetches
  · obtain ⟨-, hs, hr⟩ := id hf
    have ha : Trying s.counted.boot := ⟨h.attempt hs hr, (h.trying hs).ready, (h.trying hs).first⟩
    cases img with
    | none =>
      rw [fetchAttempt_none hf]
      exact failedFetch_legal ha (.inl hs) _
    | some img =>
      rw [fetchAttempt_some hf]
      split
      · exact imageStage_legal ha ‹_›
      · obtain ⟨ht, h2, -⟩ := imageStage_trying ha ‹_›
        exact failedFetch_legal ht (.inr h2) _
  · rw [fetchAttempt_idle hf]
    exact h

/-- Stage 4, and stages 5 and 6 (R44). -/
theorem train_legal {s : State} (h : BootLegal s.boot) (ok ok2 : Bool) (bad : List Nat) : BootLegal (s.train ok ok2 bad).boot := by
  simp only [State.train]
  split
  · exact h
  · rename_i hc
    simp only [Bool.not_eq_true, Bool.or_eq_false_iff, bne_eq_false_iff_eq] at hc
    obtain ⟨hs, hr⟩ := hc
    have ready (b : Boot) (e : legalPart b = legalPart { s.boot with stage := 6, ready := true }) : BootLegal b :=
      BootLegal.frame (b := { s.boot with stage := 6, ready := true })
        { stage := Nat.le_refl 6
          tries := h.tries
          attempt := fun h => absurd h (by simp)
          ready := fun _ => ⟨rfl, hr⟩
          first := fun _ => h.first (by omega)
          image := fun _ => h.image (by omega) } e
    split
    · exact h.fail _
    · split
      · exact h.fail _
      · split <;> exact ready _ rfl

/-- A management command ends (R50). -/
theorem mgEnd_legal {s : State} (h : BootLegal s.boot) (r : Nat) : BootLegal (s.mgEnd r).boot := h.frame rfl

theorem loadImage_legal {s : State} (h : BootLegal s.boot) (first ok : Bool) : BootLegal (s.loadImage first ok).boot := by
  by_cases hn : 2 ^ 28 < s.boot.mglen.toNat
  · rw [loadImage_long hn]
    exact mgEnd_legal h _
  cases hf : s.iommuFault s.boot.mgiova.toNat s.boot.mglen.toNat with
  | true =>
    rw [loadImage_iommu (Nat.not_lt.mp hn) hf]
    exact mgEnd_legal h _
  | false =>
    rw [loadImage_read (Nat.not_lt.mp hn) hf]
    split
    · exact mgEnd_legal h _
    · split
      · exact bootRom_legal _ ok
      · cases first <;> exact h.frame rfl

theorem attest_legal {s : State} (h : BootLegal s.boot) : BootLegal s.attest.boot := by
  simp only [State.attest]
  (repeat' split) <;> exact mgEnd_legal h _

/-- A minimum that is raised to the running version is that version where it was not above it. -/
theorem raised_le {min run : Word} (h : min ≤ run) : BitVec.ofNat 64 (max min.toNat run.toNat) ≤ run := by
  rw [Nat.max_eq_right (BitVec.le_def.mp h)]
  simp

/-- The fused minimum rises to the version that runs, and not above (R46). -/
theorem raise_legal {s : State} (h : BootLegal s.boot) (first : Bool) : BootLegal (s.raise first).boot := by
  unfold State.raise
  split
  · exact mgEnd_legal h _
  · cases first
    · exact ⟨h.stage, h.tries, h.attempt, h.ready, h.first, fun h3 => raised_le (h.image h3)⟩
    · exact ⟨h.stage, h.tries, h.attempt, h.ready, fun h1 => raised_le (h.first h1), h.image⟩

theorem writeMgmt_legal {s : State} (h : BootLegal s.boot) (off : Nat) (v : Word) : BootLegal (s.writeMgmt off v).boot := by
  simp only [State.writeMgmt]
  (repeat' split) <;> exact h.frame rfl

theorem writeReg_legal {s : State} (h : BootLegal s.boot) (f off : Nat) (dword : Bool) (v : Word) :
    BootLegal (s.writeReg f off dword v).boot := by
  simp only [State.writeReg]
  split
  · split
    · exact writeMgmt_legal h off v
    · split <;> simpa using h
  · split <;> simpa using h

/-- No instruction and no step makes the boot state illegal. -/
theorem exec_legal {b : Boot} {s : State} (h : BootLegal b) (hs : s.boot = b) (i : Instr) : BootLegal (bootAfter b (exec i s)) := by
  subst hs
  cases ha : actsOnBoot i with
  | false => rwa [bootAfter_exec ha]
  | true =>
    cases i with
    | registerWrite => exact writeReg_legal h ..
    | loadimg =>
      simp only [exec, execLoadimg, bootAfter_to]
      (repeat' split) <;> first | exact loadImage_legal h .. | exact h
    | attest =>
      simp only [exec, execAttest, bootAfter_to]
      split
      · exact attest_legal h
      · exact h
    | raisever =>
      simp only [exec, execRaisever, bootAfter_to]
      (repeat' split) <;> first | exact raise_legal h _ | exact h
    | moduleReset => exact bootRom_legal ..
    | fetchAttempt => exact fetchAttempt_legal h ..
    | memoryTraining => exact train_legal h ..
    | dhcpv6Timeout =>
      simp only [exec, execDhcpv6Timeout, bootAfter_to]
      split <;> exact h.frame rfl
    | attestPost =>
      simp only [exec, execAttestPost, bootAfter_to]
      split <;> exact h.frame rfl
    | thermalShutdown =>
      simp only [exec, execThermalShutdown, bootAfter_to]
      split <;> exact h.frame rfl
    | _ => cases ha

/-! ### Every turn keeps it -/

theorem runWord_legal {b : Boot} {s : State} (h : BootLegal b) (hs : s.boot = b) (w : HWord) : BootLegal (bootAfter b (s.runWord w)) := by
  unfold State.runWord
  split
  · exact exec_legal h hs _
  · exact hs ▸ h

theorem slotTurn_legal {s : State} (h : BootLegal s.boot) (r k : Nat) : BootLegal (bootAfter s.boot (s.slotTurn r k)) := by
  simp only [State.slotTurn]
  split
  · exact h
  · split
    · exact runWord_legal h (by rfl) _
    · split
      · exact h
      · exact runWord_legal h (by rfl) _

theorem coreTurn_legal {s : State} (h : BootLegal s.boot) (r : Nat) : BootLegal (bootAfter s.boot (s.coreTurn r)) := by
  unfold State.coreTurn
  split
  · exact h
  · rename_i k _
    have hk := slotTurn_legal h r k
    generalize s.slotTurn r k = o at hk ⊢
    cases o <;> exact hk

theorem event_legal {s : State} (h : BootLegal s.boot) (i : Instr) (args : StepArgs) : BootLegal (bootAfter s.boot (s.event_ i args)) := by
  unfold State.event_
  split
  · exact h
  · exact exec_legal h (by rfl) i

theorem runTurn_legal {b : Boot} {s : State} (h : BootLegal b) (hs : s.boot = b) (u : Turn) : BootLegal (bootAfter b (s.runTurn u)) := by
  subst hs
  cases u with
  | core r => exact coreTurn_legal h r
  | ev i args => exact event_legal h i args
  | fetchCmd f q => simpa [State.runTurn] using h
  | cmd n => simpa [State.runTurn] using h
  | measure reg digest =>
    simp only [State.runTurn, State.flojoExtend, bootAfter_next]
    split <;> exact h.frame rfl
  | configure => exact h.frame rfl
  | _ => exact h

theorem nextTurn_legal {s : State} (h : BootLegal s.boot) : BootLegal (bootAfter s.boot s.nextTurn) := by
  simp only [State.nextTurn]
  split
  · exact runTurn_legal h (by rfl) _
  · split
    · exact runTurn_legal h (by rfl) _
    · exact h

end Sys2Proof.Claims

section
open Sys2Proof Sys2Proof.Machine Sys2Proof.Claims

/-- Settles O39: the invariant is kept by every turn of the schedule. -/
theorem bootLegalKept : Obligations.BootLegalKept := by
  intro s t h e
  have hn := nextTurn_legal h
  unfold step at e
  split at e
  · cases e
  · rwa [e] at hn

/-- Settles O40: the boot ROM has not run, and nothing is asked of the versions. -/
theorem bootLegalAtReset : Obligations.BootLegalAtReset := ⟨bootLegal_stage0 rfl rfl rfl, rfl⟩

end

namespace Sys2Proof.Claims
open Machine

/-! ### Verdicts and measurements -/

/-- The verdict on a signed stage is that of its check. -/
theorem verdict_iff {img : List Byte} {min : Word} {sig : Nat} {v : Option Nat} : Verdict img min sig v ↔ verifyStage img min sig = v := by
  constructor
  · rintro (h | ⟨h, hv⟩ | ⟨h, hv⟩)
    · simp [verifyStage, h]
    · simp [verifyStage, h, hv]
    · simp [verifyStage, h, BitVec.not_lt.mpr hv]
  · rintro rfl
    cases hs : Config.signatureOk img with
    | false => simpa [verifyStage, hs] using Verdict.signature hs
    | true =>
      by_cases hv : Config.stageVersion img < min
      · simpa [verifyStage, hs, hv] using Verdict.version hs hv
      · simpa [verifyStage, hs, hv] using Verdict.taken hs (BitVec.not_lt.mp hv)

/-- A measurement takes the digest of its stage (R47). -/
theorem extend_sha3 (b : Boot) (i : Nat) (stage : List Byte) :
    b.extend i (sha3 stage) = { b with measure := vset b.measure i (extended (vget b.measure i 0) stage) } := rfl

/-- The step answers that state. -/
theorem gives_to {i : Instr} {s t : State} {P : State → Prop} (h : exec i s = t.to) (hp : P t) : Gives i s P := ⟨t, h, hp⟩

/-- A boot state in its own stage. -/
theorem boot_stage_self {b : Boot} {n : Nat} (h : b.stage = n) : { b with stage := n } = b := by subst h; rfl

/-! ### Reset and stages 0 to 3 (R44, R45) -/

/-- The boot state of a module that has been reset, before stage 0 checks the first stage: all afresh but for the fuses, module flash and
Flojo's configuration. -/
def afresh (b : Boot) : Boot :=
  { Boot.reset with
    begun := true, minFirst := b.minFirst, minImage := b.minImage, flashStage := b.flashStage
    cfgModnum := b.cfgModnum, cfgGangWait := b.cfgGangWait, cfgBytes := b.cfgBytes, cfgParts := b.cfgParts }

theorem cleared_atRom {s : State} (hk : s.boot.keptImage = none) : s.cleared.atRom.boot = afresh s.boot := by
  simp only [State.atRom, State.cleared, hk]
  rfl

theorem cleared_firstStage {s : State} (hk : s.boot.keptImage = none) : s.cleared.firstStage.boot = { afresh s.boot with
    stage := 1, runFirst := Config.stageVersion s.boot.flashStage
    measure := vset (afresh s.boot).measure 0 (extended 0 s.boot.flashStage) } := by
  have h0 : vget Boot.reset.measure 0 0 = 0 := by simp [vget, Boot.reset]
  simp only [State.firstStage, cleared_atRom hk, extend_sha3]
  rw [show (afresh s.boot).measure = Boot.reset.measure from rfl, h0]
  rfl

/-- What a reset leaves beside the boot state (R44): the device and the host interface are afresh but for the model's counter of free values
and the host's own memory. -/
def ResetBeside (s t : State) : Prop :=
  t.dev = { Dev.reset with freeCtr := s.dev.freeCtr }
    ∧ t.host = { HostIf.reset with hostMem := s.host.hostMem, iommuBad := s.host.iommuBad, pfRid := s.host.pfRid }
    ∧ t.args = s.args ∧ t.schedule = s.schedule

theorem moduleReset_refused {s : State} (hk : s.boot.keptImage = none) {code : Nat}
    (hv : verifyStage s.boot.flashStage s.boot.minFirst 0x0001 = some code) :
    ResetBeside s (s.cleared.bootRom s.args.ok) ∧ (s.cleared.bootRom s.args.ok).boot = recovered (afresh s.boot) code := by
  rw [bootRom_refused (s := s.cleared) hv]
  exact ⟨⟨rfl, rfl, rfl, rfl⟩, congrArg (·.fail code) (cleared_atRom hk)⟩

theorem moduleReset_taken {s : State} (hk : s.boot.keptImage = none) (hv : verifyStage s.boot.flashStage s.boot.minFirst 0x0001 = none) :
    ResetBeside s (s.cleared.bootRom s.args.ok) ∧ (s.cleared.bootRom s.args.ok).boot = { afresh s.boot with
      stage := 1, runFirst := Config.stageVersion s.boot.flashStage
      measure := vset (afresh s.boot).measure 0 (extended 0 s.boot.flashStage) } := by
  rw [bootRom_fetches (s := s.cleared) hv hk]
  exact ⟨⟨rfl, rfl, rfl, rfl⟩, cleared_firstStage hk⟩

theorem dhcpv6Timeout_gives {s : State} (hs : s.boot.stage = 1) (hr : s.boot.recovery = false) :
    Gives .dhcpv6Timeout s (· = { s with boot := { s.boot with slaac := true } }) :=
  gives_to (congrArg State.to (if_pos ⟨hs, hr⟩)) rfl

/-- The boot state after an attempt that has counted and failed in stage `n`: the 16th leads to recovery (R45). -/
def attemptFailed (b : Boot) (code n : Nat) : Boot := if 16 ≤ b.tries then recovered { b with stage := n } code else b

/-- A failed attempt ends in recovery, in the stage that failed, or back in stage 1. -/
theorem failedFetch_stage {s : State} (hs : s.boot.stage = 1) (code n : Nat) :
    State.failedFetch { s with boot := { s.boot with stage := n } } code = { s with boot := attemptFailed s.boot code n } := by
  unfold State.failedFetch attemptFailed
  by_cases ht : 16 ≤ s.boot.tries
  · rw [if_pos ht, if_pos ht]
    rfl
  · rw [if_neg ht, if_neg ht]
    show ({ s with boot := { s.boot with stage := 1 } } : State) = s
    rw [boot_stage_self hs]

theorem fetchAttempt_without {s : State} (h : s.fetches) (ok : Bool) :
    s.fetchAttempt none ok = { s with boot := attemptFailed s.counted.boot 0x0003 1 } := by
  have h1 : ({ s.counted.boot with stage := 1 } : Boot) = s.counted.boot := boot_stage_self h.2.1
  rw [fetchAttempt_none h]
  have := failedFetch_stage (s := s.counted) h.2.1 0x0003 1
  rwa [h1] at this

theorem fetchAttempt_refused {s : State} (h : s.fetches) (ok : Bool) {img : List Byte} {code : Nat}
    (hv : verifyStage img s.boot.minImage 0x0004 = some code) :
    s.fetchAttempt (some img) ok = { s with boot := attemptFailed s.counted.boot code 2 } := by
  rw [fetchAttempt_some h, imageStage_refused (s := s.counted) hv]
  exact failedFetch_stage (s := s.counted) h.2.1 code 2

/-- The boot state in stage 2 once the image is taken: it is measured, and its version runs. -/
def imageTaken (b : Boot) (img : List Byte) : Boot :=
  { b with measure := vset b.measure 1 (extended (vget b.measure 1 0) img), runImage := Config.stageVersion img, fetched := some img }

theorem fetchAttempt_taken {s : State} (h : s.fetches) (ok : Bool) {img : List Byte} (hv : verifyStage img s.boot.minImage 0x0004 = none) :
    s.fetchAttempt (some img) ok = { s with boot := { imageTaken s.counted.boot img with stage := 2 } }.stewards ok := by
  rw [fetchAttempt_some h, imageStage_taken (s := s.counted) hv]
  rfl

/-! ### Stages 4 to 6 -/

section Train
variable {s : State} (hs : s.boot.stage = 4) (hr : s.boot.recovery = false)
include hs hr

/-- Stage 4 is due. -/
theorem train_due : ¬(s.boot.stage != 4 || s.boot.recovery) = true := by simp [hs, hr]

/-- The memories do not train. -/
theorem train_memory (ok2 : Bool) (bad : List Nat) : s.train false ok2 bad = { s with boot := recovered s.boot 0x0005 } := by
  rw [State.train, if_neg (train_due hs hr)]
  rfl

/-- The dies fail their test. -/
theorem train_dies {ok2 : Bool} {bad : List Nat} (h : ok2 = true → sparesFor bad = none) :
    s.train true ok2 bad = { s with boot := recovered s.boot 0x0007 } := by
  have h : (if ok2 then sparesFor bad else none) = none := by cases ok2 <;> simp_all
  rw [State.train, if_neg (train_due hs hr), h]
  rfl

/-- The module is ready, with the partitions of the stored configuration or with none. -/
theorem train_ready {bad : List Nat} {spare : Option Nat} (h : sparesFor bad = some spare) :
    let d := { s.dev with spareUsed := spare, deadDies := bad }
    let b : Boot := { s.boot with
      stage := 6, ready := true, measure := vset s.boot.measure 3 (extended (vget s.boot.measure 3 0) s.boot.partBytes) }
    s.train true true bad = match d.buildParts s.boot.cfgParts with
      | some e => { s with dev := e, boot := b }
      | none => { s with dev := d, boot := { b with errcode := 0x0008 } } := by
  have h : (if true = true then sparesFor bad else none) = some spare := h
  rw [State.train, if_neg (train_due hs hr), h]
  rfl

end Train

/-- The die test fails where no spare can help: two compute dies, or one and the spare. -/
theorem sparesFor_none {bad : List Nat} (h : 2 ≤ (bad.filter (· < 4)).length ∨ ((bad.filter (· < 4)).length = 1 ∧ 4 ∈ bad)) :
    sparesFor bad = none := by
  unfold sparesFor
  split <;> simp_all

/-- Otherwise no compute die has failed, or one that the spare replaces. -/
theorem sparesFor_some {bad : List Nat} {spare : Option Nat}
    (h : (bad.filter (· < 4) = [] ∧ spare = none) ∨ ∃ k, bad.filter (· < 4) = [k] ∧ 4 ∉ bad ∧ spare = some k) :
    sparesFor bad = some spare := by
  unfold sparesFor
  obtain ⟨hb, rfl⟩ | ⟨k, hb, h4, rfl⟩ := h
  · simp [hb]
  · simp [hb, h4]

end Sys2Proof.Claims

section
open Sys2Proof Sys2Proof.Machine Sys2Proof.Claims

/-- Settles O41: each stage of the boot, by the case that its checks decide. -/
theorem bootSequence : Obligations.BootSequence := by
  refine ⟨⟨fun s hk v hv => gives_to rfl ?_, fun s hs hr => dhcpv6Timeout_gives hs hr, fun s hb hs hr => ?_⟩, fun s hs hr => ?_,
    fun s reg digest => ⟨fun h4 h8 hs hr => ?_, fun h => ?_⟩⟩
  · cases v with
    | some code =>
      obtain ⟨⟨hd, hh, ha, hc⟩, hb⟩ := moduleReset_refused hk (verdict_iff.mp hv)
      exact ⟨hd, hh, ha, hc, hb⟩
    | none =>
      obtain ⟨⟨hd, hh, ha, hc⟩, hb⟩ := moduleReset_taken hk (verdict_iff.mp hv)
      exact ⟨hd, hh, ha, hc, hb⟩
  · have hf : s.fetches := ⟨hb, hs, hr⟩
    refine ⟨fun hi => gives_to rfl ?_, fun img v hi hv => ⟨fun code hc => gives_to rfl ?_, fun hn => gives_to rfl ?_⟩⟩ <;> rw [hi]
    · exact fetchAttempt_without hf _
    · exact fetchAttempt_refused hf _ (hc ▸ verdict_iff.mp hv)
    · rw [fetchAttempt_taken hf _ (hn ▸ verdict_iff.mp hv)]
      cases ho : s.args.ok with
      | false => exact ⟨rfl, fun _ => ⟨rfl, rfl⟩, nofun⟩
      | true => exact ⟨rfl, nofun, fun _ => ⟨rfl, rfl⟩⟩
  · refine ⟨fun ho => gives_to rfl ?_, fun ho h => gives_to rfl ?_, fun spare ho ho2 h => ⟨fun hp => gives_to rfl ?_, fun e he => gives_to rfl ?_⟩⟩
    · rw [ho]
      exact train_memory hs hr _ _
    · rw [ho]
      exact train_dies hs hr fun ho2 => sparesFor_none (h.resolve_left (by simp [ho2]))
    · rw [ho, ho2, train_ready hs hr (sparesFor_some h), hp]
    · rw [ho, ho2, train_ready hs hr (sparesFor_some h), he]
  · exact congrArg _ (if_pos ⟨h4, h8, hs, hr⟩)
  · refine congrArg _ (if_neg ?_)
    rintro ⟨h4, h8, hs, hr⟩
    simp only [hr, Bool.false_eq_true, or_false] at h
    omega

end

namespace Sys2Proof.Claims
open Machine

/-! ### Runs of bytes -/

/-- Reading `n` bytes of a list from byte `a` gives that run of the list. -/
theorem map_range_getD {l : List Byte} {a n : Nat} (h : a + n ≤ l.length) :
    ((List.range n).map fun i => l.getD (a + i) 0) = (l.drop a).take n := by
  apply List.ext_getElem
  · simp
    omega
  · intro i h1 h2
    simp only [List.length_map, List.length_range] at h1
    simp [List.getD, List.getElem?_eq_getElem (show a + i < l.length by omega)]

/-- The run that stands between two others. -/
theorem take_drop_mid {p q r : List Byte} {a n : Nat} (hp : p.length = a) (hq : q.length = n) : ((p ++ q ++ r).drop a).take n = q := by
  subst hp hq
  simp

/-- Runs of equal length are found by their place. -/
theorem take_drop_flatMap {α : Type} {f : α → List Byte} {n : Nat} (hf : ∀ x, (f x).length = n) (l : List α) (d : α) (r : List Byte) (i : Nat)
    (h : i < l.length) : ((l.flatMap f ++ r).drop (n * i)).take n = f (l.getD i d) := by
  induction l generalizing i with
  | nil => simp at h
  | cons x l ih =>
    cases i with
    | zero => simp [← hf x]
    | succ i =>
      have := ih i (by simpa using h)
      rw [List.flatMap_cons, List.append_assoc, Nat.mul_succ, Nat.add_comm, ← List.drop_drop, ← hf x, List.drop_left, hf x]
      simpa using this

/-- A word of `n` bytes fits `n` bytes. -/
theorem toNat_mod_bytes {n : Nat} (w : BitVec (8 * n)) : w.toNat % 256 ^ n = w.toNat := by
  rw [show (256 : Nat) = 2 ^ 8 from rfl, ← Nat.pow_mul]
  exact Nat.mod_eq_of_lt w.isLt

/-- A value of bytes is below the power of 256 of their number. -/
theorem leNat_lt (l : List Byte) : leNat l < 256 ^ l.length := by
  induction l with
  | nil => simp [leNat]
  | cons b l ih =>
    simp only [leNat, List.length_cons, pow_succ]
    have := b.isLt
    omega

@[simp] theorem length_bytes (m : Mem) (a n : Nat) : (m.bytes a n).length = n := by
  induction n generalizing a with
  | zero => rfl
  | succ n ih => simp [Mem.bytes, ih]

/-- A value of `n` bytes of memory is a word of `n` bytes. -/
theorem toNat_ofNat_nat (m : Mem) (a n : Nat) : (BitVec.ofNat (8 * n) (m.nat a n)).toNat = m.nat a n := by
  refine Nat.mod_eq_of_lt ?_
  rw [Nat.pow_mul]
  simpa [Mem.nat] using leNat_lt (m.bytes a n)

/-! ### Attestation reports (R48) -/

/-- The unsigned value of the `n` bytes from byte `a`. -/
def bytesVal (byte : Nat → Byte) (a n : Nat) : Nat := leNat ((List.range n).map fun i => byte (a + i))

/-- The bytes are a report of `s` with the nonce: what it says, field by field, and the signature over it. -/
def IsReport (s : State) (nonce : Nat) (byte : Nat → Byte) : Prop :=
  (∀ i < 8, bytesVal byte (64 * i) 64 = (vget s.boot.measure i 0).toNat) ∧ bytesVal byte 0x0200 8 = s.boot.runFirst.toNat
    ∧ bytesVal byte 0x0208 8 = s.boot.runImage.toNat ∧ bytesVal byte 0x0210 8 = s.dev.modnum % 2048 ∧ bytesVal byte 0x0218 64 = nonce
    ∧ ∀ i < 4627, byte (0x0258 + i) = (Config.sign ((List.range 0x0258).map byte)).getD i 0

/-- The measurement registers as bytes, the first part of a report. -/
def measureBytes (s : State) : List Byte := s.boot.measure.toList.flatMap fun m => leBytes 64 m.toNat

/-- The signature's bytes, its last part. -/
def signBytes (s : State) (nonce : BitVec 512) : List Byte := (List.range 4627).map fun i => (Config.sign (s.reportBody nonce)).getD i 0

theorem reportBody_parts (s : State) (nonce : BitVec 512) : s.reportBody nonce = measureBytes s ++ leBytes 8 s.boot.runFirst.toNat
    ++ leBytes 8 s.boot.runImage.toNat ++ leBytes 8 (s.dev.modnum % 2048) ++ leBytes 64 nonce.toNat := rfl

theorem report_parts (s : State) (nonce : BitVec 512) : s.report nonce = s.reportBody nonce ++ signBytes s nonce := rfl

@[simp] theorem length_measureBytes (s : State) : (measureBytes s).length = 512 := by simp [measureBytes]
@[simp] theorem length_reportBody (s : State) (nonce : BitVec 512) : (s.reportBody nonce).length = 600 := by simp [reportBody_parts]
@[simp] theorem length_report (s : State) (nonce : BitVec 512) : (s.report nonce).length = 5227 := by simp [report_parts, signBytes]

/-- The bytes of the model's report are one. -/
theorem isReport_report {s : State} {nonce : BitVec 512} {byte : Nat → Byte} (h : ∀ i < 5227, byte i = (s.report nonce).getD i 0) :
    IsReport s nonce.toNat byte := by
  have run (a n : Nat) (hn : a + n ≤ 5227) : ((List.range n).map fun i => byte (a + i)) = ((s.report nonce).drop a).take n := by
    rw [← map_range_getD (by simpa using hn)]
    refine List.map_congr_left fun i hi => h _ ?_
    have := List.mem_range.mp hi
    omega
  have field (a n x : Nat) (p r : List Byte) (e : s.report nonce = p ++ leBytes n x ++ r) (hp : p.length = a) (hn : a + n ≤ 5227) :
      bytesVal byte a n = x % 256 ^ n := by
    rw [bytesVal, run a n hn, e, take_drop_mid hp (length_leBytes n x), leNat_leBytes]
  have body : ((List.range 600).map byte) = s.reportBody nonce := by
    have := run 0 600 (by omega)
    simp only [Nat.zero_add] at this
    rw [this, report_parts]
    exact take_drop_mid (p := []) rfl (length_reportBody s nonce)
  have word64 (w : Word) : w.toNat % 256 ^ 8 = w.toNat := toNat_mod_bytes (n := 8) w
  have word512 (w : BitVec 512) : w.toNat % 256 ^ 64 = w.toNat := toNat_mod_bytes (n := 64) w
  refine ⟨fun i hi => ?_, ?_, ?_, ?_, ?_, fun i hi => ?_⟩
  · rw [bytesVal, run _ _ (by omega), report_parts, reportBody_parts, measureBytes]
    simp only [List.append_assoc]
    rw [take_drop_flatMap (fun m => length_leBytes 64 _) _ 0 _ i (by simpa using hi), leNat_leBytes, word512]
    rfl
  · rw [field 0x0200 8 s.boot.runFirst.toNat (measureBytes s) (leBytes 8 s.boot.runImage.toNat ++ leBytes 8 (s.dev.modnum % 2048)
      ++ leBytes 64 nonce.toNat ++ signBytes s nonce) (by simp [report_parts, reportBody_parts]) (by simp) (by omega), word64]
  · rw [field 0x0208 8 s.boot.runImage.toNat (measureBytes s ++ leBytes 8 s.boot.runFirst.toNat) (leBytes 8 (s.dev.modnum % 2048)
      ++ leBytes 64 nonce.toNat ++ signBytes s nonce) (by simp [report_parts, reportBody_parts]) (by simp) (by omega), word64]
  · rw [field 0x0210 8 (s.dev.modnum % 2048) (measureBytes s ++ leBytes 8 s.boot.runFirst.toNat ++ leBytes 8 s.boot.runImage.toNat)
      (leBytes 64 nonce.toNat ++ signBytes s nonce) (by simp [report_parts, reportBody_parts]) (by simp) (by omega)]
    omega
  · rw [field 0x0218 64 nonce.toNat (measureBytes s ++ leBytes 8 s.boot.runFirst.toNat ++ leBytes 8 s.boot.runImage.toNat
      ++ leBytes 8 (s.dev.modnum % 2048)) (signBytes s nonce) (by simp [report_parts, reportBody_parts]) (by simp) (by omega), word512]
  · rw [body, h _ (by omega), report_parts, List.getD_append_right _ _ _ _ (by simp), length_reportBody, Nat.add_sub_cancel_left]
    simp [List.getD, signBytes, hi]

/-! ### The management commands (R46, R50) -/

/-- The number of a LOADIMG. -/
theorem exec_loadimg {s : State} {first : Bool} (h : s.boot.mgBusy = some (if first then 0x0001 else 0x0101)) :
    exec .loadimg s = (s.loadImage first s.args.ok).to := by
  cases first <;> simp [exec, execLoadimg, h]

theorem exec_raisever {s : State} {first : Bool} (h : s.boot.mgBusy = some (if first then 0x0003 else 0x0103)) :
    exec .raisever s = (s.raise first).to := by
  cases first <;> simp [exec, execRaisever, h]

theorem exec_attest {s : State} (h : s.boot.mgBusy = some 0x0002) : exec .attest s = s.attest.to := by
  simp [exec, execAttest, h]

theorem exec_attestPost {s : State} (hs : 4 ≤ s.boot.stage) (hr : s.boot.recovery = false) :
    exec .attestPost s = { s with boot := { s.boot with report := s.report s.args.cmd } }.to := congrArg State.to (if_pos ⟨hs, hr⟩)

theorem bufferKept_recovery (s : State) (first : Bool) : (s.bufferKept first).boot.recovery = s.boot.recovery := by
  cases first <;> rfl

theorem bufferVerdict_eq {s : State} {first : Bool} {v : Option Nat} (h : Verdict (leBytes (uv s.boot.mglen)
    (s.host.hostMem.nat (uv s.boot.mgiova) (uv s.boot.mglen))) (if first then s.boot.minFirst else s.boot.minImage)
    (if first then 0x0001 else 0x0004) v) : s.bufferVerdict first = v := verdict_iff.mp h

/-- A first stage that is taken restarts the boot from it. -/
theorem bufferKept_restart {s : State} {ok : Bool} (hv : s.bufferVerdict true = none) (hk : s.boot.keptImage = none) :
    (s.bufferKept true).bootRom ok = (s.bufferKept true).firstStage := bootRom_fetches (s := s.bufferKept true) hv hk

theorem raise_recovery {s : State} (h : s.boot.recovery = true) (first : Bool) : s.raise first = s.mgEnd mgRefused := if_pos h

theorem raise_running {s : State} (h : s.boot.recovery = false) (first : Bool) : s.raise first =
    (s.modBoot fun b => if first then { b with minFirst := BitVec.ofNat 64 (max b.minFirst.toNat b.runFirst.toNat) }
      else { b with minImage := BitVec.ofNat 64 (max b.minImage.toNat b.runImage.toNat) }).mgEnd mgSuccess := if_neg (by simp [h])

/-- ATTEST on a buffer of which the IOMMU refuses the nonce. -/
theorem attest_iommu {s : State} (hn : 5291 ≤ s.boot.mglen.toNat) (h : s.iommuFault s.boot.mgiova.toNat 64 = true) :
    s.attest = s.mgEnd mgIommu := by
  simp only [State.attest, State.hostRead, Nat.not_lt.mpr hn, h, if_false, if_true]

/-- ATTEST on a buffer that the IOMMU answers for. -/
theorem attest_written {s : State} (hn : 5291 ≤ s.boot.mglen.toNat) (h1 : s.iommuFault s.boot.mgiova.toNat 64 = false)
    (h2 : s.iommuFault (s.boot.mgiova.toNat + 64) 5227 = false) : s.attest = { s with
      host := { s.host with
        hostMem := s.host.hostMem.setBytes (s.boot.mgiova.toNat + 64) (s.report (BitVec.ofNat 512 (s.host.hostMem.nat s.boot.mgiova.toNat 64))) }
      boot := mgDoneWith s.boot 0 } := by
  simp only [State.attest, State.hostRead, Nat.not_lt.mpr hn, h1, h2, if_false, Bool.false_eq_true]
  rfl

end Sys2Proof.Claims

section
open Sys2Proof Sys2Proof.Machine Sys2Proof.Claims

/-- Settles O42: each command by the case that its checks decide, and the report field by field. -/
theorem imagesAndAttestation : Obligations.ImagesAndAttestation := by
  refine ⟨⟨fun s first hb => ⟨fun hn => gives_to (exec_loadimg hb) ?_, fun hn hf => gives_to (exec_loadimg hb) ?_, fun v hn hf hv =>
    ⟨fun code hc => gives_to (exec_loadimg hb) ?_, fun hv0 hr => gives_to (exec_loadimg hb) ?_,
      fun hv0 hr hfirst hk => gives_to (exec_loadimg hb) ?_⟩⟩,
    fun s first hb => ⟨fun hr => gives_to (exec_raisever hb) ?_, fun hr => gives_to (exec_raisever hb) ?_⟩⟩,
    fun s hb => ⟨fun hn => gives_to (exec_attest hb) ?_, fun hn hf => gives_to (exec_attest hb) ?_,
      fun hn h1 h2 hw => gives_to (exec_attest hb) ?_⟩, fun s hs hr => ?_⟩
  · exact loadImage_long hn
  · exact loadImage_iommu hn hf
  · rw [loadImage_read hn hf, bufferVerdict_eq hv, hc]
    rfl
  · rw [loadImage_read hn hf, bufferVerdict_eq hv, hv0]
    exact if_neg (by simp [bufferKept_recovery, hr])
  · subst hfirst
    have hv := (bufferVerdict_eq hv).trans hv0
    rw [loadImage_read hn hf, hv]
    simp only [bufferKept_recovery, hr, if_true, bufferKept_restart hv hk]
    exact ⟨rfl, rfl, rfl, rfl, rfl, rfl, rfl, rfl, rfl, rfl⟩
  · exact raise_recovery hr first
  · cases first <;> exact raise_running hr _
  · exact if_pos hn
  · exact attest_iommu hn hf
  · rw [attest_written hn h1 h2]
    refine ⟨rfl, rfl, ?_, fun a ha => ?_⟩
    · have := isReport_report (s := s) (nonce := BitVec.ofNat 512 (s.host.hostMem.nat (uv s.boot.mgiova) 64))
        (byte := fun i => (s.host.hostMem.setBytes (uv s.boot.mgiova + 64)
          (s.report (BitVec.ofNat 512 (s.host.hostMem.nat (uv s.boot.mgiova) 64)))).get (uv s.boot.mgiova + 64 + i))
        (fun i hi => Mem.get_setBytes_inside _ _ i hw (by simpa using hi))
      rwa [toNat_ofNat_nat (n := 64)] at this
    · exact Mem.get_setBytes_outside _ _ a hw (by simpa using ha)
  · refine gives_to (exec_attestPost hs hr) ?_
    exact ⟨rfl, length_report s _, isReport_report (byte := fun i => (s.report s.args.cmd).getD i 0) fun i _ => rfl⟩
end

namespace Sys2Proof.Machine

/-! ### Memory read back whole -/

/-- Bytes that were stored are read back. -/
theorem Mem.bytes_setBytes {m : Mem} (a : Nat) (bs : List Byte) (h : Mem.wf m = true) : (m.setBytes a bs).bytes a bs.length = bs := by
  induction bs generalizing m a with
  | nil => rfl
  | cons b t ih =>
    have hb : ((m.set a b).setBytes (a + 1) t).get a = b := by
      rw [Mem.get_setBytes_outside _ _ _ (Mem.wf_set a b h) (by omega), Mem.get_set_same a b h]
    simp [Mem.setBytes, Mem.bytes, hb, ih (a + 1) (Mem.wf_set a b h)]

theorem Mem.nat_setNat {m : Mem} (a n x : Nat) (h : Mem.wf m = true) : (m.setNat a n x).nat a n = x % 256 ^ n := by
  have := Mem.bytes_setBytes a (leBytes n x) h
  rw [length_leBytes] at this
  rw [Mem.nat, Mem.setNat, this, leNat_leBytes]

/-- A line that was stored is read back. -/
theorem Mem.line_setLine {m : Mem} (l : Nat) (data : Line) (h : Mem.wf m = true) : (m.setLine l data).line l = data := by
  rw [Mem.line, Mem.setLine, Mem.nat_setNat _ _ _ h, Claims.toNat_mod_bytes (n := 128) data]
  exact BitVec.eq_of_toNat_eq (by simp)

/-- and it changes its own 128 bytes alone. -/
theorem Mem.get_setLine_outside {m : Mem} (l : Nat) (data : Line) (x : Nat) (h : Mem.wf m = true)
    (hx : x < 128 * l ∨ 128 * l + 128 ≤ x) : (m.setLine l data).get x = m.get x :=
  Mem.get_setBytes_outside _ _ _ h (by simpa using hx)

/-! ### The fields of an error record (R58) -/

/-- What the fields of a record hold: the values of its parts, as far as they fit. -/
theorem recField_bits (e : ErrRec) (seq : HWord) (c : Word) (p : Nat) :
    Claims.recField (e.bits seq c p) 88 8 = e.kind % 2 ^ 8 ∧ Claims.recField (e.bits seq c p) 84 4 = e.die % 2 ^ 4
      ∧ Claims.recField (e.bits seq c p) 96 64 = e.addr % 2 ^ 64 ∧ Claims.recField (e.bits seq c p) 78 4 = e.sev % 2 ^ 4
      ∧ Claims.recField (e.bits seq c p) 64 13 = e.agent % 2 ^ 13 ∧ Claims.recField (e.bits seq c p) 0 32 = e.info % 2 ^ 32
      ∧ Claims.recField (e.bits seq c p) 32 22 = e.count % 2 ^ 22 ∧ Claims.recField (e.bits seq c p) 224 32 = seq.toNat
      ∧ Claims.recField (e.bits seq c p) 160 64 = c.toNat := by
  simp only [Claims.recField, ErrRec.bits]
  refine ⟨?_, ?_, ?_, ?_, ?_, ?_, ?_, ?_, ?_⟩ <;> repeat rw [BitVec.extractLsb'_append_eq_of_le (by decide)]
  case refine_8 => rw [BitVec.extractLsb'_eq_self]
  case refine_9 => rw [BitVec.extractLsb'_append_eq_right]
  all_goals rw [BitVec.extractLsb'_append_eq_right, BitVec.toNat_ofNat]

/-- A record of one error whose parts fit their fields. -/
structure ErrRec.Fits (e : ErrRec) : Prop where
  kind : e.kind < 2 ^ 8
  die : e.die < 2 ^ 4
  addr : e.addr < 2 ^ 64
  sev : e.sev < 2 ^ 4
  agent : e.agent < 2 ^ 13
  info : e.info < 2 ^ 32
  count : e.count = 1

/-- Flojo's log takes a record (R56). -/
theorem logged_of_fits {s t : Dev} {e : ErrRec} (h : e.Fits) (ht : t.flojoLog = (s.logFlojo e).flojoLog) :
    Claims.Logged s t e.kind e.die e.addr e.sev e.agent e.info := by
  obtain ⟨hk, hd, ha, hs, hg, hi, hc, hq, hy⟩ := recField_bits e (BitVec.ofNat 32 s.flojoLog.length) (s.dieCycle e.die) 0
  refine ⟨_, ht, ?_, ?_, ?_, ?_, ?_, ?_, ?_, ?_, hy⟩
  · rw [hk, Nat.mod_eq_of_lt h.kind]
  · rw [hd, Nat.mod_eq_of_lt h.die]
  · rw [ha, Nat.mod_eq_of_lt h.addr]
  · rw [hs, Nat.mod_eq_of_lt h.sev]
  · rw [hg, Nat.mod_eq_of_lt h.agent]
  · rw [hi, Nat.mod_eq_of_lt h.info]
  · rw [hc, h.count, Nat.mod_eq_of_lt (by decide)]
  · rw [hq, BitVec.toNat_ofNat]

end Sys2Proof.Machine

namespace Sys2Proof.Claims
open Machine

/-- A step that makes another device alone. -/
theorem gives_dev {i : Instr} {s : State} {P : State → Prop} {e d : Dev} (h : exec i s = .next { s with dev := e }) (he : e = d)
    (hp : P { s with dev := d }) : Gives i s P := ⟨_, h, he ▸ hp⟩

/-! ### Links and power (R40, R51, R52) -/

theorem flitReplay_gives (s : State) :
    (s.args.a ∈ s.dev.linksDown → Gives .flitReplay s (· = s))
    ∧ (s.args.a ∉ s.dev.linksDown → Gives .flitReplay s fun t =>
        aget? t.dev.linkFails s.args.a = some (if s.args.ok then 0 else (aget? s.dev.linkFails s.args.a).getD 0 + 1)
        ∧ (∀ b, b ≠ s.args.a → aget? t.dev.linkFails b = aget? s.dev.linkFails b)
        ∧ { t with dev := { t.dev with linkFails := s.dev.linkFails } } = s) := by
  constructor <;> intro h
  · refine gives_dev rfl (if_pos ?_) rfl
    simpa using h
  · refine gives_dev rfl (if_neg ?_) ⟨aget?_aset_same _ _ _, fun b hb => aget?_aset_ne _ _ _ _ hb, rfl⟩
    simpa using h

theorem linkPortDown_gives (s : State) :
    (8 ≤ (aget? s.dev.linkFails s.args.a).getD 0 → s.args.a < 16 → s.args.a ∉ s.dev.linksDown → s.args.b < 2 ^ 32 → Gives .linkPortDown s fun t =>
      t.dev.linksDown = s.dev.linksDown ++ [s.args.a] ∧ Logged s.dev t.dev 0x08 11 s.args.a 0 (5140 + s.args.a) s.args.b
      ∧ { t with dev := { t.dev with linksDown := s.dev.linksDown, flojoLog := s.dev.flojoLog } } = s)
    ∧ ((aget? s.dev.linkFails s.args.a).getD 0 < 8 ∨ s.args.a ∈ s.dev.linksDown → Gives .linkPortDown s (· = s)) := by
  constructor
  · intro h8 ha hn hb
    have hc : ¬((aget? s.dev.linkFails s.args.a).getD 0 < 8 ∨ s.dev.linksDown.contains s.args.a = true ∨ 16 ≤ s.args.a) := by
      simp only [List.contains_iff_mem, hn, false_or]
      omega
    refine gives_dev rfl (if_neg hc) ⟨rfl, logged_of_fits (e := ⟨0x08, 11, 3, s.args.a, 0, 5140 + s.args.a, 15, s.args.b, 1⟩) ?_ rfl, rfl⟩
    constructor <;> simp <;> omega
  · intro h
    refine gives_dev rfl (if_pos ?_) rfl
    simp only [List.contains_iff_mem]
    tauto

theorem pcieError_gives (s : State) :
    (s.args.ok = true → Gives .pcieError s (· = s))
    ∧ (s.args.ok = false → s.args.b = 0 → Gives .pcieError s fun t => Logged s.dev t.dev 0x09 10 0 1 5156 0
        ∧ { t with dev := { t.dev with flojoLog := s.dev.flojoLog } } = s) := by
  constructor
  · intro h
    exact gives_dev rfl (if_pos h) rfl
  · intro h hb
    have hl : (if s.args.ok then s.dev else s.dev.log (if s.args.b = 0 then none else some s.args.a) ⟨0x09, 10, 0, 0, 1, 5156, 15, 0, 1⟩)
        = s.dev.logFlojo ⟨0x09, 10, 0, 0, 1, 5156, 15, 0, 1⟩ := by
      simp [h, hb, Dev.log]
    exact gives_dev rfl hl ⟨logged_of_fits (e := ⟨0x09, 10, 0, 0, 1, 5156, 15, 0, 1⟩) (by constructor <;> decide) rfl, rfl⟩

/-- A droop stretches the clock of its quad and its end releases it; no other quad is touched. -/
theorem droop_gives (s : State) : ∀ i on, (i, on) ∈ [(Instr.droopTrip, true), (Instr.droopClear, false)] → Gives i s fun t =>
    t.dev.quad s.args.a = { s.dev.quad s.args.a with stretched := on } ∧ (∀ q, q ≠ s.args.a → t.dev.quad q = s.dev.quad q)
    ∧ { t with dev := { t.dev with quads := s.dev.quads } } = s := by
  intro i on h
  simp only [List.mem_cons, Prod.mk.injEq, List.not_mem_nil, or_false] at h
  obtain ⟨rfl, rfl⟩ | ⟨rfl, rfl⟩ := h <;>
    exact ⟨_, rfl, Dev.quad_setQuad _ _ _, fun q hq => Dev.quad_setQuad_ne _ _ _ _ hq, rfl⟩

theorem thermalShutdown_gives (s : State) :
    (11 < s.args.a → Gives .thermalShutdown s (· = s))
    ∧ (s.args.a ≤ 11 → Gives .thermalShutdown s fun t => t.boot = { s.boot with off := true } ∧ Logged s.dev t.dev 0x0C s.args.a 0 0 8191 0
        ∧ { t with boot := s.boot, dev := { t.dev with flojoLog := s.dev.flojoLog } } = s ∧ step t = .fault .shutDown) := by
  constructor <;> intro h
  · refine gives_to (congrArg State.to (if_neg ?_)) rfl
    simpa [dieCode] using h
  · refine gives_to (congrArg State.to (if_pos ?_)) ⟨rfl, ?_, rfl, rfl⟩
    · simpa [dieCode] using h
    · refine logged_of_fits (e := ⟨0x0C, s.args.a, 0, 0, 0, 8191, 15, 0, 1⟩) ?_ rfl
      constructor <;> simp only [] <;> omega

/-! ### Patrol scrub (R53, R54, R57) -/

/-- The kind of record of what patrol scrub found, and the address that the record names. -/
def scrubKind (f : ScrubFind) : Nat := if f.correctable then (if f.dram then 0x05 else 0x03) else if f.dram then 0x06 else 0x04
def scrubAddr (f : ScrubFind) : Nat := if f.unit = .line then f.addr else 0

theorem scrubRecord_fields (f : ScrubFind) (kind sev : Nat) : ∃ at_,
    scrubRecord f kind sev = ⟨kind, f.die, at_, scrubAddr f, sev, f.agent, 15, f.info.toNat, 1⟩ := by
  unfold scrubRecord scrubAddr
  cases f.unit <;> exact ⟨_, rfl⟩

theorem scrubKind_lt (f : ScrubFind) : scrubKind f < 2 ^ 8 := by
  unfold scrubKind
  cases f.correctable <;> cases f.dram <;> decide

theorem scrubAddr_le (f : ScrubFind) : scrubAddr f ≤ f.addr := by
  unfold scrubAddr
  split <;> omega

theorem scrub_codes {f : ScrubFind} (hd : f.die ≤ 11) (hg : f.agent ≤ 5166 ∨ f.agent = 8191) :
    ¬(!agentCode f.agent || !dieCode f.die) = true := by
  simp only [agentCode, dieCode, hd, decide_true, Bool.not_true, Bool.or_false, Bool.not_eq_true', Bool.not_eq_false, Bool.or_eq_true,
    decide_eq_true_eq, beq_iff_eq]
  exact hg

/-- What patrol scrub corrects is recorded as a corrected error. -/
theorem exec_patrolScrub_corrected {s : State} (hd : s.args.scrub.die ≤ 11) (hg : s.args.scrub.agent ≤ 5166 ∨ s.args.scrub.agent = 8191)
    (hc : s.args.scrub.correctable = true) :
    exec .patrolScrub s = s.onDev fun d => d.logCorrected s.args.scrub.part (scrubRecord s.args.scrub (scrubKind s.args.scrub) 0) := by
  have hk : scrubKind s.args.scrub = if s.args.scrub.dram then 0x05 else 0x03 := if_pos hc
  rw [hk]
  exact congrArg (State.onDev · s) (funext fun d => (if_neg (scrub_codes hd hg)).trans (if_pos hc))

/-- A line of a core's own memory is poisoned. -/
theorem core_poisonUnit_localMem (d : Dev) (r addr : Nat) : (d.poisonUnit (.localMem r) addr).core r
    = { d.core r with badLmem :=
        if (d.core r).badLmem.contains (addr / 128) then (d.core r).badLmem else (d.core r).badLmem ++ [addr / 128] } :=
  Dev.core_setCore _ _ _

/-- What it cannot correct is poisoned, with a record. -/
theorem exec_patrolScrub_poisons {s : State} (hd : s.args.scrub.die ≤ 11) (hg : s.args.scrub.agent ≤ 5166 ∨ s.args.scrub.agent = 8191)
    (hc : s.args.scrub.correctable = false) :
    exec .patrolScrub s = s.onDev fun d => (d.poisonUnit s.args.scrub.unit s.args.scrub.addr).log s.args.scrub.part
      (scrubRecord s.args.scrub (scrubKind s.args.scrub) 4) := by
  have hc' : ¬s.args.scrub.correctable = true := by simp [hc]
  have hk : scrubKind s.args.scrub = if s.args.scrub.dram then 0x06 else 0x04 := if_neg hc'
  rw [hk]
  exact congrArg (State.onDev · s) (funext fun d => (if_neg (scrub_codes hd hg)).trans (if_neg hc'))

/-- A corrected error that joins none takes its own place among the records of its partition. -/
theorem logCorrected_new {d : Dev} {p : Nat} {e : ErrRec} (h : ∀ c ∈ d.corr, ¬(c.part = some p ∧ c.kind = e.kind ∧ c.addr = e.addr)) :
    d.logCorrected (some p) e = ({ d with corr := d.corr ++ [⟨some p, e.kind, e.addr, 0⟩] } : Dev).setPart p
      { d.part p with elogQ := (d.part p).elogQ ++ [⟨e, d.dieCycle e.die, true⟩] } := by
  have hf : (d.corr.find? fun c => c.part == some p && c.kind == e.kind && c.addr == e.addr) = none := by
    rw [List.find?_eq_none]
    intro c hc
    simpa [and_assoc] using h c hc
  unfold Dev.logCorrected
  rw [hf]
  rfl

/-- One whose kind and address wait already is counted in that record. -/
theorem logCorrected_joined {d : Dev} {p : Nat} {e : ErrRec} {c : CorrRec} {x : LogEnt} (hc : c ∈ d.corr)
    (hm : (c.part, c.kind, c.addr) = (some p, e.kind, e.addr)) (hq : (d.part p).elogQ = [x]) (hx : x.merging = true)
    (he : (x.err.kind, x.err.addr) = (e.kind, e.addr)) :
    d.logCorrected (some p) e = d.setPart p { d.part p with elogQ := [{ x with err := { x.err with count := x.err.count + 1 } }] } := by
  simp only [Prod.mk.injEq] at hm he
  obtain ⟨hp, hk, ha⟩ := hm
  obtain ⟨c', hf⟩ : ∃ c', (d.corr.find? fun c => c.part == some p && c.kind == e.kind && c.addr == e.addr) = some c' := by
    rw [← Option.isSome_iff_exists, List.find?_isSome]
    exact ⟨c, hc, by simp [hp, hk, ha]⟩
  unfold Dev.logCorrected
  rw [hf]
  simp [Dev.modPart_eq, hq, hx, he]

theorem mem_addNew {n l : Nat} {xs : List Nat} : l ∈ (if xs.contains n then xs else xs ++ [n]) ↔ l ∈ xs ∨ l = n := by
  split
  next h =>
    simp only [List.contains_iff_mem] at h
    exact ⟨.inl, fun o => o.elim id fun e => e ▸ h⟩
  next => simp

theorem patrolScrub_new {s : State} {p : Nat} (hd : s.args.scrub.die ≤ 11) (hg : s.args.scrub.agent ≤ 5166 ∨ s.args.scrub.agent = 8191)
    (hc : s.args.scrub.correctable = true) (hp : s.args.scrub.part = some p)
    (hn : ∀ c ∈ s.dev.corr, ¬(c.part = some p ∧ c.kind = scrubKind s.args.scrub ∧ c.addr = scrubAddr s.args.scrub)) :
    Gives .patrolScrub s fun t => t.dev.corr = s.dev.corr ++ [⟨some p, scrubKind s.args.scrub, scrubAddr s.args.scrub, 0⟩]
      ∧ (∃ e, (t.dev.part p).elogQ = (s.dev.part p).elogQ ++ [e] ∧ e.merging = true ∧ e.cycle = s.dev.dieCycle s.args.scrub.die
        ∧ (e.err.kind, e.err.die, e.err.addr, e.err.sev, e.err.agent, e.err.info, e.err.count)
          = (scrubKind s.args.scrub, s.args.scrub.die, scrubAddr s.args.scrub, 0, s.args.scrub.agent, s.args.scrub.info.toNat, 1))
      ∧ { t.dev.part p with elogQ := (s.dev.part p).elogQ } = s.dev.part p
      ∧ (∀ q, q ≠ p → t.dev.part q = s.dev.part q)
      ∧ { t with dev := { t.dev with corr := s.dev.corr, parts := s.dev.parts } } = s := by
  obtain ⟨at_, hr⟩ := scrubRecord_fields s.args.scrub (scrubKind s.args.scrub) 0
  refine gives_dev (exec_patrolScrub_corrected hd hg hc) ((congrArg₂ s.dev.logCorrected hp hr).trans (logCorrected_new hn)) ?_
  simp only [Dev.part_setPart]
  exact ⟨rfl, ⟨_, rfl, rfl, rfl, rfl⟩, trivial, fun q hq => Dev.part_setPart_ne _ _ _ _ hq, rfl⟩

theorem patrolScrub_joined {s : State} {p : Nat} {c : CorrRec} {e : LogEnt} (hd : s.args.scrub.die ≤ 11)
    (hg : s.args.scrub.agent ≤ 5166 ∨ s.args.scrub.agent = 8191) (hc : s.args.scrub.correctable = true) (hp : s.args.scrub.part = some p)
    (hm : c ∈ s.dev.corr) (hk : (c.part, c.kind, c.addr) = (some p, scrubKind s.args.scrub, scrubAddr s.args.scrub))
    (hq : (s.dev.part p).elogQ = [e]) (hx : e.merging = true) (he : (e.err.kind, e.err.addr) = (scrubKind s.args.scrub, scrubAddr s.args.scrub)) :
    Gives .patrolScrub s fun t => (t.dev.part p).elogQ = [{ e with err := { e.err with count := e.err.count + 1 } }]
      ∧ (∀ q, q ≠ p → t.dev.part q = s.dev.part q) ∧ { t with dev := { t.dev with parts := s.dev.parts } } = s := by
  obtain ⟨at_, hr⟩ := scrubRecord_fields s.args.scrub (scrubKind s.args.scrub) 0
  refine gives_dev (exec_patrolScrub_corrected hd hg hc) ((congrArg₂ s.dev.logCorrected hp hr).trans (logCorrected_joined hm hk hq hx he)) ?_
  exact ⟨by simp only [Dev.part_setPart], fun q hq => Dev.part_setPart_ne _ _ _ _ hq, rfl⟩

theorem patrolScrub_poisons {s : State} (hd : s.args.scrub.die ≤ 11) (hg : s.args.scrub.agent ≤ 5166 ∨ s.args.scrub.agent = 8191)
    (hc : s.args.scrub.correctable = false) (hp : s.args.scrub.part = none) (ha : s.args.scrub.addr < 2 ^ 64) :
    Gives .patrolScrub s fun t =>
      Logged s.dev t.dev (scrubKind s.args.scrub) s.args.scrub.die (scrubAddr s.args.scrub) 4 s.args.scrub.agent s.args.scrub.info.toNat
      ∧ (s.args.scrub.unit = .line → (∀ l, l ∈ t.dev.poison ↔ l ∈ s.dev.poison ∨ l = s.args.scrub.addr / 128)
        ∧ { t with dev := { t.dev with poison := s.dev.poison, flojoLog := s.dev.flojoLog } } = s)
      ∧ (∀ r, s.args.scrub.unit = .localMem r →
        (∀ l, l ∈ (t.dev.core r).badLmem ↔ l ∈ (s.dev.core r).badLmem ∨ l = s.args.scrub.addr / 128)
        ∧ { t.dev.core r with badLmem := (s.dev.core r).badLmem } = s.dev.core r ∧ (∀ q, q ≠ r → t.dev.core q = s.dev.core q)
        ∧ { t with dev := { t.dev with cores := s.dev.cores, flojoLog := s.dev.flojoLog } } = s) := by
  obtain ⟨at_, hr⟩ := scrubRecord_fields s.args.scrub (scrubKind s.args.scrub) 4
  have hfit : (scrubRecord s.args.scrub (scrubKind s.args.scrub) 4).Fits := by
    have hi := s.args.scrub.info.isLt
    have hk := scrubKind_lt s.args.scrub
    have ha' := scrubAddr_le s.args.scrub
    rw [hr]
    constructor <;> simp only [] <;> omega
  refine gives_dev (exec_patrolScrub_poisons hd hg hc) (by rw [hp]) ⟨?_, fun hu => ?_, fun r hu => ?_⟩
  · have hl := logged_of_fits (s := s.dev) hfit (t := s.dev.logFlojo (scrubRecord s.args.scrub (scrubKind s.args.scrub) 4)) rfl
    rw [hr] at hl ⊢
    cases s.args.scrub.unit <;> exact hl
  · rw [hu]
    exact ⟨fun l => mem_addNew, rfl⟩
  · rw [hu]
    refine ⟨fun l => ?_, ?_, fun q hq => Dev.core_setCore_ne _ _ _ _ hq, rfl⟩
    · exact (iff_of_eq (congrArg (fun c : Core => l ∈ c.badLmem) (core_poisonUnit_localMem _ _ _))).trans mem_addNew
    · exact congrArg (fun c : Core => { c with badLmem := (s.dev.core r).badLmem }) (core_poisonUnit_localMem _ _ _)

/-! ### Restoration (R55) -/

/-- The record of a restored line (log entry 35). -/
def restoredRec (line : Nat) : ErrRec := ⟨0x0D, 10, 2, 128 * line, 0, 5159, 15, 0, 1⟩

theorem restoredRec_fits {line : Nat} (h : line < 2 ^ 56) : (restoredRec line).Fits := by
  constructor <;> simp only [restoredRec] <;> omega

/-- What the step makes of the device, given the backing copy. -/
def restoredFrom (d : Dev) (line : Nat) : Option Line → Dev
  | some x => if d.poison.contains line then (d.restoreLine line x).logFlojo (restoredRec line) else d
  | none => d

theorem exec_poisonRestore (s : State) :
    exec .poisonRestore s = .next { s with dev := restoredFrom s.dev s.args.a (s.backingLine s.args.a) } := by
  refine congrArg (fun d => Host.Outcome.next { s with dev := d }) ?_
  dsimp only
  cases s.backingLine s.args.a <;> rfl

theorem poisonRestore_none {s : State} (h : aget? s.dev.backing (s.args.a / 512) = none) : Gives .poisonRestore s (· = s) := by
  have hb : s.backingLine s.args.a = none := by rw [State.backingLine, h]
  exact gives_dev (exec_poisonRestore s) (congrArg (restoredFrom s.dev s.args.a) hb) rfl

/-- A line of the LP tier that is neither poisoned nor registered backs the page. -/
theorem backingLine_lp {s : State} {line pa : Nat} (hb : aget? s.dev.backing (line / 512) = some (.lp pa))
    (hp : s.dev.poisoned (pa / 128 + line % 512) = false) (hr : s.dev.regs = []) :
    s.backingLine line = some (s.dev.mem.line (pa / 128 + line % 512)) := by
  simp [State.backingLine, hb, hp, Dev.lineNow, hr, aget?]

/-- The host's copy backs it where the IOMMU answers. -/
theorem backingLine_host {s : State} {line iova : Nat} (hb : aget? s.dev.backing (line / 512) = some (.host iova))
    (hf : s.iommuFault (iova + 128 * (line % 512)) 128 = false) :
    s.backingLine line = some (BitVec.ofNat 1024 (s.host.hostMem.nat (iova + 128 * (line % 512)) 128)) := by
  simp [State.backingLine, hb, State.hostRead, hf]

theorem poisonRestore_rewrites {s : State} {data : Line} (hp : s.args.a ∈ s.dev.poison) (hw : s.dev.mem.wf = true) (ha : s.args.a < 2 ^ 56)
    (hb : s.backingLine s.args.a = some data) :
    Gives .poisonRestore s fun t => t.dev.mem.line s.args.a = data
      ∧ (∀ x, (x < 128 * s.args.a ∨ 128 * s.args.a + 128 ≤ x) → t.dev.mem.get x = s.dev.mem.get x)
      ∧ (∀ l, l ∈ t.dev.poison ↔ l ∈ s.dev.poison ∧ l ≠ s.args.a) ∧ Logged s.dev t.dev 0x0D 10 (128 * s.args.a) 0 5159 0 := by
  have hd : restoredFrom s.dev s.args.a (s.backingLine s.args.a) = (s.dev.restoreLine s.args.a data).logFlojo (restoredRec s.args.a) := by
    rw [hb]
    exact if_pos (by simpa using hp)
  have hm : ((s.dev.restoreLine s.args.a data).logFlojo (restoredRec s.args.a)).mem = s.dev.mem.setLine s.args.a data := by
    simp only [Dev.logFlojo, Dev.restoreLine]
  refine gives_dev (exec_poisonRestore s) hd ⟨?_, fun x hx => ?_, fun l => ?_, ?_⟩
  · rw [hm, Mem.line_setLine _ _ hw]
  · rw [hm, Mem.get_setLine_outside _ _ _ hw hx]
  · simp [Dev.logFlojo, Dev.restoreLine]
  · have hl : ((s.dev.restoreLine s.args.a data).logFlojo (restoredRec s.args.a)).flojoLog = (s.dev.logFlojo (restoredRec s.args.a)).flojoLog := by
      simp only [Dev.logFlojo, Dev.restoreLine, Dev.dieCycle]
    exact logged_of_fits (restoredRec_fits ha) hl

end Sys2Proof.Claims

namespace Sys2Proof
open Machine Claims

/-- Settles O44, a step at a time: each clause is what the step makes of the device. -/
theorem linksPowerAndScrub : Obligations.LinksPowerAndScrub := by
  unfold Obligations.LinksPowerAndScrub
  refine ⟨fun s => ?_, fun s => ?_, fun s => poisonRestore_none, fun s data hp hw ha hb => ?_⟩
  · obtain ⟨hdown, hreplay⟩ := flitReplay_gives s
    obtain ⟨hport, hkept⟩ := linkPortDown_gives s
    obtain ⟨hpcie, hlog⟩ := pcieError_gives s
    obtain ⟨hno, hoff⟩ := thermalShutdown_gives s
    exact ⟨hdown, hreplay, hport, hkept, hpcie, hlog, droop_gives s, hno, hoff⟩
  · intro f kind addr hd hg
    refine ⟨fun p hc hp hn => ?_, fun p c e hc hp hm hk hq hx he => patrolScrub_joined hd hg hc hp hm hk hq hx he,
      fun hc hp ha => patrolScrub_poisons hd hg hc hp ha⟩
    exact patrolScrub_new hd hg hc hp fun c hm h => hn c hm (hp ▸ h)
  · obtain ⟨pa, hlp, hclean, hregs, rfl⟩ | ⟨iova, hhost, hfault, rfl⟩ := hb
    · exact poisonRestore_rewrites hp hw ha (backingLine_lp hlp hclean hregs)
    · exact poisonRestore_rewrites hp hw ha (backingLine_host hhost hfault)

end Sys2Proof

namespace Sys2Proof.Claims
open Machine

/-! ### A group whose record does not name its own key (R39) -/

/-- The group under key 1, with two live tasks; its record says that its id is 2. -/
def misnamedGroup : Group := ⟨2, parseDesc 0, Vector.replicate 8 0, none, 2, 2, none, none, 0, none, [], 0, 0⟩
/-- The one task that core 0 holds, of that group. -/
def misnamedTask : Task := ⟨0, 0, 1, 0, parseDesc 0, 0, 0, [], [], [], [], 0, false, [], []⟩
def misnamedCore : Core := { Core.reset with part := some 0, tasks := [misnamedTask] }
def misnamedState : State :=
  { State.reset with dev := { Dev.reset with cores := [(0, misnamedCore)], parts := [(0, { Part.reset with groups := [(1, misnamedGroup)] })] } }

/-- The loss of die 0 leaves two live tasks in the group under key 1: the end of the task is counted in the record under key 2. -/
theorem misnamed_live : (aget? ((misnamedState.dev.loseDie 0).part 0).groups 1).map Group.live = some 2 := by
  decide +kernel

end Sys2Proof.Claims

namespace Sys2Proof
open Machine Claims

/-- Refutes O43: nothing in the statement ties a group's record to the key that it stands under. The last clause, on the one task of a core, fails
at a group that stands under key 1 and whose record has id 2: the loss is counted under the task's group, 1, and the end of the task under the
record's id, so that the group under key 1 keeps its two live tasks. -/
theorem not_sparingAndLossOfDies : ¬ Obligations.SparingAndLossOfDies := by
  unfold Obligations.SparingAndLossOfDies
  rintro ⟨-, -, -, h⟩
  have hguest : ∀ k < 16, (misnamedCore.slot k).guest = false := by decide +kernel
  obtain ⟨t, ht, -, -, y, hy, -, hlive⟩ := h misnamedState 0 misnamedCore 0 misnamedTask misnamedGroup
    (by decide) rfl rfl rfl rfl rfl rfl rfl rfl rfl hguest rfl (by decide)
  have hstep : exec .computeDieLost misnamedState = .next { misnamedState with dev := misnamedState.dev.loseDie 0 } := rfl
  obtain rfl : { misnamedState with dev := misnamedState.dev.loseDie 0 } = t := by simpa [hstep] using ht
  have hkept := misnamed_live
  rw [show aget? ((misnamedState.dev.loseDie 0).part 0).groups 1 = some y from hy] at hkept
  have hy2 : y.live = 2 := by simpa using hkept
  exact absurd (hlive.symm.trans hy2) (by decide)

end Sys2Proof

namespace Sys2Proof.Machine

/-! ### Tables: one key set or removed twice -/

theorem aset_aset {α : Type} (m : AMap α) (k : Nat) (v w : α) : aset (aset m k v) k w = aset m k w := by
  induction m with
  | nil => simp [aset]
  | cons p t ih =>
    obtain ⟨j, u⟩ := p
    by_cases hj : j = k
    · simp [aset, hj]
    · by_cases hk : k < j
      · simp [aset, hj, hk]
      · simp [aset, hj, hk, ih]

theorem adel_aset {α : Type} (m : AMap α) (k : Nat) (v : α) : adel (aset m k v) k = adel m k := by
  induction m with
  | nil => simp [aset, adel]
  | cons p t ih =>
    obtain ⟨j, u⟩ := p
    by_cases hj : j = k
    · simp [aset, adel, hj]
    · by_cases hk : k < j
      · simp [aset, adel, hj, hk]
      · simp [aset, adel, hj, hk, ih]

/-! ### Functions and queues after an update -/

@[simp] theorem State.fn_modFn (s : State) (f : Nat) (g : Fn → Fn) : (s.modFn f g).fn f = g (s.fn f) := by
  simp [State.fn, State.modFn, State.modHost]

@[simp] theorem State.fn_modFn_ne (s : State) (f i : Nat) (g : Fn → Fn) (h : i ≠ f) : (s.modFn f g).fn i = s.fn i := by
  simp [State.fn, State.modFn, State.modHost, h]

theorem State.fn_setQueue (s : State) (f q : Nat) (y : Queue) : (s.setQueue f q y).fn f = (s.fn f).setQueue q y :=
  State.fn_modFn s f fun x => x.setQueue q y

@[simp] theorem Fn.queue_setQueue (x : Fn) (q : Nat) (y : Queue) : (x.setQueue q y).queue q = y := by
  simp [Fn.queue, Fn.setQueue]

@[simp] theorem Fn.queue_setQueue_ne (x : Fn) (q r : Nat) (y : Queue) (h : r ≠ q) : (x.setQueue q y).queue r = x.queue r := by
  simp [Fn.queue, Fn.setQueue, h]

@[simp] theorem State.queue_setQueue (s : State) (f q : Nat) (y : Queue) : (s.setQueue f q y).queue f q = y := by
  simp [State.queue, State.fn_setQueue]

@[simp] theorem State.queue_setQueue_ne (s : State) (f q r : Nat) (y : Queue) (h : r ≠ q) :
    (s.setQueue f q y).queue f r = s.queue f r := by
  simp [State.queue, State.fn_setQueue, h]

theorem State.modFn_modFn (s : State) (f : Nat) (g h : Fn → Fn) : (s.modFn f g).modFn f h = s.modFn f fun x => h (g x) := by
  have hf := State.fn_modFn s f g
  simp only [State.modFn, State.modHost] at hf ⊢
  rw [hf, aset_aset]

/-- Of two writes of a queue the last one stays. -/
theorem State.setQueue_setQueue (s : State) (f q : Nat) (y z : Queue) : (s.setQueue f q y).setQueue f q z = s.setQueue f q z := by
  simp only [State.setQueue, State.modFn_modFn, Fn.setQueue, aset_aset]

/-- Host memory and the functions are apart. -/
theorem State.setQueue_memory (s : State) (f q : Nat) (y : Queue) (m : Mem → Mem) :
    (s.setQueue f q y).modHost (fun h => { h with hostMem := m h.hostMem })
      = (s.modHost fun h => { h with hostMem := m h.hostMem }).setQueue f q y := rfl

end Sys2Proof.Machine

namespace Sys2Proof.Claims
open Machine

/-! ### What only the functions see -/

theorem FunctionsOnly.refl (s : State) : FunctionsOnly s s := ⟨rfl, rfl, rfl, rfl, rfl, rfl, rfl⟩

theorem FunctionsOnly.trans {s t u : State} (h : FunctionsOnly s t) (k : FunctionsOnly t u) : FunctionsOnly s u where
  boot := k.boot.trans h.boot
  dev := k.dev.trans h.dev
  args := k.args.trans h.args
  schedule := k.schedule.trans h.schedule
  memory := k.memory.trans h.memory
  commands := ⟨k.commands.1.trans h.commands.1, k.commands.2.trans h.commands.2⟩

theorem functionsOnly_modFn (s : State) (f : Nat) (g : Fn → Fn) : FunctionsOnly s (s.modFn f g) := ⟨rfl, rfl, rfl, rfl, rfl, rfl, rfl⟩
theorem functionsOnly_setQueue (s : State) (f q : Nat) (y : Queue) : FunctionsOnly s (s.setQueue f q y) := functionsOnly_modFn ..

theorem OtherFns.refl (s : State) (f : Nat) : OtherFns s s f := fun _ _ => rfl
theorem OtherFns.trans {s t u : State} {f : Nat} (h : OtherFns s t f) (k : OtherFns t u f) : OtherFns s u f :=
  fun g hg => (k g hg).trans (h g hg)
theorem otherFns_modFn (s : State) (f : Nat) (g : Fn → Fn) : OtherFns s (s.modFn f g) f := fun _ h => State.fn_modFn_ne _ _ _ _ h
theorem otherFns_setQueue (s : State) (f q : Nat) (y : Queue) : OtherFns s (s.setQueue f q y) f :=
  otherFns_modFn _ _ _

/-- An update of a function makes it what the update says, and does nothing else. -/
theorem fnBecomes_modFn (s : State) (f : Nat) (g : Fn → Fn) : FnBecomes s (s.modFn f g) f (g (s.fn f)) :=
  ⟨functionsOnly_modFn .., otherFns_modFn _ _ _, State.fn_modFn .., rfl⟩

/-- A write of a queue does nothing else. -/
theorem queueBecomes_setQueue (s : State) (f q : Nat) (y : Queue) : QueueBecomes s (s.setQueue f q y) f q y := by
  refine ⟨functionsOnly_setQueue .., otherFns_setQueue _ _ _ _, State.queue_setQueue .., fun r hr => State.queue_setQueue_ne _ _ _ _ _ hr, ?_, rfl⟩
  rw [State.fn_setQueue]
  rfl

/-! ### Vectors (R67) -/

theorem functionsOnly_sendVector (s : State) (f v : Nat) : FunctionsOnly s (s.sendVector f v) := by
  simp only [State.sendVector]
  split
  · exact functionsOnly_modFn ..
  · exact ⟨rfl, rfl, rfl, rfl, rfl, rfl, rfl⟩

theorem otherFns_sendVector (s : State) (f v : Nat) : OtherFns s (s.sendVector f v) f := by
  simp only [State.sendVector]
  split
  · exact otherFns_modFn _ _ _
  · exact OtherFns.refl _ _

/-- A vector changes nothing of its function but the pending bits. -/
theorem sendVector_fn (s : State) (f v : Nat) : { (s.sendVector f v).fn f with pba := (s.fn f).pba } = s.fn f := by
  simp only [State.sendVector]
  split
  · rw [State.fn_modFn]
  · rfl

theorem queue_sendVector (s : State) (f v q : Nat) : (s.sendVector f v).queue f q = s.queue f q := by
  have := congrArg Fn.queues (sendVector_fn s f v)
  simp only at this
  simp only [State.queue, Fn.queue, this]

/-- An unmasked vector is sent, and a masked one becomes pending. -/
theorem sendVector_sends {s : State} {f v : Nat} {e : BitVec 128} (h : aget? (s.fn f).msix v = some e) :
    (s.sendVector f v).host.msis = (if e.getLsbD 96 = false then (f, v) :: s.host.msis else s.host.msis)
    ∧ ((s.sendVector f v).fn f).pba = if e.getLsbD 96 = true then (s.fn f).pba ||| 2 ^ v else (s.fn f).pba := by
  simp only [State.sendVector, h, Option.getD_some]
  cases he : e.getLsbD 96
  · exact ⟨rfl, rfl⟩
  · refine ⟨rfl, ?_⟩
    simp

/-- What a send of a queue's vector, where it is due, makes of the queue: its records are sent, and the interval begins. -/
def sentQueue (y : Queue) : Queue := { y with unsent := y.unsent && y.interval, interval := y.interval || y.unsent }

/-- Whether the vector of a queue is due. -/
def vectorDue (y : Queue) : Bool := y.unsent && !y.interval

/-- What `trySend` may change: of the machine, of the functions, of the queues, and of its function beside them. -/
structure Sent (s t : State) (f q : Nat) : Prop where
  only : FunctionsOnly s t
  others : OtherFns s t f
  queue : t.queue f q = sentQueue (s.queue f q)
  queues : ∀ r, r ≠ q → t.queue f r = s.queue f r
  fn : { t.fn f with queues := (s.fn f).queues, pba := (s.fn f).pba } = s.fn f
  vector : ∀ e, aget? (s.fn f).msix (s.queue f q).vec = some e →
    t.host.msis = (if vectorDue (s.queue f q) = true ∧ e.getLsbD 96 = false then (f, (s.queue f q).vec) :: s.host.msis else s.host.msis)
    ∧ (t.fn f).pba = if vectorDue (s.queue f q) = true ∧ e.getLsbD 96 = true then (s.fn f).pba ||| 2 ^ (s.queue f q).vec else (s.fn f).pba

theorem trySend_due {s : State} {f q : Nat} (h : vectorDue (s.queue f q) = true) : s.trySend f q =
    (s.setQueue f q { s.queue f q with unsent := false, interval := true }).sendVector f (s.queue f q).vec := if_pos h

theorem trySend_idle {s : State} {f q : Nat} (h : vectorDue (s.queue f q) = false) : s.trySend f q = s :=
  if_neg (by simpa [vectorDue] using h)

theorem sentQueue_due {y : Queue} (h : vectorDue y = true) : sentQueue y = { y with unsent := false, interval := true } := by
  obtain ⟨hu, hi⟩ : y.unsent = true ∧ y.interval = false := by simpa [vectorDue] using h
  simp [sentQueue, hu, hi]

theorem sentQueue_idle {y : Queue} (h : vectorDue y = false) : sentQueue y = y := by
  obtain ⟨⟩ := y
  simp only [vectorDue, sentQueue, Queue.mk.injEq] at h ⊢
  simp_all

theorem trySend_sent (s : State) (f q : Nat) : Sent s (s.trySend f q) f q := by
  cases hd : vectorDue (s.queue f q) with
  | false =>
    rw [trySend_idle hd]
    exact ⟨FunctionsOnly.refl s, OtherFns.refl s f, (sentQueue_idle hd).symm, fun _ _ => rfl, rfl, fun e _ => by simp [hd]⟩
  | true =>
    rw [trySend_due hd]
    generalize hy : ({ s.queue f q with unsent := false, interval := true } : Queue) = y
    generalize hs : s.setQueue f q y = u
    have hu : u.fn f = (s.fn f).setQueue q y := hs ▸ State.fn_setQueue ..
    refine ⟨?_, ?_, ?_, fun r hr => ?_, ?_, fun e he => ?_⟩
    · exact hs ▸ (functionsOnly_setQueue ..).trans (functionsOnly_sendVector ..)
    · exact hs ▸ (otherFns_setQueue _ _ _ _).trans (otherFns_sendVector _ _ _)
    · rw [queue_sendVector, sentQueue_due hd, hy, ← hs, State.queue_setQueue]
    · rw [queue_sendVector, ← hs, State.queue_setQueue_ne _ _ _ _ _ hr]
    · have := sendVector_fn u f (s.queue f q).vec
      rw [hu] at this
      exact congrArg (fun x : Fn => { x with queues := (s.fn f).queues }) this
    · have hm : aget? (u.fn f).msix (s.queue f q).vec = some e := hu ▸ he
      obtain ⟨h1, h2⟩ := sendVector_sends hm
      simp only [hd, true_and]
      have hmsis : u.host.msis = s.host.msis := by rw [← hs]; rfl
      exact ⟨h1.trans (by rw [hmsis]), h2.trans (by rw [hu]; rfl)⟩

end Sys2Proof.Claims

namespace Sys2Proof.Machine

/-! ### Completion records (R67, R72) -/

/-- The queue after a record: the tail has advanced, and its vector is due where the queue reports. -/
def Queue.recorded (y : Queue) : Queue :=
  { y with
    cqtail := (y.cqtail + 1) % y.size, phase := if (y.cqtail + 1) % y.size = 0 then !y.phase else y.phase
    unsent := y.unsent || y.ien }

/-- A record as it stands in host memory, with SQHEAD and the phase. -/
def Queue.stamped (y : Queue) (r : BitVec 128) : Nat := r.toNat + y.sqhead % 65536 * 2 ^ 16 + (if y.phase then 2 ^ 48 else 0)

/-- Host memory takes a record at the tail of queue `y`. -/
def State.stored (s : State) (y : Queue) (r : BitVec 128) : State :=
  s.modHost fun h => { h with hostMem := h.hostMem.setNat (Claims.cqSlot y) 16 (y.stamped r) }

theorem State.stored_setQueue (s : State) (f q : Nat) (y z : Queue) (r : BitVec 128) :
    (s.setQueue f q y).stored z r = (s.stored z r).setQueue f q y :=
  State.setQueue_memory s f q y fun m => m.setNat (Claims.cqSlot z) 16 (z.stamped r)

/-- A queue with room and no record held back, whose records the IOMMU lets through. -/
structure State.Takes (s : State) (y : Queue) : Prop where
  enabled : y.cqen = true
  room : y.full = false
  none : y.heldRecs = []
  reach : s.iommuFault (Claims.cqSlot y) 16 = false

theorem State.hostWrite_reached {s : State} {iova n x : Nat} (h : s.iommuFault iova n = false) :
    s.hostWrite iova n x = s.modHost fun h => { h with hostMem := h.hostMem.setNat iova n x } := if_neg (by simp [h])

theorem State.hostRead_reached {s : State} {iova n : Nat} (h : s.iommuFault iova n = false) :
    s.hostRead iova n = some (s.host.hostMem.nat iova n) := if_neg (by simp [h])

theorem State.hostRead_refused {s : State} {iova n : Nat} (h : s.iommuFault iova n = true) : s.hostRead iova n = none := if_pos h

theorem State.putRecord_reached {s : State} {f q : Nat} {y : Queue} {r : BitVec 128} (hy : s.queue f q = y)
    (h : s.iommuFault (Claims.cqSlot y) 16 = false) : s.putRecord f q r = (s.stored y r).setQueue f q y.recorded := by
  subst hy
  exact congrArg (fun t : State => t.setQueue f q (s.queue f q).recorded) (State.hostWrite_reached h)

/-- A record that is alone in its queue and has room is written. -/
theorem State.drainCq_one {s : State} {f q : Nat} {y : Queue} {r : BitVec 128} (hr : (s.queue f q).heldRecs = [r])
    (hy : ({ s.queue f q with heldRecs := [] } : Queue) = y) (hroom : y.full = false) :
    s.drainCq f q 1 = (s.setQueue f q y).putRecord f q r := by
  have hf : (s.queue f q).full = false := by rw [← hroom, ← hy]; rfl
  simp only [State.drainCq, hr, hf, hy, Bool.false_eq_true, if_false]

theorem State.addRecord_takes {s : State} {f q : Nat} {r : BitVec 128} (h : s.Takes (s.queue f q)) :
    s.addRecord f q r = (s.stored (s.queue f q) r).setQueue f q (s.queue f q).recorded := by
  obtain ⟨hen, hroom, hnone, hreach⟩ := h
  have hself : ({ s.queue f q with heldRecs := [] } : Queue) = s.queue f q := by rw [← hnone]
  have hadd : s.addRecord f q r = (s.setQueue f q { s.queue f q with heldRecs := [r] }).drainCq f q 1 := by
    simp [State.addRecord, hen, hnone]
  rw [hadd, State.drainCq_one (y := s.queue f q) (r := r) (by simp) (by simpa using hself) hroom, State.setQueue_setQueue,
    State.putRecord_reached (State.queue_setQueue ..) hreach]
  rw [State.stored_setQueue, State.setQueue_setQueue]

theorem record_toNat {q cid status info : Nat} (hs : status < 65536) (hi : info < 2 ^ 64) :
    (record q cid status info).toNat = info * 2 ^ 64 + q % 16 * 2 ^ 60 + status * 2 ^ 32 + cid % 65536 := by
  simp only [record, BitVec.toNat_ofNat]
  omega

/-- The record of a command with SQHEAD and phase (R72). -/
theorem Queue.stamped_record (y : Queue) {q cid status info : Nat} (hs : status < 65536) (hi : info < 2 ^ 64) :
    y.stamped (record q cid status info) % 256 ^ 16 = cid % 65536 + y.sqhead % 65536 * 2 ^ 16 + status * 2 ^ 32
      + (if y.phase then 2 ^ 48 else 0) + q % 16 * 2 ^ 60 + info * 2 ^ 64 := by
  rw [Queue.stamped, record_toNat hs hi, show 256 ^ 16 = 2 ^ 128 by norm_num]
  split <;> omega

/-- An event of a function that takes events now, of its own generation, is recorded and its vector sent (R84). -/
theorem State.event_now {s : State} {f q : Nat} {r : BitVec 128} (h : s.active f = true) :
    s.event f (s.fn f).gen q r = (s.addRecord f q r).trySend f q := by
  simp [State.event, h]

theorem State.complete_silent {s : State} {f gen q cid info : Nat} : s.complete f gen q cid true 0 info = s := rfl

theorem State.complete_event {s : State} {f gen q cid status info : Nat} {nocqe : Bool} (h : ¬(nocqe = true ∧ status = 0)) :
    s.complete f gen q cid nocqe status info = s.event f gen q (record q cid status info) :=
  if_neg (by simpa using h)

end Sys2Proof.Machine

namespace Sys2Proof.Claims
open Machine

theorem CanReport.takes {s : State} {f q : Nat} (h : CanReport s f q) : s.Takes (s.queue f q) :=
  ⟨h.enabled, h.room, h.none, h.reach⟩

theorem sentQueue_recorded (y : Queue) : sentQueue y.recorded = { y with
    cqtail := (y.cqtail + 1) % y.size, phase := if (y.cqtail + 1) % y.size = 0 then !y.phase else y.phase
    unsent := (y.unsent || y.ien) && y.interval, interval := y.interval || ((y.unsent || y.ien) && !y.interval) } := by
  simp only [sentQueue, Queue.recorded, Queue.mk.injEq, true_and]
  cases y.interval <;> simp

/-- What a record adds to host memory. -/
structure Stored (u m : State) (y : Queue) (r : BitVec 128) : Prop where
  boot : m.boot = u.boot
  dev : m.dev = u.dev
  args : m.args = u.args
  schedule : m.schedule = u.schedule
  cmds : m.host.cmds = u.host.cmds
  funcs : m.host.funcs = u.host.funcs
  msis : m.host.msis = u.host.msis
  memory : m.host.hostMem = u.host.hostMem.setNat (cqSlot y) 16 (y.stamped r)

theorem stored_stored (u : State) (y : Queue) (r : BitVec 128) : Stored u (u.stored y r) y r := by
  constructor <;> simp only [State.stored, State.modHost]

/-- A completion is reported as R72 says, in a queue that can take its record. -/
theorem complete_reports {u : State} {f q cid status info : Nat} {nocqe : Bool} (h : CanReport u f q) (hs : status < 65536) (hi : info < 2 ^ 64) :
    ReportsFor u (u.complete f (u.fn f).gen q cid nocqe status info) f q cid nocqe status info := by
  unfold ReportsFor
  split
  next hc => rw [hc.1, hc.2, State.complete_silent]
  next hc =>
    rw [State.complete_event hc, State.event_now h.active, State.addRecord_takes h.takes]
    generalize hy : u.queue f q = y
    have hst := stored_stored u y (record q cid status info)
    generalize u.stored y (record q cid status info) = m at hst ⊢
    have hfn : ∀ g, m.fn g = u.fn g := fun g => by simp only [State.fn, hst.funcs]
    obtain ⟨honly, hoth, hqueue, hqueues, hrest, hvec⟩ := trySend_sent (m.setQueue f q y.recorded) f q
    generalize (m.setQueue f q y.recorded).trySend f q = t at honly hoth hqueue hqueues hrest hvec ⊢
    replace honly := (functionsOnly_setQueue m f q y.recorded).trans honly
    rw [State.queue_setQueue] at hqueue hvec
    rw [State.fn_setQueue, hfn] at hrest hvec
    refine ⟨honly.boot.trans hst.boot, honly.dev.trans hst.dev, honly.args.trans hst.args, honly.schedule.trans hst.schedule,
      honly.commands.1.trans hst.cmds, fun g hg => ?_, ?_, fun a ha => ?_, ?_, fun r hr => ?_, ?_, fun e he => ?_⟩
    · rw [hoth g hg, otherFns_setQueue _ _ _ _ g hg, hfn]
    · rw [honly.memory, hst.memory, Mem.nat_setNat _ _ _ h.memory, Queue.stamped_record y hs hi]
    · rw [honly.memory, hst.memory]
      exact Mem.get_setBytes_outside _ _ _ h.memory (by simpa using ha)
    · rw [hqueue, sentQueue_recorded]
    · rw [hqueues r hr, State.queue_setQueue_ne _ _ _ _ _ hr]
      simp only [State.queue, hfn]
    · exact congrArg (fun v : Fn => { v with queues := (u.fn f).queues }) hrest
    · obtain ⟨h1, h2⟩ := hvec e he
      have hmsis : (m.setQueue f q y.recorded).host.msis = u.host.msis := hst.msis
      exact ⟨h1.trans (by rw [hmsis]; rfl), h2⟩

end Sys2Proof.Claims

namespace Sys2Proof.Machine

/-! ### Lists without repetition, and runs of bytes as numbers -/

theorem length_eraseDups_le {α : Type} [BEq α] (l : List α) : l.eraseDups.length ≤ l.length := by
  induction h : l.length using Nat.strong_induction_on generalizing l with
  | _ n ih =>
    subst h
    cases l with
    | nil => simp
    | cons a l =>
      have hf := List.length_filter_le (fun b => !b == a) l
      have := ih _ (by simp only [List.length_cons]; omega) (l.filter fun b => !b == a) rfl
      simp only [List.eraseDups_cons, List.length_cons]
      omega

/-- A list without repetition is one that loses nothing with its duplicates. -/
theorem length_eraseDups_eq_iff {α : Type} [BEq α] [LawfulBEq α] (l : List α) : l.eraseDups.length = l.length ↔ l.Nodup := by
  induction l with
  | nil => simp
  | cons a l ih =>
    rw [List.eraseDups_cons, List.length_cons, List.length_cons, Nat.add_right_cancel_iff, List.nodup_cons, ← ih]
    by_cases ha : a ∈ l
    · have hlt : (l.filter fun b => !b == a).length < l.length := by
        refine List.length_filter_lt_length_iff_exists.mpr ⟨a, ha, by simp⟩
      have := length_eraseDups_le (l.filter fun b => !b == a)
      simp only [ha, not_true_eq_false, false_and, iff_false]
      omega
    · have hf : (l.filter fun b => !b == a) = l := by
        refine List.filter_eq_self.mpr fun b hb => ?_
        simp only [Bool.not_eq_true', beq_eq_false_iff_ne]
        exact fun e => ha (e ▸ hb)
      simp [hf, ha]

theorem Mem.nat_lt (m : Mem) (a n : Nat) : m.nat a n < 256 ^ n := by
  simpa [Mem.nat] using Claims.leNat_lt (m.bytes a n)

theorem Mem.nat_succ (m : Mem) (a n : Nat) : m.nat a (n + 1) = (m.get a).toNat + 256 * m.nat (a + 1) n := rfl

/-- A run of bytes is its first part and its second part. -/
theorem Mem.nat_add (m : Mem) (a j k : Nat) : m.nat a (j + k) = m.nat a j + 256 ^ j * m.nat (a + j) k := by
  induction j generalizing a with
  | zero => simp [Mem.nat, Mem.bytes, leNat]
  | succ j ih =>
    rw [Nat.add_right_comm, Mem.nat_succ, Mem.nat_succ, ih, show a + 1 + j = a + (j + 1) by omega, pow_succ]
    ring

/-- A part of a run of bytes. -/
theorem Mem.nat_part {m : Mem} {a n j k : Nat} (h : j + k ≤ n) : m.nat a n / 256 ^ j % 256 ^ k = m.nat (a + j) k := by
  obtain ⟨l, rfl⟩ := Nat.exists_eq_add_of_le h
  rw [Nat.add_assoc, Mem.nat_add, Nat.add_mul_div_left _ _ (Nat.pow_pos (by decide)), Nat.div_eq_of_lt (Mem.nat_lt ..), Nat.zero_add,
    Mem.nat_add, Nat.add_mul_mod_self_left, Nat.mod_eq_of_lt (Mem.nat_lt ..)]

/-! ### Commands that do not run, and that run (R70, R73, R83) -/

/-- What a host command does, by its row. -/
theorem State.vfCommand_inactive {s : State} {sup : Bool} {fields : List (Nat × Nat × Nat)} {run : Nat → State} (h : s.active s.args.a = false) :
    s.vfCommand sup fields run = s := if_pos (by simpa [State.cmdFn] using h)

theorem State.vfCommand_onPf {s : State} {sup : Bool} {fields : List (Nat × Nat × Nat)} {run : Nat → State} (h : s.active s.args.a = true)
    (hf : s.args.a = 0) : s.vfCommand sup fields run = s.answer stOpcode :=
  (if_neg (by simp [State.cmdFn, h])).trans (if_pos hf)

theorem State.pfCommand_inactive {s t : State} {fields : List (Nat × Nat × Nat)} (h : s.active s.args.a = false) :
    s.pfCommand fields t = s := if_pos (by simpa [State.cmdFn] using h)

theorem State.pfCommand_onVf {s t : State} {fields : List (Nat × Nat × Nat)} (h : s.active s.args.a = true) (hf : s.args.a ≠ 0) :
    s.pfCommand fields t = s.answer stOpcode :=
  (if_neg (by simp [State.cmdFn, h])).trans (if_pos (by simpa [State.cmdFn] using hf))

theorem State.pfCommand_reserved {s t : State} {fields : List (Nat × Nat × Nat)} (h : s.active s.args.a = true) (hf : s.args.a = 0)
    (hr : cmdReserved s.args.cmd fields = true) : s.pfCommand fields t = s.answer stInvalid := by
  simp [State.pfCommand, State.cmdFn, hf, hf ▸ h, hr]

theorem State.pfCommand_runs {s t : State} {fields : List (Nat × Nat × Nat)} (h : s.active s.args.a = true) (hf : s.args.a = 0)
    (hr : cmdReserved s.args.cmd fields = false) : s.pfCommand fields t = t := by
  simp [State.pfCommand, State.cmdFn, hf, hf ▸ h, hr]

end Sys2Proof.Machine

namespace Sys2Proof.Claims
open Machine

/-! ### Queues that can report -/

/-- Whether a queue can report hangs on its function, the host's memory and IOMMU, and for a VF on the state of its partition. -/
theorem CanReport.of {s u : State} {f q : Nat} (h : CanReport s f q) (hboot : u.boot = s.boot) (hfn : u.fn f = s.fn f)
    (hiommu : u.host.iommuBad = s.host.iommuBad) (hmem : u.host.hostMem = s.host.hostMem)
    (hpart : f = 0 ∨ ∀ p, (s.fn f).bound = some p → (u.dev.part p).st = (s.dev.part p).st) : CanReport u f q := by
  obtain ⟨hact, hen, hroom, hnone, hreach, hwf⟩ := h
  have hq : u.queue f q = s.queue f q := by simp only [State.queue, hfn]
  refine ⟨?_, hq ▸ hen, hq ▸ hroom, hq ▸ hnone, ?_, hmem ▸ hwf⟩
  · rw [← hact]
    simp only [State.active, hfn, hboot]
    obtain rfl | hp := hpart
    · simp
    · cases hb : (s.fn f).bound with
      | none => rfl
      | some p => simp only [Option.any_some, hp p hb]
  · rw [hq]
    simpa only [State.iommuFault, hiommu] using hreach

/-- The physical function reports whatever has become of the device. -/
theorem CanReport.onPf {s : State} {q : Nat} (h : CanReport s 0 q) (d : Dev) : CanReport { s with dev := d } 0 q :=
  h.of rfl rfl rfl rfl (.inl rfl)

/-- The command at hand completes at once. -/
theorem answer_reports {u : State} {status info : Nat} (h : CanReport u u.args.a u.args.b) (hs : status < 65536) (hi : info < 2 ^ 64) :
    Reports u (u.answer status info) status info := complete_reports h hs hi

theorem answer_status {u : State} {status : Nat} (h : CanReport u u.args.a u.args.b) (hs : status < 65536) :
    Reports u (u.answer status) status 0 := answer_reports h hs (by norm_num)

end Sys2Proof.Claims

namespace Sys2Proof.Machine

/-! ### Reserved bits of a command (R69, R70) -/

/-- Whether a bit lies in a field (word, low bit, width) of a command. -/
def inField (n : Nat) (f : Nat × Nat × Nat) : Bool := decide (64 * f.1 + f.2.1 ≤ n) && decide (n < 64 * f.1 + f.2.1 + f.2.2)

theorem testBit_field (k j n : Nat) : ((2 ^ k - 1) * 2 ^ j).testBit n = (decide (j ≤ n) && decide (n < j + k)) := by
  rw [Nat.testBit_mul_two_pow, Nat.testBit_two_pow_sub_one]
  by_cases h : j ≤ n
  · simp only [h, decide_true, Bool.true_and, decide_eq_decide]
    omega
  · simp [h]

/-- The bits that are not reserved. -/
theorem getLsbD_cmdMask (fields : List (Nat × Nat × Nat)) (n : Nat) (hn : n < 512) :
    (cmdMask fields).getLsbD n = ((0xFFFF07FF : Nat).testBit n || fields.any (inField n)) := by
  suffices ∀ m : BitVec 512, (fields.foldl (fun m f => m ||| BitVec.ofNat 512 ((2 ^ f.2.2 - 1) * 2 ^ (64 * f.1 + f.2.1))) m).getLsbD n
      = (m.getLsbD n || fields.any (inField n)) by
    rw [cmdMask, this, BitVec.getLsbD_ofNat]
    simp only [hn, decide_true, Bool.true_and]
  induction fields with
  | nil => simp
  | cons f t ih =>
    intro m
    rw [List.foldl_cons, ih, List.any_cons, BitVec.getLsbD_or, BitVec.getLsbD_ofNat, testBit_field]
    simp [inField, hn, Bool.or_assoc]

theorem cmdReserved_of_bit {x : BitVec 512} {fields : List (Nat × Nat × Nat)} {n : Nat} (hx : x.getLsbD n = true)
    (hm : (cmdMask fields).getLsbD n = false) : cmdReserved x fields = true := by
  have hn : n < 512 := BitVec.lt_of_getLsbD hx
  simp only [cmdReserved, bne_iff_ne]
  intro h
  have := congrArg (fun v : BitVec 512 => v.getLsbD n) h
  simp [BitVec.getLsbD_and, BitVec.getLsbD_not, -BitVec.getLsbD_eq_getElem, hx, hm, hn] at this

/-- A bit beside the low half of word 0 and the fields of a command is reserved. -/
theorem cmdReserved_outside {x : BitVec 512} {fields : List (Nat × Nat × Nat)} {n : Nat} (hx : x.getLsbD n = true)
    (hn : 11 ≤ n ∧ n < 16 ∨ 32 ≤ n) (hf : ∀ f ∈ fields, inField n f = false) : cmdReserved x fields = true := by
  have hlt : n < 512 := BitVec.lt_of_getLsbD hx
  refine cmdReserved_of_bit hx ?_
  rw [getLsbD_cmdMask _ _ hlt, List.any_eq_false.mpr fun f h => by simp [hf f h], Bool.or_false]
  obtain ⟨h1, h2⟩ | h := hn
  · interval_cases n <;> rfl
  · exact Nat.testBit_lt_two_pow (lt_of_lt_of_le (by norm_num) (Nat.pow_le_pow_right (by decide) h))

/-! ### The rows of the commands -/

/-- The VF commands. -/
def vfRows : List Instr := [.launch, .copyh, .fill, .signal, .wait, .routine, .map]
/-- The PF commands that name a VF, and the PF commands. -/
def onVfRows : List Instr := [.vfpause, .vfresume, .vfreset]
def pfRows : List Instr := [.partcfg, .partstart, .partstop, .vfbind, .maskset] ++ onVfRows

theorem exec_vfRow {i : Instr} (h : i ∈ vfRows) (s : State) : ∃ sup fields run, exec i s = (s.vfCommand sup fields run).to := by
  simp only [vfRows, List.mem_cons, List.not_mem_nil, or_false] at h
  obtain rfl | rfl | rfl | rfl | rfl | rfl | rfl := h <;> exact ⟨_, _, _, rfl⟩

/-- Every field of a PF command lies in bits 49 to 32 of word 0 or in word 1. -/
theorem exec_pfRow {i : Instr} (h : i ∈ pfRows) (s : State) : ∃ fields t, exec i s = (s.pfCommand fields t).to
    ∧ ∀ f ∈ fields, ∀ n, (n < 32 ∨ 50 ≤ n ∧ n < 64 ∨ 128 ≤ n) → inField n f = false := by
  have inside (f : Nat × Nat × Nat) (hf : f.1 = 0 ∧ 32 ≤ f.2.1 ∧ f.2.1 + f.2.2 ≤ 50 ∨ f = (1, 0, 64)) (n : Nat)
      (hn : n < 32 ∨ 50 ≤ n ∧ n < 64 ∨ 128 ≤ n) : inField n f = false := by
    obtain ⟨h0, h1, h2⟩ | rfl := hf
    · simp only [inField, h0, Bool.and_eq_false_iff, decide_eq_false_iff_not]
      omega
    · simp only [inField, Bool.and_eq_false_iff, decide_eq_false_iff_not]
      omega
  simp only [pfRows, onVfRows, List.cons_append, List.nil_append, List.mem_cons, List.not_mem_nil, or_false] at h
  obtain rfl | rfl | rfl | rfl | rfl | rfl | rfl | rfl := h <;> exact ⟨_, _, rfl, fun f hf => inside f (by revert f; decide)⟩

theorem exec_onVfRow {i : Instr} (h : i ∈ Instr.vfbind :: onVfRows) (s : State) : ∃ fields run, exec i s = (s.onVf fields run).to := by
  simp only [onVfRows, List.mem_cons, List.not_mem_nil, or_false] at h
  obtain rfl | rfl | rfl | rfl := h <;> exact ⟨_, _, rfl⟩

/-! ### MASKSET (R86, R176) -/

/-- The ten masks in host memory at an IOVA. -/
def masksAt (m : Mem) (iova : Nat) : List Nat := (List.range 10).map fun i => m.nat (iova + 8 * i) 8

/-- The device with masks in set `k`. -/
def Dev.withMasks (d : Dev) (k : Nat) (ms : List Nat) : Dev := { d with masks := aset d.masks k ms }

theorem masksAt_eq (m : Mem) (iova : Nat) : ((List.range 10).map fun i => m.nat iova 80 / 2 ^ (64 * i) % 2 ^ 64) = masksAt m iova := by
  refine List.map_congr_left fun i hi => ?_
  have h10 := List.mem_range.mp hi
  have := m.nat_part (a := iova) (n := 80) (j := 8 * i) (k := 8) (by omega)
  rwa [show (256 : Nat) = 2 ^ 8 from rfl, ← Nat.pow_mul, ← Nat.pow_mul, show 8 * (8 * i) = 64 * i by omega] at this

theorem nodup_map_range {n : Nat} {f : Nat → Nat} : ((List.range n).map f).Nodup ↔ ∀ i < n, ∀ j < n, i ≠ j → f i ≠ f j := by
  rw [List.nodup_map_iff_inj_on List.nodup_range]
  simp only [List.mem_range]
  exact ⟨fun h i hi j hj hne e => hne (h i hi j hj e), fun h i hi j hj e => by_contra fun hne => h i hi j hj hne e⟩

/-- A set of masks is one that R176 allows. -/
theorem masksOk_iff (ms : List Nat) : masksOk ms = true ↔ (∀ m ∈ ms, m ≠ 0 ∧ m < 2 ^ 40 ∧ m % 256 = 0) ∧ (ms.map Nat.log2).Nodup := by
  rw [← length_eraseDups_eq_iff]
  simp [masksOk, maskOk, and_assoc]

end Sys2Proof.Machine

namespace Sys2Proof.Claims
open Machine

theorem masksOk_masksAt (m : Mem) (iova : Nat) : masksOk (masksAt m iova) = true ↔
    (∀ i < 10, m.nat (iova + 8 * i) 8 ≠ 0 ∧ m.nat (iova + 8 * i) 8 < 2 ^ 40 ∧ m.nat (iova + 8 * i) 8 % 256 = 0)
      ∧ ∀ i < 10, ∀ j < 10, i ≠ j → Nat.log2 (m.nat (iova + 8 * i) 8) ≠ Nat.log2 (m.nat (iova + 8 * j) 8) := by
  rw [masksOk_iff, masksAt, List.map_map, nodup_map_range]
  simp only [List.mem_map, List.mem_range, forall_exists_index, and_imp, forall_apply_eq_imp_iff₂, Function.comp_apply]

theorem PfMay.exec_eq {s : State} {fields : List (Nat × Nat × Nat)} {t : State} (h : PfMay s fields) : s.pfCommand fields t = t :=
  State.pfCommand_runs h.report.active h.pf h.fields

/-- A PF command that changes the device alone completes with SUCCESS. -/
theorem PfMay.effects {s : State} {fields : List (Nat × Nat × Nat)} {P : Dev → Prop} (h : PfMay s fields) {d : Dev} (hd : P d) :
    Effects s P ({ s with dev := d }.answer stSuccess) := by
  have hr := h.report
  rw [h.pf] at hr
  exact ⟨d, hd, answer_status (u := { s with dev := d }) (by rw [h.pf]; exact hr.onPf d) (by decide)⟩

/-- A PF command that answers a status has no other effect. -/
theorem PfMay.answers {s : State} {fields : List (Nat × Nat × Nat)} (h : PfMay s fields) {status : Nat} (hs : status < 65536) :
    Reports s (s.answer status) status 0 := answer_status h.report hs

/-- A command that answers a status, and nothing else. -/
theorem gives_answer {i : Instr} {s t : State} {status : Nat} (he : exec i s = t.to) (ht : t = s.answer status)
    (hr : CanReport s s.args.a s.args.b) (hs : status < 65536) : Gives i s fun t => Reports s t status 0 :=
  gives_to he (ht ▸ answer_status hr hs)

theorem maskset_run {s : State} (h : PfMay s [(0, 32, 3), (1, 0, 64)]) : s.maskset =
    if s.dev.parts.any fun p => p.2.st != .stopped && p.2.cfg.maskset == cmdField s 0 32 3 then s.answer stBusy
    else if s.iommuFault (cmdField s 1 0 64) 80 then s.answer stHostAddress
    else if masksOk (masksAt s.host.hostMem (cmdField s 1 0 64)) then
      { s with dev := s.dev.withMasks (cmdField s 0 32 3) (masksAt s.host.hostMem (cmdField s 1 0 64)) }.answer stSuccess
    else s.answer stInvalid := by
  rw [State.maskset, h.exec_eq]
  refine if_congr Iff.rfl rfl ?_
  cases hf : s.iommuFault (cmdField s 1 0 64) 80 with
  | true =>
    rw [State.hostRead_refused (iova := s.cf 1 0 64) hf]
    rfl
  | false =>
    rw [State.hostRead_reached (iova := s.cf 1 0 64) hf, ← masksAt_eq]
    rfl

/-- MASKSET on a set that no partition uses. -/
theorem maskset_free {s : State} (h : PfMay s [(0, 32, 3), (1, 0, 64)])
    (hfree : ∀ p ∈ s.dev.parts, p.2.st = .stopped ∨ p.2.cfg.maskset ≠ cmdField s 0 32 3) : s.maskset =
    if s.iommuFault (cmdField s 1 0 64) 80 then s.answer stHostAddress
    else if masksOk (masksAt s.host.hostMem (cmdField s 1 0 64)) then
      { s with dev := s.dev.withMasks (cmdField s 0 32 3) (masksAt s.host.hostMem (cmdField s 1 0 64)) }.answer stSuccess
    else s.answer stInvalid := by
  refine (maskset_run h).trans (if_neg ?_)
  rw [Bool.not_eq_true, List.any_eq_false]
  intro p hp
  simp only [Bool.and_eq_true, bne_iff_ne, beq_iff_eq, not_and]
  exact fun hst => (hfree p hp).resolve_left hst

end Sys2Proof.Claims

namespace Sys2Proof
open Machine Claims

/-- Settles O37: each command by the check that its function and its reserved bits fail, and MASKSET by the case that its own checks decide. -/
theorem commandChecksAndMaskSets : Obligations.CommandChecksAndMaskSets := by
  unfold Obligations.CommandChecksAndMaskSets
  refine ⟨fun s => ⟨fun hidle i hi => ?_, fun hr => ⟨fun hpf i hi => ?_, fun hvf i hi => ?_, fun hpf n hn hout i hi => ?_, fun hpf _ hf i hi => ?_⟩⟩,
    fun s h => ⟨?_, fun hfree => ⟨fun hfault => ?_, fun hreach => ⟨fun hbad => ?_, fun hfits => ?_⟩⟩⟩⟩
  · obtain hi | hi := List.mem_append.mp hi
    · obtain ⟨_, _, _, he⟩ := exec_vfRow hi s
      exact gives_to he (State.vfCommand_inactive hidle)
    · obtain ⟨_, _, he, -⟩ := exec_pfRow hi s
      exact gives_to he (State.pfCommand_inactive hidle)
  · obtain ⟨_, _, _, he⟩ := exec_vfRow hi s
    exact gives_answer he (State.vfCommand_onPf hr.active hpf) hr (by decide)
  · obtain ⟨_, _, he, -⟩ := exec_pfRow hi s
    exact gives_answer he (State.pfCommand_onVf hr.active hvf) hr (by decide)
  · obtain ⟨_, _, he, hfields⟩ := exec_pfRow hi s
    have hres := cmdReserved_outside hn (by omega) fun f h => hfields f h n (by omega)
    exact gives_answer he (State.pfCommand_reserved hr.active hpf hres) hr (by decide)
  · obtain ⟨fields, run, he⟩ := exec_onVfRow hi s
    refine gives_answer he ?_ hr (by decide)
    cases hres : cmdReserved s.args.cmd ((0, 32, 10) :: fields) with
    | true => exact State.pfCommand_reserved hr.active hpf hres
    | false => exact (State.pfCommand_runs hr.active hpf hres).trans (if_pos hf)
  · rintro ⟨p, hp, hst, hk⟩
    refine gives_answer rfl ((maskset_run h).trans (if_pos ?_)) h.report (by decide)
    exact List.any_eq_true.mpr ⟨p, hp, by simpa using ⟨hst, hk⟩⟩
  · exact gives_answer rfl ((maskset_free h hfree).trans (if_pos hfault)) h.report (by decide)
  · have hno := mt (masksOk_masksAt _ _).mp hbad
    exact gives_answer rfl ((maskset_free h hfree).trans ((if_neg (by simp [hreach])).trans (if_neg hno))) h.report (by decide)
  · refine ⟨_, congrArg State.to ((maskset_free h hfree).trans ((if_neg (by simp [hreach])).trans (if_pos ((masksOk_masksAt _ _).mpr hfits)))),
      h.effects ⟨aget?_aset_same .., fun j hj => aget?_aset_ne _ _ _ _ hj, rfl⟩⟩

end Sys2Proof

namespace Sys2Proof.Machine

/-! ### Register writes, case by case (R61-R67, R83) -/

theorem State.setSqtail_inside {s : State} {f q v : Nat} (h : v < (s.queue f q).size) :
    s.setSqtail f q v = s.setQueue f q { s.queue f q with sqtail := v } := if_neg (Nat.not_le.mpr h)

theorem State.setSqtail_outside {s : State} {f q v : Nat} (h : (s.queue f q).size ≤ v) :
    s.setSqtail f q v = s.modFn f fun x => { x with dberr := true } := if_pos h

theorem State.setCqhead_outside {s : State} {f q v : Nat} (h : (s.queue f q).size ≤ v) :
    s.setCqhead f q v = s.modFn f fun x => { x with dberr := true } := if_pos h

/-- With no record held back and no vector due, CQHEAD is all that moves. -/
theorem State.setCqhead_idle {s : State} {f q v : Nat} (h : v < (s.queue f q).size) (hh : (s.queue f q).heldRecs = [])
    (hu : (s.queue f q).unsent = false) : s.setCqhead f q v = s.setQueue f q { s.queue f q with cqhead := v } := by
  refine (if_neg (Nat.not_le.mpr h)).trans ?_
  have hdrain (u : State) : u.drainCq f q (s.queue f q).heldRecs.length = u := by rw [hh]; rfl
  exact (congrArg (State.trySend · f q) (hdrain _)).trans (Claims.trySend_idle (by simp [Claims.vectorDue, hu]))

theorem State.flushHeld_none {s : State} {f : Nat} (h : (s.fn f).held = []) : s.flushHeld f = s := if_pos (by simp [h])

/-- What a write of VFCTL makes of a function: EN, and at its rise the binding that waits (R83). -/
def Fn.enabled (x : Fn) (en : Bool) : Fn :=
  { (match x.pendBind with
    | some b => if en && !x.en then { x with bound := b.part, sup := b.sup, pendBind := none } else x
    | none => x) with en := en }

theorem Fn.enabled_binds {x : Fn} {en : Bool} {b : PendBind} (h : x.pendBind = some b) (he : en = true) (hx : x.en = false) :
    x.enabled en = { x with en := en, bound := b.part, sup := b.sup, pendBind := none } := by
  simp [Fn.enabled, h, he, hx]

theorem Fn.enabled_keeps {x : Fn} {en : Bool} (h : x.pendBind = none ∨ en = false ∨ x.en = true) : x.enabled en = { x with en := en } := by
  unfold Fn.enabled
  split
  next b hb =>
    obtain h | h | h := h
    · simp [hb] at h
    · simp [h]
    · simp [h]
  next => rfl

theorem Fn.held_enabled (x : Fn) (en : Bool) : (x.enabled en).held = x.held := by
  unfold Fn.enabled
  split
  · split <;> rfl
  · rfl

theorem State.setVfctl_noEvents {s : State} {f : Nat} {v : Word} (h : (s.fn f).held = []) :
    s.setVfctl f v = s.modFn f fun x => x.enabled (v.getLsbD 0) := by
  refine State.flushHeld_none ?_
  rw [State.fn_modFn]
  exact (Fn.held_enabled (s.fn f) (v.getLsbD 0)).trans h

theorem State.setBase_enabled {s : State} {f q : Nat} {cq : Bool} {v : Word} (h : (s.queue f q).sqen = true ∨ (s.queue f q).cqen = true) :
    s.setBase f q cq v = s.modFn f fun x => { x with qerr := true } := if_pos (by simpa using h)

theorem State.setBase_disabled {s : State} {f q : Nat} {cq : Bool} {v : Word} (h : ¬((s.queue f q).sqen = true ∨ (s.queue f q).cqen = true)) :
    s.setBase f q cq v = s.setQueue f q (if cq then { s.queue f q with cqbase := v } else { s.queue f q with sqbase := v }) :=
  if_neg (by simpa using h)

section
variable {s : State} {f q : Nat} {dword : Bool} {v : Word} (hr : s.boot.recovery = false) (h1 : 1 ≤ f) (h2 : f ≤ 512)
include hr h1 h2

theorem State.writeReg_vf (off : Nat) : s.writeReg f off dword v = s.writeBlock f off dword v := by
  refine (if_neg (by omega)).trans (if_neg ?_)
  simp [hr, totalVfs, Nat.not_lt.mpr h2]

theorem State.writeReg_sqbase (hq : q < 16) : s.writeReg f (0x1000 + 32 * q) dword v = s.setBase f q false v := by
  rw [State.writeReg_vf hr h1 h2]
  simp only [State.writeBlock]
  rw [if_neg (by omega), if_neg (by omega), if_pos (by omega), if_pos (by omega), show (0x1000 + 32 * q - 0x1000) / 32 = q by omega]

theorem State.writeReg_cqbase (hq : q < 16) : s.writeReg f (0x1008 + 32 * q) dword v = s.setBase f q true v := by
  rw [State.writeReg_vf hr h1 h2]
  simp only [State.writeBlock]
  rw [if_neg (by omega), if_neg (by omega), if_pos (by omega), if_neg (by omega), if_pos (by omega),
    show (0x1008 + 32 * q - 0x1000) / 32 = q by omega]

theorem State.writeReg_vfstat : s.writeReg f 0x0010 dword v =
    s.modFn f fun x => { x with qerr := x.qerr && !v.getLsbD 4, dberr := x.dberr && !v.getLsbD 3 } :=
  State.writeReg_vf hr h1 h2 0x0010

end

theorem State.writeReg_mgmt {s : State} {off : Nat} {dword : Bool} {v : Word} (h : off < 0x10000) :
    s.writeReg 0 off dword v = s.writeMgmt off v := by
  simp only [State.writeReg, if_true, h]

/-- What a write of QCFG makes of a queue (R64, R65). -/
def Queue.configured (y : Queue) (v : Word) : Queue :=
  { y with
    vec := (v.extractLsb' 8 4).toNat, ien := v.getLsbD 18, sqen := v.getLsbD 16, cqen := v.getLsbD 17
    log2size := if y.sqen || y.cqen then y.log2size else (v.extractLsb' 0 5).toNat
    sqhead := if v.getLsbD 16 && !y.sqen then 0 else y.sqhead
    sqtail := if v.getLsbD 16 && !y.sqen then 0 else y.sqtail
    cqhead := if v.getLsbD 17 && !y.cqen then 0 else y.cqhead
    cqtail := if v.getLsbD 17 && !y.cqen then 0 else y.cqtail
    phase := if v.getLsbD 17 && !y.cqen then true else y.phase
    heldRecs := if v.getLsbD 17 then y.heldRecs else [] }

/-- Whether it asks for another size of an enabled queue. -/
def Queue.resizes (y : Queue) (v : Word) : Bool := (y.sqen || y.cqen) && (v.extractLsb' 0 5).toNat != y.log2size

theorem State.setQcfg_eq (s : State) (f q : Nat) (v : Word) : s.setQcfg f q v =
    s.modFn f fun x => { x.setQueue q ((s.queue f q).configured v) with qerr := x.qerr || (s.queue f q).resizes v } := by
  have hset : s.setQcfg f q v = if (s.queue f q).resizes v then
      (s.setQueue f q ((s.queue f q).configured v)).modFn f fun x => { x with qerr := true }
    else s.setQueue f q ((s.queue f q).configured v) := rfl
  rw [hset]
  cases (s.queue f q).resizes v
  · simp [State.setQueue, Fn.setQueue]
  · simp [State.setQueue, Fn.setQueue, State.modFn_modFn]

end Sys2Proof.Machine

namespace Sys2Proof.Claims
open Machine

/-- A register of the queue block answers in recovery as nothing does (R45), and otherwise as its write says. -/
theorem recovery_ignores {s : State} (h : s.boot.recovery = true) :
    Gives .sqtail s (· = s) ∧ Gives .cqhead s (· = s) ∧ Gives .qcfg s (· = s) ∧ Gives .vfctl s (· = s) :=
  ⟨gives_to (congrArg State.to (if_pos h)) rfl, gives_to (congrArg State.to (if_pos h)) rfl, gives_to (congrArg State.to (if_pos h)) rfl,
    gives_to (congrArg State.to (if_pos h)) rfl⟩

/-- A step of the host's registers, outside recovery. -/
theorem gives_running {i : Instr} {s t u : State} {P : State → Prop} (hi : exec i s = (if s.boot.recovery then s else u).to)
    (hr : s.boot.recovery = false) (hu : u = t) (hp : P t) : Gives i s P :=
  gives_to (hi.trans (congrArg State.to ((if_neg (by simp [hr])).trans hu))) hp

theorem qcfg_gives {s : State} (hr : s.boot.recovery = false) :
    let f := s.args.a
    let q := s.args.b
    let y := s.queue f q
    let v := s.args.v
    Gives .qcfg s fun t => FunctionsOnly s t ∧ OtherFns s t f ∧ (∀ r, r ≠ q → t.queue f r = s.queue f r)
      ∧ (let z := t.queue f q
        z.vec = (v.extractLsb' 8 4).toNat ∧ z.ien = v.getLsbD 18 ∧ z.sqen = v.getLsbD 16 ∧ z.cqen = v.getLsbD 17
        ∧ z.log2size = (if y.sqen ∨ y.cqen then y.log2size else (v.extractLsb' 0 5).toNat)
        ∧ (z.sqhead, z.sqtail) = (if v.getLsbD 16 ∧ y.sqen = false then (0, 0) else (y.sqhead, y.sqtail))
        ∧ (z.cqhead, z.cqtail, z.phase) = (if v.getLsbD 17 ∧ y.cqen = false then (0, 0, true) else (y.cqhead, y.cqtail, y.phase))
        ∧ z.heldRecs = (if v.getLsbD 17 then y.heldRecs else []) ∧ z.sqbase = y.sqbase ∧ z.cqbase = y.cqbase)
      ∧ (t.fn f).qerr = ((s.fn f).qerr || ((y.sqen || y.cqen) && decide ((v.extractLsb' 0 5).toNat ≠ y.log2size))) := by
  intro f q y v
  refine gives_running rfl hr (State.setQcfg_eq s f q v) ⟨functionsOnly_modFn .., otherFns_modFn _ _ _, fun r hr => ?_, ?_, ?_⟩
  · rw [State.queue, State.fn_modFn]
    exact Fn.queue_setQueue_ne (s.fn f) q r (y.configured v) hr
  · have hz : State.queue (s.modFn f fun x => { x.setQueue q (y.configured v) with qerr := x.qerr || y.resizes v }) f q = y.configured v := by
      rw [State.queue, State.fn_modFn]
      exact Fn.queue_setQueue (s.fn f) q (y.configured v)
    simp only [y] at hz ⊢
    rw [hz]
    refine ⟨rfl, rfl, rfl, rfl, ?_, ?_, ?_, rfl, rfl, rfl⟩
    · simp [Queue.configured]
    · simp only [Queue.configured, Bool.and_eq_true, Bool.not_eq_true']
      split <;> rfl
    · simp only [Queue.configured, Bool.and_eq_true, Bool.not_eq_true']
      split <;> rfl
  · rw [State.fn_modFn]
    simp [Queue.resizes, y, bne, decide_not, beq_eq_decide]

theorem registerWrite_vf {s : State} {q : Nat} (hq : q < 16) (hr : s.boot.recovery = false) (h1 : 1 ≤ s.args.a) (h2 : s.args.a ≤ 512) :
    let f := s.args.a
    let y := s.queue f q
    (s.args.b = 0x1000 + 32 * q → Gives .registerWrite s fun t =>
      if y.sqen ∨ y.cqen then FnBecomes s t f { s.fn f with qerr := true } else QueueBecomes s t f q { y with sqbase := s.args.v })
    ∧ (s.args.b = 0x1008 + 32 * q → Gives .registerWrite s fun t =>
      if y.sqen ∨ y.cqen then FnBecomes s t f { s.fn f with qerr := true } else QueueBecomes s t f q { y with cqbase := s.args.v })
    ∧ (s.args.b = 0x0010 → Gives .registerWrite s fun t => FnBecomes s t f { s.fn f with
        qerr := (s.fn f).qerr && !s.args.v.getLsbD 4, dberr := (s.fn f).dberr && !s.args.v.getLsbD 3 }) := by
  intro f y
  refine ⟨fun hb => gives_to (t := s.setBase f q false s.args.v) ?_ ?_, fun hb => gives_to (t := s.setBase f q true s.args.v) ?_ ?_,
    fun hb => gives_to (t := s.modFn f fun x => { x with qerr := x.qerr && !s.args.v.getLsbD 4, dberr := x.dberr && !s.args.v.getLsbD 3 }) ?_
      (fnBecomes_modFn ..)⟩
  · exact congrArg State.to (hb ▸ State.writeReg_sqbase hr h1 h2 hq)
  · split
    · exact State.setBase_enabled ‹_› ▸ fnBecomes_modFn ..
    · exact State.setBase_disabled ‹_› ▸ queueBecomes_setQueue ..
  · exact congrArg State.to (hb ▸ State.writeReg_cqbase hr h1 h2 hq)
  · split
    · exact State.setBase_enabled ‹_› ▸ fnBecomes_modFn ..
    · exact State.setBase_disabled ‹_› ▸ queueBecomes_setQueue ..
  · exact congrArg State.to (hb ▸ State.writeReg_vfstat hr h1 h2)

theorem registerWrite_pf {s : State} (hf : s.args.a = 0) :
    let n := (s.args.v.extractLsb' 0 14).toNat
    (s.args.b = 0x0100 → Gives .registerWrite s fun t => t = if 1 ≤ n ∧ n ≤ 1000 then { s with dev := { s.dev with llcreb := n } } else s)
    ∧ (s.args.b = 0x0208 → Gives .registerWrite s (· = { s with boot := { s.boot with mgiova := s.args.v } }))
    ∧ (s.args.b = 0x0210 → Gives .registerWrite s (· = { s with boot := { s.boot with mglen := s.args.v } })) := by
  have hexec (off : Nat) (hb : s.args.b = off) (hlt : off < 0x10000) : exec .registerWrite s = (s.writeMgmt off s.args.v).to := by
    refine congrArg State.to ?_
    rw [hf, hb]
    exact State.writeReg_mgmt hlt
  exact ⟨fun hb => gives_to (hexec _ hb (by decide)) rfl, fun hb => gives_to (hexec _ hb (by decide)) rfl,
    fun hb => gives_to (hexec _ hb (by decide)) rfl⟩

/-- The interval of a queue has passed: one vector covers the records written since the last one (R67). -/
theorem msixDeferredSend_gives {s : State} {e : BitVec 128} :
    let f := s.args.a
    let y := s.queue f s.args.b
    aget? (s.fn f).msix y.vec = some e → Gives .msixDeferredSend s fun t => FunctionsOnly s t ∧ OtherFns s t f
      ∧ t.queue f s.args.b = { y with unsent := false, interval := y.unsent }
      ∧ t.host.msis = (if y.unsent ∧ e.getLsbD 96 = false then (f, y.vec) :: s.host.msis else s.host.msis)
      ∧ (t.fn f).pba = if y.unsent ∧ e.getLsbD 96 = true then (s.fn f).pba ||| 2 ^ y.vec else (s.fn f).pba := by
  intro f y he
  obtain ⟨honly, hoth, hq, -, -, hvec⟩ := trySend_sent (s.setQueue f s.args.b { y with interval := false }) f s.args.b
  rw [State.queue_setQueue] at hq hvec
  rw [State.fn_setQueue] at hvec
  obtain ⟨hm, hp⟩ := hvec e he
  refine gives_to rfl ⟨(functionsOnly_setQueue ..).trans honly, (otherFns_setQueue _ _ _ _).trans hoth, ?_, ?_, ?_⟩
  · rw [hq]
    simp [sentQueue]
  · rw [hm]
    simp [vectorDue]
    rfl
  · rw [hp]
    simp [vectorDue]
    rfl

end Sys2Proof.Claims

namespace Sys2Proof
open Machine Claims

/-- Settles O31, a register at a time: what each write makes of its queue, of its function, or of the module. -/
theorem queueAndFunctionRegisters : Obligations.QueueAndFunctionRegisters := by
  unfold Obligations.QueueAndFunctionRegisters
  refine ⟨fun s => ⟨recovery_ignores, fun hr => ⟨fun h => ?_, fun h => ?_, fun h hh hu => ?_, fun h => ?_, qcfg_gives hr⟩⟩,
    fun s hr hh => ?_, fun s q hq hr h1 h2 => registerWrite_vf hq hr h1 h2, fun s hf => registerWrite_pf hf, fun s e => msixDeferredSend_gives⟩
  · exact gives_running rfl hr (State.setSqtail_inside h) (queueBecomes_setQueue ..)
  · exact gives_running rfl hr (State.setSqtail_outside h) (fnBecomes_modFn ..)
  · exact gives_running rfl hr (State.setCqhead_idle h hh hu) (queueBecomes_setQueue ..)
  · exact gives_running rfl hr (State.setCqhead_outside h) (fnBecomes_modFn ..)
  · refine gives_running rfl hr (State.setVfctl_noEvents hh) ⟨fun b hb he hx => ?_, fun h => ?_⟩
    · exact Fn.enabled_binds hb he hx ▸ fnBecomes_modFn s s.args.a _
    · exact Fn.enabled_keeps h ▸ fnBecomes_modFn s s.args.a _

end Sys2Proof

namespace Sys2Proof.Machine

/-! ### Commands that name a VF (R83) -/

theorem aget?_map_of_mem {α : Type} {l : List Nat} {g : Nat → α} {i : Nat} (h : i ∈ l) : aget? (l.map fun k => (k, g k)) i = some (g i) := by
  induction l with
  | nil => simp at h
  | cons k t ih =>
    by_cases hk : k = i
    · simp [aget?, hk]
    · have := ih (by simpa [Ne.symm hk] using h)
      simpa [aget?, hk] using this

/-! ### Resets (R85) -/

/-- What a reset makes of a function. -/
def Fn.afterReset (x : Fn) : Fn :=
  { x with gen := (x.gen + 1) % 65536, held := [], pendvec := 0, en := false, queues := (List.range 16).map fun q => (q, (x.queue q).cleared) }

theorem Fn.queue_afterReset (x : Fn) {q : Nat} (h : q < 16) : x.afterReset.queue q = (x.queue q).cleared := by
  rw [Fn.queue, Fn.afterReset, aget?_map_of_mem (List.mem_range.mpr h)]
  rfl

theorem Queue.qcfg_cleared (y : Queue) : y.cleared.qcfg = 0 := by
  simp [Queue.qcfg, Queue.cleared, Queue.reset, bit]

theorem State.fn_resetVf (s : State) (f : Nat) : (s.resetVf f).fn f = (s.fn f).afterReset := State.fn_modFn ..

theorem State.fn_resetVf_ne (s : State) {f g : Nat} (h : g ≠ f) : (s.resetVf f).fn g = s.fn g := State.fn_modFn_ne _ _ _ _ h

/-- Functions reset one after another are each reset once. -/
theorem State.fn_resetVfs {l : List Nat} (hl : l.Nodup) (s : State) (f : Nat) :
    (l.foldl State.resetVf s).fn f = if f ∈ l then (s.fn f).afterReset else s.fn f := by
  induction l generalizing s with
  | nil => rfl
  | cons k t ih =>
    obtain ⟨hk, ht⟩ := List.nodup_cons.mp hl
    rw [List.foldl_cons, ih ht]
    by_cases hf : f = k
    · subst hf
      simp [hk, State.fn_resetVf]
    · simp [hf, State.fn_resetVf_ne _ hf]

end Sys2Proof.Machine

namespace Sys2Proof.Claims
open Machine

theorem PfMay.onVf {s : State} {fields : List (Nat × Nat × Nat)} {run : Nat → State} (h : PfMay s ((0, 32, 10) :: fields))
    (h1 : 1 ≤ cmdField s 0 32 10) (h2 : cmdField s 0 32 10 ≤ 512) : s.onVf fields run = run (cmdField s 0 32 10) := by
  refine h.exec_eq.trans (if_neg ?_)
  exact fun hbad => hbad.elim (Nat.ne_of_gt h1) (Nat.not_lt.mpr h2)

/-- A PF command whose effect is on other functions completes as R72 says. -/
theorem PfMay.reports {s : State} {fields : List (Nat × Nat × Nat)} (h : PfMay s fields) {u : State} (hboot : u.boot = s.boot) (hargs : u.args = s.args)
    (hfn : u.fn 0 = s.fn 0) (hiommu : u.host.iommuBad = s.host.iommuBad) (hmem : u.host.hostMem = s.host.hostMem) :
    Reports u (u.answer stSuccess) 0 0 := by
  refine answer_status (status := 0) ?_ (by decide)
  have hr := h.report
  rw [h.pf] at hr
  rw [hargs, h.pf]
  exact hr.of hboot hfn hiommu hmem (.inl rfl)

theorem PfMay.reports_modFn {s : State} {fields : List (Nat × Nat × Nat)} (h : PfMay s fields) {f : Nat} (h1 : 1 ≤ f) (g : Fn → Fn) :
    Reports (s.modFn f g) ((s.modFn f g).answer stSuccess) 0 0 :=
  h.reports rfl rfl (State.fn_modFn_ne _ _ _ _ (by omega)) rfl rfl

/-- VFBIND, VFPAUSE or VFRESUME: the function becomes what the command says, and the command completes. -/
theorem PfMay.gives_modFn {s : State} {fields : List (Nat × Nat × Nat)} (h : PfMay s fields) {i : Instr} {f : Nat} {g : Fn → Fn} (h1 : 1 ≤ f)
    (he : exec i s = ((s.modFn f g).answer stSuccess).to) : Gives i s fun t => ∃ u, FnBecomes s u f (g (s.fn f)) ∧ Reports u t 0 0 :=
  gives_to he ⟨_, fnBecomes_modFn .., h.reports_modFn h1 g⟩

theorem vfbind_gives {s : State} (h : PfMay s [(0, 32, 10), (0, 42, 8)]) (h1 : 1 ≤ cmdField s 0 32 10) (h2 : cmdField s 0 32 10 ≤ 512) :
    let f := cmdField s 0 32 10
    let b : PendBind := if cmdField s 0 49 1 = 1 then ⟨none, false⟩ else ⟨some (cmdField s 0 42 6), decide (cmdField s 0 48 1 = 1)⟩
    ((∃ c ∈ s.host.cmds, c.2.fn = f) → Gives .vfbind s fun t => Reports s t 0x000C 0)
    ∧ ((∀ c ∈ s.host.cmds, c.2.fn ≠ f) → Gives .vfbind s fun t => ∃ u, FnBecomes s u f { s.fn f with pendBind := some b } ∧ Reports u t 0 0) := by
  intro f b
  refine ⟨fun ⟨c, hc, hf⟩ => ?_, fun hidle => ?_⟩
  · refine gives_answer rfl ((h.onVf h1 h2).trans (if_pos ?_)) h.report (by decide)
    exact List.any_eq_true.mpr ⟨c, hc, by simpa using hf⟩
  · refine h.gives_modFn (g := fun x => { x with pendBind := some b }) h1 (congrArg State.to ((h.onVf h1 h2).trans (if_neg ?_)))
    simpa using hidle

theorem vfpause_gives {s : State} (h : PfMay s [(0, 32, 10)]) (h1 : 1 ≤ cmdField s 0 32 10) (h2 : cmdField s 0 32 10 ≤ 512) :
    Gives .vfpause s fun t => ∃ u, FnBecomes s u (cmdField s 0 32 10) { s.fn (cmdField s 0 32 10) with paused := true } ∧ Reports u t 0 0 :=
  h.gives_modFn (g := fun x => { x with paused := true }) h1 (congrArg State.to (h.onVf h1 h2))

theorem vfresume_quiet {s : State} (h : PfMay s [(0, 32, 10)]) (h1 : 1 ≤ cmdField s 0 32 10) (h2 : cmdField s 0 32 10 ≤ 512)
    (hh : (s.fn (cmdField s 0 32 10)).held = []) :
    Gives .vfresume s fun t => ∃ u, FnBecomes s u (cmdField s 0 32 10) { s.fn (cmdField s 0 32 10) with paused := false } ∧ Reports u t 0 0 := by
  refine h.gives_modFn (g := fun x => { x with paused := false }) h1 (congrArg State.to ((h.onVf h1 h2).trans ?_))
  exact congrArg (State.answer · stSuccess) (State.flushHeld_none (by rw [State.fn_modFn]; exact hh))

/-! ### Held events (R84) -/

/-- Function `f` is as before but for its queues and pending bits, and host memory is as before. -/
structure QueuesOnly (s t : State) (f : Nat) : Prop where
  fn : { t.fn f with queues := (s.fn f).queues, pba := (s.fn f).pba } = s.fn f
  memory : t.host.hostMem = s.host.hostMem
  args : t.args = s.args

theorem QueuesOnly.paused {s t : State} {f : Nat} (h : QueuesOnly s t f) : (t.fn f).paused = (s.fn f).paused := (congrArg Fn.paused h.fn :)
theorem QueuesOnly.held {s t : State} {f : Nat} (h : QueuesOnly s t f) : (t.fn f).held = (s.fn f).held := (congrArg Fn.held h.fn :)
theorem QueuesOnly.pendvec {s t : State} {f : Nat} (h : QueuesOnly s t f) : (t.fn f).pendvec = (s.fn f).pendvec := (congrArg Fn.pendvec h.fn :)

theorem QueuesOnly.trans {s t u : State} {f : Nat} (h : QueuesOnly s t f) (k : QueuesOnly t u f) : QueuesOnly s u f where
  fn := (congrArg (fun x : Fn => { x with queues := (s.fn f).queues, pba := (s.fn f).pba }) k.fn).trans h.fn
  memory := k.memory.trans h.memory
  args := k.args.trans h.args

theorem queuesOnly_sendVector (s : State) (f v : Nat) : QueuesOnly s (s.sendVector f v) f where
  fn := congrArg (fun x : Fn => { x with queues := (s.fn f).queues }) (sendVector_fn s f v)
  memory := (functionsOnly_sendVector s f v).memory
  args := (functionsOnly_sendVector s f v).args

theorem queuesOnly_sendVectors (s : State) (f : Nat) (vs : List Nat) : QueuesOnly s (vs.foldl (fun s v => s.sendVector f v) s) f := by
  induction vs generalizing s with
  | nil => exact ⟨rfl, rfl, rfl⟩
  | cons v vs ih => exact (queuesOnly_sendVector s f v).trans (ih _)

theorem queuesOnly_queues (s : State) (f : Nat) (g : Fn → AMap Queue) : QueuesOnly s (s.modFn f fun x => { x with queues := g x }) f where
  fn := by rw [State.fn_modFn]
  memory := rfl
  args := rfl

/-- A function whose held events are taken. -/
def taken (s : State) (f : Nat) : State := s.modFn f fun x => { x with held := [], pendvec := 0 }

/-- A VF that becomes active with one held event of its generation: the event is recorded, and beside its queues the function holds nothing more. -/
theorem flushHeld_one {s : State} {f : Nat} {e : HeldEvent} (hh : (s.fn f).held = [e]) (hg : e.gen = (s.fn f).gen) (ha : s.active f = true) :
    QueuesOnly ((taken s f).addRecord f e.queue e.record) (s.flushHeld f) f := by
  simp only [State.flushHeld, hh, ha, List.filter_cons, hg, beq_self_eq_true, if_true, List.filter_nil, List.foldl_cons, List.foldl_nil,
    List.isEmpty_cons, Bool.not_true, Bool.or_self, Bool.false_eq_true, if_false]
  exact (queuesOnly_sendVectors _ f _).trans (queuesOnly_queues ..)

/-- VFRESUME of a VF with one held event. -/
theorem vfresume_held {s : State} {e : HeldEvent} {p : Nat} (h : PfMay s [(0, 32, 10)]) (h1 : 1 ≤ cmdField s 0 32 10) (h2 : cmdField s 0 32 10 ≤ 512) :
    let f := cmdField s 0 32 10
    let y := s.queue f e.queue
    let n := e.record.toNat + y.sqhead % 65536 * 2 ^ 16 + (if y.phase then 2 ^ 48 else 0)
    (s.fn f).held = [e] → e.gen = (s.fn f).gen → s.boot.ready = true → (s.fn f).en = true → (s.fn f).bound = some p →
    (s.dev.part p).st = .resident → s.args.cmd.getLsbD 9 = true → y.cqen = true → y.full = false → y.heldRecs = [] →
    s.iommuFault (cqSlot y) 16 = false → s.host.hostMem.wf = true → n < 2 ^ 128 →
    Gives .vfresume s fun t => (t.fn f).paused = false ∧ (t.fn f).held = [] ∧ (t.fn f).pendvec = 0
      ∧ t.host.hostMem.nat (cqSlot y) 16 = n ∧ ∀ a, (a < cqSlot y ∨ cqSlot y + 16 ≤ a) → t.host.hostMem.get a = s.host.hostMem.get a := by
  intro f y n hh hg hready hen hb hst hnocqe hcq hroom hnone hreach hwf hn
  set u := s.modFn f fun x => { x with paused := false } with hu
  have huf : u.fn f = { s.fn f with paused := false } := State.fn_modFn ..
  have hact : u.active f = true := by
    have hdev : u.dev = s.dev := rfl
    have hboot : u.boot = s.boot := rfl
    simp [State.active, huf, hboot, hdev, hready, hen, hb, hst]
  have hv : (taken u f).fn f = { s.fn f with paused := false, held := [], pendvec := 0 } := by rw [taken, State.fn_modFn, huf]
  have hvq : (taken u f).queue f e.queue = y := by rw [State.queue, hv]; rfl
  have hq := flushHeld_one (s := u) ((congrArg Fn.held huf).trans hh) (hg.trans (congrArg Fn.gen huf).symm) hact
  rw [State.addRecord_takes (hvq ▸ ⟨hcq, hroom, hnone, hreach⟩), hvq] at hq
  have hstored := stored_stored (taken u f) y e.record
  generalize (taken u f).stored y e.record = m at hq hstored
  have hm : m.fn f = { s.fn f with paused := false, held := [], pendvec := 0 } := by
    rw [← hv]
    simp only [State.fn, hstored.funcs]
  have hrec : (m.setQueue f e.queue y.recorded).fn f = (m.fn f).setQueue e.queue y.recorded := State.fn_setQueue ..
  rw [hm] at hrec
  have hmem : (u.flushHeld f).host.hostMem = s.host.hostMem.setNat (cqSlot y) 16 n := hq.memory.trans hstored.memory
  refine gives_to (t := u.flushHeld f) (congrArg State.to ((h.onVf h1 h2).trans ?_)) ⟨?_, ?_, ?_, ?_, fun a ha => ?_⟩
  · have hargs : (u.flushHeld f).args = s.args := hq.args.trans hstored.args
    rw [State.answer, cmdNocqe, hargs, hnocqe]
    exact State.complete_silent
  · rw [hq.paused, hrec]
    rfl
  · rw [hq.held, hrec]
    rfl
  · rw [hq.pendvec, hrec]
    rfl
  · rw [hmem, Mem.nat_setNat _ _ _ hwf]
    exact Nat.mod_eq_of_lt (lt_of_lt_of_eq hn (by norm_num))
  · rw [hmem]
    exact Mem.get_setBytes_outside _ _ _ hwf (by simpa using ha)

/-! ### VFRESET and function-level reset (R85) -/

/-- What the reset of a function leaves alone. -/
structure ResetKeeps (s u : State) : Prop where
  boot : u.boot = s.boot
  args : u.args = s.args
  schedule : u.schedule = s.schedule
  dev : { u.dev with ended := s.dev.ended } = s.dev
  memory : u.host.hostMem = s.host.hostMem
  msis : u.host.msis = s.host.msis

theorem resetKeeps_resetVf (s : State) (f : Nat) : ResetKeeps s (s.resetVf f) := by
  constructor <;> simp only [State.resetVf, State.modFn, State.modHost, State.modDev]

theorem ResetKeeps.trans {s t u : State} (h : ResetKeeps s t) (k : ResetKeeps t u) : ResetKeeps s u where
  boot := k.boot.trans h.boot
  args := k.args.trans h.args
  schedule := k.schedule.trans h.schedule
  dev := (congrArg (fun d : Dev => { d with ended := s.dev.ended }) k.dev).trans h.dev
  memory := k.memory.trans h.memory
  msis := k.msis.trans h.msis

theorem resetKeeps_resetVfs (l : List Nat) (s : State) : ResetKeeps s (l.foldl State.resetVf s) := by
  induction l generalizing s with
  | nil => exact ⟨rfl, rfl, rfl, rfl, rfl, rfl⟩
  | cons f t ih => exact (resetKeeps_resetVf s f).trans (ih _)

/-- A cleared QCFG reads 0, and the base registers stay. -/
theorem queue_resetVf (s : State) (f : Nat) {q : Nat} (h : q < 16) : uv ((s.resetVf f).queue f q).qcfg = 0
    ∧ ((s.resetVf f).queue f q).sqbase = (s.queue f q).sqbase ∧ ((s.resetVf f).queue f q).cqbase = (s.queue f q).cqbase := by
  rw [State.queue, State.fn_resetVf, Fn.queue_afterReset _ h]
  exact ⟨congrArg BitVec.toNat (Queue.qcfg_cleared _), rfl, rfl⟩

/-- What the reset of a function makes of the machine (R85). -/
theorem resetVf_resets (s : State) (f : Nat) :
    let u := s.resetVf f
    u.boot = s.boot ∧ u.args = s.args ∧ u.schedule = s.schedule ∧ OtherFns s u f ∧ { u.dev with ended := s.dev.ended } = s.dev
      ∧ u.host.hostMem = s.host.hostMem ∧ u.host.msis = s.host.msis ∧ u.host.cmds = s.host.cmds.filter (fun c => c.2.fn != f)
      ∧ (u.fn f).gen = ((s.fn f).gen + 1) % 65536 ∧ (u.fn f).held = [] ∧ (u.fn f).pendvec = 0 ∧ (u.fn f).en = false
      ∧ (u.fn f).bound = (s.fn f).bound ∧ (u.fn f).sup = (s.fn f).sup ∧ (u.fn f).paused = (s.fn f).paused
      ∧ ∀ q < 16, uv (u.queue f q).qcfg = 0 ∧ (u.queue f q).sqbase = (s.queue f q).sqbase ∧ (u.queue f q).cqbase = (s.queue f q).cqbase := by
  intro u
  have hfn : u.fn f = (s.fn f).afterReset := State.fn_resetVf s f
  obtain ⟨hboot, hargs, hsched, hdev, hmem, hmsis⟩ := resetKeeps_resetVf s f
  refine ⟨hboot, hargs, hsched, fun g hg => State.fn_resetVf_ne s hg, hdev, hmem, hmsis, rfl, ?_⟩
  rw [hfn]
  exact ⟨rfl, rfl, rfl, rfl, rfl, rfl, rfl, fun q hq => queue_resetVf s f hq⟩

theorem resetKeeps_resetPf (s : State) : ResetKeeps s s.resetPf := (resetKeeps_resetVf s 0).trans (resetKeeps_resetVfs _ _)

/-- The reset of the physical function resets each function once. -/
theorem fn_resetPf {s : State} (h : (s.host.funcs.map (·.1)).Nodup) {f : Nat} (hf : f = 0 ∨ f ∈ s.host.funcs.map (·.1)) :
    s.resetPf.fn f = (s.fn f).afterReset := by
  rw [State.resetPf, State.fn_resetVfs (h.filter _)]
  obtain rfl | h0 := Nat.eq_zero_or_pos f
  · rw [if_neg (by simp), State.fn_resetVf]
  · have hmem : f ∈ (s.host.funcs.map (·.1)).filter (· != 0) := List.mem_filter.mpr ⟨hf.resolve_left (by omega), by simpa using h0.ne'⟩
    rw [if_pos hmem, State.fn_resetVf_ne _ h0.ne']

end Sys2Proof.Claims

namespace Sys2Proof
open Machine Claims

/-- Settles O36, a command at a time: what it makes of the function it names, and that it completes. -/
theorem functionCommands : Obligations.FunctionCommands := by
  unfold Obligations.FunctionCommands
  refine ⟨fun s h => vfbind_gives h, fun s h h1 h2 => ⟨vfpause_gives h h1 h2, vfresume_quiet h h1 h2, fun _ _ => vfresume_held h h1 h2⟩,
    fun s h h1 h2 => ?_, fun s h1 h2 => ?_, fun s h0 hn => ?_⟩
  · exact gives_to (congrArg State.to (h.onVf h1 h2)) ⟨_, resetVf_resets s _, h.reports rfl rfl (State.fn_resetVf_ne s (by omega)) rfl rfl⟩
  · exact gives_to (congrArg State.to ((if_neg (by omega)).trans (if_pos h2))) (resetVf_resets s _)
  · obtain ⟨hboot, -, -, hdev, hmem, -⟩ := resetKeeps_resetPf s
    refine gives_to (congrArg State.to (if_pos h0)) ⟨hboot, hmem, hdev, fun f hf => ?_⟩
    rw [fn_resetPf hn hf]
    exact ⟨rfl, rfl, rfl, rfl⟩

end Sys2Proof

namespace Sys2Proof.Machine

/-! ### Fields of a register as it reads -/

theorem word_field {x lo n : Nat} (h : lo + n ≤ 64) : ((BitVec.ofNat 64 x).extractLsb' lo n).toNat = x / 2 ^ lo % 2 ^ n := by
  rw [BitVec.extractLsb'_toNat, BitVec.toNat_ofNat, Nat.shiftRight_eq_div_pow]
  obtain ⟨k, hk⟩ := Nat.exists_eq_add_of_le h
  rw [show (2 : Nat) ^ 64 = 2 ^ lo * (2 ^ n * 2 ^ k) by rw [hk, ← pow_add, ← pow_add, Nat.add_assoc], Nat.mod_mul_right_div_self,
    Nat.mod_mul_right_mod]

/-- A bit of a register that shows a flag. -/
theorem word_flag {x k : Nat} {b : Bool} (h : k < 64) (hx : x / 2 ^ k % 2 = b.toNat) : (BitVec.ofNat 64 x).getLsbD k = b := by
  rw [BitVec.getLsbD_ofNat, Nat.testBit_eq_decide_div_mod_eq, hx]
  cases b <;> simp [h]

theorem bit_eq (b : Bool) (n : Nat) : bit b n = b.toNat * 2 ^ n := by cases b <;> simp [bit]

theorem State.vfState_lt (s : State) (f : Nat) : s.vfState f < 8 := by
  simp only [State.vfState]
  split
  · decide
  · split
    · decide
    · split <;> decide

theorem State.vfcap_fields (s : State) {f : Nat} (h : f ≤ 512) :
    ((s.vfcap f).extractLsb' 32 32).toNat = f ∧ ((s.vfcap f).extractLsb' 26 6).toNat = (s.fn f).bound.getD 0 % 64 ∧ (s.vfcap f).getLsbD 25 = (s.fn f).sup
      ∧ (s.vfcap f).getLsbD 24 = (s.fn f).bound.isSome ∧ ((s.vfcap f).extractLsb' 0 24).toNat = 16 := by
  have hsup := Bool.toNat_le (s.fn f).sup
  have hbound := Bool.toNat_le (s.fn f).bound.isSome
  simp only [State.vfcap, bit_eq]
  exact ⟨(word_field (by decide)).trans (by omega), (word_field (by decide)).trans (by omega), word_flag (by decide) (by omega),
    word_flag (by decide) (by omega), (word_field (by decide)).trans (by omega)⟩

theorem State.vfstat_fields (s : State) (f : Nat) :
    ((s.vfstat f).extractLsb' 48 16).toNat = (s.fn f).gen % 65536 ∧ ((s.vfstat f).extractLsb' 32 16).toNat = (s.fn f).pendvec % 65536
      ∧ ((s.vfstat f).extractLsb' 5 3).toNat = s.vfState f ∧ (s.vfstat f).getLsbD 4 = (s.fn f).qerr ∧ (s.vfstat f).getLsbD 3 = (s.fn f).dberr
      ∧ ((s.vfstat f).extractLsb' 8 24).toNat = 0 ∧ ((s.vfstat f).extractLsb' 0 3).toNat = 0 := by
  have hq := Bool.toNat_le (s.fn f).qerr
  have hd := Bool.toNat_le (s.fn f).dberr
  have hst := s.vfState_lt f
  simp only [State.vfstat, bit_eq]
  exact ⟨(word_field (by decide)).trans (by omega), (word_field (by decide)).trans (by omega), (word_field (by decide)).trans (by omega),
    word_flag (by decide) (by omega), word_flag (by decide) (by omega), (word_field (by decide)).trans (by omega),
    (word_field (by decide)).trans (by omega)⟩

theorem Queue.qcfg_fields (y : Queue) :
    (y.qcfg.extractLsb' 32 16).toNat = y.sqhead % 65536 ∧ y.qcfg.getLsbD 18 = y.ien ∧ y.qcfg.getLsbD 17 = y.cqen ∧ y.qcfg.getLsbD 16 = y.sqen
      ∧ (y.qcfg.extractLsb' 8 4).toNat = y.vec % 16 ∧ (y.qcfg.extractLsb' 0 5).toNat = y.log2size % 32
      ∧ (y.qcfg.extractLsb' 48 16).toNat = 0 ∧ (y.qcfg.extractLsb' 19 13).toNat = 0 ∧ (y.qcfg.extractLsb' 12 4).toNat = 0
      ∧ (y.qcfg.extractLsb' 5 3).toNat = 0 := by
  have hi := Bool.toNat_le y.ien
  have hc := Bool.toNat_le y.cqen
  have hs := Bool.toNat_le y.sqen
  simp only [Queue.qcfg, bit_eq]
  exact ⟨(word_field (by decide)).trans (by omega), word_flag (by decide) (by omega), word_flag (by decide) (by omega),
    word_flag (by decide) (by omega), (word_field (by decide)).trans (by omega), (word_field (by decide)).trans (by omega),
    (word_field (by decide)).trans (by omega), (word_field (by decide)).trans (by omega), (word_field (by decide)).trans (by omega),
    (word_field (by decide)).trans (by omega)⟩

section
variable {s : State} {f : Nat} (h1 : 1 ≤ f) (hr : s.boot.recovery = false)
include h1

theorem State.readReg_recovery (hr : s.boot.recovery = true) (off : Nat) : s.readReg f off = 0 :=
  (if_neg (by omega)).trans (if_pos hr)

include hr

theorem State.readReg_vf (off : Nat) : s.readReg f off = s.readBlock f off :=
  (if_neg (by omega)).trans (if_neg (by simp [hr]))

theorem State.readReg_sqbase {q : Nat} (hq : q < 16) : s.readReg f (0x1000 + 32 * q) = (s.queue f q).sqbase := by
  rw [State.readReg_vf h1 hr]
  simp only [State.readBlock]
  rw [if_neg (by omega), if_neg (by omega), if_neg (by omega), if_pos (by omega), if_pos (by omega), show (0x1000 + 32 * q - 0x1000) / 32 = q by omega]

theorem State.readReg_cqbase {q : Nat} (hq : q < 16) : s.readReg f (0x1008 + 32 * q) = (s.queue f q).cqbase := by
  rw [State.readReg_vf h1 hr]
  simp only [State.readBlock]
  rw [if_neg (by omega), if_neg (by omega), if_neg (by omega), if_pos (by omega), if_neg (by omega), if_pos (by omega),
    show (0x1008 + 32 * q - 0x1000) / 32 = q by omega]

theorem State.readReg_qcfg {q : Nat} (hq : q < 16) : s.readReg f (0x1010 + 32 * q) = (s.queue f q).qcfg := by
  rw [State.readReg_vf h1 hr]
  simp only [State.readBlock]
  rw [if_neg (by omega), if_neg (by omega), if_neg (by omega), if_pos (by omega), if_neg (by omega), if_neg (by omega), if_pos (by omega),
    show (0x1010 + 32 * q - 0x1000) / 32 = q by omega]

theorem State.readReg_vfcap : s.readReg f 0 = s.vfcap f := by
  rw [State.readReg_vf h1 hr]
  simp only [State.readBlock, if_true]

theorem State.readReg_vfctl : s.readReg f 0x08 = if (s.fn f).en then 1 else 0 := by
  rw [State.readReg_vf h1 hr]
  simp only [State.readBlock]
  rw [if_neg (by decide), if_pos trivial]
  cases (s.fn f).en <;> rfl

theorem State.readReg_vfstat : s.readReg f 0x10 = s.vfstat f := by
  rw [State.readReg_vf h1 hr]
  simp only [State.readBlock]
  rw [if_neg (by decide), if_neg (by decide), if_pos trivial]

end

/-! ### Routing IDs (R60) -/

theorem HostIf.routingId_eq (h : HostIf) (n : Nat) : h.routingId n = h.pfRid + n := by
  simp only [HostIf.routingId, firstVfOffset, vfStride]
  split <;> omega

/-- A routing ID names its function alone. -/
theorem HostIf.fnOfRid_routingId (h : HostIf) {n : Nat} (hn : n ≤ 512) : h.fnOfRid (h.routingId n) = some n := by
  rw [HostIf.fnOfRid, List.find?_range_eq_some]
  simp only [HostIf.routingId_eq, totalVfs, List.mem_range, beq_self_eq_true, true_and, Bool.not_eq_eq_eq_not, Bool.not_true, beq_eq_false_iff_ne]
  exact ⟨by omega, fun m hm => by omega⟩

theorem HostIf.ridBus_routingId (h : HostIf) (ha : h.pfRid % 256 = 0) {n : Nat} (hn : n ≤ 512) :
    ridBus (h.routingId n) = ridBus h.pfRid + (if n ≤ 255 then 0 else if n ≤ 511 then 1 else 2)
      ∧ ridFunction (h.routingId n) = if n ≤ 255 then n else if n ≤ 511 then n - 256 else 0 := by
  simp only [HostIf.routingId_eq, ridBus, ridFunction]
  split_ifs <;> constructor <;> omega

/-! ### The placement of HBM addresses (R176) -/

/-- The number whose bit `i` is `p i`, for `i` below `n`. -/
theorem foldl_bits (p : Nat → Bool) (n : Nat) :
    (∀ i < n, ((List.range n).foldl (fun acc i => if p i then acc + 2 ^ i else acc) 0).testBit i = p i)
      ∧ (List.range n).foldl (fun acc i => if p i then acc + 2 ^ i else acc) 0 < 2 ^ n := by
  induction n with
  | zero => simp
  | succ n ih =>
    obtain ⟨hbit, hlt⟩ := ih
    simp only [List.range_succ, List.foldl_append, List.foldl_cons, List.foldl_nil]
    generalize (List.range n).foldl (fun acc i => if p i then acc + 2 ^ i else acc) 0 = x at hbit hlt
    cases hp : p n with
    | false =>
      refine ⟨fun i hi => ?_, by simp [pow_succ]; omega⟩
      obtain h | rfl := Nat.lt_succ_iff_lt_or_eq.mp hi
      · exact hbit i h
      · simpa [hp] using Nat.testBit_lt_two_pow hlt
    | true =>
      refine ⟨fun i hi => ?_, by simp [pow_succ]; omega⟩
      rw [if_pos rfl, Nat.add_comm]
      obtain h | rfl := Nat.lt_succ_iff_lt_or_eq.mp hi
      · rw [Nat.testBit_two_pow_add_gt h]
        exact hbit i h
      · rw [Nat.testBit_two_pow_add_eq, Nat.testBit_lt_two_pow hlt, hp]
        rfl

theorem parityOf_succ (x n : Nat) : parityOf x (n + 1) = (x.testBit n != parityOf x n) := by
  rw [parityOf, Nat.testBit_eq_decide_div_mod_eq]
  rfl

/-- A parity is whether the number of set bits is odd. -/
theorem parityOf_eq (x n : Nat) : parityOf x n = (((List.range n).filter fun k => x.testBit k).length % 2 == 1) := by
  induction n with
  | zero => rfl
  | succ n ih =>
    rw [parityOf_succ, ih, List.range_succ, List.filter_append, List.length_append]
    cases hx : x.testBit n with
    | false => simp [hx]
    | true =>
      simp only [hx, List.filter_cons, if_true, List.filter_nil, List.length_cons, List.length_nil, Bool.true_bne]
      rw [Bool.eq_iff_iff]
      simp only [Bool.not_eq_true', beq_eq_false_iff_ne, beq_iff_eq]
      omega

/-- Two numbers that differ in one bit have two parities. -/
theorem parityOf_ne {x y j n : Nat} (hj : j < n) (hbit : x.testBit j ≠ y.testBit j) (hrest : ∀ k, k ≠ j → x.testBit k = y.testBit k) :
    parityOf x n ≠ parityOf y n := by
  induction n with
  | zero => omega
  | succ n ih =>
    rw [parityOf_succ, parityOf_succ]
    obtain h | rfl := Nat.lt_succ_iff_lt_or_eq.mp hj
    · rw [hrest n (by omega)]
      simpa using ih h
    · have : parityOf x j = parityOf y j := by
        simp only [parityOf_eq]
        rw [List.filter_congr fun k hk => hrest k (List.mem_range.mp hk).ne]
      rw [this]
      simpa using hbit

/-- The places of a list below `n`. -/
def lowPlaces (places : List Nat) (n : Nat) : Nat := (places.filter fun k => decide (k < n)).length

theorem lowPlaces_succ {places : List Nat} (h : places.Nodup) (n : Nat) :
    lowPlaces places (n + 1) = lowPlaces places n + if n ∈ places then 1 else 0 := by
  induction places with
  | nil => rfl
  | cons k t ih =>
    obtain ⟨hk, ht⟩ := List.nodup_cons.mp h
    have := ih ht
    simp only [lowPlaces, List.filter_cons, List.mem_cons] at this ⊢
    by_cases hnk : n = k
    · subst hnk
      simp [hk] at this ⊢
      omega
    · have hlt : k < n + 1 ↔ k < n := by omega
      simp only [hnk, false_or, hlt]
      by_cases hkn : k < n
      · simp only [hkn, decide_true, if_true, List.length_cons]
        omega
      · simp only [hkn, decide_false, Bool.false_eq_true, if_false]
        omega

theorem lowPlaces_le {places : List Nat} (h : places.Nodup) (n : Nat) : lowPlaces places n ≤ n := by
  induction n with
  | zero => simp [lowPlaces]
  | succ n ih =>
    rw [lowPlaces_succ h]
    split <;> omega

theorem dropBits_succ (places : List Nat) (pa n : Nat) : dropBits places pa (n + 1) =
    dropBits places pa n + if n ∈ places then 0 else pa / 2 ^ n % 2 * 2 ^ (n - lowPlaces places n) := by
  simp only [dropBits, lowPlaces, List.contains_iff_mem]

theorem dropBits_lt {places : List Nat} (h : places.Nodup) (pa n : Nat) : dropBits places pa n < 2 ^ (n - lowPlaces places n) := by
  induction n with
  | zero => simp [dropBits]
  | succ n ih =>
    have hle := lowPlaces_le h n
    rw [dropBits_succ, lowPlaces_succ h]
    split
    · rwa [show n + 1 - (lowPlaces places n + 1) = n - lowPlaces places n by omega]
    · rw [show n + 1 - (lowPlaces places n + 0) = n - lowPlaces places n + 1 by omega, pow_succ]
      have := Nat.mul_le_mul_right (2 ^ (n - lowPlaces places n)) (Nat.le_of_lt_succ (Nat.mod_lt (pa / 2 ^ n) (y := 2) (by decide)))
      omega

/-- What is left of an address tells every bit beside the places. -/
theorem testBit_of_dropBits {places : List Nat} (h : places.Nodup) {a b n : Nat} (he : dropBits places a n = dropBits places b n) {k : Nat} (hk : k < n)
    (hp : k ∉ places) : a.testBit k = b.testBit k := by
  induction n with
  | zero => omega
  | succ n ih =>
    have ha := dropBits_lt h a n
    have hb := dropBits_lt h b n
    rw [dropBits_succ, dropBits_succ] at he
    generalize hw : 2 ^ (n - lowPlaces places n) = w at ha hb he
    have hbits : dropBits places a n = dropBits places b n ∧ (n ∈ places ∨ a / 2 ^ n % 2 = b / 2 ^ n % 2) := by
      split at he
      · exact ⟨he, .inl ‹_›⟩
      · have hcase (x : Nat) : x / 2 ^ n % 2 = 0 ∨ x / 2 ^ n % 2 = 1 := Nat.mod_two_eq_zero_or_one _
        obtain h0 | h0 := hcase a <;> obtain h1 | h1 := hcase b <;> rw [h0, h1] at he ⊢ <;> omega
    obtain h | rfl := Nat.lt_succ_iff_lt_or_eq.mp hk
    · exact ih hbits.1 h
    · rw [Nat.testBit_eq_decide_div_mod_eq, Nat.testBit_eq_decide_div_mod_eq, hbits.2.resolve_left hp]

end Sys2Proof.Machine

namespace Sys2Proof.Claims
open Machine

theorem parityOf_oddUnder (mask pa : Nat) : parityOf (pa &&& mask) 46 = oddUnder mask pa := parityOf_eq _ 46

/-- The bits of a placement are the parities under the masks. -/
theorem placement_bits (ms : List Nat) (pa : Nat) :
    (∀ i < 4, (hbmStack ms pa).testBit i = oddUnder (ms.getD i 0) pa) ∧ hbmStack ms pa < 16
      ∧ (∀ i < 5, (hbmChannel ms pa).testBit i = oddUnder (ms.getD (4 + i) 0) pa) ∧ hbmChannel ms pa < 32
      ∧ hbmPseudo ms pa = if oddUnder (ms.getD 9 0) pa then 1 else 0 := by
  simp only [hbmStack, hbmChannel, hbmPseudo, parityOf_oddUnder]
  obtain ⟨hs, hs'⟩ := foldl_bits (fun i => oddUnder (ms.getD i 0) pa) 4
  obtain ⟨hc, hc'⟩ := foldl_bits (fun i => oddUnder (ms.getD (4 + i) 0) pa) 5
  exact ⟨hs, hs', hc, hc', trivial⟩

/-- Addresses of one stack, channel and pseudo-channel have the same parity under each of the ten masks. -/
theorem oddUnder_of_place {ms : List Nat} (hlen : ms.length = 10) {a b : Nat} (hs : hbmStack ms a = hbmStack ms b) (hc : hbmChannel ms a = hbmChannel ms b)
    (hp : hbmPseudo ms a = hbmPseudo ms b) {m : Nat} (hm : m ∈ ms) : oddUnder m a = oddUnder m b := by
  obtain ⟨i, hi, rfl⟩ := List.mem_iff_getElem.mp hm
  rw [List.getElem_eq_getD 0]
  obtain ⟨hsa, -, hca, -, hpa⟩ := placement_bits ms a
  obtain ⟨hsb, -, hcb, -, hpb⟩ := placement_bits ms b
  have hcase : i < 4 ∨ (∃ k, k < 5 ∧ i = 4 + k) ∨ i = 9 := by
    by_cases h4 : i < 4
    · exact .inl h4
    · by_cases h9 : i = 9
      · exact .inr (.inr h9)
      · exact .inr (.inl ⟨i - 4, by omega, by omega⟩)
  obtain h | ⟨k, hk, rfl⟩ | rfl := hcase
  · rw [← hsa i h, ← hsb i h, hs]
  · rw [← hca k hk, ← hcb k hk, hc]
  · rw [hpa, hpb] at hp
    generalize oddUnder (ms.getD 9 0) a = x, oddUnder (ms.getD 9 0) b = y at hp ⊢
    revert x y
    decide

/-- The highest bit of a mask that R176 allows tells two addresses apart that differ there and not below: above it the mask selects nothing. -/
theorem oddUnder_ne {m a b : Nat} (h0 : m ≠ 0) (hlt : m < 2 ^ 40) (hbit : a.testBit m.log2 ≠ b.testBit m.log2)
    (hlow : ∀ k < m.log2, a.testBit k = b.testBit k) : oddUnder m a ≠ oddUnder m b := by
  rw [← parityOf_oddUnder, ← parityOf_oddUnder]
  have hlog : m.log2 < 40 := (Nat.log2_lt h0).mpr hlt
  refine parityOf_ne (j := m.log2) (by omega) ?_ fun k hk => ?_
  · simpa [Nat.testBit_and, Nat.testBit_log2 h0] using hbit
  · rw [Nat.testBit_and, Nat.testBit_and]
    obtain h | h := Nat.lt_or_gt_of_ne hk
    · rw [hlow k h]
    · have : m.testBit k = false := Nat.testBit_lt_two_pow (lt_of_lt_of_le Nat.lt_log2_self (Nat.pow_le_pow_right (by decide) h))
      simp [this]

/-- Two addresses in one place are one: the lowest bit in which they differ would be the highest of a mask, and its parity tells them apart. -/
theorem placement_injective {ms : List Nat} (hlen : ms.length = 10) (hok : masksOk ms = true) {a b : Nat} (ha : a < 2 ^ 40) (hb : b < 2 ^ 40)
    (hs : hbmStack ms a = hbmStack ms b) (hc : hbmChannel ms a = hbmChannel ms b) (hp : hbmPseudo ms a = hbmPseudo ms b)
    (ho : hbmOffset ms a = hbmOffset ms b) : a = b := by
  obtain ⟨hmasks, hnodup⟩ := (masksOk_iff ms).mp hok
  refine Nat.eq_of_testBit_eq fun k => ?_
  induction k using Nat.strong_induction_on with
  | _ k hlow =>
    by_contra hbit
    have hk : k < 40 := by
      by_contra h
      have hpow := Nat.pow_le_pow_right (show 0 < 2 by decide) (Nat.not_lt.mp h)
      exact hbit (by rw [Nat.testBit_lt_two_pow (lt_of_lt_of_le ha hpow), Nat.testBit_lt_two_pow (lt_of_lt_of_le hb hpow)])
    have hplace : k ∈ ms.map Nat.log2 := by
      by_contra h
      exact hbit (testBit_of_dropBits hnodup ho hk h)
    obtain ⟨m, hm, rfl⟩ := List.mem_map.mp hplace
    obtain ⟨h0, hlt, -⟩ := hmasks m hm
    exact oddUnder_ne h0 hlt hbit hlow (oddUnder_of_place hlen hs hc hp hm)

end Sys2Proof.Claims

namespace Sys2Proof
open Machine Claims

/-- Settles O38: routing IDs by arithmetic, registers field by field, and the placement by the lowest bit in which two addresses differ. -/
theorem hostReadsAndPlacement : Obligations.HostReadsAndPlacement := by
  unfold Obligations.HostReadsAndPlacement
  refine ⟨⟨fun h => ⟨fun n m _ _ he => ?_, fun n hn => ⟨h.routingId_eq n, h.fnOfRid_routingId hn⟩, fun ha n hn => h.ridBus_routingId ha hn⟩,
    fun s f q h1 h2 hq => ⟨State.readReg_recovery h1, fun hr => ?_⟩⟩,
    fun ms hlen => ⟨placement_bits ms, fun hok a b ha hb hs hc hp ho => placement_injective hlen hok ha hb hs hc hp ho⟩⟩
  · rw [h.routingId_eq, h.routingId_eq] at he
    omega
  · rw [State.readReg_vfcap h1 hr, State.readReg_vfstat h1 hr, State.readReg_qcfg h1 hr hq]
    obtain ⟨c1, c2, c3, c4, c5⟩ := s.vfcap_fields h2
    obtain ⟨t1, t2, t3, t4, t5, t6, t7⟩ := s.vfstat_fields f
    exact ⟨c1, c2, c3, c4, c5, State.readReg_vfctl h1 hr, t1, t2, t3, t4, t5, t6, t7, State.readReg_sqbase h1 hr hq, State.readReg_cqbase h1 hr hq,
      (s.queue f q).qcfg_fields⟩

end Sys2Proof

namespace Sys2Proof.Claims
open Machine

/-- What a step that has been evaluated gives. -/
theorem Gives.of_exec {i : Instr} {s t : State} {P : State → Prop} (h : Gives i s P) (he : exec i s = t.to) : P t := by
  obtain ⟨u, hu, hp⟩ := h
  have : t = u := by simpa [he, State.to] using hu
  exact this ▸ hp

/-! ### A fill of a frame through a page that the frame has not recorded (R178) -/

/-- Page 0, of 64 KiB. -/
def fillPage : PageId := ⟨0, false⟩
/-- One fill of LP frame 0 by partition 0 through page 0 waits to be counted, and no walk has recorded a page of the frame. -/
def fillState : State := { State.reset with dev := { Dev.reset with lpFills := [(0, 0, fillPage)] } }

/-- Counting the fill records no page. -/
theorem fillState_frame : (aget? (fillState.dev.lpTurn 0 0 0).lp 0).map LpFrame.pages = some [] := by
  decide +kernel

end Sys2Proof.Claims

namespace Sys2Proof
open Machine Claims

/-- Refutes O45: nothing in the statement ties a fill that waits to be counted to a walk that recorded its page. The count of a fill leaves the pages
of its frame as they are, while the clause for LP_FRAME_FILL has the fill's page among them after it: on a frame without a page they differ. -/
theorem not_cacheWaysAndLogs : ¬ Obligations.CacheWaysAndLogs := by
  unfold Obligations.CacheWaysAndLogs
  rintro ⟨-, -, -, h⟩
  have hhomes : AtHomes fillState.dev := ⟨rfl, by decide, rfl, rfl, ⟨rfl, rfl⟩, rfl⟩
  obtain ⟨hcounted, -⟩ := h fillState fillPage hhomes rfl rfl rfl
  obtain ⟨-, hframe, -⟩ := (hcounted (.inl rfl)).of_exec (t := { fillState with dev := fillState.dev.lpTurn 0 0 0 }) rfl
  have hpages := fillState_frame
  rw [show aget? (fillState.dev.lpTurn 0 0 0).lp 0 = some ⟨1, false, none, [(0, fillPage)]⟩ from hframe] at hpages
  exact absurd hpages (by decide)

end Sys2Proof

namespace Sys2Proof.Machine

theorem Mem.nat_nil (a n : Nat) : Mem.nat [] a n = 0 := by
  induction n generalizing a with
  | zero => rfl
  | succ n ih =>
    rw [Mem.nat_succ, ih]
    rfl

end Sys2Proof.Machine

namespace Sys2Proof.Claims
open Machine

/-- A command with NOCQE that completes with SUCCESS leaves its own effect alone. -/
theorem Reports.silent {u t : State} {info : Nat} (h : Reports u t 0 info) (hn : u.args.cmd.getLsbD 9 = true) : t = u := by
  unfold Reports ReportsFor at h
  rwa [if_pos ⟨hn, rfl⟩] at h

/-! ### A version load that waits on the line of a routine entry (R281, R358) -/

/-- An enabled queue, with its completion queue at IOVA 0. -/
def openQueue : Queue := { Queue.reset with sqen := true, cqen := true }
/-- Function 1 is enabled and bound to partition 0 with supervisor rights. -/
def openVf : Fn := { Fn.reset with en := true, bound := some 0, sup := true, queues := [(0, openQueue)] }
/-- An `lver` of version 1 of the word at PA 0. -/
def versionLoad : HomeReq :=
  ⟨0, 0, 0, 0, 0, 0, 0, 0, 0, false, 0, none, .lver 1 0 1 0, 0, .pod, false, false⟩
/-- The device that serves partition 0, with the version load in the home queue of line 0, which holds version 0. -/
def loadingDev : Dev := { Dev.reset with parts := [(0, { Part.reset with st := .resident, configured := true })], homeQ := [versionLoad] }
/-- ROUTINE of entry 0, whose table begins at PA 0: one instruction at 1, with NOCQE. -/
def loadingState : State :=
  { State.reset with
    boot := { Boot.reset with ready := true }
    host := { HostIf.reset with funcs := [(1, openVf)] }
    dev := loadingDev
    args := { StepArgs.reset with a := 1, cmd := BitVec.ofNat 512 (2 ^ 9 + 2 ^ 41 + 2 ^ 64) } }

/-- An entry that ROUTINE writes is not 0: its VALID is set. -/
theorem validEntry_ne_zero (comm ro ord len code : Nat) :
    0 ≠ 2 ^ 63 + comm * 2 ^ 61 + ro * 2 ^ 60 + ord * 2 ^ 59 + len * 2 ^ 53 + code := by omega

theorem loadingState_may : VfMay loadingState 0 [(0, 32, 15), (1, 0, 48)] where
  report := ⟨by decide +kernel, by decide +kernel, by decide +kernel, by decide +kernel, by decide +kernel, rfl⟩
  vf := by decide
  bound := rfl
  fields := by decide +kernel

/-- The entry, once written, would let the version load be served first: the flags cannot be read again, and ROUTINE leaves memory as it was. -/
theorem loadingState_memory : loadingState.routine.dev.mem = [] := by
  decide +kernel

end Sys2Proof.Claims

namespace Sys2Proof
open Machine Claims

/-- Refutes O34: the statement has no agent and no request that holds the entry's line before ROUTINE, but a request in the home queue that cannot be
served yet holds no line. An `lver` of version 1 waits on the entry's own line; the entry's first word makes 1 the newest version, the load is served
first, the read of the entry's flags that follows is held, and ROUTINE waits with nothing written. -/
theorem not_routineAndMap : ¬ Obligations.RoutineAndMap := by
  unfold Obligations.RoutineAndMap
  rintro ⟨h, -⟩
  obtain ⟨-, hsup⟩ := h loadingState 0 loadingState_may
  obtain ⟨-, -, hwrites⟩ := hsup ⟨rfl, rfl⟩
  have hgives := hwrites (by decide +kernel) (by decide +kernel) (.inl rfl) (by decide +kernel) rfl (by decide +kernel) (by decide +kernel)
    (by decide +kernel) rfl
  obtain ⟨u, hreports, -, -, hargs, -, hentry, -⟩ := hgives.of_exec (t := loadingState.routine) rfl
  have hu := hreports.silent (by rw [hargs]; decide +kernel)
  rw [← hu, loadingState_memory, Mem.nat_nil] at hentry
  exact validEntry_ne_zero _ _ _ _ _ hentry

end Sys2Proof

namespace Sys2Proof.Claims
open Machine

/-! ### A task of another partition on a core (R78, R353) -/

/-- A sweep of partition 1, whose records wait for their page. -/
def waitingSweep : Sweep := ⟨0, 1, 0, 0, 0, 0, .live, [(0, .delivered 0 0 0)], true, 1, [], none, [], false, 0, true, []⟩
/-- A task of partition 1 that holds tile 0 of the sweep. -/
def strayTask : Task := ⟨0, 1, 0, 0, parseDesc 0, 0, 0, [], [], [], [], 0, false, [⟨0, 0, 0, 0, none⟩], []⟩
/-- Core 0 serves partition 0, and the task of partition 1 is on it. -/
def strayDev : Dev :=
  { Dev.reset with
    cores := [(0, { Core.reset with part := some 0, tasks := [strayTask] })]
    parts := [(0, { Part.reset with st := .resident, configured := true }), (1, { Part.reset with sweeps := [(0, waitingSweep)] })] }
/-- PARTSTOP of partition 0, with NOCQE. -/
def strayState : State :=
  { State.reset with
    boot := { Boot.reset with ready := true }
    host := { HostIf.reset with funcs := [(0, { Fn.reset with en := true, queues := [(0, openQueue)] })] }
    dev := strayDev
    args := { StepArgs.reset with a := 0, cmd := BitVec.ofNat 512 (2 ^ 9) } }

theorem strayState_nocqe : strayState.args.cmd.getLsbD 9 = true := by
  decide +kernel

theorem strayState_may : PfMay strayState [(0, 32, 6)] where
  report := ⟨by decide +kernel, by decide +kernel, by decide +kernel, by decide +kernel, by decide +kernel, rfl⟩
  pf := rfl
  fields := by decide +kernel

/-- PARTSTOP of partition 0 returns the tile, to the sweep of partition 1. -/
theorem strayState_returned : (strayState.partstop.dev.part 1).sweeps.map (fun w => w.2.recQ) = [[(0, 0)]] := by
  decide +kernel

end Sys2Proof.Claims

namespace Sys2Proof
open Machine Claims

/-- Refutes O35: nothing in the statement ties a task to the partition that its core serves. PARTSTOP returns the tiles of every task on the cores of
its partition, each to the sweep of the task's own partition; a task of partition 1 on a core of partition 0 so changes partition 1, which the
statement has as before. -/
theorem not_partitionCommands : ¬ Obligations.PartitionCommands := by
  unfold Obligations.PartitionCommands
  rintro ⟨-, h⟩
  obtain ⟨-, hstop⟩ := h strayState strayState_may
  obtain ⟨hquiet, -⟩ := hstop (by decide +kernel) (by decide +kernel) (by decide +kernel) (by simp [strayState, strayDev, Dev.reset])
  obtain ⟨d, hstopped, hreports⟩ := (hquiet (by decide +kernel)).of_exec (t := strayState.partstop) rfl
  have hd : strayState.partstop.dev = d := congrArg State.dev (hreports.silent strayState_nocqe)
  have hother : d.part 1 = strayDev.part 1 := hstopped.others 1 (by decide +kernel)
  have hreturned := strayState_returned
  rw [hd, hother] at hreturned
  exact absurd hreturned (by decide +kernel)

end Sys2Proof

namespace Sys2Proof.Claims
open Machine

/-! ### VF commands that run, and commands in execution (R70-R73) -/

section
variable {s : State} {p : Nat} {fields : List (Nat × Nat × Nat)} {run : Nat → State} (h : VfMay s p fields)
include h

theorem VfMay.exec_eq : s.vfCommand false fields run = run p := by
  have hb : (s.fn s.cmdFn).bound = some p := h.bound
  simp only [State.vfCommand, State.cmdFn, h.report.active, h.vf, h.fields, Bool.not_true, Bool.false_and, Bool.false_eq_true, if_false] at hb ⊢
  rw [hb]

/-- A command of the VF can be reported from a state that differs from `s` in the commands and in the device, while the partition runs. -/
theorem VfMay.report_of {u : State} (hboot : u.boot = s.boot) (hargs : u.args = s.args) (hfuncs : u.host.funcs = s.host.funcs)
    (hiommu : u.host.iommuBad = s.host.iommuBad) (hmem : u.host.hostMem = s.host.hostMem) (hst : (u.dev.part p).st = (s.dev.part p).st) :
    CanReport u u.args.a u.args.b := by
  have hfn : u.fn s.args.a = s.fn s.args.a := by simp only [State.fn, hfuncs]
  rw [hargs]
  refine h.report.of hboot hfn hiommu hmem (.inr fun q hq => ?_)
  obtain rfl : p = q := by simpa [h.bound] using hq
  exact hst

end

theorem startStep_eq (s : State) (p : Nat) (k : CmdKind) : s.startStep p k = (started s p k).cmdStep s.host.nextCmd := rfl

/-- The command that `started` puts in execution. -/
def begun (s : State) (p : Nat) (k : CmdKind) : Cmd :=
  ⟨s.args.a, s.args.b, (s.fn s.args.a).gen, p, cidOf s.args.cmd, s.args.cmd.getLsbD 10, s.args.cmd.getLsbD 9, k⟩

theorem aget?_started (s : State) (p : Nat) (k : CmdKind) : aget? (started s p k).host.cmds s.host.nextCmd = some (begun s p k) :=
  aget?_aset_same ..

theorem endCmd_eq {s : State} {n : Nat} {c : Cmd} (h : aget? s.host.cmds n = some c) (status info : Nat) : s.endCmd n status info =
    ({ s with host := { s.host with cmds := adel s.host.cmds n } } : State).complete c.fn c.gen c.queue c.cid c.nocqe status info := by
  rw [State.endCmd, h]
  rfl

/-- A command that has just begun ends: it is reported, and its number is passed. -/
theorem endCmd_begun {s u : State} {p : Nat} {fields : List (Nat × Nat × Nat)} {k : CmdKind} (h : VfMay s p fields) (hboot : u.boot = s.boot)
    (hargs : u.args = s.args) (hhost : u.host = (started s p k).host) (hst : (u.dev.part p).st = (s.dev.part p).st) {status info : Nat}
    (hs : status < 65536) (hi : info < 2 ^ 64) :
    Reports { u with host := (passed s).host } (u.endCmd s.host.nextCmd status info) status info := by
  have hcmd : aget? u.host.cmds s.host.nextCmd = some (begun s p k) := hhost ▸ aget?_started s p k
  have hpassed : ({ u.host with cmds := adel u.host.cmds s.host.nextCmd } : HostIf) = (passed s).host := by
    rw [hhost]
    simp only [started, passed, adel_aset]
  rw [endCmd_eq hcmd, hpassed]
  have hr := h.report_of (u := { u with host := (passed s).host }) hboot hargs rfl rfl rfl hst
  have := complete_reports (cid := cidOf s.args.cmd) (nocqe := s.args.cmd.getLsbD 9) hr hs hi
  simp only [hargs] at this
  unfold Reports
  simp only [hargs]
  exact this

/-- A command in execution ends, with the device as `d`. -/
theorem InExecution.ends {s : State} {n : Nat} {c : Cmd} (h : InExecution s n c) {d : Dev} (hparts : d.parts = s.dev.parts) {status info : Nat}
    (hs : status < 65536) (hi : info < 2 ^ 64) : EndsCmd s (({ s with dev := d } : State).endCmd n status info) d n c status info := by
  rw [endCmd_eq (s := { s with dev := d }) h.held, h.gen]
  refine complete_reports (u := { s with dev := d, host := { s.host with cmds := adel s.host.cmds n } }) ?_ hs hi
  exact h.report.of rfl rfl rfl rfl (.inr fun p _ => by simp only [Dev.part, hparts])

theorem runTurn_cmd (s : State) (n : Nat) : s.runTurn (.cmd n) = .next (s.cmdStep n) := rfl

end Sys2Proof.Claims

namespace Sys2Proof.Machine

/-! ### LAUNCH (R90, R91) -/

section
variable {s : State} {n : Nat} {c : Cmd} (h : aget? s.host.cmds n = some c)
include h

theorem State.cmdStep_launch {g : Nat} (hk : c.kind = .launch g) : s.cmdStep n = s.launchEnd n := by
  simp only [State.cmdStep, h, hk]

theorem State.cmdStep_launchWait {x : BitVec 512} (hk : c.kind = .launchWait x) : s.cmdStep n = s.launchGo n c x := by
  simp only [State.cmdStep, h, hk]

theorem State.cmdStep_wait {rank idx : Nat} {target : HWord} {timed : Bool} (hk : c.kind = .wait rank idx target timed) :
    s.cmdStep n = if mbxMet (s.dev.counterOf c.part rank idx) target then s.endCmd n stSuccess 0 else s := by
  simp only [State.cmdStep, h, hk]

end

/-- A status of a descriptor check fits its field. -/
theorem Part.checkDesc_lt {p : Part} {x : BitVec 512} {host : Bool} {st : Nat} (h : p.checkDesc x host = some st) : st < 65536 := by
  simp only [Part.checkDesc] at h
  split_ifs at h <;> simp only [Option.some.injEq] at h <;> subst h <;> decide

theorem freeKey_lt {α : Type} (m : AMap α) (k n g : Nat) (h : freeKey m k n = some g) : g < k + n := by
  induction n generalizing k with
  | zero => simp [freeKey] at h
  | succ n ih =>
    rw [freeKey] at h
    split at h
    · simp only [Option.some.injEq] at h
      omega
    · have := ih (k + 1) h
      omega

theorem Part.freeGroup_lt {p : Part} {g : Nat} (h : p.freeGroup = some g) : g < 65536 := freeKey_lt _ _ _ _ h

theorem State.setKind_held {s : State} {n : Nat} {c : Cmd} (h : aget? s.host.cmds n = some c) (k : CmdKind) :
    s.setKind n k = { s with host := { s.host with cmds := aset s.host.cmds n { c with kind := k } } } := by
  simp only [State.setKind, State.modHost, h]

/-- The device with an accepted launch in its placement queue. -/
def Dev.placed (d : Dev) (part : Nat) (g : Group) (x : Desc) : Dev := (d.setGroup part g).modPart part fun p => p.queueGroup g.id x

theorem Dev.part_modPart (d : Dev) (p : Nat) (f : Part → Part) : (d.modPart p f).part p = f (d.part p) := Dev.part_setPart ..
theorem Dev.part_modPart_ne (d : Dev) {p q : Nat} (f : Part → Part) (h : q ≠ p) : (d.modPart p f).part q = d.part q := Dev.part_setPart_ne _ _ _ _ h

/-- A group of a partition without a DET list goes to the queue of its stream. -/
theorem Dev.part_placed {d : Dev} {part : Nat} (g : Group) (x : Desc) (hdet : (d.part part).cfg.det = false) : (d.placed part g x).part part =
    { d.part part with
      groups := aset (d.part part).groups g.id g
      queues := aset (d.part part).queues x.queue ((aget? (d.part part).queues x.queue).getD [] ++ [g.id]) } := by
  rw [Dev.placed, Dev.part_modPart, Dev.setGroup, Dev.part_modPart]
  exact if_neg (by simp [hdet])

theorem Dev.part_placed_ne (d : Dev) {part q : Nat} (g : Group) (x : Desc) (h : q ≠ part) : (d.placed part g x).part q = d.part q := by
  rw [Dev.placed, Dev.part_modPart_ne _ _ h, Dev.setGroup, Dev.part_modPart_ne _ _ h]

theorem State.launchGo_refused {s : State} {n st : Nat} {c : Cmd} {x : BitVec 512} (h : (s.dev.part c.part).checkDesc x true = some st) :
    s.launchGo n c x = s.endCmd n st 0 := by
  unfold State.launchGo
  dsimp only
  generalize launchBlock c.part (parseDesc x).segtab s.dev = block
  generalize (s.dev.part c.part).checkDesc x true = check at h ⊢
  subst h
  rfl

theorem State.launchGo_accepted {s : State} {n b g : Nat} {c : Cmd} {x : BitVec 512} {d : Dev} (h : (s.dev.part c.part).checkDesc x true = none)
    (hb : launchBlock c.part (parseDesc x).segtab s.dev = .ok (b, d)) (hbad : blockBad b (parseDesc x).scratch = false)
    (hg : (d.part c.part).freeGroup = some g) : s.launchGo n c x = ({ s with dev := d } : State).launchAccept n c (parseDesc x) b g := by
  unfold State.launchGo
  dsimp only
  generalize launchBlock c.part (parseDesc x).segtab s.dev = block at hb ⊢
  generalize (s.dev.part c.part).checkDesc x true = check at h ⊢
  subst h hb
  simp only [hbad, hg, Bool.false_eq_true, if_false]

theorem State.launchEnd_over {s : State} {n : Nat} {e : EndedGroup} (h : s.dev.ended = [e]) (hn : e.cmd = n) (hg : e.gates = []) :
    s.launchEnd n = ({ s with dev := { s.dev with ended := [] } } : State).endCmd n (if e.lost = 0 then stSuccess else stDataerr)
      (e.group + e.lost * 2 ^ 32) := by
  simp [State.launchEnd, h, hn, hg, State.modDev]

end Sys2Proof.Machine

namespace Sys2Proof.Claims
open Machine

/-- The group of a launch as it is accepted. -/
def acceptedGroup (s : State) (x : Desc) (b g : Nat) : Group :=
  newGroup g x (blockSegs b) (blockLocal b) (if s.args.cmd.getLsbD 10 then none else some s.host.nextCmd) none

/-- The state in which the accepted launch has been placed, and is still in execution. -/
def placedState (s : State) (p : Nat) (d : Dev) (x : Desc) (b g : Nat) (k : CmdKind) : State :=
  { started s p k with dev := d.placed p (acceptedGroup s x b g) x }

theorem launchAccept_begun (s : State) (p : Nat) (d : Dev) (x : Desc) (b g : Nat) (k : CmdKind) :
    ({ started s p k with dev := d } : State).launchAccept s.host.nextCmd (begun s p k) x b g =
      if s.args.cmd.getLsbD 10 then (placedState s p d x b g k).endCmd s.host.nextCmd stSuccess g
      else (placedState s p d x b g k).setKind s.host.nextCmd (.launch g) := rfl

theorem launch_run {s : State} {p : Nat} (h : VfMay s p []) : s.launch =
    (started s p (.launchWait s.args.desc)).launchGo s.host.nextCmd (begun s p (.launchWait s.args.desc)) s.args.desc := by
  rw [State.launch, h.exec_eq, startStep_eq]
  exact State.cmdStep_launchWait (aget?_started ..) rfl

theorem launch_refused {s : State} {p st : Nat} (h : VfMay s p []) (hst : (s.dev.part p).checkDesc s.args.desc true = some st) :
    Gives .launch s fun t => Reports (passed s) t st 0 := by
  refine gives_to (congrArg State.to ((launch_run h).trans (State.launchGo_refused hst))) ?_
  exact endCmd_begun (u := started s p (.launchWait s.args.desc)) (info := 0) h rfl rfl rfl rfl (Part.checkDesc_lt hst) (by decide)

section
variable {s : State} {p b g : Nat} {d : Dev} (h : VfMay s p []) (hcheck : (s.dev.part p).checkDesc s.args.desc true = none)
  (hblock : launchBlock p (parseDesc s.args.desc).segtab s.dev = .ok (b, d)) (hparts : d.parts = s.dev.parts)
  (hbad : blockBad b (parseDesc s.args.desc).scratch = false) (hfree : (s.dev.part p).freeGroup = some g)
include h hcheck hblock hparts hbad hfree

theorem launch_placed : s.launch = if s.args.cmd.getLsbD 10 then
      (placedState s p d (parseDesc s.args.desc) b g (.launchWait s.args.desc)).endCmd s.host.nextCmd stSuccess g
    else placedState s p d (parseDesc s.args.desc) b g (.launch g) := by
  have hpart : d.part p = s.dev.part p := by simp only [Dev.part, hparts]
  have hgo := State.launchGo_accepted (s := started s p (.launchWait s.args.desc)) (n := s.host.nextCmd)
    (c := begun s p (.launchWait s.args.desc)) (x := s.args.desc) (b := b) (g := g) (d := d) hcheck hblock hbad (hpart ▸ hfree)
  rw [launch_run h, hgo]
  refine (launchAccept_begun s p d (parseDesc s.args.desc) b g _).trans (if_congr Iff.rfl rfl ?_)
  rw [State.setKind_held (s := placedState s p d (parseDesc s.args.desc) b g (.launchWait s.args.desc)) (aget?_started s p _)]
  simp only [placedState, started, begun, aset_aset]

end

/-- What the acceptance of a launch makes of the device (R91, R92). -/
theorem placedState_placed {s : State} {p b g : Nat} {d : Dev} (x : Desc) (k : CmdKind) (hparts : d.parts = s.dev.parts)
    (hdet : (s.dev.part p).cfg.det = false) :
    let u := placedState s p d x b g k
    u.dev.mem = d.mem ∧ u.boot = s.boot
      ∧ (∃ z, aget? (u.dev.part p).groups g = some z ∧ z.desc = x ∧ z.segs = blockSegs b ∧ z.next = 0 ∧ z.live = 0)
      ∧ aget? (u.dev.part p).queues x.queue = some ((aget? (s.dev.part p).queues x.queue).getD [] ++ [g])
      ∧ ∀ r, r ≠ p → u.dev.part r = s.dev.part r := by
  intro u
  have hpart (r : Nat) : d.part r = s.dev.part r := by simp only [Dev.part, hparts]
  have hplaced := Dev.part_placed (acceptedGroup s x b g) x (hpart p ▸ hdet)
  refine ⟨rfl, rfl, ?_, ?_, fun r hr => (Dev.part_placed_ne d _ x hr).trans (hpart r)⟩
  · refine ⟨acceptedGroup s x b g, ?_, rfl, rfl, rfl, rfl⟩
    exact (congrArg (fun q : Part => aget? q.groups g) hplaced).trans (aget?_aset_same ..)
  · rw [← hpart p]
    exact (congrArg (fun q : Part => aget? q.queues x.queue) hplaced).trans (aget?_aset_same ..)

theorem placedState_st {s : State} {p b g : Nat} {d : Dev} (x : Desc) (k : CmdKind) (hparts : d.parts = s.dev.parts)
    (hdet : (s.dev.part p).cfg.det = false) : ((placedState s p d x b g k).dev.part p).st = (s.dev.part p).st := by
  have hpart : d.part p = s.dev.part p := by simp only [Dev.part, hparts]
  rw [← hpart]
  have hplaced := Dev.part_placed (acceptedGroup s x b g) x (hpart ▸ hdet)
  exact (congrArg Part.st hplaced :)

theorem launchEnd_ends {s : State} {n g : Nat} {c : Cmd} {e : EndedGroup} (h : InExecution s n c) (hk : c.kind = .launch g) (he : s.dev.ended = [e])
    (hn : e.cmd = n) (hgates : e.gates = []) (hg : e.group < 65536) (hl : e.lost < 2 ^ 32) : ∃ t, s.runTurn (.cmd n) = .next t
      ∧ EndsCmd s t { s.dev with ended := [] } n c (if e.lost = 0 then 0 else 0x0006) (e.group + e.lost * 2 ^ 32) := by
  refine ⟨_, runTurn_cmd s n, ?_⟩
  rw [State.cmdStep_launch h.held hk, State.launchEnd_over he hn hgates]
  have hi : e.group + e.lost * 2 ^ 32 < 2 ^ 64 := by omega
  have hs : (if e.lost = 0 then stSuccess else stDataerr) < 65536 := by split <;> decide
  exact h.ends (d := { s.dev with ended := [] }) rfl hs hi

end Sys2Proof.Claims

namespace Sys2Proof
open Machine Claims

/-- Settles O33: a launch by the outcome of its checks, the end of its group by the entry that the last task left. -/
theorem launchCommand : Obligations.LaunchCommand := by
  unfold Obligations.LaunchCommand
  refine ⟨fun s p h => ⟨fun st hst => launch_refused h hst, fun b d g hcheck hblock hparts hbad hdet hfree => ⟨fun ha => ?_, fun ha => ?_⟩⟩,
    fun s n c g e h hk he hn hgates hg hl => launchEnd_ends h hk he hn hgates hg hl⟩
  · have hrun := (launch_placed h hcheck hblock hparts hbad hfree).trans (if_pos ha)
    have hg : g < 2 ^ 64 := lt_trans (Part.freeGroup_lt hfree) (by decide)
    have hplaced := placedState_placed (s := s) (b := b) (g := g) (parseDesc s.args.desc) (.launchWait s.args.desc) hparts hdet
    refine gives_to (congrArg State.to hrun) ⟨{ placedState s p d (parseDesc s.args.desc) b g (.launchWait s.args.desc) with host := (passed s).host },
      hplaced, rfl, rfl, ?_⟩
    exact endCmd_begun (u := placedState s p d (parseDesc s.args.desc) b g (.launchWait s.args.desc)) h rfl rfl rfl
      (placedState_st _ _ hparts hdet) (by decide) hg
  · have hrun := (launch_placed h hcheck hblock hparts hbad hfree).trans (if_neg (Bool.not_eq_true _ ▸ ha))
    exact gives_to (congrArg State.to hrun) ⟨placedState_placed _ _ hparts hdet, rfl⟩

end Sys2Proof

namespace Sys2Proof.Machine

/-! ### Bytes within a line -/

/-- A range within one line is one piece. -/
theorem piecesOf_line {pa k : Nat} (h : pa % 128 + k ≤ 128) : piecesOf pa k = if k = 0 then [] else [(pa / 128, pa % 128, k, 0)] := by
  rw [piecesOf]
  split
  next h0 => simp [h0, linePieces]
  next h0 =>
    have hk : min (128 - (pa + 0) % 128) (k - 0) = k := by simp only [Nat.add_zero, Nat.sub_zero]; omega
    rw [linePieces, if_neg (by omega)]
    simp only [hk]
    rw [linePieces, if_pos (by omega)]
    rfl

theorem Mem.lineNat_line (m : Mem) {l off k : Nat} (h : off + k ≤ 128) : lineNat (m.line l) off k = m.nat (128 * l + off) k := by
  rw [lineNat, show (m.line l).toNat = m.nat (128 * l) 128 from Claims.toNat_ofNat_nat m (128 * l) 128, Mem.nat_part h]

/-- Bytes that spell a value are that value. -/
theorem Mem.nat_of_get {m : Mem} {a n v : Nat} (h : ∀ i < n, (m.get (a + i)).toNat = v / 256 ^ i % 256) : m.nat a n = v % 256 ^ n := by
  induction n generalizing a v with
  | zero => simp [Mem.nat, Mem.bytes, leNat, Nat.mod_one]
  | succ n ih =>
    have h0 : (m.get a).toNat = v % 256 := by simpa using h 0 (by omega)
    have htail : m.nat (a + 1) n = v / 256 % 256 ^ n := ih fun i hi => by
      rw [Nat.add_assoc, Nat.add_comm 1 i, h (i + 1) (by omega), Nat.div_div_eq_div_mul, pow_succ, Nat.mul_comm]
    rw [Mem.nat_succ, h0, htail, pow_succ, Nat.mul_comm (256 ^ n), Nat.mod_mul]

/-- A masked store writes the bytes that its mask selects, and no other. -/
theorem Mem.get_setMasked {m : Mem} (a : Nat) (data : Line) (mask : BitVec 128) (n : Nat) (h : Mem.wf m = true) (y : Nat) :
    (m.setMasked a data mask n).get y = if a ≤ y ∧ y < a + n ∧ mask.getLsbD (y - a) = true then data.extractLsb' (8 * (y - a)) 8 else m.get y := by
  induction n with
  | zero => exact (if_neg (by omega)).symm
  | succ n ih =>
    have hw := Mem.wf_setMasked a data mask n h
    rw [Mem.setMasked]
    by_cases hy : y = a + n
    · subst hy
      rw [if_neg (by omega)] at ih
      simp only [Nat.add_sub_cancel_left, Nat.le_add_right, true_and, Nat.add_lt_add_iff_left, Nat.lt_succ_self]
      split
      · exact Mem.get_set_same _ _ hw
      · exact ih
    · have hstep : (if mask.getLsbD n then (m.setMasked a data mask n).set (a + n) (data.extractLsb' (8 * n) 8) else m.setMasked a data mask n).get y
          = (m.setMasked a data mask n).get y := by
        split
        · exact Mem.get_set_ne _ _ _ hw hy
        · rfl
      refine hstep.trans (ih.trans (if_congr ?_ rfl rfl))
      constructor <;> rintro ⟨h1, h2, h3⟩ <;> exact ⟨h1, by omega, h3⟩

theorem getLsbD_byteMask {off k i : Nat} (hi : i < 128) : (byteMask off k).getLsbD i = (decide (off ≤ i) && decide (i < off + k)) := by
  rw [byteMask, BitVec.getLsbD_ofNat]
  simp only [hi, decide_true, Bool.true_and, Nat.testBit_mul_two_pow, Nat.testBit_two_pow_sub_one]
  by_cases h : off ≤ i
  · simp only [h, decide_true, Bool.true_and, decide_eq_decide]
    omega
  · simp [h]

theorem toNat_ofNat_of_lt {w x : Nat} (h : x < 2 ^ w) : (BitVec.ofNat w x).toNat = x := by
  rw [BitVec.toNat_ofNat, Nat.mod_eq_of_lt h]

/-- A byte of a value placed in an empty line. -/
theorem lineSet_byte {off k i v : Nat} (hi : i < k) (hk : off + k ≤ 128) :
    ((lineSet 0 off k v).extractLsb' (8 * (off + i)) 8).toNat = v / 256 ^ i % 256 := by
  have hval : (lineSet 0 off k v).toNat = v % 256 ^ k * 256 ^ off := by
    have hlt : v % 256 ^ k * 256 ^ off < 2 ^ 1024 := by
      calc v % 256 ^ k * 256 ^ off < 256 ^ k * 256 ^ off := Nat.mul_lt_mul_of_pos_right (Nat.mod_lt _ (by positivity)) (by positivity)
        _ = 256 ^ (off + k) := by rw [← pow_add, Nat.add_comm]
        _ ≤ 256 ^ 128 := Nat.pow_le_pow_right (by decide) hk
        _ = 2 ^ 1024 := by rw [show (256 : Nat) = 2 ^ 8 from rfl, ← pow_mul]
    rw [lineSet, lineNat, show (0 : Line).toNat = 0 from BitVec.toNat_zero, Nat.zero_div, Nat.zero_mod, Nat.zero_mul, Nat.sub_zero, Nat.zero_add]
    exact toNat_ofNat_of_lt hlt
  obtain ⟨j, rfl⟩ := Nat.exists_eq_add_of_lt hi
  rw [BitVec.extractLsb'_toNat, hval, Nat.shiftRight_eq_div_pow, pow_mul, show (2 : Nat) ^ 8 = 256 from rfl,
    show (256 : Nat) ^ (off + i) = 256 ^ i * 256 ^ off by rw [pow_add, Nat.mul_comm], Nat.mul_div_mul_right _ _ (by positivity),
    show (256 : Nat) ^ (i + j + 1) = 256 ^ i * (256 * 256 ^ j) by rw [pow_succ, pow_add]; ring, Nat.mod_mul_right_div_self, Nat.mod_mul_right_mod]

/-- A store of `k` bytes within a line: they read back as the value, and no other byte changes. -/
theorem Mem.setMasked_piece {m : Mem} {pa k v : Nat} (h : Mem.wf m = true) (hk : pa % 128 + k ≤ 128) :
    (m.setMasked (128 * (pa / 128)) (lineSet 0 (pa % 128) k v) (byteMask (pa % 128) k) 128).nat pa k = v % 256 ^ k
      ∧ ∀ y, (y < pa ∨ pa + k ≤ y) →
        (m.setMasked (128 * (pa / 128)) (lineSet 0 (pa % 128) k v) (byteMask (pa % 128) k) 128).get y = m.get y := by
  have hpa := Nat.div_add_mod pa 128
  refine ⟨Mem.nat_of_get fun i hi => ?_, fun y hy => ?_⟩
  · have hat : pa + i - 128 * (pa / 128) = pa % 128 + i := by omega
    rw [Mem.get_setMasked _ _ _ _ h, hat, getLsbD_byteMask (by omega), if_pos ⟨by omega, by omega, by simp [hi]⟩, lineSet_byte hi hk]
  · rw [Mem.get_setMasked _ _ _ _ h, if_neg]
    rintro ⟨h1, h2, h3⟩
    rw [getLsbD_byteMask (by omega), Bool.and_eq_true, decide_eq_true_eq, decide_eq_true_eq] at h3
    omega

end Sys2Proof.Machine

namespace Sys2Proof.Claims
open Machine

/-! ### A piece on plain lines -/

section
variable {d : Dev} {tr : Trans} {k : Nat} (h : PlainPiece d tr k)
include h

theorem PlainPiece.prepare : d.prepare (tr.pa / 128) = d := by
  simp [Dev.prepare, h.unregistered, h.noCopies]

theorem PlainPiece.rangeHeld : d.rangeHeld tr.pa k = none := by
  rw [Dev.rangeHeld, piecesOf_line h.line]
  split <;> simp [h.free]

theorem PlainPiece.rangePoisoned : d.rangePoisoned tr.pa k = false := by
  rw [Dev.rangePoisoned, piecesOf_line h.line]
  split <;> simp [h.sound]

theorem PlainPiece.lostLine : d.lostLine (tr.pa / 128) = false := by
  have := h.sound
  simp only [Dev.poisoned, Bool.or_eq_false_iff] at this
  exact this.2

theorem PlainPiece.rangeLost : d.rangeLost tr.pa k = false := by
  rw [Dev.rangeLost, piecesOf_line h.line]
  split <;> simp [h.lostLine]

theorem PlainPiece.agentRead (part : Nat) (leaf : Word) (pg : PageId) :
    ∃ e, d.agentRead tr.pa k part leaf pg = (d.mem.nat tr.pa k, e) ∧ e.mem = d.mem := by
  rw [Dev.agentRead, piecesOf_line h.line]
  split
  next h0 =>
    subst h0
    exact ⟨d, rfl, rfl⟩
  next h0 =>
    simp only [List.foldl_cons, List.foldl_nil, h.prepare]
    refine ⟨_, Prod.ext ?_ rfl, rfl⟩
    have hnow : (d.touch (tr.pa / 128) (homeSlice leaf (128 * (tr.pa / 128))) part (leafClass leaf) pg false).lineNow (tr.pa / 128)
        = d.mem.line (tr.pa / 128) := by
      rw [Dev.lineNow, show (d.touch (tr.pa / 128) (homeSlice leaf (128 * (tr.pa / 128))) part (leafClass leaf) pg false).regs = d.regs from rfl,
        h.unregistered]
      rfl
    simp only [hnow, Mem.lineNat_line _ h.line]
    simp [Nat.div_add_mod]

theorem PlainPiece.agentWrite (x part : Nat) (leaf : Word) (pg : PageId) :
    (d.agentWrite tr.pa k x part leaf pg).mem.nat tr.pa k = x % 256 ^ k
      ∧ ∀ a, (a < tr.pa ∨ tr.pa + k ≤ a) → (d.agentWrite tr.pa k x part leaf pg).mem.get a = d.mem.get a := by
  rw [Dev.agentWrite, piecesOf_line h.line]
  split
  next h0 =>
    subst h0
    exact ⟨by simp [Mem.nat, Mem.bytes, leNat, Nat.mod_one], fun _ _ => rfl⟩
  next h0 =>
    obtain ⟨hin, hout⟩ := Mem.setMasked_piece (v := x % 256 ^ k) h.memory h.line
    rw [Nat.mod_mod] at hin
    simp only [List.foldl_cons, List.foldl_nil, h.prepare, h.lostLine, Bool.false_eq_true, if_false, Dev.lineWrite, h.unregistered, pow_zero, Nat.div_one]
    exact ⟨hin, hout⟩

theorem PlainPiece.read (part : Nat) : ∃ e, engReadPiece part tr k d = .ok (d.mem.nat tr.pa k, e) ∧ e.mem = d.mem := by
  obtain ⟨e, he, hm⟩ := h.agentRead part tr.leaf tr.pg
  refine ⟨e, ?_, hm⟩
  simp only [engReadPiece, h.here, h.rangePoisoned, h.rangeHeld, he, Bool.not_false, if_true, Bool.false_eq_true, if_false]

theorem PlainPiece.write (x part : Nat) : ∃ e, engWritePieces part x [(tr, 0, k)] d = .ok ((), e) ∧ e.mem.nat tr.pa k = x % 256 ^ k
    ∧ ∀ a, (a < tr.pa ∨ tr.pa + k ≤ a) → e.mem.get a = d.mem.get a := by
  obtain ⟨hin, hout⟩ := h.agentWrite (x / 256 ^ 0 % 256 ^ k) part tr.leaf tr.pg
  refine ⟨_, ?_, by simpa using hin, hout⟩
  rw [engWritePieces]
  refine Eng.bind_ok.mpr ⟨d, d, rfl, ?_⟩
  simp only [h.rangeHeld, h.rangeLost, Bool.false_eq_true, if_false]
  exact Eng.bind_ok.mpr ⟨(), _, rfl, rfl⟩

end

end Sys2Proof.Claims

namespace Sys2Proof.Claims
open Machine

/-! ### SIGNAL and WAIT (R71, R143) -/

theorem signal_gives {s : State} {p : Nat} (h : VfMay s p [(0, 32, 18), (1, 0, 32)]) :
    let rank := cmdField s 0 32 12
    ((s.dev.part p).cfg.hlen ≤ rank → Gives .signal s fun t => Reports s t 0x0002 0)
    ∧ (rank < (s.dev.part p).cfg.hlen → Gives .signal s fun t => Reports
        { s with dev := sendsTagged s.dev srcHost (.incr p rank (cmdField s 0 44 6) (s.args.cmd.extractLsb' 64 32)) } t 0 0) := by
  intro rank
  refine ⟨fun hr => gives_answer rfl (h.exec_eq.trans (if_pos hr)) h.report (by decide), fun hr => ?_⟩
  refine gives_to (congrArg State.to (h.exec_eq.trans (if_neg (Nat.not_le.mpr hr)))) ?_
  exact answer_status (u := { s with dev := sendsTagged s.dev srcHost (.incr p rank (cmdField s 0 44 6) (s.args.cmd.extractLsb' 64 32)) })
    (h.report_of rfl rfl rfl rfl rfl rfl) (by decide)

/-- Whether a counter has reached a target (R143). -/
theorem mbxMet_iff (counter target : HWord) : mbxMet counter target = true ↔ (counter - target).toNat < 2 ^ 31 := by
  rw [mbxMet, decide_eq_true_eq]

theorem bne_zero (n : Nat) : (n != 0) = decide (n ≠ 0) := by
  rw [Bool.eq_iff_iff]
  simp

theorem wait_run {s : State} {p : Nat} (h : VfMay s p [(0, 32, 18), (1, 0, 64)]) (hr : cmdField s 0 32 12 < (s.dev.part p).cfg.hlen) :
    let u := started s p (.wait (cmdField s 0 32 12) (cmdField s 0 44 6) (s.args.cmd.extractLsb' 64 32) (decide (cmdField s 1 32 32 ≠ 0)))
    s.wait = if mbxMet (s.dev.counterOf p (cmdField s 0 32 12) (cmdField s 0 44 6)) (s.args.cmd.extractLsb' 64 32) then u.endCmd s.host.nextCmd stSuccess 0
      else u := by
  intro u
  refine (h.exec_eq.trans (if_neg (Nat.not_le.mpr hr))).trans ?_
  refine (congrArg (fun b => s.startStep p (.wait (cmdField s 0 32 12) (cmdField s 0 44 6) (s.args.cmd.extractLsb' 64 32) b))
    (bne_zero (cmdField s 1 32 32))).trans ?_
  exact State.cmdStep_wait (s := u) (aget?_started ..) rfl

theorem wait_gives {s : State} {p : Nat} (h : VfMay s p [(0, 32, 18), (1, 0, 64)]) :
    let rank := cmdField s 0 32 12
    let idx := cmdField s 0 44 6
    let target : HWord := s.args.cmd.extractLsb' 64 32
    let met := (vget (s.dev.rankCore p rank).counters idx 0 - target).toNat < 2 ^ 31
    ((s.dev.part p).cfg.hlen ≤ rank → Gives .wait s fun t => Reports s t 0x0002 0)
    ∧ (rank < (s.dev.part p).cfg.hlen → met → Gives .wait s fun t => Reports (passed s) t 0 0)
    ∧ (rank < (s.dev.part p).cfg.hlen → ¬met → Gives .wait s (· = started s p (.wait rank idx target (decide (cmdField s 1 32 32 ≠ 0))))) := by
  intro rank idx target met
  refine ⟨fun hr => gives_answer rfl (h.exec_eq.trans (if_pos hr)) h.report (by decide), fun hr hm => ?_, fun hr hm => ?_⟩
  · refine gives_to (congrArg State.to ((wait_run h hr).trans (if_pos ((mbxMet_iff _ _).mpr hm)))) ?_
    exact endCmd_begun (u := started s p (.wait rank idx target (decide (cmdField s 1 32 32 ≠ 0)))) h rfl rfl rfl rfl (by decide) (by decide)
  · exact gives_to (congrArg State.to ((wait_run h hr).trans (if_neg (mt (mbxMet_iff _ _).mp hm)))) rfl

theorem waitTimeout_gives {s : State} {c : Cmd} {rank idx : Nat} {target : HWord} (h : InExecution s s.args.a c) (hk : c.kind = .wait rank idx target true) :
    Gives .waitTimeout s fun t => EndsCmd s t s.dev s.args.a c
      (if (vget (s.dev.rankCore c.part rank).counters idx 0 - target).toNat < 2 ^ 31 then 0 else 0x000A) 0 := by
  have hrun : exec .waitTimeout s =
      (s.endCmd s.args.a (if mbxMet (s.dev.counterOf c.part rank idx) target then stSuccess else stTimeout) 0).to := by
    simp only [exec, execWaitTimeout, h.held, hk]
  have hst : (if mbxMet (s.dev.counterOf c.part rank idx) target then stSuccess else stTimeout)
      = if (vget (s.dev.rankCore c.part rank).counters idx 0 - target).toNat < 2 ^ 31 then 0 else 0x000A :=
    if_congr (mbxMet_iff _ _) rfl rfl
  refine gives_to (hrun.trans (by rw [hst])) (h.ends (d := s.dev) rfl ?_ (by decide))
  split <;> decide

/-! ### COPYH and FILL: start (R70, R71) -/

theorem copyh_gives {s : State} {p : Nat} (h : VfMay s p [(0, 32, 1), (1, 0, 64), (2, 0, 48), (3, 0, 33)]) :
    let len := cmdField s 3 0 33
    (len = 0 ∨ 2 ^ 32 < len → Gives .copyh s fun t => Reports s t 0x0002 0)
    ∧ (1 ≤ len → len ≤ 2 ^ 32 → Gives .copyh s
        (· = started s p (.copyh (decide (cmdField s 0 32 1 = 1)) (cmdField s 1 0 64) (cmdField s 2 0 48) len 0 []))) := by
  intro len
  refine ⟨fun hl => gives_answer rfl (h.exec_eq.trans (if_pos hl)) h.report (by decide), fun h1 h2 => ?_⟩
  have hl : ¬(len = 0 ∨ 2 ^ 32 < len) := fun hbad => hbad.elim (Nat.ne_of_gt h1) (Nat.not_lt.mpr h2)
  exact gives_to (congrArg State.to (h.exec_eq.trans (if_neg hl))) rfl

theorem fill_gives {s : State} {p : Nat} (h : VfMay s p [(2, 0, 48), (3, 0, 33), (4, 0, 64)]) :
    let len := cmdField s 3 0 33
    let gva := cmdField s 2 0 48
    (len = 0 ∨ 2 ^ 32 < len ∨ len % 8 ≠ 0 ∨ gva % 8 ≠ 0 → Gives .fill s fun t => Reports s t 0x0002 0)
    ∧ (1 ≤ len → len ≤ 2 ^ 32 → len % 8 = 0 → gva % 8 = 0 → Gives .fill s
        (· = started s p (.fill gva len 0 (s.args.cmd.extractLsb' 256 64) []))) := by
  intro len gva
  refine ⟨fun hl => gives_answer rfl (h.exec_eq.trans (if_pos hl)) h.report (by decide), fun h1 h2 h8 hg => ?_⟩
  have hl : ¬(len = 0 ∨ 2 ^ 32 < len ∨ len % 8 ≠ 0 ∨ gva % 8 ≠ 0) := by
    rintro (h | h | h | h)
    · exact Nat.ne_of_gt h1 h
    · exact Nat.not_lt.mpr h2 h
    · exact h h8
    · exact h hg
  exact gives_to (congrArg State.to (h.exec_eq.trans (if_neg hl))) rfl

/-! ### COPYH and FILL: a piece (R71) -/

/-- A piece whose page is not resident ends its command with DEVICE_ADDRESS. -/
theorem cmdPiece_refused {part gva n x g : Nat} {write w : Bool} {bs : List BackChoice} {d : Dev}
    (h : cmdTrans part write gva bs d = .error (.wait g w)) : cmdPiece part write gva n x bs d = .error (.wait g w) := by
  change Except.bind (cmdTrans part write gva bs d) _ = _
  rw [h]
  rfl

section
variable {part gva n : Nat} {bs bs' : List BackChoice} {s d : Dev} {tr : Trans}

theorem cmdPiece_reads (h : cmdTrans part false gva bs s = .ok ((tr, bs'), d)) (hp : PlainPiece d tr n) (x : Nat) :
    ∃ e, cmdPiece part false gva n x bs s = .ok ((d.mem.nat tr.pa n, []), e) ∧ e.mem = d.mem := by
  obtain ⟨e, he, hm⟩ := hp.read part
  exact ⟨e, Eng.bind_ok.mpr ⟨(tr, bs'), d, h, Eng.bind_ok.mpr ⟨_, e, he, rfl⟩⟩, hm⟩

theorem cmdPiece_writes (h : cmdTrans part true gva bs s = .ok ((tr, bs'), d)) (hp : PlainPiece d tr n) (x : Nat) :
    ∃ e, cmdPiece part true gva n x bs s = .ok ((0, keptBacks (gva + n) bs'), e) ∧ e.mem.nat tr.pa n = x % 256 ^ n
      ∧ ∀ a, (a < tr.pa ∨ tr.pa + n ≤ a) → e.mem.get a = d.mem.get a := by
  obtain ⟨e, he, hin, hout⟩ := hp.write x part
  exact ⟨e, Eng.bind_ok.mpr ⟨(tr, bs'), d, h, Eng.bind_ok.mpr ⟨(), e, he, rfl⟩⟩, hin, hout⟩

end

/-- A command goes on with `kind`, or has ended, and the rest of the machine is as `u` says. -/
structure Onward (u t : State) (n : Nat) (c : Cmd) (done len : Nat) (kind : Nat → CmdKind) : Prop where
  command : if done < len then aget? t.host.cmds n = some { c with kind := kind done } else aget? t.host.cmds n = none
  boot : t.boot = u.boot
  dev : t.dev = u.dev
  memory : t.host.hostMem = u.host.hostMem

/-- A piece that has been moved. -/
theorem pieceDone_onward {s u : State} {n : Nat} {c : Cmd} (hc : aget? u.host.cmds n = some c) {done len k : Nat} {kind : Nat → List BackChoice → CmdKind}
    {bs : List BackChoice} (h : done + k < len ∨ c.nocqe = true) :
    Onward u (s.pieceDone n c done len k kind (.ok (u, bs))) n c (done + k) len (kind · bs) := by
  have hrun : s.pieceDone n c done len k kind (.ok (u, bs))
      = if len ≤ done + k then u.endCmd n stSuccess 0 else u.setKind n (kind (done + k) bs) := rfl
  rw [hrun]
  by_cases hl : done + k < len
  · rw [if_neg (Nat.not_le.mpr hl), State.setKind_held hc]
    refine ⟨?_, rfl, rfl, rfl⟩
    rw [if_pos hl]
    exact aget?_aset_same ..
  · rw [if_pos (Nat.not_lt.mp hl), endCmd_eq hc, h.resolve_left hl]
    refine ⟨?_, rfl, rfl, rfl⟩
    rw [if_neg hl]
    exact aget?_adel_same ..

section
variable {s : State} {part iova gva len done : Nat} {bs bs' : List BackChoice} {d e : Dev} {tr : Trans}
  (hend : gva + done + pieceLen gva len done ≤ 2 ^ 48)
include hend

theorem copyhPiece_read {x : Nat × List BackChoice} (hf : s.iommuFault (iova + done) (pieceLen gva len done) = false)
    (h : cmdPiece part false (gva + done) (pieceLen gva len done) 0 bs s.dev = .ok (x, e)) :
    s.copyhPiece part true iova gva len done bs = .ok ({ s with dev := e }.hostWrite (iova + done) (pieceLen gva len done) x.1, x.2) := by
  refine (if_neg (Nat.not_lt.mpr hend)).trans ((if_pos rfl).trans ?_)
  have hrun : cmdPiece part false (gva + done) (cmdLen gva len done) 0 bs s.dev = .ok (x, e) := h
  rw [hrun]
  exact if_neg (by rw [show s.iommuFault (iova + done) (cmdLen gva len done) = false from hf]; decide)

theorem copyhPiece_write {y : Nat × List BackChoice} (hf : s.iommuFault (iova + done) (pieceLen gva len done) = false)
    (h : cmdPiece part true (gva + done) (pieceLen gva len done) (s.host.hostMem.nat (iova + done) (pieceLen gva len done)) bs s.dev = .ok (y, e)) :
    s.copyhPiece part false iova gva len done bs = .ok ({ s with dev := e }, y.2) := by
  refine (if_neg (Nat.not_lt.mpr hend)).trans ((if_neg (by decide)).trans ?_)
  rw [show s.hostRead (iova + done) (cmdLen gva len done) = some (s.host.hostMem.nat (iova + done) (pieceLen gva len done)) from State.hostRead_reached hf]
  dsimp only
  have hrun : cmdPiece part true (gva + done) (cmdLen gva len done) (s.host.hostMem.nat (iova + done) (pieceLen gva len done)) bs s.dev = .ok (y, e) := h
  rw [hrun]

theorem fillPiece_write {pattern : Word} {y : Nat × List BackChoice}
    (h : cmdPiece part true (gva + done) (pieceLen gva len done) (fillValue pattern (pieceLen gva len done / 8)) bs s.dev = .ok (y, e)) :
    s.fillPiece part gva len done pattern bs = .ok ({ s with dev := e }, y.2) := by
  refine (if_neg (Nat.not_lt.mpr hend)).trans ?_
  have hrun : cmdPiece part true (gva + done) (cmdLen gva len done) (fillValue pattern (cmdLen gva len done / 8)) bs s.dev = .ok (y, e) := h
  rw [hrun]

theorem copyhPiece_refused {dir w : Bool} {g : Nat} (hf : s.iommuFault (iova + done) (pieceLen gva len done) = false)
    (h : cmdTrans part (!dir) (gva + done) bs s.dev = .error (.wait g w)) : s.copyhPiece part dir iova gva len done bs = .error .device := by
  refine (if_neg (Nat.not_lt.mpr hend)).trans ?_
  cases dir with
  | true =>
    refine (if_pos rfl).trans ?_
    rw [cmdPiece_refused (write := false) h]
    rfl
  | false =>
    refine (if_neg (by decide)).trans ?_
    rw [show s.hostRead (iova + done) (cmdLen gva len done) = some (s.host.hostMem.nat (iova + done) (pieceLen gva len done)) from State.hostRead_reached hf]
    dsimp only
    rw [cmdPiece_refused (write := true) h]
    rfl

end

/-- The words of a FILL. -/
theorem fillValue_word (pattern : Word) {j m : Nat} (h : j < m) : fillValue pattern m / 256 ^ (8 * j) % 256 ^ 8 = pattern.toNat := by
  have hlt := pattern.isLt
  induction m generalizing j with
  | zero => omega
  | succ m ih =>
    rw [fillValue]
    cases j with
    | zero => simp only [Nat.mul_zero, pow_zero, Nat.div_one]; omega
    | succ j =>
      rw [show 8 * (j + 1) = 8 + 8 * j by omega, pow_add, ← Nat.div_div_eq_div_mul, show (256 : Nat) ^ 8 = 2 ^ 64 by norm_num,
        Nat.add_mul_div_left _ _ (by decide), Nat.div_eq_of_lt hlt, Nat.zero_add]
      exact ih (by omega)

section
variable {s : State} {n : Nat} {c : Cmd} (hx : InExecution s n c)
include hx

theorem cmdStep_copyh {dir : Bool} {iova gva len done : Nat} {bs : List BackChoice} (hk : c.kind = .copyh dir iova gva len done bs) :
    s.cmdStep n = s.pieceDone n c done len (pieceLen gva len done) (.copyh dir iova gva len) (s.copyhPiece c.part dir iova gva len done bs) := by
  simp only [State.cmdStep, hx.held, hk]
  rfl

theorem cmdStep_fill {gva len done : Nat} {pattern : Word} {bs : List BackChoice} (hk : c.kind = .fill gva len done pattern bs) :
    s.cmdStep n = s.pieceDone n c done len (pieceLen gva len done) (fun k => .fill gva len k pattern) (s.fillPiece c.part gva len done pattern bs) := by
  simp only [State.cmdStep, hx.held, hk]
  rfl

/-- A COPYH whose next page is not resident. -/
theorem copyh_refused {dir w : Bool} {iova gva len done g : Nat} {bs : List BackChoice} (hk : c.kind = .copyh dir iova gva len done bs)
    (hend : gva + done + pieceLen gva len done ≤ 2 ^ 48) (hf : s.iommuFault (iova + done) (pieceLen gva len done) = false)
    (h : cmdTrans c.part (!dir) (gva + done) bs s.dev = .error (.wait g w)) (hd : done < 2 ^ 64) :
    ∃ t, s.runTurn (.cmd n) = .next t ∧ EndsCmd s t s.dev n c 0x0005 done := by
  refine ⟨_, runTurn_cmd s n, ?_⟩
  rw [cmdStep_copyh hx hk, copyhPiece_refused hend hf h]
  exact hx.ends (d := s.dev) rfl (by decide) hd

/-- A piece of a COPYH to the host. -/
theorem copyh_reads {iova gva len done : Nat} {bs bs' : List BackChoice} {tr : Trans} {d : Dev} (hk : c.kind = .copyh true iova gva len done bs)
    (hend : gva + done + pieceLen gva len done ≤ 2 ^ 48) (hf : s.iommuFault (iova + done) (pieceLen gva len done) = false)
    (h : cmdTrans c.part false (gva + done) bs s.dev = .ok ((tr, bs'), d))
    (hp : PlainPiece d tr (pieceLen gva len done)) (hn : done + pieceLen gva len done < len ∨ c.nocqe = true) :
    ∃ u t, s.runTurn (.cmd n) = .next t ∧ Onward u t n c (done + pieceLen gva len done) len (.copyh true iova gva len · []) ∧ u.boot = s.boot
      ∧ u.dev.mem = d.mem ∧ u.host.hostMem = s.host.hostMem.setNat (iova + done) (pieceLen gva len done) (d.mem.nat tr.pa (pieceLen gva len done)) := by
  obtain ⟨e, he, hm⟩ := cmdPiece_reads h hp 0
  have hwrite := State.hostWrite_reached (s := { s with dev := e }) (x := d.mem.nat tr.pa (pieceLen gva len done)) hf
  refine ⟨_, _, (runTurn_cmd s n).trans (by rw [cmdStep_copyh hx hk, copyhPiece_read hend hf he]), pieceDone_onward ?_ hn, ?_, ?_, ?_⟩
  · rw [hwrite]
    exact hx.held
  · rw [hwrite]
    rfl
  · rw [hwrite]
    exact hm
  · rw [hwrite]
    rfl

/-- A piece of a COPYH from the host. -/
theorem copyh_writes {iova gva len done : Nat} {bs bs' : List BackChoice} {tr : Trans} {d : Dev} (hk : c.kind = .copyh false iova gva len done bs)
    (hend : gva + done + pieceLen gva len done ≤ 2 ^ 48) (hf : s.iommuFault (iova + done) (pieceLen gva len done) = false)
    (h : cmdTrans c.part true (gva + done) bs s.dev = .ok ((tr, bs'), d))
    (hp : PlainPiece d tr (pieceLen gva len done)) (hn : done + pieceLen gva len done < len ∨ c.nocqe = true) :
    ∃ u t, s.runTurn (.cmd n) = .next t
      ∧ Onward u t n c (done + pieceLen gva len done) len (.copyh false iova gva len · (keptBacks (gva + done + pieceLen gva len done) bs'))
      ∧ u.boot = s.boot ∧ u.host = s.host
      ∧ u.dev.mem.nat tr.pa (pieceLen gva len done) = s.host.hostMem.nat (iova + done) (pieceLen gva len done)
      ∧ ∀ a, (a < tr.pa ∨ tr.pa + pieceLen gva len done ≤ a) → u.dev.mem.get a = d.mem.get a := by
  obtain ⟨e, he, hin, hout⟩ := cmdPiece_writes h hp (s.host.hostMem.nat (iova + done) (pieceLen gva len done))
  refine ⟨{ s with dev := e }, _, (runTurn_cmd s n).trans (by rw [cmdStep_copyh hx hk, copyhPiece_write hend hf he]),
    pieceDone_onward (u := { s with dev := e }) hx.held hn, rfl, rfl, ?_, hout⟩
  rw [hin, Nat.mod_eq_of_lt (Mem.nat_lt ..)]

/-- A piece of a FILL. -/
theorem fill_writes {gva len done : Nat} {pattern : Word} {bs bs' : List BackChoice} {tr : Trans} {d : Dev}
    (hk : c.kind = .fill gva len done pattern bs) (h8 : pieceLen gva len done % 8 = 0) (hend : gva + done + pieceLen gva len done ≤ 2 ^ 48)
    (h : cmdTrans c.part true (gva + done) bs s.dev = .ok ((tr, bs'), d))
    (hp : PlainPiece d tr (pieceLen gva len done)) (hn : done + pieceLen gva len done < len ∨ c.nocqe = true) :
    ∃ u t, s.runTurn (.cmd n) = .next t
      ∧ Onward u t n c (done + pieceLen gva len done) len (.fill gva len · pattern (keptBacks (gva + done + pieceLen gva len done) bs'))
      ∧ u.boot = s.boot ∧ (∀ j, 8 * j < pieceLen gva len done → u.dev.mem.nat (tr.pa + 8 * j) 8 = uv pattern)
      ∧ ∀ a, (a < tr.pa ∨ tr.pa + pieceLen gva len done ≤ a) → u.dev.mem.get a = d.mem.get a := by
  obtain ⟨e, he, hin, hout⟩ := cmdPiece_writes h hp (fillValue pattern (pieceLen gva len done / 8))
  refine ⟨{ s with dev := e }, _, (runTurn_cmd s n).trans (by rw [cmdStep_fill hx hk, fillPiece_write hend he]),
    pieceDone_onward (u := { s with dev := e }) hx.held hn, rfl, fun j hj => ?_, hout⟩
  generalize pieceLen gva len done = k at h8 hin hj
  have hpart := Mem.nat_part (m := e.mem) (a := tr.pa) (n := k) (j := 8 * j) (k := 8) (by omega)
  rw [← hpart, hin, show k = 8 * j + (8 + (k - 8 * j - 8)) by omega, pow_add, Nat.mod_mul_right_div_self, pow_add, Nat.mod_mul_right_mod]
  exact fillValue_word pattern (by omega)

end

/-- A piece of whole words is one of whole words. -/
theorem pieceLen_words {gva len done : Nat} (hg : gva % 8 = 0) (hl : len % 8 = 0) (hd : done % 8 = 0) : pieceLen gva len done % 8 = 0 := by
  rw [pieceLen]
  omega

end Sys2Proof.Claims

namespace Sys2Proof
open Machine Claims

/-- Settles O32, a command at a time: its start by the checks of its row, a piece of a copy by the line that it lies in. -/
theorem hostSignalsAndCopies : Obligations.HostSignalsAndCopies := by
  unfold Obligations.HostSignalsAndCopies
  refine ⟨⟨fun s p h => signal_gives h, fun s p h => wait_gives h, fun s c rank idx target h hk => waitTimeout_gives h hk⟩,
    fun s p h => copyh_gives h, fun s p h => fill_gives h, fun s n c hx =>
      ⟨fun dir iova gva len done bs hk hend hf hw => ⟨fun g w h hd => ?_, fun tr bs' d h hp hn => ?_⟩,
      fun gva len done pattern bs hk hg hl hd tr bs' d hend h hp hn => ?_⟩⟩
  · exact copyh_refused hx hk hend hf h hd
  · cases dir with
    | true =>
      obtain ⟨u, t, ht, hon, hboot, hmem, hhost⟩ := copyh_reads hx hk hend hf h hp hn
      refine ⟨t, ht, hon.command, hon.boot.trans hboot, fun _ => ⟨(congrArg Dev.mem hon.dev).trans hmem, ?_, fun a ha => ?_⟩, by simp⟩
      · rw [hon.memory, hhost, Mem.nat_setNat _ _ _ hw, Nat.mod_eq_of_lt (Mem.nat_lt ..)]
      · rw [hon.memory, hhost]
        exact Mem.get_setBytes_outside _ _ _ hw (by simpa using ha)
    | false =>
      obtain ⟨u, t, ht, hon, hboot, hhost, hin, hout⟩ := copyh_writes hx hk hend hf h hp hn
      refine ⟨t, ht, hon.command, hon.boot.trans hboot, (by simp), fun _ => ⟨?_, ?_, fun a ha => ?_⟩⟩
      · rw [hon.memory, hhost]
      · rw [hon.dev]
        exact hin
      · rw [hon.dev]
        exact hout a ha
  · obtain ⟨u, t, ht, hon, hboot, hin, hout⟩ := fill_writes hx hk (pieceLen_words hg hl hd) hend h hp hn
    refine ⟨t, ht, hon.command, hon.boot.trans hboot, fun j hj => ?_, fun a ha => ?_⟩
    · rw [hon.dev]
      exact hin j hj
    · rw [hon.dev]
      exact hout a ha

end Sys2Proof

namespace Sys2Proof.Machine

/-! ### Lists: the first that answers, and the least -/

/-- Where a single element answers, it is found. -/
theorem findSome?_single {α β : Type} {f : α → Option β} {l : List α} {a : α} {y : β} (ha : a ∈ l) (hf : f a = some y)
    (hne : ∀ b, b ≠ a → f b = none) : l.findSome? f = some y := by
  induction l with
  | nil => cases ha
  | cons b l ih =>
    by_cases hb : b = a
    · rw [List.findSome?_cons, hb, hf]
    · rw [List.findSome?_cons, hne b hb]
      exact ih ((List.mem_cons.mp ha).resolve_left (Ne.symm hb))

/-- The lowest number below `n` that passes `p` and answers is found. -/
theorem findSome?_lowest {β : Type} {f : Nat → Option β} {p : Nat → Bool} {n r : Nat} {y : β} (hr : r < n) (hp : p r = true) (hf : f r = some y)
    (hlow : ∀ j < r, p j = true → f j = none) : ((List.range n).filter p).findSome? f = some y := by
  induction n with
  | zero => omega
  | succ n ih =>
    rw [List.range_succ, List.filter_append, List.findSome?_append]
    by_cases hn : r = n
    · have hnone : ((List.range n).filter p).findSome? f = none := by
        rw [List.findSome?_eq_none_iff]
        intro j hj
        rw [List.mem_filter, List.mem_range] at hj
        exact hlow j (hn ▸ hj.1) hj.2
      subst hn
      simp [hnone, hp, hf]
    · rw [ih (by omega)]
      rfl

/-- The first of the elements with the least load. -/
def leastBy (load : Nat → Nat) (acc : Option Nat) (b : Nat) : Option Nat := match acc with
  | none => some b
  | some a => if load b < load a then some b else some a

theorem foldl_leastBy_some (load : Nat → Nat) (l : List Nat) (a : Nat) :
    ∃ b ∈ a :: l, l.foldl (leastBy load) (some a) = some b ∧ ∀ c ∈ a :: l, load b ≤ load c := by
  induction l generalizing a with
  | nil => exact ⟨a, by simp, rfl, by simp⟩
  | cons x l ih =>
    rw [List.foldl_cons, leastBy]
    split
    next hlt =>
      obtain ⟨b, hb, hfold, hmin⟩ := ih x
      refine ⟨b, List.mem_cons_of_mem _ hb, hfold, fun c hc => ?_⟩
      rcases List.mem_cons.mp hc with rfl | hc
      · exact (hmin x (by simp)).trans hlt.le
      · exact hmin c hc
    next hge =>
      obtain ⟨b, hb, hfold, hmin⟩ := ih a
      refine ⟨b, ?_, hfold, fun c hc => ?_⟩
      · rcases List.mem_cons.mp hb with rfl | hb <;> simp_all
      · simp only [List.mem_cons, forall_eq_or_imp] at hc hmin
        rcases hc with rfl | rfl | hc
        · exact hmin.1
        · exact hmin.1.trans (Nat.le_of_not_lt hge)
        · exact hmin.2 c hc

theorem foldl_leastBy (load : Nat → Nat) {l : List Nat} (h : l ≠ []) :
    ∃ b ∈ l, l.foldl (leastBy load) none = some b ∧ ∀ c ∈ l, load b ≤ load c := by
  cases l with
  | nil => exact absurd rfl h
  | cons a l => exact foldl_leastBy_some load l a

/-! ### The slots of a task as it starts (R93, R96) -/

/-- The slots with which a task fits are different slots of the core. -/
theorem Dev.fit_slots {d : Dev} {part r b : Nat} {x : Desc} {slots : List Nat} (h : d.fit part r x = some (slots, b)) :
    slots.Nodup ∧ ∀ k ∈ slots, k < 16 := by
  have hfree : slots = ((d.part part).freeSlots (d.core r) x.queue).take x.needSlots := by
    unfold Dev.fit at h
    dsimp only at h
    split at h
    · cases h
    split at h
    · cases h
    split at h
    · split at h
      · simp only [Option.some.injEq, Prod.mk.injEq] at h
        exact h.1.symm
      · cases h
    · cases h
  have hsub : slots.Sublist (List.range 16) := hfree ▸ (List.take_sublist _ _).trans List.filter_sublist
  exact ⟨hsub.nodup List.nodup_range, fun k hk => List.mem_range.mp (hsub.subset hk)⟩

theorem Dev.dispatch_fit {d : Dev} {part r : Nat} {x : Desc} {mine : Bool} {y : List Nat × Nat} (h : d.dispatch part r x mine = some y) :
    d.fit part ((d.part part).devRank r) x = some y := by
  unfold Dev.dispatch at h
  dsimp only at h
  split at h
  · cases h
  · exact h

/-- Slots set one after another: of the core only the slots differ. -/
theorem Core.foldl_setSlot_only {α : Type} (key : α → Nat) (val : Core → α → Slot) (l : List α) (c : Core) :
    ∃ v, l.foldl (fun c a => c.setSlot (key a) (val c a)) c = { c with slots := v } := by
  induction l generalizing c with
  | nil => exact ⟨c.slots, rfl⟩
  | cons a l ih =>
    obtain ⟨v, hv⟩ := ih (c.setSlot (key a) (val c a))
    exact ⟨v, hv⟩

/-- A slot that is not among those set keeps what it holds. -/
theorem Core.foldl_setSlot_ne {α : Type} (key : α → Nat) (val : Core → α → Slot) {l : List α} (c : Core) {k : Nat} (h : k ∉ l.map key) :
    (l.foldl (fun c a => c.setSlot (key a) (val c a)) c).slot k = c.slot k := by
  induction l generalizing c with
  | nil => rfl
  | cons a l ih =>
    simp only [List.map_cons, List.mem_cons, not_or] at h
    rw [List.foldl_cons, ih _ h.2, Core.slot_setSlot_ne _ _ _ _ h.1]

/-- Different slots set to what their places in the list say. -/
theorem Core.foldl_setSlot_zipIdx (f : Nat → Slot) {l : List Nat} (hnd : l.Nodup) (hlt : ∀ k ∈ l, k < 16) (n : Nat) (c : Core) {i k : Nat}
    (h : l[i]? = some k) : ((l.zipIdx n).foldl (fun c p => c.setSlot p.1 (f p.2)) c).slot k = f (n + i) := by
  induction l generalizing n c i with
  | nil => simp at h
  | cons a l ih =>
    rw [List.nodup_cons] at hnd
    rw [List.zipIdx_cons, List.foldl_cons]
    cases i with
    | zero =>
      obtain rfl : a = k := by simpa using h
      rw [Core.foldl_setSlot_ne Prod.fst (fun _ p => f p.2) _ (by simpa using hnd.1), Core.slot_setSlot _ _ _ (hlt a (by simp))]
      rfl
    | succ i =>
      rw [ih hnd.2 (fun k hk => hlt k (List.mem_cons_of_mem _ hk)) (n + 1) _ (by simpa using h)]
      congr 1
      omega

section
variable (c : Core) (part : Nat) (x : Desc) (segs : Vector SegImage 8) (slots guests : List Nat)

theorem Core.startThreads_only : ∃ v, c.startThreads part x segs slots guests = { c with slots := v } := by
  obtain ⟨v, hv⟩ := Core.foldl_setSlot_only Prod.fst (fun _ p => Slot.startThread part x segs p.2) slots.zipIdx c
  obtain ⟨w, hw⟩ := Core.foldl_setSlot_only id (fun c k => { c.slot k with isGuestSlot := true, part := part }) guests
    (slots.zipIdx.foldl (fun c p => c.setSlot p.1 (Slot.startThread part x segs p.2)) c)
  exact ⟨w, hw.trans (by rw [hv])⟩

@[simp] theorem Core.tasks_startThreads : (c.startThreads part x segs slots guests).tasks = c.tasks := by
  obtain ⟨v, hv⟩ := Core.startThreads_only c part x segs slots guests
  rw [hv]
@[simp] theorem Core.lmem_startThreads : (c.startThreads part x segs slots guests).lmem = c.lmem := by
  obtain ⟨v, hv⟩ := Core.startThreads_only c part x segs slots guests
  rw [hv]

variable {slots guests}

theorem Core.slot_startThreads_other {k : Nat} (hs : k ∉ slots) (hg : k ∉ guests) : (c.startThreads part x segs slots guests).slot k = c.slot k := by
  exact (Core.foldl_setSlot_ne id (fun c k => { c.slot k with isGuestSlot := true, part := part }) _ (by simpa using hg)).trans
    (Core.foldl_setSlot_ne Prod.fst (fun _ p => Slot.startThread part x segs p.2) c (by simpa using hs))

/-- Thread `i` begins in slot `i` of the list. -/
theorem Core.slot_startThreads {i k : Nat} (hnd : slots.Nodup) (hlt : ∀ k ∈ slots, k < 16) (hg : k ∉ guests) (hk : slots[i]? = some k) :
    (c.startThreads part x segs slots guests).slot k = Slot.startThread part x segs i := by
  refine (Core.foldl_setSlot_ne id (fun c k => { c.slot k with isGuestSlot := true, part := part }) _ (by simpa using hg)).trans ?_
  rw [Core.foldl_setSlot_zipIdx (Slot.startThread part x segs) hnd hlt 0 c hk, Nat.zero_add]

end

/-- The registers of a thread as it begins (R93): x10 is the argument and x11 its index. -/
theorem Slot.xr_startThread (part : Nat) (x : Desc) (segs : Vector SegImage 8) (i : Nat) (n : RegNo) :
    (Slot.startThread part x segs i).xr n = if n = 10 then x.args else if n = 11 then BitVec.ofNat 64 i else 0 := by
  have hx : ∀ k < 32, vget (((Vector.replicate 32 (0 : Word)).setIfInBounds 10 x.args).setIfInBounds 11 (BitVec.ofNat 64 i)) k 0
      = if k = 10 then x.args else if k = 11 then BitVec.ofNat 64 i else 0 := by
    intro k hk
    simp only [vget, List.getD_eq_getElem?_getD, Vector.getElem?_toList, Vector.getElem?_setIfInBounds, Vector.getElem?_replicate, hk, if_true]
    by_cases h10 : k = 10
    · subst h10; rfl
    by_cases h11 : k = 11
    · subst h11; rfl
    simp [Ne.symm h10, Ne.symm h11, h10, h11]
  unfold Slot.xr Slot.startThread
  by_cases h0 : n = 0
  · subst h0; rfl
  · rw [if_neg h0, hx _ n.isLt]
    simp only [← BitVec.toNat_inj]
    rfl

/-! ### The start of a task (R93) -/

/-- An address that no cell of memory names reads as unlisted. -/
theorem Mem.get_of_not_mem {m : Mem} {a : Nat} (h : ∀ c ∈ m, c.1 ≠ a) : m.get a = unlisted := by
  induction m with
  | nil => rfl
  | cons c m ih =>
    simp only [List.mem_cons, forall_eq_or_imp] at h
    rw [Mem.get, if_neg h.1, ih h.2, ite_self]

/-- A task whose group has no `.local` image waits for no line. -/
theorem Dev.imageHeld_none {d : Dev} {part r : Nat} {g : Group} (h : g.localImg = none) : d.imageHeld part r g = false := by
  rw [Dev.imageHeld, h]
  rfl

/-- The task that starts on a core. -/
def Core.newTask (c : Core) (part gid index : Nat) (x : Desc) (slots : List Nat) (base : Nat) : Task :=
  { id := c.nextTask, part := part, group := gid, index := index, desc := x, base := base, blocks := x.needBlocks, slots := slots.take x.threads
    freed := [], guestSlots := slots.drop x.threads, gates := [], startedAt := c.cycle.toNat, ended := false, bufs := [], heldBufs := [] }

/-- A core on which a task without a `.local` image has started (R93). -/
def Core.withTask (c : Core) (part gid index : Nat) (g : Group) (slots : List Nat) (base : Nat) : Core :=
  let lo := base * blockBytes
  let hi := (base + g.desc.needBlocks) * blockBytes
  { c with
    lmem := c.lmem.filter fun p => !(decide (lo ≤ p.1) && decide (p.1 < hi)), badLmem := c.cleanLmem lo (hi - lo)
    tasks := c.tasks ++ [c.newTask part gid index g.desc slots base], nextTask := c.nextTask + 1, l1d := []
  }.startThreads part g.desc g.segs (slots.take g.desc.threads) (slots.drop g.desc.threads)

theorem Dev.startTask_noImage {d : Dev} {part r gid index base : Nat} {g : Group} {slots : List Nat} (hg : aget? (d.part part).groups gid = some g)
    (himg : g.localImg = none) : d.startTask part r gid index slots base
      = (d.setCore r ((d.core r).withTask part gid index g slots base)).modGroup part gid
        fun g => { g with lastRank := some (r - (d.part part).cfg.hbase) } := by
  unfold Dev.startTask
  rw [hg]
  have hread : d.readImage (r / 4) part g.localImg = ([], d) := by rw [himg]; rfl
  dsimp only
  rw [hread]
  rfl

/-- A change of one group. -/
theorem Dev.part_modGroup {d : Dev} {part gid : Nat} {g : Group} (f : Group → Group) (h : aget? (d.part part).groups gid = some g) :
    (d.modGroup part gid f).part part = { d.part part with groups := aset (d.part part).groups gid (f g) } := by
  rw [Dev.modGroup, Dev.part_modPart, Part.modGroup, h]

end Sys2Proof.Machine

namespace Sys2Proof.Claims
open Machine

/-- What a start leaves lies in the cores and in memory. -/
theorem TaskStarts.congr {s t u : Dev} {part r index b : Nat} {g : Group} {slots : List Nat} (h : TaskStarts s t part r g index slots b)
    (hc : u.cores = t.cores) (hm : u.mem = t.mem) : TaskStarts s u part r g index slots b := by
  have hcore : u.core = t.core := funext fun k => by rw [Dev.core, Dev.core, hc]
  have hslot : u.slot = t.slot := funext fun k => by funext j; rw [Dev.slot, Dev.slot, hcore]
  obtain ⟨h1, h2, h3, h4, h5, h6⟩ := h
  exact ⟨by rwa [hcore], by rwa [hslot], by rwa [hslot], by rwa [hcore], by rwa [hcore], hm.trans h6⟩

/-- A task of a group without a `.local` image starts as R93 says. -/
theorem taskStarts_startTask {d : Dev} {part r index b : Nat} {g : Group} {slots : List Nat} (hg : aget? (d.part part).groups g.id = some g)
    (himg : g.localImg = none) (hnd : slots.Nodup) (hlt : ∀ k ∈ slots, k < 16) :
    TaskStarts d (d.startTask part r g.id index slots b) part r g index slots b := by
  rw [Dev.startTask_noImage hg himg]
  suffices h : TaskStarts d (d.setCore r ((d.core r).withTask part g.id index g slots b)) part r g index slots b from h.congr rfl rfl
  constructor
  case task => exact ⟨(d.core r).newTask part g.id index g.desc slots b, by simp [Core.withTask], rfl, rfl, rfl, rfl, rfl, rfl, rfl, rfl⟩
  case threads =>
    intro i k hi hk
    have htake : (slots.take g.desc.threads)[i]? = some k := by rw [List.getElem?_take_of_lt hi, hk]
    have hdrop : k ∉ slots.drop g.desc.threads :=
      (List.disjoint_take_drop hnd le_rfl) (List.mem_of_getElem? htake)
    have hslot : (d.setCore r ((d.core r).withTask part g.id index g slots b)).slot r k = Slot.startThread part g.desc g.segs i := by
      rw [Dev.slot, Dev.core_setCore]
      exact Core.slot_startThreads _ _ _ _ (hnd.sublist (List.take_sublist _ _)) (fun k hk => hlt k (List.mem_of_mem_take hk)) hdrop htake
    rw [hslot]
    exact ⟨rfl, rfl, rfl, rfl, rfl, rfl, rfl, Slot.xr_startThread part g.desc g.segs i⟩
  case others =>
    intro k hk
    rw [Dev.slot, Dev.core_setCore]
    exact Core.slot_startThreads_other _ _ _ _ (fun h => hk (List.mem_of_mem_take h)) (fun h => hk (List.mem_of_mem_drop h))
  case cores => exact fun c hc => Dev.core_setCore_ne _ _ _ _ hc
  case window =>
    intro _ a hlo hhi
    rw [Dev.core_setCore, Core.withTask, Core.lmem_startThreads]
    refine Mem.get_of_not_mem fun c hc hca => ?_
    have := (List.mem_filter.mp hc).2
    simp only [hca, blockBytes, Bool.not_eq_true', Bool.and_eq_false_iff, decide_eq_false_iff_not] at this
    omega
  case memory => rfl

end Sys2Proof.Claims

namespace Sys2Proof.Machine

/-! ### The dispatcher (R96, R97, R107) -/

/-- PLACE compact (R97): the lowest rank outside the gang interval that has room. -/
def Dev.compactRank (d : Dev) (part : Nat) (x : Desc) : Option (Nat × List Nat × Nat) :=
  ((List.range (d.part part).cfg.hlen).filter fun r => !(d.part part).inGang r).findSome? fun r => (d.dispatch part r x false).map fun f => (r, f.1, f.2)

theorem Dev.plan_compact {d : Dev} {part : Nat} {g : Group} (h : g.desc.place = 0) : d.plan part g = (d.compactRank part g.desc).map ([·]) := by
  simp only [Dev.plan, h]
  rfl

theorem Dev.compactRank_none {d : Dev} {part : Nat} {x : Desc}
    (h : ∀ r < (d.part part).cfg.hlen, (d.part part).inGang r = false → d.dispatch part r x false = none) : d.compactRank part x = none := by
  rw [Dev.compactRank, List.findSome?_eq_none_iff]
  intro r hr
  rw [List.mem_filter, List.mem_range, Bool.not_eq_true'] at hr
  rw [h r hr.1 hr.2]
  rfl

theorem Dev.compactRank_lowest {d : Dev} {part r b : Nat} {x : Desc} {slots : List Nat} (hr : r < (d.part part).cfg.hlen)
    (hg : (d.part part).inGang r = false) (hd : d.dispatch part r x false = some (slots, b))
    (hlow : ∀ j < r, (d.part part).inGang j = false → d.dispatch part j x false = none) : d.compactRank part x = some (r, slots, b) := by
  refine findSome?_lowest hr (by simp [hg]) (by simp [hd]) fun j hj hp => ?_
  rw [hlow j hj (by simpa using hp)]
  rfl

/-- The next stream to serve, from the one after the stream served last, whose head group can start a task: with its group and its plan. -/
def Dev.nextPlan (d : Dev) (part : Nat) : Option (Nat × Group × List (Nat × List Nat × Nat)) :=
  ((List.range 8).map fun i => ((d.part part).stream + 1 + i) % 8).findSome? fun q => match (d.part part).headGroup q with
    | some g => (d.plan part g).map fun f => (q, g, f)
    | none => none

/-- With one group waiting, it is its turn. -/
theorem Dev.nextPlan_single {d : Dev} {part q gid : Nat} {g : Group} (hq : q < 8) (hqs : (d.part part).queues = [(q, [gid])])
    (hg : aget? (d.part part).groups gid = some g) : d.nextPlan part = (d.plan part g).map fun f => (q, g, f) := by
  have hhead : (d.part part).headGroup q = some g := by simp [Part.headGroup, hqs, aget?, hg]
  have hothers : ∀ o, o ≠ q → (d.part part).headGroup o = none := fun o ho => by simp [Part.headGroup, hqs, aget?, Ne.symm ho]
  cases hp : d.plan part g with
  | none =>
    rw [Dev.nextPlan, Option.map_none, List.findSome?_eq_none_iff]
    intro o _
    by_cases ho : o = q
    · simp [ho, hhead, hp]
    · simp [hothers o ho]
  | some f =>
    refine findSome?_single (a := q) ?_ (by simp [hhead, hp]) fun o ho => by simp [hothers o ho]
    exact List.mem_map.mpr ⟨(q + 8 - ((d.part part).stream + 1) % 8) % 8, List.mem_range.mpr (Nat.mod_lt _ (by decide)), by omega⟩

/-- A turn of the dispatcher of a partition that is not DET. -/
theorem execTaskPlacement_streams {s : State} (hst : (s.dev.part s.args.a).st = .resident) (hdet : (s.dev.part s.args.a).cfg.det = false) :
    execTaskPlacement s = .next { s with dev := match s.dev.nextPlan s.args.a with
      | some (q, g, f) => if s.dev.planHeld s.args.a g f then s.dev else s.dev.startPlan s.args.a q g f
      | none => s.dev } := by
  simp only [execTaskPlacement, State.onDev, hst, hdet, bne_self_eq_false, Bool.false_eq_true, if_false]
  rfl

theorem execTaskPlacement_idle {s : State} (hst : (s.dev.part s.args.a).st = .resident) (hdet : (s.dev.part s.args.a).cfg.det = false)
    (hplan : s.dev.nextPlan s.args.a = none) : execTaskPlacement s = .next s := by
  rw [execTaskPlacement_streams hst hdet, hplan]

theorem execTaskPlacement_starts {s : State} {q : Nat} {g : Group} {f : List (Nat × List Nat × Nat)} (hst : (s.dev.part s.args.a).st = .resident)
    (hdet : (s.dev.part s.args.a).cfg.det = false) (hplan : s.dev.nextPlan s.args.a = some (q, g, f)) (hheld : s.dev.planHeld s.args.a g f = false) :
    execTaskPlacement s = .next { s with dev := s.dev.startPlan s.args.a q g f } := by
  rw [execTaskPlacement_streams hst hdet, hplan]
  simp only [hheld, Bool.false_eq_true, if_false]

/-- A turn of the dispatcher of a DET partition. -/
theorem execTaskPlacement_det {s : State} (hst : (s.dev.part s.args.a).st = .resident) (hdet : (s.dev.part s.args.a).cfg.det = true) :
    execTaskPlacement s = .next { s with dev := s.dev.placeDet s.args.a s.args.b } := by
  simp only [execTaskPlacement, State.onDev, hst, hdet, bne_self_eq_false, Bool.false_eq_true, if_false, if_true]

/-- A partition after the start of a task of group `g`. -/
theorem Dev.part_startTask {d : Dev} {part r index b : Nat} {g : Group} {slots : List Nat} (hg : aget? (d.part part).groups g.id = some g)
    (himg : g.localImg = none) : (d.startTask part r g.id index slots b).part part
      = { d.part part with groups := aset (d.part part).groups g.id { g with lastRank := some (r - (d.part part).cfg.hbase) } } := by
  rw [Dev.startTask_noImage hg himg]
  exact Dev.part_modGroup (d := d.setCore r _) _ hg

theorem Dev.part_startTask_ne {d : Dev} {part r index b o : Nat} {g : Group} {slots : List Nat} (hg : aget? (d.part part).groups g.id = some g)
    (himg : g.localImg = none) (ho : o ≠ part) : (d.startTask part r g.id index slots b).part o = d.part o := by
  rw [Dev.startTask_noImage hg himg, Dev.modGroup, Dev.part_modPart_ne _ _ ho]
  rfl

/-! ### Reservations (R100) -/

/-- The smallest power of two that is not below `n`, among those that are left. -/
theorem powAbove_least {n j : Nat} (hj : j ≤ 13) (hn : n ≤ 2 ^ 12) (hlow : ∀ i < 13 - j, 2 ^ i < n) :
    ∃ k, powAbove n j = 2 ^ k ∧ n ≤ 2 ^ k ∧ (k = 0 ∨ 2 ^ (k - 1) < n) := by
  induction j with
  | zero => exact absurd (hlow 12 (by omega)) (by omega)
  | succ j ih =>
    rw [powAbove]
    split
    next hle => exact ⟨12 - j, rfl, hle, or_iff_not_imp_left.mpr fun h => hlow _ (by omega)⟩
    next hgt =>
      refine ih (by omega) fun i hi => ?_
      by_cases h : i = 12 - j
      · exact h ▸ Nat.lt_of_not_le hgt
      · exact hlow i (by omega)

/-- The long-lived tasks on `n` ranks of a partition from rank `b` on. -/
def Dev.runLoad (d : Dev) (part n b : Nat) : Nat := ((List.range n).map fun i => d.longLived ((d.part part).cfg.hbase + (b + i))).sum

/-- The bases that a run of `n` ranks may have: the multiples of the smallest power of two that is not below `n`. -/
def Part.runBases (p : Part) (n : Nat) : List Nat := ((List.range 4096).map (powAbove n 13 * ·)).filter fun b => decide (b + n ≤ p.cfg.hlen)

theorem Dev.reserveRun_eq (d : Dev) (part n : Nat) : d.reserveRun part n = ((d.part part).runBases n).foldl (leastBy (d.runLoad part n)) none := by
  have hload : ∀ b, ((List.range n).map fun i => d.longLived ((d.part part).devRank (b + i))).foldl (· + ·) 0 = d.runLoad part n b :=
    fun b => List.sum_eq_foldl.symm
  simp only [Dev.reserveRun, hload]
  rfl

/-- A gang that can stand in the partition at all finds a run, aligned and with the fewest long-lived tasks. -/
theorem Dev.reserveRun_least {d : Dev} {part n : Nat} (h1 : 1 ≤ n) (hn : n ≤ (d.part part).cfg.hlen) (hl : (d.part part).cfg.hlen ≤ 4096) :
    ∃ b k, d.reserveRun part n = some b ∧ n ≤ 2 ^ k ∧ (k = 0 ∨ 2 ^ (k - 1) < n) ∧ b % 2 ^ k = 0 ∧ b + n ≤ (d.part part).cfg.hlen
      ∧ ∀ c, c % 2 ^ k = 0 → c + n ≤ (d.part part).cfg.hlen → d.runLoad part n b ≤ d.runLoad part n c := by
  obtain ⟨k, hk, hnk, hlow⟩ := powAbove_least (n := n) le_rfl (by omega) (by simp)
  have hmem : ∀ c, c ∈ (d.part part).runBases n ↔ c % 2 ^ k = 0 ∧ c + n ≤ (d.part part).cfg.hlen := by
    intro c
    simp only [Part.runBases, hk, List.mem_filter, List.mem_map, List.mem_range, decide_eq_true_eq]
    refine and_congr_left fun hc => ⟨fun ⟨i, _, hi⟩ => hi ▸ Nat.mul_mod_right _ _, fun h => ⟨c / 2 ^ k, ?_, Nat.mul_div_cancel' (Nat.dvd_of_mod_eq_zero h)⟩⟩
    have := Nat.div_le_self c (2 ^ k)
    omega
  obtain ⟨b, hb, hfold, hmin⟩ := foldl_leastBy (d.runLoad part n) (List.ne_nil_of_mem ((hmem 0).mpr ⟨Nat.zero_mod _, by omega⟩))
  exact ⟨b, k, (d.reserveRun_eq part n).trans hfold, hnk, hlow, ((hmem b).mp hb).1, ((hmem b).mp hb).2, fun c hc hcn => hmin c ((hmem c).mpr ⟨hc, hcn⟩)⟩

/-- The gang at the head of a stream that cannot be placed takes the run that is found. -/
theorem execGangReservation_takes {s : State} {gid b : Nat} {rest : List Nat} {g : Group} (hq : aget? (s.dev.part s.args.a).queues s.args.b = some (gid :: rest))
    (hg : aget? (s.dev.part s.args.a).groups gid = some g) (hplace : g.desc.place = 3) (hresv : (s.dev.part s.args.a).resv = none)
    (hst : (s.dev.part s.args.a).st = .resident) (hdet : (s.dev.part s.args.a).cfg.det = false) (hplan : s.dev.plan s.args.a g = none)
    (hb : s.dev.reserveRun s.args.a g.desc.tasks = some b) : execGangReservation s
      = .next { s with dev := s.dev.setPart s.args.a { s.dev.part s.args.a with resv := some ⟨s.args.b, b, g.desc.tasks⟩ } } := by
  have hhead : (s.dev.part s.args.a).headGroup s.args.b = some g := by simp [Part.headGroup, hq, hg]
  simp only [execGangReservation, State.onDev, hhead]
  rw [if_pos (by simp [hplace, hresv, hst, hdet, hplan]), hb]
  rfl

end Sys2Proof.Machine

namespace Sys2Proof.Claims
open Machine

/-- The head of the only stream with a group starts its next task where the plan says. -/
theorem startPlan_one {d : Dev} {p q r b : Nat} {g : Group} {slots : List Nat} (hqs : (d.part p).queues = [(q, [g.id])])
    (hg : aget? (d.part p).groups g.id = some g) (himg : g.localImg = none) (hfit : d.fit p ((d.part p).devRank r) g.desc = some (slots, b)) :
    let t := d.startPlan p q g [(r, slots, b)]
    TaskStarts d t p ((d.part p).cfg.hbase + r) g g.next slots b
      ∧ aget? (t.part p).groups g.id = some { g with next := g.next + 1, live := g.live + 1, lastRank := some r } ∧ (t.part p).stream = q
      ∧ aget? (t.part p).queues q = some (if g.desc.tasks ≤ g.next + 1 then [] else [g.id]) ∧ ∀ o, o ≠ p → t.part o = d.part o := by
  obtain ⟨hnd, hlt⟩ := Dev.fit_slots hfit
  have hstarts := taskStarts_startTask (r := (d.part p).devRank r) (index := g.next) (b := b) hg himg hnd hlt
  have hpart := Dev.part_startTask (r := (d.part p).devRank r) (index := g.next) (b := b) (slots := slots) hg himg
  have hback : (d.part p).devRank r - (d.part p).cfg.hbase = r := Nat.add_sub_cancel_left ..
  rw [hback] at hpart
  have hgroup : aget? ((d.startTask p ((d.part p).devRank r) g.id g.next slots b).part p).groups g.id = some { g with lastRank := some r } := by
    rw [hpart]
    exact aget?_aset_same ..
  have hothers : ∀ o, o ≠ p → (d.startTask p ((d.part p).devRank r) g.id g.next slots b).part o = d.part o :=
    fun o ho => Dev.part_startTask_ne hg himg ho
  dsimp only [Dev.startPlan, List.zipIdx_cons, List.zipIdx_nil, List.foldl_cons, List.foldl_nil, Nat.add_zero, List.length_singleton]
  generalize d.startTask p ((d.part p).devRank r) g.id g.next slots b = e at hstarts hpart hgroup hothers
  refine ⟨hstarts.congr rfl rfl, ?_, ?_, ?_, fun o ho => ?_⟩
  · rw [Dev.part_modPart, Dev.part_modGroup _ hgroup, aget?_aset_same]
  · rw [Dev.part_modPart]
  · rw [Dev.part_modPart, Dev.part_modGroup _ hgroup, hpart]
    dsimp only
    rw [hqs]
    split <;> simp [aset, aget?]
  · rw [Dev.part_modPart_ne _ _ ho, Dev.modGroup, Dev.part_modPart_ne _ _ ho, hothers o ho]

/-- The head of the DET list of a rank starts on its core (R107). -/
theorem placeDet_starts {d : Dev} {p rank i b : Nat} {rest : List (Nat × Nat)} {g : Group} {slots : List Nat}
    (hl : aget? (d.part p).det rank = some ((g.id, i) :: rest)) (hg : aget? (d.part p).groups g.id = some g) (himg : g.localImg = none)
    (hidle : ∀ y ∈ (d.core ((d.part p).cfg.hbase + rank)).tasks, y.ended = true) (hfit : d.fit p ((d.part p).cfg.hbase + rank) g.desc = some (slots, b)) :
    TaskStarts d (d.placeDet p rank) p ((d.part p).cfg.hbase + rank) g i slots b ∧ aget? ((d.placeDet p rank).part p).det rank = some rest := by
  have hany : (d.core ((d.part p).devRank rank)).tasks.any (!·.ended) = false := by
    rw [List.any_eq_false]
    intro y hy
    simp [hidle y hy]
  have hplace : d.placeDet p rank = (d.startTask p ((d.part p).devRank rank) g.id i slots b).modPart p fun p => { p with det := aset p.det rank rest } := by
    simp only [Dev.placeDet, hl, Option.getD_some, hg, hany, Bool.false_eq_true, if_false, Dev.imageHeld_none himg]
    rw [show d.fit p ((d.part p).devRank rank) g.desc = some (slots, b) from hfit]
  obtain ⟨hnd, hlt⟩ := Dev.fit_slots hfit
  rw [hplace]
  exact ⟨(taskStarts_startTask hg himg hnd hlt).congr rfl rfl, by simp [Dev.part_modPart]⟩

end Sys2Proof.Claims

namespace Sys2Proof
open Machine Claims

/-- Settles O46: the plan of PLACE compact is the lowest rank that has room, and what starts there is what the start of one task leaves; a reservation
is the least run under the count of long-lived tasks. -/
theorem placementAndGangs : Obligations.PlacementAndGangs := by
  unfold Obligations.PlacementAndGangs
  refine ⟨⟨fun s q gid g _ => ?_, fun s gid i rest g slots b => ?_⟩, fun s gid rest g => ?_⟩
  · intro p x hst hdet hq hqs hg hid himg hplace
    subst hid
    have hplan := (Dev.nextPlan_single hq hqs hg).trans (congrArg _ (Dev.plan_compact hplace))
    refine ⟨fun hnone => ?_, fun r slots b hr hgang hfit hlow => ?_⟩
    · rw [Dev.compactRank_none hnone] at hplan
      exact ⟨s, execTaskPlacement_idle hst hdet hplan, rfl⟩
    · rw [Dev.compactRank_lowest hr hgang hfit hlow] at hplan
      have hheld : s.dev.planHeld p g [(r, slots, b)] = false := by simp [Dev.planHeld, Dev.imageHeld_none himg]
      exact ⟨_, execTaskPlacement_starts hst hdet hplan hheld, startPlan_one hqs hg himg (Dev.dispatch_fit hfit)⟩
  · intro p x r hst hdet hl hg hid himg hidle hfit
    subst hid
    exact ⟨_, execTaskPlacement_det hst hdet, placeDet_starts hl hg himg hidle hfit⟩
  · intro p q x n load hq hg hplace hresv hst hdet hplan h1 hn hlen
    obtain ⟨b, k, hb, hspec⟩ := Dev.reserveRun_least h1 hn hlen
    exact ⟨_, execGangReservation_takes hq hg hplace hresv hst hdet hplan hb, b, k, Dev.part_setPart .., rfl,
      fun o ho => Dev.part_setPart_ne _ _ _ _ ho, hspec⟩

end Sys2Proof

namespace Sys2Proof.Machine

/-! ### Host records leave the device as it is (R67, R84) -/

@[simp] theorem State.dev_hostWrite (s : State) (iova n x : Nat) : (s.hostWrite iova n x).dev = s.dev := by
  unfold State.hostWrite
  split <;> rfl

@[simp] theorem State.dev_modFn (s : State) (f : Nat) (g : Fn → Fn) : (s.modFn f g).dev = s.dev := rfl

theorem State.dev_sendVector (s : State) (f v : Nat) : (s.sendVector f v).dev = s.dev := (Claims.functionsOnly_sendVector s f v).dev

@[simp] theorem State.dev_putRecord (s : State) (f q : Nat) (x : BitVec 128) : (s.putRecord f q x).dev = s.dev :=
  State.dev_hostWrite s _ _ _

@[simp] theorem State.dev_drainCq (s : State) (f q n : Nat) : (s.drainCq f q n).dev = s.dev := by
  induction n generalizing s with
  | zero => rfl
  | succ n ih =>
    simp only [State.drainCq]
    split
    · split
      · rfl
      · rw [ih, State.dev_putRecord]
        rfl
    · rfl

@[simp] theorem State.dev_addRecord (s : State) (f q : Nat) (x : BitVec 128) : (s.addRecord f q x).dev = s.dev := by
  unfold State.addRecord
  dsimp only
  split
  · rfl
  · rw [State.dev_drainCq]
    rfl

/-- A fold whose step leaves the device leaves it as a whole. -/
theorem foldl_dev {α : Type} {f : State → α → State} (h : ∀ s a, (f s a).dev = s.dev) (l : List α) (s : State) : (l.foldl f s).dev = s.dev := by
  induction l generalizing s with
  | nil => rfl
  | cons a l ih => rw [List.foldl_cons, ih, h]

theorem State.dev_flushHeld (s : State) (f : Nat) : (s.flushHeld f).dev = s.dev := by
  simp only [State.flushHeld]
  split
  · rfl
  · rw [State.dev_modFn, foldl_dev fun s v => State.dev_sendVector s f v, foldl_dev fun s (e : HeldEvent) => State.dev_addRecord s f e.queue e.record,
      State.dev_modFn]

@[simp] theorem State.dev_partChanged (s : State) (p : Nat) : (s.partChanged p).dev = s.dev := foldl_dev State.dev_flushHeld _ _

/-! ### Tables and vectors as a whole -/

theorem aget?_map {α β : Type} (f : α → β) (m : AMap α) (k : Nat) : aget? (m.map fun p => (p.1, f p.2)) k = (aget? m k).map f := by
  induction m with
  | nil => rfl
  | cons p m ih =>
    rw [List.map_cons, aget?, aget?]
    split
    next => rfl
    next => exact ih

theorem aget?_mem {α : Type} {m : AMap α} {k : Nat} {v : α} (h : aget? m k = some v) : (k, v) ∈ m := by
  induction m with
  | nil => cases h
  | cons p m ih =>
    rw [aget?] at h
    split at h
    next hk =>
      obtain rfl := Option.some.inj h
      exact hk ▸ List.mem_cons_self
    next => exact List.mem_cons_of_mem _ (ih h)

theorem mem_aset {α : Type} {m : AMap α} {k : Nat} {v : α} {p : Nat × α} (h : p ∈ aset m k v) : p = (k, v) ∨ p ∈ m := by
  induction m with
  | nil => simpa [aset] using h
  | cons q m ih =>
    rw [aset] at h
    split at h
    · rcases List.mem_cons.mp h with h | h
      · exact .inl h
      · exact .inr (List.mem_cons_of_mem _ h)
    split at h
    · rcases List.mem_cons.mp h with h | h
      · exact .inl h
      · exact .inr h
    · rcases List.mem_cons.mp h with h | h
      · exact .inr (h ▸ List.mem_cons_self)
      · exact (ih h).imp_right (List.mem_cons_of_mem _)

theorem vget_ofFn {α : Type} {n : Nat} (f : Fin n → α) {k : Nat} (h : k < n) (d : α) : vget (Vector.ofFn f) k d = f ⟨k, h⟩ := by
  simp [vget, List.getD_eq_getElem?_getD, h]

@[simp] theorem vset_vget {α : Type} {n : Nat} (v : Vector α n) (k : Nat) (d : α) : vset v k (vget v k d) = v := by
  ext i hi
  rw [vset, Vector.getElem_setIfInBounds]
  split
  next h => simp [vget, List.getD_eq_getElem?_getD, h, hi]
  next => rfl

/-- A vector all of whose elements have a property: those that a read below its length gives. -/
theorem forall_mem_of_vget {α : Type} {n : Nat} {v : Vector α n} {d : α} {P : α → Prop} (h : ∀ k < n, P (vget v k d)) : ∀ x ∈ v, P x := by
  intro x hx
  obtain ⟨k, hk, rfl⟩ := Vector.mem_iff_getElem.mp hx
  have := h k hk
  simpa [vget, List.getD_eq_getElem?_getD, hk] using this

/-! ### Bytes put in bulk -/

theorem Mem.get_of_mem {m : Mem} {a : Nat} {b : Byte} (hw : m.wf = true) (h : (a, b) ∈ m) : m.get a = b := by
  induction m with
  | nil => cases h
  | cons c m ih =>
    obtain ⟨_, hlt, ht⟩ := Mem.wf_cons.mp hw
    rcases List.mem_cons.mp h with rfl | h
    · simp [Mem.get]
    · have := hlt _ h
      rw [Mem.get, if_neg (by omega), if_neg (by omega), ih ht h]

theorem Mem.mem_of_get {m : Mem} {a : Nat} (h : m.get a ≠ unlisted) : (a, m.get a) ∈ m := by
  induction m with
  | nil => exact absurd rfl h
  | cons c m ih =>
    rw [Mem.get] at h ⊢
    split
    next ha => exact ha ▸ List.mem_cons_self
    next ha =>
      rw [if_neg ha] at h
      split
      next hlt => exact absurd (if_pos hlt) h
      next hlt => exact List.mem_cons_of_mem _ (ih (by rwa [if_neg hlt] at h))

/-- A byte after listed bytes are set: what every cell of its address says, if one of them or memory before says it. -/
theorem Mem.get_put {m : Mem} {cells : List (Nat × Byte)} {a : Nat} {b : Byte} (hw : m.wf = true) (hall : ∀ c ∈ cells, c.1 = a → c.2 = b)
    (h : (∃ c ∈ cells, c.1 = a) ∨ m.get a = b) : (m.put cells).get a = b := by
  induction cells generalizing m with
  | nil => exact h.resolve_left (by simp)
  | cons c cells ih =>
    simp only [List.mem_cons, forall_eq_or_imp, exists_eq_or_imp] at hall h
    refine ih (Mem.wf_set _ _ hw) hall.2 ?_
    by_cases hc : c.1 = a
    · exact .inr (hc ▸ hall.1 hc ▸ Mem.get_set_same _ _ hw)
    · rw [Mem.get_set_ne _ _ _ hw (Ne.symm hc)]
      exact h.imp_left fun h => h.resolve_left hc

theorem Mem.mem_window {m : Mem} {lo n at_ : Nat} {c : Nat × Byte} :
    c ∈ m.window lo n at_ ↔ ∃ i < n, (lo + i, c.2) ∈ m ∧ c.1 = at_ + i := by
  simp only [Mem.window, List.mem_map, List.mem_filter, Bool.and_eq_true, decide_eq_true_eq]
  constructor
  · rintro ⟨⟨a, b⟩, ⟨hm, hlo, hhi⟩, rfl⟩
    exact ⟨a - lo, by omega, by rwa [Nat.add_sub_cancel' hlo], Nat.add_comm ..⟩
  · rintro ⟨i, hi, hm, hc⟩
    exact ⟨_, ⟨hm, by omega, by omega⟩, Prod.ext (by rw [hc]; omega) rfl⟩

/-- A range that is moved over bytes which are unlisted before it, among cells of other addresses. -/
theorem Mem.get_put_window {m base : Mem} {pre post : List (Nat × Byte)} {lo n at_ i : Nat} (hb : base.wf = true) (hm : m.wf = true) (hi : i < n)
    (hclear : base.get (at_ + i) = unlisted) (hpre : ∀ c ∈ pre, c.1 ≠ at_ + i) (hpost : ∀ c ∈ post, c.1 ≠ at_ + i) :
    (base.put (pre ++ m.window lo n at_ ++ post)).get (at_ + i) = m.get (lo + i) := by
  refine Mem.get_put hb (fun c hc ha => ?_) ?_
  · simp only [List.mem_append] at hc
    rcases hc with (hc | hc) | hc
    · exact absurd ha (hpre c hc)
    · obtain ⟨j, hj, hmem, hcj⟩ := Mem.mem_window.mp hc
      obtain rfl : j = i := by omega
      exact (Mem.get_of_mem hm hmem).symm
    · exact absurd ha (hpost c hc)
  · by_cases hu : m.get (lo + i) = unlisted
    · exact .inr (hclear.trans hu.symm)
    · refine .inl ⟨(at_ + i, m.get (lo + i)), ?_, rfl⟩
      simp only [List.mem_append]
      exact .inl (.inr (Mem.mem_window.mpr ⟨i, hi, Mem.mem_of_get hu, rfl⟩))

/-- A core that loads its flag copy of entry `n`, if it serves the partition (R359). -/
def Core.withFlag (c : Core) (part n : Nat) (f : BitVec 5) : Core := if c.part = some part then { c with rflags := vset c.rflags n f } else c

/-- A core of the device on which every core has loaded its flag copy. -/
theorem Dev.core_flags (d : Dev) (part n : Nat) (f : BitVec 5) (r : Nat) : (aget? (d.cores.map fun p => if p.2.part = some part then
    (p.1, { p.2 with rflags := vset p.2.rflags n f }) else p) r).getD Core.reset = (d.core r).withFlag part n f := by
  have hmap : (d.cores.map fun p => if p.2.part = some part then (p.1, { p.2 with rflags := vset p.2.rflags n f }) else p)
      = d.cores.map fun p => (p.1, p.2.withFlag part n f) := by
    refine List.map_congr_left fun p _ => ?_
    rw [Core.withFlag]
    split <;> rfl
  rw [hmap, aget?_map (Core.withFlag · part n f), Dev.core]
  cases aget? d.cores r <;> rfl

end Sys2Proof.Machine

namespace Sys2Proof.Claims
open Machine

/-! ### Where every value is at its home -/

section
variable {d : Dev} (h : AtHomes d)
include h

theorem AtHomes.uoc (r : Nat) : (d.core r).uoc = [] := by
  rw [Dev.core]
  cases hr : aget? d.cores r with
  | none => rfl
  | some c => exact h.copies _ (aget?_mem hr)

theorem AtHomes.anyUoc (l : Nat) : (d.cores.any fun c => c.2.uoc.any (·.line == l)) = false := by
  rw [List.any_eq_false]
  intro c hc
  simp [h.copies c hc]

theorem AtHomes.homesOnly : d.homesOnly := ⟨h.regs, fun l => by simp [Dev.hasUoc, h.anyUoc, Dev.backsOf, h.queue]⟩

theorem AtHomes.lineHeld (l : Nat) : d.lineHeld l = false := by
  have hnext : d.nextReq l = none := by simp [Dev.nextReq, h.queue]
  have htags : d.uocTags l = true := by
    rw [Dev.uocTags, List.all_eq_true]
    intro c hc
    simp [h.copies c hc]
  simp [Dev.lineHeld, Dev.leased, h.leases, htags, hnext]

theorem AtHomes.rangeHeld (pa n : Nat) : d.rangeHeld pa n = none := by
  rw [Dev.rangeHeld, List.find?_eq_none.mpr fun p _ => by simp [h.lineHeld]]
  rfl

theorem AtHomes.rangePoisoned (pa n : Nat) : d.rangePoisoned pa n = false := by
  rw [Dev.rangePoisoned, List.any_eq_false]
  intro p _
  simp [Dev.poisoned, Dev.lostLine, h.sound.1, h.sound.2]

theorem AtHomes.spanHeld (a n : Nat) : d.spanHeld a n = false := by
  rw [Dev.spanHeld, List.any_eq_false]
  intro l _
  simp [h.lineHeld]

theorem AtHomes.cache {e : Dev} (k : CacheOnly d e) : AtHomes e := by
  obtain ⟨_, _, _, _, _, rfl⟩ := k
  exact ⟨h.regs, h.copies, h.queue, h.leases, h.sound, h.memory⟩

theorem AtHomes.setCore {c : Core} (r : Nat) (hc : c.uoc = []) : AtHomes (d.setCore r c) := by
  refine ⟨h.regs, fun p hp => ?_, h.queue, h.leases, h.sound, h.memory⟩
  rcases mem_aset hp with rfl | hp
  · exact hc
  · exact h.copies p hp

/-- A read of an agent goes on, and leaves memory and the units as they are. -/
theorem AtHomes.agRead (pa n part : Nat) : ∃ x e, Machine.agRead pa n part d = .ok (x, e) ∧ CacheOnly d e :=
  ⟨_, _, agRead_ok.mpr ⟨h.rangeHeld pa n, h.rangePoisoned pa n, rfl⟩, Dev.agentRead_cache h.homesOnly ..⟩

/-- Nothing has to come home before a range is read or written in bulk. -/
theorem AtHomes.settleRange (a n : Nat) : ∃ v, d.settleRange a n = { d with llc := v } := by
  have hcores : d.cores.flatMap (fun c => c.2.uoc.map (·.line)) = [] := by
    rw [List.flatMap_eq_nil_iff]
    intro c hc
    rw [h.copies c hc]
    rfl
  refine ⟨d.llc.map fun e => if decide (a / 128 ≤ e.1) && decide (128 * e.1 < a + n) then (e.1, { e.2 with dram := none }) else e, ?_⟩
  simp only [Dev.settleRange, h.regs, List.map_nil, List.filter_nil, List.foldl_nil, h.queue, List.filterMap_nil, hcores, List.append_nil]

end

/-! ### The flag copies of the cores (R359) -/

/-- Of the cores of partition `part` only the flag copies differ, and the records of the last-level cache. -/
structure FlagsOnly (part : Nat) (d e : Dev) : Prop where
  parts : e.parts = d.parts
  memory : e.mem = d.mem
  homes : AtHomes e
  core : ∀ r, ∃ f, e.core r = { d.core r with rflags := f }
  others : ∀ r, (d.core r).part ≠ some part → e.core r = d.core r

theorem FlagsOnly.refl {d : Dev} (part : Nat) (h : AtHomes d) : FlagsOnly part d d :=
  ⟨rfl, rfl, h, fun _ => ⟨_, rfl⟩, fun _ _ => rfl⟩

theorem FlagsOnly.trans {part : Nat} {a b c : Dev} (h : FlagsOnly part a b) (k : FlagsOnly part b c) : FlagsOnly part a c := by
  refine ⟨k.parts.trans h.parts, k.memory.trans h.memory, k.homes, fun r => ?_, fun r hr => ?_⟩
  · obtain ⟨f, hf⟩ := h.core r
    obtain ⟨g, hg⟩ := k.core r
    exact ⟨g, by rw [hg, hf]⟩
  · rw [k.others r (by rwa [h.others r hr]), h.others r hr]

/-- The flag copies of one entry. -/
theorem flagsOnly_load {d : Dev} (h : AtHomes d) (part n : Nat) : ∃ e, loadFlags part n d = .ok ((), e) ∧ FlagsOnly part d e := by
  obtain ⟨x, m, hx, hm⟩ := h.agRead (d.routineAt part n) 8 part
  have hhm := h.cache hm
  refine ⟨_, Eng.bind_ok.mpr ⟨d, d, rfl, Eng.bind_ok.mpr ⟨x, m, hx, rfl⟩⟩, ?_⟩
  obtain ⟨v, w, a, b, c, rfl⟩ := hm
  refine ⟨rfl, rfl, ⟨h.regs, fun p hp => ?_, h.queue, h.leases, h.sound, h.memory⟩, fun r => ?_, fun r hr => ?_⟩
  · obtain ⟨q, hq, rfl⟩ := List.mem_map.mp hp
    have := h.copies q hq
    split <;> exact this
  · by_cases hp : (d.core r).part = some part
    · exact ⟨_, (Dev.core_flags ..).trans (if_pos hp)⟩
    · exact ⟨_, (Dev.core_flags ..).trans (if_neg hp)⟩
  · exact (Dev.core_flags ..).trans (if_neg hr)

/-- The flag copies of every entry. -/
theorem flagsOnly_loadAll {d : Dev} (h : AtHomes d) (part : Nat) : ∃ e, loadAllFlags part d = .ok ((), e) ∧ FlagsOnly part d e := by
  unfold loadAllFlags
  generalize List.range 64 = l
  induction l generalizing d with
  | nil => exact ⟨d, rfl, FlagsOnly.refl part h⟩
  | cons n l ih =>
    obtain ⟨e, he, hflags⟩ := flagsOnly_load h part n
    obtain ⟨u, hu, hrest⟩ := ih hflags.homes
    obtain ⟨⟨⟩, w, hloop, hw⟩ := Eng.bind_ok.mp hu
    refine ⟨u, Eng.bind_ok.mpr ⟨PUnit.unit, w, ?_, hw⟩, hflags.trans hrest⟩
    rw [List.forIn_cons]
    refine Eng.bind_ok.mpr ⟨.yield PUnit.unit, e, Eng.bind_ok.mpr ⟨d, d, rfl, ?_⟩, hloop⟩
    rw [if_neg (by simp [h.rangePoisoned])]
    exact Eng.bind_ok.mpr ⟨(), e, he, rfl⟩

theorem flagsOnly_withFlags {before d : Dev} (h : AtHomes d) (part : Nat) : FlagsOnly part d (before.withFlags d part) := by
  obtain ⟨e, he, hflags⟩ := flagsOnly_loadAll h part
  rwa [Dev.withFlags, he]

end Sys2Proof.Claims

namespace Sys2Proof.Machine

/-! ### What the restored core holds (R113, R117, R118) -/

section
variable (m : Mem) (bad : Nat → Bool) (at_ part hlen : Nat) (s : Slot)

theorem xr_restoreSlot {i : Nat} (h1 : 1 ≤ i) (hi : i < 32) :
    (restoreSlot m bad at_ part hlen s).xr (BitVec.ofNat 5 i) = BitVec.ofNat 64 (m.nat (at_ + 8 * i) 8) := by
  have hto : (BitVec.ofNat 5 i).toNat = i := toNat_ofNat_of_lt hi
  have hne : BitVec.ofNat 5 i ≠ 0 := fun e => by simp [e] at hto; omega
  rw [Slot.xr, if_neg hne, hto]
  exact (vget_ofFn _ hi _).trans (if_neg (by simp; omega))

theorem seg_restoreSlot {i : Nat} (hi : i < 8) : (restoreSlot m bad at_ part hlen s).seg (BitVec.ofNat 3 i)
    = segClean (BitVec.ofNat 64 (m.nat (at_ + 0x148 + 16 * i) 8) ++ BitVec.ofNat 64 (m.nat (at_ + 0x140 + 16 * i) 8)) := by
  rw [Slot.seg, toNat_ofNat_of_lt hi, Nat.add_assoc at_, Nat.add_assoc at_]
  exact vget_ofFn _ hi _

theorem vr_restoreSlot {i : Nat} (hi : i < 32) :
    (restoreSlot m bad at_ part hlen s).vr (BitVec.ofNat 5 i) = BitVec.ofNat 512 (m.nat (at_ + 0x800 + 64 * i) 64) := by
  rw [Slot.vr, toNat_ofNat_of_lt hi]
  exact vget_ofFn _ hi _

theorem pc_restoreSlot : (restoreSlot m bad at_ part hlen s).pc = BitVec.ofNat 64 (m.nat (at_ + 0x1C0) 8) := rfl

theorem occ_restoreSlot : (restoreSlot m bad at_ part hlen s).occ = (BitVec.ofNat 64 (m.nat (at_ + 0x1C8) 8)).getLsbD 63 := rfl

@[simp] theorem wait_restoreSlot : (restoreSlot m bad at_ part hlen s).wait = s.wait := rfl

variable {s}

theorem pend_restoreSlot (h : s.pend = []) : (restoreSlot m bad at_ part hlen s).pend = [] := by
  simp only [restoreSlot, h]
  rfl

end

section
variable (f : Nat → Word) (alt : Nat → Bool) (c : Core) {k : Nat} (hk : k < 16)

@[simp] theorem Core.uoc_altered : (c.altered f alt).uoc = c.uoc := rfl
@[simp] theorem Core.saving_altered : (c.altered f alt).saving = c.saving := rfl

include hk

theorem Core.pend_altered : ((c.altered f alt).slot k).pend = (c.slot k).pend :=
  (congrArg Slot.pend (vget_ofFn _ hk _)).trans rfl

/-- What software writes into the wait record of a slot changes a barrier alone: a slot waits for its counter, or by `wfi`, as it did. -/
theorem Core.wait_altered {w : Wait} (hw : ∀ key phase, w ≠ .bar key phase) (h : ((c.altered f alt).slot k).wait = w) : (c.slot k).wait = w := by
  rw [show (c.altered f alt).slot k = _ from vget_ofFn _ hk _] at h
  dsimp only at h
  split at h
  · split at h <;> exact absurd h.symm (hw _ _)
  · exact h

end

/-- An increment that no slot waits for changes its counter alone (R142). -/
theorem Core.applyIncr_quiet {c : Core} {idx : Nat} (inc : HWord) (h : ∀ k < 16, (∀ u, (c.slot k).wait ≠ .wfi u) ∧ ∀ u, (c.slot k).wait ≠ .mbx idx u) :
    c.applyIncr idx inc = { c with counters := vset c.counters idx (vget c.counters idx 0 + inc) } := by
  have hall : ∀ s ∈ c.slots, (∀ u, s.wait ≠ .wfi u) ∧ ∀ u, s.wait ≠ .mbx idx u :=
    forall_mem_of_vget (P := fun s : Slot => (∀ u, s.wait ≠ .wfi u) ∧ ∀ u, s.wait ≠ .mbx idx u) h
  unfold Core.applyIncr
  extract_lets n met wakes
  have hmet : ∀ s ∈ c.slots, met s = false := by
    intro s hs
    simp only [met]
    split
    next i t hw =>
      have : i ≠ idx := fun e => (hall s hs).2 t (e ▸ hw)
      simp [this]
    next => rfl
  have hwakes : ∀ s ∈ c.slots, wakes s = false := by
    intro s hs
    simp only [wakes, hmet s hs, Bool.false_or]
    split
    next u hw => exact absurd hw ((hall s hs).1 u)
    next => rfl
  have hany : c.slots.toList.any met = false := List.any_eq_false.mpr fun s hs => by simp [hmet s (Vector.mem_toList_iff.mp hs)]
  have hslots : c.slots.map (fun s => if wakes s then s.retireTo (link s.pc) else s) = c.slots := by
    refine (Vector.map_congr_left fun s hs => ?_).trans (Vector.map_id _)
    rw [hwakes s hs]
    rfl
  rw [hany, hslots]
  rfl

/-- A slot that is set to what it holds, on a core whose record is the table's own. -/
theorem Dev.modSlot_self {d : Dev} {r k : Nat} {f : Slot → Slot} (hd : d.setCore r (d.core r) = d) (hf : f (d.slot r k) = d.slot r k) :
    d.modSlot r k f = d := by
  have hslot : (d.core r).setSlot k (d.slot r k) = d.core r := by
    rw [Dev.slot, Core.slot, Core.setSlot, vset_vget]
  rw [Dev.modSlot_eq, hf, Dev.setSlot_eq, hslot, hd]

theorem foldl_fixed {α β : Type} {f : β → α → β} {b : β} {l : List α} (h : ∀ a ∈ l, f b a = b) : l.foldl f b = b := by
  induction l with
  | nil => rfl
  | cons a l ih =>
    rw [List.foldl_cons, h a (by simp)]
    exact ih fun a ha => h a (List.mem_cons_of_mem _ ha)

/-- No `satom` of the partition rank is outstanding: the requests that go on are none. -/
theorem Dev.resumeSatoms_none {d : Dev} (part prank r : Nat) (h : d.homeQ = []) : ∃ o, d.resumeSatoms part prank r [] = { d with obuf := o } := by
  simp only [Dev.resumeSatoms, h, List.filter_nil, List.map_nil, List.filterMap_nil, List.foldl_nil]
  exact ⟨_, by rw [← h]⟩

end Sys2Proof.Machine

namespace Sys2Proof.Claims
open Machine

/-- What core `e` takes from the context block at `base` of memory `m`, from the saved core, and from the hardware (R117, R118). -/
structure Restored (m : Mem) (base part : Nat) (saved hw e : Core) : Prop where
  serves : e.part = some part
  saving : e.saving = saved.saving
  cycle : e.cycle = hw.cycle
  copies : e.uoc = saved.uoc
  store : ∀ a < 0x60000, e.lmem.get a = m.get (base + a)
  tiles : ∀ a < 0x40000, e.lmem.get (0x80000 + a) = m.get (base + 0x60000 + a)
  counters : ∀ i < 64, vget e.counters i 0 = BitVec.ofNat 32 (m.nat (base + 0xB1000 + 4 * i) 4) + if i = 63 then 1 else 0
  slots : ∀ k < 16, ∃ bad hlen s, e.slot k = restoreSlot m bad (base + 0xA0000 + 0x1000 * k) part hlen s ∧ s.pend = []

/-- Local memory as a context block holds it (R113). -/
theorem get_localImage {m : Mem} (hw : m.wf = true) (base : Nat) :
    (∀ a < 0x60000, (Mem.put [] (m.window base 0x60000 0 ++ m.window (base + 0x60000) 0x40000 tileBase)).get a = m.get (base + a))
    ∧ ∀ a < 0x40000, (Mem.put [] (m.window base 0x60000 0 ++ m.window (base + 0x60000) 0x40000 tileBase)).get (0x80000 + a)
        = m.get (base + 0x60000 + a) := by
  refine ⟨fun a ha => ?_, fun a ha => ?_⟩
  · have := Mem.get_put_window (base := []) (pre := []) (post := m.window (base + 0x60000) 0x40000 tileBase) (lo := base) (at_ := 0) rfl hw ha rfl (by simp)
      fun c hc => by
        obtain ⟨i, _, _, hci⟩ := Mem.mem_window.mp hc
        rw [hci, tileBase]
        omega
    simpa using this
  · have := Mem.get_put_window (base := []) (pre := m.window base 0x60000 0) (post := []) (lo := base + 0x60000) (at_ := tileBase) rfl hw ha rfl
      (fun c hc => by
        obtain ⟨i, hi, _, hci⟩ := Mem.mem_window.mp hc
        rw [hci, tileBase]
        omega) (by simp)
    simpa [tileBase] using this

/-- The core that resumes (R118), before the routine flags are loaded: nothing is outstanding on it, and no slot waits for counter 63 or by `wfi`. -/
theorem resumeNow_restores {d : Dev} {part prank : Nat} {x : SavedCtx} (h : AtHomes d) (hx : aget? (d.part part).ctx prank = some x)
    (hparked : x.parked = []) (hout : x.core.out = []) (huoc : x.core.uoc = [])
    (hslots : ∀ k < 16, (x.core.slot k).pend = [] ∧ (∀ u, (x.core.slot k).wait ≠ .wfi u) ∧ ∀ u, (x.core.slot k).wait ≠ .mbx 63 u) :
    ∃ e, d.resumeNow part prank = d.withFlags e part ∧ AtHomes e ∧ e.mem = d.mem ∧ (e.part part).st = .resident ∧ aget? (e.part part).ctx prank = none
      ∧ Restored d.mem ((d.part part).ctxAt prank) part x.core (d.core ((d.part part).devRank prank)) (e.core ((d.part part).devRank prank)) := by
  unfold Dev.resumeNow
  rw [hx]
  dsimp -zeta only
  extract_lets before p r base d1 hw m bad alt n f lmem old c c1 d2 det d3 d4 eaten d5 d6
  obtain ⟨v, hv⟩ : ∃ v, d1 = { d with llc := v } := h.settleRange base ctxSize
  clear_value d1
  subst hv
  have hserves : c.part = some part := rfl
  have hsaving : c.saving = x.core.saving := by simp only [c, old, Core.saving_altered]
  have hcycle : c.cycle = (d.core r).cycle := rfl
  have huocs : c.uoc = x.core.uoc := by simp only [c, old, Core.uoc_altered]
  have hlmem : c.lmem = lmem := rfl
  have hcounters : ∀ i < 64, vget c.counters i 0 = BitVec.ofNat 32 (d.mem.nat (base + 0xB1000 + 4 * i) 4) := fun i hi => vget_ofFn _ hi _
  have hslot : ∀ k < 16, c.slot k = restoreSlot d.mem bad (base + 0xA0000 + 0x1000 * k) part p.cfg.hlen (old.slot k) := fun k hk => vget_ofFn _ hk _
  have hpend : ∀ k < 16, (old.slot k).pend = [] := fun k hk => (Core.pend_altered f alt _ hk).trans (hslots k hk).1
  have hc1 : c1 = { c with counters := vset c.counters 63 (vget c.counters 63 0 + 1) } := by
    have hinc : alteredIncrs f alt x.parked = [] := by
      rw [hparked]
      exact ite_self _
    simp only [c1, hinc, List.foldl_nil]
    refine Core.applyIncr_quiet 1 fun k hk => ?_
    rw [hslot k hk, wait_restoreSlot]
    obtain ⟨_, hwfi, hmbx⟩ := hslots k hk
    exact ⟨fun u e => hwfi u (Core.wait_altered f alt _ hk (by simp) e), fun u e => hmbx u (Core.wait_altered f alt _ hk (by simp) e)⟩
  have huoc1 : c1.uoc = x.core.uoc := by rw [hc1, ← huocs]
  have hslot1 : ∀ k < 16, c1.slot k = c.slot k := fun k _ => by rw [hc1, Core.slot, Core.slot]
  obtain ⟨hstore, htiles⟩ := get_localImage h.memory base
  have hrestored : Restored d.mem base part x.core (d.core r) c1 := by
    refine ⟨?_, ?_, ?_, huoc1, ?_, ?_, fun i hi => ?_, fun k hk => ⟨bad, p.cfg.hlen, old.slot k, (hslot1 k hk).trans (hslot k hk), hpend k hk⟩⟩
    · rw [hc1, ← hserves]
    · rw [hc1, ← hsaving]
    · rw [hc1, ← hcycle]
    · rw [show c1.lmem = lmem by rw [hc1, ← hlmem]]
      exact hstore
    · rw [show c1.lmem = lmem by rw [hc1, ← hlmem]]
      exact htiles
    · rw [show c1.counters = vset c.counters 63 (vget c.counters 63 0 + 1) by rw [hc1], ← hcounters i hi]
      split
      next h63 => rw [h63, vget_vset_same _ _ _ _ (by decide)]
      next h63 => rw [vget_vset_ne _ _ _ _ _ h63]; simp
  clear_value c1
  have hhomes : AtHomes (d.setCore r c1) := h.setCore r (huoc1.trans huoc)
  obtain ⟨o, ho⟩ : ∃ o, d4 = { d3 with obuf := o } := by
    simp only [d4, hout]
    exact Dev.resumeSatoms_none part prank r h.queue
  have hcores : d4.cores = aset d.cores r c1 := by rw [ho]; rfl
  have hcore : d4.core r = c1 := by
    rw [Dev.core, hcores, aget?_aset_same]
    rfl
  have hpart : (d4.part part).st = .resident ∧ (d4.part part).ctx = adel (d.part part).ctx prank := by
    have hd3 : d4.part part = d3.part part := by rw [ho]; rfl
    rw [hd3, Dev.part_modPart]
    exact ⟨rfl, rfl⟩
  have hd5 : d5 = d4 := by
    have hpoison : d4.poison = [] := by rw [ho]; exact h.sound.1
    simp only [d5, eaten, hpoison, List.filter_nil, List.foldl_nil]
  have hd6 : d6 = d4 := by
    simp only [d6, hd5]
    refine foldl_fixed fun k hk => Dev.modSlot_self ?_ ?_
    · rw [Dev.setCore, hcore, hcores, aset_aset, ← hcores]
    · have hk := List.mem_range.mp hk
      rw [Dev.slot, hcore, hslot1 k hk, hslot k hk, pend_restoreSlot _ _ _ _ _ (hpend k hk)]
      rfl
  rw [hd6]
  refine ⟨d4, rfl, ?_, ?_, hpart.1, by rw [hpart.2, aget?_adel_same], hcore ▸ hrestored⟩
  · rw [ho]
    exact ⟨hhomes.regs, hhomes.copies, hhomes.queue, hhomes.leases, hhomes.sound, hhomes.memory⟩
  · rw [ho]
    rfl

/-- What the flag copies leave of it. -/
theorem Restored.flags {m : Mem} {base part : Nat} {saved hw e : Core} (h : Restored m base part saved hw e) (f : Vector (BitVec 5) 64) :
    Restored m base part saved hw { e with rflags := f } :=
  ⟨h.serves, h.saving, h.cycle, h.copies, h.store, h.tiles, h.counters, h.slots⟩

end Sys2Proof.Claims

namespace Sys2Proof.Machine

/-! ### Rules of a partition's schedule (R78) -/

/-- Cores changed one after another, each once. -/
theorem Dev.foldl_modCore {f : Core → Core} {l : List Nat} (hnd : l.Nodup) (d : Dev) (r : Nat) :
    (l.foldl (fun d r => d.modCore r f) d).core r = if r ∈ l then f (d.core r) else d.core r := by
  induction l generalizing d with
  | nil => rfl
  | cons a l ih =>
    rw [List.nodup_cons] at hnd
    rw [List.foldl_cons, ih hnd.2, Dev.modCore_eq]
    by_cases ha : r = a
    · subst ha
      simp [hnd.1]
    · simp [ha]

theorem Dev.foldl_modCore_only (f : Core → Core) (l : List Nat) (d : Dev) : ∃ cs, l.foldl (fun d r => d.modCore r f) d = { d with cores := cs } := by
  induction l generalizing d with
  | nil => exact ⟨d.cores, rfl⟩
  | cons a l ih =>
    obtain ⟨cs, hcs⟩ := ih (d.modCore a f)
    exact ⟨cs, hcs⟩

/-- The partition becomes resident (R78). -/
def Dev.resident (d : Dev) (part : Nat) : Dev := d.modPart part fun p => { p with st := .resident }

/-- The device ranks of a partition. -/
def Part.ranks (p : Part) : List Nat := (List.range p.cfg.hlen).map p.devRank

theorem Part.mem_ranks {p : Part} {r : Nat} : r ∈ p.ranks ↔ ∃ i < p.cfg.hlen, p.cfg.hbase + i = r := by
  simp only [Part.ranks, List.mem_map, List.mem_range]
  rfl

theorem Part.not_mem_ranks {p : Part} {r : Nat} (h : r < p.cfg.hbase ∨ p.cfg.hbase + p.cfg.hlen ≤ r) : r ∉ p.ranks := by
  rw [Part.mem_ranks]
  rintro ⟨i, hi, rfl⟩
  omega

theorem Part.nodup_ranks (p : Part) : p.ranks.Nodup :=
  List.nodup_range.map fun _ _ h => Nat.add_left_cancel h

theorem Dev.scheduleNow_unstarted {d : Dev} {part : Nat} (hst : (d.part part).st = .stopped) (h : (d.part part).started = false) :
    d.scheduleNow part = d := by
  simp [Dev.scheduleNow, hst, h]

theorem Dev.scheduleNow_descheduled {d : Dev} {part : Nat} (hst : (d.part part).st = .descheduled) (h : d.overlapped part = false) :
    d.scheduleNow part = d.resident part := by
  simp [Dev.scheduleNow, hst, h, Dev.resident]

theorem Dev.scheduleNow_first {d : Dev} {part : Nat} (hst : (d.part part).st = .stopped) (hs : (d.part part).started = true)
    (ho : d.overlapped part = false) (hfree : ∀ r ∈ (d.part part).ranks, (d.core r).part = none) : d.scheduleNow part
      = d.withFlags (((d.part part).ranks.foldl (fun d r => d.modCore r fun c => c.blank (some part)) d).resident part) part := by
  have hany : ((d.part part).ranks.any fun r => (d.core r).part.isSome) = false := by
    rw [List.any_eq_false]
    intro r hr
    simp [hfree r hr]
  simp only [Dev.scheduleNow, hst, hs, ho, Part.ranks] at hany ⊢
  simp only [hany, Bool.not_true, Bool.or_false, Bool.false_eq_true, if_false]
  rfl

end Sys2Proof.Machine

namespace Sys2Proof.Claims
open Machine

theorem AtHomes.modCores {d : Dev} (h : AtHomes d) {f : Core → Core} (hf : ∀ c, (f c).uoc = []) (l : List Nat) :
    AtHomes (l.foldl (fun d r => d.modCore r f) d) := by
  induction l generalizing d with
  | nil => exact h
  | cons a l ih => exact ih (h.setCore a (hf _))

/-- A partition that is scheduled for the first time (R78, R110, R142). -/
theorem scheduleNow_first {d : Dev} {part : Nat} (h : AtHomes d) (hst : (d.part part).st = .stopped) (hs : (d.part part).started = true)
    (ho : d.overlapped part = false) (hfree : ∀ i < (d.part part).cfg.hlen, (d.core ((d.part part).cfg.hbase + i)).part = none) :
    let t := d.scheduleNow part
    t.part part = { d.part part with st := .resident } ∧ t.mem = d.mem
      ∧ (∀ i < (d.part part).cfg.hlen, ∃ f, t.core ((d.part part).cfg.hbase + i)
          = { (d.core ((d.part part).cfg.hbase + i)).blank (some part) with rflags := f })
      ∧ ∀ r, r ∉ (d.part part).ranks → (d.core r).part ≠ some part → t.core r = d.core r := by
  have hfree' : ∀ r ∈ (d.part part).ranks, (d.core r).part = none := fun r hr => by
    obtain ⟨i, hi, rfl⟩ := Part.mem_ranks.mp hr
    exact hfree i hi
  have hblank := h.modCores (f := fun c => c.blank (some part)) (fun _ => rfl) (d.part part).ranks
  have hcore := Dev.foldl_modCore (f := fun c => c.blank (some part)) (d.part part).nodup_ranks d
  obtain ⟨cs, hcs⟩ := Dev.foldl_modCore_only (fun c => c.blank (some part)) (d.part part).ranks d
  rw [Dev.scheduleNow_first hst hs ho hfree']
  have hparts : ((d.part part).ranks.foldl (fun d r => d.modCore r fun c => c.blank (some part)) d).part part = d.part part := by rw [hcs]; rfl
  have hmem : ((d.part part).ranks.foldl (fun d r => d.modCore r fun c => c.blank (some part)) d).mem = d.mem := by rw [hcs]
  generalize (d.part part).ranks.foldl (fun d r => d.modCore r fun c => c.blank (some part)) d = e at hblank hcore hparts hmem
  have hres : AtHomes (e.resident part) := ⟨hblank.regs, hblank.copies, hblank.queue, hblank.leases, hblank.sound, hblank.memory⟩
  have hflags := flagsOnly_withFlags (before := d) hres part
  refine ⟨?_, hflags.memory.trans hmem, fun i hi => ?_, fun r hr hp => ?_⟩
  · rw [Dev.part, hflags.parts]
    change (e.resident part).part part = _
    rw [Dev.resident, Dev.part_modPart, hparts]
  · obtain ⟨f, hf⟩ := hflags.core ((d.part part).cfg.hbase + i)
    refine ⟨f, hf.trans ?_⟩
    have hc : (e.resident part).core ((d.part part).cfg.hbase + i) = (d.core ((d.part part).cfg.hbase + i)).blank (some part) :=
      (hcore _).trans (if_pos (Part.mem_ranks.mpr ⟨i, hi, rfl⟩))
    rw [hc]
  · have hc : (e.resident part).core r = d.core r := (hcore r).trans (if_neg hr)
    rw [← hc] at hp
    exact (hflags.others r hp).trans hc

end Sys2Proof.Claims

namespace Sys2Proof.Claims
open Machine

theorem canResume_atHomes {d : Dev} {part prank : Nat} {x : SavedCtx} (h : AtHomes d) (hx : aget? (d.part part).ctx prank = some x)
    (hst : (d.part part).st ≠ .stopped) (hfree : (d.core ((d.part part).devRank prank)).part = none)
    (hlost : (d.core ((d.part part).devRank prank)).lost = false) (ho : d.overlapped part = false) : d.canResume part prank = true := by
  simp [Dev.canResume, h.spanHeld, hx, hst, hfree, hlost, ho]

/-- A step that lets a saved core resume (R118). -/
theorem coreResume_resumes {s : State} {x : SavedCtx} (hb : (s.dev.part s.args.b).cfg.hbase ≤ s.args.a)
    (hx : aget? (s.dev.part s.args.b).ctx (s.args.a - (s.dev.part s.args.b).cfg.hbase) = some x) (hst : (s.dev.part s.args.b).st ≠ .stopped)
    (hfree : (s.dev.core s.args.a).part = none) (hlost : (s.dev.core s.args.a).lost = false) (ho : s.dev.overlapped s.args.b = false)
    (h : AtHomes s.dev) (hparked : x.parked = []) (hout : x.core.out = []) (huoc : x.core.uoc = [])
    (hslots : ∀ k < 16, (x.core.slot k).pend = [] ∧ (∀ u, (x.core.slot k).wait ≠ .wfi u) ∧ ∀ u, (x.core.slot k).wait ≠ .mbx 63 u) :
    Gives .coreResume s fun t => (t.dev.part s.args.b).st = .resident
      ∧ aget? (t.dev.part s.args.b).ctx (s.args.a - (s.dev.part s.args.b).cfg.hbase) = none ∧ t.dev.mem = s.dev.mem
      ∧ Restored s.dev.mem (blockAt s.dev s.args.b (s.args.a - (s.dev.part s.args.b).cfg.hbase)) s.args.b x.core (s.dev.core s.args.a)
          (t.dev.core s.args.a) := by
  have hrank : (s.dev.part s.args.b).devRank (s.args.a - (s.dev.part s.args.b).cfg.hbase) = s.args.a := Nat.add_sub_cancel' hb
  rw [← hrank] at hfree hlost
  obtain ⟨e, he, hehomes, hmem, hres, hgone, hrestored⟩ := resumeNow_restores h hx hparked hout huoc hslots
  have hflags := flagsOnly_withFlags (before := s.dev) hehomes s.args.b
  refine gives_to (congrArg State.to (if_pos (canResume_atHomes h hx hst hfree hlost ho))) ?_
  rw [State.dev_partChanged]
  change ((s.dev.resumeNow s.args.b _).part s.args.b).st = _ ∧ aget? ((s.dev.resumeNow s.args.b _).part s.args.b).ctx _ = none
    ∧ (s.dev.resumeNow s.args.b _).mem = _ ∧ Restored _ _ _ _ _ ((s.dev.resumeNow s.args.b _).core s.args.a)
  rw [he]
  have hpart : (s.dev.withFlags e s.args.b).part s.args.b = e.part s.args.b := by rw [Dev.part, hflags.parts]; rfl
  rw [hrank] at hrestored
  obtain ⟨f, hf⟩ := hflags.core s.args.a
  exact ⟨by rw [hpart, hres], by rw [hpart, hgone], hflags.memory.trans hmem, hf ▸ hrestored.flags f⟩

/-- A step of a partition's schedule (R78). -/
theorem partitionSchedule_gives {s : State} {P : State → Prop} (h : ∀ t : State, t.dev = s.dev.scheduleNow s.args.a → P t) :
    Gives .partitionSchedule s P := gives_to rfl (h _ (State.dev_partChanged ..))

end Sys2Proof.Claims

namespace Sys2Proof
open Machine Claims

/-- Settles O50: the restored core is what the context block holds, with counter 63 one higher, and the flag copies that are loaded after it change
nothing else; a partition that is scheduled for the first time has blank cores. -/
theorem resumptionAndStart : Obligations.ResumptionAndStart := by
  unfold Obligations.ResumptionAndStart
  refine ⟨fun s c => ?_, fun s => ?_⟩
  · intro p x prank base hw hbase hctx hst hpart hlost hover hhomes hparked hout huoc hslots
    obtain ⟨t, ht, hres, hgone, hmem, hr⟩ := coreResume_resumes hbase hctx hst hpart hlost hover hhomes hparked hout huoc hslots
    refine ⟨t, ht, hr.serves, hr.saving, hr.cycle, hres, hgone, hmem, hr.store, hr.tiles, hr.counters, fun k hk => ?_⟩
    obtain ⟨bad, hlen, sl, hslot, -⟩ := hr.slots k hk
    rw [hslot]
    exact ⟨fun i h1 hi => xr_restoreSlot _ _ _ _ _ _ h1 hi, pc_restoreSlot .., occ_restoreSlot .., fun i hi => seg_restoreSlot _ _ _ _ _ _ hi, fun i hi => vr_restoreSlot _ _ _ _ _ _ hi⟩
  · intro p x
    refine ⟨fun hst hs => ?_, fun hst ho => ?_, fun hst hs ho hhomes hfree => ?_⟩
    · exact partitionSchedule_gives fun t ht => ht.trans (Dev.scheduleNow_unstarted hst hs)
    · refine partitionSchedule_gives fun t ht => ?_
      rw [ht, Dev.scheduleNow_descheduled hst ho]
      exact ⟨Dev.part_modPart .., rfl⟩
    · refine partitionSchedule_gives fun t ht => ?_
      obtain ⟨hpart, hmem, hcores, hothers⟩ := scheduleNow_first hhomes hst hs ho hfree
      rw [ht]
      refine ⟨hpart, hmem, fun i hi => ?_, fun r hr hp => hothers r (Part.not_mem_ranks hr) hp⟩
      obtain ⟨f, hf⟩ := hcores i hi
      rw [hf]
      exact ⟨rfl, rfl, rfl, rfl, rfl, rfl, rfl⟩

end Sys2Proof

namespace Sys2Proof.Claims
open Machine

/-! ### The overflow ring of a core moves up (R101) -/

section
variable {d : Dev} {part rank : Nat} (h : AtHomes d) (hctx : aget? (d.part part).ctx rank = none)
include hctx

theorem rankCore_running : d.rankCore part rank = d.core ((d.part part).devRank rank) := by
  rw [Dev.rankCore, hctx]

theorem modRank_running (f : Core → Core) : d.modRank part rank f = d.modCore ((d.part part).devRank rank) f := by
  rw [Dev.modRank, hctx]

/-- An empty ring stays as it is. -/
theorem ringUp_empty (ho : (d.core ((d.part part).devRank rank)).overflow = []) (n : Nat) : d.ringUp part rank n = d := by
  cases n with
  | zero => rfl
  | succ n => rw [Dev.ringUp, if_pos (by simp [rankCore_running hctx, ho])]

include h

/-- The oldest message of the ring goes up, as a launch of some group: that of the message, or a free value. -/
theorem ringTake_running {m : RingMsg} {rest : List RingMsg} (ho : (d.core ((d.part part).devRank rank)).overflow = m :: rest) :
    ∃ e g, ringTake part rank d = .ok ((), e) ∧ e.parts = d.parts ∧ (∀ o, o ≠ (d.part part).devRank rank → e.core o = d.core o)
      ∧ e.core ((d.part part).devRank rank) = { d.core ((d.part part).devRank rank) with
          inbox := (d.core ((d.part part).devRank rank)).inbox ++ [.launch g], overflow := rest } := by
  obtain ⟨x, e, hread, hcache⟩ := h.agRead ((d.part part).ringAt rank m.entry) 64 part
  have hbad : ((d.rangeHeld ((d.part part).ringAt rank m.entry) 64).isNone && d.rangePoisoned ((d.part part).ringAt rank m.entry) 64) = false := by
    simp [h.rangePoisoned]
  obtain ⟨w, u, hfree, hcores, hparts⟩ : ∃ w u, (if x != m.val then e.free else (BitVec.ofNat 64 m.group, e)) = (w, u)
      ∧ u.cores = d.cores ∧ u.parts = d.parts := by
    obtain ⟨_, _, _, _, _, rfl⟩ := hcache
    split
    · exact ⟨_, _, rfl, rfl, rfl⟩
    · exact ⟨_, _, rfl, rfl, rfl⟩
  have hcore : ∀ o, u.core o = d.core o := fun o => by rw [Dev.core, hcores]; rfl
  have hpart : u.part part = d.part part := by rw [Dev.part, hparts]; rfl
  refine ⟨u.modRank part rank fun c => { c with inbox := c.inbox ++ [.launch (w.toNat % 65536)], overflow := rest },
    w.toNat % 65536, ?_, ?_⟩
  · refine Eng.bind_ok.mpr ⟨d, d, rfl, ?_⟩
    rw [rankCore_running hctx, ho]
    dsimp only
    rw [hbad]
    refine Eng.bind_ok.mpr ⟨x, e, hread, ?_⟩
    simp only [Eng.upd, Bool.false_eq_true, if_false, Bool.false_or, hfree]
  · rw [modRank_running (d := u) (by rw [hpart, hctx]), hpart]
    refine ⟨hparts, fun o hne => (Dev.core_setCore_ne _ _ _ _ hne).trans (hcore o), ?_⟩
    rw [Dev.modCore_eq, Dev.core_setCore, hcore]

/-- The one message of a ring goes up into an inbox that has room. -/
theorem ringUp_one {m : RingMsg} (ho : (d.core ((d.part part).devRank rank)).overflow = [m])
    (hi : (d.core ((d.part part).devRank rank)).inbox.length < 32) (n : Nat) :
    (d.ringUp part rank (n + 1)).parts = d.parts ∧ ((d.ringUp part rank (n + 1)).core ((d.part part).devRank rank)).overflow = []
      ∧ ∀ o, o ≠ (d.part part).devRank rank → (d.ringUp part rank (n + 1)).core o = d.core o := by
  obtain ⟨e, g, hrun, hparts, hothers, hcore⟩ := ringTake_running h hctx ho
  have hpart : e.part part = d.part part := by rw [Dev.part, hparts]; rfl
  have hempty : (e.core ((e.part part).devRank rank)).overflow = [] := by rw [hpart, hcore]
  have hup : d.ringUp part rank (n + 1) = e := by
    rw [Dev.ringUp, if_neg (by simpa [rankCore_running hctx, ho] using hi), hrun]
    exact ringUp_empty (by rw [hpart, hctx]) hempty n
  rw [hup]
  exact ⟨hparts, hpart ▸ hempty, hothers⟩

end

/-- A core that takes a launch of a group without a `.local` image leaves the other cores, and the partition but for its groups, as they are. -/
theorem takeLaunch_other {d : Dev} {part r gid : Nat} {g : Group} (hg : aget? (d.part part).groups gid = some g) (hid : g.id = gid)
    (himg : g.localImg = none) : (∀ o, o ≠ r → (d.takeLaunch part r gid).core o = d.core o)
      ∧ ∃ gs, (d.takeLaunch part r gid).part part = { d.part part with groups := gs } := by
  subst hid
  have hpop : ∀ o, o ≠ r → (d.modCore r fun c => c.popInbox (.launch g.id)).core o = d.core o := fun o hne => Dev.core_setCore_ne _ _ _ _ hne
  rw [Dev.takeLaunch, hg]
  dsimp only
  split
  · split
    · exact ⟨fun _ _ => rfl, _, rfl⟩
    · refine ⟨fun o hne => ?_, _, Dev.part_startTask (d := d.modCore r _) hg himg⟩
      rw [Dev.startTask_noImage (d := d.modCore r _) hg himg]
      exact (Dev.core_setCore_ne _ _ _ _ hne).trans (hpop o hne)
  · exact ⟨fun _ _ => rfl, _, rfl⟩

end Sys2Proof.Claims

namespace Sys2Proof.Claims
open Machine

/-- The step of a core that serves a partition: the ring moves up, the core takes a message, and the ring moves up again. -/
theorem exec_inboxTake {s : State} {r p k : Nat} (hr : s.args.a = r) (hp : (s.dev.core r).part = some p) (hs : (s.dev.core r).saving = false)
    (hk : r - (s.dev.part p).cfg.hbase = k) :
    exec .inboxTake s = State.to { s with dev := ((s.dev.ringUp p k 32).takeFirst p r).ringUp p k 32 } := by
  subst hr hk
  change execInboxTake s = _
  rw [execInboxTake, State.onDev]
  simp only [hp, hs, Bool.false_eq_true, if_false]
  rfl

/-! ### A core that serves a partition from below its interval (R75, R101) -/

/-- A group of one task of one thread. -/
def lowGroup : Group := ⟨1, { parseDesc 0 with tasks := 1, threads := 1 }, Vector.replicate 8 0, none, 0, 0, none, none, 0, none, [], 0, 0⟩
/-- Partition 0 stands on core 1, in whose ring one launch message waits. Core 0, which is no core of its interval, serves it too, and has a launch
message in its inbox. -/
def lowDev : Dev := { Dev.reset with
  cores := [(0, { Core.reset with part := some 0, inbox := [.launch 1] }), (1, { Core.reset with part := some 0, overflow := [⟨1, 0, 0⟩] })]
  parts := [(0, { Part.reset with st := .resident, groups := [(1, lowGroup)], cfg := { PartRec.reset with hbase := 1, hlen := 1 } })] }
def lowState : State := { State.reset with dev := lowDev }

theorem lowDev_homes : AtHomes lowDev := ⟨rfl, by decide, rfl, rfl, ⟨rfl, rfl⟩, rfl⟩

end Sys2Proof.Claims

namespace Sys2Proof.Claims
open Machine

/-- The step of core 0 leaves the ring of core 1, where one message stood, empty. -/
theorem lowDev_ring_emptied : ((((lowDev.ringUp 0 0 32).takeFirst 0 0).ringUp 0 0 32).core 1).overflow = [] := by
  obtain ⟨hparts, hring, hothers⟩ := ringUp_one lowDev_homes (part := 0) (rank := 0) rfl (m := ⟨1, 0, 0⟩) rfl (by decide) 31
  have hpart : (lowDev.ringUp 0 0 32).part 0 = lowDev.part 0 := by rw [Dev.part, hparts]; rfl
  have hinbox : ((lowDev.ringUp 0 0 32).core 0).inbox = [.launch 1] := by rw [hothers 0 (by decide)]; rfl
  have htake : (lowDev.ringUp 0 0 32).takeFirst 0 0 = (lowDev.ringUp 0 0 32).takeLaunch 0 0 1 := by rw [Dev.takeFirst, hinbox]
  obtain ⟨hcores, gs, hpart'⟩ := takeLaunch_other (d := lowDev.ringUp 0 0 32) (r := 0) (gid := 1) (by rw [hpart]; rfl) (rfl : lowGroup.id = 1) rfl
  have hempty : (((lowDev.ringUp 0 0 32).takeLaunch 0 0 1).core 1).overflow = [] := (congrArg Core.overflow (hcores 1 (by decide))).trans hring
  rw [htake, ringUp_empty]
  · exact hempty
  · rw [hpart', hpart]
    rfl
  · rw [hpart', hpart]
    exact hempty

end Sys2Proof.Claims

namespace Sys2Proof
open Machine Claims

/-- Refutes O48: nothing in the statement ties a core that serves a partition to the partition's interval. The core of rank 0 is core 1; the step of
core 0, which lies below the interval and counts as rank 0 too, moves the ring of core 1 up, while the clause for INBOX_TAKE has every other core as
it was. -/
theorem not_messagesAndInboxes : ¬ Obligations.MessagesAndInboxes := by
  unfold Obligations.MessagesAndInboxes
  rintro ⟨-, h⟩
  obtain ⟨hlaunch, -⟩ := h lowState 0 rfl rfl rfl
  have hgives := hlaunch 1 [] lowGroup [0] 0 rfl rfl rfl rfl (by decide +kernel)
  obtain ⟨hstarts, -⟩ := hgives.of_exec (exec_inboxTake (r := 0) (p := 0) (k := 0) rfl rfl rfl rfl)
  have hkept := congrArg Core.overflow (hstarts.cores 1 (by decide))
  have hdev : lowState.dev = lowDev := rfl
  have hring : (lowDev.core 1).overflow = [⟨1, 0, 0⟩] := rfl
  simp only [hdev, hring, lowDev_ring_emptied] at hkept
  cases hkept

end Sys2Proof

namespace Sys2Proof.Machine

/-! ### What a context save writes (R113, R114) -/

/-- A cell of a row of words lies among their bytes. -/
theorem wordCells_bounds {at_ : Nat} {ws : List Word} {c : Nat × Byte} (h : c ∈ wordCells at_ ws) : at_ ≤ c.1 ∧ c.1 < at_ + 8 * ws.length := by
  simp only [wordCells, List.mem_flatMap, List.mem_map, List.mem_range] at h
  obtain ⟨⟨w, i⟩, hw, j, hj, rfl⟩ := h
  have hi := List.snd_lt_of_mem_zipIdx hw
  dsimp only at hi ⊢
  omega

/-- The first byte of a row of words. -/
theorem wordCells_head {at_ : Nat} {w : Word} {ws : List Word} : (at_, w.extractLsb' 0 8) ∈ wordCells at_ (w :: ws) := by
  simp only [wordCells, List.mem_flatMap, List.mem_map, List.mem_range]
  exact ⟨(w, 0), by simp [List.zipIdx_cons], 0, by omega, rfl⟩

/-- It is what each cell of its address says. -/
theorem wordCells_first {at_ : Nat} {w : Word} {ws : List Word} {c : Nat × Byte} (h : c ∈ wordCells at_ (w :: ws)) (hc : c.1 = at_) :
    c.2 = w.extractLsb' 0 8 := by
  simp only [wordCells, List.mem_flatMap, List.mem_map, List.mem_range] at h
  obtain ⟨⟨v, i⟩, hv, j, hj, rfl⟩ := h
  obtain ⟨rfl, rfl⟩ : i = 0 ∧ j = 0 := by
    dsimp only at hc
    omega
  obtain ⟨_, hget⟩ := List.mem_zipIdx hv
  simp_all

/-- The listed bytes of the context block of core `r` at `base`: its local memory, its slot images and its counters. -/
def Dev.contextCells (d : Dev) (r part prank base : Nat) : List (Nat × Byte) :=
  (d.core r).lmem.window 0 0x60000 base ++ (d.core r).lmem.window tileBase 0x40000 (base + 0x60000)
    ++ (List.range 16).flatMap (fun k => (d.slotImage r part prank k).flatMap fun w => wordCells (base + 0xA0000 + 0x1000 * k + w.1) w.2)
    ++ wordCells (base + 0xB1000) ((List.range 32).map fun i => vget (d.core r).counters (2 * i + 1) 0 ++ vget (d.core r).counters (2 * i) 0)

/-- Areas of free values, written one after the other, leave a byte outside them as it is. -/
theorem get_putFree {areas : List (Nat × Nat)} {base x : Nat} (hx : ∀ a ∈ areas, x < base + a.1 ∨ base + a.1 + 8 * (a.2 / 8) ≤ x) (d : Dev)
    (hw : d.mem.wf = true) : (areas.foldl (fun d a =>
      let (cells, d) := d.freeCells (base + a.1) a.2
      { d with mem := d.mem.put cells }) d).mem.get x = d.mem.get x := by
  induction areas generalizing d with
  | nil => rfl
  | cons a areas ih =>
    simp only [List.mem_cons, forall_eq_or_imp] at hx
    rw [List.foldl_cons, ih hx.2 _ (Mem.wf_put _ hw)]
    refine Mem.get_put hw (fun c hc hcx => ?_) (.inr rfl)
    have hb := wordCells_bounds hc
    rw [List.length_map, List.length_range] at hb
    omega

/-- A byte outside the areas of free values is as the listed bytes make it. -/
theorem Dev.get_writeContext {d e : Dev} {r part prank base x : Nat} (hb : (d.part part).ctxAt prank = base) (he : d.settleRange base ctxSize = e)
    (hw : e.mem.wf = true) (hx : ∀ a ∈ ctxOpaque, x < base + a.1 ∨ base + a.1 + 8 * (a.2 / 8) ≤ x) :
    (d.writeContext r part prank).mem.get x
      = ((e.mem.drop fun a => decide (base ≤ a) && ctxWhole (a - base)).put (e.contextCells r part prank base)).get x := by
  rw [Dev.writeContext, hb]
  dsimp only
  rw [he, get_putFree hx _ (Mem.wf_put _ (Mem.wf_drop _ hw))]
  rfl

/-- A slot without a thread has nothing to save. -/
theorem Dev.saveSlot_reset {d : Dev} {r k : Nat} (hd : d.setCore r (d.core r) = d) (hs : d.slot r k = Slot.reset) :
    (d.saveWait r k).dropLease r k true = d := by
  have hcancel : d.cancelWait r k = d := by
    unfold Dev.cancelWait
    rw [hs]
    dsimp only [Slot.reset]
    exact Dev.modSlot_self hd (by rw [hs]; rfl)
  have hwait : d.saveWait r k = d := by
    unfold Dev.saveWait
    rw [hs]
    dsimp only [Slot.reset]
    rw [hcancel]
    exact Dev.modSlot_self hd (by rw [hs]; rfl)
  rw [hwait, Dev.dropLease, hs]
  rfl

/-- A core without threads, tasks and requests only writes its context block. -/
theorem Dev.mem_saveNow_reset {d : Dev} {r part : Nat} (hd : d.setCore r (d.core r) = d) (hs : ∀ k < 16, d.slot r k = Slot.reset)
    (htasks : (d.core r).tasks = []) (huoc : (d.core r).uoc = []) (hstash : (d.core r).stash = []) (hout : (d.core r).out = [])
    (hq : d.homeQ = []) (hbuf : d.obuf = []) :
    (d.saveNow r part).mem = (d.writeContext r part (r - (d.part part).cfg.hbase)).mem := by
  have hslots : (List.range 16).foldl (fun d k => (d.saveWait r k).dropLease r k true) d = d :=
    foldl_fixed fun k hk => Dev.saveSlot_reset hd (hs k (List.mem_range.mp hk))
  have hcore : { d.core r with out := [] } = d.core r := by rw [← hout]
  have hqueues : { d with homeQ := [], obuf := [] } = d := by rw [← hq, ← hbuf]
  unfold Dev.saveNow
  extract_lets prank d1 d2 d3 d4 mine moved tagged agent d5 d6 hw d7 fill d8 c saved d9
  have h1 : d1 = d := hslots
  have h2 : d2 = d := by simp only [d2, h1, htasks, List.foldl_nil]
  have h3 : d3 = d := by simp only [d3, h2, huoc, List.map_nil, List.foldl_nil]
  have h4 : d4 = d := by simp only [d4, h3, hstash, List.foldl_nil]
  have h5 : d5 = d := by simp only [d5, h4, hq, hbuf, List.filter_nil, List.map_nil, hqueues]
  have h6 : d6 = d := by simp only [d6, h5, Dev.modCore_eq, hout, List.filter_nil, hcore, hd]
  have h7 : d7 = d := by simp only [d7, hw, moved, h4, h6, hout, List.filter_nil, List.map_nil, hcore, hd]
  have hd8 : d8 = d.writeContext r part prank := by simp only [d8, h7]
  clear_value d8
  have hmem : d9.mem = d8.mem := rfl
  exact hmem.trans (congrArg Dev.mem hd8)

@[simp] theorem Dev.mem_markDescheduled (d : Dev) (part : Nat) : (d.markDescheduled part).mem = d.mem := by
  unfold Dev.markDescheduled
  dsimp only
  split <;> rfl

/-- The step of an interrupted core that has drained. -/
theorem exec_coreSave {s : State} {r p : Nat} (hr : s.args.a = r) (hp : (s.dev.core r).part = some p) (hlost : (s.dev.core r).lost = false)
    (hsaving : (s.dev.core r).saving = true) (hd : s.dev.setCore r (s.dev.core r) = s.dev) (hdrained : s.dev.drained r = true)
    (hheld : s.dev.spanHeld ((s.dev.part p).ctxAt (r - (s.dev.part p).cfg.hbase)) ctxSize = false) :
    exec .coreSave s = State.to { s with dev := (s.dev.saveNow r p).markDescheduled p } := by
  have hinterrupt : s.dev.modCore r Core.interrupt = s.dev := by rw [Dev.modCore_eq, Core.interrupt, if_pos hsaving, hd]
  subst hr
  change execCoreSave s = _
  rw [execCoreSave, State.onDev]
  simp only [hp, hlost, Bool.false_eq_true, if_false, hinterrupt, hdrained, hheld, Bool.not_false, Bool.and_self, if_true]
  rfl

end Sys2Proof.Machine

namespace Sys2Proof.Claims
open Machine

/-! ### A core that is saved below the interval of its partition (R75, R114) -/

/-- A `satom` of the thread in slot 0 of rank 0 of partition 0, with payload 1. -/
def lowSatom : HomeReq := ⟨1, 0, 0, 0, 0, 0, 0, 0, 0, false, 0, some 0, .satom 0 0 1, 0, .cr, false, false⟩
/-- Partition 0 stands on core 1, which waits for the answer of a `satom`. Core 0, which is no core of its interval, serves the partition too, and is
interrupted and drained. -/
def satomDev : Dev := { Dev.reset with
  cores := [(0, { Core.reset with part := some 0, saving := true }), (1, { Core.reset with part := some 0, out := [(0, ⟨some lowSatom, none, none, none, 1, false⟩)] })]
  parts := [(0, { Part.reset with st := .resident, cfg := { PartRec.reset with hbase := 1, hlen := 1 } })] }
def satomState : State := { State.reset with dev := satomDev }

theorem satomDev_homes : AtHomes satomDev := ⟨rfl, by decide, rfl, rfl, ⟨rfl, rfl⟩, rfl⟩

theorem satomDev_slots : ∀ k < 16, satomDev.slot 0 k = Slot.reset := by
  decide +kernel

/-- The pending record that the image of slot 0 gets: the payload of core 1's `satom`. -/
def satomRecord : Nat × List Word := (0x480, [1, 0, 0, 0, 0, 0, 0, 0])

/-- Of the slot images of core 0, only that record of slot 0 gives its first byte. -/
theorem satomDev_images : satomRecord ∈ (satomDev.settleRange 0 ctxSize).slotImage 0 0 0 0
    ∧ ∀ k < 16, ∀ w ∈ (satomDev.settleRange 0 ctxSize).slotImage 0 0 0 k, w.1 + 8 * w.2.length ≤ 0x1000
      ∧ (k = 0 → w.1 + 8 * w.2.length ≤ 0x480 ∨ 0x480 < w.1 ∨ w = satomRecord) := by
  decide +kernel

/-- The cells of core 0's context block: those of the slot images and of the counters, since its local memory is empty. -/
theorem satomDev_cells {c : Nat × Byte} : c ∈ (satomDev.settleRange 0 ctxSize).contextCells 0 0 0 0
    ↔ (∃ k < 16, ∃ w ∈ (satomDev.settleRange 0 ctxSize).slotImage 0 0 0 k, c ∈ wordCells (0xA0000 + 0x1000 * k + w.1) w.2)
      ∨ c ∈ wordCells 0xB1000 ((List.range 32).map fun i => vget ((satomDev.settleRange 0 ctxSize).core 0).counters (2 * i + 1) 0
        ++ vget ((satomDev.settleRange 0 ctxSize).core 0).counters (2 * i) 0) := by
  have hlmem : ((satomDev.settleRange 0 ctxSize).core 0).lmem = [] := rfl
  simp only [Dev.contextCells, hlmem, Mem.window, List.filter_nil, List.map_nil, List.nil_append, List.mem_append, List.mem_flatMap, List.mem_range,
    Nat.zero_add]

/-- What core 0's save leaves in the first byte of the pending records of slot 0. -/
theorem satomDev_saved : ((satomDev.saveNow 0 0).markDescheduled 0).mem.get 0xA0480 = 1 := by
  obtain ⟨hrec, himages⟩ := satomDev_images
  rw [Dev.mem_markDescheduled, Dev.mem_saveNow_reset rfl satomDev_slots rfl rfl rfl rfl rfl rfl, Dev.get_writeContext (base := 0) rfl rfl rfl (by decide)]
  refine Mem.get_put rfl (fun c hc hx => ?_) (.inl ⟨(0xA0480, 1), satomDev_cells.mpr (.inl ⟨0, by decide, _, hrec, wordCells_head⟩), rfl⟩)
  rcases satomDev_cells.mp hc with ⟨k, hk, w, hw, hcell⟩ | hcell
  · have hbounds := wordCells_bounds hcell
    obtain ⟨hsize, hslot0⟩ := himages k hk w hw
    obtain rfl : k = 0 := by omega
    rcases hslot0 rfl with h | h | rfl
    · omega
    · omega
    · exact wordCells_first hcell hx
  · have hbounds := wordCells_bounds hcell
    omega

end Sys2Proof.Claims

namespace Sys2Proof
open Machine Claims

/-- Refutes O49: nothing in the statement ties a core that serves a partition to the partition's interval. The core of rank 0 is core 1; the save of
core 0, which lies below the interval and counts as rank 0 too, writes the pending `satom` of core 1 into the image of slot 0, where the clause for a
core without outstanding requests has zeros. -/
theorem not_slotOwnersAndSaves : ¬ Obligations.SlotOwnersAndSaves := by
  unfold Obligations.SlotOwnersAndSaves
  rintro ⟨-, h, -⟩
  obtain ⟨-, hsave⟩ := h satomState 0 rfl rfl
  have hgives := hsave rfl rfl rfl rfl rfl rfl rfl rfl satomDev_homes rfl (by decide +kernel)
  obtain ⟨-, -, -, -, -, hslots, -⟩ := hgives.of_exec (exec_coreSave (r := 0) (p := 0) rfl rfl rfl rfl rfl (by decide +kernel) (by decide +kernel))
  obtain ⟨-, -, -, -, hzero, -⟩ := hslots 0 (by decide)
  have hbyte := hzero 0x480 (.inr ⟨by decide, by decide⟩)
  have haddr : blockAt satomDev 0 (0 - (satomDev.part 0).cfg.hbase) = 0 := rfl
  have hdev : satomState.dev = satomDev := rfl
  have hrank : satomState.args.a = 0 := rfl
  simp only [hdev, hrank, haddr, Nat.zero_add, Nat.mul_zero, Nat.add_zero, Nat.reduceAdd, satomDev_saved] at hbyte
  exact absurd hbyte (by decide)

end Sys2Proof

namespace Sys2Proof.Machine

/-! ### Local addresses (R129, R130, R146) -/

/-- A range wholly in tile memory lies at its own offsets (R130). -/
theorem Dev.localAt_tiles {d : Dev} {lo n : Nat} (h : tileBase ≤ lo ∧ lo + n ≤ tileEnd) : d.localAt lo n = .ok lo := by
  simp [Dev.localAt, h]

/-- Any other range of a thread at home is looked up in the scratch and stash of its task. -/
theorem Dev.localAt_home {d : Dev} {lo n : Nat} {t : Task} (hg : d.th.guest = false) (ht : d.task d.cur.1 d.cur.2 = some t)
    (h : ¬(tileBase ≤ lo ∧ lo + n ≤ tileEnd)) :
    d.localAt lo n = if lo + n ≤ t.s + t.t then .ok (t.origin + lo) else raise .segv (BitVec.ofNat 64 lo) := by
  have hout : (decide (tileBase ≤ lo) && decide (lo + n ≤ tileEnd)) = false := by simpa using h
  simp [Dev.localAt, hout, hg, ht]

/-- That of a guest is looked up in its guest scratch, which follows the scratch and stash of the host task (R146). -/
theorem Dev.localAt_guest {d : Dev} {lo n i : Nat} {t : Task} (hg : d.th.guest = true) (ht : d.curCore.hostTask d.cur.2 = some (t, i))
    (h : ¬(tileBase ≤ lo ∧ lo + n ≤ tileEnd)) :
    d.localAt lo n = if lo + n ≤ 8192 then .ok (t.origin + t.s + t.t + 8192 * i + lo) else raise .segv (BitVec.ofNat 64 lo) := by
  have hout : (decide (tileBase ≤ lo) && decide (lo + n ≤ tileEnd)) = false := by simpa using h
  simp [Dev.localAt, hout, hg, ht]

end Sys2Proof.Machine

namespace Sys2Proof
open Machine

/-- Settles O9: the range lies in tile memory, or it is looked up in the window of its thread, at home or as a guest. -/
theorem localOffsets : Obligations.LocalOffsets := by
  unfold Obligations.LocalOffsets
  refine ⟨fun s lo n hlo hhi => Dev.localAt_tiles ⟨hlo, hhi⟩, fun s lo n t hg ht h => ?_, fun s lo n t i hg ht h => ?_⟩
  · have hat := Dev.localAt_home hg ht h
    exact ⟨fun hin => hat.trans (if_pos hin), fun hout => hat.trans (if_neg (Nat.not_le.mpr hout))⟩
  · have hat := Dev.localAt_guest hg ht h
    exact ⟨fun hin => hat.trans (if_pos hin), fun hout => hat.trans (if_neg (Nat.not_le.mpr hout))⟩

end Sys2Proof

namespace Sys2Proof.Machine

/-! ### Stash entries: what their instructions leave (R131, R272, R273) -/

@[simp] theorem Dev.curCore_retire (d : Dev) : d.retire.curCore = d.curCore.setSlot d.cur.2 (Slot.retireTo (link d.th.pc) d.th) := by
  rw [Dev.retire_eq, Dev.curCore, Dev.setSlot_cur, Dev.core_setSlot, Dev.curCore]

/-- A thread without an earlier `fence.rel` is held by none (R196). -/
theorem Dev.relHeld_none {d : Dev} (h : d.th.relMark = none) : d.relHeld = .ok () := by
  simp [Dev.relHeld, h]

/-- The write-buffer entry that writes entry `e` back, whose bytes are local line `i` (R273). -/
def Dev.backEntry (d : Dev) (i : Nat) (e : StashEntry) : WbEntry :=
  { line := e.line, data := d.curCore.lmem.line i, mask := BitVec.allOnes 128, glue := 0, seq := d.accSeq, pg := ⟨e.gva / 65536, e.large⟩,
    part := e.part, home := e.home, srel := none, slots := [d.cur.2], sent := false, wback := true, cls := e.cls, bad := d.curCore.badLmem.contains i }

theorem Dev.writeBack_eq (d : Dev) (i : Nat) (e : StashEntry) :
    d.writeBack i e = d.stamp.modCur fun c => { c with wb := c.wb ++ [d.backEntry i e] } := rfl

/-- An entry that is PLAIN stays so. -/
theorem Dev.unmapEntry_plain {d : Dev} {i : Nat} (h : aget? d.curCore.stash i = none) : d.unmapEntry i = d := by
  rw [Dev.unmapEntry, h]

theorem Dev.unmapEntry_dirty {d : Dev} {i : Nat} {e : StashEntry} (h : aget? d.curCore.stash i = some e) (hs : e.st = .dirty) :
    d.unmapEntry i = (d.writeBack i e).modCur fun c => { c with stash := adel c.stash i } := by
  simp only [Dev.unmapEntry, h, hs]

/-- A CLEAN entry's line stays registered while a write-back of it waits. -/
theorem Dev.unmapEntry_clean {d : Dev} {i : Nat} {e : StashEntry} (h : aget? d.curCore.stash i = some e) (hs : e.st = .clean) :
    d.unmapEntry i = { d with regs := if d.curCore.wb.any fun w => w.wback && w.line == e.line then d.regs else adel d.regs e.line }.modCur
      fun c => { c with stash := adel c.stash i } := by
  simp only [Dev.unmapEntry, h, hs]
  split <;> rfl

theorem Dev.unmapEntry_mapped {d : Dev} {i : Nat} {e : StashEntry} (h : aget? d.curCore.stash i = some e) (hs : e.st = .mapped) :
    d.unmapEntry i = d.modCur fun c => { c with stash := adel c.stash i } := by
  simp only [Dev.unmapEntry, h, hs]

/-- What an instruction on stash entries leaves: its thread, and the bytes of memory and of local memory. -/
structure KeepsBytes (d e : Dev) : Prop where
  cur : e.cur = d.cur
  th : e.th = d.th
  mem : e.mem = d.mem
  lmem : e.curCore.lmem = d.curCore.lmem

theorem KeepsBytes.refl (d : Dev) : KeepsBytes d d := ⟨rfl, rfl, rfl, rfl⟩

theorem KeepsBytes.trans {a b c : Dev} (h : KeepsBytes a b) (k : KeepsBytes b c) : KeepsBytes a c :=
  ⟨k.cur.trans h.cur, k.th.trans h.th, k.mem.trans h.mem, k.lmem.trans h.lmem⟩

@[simp] theorem Dev.curCore_modCur (d : Dev) (f : Core → Core) : (d.modCur f).curCore = f d.curCore := by
  simp [Dev.modCur_eq, Dev.curCore]

theorem keepsBytes_modCur {d : Dev} {f : Core → Core} (hs : (f d.curCore).slots = d.curCore.slots) (hm : (f d.curCore).lmem = d.curCore.lmem) :
    KeepsBytes d (d.modCur f) := by
  have hcore := Dev.curCore_modCur d f
  exact ⟨rfl, by rw [Dev.th, Dev.slot, show (d.modCur f).core (d.modCur f).cur.1 = f d.curCore from hcore, Core.slot, hs]; rfl, rfl, by rw [hcore, hm]⟩

theorem keepsBytes_writeBack (d : Dev) (i : Nat) (e : StashEntry) : KeepsBytes d (d.writeBack i e) := by
  rw [Dev.writeBack_eq]
  exact KeepsBytes.trans (b := d.stamp) ⟨rfl, rfl, rfl, rfl⟩ (keepsBytes_modCur rfl rfl)

theorem keepsBytes_unmapEntry (d : Dev) (i : Nat) : KeepsBytes d (d.unmapEntry i) := by
  cases he : aget? d.curCore.stash i with
  | none => rw [Dev.unmapEntry_plain he]; exact .refl d
  | some e =>
    cases hs : e.st with
    | mapped => rw [Dev.unmapEntry_mapped he hs]; exact keepsBytes_modCur rfl rfl
    | clean =>
      rw [Dev.unmapEntry_clean he hs]
      refine KeepsBytes.trans ?_ (keepsBytes_modCur rfl rfl)
      exact ⟨rfl, rfl, rfl, rfl⟩
    | dirty =>
      rw [Dev.unmapEntry_dirty he hs]
      exact (keepsBytes_writeBack d i e).trans (keepsBytes_modCur rfl rfl)

/-- An entry that is unmapped is PLAIN, and every other entry is as before. -/
theorem Dev.stash_unmapEntry (d : Dev) (i : Nat) : aget? (d.unmapEntry i).curCore.stash i = none
    ∧ ∀ j, j ≠ i → aget? (d.unmapEntry i).curCore.stash j = aget? d.curCore.stash j := by
  cases he : aget? d.curCore.stash i with
  | none => rw [Dev.unmapEntry_plain he]; exact ⟨he, fun _ _ => rfl⟩
  | some e =>
    have hstash : (d.unmapEntry i).curCore.stash = adel d.curCore.stash i := by
      cases hs : e.st with
      | mapped => rw [Dev.unmapEntry_mapped he hs, Dev.curCore_modCur]
      | clean => rw [Dev.unmapEntry_clean he hs, Dev.curCore_modCur]; rfl
      | dirty => rw [Dev.unmapEntry_dirty he hs, Dev.curCore_modCur, Dev.writeBack_eq, Dev.curCore_modCur]; rfl
    rw [hstash]
    exact ⟨aget?_adel_same .., fun j hj => aget?_adel_ne _ _ _ hj⟩

/-- `sunmap` with room in the write buffer. -/
theorem Dev.sunmapNow_ok {d : Dev} (i : Nat) (hr : d.th.relMark = none) (hw : d.curCore.wb.length < 32) :
    d.sunmapNow i = .ok (d.unmapEntry i).retire := by
  have hfree : d.wbFree d.cur.1 (d.dirtyAt i) = true := by
    have : d.dirtyAt i ≤ 1 := by unfold Dev.dirtyAt; split <;> omega
    have hlen : (d.core d.cur.1).wb.length < 32 := hw
    rw [Dev.wbFree, decide_eq_true_eq]
    omega
  rw [Dev.sunmapNow, Dev.relHeld_none hr]
  exact if_pos hfree

end Sys2Proof.Machine

namespace Sys2Proof.Claims
open Machine

/-- An instruction that leaves its thread and the bytes of memory goes on in sequence, and so does its thread alone. -/
theorem retire_keeps {s : State} {e : Dev} (h : KeepsBytes s.dev e) (hk : s.dev.cur.2 < 16) :
    InSequence s { s with dev := e.retire } ∧ e.retire.curCore.lmem = s.dev.curCore.lmem ∧ e.retire.mem = s.dev.mem
      ∧ flowOf s.dev.th e.retire.th = s.dev.th := by
  have hth : e.retire.th = Slot.retireTo (link s.dev.th.pc) s.dev.th := by
    rw [Dev.retire_eq, Dev.th_setSlot _ _ (h.cur ▸ hk), h.th]
  refine ⟨?_, by rw [Dev.curCore_retire]; exact h.lmem, h.mem, by rw [hth]; rfl⟩
  unfold InSequence GoesOn
  dsimp only
  rw [hth]
  exact ⟨rfl, rfl, rfl⟩

/-- The effect of `sunmap` on an entry with a state: a DIRTY one is written back; a CLEAN one is deregistered, unless its write-back waits. -/
theorem unmapEntry_effect {s : State} {t : State} {i : Nat} {e : StashEntry} (he : aget? s.dev.curCore.stash i = some e)
    (ht : t.dev = (s.dev.unmapEntry i).retire) :
    (e.st = .dirty → WrittenBack s t i e) ∧ (e.st = .clean → t.dev.curCore.wb = s.dev.curCore.wb
      ∧ ((∀ w ∈ s.dev.curCore.wb, w.wback = true → w.line ≠ e.line) → aget? t.dev.regs e.line = none)
      ∧ ∀ w ∈ s.dev.curCore.wb, w.wback = true → w.line = e.line → t.dev.regs = s.dev.regs) := by
  refine ⟨fun hs => ⟨s.dev.backEntry i e, ?_, rfl, rfl, rfl, rfl⟩, fun hs => ?_⟩
  · rw [ht, Dev.unmapEntry_dirty he hs, Dev.curCore_retire, Dev.curCore_modCur, Dev.writeBack_eq, Dev.curCore_modCur]
    rfl
  · have hregs : t.dev.regs = if s.dev.curCore.wb.any (fun w => w.wback && w.line == e.line) then s.dev.regs else adel s.dev.regs e.line := by
      rw [ht, Dev.unmapEntry_clean he hs]
      rfl
    refine ⟨by rw [ht, Dev.unmapEntry_clean he hs, Dev.curCore_retire, Dev.curCore_modCur]; rfl, fun hnone => ?_, fun w hw hback hline => ?_⟩
    · rw [hregs, if_neg]
      · exact aget?_adel_same ..
      · simpa using hnone
    · rw [hregs, if_pos]
      exact List.any_eq_true.mpr ⟨w, hw, by simp [hback, hline]⟩

section
variable {s : State} {rd : RegNo} {i : Nat}

theorem exec_sunmap (hready : Ready { rx := [rd] } s) (hn : NamesEntry s rd i) (hw : s.dev.curCore.wb.length < 32) :
    exec (.sunmap rd) s = .next { s with dev := (s.dev.unmapEntry i).retire } := by
  obtain ⟨hentry, hrel⟩ := hn
  refine State.thread_ok hready.2.1 hready.2.2 ?_
  rw [hentry]
  exact Dev.sunmapNow_ok i hrel hw

/-- `sflush` of an entry that is not DIRTY has no effect. -/
theorem exec_sflush_idle (hready : Ready { rx := [rd] } s) (hn : NamesEntry s rd i) (hs : ∀ e, aget? s.dev.curCore.stash i = some e → e.st ≠ .dirty) :
    exec (.sflush rd) s = .next { s with dev := s.dev.retire } := by
  obtain ⟨hentry, hrel⟩ := hn
  refine State.thread_ok hready.2.1 hready.2.2 ?_
  rw [hentry]
  simp only [bind, Except.bind, Dev.relHeld_none hrel]
  cases he : aget? s.dev.curCore.stash i with
  | none => rfl
  | some e => exact if_neg (hs e he)

/-- The device after the write-back of a DIRTY entry, which is CLEAN then. -/
def flushed (d : Dev) (i : Nat) (e : StashEntry) : Dev := (d.writeBack i e).modCur fun c => { c with stash := aset c.stash i { e with st := .clean } }

theorem exec_sflush_dirty {e : StashEntry} (hready : Ready { rx := [rd] } s) (hn : NamesEntry s rd i) (hw : s.dev.curCore.wb.length < 32)
    (he : aget? s.dev.curCore.stash i = some e) (hs : e.st = .dirty) :
    exec (.sflush rd) s = .next { s with dev := (flushed s.dev i e).retire } := by
  obtain ⟨hentry, hrel⟩ := hn
  refine State.thread_ok hready.2.1 hready.2.2 ?_
  rw [hentry]
  simp only [bind, Except.bind, Dev.relHeld_none hrel, he]
  exact (if_pos hs).trans (if_pos (decide_eq_true (Nat.succ_le_of_lt hw)))

end

end Sys2Proof.Claims
namespace Sys2Proof.Machine

/-- Two instructions that both pass the checks of the frame, and whose bodies act alike, have one outcome. -/
theorem State.thread_congr {use use' : RegUse} {body body' : Dev → Chk Dev} {s : State} (hl : s.dev.th.laheadHit use = false)
    (hp : s.dev.th.parityHit use = false) (hl' : s.dev.th.laheadHit use' = false) (hp' : s.dev.th.parityHit use' = false)
    (hb : body s.dev = body' s.dev) : s.thread use body = s.thread use' body' := by
  simp [State.thread, State.onDev, Dev.runThread, hl, hp, hl', hp', hb]

/-- An instruction that reads fewer registers meets no window that one with more of them does not meet. -/
theorem Slot.laheadHit_first {a : Slot} {r q : RegNo} {g : SegNo} (h : a.laheadHit { rx := [r, q], rs := [g] } = false) :
    a.laheadHit { rx := [r] } = false := by
  rw [Slot.laheadHit, List.any_eq_false] at h ⊢
  intro w hw hhit
  refine h w hw ?_
  simp only [Bool.and_eq_true, List.any_eq_true] at hhit ⊢
  obtain ⟨hleft, x, hx, hm⟩ := hhit
  refine ⟨hleft, x, hx, ?_⟩
  cases x with
  | x n =>
    simp only [List.contains_cons, List.contains_nil, Bool.or_false] at hm ⊢
    rw [hm, Bool.true_or]
  | v n => exact hm
  | cr n => exact hm

/-- Nor a bad register. -/
theorem Slot.parityHit_first {a : Slot} {r q : RegNo} {g : SegNo} (h : a.parityHit { rx := [r, q], rs := [g] } = false) :
    a.parityHit { rx := [r] } = false := by
  simp only [Slot.parityHit, List.any_cons, List.any_nil, Bool.or_false, Bool.or_eq_false_iff] at h ⊢
  exact h.1.1

/-- The entry that `smap` makes for the line at `gva`, translated to `t`. -/
def Dev.mappedEntry (d : Dev) (gva : Nat) (t : Trans) : StashEntry :=
  ⟨.mapped, gva, t.pa / 128, !leafWr t.leaf || t.twin, d.th.part, t.large, leafClass t.leaf, homeSlice t.leaf t.pa⟩

end Sys2Proof.Machine

namespace Sys2Proof.Claims
open Machine

section
variable {s : State} {rd ra : RegNo} {sg : SegNo} {i : Nat} (hready : Ready { rx := [rd, ra], rs := [sg] } s)
include hready

/-- Through an L-right segment `smap` acts as `sunmap` (R272). -/
theorem exec_smap_local (hl : segL (s.dev.th.seg sg) = true) : exec (.smap rd ra sg) s = exec (.sunmap rd) s := by
  refine State.thread_congr hready.2.1 hready.2.2 (Slot.laheadHit_first hready.2.1) (Slot.parityHit_first hready.2.2) ?_
  exact congrArg (Except.bind (s.dev.stashEntry (s.dev.x rd))) (funext fun i => if_pos hl)

/-- An `smap` that passes every check, on a core without entries. -/
theorem exec_smap_global {gva : Nat} {tr : Trans} (hn : NamesEntry s rd i) (hstash : s.dev.curCore.stash = []) (hw : s.dev.curCore.wb.length ≤ 32)
    (hl : segL (s.dev.th.seg sg) = false) (hseg : segCheck (s.dev.th.seg sg) (s.dev.x ra) 128 { r := true } = .ok gva) (ha : gva % 128 = 0)
    (ht : s.dev.translate { read := true, user := !s.dev.th.mode, twinOk := true } gva = .ok tr)
    (hlease : s.dev.th.lease.any (·.line == tr.pa / 128) = false) :
    exec (.smap rd ra sg) s = .next { s with dev := (s.dev.modCur fun c => { c with stash := aset c.stash i (s.dev.mappedEntry gva tr) }).retire } := by
  obtain ⟨hentry, hrel⟩ := hn
  have hplain : aget? s.dev.curCore.stash i = none := by rw [hstash]; rfl
  have haligned : ensure (gva % 128 == 0) .misalign (BitVec.ofNat 64 gva) = .ok () := by simp [ensure, ha]
  have hfree : s.dev.notLeased (tr.pa / 128) gva = .ok () := by simp [Dev.notLeased, ensure, hlease]
  have hroom : s.dev.wbFree s.dev.cur.1 0 = true := decide_eq_true hw
  refine State.thread_ok hready.2.1 hready.2.2 ?_
  simp only [hentry, bind, Except.bind, hl, Bool.false_eq_true, if_false, hseg, haligned, Dev.user, ht, hfree, Option.any_none,
    Dev.relHeld_none hrel, hstash, List.find?_nil, Option.map_none, Dev.dirtyAt, Dev.unmapEntry_plain hplain, aget?, Nat.add_zero, hroom,
    Bool.not_true]
  rfl

end

/-- `sunmap` of a named entry (R273). -/
theorem sunmap_gives {s : State} {rd : RegNo} {i : Nat} (hready : Ready { rx := [rd] } s) (hn : NamesEntry s rd i)
    (hw : s.dev.curCore.wb.length < 32) : Gives (.sunmap rd) s fun t => InSequence s t ∧ aget? t.dev.curCore.stash i = none
      ∧ t.dev.curCore.lmem = s.dev.curCore.lmem ∧ t.dev.mem = s.dev.mem
      ∧ (∀ j, j ≠ i → aget? t.dev.curCore.stash j = aget? s.dev.curCore.stash j) ∧ flowOf s.dev.th t.dev.th = s.dev.th
      ∧ ∀ e, aget? s.dev.curCore.stash i = some e →
        (e.st = .dirty → WrittenBack s t i e) ∧ (e.st = .clean → t.dev.curCore.wb = s.dev.curCore.wb
          ∧ ((∀ w ∈ s.dev.curCore.wb, w.wback = true → w.line ≠ e.line) → aget? t.dev.regs e.line = none)
          ∧ ∀ w ∈ s.dev.curCore.wb, w.wback = true → w.line = e.line → t.dev.regs = s.dev.regs) := by
  obtain ⟨hseq, hlmem, hmem, hflow⟩ := retire_keeps (keepsBytes_unmapEntry s.dev i) hready.1
  obtain ⟨hgone, hothers⟩ := Dev.stash_unmapEntry s.dev i
  have hstash : (s.dev.unmapEntry i).retire.curCore.stash = (s.dev.unmapEntry i).curCore.stash := by rw [Dev.curCore_retire]; rfl
  refine ⟨_, exec_sunmap hready hn hw, hseq, ?_, hlmem, hmem, fun j hj => ?_, hflow, fun e he => unmapEntry_effect he rfl⟩
  · exact (congrArg (aget? · i) hstash).trans hgone
  · exact (congrArg (aget? · j) hstash).trans (hothers j hj)

/-- `sflush` of a named entry (R273). -/
theorem sflush_gives {s : State} {rd : RegNo} {i : Nat} (hready : Ready { rx := [rd] } s) (hn : NamesEntry s rd i)
    (hw : s.dev.curCore.wb.length < 32) : Gives (.sflush rd) s fun t => InSequence s t ∧ t.dev.curCore.lmem = s.dev.curCore.lmem
      ∧ t.dev.mem = s.dev.mem ∧ flowOf s.dev.th t.dev.th = s.dev.th
      ∧ (∀ j, j ≠ i → aget? t.dev.curCore.stash j = aget? s.dev.curCore.stash j)
      ∧ ∀ e, aget? s.dev.curCore.stash i = some e →
        (e.st = .dirty → WrittenBack s t i e ∧ aget? t.dev.curCore.stash i = some { e with st := .clean })
        ∧ (e.st ≠ .dirty → aget? t.dev.curCore.stash i = some e ∧ t.dev.curCore.wb = s.dev.curCore.wb) := by
  by_cases hd : ∃ e, aget? s.dev.curCore.stash i = some e ∧ e.st = .dirty
  · obtain ⟨e, he, hs⟩ := hd
    obtain ⟨hseq, hlmem, hmem, hflow⟩ := retire_keeps (e := flushed s.dev i e)
      ((keepsBytes_writeBack s.dev i e).trans (keepsBytes_modCur rfl rfl)) hready.1
    have hcore : (flushed s.dev i e).curCore = { s.dev.curCore with
        wb := s.dev.curCore.wb ++ [s.dev.backEntry i e], stash := aset s.dev.curCore.stash i { e with st := .clean } } := by
      rw [flushed, Dev.curCore_modCur, Dev.writeBack_eq, Dev.curCore_modCur]
      rfl
    have hstash : (flushed s.dev i e).retire.curCore.stash = aset s.dev.curCore.stash i { e with st := .clean } := by
      rw [Dev.curCore_retire, hcore]
      rfl
    have hwb : (flushed s.dev i e).retire.curCore.wb = s.dev.curCore.wb ++ [s.dev.backEntry i e] := by
      rw [Dev.curCore_retire, hcore]
      rfl
    refine ⟨_, exec_sflush_dirty hready hn hw he hs, hseq, hlmem, hmem, hflow, fun j hj => ?_, fun e' he' => ?_⟩
    · exact (congrArg (aget? · j) hstash).trans (aget?_aset_ne _ _ _ _ hj)
    · obtain rfl := Option.some.inj (he.symm.trans he')
      exact ⟨fun _ => ⟨⟨_, hwb, rfl, rfl, rfl, rfl⟩, (congrArg (aget? · i) hstash).trans (aget?_aset_same ..)⟩, fun hne => absurd hs hne⟩
  · have hidle : ∀ e, aget? s.dev.curCore.stash i = some e → e.st ≠ .dirty := fun e he hs => hd ⟨e, he, hs⟩
    obtain ⟨hseq, hlmem, hmem, hflow⟩ := retire_keeps (KeepsBytes.refl s.dev) hready.1
    have hcore : s.dev.retire.curCore.stash = s.dev.curCore.stash ∧ s.dev.retire.curCore.wb = s.dev.curCore.wb := by
      rw [Dev.curCore_retire]
      exact ⟨rfl, rfl⟩
    refine ⟨_, exec_sflush_idle hready hn hidle, hseq, hlmem, hmem, hflow, fun j _ => congrArg (aget? · j) hcore.1, fun e he => ?_⟩
    exact ⟨fun hs => absurd hs (hidle e he), fun _ => ⟨(congrArg (aget? · i) hcore.1).trans he, hcore.2⟩⟩

/-- `smap` of a PLAIN entry to a global line, whose bytes do not arrive yet (R272). -/
theorem smap_gives {s : State} {rd ra : RegNo} {sg : SegNo} {i gva : Nat} {tr : Trans} (hready : Ready { rx := [rd, ra], rs := [sg] } s)
    (hn : NamesEntry s rd i) (hstash : s.dev.curCore.stash = []) (hw : s.dev.curCore.wb.length ≤ 32)
    (hl : segL (s.dev.th.seg sg) = false) (hseg : segCheck (s.dev.th.seg sg) (s.dev.x ra) 128 { r := true } = .ok gva) (ha : gva % 128 = 0)
    (ht : s.dev.translate { read := true, user := !s.dev.th.mode, twinOk := true } gva = .ok tr)
    (hlease : s.dev.th.lease.any (·.line == tr.pa / 128) = false) :
    Gives (.smap rd ra sg) s fun t => InSequence s t ∧ t.dev.mem = s.dev.mem ∧ t.dev.curCore.lmem = s.dev.curCore.lmem
      ∧ t.dev.curCore.stash = [(i, s.dev.mappedEntry gva tr)] ∧ flowOf s.dev.th t.dev.th = s.dev.th := by
  obtain ⟨hseq, hlmem, hmem, hflow⟩ := retire_keeps (s := s)
    (keepsBytes_modCur (f := fun c => { c with stash := aset c.stash i (s.dev.mappedEntry gva tr) }) rfl rfl) hready.1
  refine ⟨_, exec_smap_global hready hn hstash hw hl hseg ha ht hlease, hseq, hmem, hlmem, ?_, hflow⟩
  dsimp only
  rw [Dev.curCore_retire, Dev.curCore_modCur]
  exact congrArg (aset · i _) hstash

end Sys2Proof.Claims
namespace Sys2Proof.Machine

/-! ### A line that is registered to a stash entry (R131-R133) -/

/-- A core whose write buffer is empty has nothing to write back. -/
theorem Dev.settleBack_none {d : Dev} {r : Nat} (line : Nat) (h : (d.core r).wb = []) : d.settleBack r line = d := by
  simp [Dev.settleBack, h]

/-- Nothing stands before an access to a registered line without write-backs and update-only copies. -/
theorem Dev.prepare_registered {d : Dev} {line r i : Nat} (hreg : aget? d.regs line = some (r, i)) (hwb : (d.core r).wb = [])
    (huoc : d.hasUoc line = false) : d.prepare line = d := by
  simp only [Dev.prepare, hreg, Dev.settleBack_none line hwb, huoc, Bool.false_eq_true, if_false]

/-- No return of an update-only copy of a line is on its way. -/
theorem Dev.backsOf_eq_nil {d : Dev} {line : Nat} : d.backsOf line = [] ↔ ∀ o ∈ d.homeQ, ∀ u, o.kind = .uocBack u → o.line ≠ line := by
  rw [Dev.backsOf, List.filterMap_eq_nil_iff]
  refine forall₂_congr fun o _ => ?_
  cases o.kind <;> simp

/-- The requests that a service passes are the same requests, but for their counts of it. -/
theorem Dev.hasUoc_countPassed (d : Dev) (q : HomeReq) {line : Nat} (h : d.hasUoc line = false) : (d.countPassed q).hasUoc line = false := by
  rw [Dev.hasUoc, Bool.or_eq_false_iff, Bool.not_eq_false', List.isEmpty_iff, Dev.backsOf_eq_nil] at h ⊢
  refine ⟨h.1, fun o ho => ?_⟩
  obtain ⟨p, hp, rfl⟩ := List.mem_map.mp ho
  have hp := h.2 p hp
  split <;> exact hp

/-- A recall of a registered line (R133): the entry is MAPPED and the line deregistered; the bytes of a DIRTY entry go home. -/
theorem Dev.recallStash_registered {d : Dev} {line r i : Nat} {e : StashEntry} (hreg : aget? d.regs line = some (r, i)) (hwb : (d.core r).wb = [])
    (he : aget? (d.core r).stash i = some e) (hl : e.line = line) (hs : e.st ≠ .mapped) :
    ∃ g m p, CacheOnly d g ∧ d.recallStash line = ({ g with mem := m, poison := p, regs := adel g.regs line } : Dev).modCore r
        (fun c => { c with stash := aset c.stash i { e with st := .mapped } })
      ∧ (e.st = .clean → m = d.mem) ∧ (e.st = .dirty → m = d.mem.setLine line ((d.core r).stashLine i)) := by
  have hentry : (decide (e.line = line) && e.st != .mapped) = true := by simp [hl, hs]
  rw [Dev.recallStash, hreg]
  dsimp only
  rw [Dev.settleBack_none line hwb, he]
  dsimp only
  rw [if_pos hentry]
  cases hst : e.st with
  | mapped => exact absurd hst hs
  | clean => exact ⟨d, d.mem, d.poison, .same d, rfl, fun _ => rfl, fun h => by cases h⟩
  | dirty =>
    have hcache := Dev.touch_cache d line e.home e.part e.cls ⟨e.gva / 65536, e.large⟩ true
    generalize d.touch line e.home e.part e.cls ⟨e.gva / 65536, e.large⟩ true = g at hcache
    refine ⟨g, g.mem.setLine line ((d.core r).stashLine i),
      if (d.core r).badLmem.contains i && !g.poison.contains line then g.poison ++ [line] else g.poison, hcache, ?_, (by cases ·), fun _ => ?_⟩
    · rw [if_pos (beq_self_eq_true _)]
    obtain ⟨v, w, x, y, z, rfl⟩ := hcache
    rfl

/-! ### Requests that a home serves (R175, R274) -/

/-- Without buffered invocations a line's ordered counter lets none in. -/
theorem Dev.letIn_none {d : Dev} (line : Nat) (h : d.obuf = []) : d.letIn line = d := by
  simp [Dev.letIn, h]

/-- Where the only invocation that waits for a line is the one served next, none has to be admitted. -/
theorem Dev.readyLine_none {d : Dev} {line : Nat} (hbuf : d.obuf = [])
    (hq : ∀ o ∈ d.homeQ, o.line = line → o.kind.isSatom = true → d.nextReq line = some o) : d.readyLine line = d := by
  have hnone : (d.homeQ.filter fun q => q.line == line && q.kind.isSatom && d.nextReq line != some q) = [] := by
    refine List.filter_eq_nil_iff.mpr fun o ho => ?_
    intro hwait
    simp only [Bool.and_eq_true, beq_iff_eq, bne_iff_ne] at hwait
    exact hwait.2 (hq o ho hwait.1.1 hwait.1.2)
  rw [Dev.readyLine, Dev.letIn_none line hbuf, Dev.admitLine, hnone]
  rfl

/-- A request whose core is not saved is answered at its own core. -/
theorem Dev.modReqCore_running {d : Dev} {q : HomeReq} (hctx : aget? (d.part q.part).ctx q.prank = none) (hr : (d.part q.part).devRank q.prank = q.rank)
    (f : Core → Core) : d.modReqCore q f = d.modCore q.rank f := by
  simp only [Dev.modReqCore, hctx, hr]

theorem Dev.core_recordTag (d : Dev) (recv rank seq : Nat) (result : Word) (flags : BitVec 6) (c : Nat) :
    (d.recordTag recv rank seq result flags).core c = d.core c := rfl

/-- What the home leaves when it has answered (R274): the request is gone, and beside tags nothing else changes. -/
structure AnsweredTo (q : HomeReq) (d e : Dev) : Prop where
  homeQ : e.homeQ = d.homeQ.filter (· != q)
  obuf : e.obuf = d.obuf.filter (!·.req.sameTag q)
  mem : e.mem = d.mem
  regs : e.regs = d.regs
  core : ∀ c, (e.core c).l1d = (d.core c).l1d ∧ (e.core c).slots = (d.core c).slots

theorem answeredTo_served {d : Dev} {q : HomeReq} (result : Word) (flags : BitVec 6) (hctx : aget? (d.part q.part).ctx q.prank = none)
    (hr : (d.part q.part).devRank q.prank = q.rank) : AnsweredTo q d (d.served q result flags) := by
  unfold Dev.served
  extract_lets u
  split
  next t _ =>
    rw [Dev.modReqCore_running (d := u) hctx hr]
    refine ⟨rfl, rfl, rfl, rfl, fun c => ?_⟩
    rw [Dev.core_recordTag, show d.core c = u.core c from rfl]
    by_cases hc : c = q.rank
    · rw [hc, Dev.modCore_eq, Dev.core_setCore]
      exact ⟨rfl, rfl⟩
    · rw [Dev.modCore_eq, Dev.core_setCore_ne _ _ _ _ hc]
      exact ⟨rfl, rfl⟩
  next => exact ⟨rfl, rfl, rfl, rfl, fun c => ⟨rfl, rfl⟩⟩

theorem AnsweredTo.slot {q : HomeReq} {d e : Dev} (h : AnsweredTo q d e) (c k : Nat) : e.slot c k = d.slot c k :=
  congrArg (vget · k Slot.reset) (h.core c).2

theorem maskBits_zero (n : Nat) : maskBits 0 n = 0 := by
  induction n with
  | zero => rfl
  | succ n ih => rw [maskBits, ih, if_neg (by simp)]

/-- No byte of a line is overlaid under an empty mask. -/
theorem lineMerge_none (old new : Line) : lineMerge old new 0 = old := by
  have hones : ~~~(0 : Line) = BitVec.allOnes 1024 := BitVec.not_zero
  rw [lineMerge, maskBits_zero]
  change old &&& ~~~(0 : Line) ||| new &&& (0 : Line) = old
  rw [hones, BitVec.and_allOnes]
  exact (congrArg (old ||| ·) BitVec.and_zero).trans BitVec.or_zero

/-- The value of a load's part in a registered entry (R132), and what the home does with it. -/
theorem Dev.serveLoad_registered {d : Dev} {q : HomeReq} {r i : Nat} (pid off size dst : Nat) (hreg : aget? d.regs q.line = some (r, i))
    (hwb : (d.core r).wb = []) (huoc : d.hasUoc q.line = false) (hown : (d.core q.rank).wb = []) (hgood : d.poisoned q.line = false) :
    d.serveLoad q pid off size dst false = ((d.touch q.line q.home q.part q.cls q.pg false).modReq q
      fun s => s.modPend pid (Pending.answer dst size (lineNat ((d.core r).lmem.line i) off size))).served q 0 := by
  obtain ⟨v, w, x, y, z, htouch⟩ := Dev.touch_cache d q.line q.home q.part q.cls q.pg false
  have hview : (d.core q.rank).wbView q.slot q.line q.seq = (0, 0) := by simp [Core.wbView, hown]
  rw [Dev.serveLoad, Dev.prepare_registered hreg hwb huoc, htouch]
  have hgood' : ({ d with llc := v, lru := w, lpFills := x, shadow := y, shadowHits := z } : Dev).poisoned q.line = false := hgood
  have hnow : ({ d with llc := v, lru := w, lpFills := x, shadow := y, shadowHits := z } : Dev).lineNow q.line = (d.core r).lmem.line i := by
    rw [Dev.lineNow, show ({ d with llc := v, lru := w, lpFills := x, shadow := y, shadowHits := z } : Dev).regs = d.regs from rfl, hreg]
    rfl
  have hview' : (({ d with llc := v, lru := w, lpFills := x, shadow := y, shadowHits := z } : Dev).core q.rank).wbView q.slot q.line q.seq = (0, 0) := hview
  have hsome : (aget? ({ d with llc := v, lru := w, lpFills := x, shadow := y, shadowHits := z } : Dev).regs q.line).isSome = true := by
    rw [show ({ d with llc := v, lru := w, lpFills := x, shadow := y, shadowHits := z } : Dev).regs = d.regs from rfl, hreg]
    rfl
  simp only [hgood', Bool.false_eq_true, if_false, hnow, hview', lineMerge_none, hsome, if_true]
  rfl

end Sys2Proof.Machine
namespace Sys2Proof.Claims
open Machine

/-- The step of a home with a registered line, for a lease that waits (R133). -/
theorem exec_stashRecall {s : State} {q : HomeReq} {rd : RegNo} {len : Nat} (hq : q ∈ s.dev.homeQ) (hl : q.line = s.args.a) (hk : q.kind = .lease rd len) :
    exec .stashRecall s = .next { s with dev := s.dev.recallStash q.line } := by
  have hany : (s.dev.homeQ.any fun o => o.line == s.args.a && o.kind.recalls) = true :=
    List.any_eq_true.mpr ⟨q, hq, by rw [hl, hk]; simp [ReqKind.recalls]⟩
  rw [hl]
  exact congrArg (fun d => Host.Outcome.next { s with dev := d }) (if_pos hany)

/-- What a recall leaves (R133). -/
theorem stashRecall_gives {s : State} {q : HomeReq} {r i : Nat} {e : StashEntry} (hq : q ∈ s.dev.homeQ) (hl : q.line = s.args.a)
    (hk : ∃ rd len, q.kind = .lease rd len) (hreg : aget? s.dev.regs q.line = some (r, i)) (hwb : (s.dev.core r).wb = [])
    (he : aget? (s.dev.core r).stash i = some e) (hline : e.line = q.line) (hs : e.st ≠ .mapped) (hw : s.dev.mem.wf = true) :
    Gives .stashRecall s fun t => aget? t.dev.regs q.line = none ∧ aget? (t.dev.core r).stash i = some { e with st := .mapped }
      ∧ (t.dev.core r).lmem = (s.dev.core r).lmem ∧ t.dev.homeQ = s.dev.homeQ
      ∧ (e.st = .clean → t.dev.mem = s.dev.mem)
      ∧ (e.st = .dirty → t.dev.mem.line q.line = (s.dev.core r).lmem.line i
        ∧ ∀ a, (a < 128 * q.line ∨ 128 * q.line + 128 ≤ a) → t.dev.mem.get a = s.dev.mem.get a) := by
  obtain ⟨rd, len, hk⟩ := hk
  obtain ⟨g, m, p, hcache, hrecall, hclean, hdirty⟩ := Dev.recallStash_registered hreg hwb he hline hs
  refine ⟨_, exec_stashRecall hq hl hk, ?_⟩
  dsimp only
  rw [hrecall, Dev.modCore_eq, Dev.core_setCore]
  obtain ⟨_, _, _, _, _, rfl⟩ := hcache
  refine ⟨aget?_adel_same .., aget?_aset_same .., rfl, rfl, hclean, fun hst => ?_⟩
  rw [Dev.setCore_mem]
  dsimp only
  rw [hdirty hst, Mem.line_setLine _ _ hw]
  exact ⟨rfl, fun a ha => Mem.get_setLine_outside _ _ _ hw ha⟩

section
variable {s : State} {q : HomeReq} {pid off n dst : Nat} (hk : q.kind = .load pid off n dst false) (hl : q.line = s.args.a)
  (hnext : s.dev.nextReq q.line = some q) (hwin : s.dev.tagWin = []) (hbuf : s.dev.obuf = [])
  (hsatom : ∀ o ∈ s.dev.homeQ, o.line = q.line → o ≠ q → o.kind.isSatom = false) {r i : Nat} (hreg : aget? s.dev.regs q.line = some (r, i))
include hk hl hnext hwin hbuf hsatom hreg

/-- The step of a home whose next request is a load of a registered line. -/
theorem exec_forwardedAccess : exec .forwardedAccess s =
    .next { s with dev := ((s.dev.countPassed q).serveLoad q pid off n dst false).letIn q.line } := by
  have hready : s.dev.readyLine q.line = s.dev := by
    refine Dev.readyLine_none hbuf fun o ho hline hso => ?_
    by_cases hoq : o = q
    · rw [hoq, hnext]
    · rw [hsatom o ho hline hoq] at hso
      cases hso
  have hwant : (s.dev.reqClass q == 1) = true := by simp [Dev.reqClass, hk, hreg]
  have hfresh : s.dev.replayed q = none := by
    rw [Dev.replayed]
    split
    · rfl
    · rw [Dev.tagSeen, hwin]; rfl
  have hserve : s.dev.serveReq q .none = ((s.dev.countPassed q).serveLoad q pid off n dst false).letIn q.line := by
    simp only [Dev.serveReq, Dev.recordHeld, hk, ReqKind.isSatom, Bool.false_and, Bool.false_eq_true, if_false, Dev.buffered, hbuf, List.any_nil,
      hfresh, Dev.applyReq]
  have hline : s.serveLine q.line (fun d q => d.reqClass q == 1) .none = { s with dev := s.dev.serveReq q .none } := by
    simp only [State.serveLine, State.modDev, hready, hnext, hwant, if_true, State.serveOne, hk]
  change (s.serveLine s.args.a _ .none).to = _
  rw [← hl, hline, hserve]
  rfl

/-- The home tells the thread the bytes of the registered entry (R132). -/
theorem forwardedAccess_gives (huoc : s.dev.hasUoc q.line = false) (hwb : (s.dev.core r).wb = []) (hown : (s.dev.core q.rank).wb = [])
    (hctx : aget? (s.dev.part q.part).ctx q.prank = none) (hrank : (s.dev.part q.part).devRank q.prank = q.rank) (hslot : q.slot < 16)
    (hgood : s.dev.poisoned q.line = false) :
    Gives .forwardedAccess s fun t => Leaves t q ∧ t.dev.mem = s.dev.mem ∧ t.dev.regs = s.dev.regs
      ∧ (t.dev.core q.rank).l1d = (s.dev.core q.rank).l1d
      ∧ Answers s t q pid dst (leBytes n (lineNat ((s.dev.core r).lmem.line i) off n)) := by
  have hserve := Dev.serveLoad_registered (d := s.dev.countPassed q) pid off n dst hreg hwb (Dev.hasUoc_countPassed _ _ huoc) hown hgood
  change Dev.serveLoad _ q pid off n dst false
    = (Dev.modReq _ q fun a => a.modPend pid (Pending.answer dst n (lineNat ((s.dev.core r).lmem.line i) off n))).served q 0 at hserve
  generalize lineNat ((s.dev.core r).lmem.line i) off n = x at hserve ⊢
  obtain ⟨_, _, _, _, _, htouch⟩ := Dev.touch_cache (s.dev.countPassed q) q.line q.home q.part q.cls q.pg false
  generalize (s.dev.countPassed q).touch q.line q.home q.part q.cls q.pg false = u at hserve htouch
  have hctx' : aget? (u.part q.part).ctx q.prank = none := by rw [htouch]; exact hctx
  have hrank' : (u.part q.part).devRank q.prank = q.rank := by rw [htouch]; exact hrank
  have hslots : u.slot q.rank q.slot = s.dev.slot q.rank q.slot := by rw [htouch]; rfl
  have hanswer : u.modReq q (fun a => a.modPend pid (Pending.answer dst n x))
      = u.setSlot q.rank q.slot ((s.dev.slot q.rank q.slot).modPend pid (Pending.answer dst n x)) := by
    rw [Dev.modReq, Dev.modReqCore_running hctx' hrank', ← hslots]
    rfl
  rw [hanswer] at hserve
  have hto := answeredTo_served (d := u.setSlot q.rank q.slot ((s.dev.slot q.rank q.slot).modPend pid (Pending.answer dst n x))) 0 0 hctx' hrank'
  have hstay := Dev.letIn_none q.line (hto.obuf.trans (by rw [Dev.setSlot_obuf, htouch]; exact congrArg _ hbuf))
  refine ⟨_, exec_forwardedAccess hk hl hnext hwin hbuf hsatom hreg, ?_⟩
  dsimp only
  rw [hserve, hstay]
  refine ⟨?_, ?_, ?_, ?_, fun p hp hid => ?_⟩
  · rw [Leaves, hto.homeQ]
    simp
  · rw [hto.mem, Dev.setSlot_mem, htouch]
    rfl
  · rw [hto.regs, Dev.setSlot_regs, htouch]
    rfl
  · rw [(hto.core q.rank).1, Dev.core_setSlot, htouch]
    rfl
  · rw [hto.slot, Dev.slot_setSlot _ _ _ _ hslot]
    refine List.mem_map.mpr ⟨p, hp, ?_⟩
    rw [if_pos (beq_iff_eq.mpr hid), length_leBytes]
    rfl

end

end Sys2Proof.Claims

namespace Sys2Proof
open Machine Claims

/-- Settles O14: `sunmap`, `sflush` and `smap` by the state of the entry that they name; a forwarded load and a recall by the entry that the line
is registered to. -/
theorem stashEntries : Obligations.StashEntries := by
  unfold Obligations.StashEntries
  refine ⟨⟨fun rd i s hready hn hw => ⟨sunmap_gives hready hn hw, sflush_gives hready hn hw⟩, fun rd ra sg s hready hl => exec_smap_local hready hl,
    fun rd ra sg i gva tr s hready hn hstash hw hl hseg ha ht hlease => smap_gives hready hn hstash hw hl hseg ha ht hlease⟩, ?_, ?_⟩
  · intro s q pid off n dst r e hk hl hnext hwin hbuf hsatom hreg huoc hwb hown hctx hrank hslot hgood _
    exact forwardedAccess_gives hk hl hnext hwin hbuf hsatom hreg huoc hwb hown hctx hrank hslot hgood
  · intro s q r i e hq hl hk hreg hwb he hline hs hw
    exact stashRecall_gives hq hl hk hreg hwb he hline hs hw

end Sys2Proof

namespace Sys2Proof.Machine

/-! ### Ranges of several lines -/

/-- What holds past the end of a range, and of a piece in front of the pieces that follow it, holds of all the pieces of the range. -/
theorem linePieces_rec {P : Nat → List (Nat × Nat × Nat × Nat) → Prop} {pa n : Nat} (hnil : ∀ done, n ≤ done → P done [])
    (hcons : ∀ done k l, 0 < k → done + k ≤ n → (pa + done) % 128 + k ≤ 128 → P (done + k) l →
      P done (((pa + done) / 128, (pa + done) % 128, k, done) :: l)) (fuel done : Nat)
    (h : done < n → (pa + done) % 128 + (n - done) ≤ 128 * fuel) : P done (linePieces pa n done fuel) := by
  induction fuel generalizing done with
  | zero => exact hnil done (by omega)
  | succ fuel ih =>
    rw [linePieces]
    split
    next hd => exact hnil done hd
    next hd =>
      have := h (by omega)
      exact hcons done _ _ (by omega) (by omega) (by omega) (ih _ (by omega))

theorem piecesOf_rec {P : Nat → List (Nat × Nat × Nat × Nat) → Prop} {pa n : Nat} (hnil : ∀ done, n ≤ done → P done [])
    (hcons : ∀ done k l, 0 < k → done + k ≤ n → (pa + done) % 128 + k ≤ 128 → P (done + k) l →
      P done (((pa + done) / 128, (pa + done) % 128, k, done) :: l)) : P 0 (piecesOf pa n) :=
  linePieces_rec hnil hcons _ _ (by omega)

theorem Mem.nat_congr {m m' : Mem} {a n : Nat} (h : ∀ i < n, m'.get (a + i) = m.get (a + i)) : m'.nat a n = m.nat a n := by
  induction n generalizing a with
  | zero => rfl
  | succ n ih =>
    rw [Mem.nat_succ, Mem.nat_succ, show m'.get a = m.get a from h 0 (by omega), ih fun i hi => ?_]
    rw [Nat.add_assoc, Nat.add_comm 1]
    exact h (i + 1) (by omega)

theorem Mem.nat_one (m : Mem) (a : Nat) : m.nat a 1 = (m.get a).toNat := by
  simp [Mem.nat, Mem.bytes, leNat]

/-- A part of a run of bytes that spells a value. -/
theorem Mem.nat_within {m : Mem} {a n v j k : Nat} (h : m.nat a n = v % 256 ^ n) (hjk : j + k ≤ n) :
    m.nat (a + j) k = v / 256 ^ j % 256 ^ k := by
  obtain ⟨l, rfl⟩ := Nat.exists_eq_add_of_le hjk
  rw [← Mem.nat_part (Nat.le_add_right (j + k) l), h, Nat.add_assoc, pow_add, Nat.mod_mul_right_div_self, pow_add, Nat.mod_mul_right_mod]

/-- Two runs that spell the low and the high part of a value spell the value. -/
theorem Mem.nat_join {m : Mem} {a j k v : Nat} (hj : m.nat a j = v % 256 ^ j) (hk : m.nat (a + j) k = v / 256 ^ j % 256 ^ k) :
    m.nat a (j + k) = v % 256 ^ (j + k) := by
  rw [Mem.nat_add, hj, hk, pow_add, Nat.mod_mul]

end Sys2Proof.Machine

namespace Sys2Proof.Claims
open Machine

section
variable {d : Dev} (h : AtHomes d)
include h

/-- A read of an agent gives the bytes of memory, whatever lines they lie in. -/
theorem AtHomes.agentRead (pa n part : Nat) (leaf : Word) (pg : PageId) :
    ∃ e, d.agentRead pa n part leaf pg = (d.mem.nat pa n, e) ∧ CacheOnly d e := by
  have hfold := piecesOf_rec (pa := pa) (n := n) (P := fun done l => ∀ x e, CacheOnly d e → ∃ u, l.foldl (fun (acc : Nat × Dev) p =>
      let (line, off, k, at_) := p
      let d := (acc.2.prepare line).touch line (homeSlice leaf (128 * line)) part (leafClass leaf) pg false
      (acc.1 + lineNat (d.lineNow line) off k * 256 ^ at_, d)) (x, e) = (x + d.mem.nat (pa + done) (n - done) * 256 ^ done, u) ∧ CacheOnly d u)
    (fun done hd x e he => ⟨e, by simp [Nat.sub_eq_zero_of_le hd, Mem.nat, Mem.bytes, leNat], he⟩)
    (fun done k l hk hn hline ih x e he => by
      have hhome := h.cache he
      have hnext := he.trans (Dev.touch_cache e ((pa + done) / 128) (homeSlice leaf (128 * ((pa + done) / 128))) part (leafClass leaf) pg false)
      have hnow : (e.touch ((pa + done) / 128) (homeSlice leaf (128 * ((pa + done) / 128))) part (leafClass leaf) pg false).lineNow ((pa + done) / 128)
          = d.mem.line ((pa + done) / 128) := by
        obtain ⟨_, _, _, _, _, hu⟩ := hnext
        rw [hu, Dev.lineNow, show ({ d with llc := _, lru := _, lpFills := _, shadow := _, shadowHits := _ } : Dev).regs = d.regs from rfl, h.regs]
        rfl
      have hval : d.mem.nat (pa + done) (n - done) = d.mem.nat (pa + done) k + 256 ^ k * d.mem.nat (pa + (done + k)) (n - (done + k)) := by
        rw [← Nat.add_assoc, ← Mem.nat_add]
        congr 1
        omega
      obtain ⟨u, hu, hcache⟩ := ih (x + d.mem.nat (pa + done) k * 256 ^ done) _ hnext
      refine ⟨u, ?_, hcache⟩
      rw [List.foldl_cons]
      dsimp only
      rw [Dev.prepare_homesOnly hhome.homesOnly, hnow, Mem.lineNat_line _ hline, Nat.div_add_mod, hu, hval, pow_add]
      congr 1
      ring)
  obtain ⟨u, hu, hcache⟩ := hfold 0 d (.same d)
  exact ⟨u, hu.trans (by simp), hcache⟩

/-- A write of an agent within one line. -/
theorem AtHomes.pieceWrite {pa k : Nat} (hline : pa % 128 + k ≤ 128) (v home part cls : Nat) (pg : PageId) :
    ∃ m, CacheOnly { d with mem := m } (if d.lostLine (pa / 128) then d
        else (d.prepare (pa / 128)).lineWrite (pa / 128) (lineSet 0 (pa % 128) k v) (byteMask (pa % 128) k) home part cls pg)
      ∧ m.wf = true ∧ m.nat pa k = v % 256 ^ k ∧ ∀ a, (a < pa ∨ pa + k ≤ a) → m.get a = d.mem.get a := by
  have hlost : d.lostLine (pa / 128) = false := by simp [Dev.lostLine, h.sound.2]
  have hreg : aget? d.regs (pa / 128) = none := by rw [h.regs]; rfl
  obtain ⟨hin, hout⟩ := Mem.setMasked_piece (v := v) h.memory hline
  refine ⟨_, ?_, Mem.wf_setMasked _ _ _ _ h.memory, hin, hout⟩
  rw [hlost, if_neg (by decide), Dev.prepare_homesOnly h.homesOnly, Dev.lineWrite, hreg]
  exact ⟨_, _, _, _, _, rfl⟩

/-- A write of an agent makes its bytes spell the value, and leaves the other bytes of memory. -/
theorem AtHomes.agentWrite (pa n x part : Nat) (leaf : Word) (pg : PageId) :
    ∃ m, CacheOnly { d with mem := m } (d.agentWrite pa n x part leaf pg) ∧ m.wf = true ∧ m.nat pa n = x % 256 ^ n
      ∧ ∀ a, (a < pa ∨ pa + n ≤ a) → m.get a = d.mem.get a := by
  have hfold := piecesOf_rec (pa := pa) (n := n) (P := fun done l => ∀ (m : Mem) e, m.wf = true → CacheOnly { d with mem := m } e →
      ∃ m', CacheOnly { d with mem := m' } (l.foldl (fun d p =>
        let (line, off, k, at_) := p
        if d.lostLine line then d
        else (d.prepare line).lineWrite line (lineSet 0 off k (x / 256 ^ at_ % 256 ^ k)) (byteMask off k) (homeSlice leaf (128 * line)) part
          (leafClass leaf) pg) e) ∧ m'.wf = true ∧ m'.nat (pa + done) (n - done) = x / 256 ^ done % 256 ^ (n - done)
        ∧ ∀ a, (a < pa + done ∨ pa + n ≤ a) → m'.get a = m.get a)
    (fun done hd m e hm he => ⟨m, he, hm, by simp [Nat.sub_eq_zero_of_le hd, Mem.nat, Mem.bytes, leNat, Nat.mod_one], fun _ _ => rfl⟩)
    (fun done k l hk hn hline ih m e hm he => by
      have hhome : AtHomes e := AtHomes.cache (d := { d with mem := m }) ⟨h.regs, h.copies, h.queue, h.leases, h.sound, hm⟩ he
      obtain ⟨m1, hstep, hm1, hin, hout⟩ := hhome.pieceWrite hline (x / 256 ^ done % 256 ^ k) (homeSlice leaf (128 * ((pa + done) / 128))) part
        (leafClass leaf) pg
      rw [Nat.mod_mod] at hin
      have hmem : e.mem = m := by obtain ⟨_, _, _, _, _, rfl⟩ := he; rfl
      obtain ⟨m', hrest, hm', hin', hout'⟩ := ih m1 _ hm1 (CacheOnly.trans (b := { e with mem := m1 })
        (by obtain ⟨_, _, _, _, _, rfl⟩ := he; exact ⟨_, _, _, _, _, rfl⟩) hstep)
      refine ⟨m', hrest, hm', ?_, fun a ha => ?_⟩
      · have hfirst : m'.nat (pa + done) k = x / 256 ^ done % 256 ^ k :=
          (Mem.nat_congr fun i hi => hout' _ (by omega)).trans hin
        have hjoin := Mem.nat_join hfirst (k := n - (done + k)) (by rw [Nat.add_assoc, hin', pow_add, Nat.div_div_eq_div_mul])
        rwa [show k + (n - (done + k)) = n - done by omega] at hjoin
      · rw [hout' a (by omega), hout a (by omega), hmem])
  obtain ⟨m, hcache, hm, hin, hout⟩ := hfold d.mem d h.memory (.same d)
  rw [Nat.add_zero, Nat.sub_zero, pow_zero, Nat.div_one] at hin
  exact ⟨m, hcache, hm, hin, hout⟩

/-- A read of an agent that names its value. -/
theorem AtHomes.agRead_nat (pa n part : Nat) : ∃ e, Machine.agRead pa n part d = .ok (d.mem.nat pa n, e) ∧ CacheOnly d e := by
  obtain ⟨e, he, hcache⟩ := h.agentRead pa n part noLeaf noPage
  exact ⟨e, agRead_ok.mpr ⟨h.rangeHeld pa n, h.rangePoisoned pa n, he⟩, hcache⟩

theorem AtHomes.rangeLost (pa n : Nat) : d.rangeLost pa n = false := by
  rw [Dev.rangeLost, List.any_eq_false]
  intro p _
  simp [Dev.lostLine, h.sound.2]

theorem AtHomes.agWrite (pa n x part : Nat) : ∃ m e, Machine.agWrite pa n x part d = .ok ((), e) ∧ CacheOnly { d with mem := m } e ∧ m.wf = true
    ∧ m.nat pa n = x % 256 ^ n ∧ ∀ a, (a < pa ∨ pa + n ≤ a) → m.get a = d.mem.get a := by
  obtain ⟨m, hcache, hm⟩ := h.agentWrite pa n x part noLeaf noPage
  exact ⟨m, _, agWrite_ok.mpr ⟨h.rangeHeld pa n, h.rangeLost pa n, rfl⟩, hcache, hm⟩

end

end Sys2Proof.Claims

namespace Sys2Proof.Claims
open Machine

/-! ### Spill records (R150) -/

section
variable {d : Dev} (h : AtHomes d)
include h

theorem AtHomes.spillHead (part a : Nat) : ∃ e, Machine.spillHead part a d = .ok (some (d.mem.nat a 8), e) ∧ CacheOnly d e := by
  obtain ⟨e, hread, hcache⟩ := h.agRead_nat a 8 part
  have hsound : ((d.rangeHeld a 8).isNone && d.rangePoisoned a 8) = false := by rw [h.rangePoisoned, Bool.and_false]
  refine ⟨e, Eng.bind_ok.mpr ⟨d, d, rfl, ?_⟩, hcache⟩
  rw [if_neg (by rw [hsound]; decide)]
  exact Eng.bind_ok.mpr ⟨_, e, hread, rfl⟩

end

/-- Word 0 of record `i` of the spill area of a partition. -/
def spillWord (d : Dev) (part i : Nat) : Nat := d.mem.nat ((d.part part).spillAt i) 8

theorem spillWord_cache {d e : Dev} (h : CacheOnly d e) (part i : Nat) : spillWord e part i = spillWord d part i := by
  obtain ⟨_, _, _, _, _, rfl⟩ := h
  rfl

/-- The record that a frame takes is the lowest whose word 0 is not valid. -/
theorem freeSpill_lowest {d : Dev} (h : AtHomes d) (part i n : Nat) : ∃ e, freeSpill part i n d
    = .ok ((List.range' i n).find? fun j => spillWord d part j / 2 ^ 63 % 2 == 0, e) ∧ CacheOnly d e := by
  induction n generalizing d i with
  | zero => exact ⟨d, rfl, .same d⟩
  | succ n ih =>
    obtain ⟨m, hhead, hm⟩ := h.spillHead part ((d.part part).spillAt i)
    have hword : d.mem.nat ((d.part part).spillAt i) 8 = spillWord d part i := rfl
    rw [hword] at hhead
    rw [List.range'_succ, List.find?_cons]
    by_cases hfree : spillWord d part i / 2 ^ 63 % 2 = 0
    · refine ⟨m, Eng.bind_ok.mpr ⟨d, d, rfl, Eng.bind_ok.mpr ⟨_, m, hhead, ?_⟩⟩, hm⟩
      simp only [hfree, if_true]
      rfl
    · obtain ⟨e, hrest, he⟩ := ih (h.cache hm) (i + 1)
      simp only [spillWord_cache hm] at hrest
      refine ⟨e, Eng.bind_ok.mpr ⟨d, d, rfl, Eng.bind_ok.mpr ⟨_, m, hhead, ?_⟩⟩, hm.trans he⟩
      rw [beq_eq_false_iff_ne.mpr hfree]
      exact (congrFun (if_neg hfree) m).trans hrest

/-- The records that are valid and name a rank, with their SEQ. -/
theorem spillsOf_valid {d : Dev} (h : AtHomes d) (part rank i n : Nat) : ∃ e, spillsOf part rank i n d
    = .ok (((List.range' i n).filter fun j => decide (spillWord d part j / 2 ^ 63 % 2 = 1 ∧ spillWord d part j % 4096 = rank)).map
        fun j => (j, spillWord d part j / 4096 % 2 ^ 32), e) ∧ CacheOnly d e := by
  induction n generalizing d i with
  | zero => exact ⟨d, rfl, .same d⟩
  | succ n ih =>
    obtain ⟨m, hhead, hm⟩ := h.spillHead part ((d.part part).spillAt i)
    have hword : d.mem.nat ((d.part part).spillAt i) 8 = spillWord d part i := rfl
    rw [hword] at hhead
    obtain ⟨e, hrest, he⟩ := ih (h.cache hm) (i + 1)
    simp only [spillWord_cache hm] at hrest
    refine ⟨e, Eng.bind_ok.mpr ⟨d, d, rfl, Eng.bind_ok.mpr ⟨_, m, hhead, Eng.bind_ok.mpr ⟨_, e, hrest, ?_⟩⟩⟩, hm.trans he⟩
    rw [List.range'_succ, List.filter_cons]
    dsimp only
    split <;> rename_i hv
    · rw [if_pos (decide_eq_true hv)]
      rfl
    · rw [if_neg (by simpa using hv)]
      rfl

/-- Of two records, by their numbers and SEQs, the one with the lower SEQ. -/
def lowerSeq (acc : Option (Nat × Nat)) (q : Nat × Nat) : Option (Nat × Nat) := match acc with
  | none => some q
  | some a => if q.2 < a.2 then some q else some a

theorem foldl_lowerSeq (seq : Nat → Nat) (l : List Nat) (acc : Option Nat) :
    (l.map fun j => (j, seq j)).foldl lowerSeq (acc.map fun j => (j, seq j)) = (l.foldl (leastBy seq) acc).map fun j => (j, seq j) := by
  induction l generalizing acc with
  | nil => rfl
  | cons j l ih =>
    rw [List.map_cons, List.foldl_cons, List.foldl_cons, ← ih]
    congr 1
    cases acc with
    | none => rfl
    | some a =>
      simp only [Option.map_some, lowerSeq, leastBy]
      split <;> rfl

/-- The valid record of a rank with the lowest SEQ. -/
theorem foldl_leastSeq {d : Dev} {part rank i n : Nat} (hi : i < n) (hmine : spillWord d part i / 2 ^ 63 % 2 = 1 ∧ spillWord d part i % 4096 = rank)
    (hleast : ∀ j < n, j ≠ i → spillWord d part j / 2 ^ 63 % 2 = 1 ∧ spillWord d part j % 4096 = rank →
      spillWord d part i / 4096 % 2 ^ 32 < spillWord d part j / 4096 % 2 ^ 32) :
    (((List.range' 0 n).filter fun j => decide (spillWord d part j / 2 ^ 63 % 2 = 1 ∧ spillWord d part j % 4096 = rank)).map
      fun j => (j, spillWord d part j / 4096 % 2 ^ 32)).foldl lowerSeq none = some (i, spillWord d part i / 4096 % 2 ^ 32) := by
  have hmem : ∀ j, j ∈ ((List.range' 0 n).filter fun j => decide (spillWord d part j / 2 ^ 63 % 2 = 1 ∧ spillWord d part j % 4096 = rank))
      ↔ j < n ∧ spillWord d part j / 2 ^ 63 % 2 = 1 ∧ spillWord d part j % 4096 = rank := fun j => by simp [List.mem_range']
  obtain ⟨b, hb, hfold, hmin⟩ := foldl_leastBy (fun j => spillWord d part j / 4096 % 2 ^ 32) (List.ne_nil_of_mem ((hmem i).mpr ⟨hi, hmine⟩))
  refine (foldl_lowerSeq (fun j => spillWord d part j / 4096 % 2 ^ 32) _ none).trans
    (congrArg (a₂ := some i) (Option.map fun j => (j, spillWord d part j / 4096 % 2 ^ 32)) (hfold.trans ?_))
  by_contra hne
  obtain ⟨hlt, hvalid⟩ := (hmem b).mp hb
  have hlow := hleast b hlt (fun e => hne (congrArg some e)) hvalid
  exact absurd (hmin i ((hmem i).mpr ⟨hi, hmine⟩)) (Nat.not_le.mpr hlow)

/-- A core takes the spilled frame with the lowest SEQ (R150): its record is no longer valid, and no other byte of memory changes. -/
theorem takeSpill_least {d : Dev} (h : AtHomes d) {part r rank i : Nat} (hi : i < (d.part part).spillCount)
    (hmine : spillWord d part i / 2 ^ 63 % 2 = 1 ∧ spillWord d part i % 4096 = rank)
    (hleast : ∀ j < (d.part part).spillCount, j ≠ i → spillWord d part j / 2 ^ 63 % 2 = 1 ∧ spillWord d part j % 4096 = rank →
      spillWord d part i / 4096 % 2 ^ 32 < spillWord d part j / 4096 % 2 ^ 32) :
    ∃ e m, takeSpill part r rank d = .ok ((), e)
      ∧ e.core r = { d.core r with
          spilled := (d.core r).spilled - 1
          inbox := (d.core r).inbox ++ [.frame { frameOfNat (d.mem.nat ((d.part part).spillAt i + 128) 1056) rank with
            srcRank := rank, srcSlot := spillKey (spillWord d part i / 4096 % 2 ^ 32), bad := false }] }
      ∧ e.mem = m ∧ m.nat ((d.part part).spillAt i) 8 = (spillWord d part i / 4096 % 2 ^ 32 * 4096 + rank) % 256 ^ 8
      ∧ ∀ a, (a < (d.part part).spillAt i ∨ (d.part part).spillAt i + 8 ≤ a) → m.get a = d.mem.get a := by
  obtain ⟨e1, hrecs, h1⟩ := spillsOf_valid h part rank 0 (d.part part).spillCount
  have hleast' := foldl_leastSeq hi hmine hleast
  generalize spillWord d part i / 4096 % 2 ^ 32 = seq at hleast' ⊢
  generalize hat : (d.part part).spillAt i = at_
  have hh1 := h.cache h1
  obtain ⟨e2, hread, h2⟩ := hh1.agentRead (at_ + 128) 1056 part noLeaf noPage
  have hh2 := hh1.cache h2
  obtain ⟨m, h3, hm, hin, hout⟩ := hh2.agentWrite at_ 8 (seq * 4096 + rank) part noLeaf noPage
  have h12 := h1.trans h2
  have hmem1 : e1.mem = d.mem := by obtain ⟨_, _, _, _, _, rfl⟩ := h1; rfl
  have hmem2 : e2.mem = d.mem := by obtain ⟨_, _, _, _, _, rfl⟩ := h12; rfl
  have hcore : (e2.agentWrite at_ 8 (seq * 4096 + rank) part noLeaf noPage).core r = d.core r := by
    obtain ⟨_, _, _, _, _, h3⟩ := h3
    obtain ⟨_, _, _, _, _, h12⟩ := h12
    rw [h3, h12]
    rfl
  refine ⟨(e2.agentWrite at_ 8 (seq * 4096 + rank) part noLeaf noPage).modCore r fun c => { c with
    spilled := c.spilled - 1
    inbox := c.inbox ++ [.frame { frameOfNat (d.mem.nat (at_ + 128) 1056) rank with srcRank := rank, srcSlot := spillKey seq, bad := false }] },
    m, ?_, ?_, ?_, hin, fun a ha => (hout a ha).trans (by rw [hmem2])⟩
  · refine Eng.bind_ok.mpr ⟨d, d, rfl, Eng.bind_ok.mpr ⟨_, e1, hrecs, ?_⟩⟩
    generalize hbest : List.foldl _ none (List.map _ _) = best
    obtain rfl : best = some (i, seq) := hbest.symm.trans hleast'
    refine Eng.bind_ok.mpr ⟨e1, e1, rfl, ?_⟩
    simp only [hat, hh1.rangeHeld, hh1.rangePoisoned, Bool.false_eq_true, if_false, Eng.upd, hread, hmem1]
  · rw [Dev.modCore_eq, Dev.core_setCore, hcore]
  · obtain ⟨_, _, _, _, _, h3⟩ := h3
    rw [Dev.modCore_eq, Dev.setCore_mem, h3]

end Sys2Proof.Claims

namespace Sys2Proof.Machine

/-! ### A frame as bytes (R147, R150) -/

theorem digit_lt {a b k c : Nat} (ha : a < b) (hk : k < c) : a + b * k < b * c :=
  calc a + b * k < b + b * k := Nat.add_lt_add_right ha _
    _ = b * (k + 1) := by ring
    _ ≤ b * c := Nat.mul_le_mul_left _ hk

theorem wordsNat_lt (l : List Word) : wordsNat l < 2 ^ (64 * l.length) := by
  induction l with
  | nil => simp [wordsNat]
  | cons w l ih =>
    rw [wordsNat, List.length_cons, Nat.mul_succ, Nat.add_comm (64 * l.length), pow_add]
    exact digit_lt w.isLt ih

/-- A word of a row of words, whatever follows the row. -/
theorem word_wordsNat {l : List Word} (k : Nat) {j : Nat} (hj : j < l.length) :
    BitVec.ofNat 64 ((wordsNat l + 2 ^ (64 * l.length) * k) / 2 ^ (64 * j)) = l.getD j 0 := by
  induction l generalizing j with
  | nil => simp at hj
  | cons w l ih =>
    have hw := w.isLt
    have hsplit : wordsNat (w :: l) + 2 ^ (64 * (w :: l).length) * k = w.toNat + 2 ^ 64 * (wordsNat l + 2 ^ (64 * l.length) * k) := by
      rw [wordsNat, List.length_cons, Nat.mul_succ, pow_add]
      ring
    rw [hsplit]
    cases j with
    | zero =>
      refine BitVec.eq_of_toNat_eq ?_
      rw [Nat.mul_zero, pow_zero, Nat.div_one, BitVec.toNat_ofNat, Nat.add_mul_mod_self_left]
      exact Nat.mod_eq_of_lt hw
    | succ j =>
      rw [Nat.mul_succ, Nat.add_comm (64 * j), pow_add, ← Nat.div_div_eq_div_mul, Nat.add_mul_div_left _ _ (by positivity), Nat.div_eq_of_lt hw,
        Nat.zero_add, ih (by simpa using hj)]
      rfl

/-- The words of a frame, in their order: x1-x15, p1-p3, the segment registers, PC and STATUS. -/
def Frame.words (f : Frame) : List Word :=
  f.x ++ f.p ++ ((List.range 8).flatMap fun i => let g := vget f.s i 0; [g.extractLsb' 0 64, g.extractLsb' 64 64]) ++ [f.pc, f.status]

section
variable {f : Frame} (hx : f.x.length = 15) (hp : f.p.length = 3)
include hx hp

theorem Frame.length_words : f.words.length = 36 := by
  simp [Frame.words, hx, hp]

omit hp in
theorem Frame.words_x {j : Nat} (hj : j < 15) : f.words.getD j 0 = f.x.getD j 0 := by
  simp only [Frame.words, List.append_assoc, List.getD_append _ _ _ _ (hx.symm ▸ hj)]

theorem Frame.words_pc : f.words.getD 34 0 = f.pc := by
  rw [Frame.words, List.getD_append_right _ _ _ _ (by simp [hx, hp])]
  simp [hx, hp]

end

/-- Rows of bits from place `i` on, above a value. -/
theorem foldl_rows {w : Nat} (base : Nat) (l : List (BitVec w)) (i acc : Nat) : ∃ k, k < 2 ^ (w * l.length) ∧
    (l.zipIdx i).foldl (fun acc p => acc + p.1.toNat * 2 ^ (base + w * p.2)) acc = acc + 2 ^ (base + w * i) * k := by
  induction l generalizing i acc with
  | nil => exact ⟨0, by simp, by simp⟩
  | cons v l ih =>
    obtain ⟨k, hk, hfold⟩ := ih (i + 1) (acc + v.toNat * 2 ^ (base + w * i))
    refine ⟨v.toNat + 2 ^ w * k, ?_, ?_⟩
    · rw [List.length_cons, Nat.mul_succ, Nat.add_comm (w * l.length), pow_add]
      exact digit_lt v.isLt hk
    · rw [List.zipIdx_cons, List.foldl_cons, hfold, Nat.mul_succ w i, ← Nat.add_assoc base, pow_add _ _ w]
      ring

/-- A frame is its words, and above them its vector registers. -/
theorem Frame.nat_eq (f : Frame) : ∃ k, k < 2 ^ (512 * f.v.length) ∧ f.nat = wordsNat f.words + 2 ^ (64 * 36) * k := by
  obtain ⟨k, hk, hfold⟩ := foldl_rows (8 * 0x120) f.v 0 (wordsNat f.words)
  rw [show 8 * 0x120 + 512 * 0 = 64 * 36 from rfl] at hfold
  exact ⟨k, hk, hfold⟩

/-! ### A spill record as bytes (R150) -/

section
variable {f : Frame} (hx : f.x.length = 15) (hp : f.p.length = 3)
include hx hp

/-- Word `j` of a frame's bytes. -/
theorem Frame.nat_word {j : Nat} (hj : j < 36) : BitVec.ofNat 64 (f.nat / 2 ^ (64 * j)) = f.words.getD j 0 := by
  obtain ⟨k, -, hk⟩ := f.nat_eq
  have hlen := Frame.length_words hx hp
  rw [hk, ← hlen]
  exact word_wordsNat k (hlen.symm ▸ hj)

/-- A frame has 1,056 bytes. -/
theorem Frame.nat_lt (hv : f.v.length = 12) {n : Nat} (hn : 1056 ≤ n) : f.nat < 256 ^ n := by
  obtain ⟨k, hk, hnat⟩ := f.nat_eq
  have hwords := wordsNat_lt f.words
  rw [Frame.length_words hx hp] at hwords
  rw [hnat, show (256 : Nat) ^ n = 2 ^ (64 * 36) * 2 ^ (8 * n - 64 * 36) by
    rw [show (256 : Nat) = 2 ^ 8 from rfl, ← pow_mul, ← pow_add, Nat.add_sub_cancel' (by omega)]]
  exact digit_lt hwords (hk.trans_le (Nat.pow_le_pow_right (by decide) (by omega)))

end

/-- What follows the first `n` bytes of a value. -/
theorem div_above {low n j x : Nat} (h : low < 256 ^ n) : (low + x * 256 ^ n) / 256 ^ (n + j) = x / 256 ^ j := by
  rw [pow_add, ← Nat.div_div_eq_div_mul, Nat.add_mul_div_right _ _ (by positivity), Nat.div_eq_of_lt h, Nat.zero_add]

/-- The bytes between a low part and a high part are 0. -/
theorem byte_between {low a n b x : Nat} (h : low < 256 ^ a) (ha : a ≤ b) (hb : b < n) : (low + x * 256 ^ n) / 256 ^ b % 256 = 0 := by
  obtain ⟨j, rfl⟩ := Nat.exists_eq_add_of_lt hb
  rw [show low + x * 256 ^ (b + j + 1) = low + x * 256 ^ j * 256 * 256 ^ b by rw [pow_succ, pow_add]; ring,
    Nat.add_mul_div_right _ _ (by positivity), Nat.div_eq_of_lt (lt_of_lt_of_le h (Nat.pow_le_pow_right (by decide) ha)), Nat.zero_add,
    Nat.mul_mod_left]

/-- Bytes that spell a spill record: a valid word 0 with SEQ and rank, the frame from byte 128 on, and zeros elsewhere. -/
structure SpillBytes (m : Mem) (at_ head : Nat) (f : Frame) : Prop where
  head : m.nat at_ 8 = head
  x : ∀ j < 15, BitVec.ofNat 64 (m.nat (at_ + 128 + 8 * j) 8) = f.x.getD j 0
  pc : BitVec.ofNat 64 (m.nat (at_ + 128 + 8 * 34) 8) = f.pc
  zeros : ∀ b, (8 ≤ b ∧ b < 128 ∨ 0x4A0 ≤ b ∧ b < 2048) → m.get (at_ + b) = 0

theorem spillBytes_of_nat {m : Mem} {at_ head : Nat} {f : Frame} (hh : head < 256 ^ 8) (hx : f.x.length = 15) (hp : f.p.length = 3)
    (hv : f.v.length = 12) (h : m.nat at_ 2048 = (head + f.nat * 2 ^ (8 * 128)) % 256 ^ 2048) : SpillBytes m at_ head f := by
  rw [show (2 : Nat) ^ (8 * 128) = 256 ^ 128 by rw [pow_mul]; rfl] at h
  have hlow : head < 256 ^ 128 := lt_of_lt_of_le hh (Nat.pow_le_pow_right (by decide) (by decide))
  have hword : ∀ j < 36, BitVec.ofNat 64 (m.nat (at_ + 128 + 8 * j) 8) = f.words.getD j 0 := fun j hj => by
    rw [Nat.add_assoc, Mem.nat_within h (by omega), div_above hlow, ← Frame.nat_word hx hp hj, show (256 : Nat) ^ (8 * j) = 2 ^ (64 * j) by
      rw [show (256 : Nat) = 2 ^ 8 from rfl, ← pow_mul, ← Nat.mul_assoc]]
    exact BitVec.eq_of_toNat_eq (by simp)
  have hbyte : ∀ b < 2048, (head + f.nat * 256 ^ 128) / 256 ^ b % 256 = 0 → m.get (at_ + b) = 0 := fun b hb hzero => by
    refine BitVec.eq_of_toNat_eq ?_
    rw [← Mem.nat_one, Mem.nat_within h (by omega), pow_one, hzero]
    rfl
  refine ⟨?_, fun j hj => (hword j (by omega)).trans (Frame.words_x hx hj), (hword 34 (by decide)).trans (Frame.words_pc hx hp), fun b hb => ?_⟩
  · have h0 := Mem.nat_within (j := 0) (k := 8) h (by decide)
    rw [Nat.add_zero, pow_zero, Nat.div_one] at h0
    rw [h0, show (256 : Nat) ^ 128 = 256 ^ 120 * 256 ^ 8 by rw [← pow_add], ← Nat.mul_assoc, Nat.add_mul_mod_self_right, Nat.mod_eq_of_lt hh]
  · rcases hb with ⟨h8, h128⟩ | ⟨hend, h2048⟩
    · exact hbyte b (by omega) (byte_between hh h8 h128)
    · refine hbyte b h2048 ?_
      obtain ⟨j, rfl⟩ := Nat.exists_eq_add_of_le (show 128 ≤ b by omega)
      rw [div_above hlow, Nat.div_eq_of_lt (Frame.nat_lt hx hp hv (by omega))]

end Sys2Proof.Machine

namespace Sys2Proof.Claims
open Machine

/-! ### What is on its way for a thread follows its frame (R194, R213, R275) -/

section
variable (d : Dev) (part : Nat) (f : Frame) (key : Nat × Nat)

theorem gateTo_eq : (fun g : Gate => if g.part == part && g.prank == f.srcRank && g.slot == f.srcSlot
    then { g with prank := key.1, slot := key.2 } else g) = gateTo part f key := by
  funext g
  simp only [gateTo, Bool.and_eq_true, beq_iff_eq, and_assoc]

/-- A partition in which gates have changed has its configuration and the sequence numbers of its spill area as before. -/
theorem part_mapGates (g : Gate → Gate) (p : Nat) :
    ((d.mapGates g).part p).cfg = (d.part p).cfg ∧ ((d.mapGates g).part p).spillSeq = (d.part p).spillSeq := by
  simp only [Dev.part, Dev.mapGates]
  generalize d.parts = m
  induction m with
  | nil => exact ⟨rfl, rfl⟩
  | cons e m ih =>
    simp only [List.map_cons, aget?]
    split
    · exact ⟨rfl, rfl⟩
    · exact ih

theorem moveRemote_part (p : Nat) : ((d.moveRemote part (f.srcRank, f.srcSlot) key).part p).cfg = (d.part p).cfg
    ∧ ((d.moveRemote part (f.srcRank, f.srcSlot) key).part p).spillSeq = (d.part p).spillSeq :=
  part_mapGates d _ p

/-- Of a core, only the gates of its tasks and the threads of what it has sent change. -/
theorem moveRemote_core (c : Nat) : { (d.moveRemote part (f.srcRank, f.srcSlot) key).core c with
    out := (d.core c).out, tasks := (d.core c).tasks } = d.core c := by
  simp only [Dev.core, Dev.moveRemote, Dev.mapGates, List.map_map]
  generalize d.cores = m
  induction m with
  | nil => rfl
  | cons e m ih =>
    simp only [List.map_cons, Function.comp_apply, aget?]
    split
    · rfl
    · exact ih

theorem moveRemote_slot (c k : Nat) : (d.moveRemote part (f.srcRank, f.srcSlot) key).slot c k = d.slot c k :=
  congrArg (·.slot k) (moveRemote_core d part f key c)

theorem moveRemote_inbox (c : Nat) : ((d.moveRemote part (f.srcRank, f.srcSlot) key).core c).inbox = (d.core c).inbox
    ∧ ((d.moveRemote part (f.srcRank, f.srcSlot) key).core c).spilled = (d.core c).spilled :=
  ⟨(congrArg Core.inbox (moveRemote_core d part f key c) :), (congrArg Core.spilled (moveRemote_core d part f key c) :)⟩

/-- Beside the cores, the network and the accesses to other modules, only gates change. -/
theorem moveRemote_dev (cs cs' : AMap Core) (n n' : AMap NetMsg) (u u' : AMap RemoteOut) :
    { ({ d with cores := cs, net := n, remote := u } : Dev).moveRemote part (f.srcRank, f.srcSlot) key with cores := cs', net := n', remote := u' }
      = { d.mapGates (gateTo part f key) with cores := cs', net := n', remote := u' } := by
  rw [← gateTo_eq]
  rfl

theorem moveRemote_net (m : Nat) : aget? (d.moveRemote part (f.srcRank, f.srcSlot) key).net m = (aget? d.net m).map fun x => { x with
    gates := x.gates.map (gateTo part f key)
    thread := if x.thread = some (part, f.srcRank, f.srcSlot) then some (part, key.1, key.2) else x.thread } := by
  rw [← gateTo_eq, ← aget?_map]
  simp only [Dev.moveRemote, Dev.mapGates, List.map_map, Function.comp_def, beq_iff_eq]

theorem moveRemote_remote : (d.moveRemote part (f.srcRank, f.srcSlot) key).remote = d.remote.map fun p =>
    let u := { p.2 with gate := p.2.gate.map (gateTo part f key) }
    (p.1, if u.part = part ∧ u.prank = f.srcRank ∧ u.slot = f.srcSlot ∧ u.chan = none
      then { u with rank := (d.part part).cfg.hbase + key.1, prank := key.1, slot := key.2 } else u) := by
  rw [← (part_mapGates d (gateTo part f key) part).1, ← gateTo_eq]
  simp only [Dev.moveRemote, Part.devRank, Dev.mapGates, List.map_map, Function.comp_def, Bool.and_eq_true, beq_iff_eq, and_assoc,
    Option.isNone_iff_eq_none, apply_ite (Prod.mk _)]

end

end Sys2Proof.Claims

namespace Sys2Proof.Machine

/-! ### The end of a thread's stay on a core leaves the frames in flight (R103, R149) -/

/-- The network, the accesses to other modules, the partitions, the inboxes and the counts of spilled frames are the same, and no slot has been
taken. -/
structure SameFlight (d e : Dev) : Prop where
  net : e.net = d.net
  remote : e.remote = d.remote
  parts : e.parts = d.parts
  cores : ∀ c, (e.core c).inbox = (d.core c).inbox ∧ (e.core c).spilled = (d.core c).spilled
  slots : ∀ c k, (d.slot c k).occ = false → (e.slot c k).occ = false

theorem SameFlight.same (d : Dev) : SameFlight d d := ⟨rfl, rfl, rfl, fun _ => ⟨rfl, rfl⟩, fun _ _ h => h⟩

theorem SameFlight.trans {a b c : Dev} (h : SameFlight a b) (h' : SameFlight b c) : SameFlight a c where
  net := h'.net.trans h.net
  remote := h'.remote.trans h.remote
  parts := h'.parts.trans h.parts
  cores r := ⟨(h'.cores r).1.trans (h.cores r).1, (h'.cores r).2.trans (h.cores r).2⟩
  slots r k hk := h'.slots r k (h.slots r k hk)

/-- A change at the homes of lines. -/
theorem SameFlight.home {d e : Dev} (hn : e.net = d.net) (hr : e.remote = d.remote) (hp : e.parts = d.parts) (hc : e.cores = d.cores) :
    SameFlight d e := by
  have hcore : ∀ c, e.core c = d.core c := fun c => by rw [Dev.core, hc]; rfl
  exact ⟨hn, hr, hp, fun c => by rw [hcore]; exact ⟨rfl, rfl⟩, fun c k hk => by rwa [Dev.slot, hcore]⟩

theorem SameFlight.modCore {r : Nat} {f : Core → Core} (d : Dev) (hf : (f (d.core r)).inbox = (d.core r).inbox ∧ (f (d.core r)).spilled = (d.core r).spilled)
    (hs : ∀ k, (d.slot r k).occ = false → ((f (d.core r)).slot k).occ = false) : SameFlight d (d.modCore r f) := by
  refine ⟨rfl, rfl, rfl, fun c => ?_, fun c k hk => ?_⟩ <;> rw [Dev.modCore_eq]
  · by_cases hc : c = r
    · rw [hc, Dev.core_setCore]
      exact hf
    · rw [Dev.core_setCore_ne _ _ _ _ hc]
      exact ⟨rfl, rfl⟩
  · by_cases hc : c = r
    · subst hc
      rw [Dev.slot, Dev.core_setCore]
      exact hs k hk
    · rwa [Dev.slot_setCore_ne _ _ _ _ _ hc]

/-- A core whose slots, inbox and count of spilled frames stay. -/
theorem SameFlight.ofCore {r : Nat} {f : Core → Core} (d : Dev) (hf : (f (d.core r)).inbox = (d.core r).inbox ∧ (f (d.core r)).spilled = (d.core r).spilled
    ∧ (f (d.core r)).slots = (d.core r).slots) : SameFlight d (d.modCore r f) := by
  obtain ⟨hi, hsp, hsl⟩ := hf
  refine .modCore d ⟨hi, hsp⟩ fun k hk => ?_
  rw [Core.slot, hsl]
  exact hk

theorem SameFlight.foldl {α : Type} {g : Dev → α → Dev} (hg : ∀ e x, SameFlight e (g e x)) (l : List α) (d : Dev) : SameFlight d (l.foldl g d) := by
  induction l generalizing d with
  | nil => exact .same d
  | cons x l ih => exact (hg d x).trans (ih _)

theorem settleBack_flight (d : Dev) (r line : Nat) : SameFlight d (d.settleBack r line) := by
  rw [Dev.settleBack]
  dsimp only
  split
  · exact .same d
  · have hback := SameFlight.foldl (g := fun (d : Dev) (e : WbEntry) =>
      let d := d.touch line e.home e.part e.cls e.pg true
      { d with
        mem := d.mem.setMasked (128 * line) e.data e.mask 128
        poison := if e.bad && !d.poison.contains line then d.poison ++ [line] else d.poison }) (fun e x => by
        obtain ⟨_, _, _, _, _, ht⟩ := Dev.touch_cache e line x.home x.part x.cls x.pg true
        dsimp only
        rw [ht]
        exact .home rfl rfl rfl rfl) ((d.core r).wb.filter fun e => e.wback && e.line == line) d
    have hwb := hback.trans (.ofCore (r := r) (f := fun c => { c with wb := c.wb.filter fun e => !(e.wback && e.line == line) }) _ ⟨rfl, rfl, rfl⟩)
    split
    · split
      · exact hwb.trans (.home rfl rfl rfl rfl)
      · exact hwb.trans (.home rfl rfl rfl rfl)
    · exact hwb.trans (.home rfl rfl rfl rfl)

/-- A recalled line at its home, and the state of its stash entry. -/
theorem SameFlight.recalled {d g : Dev} (h : CacheOnly d g) (m : Mem) (p : List Nat) (regs : AMap (Nat × Nat)) (r e : Nat) (x : StashEntry) :
    SameFlight d (({ g with mem := m, poison := p, regs := regs } : Dev).modCore r fun c => { c with stash := aset c.stash e x }) := by
  have hhome : SameFlight d { g with mem := m, poison := p, regs := regs } := by
    obtain ⟨_, _, _, _, _, rfl⟩ := h
    exact .home rfl rfl rfl rfl
  exact hhome.trans (.ofCore _ ⟨rfl, rfl, rfl⟩)

theorem recallStash_flight (d : Dev) (line : Nat) : SameFlight d (d.recallStash line) := by
  rw [Dev.recallStash]
  split
  next => exact .same d
  next r e _ =>
    refine (settleBack_flight d r line).trans ?_
    generalize d.settleBack r line = d
    dsimp only
    split
    next s _ =>
      split
      · split
        · have hcache := Dev.touch_cache d line s.home s.part s.cls ⟨s.gva / 65536, s.large⟩ true
          generalize d.touch line s.home s.part s.cls ⟨s.gva / 65536, s.large⟩ true = g at hcache
          generalize g.mem.setLine line ((d.core r).stashLine e) = m
          exact .recalled hcache m _ _ r e { s with st := .mapped }
        · exact .recalled (.same d) d.mem d.poison _ r e { s with st := .mapped }
      · exact .home rfl rfl rfl rfl
    next => exact .home rfl rfl rfl rfl

theorem clearStash_flight (d : Dev) (r lo hi : Nat) : SameFlight d (d.clearStash r lo hi) := by
  unfold Dev.clearStash
  dsimp only
  refine (SameFlight.foldl (fun e p => ?_) _ d).trans (.ofCore _ ⟨rfl, rfl, rfl⟩)
  split
  · exact recallStash_flight e _
  · exact .same e

/-- Guest slots that are none any more keep what they hold. -/
theorem occ_guestSlots (l : List Nat) (v : Vector Slot 16) (k : Nat) :
    (vget (l.foldl (fun v k => vset v k { vget v k Slot.reset with isGuestSlot := false }) v) k Slot.reset).occ = (vget v k Slot.reset).occ := by
  induction l generalizing v with
  | nil => rfl
  | cons j l ih =>
    rw [List.foldl_cons, ih]
    by_cases hk : k = j
    · subst hk
      by_cases hlt : k < 16
      · rw [vget_vset_same _ _ _ _ hlt]
      · simp [vget, Nat.not_lt.mp hlt]
    · rw [vget_vset_ne _ _ _ _ _ hk]

theorem reap_flight (d : Dev) (r : Nat) : SameFlight d (d.reap r) := by
  refine SameFlight.foldl (fun e t => ?_) _ d
  dsimp only
  split
  · exact .same e
  · refine (SameFlight.ofCore (r := r) (f := fun c => { c with ladders := c.ladders.filter fun l => l.2.task != t.id }) e ⟨rfl, rfl, rfl⟩).trans ?_
    split
    · exact .same _
    · exact (clearStash_flight _ _ _ _).trans (.modCore _ ⟨rfl, rfl⟩ fun k hk => (occ_guestSlots _ _ _).trans hk)

/-- No line is registered, and memory is the same. -/
def SameMemory (d e : Dev) : Prop := d.regs = [] → e.regs = [] ∧ e.mem = d.mem

theorem SameMemory.trans {a b c : Dev} (h : SameMemory a b) (h' : SameMemory b c) : SameMemory a c := fun ha =>
  have ⟨hb, hmem⟩ := h ha
  ⟨(h' hb).1, (h' hb).2.trans hmem⟩

theorem SameMemory.modCore (d : Dev) (r : Nat) (f : Core → Core) : SameMemory d (d.modCore r f) := fun h => ⟨h, rfl⟩

theorem SameMemory.foldl {α : Type} {g : Dev → α → Dev} (hg : ∀ e x, SameMemory e (g e x)) (l : List α) (d : Dev) : SameMemory d (l.foldl g d) := by
  induction l generalizing d with
  | nil => exact fun h => ⟨h, rfl⟩
  | cons x l ih => exact (hg d x).trans (ih _)

theorem recallStash_memory (d : Dev) (line : Nat) : SameMemory d (d.recallStash line) := fun h => by
  rw [Dev.recallStash, h]
  exact ⟨h, rfl⟩

theorem clearStash_memory (d : Dev) (r lo hi : Nat) : SameMemory d (d.clearStash r lo hi) := by
  unfold Dev.clearStash
  dsimp only
  refine (SameMemory.foldl (fun e p => ?_) _ d).trans (.modCore _ _ _)
  split
  · exact recallStash_memory e _
  · exact fun h => ⟨h, rfl⟩

theorem reap_memory (d : Dev) (r : Nat) : SameMemory d (d.reap r) := by
  refine SameMemory.foldl (fun e t => ?_) _ d
  dsimp only
  split
  · exact fun h => ⟨h, rfl⟩
  · refine (SameMemory.modCore e r fun c => { c with ladders := c.ladders.filter fun l => l.2.task != t.id }).trans ?_
    split
    · exact fun h => ⟨h, rfl⟩
    · exact (clearStash_memory _ _ _ _).trans (.modCore _ _ _)

/-! ### The source slot of a frame (R149) -/

/-- A home slot is kept as away, with what is recorded for its thread. -/
theorem leaveSlot_home {d : Dev} {r k : Nat} (h : (d.slot r k).guest = false) : d.leaveSlot r k = d.setSlot r k { (d.slot r k).vacate with
    away := true, mxerr := (d.slot r k).mxerr, copyFaults := (d.slot r k).copyFaults, copyIrqs := (d.slot r k).copyIrqs
    heldBuf := (d.slot r k).heldBuf, claimed := (d.slot r k).claimed } := by
  rw [Dev.leaveSlot, if_neg (by rw [h]; decide)]
  rfl

/-- What leaving a slot does to a core, before the end of its task. -/
def Core.leaveGuest (k : Nat) (c : Core) : Core := match c.hostTask k with
  | some (t, i) =>
    let lo := t.origin + t.s + t.t + 8192 * i
    { c with lmem := c.lmem.filter fun p => !(decide (lo ≤ p.1) && decide (p.1 < lo + 8192)) }.clearSlot k
  | none => c.clearSlot k

theorem leaveGuest_frame (k : Nat) (c : Core) : (c.leaveGuest k).inbox = c.inbox ∧ (c.leaveGuest k).spilled = c.spilled
    ∧ (c.leaveGuest k).slots = (c.clearSlot k).slots := by
  rw [Core.leaveGuest]
  split <;> exact ⟨rfl, rfl, rfl⟩

theorem slot_leaveGuest (k j : Nat) (c : Core) : (c.leaveGuest k).slot j = (c.clearSlot k).slot j := by
  rw [Core.slot, (leaveGuest_frame k c).2.2]
  rfl

theorem leaveSlot_guest {d : Dev} {r k : Nat} (h : (d.slot r k).guest = true) : d.leaveSlot r k = d.modCore r (Core.leaveGuest k)
    ∨ d.leaveSlot r k = (d.modCore r (Core.leaveGuest k)).reap r := by
  rw [Dev.leaveSlot, if_pos h]
  dsimp only
  split
  · exact .inr rfl
  · exact .inl rfl

theorem occ_clearSlot (c : Core) {k : Nat} (hk : k < 16) : ((c.clearSlot k).slot k).occ = false := by
  rw [Core.clearSlot, Core.slot, Core.setSlot, vget_vset_same _ _ _ _ hk]
  rfl

theorem slot_clearSlot_ne (c : Core) {k j : Nat} (h : j ≠ k) : (c.clearSlot k).slot j = c.slot j := vget_vset_ne _ _ _ _ _ h

/-- A slot that a thread leaves is empty; frames in flight and memory are as before. -/
theorem leaveSlot_leaves (d : Dev) (r : Nat) {k : Nat} (hk : k < 16) : SameFlight d (d.leaveSlot r k) ∧ SameMemory d (d.leaveSlot r k)
    ∧ ((d.leaveSlot r k).slot r k).occ = false := by
  cases hg : (d.slot r k).guest with
  | false =>
    rw [leaveSlot_home hg]
    refine ⟨.modCore d ⟨rfl, rfl⟩ fun j hj => ?_, .modCore _ _ _, by rw [Dev.slot_setSlot _ _ _ _ hk]; rfl⟩
    by_cases h : j = k
    · subst h
      rw [Core.slot, Core.setSlot, vget_vset_same _ _ _ _ hk]
      rfl
    · rw [Core.slot, Core.setSlot, vget_vset_ne _ _ _ _ _ h]
      exact hj
  | true =>
    obtain ⟨hinbox, hspilled, -⟩ := leaveGuest_frame k (d.core r)
    have hflight : SameFlight d (d.modCore r (Core.leaveGuest k)) := .modCore d ⟨hinbox, hspilled⟩ fun j hj => by
      rw [slot_leaveGuest]
      by_cases h : j = k
      · rw [h, occ_clearSlot _ hk]
      · rw [slot_clearSlot_ne _ h]
        exact hj
    have hempty : ((d.modCore r (Core.leaveGuest k)).slot r k).occ = false := by
      rw [Dev.modCore_eq, Dev.slot, Dev.core_setCore, slot_leaveGuest, occ_clearSlot _ hk]
    rcases leaveSlot_guest hg with h | h <;> rw [h]
    · exact ⟨hflight, .modCore _ _ _, hempty⟩
    · exact ⟨hflight.trans (reap_flight _ r), (SameMemory.modCore _ _ _).trans (reap_memory _ r), (reap_flight _ r).slots r k hempty⟩

end Sys2Proof.Machine

namespace Sys2Proof.Claims
open Machine

/-! ### A frame arrives (R148-R150) -/

theorem entersTrap_enterTrap (a : Slot) (tvec : Word) (t : TrapInfo) : EntersTrap a (a.enterTrap tvec t) tvec t :=
  ⟨rfl, rfl, rfl, rfl, rfl, rfl, rfl, rfl, rfl⟩

/-- A step that makes of the device what `moveRemote` makes of one that differs from it in nothing on its way but message `n`. -/
theorem frameLeaves_of {s t : State} {d : Dev} {n part : Nat} {f : Frame} {key : Nat × Nat} (hboot : t.boot = s.boot ∧ t.host = s.host)
    (hnet : t.dev.net = (d.moveRemote part (f.srcRank, f.srcSlot) key).net) (hremote : t.dev.remote = (d.moveRemote part (f.srcRank, f.srcSlot) key).remote)
    (hn : d.net = adel s.dev.net n) (hr : d.remote = s.dev.remote) (hcfg : (d.part part).cfg = (s.dev.part part).cfg) :
    FrameLeaves s t n part f key := by
  refine ⟨hboot.1, hboot.2, ?_, fun m hm => ?_, ?_⟩
  · rw [hnet, moveRemote_net, hn, aget?_adel_same]
    rfl
  · rw [hnet, moveRemote_net, hn, aget?_adel_ne _ _ _ hm]
  · rw [hremote, moveRemote_remote, hr, hcfg]

theorem leavesSlot_of {s t : State} {d : Dev} {part : Nat} {f : Frame} (hk : f.srcSlot < 16)
    (hslot : d.slot ((s.dev.part part).cfg.hbase + f.srcRank) f.srcSlot = s.dev.slot ((s.dev.part part).cfg.hbase + f.srcRank) f.srcSlot)
    (h : t.dev.slot ((s.dev.part part).cfg.hbase + f.srcRank) f.srcSlot
      = (d.leaveSlot ((s.dev.part part).cfg.hbase + f.srcRank) f.srcSlot).slot ((s.dev.part part).cfg.hbase + f.srcRank) f.srcSlot) :
    LeavesSlot s t part f := by
  refine ⟨by rw [h]; exact (leaveSlot_leaves d _ hk).2.2, fun hg => ?_⟩
  rw [h, leaveSlot_home (by rw [hslot, hg]), Dev.slot_setSlot _ _ _ _ hk, hslot]
  exact ⟨rfl, rfl⟩

/-- The device without the message that arrives. -/
def offNet (s : State) : Dev := { s.dev with net := adel s.dev.net s.args.a }

/-- A frame that arrives in message `n` enters the inbox. -/
def takeFrame (n : Nat) (f : Frame) (c : Core) : Core := { c with inbox := c.inbox ++ [.frame { f with srcSlot := inboxKey n }] }

section
variable {s : State} {part rank : Nat} {f : Frame} {th : Option (Nat × Nat × Nat)}
  (hmsg : aget? s.dev.net s.args.a = some ⟨.frame part rank f, [], th⟩) (hon : OnCore s.dev part rank)

include hmsg in
theorem frame_arrived : s.dev.arrived s.args.a = some (.frame part rank f) := by
  rw [Dev.arrived, hmsg]
  rfl

include hon in
theorem frame_live : s.dev.partLive part = true ∧ s.dev.lostRank part rank = false
    ∧ s.dev.rankCore part rank = s.dev.core ((s.dev.part part).cfg.hbase + rank) := by
  obtain ⟨hst, hctx, hlost⟩ := hon
  exact ⟨bne_iff_ne.mpr hst, by rw [Dev.lostRank, hctx]; exact hlost, rankCore_running hctx⟩

include hmsg hon

theorem exec_frame_inbox (hi : (s.dev.core ((s.dev.part part).cfg.hbase + rank)).inbox.length < 32)
    (hs : (s.dev.core ((s.dev.part part).cfg.hbase + rank)).spilled = 0) :
    exec .migrationFrameArrival s = .next { s with
      dev := (((offNet s).modCore ((s.dev.part part).cfg.hbase + rank) (takeFrame s.args.a f)).leaveSlot ((s.dev.part part).cfg.hbase + f.srcRank)
        f.srcSlot).moveRemote part (f.srcRank, f.srcSlot) (f.srcRank, inboxKey s.args.a) } := by
  obtain ⟨hlive, hlost, hcore⟩ := frame_live hon
  have hmod : (offNet s).modRank part rank (takeFrame s.args.a f) = (offNet s).modCore ((s.dev.part part).cfg.hbase + rank) (takeFrame s.args.a f) :=
    modRank_running (d := offNet s) hon.2.1 _
  rw [← hmod]
  change execMigrationFrameArrival s = _
  simp only [execMigrationFrameArrival, State.onDev, frame_arrived hmsg, hlive, hlost, hcore, hi, hs, offNet]
  rfl

theorem exec_frame_spill (hspills : 32 ≤ (s.dev.core ((s.dev.part part).cfg.hbase + rank)).inbox.length
      ∨ (s.dev.core ((s.dev.part part).cfg.hbase + rank)).spilled ≠ 0) {b : Bool} {e : Dev} (hspill : spillFrame part rank f (offNet s) = .ok (b, e)) :
    exec .migrationFrameArrival s = .next { s with
      dev := if b then e.leaveSlot ((s.dev.part part).cfg.hbase + f.srcRank) f.srcSlot
      else ((offNet s).modSlot ((s.dev.part part).cfg.hbase + f.srcRank) f.srcSlot fun a =>
        { a with fflags := a.fflags ||| f.status.extractLsb' 10 6 }).trap ((s.dev.part part).cfg.hbase + f.srcRank) f.srcSlot ⟨.migrate, 0⟩ } := by
  obtain ⟨hlive, hlost, hcore⟩ := frame_live hon
  have hroom : (decide ((s.dev.core ((s.dev.part part).cfg.hbase + rank)).inbox.length < 32)
      && (s.dev.core ((s.dev.part part).cfg.hbase + rank)).spilled == 0) = false := by
    rw [Bool.and_eq_false_iff, decide_eq_false_iff_not, beq_eq_false_iff_ne]
    exact hspills.imp Nat.not_lt.mpr id
  change execMigrationFrameArrival s = _
  rw [offNet] at hspill
  simp only [execMigrationFrameArrival, State.onDev, frame_arrived hmsg, hlive, hlost, hcore, hroom, hspill, offNet]
  cases b <;> rfl

end

end Sys2Proof.Claims

namespace Sys2Proof.Claims
open Machine

/-! ### A frame goes to the spill area (R150) -/

/-- With every record valid, no frame goes to the spill area. -/
theorem spillFrame_full {d : Dev} (h : AtHomes d) {part : Nat} (rank : Nat) (f : Frame)
    (hall : ∀ j < (d.part part).spillCount, spillWord d part j / 2 ^ 63 % 2 = 1) : ∃ e, spillFrame part rank f d = .ok (false, e) := by
  obtain ⟨e, hfree, -⟩ := freeSpill_lowest h part 0 (d.part part).spillCount
  have hnone : ((List.range' 0 (d.part part).spillCount).find? fun j => spillWord d part j / 2 ^ 63 % 2 == 0) = none := by
    rw [List.find?_eq_none]
    intro j hj
    rw [hall j (by simpa [List.mem_range'] using hj)]
    decide
  rw [hnone] at hfree
  exact ⟨e, Eng.bind_ok.mpr ⟨d, d, rfl, Eng.bind_ok.mpr ⟨none, e, hfree, rfl⟩⟩⟩

/-- The sequence number that the next frame to a rank spilled gets. -/
def nextSeq (d : Dev) (part rank : Nat) : HWord := (aget? (d.part part).spillSeq rank).getD 0

/-- What a spilled frame changes beside memory. -/
def afterSpill (d : Dev) (part rank r : Nat) (seq : HWord) : Dev :=
  (d.modPart part fun p => { p with spillSeq := aset p.spillSeq rank (seq + 1) }).modCore r fun c => { c with spilled := c.spilled + 1 }

/-- A change of a core that leaves its slots. -/
theorem slot_modCore_slots {f : Core → Core} (hf : ∀ c, (f c).slots = c.slots) (d : Dev) (r c k : Nat) : (d.modCore r f).slot c k = d.slot c k := by
  rw [Dev.modCore_eq]
  by_cases hc : c = r
  · rw [hc, Dev.slot, Dev.core_setCore, Core.slot, hf]
    rfl
  · rw [Dev.slot_setCore_ne _ _ _ _ _ hc]

section
variable (d : Dev) (part rank r : Nat) (seq : HWord)

theorem part_afterSpill : (afterSpill d part rank r seq).part part
    = { d.part part with spillSeq := aset (d.part part).spillSeq rank (seq + 1) } :=
  Dev.part_modPart d part fun p => { p with spillSeq := aset p.spillSeq rank (seq + 1) }

theorem slot_afterSpill (c k : Nat) : (afterSpill d part rank r seq).slot c k = d.slot c k := slot_modCore_slots (by exact fun _ => rfl) _ r c k

theorem spilled_afterSpill : ((afterSpill d part rank r seq).core r).spilled = (d.core r).spilled + 1 := by
  rw [afterSpill, Dev.modCore_eq, Dev.core_setCore]
  rfl

end

/-- A frame is written into the lowest record that is not valid. -/
theorem spillFrame_free {d : Dev} (h : AtHomes d) {part rank i : Nat} (f : Frame) (hctx : aget? (d.part part).ctx rank = none)
    (hi : i < (d.part part).spillCount) (hfree : spillWord d part i / 2 ^ 63 % 2 = 0) (hlow : ∀ j < i, spillWord d part j / 2 ^ 63 % 2 = 1) :
    ∃ w m, spillFrame part rank f d = .ok (true, (afterSpill w part rank ((d.part part).cfg.hbase + rank) (nextSeq d part rank)).moveRemote part
        (f.srcRank, f.srcSlot) (rank, spillKey (nextSeq d part rank).toNat))
      ∧ CacheOnly { d with mem := m } w
      ∧ m.nat ((d.part part).spillAt i) 2048 = (2 ^ 63 + (nextSeq d part rank).toNat * 4096 + rank + f.nat * 2 ^ (8 * 128)) % 256 ^ 2048
      ∧ ∀ a, (a < (d.part part).spillAt i ∨ (d.part part).spillAt i + 2048 ≤ a) → m.get a = d.mem.get a := by
  obtain ⟨e, hscan, he⟩ := freeSpill_lowest h part 0 (d.part part).spillCount
  have hsome : ((List.range' 0 (d.part part).spillCount).find? fun j => spillWord d part j / 2 ^ 63 % 2 == 0) = some i := by
    rw [List.find?_range'_eq_some]
    exact ⟨beq_iff_eq.mpr hfree, by simp [List.mem_range', hi], fun j _ hj => by rw [hlow j hj]; rfl⟩
  rw [hsome] at hscan
  generalize hseq : nextSeq d part rank = seq
  obtain ⟨m, w, hwrite, hw, -, hin, hout⟩ := (h.cache he).agWrite ((d.part part).spillAt i) 2048
    (2 ^ 63 + seq.toNat * 4096 + rank + f.nat * 2 ^ (8 * 128)) part
  have hcache : CacheOnly { d with mem := m } w := by
    obtain ⟨_, _, _, _, _, rfl⟩ := he
    obtain ⟨_, _, _, _, _, rfl⟩ := hw
    exact ⟨_, _, _, _, _, rfl⟩
  have hmem : e.mem = d.mem := by obtain ⟨_, _, _, _, _, rfl⟩ := he; rfl
  have hpart : (w.part part).ctx = (d.part part).ctx ∧ (w.part part).cfg = (d.part part).cfg := by
    obtain ⟨_, _, _, _, _, rfl⟩ := hcache
    exact ⟨rfl, rfl⟩
  have hrank : (w.modPart part fun p => { p with spillSeq := aset p.spillSeq rank (seq + 1) }).modRank part rank (fun c => { c with spilled := c.spilled + 1 })
      = afterSpill w part rank ((d.part part).cfg.hbase + rank) seq := by
    rw [modRank_running (by rw [Dev.part_modPart, hpart.1, hctx]), Dev.part_modPart, Part.devRank, hpart.2]
    rfl
  refine ⟨w, m, ?_, hcache, hin, fun a ha => (hout a ha).trans (by rw [hmem])⟩
  rw [← hrank]
  subst hseq
  exact Eng.bind_ok.mpr ⟨d, d, rfl, Eng.bind_ok.mpr ⟨some i, e, hscan, Eng.bind_ok.mpr ⟨(), w, hwrite, rfl⟩⟩⟩

end Sys2Proof.Claims

namespace Sys2Proof.Claims
open Machine

/-! ### The three ways of a frame (R148-R150) -/

section
variable {s : State} {part rank : Nat} {f : Frame} {th : Option (Nat × Nat × Nat)}
  (hmsg : aget? s.dev.net s.args.a = some ⟨.frame part rank f, [], th⟩) (hon : OnCore s.dev part rank) (hk : f.srcSlot < 16)

/-- Beside the network, the accesses to other modules and what waits for them, a frame of a home slot that has entered the inbox of core `r` changes
only its source slot and that inbox. -/
structure OnlyFrameMoved (s t : State) (part r src : Nat) (f : Frame) (key : Nat × Nat) : Prop where
  dev : { t.dev with cores := s.dev.cores, net := s.dev.net, remote := s.dev.remote }
    = { s.dev.mapGates (gateTo part f key) with cores := s.dev.cores, net := s.dev.net, remote := s.dev.remote }
  cores : ∀ c, c ≠ r → c ≠ src → { t.dev.core c with out := (s.dev.core c).out, tasks := (s.dev.core c).tasks } = s.dev.core c
  slots : ∀ c k, ¬(c = src ∧ k = f.srcSlot) → t.dev.slot c k = s.dev.slot c k

theorem onlyFrameMoved_of {t : State} {r src : Nat} {key : Nat × Nat} {a : Slot}
    (ht : t.dev = (((offNet s).modCore r (takeFrame s.args.a f)).setSlot src f.srcSlot a).moveRemote part (f.srcRank, f.srcSlot) key) :
    OnlyFrameMoved s t part r src f key := by
  have hcores : ∀ c, c ≠ r → c ≠ src → (((offNet s).modCore r (takeFrame s.args.a f)).setSlot src f.srcSlot a).core c = s.dev.core c :=
    fun c hr hsrc => by
      rw [Dev.core_setSlot_ne _ _ _ _ _ hsrc, Dev.modCore_eq, Dev.core_setCore_ne _ _ _ _ hr]
      rfl
  refine ⟨?_, fun c hr hsrc => ?_, fun c k hck => ?_⟩ <;> rw [ht]
  · rw [Dev.setSlot_eq, Dev.modCore_eq, Dev.setCore, Dev.setCore, offNet]
    exact moveRemote_dev s.dev part f key _ _ _ _ _ _
  · rw [← hcores c hr hsrc]
    exact moveRemote_core _ part f key c
  · rw [moveRemote_slot, Dev.slot_setSlot_ne _ _ _ _ _ _ hck, slot_modCore_slots (f := takeFrame s.args.a f) fun _ => rfl]
    rfl

include hmsg hon hk

theorem frame_enters_inbox (hi : (s.dev.core ((s.dev.part part).cfg.hbase + rank)).inbox.length < 32)
    (hs : (s.dev.core ((s.dev.part part).cfg.hbase + rank)).spilled = 0) :
    Gives .migrationFrameArrival s fun t => FrameLeaves s t s.args.a part f (f.srcRank, inboxKey s.args.a) ∧ LeavesSlot s t part f
      ∧ (t.dev.core ((s.dev.part part).cfg.hbase + rank)).inbox = (s.dev.core ((s.dev.part part).cfg.hbase + rank)).inbox
          ++ [.frame { f with srcSlot := inboxKey s.args.a }]
      ∧ ((s.dev.slot ((s.dev.part part).cfg.hbase + f.srcRank) f.srcSlot).guest = false →
          OnlyFrameMoved s t part ((s.dev.part part).cfg.hbase + rank) ((s.dev.part part).cfg.hbase + f.srcRank) f (f.srcRank, inboxKey s.args.a)) := by
  refine ⟨_, exec_frame_inbox hmsg hon hi hs, ?_⟩
  generalize hr : (s.dev.part part).cfg.hbase + rank = r
  obtain ⟨hflight, -, -⟩ := leaveSlot_leaves ((offNet s).modCore r (takeFrame s.args.a f)) ((s.dev.part part).cfg.hbase + f.srcRank) hk
  have hslots := slot_modCore_slots (f := takeFrame s.args.a f) (fun _ => rfl) (offNet s) r
  refine ⟨frameLeaves_of ⟨rfl, rfl⟩ rfl rfl hflight.net hflight.remote (by rw [Dev.part, hflight.parts]; rfl),
    leavesSlot_of hk (hslots _ _) (moveRemote_slot _ part f _ _ _), ?_, fun hg => ?_⟩
  · calc _ = (((offNet s).modCore r (takeFrame s.args.a f)).core r).inbox :=
          (moveRemote_inbox _ part f (f.srcRank, inboxKey s.args.a) r).1.trans (hflight.cores r).1
      _ = _ := by
        rw [Dev.modCore_eq, Dev.core_setCore]
        rfl
  · refine onlyFrameMoved_of (congrArg (Dev.moveRemote · part (f.srcRank, f.srcSlot) (f.srcRank, inboxKey s.args.a)) (leaveSlot_home ?_))
    rw [hslots]
    exact hg

variable (hspills : 32 ≤ (s.dev.core ((s.dev.part part).cfg.hbase + rank)).inbox.length
    ∨ (s.dev.core ((s.dev.part part).cfg.hbase + rank)).spilled ≠ 0) (hh : AtHomes s.dev)
include hspills hh

omit hmsg hon hk hspills in
theorem offNet_homes : AtHomes (offNet s) := ⟨hh.regs, hh.copies, hh.queue, hh.leases, hh.sound, hh.memory⟩

theorem frame_goes_back (hall : ∀ j < (s.dev.part part).spillCount, spillWord s.dev part j / 2 ^ 63 % 2 = 1)
    (hpend : (s.dev.slot ((s.dev.part part).cfg.hbase + f.srcRank) f.srcSlot).pend = []) :
    Gives .migrationFrameArrival s fun t => Delivered s t s.args.a
      ∧ EntersTrap { s.dev.slot ((s.dev.part part).cfg.hbase + f.srcRank) f.srcSlot with
          fflags := (s.dev.slot ((s.dev.part part).cfg.hbase + f.srcRank) f.srcSlot).fflags ||| f.status.extractLsb' 10 6 }
        (t.dev.slot ((s.dev.part part).cfg.hbase + f.srcRank) f.srcSlot) (s.dev.core ((s.dev.part part).cfg.hbase + f.srcRank)).tvec ⟨.migrate, 0⟩ := by
  obtain ⟨e, hspill⟩ := spillFrame_full (offNet_homes hh) rank f hall
  refine ⟨_, exec_frame_spill hmsg hon hspills hspill, ?_⟩
  generalize (s.dev.part part).cfg.hbase + f.srcRank = src at hpend ⊢
  dsimp only
  rw [if_neg (by decide), Dev.modSlot_eq, Dev.trap_now (by rw [Dev.slot_setSlot _ _ _ _ hk]; exact hpend), Dev.setSlot_setSlot,
    Dev.slot_setSlot _ _ _ _ hk, Dev.slot_setSlot _ _ _ _ hk, Dev.core_setSlot]
  exact ⟨⟨⟨rfl, rfl, aget?_adel_same _ _, fun m hm => aget?_adel_ne _ _ _ hm⟩, rfl⟩, entersTrap_enterTrap _ _ _⟩

theorem frame_spills {i : Nat} (hi : i < (s.dev.part part).spillCount) (hrank : rank < 4096) (hx : f.x.length = 15) (hp : f.p.length = 3)
    (hv : f.v.length = 12) (hfree : spillWord s.dev part i / 2 ^ 63 % 2 = 0) (hlow : ∀ j < i, spillWord s.dev part j / 2 ^ 63 % 2 = 1) :
    Gives .migrationFrameArrival s fun t =>
      FrameLeaves s t s.args.a part f (rank, spillKey (nextSeq s.dev part rank).toNat) ∧ LeavesSlot s t part f
        ∧ SpillBytes t.dev.mem ((s.dev.part part).spillAt i) (2 ^ 63 + (nextSeq s.dev part rank).toNat * 4096 + rank) f
        ∧ (∀ b, (b < (s.dev.part part).spillAt i ∨ (s.dev.part part).spillAt i + 2048 ≤ b) → t.dev.mem.get b = s.dev.mem.get b)
        ∧ (t.dev.part part).spillSeq = aset (s.dev.part part).spillSeq rank (nextSeq s.dev part rank + 1)
        ∧ (t.dev.core ((s.dev.part part).cfg.hbase + rank)).spilled = (s.dev.core ((s.dev.part part).cfg.hbase + rank)).spilled + 1 := by
  obtain ⟨w, m, hspill, hcache, hin, hout⟩ := spillFrame_free (d := offNet s) (offNet_homes hh) f hon.2.1 hi hfree hlow
  refine ⟨_, exec_frame_spill hmsg hon hspills hspill, ?_⟩
  change _ = (2 ^ 63 + (nextSeq s.dev part rank).toNat * 4096 + rank + _) % _ at hin
  rw [show nextSeq (offNet s) part rank = nextSeq s.dev part rank from rfl, show (offNet s).part part = s.dev.part part from rfl]
  generalize nextSeq s.dev part rank = seq at hin ⊢
  have hseq : seq.toNat < 2 ^ 32 := seq.isLt
  have hbytes := spillBytes_of_nat (by omega) hx hp hv hin
  generalize hr : (s.dev.part part).cfg.hbase + rank = r
  generalize hd : afterSpill w part rank r seq = d
  generalize hkey : (rank, spillKey seq.toNat) = key
  obtain ⟨hflight, hmemory, -⟩ := leaveSlot_leaves (d.moveRemote part (f.srcRank, f.srcSlot) key) ((s.dev.part part).cfg.hbase + f.srcRank) hk
  have hw : w.net = adel s.dev.net s.args.a ∧ w.remote = s.dev.remote ∧ w.regs = s.dev.regs ∧ w.mem = m ∧ w.part part = s.dev.part part
      ∧ ∀ c, w.core c = s.dev.core c := by
    obtain ⟨_, _, _, _, _, rfl⟩ := hcache
    exact ⟨rfl, rfl, rfl, rfl, rfl, fun _ => rfl⟩
  obtain ⟨hnet, hremote, hregs, hmem, hwpart, hcores⟩ := hw
  have hpart := part_afterSpill w part rank r seq
  have hslot := slot_afterSpill w part rank r seq ((s.dev.part part).cfg.hbase + f.srcRank) f.srcSlot
  have hspilled := spilled_afterSpill w part rank r seq
  rw [hd, hwpart] at hpart
  rw [hd, hcores] at hspilled
  rw [hd, Dev.slot, Dev.slot, hcores] at hslot
  have hmem' : ((d.moveRemote part (f.srcRank, f.srcSlot) key).leaveSlot ((s.dev.part part).cfg.hbase + f.srcRank) f.srcSlot).mem = m :=
    (hmemory ((congrArg Dev.regs hd).symm.trans (hregs.trans hh.regs))).2.trans ((congrArg Dev.mem hd).symm.trans hmem)
  rw [if_pos rfl]
  refine ⟨frameLeaves_of ⟨rfl, rfl⟩ hflight.net hflight.remote ((congrArg Dev.net hd).symm.trans hnet)
      ((congrArg Dev.remote hd).symm.trans hremote) (by rw [hpart]),
    leavesSlot_of hk ((moveRemote_slot _ part f key _ _).trans hslot) rfl, ?_, ?_, ?_, ?_⟩
  · rw [hmem']
    exact hbytes
  · rw [hmem']
    exact hout
  · calc _ = ((d.moveRemote part (f.srcRank, f.srcSlot) key).part part).spillSeq := by rw [Dev.part, hflight.parts]; rfl
      _ = (d.part part).spillSeq := (moveRemote_part d part f key part).2
      _ = _ := by rw [hpart]
  · calc _ = ((d.moveRemote part (f.srcRank, f.srcSlot) key).core r).spilled := (hflight.cores r).2
      _ = (d.core r).spilled := (moveRemote_inbox d part f key r).2
      _ = _ := hspilled

end

/-! ### A core takes a spilled frame (R150) -/

/-- The frame read from a record holds the words of the record. -/
theorem frameWord_nat {m : Mem} {a j : Nat} (hj : j < 132) : frameWord (m.nat a 1056) j = BitVec.ofNat 64 (m.nat (a + 8 * j) 8) := by
  rw [frameWord, show (2 : Nat) ^ (64 * j) = 256 ^ (8 * j) by
    rw [show (256 : Nat) = 2 ^ 8 from rfl, ← pow_mul, ← Nat.mul_assoc], ← Mem.nat_part (n := 1056) (by omega)]
  exact BitVec.eq_of_toNat_eq (by simp)

theorem frameOfNat_x (y rank : Nat) {j : Nat} (hj : j < 15) : (frameOfNat y rank).x.getD j 0 = frameWord y j := by
  simp [frameOfNat, List.getD_eq_getElem?_getD, hj]

/-- Word 0 of a record whose frame is taken is the old one without its valid bit. -/
theorem head_invalid {x rank : Nat} (h : x % 4096 = rank) : (x / 4096 % 2 ^ 32 * 4096 + rank) % 256 ^ 8 = x % 2 ^ 44 := by
  omega

theorem exec_spillDrain {s : State} {part : Nat} (hpart : (s.dev.core s.args.a).part = some part) (hi : (s.dev.core s.args.a).inbox.length < 32)
    (hs : 0 < (s.dev.core s.args.a).spilled) (hsave : (s.dev.core s.args.a).saving = false) {e : Dev}
    (he : takeSpill part s.args.a (s.args.a - (s.dev.part part).cfg.hbase) s.dev = .ok ((), e)) :
    exec .spillDrain s = .next { s with dev := e } := by
  change execSpillDrain s = _
  simp only [execSpillDrain, State.onDev, hpart, hi, hs, hsave, he]
  rfl

end Sys2Proof.Claims

namespace Sys2Proof
open Machine Claims

/-- Settles O47. A frame that arrives finds room in the inbox, or a spill record, or neither, which the scan of the records decides; what it leaves
behind is the same on the two ways that take it (`leaveSlot_leaves`, `frameLeaves_of`). The record that SPILL_DRAIN reads is the valid one of the
rank with the lowest SEQ (`takeSpill_least`). -/
theorem framesInFlight : Obligations.FramesInFlight := by
  unfold Obligations.FramesInFlight
  refine ⟨fun s part rank f th hmsg hon hk => ⟨fun hi hs => ?_, fun hspills hh _ _ hall hpend => ?_, ?_⟩, ?_⟩
  · obtain ⟨t, ht, hleaves, hslot, hinbox, honly⟩ := frame_enters_inbox hmsg hon hk hi hs
    exact ⟨t, ht, hleaves, hslot, hinbox, fun hg => have ⟨hdev, hcores, hslots⟩ := honly hg; ⟨hdev, hcores, hslots⟩⟩
  · exact frame_goes_back hmsg hon hk hspills hh hall hpend
  · intro i hspills hh _ hi hrank hx hp hv at_ seq hfree hlow
    have hzero : spillWord s.dev part i / 2 ^ 63 = 0 := Nat.div_eq_of_lt hfree
    obtain ⟨t, ht, hleaves, hslot, ⟨hhead, hwx, hpc, hzeros⟩, hout, hseq, hspilled⟩ :=
      frame_spills hmsg hon hk hspills hh hi hrank hx hp hv (by rw [hzero]) hlow
    refine ⟨t, ht, hleaves, hslot, hhead, hwx, hpc, hzeros, fun _ => hout, ?_, fun o ho => ?_, hspilled⟩
    · rw [hseq, aget?_aset_same]
      rfl
    · rw [hseq, aget?_aset_ne _ _ _ _ ho]
  · intro s part i hpart c x rank rec_ mine hi hs hsave hh _ hlt hmine hleast
    obtain ⟨e, _, he, hcore, rfl, hin, hout⟩ := takeSpill_least hh (r := s.args.a) hlt hmine hleast
    refine ⟨_, exec_spillDrain hpart hi hs hsave he, congrArg Core.spilled hcore, hin.trans (head_invalid hmine.2), hout, _,
      congrArg Core.inbox hcore, rfl, fun j hj => ?_, ?_⟩
    · exact (frameOfNat_x _ rank hj).trans (frameWord_nat (by omega))
    · exact frameWord_nat (by decide)

end Sys2Proof

namespace Sys2Proof.Machine

/-! ### What the homes leave of the threads and of the translations (R132, R133, R203) -/

/-- Every slot, every TLB, every quad and every LP frame is as before, and the same thread executes. -/
structure KeepsThreads (d e : Dev) : Prop where
  cur : e.cur = d.cur
  quads : e.quads = d.quads
  lp : e.lp = d.lp
  core : ∀ r, (e.core r).slots = (d.core r).slots ∧ (e.core r).tlb = (d.core r).tlb

theorem KeepsThreads.refl (d : Dev) : KeepsThreads d d := ⟨rfl, rfl, rfl, fun _ => ⟨rfl, rfl⟩⟩

theorem KeepsThreads.trans {a b c : Dev} (h : KeepsThreads a b) (k : KeepsThreads b c) : KeepsThreads a c :=
  ⟨k.cur.trans h.cur, k.quads.trans h.quads, k.lp.trans h.lp, fun r => ⟨(k.core r).1.trans (h.core r).1, (k.core r).2.trans (h.core r).2⟩⟩

theorem KeepsThreads.slot {d e : Dev} (h : KeepsThreads d e) (r k : Nat) : e.slot r k = d.slot r k :=
  congrArg (vget · k Slot.reset) (h.core r).1

theorem KeepsThreads.th {d e : Dev} (h : KeepsThreads d e) : e.th = d.th := by
  rw [Dev.th, h.cur, h.slot]
  rfl

theorem KeepsThreads.quad {d e : Dev} (h : KeepsThreads d e) (q : Nat) : e.quad q = d.quad q := by
  rw [Dev.quad, h.quads]
  rfl

/-- A change beside the units. -/
theorem KeepsThreads.home {d e : Dev} (hcur : e.cur = d.cur) (hquads : e.quads = d.quads) (hlp : e.lp = d.lp) (hcores : e.cores = d.cores) :
    KeepsThreads d e :=
  ⟨hcur, hquads, hlp, fun r => by rw [show e.core r = d.core r by rw [Dev.core, hcores]; rfl]; exact ⟨rfl, rfl⟩⟩

theorem KeepsThreads.cache {d e : Dev} (h : CacheOnly d e) : KeepsThreads d e := by
  obtain ⟨_, _, _, _, _, rfl⟩ := h
  exact .home rfl rfl rfl rfl

/-- A core whose slots and TLB stay. -/
theorem KeepsThreads.ofCore {r : Nat} {f : Core → Core} (d : Dev)
    (hf : (f (d.core r)).slots = (d.core r).slots ∧ (f (d.core r)).tlb = (d.core r).tlb) : KeepsThreads d (d.modCore r f) := by
  refine ⟨rfl, rfl, rfl, fun c => ?_⟩
  rw [Dev.modCore_eq]
  by_cases hc : c = r
  · rw [hc, Dev.core_setCore]
    exact hf
  · rw [Dev.core_setCore_ne _ _ _ _ hc]
    exact ⟨rfl, rfl⟩

theorem KeepsThreads.foldl {α : Type} {g : Dev → α → Dev} (hg : ∀ e x, KeepsThreads e (g e x)) (l : List α) (d : Dev) :
    KeepsThreads d (l.foldl g d) := by
  induction l generalizing d with
  | nil => exact .refl d
  | cons x l ih => exact (hg d x).trans (ih _)

theorem touch_threads (d : Dev) (l home part cls : Nat) (pg : PageId) (write : Bool) : KeepsThreads d (d.touch l home part cls pg write) :=
  .cache (Dev.touch_cache ..)

theorem settleBack_threads (d : Dev) (r line : Nat) : KeepsThreads d (d.settleBack r line) := by
  rw [Dev.settleBack]
  dsimp only
  split
  · exact .refl d
  · have hback := KeepsThreads.foldl (g := fun (d : Dev) (e : WbEntry) =>
      let d := d.touch line e.home e.part e.cls e.pg true
      { d with
        mem := d.mem.setMasked (128 * line) e.data e.mask 128
        poison := if e.bad && !d.poison.contains line then d.poison ++ [line] else d.poison })
      (fun e x => (touch_threads e line x.home x.part x.cls x.pg true).trans (.home rfl rfl rfl rfl))
      ((d.core r).wb.filter fun e => e.wback && e.line == line) d
    have hwb := hback.trans (.ofCore (r := r) (f := fun c => { c with wb := c.wb.filter fun e => !(e.wback && e.line == line) }) _ ⟨rfl, rfl⟩)
    split
    · split
      · exact hwb.trans (.home rfl rfl rfl rfl)
      · exact hwb.trans (.home rfl rfl rfl rfl)
    · exact hwb.trans (.home rfl rfl rfl rfl)

/-- A recalled line at its home, and the state of its stash entry. -/
theorem KeepsThreads.recalled (d : Dev) (m : Mem) (p : List Nat) (regs : AMap (Nat × Nat)) (r e : Nat) (x : StashEntry) :
    KeepsThreads d (({ d with mem := m, poison := p, regs := regs } : Dev).modCore r fun c => { c with stash := aset c.stash e x }) :=
  (KeepsThreads.home (d := d) (e := { d with mem := m, poison := p, regs := regs }) rfl rfl rfl rfl).trans
    (.ofCore (r := r) (f := fun c => { c with stash := aset c.stash e x }) _ ⟨rfl, rfl⟩)

theorem recallStash_threads (d : Dev) (line : Nat) : KeepsThreads d (d.recallStash line) := by
  rw [Dev.recallStash]
  split
  next => exact .refl d
  next r e _ =>
    refine (settleBack_threads d r line).trans ?_
    generalize d.settleBack r line = d
    dsimp only
    split
    next s _ =>
      split
      · split
        · have htouch := touch_threads d line s.home s.part s.cls ⟨s.gva / 65536, s.large⟩ true
          generalize d.touch line s.home s.part s.cls ⟨s.gva / 65536, s.large⟩ true = g at htouch
          generalize g.mem.setLine line ((d.core r).stashLine e) = m
          exact htouch.trans (.recalled g m _ _ r e { s with st := .mapped })
        · exact .recalled d d.mem d.poison _ r e { s with st := .mapped }
      · exact .home rfl rfl rfl rfl
    next => exact .home rfl rfl rfl rfl

theorem sendBack_threads (d : Dev) (r line : Nat) : KeepsThreads d (d.sendBack r line) := by
  unfold Dev.sendBack
  split
  next => exact .refl d
  next u _ =>
    extract_lets t q d'
    have hcore : KeepsThreads d d' := .ofCore d ⟨rfl, rfl⟩
    clear_value d'
    exact hcore.trans (.home rfl rfl rfl rfl)

theorem noteCombine_threads (d : Dev) (u : Uoc) : KeepsThreads d (d.noteCombine u) := by
  rw [Dev.noteCombine]
  split
  · exact .home rfl rfl rfl rfl
  · exact .refl d

theorem combine_threads (d : Dev) (u : Uoc) : KeepsThreads d (d.combine u) := by
  have htouch := (noteCombine_threads d u).trans (touch_threads (d.noteCombine u) u.line u.home u.part u.cls u.pg true)
  rw [Dev.combine]
  generalize (d.noteCombine u).touch u.line u.home u.part u.cls u.pg true = g at htouch ⊢
  exact htouch.trans (.home rfl rfl rfl rfl)

theorem recordTag_threads (d : Dev) (recv rank seq : Nat) (result : Word) (flags : BitVec 6) :
    KeepsThreads d (d.recordTag recv rank seq result flags) := .home rfl rfl rfl rfl

theorem applyBack_threads (d : Dev) (q : HomeReq) (u : Uoc) : KeepsThreads d (d.applyBack q u) := by
  unfold Dev.applyBack
  extract_lets t d1 d2
  have hreq : KeepsThreads d d2 := KeepsThreads.trans (b := d1) (.home rfl rfl rfl rfl) (.ofCore d1 ⟨rfl, rfl⟩)
  clear_value d2
  split
  · exact hreq
  · exact (hreq.trans (combine_threads d2 u)).trans (recordTag_threads ..)

theorem recallUocs_threads (d : Dev) (line : Nat) : KeepsThreads d (d.recallUocs line) := by
  have hsend : ∀ (e : Dev) (p : Nat × Core), KeepsThreads e (e.sendBack p.1 line) := fun e p => sendBack_threads e p.1 line
  have happly : ∀ (e : Dev) (p : HomeReq × Uoc), KeepsThreads e (e.applyBack p.1 p.2) := fun e p => applyBack_threads e p.1 p.2
  exact (KeepsThreads.foldl hsend _ d).trans (.foldl happly _ _)

theorem prepare_threads (d : Dev) (line : Nat) : KeepsThreads d (d.prepare line) := by
  have hsettle : KeepsThreads d (match aget? d.regs line with
      | some (r, _) => d.settleBack r line
      | none => d) := by
    split
    · exact settleBack_threads d _ line
    · exact .refl d
  unfold Dev.prepare
  extract_lets d'
  split
  · exact hsettle.trans ((recallStash_threads _ line).trans (recallUocs_threads _ line))
  · exact hsettle

theorem lineWrite_threads (d : Dev) (line : Nat) (data : Line) (mask : BitVec 128) (home part cls : Nat) (page : PageId) :
    KeepsThreads d (d.lineWrite line data mask home part cls page) := by
  rw [Dev.lineWrite]
  split
  next r e _ =>
    refine .ofCore d ?_
    dsimp only
    split <;> exact ⟨rfl, rfl⟩
  next =>
    have htouch := touch_threads d line home part cls page true
    generalize d.touch line home part cls page true = g at htouch ⊢
    exact htouch.trans (.home rfl rfl rfl rfl)

theorem agentWrite_threads (d : Dev) (pa n x part : Nat) (leaf : Word) (page : PageId) : KeepsThreads d (d.agentWrite pa n x part leaf page) := by
  rw [Dev.agentWrite]
  refine .foldl (fun e p => ?_) _ d
  dsimp only
  split
  · exact .refl e
  · exact (prepare_threads e p.1).trans (lineWrite_threads ..)

theorem agWrite_threads {d e : Dev} {pa n x part : Nat} (h : agWrite pa n x part d = .ok ((), e)) : KeepsThreads d e := by
  rw [← (agWrite_ok.mp h).2.2]
  exact agentWrite_threads ..

theorem send_threads (d : Dev) (m : Msg) (gates : List Gate) (thread : Option (Nat × Nat × Nat)) : KeepsThreads d (d.send m gates thread) :=
  .home rfl rfl rfl rfl

theorem post_threads (d : Dev) (src part rank idx : Nat) (inc : HWord) (gates : List Gate) (thread : Option (Nat × Nat × Nat)) :
    KeepsThreads d (d.post src part rank idx inc gates thread) := by
  unfold Dev.post
  extract_lets seq m
  refine KeepsThreads.trans ?_ (send_threads _ m gates none)
  exact .ofCore d ⟨rfl, rfl⟩

end Sys2Proof.Machine

namespace Sys2Proof.Machine

/-! ### Units after a change of one slot, of every core, of every quad -/

/-- A slot after a change of one slot: changed, or as it was. -/
theorem Dev.slot_modSlot_or (d : Dev) (r k : Nat) (f : Slot → Slot) (c j : Nat) :
    (d.modSlot r k f).slot c j = f (d.slot c j) ∨ (d.modSlot r k f).slot c j = d.slot c j := by
  rw [Dev.modSlot_eq]
  by_cases h : c = r ∧ j = k
  · obtain ⟨rfl, rfl⟩ := h
    by_cases hk : j < 16
    · exact .inl (Dev.slot_setSlot _ _ _ _ hk)
    · have hk := Nat.not_lt.mp hk
      exact .inr ((Core.slot_beyond _ _ hk).trans (Core.slot_beyond _ _ hk).symm)
  · exact .inr (Dev.slot_setSlot_ne _ _ _ _ _ _ h)

/-- A change of slots alone. -/
theorem Dev.core_setSlot_slots (d : Dev) (r k : Nat) (a : Slot) (c : Nat) : ∃ v, (d.setSlot r k a).core c = { d.core c with slots := v } := by
  by_cases h : c = r
  · exact ⟨_, by rw [h, Dev.core_setSlot]; rfl⟩
  · exact ⟨_, Dev.core_setSlot_ne _ _ _ _ _ h⟩

theorem Dev.core_retire (d : Dev) (c : Nat) : ∃ v, d.retire.core c = { d.core c with slots := v } := Dev.core_setSlot_slots ..

theorem aget?_mapKey {α β : Type} (f : Nat → α → β) (m : AMap α) (k : Nat) :
    aget? (m.map fun p => (p.1, f p.1 p.2)) k = (aget? m k).map (f k) := by
  induction m with
  | nil => rfl
  | cons p m ih =>
    rw [List.map_cons, aget?, aget?]
    split
    next h => rw [h]; rfl
    next => exact ih

/-- A core of the device after a change of every core that leaves an empty one as it is. -/
theorem Dev.core_map {g : Nat → Core → Core} (d : Dev) (r : Nat) (hg : g r Core.reset = Core.reset) :
    (aget? (d.cores.map fun p => (p.1, g p.1 p.2)) r).getD Core.reset = g r (d.core r) := by
  rw [aget?_mapKey, Dev.core]
  cases aget? d.cores r with
  | none => exact hg.symm
  | some c => rfl

theorem Dev.quad_map {g : Quad → Quad} (d : Dev) (q : Nat) (hg : g Quad.reset = Quad.reset) :
    (aget? (d.quads.map fun p => (p.1, g p.2)) q).getD Quad.reset = g (d.quad q) := by
  rw [aget?_map, Dev.quad]
  cases aget? d.quads q with
  | none => exact hg.symm
  | some c => rfl

/-! ### The ends of leases (R279, R280) -/

/-- Some leases have ended: a slot may hold another lease record, and beside slots and leases nothing changes. -/
structure EndsLeases (d e : Dev) : Prop where
  cur : e.cur = d.cur
  quads : e.quads = d.quads
  lp : e.lp = d.lp
  tlb : ∀ r, (e.core r).tlb = (d.core r).tlb
  slot : ∀ r k, ∃ l, e.slot r k = { d.slot r k with lease := l }

theorem EndsLeases.refl (d : Dev) : EndsLeases d d := ⟨rfl, rfl, rfl, fun _ => rfl, fun _ _ => ⟨_, rfl⟩⟩

theorem EndsLeases.trans {a b c : Dev} (h : EndsLeases a b) (k : EndsLeases b c) : EndsLeases a c := by
  refine ⟨k.cur.trans h.cur, k.quads.trans h.quads, k.lp.trans h.lp, fun r => (k.tlb r).trans (h.tlb r), fun r j => ?_⟩
  obtain ⟨l, hl⟩ := h.slot r j
  obtain ⟨l', hl'⟩ := k.slot r j
  exact ⟨l', by rw [hl', hl]⟩

theorem EndsLeases.foldl {α : Type} {g : Dev → α → Dev} (hg : ∀ e x, EndsLeases e (g e x)) (l : List α) (d : Dev) : EndsLeases d (l.foldl g d) := by
  induction l generalizing d with
  | nil => exact .refl d
  | cons x l ih => exact (hg d x).trans (ih _)

theorem EndsLeases.modSlot (d : Dev) (r k : Nat) (f : Option LeaseRec → Option LeaseRec) :
    EndsLeases d (d.modSlot r k fun s => { s with lease := f s.lease }) := by
  refine ⟨rfl, rfl, rfl, fun c => ?_, fun c j => ?_⟩
  · obtain ⟨v, hv⟩ := Dev.core_setSlot_slots d r k { d.slot r k with lease := f (d.slot r k).lease } c
    rw [Dev.modSlot_eq, hv]
  · rcases Dev.slot_modSlot_or d r k (fun s => { s with lease := f s.lease }) c j with h | h
    · exact ⟨_, h⟩
    · exact ⟨_, h⟩

theorem endLease_ends (d : Dev) (line : Nat) (discard : Bool) : EndsLeases d (d.endLease line discard) := by
  unfold Dev.endLease
  extract_lets hs d1
  have hleases : EndsLeases d d1 := ⟨rfl, rfl, rfl, fun _ => rfl, fun _ _ => ⟨_, rfl⟩⟩
  refine hleases.trans (.foldl (fun e (l : LeaseHold) => ?_) hs d1)
  exact .modSlot e l.rank l.slot fun o => o.map fun x =>
    if x.line == line then { x with held := false, mask := if discard then 0 else x.mask } else x

theorem leases_endLease (d : Dev) (line : Nat) (discard : Bool) : (d.endLease line discard).leases = d.leases.filter fun l => l.line != line := by
  unfold Dev.endLease
  extract_lets hs d1
  have hfold : ∀ (l : List LeaseHold) (f : LeaseHold → Slot → Slot) (e : Dev), (l.foldl (fun d x => d.modSlot x.rank x.slot (f x)) e).leases = e.leases := by
    intro l f
    induction l with
    | nil => exact fun _ => rfl
    | cons x l ih => exact fun e => ih _
  exact hfold hs _ d1

/-- A lease that is left after some were ended is none of theirs. -/
theorem leases_endLeases (ls : List LeaseHold) (discard : Bool) (d : Dev) {l : LeaseHold}
    (h : l ∈ (ls.foldl (fun d x => d.endLease x.line discard) d).leases) : l ∈ d.leases ∧ ∀ x ∈ ls, x.line ≠ l.line := by
  induction ls generalizing d with
  | nil => exact ⟨h, by simp⟩
  | cons x ls ih =>
    obtain ⟨hl, hrest⟩ := ih _ h
    rw [leases_endLease, List.mem_filter, bne_iff_ne] at hl
    exact ⟨hl.1, by simpa using ⟨fun e => hl.2 e.symm, hrest⟩⟩

theorem SameMemory.modSlot (d : Dev) (r k : Nat) (f : Slot → Slot) : SameMemory d (d.modSlot r k f) := fun h => ⟨h, rfl⟩

theorem endLease_memory (d : Dev) (line : Nat) (discard : Bool) : SameMemory d (d.endLease line discard) := by
  unfold Dev.endLease
  extract_lets hs d1
  exact SameMemory.trans (b := d1) (fun h => ⟨h, rfl⟩) (.foldl (fun e (l : LeaseHold) => .modSlot e l.rank l.slot _) hs d1)

/-! ### The shootdown (R167, R181, R280) -/

/-- What a shootdown leaves: no translation that it covers, the LP frames of the pages that it covers cleared, no lease on their lines. -/
structure Shot (part kind gva : Nat) (d e : Dev) : Prop where
  cur : e.cur = d.cur
  slot : ∀ r k, ∃ l, e.slot r k = { d.slot r k with lease := l }
  tlb : ∀ r, (e.core r).tlb = (d.core r).tlb.filter fun x => !shotEntry part kind gva x
  quad : ∀ q, (e.quad q).tlb = (d.quad q).tlb.filter fun x => !shotEntry part kind gva x
  lp : e.lp = d.lp.map fun f => (f.1, f.2.shoot part kind gva)
  leases : ∀ l ∈ e.leases, ¬(l.part = part ∧ shotCovers kind gva l.pg = true)

theorem Shot.th {part kind gva : Nat} {d e : Dev} (h : Shot part kind gva d e) : ∃ l, e.th = { d.th with lease := l } := by
  obtain ⟨l, hl⟩ := h.slot d.cur.1 d.cur.2
  exact ⟨l, by rw [Dev.th, h.cur, hl]; rfl⟩

theorem Shot.part {part kind gva : Nat} {d e : Dev} (h : Shot part kind gva d e) : e.th.part = d.th.part := by
  obtain ⟨l, hl⟩ := h.th
  rw [hl]

theorem shootdown_shot (d : Dev) (part kind gva : Nat) : Shot part kind gva d (d.shootdown part kind gva) := by
  unfold Dev.shootdown
  extract_lets keep shot d1 lines d2
  have hrecall : KeepsThreads d1 d2 := .foldl recallStash_threads lines d1
  clear_value d2
  have hends := EndsLeases.foldl (fun e (l : LeaseHold) => endLease_ends e l.line true)
    (d2.leases.filter fun l => l.part == part && shotCovers kind gva l.pg) d2
  have hcore : ∀ r, d1.core r = { d.core r with tlb := keep (d.core r).tlb } := fun r =>
    Dev.core_map (g := fun _ c => { c with tlb := keep c.tlb }) d r rfl
  have hquad : ∀ q, d1.quad q = { d.quad q with tlb := keep (d.quad q).tlb } := fun q =>
    Dev.quad_map (g := fun x => { x with tlb := keep x.tlb }) d q rfl
  refine ⟨hends.cur.trans hrecall.cur, fun r k => ?_, fun r => ?_, fun q => ?_, hends.lp.trans hrecall.lp, fun l hl hcover => ?_⟩
  · obtain ⟨l, hl⟩ := hends.slot r k
    refine ⟨l, ?_⟩
    rw [hl, hrecall.slot, Dev.slot, hcore]
    rfl
  · rw [hends.tlb, (hrecall.core r).2, hcore]
  · rw [Dev.quad, hends.quads]
    change (d2.quad q).tlb = _
    rw [hrecall.quad, hquad]
  · obtain ⟨hmem, hnot⟩ := leases_endLeases _ _ _ hl
    exact hnot l (List.mem_filter.mpr ⟨hmem, by simp [hcover.1, hcover.2]⟩) rfl

/-- Where no line is registered to a stash, a shootdown leaves memory as it is. -/
theorem shootdown_memory (d : Dev) (part kind gva : Nat) : SameMemory d (d.shootdown part kind gva) := by
  unfold Dev.shootdown
  extract_lets keep shot d1 lines d2
  have hrecall : SameMemory d1 d2 := .foldl recallStash_memory lines d1
  clear_value d2
  exact SameMemory.trans (b := d1) (fun h => ⟨h, rfl⟩) (hrecall.trans (.foldl (fun e (l : LeaseHold) => endLease_memory e l.line true) _ d2))

/-- An LP frame that a covered page maps is cleared (R181). -/
theorem LpFrame.shoot_hit {f : LpFrame} {part kind gva : Nat} (h : (f.pages.any fun p => p.1 == part && shotCovers kind gva p.2) = true) :
    f.shoot part kind gva = ⟨0, false, none, f.pages.filter fun p => !(p.1 == part && shotCovers kind gva p.2)⟩ := if_pos h

theorem LpFrame.shoot_miss {f : LpFrame} {part kind gva : Nat} (h : (f.pages.any fun p => p.1 == part && shotCovers kind gva p.2) = false) :
    f.shoot part kind gva = f := if_neg (by simp [h])

/-! ### What stands before a system instruction (R194) -/

/-- A release that is open lets the instruction go on. -/
theorem Dev.releaseNow_open {d : Dev} {sc : MemScope} (ha : d.th.acqPid = []) (hr : d.th.relMark = none)
    (hg : d.gateOpen (d.gateWaiting sc) = true) : d.releaseNow sc = .ok () := by
  simp [Dev.releaseNow, Dev.acqHeld, ha, Dev.relHeld_none hr, Dev.behind, hg, bind, Except.bind]

/-- The kind of a shootdown (R378): 0 to 3 as written, and 3 for any other operand. -/
theorem tlbKind_eq (x : Word) : tlbKind x = if x.toNat < 4 then x.toNat else 3 := by
  have hhigh : (x.extractLsb' 2 62).toNat = x.toNat / 4 := by
    rw [BitVec.extractLsb'_toNat, Nat.shiftRight_eq_div_pow, Nat.mod_eq_of_lt]
    have := x.isLt
    omega
  have hzero : x.extractLsb' 2 62 = 0 ↔ x.toNat < 4 := by
    rw [← BitVec.toNat_inj, hhigh]
    change x.toNat / 4 = 0 ↔ _
    omega
  rw [tlbKind]
  by_cases h : x.toNat < 4
  · rw [hzero.mpr h, if_neg (by decide), if_pos h]
  · rw [if_pos (bne_iff_ne.mpr (mt hzero.mp h)), if_neg h]

end Sys2Proof.Machine

namespace Sys2Proof.Claims
open Machine

/-- A retired thread whose program flow nothing has changed goes on in sequence. -/
theorem inSequence_retire {s : State} {e : Dev} (hk : s.dev.cur.2 < 16) (hcur : e.cur = s.dev.cur)
    (hth : ∃ l, e.th = { s.dev.th with lease := l }) : InSequence s { s with dev := e.retire } := by
  obtain ⟨l, hl⟩ := hth
  unfold InSequence GoesOn
  dsimp only
  rw [Dev.retire_eq, Dev.th_setSlot _ _ (hcur ▸ hk), hl]
  exact ⟨rfl, rfl, rfl⟩

/-- Nothing of it changes but its program flow. -/
theorem flowOf_retire {s : State} {e : Dev} (hk : s.dev.cur.2 < 16) (hcur : e.cur = s.dev.cur) (hth : e.th = s.dev.th) :
    flowOf s.dev.th e.retire.th = s.dev.th := by
  rw [Dev.retire_eq, Dev.th_setSlot _ _ (hcur ▸ hk), hth]
  rfl

theorem exec_tlbinv {ra rb : RegNo} {s : State} (hready : Ready { rx := [ra, rb] } s) (hmode : s.dev.th.mode = true)
    (hwait : ∀ m k g p, s.dev.th.wait ≠ .shootdown m k g p) (hrel : Released s .pkg)
    (hdone : (s.dev.shootdown s.dev.th.part (tlbKind (s.dev.x rb)) (uv (s.dev.x ra) % 2 ^ 48)).shotDone s.dev.th.part (tlbKind (s.dev.x rb))
      (uv (s.dev.x ra) % 2 ^ 48) s.dev.accSeq = true) :
    exec (.tlbinv ra rb) s
      = .next { s with dev := (s.dev.shootdown s.dev.th.part (tlbKind (s.dev.x rb)) (uv (s.dev.x ra) % 2 ^ 48)).retire } := by
  obtain ⟨hacq, hmark, hgate⟩ := hrel
  refine (State.priv_supervisor hmode).trans (State.thread_ok hready.2.1 hready.2.2 ?_)
  dsimp only
  split
  next m k g p h => exact absurd h (hwait m k g p)
  next =>
    rw [Dev.releaseNow_open hacq hmark hgate, (shootdown_shot ..).part]
    exact congrArg Except.ok (if_pos hdone)

/-- `tlbinv` (R167, R181, R378). -/
theorem tlbinv_gives {ra rb : RegNo} {s : State} (hready : Ready { rx := [ra, rb] } s) (hmode : s.dev.th.mode = true)
    (hwait : ∀ m k g p, s.dev.th.wait ≠ .shootdown m k g p) (hrel : Released s .pkg) {gva kind : Nat} (hgva : gva = uv (s.dev.x ra) % 2 ^ 48)
    (hkind : kind = tlbKind (s.dev.x rb))
    (hdone : (s.dev.shootdown s.dev.th.part kind gva).shotDone s.dev.th.part kind gva s.dev.accSeq = true) :
    Gives (.tlbinv ra rb) s fun t => GoesOn t (link s.dev.th.pc) s.dev.th.arrive
      ∧ (∀ r, ∀ e ∈ (t.dev.core r).tlb, shotEntry s.dev.th.part kind gva e = false)
      ∧ (∀ q, ∀ e ∈ (t.dev.quad q).tlb, shotEntry s.dev.th.part kind gva e = false)
      ∧ (∀ l ∈ t.dev.leases, ¬(l.part = s.dev.th.part ∧ shotCovers kind gva l.pg = true))
      ∧ ∀ f x, aget? s.dev.lp f = some x →
        let hit (p : Nat × PageId) : Bool := p.1 == s.dev.th.part && shotCovers kind gva p.2
        (x.pages.any hit = true → aget? t.dev.lp f = some ⟨0, false, none, x.pages.filter fun p => !hit p⟩)
        ∧ (x.pages.any hit = false → aget? t.dev.lp f = some x) := by
  subst hgva hkind
  have hshot := shootdown_shot s.dev s.dev.th.part (tlbKind (s.dev.x rb)) (uv (s.dev.x ra) % 2 ^ 48)
  refine ⟨_, exec_tlbinv hready hmode hwait hrel hdone, inSequence_retire hready.1 hshot.cur hshot.th, fun r e he => ?_, fun q e he => ?_,
    hshot.leases, fun f x hx => ?_⟩
  · obtain ⟨v, hv⟩ := Dev.core_retire (s.dev.shootdown s.dev.th.part (tlbKind (s.dev.x rb)) (uv (s.dev.x ra) % 2 ^ 48)) r
    dsimp only at he
    rw [hv, hshot.tlb] at he
    simpa using (List.mem_filter.mp he).2
  · have he : e ∈ ((s.dev.shootdown s.dev.th.part (tlbKind (s.dev.x rb)) (uv (s.dev.x ra) % 2 ^ 48)).quad q).tlb := he
    rw [hshot.quad] at he
    simpa using (List.mem_filter.mp he).2
  · have hlp : aget? (s.dev.shootdown s.dev.th.part (tlbKind (s.dev.x rb)) (uv (s.dev.x ra) % 2 ^ 48)).lp f
        = some (x.shoot s.dev.th.part (tlbKind (s.dev.x rb)) (uv (s.dev.x ra) % 2 ^ 48)) := by
      rw [hshot.lp, aget?_map fun y : LpFrame => y.shoot s.dev.th.part (tlbKind (s.dev.x rb)) (uv (s.dev.x ra) % 2 ^ 48), hx]
      rfl
    exact ⟨fun hhit => hlp.trans (congrArg some (LpFrame.shoot_hit hhit)), fun hmiss => hlp.trans (congrArg some (LpFrame.shoot_miss hmiss))⟩

end Sys2Proof.Claims

namespace Sys2Proof.Machine

/-! ### Lines that `cinval` drops (R380) -/

/-- What `cinval` of a line by core `r` leaves: every copy of the line is gone, and memory holds what DRAM held. -/
structure Invalidates (r line : Nat) (d e : Dev) : Prop where
  cur : e.cur = d.cur
  core : ∀ c, ∃ st o, e.core c = { d.core c with
    wb := (d.core c).wb.filter fun x => !(x.line == line && (c == r || x.wback)), stash := st
    l1d := adel (d.core c).l1d line, uoc := (d.core c).uoc.filter (·.line != line), out := o }
  regs : ∀ l, aget? e.regs l = if l = line then none else aget? d.regs l
  llc : e.llc = adel d.llc line
  poison : e.poison = d.poison.filter (· != line)
  mem : e.mem = match (aget? d.llc line).bind (·.dram) with
    | some x => d.mem.setLine line x
    | none => d.mem

theorem aget?_adel {α : Type} (m : AMap α) (k l : Nat) : aget? (adel m k) l = if l = k then none else aget? m l := by
  split
  next h => rw [h, aget?_adel_same]
  next h => exact aget?_adel_ne _ _ _ h

/-- A core after a change of one core's stash entries. -/
theorem Dev.core_modStash {f : Core → Core} (hf : ∀ x, ∃ st, f x = { x with stash := st }) (d : Dev) (r c : Nat) :
    ∃ st, (d.modCore r f).core c = { d.core c with stash := st } := by
  rw [Dev.modCore_eq]
  by_cases h : c = r
  · obtain ⟨st, hst⟩ := hf (d.core r)
    exact ⟨st, by rw [h, Dev.core_setCore, hst]⟩
  · exact ⟨_, Dev.core_setCore_ne _ _ _ _ h⟩

theorem cinvalLine_invalidates (r : Nat) (d : Dev) (line : Nat) : Invalidates r line d (d.cinvalLine r line) := by
  unfold Dev.cinvalLine
  extract_lets gone stale d1 d2 back backs d3 d4
  have hstores : ∀ c, d1.core c = { d.core c with wb := (d.core c).wb.filter fun x => !gone c x } := fun c =>
    Dev.core_map (g := fun k (x : Core) => { x with wb := x.wb.filter fun e => !gone k e }) d c rfl
  have hentry : d2.cur = d.cur ∧ d2.llc = d.llc ∧ d2.poison = d.poison ∧ d2.mem = d.mem
      ∧ (∀ c, ∃ st, d2.core c = { d1.core c with stash := st }) ∧ ∀ l, aget? d2.regs l = if l = line then none else aget? d.regs l := by
    dsimp only [d2]
    split
    next o e h =>
      refine ⟨rfl, rfl, rfl, rfl, Dev.core_modStash (fun x => ?_) { d1 with regs := adel d1.regs line } o, aget?_adel d.regs line⟩
      split
      · split <;> exact ⟨_, rfl⟩
      · exact ⟨_, rfl⟩
    next h =>
      refine ⟨rfl, rfl, rfl, rfl, fun c => ⟨_, rfl⟩, fun l => ?_⟩
      split
      next hl => rw [hl]; exact h
      next => rfl
  clear_value d2
  obtain ⟨hcur, hllc, hpoison, hmem, hcore, hregs⟩ := hentry
  have hcopies : ∀ c, d3.core c = { d2.core c with
      l1d := adel (d2.core c).l1d line, uoc := (d2.core c).uoc.filter (·.line != line)
      out := (d2.core c).out.filter fun o => !backs.any fun q => q.rank == c && q.tag == some o.1 } := fun c =>
    Dev.core_map (g := fun k (x : Core) => { x with
      l1d := adel x.l1d line, uoc := x.uoc.filter (·.line != line)
      out := x.out.filter fun o => !backs.any fun q => q.rank == k && q.tag == some o.1 }) d2 c rfl
  have hsame : d3.cur = d.cur ∧ d3.llc = d.llc ∧ d3.poison = d.poison ∧ d3.mem = d.mem ∧ d3.regs = d2.regs := ⟨hcur, hllc, hpoison, hmem, rfl⟩
  clear_value d3
  obtain ⟨hcur3, hllc3, hpoison3, hmem3, hregs3⟩ := hsame
  have hdram : d4 = { d3 with mem := match (aget? d3.llc line).bind (·.dram) with
      | some x => d3.mem.setLine line x
      | none => d3.mem } := by
    dsimp only [d4]
    cases (aget? d3.llc line).bind (·.dram) <;> rfl
  rw [hdram]
  refine ⟨hcur3, fun c => ?_, fun l => (congrArg (aget? · l) hregs3).trans (hregs l), congrArg (adel · line) hllc3,
    congrArg (List.filter (· != line)) hpoison3, ?_⟩
  · obtain ⟨st, hst⟩ := hcore c
    refine ⟨st, (d2.core c).out.filter fun o => !backs.any fun q => q.rank == c && q.tag == some o.1, (hcopies c).trans ?_⟩
    rw [hst, hstores]
  · dsimp only
    rw [hllc3, hmem3]

theorem Invalidates.slots {r line : Nat} {d e : Dev} (h : Invalidates r line d e) (c : Nat) : (e.core c).slots = (d.core c).slots := by
  obtain ⟨_, _, hc⟩ := h.core c
  rw [hc]

theorem Invalidates.th {r line : Nat} {d e : Dev} (h : Invalidates r line d e) : e.th = d.th := by
  rw [Dev.th, h.cur, Dev.slot, Core.slot, h.slots]
  rfl

/-- No copy of a line is left, nor a store to it in the write buffer of core `r`. -/
structure NoCopies (r line : Nat) (d : Dev) : Prop where
  l1d : ∀ c, aget? (d.core c).l1d line = none
  uoc : ∀ c, ∀ u ∈ (d.core c).uoc, u.line ≠ line
  llc : aget? d.llc line = none
  poison : line ∉ d.poison
  regs : aget? d.regs line = none
  wb : ∀ x ∈ (d.core r).wb, x.line ≠ line

theorem Invalidates.noCopies {r line : Nat} {d e : Dev} (h : Invalidates r line d e) : NoCopies r line e where
  l1d c := by
    obtain ⟨_, _, hc⟩ := h.core c
    rw [hc]
    exact aget?_adel_same ..
  uoc c u hu := by
    obtain ⟨_, _, hc⟩ := h.core c
    rw [hc] at hu
    exact bne_iff_ne.mp (List.mem_filter.mp hu).2
  llc := by rw [h.llc, aget?_adel_same]
  poison hp := by
    rw [h.poison] at hp
    simpa using (List.mem_filter.mp hp).2
  regs := by rw [h.regs, if_pos rfl]
  wb x hx := by
    obtain ⟨_, _, hc⟩ := h.core r
    rw [hc] at hx
    simpa using (List.mem_filter.mp hx).2

/-- A line without copies gets none where another is dropped. -/
theorem Invalidates.keepsNoCopies {r line l : Nat} {d e : Dev} (h : Invalidates r line d e) (k : NoCopies r l d) : NoCopies r l e where
  l1d c := by
    obtain ⟨_, _, hc⟩ := h.core c
    rw [hc]
    exact (aget?_adel ..).trans (by rw [k.l1d, ite_self])
  uoc c u hu := by
    obtain ⟨_, _, hc⟩ := h.core c
    rw [hc] at hu
    exact k.uoc c u (List.mem_filter.mp hu).1
  llc := by rw [h.llc, aget?_adel, k.llc, ite_self]
  poison hp := by
    rw [h.poison] at hp
    exact k.poison (List.mem_filter.mp hp).1
  regs := by rw [h.regs, k.regs, ite_self]
  wb x hx := by
    obtain ⟨_, _, hc⟩ := h.core r
    rw [hc] at hx
    exact k.wb x (List.mem_filter.mp hx).1

theorem Mem.line_setLine_ne {m : Mem} {l k : Nat} (x : Line) (hw : Mem.wf m = true) (h : k ≠ l) : (m.setLine l x).line k = m.line k := by
  rw [Mem.line, Mem.nat_congr fun i hi => Mem.get_setLine_outside l x (128 * k + i) hw (by omega)]
  rfl

/-- What DRAM holds of a line (R380): the value before the writes that its home has not written back. -/
def Dev.dramLine (d : Dev) (line : Nat) : Line := ((aget? d.llc line).bind (·.dram)).getD (d.mem.line line)

theorem Invalidates.memory {r line : Nat} {d e : Dev} (h : Invalidates r line d e) (hw : d.mem.wf = true) : e.mem.wf = true
    ∧ (∀ l, e.mem.line l = if l = line then d.dramLine line else d.mem.line l)
    ∧ ∀ a, (a < 128 * line ∨ 128 * line + 128 ≤ a) → e.mem.get a = d.mem.get a := by
  have hmem := h.mem
  rw [Dev.dramLine]
  generalize (aget? d.llc line).bind (·.dram) = o at hmem ⊢
  cases o with
  | none =>
    have hmem : e.mem = d.mem := hmem
    rw [hmem]
    refine ⟨hw, fun l => ?_, fun _ _ => rfl⟩
    by_cases hl : l = line
    · rw [if_pos hl, hl, Option.getD_none]
    · rw [if_neg hl]
  | some x =>
    have hmem : e.mem = d.mem.setLine line x := hmem
    rw [hmem]
    refine ⟨Mem.wf_setLine _ _ hw, fun l => ?_, fun a ha => Mem.get_setLine_outside _ _ _ hw ha⟩
    by_cases hl : l = line
    · rw [if_pos hl, hl, Mem.line_setLine _ _ hw, Option.getD_some]
    · rw [if_neg hl, Mem.line_setLine_ne x hw hl]

/-- Each line that `cinval` drops reads what DRAM held, and no other does. -/
theorem Invalidates.dramLine {r line l : Nat} {d e : Dev} (h : Invalidates r line d e) (hw : d.mem.wf = true) : e.dramLine l = d.dramLine l := by
  rw [Dev.dramLine, h.llc, aget?_adel, (h.memory hw).2.1]
  split
  next hl => rw [hl]; rfl
  next => rfl

/-- What `cinval` of a range of lines leaves. -/
structure InvalidatesAll (r : Nat) (lines : List Nat) (d e : Dev) : Prop where
  cur : e.cur = d.cur
  th : e.th = d.th
  keeps : ∀ l, NoCopies r l d → NoCopies r l e
  gone : ∀ l ∈ lines, NoCopies r l e
  /-- A line that its home holds no longer is not written back again. -/
  stays : ∀ l, aget? d.llc l = none → e.mem.line l = d.mem.line l
  dram : ∀ l ∈ lines, e.mem.line l = d.dramLine l
  outside : ∀ a, (∀ l ∈ lines, a < 128 * l ∨ 128 * l + 128 ≤ a) → e.mem.get a = d.mem.get a

theorem InvalidatesAll.nil (r : Nat) (d : Dev) : InvalidatesAll r [] d d :=
  ⟨rfl, rfl, fun _ h => h, by simp, fun _ _ => rfl, by simp, fun _ _ => rfl⟩

theorem InvalidatesAll.cons {r line : Nat} {lines : List Nat} {d e f : Dev} (h : Invalidates r line d e) (hw : d.mem.wf = true)
    (k : InvalidatesAll r lines e f) : InvalidatesAll r (line :: lines) d f := by
  obtain ⟨-, hline, hout⟩ := h.memory hw
  have hfirst : f.mem.line line = d.dramLine line := by rw [k.stays line h.noCopies.llc, hline, if_pos rfl]
  refine ⟨k.cur.trans h.cur, k.th.trans h.th, fun l hl => k.keeps l (h.keepsNoCopies hl), fun l hl => ?_, fun l hl => ?_, fun l hl => ?_,
    fun a ha => ?_⟩
  · rcases List.mem_cons.mp hl with rfl | hl
    · exact k.keeps _ h.noCopies
    · exact k.gone l hl
  · by_cases he : l = line
    · rw [he, hfirst, Dev.dramLine, ← he, hl]
      rfl
    · rw [k.stays l (by rw [h.llc, aget?_adel, if_neg he, hl]), hline, if_neg he]
  · rcases List.mem_cons.mp hl with rfl | hl
    · exact hfirst
    · rw [k.dram l hl, h.dramLine hw]
  · rw [k.outside a fun l hl => ha l (List.mem_cons_of_mem _ hl), hout a (ha line List.mem_cons_self)]

theorem cinvalLines (r : Nat) (lines : List Nat) (d : Dev) (hw : d.mem.wf = true) : InvalidatesAll r lines d (lines.foldl (Dev.cinvalLine r) d) := by
  induction lines generalizing d with
  | nil => exact .nil r d
  | cons line lines ih =>
    have h := cinvalLine_invalidates r d line
    exact .cons h hw (ih _ (h.memory hw).1)

/-! ### Lines that `cflush` writes back (R380) -/

/-- The last-level cache with a line clean: DRAM holds what the home holds. -/
def llcClean (c : AMap LlcLine) (line : Nat) : AMap LlcLine := match aget? c line with
  | some e => aset c line { e with dram := none }
  | none => c

theorem aget?_llcClean (c : AMap LlcLine) (line l : Nat) :
    aget? (llcClean c line) l = if l = line then (aget? c l).map fun e => { e with dram := none } else aget? c l := by
  rw [llcClean]
  split
  next e he =>
    split
    next h => rw [h, aget?_aset_same, he]; rfl
    next h => exact aget?_aset_ne _ _ _ _ h
  next he =>
    split
    next h => rw [h, he]; rfl
    next => rfl

theorem aget?_llcCleans (lines : List Nat) (c : AMap LlcLine) (l : Nat) :
    aget? (lines.foldl llcClean c) l = if l ∈ lines then (aget? c l).map fun e => { e with dram := none } else aget? c l := by
  induction lines generalizing c with
  | nil => rfl
  | cons line lines ih =>
    rw [List.foldl_cons, ih, aget?_llcClean]
    by_cases hl : l = line
    · simp [hl, Function.comp_def]
    · simp [hl]

theorem Dev.recallStash_none {d : Dev} {line : Nat} (h : aget? d.regs line = none) : d.recallStash line = d := by
  rw [Dev.recallStash, h]

theorem Dev.recallUocs_none {d : Dev} {line : Nat} (h : d.hasUoc line = false) : d.recallUocs line = d := by
  rw [Dev.hasUoc, Bool.or_eq_false_iff, Bool.not_eq_false', List.isEmpty_iff, List.any_eq_false] at h
  have hnone : (d.cores.filter fun p => p.2.uoc.any (·.line == line)) = [] := List.filter_eq_nil_iff.mpr h.1
  rw [Dev.recallUocs, hnone, List.foldl_nil, Dev.applyBacks, h.2, List.foldl_nil]

theorem Dev.cflushLine_home {d : Dev} {line : Nat} (hr : aget? d.regs line = none) (hu : d.hasUoc line = false) :
    d.cflushLine line = { d with llc := llcClean d.llc line } := by
  unfold Dev.cflushLine
  rw [Dev.recallStash_none hr, Dev.recallUocs_none hu]
  unfold llcClean
  cases h : aget? d.llc line with
  | none => simp only [h]
  | some e => simp only [h]

theorem cflushLines (lines : List Nat) (d : Dev) (h : ∀ l ∈ lines, aget? d.regs l = none ∧ d.hasUoc l = false) :
    lines.foldl Dev.cflushLine d = { d with llc := lines.foldl llcClean d.llc } := by
  induction lines generalizing d with
  | nil => rfl
  | cons line lines ih =>
    simp only [List.mem_cons, forall_eq_or_imp] at h
    rw [List.foldl_cons, Dev.cflushLine_home h.1.1 h.1.2]
    exact ih _ h.2

end Sys2Proof.Machine

namespace Sys2Proof.Claims
open Machine

/-- `cinval` (R380). -/
theorem cinval_gives {sn : SegNo} {ra rb : RegNo} {lines : List Nat} {s : State} (hready : Ready { rx := [ra, rb], rs := [sn] } s)
    (hmode : s.dev.th.mode = true) (hw : s.dev.mem.wf = true)
    (hlines : s.dev.cacheLines sn ra rb { w := true, l0 := true } { write := true, user := false, twinOk := true } = .ok lines)
    (hacq : s.dev.th.acqPid = []) : Gives (.cinval sn ra rb) s fun t => InSequence s t ∧ flowOf s.dev.th t.dev.th = s.dev.th
      ∧ (∀ line ∈ lines, (∀ r, aget? (t.dev.core r).l1d line = none ∧ ∀ u ∈ (t.dev.core r).uoc, u.line ≠ line)
        ∧ aget? t.dev.llc line = none ∧ line ∉ t.dev.poison ∧ aget? t.dev.regs line = none
        ∧ (∀ e ∈ t.dev.curCore.wb, e.line ≠ line)
        ∧ t.dev.mem.line line = ((aget? s.dev.llc line).bind (·.dram)).getD (s.dev.mem.line line))
      ∧ ∀ a, (∀ line ∈ lines, a < 128 * line ∨ 128 * line + 128 ≤ a) → t.dev.mem.get a = s.dev.mem.get a := by
  obtain ⟨hcur, hth, -, hgone, -, hdram, hout⟩ := cinvalLines s.dev.cur.1 lines s.dev hw
  have hexec : exec (.cinval sn ra rb) s = .next { s with dev := (lines.foldl (Dev.cinvalLine s.dev.cur.1) s.dev).retire } := by
    refine (State.priv_supervisor hmode).trans (State.thread_ok hready.2.1 hready.2.2 ?_)
    simp only [Dev.user, hmode, Bool.not_true, hlines, Dev.acqHeld, hacq, List.isEmpty_nil, if_true, bind, Except.bind]
  generalize lines.foldl (Dev.cinvalLine s.dev.cur.1) s.dev = e at hcur hth hgone hdram hout hexec
  refine ⟨_, hexec, inSequence_retire hready.1 hcur ⟨_, hth⟩, flowOf_retire hready.1 hcur hth, fun line hl => ?_, hout⟩
  have hnone := hgone line hl
  have hcore := Dev.core_retire e
  refine ⟨fun r => ?_, hnone.llc, hnone.poison, hnone.regs, fun x hx => ?_, hdram line hl⟩
  · obtain ⟨v, hv⟩ := hcore r
    dsimp only
    rw [hv]
    exact ⟨hnone.l1d r, hnone.uoc r⟩
  · obtain ⟨v, hv⟩ := hcore s.dev.cur.1
    have hx : x ∈ (e.retire.core e.cur.1).wb := hx
    rw [hcur, hv] at hx
    exact hnone.wb x hx

/-- `cflush` (R380). -/
theorem cflush_gives {sn : SegNo} {ra rb : RegNo} {lines : List Nat} {s : State} (hready : Ready { rx := [ra, rb], rs := [sn] } s)
    (hrel : Released s .pkg)
    (hlines : s.dev.cacheLines sn ra rb { r := true, l0 := true } { read := true, user := !s.dev.th.mode, twinOk := true } = .ok lines)
    (hhome : ∀ line ∈ lines, aget? s.dev.regs line = none ∧ s.dev.hasUoc line = false) :
    Gives (.cflush sn ra rb) s fun t => InSequence s t ∧ flowOf s.dev.th t.dev.th = s.dev.th ∧ t.dev.mem = s.dev.mem
      ∧ ∀ line ∈ lines, ∀ e, aget? s.dev.llc line = some e → aget? t.dev.llc line = some { e with dram := none } := by
  obtain ⟨hacq, hmark, hgate⟩ := hrel
  have hrelease : s.dev.cacheRelease = .ok () := by
    simp [Dev.cacheRelease, Dev.acqHeld, hacq, Dev.relGate, hmark, hgate, bind, Except.bind]
  have hexec : exec (.cflush sn ra rb) s = .next { s with dev := ({ s.dev with llc := lines.foldl llcClean s.dev.llc } : Dev).retire } := by
    refine State.thread_ok hready.2.1 hready.2.2 ?_
    rw [← cflushLines lines s.dev hhome]
    simp only [Dev.user, hlines, hrelease, bind, Except.bind]
    split
    next h => rw [List.isEmpty_iff.mp h]; rfl
    next => rfl
  refine ⟨_, hexec, inSequence_retire hready.1 rfl ⟨_, rfl⟩, flowOf_retire hready.1 rfl rfl, rfl, fun line hl e he => ?_⟩
  exact (aget?_llcCleans lines s.dev.llc line).trans (by rw [if_pos hl, he]; rfl)

end Sys2Proof.Claims

namespace Sys2Proof.Machine

/-! ### Publication (R208, R381) -/

theorem Dev.act_ok {α : Type} {d : Dev} {e : Eng α} {x : α × Dev} (h : e d = .ok x) : d.act e = .ok x := by rw [Dev.act, h]

/-- A core after its partition's L1s have dropped their plain copies. -/
theorem Dev.core_dropPlain (d : Dev) (part r : Nat) :
    (d.dropPlain part).core r = if (d.core r).part = some part then { d.core r with l1d := [] } else d.core r := by
  have hcores : (d.cores.map fun p => if p.2.part = some part then (p.1, { p.2 with l1d := [] }) else p)
      = d.cores.map fun p => (p.1, if p.2.part = some part then { p.2 with l1d := [] } else p.2) :=
    List.map_congr_left fun p _ => by split <;> rfl
  have hcore := Dev.core_map (g := fun _ (c : Core) => if c.part = some part then { c with l1d := [] } else c) d r
    (by rw [if_neg (by simp [Core.reset])])
  rw [← hcore, ← hcores]
  rfl

theorem Dev.slots_dropPlain (d : Dev) (part r : Nat) : ((d.dropPlain part).core r).slots = (d.core r).slots := by
  rw [Dev.core_dropPlain]
  split <;> rfl

theorem Dev.th_dropPlain (d : Dev) (part : Nat) : (d.dropPlain part).th = d.th :=
  congrArg (vget · d.cur.2 Slot.reset) (d.slots_dropPlain part d.cur.1)

/-- A core of a published partition's device: it keeps its partition and its TLB, and no plain copy if it serves the partition. -/
theorem Dev.core_published (d : Dev) (part r : Nat) : ((d.published part).core r).part = (d.core r).part
    ∧ ((d.published part).core r).tlb = (d.core r).tlb ∧ ((d.core r).part = some part → ((d.published part).core r).l1d = []) := by
  obtain ⟨v, hv⟩ := Dev.core_retire (d.dropPlain part) r
  rw [Dev.published, hv, Dev.core_dropPlain]
  split
  next h => exact ⟨rfl, rfl, fun _ => rfl⟩
  next h => exact ⟨rfl, rfl, fun hp => absurd hp h⟩

/-- The toggle is a write of memory, and a shootdown of the region follows it. -/
theorem publishNow_ok {part at_ gva : Nat} {c : Word} {d e : Dev} (h : publishNow part at_ c gva d = .ok ((), e)) :
    ∃ f, agWrite at_ 8 (c ^^^ BitVec.ofNat 64 (2 ^ 60)).toNat part d = .ok ((), f) ∧ e = f.shootdown part 2 gva := by
  obtain ⟨⟨⟩, f, hw, he⟩ := Eng.bind_ok.mp h
  cases he
  exact ⟨f, hw, rfl⟩

end Sys2Proof.Machine

namespace Sys2Proof.Claims
open Machine

/-- The toggle of FRONT at the directory entry, and the shootdown of the region (R208). -/
theorem publishNow_toggles {part at_ gva : Nat} {c : Word} {d e : Dev} (h : publishNow part at_ c gva d.stamp = .ok ((), e)) :
    e.cur = d.cur ∧ (∃ l, e.th = { d.th with lease := l }) ∧ (∀ r, ∀ x ∈ (e.core r).tlb, shotEntry part 2 gva x = false)
      ∧ (AtHomes d → BitVec.ofNat 64 (e.mem.nat at_ 8) = c ^^^ BitVec.ofNat 64 (2 ^ 60)
        ∧ ∀ a, (a < at_ ∨ at_ + 8 ≤ a) → e.mem.get a = d.mem.get a) := by
  obtain ⟨f, hw, rfl⟩ := publishNow_ok h
  have hkeep := agWrite_threads hw
  have hshot := shootdown_shot f part 2 gva
  refine ⟨hshot.cur.trans hkeep.cur, ?_, fun r x hx => ?_, fun hd => ?_⟩
  · obtain ⟨l, hl⟩ := hshot.th
    exact ⟨l, by rw [hl, hkeep.th]; rfl⟩
  · rw [hshot.tlb] at hx
    simpa using (List.mem_filter.mp hx).2
  · have hhomes : AtHomes d.stamp := ⟨hd.regs, hd.copies, hd.queue, hd.leases, hd.sound, hd.memory⟩
    obtain ⟨m, g, hg, hcache, -, hin, hout⟩ := hhomes.agWrite at_ 8 (c ^^^ BitVec.ofNat 64 (2 ^ 60)).toNat part
    obtain rfl : g = f := (Prod.ext_iff.mp (Except.ok.inj (hg.symm.trans hw))).2
    obtain ⟨_, _, _, _, _, hg⟩ := hcache
    have hmem : (g.shootdown part 2 gva).mem = m := by
      rw [(shootdown_memory g part 2 gva (by rw [hg]; exact hd.regs)).2, hg]
    rw [hmem]
    refine ⟨?_, hout⟩
    rw [hin, ← BitVec.toNat_inj, BitVec.toNat_ofNat]
    have := (c ^^^ BitVec.ofNat 64 (2 ^ 60)).isLt
    omega

/-- `publish` (R208, R381). -/
theorem publish_gives {sn : SegNo} {ra : RegNo} {gva at_ : Nat} {c : Word} {d d' : Dev} {s : State} (hready : Ready { rx := [ra], rs := [sn] } s)
    (hwait : ∀ m k g p, s.dev.th.wait ≠ .shootdown m k g p)
    (hseg : segCheck (s.dev.th.seg sn) (s.dev.x ra) 1 { p := true, l0 := true } = .ok gva)
    (hentry : twinEntry s.dev.th.part gva s.dev = .ok (some (at_, c), d)) (hth : d.th = s.dev.th) (hcur : d.cur = s.dev.cur)
    (hacq : d.th.acqPid = []) (hmark : d.th.relMark = none) (hgate : d.gateOpen (d.gateWaiting .pkg) = true)
    (hnow : publishNow s.dev.th.part at_ c gva d.stamp = .ok ((), d'))
    (hdone : d'.publishDone s.dev.th.part gva d'.accSeq (if c.getLsbD 60 then 0 else 1) s.host.chosenBacks = true) :
    Gives (.publish sn ra) s fun t => GoesOn t (link s.dev.th.pc) s.dev.th.arrive
      ∧ (∀ r, (t.dev.core r).part = some s.dev.th.part → (t.dev.core r).l1d = [])
      ∧ (∀ r, ∀ e ∈ (t.dev.core r).tlb, shotEntry s.dev.th.part 2 gva e = false)
      ∧ (AtHomes d → at_ % 8 = 0 → BitVec.ofNat 64 (t.dev.mem.nat at_ 8) = c ^^^ BitVec.ofNat 64 (2 ^ 60)
        ∧ ∀ a, (a < at_ ∨ at_ + 8 ≤ a) → t.dev.mem.get a = d.mem.get a) := by
  have hexec : exec (.publish sn ra) s = .next { s with dev := d'.published s.dev.th.part } := by
    refine State.thread_ok hready.2.1 hready.2.2 ?_
    dsimp only
    split
    next m k g p h => exact absurd h (hwait m k g p)
    next =>
      rw [hseg]
      change (s.dev.act (twinEntry s.dev.th.part gva)).bind _ = _
      rw [Dev.act_ok hentry]
      change (d.releaseNow .pkg).bind _ = _
      rw [Dev.releaseNow_open hacq hmark hgate]
      change (d.stamp.act (publishNow s.dev.th.part at_ c gva)).bind _ = _
      rw [Dev.act_ok hnow]
      exact congrArg Except.ok (if_pos hdone)
  obtain ⟨hcur', ⟨l, hth'⟩, htlb, hmem⟩ := publishNow_toggles hnow
  refine ⟨_, hexec, ?_, fun r hr => ?_, fun r x hx => ?_, fun hd _ => hmem hd⟩
  · refine inSequence_retire hready.1 (hcur'.trans hcur) ⟨l, ?_⟩
    rw [Dev.th_dropPlain, hth', hth]
  · obtain ⟨hpart, -, hplain⟩ := d'.core_published s.dev.th.part r
    exact hplain (hpart.symm.trans hr)
  · rw [(d'.core_published s.dev.th.part r).2.1] at hx
    exact htlb r x hx

end Sys2Proof.Claims

namespace Sys2Proof
open Machine Claims

/-- Settles O17: each instruction by what it leaves of the translations, the copies and the bytes that it names. -/
theorem shootdownsAndCaches : Obligations.ShootdownsAndCaches := by
  unfold Obligations.ShootdownsAndCaches
  refine ⟨fun ra rb s hready hmode hwait hrel => tlbinv_gives hready hmode hwait hrel rfl (tlbKind_eq _).symm,
    fun sn ra rb lines s hready hmode hw hlines hacq => cinval_gives hready hmode hw hlines hacq,
    fun sn ra rb lines s hready hrel hlines hhome => cflush_gives hready hrel hlines hhome, ?_⟩
  intro sn ra gva at_ c d d' s hready hwait hseg hentry hth hcur hacq hmark hgate hnow hdone
  exact publish_gives hready hwait hseg hentry hth hcur hacq hmark hgate hnow hdone

end Sys2Proof

namespace Sys2Proof.Machine

/-! ### Selectors of a hamper (R169) -/

/-- A word below 2^k has no bit outside the low k. -/
theorem and_not_low {x : Word} {k : Nat} (h : x.toNat < 2 ^ k) : x &&& ~~~(BitVec.ofNat 64 (2 ^ k - 1)) = 0 := by
  apply BitVec.eq_of_getLsbD_eq
  intro i hi
  rw [BitVec.getLsbD_and, BitVec.getLsbD_not, BitVec.getLsbD_ofNat, Nat.testBit_two_pow_sub_one]
  by_cases hk : i < k
  · simp [hi, hk]
  · have hbit : x.getLsbD i = false := Nat.testBit_lt_two_pow (Nat.lt_of_lt_of_le h (Nat.pow_le_pow_right (by decide) (Nat.not_lt.mp hk)))
    simp [hbit]

theorem Dev.selectQuad_ok {d : Dev} {x mask : Word} {k : Nat} (hmask : mask ||| 0xFFF = BitVec.ofNat 64 (2 ^ k - 1)) (hx : x.toNat < 2 ^ k)
    (hr : x.toNat % 4096 < d.tpart.cfg.hlen) : d.selectQuad x mask = .ok ((d.tpart.cfg.hbase + x.toNat % 4096) / 4) := by
  have hgood : (decide (x.toNat % 4096 < d.tpart.cfg.hlen) && (x &&& ~~~(mask ||| 0xFFF)) == 0) = true := by
    rw [hmask, and_not_low hx, decide_eq_true hr]
    rfl
  rw [Dev.selectQuad, hgood]
  rfl

/-- A rank outside the partition is PERM (R169, R172). -/
theorem Dev.selectQuad_outside {d : Dev} {x mask : Word} (hr : d.tpart.cfg.hlen ≤ x.toNat % 4096) :
    d.selectQuad x mask = .error (.trap ⟨.perm, 0⟩) := by
  rw [Dev.selectQuad, decide_eq_false (Nat.not_lt.mpr hr)]
  rfl

/-- A word of a hamper entry, by the selector's fields (R169). -/
theorem Dev.hamperWord_found {d : Dev} {q part : Nat} {x : Word} {h : HampEntry} (hx : x.toNat < 65536)
    (hh : (d.quad q).hamper.find? (fun e => e.idx == x.toNat / 4096 % 8 && e.part == part) = some h) :
    d.hamperWord q part (x.extractLsb' 12 3).toNat (x.extractLsb' 15 1).toNat = BitVec.ofNat 64
      (if x.toNat / 32768 = 0 then 2 ^ 63 + (if (d.quad q).dropped.contains part then 2 ^ 62 else 0) + (if h.write then 2 ^ 61 else 0)
          + (if h.exec_ then 2 ^ 60 else 0) + h.part * 2 ^ 54 + h.page % 2 ^ 32 * 65536
        else q * 2 ^ 54 + h.waiters * 2 ^ 32) := by
  have hidx : (x.extractLsb' 12 3).toNat = x.toNat / 4096 % 8 := by
    rw [BitVec.extractLsb'_toNat, Nat.shiftRight_eq_div_pow]
  have hw : (x.extractLsb' 15 1).toNat = x.toNat / 32768 := by
    rw [BitVec.extractLsb'_toNat, Nat.shiftRight_eq_div_pow]
    omega
  rw [hidx, hw]
  unfold Dev.hamperWord
  extract_lets y e drop
  have he : e = some h := hh
  clear_value e
  subst he
  have hone : x.toNat / 32768 = 0 ∨ x.toNat / 32768 = 1 := by omega
  rcases hone with h0 | h1
  · rw [h0]
    rfl
  · rw [h1]
    rfl

/-! ### A result that acquires (R194) -/

theorem Dev.th_acquire (d : Dev) (sc : MemScope) : (d.acquire sc).th = d.th := by
  cases sc
  case cr => rfl
  all_goals exact Claims.slot_modCore_slots (f := fun c => { c with l1d := [] }) (fun _ => rfl) d _ _ _

/-- The thread after a result that acquires. -/
theorem Dev.th_setX_acquire_retire (d : Dev) (rd : RegNo) (v : Word) (sc : MemScope) (hk : d.cur.2 < 16) :
    (((d.setX rd v).acquire sc).retire).th = Slot.retireTo (link d.th.pc) (d.th.setX rd v) := by
  have hth : ((d.setX rd v).acquire sc).th = d.th.setX rd v := (Dev.th_acquire ..).trans (Dev.slot_setSlot _ _ _ _ hk)
  have hcur : ((d.setX rd v).acquire sc).cur = d.cur := by cases sc <;> rfl
  rw [Dev.retire_eq, Dev.th_setSlot _ _ (hcur ▸ hk), hth, Slot.setX_pc]

theorem Dev.cores_modCore (d : Dev) (r : Nat) (f : Core → Core) : ∃ v, d.modCore r f = { d with cores := v } := ⟨_, rfl⟩

theorem Dev.cores_modTh (d : Dev) (f : Slot → Slot) : ∃ v, d.modTh f = { d with cores := v } := ⟨_, rfl⟩

/-- A result that acquires changes the cores alone. -/
theorem Dev.cores_setX_acquire_retire (d : Dev) (rd : RegNo) (v : Word) : ∃ w, ((d.setX rd v).acquire .pkg).retire = { d with cores := w } := by
  obtain ⟨w, hw⟩ := d.cores_modTh fun s => s.setX rd v
  have hset : d.setX rd v = { d with cores := w } := hw
  rw [hset]
  obtain ⟨w', hacq⟩ := Dev.cores_modCore ({ d with cores := w } : Dev) d.cur.1 fun c => { c with l1d := [] }
  have hacq : ({ d with cores := w } : Dev).acquire .pkg = { d with cores := w' } := hacq
  rw [hacq]
  exact Dev.cores_modTh _ _

/-! ### Checks of the frame (R249, R54) -/

theorem Slot.laheadHit_read {a : Slot} {ra rd : RegNo} (h : a.laheadHit { rx := [ra], wx := [rd] } = false) : a.laheadHit { rx := [ra] } = false := by
  rw [Slot.laheadHit, List.any_eq_false] at h ⊢
  intro w hw hhit
  refine h w hw ?_
  simp only [Bool.and_eq_true, List.any_eq_true] at hhit ⊢
  obtain ⟨hleft, x, hx, hm⟩ := hhit
  refine ⟨hleft, x, hx, ?_⟩
  cases x with
  | x n => exact Bool.or_eq_true_iff.mpr (.inl ((Bool.or_false _).symm.trans hm))
  | v n => exact hm
  | cr n => exact hm

/-- An instruction that stops with a trap. -/
theorem State.thread_trap {use : RegUse} {body : Dev → Chk Dev} {s : State} {t : TrapInfo} (hl : s.dev.th.laheadHit use = false)
    (hp : s.dev.th.parityHit use = false) (hb : body s.dev = .error (.trap t)) :
    s.thread use body = .next { s with dev := s.dev.trap s.dev.cur.1 s.dev.cur.2 t } := by
  simp [State.thread, State.onDev, Dev.runThread, hl, hp, hb, Dev.stopAt]

end Sys2Proof.Machine

namespace Sys2Proof.Claims
open Machine

/-- A change of the thread's slot. -/
theorem threadOnly_setSlot (s : State) (a : Slot) : ThreadOnly s { s with dev := s.dev.setSlot s.dev.cur.1 s.dev.cur.2 a } where
  boot := rfl
  host := rfl
  args := rfl
  schedule := rfl
  device := rfl
  cores r := by
    obtain ⟨v, hv⟩ := Dev.core_setSlot_slots s.dev s.dev.cur.1 s.dev.cur.2 a r
    dsimp only
    rw [hv]
  slots r k h := Dev.slot_setSlot_ne _ _ _ _ _ _ h
  memory _ := rfl
  localBytes r b := by
    obtain ⟨v, hv⟩ := Dev.core_setSlot_slots s.dev s.dev.cur.1 s.dev.cur.2 a r
    dsimp only
    rw [hv]

/-- An instruction whose whole effect is a trap raises it (R250, R254). -/
theorem traps_of_exec {i : Instr} {s : State} {c : Cause} {a : Word} (hk : s.dev.cur.2 < 16)
    (h : exec i s = .next { s with dev := s.dev.trap s.dev.cur.1 s.dev.cur.2 ⟨c, a⟩ }) : Traps i s c a := by
  refine ⟨fun hp => ?_, fun hp => ?_⟩
  · have htrap : s.dev.trap s.dev.cur.1 s.dev.cur.2 ⟨c, a⟩ = s.dev.setSlot s.dev.cur.1 s.dev.cur.2 (s.dev.th.enterTrap s.dev.curCore.tvec ⟨c, a⟩) :=
      Dev.trap_now hp
    rw [htrap] at h
    have hth : (s.dev.setSlot _ _ _).th = s.dev.th.enterTrap s.dev.curCore.tvec ⟨c, a⟩ := Dev.th_setSlot s.dev _ hk
    obtain ⟨hsepc, hcause, haddr, hsup, hpc, harrive, hwait, hwin, hrest⟩ := entersTrap_enterTrap s.dev.th s.dev.curCore.tvec ⟨c, a⟩
    refine ⟨_, h, threadOnly_setSlot .., ?_⟩
    unfold GoesOn
    dsimp only
    rw [hth]
    exact ⟨hsepc, hcause, haddr, hsup, ⟨hpc, harrive, hwait⟩, hwin, hrest⟩
  · have htrap : s.dev.trap s.dev.cur.1 s.dev.cur.2 ⟨c, a⟩ = s.dev.setSlot s.dev.cur.1 s.dev.cur.2 { s.dev.th with wait := .trapDue ⟨c, a⟩ } :=
      Dev.trap_later hp
    rw [htrap] at h
    have hth : (s.dev.setSlot _ _ _).th = { s.dev.th with wait := .trapDue ⟨c, a⟩ } := Dev.th_setSlot s.dev _ hk
    refine ⟨_, h, threadOnly_setSlot .., ?_⟩
    dsimp only
    rw [hth]
    exact ⟨rfl, rfl⟩

/-- A retired slot with a new X[rd] differs in its flow and that register alone. -/
theorem flowOf_retireTo_setX (a : Slot) (pc : Word) (rd : RegNo) (v : Word) :
    { flowOf a (Slot.retireTo pc (a.setX rd v)) with x := a.x, badX := a.badX } = a := by
  unfold Slot.setX
  split <;> rfl

/-- `fltrd` (R169). -/
theorem fltrd_gives {rd ra : RegNo} {h : HampEntry} {s : State} (hready : Ready { rx := [ra], wx := [rd] } s) (hmode : s.dev.th.mode = true)
    (hx : uv (s.dev.x ra) < 65536) (hr : uv (s.dev.x ra) % 4096 < s.dev.tpart.cfg.hlen)
    (hh : (s.dev.quad ((s.dev.tpart.cfg.hbase + uv (s.dev.x ra) % 4096) / 4)).hamper.find?
      (fun e => e.idx == uv (s.dev.x ra) / 4096 % 8 && e.part == s.dev.th.part) = some h) :
    Gives (.fltrd rd ra) s fun t => InSequence s t ∧ TakesX s t rd (BitVec.ofNat 64
        (if uv (s.dev.x ra) / 32768 = 0 then
          2 ^ 63 + (if (s.dev.quad ((s.dev.tpart.cfg.hbase + uv (s.dev.x ra) % 4096) / 4)).dropped.contains s.dev.th.part then 2 ^ 62 else 0)
            + (if h.write then 2 ^ 61 else 0) + (if h.exec_ then 2 ^ 60 else 0) + h.part * 2 ^ 54 + h.page % 2 ^ 32 * 65536
          else (s.dev.tpart.cfg.hbase + uv (s.dev.x ra) % 4096) / 4 * 2 ^ 54 + h.waiters * 2 ^ 32))
      ∧ { t.dev with cores := s.dev.cores } = s.dev := by
  have hword := Dev.hamperWord_found hx hh
  generalize BitVec.ofNat 64 _ = v at hword ⊢
  have hexec : exec (.fltrd rd ra) s = .next { s with dev := ((s.dev.setX rd v).acquire .pkg).retire } := by
    refine (State.priv_supervisor hmode).trans (State.thread_ok hready.2.1 hready.2.2 ?_)
    dsimp only
    rw [Dev.selectQuad_ok (k := 16) (by decide) hx hr]
    change Except.ok (((s.dev.setX rd (s.dev.hamperWord _ _ _ _)).acquire .pkg).retire) = _
    rw [hword]
  have hth := Dev.th_setX_acquire_retire s.dev rd v .pkg hready.1
  have hcores := Dev.cores_setX_acquire_retire s.dev rd v
  generalize ((s.dev.setX rd v).acquire .pkg).retire = e at hexec hth hcores
  refine ⟨_, hexec, ?_, ⟨fun r => ?_, ?_⟩, by obtain ⟨_, rfl⟩ := hcores; rfl⟩
  · unfold InSequence GoesOn
    dsimp only
    rw [hth]
    exact ⟨rfl, Slot.setX_arrive .., rfl⟩
  · rw [Dev.x]
    dsimp only
    rw [hth]
    exact Slot.xr_setX ..
  · dsimp only
    rw [hth]
    exact flowOf_retireTo_setX ..

/-- `fltrd` and `fltreplay` of a rank outside the partition (R169, R172). -/
theorem hamper_traps {rd ra : RegNo} {s : State} (hready : Ready { rx := [ra], wx := [rd] } s) (hmode : s.dev.th.mode = true)
    (hr : s.dev.tpart.cfg.hlen ≤ uv (s.dev.x ra) % 4096) : Traps (.fltrd rd ra) s .perm 0 ∧ Traps (.fltreplay ra) s .perm 0 := by
  obtain ⟨hk, hl, hp⟩ := hready
  refine ⟨traps_of_exec hk ((State.priv_supervisor hmode).trans (State.thread_trap hl hp ?_)),
    traps_of_exec hk ((State.priv_supervisor hmode).trans (State.thread_trap (Slot.laheadHit_read hl) hp ?_))⟩
  all_goals
    change (s.dev.selectQuad (s.dev.x ra) _).bind _ = _
    rw [Dev.selectQuad_outside hr]
    rfl

end Sys2Proof.Claims

namespace Sys2Proof.Machine

/-! ### The ends of waits (R163, R172) -/

/-- Slots may have ended their waits, taken translations and posted their notices; the quads, the partitions and memory are as before. -/
structure EndsWaits (d e : Dev) : Prop where
  cur : e.cur = d.cur
  quads : e.quads = d.quads
  parts : e.parts = d.parts
  mem : e.mem = d.mem
  slot : ∀ r k, ∃ w n f, e.slot r k = { d.slot r k with wait := w, npend := n, fresh := f } ∧ (w = (d.slot r k).wait ∨ w = .none)

theorem EndsWaits.refl (d : Dev) : EndsWaits d d := ⟨rfl, rfl, rfl, rfl, fun _ _ => ⟨_, _, _, rfl, .inl rfl⟩⟩

theorem EndsWaits.trans {a b c : Dev} (h : EndsWaits a b) (k : EndsWaits b c) : EndsWaits a c := by
  refine ⟨k.cur.trans h.cur, k.quads.trans h.quads, k.parts.trans h.parts, k.mem.trans h.mem, fun r j => ?_⟩
  obtain ⟨w, n, f, hs, hw⟩ := h.slot r j
  obtain ⟨w', n', f', hs', hw'⟩ := k.slot r j
  refine ⟨w', n', f', by rw [hs', hs], ?_⟩
  rcases hw' with hw' | hw'
  · rw [hw', hs]
    exact hw
  · exact .inr hw'

theorem EndsWaits.foldl {α : Type} {g : Dev → α → Dev} (hg : ∀ e x, EndsWaits e (g e x)) (l : List α) (d : Dev) : EndsWaits d (l.foldl g d) := by
  induction l generalizing d with
  | nil => exact .refl d
  | cons x l ih => exact (hg d x).trans (ih _)

/-- A wait that is over stays over. -/
theorem EndsWaits.wait {d e : Dev} (h : EndsWaits d e) {r k : Nat} (hw : (d.slot r k).wait = .none) : (e.slot r k).wait = .none := by
  obtain ⟨w, n, f, hs, hor⟩ := h.slot r k
  rw [hs]
  exact hor.elim (·.trans hw) id

/-- A slot whose wait one of the steps ends waits no more. -/
theorem EndsWaits.foldl_wait {α : Type} {g : Dev → α → Dev} (hg : ∀ e x, EndsWaits e (g e x)) {l : List α} {x : α} (hx : x ∈ l) {r k : Nat}
    (hend : ∀ e, ((g e x).slot r k).wait = .none) (d : Dev) : ((l.foldl g d).slot r k).wait = .none := by
  obtain ⟨before, after, rfl⟩ := List.append_of_mem hx
  rw [List.foldl_append, List.foldl_cons]
  exact (EndsWaits.foldl hg after _).wait (hend _)

theorem EndsWaits.ofCore {r : Nat} {f : Core → Core} (d : Dev) (hf : ∀ c, (f c).slots = c.slots) : EndsWaits d (d.modCore r f) :=
  ⟨rfl, rfl, rfl, rfl, fun c k => ⟨_, _, _, Claims.slot_modCore_slots (f := f) hf d r c k, .inl rfl⟩⟩

theorem EndsWaits.ofSlot (d : Dev) (r k : Nat) {f : Slot → Slot} (hf : ∀ s, ∃ w n g, f s = { s with wait := w, npend := n, fresh := g } ∧ (w = s.wait ∨ w = .none)) :
    EndsWaits d (d.modSlot r k f) := by
  refine ⟨rfl, rfl, rfl, rfl, fun c j => ?_⟩
  rcases Dev.slot_modSlot_or d r k f c j with h | h
  · obtain ⟨w, n, g, hs, hw⟩ := hf (d.slot c j)
    exact ⟨w, n, g, h.trans hs, hw⟩
  · exact ⟨_, _, _, h, .inl rfl⟩

theorem post_endsWaits (d : Dev) (src part rank idx : Nat) (inc : HWord) : EndsWaits d (d.post src part rank idx inc) := by
  have hth := post_threads d src part rank idx inc [] none
  exact ⟨hth.cur, hth.quads, rfl, rfl, fun r k => ⟨_, _, _, hth.slot r k, .inl rfl⟩⟩

/-! ### The replay of a hamper (R172) -/

/-- The replay of a slot ends its wait for a page fault. -/
theorem replaySlot_endsWaits (d : Dev) (part r k : Nat) : EndsWaits d (d.replaySlot part r k)
    ∧ (k < 16 → (d.slot r k).part = part → (d.slot r k).occ = true → ∀ g, (d.slot r k).wait = .fault g →
      ((d.replaySlot part r k).slot r k).wait = .none) := by
  unfold Dev.replaySlot
  extract_lets s d1
  have hwoken : EndsWaits d d1 ∧ (k < 16 → ∀ g, s.wait = .fault g → (d1.slot r k).wait = .none) := by
    dsimp only [d1]
    split
    next g hg =>
      refine ⟨.ofSlot d r k fun a => ⟨_, _, _, rfl, .inr rfl⟩, fun hk _ _ => ?_⟩
      exact congrArg Slot.wait (Dev.slot_setSlot _ _ _ _ hk)
    next hg => exact ⟨.refl d, fun _ g h => absurd h (hg g)⟩
  clear_value d1
  obtain ⟨hrep, hwait⟩ := hwoken
  split
  next h =>
    split
    next =>
      have hpost : EndsWaits d1 ((d1.modSlot r k fun s => { s with npend := false }).post r part (r - (d1.part part).cfg.hbase)
          (s.unote.extractLsb' 0 6).toNat 1) :=
        .trans (.ofSlot d1 r k fun a => ⟨_, _, _, rfl, .inl rfl⟩) (post_endsWaits ..)
      exact ⟨hrep.trans hpost, fun hk _ _ g hg => hpost.wait (hwait hk g hg)⟩
    next => exact ⟨hrep, fun hk _ _ g hg => hwait hk g hg⟩
  next h => exact ⟨.refl d, fun _ hp ho => absurd ⟨hp, ho⟩ h⟩

/-- Every slot of a list that waits with a page fault of the partition waits no more. -/
theorem replaySlots_wake {part r k g : Nat} (l : List (Nat × Nat)) (d : Dev) (hk : k < 16) (hl : (r, k) ∈ l) (hp : (d.slot r k).part = part)
    (ho : (d.slot r k).occ = true) (hw : (d.slot r k).wait = .fault g) :
    ((l.foldl (fun d p => d.replaySlot part p.1 p.2) d).slot r k).wait = .none := by
  have hstep : ∀ (e : Dev) (p : Nat × Nat), EndsWaits e (e.replaySlot part p.1 p.2) := fun e p => (replaySlot_endsWaits e part p.1 p.2).1
  induction l generalizing d with
  | nil => cases hl
  | cons p l ih =>
    rw [List.foldl_cons]
    rcases List.mem_cons.mp hl with rfl | hl
    · exact (EndsWaits.foldl hstep l _).wait ((replaySlot_endsWaits d part r k).2 hk hp ho g hw)
    · obtain ⟨w, n, f, hs, hor⟩ := (hstep d p).slot r k
      rcases hor with rfl | rfl
      · exact ih _ hl (by rw [hs]; exact hp) (by rw [hs]; exact ho) (by rw [hs]; exact hw)
      · exact (EndsWaits.foldl hstep l _).wait (by rw [hs])

/-- The hamper of a quad without the partition's entries. -/
def Quad.unhamper (part : Nat) (x : Quad) : Quad :=
  { x with hamper := x.hamper.filter (·.part != part), dropped := x.dropped.filter (· != part) }

/-- The engines of a core without the page faults of a partition that they wait for (R173). -/
def Core.unfault (part : Nat) (c : Core) : Core :=
  { c with
    mxq := c.mxq.map fun m => if m.part == part then { m with faultPage := none } else m
    chan := c.chan.map fun u => if u.2.req.part == part then (u.1, { u.2 with faultPage := none }) else u }

/-- The replay of a partition that has no sweep (R172). -/
theorem replay_endsWaits {d : Dev} {q part : Nat} (hs : (d.part part).sweeps = []) : EndsWaits (d.modQuad q (Quad.unhamper part)) (d.replay q part)
    ∧ ∀ i < 4, ∀ k < 16, ∀ g, (d.slot (4 * q + i) k).part = part → (d.slot (4 * q + i) k).occ = true →
      (d.slot (4 * q + i) k).wait = .fault g → ((d.replay q part).slot (4 * q + i) k).wait = .none := by
  unfold Dev.replay
  extract_lets d1 slots d2 d3 ws
  have h2 : EndsWaits d1 d2 := .foldl (fun (e : Dev) (p : Nat × Nat) => (replaySlot_endsWaits e part p.1 p.2).1) slots d1
  have h3 : EndsWaits d2 d3 :=
    .foldl (g := fun e i => e.modCore (4 * q + i) (Core.unfault part)) (fun e _ => .ofCore e fun _ => rfl) (List.range 4) d2
  have hws : ws = [] := by
    have hparts : d3.parts = d.parts := h3.parts.trans h2.parts
    have hsweeps : (d3.part part).sweeps = [] := by rw [Dev.part, hparts]; exact hs
    simp only [ws, hsweeps, List.map_nil, List.filter_nil]
  have hd1 : d1 = d.modQuad q (Quad.unhamper part) := rfl
  have hwake : ∀ i < 4, ∀ k < 16, ∀ g, (d1.slot (4 * q + i) k).part = part → (d1.slot (4 * q + i) k).occ = true →
      (d1.slot (4 * q + i) k).wait = .fault g → (d3.slot (4 * q + i) k).wait = .none := by
    intro i hi k hk g hp ho hw
    refine h3.wait (replaySlots_wake slots d1 hk ?_ hp ho hw)
    exact List.mem_flatMap.mpr ⟨i, List.mem_range.mpr hi, List.mem_map.mpr ⟨k, List.mem_range.mpr hk, rfl⟩⟩
  rw [hws, List.foldl_nil]
  clear_value d2 d3
  exact ⟨hd1 ▸ h2.trans h3, hwake⟩

end Sys2Proof.Machine

namespace Sys2Proof.Claims
open Machine

/-- A retired thread goes on in sequence from where it stands. -/
theorem inSequence_retire_of {s : State} {e : Dev} (hk : s.dev.cur.2 < 16) (hcur : e.cur = s.dev.cur) (hpc : e.th.pc = s.dev.th.pc)
    (harrive : e.th.arrive = s.dev.th.arrive) : InSequence s { s with dev := e.retire } := by
  unfold InSequence GoesOn
  dsimp only
  rw [Dev.retire_eq, Dev.th_setSlot _ _ (hcur ▸ hk), hpc]
  exact ⟨rfl, harrive, rfl⟩

/-- `fltreplay` (R172). -/
theorem fltreplay_gives {ra : RegNo} {s : State} (hready : Ready { rx := [ra] } s) (hmode : s.dev.th.mode = true) (hrel : Released s .pkg)
    (hr : uv (s.dev.x ra) < s.dev.tpart.cfg.hlen) (hx : uv (s.dev.x ra) < 4096) (hs : s.dev.tpart.sweeps = []) {q : Nat}
    (hq : q = (s.dev.tpart.cfg.hbase + uv (s.dev.x ra)) / 4) :
    Gives (.fltreplay ra) s fun t => InSequence s t
      ∧ (t.dev.quad q).hamper = (s.dev.quad q).hamper.filter (·.part != s.dev.th.part)
      ∧ (t.dev.quad q).dropped = (s.dev.quad q).dropped.filter (· != s.dev.th.part)
      ∧ t.dev.mem = s.dev.mem
      ∧ ∀ i < 4, ∀ k < 16, ∀ g, (s.dev.slot (4 * q + i) k).part = s.dev.th.part → (s.dev.slot (4 * q + i) k).occ = true →
          (s.dev.slot (4 * q + i) k).wait = .fault g → (t.dev.slot (4 * q + i) k).wait = Wait.none := by
  obtain ⟨hacq, hmark, hgate⟩ := hrel
  have hmod : uv (s.dev.x ra) % 4096 = uv (s.dev.x ra) := Nat.mod_eq_of_lt hx
  have hexec : exec (.fltreplay ra) s = .next { s with dev := (s.dev.replay q s.dev.th.part).retire } := by
    refine (State.priv_supervisor hmode).trans (State.thread_ok hready.2.1 hready.2.2 ?_)
    change (s.dev.selectQuad (s.dev.x ra) 0).bind _ = _
    rw [Dev.selectQuad_ok (k := 12) (by decide) hx (by rw [hmod]; exact hr), hmod, ← hq]
    change (s.dev.releaseNow .pkg).bind _ = _
    rw [Dev.releaseNow_open hacq hmark hgate]
    rfl
  obtain ⟨hrep, hwake⟩ := replay_endsWaits (d := s.dev) (q := q) (part := s.dev.th.part) hs
  generalize s.dev.replay q s.dev.th.part = e at hexec hrep hwake
  obtain ⟨w, n, f, hth, -⟩ := hrep.slot s.dev.cur.1 s.dev.cur.2
  have hth : e.th = { s.dev.th with wait := w, npend := n, fresh := f } := by rw [Dev.th, hrep.cur]; exact hth
  have hquad : e.quad q = (s.dev.quad q).unhamper s.dev.th.part :=
    (congrArg (fun m => (aget? m q).getD Quad.reset) hrep.quads).trans (Dev.quad_setQuad ..)
  refine ⟨_, hexec, inSequence_retire_of hready.1 hrep.cur (by rw [hth]) (by rw [hth]), congrArg Quad.hamper hquad, congrArg Quad.dropped hquad,
    hrep.mem, fun i hi k hk g hp ho hw => ?_⟩
  rcases Dev.slot_modSlot_or e e.cur.1 e.cur.2 (fun a => Slot.retireTo (link e.th.pc) a) (4 * q + i) k with h | h
  · exact (congrArg Slot.wait h).trans rfl
  · exact (congrArg Slot.wait h).trans (hwake i hi k hk g hp ho hw)

end Sys2Proof.Claims

namespace Sys2Proof.Machine

theorem CacheOnly.mem {d e : Dev} (h : CacheOnly d e) : e.mem = d.mem := by
  obtain ⟨_, _, _, _, _, rfl⟩ := h
  rfl

end Sys2Proof.Machine

namespace Sys2Proof.Claims
open Machine

/-! ### The walk and its mark (R157, R165) -/

/-- A table read gives the word of memory. -/
theorem AtHomes.pte {d e : Dev} {part a : Nat} {x : Word} (h : AtHomes d) (hx : pte part a d = .ok (x, e)) :
    x = BitVec.ofNat 64 (d.mem.nat a 8) ∧ CacheOnly d e := by
  obtain ⟨n, f, hread, he⟩ := Eng.bind_ok.mp hx
  obtain ⟨g, hg, hcache⟩ := h.agRead_nat a 8 part
  obtain ⟨rfl, rfl⟩ := Prod.mk.inj (Except.ok.inj (hg.symm.trans hread))
  obtain ⟨rfl, rfl⟩ := Eng.pure_ok.mp he
  exact ⟨rfl, hcache⟩

/-- The leaf entry of a walk is the word at its address. -/
theorem walk_leaf {d e : Dev} {part gva : Nat} {w : Walked} (h : AtHomes d) (hw : walk part gva d = .ok (some w, e)) :
    w.leaf = BitVec.ofNat 64 (d.mem.nat w.leafAt 8) := by
  unfold walk at hw
  obtain ⟨o, d1, hdir, hw⟩ := Eng.bind_ok.mp hw
  have h1 := dirAt_reads part gva d d1 o h.homesOnly hdir
  cases o with
  | none => cases hw
  | some a =>
    obtain ⟨u, d2, hget, hw⟩ := Eng.bind_ok.mp hw
    cases hget
    obtain ⟨c, d3, hc, hw⟩ := Eng.bind_ok.mp hw
    have h3 := ((h.cache h1).pte hc).2
    generalize dirLeaf _ c = o at hw
    obtain _ | ⟨large, twin, front, p⟩ := o
    · cases hw
    · have hmem : d3.mem = d.mem := h3.mem.trans h1.mem
      have hhome := h.cache (h1.trans h3)
      dsimp only at hw
      split at hw
      · obtain ⟨x, d4, hx, hw⟩ := Eng.bind_ok.mp hw
        obtain ⟨y, d5, hy, hw⟩ := Eng.bind_ok.mp hw
        cases hw
        rw [← hmem]
        exact (hhome.pte hx).1
      · obtain ⟨x, d4, hx, hw⟩ := Eng.bind_ok.mp hw
        cases hw
        rw [← hmem]
        exact (hhome.pte hx).1

/-- The leaf entry after a walk (R165): ACC is set, and DIRTY for a write. -/
def markedLeaf (leaf : Word) (write : Bool) : Word := leaf ||| BitVec.ofNat 64 (2 ^ 52) ||| (if write then BitVec.ofNat 64 (2 ^ 51) else 0)

/-- The mark of a leaf entry changes its word alone. -/
theorem markLeaf_marks {d : Dev} {part at_ : Nat} {leaf : Word} (write : Bool) (h : AtHomes d) (hleaf : leaf = BitVec.ofNat 64 (d.mem.nat at_ 8)) :
    ∃ m e, markLeaf part at_ leaf write d = .ok (markedLeaf leaf write, e) ∧ CacheOnly { d with mem := m } e
      ∧ BitVec.ofNat 64 (m.nat at_ 8) = markedLeaf leaf write ∧ ∀ a, (a < at_ ∨ at_ + 8 ≤ a) → m.get a = d.mem.get a := by
  unfold markLeaf
  change ∃ m e, (if markedLeaf leaf write = leaf then pure leaf else agWrite at_ 8 (markedLeaf leaf write).toNat part >>= fun _ => pure (markedLeaf leaf write)) d
    = _ ∧ _
  generalize markedLeaf leaf write = leaf'
  split
  next heq => exact ⟨d.mem, d, by rw [heq]; rfl, .same d, by rw [heq, hleaf], fun _ _ => rfl⟩
  next =>
    obtain ⟨m, e, hwrite, hcache, -, hin, hout⟩ := h.agWrite at_ 8 leaf'.toNat part
    refine ⟨m, e, Eng.bind_ok.mpr ⟨(), e, hwrite, rfl⟩, hcache, ?_, hout⟩
    rw [hin, Nat.mod_eq_of_lt (show leaf'.toNat < 256 ^ 8 from leaf'.isLt), BitVec.ofNat_toNat, BitVec.setWidth_eq]

theorem Dev.noteWalk_lp (d : Dev) (part page : Nat) (w : Walked) : ∃ v, d.noteWalk part page w = { d with lp := v } := by
  unfold Dev.noteWalk
  extract_lets id frame
  generalize List.filter _ _ = l
  induction l generalizing d with
  | nil => exact ⟨_, rfl⟩
  | cons x l ih =>
    obtain ⟨u, hu⟩ : ∃ u, d.noteFrame part id (frame x) = { d with lp := u } := by
      unfold Dev.noteFrame
      extract_lets
      split <;> exact ⟨_, rfl⟩
    rw [List.foldl_cons, hu]
    obtain ⟨v, hv⟩ := ih { d with lp := u }
    exact ⟨v, hv⟩

/-- What a walk of a valid page installs and marks; the units stay as they are. -/
theorem walkEntry_marks {d d1 : Dev} {part page : Nat} {w : Walked} (writes : Bool → List Nat) (h : AtHomes d)
    (hw : walk part (65536 * page) d = .ok (some w, d1)) (hok : leafOk w.large w.leaf = true) {write : Bool}
    (hwrite : write = (leafWr w.leaf && (writes w.large).any fun g =>
      leafRemote w.leaf || !((d.part part).cfg.rangeOf (leafAddr w.large w.leaf g)).any (·.rdonly))) :
    ∃ e, walkEntry part page false writes d = .ok (some ⟨part, if w.large then page / 32 * 32 else page, w.large, w.twin, markedLeaf w.leaf write,
        w.back, decide (w.backAt < w.leafAt)⟩, e)
      ∧ e.cores = d.cores ∧ e.quads = d.quads ∧ BitVec.ofNat 64 (e.mem.nat w.leafAt 8) = markedLeaf w.leaf write
      ∧ ∀ a, (a < w.leafAt ∨ w.leafAt + 8 ≤ a) → e.mem.get a = d.mem.get a := by
  have hcache := walk_reads part (65536 * page) d d1 _ h.homesOnly hw
  have hhome := h.cache hcache
  have hmem := hcache.mem
  obtain ⟨m, e, hmark, hmcache, hin, hout⟩ := markLeaf_marks (part := part) write hhome (hmem ▸ walk_leaf h hw)
  obtain ⟨v, hv⟩ := Dev.noteWalk_lp e part page w
  refine ⟨e.noteWalk part page w, Eng.bind_ok.mpr ⟨some w, d1, hw, ?_⟩, ?_⟩
  · have hcfg : ((d1.part part).cfg) = (d.part part).cfg := by
      obtain ⟨_, _, _, _, _, rfl⟩ := hcache
      rfl
    simp only [Bool.false_and, Bool.false_eq_true, if_false, hok, Bool.not_true]
    refine Eng.bind_ok.mpr ⟨d1, d1, rfl, Eng.bind_ok.mpr ⟨markedLeaf w.leaf write, e, ?_, Eng.bind_ok.mpr ⟨(), e.noteWalk part page w, rfl, rfl⟩⟩⟩
    rw [hcfg, ← hwrite]
    exact hmark
  · rw [hv]
    obtain ⟨_, _, _, _, _, rfl⟩ := hmcache
    obtain ⟨_, _, _, _, _, rfl⟩ := hcache
    exact ⟨rfl, rfl, hin, hout⟩

end Sys2Proof.Claims

namespace Sys2Proof.Claims
open Machine

/-! ### The waiters of a walk (R163) -/

/-- An access at `g` waits for the walk of a page: on a 2 MiB page for any part of it. -/
def OnPage (large : Bool) (page g : Nat) : Prop := if large then g / 65536 / 32 = page / 32 else g / 65536 = page

/-- What a slot of a quad waits for, if it waits for the walk of a page. -/
def walkWaiter (d : Dev) (part page : Nat) (large : Bool) (p : Nat × Nat) : Option (Nat × Nat × Nat × Bool × Bool) :=
  match (d.slot p.1 p.2).wait with
  | .walk gva w e =>
    if (d.slot p.1 p.2).part = part && (if large then gva / 65536 / 32 == page / 32 else gva / 65536 == page) then some (p.1, p.2, gva, w, e) else none
  | _ => none

theorem walkWaiter_some {d : Dev} {part page : Nat} {large : Bool} {p : Nat × Nat} {x : Nat × Nat × Nat × Bool × Bool} :
    walkWaiter d part page large p = some x ↔ ∃ g w y, (d.slot p.1 p.2).wait = .walk g w y ∧ (d.slot p.1 p.2).part = part ∧ OnPage large page g
      ∧ x = (p.1, p.2, g, w, y) := by
  have hpage : ∀ g, (if large then g / 65536 / 32 == page / 32 else g / 65536 == page) = true ↔ OnPage large page g := by
    intro g
    cases large <;> simp [OnPage]
  unfold walkWaiter
  split
  next g w y hw =>
    have hcond : ((d.slot p.1 p.2).part = part && (if large then g / 65536 / 32 == page / 32 else g / 65536 == page)) = true
        ↔ (d.slot p.1 p.2).part = part ∧ OnPage large page g := by
      rw [Bool.and_eq_true, decide_eq_true_eq, hpage]
    rw [hw]
    by_cases h : (d.slot p.1 p.2).part = part ∧ OnPage large page g
    · rw [if_pos (hcond.mpr h)]
      constructor
      · rintro ⟨⟩
        exact ⟨g, w, y, rfl, h.1, h.2, rfl⟩
      · rintro ⟨_, _, _, ⟨⟩, -, -, rfl⟩
        rfl
    · rw [if_neg (mt hcond.mp h)]
      constructor
      · rintro ⟨⟩
      · rintro ⟨_, _, _, ⟨⟩, hp, hg, -⟩
        exact absurd ⟨hp, hg⟩ h
  next hw =>
    constructor
    · rintro ⟨⟩
    · rintro ⟨g, w, y, h, -⟩
      exact absurd h (hw g w y)

/-- The slots of a quad. -/
def quadSlots (q : Nat) : List (Nat × Nat) := (List.range 4).flatMap fun i => (List.range 16).map fun k => (4 * q + i, k)

theorem mem_quadSlots {q : Nat} {p : Nat × Nat} : p ∈ quadSlots q ↔ ∃ i < 4, ∃ k < 16, p = (4 * q + i, k) := by
  simp only [quadSlots, List.mem_flatMap, List.mem_map, List.mem_range, eq_comm]

theorem nodup_quadSlots (q : Nat) : (quadSlots q).Nodup := by
  refine List.nodup_flatMap.mpr ⟨fun i _ => List.Nodup.map (fun a b h => (Prod.mk.inj h).2) List.nodup_range, ?_⟩
  refine List.nodup_range.imp fun {i j} hij => ?_
  intro p hi hj
  obtain ⟨k, -, rfl⟩ := List.mem_map.mp hi
  obtain ⟨k', -, h⟩ := List.mem_map.mp hj
  have := (Prod.mk.inj h).1
  omega

theorem walkWaiters_eq (d : Dev) (q part page : Nat) (large : Bool) :
    d.walkWaiters q part page large = (quadSlots q).filterMap (walkWaiter d part page large) := rfl

theorem mem_walkWaiters {d : Dev} {q part page : Nat} {large : Bool} {x : Nat × Nat × Nat × Bool × Bool} :
    x ∈ d.walkWaiters q part page large ↔ ∃ i < 4, ∃ k < 16, ∃ g w y, (d.slot (4 * q + i) k).wait = .walk g w y
      ∧ (d.slot (4 * q + i) k).part = part ∧ OnPage large page g ∧ x = (4 * q + i, k, g, w, y) := by
  rw [walkWaiters_eq, List.mem_filterMap]
  constructor
  · rintro ⟨p, hp, hx⟩
    obtain ⟨i, hi, k, hk, rfl⟩ := mem_quadSlots.mp hp
    exact ⟨i, hi, k, hk, walkWaiter_some.mp hx⟩
  · rintro ⟨i, hi, k, hk, hx⟩
    exact ⟨(4 * q + i, k), mem_quadSlots.mpr ⟨i, hi, k, hk, rfl⟩, walkWaiter_some.mpr hx⟩

/-- No slot waits twice for one walk. -/
theorem nodup_walkWaiters (d : Dev) (q part page : Nat) (large : Bool) :
    ((d.walkWaiters q part page large).map fun x => (x.1, x.2.1)).Nodup := by
  rw [walkWaiters_eq, List.map_filterMap]
  refine (nodup_quadSlots q).filterMap fun a b p ha hb => ?_
  have hkey : ∀ {c : Nat × Nat}, p ∈ (walkWaiter d part page large c).map (fun x => (x.1, x.2.1)) → c = p := by
    intro c hc
    obtain ⟨x, hx, rfl⟩ := Option.map_eq_some_iff.mp hc
    obtain ⟨_, _, _, -, -, -, rfl⟩ := walkWaiter_some.mp hx
    rfl
  rw [hkey ha, hkey hb]

/-- The entry of a walk is closed (R163). -/
theorem notMem_closeWalk (d : Dev) (q part page : Nat) (large : Bool) : (part, page) ∉ ((d.closeWalk q part page large).quad q).coal := by
  rw [Dev.closeWalk, Dev.modQuad_eq, Dev.quad_setQuad]
  intro h
  have h := (List.mem_filter.mp h).2
  cases large <;> simp at h

/-! ### A walk of a valid page (R160, R163, R165) -/

/-- A waiter of a walk takes the translation and goes on. -/
def takeEntry (e : TlbEntry) (d : Dev) (x : Nat × Nat × Nat × Bool × Bool) : Dev :=
  (d.modCore x.1 fun c => { c with tlb := tlbPut 64 c.tlb e }).modSlot x.1 x.2.1 fun s =>
    { s with wait := .none, fresh := some (x.2.2.1 / 65536, x.2.2.2.1, x.2.2.2.2) }

theorem takeEntry_endsWaits (e : TlbEntry) (d : Dev) (x : Nat × Nat × Nat × Bool × Bool) : EndsWaits d (takeEntry e d x) :=
  (EndsWaits.ofCore (f := fun c => { c with tlb := tlbPut 64 c.tlb e }) d fun _ => rfl).trans
    (.ofSlot _ x.1 x.2.1 fun s => ⟨_, s.npend, _, rfl, .inr rfl⟩)

theorem takeEntry_wait (e : TlbEntry) (d : Dev) {x : Nat × Nat × Nat × Bool × Bool} (hk : x.2.1 < 16) :
    ((takeEntry e d x).slot x.1 x.2.1).wait = .none := by
  rw [takeEntry, Dev.modSlot_eq, Dev.slot_setSlot _ _ _ _ hk]

/-- The device after the walk of a valid page. -/
def walkedDev (d : Dev) (q part page : Nat) (e : TlbEntry) : Dev :=
  (d.walkWaiters q part page e.large).foldl (takeEntry e) ((d.closeWalk q part page e.large).modQuad q fun x => { x with tlb := tlbPut 2048 x.tlb e })

theorem exec_pageWalk_valid {s : State} {e : TlbEntry} {d : Dev} (hc : (s.args.b, s.args.c) ∈ (s.dev.quad s.args.a).coal)
    (h : walkEntry s.args.b s.args.c false (fun large => ((s.dev.walkWaiters s.args.a s.args.b s.args.c large).filter fun x => x.2.2.2.1).map fun x => x.2.2.1)
      s.dev = .ok (some e, d)) : exec .pageWalk s = .next { s with dev := walkedDev d s.args.a s.args.b s.args.c e } := by
  have hturn : s.dev.walkTurn s.args.a s.args.b s.args.c = walkedDev d s.args.a s.args.b s.args.c e := by
    rw [Dev.walkTurn, if_pos (by simpa using hc)]
    unfold Dev.completeWalk
    extract_lets writes
    rw [h]
    rfl
  exact congrArg (fun x => Host.Outcome.next { s with dev := x }) hturn

/-- What the walk of a valid page leaves beside memory. -/
theorem walkedDev_goesOn (d : Dev) (q part page : Nat) (e : TlbEntry) : (part, page) ∉ ((walkedDev d q part page e).quad q).coal
    ∧ e ∈ ((walkedDev d q part page e).quad q).tlb ∧ (walkedDev d q part page e).mem = d.mem
    ∧ ∀ i < 4, ∀ k < 16, ∀ g x y, (d.slot (4 * q + i) k).wait = .walk g x y → (d.slot (4 * q + i) k).part = part → OnPage e.large page g →
      ((walkedDev d q part page e).slot (4 * q + i) k).wait = .none
        ∧ ((walkedDev d q part page e).slot (4 * q + i) k).pc = (d.slot (4 * q + i) k).pc := by
  unfold walkedDev
  have hends := EndsWaits.foldl (takeEntry_endsWaits e) (d.walkWaiters q part page e.large)
    ((d.closeWalk q part page e.large).modQuad q fun x => { x with tlb := tlbPut 2048 x.tlb e })
  have hquad := congrArg (fun m => (aget? m q).getD Quad.reset) hends.quads
  have hquad := hquad.trans (Dev.quad_setQuad ..)
  refine ⟨fun h => ?_, ?_, hends.mem, fun i hi k hk g x y hw hp hg => ⟨?_, ?_⟩⟩
  · exact notMem_closeWalk d q part page e.large ((congrArg Quad.coal hquad) ▸ h)
  · exact (congrArg Quad.tlb hquad) ▸ List.mem_cons_self
  · exact EndsWaits.foldl_wait (takeEntry_endsWaits e) (mem_walkWaiters.mpr ⟨i, hi, k, hk, g, x, y, hw, hp, hg, rfl⟩) (fun f => takeEntry_wait e f hk) _
  · obtain ⟨_, _, _, hs, -⟩ := hends.slot (4 * q + i) k
    rw [hs]
    rfl

/-- DIRTY is set for the write of a waiter that the page allows (R165). -/
theorem dirty_eq {d : Dev} {q part page : Nat} {w : Walked} {dirty : Bool} (hd : dirty = true ↔ leafWr w.leaf = true
      ∧ ∃ i < 4, ∃ k < 16, ∃ g y, (d.slot (4 * q + i) k).wait = .walk g true y ∧ (d.slot (4 * q + i) k).part = part ∧ OnPage w.large page g
        ∧ (leafRemote w.leaf = true ∨ (((d.part part).cfg.rangeOf (leafAddr w.large w.leaf g)).all fun r => !r.rdonly) = true)) :
    dirty = (leafWr w.leaf && (((d.walkWaiters q part page w.large).filter fun x => x.2.2.2.1).map fun x => x.2.2.1).any fun g =>
      leafRemote w.leaf || !((d.part part).cfg.rangeOf (leafAddr w.large w.leaf g)).any (·.rdonly)) := by
  have hallowed : ∀ g, (leafRemote w.leaf || !((d.part part).cfg.rangeOf (leafAddr w.large w.leaf g)).any (·.rdonly)) = true
      ↔ leafRemote w.leaf = true ∨ (((d.part part).cfg.rangeOf (leafAddr w.large w.leaf g)).all fun r => !r.rdonly) = true := by
    intro g
    rw [Bool.or_eq_true]
    cases (d.part part).cfg.rangeOf (leafAddr w.large w.leaf g) <;> simp
  rw [Bool.eq_iff_iff, hd, Bool.and_eq_true, List.any_eq_true]
  refine and_congr_right fun _ => ⟨?_, ?_⟩
  · rintro ⟨i, hi, k, hk, g, y, hw, hp, hg, hr⟩
    refine ⟨g, List.mem_map.mpr ⟨(4 * q + i, k, g, true, y), List.mem_filter.mpr ⟨mem_walkWaiters.mpr ⟨i, hi, k, hk, g, true, y, hw, hp, hg, rfl⟩, rfl⟩, rfl⟩,
      (hallowed g).mpr hr⟩
  · rintro ⟨g, hg, hr⟩
    obtain ⟨x, hx, rfl⟩ := List.mem_map.mp hg
    obtain ⟨hx, hwr⟩ := List.mem_filter.mp hx
    obtain ⟨i, hi, k, hk, g, v, y, hw, hp, hpage, rfl⟩ := mem_walkWaiters.mp hx
    obtain rfl : v = true := hwr
    exact ⟨i, hi, k, hk, g, y, hw, hp, hpage, (hallowed g).mp hr⟩

/-- The walk of a valid page (R160, R163, R165). -/
theorem pageWalk_valid {s : State} {w : Walked} {d : Dev} {dirty : Bool} {q part page : Nat} (hq : q = s.args.a) (hpart : part = s.args.b)
    (hpage : page = s.args.c) (hc : (part, page) ∈ (s.dev.quad q).coal) (h : AtHomes s.dev) (hw : walk part (65536 * page) s.dev = .ok (some w, d))
    (hok : leafOk w.large w.leaf = true) (hd : dirty = true ↔ leafWr w.leaf = true
      ∧ ∃ i < 4, ∃ k < 16, ∃ g y, (s.dev.slot (4 * q + i) k).wait = .walk g true y ∧ (s.dev.slot (4 * q + i) k).part = part ∧ OnPage w.large page g
        ∧ (leafRemote w.leaf = true ∨ (((s.dev.part part).cfg.rangeOf (leafAddr w.large w.leaf g)).all fun r => !r.rdonly) = true)) :
    Gives .pageWalk s fun t => (part, page) ∉ (t.dev.quad q).coal
      ∧ BitVec.ofNat 64 (t.dev.mem.nat w.leafAt 8) = w.leaf ||| BitVec.ofNat 64 (2 ^ 52) ||| (if dirty then BitVec.ofNat 64 (2 ^ 51) else 0)
      ∧ (∀ a, (a < w.leafAt ∨ w.leafAt + 8 ≤ a) → t.dev.mem.get a = s.dev.mem.get a)
      ∧ (∃ e ∈ (t.dev.quad q).tlb, e.part = part ∧ e.large = w.large ∧ e.twin = w.twin ∧ e.leaf.getLsbD 52 = true
        ∧ e.page = if w.large then page / 32 * 32 else page)
      ∧ ∀ i < 4, ∀ k < 16, ∀ g x y, (s.dev.slot (4 * q + i) k).wait = .walk g x y → (s.dev.slot (4 * q + i) k).part = part →
        OnPage w.large page g → (t.dev.slot (4 * q + i) k).wait = .none ∧ (t.dev.slot (4 * q + i) k).pc = (s.dev.slot (4 * q + i) k).pc := by
  obtain ⟨e, hentry, hcores, -, hin, hout⟩ := walkEntry_marks
    (fun large => ((s.dev.walkWaiters q part page large).filter fun x => x.2.2.2.1).map fun x => x.2.2.1) h hw hok (dirty_eq hd)
  subst hq hpart hpage
  have hslot : ∀ r k, e.slot r k = s.dev.slot r k := fun r k => congrArg (fun m => ((aget? m r).getD Core.reset).slot k) hcores
  obtain ⟨hcoal, htlb, hmem, hgo⟩ := walkedDev_goesOn e s.args.a s.args.b s.args.c _
  refine ⟨_, exec_pageWalk_valid hc hentry, hcoal, ?_, fun a ha => ?_, ⟨_, htlb, rfl, rfl, rfl, ?_, rfl⟩, fun i hi k hk g x y hwait hp hg => ?_⟩
  · rw [hmem]
    exact hin
  · rw [hmem]
    exact hout a ha
  · simp [markedLeaf]
  · rw [← hslot] at hwait hp ⊢
    exact hgo i hi k hk g x y hwait hp hg

end Sys2Proof.Claims

namespace Sys2Proof.Machine

/-! ### The hamper of a quad (R168, R171) -/

/-- The hamper of quad `q` holds an entry of the page. -/
def Hampers (q part page : Nat) (d : Dev) : Prop := ∃ h ∈ (d.quad q).hamper, h.part = part ∧ h.page = page

theorem Hampers.any {q part page : Nat} {d : Dev} : ((d.quad q).hamper.any fun h => h.part == part && h.page == page) = true ↔ Hampers q part page d := by
  simp [Hampers]

theorem pagerPost_threads (d : Dev) (q part : Nat) : KeepsThreads d (d.pagerPost q part) := post_threads ..

/-- A fault at the hamper changes no slot, and opens and closes no walk. -/
theorem hamperFault_keeps (d : Dev) (q part page : Nat) (write exec_ : Bool) : (∀ r k, (d.hamperFault q part page write exec_).slot r k = d.slot r k)
    ∧ ((d.hamperFault q part page write exec_).quad q).coal = (d.quad q).coal := by
  have hset : ∀ x : Quad, x.coal = (d.quad q).coal → (∀ r k, (d.setQuad q x).slot r k = d.slot r k) ∧ ((d.setQuad q x).quad q).coal = (d.quad q).coal :=
    fun x hx => ⟨fun _ _ => rfl, by rw [Dev.quad_setQuad, hx]⟩
  have hpost : ∀ x : Quad, x.coal = (d.quad q).coal → (∀ r k, ((d.setQuad q x).pagerPost q part).slot r k = d.slot r k)
      ∧ (((d.setQuad q x).pagerPost q part).quad q).coal = (d.quad q).coal := by
    intro x hx
    have hthreads := pagerPost_threads (d.setQuad q x) q part
    exact ⟨fun r k => hthreads.slot r k, by rw [hthreads.quad, Dev.quad_setQuad, hx]⟩
  unfold Dev.hamperFault
  extract_lets x free lacking mine idx
  split
  · exact hset _ rfl
  · split
    · exact hpost _ rfl
    · split
      · exact ⟨fun _ _ => rfl, rfl⟩
      · exact hpost _ rfl

/-- A page joins its entry, or takes one of an empty hamper (R168). -/
theorem hamperFault_hampers {d : Dev} {q part page : Nat} (write exec_ : Bool) (h : (d.quad q).hamper = [] ∨ Hampers q part page d) :
    Hampers q part page (d.hamperFault q part page write exec_) := by
  unfold Dev.hamperFault
  extract_lets x free lacking mine idx
  split
  next hany =>
    obtain ⟨e, he, hp⟩ := Hampers.any.mp hany
    refine ⟨_, by rw [Dev.quad_setQuad]; exact List.mem_map.mpr ⟨e, he, rfl⟩, ?_⟩
    split <;> exact hp
  next hany =>
    have hnil : (d.quad q).hamper = [] := h.resolve_right fun hh => hany (Hampers.any.mpr hh)
    have hfree : free = 8 := by simp [free, x, hnil]
    have hmine : mine = false := by simp [mine, x, hnil]
    rw [if_pos (by simp [hfree, hmine])]
    refine ⟨⟨idx, part, page, write, exec_, 1⟩, ?_, rfl, rfl⟩
    rw [(pagerPost_threads ..).quad, Dev.quad_setQuad]
    exact List.mem_append_right _ List.mem_cons_self

/-! ### The fault of a waiter (R160, R170) -/

/-- Faults of the slots `keys` on a page: every other slot is as before, no slot changes its partition, no walk is opened or closed, and the
hamper, empty before or with an entry of the page, is so after. -/
structure Faults (q part page : Nat) (keys : List (Nat × Nat)) (d e : Dev) : Prop where
  others : ∀ r k, (r, k) ∉ keys → e.slot r k = d.slot r k
  slotPart : ∀ r k, (e.slot r k).part = (d.slot r k).part
  coal : (e.quad q).coal = (d.quad q).coal
  keeps : Hampers q part page d → Hampers q part page e
  hamper : (d.quad q).hamper = [] ∨ Hampers q part page d → (e.quad q).hamper = [] ∨ Hampers q part page e

theorem Faults.nil (q part page : Nat) (d : Dev) : Faults q part page [] d d := ⟨fun _ _ _ => rfl, fun _ _ => rfl, rfl, id, id⟩

theorem Faults.append {q part page : Nat} {ks ls : List (Nat × Nat)} {a b c : Dev} (h : Faults q part page ks a b) (k : Faults q part page ls b c) :
    Faults q part page (ks ++ ls) a c where
  others r j hn := (k.others r j fun hm => hn (List.mem_append_right _ hm)).trans (h.others r j fun hm => hn (List.mem_append_left _ hm))
  slotPart r j := (k.slotPart r j).trans (h.slotPart r j)
  coal := k.coal.trans h.coal
  keeps := k.keeps ∘ h.keeps
  hamper := k.hamper ∘ h.hamper

/-- A change of one slot that leaves its partition. -/
theorem Faults.ofSlot (q part page : Nat) (d : Dev) (r k : Nat) {f : Slot → Slot} (hf : ∀ s, (f s).part = s.part) :
    Faults q part page [(r, k)] d (d.modSlot r k f) where
  others c j hn := by
    rw [Dev.modSlot_eq]
    exact Dev.slot_setSlot_ne _ _ _ _ _ _ fun h => hn (by simp [h.1, h.2])
  slotPart c j := by
    rcases Dev.slot_modSlot_or d r k f c j with h | h
    · rw [h, hf]
    · rw [h]
  coal := rfl
  keeps := id
  hamper := id

theorem Faults.ofHamper {q part page : Nat} (d : Dev) (write exec_ : Bool) : Faults q part page [] d (d.hamperFault q part page write exec_) where
  others r k _ := (hamperFault_keeps ..).1 r k
  slotPart r k := by rw [(hamperFault_keeps ..).1]
  coal := (hamperFault_keeps ..).2
  keeps h := hamperFault_hampers write exec_ (.inr h)
  hamper h := .inr (hamperFault_hampers write exec_ h)

section
variable {d : Dev} {r k gva : Nat} {write exec_ : Bool}

/-- The access of a supervisor raises PERM (R160). -/
theorem Dev.pageFault_supervisor (h : (d.slot r k).mode = true) :
    d.pageFault r k gva write exec_ = d.trap r k ⟨.perm, BitVec.ofNat 64 gva⟩ := if_pos h

/-- A user thread without an upcall handler, or in it, parks (R170). -/
theorem Dev.pageFault_parks (h : (d.slot r k).mode = false) (hu : (d.slot r k).uvec = 0 ∨ (d.slot r k).uact = true) :
    d.pageFault r k gva write exec_
      = (d.hamperFault (r / 4) (d.slot r k).part (gva / 65536) write exec_).modSlot r k fun s => { s with wait := .fault gva } := by
  unfold Dev.pageFault
  extract_lets s d1 d2
  rw [if_neg (by simp [s, h]), if_pos (by simpa [s] using hu)]

/-- A user thread with an upcall handler notes the fault and goes there (R170, R171). -/
def Slot.pageUpcall (gva : Nat) (s : Slot) : Slot :=
  let s := if s.unote.getLsbD 6 then { s with npend := true } else s
  if s.pend.isEmpty then s.enterPage (BitVec.ofNat 64 gva) else { s with wait := .upcallDue (BitVec.ofNat 64 gva) }

theorem Slot.pageUpcall_part (gva : Nat) (s : Slot) : (s.pageUpcall gva).part = s.part := by
  unfold Slot.pageUpcall
  dsimp only
  split <;> split <;> rfl

theorem Dev.pageFault_upcalls (hk : k < 16) (h : (d.slot r k).mode = false) (hv : (d.slot r k).uvec ≠ 0) (ha : (d.slot r k).uact = false) :
    d.pageFault r k gva write exec_
      = (d.hamperFault (r / 4) (d.slot r k).part (gva / 65536) write exec_).modSlot r k (Slot.pageUpcall gva) := by
  unfold Dev.pageFault
  extract_lets s d1 d2
  rw [if_neg (by simp [s, h]), if_neg (by simpa [s, ha] using hv)]
  simp only [d2, Dev.modSlot_eq, Dev.slot_setSlot _ _ _ _ hk, Dev.setSlot_setSlot]
  rfl

end

end Sys2Proof.Machine

namespace Sys2Proof.Machine

section
variable {d : Dev} {q r k part page gva : Nat} {write exec_ : Bool}

theorem trap_faults (q part page : Nat) (d : Dev) (r k : Nat) (t : TrapInfo) : Faults q part page [(r, k)] d (d.trap r k t) := by
  unfold Dev.trap
  refine .ofSlot q part page d r k fun s => ?_
  split <;> rfl

section
variable (hq : r / 4 = q) (hp : (d.slot r k).part = part) (hg : gva / 65536 = page)
include hq hp hg

/-- The fault of one slot of the quad on the page. -/
theorem pageFault_faults (hk : k < 16) : Faults q part page [(r, k)] d (d.pageFault r k gva write exec_) := by
  subst hq hp hg
  have hhamper := Faults.ofHamper (q := r / 4) (part := (d.slot r k).part) (page := gva / 65536) d write exec_
  cases hm : (d.slot r k).mode with
  | true =>
    rw [Dev.pageFault_supervisor hm]
    exact trap_faults ..
  | false =>
    by_cases hu : (d.slot r k).uvec = 0 ∨ (d.slot r k).uact = true
    · rw [Dev.pageFault_parks hm hu]
      exact hhamper.append (.ofSlot _ _ _ _ r k fun _ => rfl)
    · rw [not_or, Bool.not_eq_true] at hu
      rw [Dev.pageFault_upcalls hk hm hu.1 hu.2]
      exact hhamper.append (.ofSlot _ _ _ _ r k (Slot.pageUpcall_part gva))

/-- The fault of a user slot is in the hamper. -/
theorem pageFault_hampers (hk : k < 16) (hm : (d.slot r k).mode = false) (h : (d.quad q).hamper = [] ∨ Hampers q part page d) :
    Hampers q part page (d.pageFault r k gva write exec_) := by
  subst hq hp hg
  have hhamper := hamperFault_hampers write exec_ h
  by_cases hu : (d.slot r k).uvec = 0 ∨ (d.slot r k).uact = true
  · rw [Dev.pageFault_parks hm hu]
    exact hhamper
  · rw [not_or, Bool.not_eq_true] at hu
    rw [Dev.pageFault_upcalls hk hm hu.1 hu.2]
    exact hhamper

end

/-- A user slot that parks waits with its fault. -/
theorem pageFault_wait (hk : k < 16) (hm : (d.slot r k).mode = false) (hu : (d.slot r k).uvec = 0 ∨ (d.slot r k).uact = true) :
    ((d.pageFault r k gva write exec_).slot r k).wait = .fault gva := by
  rw [Dev.pageFault_parks hm hu, Dev.modSlot_eq, Dev.slot_setSlot _ _ _ _ hk]

/-- A user slot that upcalls without pending results is at its handler. -/
theorem pageFault_enters (hk : k < 16) (hm : (d.slot r k).mode = false) (hv : (d.slot r k).uvec ≠ 0) (ha : (d.slot r k).uact = false)
    (hpend : (d.slot r k).pend = []) : ∃ n, (d.pageFault r k gva write exec_).slot r k
      = Slot.enterPage (BitVec.ofNat 64 gva) { d.slot r k with npend := n } := by
  rw [Dev.pageFault_upcalls hk hm hv ha, Dev.modSlot_eq, Dev.slot_setSlot _ _ _ _ hk, (hamperFault_keeps ..).1]
  generalize d.slot r k = s at hpend
  unfold Slot.pageUpcall
  extract_lets s1
  have hs1 : ∃ n, s1 = { s with npend := n } := by
    dsimp only [s1]
    split
    · exact ⟨_, rfl⟩
    · exact ⟨s.npend, rfl⟩
  obtain ⟨n, hn⟩ := hs1
  refine ⟨n, ?_⟩
  rw [hn, if_pos (by simp [hpend])]

end

/-! ### The faults of the waiters of a walk -/

/-- A waiter of a walk meets the page that is not valid. -/
def waiterFault (d : Dev) (x : Nat × Nat × Nat × Bool × Bool) : Dev := d.pageFault x.1 x.2.1 x.2.2.1 x.2.2.2.1 x.2.2.2.2

/-- Slots of a quad that wait for a page of a partition. -/
def WaitHere (q part page : Nat) (d : Dev) (l : List (Nat × Nat × Nat × Bool × Bool)) : Prop :=
  ∀ x ∈ l, x.1 / 4 = q ∧ x.2.1 < 16 ∧ (d.slot x.1 x.2.1).part = part ∧ x.2.2.1 / 65536 = page

theorem WaitHere.after {q part page : Nat} {ks : List (Nat × Nat)} {d e : Dev} {l : List (Nat × Nat × Nat × Bool × Bool)} (h : WaitHere q part page d l)
    (hf : Faults q part page ks d e) : WaitHere q part page e l := fun x hx => by
  obtain ⟨hq, hk, hp, hg⟩ := h x hx
  exact ⟨hq, hk, (hf.slotPart ..).trans hp, hg⟩

theorem waiterFaults_faults {q part page : Nat} (l : List (Nat × Nat × Nat × Bool × Bool)) (d : Dev) (h : WaitHere q part page d l) :
    Faults q part page (l.map fun x => (x.1, x.2.1)) d (l.foldl waiterFault d) := by
  induction l generalizing d with
  | nil => exact .nil ..
  | cons x l ih =>
    obtain ⟨hq, hk, hp, hg⟩ := h x List.mem_cons_self
    have hx : Faults q part page [(x.1, x.2.1)] d (waiterFault d x) := pageFault_faults hq hp hg hk
    have hrest : WaitHere q part page d l := fun y hy => h y (List.mem_cons_of_mem _ hy)
    exact hx.append (ih _ (hrest.after hx))

/-- A user slot among the waiters: its page is in the hamper, and its slot is as its own fault leaves it, whatever the others do. -/
theorem waiterFaults_user {q part page : Nat} {l : List (Nat × Nat × Nat × Bool × Bool)} {d : Dev} {x : Nat × Nat × Nat × Bool × Bool}
    (h : WaitHere q part page d l) (hn : (l.map fun x => (x.1, x.2.1)).Nodup) (hx : x ∈ l) (hm : (d.slot x.1 x.2.1).mode = false)
    (hh : (d.quad q).hamper = []) : Hampers q part page (l.foldl waiterFault d)
      ∧ ∃ e, e.slot x.1 x.2.1 = d.slot x.1 x.2.1 ∧ (l.foldl waiterFault d).slot x.1 x.2.1 = (waiterFault e x).slot x.1 x.2.1 := by
  obtain ⟨before, after, rfl⟩ := List.append_of_mem hx
  obtain ⟨hq, hk, hp, hg⟩ := h x hx
  have hnone : (x.1, x.2.1) ∉ before.map (fun x => (x.1, x.2.1)) ∧ (x.1, x.2.1) ∉ after.map (fun x => (x.1, x.2.1)) := by
    rw [List.map_append, List.map_cons, List.nodup_middle, List.nodup_cons, List.mem_append, not_or] at hn
    exact hn.1
  rw [List.foldl_append, List.foldl_cons]
  have hfirst := waiterFaults_faults before d fun y hy => h y (List.mem_append_left _ hy)
  have hslot := hfirst.others x.1 x.2.1 hnone.1
  generalize before.foldl waiterFault d = e at hfirst hslot
  have hown : Faults q part page [(x.1, x.2.1)] e (waiterFault e x) := pageFault_faults hq (hslot ▸ hp) hg hk
  have hlast := waiterFaults_faults after (waiterFault e x) fun y hy =>
    WaitHere.after (fun z hz => h z (List.mem_append_right _ (List.mem_cons_of_mem _ hz))) (hfirst.append hown) y hy
  exact ⟨hlast.keeps (pageFault_hampers hq (hslot ▸ hp) hg hk (hslot ▸ hm) (hfirst.hamper (.inl hh))), e, hslot, hlast.others x.1 x.2.1 hnone.2⟩

end Sys2Proof.Machine

namespace Sys2Proof.Claims
open Machine

/-! ### A walk of a page that is not valid (R160, R168, R170) -/

/-- The device after the walk of a page that is not valid. -/
def faultedDev (d : Dev) (q part page : Nat) : Dev := (d.walkWaiters q part page false).foldl waiterFault (d.closeWalk q part page false)

theorem exec_pageWalk_invalid {s : State} {d : Dev} (hc : (s.args.b, s.args.c) ∈ (s.dev.quad s.args.a).coal)
    (h : walk s.args.b (65536 * s.args.c) s.dev = .ok (none, d)) :
    exec .pageWalk s = .next { s with dev := faultedDev d s.args.a s.args.b s.args.c } := by
  have hturn : s.dev.walkTurn s.args.a s.args.b s.args.c = faultedDev d s.args.a s.args.b s.args.c := by
    rw [Dev.walkTurn, if_pos (by simpa using hc)]
    unfold Dev.completeWalk
    extract_lets writes
    have hentry : walkEntry s.args.b s.args.c false writes s.dev = .ok (none, d) := Eng.bind_ok.mpr ⟨none, d, h, rfl⟩
    rw [hentry]
    rfl
  exact congrArg (fun x => Host.Outcome.next { s with dev := x }) hturn

/-- The walk of a page that is not valid, by what it makes of a user slot of the quad that waits for it. -/
theorem pageWalk_invalid {s : State} {d : Dev} {q part page k g : Nat} {x y : Bool} (hq : q = s.args.a) (hpart : part = s.args.b)
    (hpage : page = s.args.c) (hc : (part, page) ∈ (s.dev.quad q).coal) (h : AtHomes s.dev) (hw : walk part (65536 * page) s.dev = .ok (none, d))
    (hh : (s.dev.quad q).hamper = []) (hk : k < 16) (hwait : (s.dev.slot (4 * q) k).wait = .walk g x y) (hp : (s.dev.slot (4 * q) k).part = part)
    (hg : g / 65536 = page) (hm : (s.dev.slot (4 * q) k).mode = false) :
    Gives .pageWalk s fun t => (part, page) ∉ (t.dev.quad q).coal ∧ (∃ h ∈ (t.dev.quad q).hamper, h.part = part ∧ h.page = page)
      ∧ ∃ e : Dev, e.slot (4 * q) k = s.dev.slot (4 * q) k ∧ t.dev.slot (4 * q) k = (e.pageFault (4 * q) k g x y).slot (4 * q) k := by
  subst hq hpart hpage
  obtain ⟨_, _, _, _, _, hd⟩ := walk_reads _ _ _ _ _ h.homesOnly hw
  have hslot : ∀ r j, d.slot r j = s.dev.slot r j := fun r j => by rw [hd]; rfl
  have hquad : (d.quad s.args.a).hamper = [] := by rw [hd]; exact hh
  have hclose : ∀ r j, (d.closeWalk s.args.a s.args.b s.args.c false).slot r j = s.dev.slot r j := hslot
  have hhere : WaitHere s.args.a s.args.b s.args.c (d.closeWalk s.args.a s.args.b s.args.c false) (d.walkWaiters s.args.a s.args.b s.args.c false) := by
    intro w hmem
    obtain ⟨i, hi, j, hj, g', _, _, -, hpart, hpage, rfl⟩ := mem_walkWaiters.mp hmem
    exact ⟨by dsimp only; omega, hj, (congrArg Slot.part ((hclose ..).trans (hslot ..).symm)).trans hpart, hpage⟩
  have hmem : (4 * s.args.a, k, g, x, y) ∈ d.walkWaiters s.args.a s.args.b s.args.c false :=
    mem_walkWaiters.mpr ⟨0, by decide, k, hk, g, x, y, (hslot ..) ▸ hwait, (hslot ..) ▸ hp, hg, rfl⟩
  obtain ⟨hrec, e, he, hend⟩ := waiterFaults_user hhere (nodup_walkWaiters ..) hmem ((hclose ..) ▸ hm)
    ((congrArg Quad.hamper (Dev.quad_setQuad ..)).trans hquad)
  have hcoal : (s.args.b, s.args.c) ∉ ((faultedDev d s.args.a s.args.b s.args.c).quad s.args.a).coal := by
    rw [faultedDev, (waiterFaults_faults _ _ hhere).coal]
    exact notMem_closeWalk d s.args.a s.args.b s.args.c false
  change Hampers _ _ _ (faultedDev d s.args.a s.args.b s.args.c) at hrec
  change (faultedDev d s.args.a s.args.b s.args.c).slot _ _ = _ at hend
  have hexec := exec_pageWalk_invalid hc hw
  generalize faultedDev d s.args.a s.args.b s.args.c = f at hcoal hrec hend hexec
  exact ⟨_, hexec, hcoal, hrec, e, he.trans (hclose ..), hend⟩

end Sys2Proof.Claims

namespace Sys2Proof
open Machine Claims

/-- Settles O52: `fltrd` and `fltreplay` by the entries of the hamper, a walk by the waiters that it serves. -/
theorem pageFaultsAndWalks : Obligations.PageFaultsAndWalks := by
  unfold Obligations.PageFaultsAndWalks
  refine ⟨⟨fun rd ra h s hready hmode hx hr hh => fltrd_gives hready hmode hx hr hh,
    fun ra s hready hmode hrel hr hx hs _ => fltreplay_gives hready hmode hrel hr hx hs rfl,
    fun rd ra s hready hmode hr => hamper_traps hready hmode hr⟩, ?_⟩
  intro s q part page hc h
  refine ⟨fun w d dirty hw hok _ hd => pageWalk_valid rfl rfl rfl hc h hw hok hd, ?_⟩
  intro d hw hh _ _ k hk g x y hwait hp hg hm
  obtain ⟨t, ht, hcoal, hrec, e, he, hslot⟩ := pageWalk_invalid rfl rfl rfl hc h hw hh hk hwait hp hg hm
  rw [← he] at hm ⊢
  refine ⟨fun hu => ⟨t, ht, hcoal, ?_, hrec⟩, fun hv ha hpend => ⟨t, ht, hcoal, hrec, ?_⟩⟩
  · rw [hslot]
    exact pageFault_wait hk hm hu
  · obtain ⟨n, hn⟩ := pageFault_enters (gva := g) (write := x) (exec_ := y) hk hm hv ha hpend
    dsimp only
    rw [hslot, hn]
    exact ⟨rfl, rfl, rfl, rfl, rfl, rfl, rfl, hm⟩

end Sys2Proof

namespace Sys2Proof

/-! ### A word is its fields (R240) -/

/-- Two neighbouring fields of a word are one field. -/
theorem adjacent_fields {w : HWord} {s t n m : Nat} (h : s = t + m) :
    w.extractLsb' s n ++ w.extractLsb' t m = w.extractLsb' t (n + m) :=
  BitVec.extractLsb'_append_extractLsb'_eq_extractLsb' h

theorem packR_eq {w : HWord} {op : BitVec 6} {d a b : RegNo} {fn : BitVec 7} {la : La} : packR op d a b fn la = w ↔
    (fOp w).toNat = op.toNat ∧ fD w = d ∧ fA w = a ∧ fB w = b ∧ (fRfn w).toNat = fn.toNat ∧ fLa w = la := by
  simp only [BitVec.toNat_inj]
  constructor
  · rintro rfl; simp
  · rintro ⟨rfl, rfl, rfl, rfl, rfl, rfl⟩
    simp (disch := rfl) only [packR, fOp, fD, fA, fB, fRfn, fLa, adjacent_fields]
    exact BitVec.extractLsb'_eq_self

theorem packI_eq {w : HWord} {op : BitVec 6} {d a : RegNo} {imm : BitVec 16} : packI op d a imm = w ↔
    (fOp w).toNat = op.toNat ∧ fD w = d ∧ fA w = a ∧ fImm16 w = imm := by
  simp only [BitVec.toNat_inj]
  constructor
  · rintro rfl; simp
  · rintro ⟨rfl, rfl, rfl, rfl⟩
    simp (disch := rfl) only [packI, fOp, fD, fA, fImm16, adjacent_fields]
    exact BitVec.extractLsb'_eq_self

theorem packU_eq {w : HWord} {op : BitVec 6} {d : RegNo} {imm : BitVec 21} : packU op d imm = w ↔
    (fOp w).toNat = op.toNat ∧ fD w = d ∧ fImm21 w = imm := by
  simp only [BitVec.toNat_inj]
  constructor
  · rintro rfl; simp
  · rintro ⟨rfl, rfl, rfl⟩
    simp (disch := rfl) only [packU, fOp, fD, fImm21, adjacent_fields]
    exact BitVec.extractLsb'_eq_self

theorem packM_eq {w : HWord} {op : BitVec 6} {t a : RegNo} {sg : SegNo} {la : La} {off : BitVec 9} : packM op t a sg la off = w ↔
    (fOp w).toNat = op.toNat ∧ fD w = t ∧ fA w = a ∧ fSgM w = sg ∧ fLaM w = la ∧ fOff9 w = off := by
  simp only [BitVec.toNat_inj]
  constructor
  · rintro rfl; simp
  · rintro ⟨rfl, rfl, rfl, rfl, rfl, rfl⟩
    simp (disch := rfl) only [packM, fOp, fD, fA, fSgM, fLaM, fOff9, adjacent_fields]
    exact BitVec.extractLsb'_eq_self

theorem packA_eq {w : HWord} {op : BitVec 6} {d a b : RegNo} {sg : SegNo} {fn : BitVec 4} {la : La} : packA op d a b sg fn la = w ↔
    (fOp w).toNat = op.toNat ∧ fD w = d ∧ fA w = a ∧ fB w = b ∧ fSgA w = sg ∧ (fAfn w).toNat = fn.toNat ∧ fLa w = la := by
  simp only [BitVec.toNat_inj]
  constructor
  · rintro rfl; simp
  · rintro ⟨rfl, rfl, rfl, rfl, rfl, rfl, rfl⟩
    simp (disch := rfl) only [packA, fOp, fD, fA, fB, fSgA, fAfn, fLa, adjacent_fields]
    exact BitVec.extractLsb'_eq_self

theorem packV_eq {w : HWord} {op : BitVec 6} {d a b : RegNo} {pm : PNo} {ty : BitVec 3} {fn : BitVec 5} : packV op d a b pm ty fn = w ↔
    (fOp w).toNat = op.toNat ∧ fD w = d ∧ fA w = a ∧ fB w = b ∧ fSgA w = pm ∧ (fTy w).toNat = ty.toNat ∧ (fVfn w).toNat = fn.toNat := by
  simp only [BitVec.toNat_inj]
  constructor
  · rintro rfl; simp
  · rintro ⟨rfl, rfl, rfl, rfl, rfl, rfl, rfl⟩
    simp (disch := rfl) only [packV, fOp, fD, fA, fB, fSgA, fTy, fVfn, adjacent_fields]
    exact BitVec.extractLsb'_eq_self

theorem packMX_eq {w : HWord} {md : TileNo} {a b : RegNo} {sa sb : SegNo} {fn : BitVec 4} : packMX md a b sa sb fn = w ↔
    (fOp w).toNat = 0x2D ∧ fMd w = md ∧ fMa w = a ∧ fMb w = b ∧ (fSa w).toNat = sa.toNat ∧ fSb w = sb ∧ (w.extractLsb' 0 4).toNat = fn.toNat := by
  rw [show (0x2D : Nat) = (0x2D : BitVec 6).toNat from rfl]
  simp only [BitVec.toNat_inj]
  constructor
  · rintro rfl; simp
  · rintro ⟨h, rfl, rfl, rfl, rfl, rfl, rfl⟩
    simp (disch := rfl) only [packMX, ← h, fOp, fMd, fMa, fMb, fSa, fSb, adjacent_fields]
    exact BitVec.extractLsb'_eq_self

theorem packLX_eq {w : HWord} {lx fn : BitVec 3} {fa : TileNo} {fb fc : RegNo} : packLX lx fn fa fb fc = w ↔
    (fOp w).toNat = 0x2E ∧ fLx w = lx ∧ (fLfn w).toNat = fn.toNat ∧ fFa w = fa ∧ fFb w = fb ∧ fFc w = fc ∧ fLa w = 0 := by
  rw [show (0x2E : Nat) = (0x2E : BitVec 6).toNat from rfl]
  simp only [BitVec.toNat_inj]
  constructor
  · rintro rfl; simp
  · rintro ⟨h, rfl, rfl, rfl, rfl, rfl, hl⟩
    simp (disch := rfl) only [packLX, ← h, ← hl, fOp, fLx, fLfn, fFa, fFb, fFc, fLa, adjacent_fields]
    exact BitVec.extractLsb'_eq_self

theorem packSA_eq {w : HWord} {d a b : RegNo} {id : BitVec 6} {fn : BitVec 1} {la : La} : packSA d a b id fn la = w ↔
    (fOp w).toNat = 0x32 ∧ fD w = d ∧ fA w = a ∧ fB w = b ∧ fId w = id ∧ fSaFn w = fn ∧ fLa w = la := by
  rw [show (0x32 : Nat) = (0x32 : BitVec 6).toNat from rfl]
  simp only [BitVec.toNat_inj]
  constructor
  · rintro rfl; simp
  · rintro ⟨h, rfl, rfl, rfl, rfl, rfl, rfl⟩
    simp (disch := rfl) only [packSA, ← h, fOp, fD, fA, fB, fId, fSaFn, fLa, adjacent_fields]
    exact BitVec.extractLsb'_eq_self

theorem packSh_eq {w : HWord} {op : BitVec 6} {d a : RegNo} {sel : BitVec 2} {n : BitVec 6} : packSh op d a sel n = w ↔
    (fOp w).toNat = op.toNat ∧ fD w = d ∧ fA w = a ∧ (w.extractLsb' 14 2).toNat = sel.toNat ∧ w.extractLsb' 6 8 = 0
      ∧ w.extractLsb' 0 6 = n := by
  simp only [BitVec.toNat_inj]
  constructor
  · rintro rfl; simp
  · rintro ⟨rfl, rfl, rfl, rfl, h, rfl⟩
    simp (disch := rfl) only [packSh, ← h, fOp, fD, fA, adjacent_fields]
    exact BitVec.extractLsb'_eq_self

/-! ### Codes written back (R241, R243) -/

@[simp] theorem tyCode_tyOf (t : BitVec 3) : tyCode (tyOf t) = t := by revert t; decide
theorem tyOf_inj {t u : BitVec 3} : tyOf t = tyOf u ↔ t = u :=
  ⟨fun h => by rw [← tyCode_tyOf t, h, tyCode_tyOf], congrArg tyOf⟩
@[simp] theorem packOc_fields (oc : BitVec 5) : packOc (ocW oc) (ocOrd oc) (ocScope oc) = oc := by revert oc; decide
theorem packOc_eq_self {oc : BitVec 5} {b : Bool} {o : MemOrd} (hb : ocW oc = b) (ho : ocOrd oc = o) : packOc b o (ocScope oc) = oc := by
  rw [← hb, ← ho, packOc_fields]
/-- An oc field without order and scope (R277). -/
theorem packOc_w_eq_self {oc : BitVec 5} : oc.extractLsb' 0 4 = 0 → packOc (wOf (oc.extractLsb' 4 1)) .none .cr = oc := by revert oc; decide
theorem toNat_eq_three {c : BitVec 2} : (c.toNat = 0 → False) → (c.toNat = 1 → False) → (c.toNat = 2 → False) → c.toNat = 3 := by
  revert c; decide
theorem toNat_eq_pLow {r : RegNo} : pHigh r = 0 → r.toNat = (pLow r).toNat := by revert r; decide
/-- A number whose upper bits are 0 in a wider field. -/
theorem zero_append_low {x : BitVec 6} : x.extractLsb' 5 1 = 0 → 0#1 ++ x.extractLsb' 0 5 = x := by revert x; decide
theorem zero_append_bit {x : BitVec 5} : x.extractLsb' 1 4 = 0 → 0#4 ++ x.extractLsb' 0 1 = x := by revert x; decide
/-- A p register in a 5-bit field (R241). -/
theorem eq_pField {r : RegNo} : pHigh r = 0 → pField (pLow r) = r := by revert r; decide
theorem eq_tyField {r : RegNo} : pHigh r = 0 → tyField (tyOf (pLow r)) = r := by revert r; decide

/-! ### A word that decodes is the encoding of what it decodes to -/

/-- Whatever instruction the result is, it is well formed and its word is `w`. -/
def Reads (w : HWord) (r : Decoded) : Prop := ∀ i, r = .ok i → i.wf = true ∧ encode i = some w

@[simp] theorem reads_error (w : HWord) (e : DecodeError) : Reads w (.error e) := fun _ h => nomatch h
@[simp] theorem reads_ok {w : HWord} {i : Instr} : Reads w (.ok i) ↔ i.wf = true ∧ encode i = some w := by
  simp [Reads]
@[simp] theorem reads_need {w : HWord} {c : Bool} {e : DecodeError} {r : Decoded} : Reads w (need c e r) ↔ (c = true → Reads w r) := by
  cases c <;> simp [need]

theorem decodeAlu_reads {w : HWord} (h : (fOp w).toNat = 0x01) : Reads w (decodeAlu w) := by
  unfold decodeAlu
  split <;> simp_all [encode, Instr.wf, packR_eq]

theorem decodeShiftImm_reads {w : HWord} (h : (fOp w).toNat = 0x08) : Reads w (decodeShiftImm w) := by
  unfold decodeShiftImm
  split <;> simp_all [encode, Instr.wf, packSh_eq]

theorem decodeCr_reads {w : HWord} (h : (fOp w).toNat = 0x0B) : Reads w (decodeCr w) := by
  unfold decodeCr
  split
  case h_4 h0 h1 h2 =>
    have h3 := toNat_eq_three h0 h1 h2
    clear h0 h1 h2
    simp_all [encode, Instr.wf, packSh_eq]
  all_goals simp_all [encode, Instr.wf, packSh_eq]

theorem decodeOrdered_reads {w : HWord} (h : (fOp w).toNat = 0x1F) : Reads w (decodeOrdered w) := by
  unfold decodeOrdered
  split
  case h_3 => split <;> simp_all [encode, Instr.wf, packA_eq, packOc_eq_self]
  all_goals simp_all [encode, Instr.wf, packA_eq, packOc_eq_self]

theorem decodeAmo_reads {w : HWord} (h : (fOp w).toNat = 0x20) : Reads w (decodeAmo w) := by
  unfold decodeAmo decodeAmoOp
  split <;> simp_all [encode, Instr.wf, packA_eq, ordScopeOk, evenReg]

theorem decodeRed_reads {w : HWord} (h : (fOp w).toNat = 0x21) : Reads w (decodeRed w) := by
  unfold decodeRed decodeRedOp
  split <;> simp_all [encode, Instr.wf, packA_eq, packOc_w_eq_self]

theorem decodeVersion_reads {w : HWord} (h : (fOp w).toNat = 0x22) : Reads w (decodeVersion w) := by
  unfold decodeVersion
  split <;> simp_all [encode, Instr.wf, packA_eq, evenReg]

theorem decodeLease_reads {w : HWord} (h : (fOp w).toNat = 0x23) : Reads w (decodeLease w) := by
  unfold decodeLease
  split <;> simp_all [encode, Instr.wf, packA_eq]

theorem decodeSync_reads {w : HWord} (h : (fOp w).toNat = 0x24) : Reads w (decodeSync w) := by
  unfold decodeSync
  split <;> simp_all [encode, Instr.wf, packR_eq]

theorem decodeTask_reads {w : HWord} (h : (fOp w).toNat = 0x25) : Reads w (decodeTask w) := by
  unfold decodeTask
  split <;> simp_all [encode, Instr.wf, packR_eq]

theorem decodeVFloat_reads {w : HWord} (h : (fOp w).toNat = 0x26) : Reads w (decodeVFloat w) := by
  unfold decodeVFloat decodeV3 decodeV2
  split <;> simp_all [encode, Instr.wf, packV_eq]

theorem decodeVInt_reads {w : HWord} (h : (fOp w).toNat = 0x27) : Reads w (decodeVInt w) := by
  unfold decodeVInt decodeV3
  split <;> simp_all [encode, Instr.wf, packV_eq]

theorem decodeVCmp_reads {w : HWord} (h : (fOp w).toNat = 0x28) : Reads w (decodeVCmp w) := by
  unfold decodeVCmp decodeCmp decodeP3 decodeV3
  split <;> simp_all [encode, Instr.wf, packV_eq, eq_pField]

theorem decodeVcvt_reads {w : HWord} (h : (fOp w).toNat = 0x29) (hv : (fVfn w).toNat = 4) : Reads w (decodeVcvt w) := by
  unfold decodeVcvt
  rw [reads_need, beq_iff_eq]
  intro hb
  split
  next he =>
    have hn : (fB w).toNat = (fTy w).toNat := by rw [eq_of_beq he, toNat_eq_pLow hb]
    split
    case h_1 t | h_2 t | h_3 t | h_4 t =>
      exact reads_ok.2 ⟨rfl, congrArg some (packV_eq.2 ⟨h, rfl, rfl, BitVec.eq_of_toNat_eq (hn.trans t), rfl, t, hv⟩)⟩
    · simp
  · simp_all [encode, Instr.wf, packV_eq, eq_tyField, tyOf_inj]

theorem decodeVMove_reads {w : HWord} (h : (fOp w).toNat = 0x29) : Reads w (decodeVMove w) := by
  unfold decodeVMove decodeV2 decodeV3
  split <;> simp_all [encode, Instr.wf, packV_eq, decodeVcvt_reads]

theorem decodeVRed_reads {w : HWord} (h : (fOp w).toNat = 0x2A) : Reads w (decodeVRed w) := by
  unfold decodeVRed decodeV2
  split <;> simp_all [encode, Instr.wf, packV_eq]

theorem decodeVMem_reads {w : HWord} (h : (fOp w).toNat = 0x2B) : Reads w (decodeVMem w) := by
  unfold decodeVMem
  split <;> simp_all [encode, Instr.wf, packA_eq, eq_pField, eq_tyField]

theorem decodeVSpecial_reads {w : HWord} (h : (fOp w).toNat = 0x2C) : Reads w (decodeVSpecial w) := by
  unfold decodeVSpecial
  split <;> simp_all [encode, Instr.wf, packV_eq, eq_pField]

theorem decodeMatrix_reads {w : HWord} (h : (fOp w).toNat = 0x2D) : Reads w (decodeMatrix w) := by
  unfold decodeMatrix
  split
  case h_6 | h_7 => split <;> simp_all [encode, Instr.wf, packMX_eq, mtyCode]
  all_goals simp_all [encode, Instr.wf, packMX_eq, zero_append_low]

theorem decodeLadder_reads {w : HWord} (h : (fOp w).toNat = 0x2E) : Reads w (decodeLadder w) := by
  unfold decodeLadder decodeRung
  split
  case h_2 | h_4 | h_5 => split <;> simp_all [encode, Instr.wf, packLX_eq, evenReg]
  all_goals simp_all [encode, Instr.wf, packLX_eq]

theorem decodeCopy_reads {w : HWord} (h : (fOp w).toNat = 0x2F) : Reads w (decodeCopy w) := by
  unfold decodeCopy
  split <;> simp_all [encode, Instr.wf, packR_eq]

theorem decodeSweep_reads {w : HWord} (h : (fOp w).toNat = 0x30) : Reads w (decodeSweep w) := by
  unfold decodeSweep
  split <;> simp_all [encode, Instr.wf, packR_eq]

theorem decodeKv_reads {w : HWord} (h : (fOp w).toNat = 0x31) : Reads w (decodeKv w) := by
  unfold decodeKv
  split <;> simp_all [encode, Instr.wf, packR_eq]

theorem decodeDarn_reads {w : HWord} (h : (fOp w).toNat = 0x32) : Reads w (decodeDarn w) := by
  unfold decodeDarn
  rcases BitVec.eq_zero_or_eq_one (fSaFn w) with hs | hs <;> simp_all [encode, Instr.wf, packSA_eq]

theorem decodeSystem_reads {w : HWord} (h : (fOp w).toNat = 0x33) : Reads w (decodeSystem w) := by
  unfold decodeSystem
  split <;> simp_all [encode, Instr.wf, packR_eq, eq_pField, zero_append_bit]

/-- Each major by its decoder; where a major has one instruction alone, its format says what the word is. -/
theorem decode_reads (w : HWord) : Reads w (decode w) := by
  unfold decode
  split
  case h_1 h => exact decodeAlu_reads h
  case h_8 h => exact decodeShiftImm_reads h
  case h_11 h => exact decodeCr_reads h
  case h_31 h => exact decodeOrdered_reads h
  case h_32 h => exact decodeAmo_reads h
  case h_33 h => exact decodeRed_reads h
  case h_34 h => exact decodeVersion_reads h
  case h_35 h => exact decodeLease_reads h
  case h_36 h => exact decodeSync_reads h
  case h_37 h => exact decodeTask_reads h
  case h_38 h => exact decodeVFloat_reads h
  case h_39 h => exact decodeVInt_reads h
  case h_40 h => exact decodeVCmp_reads h
  case h_41 h => exact decodeVMove_reads h
  case h_42 h => exact decodeVRed_reads h
  case h_43 h => exact decodeVMem_reads h
  case h_44 h => exact decodeVSpecial_reads h
  case h_45 h => exact decodeMatrix_reads h
  case h_46 h => exact decodeLadder_reads h
  case h_47 h => exact decodeCopy_reads h
  case h_48 h => exact decodeSweep_reads h
  case h_49 h => exact decodeKv_reads h
  case h_50 h => exact decodeDarn_reads h
  case h_51 h => exact decodeSystem_reads h
  all_goals simp_all [decodeLoad, decodeStore, encode, Instr.wf, packI_eq, packU_eq, packM_eq]

/-! ### The word of a well-formed instruction decodes to it -/

theorem packOc_low {b : Bool} : (packOc b .none .cr).extractLsb' 0 4 = 0 := by revert b; decide
theorem packOc_high {b : Bool} : wOf ((packOc b .none .cr).extractLsb' 4 1) = b := by revert b; decide
theorem low_zero_append {x : RegNo} : (0#1 ++ x).extractLsb' 0 5 = x := by revert x; decide
theorem high_zero_append {x : RegNo} : (0#1 ++ x).extractLsb' 5 1 = 0 := by revert x; decide
theorem bit_zero_append {x : BitVec 1} : (0#4 ++ x).extractLsb' 0 1 = x := by revert x; decide
theorem upper_zero_append {x : BitVec 1} : (0#4 ++ x).extractLsb' 1 4 = 0 := by revert x; decide

/-! The majors whose words a decoder of their own reads (R251) -/

theorem decode_eq_decodeAlu {w : HWord} (h : (fOp w).toNat = 0x01) : decode w = decodeAlu w := by unfold decode; rw [h]; rfl
theorem decode_eq_decodeShiftImm {w : HWord} (h : (fOp w).toNat = 0x08) : decode w = decodeShiftImm w := by unfold decode; rw [h]; rfl
theorem decode_eq_decodeCr {w : HWord} (h : (fOp w).toNat = 0x0B) : decode w = decodeCr w := by unfold decode; rw [h]; rfl
theorem decode_eq_decodeOrdered {w : HWord} (h : (fOp w).toNat = 0x1F) : decode w = decodeOrdered w := by unfold decode; rw [h]; rfl
theorem decode_eq_decodeAmo {w : HWord} (h : (fOp w).toNat = 0x20) : decode w = decodeAmo w := by unfold decode; rw [h]; rfl
theorem decode_eq_decodeRed {w : HWord} (h : (fOp w).toNat = 0x21) : decode w = decodeRed w := by unfold decode; rw [h]; rfl
theorem decode_eq_decodeVersion {w : HWord} (h : (fOp w).toNat = 0x22) : decode w = decodeVersion w := by unfold decode; rw [h]; rfl
theorem decode_eq_decodeLease {w : HWord} (h : (fOp w).toNat = 0x23) : decode w = decodeLease w := by unfold decode; rw [h]; rfl
theorem decode_eq_decodeSync {w : HWord} (h : (fOp w).toNat = 0x24) : decode w = decodeSync w := by unfold decode; rw [h]; rfl
theorem decode_eq_decodeTask {w : HWord} (h : (fOp w).toNat = 0x25) : decode w = decodeTask w := by unfold decode; rw [h]; rfl
theorem decode_eq_decodeVFloat {w : HWord} (h : (fOp w).toNat = 0x26) : decode w = decodeVFloat w := by unfold decode; rw [h]; rfl
theorem decode_eq_decodeVInt {w : HWord} (h : (fOp w).toNat = 0x27) : decode w = decodeVInt w := by unfold decode; rw [h]; rfl
theorem decode_eq_decodeVCmp {w : HWord} (h : (fOp w).toNat = 0x28) : decode w = decodeVCmp w := by unfold decode; rw [h]; rfl
theorem decode_eq_decodeVMove {w : HWord} (h : (fOp w).toNat = 0x29) : decode w = decodeVMove w := by unfold decode; rw [h]; rfl
theorem decode_eq_decodeVRed {w : HWord} (h : (fOp w).toNat = 0x2A) : decode w = decodeVRed w := by unfold decode; rw [h]; rfl
theorem decode_eq_decodeVMem {w : HWord} (h : (fOp w).toNat = 0x2B) : decode w = decodeVMem w := by unfold decode; rw [h]; rfl
theorem decode_eq_decodeVSpecial {w : HWord} (h : (fOp w).toNat = 0x2C) : decode w = decodeVSpecial w := by unfold decode; rw [h]; rfl
theorem decode_eq_decodeMatrix {w : HWord} (h : (fOp w).toNat = 0x2D) : decode w = decodeMatrix w := by unfold decode; rw [h]; rfl
theorem decode_eq_decodeLadder {w : HWord} (h : (fOp w).toNat = 0x2E) : decode w = decodeLadder w := by unfold decode; rw [h]; rfl
theorem decode_eq_decodeCopy {w : HWord} (h : (fOp w).toNat = 0x2F) : decode w = decodeCopy w := by unfold decode; rw [h]; rfl
theorem decode_eq_decodeSweep {w : HWord} (h : (fOp w).toNat = 0x30) : decode w = decodeSweep w := by unfold decode; rw [h]; rfl
theorem decode_eq_decodeKv {w : HWord} (h : (fOp w).toNat = 0x31) : decode w = decodeKv w := by unfold decode; rw [h]; rfl
theorem decode_eq_decodeDarn {w : HWord} (h : (fOp w).toNat = 0x32) : decode w = decodeDarn w := by unfold decode; rw [h]; rfl
theorem decode_eq_decodeSystem {w : HWord} (h : (fOp w).toNat = 0x33) : decode w = decodeSystem w := by unfold decode; rw [h]; rfl

/-- A case for each major: the fields of the packed word select the instruction, and well-formedness passes the decoder's checks. -/
theorem decode_encode {i : Instr} {w : HWord} (hw : i.wf = true) (he : encode i = some w) : decode w = .ok i := by
  cases i with
  | add | sub | and | or | xor | sll | srl | sra | slt | sltu | mul | mulh | mulhu | div | divu | rem | remu | min | max | minu | maxu
  | clz | ctz | popc =>
    cases he
    simp [decode_eq_decodeAlu, decodeAlu, need]
  | addi | andi | ori | xori | slti | sltiu | lui | auipc | beq | bne | blt | bge | bltu | bgeu | jal | jalr =>
    cases he
    simp [decode]
  | slli | srli | srai =>
    cases he
    simp [decode_eq_decodeShiftImm, decodeShiftImm, need]
  | crr | crw | crs | crc =>
    cases he
    simp [decode_eq_decodeCr, decodeCr, need]
  | lb | lbu | lh | lhu | lw | lwu | ld | sb | sh | sw | sd =>
    cases he
    simp [decode, decodeLoad, decodeStore, need]
  | lacq | srel | fenceAcq | fenceRel | fenceAr | smap | sunmap | sflush =>
    cases he
    simp [decode_eq_decodeOrdered, decodeOrdered, need]
  | amoswap | amoadd | amoand | amoor | amoxor | amomin | amomax | amominu | amomaxu | amocas =>
    cases he
    simp_all [decode_eq_decodeAmo, decodeAmo, decodeAmoOp, need, Instr.wf, ordScopeOk, evenReg]
  | redadd | redand | redor | redxor | redmin | redmax | redfadd =>
    cases he
    simp [decode_eq_decodeRed, decodeRed, decodeRedOp, need, packOc_low, packOc_high]
  | sverNext | sverNumbered | lver | pver | rver =>
    cases he
    simp_all [decode_eq_decodeVersion, decodeVersion, need, Instr.wf, evenReg]
  | lease | unlease =>
    cases he
    simp [decode_eq_decodeLease, decodeLease, need]
  | barCr | barQd | barDie | barPkg | barPod | mbxadd | mbxwait | mbxrd =>
    cases he
    simp [decode_eq_decodeSync, decodeSync, need]
  | spawn | exit | yield | migrate | upret =>
    cases he
    simp [decode_eq_decodeTask, decodeTask, need]
  | vfadd | vfsub | vfmul | vfma | vfnma | vfmin | vfmax | vfdiv | vfsqrt | vfrcp | vfexp2 =>
    cases he
    simp_all [decode_eq_decodeVFloat, decodeVFloat, decodeV3, decodeV2, need, Instr.wf]
  | viadd | visub | vimul | vimin | vimax | vand | vor | vxor | vsll | vsrl | vsra =>
    cases he
    simp_all [decode_eq_decodeVInt, decodeVInt, decodeV3, need, Instr.wf]
  | vcmpeq | vcmplt | vcmple | vsel | pand | por | pxor | pnot | ppop =>
    cases he
    simp [decode_eq_decodeVCmp, decodeVCmp, decodeCmp, decodeP3, decodeV3, need]
  | vbcast | vext | vperm | vslide =>
    cases he
    simp [decode_eq_decodeVMove, decodeVMove, decodeV3, decodeV2, need]
  | vcvtF32E4m3 | vcvtF32E5m2 | vcvtE4m3F32 | vcvtE5m2F32 =>
    cases he
    simp [decode_eq_decodeVMove, decodeVMove, decodeVcvt, need, pHigh, pLow]
  | vcvt =>
    cases he
    simp_all [decode_eq_decodeVMove, decodeVMove, decodeVcvt, need, Instr.wf, tyCode_inj]
  | vredsum | vredmax | vredmin =>
    cases he
    simp [decode_eq_decodeVRed, decodeVRed, decodeV2, need]
  | vld | vst | vlds32 | vlds64 | vsts32 | vsts64 | vstm | vgath32 | vgath64 | vscat32 | vscat64 =>
    cases he
    simp_all [decode_eq_decodeVMem, decodeVMem, need, Instr.wf]
  | vtopk | vplane | vunplane | vtree | vq4xd =>
    cases he
    simp [decode_eq_decodeVSpecial, decodeVSpecial, need]
  | mma | mzero | mld | mst | mstg | mfence | mqstat =>
    cases he
    simp [decode_eq_decodeMatrix, decodeMatrix, need, low_zero_append, high_zero_append]
  | macc ty | mscl ty =>
    cases he
    cases ty <;> simp_all [decode_eq_decodeMatrix, decodeMatrix, need, mtyCode, Instr.wf]
  | laddOuter lx va vb =>
    cases he
    have : va ≠ 31 := by rintro rfl; simp [Instr.wf, evenReg] at hw
    simp_all [decode_eq_decodeLadder, decodeLadder, need, Instr.wf, evenReg]
  | lcfg | laddTile | lread | lldTile | lldLocal | lstTile | lstLocal | lclr =>
    cases he
    simp_all [decode_eq_decodeLadder, decodeLadder, decodeRung, need, Instr.wf]
  | cpq | cpqn | cpcancel =>
    cases he
    simp [decode_eq_decodeCopy, decodeCopy, need]
  | sweep | twait | tdone | swstat | swcancel =>
    cases he
    simp [decode_eq_decodeSweep, decodeSweep, need]
  | kvlook | kvgath =>
    cases he
    simp [decode_eq_decodeKv, decodeKv, need]
  | satom | srsync =>
    cases he
    simp [decode_eq_decodeDarn, decodeDarn, need]
  | trap | sret | wfi | segw | segr | tlbinv | fltrd | fltreplay | cinval | cflush | publish =>
    cases he
    simp [decode_eq_decodeSystem, decodeSystem, need, bit_zero_append, upper_zero_append]
  | _ => cases he

end Sys2Proof

section
open Sys2Proof

/-- Settles O59: a packed word is its fields, so that what the decoder reads is what the encoder wrote, and what it reads is all of the word. -/
theorem decodeAndEncodeAgree : Obligations.DecodeAndEncodeAgree := ⟨fun _ _ => decode_encode, decode_reads⟩

end

namespace Sys2Proof.Machine

/-- An instruction word acts on the device alone: every step that acts on more has no encoding. -/
theorem beyondDev_of_encode {i : Instr} (h : (encode i).isSome = true) : beyondDev i = false := by
  cases i with
  | sqtail | cqhead | qcfg | vfctl | registerWrite | launch | copyh | fill | signal | wait | waitTimeout | routine | map | partcfg
  | partstart | partstop | vfbind | vfpause | vfresume | vfreset | functionLevelReset | maskset | loadimg | attest | raisever
  | msixDeferredSend | moduleReset | dhcpv6Timeout | fetchAttempt | memoryTraining | attestPost | coreResume | forwardedAccess
  | homeQueueServe | leaseGrant | darnInvocation | partitionSchedule | thermalShutdown => cases h
  | _ => rfl

/-! ### The cycle of a core, case by case (R109, R251, R255) -/

/-- The state in which a turn is taken: the schedule names it no more, and the device counts it. -/
def turnState (s : State) (rest : List Turn) : State := { s with schedule := rest, dev := { s.dev with time := s.dev.time + 1 } }

/-- A step whose next turn is the cycle of core `r`. -/
theorem step_core {s : State} {r : Nat} {rest : List Turn} (ho : s.boot.off = false) (hs : s.schedule = .core r :: rest) :
    step s = (turnState s rest).coreTurn r := by
  simp only [step, ho, State.nextTurn, State.modDev, hs]
  rfl

theorem coreTurn_idle {s : State} {r : Nat} (h : s.dev.chooseSlot s.host.chosenBacks r = none) : s.coreTurn r = Claims.thenTick r (.next s) := by
  simp only [State.coreTurn, h]
  rfl

theorem coreTurn_slot {s : State} {r k : Nat} (h : s.dev.chooseSlot s.host.chosenBacks r = some k) :
    s.coreTurn r = Claims.thenTick r (s.slotTurn r k) := by
  simp only [State.coreTurn, h]
  cases s.slotTurn r k <;> rfl

/-- The device in which the cycle of slot `k` of core `r` finds itself, before what is due at the slot's boundary. -/
def Dev.issued (d : Dev) (r k : Nat) : Dev := d.modSlot r k fun t => { t with lastIssue := some (d.core r).cycle.toNat }

/-- Nothing is due at the boundary of the slot that has the cycle: its core drains for a save, or the boundary is empty (R115, R250). -/
def Dev.issuesAt (d : Dev) (r k : Nat) : Prop := (d.core r).saving = true ∨ (d.issued r k).boundary r k = none

theorem Dev.issued_due {d : Dev} {r k : Nat} (h : d.issuesAt r k) :
    (if ((d.issued r k).core r).saving then none else (d.issued r k).boundary r k) = none := by
  have hs : ((d.issued r k).core r).saving = (d.core r).saving := by simp [Dev.issued, Dev.modSlot_eq]
  rw [hs]
  rcases h with h | h <;> simp [h]

section
variable {s : State} {r k : Nat} (h : s.dev.issuesAt r k)
include h

/-- An instruction under way goes on with its word. -/
theorem State.slotTurn_underWay (hu : ((s.dev.issued r k).slot r k).wait.underWay = true) :
    s.slotTurn r k = { s with dev := { s.dev.issued r k with cur := (r, k) } }.runWord ((s.dev.issued r k).slot r k).word := by
  unfold State.slotTurn
  extract_lets d t e
  have hd : (if (d.core r).saving then none else d.boundary r k) = none := Dev.issued_due h
  change t.wait.underWay = true at hu
  rw [hd]
  exact if_pos hu

theorem State.slotTurn_fetched (hu : ((s.dev.issued r k).slot r k).wait.underWay = false) {w : HWord}
    (hw : { s.dev.issued r k with cur := (r, k) }.fetchWord = .ok w) :
    s.slotTurn r k = { s with dev := (s.dev.issued r k).atSlot r k w }.runWord w := by
  unfold State.slotTurn
  extract_lets d t e
  have hd : (if (d.core r).saving then none else d.boundary r k) = none := Dev.issued_due h
  change t.wait.underWay = false at hu
  change e.fetchWord = _ at hw
  simp only [hd, hu, hw]
  rfl

theorem State.slotTurn_stopped (hu : ((s.dev.issued r k).slot r k).wait.underWay = false) {st : Stop}
    (hw : { s.dev.issued r k with cur := (r, k) }.fetchWord = .error st) :
    s.slotTurn r k = .next { s with dev := { s.dev.issued r k with cur := (r, k) }.stopAt r k st } := by
  unfold State.slotTurn
  extract_lets d t e
  have hd : (if (d.core r).saving then none else d.boundary r k) = none := Dev.issued_due h
  change t.wait.underWay = false at hu
  change e.fetchWord = _ at hw
  simp only [hd, hu, hw]
  rfl

end

end Sys2Proof.Machine

namespace Sys2Proof.Claims
open Machine

/-- A step that issues is the cycle of its slot, and the clock's count. -/
theorem Issues.step_eq {s : State} {r k : Nat} {rest : List Turn} (h : Issues s r k rest) :
    step s = thenTick r ((turnState s rest).slotTurn r k) := by
  obtain ⟨hoff, hsched, hslot, -⟩ := h
  exact (step_core hoff hsched).trans (coreTurn_slot hslot)

theorem issued_turnState (s : State) (rest : List Turn) (r k : Nat) : (turnState s rest).dev.issued r k = issueDev s r k := rfl

theorem Issues.issuesAt {s : State} {r k : Nat} {rest : List Turn} (h : Issues s r k rest) : (turnState s rest).dev.issuesAt r k := h.2.2.2

end Sys2Proof.Claims

section
open Sys2Proof Sys2Proof.Machine Sys2Proof.Claims

/-- Settles O60: an instruction with an encoding acts on the device alone. -/
theorem wordsActOnTheDevice : Obligations.WordsActOnTheDevice := by
  intro i s h
  obtain ⟨d, hd⟩ := exec_actsOnDev (s := s) (beyondDev_of_encode h)
  exact ⟨_, hd, rfl, rfl, rfl, rfl⟩

/-- Settles O56: a step is the turn of its core, and that the cycle of its slot, case by case. -/
theorem stepRunsDecodedInstruction : Obligations.StepRunsDecodedInstruction := by
  refine ⟨fun s r k rest h hu => ⟨fun w i hw hi => ?_, fun w e hw he => ?_, fun st hw => ?_⟩, fun s r k rest i h hu hi => ?_,
    fun s r rest hoff hsched hidle => ?_⟩
  · rw [← issued_turnState s rest] at hu hw
    rw [h.step_eq, State.slotTurn_fetched h.issuesAt hu hw, State.runWord, hi]
    rfl
  · rw [← issued_turnState s rest] at hu hw
    rw [h.step_eq, State.slotTurn_fetched h.issuesAt hu hw, State.runWord, he]
    rfl
  · rw [← issued_turnState s rest] at hu hw
    rw [h.step_eq, State.slotTurn_stopped h.issuesAt hu hw]
    rfl
  · rw [← issued_turnState s rest] at hu hi
    rw [h.step_eq, State.slotTurn_underWay h.issuesAt hu, State.runWord, hi]
    rfl
  · exact (step_core hoff hsched).trans (coreTurn_idle hidle)

/-- Settles O57: the words are decoded. -/
theorem wordsOfTheFieldTables : Obligations.WordsOfTheFieldTables := by
  unfold Obligations.WordsOfTheFieldTables
  decide

end

namespace Sys2Proof.Machine
open Claims

/-! ### LAHEAD (R249) -/

/-- The registers that can be pending, of those that an instruction reads and writes. -/
def RegUse.names (u : RegUse) : List Dest := (u.rx ++ u.wx).map .x ++ (u.rv ++ u.wv).map .v ++ u.rcr.map .cr

section
variable {d a b : RegNo} {rs : List SegNo}

theorem names_write_reads : [.x d, .x a, .x b] ⊆ RegUse.names { rx := [a, b], wx := [d], rs := rs } := by simp [RegUse.names]
theorem names_write_read : [.x d, .x a] ⊆ RegUse.names { rx := [a], wx := [d], rs := rs } := by simp [RegUse.names]
theorem names_reads : [.x a, .x b] ⊆ RegUse.names { rx := [a, b], rs := rs } := by simp [RegUse.names]
theorem names_reads_swap : [.x b, .x a] ⊆ RegUse.names { rx := [a, b], rs := rs } := by simp [RegUse.names]

end

/-- A window that still covers instructions holds one of the registers `l`. -/
def Slot.holdsOne (a : Slot) (l : List Dest) : Prop := ∃ w ∈ a.windows, 0 < w.left ∧ ∃ r ∈ w.dests, r ∈ l

theorem Slot.laheadHit_of_holds {a : Slot} {l : List Dest} {u : RegUse} (h : a.holdsOne l) (hu : l ⊆ u.names) : a.laheadHit u = true := by
  obtain ⟨w, hw, hleft, r, hr, hl⟩ := h
  refine List.any_eq_true.mpr ⟨w, hw, Bool.and_eq_true_iff.mpr ⟨decide_eq_true hleft, List.any_eq_true.mpr ⟨r, hr, ?_⟩⟩⟩
  have hn := hu hl
  cases r with
  | x n => simpa [RegUse.names] using hn
  | v n => simpa [RegUse.names] using hn
  | cr n => simpa [RegUse.names] using hn

section
variable {s : State} {l : List Dest} {u : RegUse} {body : Dev → Chk Dev} (h : s.dev.th.holdsOne l) (hu : l ⊆ u.names)
include h hu

theorem State.thread_lahead : s.thread u body = .next { s with dev := s.dev.trap s.dev.cur.1 s.dev.cur.2 ⟨.lahead, 0⟩ } := by
  simp [State.thread, State.onDev, Dev.runThread, Slot.laheadHit_of_holds h hu]

theorem State.priv_lahead (hmode : s.dev.th.mode = true) :
    s.priv u body = .next { s with dev := s.dev.trap s.dev.cur.1 s.dev.cur.2 ⟨.lahead, 0⟩ } :=
  (State.priv_supervisor hmode).trans (State.thread_lahead h hu)

/-- A queued command finds room and legal operands before the check (R317). -/
theorem State.mxThread_lahead {ok : Dev → Bool} (hroom : s.dev.curCore.mxq.length < 16) (hok : ok s.dev = true) :
    s.mxThread ok u body = .next { s with dev := s.dev.trap s.dev.cur.1 s.dev.cur.2 ⟨.lahead, 0⟩ } := by
  have hfirst : mxFirst ok s.dev = .ok () := by
    unfold mxFirst Dev.mxRoom
    rw [if_neg (Nat.not_le.mpr hroom), hok]
    rfl
  have hthread : s.thread u body = _ := State.thread_lahead h hu
  rw [← hthread, State.mxThread, State.threadAfter, State.onDev, Dev.runThreadAfter, hfirst]
  rfl

end

theorem evenReg_iff {r : RegNo} : evenReg r = true ↔ r.toNat % 2 = 0 := by revert r; decide

theorem mtyEven_of {ty : MTy} {k : Nat} (h : ty = .f64 → k % 2 = 0) : mtyEven ty k = true := by
  by_cases hty : ty = .f64
  · simp [mtyEven, h hty]
  · simp [mtyEven, hty]

/-- A control register that the thread may access is reached by the frame of an instruction (R265). -/
theorem State.crAccess_lahead {s : State} {l : List Dest} {rd ra : RegNo} {n : BitVec 6} {new : Word → Word → Option Word}
    (h : s.dev.th.holdsOne l) (hu : l ⊆ RegUse.names { rx := [ra], wx := [rd], rcr := [n] }) (hn : CrAllowed n s) :
    s.crAccess rd ra n new = .next { s with dev := s.dev.trap s.dev.cur.1 s.dev.cur.2 ⟨.lahead, 0⟩ } := by
  have hres : ¬crReserved n = true := by
    unfold CrAllowed at hn
    simp only [crReserved, decide_eq_true_eq]
    omega
  unfold State.crAccess
  rw [if_neg hres]
  dsimp only
  split
  next hp =>
    refine State.priv_lahead h hu ?_
    simp only [crPriv, decide_eq_true_eq] at hp
    obtain hlow | ⟨-, -, hm⟩ := hn
    · omega
    · exact hm
  next => exact State.thread_lahead h hu

/-- An `lread` reads and writes the registers that a ladder of `u` tiles a rung takes (R333). -/
theorem lread_names {s : State} {lx : BitVec 3} {vd vq : RegNo} {u : Nat}
    (hu : ((aget? s.dev.curCore.ladders lx.toNat).map fun b => (s.dev.curCore.ldescAt b.off).u).getD 1 = u) :
    namesOf s (.lread lx vd vq) ⊆ RegUse.names (lreadUse u vd vq) := by
  subst hu
  change (let u := ((aget? s.dev.curCore.ladders lx.toNat).map fun b => (s.dev.curCore.ldescAt b.off).u).getD 1
    vregs vd (if u = 1 then 2 else 4) ++ vregs vq (if u = 4 then 4 else 2)) ⊆ _
  intro r hr
  simp only [vregs, lreadUse, RegUse.names] at hr ⊢
  simpa [or_comm] using hr

/-- Each instruction word that nothing stops before the check, by its frame: a plain one, a supervisor's, a command of the queue, or one that
checks its form first. -/
theorem exec_lahead {i : Instr} {s : State} (h : s.dev.th.holdsOne (namesOf s i)) (hi : ReachesLahead s i) :
    exec i s = .next { s with dev := s.dev.trap s.dev.cur.1 s.dev.cur.2 ⟨.lahead, 0⟩ } := by
  cases i with
  | add | sub | and | or | xor | sll | srl | sra | slt | sltu | mul | mulh | mulhu | div | divu | rem | remu | min | max | minu | maxu
  | lease | mbxadd | spawn | kvlook => exact State.thread_lahead h names_write_reads
  | addi | andi | ori | xori | slti | sltiu | slli | srli | srai | jalr | lb | lbu | lh | lhu | lw | lwu | ld | lacq | unlease | mbxrd | exit
  | migrate | cpcancel | sweep | swstat | swcancel => exact State.thread_lahead h names_write_read
  | beq | bne | blt | bge | bltu | bgeu | redadd | redand | redor | redxor | redmin | redmax | redfadd | sverNext | rver | barCr | barQd
  | barDie | barPkg | barPod | mbxwait | smap | cflush => exact State.thread_lahead h names_reads
  | sb | sh | sw | sd | srel => exact State.thread_lahead h names_reads_swap
  | sverNumbered | vsel | vperm | vtopk | vext | vslide | vlds32 | vlds64 | vsts32 | vsts64 | kvgath | satom
  | twait => exact State.thread_lahead h (by change [_, _, _] ⊆ _; simp [RegUse.names])
  | clz | ctz | popc | amoswap | amoadd | amoand | amoor | amoxor | amomin | amomax | amominu | amomaxu
  | vcvtF32E4m3 | vcvtF32E5m2 | vcvtE4m3F32 | vcvtE5m2F32 | vredsum | vredmax | vredmin | vplane | vunplane | vq4xd | vcmpeq | vcmplt | vcmple
  | vbcast | vtree | vld | vst | vstm | cpq | cpqn => exact State.thread_lahead h (by change [_, _] ⊆ _; simp [RegUse.names])
  | lui | auipc | jal | sunmap | sflush | mqstat | tdone | lcfg | publish | segr | ppop =>
    exact State.thread_lahead h (by change [_] ⊆ _; simp [RegUse.names])
  | segw | tlbinv | cinval | fltrd => exact State.priv_lahead h (by change [_, _] ⊆ _; simp [RegUse.names]) hi
  | wfi | fltreplay => exact State.priv_lahead h (by change [_] ⊆ _; simp [RegUse.names]) hi
  | crr =>
    rw [exec, execCrr]
    exact State.crAccess_lahead h (by change [_, _] ⊆ _; simp [RegUse.names]) hi
  | crw | crs | crc =>
    simp only [exec, execCrw, execCrs, execCrc]
    exact State.crAccess_lahead h (by change [_, _, _] ⊆ _; simp [RegUse.names]) hi
  | amocas => exact (if_pos (evenReg_iff.mpr hi)).trans (State.thread_lahead h (by change [_, _, _] ⊆ _; simp [RegUse.names]))
  | lver | pver =>
    exact (if_neg (by simpa using evenReg_iff.mpr hi)).trans (State.thread_lahead h (by change [_, _, _, _] ⊆ _; simp [RegUse.names]))
  | vfadd | vfsub | vfmul | vfma | vfnma | vfmin | vfmax | vfdiv =>
    exact (if_pos hi).trans (State.thread_lahead h (by change [_, _, _] ⊆ _; simp [RegUse.names]))
  | vfsqrt | vfrcp | vfexp2 => exact (if_pos hi).trans (State.thread_lahead h (by change [_, _] ⊆ _; simp [RegUse.names]))
  | viadd | visub | vimul | vimin | vimax | vand | vor | vxor | vsll | vsrl | vsra =>
    exact (if_neg (Bool.eq_false_iff.mp hi)).trans (State.thread_lahead h (by change [_, _, _] ⊆ _; simp [RegUse.names]))
  | vcvt => exact (if_neg hi).trans (State.thread_lahead h (by change [_, _] ⊆ _; simp [RegUse.names]))
  | vgath32 | vgath64 | vscat32 | vscat64 =>
    exact (if_neg hi).trans (State.thread_lahead h (by change [_, _, _] ⊆ _; simp [RegUse.names]))
  | lread lx vd vq => exact State.thread_lahead h (lread_names (by cases aget? s.dev.curCore.ladders lx.toNat <;> rfl))
  | mma => exact State.mxThread_lahead h (by change [_, _] ⊆ _; simp [RegUse.names]) hi.1 hi.2
  | mld | mst | mstg | lldTile | lstTile => exact State.mxThread_lahead h (by change [_] ⊆ _; simp [RegUse.names]) hi rfl
  | macc ty md a =>
    obtain ⟨hroom, hpair⟩ := hi
    refine State.mxThread_lahead h (by change [_] ⊆ _; simp [RegUse.names]) hroom (Bool.and_eq_true_iff.mpr ⟨?_, ?_⟩)
    · exact mtyEven_of fun e => (hpair e).1
    · exact mtyEven_of fun e => by
        have heven : (s.dev.x a).toNat % 2 = 0 := (hpair e).2
        omega
  | mscl ty md a =>
    obtain ⟨hroom, hty, hpair⟩ := hi
    exact (if_neg hty).trans (State.mxThread_lahead h (by change [_] ⊆ _; simp [RegUse.names]) hroom (mtyEven_of hpair))
  | laddOuter lx va vb =>
    obtain ⟨hroom, ha, hb⟩ := hi
    refine (if_neg ?_).trans (State.mxThread_lahead h (by change [_, _, _, _] ⊆ _; simp [RegUse.names]) hroom rfl)
    simp [evenReg_iff.mpr ha, evenReg_iff.mpr hb]
  | lldLocal | lstLocal => exact (if_neg hi.2).trans (State.mxThread_lahead h (by change [_, _] ⊆ _; simp [RegUse.names]) hi.1 rfl)
  | _ =>
    obtain ⟨w, -, -, r, -, hr⟩ := h
    cases hr

end Sys2Proof.Machine

section
open Sys2Proof Sys2Proof.Machine Sys2Proof.Claims

/-- Settles O5: the supervisor's instructions are stopped by their mode, and every other word by its frame. -/
theorem privilegeAndLookaheadTraps : Obligations.PrivilegeAndLookaheadTraps := by
  refine ⟨fun s sn ra rb rd hk hmode => ?_, fun i s w r hk hw hleft hr hn hi => ?_⟩
  · refine ⟨?_, ?_, ?_, ?_, ?_, ?_, ?_⟩
    all_goals exact traps_of_exec hk (State.priv_user hmode)
  · exact traps_of_exec hk (exec_lahead ⟨w, hw, hleft, r, hr, hn⟩ hi)

end

namespace Sys2Proof.Machine
open Claims

/-! ### Return targets (R246) -/

/-- The slot of its fetch line that an address names is its middle field (R244). -/
theorem slotOf_fields (line : BitVec 57) (k : BitVec 5) (low : BitVec 2) : slotOf (line ++ k ++ low) = k.toNat := by
  unfold slotOf
  rw [BitVec.extractLsb'_append_eq_of_le (by decide), BitVec.extractLsb'_append_eq_of_add_le (by decide)]
  exact congrArg BitVec.toNat BitVec.extractLsb'_eq_self

/-- Bits [1:0] taken as 0. -/
theorem clear_low_fields (line : BitVec 57) (k : BitVec 5) (low : BitVec 2) : (line ++ k ++ low) &&& ~~~(3 : Word) = line ++ k ++ (0 : BitVec 2) := by
  rw [show ~~~(3 : Word) = BitVec.allOnes 57 ++ BitVec.allOnes 5 ++ 0#2 by decide, BitVec.and_append, BitVec.and_append,
    BitVec.and_allOnes, BitVec.and_allOnes, BitVec.and_zero]
  rfl

/-- Slot 1 is 4 bytes behind slot 0. -/
theorem slot_zero_add_four (line : BitVec 57) :
    line ++ (0 : BitVec 5) ++ (0 : BitVec 2) + (4 : Word) = line ++ (1 : BitVec 5) ++ (0 : BitVec 2) := by
  rw [show (4 : Word) = (0 : BitVec 57) ++ (1 : BitVec 5) ++ (0 : BitVec 2) by decide, BitVec.add_eq_or_of_and_eq_zero]
  · rw [BitVec.or_append, BitVec.or_append]
    simp
  · rw [BitVec.and_append, BitVec.and_append]
    simp

theorem returnTarget_fields (line : BitVec 57) (k : BitVec 5) (low : BitVec 2) :
    returnTarget (line ++ k ++ low) = if k = 0 then line ++ (1 : BitVec 5) ++ (0 : BitVec 2) else line ++ k ++ (0 : BitVec 2) := by
  unfold returnTarget
  dsimp only
  rw [clear_low_fields, slotOf_fields]
  by_cases hk : k = 0
  · subst hk
    exact slot_zero_add_four line
  · have hne : ¬k.toNat = 0 := fun e => hk (BitVec.eq_of_toNat_eq e)
    rw [if_neg hk]
    exact if_neg hne

/-! ### Trap entry at the boundary (R250, R254) -/

/-- The trap that a slot waits with is entered at the boundary at which no result is left. -/
theorem Dev.boundary_trapDue {d : Dev} {r k : Nat} {t : TrapInfo} (hw : (d.slot r k).wait = .trapDue t) (hp : (d.slot r k).pend = [])
    (hd : d.deferredDue r k = none) : d.boundary r k = some (d.setSlot r k ((d.slot r k).enterTrap (d.core r).tvec t)) := by
  simp [Dev.boundary, hd, hw, hp, Dev.modSlot_eq]

end Sys2Proof.Machine

namespace Sys2Proof.Claims
open Machine

theorem leaveTrap_frame (a : Slot) (pc : Word) : { flowOf a (a.retireTo pc).leaveTrap with mode := a.mode, badC := a.badC, copyHold := a.copyHold } = a := rfl

theorem leaveUpcall_frame (a : Slot) (pc : Word) : { flowOf a (a.retireTo pc).leaveUpcall with uact := a.uact, badC := a.badC } = a := rfl

/-- `sret` with no result pending (R254, R375). -/
theorem sret_gives {s : State} (hready : Ready { rcr := [0x21] } s) (hmode : s.dev.th.mode = true) (hp : s.dev.th.pend = []) :
    Gives .sret s fun t => ThreadOnly s t ∧ t.dev.th.mode = false ∧ GoesOn t (returnTarget s.dev.th.sepc) none
      ∧ { flowOf s.dev.th t.dev.th with mode := s.dev.th.mode, badC := s.dev.th.badC, copyHold := s.dev.th.copyHold } = s.dev.th := by
  obtain ⟨hk, hl, hpar⟩ := hready
  have hexec : exec .sret s = .next { s with dev := s.dev.setSlot s.dev.cur.1 s.dev.cur.2 (s.dev.th.retireTo s.dev.th.pc).leaveTrap } := by
    refine (State.priv_supervisor hmode).trans (State.thread_ok hl hpar ?_)
    rw [hp]
    rfl
  have hth := Dev.th_setSlot s.dev (s.dev.th.retireTo s.dev.th.pc).leaveTrap hk
  refine ⟨_, hexec, threadOnly_setSlot .., ?_⟩
  unfold GoesOn
  dsimp only
  rw [hth]
  exact ⟨rfl, ⟨rfl, rfl, rfl⟩, leaveTrap_frame ..⟩

/-- `upret` (R291). -/
theorem upret_gives {s : State} (hready : Ready { rcr := [0x13] } s) : Gives .upret s fun t => ThreadOnly s t ∧ t.dev.th.uact = false
      ∧ GoesOn t (returnTarget s.dev.th.uepc) none
      ∧ { flowOf s.dev.th t.dev.th with uact := s.dev.th.uact, badC := s.dev.th.badC } = s.dev.th := by
  obtain ⟨hk, hl, hpar⟩ := hready
  have hexec : exec .upret s = .next { s with dev := s.dev.setSlot s.dev.cur.1 s.dev.cur.2 (s.dev.th.retireTo s.dev.th.pc).leaveUpcall } :=
    State.thread_ok hl hpar rfl
  have hth := Dev.th_setSlot s.dev (s.dev.th.retireTo s.dev.th.pc).leaveUpcall hk
  refine ⟨_, hexec, threadOnly_setSlot .., ?_⟩
  unfold GoesOn
  dsimp only
  rw [hth]
  exact ⟨rfl, ⟨rfl, rfl, rfl⟩, leaveUpcall_frame ..⟩

end Sys2Proof.Claims

section
open Sys2Proof Sys2Proof.Machine Sys2Proof.Claims

/-- Settles O6: a trap enters its slot at once or at its boundary, and the returns change the slot's flow alone. -/
theorem trapEntryAndReturns : Obligations.TrapEntryAndReturns := by
  refine ⟨⟨fun d r k t _ => ⟨fun hp => ?_, fun hp => Dev.trap_later hp, fun hw hp hd => ?_⟩, fun s => ⟨fun hready => ?_, sret_gives, upret_gives⟩⟩,
    returnTarget_fields⟩
  · exact ⟨_, entersTrap_enterTrap .., Dev.trap_now hp⟩
  · exact ⟨_, entersTrap_enterTrap .., Dev.boundary_trapDue hw hp hd⟩
  · obtain ⟨hk, hl, hpar⟩ := hready
    exact traps_of_exec hk (State.thread_trap hl hpar rfl)

end

namespace Sys2Proof.Machine
open Claims

/-! ### Lanes of a vector as digits of its value (R267) -/

/-- A digit of a value other than digit `l` does not depend on digit `l`. -/
theorem digit_ne {D lo hi m m' l k : Nat} (hlo : lo < D ^ l) (hm : m < D) (hm' : m' < D) (h : k ≠ l) :
    (lo + D ^ l * (m + D * hi)) / D ^ k % D = (lo + D ^ l * (m' + D * hi)) / D ^ k % D := by
  have hD : 0 < D := Nat.zero_lt_of_lt hm
  rcases Nat.lt_or_gt_of_ne h with hk | hk
  · obtain ⟨j, rfl⟩ := Nat.exists_eq_add_of_lt hk
    have low (x : Nat) : (lo + D ^ (k + j + 1) * x) / D ^ k % D = lo / D ^ k % D := by
      rw [show D ^ (k + j + 1) * x = D ^ k * (D * (D ^ j * x)) by ring, Nat.add_mul_div_left _ _ (Nat.pow_pos hD), Nat.add_mul_mod_self_left]
    rw [low, low]
  · obtain ⟨j, rfl⟩ := Nat.exists_eq_add_of_lt hk
    have high {n : Nat} (hn : n < D) : (lo + D ^ l * (n + D * hi)) / D ^ (l + j + 1) = hi / D ^ j := by
      rw [show D ^ (l + j + 1) = D ^ l * D * D ^ j by ring, ← Nat.div_div_eq_div_mul, ← Nat.div_div_eq_div_mul,
        Nat.add_mul_div_left _ _ (Nat.pow_pos hD), Nat.div_eq_of_lt hlo, Nat.zero_add, Nat.add_mul_div_left _ _ hD, Nat.div_eq_of_lt hn,
        Nat.zero_add]
    rw [high hm, high hm']

/-- A value with digit `l` replaced. -/
theorem replace_digit {D l v m : Nat} (hm : m < D) :
    (v - v / D ^ l % D * D ^ l + m * D ^ l) / D ^ l % D = m
      ∧ ∀ k, k ≠ l → (v - v / D ^ l % D * D ^ l + m * D ^ l) / D ^ k % D = v / D ^ k % D := by
  have hD : 0 < D := Nat.zero_lt_of_lt hm
  have hlo : v % D ^ l < D ^ l := Nat.mod_lt _ (Nat.pow_pos hD)
  have hold : v / D ^ l % D < D := Nat.mod_lt _ hD
  have hv : v = v % D ^ l + D ^ l * (v / D ^ l % D + D * (v / D ^ l / D)) := by rw [Nat.mod_add_div, Nat.mod_add_div]
  have hnew : v - v / D ^ l % D * D ^ l + m * D ^ l = v % D ^ l + D ^ l * (m + D * (v / D ^ l / D)) := by
    conv_lhs => rw [show v - v / D ^ l % D * D ^ l = v % D ^ l + D ^ l * (D * (v / D ^ l / D)) by
      rw [Nat.sub_eq_iff_eq_add (by rw [Nat.mul_comm]; exact (Nat.mul_le_mul_left _ (Nat.mod_le _ _)).trans (Nat.mul_div_le _ _))]
      conv_lhs => rw [hv]
      ring]
    ring
  rw [hnew]
  refine ⟨?_, fun k hk => ?_⟩
  · rw [Nat.add_mul_div_left _ _ (Nat.pow_pos hD), Nat.div_eq_of_lt hlo, Nat.zero_add, Nat.add_mul_mod_self_left, Nat.mod_eq_of_lt hm]
  · rw [digit_ne hlo hm hold hk, ← hv]

theorem leNat_take_lt (l : List Byte) (n : Nat) : leNat (l.take n) < 256 ^ n :=
  (leNat_lt _).trans_le (Nat.pow_le_pow_right (by decide) (List.length_take_le _ _))

/-- A lane that gets no element keeps its value. -/
theorem vecPut_other {z : Nat} {raw : List Byte} {lanes : List Nat} {l : Nat} (h : l ∉ lanes) (v i : Nat) :
    vecPut v z raw lanes i / 256 ^ (z * l) % 256 ^ z = v / 256 ^ (z * l) % 256 ^ z := by
  induction lanes generalizing v i with
  | nil => rfl
  | cons k lanes ih =>
    rw [vecPut, ih (List.not_mem_of_not_mem_cons h)]
    simp only [Nat.pow_mul]
    exact (replace_digit (leNat_take_lt _ _)).2 l (List.ne_of_not_mem_cons h)

/-- The lane at position `j` of the list gets element `j`. -/
theorem vecPut_lane {z : Nat} {raw : List Byte} {lanes : List Nat} {j l : Nat} (hnd : lanes.Nodup) (h : lanes[j]? = some l) (v i : Nat) :
    vecPut v z raw lanes i / 256 ^ (z * l) % 256 ^ z = leNat ((raw.drop (z * (i + j))).take z) := by
  induction lanes generalizing v i j with
  | nil => cases h
  | cons k lanes ih =>
    obtain ⟨hk, hnd⟩ := List.nodup_cons.mp hnd
    rw [vecPut]
    cases j with
    | zero =>
      obtain rfl : k = l := Option.some.inj h
      rw [vecPut_other hk]
      simp only [Nat.pow_mul]
      exact (replace_digit (leNat_take_lt _ _)).1
    | succ j =>
      rw [ih hnd h, Nat.add_right_comm i 1 j, Nat.add_assoc]

theorem lane_eq (v : VWordReg) (z l : Nat) : Claims.lane v z l = v.toNat / 256 ^ (z * l) % 256 ^ z := by
  rw [Claims.lane, BitVec.extractLsb'_toNat, Nat.shiftRight_eq_div_pow, show (256 : Nat) = 2 ^ 8 from rfl, ← Nat.pow_mul, ← Nat.pow_mul, Nat.mul_assoc]

/-- A digit within the first `n` bytes of a value. -/
theorem digit_of_bytes (v : Nat) {n z l : Nat} (h : z * l + z ≤ n) :
    v % 256 ^ n / 256 ^ (z * l) % 256 ^ z = v / 256 ^ (z * l) % 256 ^ z := by
  obtain ⟨j, rfl⟩ := Nat.exists_eq_add_of_le h
  rw [Nat.pow_add, Nat.pow_add, Nat.mul_assoc, Nat.mod_mul_right_div_self, Nat.mod_mul_right_mod]

theorem toNat_ofNat_bytes (n v : Nat) : (BitVec.ofNat (8 * n) v).toNat = v % 256 ^ n := by
  rw [BitVec.toNat_ofNat, Nat.pow_mul]

/-- A lane within the 64 bytes of a register, from the register's value. -/
theorem lane_ofNat (v : Nat) {z l : Nat} (h : z * l + z ≤ 64) : Claims.lane (BitVec.ofNat 512 v) z l = v / 256 ^ (z * l) % 256 ^ z := by
  have hval : (BitVec.ofNat 512 v).toNat = v % 256 ^ 64 := toNat_ofNat_bytes 64 v
  rw [lane_eq, hval, digit_of_bytes v h]

/-! ### Results (R248, R267) -/

/-- The signed value of a pattern is that of the bit vector. -/
theorem svOf_eq_toInt {n : Nat} (h : 0 < n) (c : Nat) : svOf n c = (BitVec.ofNat n c).toInt := by
  have hpow : 2 ^ n = 2 * 2 ^ (n - 1) := by rw [← Nat.pow_succ', Nat.succ_eq_add_one, Nat.sub_add_cancel h]
  rw [svOf, BitVec.toInt_eq_toNat_cond, BitVec.toNat_ofNat]
  refine if_congr ?_ rfl rfl
  omega

/-- The fields of a slot that no result changes. -/
theorem Slot.writeResult_frame (a : Slot) (p : Pending) :
    (a.writeResult p).pc = a.pc ∧ (a.writeResult p).mode = a.mode ∧ (a.writeResult p).s = a.s ∧ (a.writeResult p).p = a.p
      ∧ (a.writeResult p).deferred = a.deferred := by
  unfold Slot.writeResult
  cases p.post <;> simp

/-- A complete result without an error writes its destinations and is outstanding no more. -/
theorem Slot.arriveResult_ok {a : Slot} {p : Pending} (hp : a.pend = [p]) (hneed : p.need = 0) (he : p.err = none) :
    ∃ w, a.arriveResult p.id = { a.writeResult p with pend := [], windows := w } := by
  simp [Slot.arriveResult, hp, hneed, he]

/-- With an error it becomes a deferred trap. -/
theorem Slot.arriveResult_error {a : Slot} {p : Pending} {e : TrapInfo} (hp : a.pend = [p]) (hneed : p.need = 0) (he : p.err = some e) :
    a.arriveResult p.id = { a with deferred := deferInsert p.id e a.deferred, pend := [] } := by
  simp [Slot.arriveResult, hp, hneed, he]

section
variable {a : Slot} {p : Pending}

theorem Slot.xr_writeResult_zext {rd : RegNo} {z : Nat} (h : p.post = .zext rd z) (r : RegNo) :
    (a.writeResult p).xr r = if r = 0 then 0 else if r = rd then BitVec.ofNat 64 (leNat (p.raw.take z)) else a.xr r := by
  rw [Slot.writeResult, h]
  exact Slot.xr_setX ..

theorem Slot.xr_writeResult_sext {rd : RegNo} {z : Nat} (h : p.post = .sext rd z) (hz : 0 < z) (hraw : p.raw.length = z) (r : RegNo) :
    (a.writeResult p).xr r = if r = 0 then 0 else if r = rd then Claims.word (BitVec.ofNat (8 * z) (leNat p.raw)).toInt else a.xr r := by
  rw [Slot.writeResult, h]
  dsimp only
  rw [List.take_of_length_le hraw.le, sextBytes, svOf_eq_toInt (by omega)]
  exact Slot.xr_setX ..

/-- The second register of a pair is never the first, nor x0 when the first is even. -/
theorem Slot.xr_writeResult_pair {rd : RegNo} (h : p.post = .pair rd) (r : RegNo) :
    (a.writeResult p).xr r = if r = 0 then 0 else if r = rd then BitVec.ofNat 64 (leNat (p.raw.take 8))
      else if r = rd + 1 then BitVec.ofNat 64 (leNat (p.raw.drop 8)) else a.xr r := by
  have hne : rd ≠ rd + 1 := by bv_omega
  rw [Slot.writeResult, h]
  dsimp only
  rw [Slot.xr_setX, Slot.xr_setX]
  by_cases h0 : r = 0
  · rw [if_pos h0, if_pos h0]
  · rw [if_neg h0, if_neg h0, if_neg h0]
    by_cases hr : r = rd
    · rw [if_pos hr, if_pos hr, if_neg (hr ▸ hne)]
    · rw [if_neg hr, if_neg hr]

theorem Slot.vr_writeResult {vd : RegNo} {z : Nat} {lanes : List Nat} (h : p.post = .vec vd z lanes) (r : RegNo) :
    (a.writeResult p).vr r = if r = vd then BitVec.ofNat 512 (vecPut (a.vr vd).toNat z p.raw lanes 0) else a.vr r := by
  rw [Slot.writeResult, h]
  exact Slot.vr_setV ..

/-- The lanes of a vector result get their elements, and the other lanes and registers keep their values. -/
theorem Slot.lanes_writeResult {vd : RegNo} {z : Nat} {lanes : List Nat} (h : p.post = .vec vd z lanes) (hnd : lanes.Nodup)
    (hin : ∀ l ∈ lanes, z * l + z ≤ 64) :
    (∀ (i : Nat) l, lanes[i]? = some l → Claims.lane ((a.writeResult p).vr vd) z l = leNat ((p.raw.drop (z * i)).take z))
      ∧ (∀ l < 64 / z, l ∉ lanes → Claims.lane ((a.writeResult p).vr vd) z l = Claims.lane (a.vr vd) z l)
      ∧ ∀ r, r ≠ vd → (a.writeResult p).vr r = a.vr r := by
  rw [Slot.vr_writeResult h, if_pos rfl]
  refine ⟨fun i l hl => ?_, fun l hl hno => ?_, fun r hr => ?_⟩
  · rw [lane_ofNat _ (hin l (List.mem_of_getElem? hl)), vecPut_lane hnd hl, Nat.zero_add]
  · have hroom : z * l + z ≤ 64 := by
      rw [← Nat.mul_succ]
      exact (Nat.mul_le_mul_left z hl).trans (Nat.mul_div_le 64 z)
    rw [lane_ofNat _ hroom, vecPut_other hno, lane_eq]
  · rw [Slot.vr_writeResult h, if_neg hr]

theorem Slot.writeResult_twait {rd : RegNo} {buf lin : Nat} (h : p.post = .twait rd buf lin) :
    (a.writeResult p).swbuf = BitVec.ofNat 64 buf ∧ (a.writeResult p).swlin = BitVec.ofNat 64 lin
      ∧ ∀ r, (a.writeResult p).xr r = if r = 0 then 0 else if r = rd then BitVec.ofNat 64 (leNat (p.raw.take 8)) else a.xr r := by
  rw [Slot.writeResult, h]
  exact ⟨rfl, rfl, fun _ => Slot.xr_setX ..⟩

theorem Slot.writeResult_satom {rd : RegNo} {flags : FFlags} (h : p.post = .satom rd flags) :
    (a.writeResult p).fflags = a.fflags ||| flags
      ∧ ∀ r, (a.writeResult p).xr r = if r = 0 then 0 else if r = rd then BitVec.ofNat 64 (leNat (p.raw.take 8)) else a.xr r := by
  rw [Slot.writeResult, h]
  exact ⟨rfl, fun _ => Slot.xr_setX ..⟩

end

end Sys2Proof.Machine

namespace Sys2Proof.Machine
open Claims

/-! ### Slots that go on when what they wait for arrives (R250) -/

/-- The slots of a core that wait for something. -/
theorem Core.mem_waiters {c : Core} {f : Wait → Bool} {k : Nat} : k ∈ c.waiters f ↔ k < 16 ∧ (c.slot k).occ = true ∧ f (c.slot k).wait = true := by
  rw [Core.waiters, List.mem_filter, List.mem_range, Bool.and_eq_true]

/-- Slots that go on: the cores change alone, and their slots alone. -/
theorem Dev.wake_cores (d : Dev) (r : Nat) (ks : List Nat) :
    (∃ cs, d.wake r ks = { d with cores := cs }) ∧ ∀ c, ∃ v, (d.wake r ks).core c = { d.core c with slots := v } := by
  induction ks generalizing d with
  | nil => exact ⟨⟨_, rfl⟩, fun _ => ⟨_, rfl⟩⟩
  | cons k ks ih =>
    obtain ⟨⟨cs, hcs⟩, hcore⟩ := ih (d.modSlot r k fun s => { s with wait := .none })
    refine ⟨⟨cs, hcs⟩, fun c => ?_⟩
    obtain ⟨v, hv⟩ := hcore c
    obtain ⟨u, hu⟩ := Dev.core_setSlot_slots d r k { d.slot r k with wait := .none } c
    exact ⟨v, hv.trans (congrArg (fun x : Core => { x with slots := v }) hu)⟩

/-- A slot that is woken waits no more, and another one stays as it is. -/
theorem Dev.slot_wake (d : Dev) (r : Nat) (ks : List Nat) {j : Nat} (hj : j < 16) :
    (d.wake r ks).slot r j = if j ∈ ks then { d.slot r j with wait := .none } else d.slot r j := by
  induction ks generalizing d with
  | nil => rfl
  | cons k ks ih =>
    refine (ih (d.modSlot r k fun s => { s with wait := .none })).trans ?_
    rw [Dev.modSlot_eq]
    by_cases hk : j = k
    · subst hk
      rw [Dev.slot_setSlot _ _ _ _ hj, if_pos List.mem_cons_self, ite_self]
    · rw [Dev.slot_setSlot_ne _ _ _ _ _ _ fun h => hk h.2]
      simp only [List.mem_cons, hk, false_or]

/-- The slots of a core after those that wait for `w` have been woken. -/
theorem Dev.slot_wake_waiters {d e : Dev} {r : Nat} (w : Wait) (hs : ∀ j, e.slot r j = d.slot r j) {j : Nat} (hj : j < 16) :
    (e.wake r ((d.core r).waiters (· == w))).slot r j
      = if (d.slot r j).occ ∧ (d.slot r j).wait = w then { d.slot r j with wait := .none } else d.slot r j := by
  rw [Dev.slot_wake _ _ _ hj, hs]
  refine if_congr ?_ rfl rfl
  rw [Core.mem_waiters, beq_iff_eq]
  exact and_iff_right hj

/-! ### Fetch lines (R122) -/

/-- The core keeps the line, whichever other one leaves for it. -/
theorem Dev.l1iPut_keeps (d : Dev) (r line : Nat) (l : Line) :
    ∃ m n, aget? m line = some l ∧ d.l1iPut r line l = { d.setCore r { d.core r with l1i := m } with freeCtr := n } := by
  unfold Dev.l1iPut
  dsimp only
  split
  · exact ⟨_, _, aget?_aset_same _ _ _, rfl⟩
  · exact ⟨_, _, aget?_aset_same _ _ _, rfl⟩

/-- Nothing stands before an access to a line that is registered nowhere and that no update-only copy holds. -/
theorem Dev.prepare_unregistered {d : Dev} {line : Nat} (hreg : aget? d.regs line = none) (huoc : d.hasUoc line = false) : d.prepare line = d := by
  simp only [Dev.prepare, hreg, huoc, Bool.false_eq_true, if_false]

end Sys2Proof.Machine

namespace Sys2Proof.Claims
open Machine

/-- A fetch line at hand arrives (R122). -/
theorem ifetchFill_gives {s : State} {k : Nat} (hk : k < 16) (hocc : (s.dev.slot s.args.a k).occ = true)
    (hwait : (s.dev.slot s.args.a k).wait = .fetch s.args.b) (hheld : s.dev.lineHeld s.args.b = false) (hpoison : s.dev.poisoned s.args.b = false)
    (hreg : aget? s.dev.regs s.args.b = none) (huoc : s.dev.hasUoc s.args.b = false) :
    Gives .ifetchFill s fun t => aget? (t.dev.core s.args.a).l1i s.args.b = some (s.dev.mem.line s.args.b) ∧ t.dev.mem = s.dev.mem
      ∧ ∀ j < 16, t.dev.slot s.args.a j = if (s.dev.slot s.args.a j).occ ∧ (s.dev.slot s.args.a j).wait = .fetch s.args.b
        then { s.dev.slot s.args.a j with wait := .none } else s.dev.slot s.args.a j := by
  generalize hr : s.args.a = r at *
  generalize hl : s.args.b = l at *
  generalize hd : s.dev = d at *
  have hmem : k ∈ (d.core r).waiters (· == .fetch l) := Core.mem_waiters.mpr ⟨hk, hocc, beq_iff_eq.mpr hwait⟩
  obtain ⟨first, rest, hks⟩ : ∃ first rest, (d.core r).waiters (· == .fetch l) = first :: rest := List.exists_cons_of_ne_nil (List.ne_nil_of_mem hmem)
  have hfill : ∃ g, CacheOnly d g ∧ d.ifetchFill r l = (g.l1iPut r l (g.lineNow l)).wake r ((d.core r).waiters (· == .fetch l)) := by
    rw [Dev.ifetchFill]
    dsimp only
    rw [hks]
    dsimp only
    rw [hheld, hpoison, Dev.prepare_unregistered hreg huoc]
    exact ⟨_, Dev.touch_cache .., rfl⟩
  obtain ⟨g, hcache, hfill⟩ := hfill
  refine gives_dev (e := d.ifetchFill r l) (by rw [← hd, ← hr, ← hl]; rfl) hfill ?_
  have hnow : g.lineNow l = d.mem.line l := by
    obtain ⟨_, _, _, _, _, rfl⟩ := hcache
    rw [Dev.lineNow, hreg]
  obtain ⟨m, n, hm, hput⟩ := Dev.l1iPut_keeps g r l (g.lineNow l)
  have hcore : (g.l1iPut r l (g.lineNow l)).core r = { d.core r with l1i := m } := by
    rw [hput]
    obtain ⟨_, _, _, _, _, rfl⟩ := hcache
    exact Dev.core_setCore ..
  refine ⟨?_, ?_, fun j hj => Dev.slot_wake_waiters _ (fun i => ?_) hj⟩
  · obtain ⟨v, hv⟩ := (Dev.wake_cores (g.l1iPut r l (g.lineNow l)) r ((d.core r).waiters (· == .fetch l))).2 r
    dsimp only
    rw [hv, hcore, ← hnow]
    exact hm
  · obtain ⟨cs, hcs⟩ := (Dev.wake_cores (g.l1iPut r l (g.lineNow l)) r ((d.core r).waiters (· == .fetch l))).1
    dsimp only
    rw [hcs, hput]
    exact hcache.mem
  · rw [Dev.slot, hcore]
    rfl

end Sys2Proof.Claims

namespace Sys2Proof.Machine
open Claims

/-! ### Deferred traps (R250) -/

/-- A slot that waits for nothing has no wait to cancel: only the mark of its instruction goes. -/
theorem Dev.cancelWait_none {d : Dev} {r k : Nat} (hw : (d.slot r k).wait = .none) :
    d.cancelWait r k = d.setSlot r k { d.slot r k with opMark := none } := by
  unfold Dev.cancelWait
  rw [Dev.modSlot_eq]
  generalize hs : d.slot r k = a at hw
  obtain ⟨⟩ := a
  cases hw
  simp [hs]

/-- With no result pending a slot takes the deferred trap that comes next. -/
theorem Slot.takeDeferred_eq {a : Slot} {tvec : Word} {failed : Bool} {p : Nat × TrapInfo} (hp : a.pend = []) (hn : a.nextDeferred = some p) :
    a.takeDeferred tvec failed = { a.enterTrap tvec p.2 with deferred := a.deferred.erase p, copyHold := a.copyHold || failed } := by
  rw [Slot.takeDeferred, hn]
  exact if_pos (List.isEmpty_iff.mpr hp)

/-- A slot that waits for nothing, with no result pending, takes the deferred trap that comes next. -/
theorem Dev.takeDeferred_eq {d : Dev} {r k n : Nat} {x : TrapInfo} (hk : k < 16) (hw : (d.slot r k).wait = .none) (hp : (d.slot r k).pend = [])
    (hn : (d.slot r k).nextDeferred = some (n, x)) :
    d.takeDeferred r k = d.setSlot r k { (d.slot r k).enterTrap (d.core r).tvec x with
      deferred := (d.slot r k).deferred.erase (n, x), copyHold := (d.slot r k).copyHold || !(d.homeSlot r k).copyFaults.isEmpty } := by
  rw [Dev.takeDeferred, Dev.cancelWait_none hw]
  dsimp only
  rw [Dev.modSlot_eq, Dev.slot_setSlot _ _ _ _ hk, Dev.setSlot_setSlot]
  rw [Slot.takeDeferred_eq (a := { d.slot r k with opMark := none }) hp hn]
  rfl

/-- It is due while the thread is at a boundary of its slot. -/
theorem Dev.deferredDue_eq {d : Dev} {r k n : Nat} {x : TrapInfo} (hocc : (d.slot r k).occ = true) (haway : (d.slot r k).away = false)
    (hw : (d.slot r k).wait = .none) (hp : (d.slot r k).pend = []) (hn : (d.slot r k).nextDeferred = some (n, x)) :
    d.deferredDue r k = some x := by
  simp [Dev.deferredDue, Dev.walking, hocc, haway, hw, hp, hn]

end Sys2Proof.Machine

namespace Sys2Proof.Claims
open Machine

/-- A change of one slot changes no byte. -/
theorem sameBytes_setSlot (s : State) (r k : Nat) (a : Slot) : SameBytes s { s with dev := s.dev.setSlot r k a } r k := by
  refine ⟨rfl, fun c => ?_, rfl, rfl, fun c j h => Dev.slot_setSlot_ne _ _ _ _ _ _ h⟩
  obtain ⟨v, hv⟩ := Dev.core_setSlot_slots s.dev r k a c
  exact (congrArg Core.lmem hv :)

/-- A deferred trap at a boundary (R250). -/
theorem deferredTrap_gives {s : State} {n : Nat} {x : TrapInfo} {a : Slot} (ha : s.dev.slot s.args.a s.args.b = a) (hk : s.args.b < 16)
    (hocc : a.occ = true) (haway : a.away = false) (hp : a.pend = []) (hw : a.wait = .none)
    (hn : a.deferred.find? (fun p => !a.mode || decide (a.trapPid ≤ p.1)) = some (n, x)) :
    Gives .deferredTrap s fun t => SameBytes s t s.args.a s.args.b ∧ ∃ e, EntersTrap a e (s.dev.core s.args.a).tvec x
      ∧ t.dev.slot s.args.a s.args.b = { e with
        deferred := a.deferred.erase (n, x), copyHold := a.copyHold || !(s.dev.homeSlot s.args.a s.args.b).copyFaults.isEmpty } := by
  subst ha
  refine gives_dev rfl ?_ ⟨sameBytes_setSlot s _ _ _, _, entersTrap_enterTrap _ _ _, Dev.slot_setSlot _ _ _ _ hk⟩
  dsimp only
  rw [Dev.deferredDue_eq hocc haway hw hp hn]
  exact Dev.takeDeferred_eq hk hw hp hn

end Sys2Proof.Claims

namespace Sys2Proof.Claims
open Machine

/-- What a result without an error makes of its slot, by the kind of its destinations. -/
def ResultWritten (a b : Slot) (p : Pending) : Prop :=
  b.deferred = a.deferred
    ∧ (∀ rd z, p.post = .zext rd z → ∀ r, b.xr r = if r = 0 then 0 else if r = rd then BitVec.ofNat 64 (leNat (p.raw.take z)) else a.xr r)
    ∧ (∀ rd z, p.post = .sext rd z → z ∈ [1, 2, 4, 8] → p.raw.length = z → ∀ r, b.xr r = if r = 0 then 0 else if r = rd then
        word (BitVec.ofNat (8 * z) (leNat p.raw)).toInt else a.xr r)
    ∧ (∀ rd, p.post = .pair rd → rd.toNat % 2 = 0 → ∀ r, b.xr r = if r = 0 then 0 else if r = rd then BitVec.ofNat 64 (leNat (p.raw.take 8))
        else if r = rd + 1 then BitVec.ofNat 64 (leNat (p.raw.drop 8)) else a.xr r)
    ∧ (∀ vd z lanes, p.post = .vec vd z lanes → z ∈ [1, 2, 4, 8] → lanes.Nodup → (∀ l ∈ lanes, z * l + z ≤ 64) →
      (∀ (i : Nat) l, lanes[i]? = some l → lane (b.vr vd) z l = leNat ((p.raw.drop (z * i)).take z))
      ∧ (∀ l < 64 / z, l ∉ lanes → lane (b.vr vd) z l = lane (a.vr vd) z l) ∧ ∀ r, r ≠ vd → b.vr r = a.vr r)
    ∧ (∀ rd buf lin, p.post = .twait rd buf lin → b.swbuf = BitVec.ofNat 64 buf ∧ b.swlin = BitVec.ofNat 64 lin
      ∧ ∀ r, b.xr r = if r = 0 then 0 else if r = rd then BitVec.ofNat 64 (leNat (p.raw.take 8)) else a.xr r)
    ∧ ∀ rd flags, p.post = .satom rd flags → b.fflags = a.fflags ||| flags
      ∧ ∀ r, b.xr r = if r = 0 then 0 else if r = rd then BitVec.ofNat 64 (leNat (p.raw.take 8)) else a.xr r

theorem resultWritten_writeResult (a : Slot) (p : Pending) : ResultWritten a (a.writeResult p) p := by
  obtain ⟨-, -, -, -, hdef⟩ := Slot.writeResult_frame a p
  refine ⟨hdef, fun _ _ h => Slot.xr_writeResult_zext h, fun _ z h hz => Slot.xr_writeResult_sext h ?_, fun _ h _ => Slot.xr_writeResult_pair h,
    fun _ _ _ h _ => Slot.lanes_writeResult h, fun _ _ _ h => Slot.writeResult_twait h, fun _ _ h => Slot.writeResult_satom h⟩
  exact Nat.pos_of_ne_zero fun h0 => by subst h0; exact absurd hz (by decide)

/-- The arrival of a complete result (R248, R250). -/
theorem resultArrival_gives {s : State} {p : Pending} {a : Slot} (ha : s.dev.slot s.args.a s.args.b = a) (hk : s.args.b < 16) (hp : a.pend = [p])
    (hid : p.id = s.args.c) (hneed : p.need = 0) :
    Gives .resultArrival s fun t =>
      let u := t.dev.slot s.args.a s.args.b
      u.pend = [] ∧ u.pc = a.pc ∧ u.mode = a.mode ∧ u.s = a.s ∧ u.p = a.p ∧ t.dev.mem = s.dev.mem
        ∧ (∀ r k, ¬(r = s.args.a ∧ k = s.args.b) → t.dev.slot r k = s.dev.slot r k)
        ∧ (∀ e, p.err = some e → u.x = a.x ∧ u.v = a.v ∧ u.deferred = deferInsert p.id e a.deferred)
        ∧ (p.err = none → ResultWritten a u p) := by
  subst ha
  have hslot : (s.dev.setSlot s.args.a s.args.b ((s.dev.slot s.args.a s.args.b).arriveResult p.id)).slot s.args.a s.args.b
      = (s.dev.slot s.args.a s.args.b).arriveResult p.id := Dev.slot_setSlot _ _ _ _ hk
  refine gives_dev rfl (d := s.dev.setSlot s.args.a s.args.b ((s.dev.slot s.args.a s.args.b).arriveResult p.id)) (by rw [hid]; rfl) ?_
  dsimp only
  rw [hslot]
  have hothers (r k : Nat) (h : ¬(r = s.args.a ∧ k = s.args.b)) := Dev.slot_setSlot_ne s.dev s.args.a s.args.b r k
    ((s.dev.slot s.args.a s.args.b).arriveResult p.id) h
  cases he : p.err with
  | some e =>
    rw [Slot.arriveResult_error hp hneed he] at hothers ⊢
    refine ⟨rfl, rfl, rfl, rfl, rfl, rfl, hothers, fun x hx => ?_, fun h => (by cases h)⟩
    obtain rfl := Option.some.inj hx
    exact ⟨rfl, rfl, rfl⟩
  | none =>
    obtain ⟨w, hw⟩ := Slot.arriveResult_ok hp hneed he
    rw [hw] at hothers ⊢
    obtain ⟨hpc, hmode, hs, hpr, -⟩ := Slot.writeResult_frame (s.dev.slot s.args.a s.args.b) p
    exact ⟨rfl, hpc, hmode, hs, hpr, rfl, hothers, fun _ h => (by cases h), fun _ => resultWritten_writeResult _ p⟩

end Sys2Proof.Claims

namespace Sys2Proof.Machine
open Claims

/-! ### Stash lines (R131, R132, R272) -/

/-- The entry as it stands once its line has arrived. -/
def filledEntry (e : StashEntry) (tr : Trans) : StashEntry :=
  { e with
    st := .clean, line := tr.pa / 128, ro := !leafWr tr.leaf || tr.twin, large := tr.large, cls := leafClass tr.leaf
    home := homeSlice tr.leaf tr.pa }

/-- The device with line `line` in entry `i` of core `r`, which is registered for it; no L1 keeps a copy. -/
def Dev.withStashLine (d : Dev) (r i line : Nat) (bad : Bool) (e : StashEntry) : Dev :=
  ({ d with
    regs := aset d.regs line (r, i)
    cores := d.cores.map fun (p : Nat × Core) => (p.1, { p.2 with l1d := adel p.2.l1d line }) } : Dev).modCore r fun c =>
      { c with
        lmem := c.lmem.setLine i (d.mem.line line)
        badLmem := c.badLmem.filter (· != i) ++ (if bad then [i] else [])
        stash := aset c.stash i e }

/-- The fill of a MAPPED entry whose line is at hand. -/
theorem fillEntry_mapped {d0 d : Dev} {r i : Nat} {e : StashEntry} {tr : Trans} (he : aget? (d0.core r).stash i = some e) (hst : e.st = .mapped)
    (htr : engTrans (r / 4) e.part { read := true, user := false, twinOk := true } e.gva d0 = .ok (tr, d))
    (hlost : d.lostLine (tr.pa / 128) = false) (hheld : d.lineHeld (tr.pa / 128) = false) (hreg : aget? d.regs (tr.pa / 128) = none)
    (huoc : d.hasUoc (tr.pa / 128) = false) :
    ∃ g bad, CacheOnly d g ∧ fillEntry r i d0 = .ok ((), g.withStashLine r i (tr.pa / 128) bad (filledEntry e tr)) := by
  have hrecall : d.recallStash (tr.pa / 128) = d := by rw [Dev.recallStash, hreg]
  refine ⟨d.touch (tr.pa / 128) (homeSlice tr.leaf tr.pa) e.part (leafClass tr.leaf) tr.pg false,
    (d.touch (tr.pa / 128) (homeSlice tr.leaf tr.pa) e.part (leafClass tr.leaf) tr.pg false).poison.contains (tr.pa / 128), Dev.touch_cache .., ?_⟩
  refine Eng.bind_ok.mpr ⟨d0, d0, rfl, ?_⟩
  rw [he]
  dsimp only
  rw [if_pos hst]
  refine Eng.bind_ok.mpr ⟨tr, d, htr, ?_⟩
  refine Eng.bind_ok.mpr ⟨d, d, rfl, ?_⟩
  rw [hlost, hheld]
  simp only [Bool.false_eq_true, if_false, Eng.upd, Dev.prepare_unregistered hreg huoc, hrecall]
  rfl

section
variable (d : Dev) (r i line : Nat) (bad : Bool) (e : StashEntry)

theorem Dev.regs_withStashLine : (d.withStashLine r i line bad e).regs = aset d.regs line (r, i) := rfl

theorem Dev.mem_withStashLine : (d.withStashLine r i line bad e).mem = d.mem := rfl

/-- The core of the entry. -/
theorem Dev.core_withStashLine : ∃ b, (d.withStashLine r i line bad e).core r
    = { d.core r with
      l1d := adel (d.core r).l1d line, lmem := (d.core r).lmem.setLine i (d.mem.line line), badLmem := b, stash := aset (d.core r).stash i e } := by
  have hcore := Dev.core_map (g := fun _ c => { c with l1d := adel c.l1d line }) d r rfl
  rw [Dev.withStashLine, Dev.modCore_eq, Dev.core_setCore, Dev.core, hcore]
  exact ⟨_, rfl⟩

/-- Another core. -/
theorem Dev.core_withStashLine_ne {o : Nat} (h : o ≠ r) :
    (d.withStashLine r i line bad e).core o = { d.core o with l1d := adel (d.core o).l1d line } := by
  rw [Dev.withStashLine, Dev.modCore_eq, Dev.core_setCore_ne _ _ _ _ h]
  exact Dev.core_map (g := fun _ c => { c with l1d := adel c.l1d line }) d o rfl

/-- The arrival of a stash line, and what it leaves once the slots that wait go on. -/
theorem Dev.withStashLine_wake (ks : List Nat) (hw : (d.core r).lmem.wf = true) :
    aget? ((d.withStashLine r i line bad e).wake r ks).regs line = some (r, i)
      ∧ aget? (((d.withStashLine r i line bad e).wake r ks).core r).stash i = some e
      ∧ (((d.withStashLine r i line bad e).wake r ks).core r).lmem.line i = d.mem.line line
      ∧ ((d.withStashLine r i line bad e).wake r ks).mem = d.mem
      ∧ (∀ a, (a < 128 * i ∨ 128 * i + 128 ≤ a) →
        (((d.withStashLine r i line bad e).wake r ks).core r).lmem.get a = (d.core r).lmem.get a)
      ∧ ∀ o, aget? (((d.withStashLine r i line bad e).wake r ks).core o).l1d line = none := by
  obtain ⟨b, hcore⟩ := Dev.core_withStashLine d r i line bad e
  have hother {o : Nat} := Dev.core_withStashLine_ne d r i line bad e (o := o)
  have hregs := Dev.regs_withStashLine d r i line bad e
  have hmem := Dev.mem_withStashLine d r i line bad e
  generalize d.withStashLine r i line bad e = w at *
  obtain ⟨⟨cs, hcs⟩, hwake⟩ := Dev.wake_cores w r ks
  have hmem' : (w.wake r ks).mem = d.mem := by rw [hcs]; exact hmem
  have hregs' : (w.wake r ks).regs = aset d.regs line (r, i) := by rw [hcs]; exact hregs
  generalize w.wake r ks = t at *
  obtain ⟨v, hv⟩ := hwake r
  rw [hcore] at hv
  have hlmem : (t.core r).lmem = (d.core r).lmem.setLine i (d.mem.line line) := by rw [hv]
  have hstash : (t.core r).stash = aset (d.core r).stash i e := by rw [hv]
  have hl1 (o : Nat) : (t.core o).l1d = adel (d.core o).l1d line := by
    by_cases ho : o = r
    · rw [ho, hv]
    · obtain ⟨u, hu⟩ := hwake o
      rw [hu, hother ho]
  refine ⟨?_, ?_, ?_, hmem', fun a ha => ?_, fun o => ?_⟩
  · rw [hregs', aget?_aset_same]
  · rw [hstash, aget?_aset_same]
  · rw [hlmem, Mem.line_setLine _ _ hw]
  · rw [hlmem, Mem.get_setLine_outside _ _ _ hw ha]
  · rw [hl1, aget?_adel_same]

theorem Dev.slot_withStashLine (j : Nat) : (d.withStashLine r i line bad e).slot r j = d.slot r j := by
  obtain ⟨b, hcore⟩ := Dev.core_withStashLine d r i line bad e
  rw [Dev.slot, hcore, Core.slot]
  rfl

end

/-- The line of an entry arrives, and the slots that wait for it go on. -/
theorem Dev.stashFill_eq {d e : Dev} {r i : Nat} (h : fillEntry r i d = .ok ((), e)) :
    d.stashFill r i = e.wake r ((d.core r).waiters (· == .stash i)) := by
  rw [Dev.stashFill, h]

end Sys2Proof.Machine

namespace Sys2Proof.Claims
open Machine

/-- A stash line at hand arrives (R131, R132). -/
theorem stashFill_gives {s : State} {e : StashEntry} {tr : Trans} {d : Dev} (he : aget? (s.dev.core s.args.a).stash s.args.b = some e)
    (hst : e.st = .mapped)
    (htr : engTrans (s.args.a / 4) e.part { read := true, user := false, twinOk := true } e.gva s.dev = .ok (tr, d))
    (hcores : d.cores = s.dev.cores) (hpoison : d.poisoned (tr.pa / 128) = false) (hheld : d.lineHeld (tr.pa / 128) = false)
    (hreg : aget? d.regs (tr.pa / 128) = none) (huoc : d.hasUoc (tr.pa / 128) = false) (hlmem : (s.dev.core s.args.a).lmem.wf = true) :
    Gives .stashFill s fun t => aget? t.dev.regs (tr.pa / 128) = some (s.args.a, s.args.b)
      ∧ aget? (t.dev.core s.args.a).stash s.args.b = some (filledEntry e tr)
      ∧ (t.dev.core s.args.a).lmem.line s.args.b = d.mem.line (tr.pa / 128) ∧ t.dev.mem = d.mem
      ∧ (∀ a, (a < 128 * s.args.b ∨ 128 * s.args.b + 128 ≤ a) → (t.dev.core s.args.a).lmem.get a = (s.dev.core s.args.a).lmem.get a)
      ∧ (∀ o, aget? (t.dev.core o).l1d (tr.pa / 128) = none)
      ∧ ∀ j < 16, t.dev.slot s.args.a j = if (s.dev.slot s.args.a j).occ ∧ (s.dev.slot s.args.a j).wait = .stash s.args.b
        then { s.dev.slot s.args.a j with wait := .none } else s.dev.slot s.args.a j := by
  have hlost : d.lostLine (tr.pa / 128) = false := (Bool.or_eq_false_iff.mp hpoison).2
  obtain ⟨g, bad, hcache, hfill⟩ := fillEntry_mapped he hst htr hlost hheld hreg huoc
  have hsame (c : Nat) : g.core c = s.dev.core c := by
    obtain ⟨_, _, _, _, _, rfl⟩ := hcache
    rw [Dev.core, Dev.core, ← hcores]
  obtain ⟨hregs, hstash, hline, hmem, hbytes, hl1⟩ := Dev.withStashLine_wake g s.args.a s.args.b (tr.pa / 128) bad (filledEntry e tr)
    ((s.dev.core s.args.a).waiters (· == .stash s.args.b)) (by rw [hsame]; exact hlmem)
  refine gives_dev rfl (Dev.stashFill_eq hfill) ⟨hregs, hstash, ?_, hmem.trans hcache.mem, fun a ha => ?_, hl1,
    fun j hj => Dev.slot_wake_waiters _ (fun k => ?_) hj⟩
  · rw [← hcache.mem]
    exact hline
  · exact (hbytes a ha).trans (by rw [hsame])
  · rw [Dev.slot_withStashLine, Dev.slot, Dev.slot, hsame]

end Sys2Proof.Claims

section
open Sys2Proof Sys2Proof.Machine Sys2Proof.Claims

/-- Settles O51: the arrival of a result by the kind of its destinations, the arrivals of fetch and stash lines by the device that they leave
before the waiting slots go on, and the deferred trap at a boundary of its slot. -/
theorem resultArrivalsAndFills : Obligations.ResultArrivalsAndFills := by
  refine ⟨fun s p a ha hk hp hid hneed => resultArrival_gives ha hk hp hid hneed, ?_, ?_, ?_⟩
  · exact fun s k hk hocc hwait hheld hpoison hreg huoc => ifetchFill_gives hk hocc hwait hheld hpoison hreg huoc
  · exact fun s e tr d he hst htr hcores _ hpoison hheld hreg huoc _ hlmem =>
      stashFill_gives he hst htr hcores hpoison hheld hreg huoc hlmem
  · exact fun s n x hk hocc haway hp hw hn => deferredTrap_gives rfl hk hocc haway hp hw hn

end

namespace Sys2Proof.Machine
open Claims

/-! ### A write of X[rd] and program flow (R244, R256) -/

theorem Slot.retireTo_setX_arrive (a : Slot) (pc : Word) (rd : RegNo) (v : Word) :
    Slot.retireTo pc (a.setX rd v) = { Slot.retireTo pc (a.setX rd v) with arrive := a.arrive } := by
  unfold Slot.setX
  split <;> rfl

end Sys2Proof.Machine

namespace Sys2Proof.Claims
open Machine

/-- A thread whose slot retires to `pc` with a new X[rd] writes that register alone, and goes on there. -/
theorem writesX_setSlot {s : State} (hk : s.dev.cur.2 < 16) (rd : RegNo) (v pc : Word) (arrive : Option Word) {d : Dev}
    (hd : d = s.dev.setSlot s.dev.cur.1 s.dev.cur.2 { Slot.retireTo pc (s.dev.th.setX rd v) with arrive := arrive }) :
    WritesX s { s with dev := d } rd v ∧ GoesOn { s with dev := d } pc arrive := by
  subst hd
  unfold WritesX GoesOn Dev.x
  dsimp only
  rw [Dev.th_setSlot _ _ hk]
  exact ⟨⟨threadOnly_setSlot .., fun r => Slot.xr_setX s.dev.th rd r v, flowOf_retireTo_setX s.dev.th pc rd v⟩, rfl, rfl, rfl⟩

/-- An instruction that sets X[rd] and retires. -/
theorem gives_setX_retire {i : Instr} {s : State} {use : RegUse} {rd : RegNo} {v : Word} {body : Dev → Chk Dev} (hready : Ready use s)
    (hexec : exec i s = s.thread use body) (hbody : body s.dev = .ok ((s.dev.setX rd v).retire)) :
    Gives i s fun t => WritesX s t rd v ∧ InSequence s t := by
  obtain ⟨hk, hl, hp⟩ := hready
  refine ⟨_, hexec.trans (State.thread_ok hl hp hbody), writesX_setSlot hk rd v _ _ ?_⟩
  rw [Dev.setX_retire _ _ _ hk, Slot.retireTo_setX_arrive]

/-- One that sets X[rd] and arrives at a target. -/
theorem gives_setX_jump {i : Instr} {s : State} {use : RegUse} {rd : RegNo} {v pc : Word} {body : Dev → Chk Dev} (hready : Ready use s)
    (hexec : exec i s = s.thread use body) (hbody : body s.dev = .ok ((s.dev.setX rd v).jump pc)) :
    Gives i s fun t => WritesX s t rd v ∧ GoesOn t pc (some s.dev.th.pc) := by
  obtain ⟨hk, hl, hp⟩ := hready
  exact ⟨_, hexec.trans (State.thread_ok hl hp hbody), writesX_setSlot hk rd v pc _ (Dev.setX_jump _ _ _ _ hk)⟩

/-- A row of the register operations holds when the function that the model computes is that of the row. -/
theorem aluResult_of {i : RegNo → RegNo → RegNo → Instr} {f : Word → Word → Word} (g : Word → Word → Word) (hexec : ∀ rd ra rb s, exec (i rd ra rb) s = s.alu g rd ra rb)
    (hfun : ∀ a b, g a b = f a b) : AluResult i f := by
  intro rd ra rb s hready
  rw [← hfun]
  exact gives_setX_retire hready (hexec ..) rfl

/-- A row of the bit counts. -/
theorem countResult_of {i : RegNo → RegNo → Instr} {P : Word → Nat → Prop} (g : Word → Nat)
    (hexec : ∀ rd ra s, exec (i rd ra) s = s.alu (fun a _ => BitVec.ofNat 64 (g a)) rd ra 0) (hcount : ∀ a, P a (g a)) : CountResult i P := by
  intro rd ra s hready
  obtain ⟨t, ht, hw, hseq⟩ := gives_setX_retire hready (hexec rd ra s) rfl
  exact ⟨t, ht, _, hcount _, hw, hseq⟩

/-- A row of the immediate operations. -/
theorem unaryResult_of {i : RegNo → RegNo → Instr} {f : Word → Word} (g : Word → Word) (hexec : ∀ rd ra s, exec (i rd ra) s = s.aluImm g rd ra)
    (hfun : ∀ a, g a = f a) : UnaryResult i f := by
  intro rd ra s hready
  rw [← hfun]
  exact gives_setX_retire hready (hexec ..) rfl

/-! ### The functions of the register operations (R256) -/

theorem word_sv (a : Word) : word (sv a) = a := BitVec.ofInt_toInt
theorem word_uv (a : Word) : word (uv a) = a := by rw [word, BitVec.ofInt_natCast, BitVec.ofNat_toNat, BitVec.setWidth_eq]
theorem word_add (x y : Int) : word (x + y) = word x + word y := BitVec.ofInt_add ..
theorem word_mul (x y : Int) : word (x * y) = word x * word y := BitVec.ofInt_mul ..
theorem word_sub (x y : Int) : word (x - y) = word x - word y := by
  rw [sub_eq_add_neg, word_add, word, word, word, BitVec.ofInt_neg, BitVec.sub_eq_add_neg]
theorem word_natCast (n : Nat) : word n = BitVec.ofNat 64 n := BitVec.ofInt_natCast ..

theorem shiftLeft_eq (a : Word) (n : Nat) : a <<< n = word (uv a * 2 ^ n) := by
  refine BitVec.eq_of_toNat_eq ?_
  have hcast : (uv a * 2 ^ n : Int) = (uv a * 2 ^ n : Nat) := by push_cast; rfl
  rw [hcast, word_natCast, BitVec.toNat_shiftLeft, BitVec.toNat_ofNat, Nat.shiftLeft_eq]

theorem ushiftRight_eq (a : Word) (n : Nat) : a >>> n = word (uv a / 2 ^ n) := by
  refine BitVec.eq_of_toNat_eq ?_
  have hcast : (uv a / 2 ^ n : Int) = (uv a / 2 ^ n : Nat) := by push_cast; rfl
  rw [hcast, word_natCast, BitVec.toNat_ushiftRight, BitVec.toNat_ofNat, Nat.shiftRight_eq_div_pow,
    Nat.mod_eq_of_lt (lt_of_le_of_lt (Nat.div_le_self ..) a.isLt)]

/-- An arithmetic shift divides, rounding down. -/
theorem sshiftRight_eq (a : Word) (n : Nat) : a.sshiftRight n = word (sv a / 2 ^ n) := by
  rw [← word_sv (a.sshiftRight n), sv, BitVec.toInt_sshiftRight, Int.shiftRight_eq_div_pow]
  push_cast
  rfl

theorem boolWord_slt (a b : Word) : boolWord (a.slt b) = if sv a < sv b then 1 else 0 := by
  simp [boolWord, BitVec.slt]

theorem boolWord_ult (a b : Word) : boolWord (a.ult b) = if uv a < uv b then 1 else 0 := by
  simp [boolWord, BitVec.ult]

theorem slt_min (a b : Word) : (if a.slt b then a else b) = word (min (sv a) (sv b)) := by
  by_cases h : sv a < sv b
  · rw [min_eq_left h.le, word_sv]; exact if_pos (decide_eq_true h)
  · rw [min_eq_right (not_lt.mp h), word_sv]; exact if_neg (by simpa [BitVec.slt] using h)

theorem slt_max (a b : Word) : (if a.slt b then b else a) = word (max (sv a) (sv b)) := by
  by_cases h : sv a < sv b
  · rw [max_eq_right h.le, word_sv]; exact if_pos (decide_eq_true h)
  · rw [max_eq_left (not_lt.mp h), word_sv]; exact if_neg (by simpa [BitVec.slt] using h)

theorem ult_min (a b : Word) : (if a.ult b then a else b) = word (min (uv a) (uv b)) := by
  by_cases h : uv a < uv b
  · rw [min_eq_left (Int.ofNat_lt.mpr h).le, word_uv]; exact if_pos (decide_eq_true h)
  · rw [min_eq_right (Int.ofNat_le.mpr (not_lt.mp h)), word_uv]; exact if_neg (by simpa [BitVec.ult] using h)

theorem ult_max (a b : Word) : (if a.ult b then b else a) = word (max (uv a) (uv b)) := by
  by_cases h : uv a < uv b
  · rw [max_eq_right (Int.ofNat_lt.mpr h).le, word_uv]; exact if_pos (decide_eq_true h)
  · rw [max_eq_left (Int.ofNat_le.mpr (not_lt.mp h)), word_uv]; exact if_neg (by simpa [BitVec.ult] using h)

theorem aluMulhu_eq (a b : Word) : aluMulhu a b = word (uv a * uv b / 2 ^ 64) := by
  rw [aluMulhu, ← word_natCast]
  push_cast
  rfl

/-! ### Bit counts -/

theorem leadingZeros_counts (a : Word) (n : Nat) : leadingZeros a n ≤ n ∧ (∀ k < leadingZeros a n, a.getLsbD (n - 1 - k) = false)
    ∧ (leadingZeros a n < n → a.getLsbD (n - 1 - leadingZeros a n) = true) := by
  induction n with
  | zero => exact ⟨Nat.le_refl _, fun k hk => absurd hk (Nat.not_lt_zero k), fun h => absurd h (Nat.lt_irrefl _)⟩
  | succ n ih =>
    obtain ⟨hle, hzero, hone⟩ := ih
    rw [leadingZeros]
    by_cases h : a.getLsbD n = true
    · rw [if_pos h]
      exact ⟨Nat.zero_le _, fun k hk => absurd hk (Nat.not_lt_zero k), fun _ => h⟩
    · rw [if_neg h]
      refine ⟨Nat.succ_le_succ hle, fun k hk => ?_, fun hlt => ?_⟩
      · cases k with
        | zero => exact Bool.eq_false_iff.mpr h
        | succ k => rw [show n + 1 - 1 - (k + 1) = n - 1 - k by omega]; exact hzero k (Nat.lt_of_succ_lt_succ hk)
      · rw [show n + 1 - 1 - (leadingZeros a n + 1) = n - 1 - leadingZeros a n by omega]
        exact hone (Nat.lt_of_succ_lt_succ hlt)

theorem trailingZeros_counts (a : Word) (k n : Nat) : trailingZeros a k n ≤ n ∧ (∀ j < trailingZeros a k n, a.getLsbD (k + j) = false)
    ∧ (trailingZeros a k n < n → a.getLsbD (k + trailingZeros a k n) = true) := by
  induction n generalizing k with
  | zero => exact ⟨Nat.le_refl _, fun j hj => absurd hj (Nat.not_lt_zero j), fun h => absurd h (Nat.lt_irrefl _)⟩
  | succ n ih =>
    obtain ⟨hle, hzero, hone⟩ := ih (k + 1)
    rw [trailingZeros]
    by_cases h : a.getLsbD k = true
    · rw [if_pos h]
      exact ⟨Nat.zero_le _, fun j hj => absurd hj (Nat.not_lt_zero j), fun _ => h⟩
    · rw [if_neg h]
      refine ⟨Nat.succ_le_succ hle, fun j hj => ?_, fun hlt => ?_⟩
      · cases j with
        | zero => exact Bool.eq_false_iff.mpr h
        | succ j => rw [show k + (j + 1) = k + 1 + j by omega]; exact hzero j (Nat.lt_of_succ_lt_succ hj)
      · rw [show k + (trailingZeros a (k + 1) n + 1) = k + 1 + trailingZeros a (k + 1) n by omega]
        exact hone (Nat.lt_of_succ_lt_succ hlt)

theorem onesCount_eq_countP (a : Word) (n : Nat) : onesCount a n = (List.range n).countP fun k => a.getLsbD k := by
  induction n with
  | zero => rfl
  | succ n ih => rw [onesCount, ih, List.range_succ, List.countP_append, List.countP_singleton]

end Sys2Proof.Claims

section
open Sys2Proof Sys2Proof.Machine Sys2Proof.Claims

/-- Settles O1: each row by the function that the model computes; the counts by induction on the bits looked at. -/
theorem registerAluAndBitCounts : Obligations.RegisterAluAndBitCounts := by
  refine ⟨⟨?_, ?_, ?_, ?_, ?_, ?_, ?_, ?_, ?_, ?_, ?_, ?_, ?_, ?_, ?_, ?_, ?_⟩, ?_, ?_, ?_⟩
  · exact aluResult_of (fun a b => a + b) (fun _ _ _ _ => rfl) fun a b => by rw [word_add, word_sv, word_sv]
  · exact aluResult_of (fun a b => a - b) (fun _ _ _ _ => rfl) fun a b => by rw [word_sub, word_sv, word_sv]
  · exact aluResult_of (fun a b => a &&& b) (fun _ _ _ _ => rfl) fun _ _ => rfl
  · exact aluResult_of (fun a b => a ||| b) (fun _ _ _ _ => rfl) fun _ _ => rfl
  · exact aluResult_of (fun a b => a ^^^ b) (fun _ _ _ _ => rfl) fun _ _ => rfl
  · exact aluResult_of (fun a b => a <<< (b.toNat % 64)) (fun _ _ _ _ => rfl) fun a b => shiftLeft_eq a (uv b % 64)
  · exact aluResult_of (fun a b => a >>> (b.toNat % 64)) (fun _ _ _ _ => rfl) fun a b => ushiftRight_eq a (uv b % 64)
  · exact aluResult_of (fun a b => a.sshiftRight (b.toNat % 64)) (fun _ _ _ _ => rfl) fun a b => sshiftRight_eq a (uv b % 64)
  · exact aluResult_of (fun a b => boolWord (a.slt b)) (fun _ _ _ _ => rfl) boolWord_slt
  · exact aluResult_of (fun a b => boolWord (a.ult b)) (fun _ _ _ _ => rfl) boolWord_ult
  · exact aluResult_of (fun a b => a * b) (fun _ _ _ _ => rfl) fun a b => by rw [word_mul, word_sv, word_sv]
  · exact aluResult_of aluMulh (fun _ _ _ _ => rfl) fun _ _ => rfl
  · exact aluResult_of aluMulhu (fun _ _ _ _ => rfl) aluMulhu_eq
  · exact aluResult_of (fun a b => if a.slt b then a else b) (fun _ _ _ _ => rfl) slt_min
  · exact aluResult_of (fun a b => if a.slt b then b else a) (fun _ _ _ _ => rfl) slt_max
  · exact aluResult_of (fun a b => if a.ult b then a else b) (fun _ _ _ _ => rfl) ult_min
  · exact aluResult_of (fun a b => if a.ult b then b else a) (fun _ _ _ _ => rfl) ult_max
  · exact countResult_of (leadingZeros · 64) (fun _ _ _ => rfl) fun a => leadingZeros_counts a 64
  · refine countResult_of (trailingZeros · 0 64) (fun _ _ _ => rfl) fun a => ?_
    simpa only [Nat.zero_add] using trailingZeros_counts a 0 64
  · exact countResult_of (onesCount · 64) (fun _ _ _ => rfl) fun a => onesCount_eq_countP a 64

end

namespace Sys2Proof.Machine
open Claims

/-! ### A result that stays outstanding (R248) -/

/-- The slot that a long-latency instruction leaves: retired, with one result more outstanding under its window. -/
def Slot.outstanding (a : Slot) (post : Post) (raw : List Byte) (need : Nat) (la : La) : Slot :=
  { Slot.retireTo (link a.pc) a with
    pend := a.pend ++ [⟨a.nextPid, post, raw, need, none⟩]
    windows := tickWindows a.pend a.windows ++ (if post.dests.isEmpty then [] else [⟨a.nextPid, post.dests, la.toNat⟩])
    nextPid := a.nextPid + 1 }

theorem Slot.outstanding_frame (a : Slot) (post : Post) (raw : List Byte) (need : Nat) (la : La) :
    { flowOf a (a.outstanding post raw need la) with pend := a.pend, nextPid := a.nextPid } = a := by
  unfold flowOf Slot.outstanding
  rfl

theorem Dev.retireLong_thread (d : Dev) (post : Post) (raw : List Byte) (need : Nat) (la : La) :
    d.retireLong d.cur.1 d.cur.2 post raw need la = d.setSlot d.cur.1 d.cur.2 (d.th.outstanding post raw need la) :=
  Dev.retireLong_eq ..

end Sys2Proof.Machine

namespace Sys2Proof.Claims
open Machine

/-- A thread in that slot has one result more outstanding, and goes on in sequence. -/
theorem addsPending_outstanding {s t : State} {post : Post} {raw : List Byte} {need : Nat} {la : La}
    (h : t.dev.th = s.dev.th.outstanding post raw need la) : InSequence s t ∧ AddsPending s t post raw need la := by
  unfold InSequence GoesOn AddsPending
  rw [h]
  exact ⟨⟨rfl, rfl, rfl⟩, rfl, rfl, Slot.outstanding_frame ..⟩

/-! ### Divisions and immediates (R257-R260) -/

/-- A row of the divisions. -/
theorem divResult_of {i : RegNo → RegNo → RegNo → La → Instr} {f : Word → Word → Word} (g : Word → Word → Word)
    (hexec : ∀ rd ra rb la s, exec (i rd ra rb la) s = s.divide g rd ra rb la) (hfun : ∀ a b, g a b = f a b) : DivResult i f := by
  intro rd ra rb la s ⟨hk, hl, hp⟩
  rw [← hfun]
  exact ⟨_, (hexec ..).trans (State.thread_ok hl hp (congrArg Except.ok (Dev.retireLong_thread ..))), threadOnly_setSlot ..,
    addsPending_outstanding (Dev.th_setSlot _ _ hk)⟩

theorem word_neg_one : word (-1) = BitVec.allOnes 64 := by decide

theorem aluDiv_eq (a b : Word) : aluDiv a b = if b = 0 then word (-1) else word ((sv a).tdiv (sv b)) := by
  rw [aluDiv, word_neg_one]

theorem aluDivu_eq (a b : Word) : aluDivu a b = if b = 0 then word (-1) else word (uv a / uv b) := by
  rw [aluDivu, word_neg_one, ← word_natCast]
  push_cast
  rfl

theorem aluRem_eq (a b : Word) : aluRem a b = if b = 0 then a else word (sv a - sv b * (sv a).tdiv (sv b)) := by
  rw [aluRem, Int.tmod_def]

theorem aluRemu_eq (a b : Word) : aluRemu a b = if b = 0 then a else word (uv a % uv b) := by
  rw [aluRemu, ← word_natCast]
  push_cast
  rfl

theorem word_signExtend {n : Nat} (i : BitVec n) : i.signExtend 64 = word i.toInt := rfl

theorem setWidth_word {n : Nat} (i : BitVec n) : i.setWidth 64 = word i.toNat := by
  rw [word_natCast, ← BitVec.ofNat_toNat]

/-- A field of at most 64 bits is its value as a word. -/
theorem sv_signExtend {n : Nat} (i : BitVec n) (h : n ≤ 64) : sv (i.signExtend 64) = i.toInt := BitVec.toInt_signExtend_of_le h

theorem uv_signExtend {n : Nat} (i : BitVec n) : (uv (i.signExtend 64) : Int) = i.toInt % 2 ^ 64 := by
  rw [uv, BitVec.signExtend, BitVec.toNat_ofInt, Int.toNat_of_nonneg (Int.emod_nonneg _ (by decide))]
  rfl

theorem shiftLeft_word (x : Int) (n : Nat) : word x <<< n = word (x * 2 ^ n) := by
  rw [shiftLeft_eq, word_mul, word_uv, ← word_mul]

end Sys2Proof.Claims

section
open Sys2Proof Sys2Proof.Machine Sys2Proof.Claims

/-- Settles O2: each row by the function that the model computes, and the result of a division as one more that is outstanding. -/
theorem divisionsAndImmediates : Obligations.DivisionsAndImmediates := by
  refine ⟨⟨divResult_of aluDiv (fun _ _ _ _ _ => rfl) aluDiv_eq, divResult_of aluRem (fun _ _ _ _ _ => rfl) aluRem_eq,
    divResult_of aluDivu (fun _ _ _ _ _ => rfl) aluDivu_eq, divResult_of aluRemu (fun _ _ _ _ _ => rfl) aluRemu_eq⟩, fun i => ⟨?_, ?_, ?_, ?_, ?_, ?_⟩,
    fun n => ⟨?_, ?_, ?_⟩, fun i rd s hready => ⟨?_, ?_⟩⟩
  · exact unaryResult_of (fun a => a + i.signExtend 64) (fun _ _ _ => rfl) fun a => by rw [word_add, word_sv, word_signExtend]
  · exact unaryResult_of (fun a => a &&& i.setWidth 64) (fun _ _ _ => rfl) fun a => by
      rw [word_natCast, BitVec.ofNat_and, BitVec.ofNat_toNat, BitVec.setWidth_eq, BitVec.ofNat_toNat]
  · exact unaryResult_of (fun a => a ||| i.setWidth 64) (fun _ _ _ => rfl) fun a => by
      rw [word_natCast, BitVec.ofNat_or, BitVec.ofNat_toNat, BitVec.setWidth_eq, BitVec.ofNat_toNat]
  · exact unaryResult_of (fun a => a ^^^ i.setWidth 64) (fun _ _ _ => rfl) fun a => by
      rw [word_natCast, BitVec.ofNat_xor, BitVec.ofNat_toNat, BitVec.setWidth_eq, BitVec.ofNat_toNat]
  · exact unaryResult_of (fun a => boolWord (a.slt (i.signExtend 64))) (fun _ _ _ => rfl) fun a => by
      rw [boolWord_slt, sv_signExtend i (by decide)]
  · exact unaryResult_of (fun a => boolWord (a.ult (i.signExtend 64))) (fun _ _ _ => rfl) fun a => by
      simp only [boolWord_ult, ← uv_signExtend, Nat.cast_lt]
  · exact unaryResult_of (fun a => a <<< n.toNat) (fun _ _ _ => rfl) fun a => shiftLeft_eq a n.toNat
  · exact unaryResult_of (fun a => a >>> n.toNat) (fun _ _ _ => rfl) fun a => ushiftRight_eq a n.toNat
  · exact unaryResult_of (fun a => a.sshiftRight n.toNat) (fun _ _ _ => rfl) fun a => sshiftRight_eq a n.toNat
  · rw [← shiftLeft_word, ← word_signExtend]
    exact gives_setX_retire hready rfl rfl
  · rw [word_add, word_sv, ← shiftLeft_word, ← word_signExtend]
    exact gives_setX_retire hready rfl rfl

end

namespace Sys2Proof.Claims
open Machine

/-! ### Branches and jumps (R262-R264) -/

theorem flowOf_retireTo (a : Slot) (pc : Word) (arrive : Option Word) : flowOf a { Slot.retireTo pc a with arrive := arrive } = a := by
  unfold flowOf Slot.retireTo
  rfl

/-- A thread whose slot retires to `pc` keeps its registers. -/
theorem writesNothing_setSlot {s : State} (hk : s.dev.cur.2 < 16) (pc : Word) (arrive : Option Word) {d : Dev}
    (hd : d = s.dev.setSlot s.dev.cur.1 s.dev.cur.2 { Slot.retireTo pc s.dev.th with arrive := arrive }) :
    WritesNothing s { s with dev := d } ∧ GoesOn { s with dev := d } pc arrive := by
  subst hd
  unfold WritesNothing GoesOn
  dsimp only
  rw [Dev.th_setSlot _ _ hk]
  exact ⟨⟨threadOnly_setSlot .., flowOf_retireTo ..⟩, rfl, rfl, rfl⟩

/-- A target PC + sext(off) × 4. -/
theorem pcRelative_eq {n : Nat} (pc : Word) (off : BitVec n) : pc + off.signExtend 64 <<< 2 = word (sv pc + off.toInt * 4) := by
  rw [word_add, word_sv, word_signExtend, shiftLeft_word]
  rfl

/-- A row of the branches. -/
theorem branchResult_of {i : RegNo → RegNo → BitVec 16 → Instr} {taken : Word → Word → Prop} (cond : Word → Word → Bool)
    (hexec : ∀ ra rb off s, exec (i ra rb off) s = s.branch cond ra rb off) (hcond : ∀ a b, cond a b = true ↔ taken a b) : BranchResult i taken := by
  intro ra rb off s ⟨hk, hl, hp⟩
  have htarget : branchTarget s.dev.th.pc off = word (sv s.dev.th.pc + off.toInt * 4) := pcRelative_eq ..
  cases hc : cond (s.dev.x ra) (s.dev.x rb) with
  | true =>
    have hbody : (if cond (s.dev.x ra) (s.dev.x rb) then s.dev.jump (branchTarget s.dev.th.pc off) else s.dev.retire)
      = s.dev.jump (branchTarget s.dev.th.pc off) := if_pos hc
    obtain ⟨hw, hgoes⟩ := writesNothing_setSlot hk (branchTarget s.dev.th.pc off) (some s.dev.th.pc) rfl
    exact ⟨_, (hexec ..).trans (State.thread_ok hl hp (congrArg Except.ok hbody)), hw, fun _ => htarget ▸ hgoes, fun hn => absurd ((hcond _ _).mp hc) hn⟩
  | false =>
    have hbody : (if cond (s.dev.x ra) (s.dev.x rb) then s.dev.jump (branchTarget s.dev.th.pc off) else s.dev.retire) = s.dev.retire :=
      if_neg (Bool.eq_false_iff.mp hc)
    obtain ⟨hw, hgoes⟩ := writesNothing_setSlot hk (link s.dev.th.pc) s.dev.th.arrive rfl
    exact ⟨_, (hexec ..).trans (State.thread_ok hl hp (congrArg Except.ok hbody)), hw,
      fun ht => absurd ((hcond _ _).mpr ht) (Bool.eq_false_iff.mp hc), fun _ => hgoes⟩

theorem slt_iff (a b : Word) : a.slt b = true ↔ sv a < sv b := decide_eq_true_iff
theorem ult_iff (a b : Word) : a.ult b = true ↔ uv a < uv b := decide_eq_true_iff

/-- The value of an address by its fields. -/
theorem toNat_fields (line : BitVec 57) (k : BitVec 5) : (line ++ k ++ (0 : BitVec 2)).toNat = 128 * line.toNat + 4 * k.toNat := by
  rw [BitVec.toNat_append, BitVec.toNat_append, ← Nat.shiftLeft_add_eq_or_of_lt k.isLt, Nat.shiftLeft_eq, Nat.shiftLeft_eq]
  rw [show (0 : BitVec 2).toNat = 0 from rfl, Nat.or_zero]
  omega

/-- Sequential flow by the fields of the PC (R22, R244): from slot 31 it passes over slot 0 of the next line. -/
theorem link_fields (line : BitVec 57) (k : BitVec 5) : link (line ++ k ++ (0 : BitVec 2))
    = if k = 31 then (line + 1) ++ (1 : BitVec 5) ++ (0 : BitVec 2) else line ++ (k + 1) ++ (0 : BitVec 2) := by
  have hline := line.isLt
  have hk := k.isLt
  rw [link, slotOf_fields]
  by_cases h : k = 31
  · subst h
    refine (if_pos rfl).trans (BitVec.eq_of_toNat_eq ?_)
    rw [if_pos rfl, toNat_fields, BitVec.toNat_add, toNat_fields, BitVec.toNat_add, show (8 : Word).toNat = 8 from rfl,
      show (1 : BitVec 57).toNat = 1 from rfl, show (1 : BitVec 5).toNat = 1 from rfl, show (31 : BitVec 5).toNat = 31 from rfl]
    omega
  · have hne : k.toNat ≠ 31 := fun e => h (BitVec.eq_of_toNat_eq e)
    refine (if_neg hne).trans (BitVec.eq_of_toNat_eq ?_)
    rw [if_neg h, toNat_fields, BitVec.toNat_add, toNat_fields, BitVec.toNat_add, show (4 : Word).toNat = 4 from rfl,
      show (1 : BitVec 5).toNat = 1 from rfl]
    omega

end Sys2Proof.Claims

section
open Sys2Proof Sys2Proof.Machine Sys2Proof.Claims

/-- Settles O3: each branch by the outcome of its comparison, the jumps by the slot that they leave, sequential flow by the fields of the PC. -/
theorem branchesAndJumps : Obligations.BranchesAndJumps := by
  refine ⟨⟨?_, ?_, ?_, ?_, ?_, ?_⟩, ⟨fun rd off s hready => ?_, fun rd ra imm s hready => ?_⟩, fun line k _ => link_fields line k⟩
  · exact branchResult_of (fun a b => a == b) (fun _ _ _ _ => rfl) fun _ _ => beq_iff_eq
  · exact branchResult_of (fun a b => a != b) (fun _ _ _ _ => rfl) fun _ _ => bne_iff_ne
  · exact branchResult_of (fun a b => a.slt b) (fun _ _ _ _ => rfl) slt_iff
  · exact branchResult_of (fun a b => !a.slt b) (fun _ _ _ _ => rfl) fun a b => by
      rw [Bool.not_eq_true', ← Bool.not_eq_true, slt_iff, not_lt]
  · exact branchResult_of (fun a b => a.ult b) (fun _ _ _ _ => rfl) ult_iff
  · exact branchResult_of (fun a b => !a.ult b) (fun _ _ _ _ => rfl) fun a b => by
      rw [Bool.not_eq_true', ← Bool.not_eq_true, ult_iff, not_lt]
  · rw [← pcRelative_eq]
    exact gives_setX_jump hready rfl rfl
  · rw [word_add, word_sv, ← word_signExtend]
    exact gives_setX_jump hready rfl rfl

end

namespace Sys2Proof.Claims
open Machine

/-! ### Two results under one number

A load whose bytes are poisoned fails its result by the number of the result (R250). -/

/-- A thread at home on core 0, with one block of scratch; its local memory is poisoned in line 0. -/
def scratchTask : Task := ⟨0, 0, 1, 0, { parseDesc 0 with scratch := 1 }, 0, 1, [0], [], [], [], 0, false, [], []⟩
/-- Every segment of the thread is local, with the right to read. Its result 0 is outstanding, and its next result takes number 0 too. -/
def sharedPidSlot : Slot :=
  { Slot.reset with
    occ := true, s := Vector.replicate 8 (BitVec.ofNat 128 (2 ^ 84 + 2 ^ 112 + 2 ^ 115)), pend := [⟨0, .zext 1 1, [0], 1, none⟩] }
def sharedPidCore : Core := { Core.reset.setSlot 0 sharedPidSlot with part := some 0, tasks := [scratchTask], badLmem := [0] }
def sharedPidState : State := { State.reset with dev := { Dev.reset with cores := [(0, sharedPidCore)] } }

/-- The state is that of a load which passes every check. -/
theorem sharedPid_ready : Ready { rx := [0], wx := [2], rs := [0] } sharedPidState := by
  refine ⟨?_, ?_, ?_⟩ <;> decide +kernel

theorem sharedPid_loads : LoadsFrom sharedPidState 0 (scalarOff sharedPidState 0 0 1) 1 1 (.loc 0) := ⟨by decide +kernel, rfl⟩

/-- The poison of the second result has failed the first one as well. -/
theorem sharedPid_failed : ∃ d, exec (.lbu 2 0 0 0 0) sharedPidState = .next { sharedPidState with dev := d }
    ∧ d.th.pend.head?.bind Pending.err = some ⟨.dataerr, 0⟩ := ⟨_, rfl, by decide +kernel⟩

end Sys2Proof.Claims

namespace Sys2Proof
open Machine Claims

/-- Refutes O7: nothing in the statement ties the numbers of a thread's pending results to the number that its next result takes. A load of a poisoned
local byte marks the result of its own number as failed; where an earlier result that is still to come has the same number, that one fails with it,
while the statement has every earlier result as it was. -/
theorem not_scalarLoadsAndStores : ¬ Obligations.ScalarLoadsAndStores := by
  unfold Obligations.ScalarLoadsAndStores
  rintro ⟨⟨-, hlbu, -⟩, -⟩
  obtain ⟨-, hlocal, -⟩ := hlbu 2 0 0 0 0 sharedPidState sharedPid_ready
  obtain ⟨d, hexec, hfailed⟩ := sharedPid_failed
  obtain ⟨-, hresult⟩ := (hlocal 0 sharedPid_loads).of_exec hexec
  have hbad : sharedPidState.dev.curCore.localBad 0 1 = some none := by decide +kernel
  rw [hbad] at hresult
  obtain ⟨hpend, -⟩ := hresult
  have hkept : d.th.pend.head? = some ⟨0, .zext 1 1, [0], 1, none⟩ := by
    rw [hpend]; rfl
  rw [hkept] at hfailed
  exact absurd hfailed (by decide)

end Sys2Proof

namespace Sys2Proof.Machine
open Claims

/-! ### Control registers of a slot (R125-R127) -/

/-- The control registers of a slot that software can write, as they are read. -/
def Slot.crField (a : Slot) (n : BitVec 6) : Option Word :=
  match n.toNat with
  | 0x05 => some (a.fflags.setWidth 64)
  | 0x06 => some (a.frm.setWidth 64)
  | 0x07 => some a.mfmt
  | 0x08 => some a.msca
  | 0x09 => some a.mscb
  | 0x0A => some a.mosh
  | 0x12 => some a.uvec
  | 0x13 => some a.uepc
  | 0x14 => some a.ucause
  | 0x15 => some a.uaddr
  | 0x16 => some a.unote
  | 0x21 => some a.sepc
  | 0x22 => some a.scause
  | 0x23 => some a.saddr
  | 0x24 => some a.sscratch
  | _ => none

/-- A slot with control register `n` written: its RW fields take the value, and its parity is good again. -/
def Slot.crWrite (n : BitVec 6) (v : Word) (a : Slot) : Slot :=
  let a := a.goodCr [n.toNat]
  match n.toNat with
  | 0x05 => { a with fflags := v.setWidth 6 }
  | 0x06 => { a with frm := v.setWidth 3 }
  | 0x07 => { a with mfmt := v &&& mfmtMask }
  | 0x08 => { a with msca := v &&& mscMask }
  | 0x09 => { a with mscb := v &&& mscMask }
  | 0x0A => { a with mosh := v &&& 0xF }
  | 0x12 => { a with uvec := v }
  | 0x13 => { a with uepc := v }
  | 0x14 => { a with ucause := v &&& 0xFF }
  | 0x15 => { a with uaddr := v }
  | 0x16 => { a with unote := v &&& 0x7F }
  | 0x21 => { a with sepc := v }
  | 0x22 => { a with scause := v &&& 0xFF }
  | 0x23 => { a with saddr := v }
  | 0x24 => { a with sscratch := v }
  | _ => a

/-- The slot `b` with what a control-register access may change taken from `a`: the writable control registers and their parity, X registers and
the flow of the program. -/
def Slot.besideCr (a b : Slot) : Slot :=
  { flowOf a b with
    x := a.x, badX := a.badX, badC := a.badC, fflags := a.fflags, frm := a.frm, mfmt := a.mfmt, msca := a.msca, mscb := a.mscb, mosh := a.mosh
    uvec := a.uvec, uepc := a.uepc, ucause := a.ucause, uaddr := a.uaddr, unote := a.unote, sepc := a.sepc, scause := a.scause, saddr := a.saddr
    sscratch := a.sscratch }

theorem Slot.besideCr_crWrite (a : Slot) (n : BitVec 6) (v : Word) : a.besideCr (a.crWrite n v) = a := by
  unfold Slot.crWrite Slot.besideCr flowOf Slot.goodCr
  dsimp only
  split <;> rfl

/-- A write of a control register leaves X registers and the flow of the program. -/
theorem Slot.crWrite_flow (a : Slot) (n : BitVec 6) (v : Word) :
    (a.crWrite n v).x = a.x ∧ (a.crWrite n v).pc = a.pc ∧ (a.crWrite n v).arrive = a.arrive := by
  unfold Slot.crWrite Slot.goodCr
  dsimp only
  split <;> exact ⟨rfl, rfl, rfl⟩

theorem setWidth_low (v : Word) (k : Nat) (hk : k ≤ 64) : (v.setWidth k).setWidth 64 = v &&& BitVec.ofNat 64 (2 ^ k - 1) := by
  refine BitVec.eq_of_toNat_eq ?_
  have hle : 2 ^ k ≤ 2 ^ 64 := Nat.pow_le_pow_right (by decide) hk
  have hlt : 2 ^ k - 1 < 2 ^ 64 := by have := Nat.two_pow_pos k; omega
  rw [BitVec.toNat_and, toNat_ofNat_of_lt hlt, Nat.and_two_pow_sub_one_eq_mod, BitVec.toNat_setWidth, BitVec.toNat_setWidth,
    Nat.mod_eq_of_lt (lt_of_lt_of_le (Nat.mod_lt _ (Nat.two_pow_pos k)) hle)]

/-- A control register that is read after its write has the value in its writable bits. -/
theorem Slot.crField_crWrite (a : Slot) {n : BitVec 6} (v : Word) (hw : crWritable n ≠ 0) (hn : n.toNat ≠ 0x20) :
    (a.crWrite n v).crField n = some (v &&& crWritable n) := by
  have hall : v &&& 18446744073709551615#64 = v := BitVec.and_allOnes
  unfold crWritable at hw ⊢
  unfold Slot.crField Slot.crWrite
  dsimp only
  generalize n.toNat = k at hw hn ⊢
  split
  case h_1 => exact congrArg some (setWidth_low v 6 (by decide))
  case h_2 => exact congrArg some (setWidth_low v 3 (by decide))
  case h_16 => simp_all
  all_goals simp [hall, mfmtMask, mscMask]

/-- Every other control register of the slot is as before. -/
theorem Slot.crField_crWrite_ne (a : Slot) {n m : BitVec 6} (v : Word) (h : m ≠ n) : (a.crWrite n v).crField m = a.crField m := by
  have hne : m.toNat ≠ n.toNat := fun e => h (BitVec.eq_of_toNat_eq e)
  unfold Slot.crWrite Slot.crField
  dsimp only
  generalize n.toNat = k at hne ⊢
  generalize m.toNat = j at hne ⊢
  split
  case h_16 => rfl
  all_goals split <;> simp at hne ⊢

/-! ### Control registers of the thread (R265) -/

/-- The core `b` with what a control-register access may change taken from `a`: its slots and TVEC. -/
def Core.besideTvec (a b : Core) : Core := { b with slots := a.slots, tvec := a.tvec }

theorem Core.besideTvec_self (c : Core) : c.besideTvec c = c := rfl

/-- The device `b` with the cores of `a`. -/
def Dev.besideCores (a b : Dev) : Dev := { b with cores := a.cores }

/-- What a control-register access leaves of the device: the thread's slot is `a`, TVEC of its core is `tv`, and everything else is as before. -/
structure AccessesCr (d e : Dev) (a : Slot) (tv : Word) : Prop where
  cur : e.cur = d.cur
  th : e.th = a
  tvec : e.curCore.tvec = tv
  device : d.besideCores e = d
  cores : ∀ r, (d.core r).besideTvec (e.core r) = d.core r
  slots : ∀ r k, ¬(r = d.cur.1 ∧ k = d.cur.2) → e.slot r k = d.slot r k

theorem AccessesCr.refl (d : Dev) : AccessesCr d d d.th d.curCore.tvec :=
  ⟨rfl, rfl, rfl, rfl, fun r => (d.core r).besideTvec_self, fun _ _ _ => rfl⟩

theorem AccessesCr.modTh {d e : Dev} {a : Slot} {tv : Word} (h : AccessesCr d e a tv) (hk : d.cur.2 < 16) (f : Slot → Slot) :
    AccessesCr d (e.modTh f) (f a) tv where
  cur := h.cur
  th := by rw [Dev.th_modTh _ _ (h.cur ▸ hk), h.th]
  tvec := by
    obtain ⟨v, hv⟩ := Dev.core_setSlot_slots e e.cur.1 e.cur.2 (f e.th) e.cur.1
    rw [Dev.modTh_eq, Dev.curCore, Dev.setSlot_cur, hv]
    exact h.tvec
  device := h.device
  cores r := by
    obtain ⟨v, hv⟩ := Dev.core_setSlot_slots e e.cur.1 e.cur.2 (f e.th) r
    rw [Dev.modTh_eq, hv]
    exact h.cores r
  slots r k hrk := by
    rw [Dev.modTh_eq, Dev.slot_setSlot_ne _ _ _ _ _ _ (h.cur ▸ hrk)]
    exact h.slots r k hrk

theorem AccessesCr.setTvec {d e : Dev} {a : Slot} {tv : Word} (h : AccessesCr d e a tv) (v : Word) :
    AccessesCr d (e.modCur fun c => { c with tvec := v }) a v where
  cur := h.cur
  th := (Claims.slot_modCore_slots (f := fun c => { c with tvec := v }) (fun _ => rfl) e _ _ _).trans h.th
  tvec := congrArg Core.tvec (Dev.curCore_modCur ..)
  device := h.device
  cores r := by
    by_cases hr : r = e.cur.1
    · subst hr
      rw [Dev.modCur_eq, Dev.core_setCore]
      exact h.cores e.cur.1
    · rw [Dev.modCur_eq, Dev.core_setCore_ne _ _ _ _ hr]
      exact h.cores r
  slots r k hrk := (Claims.slot_modCore_slots (f := fun c => { c with tvec := v }) (fun _ => rfl) e _ _ _).trans (h.slots r k hrk)

/-- A write of a control register is one of the thread's slot, or of TVEC. -/
theorem accessesCr_crSet (d : Dev) (n : BitVec 6) (v : Word) (hk : d.cur.2 < 16) :
    AccessesCr d (d.crSet n v) (d.th.crWrite n v) (if n.toNat = 0x20 then v else d.curCore.tvec) := by
  have hgood := (AccessesCr.refl d).modTh hk fun a => a.goodCr [n.toNat]
  unfold Dev.crSet Slot.crWrite
  dsimp only
  generalize n.toNat = k at hgood ⊢
  split
  case h_12 => exact hgood.setTvec v
  case h_17 =>
    split
    case h_16 => rw [if_neg ‹_›]; exact hgood
    all_goals contradiction
  all_goals exact hgood.modTh hk _

/-- What the value of a control register depends on beside the fields of its slot that software can write. -/
structure SameContext (d e : Dev) : Prop where
  cur : e.cur = d.cur
  modnum : e.modnum = d.modnum
  parts : e.parts = d.parts
  cores : ∀ r, (e.core r).tasks = (d.core r).tasks ∧ (e.core r).cycle = (d.core r).cycle ∧ (e.core r).cpwp = (d.core r).cpwp
  th : d.th.besideCr e.th = d.th

section
variable {d e : Dev} (h : SameContext d e)
include h

theorem SameContext.part (p : Nat) : e.part p = d.part p := by rw [Dev.part, h.parts, Dev.part]

/-- A thread is of the same partition and home, whatever its control registers hold. -/
theorem SameContext.home :
    e.th.guest = d.th.guest ∧ e.th.part = d.th.part ∧ e.th.hrank = d.th.hrank ∧ e.th.hslot = d.th.hslot ∧ e.th.own = d.th.own :=
  ⟨(congrArg Slot.guest h.th :), (congrArg Slot.part h.th :), (congrArg Slot.hrank h.th :),
    (congrArg Slot.hslot h.th :), (congrArg Slot.own h.th :)⟩

theorem SameContext.taskOf (r k : Nat) : (e.core r).taskOf k = (d.core r).taskOf k := by rw [Core.taskOf, (h.cores r).1, Core.taskOf]

theorem SameContext.taskOf_rankCore (p r k : Nat) : (e.rankCore p r).taskOf k = (d.rankCore p r).taskOf k := by
  unfold Dev.rankCore
  rw [h.part]
  split
  · rfl
  · exact h.taskOf _ _

/-- A thread sees the same task, whatever its control registers hold. -/
theorem SameContext.task : e.task e.cur.1 e.cur.2 = d.task d.cur.1 d.cur.2 := by
  obtain ⟨hguest, hpart, hrank, hslot, hown⟩ := h.home
  unfold Dev.task Dev.homeSaved Dev.homeOf
  simp only [show e.slot e.cur.1 e.cur.2 = e.th from rfl, show d.slot d.cur.1 d.cur.2 = d.th from rfl, hguest, hpart, hrank, hslot, hown, h.part]
  rw [h.cur]
  split_ifs <;> simp only [h.taskOf, h.taskOf_rankCore]

theorem SameContext.status : e.status e.cur.1 e.cur.2 = d.status d.cur.1 d.cur.2 := by
  obtain ⟨hguest, hpart, hrank, hslot, -⟩ := h.home
  have hnpend : e.th.npend = d.th.npend := (congrArg Slot.npend h.th :)
  have huact : e.th.uact = d.th.uact := (congrArg Slot.uact h.th :)
  have hmode : e.th.mode = d.th.mode := (congrArg Slot.mode h.th :)
  unfold Dev.status
  simp only [show e.slot e.cur.1 e.cur.2 = e.th from rfl, show d.slot d.cur.1 d.cur.2 = d.th from rfl, h.task, hguest, hpart, hrank, hslot, h.part,
    hnpend, huact, hmode]
  rw [h.cur]

/-- A control register reads as before where its field of the slot, and TVEC for number 0x20, are as before. -/
theorem SameContext.crGet {n : BitVec 6} (hfield : e.th.crField n = d.th.crField n)
    (htvec : n.toNat = 0x20 → e.curCore.tvec = d.curCore.tvec) : e.crGet n = d.crGet n := by
  obtain ⟨hcycle, hcpwp⟩ : e.curCore.cycle = d.curCore.cycle ∧ e.curCore.cpwp = d.curCore.cpwp := by
    rw [Dev.curCore, h.cur]
    exact (h.cores _).2
  obtain ⟨-, hpart, -, -, hown⟩ := h.home
  have hswbuf : e.th.swbuf = d.th.swbuf := (congrArg Slot.swbuf h.th :)
  have hswlin : e.th.swlin = d.th.swlin := (congrArg Slot.swlin h.th :)
  have huixid : e.th.uixid = d.th.uixid := (congrArg Slot.uixid h.th :)
  unfold Slot.crField at hfield
  unfold Dev.crGet
  dsimp only
  rw [h.task, hswbuf, hswlin, huixid, hown, hpart, h.part, hcycle, hcpwp, h.modnum, h.status]
  generalize n.toNat = k at hfield htvec ⊢
  split
  case h_3 => rw [h.cur]
  case h_27 => exact htvec rfl
  case h_6 | h_7 | h_8 | h_9 | h_10 | h_11 | h_19 | h_20 | h_21 | h_22 | h_23 | h_28 | h_29 | h_30 | h_31 =>
    exact Option.some.inj hfield
  all_goals rfl
end

/-- A register that software can write reads as its field. -/
theorem crGet_of_crField {d : Dev} {n : BitVec 6} {w : Word} (h : d.th.crField n = some w) : d.crGet n = w := by
  unfold Slot.crField at h
  unfold Dev.crGet
  dsimp only
  generalize n.toNat = k at h ⊢
  split at h
  case h_16 => contradiction
  all_goals exact Option.some.inj h

/-- A register that no write changes is no field of the slot, and not TVEC. -/
theorem crField_eq_none {n : BitVec 6} (h : crWritable n = 0) (a : Slot) : a.crField n = none ∧ n.toNat ≠ 0x20 := by
  unfold crWritable at h
  unfold Slot.crField
  generalize n.toNat = k at h ⊢
  split at h
  case h_17 =>
    refine ⟨?_, by assumption⟩
    split
    case h_16 => rfl
    all_goals contradiction
  all_goals contradiction

theorem AccessesCr.sameContext {d e : Dev} {a : Slot} {tv : Word} (h : AccessesCr d e a tv) (ha : d.th.besideCr a = d.th) : SameContext d e where
  cur := h.cur
  modnum := (congrArg Dev.modnum h.device :)
  parts := (congrArg Dev.parts h.device :)
  cores r := ⟨(congrArg Core.tasks (h.cores r) :), (congrArg Core.cycle (h.cores r) :), (congrArg Core.cpwp (h.cores r) :)⟩
  th := by rw [h.th, ha]

/-- The slot `a` with X[rd] written, after the instruction. -/
def Slot.crRetired (a : Slot) (rd : RegNo) (v : Word) : Slot := Slot.retireTo (link (a.setX rd v).pc) (a.setX rd v)

theorem Slot.crRetired_eq (a : Slot) (rd : RegNo) (v : Word) :
    ∃ x bad, a.crRetired rd v = Slot.retireTo (link a.pc) { a with x := x, badX := bad } := by
  unfold Slot.crRetired Slot.setX
  split
  · exact ⟨a.x, a.badX, rfl⟩
  · exact ⟨_, _, rfl⟩

end Sys2Proof.Machine

namespace Sys2Proof.Claims
open Machine

/-- What the access leaves of the thread's slot once X[rd] is written and the thread goes on. -/
theorem crRetired_fields (a : Slot) (rd : RegNo) (v : Word) : (a.crRetired rd v).pc = link a.pc ∧ (a.crRetired rd v).arrive = a.arrive
    ∧ (a.crRetired rd v).wait = Wait.none ∧ (∀ n, (a.crRetired rd v).crField n = a.crField n)
    ∧ ∀ b : Slot, b.besideCr (a.crRetired rd v) = b.besideCr a := by
  obtain ⟨x, bad, h⟩ := a.crRetired_eq rd v
  rw [h]
  exact ⟨rfl, rfl, rfl, fun _ => rfl, fun b => by unfold Slot.besideCr flowOf Slot.retireTo; rfl⟩

theorem crRetired_x (a : Slot) (rd r : RegNo) (v : Word) : (a.crRetired rd v).xr r = if r = 0 then 0 else if r = rd then v else a.xr r :=
  Slot.xr_setX a rd r v

/-- An access that leaves the slot `a` and TVEC `tv` has the result of R265 when these differ from before in register `n` alone. -/
theorem crResult_of_accesses {s : State} {e : Dev} {a : Slot} {tv : Word} {rd : RegNo} {n : BitVec 6} {new : Option Word}
    (h : AccessesCr s.dev e (a.crRetired rd (s.dev.crGet n)) tv) (hbeside : s.dev.th.besideCr a = s.dev.th)
    (hflow : a.x = s.dev.th.x ∧ a.pc = s.dev.th.pc ∧ a.arrive = s.dev.th.arrive)
    (hvalue : e.crGet n = match new with
      | some v => if crWritable n = 0 then s.dev.crGet n else v &&& crWritable n
      | none => s.dev.crGet n)
    (hfields : ∀ m, m ≠ n → a.crField m = s.dev.th.crField m) (htvec : n.toNat ≠ 0x20 → tv = s.dev.curCore.tvec) :
    CrResult s { s with dev := e } rd n new := by
  obtain ⟨hpc, harrive, hwait, hfield, hb⟩ := crRetired_fields a rd (s.dev.crGet n)
  obtain ⟨hax, hapc, haarrive⟩ := hflow
  have hctx := h.sameContext (hb _ ▸ hbeside)
  have hth := hctx.th
  exact {
    old := fun r => by
      rw [Dev.x, h.th, crRetired_x]
      simp only [Slot.xr, hax, Dev.x]
    value := hvalue
    others := fun m hm => hctx.crGet (by rw [h.th, hfield, hfields m hm])
      fun h20 => h.tvec.trans (htvec fun hn => hm (BitVec.eq_of_toNat_eq (h20.trans hn.symm)))
    flow := ⟨by rw [h.th, hpc, hapc], by rw [h.th, harrive, haarrive], by rw [h.th, hwait]⟩
    vectors := ⟨(congrArg Slot.v hth :), (congrArg Slot.p hth :), (congrArg Slot.s hth :), (congrArg Slot.pend hth :)⟩
    device := h.device
    rest := ⟨rfl, rfl⟩
    slots := h.slots
    cores := h.cores }

/-- An access that writes nothing. -/
theorem crResult_read {s : State} (hk : s.dev.cur.2 < 16) (rd : RegNo) (n : BitVec 6) :
    CrResult s { s with dev := (s.dev.setX rd (s.dev.crGet n)).retire } rd n none := by
  have h := ((AccessesCr.refl s.dev).modTh hk (·.setX rd (s.dev.crGet n))).modTh hk fun a => a.retireTo (link a.pc)
  have hself : s.dev.th.besideCr s.dev.th = s.dev.th := by unfold Slot.besideCr flowOf; rfl
  obtain ⟨-, -, -, hfield, hb⟩ := crRetired_fields s.dev.th rd (s.dev.crGet n)
  refine crResult_of_accesses h hself ⟨rfl, rfl, rfl⟩ ?_ (fun _ _ => rfl) fun _ => rfl
  exact (h.sameContext ((hb _).trans hself)).crGet ((congrArg (Slot.crField · n) h.th).trans (hfield n)) fun _ => h.tvec

/-- One that writes `v`. -/
theorem crResult_write {s : State} (hk : s.dev.cur.2 < 16) (rd : RegNo) (n : BitVec 6) (v : Word) :
    CrResult s { s with dev := ((s.dev.crSet n v).setX rd (s.dev.crGet n)).retire } rd n (some v) := by
  have h := ((accessesCr_crSet s.dev n v hk).modTh hk (·.setX rd (s.dev.crGet n))).modTh hk fun a => a.retireTo (link a.pc)
  have hbeside := s.dev.th.besideCr_crWrite n v
  obtain ⟨-, -, -, hfield, hb⟩ := crRetired_fields (s.dev.th.crWrite n v) rd (s.dev.crGet n)
  refine crResult_of_accesses h hbeside (s.dev.th.crWrite_flow n v) ?_ (fun m hm => s.dev.th.crField_crWrite_ne v hm) fun h20 => if_neg h20
  change _ = if crWritable n = 0 then s.dev.crGet n else v &&& crWritable n
  have hread := (congrArg (Slot.crField · n) h.th).trans (hfield n)
  split_ifs with hw
  · have hnone := fun a => (crField_eq_none hw a).1
    have h20 := (crField_eq_none hw s.dev.th).2
    exact (h.sameContext ((hb _).trans hbeside)).crGet (hread.trans ((hnone _).trans (hnone _).symm)) fun h => absurd h h20
  · by_cases h20 : n.toNat = 0x20
    · obtain rfl : n = 0x20 := BitVec.eq_of_toNat_eq h20
      exact (h.tvec.trans (if_pos rfl)).trans BitVec.and_allOnes.symm
    · exact crGet_of_crField (hread.trans (s.dev.th.crField_crWrite v hw h20))

section
variable {i : Instr} {s : State} {rd ra : RegNo} {n : BitVec 6} {new : Word → Word → Option Word} (hexec : exec i s = s.crAccess rd ra n new)
include hexec

/-- An allowed access reaches its body: number `n` has a register, and the supervisor's registers are accessed in supervisor mode. -/
theorem crAccess_gives (hok : CrAllowed n s) (hready : Ready { rx := [ra], wx := [rd], rcr := [n] } s) :
    Gives i s fun t => CrResult s t rd n (new (s.dev.crGet n) (s.dev.x ra)) := by
  obtain ⟨hk, hl, hp⟩ := hready
  have hres : crReserved n = false := decide_eq_false fun h => by rcases hok with hlt | ⟨hge, hle, -⟩ <;> omega
  have hpriv (use : RegUse) (body : Dev → Chk Dev) : (if crPriv n then s.priv use body else s.thread use body) = s.thread use body := by
    split_ifs with h
    · have hrange : 0x20 ≤ n.toNat ∧ n.toNat ≤ 0x24 := of_decide_eq_true h
      rcases hok with hlt | ⟨-, -, hmode⟩
      · omega
      · exact State.priv_supervisor hmode
    · rfl
  unfold Gives
  rw [hexec]
  unfold State.crAccess
  rw [if_neg (Bool.eq_false_iff.mp hres)]
  dsimp only
  rw [hpriv]
  cases hnew : new (s.dev.crGet n) (s.dev.x ra) with
  | none => exact ⟨_, State.thread_ok hl hp (by rw [hnew]), crResult_read hk rd n⟩
  | some v => exact ⟨_, State.thread_ok hl hp (by rw [hnew]), crResult_write hk rd n v⟩

/-- An access to a number without a register raises ILLEGAL, and one to a supervisor's register in user mode PRIV. -/
theorem crAccess_traps (hk : s.dev.cur.2 < 16) : ((0x1A ≤ n.toNat ∧ n.toNat ≤ 0x1F ∨ 0x25 ≤ n.toNat) → Traps i s .illegal (wordOf s))
    ∧ (0x20 ≤ n.toNat → n.toNat ≤ 0x24 → s.dev.th.mode = false → Traps i s .priv (wordOf s)) := by
  refine ⟨fun hn => ?_, fun hge hle hmode => ?_⟩
  · have hres : crReserved n = true := decide_eq_true (by omega)
    exact traps_of_exec hk (hexec.trans (if_pos hres))
  · have hres : ¬crReserved n = true := fun h => by have := of_decide_eq_true h; omega
    have hpriv : crPriv n = true := decide_eq_true ⟨hge, hle⟩
    exact traps_of_exec hk (hexec.trans ((if_neg hres).trans ((if_pos hpriv).trans (State.priv_user hmode))))
end

theorem exec_crr (rd : RegNo) (n : BitVec 6) (s : State) : exec (.crr rd n) s = s.crAccess rd 0 n fun _ _ => none := rfl
theorem exec_crw (rd ra : RegNo) (n : BitVec 6) (s : State) : exec (.crw rd ra n) s = s.crAccess rd ra n fun _ a => some a := rfl
theorem exec_crs (rd ra : RegNo) (n : BitVec 6) (s : State) :
    exec (.crs rd ra n) s = s.crAccess rd ra n fun old a => if ra = 0 then none else some (old ||| a) := rfl
theorem exec_crc (rd ra : RegNo) (n : BitVec 6) (s : State) :
    exec (.crc rd ra n) s = s.crAccess rd ra n fun old a => if ra = 0 then none else some (old &&& ~~~a) := rfl

end Sys2Proof.Claims

section
open Sys2Proof Sys2Proof.Machine Sys2Proof.Claims

/-- Settles O4: an access changes the fields of its register alone, and the value of every other register stands on what it keeps. -/
theorem controlRegisters : Obligations.ControlRegisters := by
  refine ⟨fun rd ra n s hok => ⟨crAccess_gives (exec_crr rd n s) hok, fun hready => ⟨crAccess_gives (exec_crw rd ra n s) hok hready,
    crAccess_gives (exec_crs rd ra n s) hok hready, crAccess_gives (exec_crc rd ra n s) hok hready⟩⟩, fun rd ra n s hk => ?_⟩
  obtain ⟨hrillegal, hrpriv⟩ := crAccess_traps (exec_crr rd n s) hk
  obtain ⟨hwillegal, hwpriv⟩ := crAccess_traps (exec_crw rd ra n s) hk
  obtain ⟨hsillegal, hspriv⟩ := crAccess_traps (exec_crs rd ra n s) hk
  obtain ⟨hcillegal, hcpriv⟩ := crAccess_traps (exec_crc rd ra n s) hk
  exact ⟨fun hn => ⟨hrillegal hn, hwillegal hn, hsillegal hn, hcillegal hn⟩,
    fun hge hle hmode => ⟨hrpriv hge hle hmode, hwpriv hge hle hmode, hspriv hge hle hmode, hcpriv hge hle hmode⟩⟩

end

namespace Sys2Proof.Machine
open Claims

/-! ### An acquire (R194) -/

theorem Dev.cur_acquire (d : Dev) (sc : MemScope) : (d.acquire sc).cur = d.cur := by cases sc <;> rfl

/-- An acquire changes the cores alone. -/
theorem Dev.acquire_device (d : Dev) (sc : MemScope) : { d.acquire sc with cores := d.cores } = d := by cases sc <;> rfl

theorem Dev.curCore_acquire (d : Dev) (sc : MemScope) :
    (d.acquire sc).curCore = { d.curCore with l1d := if sc = .cr then d.curCore.l1d else [] } := by
  cases sc
  case cr => rfl
  all_goals exact Dev.curCore_modCur d fun c => { c with l1d := [] }

theorem Dev.core_acquire_ne (d : Dev) (sc : MemScope) {r : Nat} (h : r ≠ d.cur.1) : (d.acquire sc).core r = d.core r := by
  cases sc
  case cr => rfl
  all_goals exact Dev.core_setCore_ne _ _ _ _ h

theorem Dev.slot_acquire (d : Dev) (sc : MemScope) (r k : Nat) : (d.acquire sc).slot r k = d.slot r k := by
  cases sc
  case cr => rfl
  all_goals exact Claims.slot_modCore_slots (f := fun c => { c with l1d := [] }) (fun _ => rfl) d _ _ _

/-- An acquire and a change of a slot of the core go in either order. -/
theorem Dev.acquire_setSlot (d : Dev) (k : Nat) (a : Slot) (sc : MemScope) :
    (d.setSlot d.cur.1 k a).acquire sc = (d.acquire sc).setSlot d.cur.1 k a := by
  cases sc
  case cr => rfl
  all_goals
    unfold Dev.acquire Dev.acquireAt
    dsimp only
    rw [Dev.modCore_eq, Dev.modCore_eq, Dev.setSlot_cur, Dev.core_setSlot, Dev.setSlot_eq, Dev.setSlot_eq, Dev.core_setCore]
    unfold Dev.setCore
    dsimp only
    rw [aset_aset, aset_aset]
    rfl

/-! ### Accesses that no earlier one holds (R194, R196) -/

theorem Dev.acqHeld_none {d : Dev} (h : d.th.acqPid = []) : d.acqHeld = .ok () := by rw [Dev.acqHeld, h]; rfl
theorem Dev.acqHeld_some {d : Dev} (h : d.th.acqPid ≠ []) : d.acqHeld = park .acquire :=
  if_neg fun he => h (List.isEmpty_iff.mp he)

section
variable {d : Dev} {sg : SegNo} {off : Word} {n align x : Nat} {post : Post} {la : La} {sc : MemScope} (hacq : d.th.acqPid = [])
include hacq

theorem Dev.load_local {a : Nat}
    (ho : d.operand sg off n { r := true } { read := true, user := d.user, twinOk := true, remoteOk := true } align = .ok (.loc a))
    (hbad : d.curCore.localBad a n = none) : d.load sg off n align post la (some sc)
      = .ok ((d.retireLong d.cur.1 d.cur.2 post (d.curCore.lmem.bytes a n) 0 la).acquire sc) := by
  have hload (g : Nat) : d.localLoad [(g, a, n)] post la = d.retireLong d.cur.1 d.cur.2 post (d.curCore.lmem.bytes a n) 0 la := by
    simp [Dev.localLoad, hbad]
  unfold Dev.load
  rw [ho, Dev.acqHeld_none hacq]
  exact congrArg (fun e : Dev => Except.ok (e.acquire sc)) (hload _)

theorem Dev.load_global {ps : List (Trans × Nat × Nat)}
    (ho : d.operand sg off n { r := true } { read := true, user := d.user, twinOk := true, remoteOk := true } align = .ok (.glob ps)) :
    d.load sg off n align post la (some sc) = .ok (d.issueLoad (loadUnits ps (segBase (d.th.seg sg) + off.toNat) n 0) post n la (some sc)) := by
  unfold Dev.load
  rw [ho, Dev.acqHeld_none hacq]
  rfl

variable (hrel : d.th.relMark = none)
include hrel

theorem Dev.srel_local {a : Nat} (ho : d.operand sg off n { w := true } { write := true, user := d.user, remoteOk := true } align = .ok (.loc a)) :
    d.store sg off n align x (some sc) = if d.gateOpen (d.gateWaiting sc) then .ok ((d.modCur fun c => c.localWrite a (leBytes n x)).retire)
      else park (.release (d.gateWaiting sc)) := by
  unfold Dev.store
  rw [ho, Dev.acqHeld_none hacq, Dev.relHeld_none hrel]
  change (Dev.behind d (d.gateWaiting sc) >>= fun _ => _) = _
  unfold Dev.behind
  split_ifs <;> rfl

theorem Dev.srel_global {ps : List (Trans × Nat × Nat)}
    (ho : d.operand sg off n { w := true } { write := true, user := d.user, remoteOk := true } align = .ok (.glob ps))
    (hroom : d.wbRoom (storeUnits ps (segBase (d.th.seg sg) + off.toNat) n x) = true) : d.store sg off n align x (some sc)
      = .ok (((storeUnits ps (segBase (d.th.seg sg) + off.toNat) n x).foldl (Dev.storeUnit (some sc)) d).retire) := by
  unfold Dev.store
  rw [ho, Dev.acqHeld_none hacq, Dev.relHeld_none hrel]
  exact if_pos hroom
end

/-! ### The parts of an aligned access (R190) -/

theorem loadUnits_aligned (t : Trans) {gva n : Nat} (h : gva % n = 0) (hn : n ∣ 128) : loadUnits [(t, 0, n)] gva n 0 = [⟨t, n, 0⟩] := by
  simp [loadUnits, h, hn]

/-- A store within one line has one part. -/
theorem storeUnits_line (t : Trans) {n : Nat} (gva x : Nat) (hn : n ≠ 0) (h : t.pa % 128 + n ≤ 128) :
    storeUnits [(t, 0, n)] gva n x = [⟨t, n, x % 256 ^ n, gva % n == 0⟩] := by
  simp [storeUnits, piecesOf_line h, hn, Nat.div_add_mod]

/-- The value of one part, at once. -/
theorem Dev.issueLoad_immediate {d : Dev} {t : Trans} {n x : Nat} {post : Post} {la : La} {sc : MemScope} (ht : t.remote = false)
    (hx : d.immediate d.cur.1 d.cur.2 (t.pa / 128) (t.pa % 128) n = some x) : d.issueLoad [⟨t, n, 0⟩] post n la (some sc)
      = (d.retireLong d.cur.1 d.cur.2 post (leBytes n x) 0 la).acquire sc := by
  have hraw : putRaw (List.replicate n 0#8) 0 n x = leBytes n x := by simp [putRaw]
  simp only [Dev.issueLoad, ht, hx, List.map_cons, List.map_nil, List.foldl_cons, List.foldl_nil]
  exact congrArg (fun raw => (d.retireLong d.cur.1 d.cur.2 post raw 0 la).acquire sc) hraw

/-- The slot of a thread that waits for such a read. -/
def Slot.acquiring (a : Slot) (post : Post) (n : Nat) (la : La) : Slot :=
  { a.outstanding post (List.replicate n 0) 1 la with acqPid := a.acqPid ++ [a.nextPid] }

theorem Slot.acquiring_fields (a : Slot) (post : Post) (n : Nat) (la : La) : (a.acquiring post n la).pc = link a.pc
    ∧ (a.acquiring post n la).arrive = a.arrive ∧ (a.acquiring post n la).wait = Wait.none
    ∧ (a.acquiring post n la).acqPid = a.acqPid ++ [a.nextPid]
    ∧ (a.acquiring post n la).pend = a.pend ++ [⟨a.nextPid, post, List.replicate n 0, 1, none⟩] := ⟨rfl, rfl, rfl, rfl, rfl⟩

/-- The device with the slot `a` for the thread, and one request more at the homes. -/
def Dev.queued (d : Dev) (a : Slot) (q : HomeReq) : Dev :=
  { d.setSlot d.cur.1 d.cur.2 a with homeQ := d.homeQ ++ [q], accSeq := d.accSeq + 1 }

theorem Dev.th_queued (d : Dev) (a : Slot) (q : HomeReq) (hk : d.cur.2 < 16) : (d.queued a q).th = a := Dev.th_setSlot d a hk

/-- A part whose value is not fixed at issue sends one request to its home; the thread waits with its later accesses. -/
theorem Dev.issueLoad_asks {d : Dev} {t : Trans} {n : Nat} {post : Post} {la : La} {sc : MemScope} (hk : d.cur.2 < 16) (ht : t.remote = false)
    (hx : d.immediate d.cur.1 d.cur.2 (t.pa / 128) (t.pa % 128) n = none) : ∃ q, d.issueLoad [⟨t, n, 0⟩] post n la (some sc)
      = d.queued (d.th.acquiring post n la) q ∧ q.kind = .load d.th.nextPid (t.pa % 128) n 0 true ∧ q.line = t.pa / 128 ∧ q.scope = sc := by
  have hask (e : Dev) : e.sendLoad d.th.nextPid (some sc) ⟨t, n, 0⟩
      = e.stamp.enqueue (e.stamp.reqOf t e.accSeq none (.load d.th.nextPid (t.pa % 128) n 0 true) sc false false) := by
    simp [Dev.sendLoad, ht, Dev.stamp]
  have hissue : d.issueLoad [⟨t, n, 0⟩] post n la (some sc)
      = ((d.retireLong d.cur.1 d.cur.2 post (List.replicate n 0) 1 la).sendLoad d.th.nextPid (some sc) ⟨t, n, 0⟩).modTh
        fun a => { a with acqPid := a.acqPid ++ [d.th.nextPid] } := by
    simp only [Dev.issueLoad, ht, hx, List.map_cons, List.map_nil, List.foldl_cons, List.foldl_nil]
    rfl
  have hqueued (e : Dev) (q : HomeReq) (f : Slot → Slot) :
      (e.stamp.enqueue q).modTh f = { e.modTh f with homeQ := e.homeQ ++ [q], accSeq := e.accSeq + 1 } := rfl
  rw [hissue, hask, Dev.retireLong_thread, hqueued, Dev.modTh_eq, Dev.th_setSlot _ _ hk, Dev.setSlot_cur, Dev.setSlot_setSlot]
  exact ⟨_, rfl, rfl, rfl, rfl⟩

/-- The write-buffer entries that one part of a store needs are at most one, and none for the thread's leased line. -/
theorem Dev.wbNeed_one (d : Dev) (u : SUnit) : d.wbNeed [u] ≤ 1 := by
  unfold Dev.wbNeed
  refine (List.length_filter_le ..).trans ((length_eraseDups_le _).trans ?_)
  rw [List.length_map]
  exact List.length_filterMap_le ..

theorem Dev.wbNeed_leased {d : Dev} {u : SUnit} (h : u.t.remote = false) (hl : d.th.lease.any (·.line == u.t.pa / 128) = true) :
    d.wbNeed [u] = 0 := by
  simp [Dev.wbNeed, Dev.wbTarget_leased h hl]

/-- A slot with its lease record replaced. -/
def Slot.leaseTo (l : LeaseRec) (a : Slot) : Slot := { a with lease := some l }

theorem Slot.leaseTo_fields (a : Slot) (l : LeaseRec) (pc : Word) : (Slot.retireTo pc (a.leaseTo l)).pc = pc
    ∧ (Slot.retireTo pc (a.leaseTo l)).arrive = a.arrive ∧ (Slot.retireTo pc (a.leaseTo l)).wait = Wait.none
    ∧ (Slot.retireTo pc (a.leaseTo l)).lease = some l := ⟨rfl, rfl, rfl, rfl⟩

theorem Slot.leaseTo_frame (a : Slot) (l : LeaseRec) (pc : Word) : { flowOf a (Slot.retireTo pc (a.leaseTo l)) with lease := a.lease } = a := by
  unfold flowOf Slot.retireTo Slot.leaseTo
  rfl

/-- A releasing store into the thread's leased line stays in the record of the lease. -/
theorem Dev.storeUnit_leased {d : Dev} {u : SUnit} {l : LeaseRec} (sc : MemScope) (hu : u.t.remote = false) (hl : d.th.lease = some l)
    (hline : l.line = u.t.pa / 128) : ∃ l', (∃ b m, l' = { l with buf := b, mask := m, rels := l.rels ++ [(d.accSeq, sc)] })
      ∧ d.storeUnit (some sc) u = d.stamp.modTh (Slot.leaseTo l') := by
  simp only [Dev.storeUnit, hu, hl, hline]
  exact ⟨_, ⟨_, _, rfl⟩, rfl⟩

theorem Dev.storeUnit_here {d : Dev} {u : SUnit} (srel : Option MemScope) (hu : u.t.remote = false)
    (hl : d.th.lease.any (·.line == u.t.pa / 128) = false) : Dev.storeUnit srel d u = d.stamp.wbAdd d.cur.1 (d.storeEntryOf srel u u.t) := by
  unfold Dev.storeUnit
  rw [hu]
  cases hlease : d.th.lease with
  | none => rfl
  | some l =>
    rw [hlease] at hl
    have hne : l.line ≠ u.t.pa / 128 := by simpa using hl
    exact if_neg hne

/-- A releasing store joins no entry of the write buffer (R123). -/
theorem Dev.wbAdd_srel (d : Dev) (r : Nat) {n : WbEntry} (h : n.srel.isSome) :
    d.wbAdd r n = d.modCore r fun c => { c with wb := (d.core r).wb ++ [n] } := by
  unfold Dev.wbAdd
  have hn : (n.srel.isNone && !n.wback) = false := by rw [Option.isNone_eq_false_iff.mpr h, Bool.false_and]
  simp only [hn]
  rfl

theorem getD_leBytes {n k : Nat} (x : Nat) (h : k < n) : (leBytes n x).getD k 0 = BitVec.ofNat 8 (x / 256 ^ k) := by
  induction n generalizing x k with
  | zero => omega
  | succ n ih =>
    cases k with
    | zero => simp [leBytes]
    | succ k =>
      rw [leBytes, List.getD_cons_succ, ih _ (Nat.lt_of_succ_lt_succ h), Nat.div_div_eq_div_mul, Nat.pow_succ, Nat.mul_comm]

/-- The bytes of a value are those of its low bytes. -/
theorem ofNat_byte_mod {n k : Nat} (x : Nat) (h : k < n) : BitVec.ofNat 8 (x % 256 ^ n / 256 ^ k) = BitVec.ofNat 8 (x / 256 ^ k) := by
  refine BitVec.eq_of_toNat_eq ?_
  have hpow : 256 ^ n = 256 ^ k * 256 ^ (n - k) := by rw [← Nat.pow_add]; congr 1; omega
  have hdvd : 2 ^ 8 ∣ 256 ^ (n - k) := dvd_pow_self 256 (by omega)
  rw [BitVec.toNat_ofNat, BitVec.toNat_ofNat, hpow, Nat.mod_mul_right_div_self, Nat.mod_mod_of_dvd _ hdvd]

/-! ### The mark of a `fence.rel` (R196) -/

/-- A slot with the mark of a `fence.rel`. -/
def Slot.releaseMarked (m : Nat) (sc : MemScope) (a : Slot) : Slot := { a with relMark := some (m, sc) }

theorem Slot.releaseMarked_fields (a : Slot) (m : Nat) (sc : MemScope) (pc : Word) : (Slot.retireTo pc (a.releaseMarked m sc)).pc = pc
    ∧ (Slot.retireTo pc (a.releaseMarked m sc)).arrive = a.arrive ∧ (Slot.retireTo pc (a.releaseMarked m sc)).wait = Wait.none
    ∧ (Slot.retireTo pc (a.releaseMarked m sc)).relMark = some (m, sc) := ⟨rfl, rfl, rfl, rfl⟩

theorem Slot.releaseMarked_frame (a : Slot) (m : Nat) (sc : MemScope) (pc : Word) :
    { flowOf a (Slot.retireTo pc (a.releaseMarked m sc)) with relMark := a.relMark } = a := by
  unfold flowOf Slot.retireTo Slot.releaseMarked
  rfl

/-! ### An instruction that waits (R255) -/

/-- The thread parked under `w`, with the mark of its first execution (R194). -/
def Dev.parkedUnder (d : Dev) (w : Wait) : Dev :=
  d.setSlot d.cur.1 d.cur.2 { d.th with wait := w, opMark := some (d.th.opMark.getD d.accSeq), fresh := none }

theorem State.thread_park {use : RegUse} {body : Dev → Chk Dev} {s : State} {w : Wait} (hl : s.dev.th.laheadHit use = false)
    (hp : s.dev.th.parityHit use = false) (hb : body s.dev = park w) :
    s.thread use body = .next { s with dev := s.dev.stopAt s.dev.cur.1 s.dev.cur.2 (.park w) } := by
  simp [State.thread, State.onDev, Dev.runThread, hl, hp, hb, park]

end Sys2Proof.Machine

namespace Sys2Proof.Claims
open Machine

theorem parks_of_exec {i : Instr} {s : State} {use : RegUse} {body : Dev → Chk Dev} {w : Wait} (hready : Ready use s)
    (hexec : exec i s = s.thread use body) (hbody : body s.dev = park w)
    (hw : s.dev.stopAt s.dev.cur.1 s.dev.cur.2 (.park w) = s.dev.parkedUnder w) : Parks i s w := by
  obtain ⟨hk, hl, hp⟩ := hready
  have hth : (s.dev.parkedUnder w).th = _ := Dev.th_setSlot _ _ hk
  refine ⟨_, hexec.trans (State.thread_park hl hp hbody), ?_⟩
  rw [hw]
  refine ⟨threadOnly_setSlot .., ?_⟩
  dsimp only
  rw [hth]
  exact ⟨rfl, rfl⟩

/-- A thread whose slot alone changes beside the acquire. -/
theorem acquired_setSlot (s : State) (a : Slot) (sc : MemScope) :
    Acquired s { s with dev := (s.dev.acquire sc).setSlot s.dev.cur.1 s.dev.cur.2 a } sc := by
  have hcur : ((s.dev.acquire sc).setSlot s.dev.cur.1 s.dev.cur.2 a).cur = s.dev.cur := Dev.cur_acquire ..
  obtain ⟨v, hv⟩ := Dev.core_setSlot_slots (s.dev.acquire sc) s.dev.cur.1 s.dev.cur.2 a s.dev.cur.1
  have hcore : ((s.dev.acquire sc).setSlot s.dev.cur.1 s.dev.cur.2 a).curCore
      = { s.dev.curCore with l1d := if sc = .cr then s.dev.curCore.l1d else [], slots := v } := by
    rw [Dev.curCore, hcur, hv, ← Dev.cur_acquire s.dev sc]
    exact congrArg (fun c : Core => { c with slots := v }) (Dev.curCore_acquire ..)
  refine ⟨by rw [hcore], fun r hr => ?_, Dev.acquire_device .., rfl, rfl, by rw [hcore], fun k hne => ?_⟩
  · exact (Dev.core_setSlot_ne _ _ _ _ _ hr).trans (Dev.core_acquire_ne _ _ hr)
  · exact (Dev.slot_setSlot_ne _ _ _ _ _ _ fun h => hne h.2).trans (Dev.slot_acquire ..)

/-- The same with the requests of the thread at the homes. -/
theorem requestOnly_queued (s : State) (a : Slot) (q : HomeReq) : RequestOnly s { s with dev := s.dev.queued a q } := by
  obtain ⟨-, -, -, -, -, hcores, hslots, hmemory, hlocal⟩ := threadOnly_setSlot s a
  exact ⟨rfl, rfl, rfl, hcores, hslots, hmemory, hlocal⟩

/-! ### lacq and srel (R270) -/

theorem widthOf_dvd (w : Bool) : widthOf w ∣ 128 := by cases w <;> decide
theorem widthOf_ne_zero (w : Bool) : widthOf w ≠ 0 := by cases w <;> decide

theorem exec_lacq (rd ra : RegNo) (w : Bool) (sc : MemScope) (sg : SegNo) (la : La) (s : State) : exec (.lacq rd ra w sc sg la) s
    = s.thread { rx := [ra], wx := [rd], rs := [sg] } fun d => d.load sg (d.x ra) (widthOf w) (widthOf w) (.sext rd (widthOf w)) la (some sc) := rfl

theorem exec_srel (rd ra : RegNo) (w : Bool) (sc : MemScope) (sg : SegNo) (s : State) : exec (.srel rd ra w sc sg) s
    = s.thread { rx := [ra, rd], rs := [sg] } fun d =>
      d.store sg (d.x ra) (widthOf w) (widthOf w) ((d.x rd).toNat % 256 ^ widthOf w) (some sc) := rfl

/-- A result that is known at once acquires at once. -/
theorem gives_acquired {i : Instr} {s : State} {post : Post} {raw : List Byte} {la : La} {sc : MemScope} (hk : s.dev.cur.2 < 16)
    (hexec : exec i s = .next { s with dev := (s.dev.retireLong s.dev.cur.1 s.dev.cur.2 post raw 0 la).acquire sc }) :
    Gives i s fun t => InSequence s t ∧ AddsPending s t post raw 0 la ∧ Acquired s t sc := by
  rw [Dev.retireLong_thread] at hexec
  obtain ⟨hseq, hpend⟩ := addsPending_outstanding (s := s)
    (t := { s with dev := (s.dev.setSlot s.dev.cur.1 s.dev.cur.2 (s.dev.th.outstanding post raw 0 la)).acquire sc })
    ((Dev.th_acquire ..).trans (Dev.th_setSlot _ _ hk))
  refine ⟨_, hexec, hseq, hpend, ?_⟩
  rw [Dev.acquire_setSlot]
  exact acquired_setSlot ..

/-- A thread that waits for an acquiring read goes on in sequence. -/
theorem inSequence_acquiring {s t : State} {post : Post} {n : Nat} {la : La} (h : t.dev.th = s.dev.th.acquiring post n la) :
    InSequence s t ∧ t.dev.th.acqPid = s.dev.th.acqPid ++ [s.dev.th.nextPid]
      ∧ t.dev.th.pend = s.dev.th.pend ++ [⟨s.dev.th.nextPid, post, List.replicate n 0, 1, none⟩] := by
  obtain ⟨hpc, harrive, hwait, hpid, hpend⟩ := s.dev.th.acquiring_fields post n la
  unfold InSequence GoesOn
  rw [h]
  exact ⟨⟨hpc, harrive, hwait⟩, hpid, hpend⟩

section
variable {rd ra : RegNo} {w : Bool} {sc : MemScope} {sg : SegNo} {la : La} {s : State}

section
variable (hready : Ready { rx := [ra], wx := [rd], rs := [sg] } s)
include hready

theorem lacq_local {a : Nat} (h : LoadsFrom s sg (s.dev.x ra) (widthOf w) (widthOf w) (.loc a)) (hbad : s.dev.curCore.localBad a (widthOf w) = none) :
    Gives (.lacq rd ra w sc sg la) s fun t => InSequence s t
      ∧ AddsPending s t (.sext rd (widthOf w)) (s.dev.curCore.lmem.bytes a (widthOf w)) 0 la ∧ Acquired s t sc := by
  obtain ⟨hk, hl, hp⟩ := hready
  obtain ⟨ho, hacq⟩ := h
  exact gives_acquired hk ((exec_lacq ..).trans (State.thread_ok hl hp (Dev.load_local hacq ho hbad)))

variable {tr : Trans} (h : LoadsFrom s sg (s.dev.x ra) (widthOf w) (widthOf w) (.glob [(tr, 0, widthOf w)]))
  (halign : (segBase (s.dev.th.seg sg) + uv (s.dev.x ra)) % widthOf w = 0)
include h halign

/-- An aligned global read has one part. -/
theorem exec_lacq_global : exec (.lacq rd ra w sc sg la) s
    = .next { s with dev := s.dev.issueLoad [⟨tr, widthOf w, 0⟩] (.sext rd (widthOf w)) (widthOf w) la (some sc) } := by
  obtain ⟨hk, hl, hp⟩ := hready
  obtain ⟨ho, hacq⟩ := h
  rw [← loadUnits_aligned tr halign (widthOf_dvd w)]
  exact (exec_lacq ..).trans (State.thread_ok hl hp (Dev.load_global hacq ho))

variable (hhere : tr.remote = false)
include hhere

theorem lacq_immediate {x : Nat} (hx : s.dev.immediate s.dev.cur.1 s.dev.cur.2 (tr.pa / 128) (tr.pa % 128) (widthOf w) = some x) :
    Gives (.lacq rd ra w sc sg la) s fun t => InSequence s t
      ∧ AddsPending s t (.sext rd (widthOf w)) (leBytes (widthOf w) x) 0 la ∧ Acquired s t sc := by
  have hexec := exec_lacq_global (sc := sc) (la := la) hready h halign
  rw [Dev.issueLoad_immediate hhere hx] at hexec
  exact gives_acquired hready.1 hexec

theorem lacq_asks (hx : s.dev.immediate s.dev.cur.1 s.dev.cur.2 (tr.pa / 128) (tr.pa % 128) (widthOf w) = none) :
    Gives (.lacq rd ra w sc sg la) s fun t => InSequence s t ∧ RequestOnly s t ∧ t.dev.th.acqPid = [s.dev.th.nextPid]
      ∧ t.dev.th.pend = s.dev.th.pend ++ [⟨s.dev.th.nextPid, .sext rd (widthOf w), List.replicate (widthOf w) 0, 1, none⟩]
      ∧ ∃ q, t.dev.homeQ = s.dev.homeQ ++ [q] ∧ q.kind = .load s.dev.th.nextPid (tr.pa % 128) (widthOf w) 0 true
        ∧ q.line = tr.pa / 128 ∧ q.scope = sc := by
  have hexec := exec_lacq_global (sc := sc) (la := la) hready h halign
  obtain ⟨q, hissue, hq⟩ := Dev.issueLoad_asks (post := .sext rd (widthOf w)) (la := la) (sc := sc) hready.1 hhere hx
  rw [hissue] at hexec
  obtain ⟨hseq, hpid, hpend⟩ := inSequence_acquiring (s := s)
    (t := { s with dev := s.dev.queued (s.dev.th.acquiring (.sext rd (widthOf w)) (widthOf w) la) q })
    (Dev.th_queued _ _ _ hready.1)
  exact ⟨_, hexec, hseq, requestOnly_queued .., by rw [hpid, h.2, List.nil_append], hpend, q, rfl, hq⟩
end

variable (hready : Ready { rx := [ra, rd], rs := [sg] } s)
include hready

theorem srel_parks {a : Nat} (h : StoresTo s sg (s.dev.x ra) (widthOf w) (widthOf w) (.loc a))
    (hgate : s.dev.gateOpen (s.dev.gateWaiting sc) = false) :
    Parks (.srel rd ra w sc sg) s (.release (s.dev.gateWaiting sc)) := by
  obtain ⟨ho, hacq, hrel⟩ := h
  exact parks_of_exec hready (exec_srel ..) ((Dev.srel_local hacq hrel ho).trans (if_neg (Bool.eq_false_iff.mp hgate))) rfl

theorem srel_writes {a : Nat} (h : StoresTo s sg (s.dev.x ra) (widthOf w) (widthOf w) (.loc a)) (hwf : s.dev.curCore.lmem.wf = true)
    (hgate : s.dev.gateOpen (s.dev.gateWaiting sc) = true) : Gives (.srel rd ra w sc sg) s fun t => InSequence s t
      ∧ t.dev.mem = s.dev.mem ∧ flowOf s.dev.th t.dev.th = s.dev.th
      ∧ (∀ k < widthOf w, t.dev.curCore.lmem.get (a + k) = BitVec.ofNat 8 (uv (s.dev.x rd) / 256 ^ k))
      ∧ (∀ b, (b < a ∨ a + widthOf w ≤ b) → t.dev.curCore.lmem.get b = s.dev.curCore.lmem.get b) := by
  obtain ⟨hk, hl, hp⟩ := hready
  obtain ⟨ho, hacq, hrel⟩ := h
  have hbody := (Dev.srel_local (x := (s.dev.x rd).toNat % 256 ^ widthOf w) hacq hrel ho).trans (if_pos hgate)
  have hth : (s.dev.modCur fun c => c.localWrite a (leBytes (widthOf w) ((s.dev.x rd).toNat % 256 ^ widthOf w))).th = s.dev.th :=
    slot_modCore_slots (by exact fun _ => rfl) s.dev _ _ _
  refine ⟨_, (exec_srel ..).trans (State.thread_ok hl hp hbody),
    inSequence_retire_of hk rfl (congrArg Slot.pc hth) (congrArg Slot.arrive hth), Dev.setSlot_mem .., flowOf_retire hk rfl hth,
    fun k hlt => ?_, fun b hb => ?_⟩
  · dsimp only
    rw [Dev.curCore_retire, Dev.curCore_modCur]
    refine (Mem.get_setBytes_inside a _ k hwf (by rwa [length_leBytes])).trans ?_
    rw [getD_leBytes _ hlt, ofNat_byte_mod _ hlt]
  · dsimp only
    rw [Dev.curCore_retire, Dev.curCore_modCur]
    exact Mem.get_setBytes_outside a _ b hwf (by rwa [length_leBytes])

variable {tr : Trans} (h : StoresTo s sg (s.dev.x ra) (widthOf w) (widthOf w) (.glob [(tr, 0, widthOf w)])) (hhere : tr.remote = false)
  (hline : tr.pa % 128 + widthOf w ≤ 128)
include h hline

/-- A global store within a line has one part. -/
theorem exec_srel_global (hroom : ∀ u : SUnit, u.t = tr → s.dev.wbRoom [u] = true) : ∃ u : SUnit, u.t = tr ∧ u.size = widthOf w
    ∧ u.val = uv (s.dev.x rd) % 256 ^ widthOf w
    ∧ exec (.srel rd ra w sc sg) s = .next { s with dev := (Dev.storeUnit (some sc) s.dev u).retire } := by
  obtain ⟨hk, hl, hp⟩ := hready
  obtain ⟨ho, hacq, hrel⟩ := h
  have hunits := storeUnits_line tr (segBase (s.dev.th.seg sg) + (s.dev.x ra).toNat) ((s.dev.x rd).toNat % 256 ^ widthOf w) (widthOf_ne_zero w) hline
  have hbody := Dev.srel_global (sc := sc) (x := (s.dev.x rd).toNat % 256 ^ widthOf w) hacq hrel ho (by rw [hunits]; exact hroom _ rfl)
  rw [hunits] at hbody
  exact ⟨_, rfl, rfl, Nat.mod_mod .., (exec_srel ..).trans (State.thread_ok hl hp hbody)⟩

include hhere

theorem srel_leased {l : LeaseRec} (hlease : s.dev.th.lease = some l) (hl : l.line = tr.pa / 128) (hwb : s.dev.curCore.wb.length ≤ 32) :
    Gives (.srel rd ra w sc sg) s fun t => InSequence s t ∧ t.dev.mem = s.dev.mem ∧ t.dev.curCore.wb = s.dev.curCore.wb
      ∧ { flowOf s.dev.th t.dev.th with lease := s.dev.th.lease } = s.dev.th
      ∧ ∃ b m, t.dev.th.lease = some { l with buf := b, mask := m, rels := l.rels ++ [(s.dev.accSeq, sc)] } := by
  have hroom (u : SUnit) (hu : u.t = tr) : s.dev.wbRoom [u] = true := by
    have hany : s.dev.th.lease.any (·.line == u.t.pa / 128) = true := by simp [hlease, hu, hl]
    rw [Dev.wbRoom, Dev.wbNeed_leased (hu ▸ hhere) hany]
    exact decide_eq_true hwb
  obtain ⟨u, rfl, -, -, hexec⟩ := exec_srel_global (sc := sc) hready h hline hroom
  obtain ⟨l', ⟨b, m, hrels⟩, hunit⟩ := Dev.storeUnit_leased sc hhere hlease hl
  have hdev : (s.dev.stamp.modTh (Slot.leaseTo l')).retire
      = s.dev.stamp.setSlot s.dev.cur.1 s.dev.cur.2 (Slot.retireTo (link s.dev.th.pc) (s.dev.th.leaseTo l')) := Dev.modTh_modTh _ _ _ hready.1
  rw [hunit, hdev] at hexec
  have hth := Dev.th_setSlot s.dev.stamp (Slot.retireTo (link s.dev.th.pc) (s.dev.th.leaseTo l')) hready.1
  obtain ⟨v, hcore⟩ := Dev.core_setSlot_slots s.dev.stamp s.dev.cur.1 s.dev.cur.2
    (Slot.retireTo (link s.dev.th.pc) (s.dev.th.leaseTo l')) s.dev.cur.1
  obtain ⟨hpc, harrive, hwait, hl'⟩ := s.dev.th.leaseTo_fields l' (link s.dev.th.pc)
  exact ⟨_, hexec, ⟨(congrArg Slot.pc hth).trans hpc, (congrArg Slot.arrive hth).trans harrive, (congrArg Slot.wait hth).trans hwait⟩,
    Dev.setSlot_mem .., (congrArg Core.wb hcore :),
    (congrArg (fun a => { flowOf s.dev.th a with lease := s.dev.th.lease }) hth).trans (Slot.leaseTo_frame ..), b, m,
    (congrArg Slot.lease hth).trans (hl'.trans (congrArg some hrels))⟩

theorem srel_enters (hlease : s.dev.th.lease.any (·.line == tr.pa / 128) = false) (hwb : s.dev.curCore.wb.length < 32) :
    Gives (.srel rd ra w sc sg) s fun t => InSequence s t ∧ t.dev.mem = s.dev.mem ∧ flowOf s.dev.th t.dev.th = s.dev.th
      ∧ ∃ e, t.dev.curCore.wb = (s.dev.wbAdd s.dev.cur.1 e).curCore.wb ∧ e.line = tr.pa / 128 ∧ e.mask = byteMask (tr.pa % 128) (widthOf w)
        ∧ e.data = lineSet 0 (tr.pa % 128) (widthOf w) (uv (s.dev.x rd) % 256 ^ widthOf w) ∧ e.srel = some (s.dev.cur.2, sc) := by
  have hroom (u : SUnit) (_ : u.t = tr) : s.dev.wbRoom [u] = true := by
    have hneed := s.dev.wbNeed_one u
    have hlen : (s.dev.core s.dev.cur.1).wb.length < 32 := hwb
    exact decide_eq_true (by omega)
  obtain ⟨u, rfl, hsize, hval, hexec⟩ := exec_srel_global (sc := sc) hready h hline hroom
  rw [Dev.storeUnit_here (some sc) hhere hlease, Dev.wbAdd_srel _ _ rfl] at hexec
  have hth : (s.dev.stamp.modCore s.dev.cur.1 fun c => { c with wb := (s.dev.stamp.core s.dev.cur.1).wb ++ [s.dev.storeEntryOf (some sc) u u.t] }).th
      = s.dev.th := slot_modCore_slots (by exact fun _ => rfl) s.dev.stamp _ _ _
  refine ⟨_, hexec, inSequence_retire_of hready.1 rfl (congrArg Slot.pc hth) (congrArg Slot.arrive hth), Dev.setSlot_mem ..,
    flowOf_retire hready.1 rfl hth, s.dev.storeEntryOf (some sc) u u.t, ?_, rfl,
    congrArg (byteMask _) hsize, congrArg₂ (lineSet 0 _) hsize hval, rfl⟩
  dsimp only
  rw [Dev.wbAdd_srel _ _ rfl, Dev.curCore_retire]
  exact (congrArg Core.wb (Dev.curCore_modCur s.dev.stamp _)).trans
    (congrArg Core.wb (Dev.curCore_modCur s.dev fun c => { c with wb := (s.dev.core s.dev.cur.1).wb ++ [s.dev.storeEntryOf (some sc) u u.t] })).symm
end

/-! ### Fences (R196) -/

/-- A fence that acquires and goes on. -/
theorem gives_acquire_retire {i : Instr} {s : State} {sc : MemScope} (hk : s.dev.cur.2 < 16)
    (hexec : exec i s = .next { s with dev := (s.dev.acquire sc).retire }) :
    Gives i s fun t => InSequence s t ∧ Acquired s t sc ∧ flowOf s.dev.th t.dev.th = s.dev.th := by
  have hcur := s.dev.cur_acquire sc
  have hth := s.dev.th_acquire sc
  refine ⟨_, hexec, inSequence_retire_of hk hcur (congrArg Slot.pc hth) (congrArg Slot.arrive hth), ?_, flowOf_retire hk hcur hth⟩
  rw [Dev.retire_eq, hcur]
  exact acquired_setSlot ..

theorem exec_fenceAcq (sc : MemScope) (s : State) : exec (.fenceAcq sc) s = s.thread {} fun d => (do
    d.acqHeld
    if d.loadsPerformed then .ok ((d.acquire sc).retire) else park (.fence none)) := rfl

theorem exec_fenceAr (sc : MemScope) (s : State) : exec (.fenceAr sc) s = s.thread {} fun d => (do
    d.acqHeld
    if d.loadsPerformed && d.gateOpen (d.gateWaiting sc) then .ok ((d.acquire sc).retire) else park (.fence (some (d.gateWaiting sc)))) := rfl

theorem exec_fenceRel (sc : MemScope) (s : State) : exec (.fenceRel sc) s = s.thread {} fun d => (do
    d.relHeld
    .ok ((d.modTh fun t => { t with relMark := some (d.accSeq, sc) }).retire)) := rfl

section
variable {s : State} {sc : MemScope} (hready : Ready {} s)
include hready

section
variable (hacq : s.dev.th.acqPid = [])
include hacq

theorem fenceAcq_gives (hloads : s.dev.loadsPerformed = true) :
    Gives (.fenceAcq sc) s fun t => InSequence s t ∧ Acquired s t sc ∧ flowOf s.dev.th t.dev.th = s.dev.th := by
  obtain ⟨hk, hl, hp⟩ := hready
  refine gives_acquire_retire hk ((exec_fenceAcq ..).trans (State.thread_ok hl hp ?_))
  rw [Dev.acqHeld_none hacq]
  exact if_pos hloads

theorem fenceAcq_waits (hloads : s.dev.loadsPerformed = false) : Parks (.fenceAcq sc) s (.fence none) := by
  refine parks_of_exec hready (exec_fenceAcq ..) ?_ rfl
  rw [Dev.acqHeld_none hacq]
  exact if_neg (Bool.eq_false_iff.mp hloads)

theorem fenceAr_gives (hloads : s.dev.loadsPerformed = true) (hgate : s.dev.gateOpen (s.dev.gateWaiting sc) = true) :
    Gives (.fenceAr sc) s fun t => InSequence s t ∧ Acquired s t sc ∧ flowOf s.dev.th t.dev.th = s.dev.th := by
  obtain ⟨hk, hl, hp⟩ := hready
  refine gives_acquire_retire hk ((exec_fenceAr ..).trans (State.thread_ok hl hp ?_))
  rw [Dev.acqHeld_none hacq]
  exact if_pos (Bool.and_eq_true_iff.mpr ⟨hloads, hgate⟩)

theorem fenceAr_waits (hwait : s.dev.loadsPerformed = false ∨ s.dev.gateOpen (s.dev.gateWaiting sc) = false) :
    Parks (.fenceAr sc) s (.fence (some (s.dev.gateWaiting sc))) := by
  refine parks_of_exec hready (exec_fenceAr ..) ?_ rfl
  rw [Dev.acqHeld_none hacq]
  exact if_neg (Bool.eq_false_iff.mp (Bool.and_eq_false_iff.mpr hwait))
end

/-- Both acquiring fences wait for an acquiring read. -/
theorem fences_wait (hacq : s.dev.th.acqPid ≠ []) : Parks (.fenceAcq sc) s .acquire ∧ Parks (.fenceAr sc) s .acquire := by
  constructor
  · refine parks_of_exec hready (exec_fenceAcq ..) ?_ rfl
    rw [Dev.acqHeld_some hacq]
    rfl
  · refine parks_of_exec hready (exec_fenceAr ..) ?_ rfl
    rw [Dev.acqHeld_some hacq]
    rfl

/-- `fence.rel` marks the thread's release, once an earlier one lets it. -/
theorem fenceRel_gives (hrel : s.dev.relHeld = .ok ()) : Gives (.fenceRel sc) s fun t => InSequence s t ∧ ThreadOnly s t
    ∧ t.dev.th.relMark = some (s.dev.accSeq, sc) ∧ { flowOf s.dev.th t.dev.th with relMark := s.dev.th.relMark } = s.dev.th := by
  obtain ⟨hk, hl, hp⟩ := hready
  have hdev : (s.dev.modTh fun t => { t with relMark := some (s.dev.accSeq, sc) }).retire
      = s.dev.setSlot s.dev.cur.1 s.dev.cur.2 (Slot.retireTo (link s.dev.th.pc) (s.dev.th.releaseMarked s.dev.accSeq sc)) :=
    Dev.modTh_modTh _ _ _ hk
  have hbody : (do s.dev.relHeld; .ok ((s.dev.modTh fun t => { t with relMark := some (s.dev.accSeq, sc) }).retire) : Chk Dev)
      = .ok (s.dev.setSlot s.dev.cur.1 s.dev.cur.2 (Slot.retireTo (link s.dev.th.pc) (s.dev.th.releaseMarked s.dev.accSeq sc))) := by
    rw [hrel, ← hdev]
    rfl
  have hth := Dev.th_setSlot s.dev (Slot.retireTo (link s.dev.th.pc) (s.dev.th.releaseMarked s.dev.accSeq sc)) hk
  obtain ⟨hpc, harrive, hwait, hmark⟩ := s.dev.th.releaseMarked_fields s.dev.accSeq sc (link s.dev.th.pc)
  exact ⟨_, (exec_fenceRel ..).trans (State.thread_ok hl hp hbody),
    ⟨(congrArg Slot.pc hth).trans hpc, (congrArg Slot.arrive hth).trans harrive, (congrArg Slot.wait hth).trans hwait⟩, threadOnly_setSlot ..,
    (congrArg Slot.relMark hth).trans hmark,
    (congrArg (fun a => { flowOf s.dev.th a with relMark := s.dev.th.relMark }) hth).trans (Slot.releaseMarked_frame ..)⟩


theorem fenceRel_waits {m : Nat} {sc' : MemScope} (hmark : s.dev.th.relMark = some (m, sc'))
    (hgate : s.dev.gateOpen (s.dev.gateAt s.dev.cur.1 s.dev.cur.2 m sc' none) = false) :
    Parks (.fenceRel sc) s (.release (s.dev.gateAt s.dev.cur.1 s.dev.cur.2 m sc' none)) := by
  have hheld : s.dev.relHeld = park (.release (s.dev.gateAt s.dev.cur.1 s.dev.cur.2 m sc' none)) := by
    rw [Dev.relHeld, hmark]
    exact if_neg (Bool.eq_false_iff.mp hgate)
  refine parks_of_exec hready (exec_fenceRel ..) ?_ rfl
  rw [hheld]
  rfl

end

end Sys2Proof.Claims

section
open Sys2Proof Sys2Proof.Machine Sys2Proof.Claims

/-- Settles O10: `lacq` by where its bytes come from, `srel` by where its bytes go, the fences by what they wait for. -/
theorem orderedAccessesAndFences : Obligations.OrderedAccessesAndFences := by
  refine ⟨⟨fun rd ra w sc sg la s hready => ⟨fun a h hbad => lacq_local hready h hbad,
    fun tr h hhere halign hx => lacq_asks hready h halign hhere hx,
    fun tr x h hhere halign hx => lacq_immediate hready h halign hhere hx⟩, fun rd ra w sc sg s hready =>
      ⟨fun a h hwf => ⟨srel_parks hready h, srel_writes hready h hwf⟩,
        fun tr l h hhere hlease hl hline hwb => srel_leased hready h hhere hline hlease hl hwb,
        fun tr h hhere hlease hline hwb => srel_enters hready h hhere hline hlease hwb⟩⟩, fun sc s hready => ?_⟩
  refine ⟨fenceAcq_gives hready, fenceAcq_waits hready, fences_wait hready, fun m sc' hmark => ⟨fenceRel_waits hready hmark, fun hgate => ?_⟩,
    fun hmark => fenceRel_gives hready (Dev.relHeld_none hmark), fenceAr_gives hready, fenceAr_waits hready⟩
  have hheld : s.dev.relHeld = .ok () := by
    rw [Dev.relHeld, hmark]
    exact if_pos hgate
  exact fenceRel_gives hready hheld

end
